-- ==== Sys2Proof/Word.lean ====
section
/-! DEFINITION. The word types of the Kilgar (00 R2, R4) and the plainest arithmetic over them, the
finite maps that the state is built from, and the small records that the operands of the table's
events name. -/

namespace Sys2Proof

/-- A 32-bit register value or instruction word. -/
abbrev Word := BitVec 32
/-- A 64-bit value: a register pair, a counter, an address before translation. -/
abbrev DWord := BitVec 64
/-- The unit of memory (00 R2). -/
abbrev Byte := BitVec 8
/-- One bit for each of the 32 lanes of a warp. -/
abbrev Mask := BitVec 32
/-- A 64-byte record: a launch descriptor, a graph node, a control block. -/
abbrev Block := BitVec 512

/-- A finite map from numbers: rising keys, each once. -/
abbrev Map (α : Type) := List (Nat × α)

/-- The value at key `k`, or `d` where the map lists none. -/
def Map.get {α : Type} (d : α) : Map α → Nat → α
  | [], _ => d
  | (k, x) :: m, n => if k = n then x else Map.get d m n

/-- The value at key `k`, if the map lists one. -/
def Map.find {α : Type} : Map α → Nat → Option α
  | [], _ => none
  | (k, x) :: m, n => if k = n then some x else Map.find m n

/-- Set key `n`, keeping the keys in rising order. -/
def Map.set {α : Type} : Map α → Nat → α → Map α
  | [], n, y => [(n, y)]
  | (k, x) :: m, n, y =>
    if n < k then (n, y) :: (k, x) :: m
    else if n = k then (n, y) :: m
    else (k, x) :: Map.set m n y

/-- Remove key `n`. -/
def Map.del {α : Type} (m : Map α) (n : Nat) : Map α := m.filter fun e => e.1 != n

/-- Change the value at key `n` (its default is `d`). -/
def Map.upd {α : Type} (d : α) (m : Map α) (n : Nat) (f : α → α) : Map α :=
  m.set n (f (m.get d n))

/-- The lanes of a mask, ascending (00 R8, R9). -/
def lanesOf (m : Mask) : List Nat := (List.range 32).filter fun l => m.getLsbD l

/-- The mask of the lanes of which `f` holds. -/
def maskOf (f : Nat → Bool) : Mask :=
  (List.range 32).foldl (fun m l => if f l then m ||| (1#32 <<< l) else m) 0#32

/-- Bits [hi:lo] of a natural number, as a number (00 R9). -/
def bitsOf (x hi lo : Nat) : Nat := (x >>> lo) % 2 ^ (hi + 1 - lo)

/-- One bit of a number. -/
def bitOf (x i : Nat) : Bool := x.testBit i

/-- The 64-bit value of an even-odd pair, low word in the lower-numbered register (00 R2). -/
def pairOf (lo hi : Word) : DWord := hi ++ lo

/-- Low word of a 64-bit value. -/
def lo32 (x : DWord) : Word := x.extractLsb' 0 32
/-- High word of a 64-bit value. -/
def hi32 (x : DWord) : Word := x.extractLsb' 32 32

/-- A number from bytes, the least significant byte first (00 R2). -/
def leNat : List Byte → Nat
  | [] => 0
  | b :: bs => b.toNat + 256 * leNat bs

/-- The `n` low bytes of a number, the least significant first (00 R2). -/
def leBytes : Nat → Nat → List Byte
  | 0, _ => []
  | n + 1, x => BitVec.ofNat 8 x :: leBytes n (x / 256)

/-- The number rounded up to a whole quotient. -/
def ceilDiv (a b : Nat) : Nat := (a + b - 1) / b

/-- Detail of one trap: what TDET0 to TDET2 and EPC receive (20 R371, R372). -/
structure TrapInfo where
  group : Nat
  code : Nat
  async : Bool
  lv : Bool
  lane : Nat
  t1 : Word
  t2 : Word
  /-- the restart PC that EPC receives; for an asynchronous trap it is found when the trap is taken -/
  epc : Word
  deriving DecidableEq, Repr

/-- One register or register-block cell written by the host, an application core or an agent (23 R408). -/
inductive Writer where
  | host
  | app (core : Nat)
  | agent (die core : Nat)
  deriving DecidableEq, Repr

/-- An access of a peer to this module's memory (16 R325): an atomic's operation code as ATOM's. -/
inductive PeerOp where
  | read
  | write (bytes : List Byte)
  | atom (o : Nat) (x : DWord)
  | cas (old new : DWord)
  | add (inc : DWord)
  | wait (thr : DWord)
  deriving DecidableEq, Repr

/-- An access of an application core (16 R326): an AMO's operation code as ATOM's, .d or .w, aq and rl. -/
inductive AppOp where
  | load (n : Nat)
  | store (bytes : List Byte)
  | amo (o : Nat) (wide : Bool) (x : DWord) (aq rl : Bool)
  deriving DecidableEq, Repr

end Sys2Proof
end

