-- ==== Sys2Proof/Machine/Flags.lean ====
section
/-! DEFINITION. Numbers and the flags they raise (04): the formats of R57, exact values, rounding with the
overflow and underflow rules of R66, and the floating-point, conversion and comparison functions of 09 R172 to
R186. Values of a format are natural numbers of its width; flags are the five bits of FSTAT. -/

namespace Sys2Proof.Machine

/-- FSTAT flags (03 R48): NX, UF, OF, DZ and NV in bits [4:0] from the high bit. -/
def fNX : Word := 16
def fUF : Word := 8
def fOF : Word := 4
def fDZ : Word := 2
def fNV : Word := 1
/-- QSTAT flags (04 R65). -/
def qZBLK : Word := 8
def qCLIP : Word := 4
def qNAN : Word := 2
def qINF : Word := 1

/-- Rounding modes (03 R48). -/
def rne : Nat := 0

/-- A floating-point format (04 R57). -/
inductive Fmt where
  | f32 | f16 | bf16 | e4m3 | e5m2
  deriving DecidableEq, Repr

namespace Fmt

/-- Width, exponent bits and fraction bits. -/
def width : Fmt → Nat
  | f32 => 32
  | f16 => 16
  | bf16 => 16
  | e4m3 => 8
  | e5m2 => 8
def eb : Fmt → Nat
  | f32 => 8
  | f16 => 5
  | bf16 => 8
  | e4m3 => 4
  | e5m2 => 5
def fb : Fmt → Nat
  | f32 => 23
  | f16 => 10
  | bf16 => 7
  | e4m3 => 3
  | e5m2 => 2
def bias (t : Fmt) : Nat := 2 ^ (t.eb - 1) - 1
/-- Are subnormals flushed under MODE.SUB? FP8 values never are (04 R67). -/
def flushes : Fmt → Bool
  | f32 => true
  | f16 => true
  | bf16 => true
  | e4m3 => false
  | e5m2 => false
def signBit (t : Fmt) (neg : Bool) : Nat := if neg then 2 ^ (t.width - 1) else 0
/-- Infinity; E4M3 has none, and its largest value stands here. -/
def inf (t : Fmt) : Nat := if t = e4m3 then 0x7E else (2 ^ t.eb - 1) * 2 ^ t.fb
/-- The largest finite value. -/
def maxFin (t : Fmt) : Nat := if t = e4m3 then 0x7E else (2 ^ t.eb - 1) * 2 ^ t.fb - 1
/-- The canonical NaN with a sign (04 R57, R58). -/
def nan (t : Fmt) (neg : Bool) : Nat :=
  t.signBit neg + (if t = e4m3 then 0x7F else (2 ^ t.eb - 1) * 2 ^ t.fb + 2 ^ (t.fb - 1))

end Fmt

/-- An exact finite value: (−1)^neg × m × 2^e. -/
structure Exact where
  neg : Bool
  m : Nat
  e : Int
  deriving DecidableEq, Repr

/-- What a value of a format stands for. -/
inductive Num where
  | fin (x : Exact)
  | inf (neg : Bool)
  | nan (neg : Bool)
  deriving DecidableEq, Repr

/-- The number that a format's bits encode (04 R57). -/
def unpack (t : Fmt) (b : Nat) : Num :=
  let neg := b.testBit (t.width - 1)
  let e := bitsOf b (t.width - 2) t.fb
  let f := b % 2 ^ t.fb
  if t = .e4m3 && e = 15 && f = 7 then .nan neg
  else if t != .e4m3 && e = 2 ^ t.eb - 1 then (if f = 0 then .inf neg else .nan neg)
  else if e = 0 then .fin ⟨neg, f, 1 - (t.bias : Int) - t.fb⟩
  else .fin ⟨neg, f + 2 ^ t.fb, (e : Int) - t.bias - t.fb⟩

/-- A subnormal input under MODE.SUB = 1 (04 R67). -/
def flushIn (t : Fmt) (sub : Bool) (b : Nat) : Nat :=
  if sub && t.flushes && bitsOf b (t.width - 2) t.fb = 0 then t.signBit (b.testBit (t.width - 1)) else b

/-- m × 2^e rounded to a multiple of 2^q: the multiple and whether it is inexact. -/
def rnd (neg : Bool) (rm m : Nat) (e q : Int) : Nat × Bool :=
  if q ≤ e then (m * 2 ^ (e - q).toNat, false) else
  let s := (q - e).toNat
  let k := m / 2 ^ s
  let r := m % 2 ^ s
  let half := 2 ^ (s - 1)
  let up := if rm = 0 then r > half || (r = half && k % 2 = 1) else if rm = 2 then !neg else if rm = 3 then neg else false
  if r = 0 then (k, false) else (if up then k + 1 else k, true)

/-- m × 2^e < n × 2^g. -/
def ltPow (m : Nat) (e : Int) (n : Nat) (g : Int) : Bool :=
  m * 2 ^ (e - min e g).toNat < n * 2 ^ (g - min e g).toNat

/-- An exact value rounded to a format, with its flags (04 R66, R67). -/
def roundTo (t : Fmt) (rm : Nat) (sub : Bool) (x : Exact) : Nat × Word :=
  let sb := t.signBit x.neg
  if x.m = 0 then (sb, 0) else
  let emin : Int := 1 - (t.bias : Int)
  let qu : Int := x.e + Nat.log2 x.m - t.fb
  let u := rnd x.neg rm x.m x.e qu
  let big := if t = .e4m3 then ltPow 14 5 u.1 qu
    else ltPow (2 ^ (t.fb + 1) - 1) ((t.bias : Int) - t.fb) u.1 qu
  if big then
    let toInf := rm = 0 || (rm = 2 && !x.neg) || (rm = 3 && x.neg)
    (sb + (if toInf then t.inf else t.maxFin), fOF ||| fNX)
  else
    let tiny := ltPow u.1 qu 1 emin
    let q := max qu (emin - t.fb)
    let (k, nx) := rnd x.neg rm x.m x.e q
    let fl := (if nx then fNX else 0) ||| (if tiny && nx then fUF else 0)
    if k = 0 then (sb, fl) else
    let top : Int := q + Nat.log2 k
    if top < emin then
      if sub && t.flushes then (sb, fl ||| fUF ||| fNX) else (sb + k, fl)
    else
      let full := k * 2 ^ t.fb / 2 ^ Nat.log2 k
      (sb + (top + t.bias).toNat * 2 ^ t.fb + (full - 2 ^ t.fb), fl)

/-- The exact sum of signed values. -/
def sumExact (xs : List Exact) : Int × Int :=
  let e0 := xs.foldl (fun m x => if x.m = 0 then m else min m x.e) 4096
  (xs.foldl (fun a x => if x.m = 0 then a else
    let v : Int := x.m * 2 ^ (x.e - e0).toNat
    if x.neg then a - v else a + v) 0, e0)

/-- Product of two numbers; none where it is invalid: 0 × ∞. -/
def Num.mul : Num → Num → Option Num
  | .nan n, _ => some (.nan n)
  | _, .nan n => some (.nan n)
  | .inf a, .inf b => some (.inf (a != b))
  | .inf a, .fin y => if y.m = 0 then none else some (.inf (a != y.neg))
  | .fin x, .inf b => if x.m = 0 then none else some (.inf (x.neg != b))
  | .fin x, .fin y => some (.fin ⟨x.neg != y.neg, x.m * y.m, x.e + y.e⟩)

def Num.isNan : Num → Bool
  | .nan _ => true
  | _ => false
def Num.exact : Num → Exact
  | .fin x => x
  | _ => ⟨false, 0, 0⟩

/-- The sum of numbers, each a product or an addend, rounded once (04 R58, R66, R67). -/
def sumRound (t : Fmt) (rm : Nat) (sub : Bool) (xs : List (Option Num)) : Nat × Word :=
  if xs.any Option.isNone then (t.nan false, fNV) else
  let ns := xs.filterMap id
  if ns.any Num.isNan then (t.nan false, 0) else
  let pos := ns.contains (.inf false)
  let neg := ns.contains (.inf true)
  if pos && neg then (t.nan false, fNV)
  else if pos then (t.inf, 0)
  else if neg then (t.signBit true + t.inf, 0)
  else
    let es := ns.map Num.exact
    let (v, e) := sumExact es
    if v = 0 then
      let same := es.all fun x => x.m = 0 && x.neg = (es.headD ⟨false, 0, 0⟩).neg
      (t.signBit (if same then (es.headD ⟨false, 0, 0⟩).neg else rm = 3), 0)
    else roundTo t rm sub ⟨v < 0, v.natAbs, e⟩

/-- An operand of a format, flushed under MODE.SUB. -/
def operand (t : Fmt) (sub : Bool) (b : Nat) : Num := unpack t (flushIn t sub b)

/-- The arithmetic of FP32 and the packed formats (09 R176, R180): sum, difference, product, fused. -/
def fAdd (t : Fmt) (rm : Nat) (sub : Bool) (a b : Nat) : Nat × Word :=
  sumRound t rm sub [some (operand t sub a), some (operand t sub b)]
def fNegBits (t : Fmt) (a : Nat) : Nat :=
  if a.testBit (t.width - 1) then a - 2 ^ (t.width - 1) else a + 2 ^ (t.width - 1)
def fSub (t : Fmt) (rm : Nat) (sub : Bool) (a b : Nat) : Nat × Word := fAdd t rm sub a (fNegBits t b)
def fMul (t : Fmt) (rm : Nat) (sub : Bool) (a b : Nat) : Nat × Word :=
  sumRound t rm sub [(operand t sub a).mul (operand t sub b)]
def fFma (t : Fmt) (rm : Nat) (sub : Bool) (a b c : Nat) : Nat × Word :=
  sumRound t rm sub [(operand t sub a).mul (operand t sub b), some (operand t sub c)]

/-- A key that orders values with −0 below +0 (09 R177). -/
def orderKey (t : Fmt) (b : Nat) : Int :=
  if b.testBit (t.width - 1) then -((b % 2 ^ (t.width - 1) : Nat) : Int) - 1 else (b : Int)

/-- FMIN and FMAX (09 R177). -/
def fMinMax (t : Fmt) (sub isMax : Bool) (a b : Nat) : Nat :=
  let a := flushIn t sub a
  let b := flushIn t sub b
  let na := (unpack t a).isNan
  let nb := (unpack t b).isNan
  if na && nb then t.nan false
  else if na then b
  else if nb then a
  else if isMax then (if orderKey t a < orderKey t b then b else a)
  else (if orderKey t b < orderKey t a then b else a)

/-- FCMP's condition (09 R178). -/
def fCond (c : Nat) (sub : Bool) (a b : Nat) : Bool :=
  let a := flushIn .f32 sub a
  let b := flushIn .f32 sub b
  let un := (unpack .f32 a).isNan || (unpack .f32 b).isNan
  let key (x : Nat) : Int := if x.testBit 31 then -((x % 2 ^ 31 : Nat) : Int) else (x : Int)
  let x := key a
  let y := key b
  if c = 0 then !un && x = y
  else if c = 1 then un || x ≠ y
  else if c = 2 then !un && x < y
  else if c = 3 then !un && x ≤ y
  else if c = 4 then !un && y < x
  else if c = 5 then !un && y ≤ x
  else if c = 6 then un
  else !un

/-- FCLASS (09 R179): the number of the one bit set. -/
def fClass (a : Nat) : Nat :=
  let neg := a.testBit 31
  match unpack .f32 a with
  | .nan _ => 8
  | .inf _ => if neg then 0 else 7
  | .fin x =>
    if x.m = 0 then (if neg then 3 else 4)
    else if bitsOf a 30 23 = 0 then (if neg then 2 else 5)
    else if neg then 1 else 6

/-- FRND (09 R176): an integral FP32 value, its sign kept. -/
def fRnd (rm : Nat) (sub : Bool) (a : Nat) : Nat :=
  let a := flushIn .f32 sub a
  match unpack .f32 a with
  | .nan _ => Fmt.f32.nan false
  | .inf _ => a
  | .fin x => if x.m = 0 || 0 ≤ x.e then a else
    (roundTo .f32 rm sub ⟨x.neg, (rnd x.neg rm x.m x.e 0).1, 0⟩).1

/-- An integer type (04 R60): its width and signedness. -/
structure IntTy where
  w : Nat
  signed : Bool
  deriving DecidableEq, Repr

/-- Types of the conversion selector (09 R181). -/
def cvtFloat (t : Nat) : Option Fmt :=
  if t = 1 then some .f16 else if t = 2 then some .bf16 else if t = 3 then some .e4m3
  else if t = 4 then some .e5m2 else none
def cvtInt (t : Nat) : IntTy := ⟨8 * 2 ^ ((t - 8) / 2), t % 2 = 0⟩

/-- Narrow to an integer type (09 R182): rounded, then saturated; NaN gives 0. -/
def toInt (ty : IntTy) (rm : Nat) (sub : Bool) (a : Nat) : Int × Word :=
  let lo : Int := if ty.signed then -(2 ^ (ty.w - 1) : Nat) else 0
  let hi : Int := if ty.signed then (2 ^ (ty.w - 1) : Nat) - 1 else (2 ^ ty.w : Nat) - 1
  match operand .f32 sub a with
  | .nan _ => (0, fNV)
  | .inf neg => (if neg then lo else hi, fNV)
  | .fin x =>
    let (k, nx) := rnd x.neg rm x.m x.e 0
    let v : Int := if x.neg then -(k : Int) else k
    if v < lo then (lo, fNV) else if hi < v then (hi, fNV) else (v, if nx then fNX else 0)

/-- An integer of a type from register bits (04 R60). -/
def intValue (ty : IntTy) (x : Nat) : Int :=
  let y := x % 2 ^ ty.w
  if ty.signed && y.testBit (ty.w - 1) then (y : Int) - (2 ^ ty.w : Nat) else y

/-- A float format's value widened exactly to FP32, or an integer converted (09 R182). -/
def widen (t : Fmt) (sub : Bool) (b : Nat) : Nat × Word :=
  match operand t sub b with
  | .nan neg => (Fmt.f32.nan neg, 0)
  | .inf neg => (Fmt.f32.signBit neg + Fmt.f32.inf, 0)
  | .fin x => roundTo .f32 rne sub x
def fromInt (v : Int) : Nat × Word := roundTo .f32 rne false ⟨v < 0, v.natAbs, 0⟩

/-- Narrow to a float format (09 R182; 04 R66 for E4M3). -/
def narrow (t : Fmt) (sub : Bool) (a : Nat) : Nat × Word :=
  match operand .f32 sub a with
  | .nan neg => (t.nan neg, 0)
  | .inf neg => (t.signBit neg + t.inf, if t = .e4m3 then fNV else 0)
  | .fin x => roundTo t rne sub x

/-- ICMP's and SCMP's condition (09 R173). -/
def iCond (c : Nat) (a b : Word) : Bool :=
  if c = 0 then a = b
  else if c = 1 then a ≠ b
  else if c = 2 then a.slt b
  else if c = 3 then a.sle b
  else if c = 4 then b.slt a
  else if c = 5 then b.sle a
  else if c = 6 then a.ult b
  else if c = 7 then a.ule b
  else if c = 8 then b.ult a
  else if c = 9 then b.ule a
  else a &&& b ≠ 0#32

/-! ## The 4-bit block family (04 R62 to R65) -/

/-- Twice-doubled code values: 8 × Decode4(T, code) is an integer. -/
def decode4 (t code : Nat) : Int :=
  let mag (c : Nat) : Nat :=
    if t = 1 then [0, 4, 8, 12, 16, 24, 32, 48].getD c 0
    else if t = 2 then [0, 1, 2, 4, 8, 16, 32, 64].getD c 0
    else [0, 8, 16, 24, 32, 64, 128, 256].getD c 0
  if t = 0 then 8 * (if code < 8 then (code : Int) else (code : Int) - 16)
  else if code < 8 then mag code else -(mag (code - 8) : Int)
/-- CodeMax of a type (R63), times 8. -/
def codeMax8 (t : Nat) : Nat := if t = 0 then 56 else if t = 1 then 48 else if t = 2 then 64 else 256

/-- Fields of a 24-bit scale (R62). -/
def scaleT (x : Nat) : Nat := bitsOf x 23 22
def scaleE (x : Nat) : Nat := bitsOf x 21 14
def scaleM (x : Nat) : Nat := bitsOf x 13 0

/-- An element of a block, exactly: none for the NaN scale (R62, R63). -/
def element4 (scale code : Nat) : Option Exact :=
  if scaleE scale = 255 then none
  else if scaleE scale = 0 then some ⟨false, 0, 0⟩
  else
    let v := decode4 (scaleT scale) code
    some ⟨v < 0, v.natAbs * (2 ^ 14 + scaleM scale), (scaleE scale : Int) - 127 - 14 - 3⟩

/-- DQNT (09 R186). -/
def dqnt (scale code : Nat) : Nat × Word :=
  match element4 scale code with
  | none => (Fmt.f32.nan false, 0)
  | some x =>
    let (b, fl) := roundTo .f32 rne false x
    (b, fl &&& fOF)

/-- The smallest scale value of R62 that is at least m × 2^e ÷ (c ÷ 8), as (E, M) (R64). -/
def roundUpScale (m : Nat) (e : Int) (c : Nat) : Nat × Nat :=
  -- v = 8 m 2^e / c; find E with 2^(E-127) ≤ v < 2^(E-126), then M rounded up
  let lt (k : Int) : Bool := -- v < 2^k
    ltPow (8 * m) e c k
  let k0 : Int := e + Nat.log2 (8 * m) - Nat.log2 c
  let k := if lt k0 then k0 - 1 else if lt (k0 + 1) then k0 else k0 + 1
  if lt (-126) then (1, 0) else
  -- M = ⌈(v / 2^k − 1) × 2^14⌉
  let num := 8 * m * 2 ^ (e - k + 14).toNat
  let den := c * 2 ^ (k - 14 - e).toNat
  let f := (num + den - 1) / den - 2 ^ 14
  if f = 2 ^ 14 then ((k + 128).toNat, 0) else ((k + 127).toNat, f)

/-- NearestCode(T, q) of q = y ÷ s (R64): the code, and whether q lies beyond the code set. -/
def nearestCode (t : Nat) (y : Exact) (sE sM : Nat) : Nat × Bool :=
  -- compare 8·2^17·y with 8·decode·(2^14 + M)·2^(E−127), scaled to integers
  let se : Int := (sE : Int) - 127 - 14 - 3
  let e0 := min y.e se
  let ym : Int := (y.m : Int) * 2 ^ (y.e - e0).toNat
  let yv : Int := if y.neg then -ym else ym
  let cv (c : Nat) : Int := decode4 t c * ((2 ^ 14 + sM : Nat) : Int) * 2 ^ (se - e0).toNat
  let cs := (List.range 16).filter fun c => c != 8 || t = 0
  let best := cs.foldl (fun (b : Nat) c =>
    let db := (cv b - yv).natAbs
    let dc := (cv c - yv).natAbs
    if dc < db || (dc = db && c % 2 = 0 && b % 2 = 1) then c else b) 0
  let hi := cv 7
  let lo := if t = 0 then cv 8 else cv 15
  if hi < yv then (7, true) else if yv < lo then (if t = 0 then 8 else 15, true) else (best, false)

/-- ExtremeCode (R64). -/
def extremeCode (t : Nat) (neg : Bool) : Nat := if !neg then 7 else if t = 0 then 8 else 15

/-- The larger of two magnitudes. -/
def maxMag (a b : Exact) : Exact := if ltPow a.m a.e b.m b.e then b else a

/-- One step of the error feedback (R64): codes so far (newest first), the carried error, QSTAT flags. -/
def qntStep (t sE sM : Nat) (acc : List Nat × Nat × Word) (x : Nat) : List Nat × Nat × Word :=
  let (cs, e, fl) := acc
  match unpack .f32 x with
  | .inf neg => (extremeCode t neg :: cs, 0, fl ||| qINF)
  | _ =>
    let y := (fAdd .f32 rne false x e).1
    match unpack .f32 y with
    | .fin yx =>
      let (c, clip) := nearestCode t yx sE sM
      let scale := sE * 2 ^ 14 + sM
      let d : Exact := match element4 (t * 2 ^ 22 + scale) c with
        | some d => d
        | none => ⟨false, 0, 0⟩
      let (v, ve) := sumExact [yx, { d with neg := !d.neg }]
      let r := if v = 0 then 0 else (roundTo .f32 rne false ⟨v < 0, v.natAbs, ve⟩).1
      (c :: cs, r, if clip then fl ||| qCLIP else fl)
    | .inf neg => (extremeCode t neg :: cs, 0, fl ||| qCLIP)
    | .nan _ => (0 :: cs, 0, fl)

/-- QNT of one block (R64): codes in lane order, the scale, QSTAT flags. -/
def qntBlock (t : Nat) (xs : List Nat) : List Nat × Nat × Word :=
  let ns := xs.map (unpack .f32)
  if ns.any Num.isNan then (xs.map fun _ => 0, t * 2 ^ 22 + 255 * 2 ^ 14 + 0x2000, qNAN) else
  let m := (ns.map Num.exact).foldl maxMag ⟨false, 0, 0⟩
  let anyInf := ns.any fun n => n = .inf true || n = .inf false
  if m.m = 0 && !anyInf then (xs.map fun _ => 0, t * 2 ^ 22, qZBLK) else
  let (sE, sM) := if m.m = 0 then (127, 0) else roundUpScale m.m m.e (codeMax8 t)
  let (cs, _, fl) := xs.foldl (qntStep t sE sM) ([], 0, 0)
  (cs.reverse, t * 2 ^ 22 + sE * 2 ^ 14 + sM, fl)

end Sys2Proof.Machine
end

