-- ==== Sys2Proof/Config.lean ====
section
/-! DEFINITION. What the manual leaves open, as constants without a body: no statement can use a value of
one. Each is named in the assumption log. -/

namespace Sys2Proof.Config

/-- Free values of 32 bits, by index: a byte left open, a spawned warp's register (02 R37), a random word. -/
opaque freeWord : Nat → BitVec 32
/-- Keys from the random number generator (05 R93), by index. -/
opaque freeKey : Nat → BitVec 512
/-- The size that the host's decoder gives the HDM range, in units of 256 MiB modulo 1,537 (16 R321). -/
opaque hdmUnits : Nat
/-- The capacity of the tier expander on a port, in bytes (16 R324). -/
opaque tierCap : Nat → BitVec 43
/-- BUDCAP of a die (13 R288): the traffic it serves in a period. -/
opaque budCap : Nat → BitVec 16
/-- Results of a special function within its bounds (09 R187, R188), by opcode and operand bits. -/
opaque sfu : Nat → BitVec 32 → BitVec 32
/-- What the boot checks find in the contents of a flash slot (22 R401), whose format the manual does not give: the
header magic, the digest, the signature, the security version. -/
opaque flashMagic : List (Nat × BitVec 8) → Bool
opaque flashDigest : List (Nat × BitVec 8) → Bool
opaque flashSignature : List (Nat × BitVec 8) → Bool
opaque flashSvn : List (Nat × BitVec 8) → BitVec 16
/-- Whether reading a slot, or programming a block, fails (22 R401), by index of the attempt; the 4 KiB blocks of a slot. -/
opaque flashReadFails : Nat → Bool
opaque flashFails : Nat → Bool
opaque flashBlocks : Nat
/-- The failures that a run of BIST finds (22 R402), by index of the run. -/
opaque bistFinds : Nat → List (BitVec 128)

end Sys2Proof.Config
end

