-- ==== Sys2Proof/Syntax.lean ====
section
/-! DEFINITION. The syntax: one constructor for each row of spec/opcode_table.json. The rows with a bit
pattern are instruction words (08 R141 to R161); a constructor's operands are the word's fields as the
table names them, and `s` is the stall count SC (R149); `k` is the field the table names s_part2, the
scope of an atomic. The rows without a pattern are the events of the device (95): the steps of its
engines, agents, homes, host, links and registers; their operands name the place of the event (cores are
numbered die × 192 + partition × 24 + core, partitions die × 8 + partition) or the request it concerns.
The prefixes LIT and REP (R153, R154) are no rows: they are read into the unit that the step runs. -/

namespace Sys2Proof

/-- An instruction word or an event of the table. -/
inductive Instr where
  /-- R172. Adds two lane registers modulo 2^32 in each active lane. -/
  | iadd (s : BitVec 2) (d a b : BitVec 7)
  /-- R172. Subtracts B from A modulo 2^32 in each active lane. -/
  | isub (s : BitVec 2) (d a b : BitVec 7)
  /-- R172. Writes the low 32 bits of the product of A and B. -/
  | imul (s : BitVec 2) (d a b : BitVec 7)
  /-- R172. Writes the high 32 bits of the signed product. -/
  | imulhI32 (s : BitVec 2) (d a b : BitVec 7)
  /-- R172. Writes the high 32 bits of the unsigned product. -/
  | imulhN32 (s : BitVec 2) (d a b : BitVec 7)
  /-- R172. Destructive multiply-add D := A*B + D modulo 2^32. -/
  | imad (s : BitVec 2) (d a b : BitVec 7)
  /-- R172. Writes the signed minimum of A and B. -/
  | iminI32 (s : BitVec 2) (d a b : BitVec 7)
  /-- R172. Writes the unsigned minimum of A and B. -/
  | iminN32 (s : BitVec 2) (d a b : BitVec 7)
  /-- R172. Writes the signed maximum of A and B. -/
  | imaxI32 (s : BitVec 2) (d a b : BitVec 7)
  /-- R172. Writes the unsigned maximum of A and B. -/
  | imaxN32 (s : BitVec 2) (d a b : BitVec 7)
  /-- R172. Writes the absolute value of A, with 0x8000_0000 unchanged. -/
  | iabs (s : BitVec 2) (d a : BitVec 7)
  /-- R172. Writes 0 - A modulo 2^32. -/
  | ineg (s : BitVec 2) (d a : BitVec 7)
  /-- R172. Adds a sign-extended 7-bit immediate to A. -/
  | iaddi (s : BitVec 2) (d a i : BitVec 7)
  /-- R172. Multiplies A by a sign-extended 7-bit immediate. -/
  | imuli (s : BitVec 2) (d a i : BitVec 7)
  /-- R173. Compares A and B under a condition code and writes a predicate. -/
  | icmp (s : BitVec 2) (c : BitVec 4) (p : BitVec 3) (a b : BitVec 7)
  /-- R173. Compares A with a sign-extended immediate and writes a predicate. -/
  | icmpi (s : BitVec 2) (c : BitVec 4) (p : BitVec 3) (a i : BitVec 7)
  /-- R172. Copies A into D. -/
  | mov (s : BitVec 2) (d a : BitVec 7)
  /-- R172. Writes a sign-extended 14-bit immediate into D. -/
  | movi (s : BitVec 2) (d : BitVec 7) (i : BitVec 14)
  /-- R172. Selects A or B by the predicate named in the opcode. -/
  | sel (s : BitVec 2) (p : BitVec 3) (d a b : BitVec 7)
  /-- R174. Bitwise AND of A and B. -/
  | and (s : BitVec 2) (d a b : BitVec 7)
  /-- R174. Bitwise OR of A and B. -/
  | or (s : BitVec 2) (d a b : BitVec 7)
  /-- R174. Bitwise XOR of A and B. -/
  | xor (s : BitVec 2) (d a b : BitVec 7)
  /-- R174. Bitwise A AND NOT B. -/
  | andn (s : BitVec 2) (d a b : BitVec 7)
  /-- R174. Bitwise complement of A. -/
  | not (s : BitVec 2) (d a : BitVec 7)
  /-- R174. AND with a zero-extended 7-bit immediate. -/
  | andi (s : BitVec 2) (d a i : BitVec 7)
  /-- R174. OR with a zero-extended 7-bit immediate. -/
  | ori (s : BitVec 2) (d a i : BitVec 7)
  /-- R174. XOR with a zero-extended 7-bit immediate. -/
  | xori (s : BitVec 2) (d a i : BitVec 7)
  /-- R174. Shifts A left by B[7:0], giving 0 for 32 or more. -/
  | shl (s : BitVec 2) (d a b : BitVec 7)
  /-- R174. Shifts A right logically by B[7:0]. -/
  | shr (s : BitVec 2) (d a b : BitVec 7)
  /-- R174. Shifts A right arithmetically by B[7:0]. -/
  | sar (s : BitVec 2) (d a b : BitVec 7)
  /-- R174. Rotates A left by B[4:0]. -/
  | rol (s : BitVec 2) (d a b : BitVec 7)
  /-- R174. Shifts A left by an immediate 0 to 31. -/
  | shli (s : BitVec 2) (d a i : BitVec 7)
  /-- R174. Shifts A right logically by an immediate 0 to 31. -/
  | shri (s : BitVec 2) (d a i : BitVec 7)
  /-- R174. Shifts A right arithmetically by an immediate 0 to 31. -/
  | sari (s : BitVec 2) (d a i : BitVec 7)
  /-- R174. Counts the 1 bits of A. -/
  | popc (s : BitVec 2) (d a : BitVec 7)
  /-- R174. Counts leading zero bits of A. -/
  | clz (s : BitVec 2) (d a : BitVec 7)
  /-- R174. Counts trailing zero bits of A. -/
  | ctz (s : BitVec 2) (d a : BitVec 7)
  /-- R174. Reverses the bit order of A. -/
  | brev (s : BitVec 2) (d a : BitVec 7)
  /-- R175. Extracts an unsigned bit field of A described by B. -/
  | bfeN32 (s : BitVec 2) (d a b : BitVec 7)
  /-- R175. Extracts a sign-extended bit field of A described by B. -/
  | bfeI32 (s : BitVec 2) (d a b : BitVec 7)
  /-- R175. Inserts the low bits of A into a field of D described by B. -/
  | bfi (s : BitVec 2) (d a b : BitVec 7)
  /-- R176. FP32 addition rounded under MODE.RM. -/
  | fadd (s : BitVec 2) (d a b : BitVec 7)
  /-- R176. FP32 subtraction rounded under MODE.RM. -/
  | fsub (s : BitVec 2) (d a b : BitVec 7)
  /-- R176. FP32 multiplication rounded under MODE.RM. -/
  | fmul (s : BitVec 2) (d a b : BitVec 7)
  /-- R176. Destructive fused multiply-add with one rounding. -/
  | ffma (s : BitVec 2) (d a b : BitVec 7)
  /-- R177. Chooses the smaller FP32 operand with NaN and signed-zero rules. -/
  | fmin (s : BitVec 2) (d a b : BitVec 7)
  /-- R177. Chooses the larger FP32 operand with NaN and signed-zero rules. -/
  | fmax (s : BitVec 2) (d a b : BitVec 7)
  /-- R176. Clears bit 31 of A. -/
  | fabs (s : BitVec 2) (d a : BitVec 7)
  /-- R176. Inverts bit 31 of A. -/
  | fneg (s : BitVec 2) (d a : BitVec 7)
  /-- R178. Compares two FP32 values under a condition and writes a predicate. -/
  | fcmp (s : BitVec 2) (c : BitVec 4) (p : BitVec 3) (a b : BitVec 7)
  /-- R179. Writes a one-hot classification mask of A. -/
  | fclass (s : BitVec 2) (d a : BitVec 7)
  /-- R176. Copies A with the sign bit of B. -/
  | fcpys (s : BitVec 2) (d a b : BitVec 7)
  /-- R176. Rounds A to an integral FP32 value under MODE.RM. -/
  | frnd (s : BitVec 2) (d a : BitVec 7)
  /-- R180. Adds two packed 16-bit pairs per element. -/
  | hadd2 (s : BitVec 2) (f : BitVec 1) (d a b : BitVec 7)
  /-- R180. Subtracts two packed 16-bit pairs per element. -/
  | hsub2 (s : BitVec 2) (f : BitVec 1) (d a b : BitVec 7)
  /-- R180. Multiplies two packed 16-bit pairs per element. -/
  | hmul2 (s : BitVec 2) (f : BitVec 1) (d a b : BitVec 7)
  /-- R180. Destructive packed fused multiply-add per element. -/
  | hfma2 (s : BitVec 2) (f : BitVec 1) (d a b : BitVec 7)
  /-- R180. Per-element minimum of packed 16-bit pairs. -/
  | hmin2 (s : BitVec 2) (f : BitVec 1) (d a b : BitVec 7)
  /-- R180. Per-element maximum of packed 16-bit pairs. -/
  | hmax2 (s : BitVec 2) (f : BitVec 1) (d a b : BitVec 7)
  /-- R180. Two-element dot product added to FP32 D with one rounding. -/
  | hdot2 (s : BitVec 2) (f : BitVec 1) (d a b : BitVec 7)
  /-- R182. Converts between FP32 and another format named by a selector. -/
  | cvt (s : BitVec 2) (d a : BitVec 7) (r : BitVec 1) (n : BitVec 2) (t : BitVec 4)
  /-- R184. Converts FP32 with error feedback carried in the destination pair. -/
  | cvtx (s : BitVec 2) (d a : BitVec 7) (r : BitVec 1) (n : BitVec 2) (t : BitVec 4)
  /-- R183. Converts two FP32 operands and packs them into a narrow format. -/
  | cvtp (s t : BitVec 2) (d a b : BitVec 7)
  /-- R185. Quantises each lane group into a 4-bit block with error feedback. -/
  | qnt (s : BitVec 2) (d a : BitVec 7) (w y : BitVec 2)
  /-- R186. Decodes one 4-bit code with its 24-bit scale exactly to FP32. -/
  | dqnt (s : BitVec 2) (d a b : BitVec 7)
  /-- R188. SFU reciprocal. -/
  | frcp (s : BitVec 2) (d a : BitVec 7)
  /-- R188. SFU reciprocal square root. -/
  | frsq (s : BitVec 2) (d a : BitVec 7)
  /-- R188. SFU square root. -/
  | fsqrt (s : BitVec 2) (d a : BitVec 7)
  /-- R188. SFU base-2 exponential. -/
  | fexp2 (s : BitVec 2) (d a : BitVec 7)
  /-- R188. SFU base-2 logarithm. -/
  | flog2 (s : BitVec 2) (d a : BitVec 7)
  /-- R188. SFU sine in radians. -/
  | fsin (s : BitVec 2) (d a : BitVec 7)
  /-- R188. SFU cosine in radians. -/
  | fcos (s : BitVec 2) (d a : BitVec 7)
  /-- R188. SFU hyperbolic tangent. -/
  | ftanh (s : BitVec 2) (d a : BitVec 7)
  /-- R188. SFU error function. -/
  | ferf (s : BitVec 2) (d a : BitVec 7)
  /-- R188. SFU logistic sigmoid. -/
  | fsigm (s : BitVec 2) (d a : BitVec 7)
  /-- R191. Moves a value between active lanes of a lane group under a per-lane control word. -/
  | shfl (s g : BitVec 2) (d a b : BitVec 7)
  /-- R192. Writes an any, all or uniform vote over the active lanes of a group. -/
  | vote (s g : BitVec 2) (d a b : BitVec 7)
  /-- R192. Writes the mask of active lanes of a group whose A is non-zero. -/
  | ballot (s g : BitVec 2) (d a b : BitVec 7)
  /-- R193. Reduces A over active lanes of a group by a fixed binary tree. -/
  | redx (s g : BitVec 2) (d a b : BitVec 7)
  /-- R194. Inclusive or exclusive scan of A over active lanes of a group. -/
  | scan (s g : BitVec 2) (d a b : BitVec 7)
  /-- R192. Writes the mask of group lanes whose A equals the lane's own. -/
  | matchLanes (s g : BitVec 2) (d a b : BitVec 7)
  /-- R200. Loads a typed value per lane from a global address, decoding by page format. -/
  | ld (s : BitVec 2) (t : BitVec 3) (d a : BitVec 7) (b : BitVec 5) (c r : BitVec 1)
  /-- R201. Stores bytes per lane to a global address. -/
  | st (s : BitVec 2) (t : BitVec 3) (d a : BitVec 7) (b : BitVec 5) (c : BitVec 1)
  /-- R203. Performs one read-modify-write per active lane at the home named by R110. -/
  | atom (s : BitVec 2) (d : BitVec 7) (a : BitVec 6) (w : BitVec 1) (o : BitVec 4) (k : BitVec 3)
  /-- R204. Compares and swaps per lane at a 64-bit lane address. -/
  | cas (s : BitVec 2) (d : BitVec 7) (a : BitVec 6) (w : BitVec 1) (k : BitVec 3)
  /-- R207. Adds per-lane increments to counters at per-lane addresses, all or none. -/
  | caddv (s : BitVec 2) (d : BitVec 6) (x : BitVec 1) (a : BitVec 6) (y : BitVec 1) (b : BitVec 7)
  /-- R200. Loads a typed value per lane from a scratchpad window. -/
  | lds (s : BitVec 2) (t : BitVec 3) (d a : BitVec 7) (r : BitVec 1) (w : BitVec 6)
  /-- R201. Stores bytes per lane into a scratchpad window. -/
  | sts (s : BitVec 2) (t : BitVec 3) (d a : BitVec 7) (r : BitVec 1) (w : BitVec 6)
  /-- R206. Performs a 32-bit atomic on a scratchpad word per lane. -/
  | atoms (s : BitVec 2) (d a : BitVec 7) (o : BitVec 4) (k : BitVec 3)
  /-- R206. Performs a 32-bit compare-and-swap on a scratchpad word per lane. -/
  | cass (s : BitVec 2) (d a : BitVec 7) (k : BitVec 3)
  /-- R208. Prefetches the line of each lane's address into L1 or L2, never faulting. -/
  | pref (s l : BitVec 2) (a : BitVec 7) (b : BitVec 5) (c : BitVec 1)
  /-- R210. Branches every active lane to a relative target. -/
  | bra (s : BitVec 2) (i : BitVec 14)
  /-- R210. Branches each lane by its predicate, optionally inverted. -/
  | brp (s : BitVec 2) (n : BitVec 1) (p : BitVec 3) (i : BitVec 14)
  /-- R211. Pushes the fall-through on each lane's return stack, spilling if full, and jumps relatively. -/
  | call (s : BitVec 2) (i : BitVec 14)
  /-- R211. Calls through a per-lane register target. -/
  | calli (s : BitVec 2) (a : BitVec 7)
  /-- R211. Pops each lane's return stack, refilling a spilled unit when empty. -/
  | ret (s : BitVec 2)
  /-- R212. Jumps each lane to its register target without touching the stack. -/
  | jmpi (s : BitVec 2) (a : BitVec 7)
  /-- R213. Parks each active lane at its own address for reconvergence. -/
  | rcv (s : BitVec 2)
  /-- R214. Moves each active lane to the exited state. -/
  | exit (s : BitVec 2)
  /-- R215. Places one new thread per active lane into the core's spawn bins. -/
  | spawn (s : BitVec 2) (a b : BitVec 7)
  /-- R216. Advances its lanes and makes the warp youngest of its quad. -/
  | yld (s : BitVec 2)
  /-- R216. Advances its lanes only. -/
  | nop (s : BitVec 2)
  /-- R223. Adds two uniform registers modulo 2^32. -/
  | sadd (s : BitVec 2) (d a b : BitVec 6)
  /-- R223. Subtracts two uniform registers modulo 2^32. -/
  | ssub (s : BitVec 2) (d a b : BitVec 6)
  /-- R223. Low 32 bits of a uniform product. -/
  | smul (s : BitVec 2) (d a b : BitVec 6)
  /-- R223. High 32 bits of a signed or unsigned uniform product. -/
  | smulh (s : BitVec 2) (d a b : BitVec 6) (g : BitVec 1)
  /-- R223. Bitwise AND of uniform registers. -/
  | sand (s : BitVec 2) (d a b : BitVec 6)
  /-- R223. Bitwise OR of uniform registers. -/
  | sor (s : BitVec 2) (d a b : BitVec 6)
  /-- R223. Bitwise XOR of uniform registers. -/
  | sxor (s : BitVec 2) (d a b : BitVec 6)
  /-- R223. Uniform shift left. -/
  | sshl (s : BitVec 2) (d a b : BitVec 6)
  /-- R223. Uniform logical shift right. -/
  | sshr (s : BitVec 2) (d a b : BitVec 6)
  /-- R223. Uniform arithmetic shift right. -/
  | ssar (s : BitVec 2) (d a b : BitVec 6)
  /-- R223. Signed or unsigned uniform minimum. -/
  | smin (s : BitVec 2) (d a b : BitVec 6) (g : BitVec 1)
  /-- R223. Signed or unsigned uniform maximum. -/
  | smax (s : BitVec 2) (d a b : BitVec 6) (g : BitVec 1)
  /-- R223. Copies a uniform register. -/
  | smov (s : BitVec 2) (d a : BitVec 6)
  /-- R223. Writes a sign-extended 16-bit immediate to a uniform register. -/
  | smovi (s : BitVec 2) (d : BitVec 6) (i : BitVec 16)
  /-- R223. Adds a sign-extended 16-bit immediate to a uniform register in place. -/
  | saddi (s : BitVec 2) (d : BitVec 6) (i : BitVec 16)
  /-- R223. Compares two uniform registers and writes a uniform predicate. -/
  | scmp (s p : BitVec 2) (a b : BitVec 6) (c : BitVec 4)
  /-- R223. Selects one of two uniform registers by a uniform predicate. -/
  | ssel (s : BitVec 2) (d a b : BitVec 6) (p : BitVec 2)
  /-- R223. Adds two 64-bit uniform pairs. -/
  | sadd64 (s : BitVec 2) (d a b : BitVec 6)
  /-- R225. Loads one or two words into uniform registers. -/
  | sld (s : BitVec 2) (d a b : BitVec 6) (w : BitVec 1)
  /-- R225. Stores one or two uniform words to memory. -/
  | sst (s : BitVec 2) (d a b : BitVec 6) (w : BitVec 1)
  /-- R226. Branches every lane of the group to a relative target. -/
  | sbra (s : BitVec 2) (o : BitVec 22)
  /-- R226. Branches the group by a uniform predicate. -/
  | sbrp (s : BitVec 2) (n : BitVec 1) (p : BitVec 2) (i : BitVec 16)
  /-- R226. Uniform relative call for every lane of the group. -/
  | scall (s : BitVec 2) (o : BitVec 22)
  /-- R226. Uniform return, popping each lane's stack. -/
  | sret (s : BitVec 2)
  /-- R227. Reads a special register or window descriptor into uniform registers. -/
  | srd (s : BitVec 2) (d : BitVec 6) (x : BitVec 8)
  /-- R227. Writes a special register from uniform registers. -/
  | swr (s : BitVec 2) (d : BitVec 6) (x : BitVec 8)
  /-- R228. Releases and adds an increment to a counter at its home, returning the old value. -/
  | cadd (s : BitVec 2) (d a b : BitVec 6) (f k : BitVec 2)
  /-- R228. Reads a counter at its home without acquire. -/
  | crd (s : BitVec 2) (d a b : BitVec 6) (f : BitVec 2)
  /-- R124. Parks the warp until a counter reaches a threshold, then acquires. -/
  | cwait (s : BitVec 2) (d a b : BitVec 6) (f k : BitVec 2)
  /-- R228. Tests a counter against a threshold into a uniform predicate. -/
  | cpoll (s : BitVec 2) (d a b : BitVec 6) (f k : BitVec 2)
  /-- R230. Acts as release, acquire or both at a scope for the group's threads. -/
  | fence (s : BitVec 2) (e : BitVec 3) (k : BitVec 2)
  /-- R231. Cleans, invalidates or flushes a virtual range at a cache level. -/
  | cmnt (s : BitVec 2) (a b : BitVec 6) (l o : BitVec 2)
  /-- R232. Acquires register blocks, waiting at the allocator queue. -/
  | racq (s : BitVec 2) (m : BitVec 7)
  /-- R232. Acquires register blocks without waiting, reporting success in a predicate. -/
  | racqNb (s : BitVec 2) (m : BitVec 7) (p : BitVec 2)
  /-- R232. Releases register blocks after pending writes land. -/
  | rrel (s : BitVec 2) (m : BitVec 7)
  /-- R233. Claims the next index of the core's lazy range, stealing when empty. -/
  | rnext (s : BitVec 2) (d : BitVec 6) (p : BitVec 2)
  /-- R234. Releases at .dev and queues a 64-byte launch descriptor on the core. -/
  | launch (s : BitVec 2) (a : BitVec 6)
  /-- R247. Issues a strided copy described by a copy block to the core's copy engine. -/
  | cpy (s : BitVec 2) (a : BitVec 6) (r : BitVec 2)
  /-- R249. Contributes one slice to a team-collective bulk copy. -/
  | cpyb (s : BitVec 2) (d a : BitVec 6) (j : BitVec 3) (r : BitVec 2)
  /-- R248. Gathers masked rows into consecutive destination rows. -/
  | cpyg (s : BitVec 2) (a b : BitVec 6) (r : BitVec 2)
  /-- R248. Scatters consecutive source rows to masked destination rows. -/
  | cpys (s : BitVec 2) (a b : BitVec 6) (r : BitVec 2)
  /-- R251. Closes the warp's unsealed copies into the next batch with a completion counter. -/
  | cseal (s : BitVec 2) (d a b : BitVec 6) (f k : BitVec 2)
  /-- R252. Waits until at most n batches are outstanding, then acquires at .team. -/
  | cwaitb (s : BitVec 2) (b : BitVec 6)
  /-- R254. Writes a window descriptor after its engine users retire. -/
  | wdesc (s : BitVec 2) (a b : BitVec 6)
  /-- R257. Signs a convergence register with an immediate count, issuing the bound command on completion. -/
  | msignCount (s : BitVec 2) (n : BitVec 4) (c : BitVec 12)
  /-- R257. Signs a convergence register with a count from a uniform register. -/
  | msignReg (s : BitVec 2) (n : BitVec 4) (a : BitVec 6)
  /-- R258. Queues a load of the shadow weight plane from 64 window rows. -/
  | ldw (s : BitVec 2) (a : BitVec 6)
  /-- R259. Queues an exchange of the shadow and active weight planes. -/
  | wswap (s : BitVec 2)
  /-- R260. Queues a matrix multiply-accumulate of activation rows against the active plane. -/
  | mma (s : BitVec 2) (d a : BitVec 6) (z : BitVec 1)
  /-- R261. Queues a transpose of 64 window rows into the accumulator. -/
  | mmat (s : BitVec 2) (d a : BitVec 6)
  /-- R262. Queues a permutation of accumulator rows by a byte table. -/
  | mperm (s : BitVec 2) (d a : BitVec 6)
  /-- R263. Queues a reduction of groups of accumulator rows. -/
  | mred (s : BitVec 2) (d a : BitVec 6)
  /-- R264. Reads 8 accumulator rows into a lane register group. -/
  | mrd (s : BitVec 2) (d a : BitVec 6)
  /-- R265. Queues narrowing of accumulator rows into window rows. -/
  | mst (s : BitVec 2) (d a : BitVec 6)
  /-- R266. Queues zeroing of accumulator rows. -/
  | mzero (s : BitVec 2) (d : BitVec 6)
  /-- R235. Completes and then raises DEBUG of kind TRAP with a code. -/
  | trap (s : BitVec 2) (c : BitVec 12)
  /-- R236. Sets every lane of the group to EPC and ends a handler. -/
  | rft (s : BitVec 2)
  /-- R237. Posts a request record to a service queue and advances its publish counter. -/
  | svc (s : BitVec 2) (d a : BitVec 6)
  /-- R235. Completes and then raises DEBUG of kind BKPT, or stops for a claiming debugger. -/
  | bkpt (s : BitVec 2) (c : BitVec 12)
  /-- R238. Asks the Almanac to close the current interval. -/
  | ckpt (s : BitVec 2)
  /-- R238. Closes the interval and adds to a counter once it is durable. -/
  | ckptCounter (s : BitVec 2) (a b : BitVec 6)
  /-- R239. Pushes a region id onto the warp's region stack. -/
  | rgnent (s : BitVec 2) (a : BitVec 6)
  /-- R239. Pops a matching region id from the warp's region stack. -/
  | rgnlve (s : BitVec 2) (a : BitVec 6)
  /-- R270. Submits each lane's token to its Vigil slot for one step. -/
  | toksub (s : BitVec 2) (d a b : BitVec 6)
  /-- R271. Submits a draft token matched on the slot's tentative state. -/
  | toksubD (s : BitVec 2) (d a b : BitVec 6)
  /-- R271. Confirms up to n pending drafts of each lane's slot. -/
  | tokconf (s : BitVec 2) (d a b : BitVec 6)
  /-- R272. Reads, validates and applies Vigil arm records. -/
  | tokarm (s : BitVec 2) (a b : BitVec 6)
  /-- R287. Each cycle a quad picks a ready warp and issues up to two instructions from its groups. -/
  | quadIssueCycle (core quad : Nat)
  /-- R38. A spawn bin's timer reaches SPNTMR cycles. -/
  | spawnBinTimerExpiry (core bin : Nat)
  /-- R37. A full or timed-out bin launches a warp once a slot and blocks are free. -/
  | spawnBinLaunch (core bin : Nat)
  /-- R280. A core admits one resumed, evicted, spawned or new unit per cycle. -/
  | coreAdmission (core : Nat)
  /-- R277. An agent takes a launch descriptor, validates it and places or refuses it. -/
  | launchDescriptorTake (agent ctx addr : Nat) (desc : Block)
  /-- R278. A serving agent processes a published queue entry claimed by ticket. -/
  | submissionQueueEntry (queue : Nat)
  /-- R329. An agent takes a RUN entry and starts its graph from the HEAD. -/
  | run (agent ctx head queue : Nat)
  /-- R329. A graph LAUNCH node submits its descriptor and goes on. -/
  | launchNode (run : Nat)
  /-- R329. A graph COPY node starts a sealed one-row copy and goes on. -/
  | copyNode (run : Nat)
  /-- R329. A graph SIGNAL node adds INC to CTR at SCOPE. -/
  | signalNode (run : Nat)
  /-- R329. A graph WAIT node continues once its counter meets the threshold. -/
  | waitNode (run : Nat)
  /-- R329. A graph COND node goes to NEXT or ALT, re-arming ITER when asked. -/
  | condNode (run : Nat)
  /-- R282. A steal request reaches a core, which hands half its range or forwards it. -/
  | stealRequest (core requester : Nat)
  /-- R282. After 1,024 cycles without RNEXT the agent serves a pending steal request. -/
  | stealAgentTimeout (core : Nat)
  /-- R283. A partition receives RESERVE(g) and agrees or refuses. -/
  | reserve (part gang : Nat) (ticketed : Bool)
  /-- R283. A held partition writes the gang's binding entries and confirms. -/
  | commit (part gang : Nat)
  /-- R283. A partition releases its reservation and clears the gang's entries. -/
  | rollback (part gang : Nat)
  /-- R283. The start token makes a committed partition begin the gang's teams. -/
  | start (part gang : Nat)
  /-- R283. The submitter receives an AGREE reply in COLLECT. -/
  | agree (gang part : Nat)
  /-- R283. The submitter receives a REFUSE reply and rolls back, taking a ticket. -/
  | refuse (gang part : Nat)
  /-- R283. The submitter receives a CONFIRM and sends the start token when all arrive. -/
  | confirm (gang part : Nat)
  /-- R392. The submitter receives WITHDRAW and treats the attempt as failed. -/
  | withdraw (gang part : Nat)
  /-- R283. A HELD partition releases after 16,384 own cycles without COMMIT. -/
  | gangHoldTimeout (part gang : Nat)
  /-- R283. A submitter without every reply after 2,048 cycles rolls back and retries. -/
  | gangCollectTimeout (gang : Nat)
  /-- R286. Each 64-cycle step a die grants up to K core starts or stops. -/
  | equinoxStep (die : Nat)
  /-- R290. PCTL STOP stops the running context in place within the stop bounds. -/
  | stop (part : Nat)
  /-- R296. PCTL SWAP stops the running context and exchanges state with the standby. -/
  | swap (part : Nat)
  /-- R292. PCTL RESUME restarts a context stopped in place. -/
  | resume (part : Nat)
  /-- R297. PCTL DEMOTE writes the standby context to its image and frees it. -/
  | demote (part : Nat)
  /-- R420. PCTL LOAD reads an image into the standby, installing and checking PBIND tables. -/
  | load (part : Nat)
  /-- R293. PCTL ENTER makes the context in PCTXH run with fresh state. -/
  | enter (part : Nat)
  /-- R292. A write of CMD 7 completes at once with STAT 0x0D. -/
  | pctlReservedCommand (part : Nat)
  /-- R292. A partition command completes and adds 1 to PCNT's counter. -/
  | partitionCommandComplete (part : Nat)
  /-- R300. An agent evicts a fully parked unit to the eviction area to make room for queued work. -/
  | parkedEviction (part unit : Nat)
  /-- R300. The agent tests an evicted unit's wake condition at least every 65,536 cycles. -/
  | evictionWakePoll (part unit : Nat)
  /-- R301. PERIOD × 65,536 cycles elapse and a close is due. -/
  | almanacPeriodExpiry (ctx : Nat)
  /-- R302. The Almanac sends CUT to every partition holding the context. -/
  | cut (ctx : Nat)
  /-- R302. A partition replies after copying its dirty state into its cut buffer. -/
  | cutReply (ctx part : Nat)
  /-- R304. A write held on a closed page proceeds after the page is staged. -/
  | heldWriteRelease (ctx page : Nat)
  /-- R304. An interval reaches the second tier; DURCTR and CKPT adds are made. -/
  | intervalDurable (ctx : Nat)
  /-- R314. The Vigil makes one step of a slot for a submitted token. -/
  | vigilStep (req lane : Nat)
  /-- R318. The Vigil records a draft position on the tentative state. -/
  | vigilDraftStep (req lane : Nat)
  /-- R318. The Vigil sets the real state from kept draft positions. -/
  | vigilConfirm (req lane : Nat)
  /-- R272. The Vigil applies validated arm records between steps. -/
  | vigilArmApply (req : Nat)
  /-- R268. A Vigil answer arrives and writes the lanes' result groups. -/
  | vigilResultArrival (req : Nat)
  /-- R323. All write-back acknowledgements or BISnp answers arrive; the bias changes and held requests are served. -/
  | flipStep2Complete (engine : Nat)
  /-- R321. A host CXL.mem read of a device-memory line is served by bias. -/
  | hostMemRead (addr : Nat)
  /-- R321. A host CXL.mem write of a device-memory line is served by bias. -/
  | hostMemWrite (addr : Nat) (bytes : List Byte)
  /-- R128. A host write to a marked counter page is applied only if it does not lower the counter. -/
  | hostCounterWrite (addr : Nat) (bytes : List Byte)
  /-- R325. A target Kilgar receives a Colmet access and accepts it in an inbound window or refuses it. -/
  | peerAccess (peer addr size : Nat) (op : PeerOp)
  /-- R126. A counter operation reaches its home and is applied in counter order. -/
  | counterOpAtHome (op : Nat)
  /-- R130. A write notice reaches a watching core, which re-reads its slow-list counters. -/
  | slowListNotice (core line : Nat)
  /-- R132. A write to a monitored host line wakes the warp to re-read. -/
  | monitorWake (line : Nat)
  /-- R127. A home tests and holds counters for a CADDV, answering yes or no. -/
  | hold (op home : Nat)
  /-- R127. A home applies held CADDV adds and releases its counters. -/
  | apply (op home : Nat)
  /-- R127. A home releases held counters without adding. -/
  | release (op home : Nat)
  /-- R326. An application core's AMOADD.D to a counter page is applied as a CADD. -/
  | appCoreCounterAmo (app addr : Nat) (op : AppOp)
  /-- R331. The ring agent delivers published entries, advances TAIL and may raise MSI-X. -/
  | ringAgentPass (ring : Nat)
  /-- R331. WIN cycles pass with entries pending and an interrupt is raised. -/
  | ringWindowExpiry (ring : Nat)
  /-- R337. A core writes a record from its buffer into the trace ring. -/
  | traceRecordWrite (core : Nat)
  /-- R336. A sample period expires and a SAMPLE record is made. -/
  | traceSample (core : Nat)
  /-- R338. A closed tile tracker writes its TILE record once its work completes. -/
  | tileRecord (core tracker : Nat)
  /-- R342. A capture reaches LEN × 4,096 counted cycles and writes its record. -/
  | captureEnd (ctx : Nat)
  /-- R345. After a logged launch's CCTR add the agent computes and logs or compares its digest. -/
  | replayDigest (ctx entry : Nat)
  /-- R114. A copy writes its last byte and retires its scoreboard and lock entries. -/
  | copyComplete (core copy : Nat)
  /-- R253. A copy halts at a page that fails or changes format and COPY becomes pending. -/
  | copyHalt (core copy : Nat)
  /-- R255. The next queued matrix command enters the array or plane-load path. -/
  | matrixCommandStart (core : Nat)
  /-- R267. A matrix command retires and flags reach FSTAT. -/
  | matrixCommandRetire (core : Nat)
  /-- R77. A page walk ends and delivers its entry or fault to every joined access. -/
  | pageWalkComplete (die ctx vpn : Nat)
  /-- R100. A dirty L1 word is written back within 8,192 cycles of being dirtied. -/
  | l1WritebackDeadline (core line : Nat)
  /-- R110. A load, store, atomic or CAS request of a core or application core reaches the home slice of its line and is performed, held or snooped there. -/
  | memoryRequestAtHome (req : Nat)
  /-- R151. The response of a load, atomic, CAS, SLD, CADD, CRD or CADDV returns and writes its variable-latency result, making waiting readers ready. -/
  | variableLatencyResult (req : Nat)
  /-- R127. A home's yes or no answer to a CADDV hold reaches the issuing core, which sends the next hold, the applies or the releases. -/
  | holdAnswer (op home : Nat) (yes : Bool)
  /-- R233. A steal reply, carrying a range or none, reaches the requesting core and its waiting RNEXT claims an index or clears its predicate. -/
  | stealReply (core lo hi : Nat)
  /-- R278. An agent reads a queue or ring control block given to it and serves or refuses it. -/
  | queueControlBlockGiven (agent ctx addr : Nat) (ring : Bool)
  /-- R288. A new 4,096-memory-cycle activity budget period begins on a die. -/
  | budgetPeriod (die cycles : Nat)
  /-- R388. A CXL port declares loss; accesses fail and dirty lines are stranded. -/
  | cxlLinkLoss (port : Nat)
  /-- R388. A Colmet link exhausts replay and declares loss. -/
  | colmetLinkLoss (link : Nat)
  /-- R390. A link retrains within RET and stranded lines are written back. -/
  | linkRetrain (colmet : Bool) (link : Nat) (hostReset : Bool)
  /-- R392. A partition goes offline and stops any gang committed on it. -/
  | partitionOffline (part : Nat)
  /-- R394. The management controller rolls back a frozen submitter's gang and advances gsv. -/
  | submitterFreeze (gang : Nat)
  /-- R396. A damaged saved part found after resume raises RESTORE on the warps concerned. -/
  | restore (core part index version : Nat)
  /-- R132. A CXL.cache snoop from the host invalidates or downgrades a die's copy of a host-memory line. -/
  | cxlCacheSnoop (die line : Nat) (inval : Bool)
  /-- R364. A trap enters the handler after fixed-latency results land. -/
  | trapEntry (core slot : Nat) (lanes : Mask) (info : TrapInfo)
  /-- R362. A pending asynchronous trap is taken at the warp's next issue opportunity. -/
  | asyncTrapTake (core slot : Nat)
  /-- R323. BFCTL GO with DIR 0 flips a page to host bias. -/
  | biasFlipToHost (engine : Nat)
  /-- R323. BFCTL GO with DIR 1 flips a page to device bias. -/
  | biasFlipToDevice (engine : Nat)
  /-- R306. RBCTL GO rolls the context back to interval n and writes its images. -/
  | rollbackGo (ctx : Nat)
  /-- R321. The host answers a back-invalidate snoop and the held device access is served. -/
  | bisnpResponse (addr : Nat) (bytes : List Byte)
  /-- R325. A refusal returns and LINK becomes pending on the issuing warp. -/
  | peerRefusal (core slot peer : Nat) (va : DWord)
  /-- R408. A write to a register without its own behaviour is applied in arrival order. -/
  | registerWrite (src : Writer) (offset : Nat) (value : Word)
  /-- R342. CAPCTL GO starts a capture of the selected counters. -/
  | captureStart (ctx trigger : Nat)
  /-- R413. TJ reaches TLIM and the V-F state is lowered. -/
  | thermalThrottle (die tj : Nat)
  /-- R413. Module power exceeds LIM and the V-F state is lowered. -/
  | powerLimitExceeded (watts : Nat)
  /-- R413. TJ reaches 115 °C and the module powers down. -/
  | thermalShutdown (die tj : Nat)
  /-- R343. The management controller changes a die's V-F state and POWER records are written. -/
  | vfStateChange (die index cause : Nat)
  /-- R288. A budget register write is ignored when GUAR would exceed BUDCAP. -/
  | abudWrite (die index : Nat) (value : Word)
  /-- R413. A write of VFSTATE.MAX below CUR lowers the V-F state. -/
  | vfstateWrite (die : Nat) (value : Word)
  /-- R415. Reads the selected item of a debugger-stopped warp. -/
  | dbgdataRead (ctx : Nat)
  /-- R415. Writes the selected item of a debugger-stopped warp. -/
  | dbgdataWrite (ctx : Nat) (value : Word)
  /-- R340. DBGCTL GO resumes every stopped warp and clears HALT. -/
  | debugGo (ctx : Nat)
  /-- R415. CTXCTL CREATE makes a context valid after checking preconditions. -/
  | create (ctx : Nat)
  /-- R415. CTXCTL DESTROY removes a context that has no part resident. -/
  | destroy (ctx : Nat)
  /-- R414. A VSLOTs write with V = 1 assigns and clears a Vigil slot. -/
  | vslotAssign (slot ctx : Nat)
  /-- R414. A VSLOTs write with V = 0 releases a slot and discards its state. -/
  | vslotRelease (slot : Nat)
  /-- R332. FEATCTL GO sets FEATACK from FEAT and FEATSEL and sets DONE. -/
  | featureNegotiate
  /-- R413. Input undervoltage lowers the V-F state. -/
  | inputUndervoltage
  /-- R93. KEYCTL GEN fills a KID's key from the random number generator. -/
  | keyGen
  /-- R93. KEYCTL LOAD takes a KID's key from KEYDATA. -/
  | keyLoad
  /-- R93. KEYCTL ERASE removes a KID's key. -/
  | keyErase
  /-- R93. KEYCTL WRAP writes a KID's key wrapped under another KID into KEYDATA. -/
  | keyWrap
  /-- R93. KEYCTL UNWRAP checks and installs a wrapped key. -/
  | keyUnwrap
  /-- R93. KEYCTL CMD 6 or 7 completes with STAT 0x01. -/
  | keyReservedCommand
  /-- R410. TLBICTL GO queues an invalidation request. -/
  | tlbInvalidateRequest
  /-- R78. An invalidation request completes on every die and adds to its counter. -/
  | tlbInvalidateComplete
  /-- R128. CPGCTL command 1 sets the counter-page bit of CPGADDR. -/
  | counterPageSet
  /-- R128. CPGCTL command 2 clears the counter-page bit. -/
  | counterPageClear
  /-- R128. CPGCTL command 3 reads the counter-page bit into MARK. -/
  | counterPageRead
  /-- R401. Recovery mailbox STATUS copies BOOTSTS and the fused minimum. -/
  | status
  /-- R401. Recovery mailbox WRITE programs 4 KiB into a flash slot. -/
  | writeFlash
  /-- R401. Recovery mailbox VERIFY checks a slot and reports its result. -/
  | verify
  /-- R402. Recovery mailbox BIST runs self-test on named offline units. -/
  | bist
  /-- R401. Recovery mailbox RESULTS copies BIST records into RMBDATA. -/
  | results
  /-- R401. Recovery mailbox REBOOT resets the module. -/
  | reboot
  /-- R401. An unknown mailbox command is refused with RMBSTS 0x01. -/
  | mailboxUnknownCommand
  /-- R401. At reset the security processor authenticates and boots firmware, then BIST runs. -/
  | deviceReset
  /-- R390. RET expires and stranded lines are discarded with fault records. -/
  | strandedRetentionExpiry
  deriving DecidableEq, Repr

end Sys2Proof
end

