-- ==== Sys2Proof/Machine/Names.lean ====
section
/-! DEFINITION. What each instruction names: the lane and uniform registers and the predicates it reads
and writes, the fixed latency of its result, the single-issue units it needs and how it reads its
specifiers. One table, written from 08 R144 to R161 and the operand lines of chapters 09 to 12; the checks
of encoding, blocks, stall counts, readiness and pairing all read it. -/

namespace Sys2Proof

/-- A single-issue unit of a quad (02 R25). -/
inductive IssueUnit where
  | memory | sfu | cross | engine | scalar
  deriving DecidableEq, Repr

/-- What an instruction names. A register group is its first register and its size. -/
structure Names where
  /-- lane registers read -/
  la : List (Nat × Nat) := []
  /-- lane registers written -/
  ld : List (Nat × Nat) := []
  /-- lane predicates read and written -/
  pr : List Nat := []
  pw : List Nat := []
  /-- uniform registers read and written -/
  ua : List (Nat × Nat) := []
  ud : List (Nat × Nat) := []
  /-- uniform predicates read and written -/
  sr : List Nat := []
  sw : List Nat := []
  /-- latency of a fixed-latency result (08 R150); 0 where there is none -/
  lat : Nat := 0
  /-- the single-issue units needed (02 R25, 10 R217, 11 R221) -/
  units : List IssueUnit := []
  deriving DecidableEq, Repr

/-- A three-register lane result of latency `n`. -/
def Names.v3 (n : Nat) (d a b : BitVec 7) : Names :=
  { la := [(a.toNat, 1), (b.toNat, 1)], ld := [(d.toNat, 1)], lat := n }
/-- A destructive three-register lane result: D is read as well (08 R144). -/
def Names.v3d (n : Nat) (d a b : BitVec 7) : Names :=
  { la := [(a.toNat, 1), (b.toNat, 1), (d.toNat, 1)], ld := [(d.toNat, 1)], lat := n }
/-- A two-register lane result. -/
def Names.v2 (n : Nat) (d a : BitVec 7) : Names :=
  { la := [(a.toNat, 1)], ld := [(d.toNat, 1)], lat := n }
/-- A special-function result. -/
def Names.sfu (d a : BitVec 7) : Names := { Names.v2 12 d a with units := [.sfu] }
/-- A cross-lane result. -/
def Names.cross (d a b : BitVec 7) : Names := { Names.v3 6 d a b with units := [.cross] }
/-- A comparison into a lane predicate. -/
def Names.cmp (n : Nat) (p : BitVec 3) (as : List (BitVec 7)) : Names :=
  { la := as.map fun a => (a.toNat, 1), pw := [p.toNat], lat := n }
/-- A uniform result of latency 2. -/
def Names.u3 (d a b : BitVec 6) : Names :=
  { ua := [(a.toNat, 1), (b.toNat, 1)], ud := [(d.toNat, 1)], lat := 2, units := [.scalar] }

/-- Registers of a load or store type code: 5 is .b64, 6 is .b128 (08 R160). -/
def groupOfType (t : BitVec 3) : Nat := if t = 5#3 then 2 else if t = 6#3 then 4 else 1
/-- Registers of a store size code: 3 is .b64, 4 is .b128 (08 R160). -/
def groupOfSize (t : BitVec 3) : Nat := if t = 3#3 then 2 else if t = 4#3 then 4 else 1
/-- Is a conversion type held in a register pair (I64, N64)? (09 R181) -/
def isPairType (t : BitVec 4) : Bool := t = 14#4 || t = 15#4
/-- The global base pair s(2 × B[6:2]) (10 R196). -/
def basePair (b : BitVec 5) : Nat × Nat := (2 * b.toNat, 2)
/-- The address pair v(2 × A[6:1]) (08 R146, R160). -/
def addrPair (a : BitVec 6) : Nat × Nat := (2 * a.toNat, 2)
/-- Is a special register 64 bits wide? (03 R50, R53) -/
def sregWide (x : Nat) : Bool :=
  x = 0x05 || x = 0x0E || x = 0x10 || x = 0x12 || x = 0x17 || (0x20 ≤ x && x ≤ 0x2F) || (0x40 ≤ x && x ≤ 0x7F)
/-- Is a special register index assigned? (03 R50, R53, 20 R367) -/
def sregAssigned (x : Nat) : Bool :=
  x ≤ 0x1C || (0x20 ≤ x && x ≤ 0x2F) || (0x40 ≤ x && x ≤ 0x7F)
/-- Uniform registers read by a counter name of form `f` (11 R228). -/
def ctrNameRegs (f : BitVec 2) (a : BitVec 6) : List (Nat × Nat) :=
  if f = 2#2 then [(a.toNat, 2)] else []
/-- The free part of a counter name: A6 for cN, B6 for an address, none for a role name (11 R228). -/
def ctrFree (f : BitVec 2) (a b : BitVec 6) : BitVec 6 :=
  if f = 0#2 then a else if f = 2#2 then b else 0#6

/-- What an instruction names. -/
def Instr.names : Instr → Names
  | .iadd _ d a b => .v3 2 d a b
  | .isub _ d a b => .v3 2 d a b
  | .imul _ d a b => .v3 2 d a b
  | .imulhI32 _ d a b => .v3 2 d a b
  | .imulhN32 _ d a b => .v3 2 d a b
  | .imad _ d a b => .v3d 2 d a b
  | .iminI32 _ d a b => .v3 2 d a b
  | .iminN32 _ d a b => .v3 2 d a b
  | .imaxI32 _ d a b => .v3 2 d a b
  | .imaxN32 _ d a b => .v3 2 d a b
  | .iabs _ d a => .v2 2 d a
  | .ineg _ d a => .v2 2 d a
  | .iaddi _ d a _ => .v2 2 d a
  | .imuli _ d a _ => .v2 2 d a
  | .icmp _ _ p a b => .cmp 2 p [a, b]
  | .icmpi _ _ p a _ => .cmp 2 p [a]
  | .mov _ d a => .v2 2 d a
  | .movi _ d _ => { ld := [(d.toNat, 1)], lat := 2 }
  | .sel _ p d a b => { Names.v3 2 d a b with pr := [p.toNat] }
  | .and _ d a b => .v3 2 d a b
  | .or _ d a b => .v3 2 d a b
  | .xor _ d a b => .v3 2 d a b
  | .andn _ d a b => .v3 2 d a b
  | .not _ d a => .v2 2 d a
  | .andi _ d a _ => .v2 2 d a
  | .ori _ d a _ => .v2 2 d a
  | .xori _ d a _ => .v2 2 d a
  | .shl _ d a b => .v3 2 d a b
  | .shr _ d a b => .v3 2 d a b
  | .sar _ d a b => .v3 2 d a b
  | .rol _ d a b => .v3 2 d a b
  | .shli _ d a _ => .v2 2 d a
  | .shri _ d a _ => .v2 2 d a
  | .sari _ d a _ => .v2 2 d a
  | .popc _ d a => .v2 2 d a
  | .clz _ d a => .v2 2 d a
  | .ctz _ d a => .v2 2 d a
  | .brev _ d a => .v2 2 d a
  | .bfeN32 _ d a b => .v3 2 d a b
  | .bfeI32 _ d a b => .v3 2 d a b
  | .bfi _ d a b => .v3d 2 d a b
  | .fadd _ d a b => .v3 4 d a b
  | .fsub _ d a b => .v3 4 d a b
  | .fmul _ d a b => .v3 4 d a b
  | .ffma _ d a b => .v3d 4 d a b
  | .fmin _ d a b => .v3 4 d a b
  | .fmax _ d a b => .v3 4 d a b
  | .fabs _ d a => .v2 4 d a
  | .fneg _ d a => .v2 4 d a
  | .fcmp _ _ p a b => .cmp 4 p [a, b]
  | .fclass _ d a => .v2 4 d a
  | .fcpys _ d a b => .v3 4 d a b
  | .frnd _ d a => .v2 4 d a
  | .hadd2 _ _ d a b => .v3 4 d a b
  | .hsub2 _ _ d a b => .v3 4 d a b
  | .hmul2 _ _ d a b => .v3 4 d a b
  | .hfma2 _ _ d a b => .v3d 4 d a b
  | .hmin2 _ _ d a b => .v3 4 d a b
  | .hmax2 _ _ d a b => .v3 4 d a b
  | .hdot2 _ _ d a b => .v3d 4 d a b
  | .cvt _ d a r _ t =>
    { la := [(a.toNat, if r = 1#1 && isPairType t then 2 else 1)]
      ld := [(d.toNat, if r = 0#1 && isPairType t then 2 else 1)], lat := 4 }
  | .cvtx _ d a _ _ _ => { la := [(a.toNat, 1), (d.toNat, 2)], ld := [(d.toNat, 2)], lat := 4 }
  | .cvtp _ t d a b => if t = 2#2 || t = 3#2 then .v3d 4 d a b else .v3 4 d a b
  | .qnt _ d a _ _ => { Names.v2 6 d a with units := [.cross] }
  | .dqnt _ d a b => .v3 4 d a b
  | .frcp _ d a => .sfu d a
  | .frsq _ d a => .sfu d a
  | .fsqrt _ d a => .sfu d a
  | .fexp2 _ d a => .sfu d a
  | .flog2 _ d a => .sfu d a
  | .fsin _ d a => .sfu d a
  | .fcos _ d a => .sfu d a
  | .ftanh _ d a => .sfu d a
  | .ferf _ d a => .sfu d a
  | .fsigm _ d a => .sfu d a
  | .shfl _ _ d a b => .cross d a b
  | .vote _ _ d a b => .cross d a b
  | .ballot _ _ d a b => .cross d a b
  | .redx _ _ d a b => .cross d a b
  | .scan _ _ d a b => .cross d a b
  | .matchLanes _ _ d a b => .cross d a b
  | .ld _ t d a b _ _ =>
    { la := [(a.toNat, 1)], ld := [(d.toNat, groupOfType t)], ua := [basePair b], units := [.memory] }
  | .st _ t d a b _ =>
    { la := [(a.toNat, 1), (d.toNat, groupOfSize t)], ua := [basePair b], units := [.memory] }
  | .atom _ d a w _ _ =>
    { la := [addrPair a, (d.toNat, 1 + w.toNat)], ld := [(d.toNat, 1 + w.toNat)], units := [.memory] }
  | .cas _ d a w _ =>
    { la := [addrPair a, (d.toNat, 2 + 2 * w.toNat)], ld := [(d.toNat, 1 + w.toNat)], units := [.memory] }
  | .caddv _ d _ a _ b =>
    { la := [addrPair a, (b.toNat, 1)], ld := [addrPair d], units := [.memory] }
  | .lds _ t d a _ _ => { la := [(a.toNat, 1)], ld := [(d.toNat, groupOfType t)], units := [.memory] }
  | .sts _ t d a _ _ => { la := [(a.toNat, 1), (d.toNat, groupOfSize t)], units := [.memory] }
  | .atoms _ d a _ _ => { la := [(a.toNat, 1), (d.toNat, 1)], ld := [(d.toNat, 1)], units := [.memory] }
  | .cass _ d a _ => { la := [(a.toNat, 1), (d.toNat, 2)], ld := [(d.toNat, 1)], units := [.memory] }
  | .pref _ _ a b _ => { la := [(a.toNat, 1)], ua := [basePair b], units := [.memory] }
  | .bra _ _ => {}
  | .brp _ _ p _ => { pr := [p.toNat] }
  | .call _ _ => { units := [.memory] }
  | .calli _ a => { la := [(a.toNat, 1)], units := [.memory] }
  | .ret _ => { units := [.memory] }
  | .jmpi _ a => { la := [(a.toNat, 1)] }
  | .rcv _ => {}
  | .exit _ => {}
  | .spawn _ a b => { la := [(a.toNat, 1), (b.toNat, 1)], units := [.memory] }
  | .yld _ => {}
  | .nop _ => {}
  | .sadd _ d a b => .u3 d a b
  | .ssub _ d a b => .u3 d a b
  | .smul _ d a b => .u3 d a b
  | .smulh _ d a b _ => .u3 d a b
  | .sand _ d a b => .u3 d a b
  | .sor _ d a b => .u3 d a b
  | .sxor _ d a b => .u3 d a b
  | .sshl _ d a b => .u3 d a b
  | .sshr _ d a b => .u3 d a b
  | .ssar _ d a b => .u3 d a b
  | .smin _ d a b _ => .u3 d a b
  | .smax _ d a b _ => .u3 d a b
  | .smov _ d a => { ua := [(a.toNat, 1)], ud := [(d.toNat, 1)], lat := 2, units := [.scalar] }
  | .smovi _ d _ => { ud := [(d.toNat, 1)], lat := 2, units := [.scalar] }
  | .saddi _ d _ => { ua := [(d.toNat, 1)], ud := [(d.toNat, 1)], lat := 2, units := [.scalar] }
  | .scmp _ p a b _ =>
    { ua := [(a.toNat, 1), (b.toNat, 1)], sw := [p.toNat], lat := 2, units := [.scalar] }
  | .ssel _ d a b p => { Names.u3 d a b with sr := [p.toNat] }
  | .sadd64 _ d a b =>
    { ua := [(a.toNat, 2), (b.toNat, 2)], ud := [(d.toNat, 2)], lat := 2, units := [.scalar] }
  | .sld _ d a b w =>
    { ua := [(a.toNat, 2), (b.toNat, 1)], ud := [(d.toNat, 1 + w.toNat)], units := [.scalar, .memory] }
  | .sst _ d a b w =>
    { ua := [(a.toNat, 2), (b.toNat, 1), (d.toNat, 1 + w.toNat)], units := [.scalar, .memory] }
  | .sbra _ _ => { units := [.scalar] }
  | .sbrp _ _ p _ => { sr := [p.toNat], units := [.scalar] }
  | .scall _ _ => { units := [.scalar, .memory] }
  | .sret _ => { units := [.scalar, .memory] }
  | .srd _ d x =>
    { ud := [(d.toNat, if sregWide x.toNat then 2 else 1)], lat := 2, units := [.scalar] }
  | .swr _ d x => { ua := [(d.toNat, if sregWide x.toNat then 2 else 1)], units := [.scalar] }
  | .cadd _ d a b f _ =>
    { ua := (if ctrFree f a b = 0#6 then [(d.toNat, 1)] else []) ++ ctrNameRegs f a
      ud := [(d.toNat, 2)], units := [.scalar, .engine] }
  | .crd _ d a _ f => { ua := ctrNameRegs f a, ud := [(d.toNat, 2)], units := [.scalar, .engine] }
  | .cwait _ d a _ f _ => { ua := (d.toNat, 2) :: ctrNameRegs f a, units := [.scalar, .engine] }
  | .cpoll _ d a b f _ =>
    { ua := (d.toNat, 2) :: ctrNameRegs f a, sw := [(ctrFree f a b).toNat % 4], units := [.scalar, .engine] }
  | .fence _ _ _ => { units := [.scalar] }
  | .cmnt _ a b _ _ => { ua := [(a.toNat, 2), (b.toNat, 1)], units := [.scalar, .memory] }
  | .racq _ _ => { units := [.scalar] }
  | .racqNb _ _ p => { sw := [p.toNat], units := [.scalar] }
  | .rrel _ _ => { units := [.scalar] }
  | .rnext _ d p => { ud := [(d.toNat, 1)], sw := [p.toNat], units := [.scalar, .engine] }
  | .launch _ a => { ua := [(a.toNat, 2)], units := [.scalar, .memory] }
  | .cpy _ a _ => { ua := [(a.toNat, 8)], units := [.scalar, .engine] }
  | .cpyb _ _ a _ _ => { ua := [(a.toNat, 8)], units := [.scalar, .engine] }
  | .cpyg _ a b _ => { ua := [(a.toNat, 8), (b.toNat, 2)], units := [.scalar, .engine] }
  | .cpys _ a b _ => { ua := [(a.toNat, 8), (b.toNat, 2)], units := [.scalar, .engine] }
  | .cseal _ d a b f _ =>
    { ua := if f = 3#2 then []
        else (if ctrFree f a b = 0#6 then [(d.toNat, 1)] else []) ++ ctrNameRegs f a
      units := [.scalar, .engine] }
  | .cwaitb _ _ => { units := [.scalar, .engine] }
  | .wdesc _ a _ => { ua := [(a.toNat, 2)], units := [.scalar, .engine] }
  | .msignCount _ _ _ => { units := [.scalar, .engine] }
  | .msignReg _ _ a => { ua := [(a.toNat, 1)], units := [.scalar, .engine] }
  | .ldw _ a => { ua := [(a.toNat, 1)], units := [.scalar, .engine] }
  | .wswap _ => { units := [.scalar, .engine] }
  | .mma _ d a _ => { ua := [(d.toNat, 1), (a.toNat, 1)], units := [.scalar, .engine] }
  | .mmat _ d a => { ua := [(d.toNat, 1), (a.toNat, 1)], units := [.scalar, .engine] }
  | .mperm _ d a => { ua := [(d.toNat, 1), (a.toNat, 1)], units := [.scalar, .engine] }
  | .mred _ d a => { ua := [(d.toNat, 1), (a.toNat, 1)], units := [.scalar, .engine] }
  | .mrd _ d a => { ua := [(a.toNat, 1)], ld := [(d.toNat, 8)], units := [.scalar, .engine] }
  | .mst _ d a => { ua := [(d.toNat, 1), (a.toNat, 1)], units := [.scalar, .engine] }
  | .mzero _ d => { ua := [(d.toNat, 1)], units := [.scalar, .engine] }
  | .trap _ _ => { units := [.scalar] }
  | .rft _ => { units := [.scalar] }
  | .svc _ d a => { ua := [(d.toNat, 1), (a.toNat, 2)], units := [.scalar, .memory] }
  | .bkpt _ _ => { units := [.scalar] }
  | .ckpt _ => { units := [.scalar, .engine] }
  | .ckptCounter _ a b => { ua := [(a.toNat, 2), (b.toNat, 1)], units := [.scalar, .engine] }
  | .rgnent _ a => { ua := [(a.toNat, 1)], units := [.scalar] }
  | .rgnlve _ a => { ua := [(a.toNat, 1)], units := [.scalar] }
  | .toksub _ d a b => { la := [(a.toNat, 1), (b.toNat, 1)], ld := [(d.toNat, 8)], units := [.scalar, .engine] }
  | .toksubD _ d a b => { la := [(a.toNat, 1), (b.toNat, 1)], ld := [(d.toNat, 8)], units := [.scalar, .engine] }
  | .tokconf _ d a b => { la := [(a.toNat, 1), (b.toNat, 1)], ld := [(d.toNat, 8)], units := [.scalar, .engine] }
  | .tokarm _ a b => { ua := [(a.toNat, 2), (b.toNat, 1)], units := [.scalar, .engine] }
  | .quadIssueCycle _ _ => {}
  | .spawnBinTimerExpiry _ _ => {}
  | .spawnBinLaunch _ _ => {}
  | .coreAdmission _ => {}
  | .launchDescriptorTake _ _ _ _ => {}
  | .submissionQueueEntry _ => {}
  | .queueControlBlockGiven _ _ _ _ => {}
  | .run _ _ _ _ => {}
  | .launchNode _ => {}
  | .copyNode _ => {}
  | .signalNode _ => {}
  | .waitNode _ => {}
  | .condNode _ => {}
  | .stealRequest _ _ => {}
  | .stealAgentTimeout _ => {}
  | .reserve _ _ _ => {}
  | .commit _ _ => {}
  | .rollback _ _ => {}
  | .start _ _ => {}
  | .agree _ _ => {}
  | .refuse _ _ => {}
  | .confirm _ _ => {}
  | .withdraw _ _ => {}
  | .gangHoldTimeout _ _ => {}
  | .gangCollectTimeout _ => {}
  | .equinoxStep _ => {}
  | .budgetPeriod _ _ => {}
  | .stop _ => {}
  | .swap _ => {}
  | .resume _ => {}
  | .demote _ => {}
  | .load _ => {}
  | .enter _ => {}
  | .pctlReservedCommand _ => {}
  | .partitionCommandComplete _ => {}
  | .parkedEviction _ _ => {}
  | .evictionWakePoll _ _ => {}
  | .almanacPeriodExpiry _ => {}
  | .cut _ => {}
  | .cutReply _ _ => {}
  | .heldWriteRelease _ _ => {}
  | .intervalDurable _ => {}
  | .rollbackGo _ => {}
  | .vigilStep _ _ => {}
  | .vigilDraftStep _ _ => {}
  | .vigilConfirm _ _ => {}
  | .vigilArmApply _ => {}
  | .vigilResultArrival _ => {}
  | .biasFlipToHost _ => {}
  | .biasFlipToDevice _ => {}
  | .flipStep2Complete _ => {}
  | .hostMemRead _ => {}
  | .hostMemWrite _ _ => {}
  | .hostCounterWrite _ _ => {}
  | .bisnpResponse _ _ => {}
  | .peerAccess _ _ _ _ => {}
  | .peerRefusal _ _ _ _ => {}
  | .counterOpAtHome _ => {}
  | .slowListNotice _ _ => {}
  | .monitorWake _ => {}
  | .hold _ _ => {}
  | .apply _ _ => {}
  | .release _ _ => {}
  | .appCoreCounterAmo _ _ _ => {}
  | .ringAgentPass _ => {}
  | .ringWindowExpiry _ => {}
  | .featureNegotiate => {}
  | .traceRecordWrite _ => {}
  | .traceSample _ => {}
  | .tileRecord _ _ => {}
  | .debugGo _ => {}
  | .dbgdataRead _ => {}
  | .dbgdataWrite _ _ => {}
  | .captureStart _ _ => {}
  | .captureEnd _ => {}
  | .vfStateChange _ _ _ => {}
  | .thermalThrottle _ _ => {}
  | .powerLimitExceeded _ => {}
  | .inputUndervoltage => {}
  | .thermalShutdown _ _ => {}
  | .replayDigest _ _ => {}
  | .trapEntry _ _ _ _ => {}
  | .asyncTrapTake _ _ => {}
  | .copyComplete _ _ => {}
  | .copyHalt _ _ => {}
  | .matrixCommandStart _ => {}
  | .matrixCommandRetire _ => {}
  | .pageWalkComplete _ _ _ => {}
  | .l1WritebackDeadline _ _ => {}
  | .keyGen => {}
  | .keyLoad => {}
  | .keyErase => {}
  | .keyWrap => {}
  | .keyUnwrap => {}
  | .keyReservedCommand => {}
  | .tlbInvalidateRequest => {}
  | .tlbInvalidateComplete => {}
  | .counterPageSet => {}
  | .counterPageClear => {}
  | .counterPageRead => {}
  | .create _ => {}
  | .destroy _ => {}
  | .vslotAssign _ _ => {}
  | .vslotRelease _ => {}
  | .status => {}
  | .writeFlash => {}
  | .verify => {}
  | .bist => {}
  | .results => {}
  | .reboot => {}
  | .mailboxUnknownCommand => {}
  | .deviceReset => {}
  | .abudWrite _ _ _ => {}
  | .vfstateWrite _ _ => {}
  | .registerWrite _ _ _ => {}
  | .cxlLinkLoss _ => {}
  | .colmetLinkLoss _ => {}
  | .linkRetrain _ _ _ => {}
  | .strandedRetentionExpiry => {}
  | .partitionOffline _ => {}
  | .submitterFreeze _ => {}
  | .restore _ _ _ _ => {}
  | .memoryRequestAtHome _ => {}
  | .variableLatencyResult _ => {}
  | .holdAnswer _ _ _ => {}
  | .stealReply _ _ _ => {}
  | .cxlCacheSnoop _ _ _ => {}

end Sys2Proof
end

