-- ==== Sys2Proof/Machine/Encoding.lean ====
section
/-! DEFINITION. When an encoding is one the manual gives no meaning (08 R145 to R149, R158 to R161; 20
R374): the fourteen ENCODING reasons, and the check of one instruction's fields. The checks that need the
unit (LIT, REP, the word after MSIGN) stand with the decoder; those that need a register's value stand
with the instruction. -/

namespace Sys2Proof

/-- The ENCODING reasons of 20 R374. -/
inductive EncReason where
  /-- 1: an opcode of neither set's map -/
  | opcode
  /-- 2: a fixed or reserved field that holds another value -/
  | fixedField
  /-- 3: a register specifier not allowed in its place -/
  | specifier
  /-- 4: a register group or pair named wrongly -/
  | group
  /-- 5: a prefix sequence not allowed, or SC ≠ 0 in a prefix -/
  | prefixWord
  /-- 6: a LIT that is not allowed or not used, or a role-addressed access without LIT -/
  | literal
  /-- 7: a REP that is not allowed -/
  | repeated
  /-- 8: an unassigned sub-code -/
  | subCode
  /-- 9: a control word with a stray bit or unassigned code -/
  | controlWord
  /-- 10: an unassigned special register index -/
  | sregIndex
  /-- 11: a reserved field or value in an SWR -/
  | swrReserved
  /-- 12: MSIGN before a word that is no matrix command -/
  | msignNext
  /-- 13: a copy block not on a multiple of 8 -/
  | copyBlock
  /-- 14: a WDESC with a value out of range -/
  | wdesc
  deriving DecidableEq, Repr

/-- The reason's code (20 R374). -/
def EncReason.code : EncReason → Nat
  | .opcode => 1 | .fixedField => 2 | .specifier => 3 | .group => 4 | .prefixWord => 5 | .literal => 6
  | .repeated => 7 | .subCode => 8 | .controlWord => 9 | .sregIndex => 10 | .swrReserved => 11
  | .msignNext => 12 | .copyBlock => 13 | .wdesc => 14

/-- Sub-code check (reason 8). -/
def subIf (bad : Bool) : Option EncReason := if bad then some .subCode else none
/-- Fixed-field check (reason 2). -/
def fixedIf (bad : Bool) : Option EncReason := if bad then some .fixedField else none
/-- A copy block starts at s0, s8, …, s56 (12 R243; reason 13). -/
def copyBlockIf (a : BitVec 6) : Option EncReason :=
  if a.toNat % 8 = 0 then none else some .copyBlock
/-- A role-addressed counter name has A6[5] = 0 (11 R228). -/
def roleFixed (f : BitVec 2) (a : BitVec 6) : Option EncReason := fixedIf (f = 1#2 && 31 < a.toNat)
/-- A result group of 8 lane registers starts at a multiple of 8 from v0 to v56 (12 R264, R268). -/
def laneFieldGroup (d : BitVec 6) : Option EncReason :=
  if d.toNat % 8 = 0 then none else some .group
/-- The conversion selectors that are assigned (09 R181). -/
def cvtSelectorOk (r : BitVec 1) (n : BitVec 2) (t : BitVec 4) : Bool :=
  !(t = 0#4 || (5 ≤ t.toNat && t.toNat ≤ 7)) &&
  (n = 0#2 || (r = 1#1 && ((t.toNat ≤ 2 && n.toNat ≤ 1) || t = 3#4 || t = 4#4)))

/-- A lane operand of `n` registers read as a source (08 R145, R146). -/
def laneSrcBad (e : Nat × Nat) : Option EncReason :=
  if e.2 = 1 then (if e.1 ≤ 124 then none else some .specifier)
  else if e.2 = 8 then none
  else if e.1 % e.2 = 0 && e.1 + e.2 ≤ 112 then none else some .group
/-- A lane destination of `n` registers (08 R145, R146). -/
def laneDstBad (e : Nat × Nat) : Option EncReason :=
  if e.2 = 1 then (if e.1 ≤ 119 || e.1 = 122 then none else some .specifier)
  else if e.2 = 8 then none
  else if e.1 % e.2 = 0 && e.1 + e.2 ≤ 112 then none else some .group
/-- A uniform pair is named by its even register (08 R148); a copy block is checked as such. -/
def uniformBad (e : Nat × Nat) : Option EncReason :=
  if e.2 = 2 && e.1 % 2 = 1 then some .group else none

/-- The first failure of a list of operands, with its specifier. -/
def firstBad (f : Nat × Nat → Option EncReason) : List (Nat × Nat) → Option (EncReason × Nat)
  | [] => none
  | x :: xs => match f x with
    | some r => some (r, x.1)
    | none => firstBad f xs

/-- The sub-codes and fixed parts of an instruction's own fields (08 R159 to R161; 09 R173, R178, R181,
R185, R189; 10 R203; 11 R228, R230 to R232; 12 R243, R249, R251). -/
def Instr.fieldBad : Instr → Option EncReason
  | .icmp _ c _ _ _ => subIf (10 < c.toNat)
  | .icmpi _ c _ _ _ => subIf (10 < c.toNat)
  | .shli _ _ _ i => subIf (31 < i.toNat)
  | .shri _ _ _ i => subIf (31 < i.toNat)
  | .sari _ _ _ i => subIf (31 < i.toNat)
  | .fcmp _ c _ _ _ => subIf (7 < c.toNat)
  | .cvt _ _ _ r n t => subIf (!cvtSelectorOk r n t)
  | .cvtx _ _ _ r n t => subIf (!cvtSelectorOk r n t || r = 1#1 || isPairType t)
  | .qnt _ _ _ w _ => subIf (w = 3#2)
  | .shfl _ g _ _ _ => subIf (g = 3#2)
  | .vote _ g _ _ _ => subIf (g = 3#2)
  | .ballot _ g _ _ _ => subIf (g = 3#2)
  | .redx _ g _ _ _ => subIf (g = 3#2)
  | .scan _ g _ _ _ => subIf (g = 3#2)
  | .matchLanes _ g _ _ _ => subIf (g = 3#2)
  | .st _ t _ _ _ _ => subIf (4 < t.toNat)
  | .atom _ _ _ w o k => subIf (9 < o.toNat || (o = 9#4 && w = 1#1) || 5 < k.toNat)
  | .cas _ _ _ _ k => subIf (5 < k.toNat)
  | .sts _ t _ _ _ _ => subIf (4 < t.toNat)
  | .atoms _ _ _ o k => subIf (9 < o.toNat || 5 < k.toNat)
  | .cass _ _ _ k => subIf (5 < k.toNat)
  | .pref _ l _ _ _ => subIf (1 < l.toNat)
  | .scmp _ _ _ _ c => subIf (10 < c.toNat)
  | .srd _ _ x => if sregAssigned x.toNat then none else some .sregIndex
  | .swr _ _ x => if sregAssigned x.toNat then none else some .sregIndex
  | .cadd _ _ a _ f _ => (subIf (f = 3#2)).orElse fun _ => roleFixed f a
  | .crd _ _ a b f => (subIf (f = 3#2)).orElse fun _ => (roleFixed f a).orElse fun _ => fixedIf (ctrFree f a b != 0#6)
  | .cwait _ _ a b f _ => (subIf (f = 3#2)).orElse fun _ => (roleFixed f a).orElse fun _ => fixedIf (ctrFree f a b != 0#6)
  | .cpoll _ _ a b f _ => (subIf (f = 3#2 || f = 1#2)).orElse fun _ => fixedIf (3 < (ctrFree f a b).toNat)
  | .fence _ e _ => subIf (e = 0#3 || 5 < e.toNat)
  | .cmnt _ _ _ l o => subIf (l = 3#2 || o = 3#2)
  | .racq _ m => subIf (m = 0#7)
  | .racqNb _ m _ => subIf (m = 0#7)
  | .rrel _ m => subIf (m = 0#7)
  | .cpy _ a _ => copyBlockIf a
  | .cpyb _ d a _ _ => (copyBlockIf a).orElse fun _ => subIf (d = 0#6 || 32 < d.toNat)
  | .cpyg _ a _ _ => copyBlockIf a
  | .cpys _ a _ _ => copyBlockIf a
  | .cseal _ d a b f k => if f = 3#2 then fixedIf (d != 0#6 || a != 0#6 || b != 0#6 || k != 0#2) else roleFixed f a
  | .mrd _ d _ => laneFieldGroup d
  | .toksub _ d _ _ => laneFieldGroup d
  | .toksubD _ d _ _ => laneFieldGroup d
  | .tokconf _ d _ _ => laneFieldGroup d
  | .iadd .. | .isub .. | .imul .. | .imulhI32 .. | .imulhN32 .. | .imad .. | .iminI32 .. | .iminN32 ..
  | .imaxI32 .. | .imaxN32 .. | .iabs .. | .ineg .. | .iaddi .. | .imuli .. | .mov .. | .movi .. | .sel ..
  | .and .. | .or .. | .xor .. | .andn .. | .not .. | .andi .. | .ori .. | .xori .. | .shl .. | .shr ..
  | .sar .. | .rol .. | .popc .. | .clz .. | .ctz .. | .brev .. | .bfeN32 .. | .bfeI32 .. | .bfi ..
  | .fadd .. | .fsub .. | .fmul .. | .ffma .. | .fmin .. | .fmax .. | .fabs .. | .fneg .. | .fclass ..
  | .fcpys .. | .frnd .. | .hadd2 .. | .hsub2 .. | .hmul2 .. | .hfma2 .. | .hmin2 .. | .hmax2 .. | .hdot2 ..
  | .cvtp .. | .dqnt .. | .frcp .. | .frsq .. | .fsqrt .. | .fexp2 .. | .flog2 .. | .fsin .. | .fcos ..
  | .ftanh .. | .ferf .. | .fsigm .. | .ld .. | .caddv .. | .lds .. | .bra .. | .brp .. | .call ..
  | .calli .. | .ret .. | .jmpi .. | .rcv .. | .exit .. | .spawn .. | .yld .. | .nop .. | .sadd .. | .ssub ..
  | .smul .. | .smulh .. | .sand .. | .sor .. | .sxor .. | .sshl .. | .sshr .. | .ssar .. | .smin ..
  | .smax .. | .smov .. | .smovi .. | .saddi .. | .ssel .. | .sadd64 .. | .sld .. | .sst .. | .sbra ..
  | .sbrp .. | .scall .. | .sret .. | .rnext .. | .launch .. | .cwaitb .. | .wdesc .. | .msignCount ..
  | .msignReg .. | .ldw .. | .wswap .. | .mma .. | .mmat .. | .mperm .. | .mred .. | .mst .. | .mzero ..
  | .trap .. | .rft .. | .svc .. | .bkpt .. | .ckpt .. | .ckptCounter .. | .rgnent .. | .rgnlve ..
  | .tokarm .. | .quadIssueCycle .. | .spawnBinTimerExpiry .. | .spawnBinLaunch .. | .coreAdmission ..
  | .launchDescriptorTake .. | .submissionQueueEntry .. | .run .. | .launchNode .. | .copyNode ..
  | .signalNode .. | .waitNode .. | .condNode .. | .stealRequest .. | .stealAgentTimeout .. | .reserve ..
  | .commit .. | .rollback .. | .start .. | .agree .. | .refuse .. | .confirm .. | .withdraw ..
  | .gangHoldTimeout .. | .gangCollectTimeout .. | .equinoxStep .. | .stop .. | .swap .. | .resume ..
  | .demote .. | .load .. | .enter .. | .pctlReservedCommand .. | .partitionCommandComplete ..
  | .parkedEviction .. | .evictionWakePoll .. | .almanacPeriodExpiry .. | .cut .. | .cutReply ..
  | .heldWriteRelease .. | .intervalDurable .. | .rollbackGo .. | .vigilStep .. | .vigilDraftStep ..
  | .vigilConfirm .. | .vigilArmApply .. | .vigilResultArrival .. | .biasFlipToHost .. | .biasFlipToDevice ..
  | .flipStep2Complete .. | .counterOpAtHome .. | .slowListNotice .. | .monitorWake .. | .hold .. | .apply ..
  | .release .. | .ringAgentPass .. | .ringWindowExpiry .. | .traceRecordWrite .. | .traceSample ..
  | .tileRecord .. | .captureEnd .. | .replayDigest .. | .trapEntry .. | .asyncTrapTake .. | .copyComplete ..
  | .copyHalt .. | .matrixCommandStart .. | .matrixCommandRetire .. | .pageWalkComplete ..
  | .l1WritebackDeadline .. | .memoryRequestAtHome .. | .variableLatencyResult .. | .holdAnswer ..
  | .stealReply .. | .queueControlBlockGiven .. | .budgetPeriod .. | .cxlLinkLoss .. | .colmetLinkLoss ..
  | .linkRetrain .. | .partitionOffline .. | .submitterFreeze .. | .restore .. | .cxlCacheSnoop ..
  | .hostMemRead .. | .hostMemWrite .. | .hostCounterWrite .. | .bisnpResponse .. | .peerAccess ..
  | .peerRefusal .. | .appCoreCounterAmo .. | .registerWrite .. | .captureStart .. | .thermalThrottle ..
  | .powerLimitExceeded .. | .thermalShutdown .. | .vfStateChange .. | .abudWrite .. | .vfstateWrite ..
  | .dbgdataRead .. | .dbgdataWrite .. | .debugGo .. | .create .. | .destroy .. | .vslotAssign ..
  | .vslotRelease .. | .featureNegotiate .. | .inputUndervoltage .. | .keyGen .. | .keyLoad .. | .keyErase ..
  | .keyWrap .. | .keyUnwrap .. | .keyReservedCommand .. | .tlbInvalidateRequest ..
  | .tlbInvalidateComplete .. | .counterPageSet .. | .counterPageClear .. | .counterPageRead .. | .status ..
  | .writeFlash .. | .verify .. | .bist .. | .results .. | .reboot .. | .mailboxUnknownCommand ..
  | .deviceReset .. | .strandedRetentionExpiry .. => none

/-- The field that a failing own field of an instruction names (20 R372: the offending value). -/
def Instr.fieldValue : Instr → Nat
  | .srd _ _ x => x.toNat
  | .swr _ _ x => x.toNat
  | .cpy _ a _ => a.toNat
  | .cpyg _ a _ _ => a.toNat
  | .cpys _ a _ _ => a.toNat
  | .cpyb _ _ a _ _ => if a.toNat % 8 = 0 then 0 else a.toNat
  | .mrd _ d _ => d.toNat
  | .toksub _ d _ _ => d.toNat
  | .toksubD _ d _ _ => d.toNat
  | .tokconf _ d _ _ => d.toNat
  | _ => 0

/-- The D specifier of a store of one register, which R145's column for D governs though it is read. -/
def Instr.storeData : Instr → List (Nat × Nat)
  | .st _ t d _ _ _ => [(d.toNat, groupOfSize t)]
  | .sts _ t d _ _ _ => [(d.toNat, groupOfSize t)]
  | _ => []

/-- Why an instruction's fields are no encoding of it, if they are not (20 R374), with the offending
value. The specifiers are checked only for words of the lane set and the lane fields of engine commands,
which name v0 to v63. -/
def Instr.encFail (i : Instr) : Option (EncReason × Nat) :=
  let n := i.names
  (i.fieldBad.map fun r => (r, i.fieldValue)).orElse fun _ =>
  (firstBad laneDstBad (n.ld ++ i.storeData)).orElse fun _ =>
  (firstBad laneSrcBad n.la).orElse fun _ =>
  (firstBad uniformBad n.ua).orElse fun _ => firstBad uniformBad n.ud

/-- The reason alone. -/
def Instr.illFormed (i : Instr) : Option EncReason := i.encFail.map Prod.fst

end Sys2Proof
end

