-- ==== Sys2Proof/WellFormed.lean ====
section
/-! DEFINITION. The well-formed instructions: those whose fields are an encoding the manual gives a
meaning (08 R145 to R149, R158 to R161). -/

namespace Sys2Proof

/-- No check of the encoding fails. -/
def Instr.WellFormed (i : Instr) : Bool := i.illFormed.isNone

end Sys2Proof
end

