-- ==== Sys2Proof/Decode.lean ====
section
/-! DEFINITION. The decoder (08 R141 to R161), total on any bytes, and the encoder of the same words.
`decodeWord` reads one word: an opcode, sub-code or fixed field that no row of the maps has is refused by
its ENCODING reason (20 R374); `decodeUnit` reads a unit with its prefixes (R141, R142, R153 to R155). What
the fields of a decoded word may hold is `Instr.illFormed`. -/

namespace Sys2Proof

/-- An instruction whose fixed fields hold `ok`; another value there is reason 2. -/
def fixedOr (ok : Bool) (i : Instr) : Except EncReason Instr := if ok then .ok i else .error .fixedField
/-- An instruction whose sub-code is assigned; another is reason 8. -/
def subOr (ok : Bool) (i : Instr) : Except EncReason Instr := if ok then .ok i else .error .subCode

/-- A word of the lane set (08 R143, R159, R160). -/
def decodeLane (w : Word) : Except EncReason Instr :=
  match w.extractLsb' 21 8 with
  | 0x00#8 => .ok (.iadd (w.extractLsb' 29 2) (w.extractLsb' 14 7) (w.extractLsb' 7 7) (w.extractLsb' 0 7))
  | 0x01#8 => .ok (.isub (w.extractLsb' 29 2) (w.extractLsb' 14 7) (w.extractLsb' 7 7) (w.extractLsb' 0 7))
  | 0x02#8 => .ok (.imul (w.extractLsb' 29 2) (w.extractLsb' 14 7) (w.extractLsb' 7 7) (w.extractLsb' 0 7))
  | 0x03#8 => .ok (.imulhI32 (w.extractLsb' 29 2) (w.extractLsb' 14 7) (w.extractLsb' 7 7) (w.extractLsb' 0 7))
  | 0x04#8 => .ok (.imulhN32 (w.extractLsb' 29 2) (w.extractLsb' 14 7) (w.extractLsb' 7 7) (w.extractLsb' 0 7))
  | 0x05#8 => .ok (.imad (w.extractLsb' 29 2) (w.extractLsb' 14 7) (w.extractLsb' 7 7) (w.extractLsb' 0 7))
  | 0x06#8 => .ok (.iminI32 (w.extractLsb' 29 2) (w.extractLsb' 14 7) (w.extractLsb' 7 7) (w.extractLsb' 0 7))
  | 0x07#8 => .ok (.iminN32 (w.extractLsb' 29 2) (w.extractLsb' 14 7) (w.extractLsb' 7 7) (w.extractLsb' 0 7))
  | 0x08#8 => .ok (.imaxI32 (w.extractLsb' 29 2) (w.extractLsb' 14 7) (w.extractLsb' 7 7) (w.extractLsb' 0 7))
  | 0x09#8 => .ok (.imaxN32 (w.extractLsb' 29 2) (w.extractLsb' 14 7) (w.extractLsb' 7 7) (w.extractLsb' 0 7))
  | 0x0A#8 => fixedOr ((w.extractLsb' 0 7) = 0#7) (.iabs (w.extractLsb' 29 2) (w.extractLsb' 14 7) (w.extractLsb' 7 7))
  | 0x0B#8 => fixedOr ((w.extractLsb' 0 7) = 0#7) (.ineg (w.extractLsb' 29 2) (w.extractLsb' 14 7) (w.extractLsb' 7 7))
  | 0x0C#8 => .ok (.iaddi (w.extractLsb' 29 2) (w.extractLsb' 14 7) (w.extractLsb' 7 7) (w.extractLsb' 0 7))
  | 0x0D#8 => .ok (.imuli (w.extractLsb' 29 2) (w.extractLsb' 14 7) (w.extractLsb' 7 7) (w.extractLsb' 0 7))
  | 0x0E#8 => .ok (.icmp (w.extractLsb' 29 2) (w.extractLsb' 17 4) (w.extractLsb' 14 3) (w.extractLsb' 7 7) (w.extractLsb' 0 7))
  | 0x0F#8 => .ok (.icmpi (w.extractLsb' 29 2) (w.extractLsb' 17 4) (w.extractLsb' 14 3) (w.extractLsb' 7 7) (w.extractLsb' 0 7))
  | 0x10#8 => fixedOr ((w.extractLsb' 0 7) = 0#7) (.mov (w.extractLsb' 29 2) (w.extractLsb' 14 7) (w.extractLsb' 7 7))
  | 0x11#8 => .ok (.movi (w.extractLsb' 29 2) (w.extractLsb' 14 7) (w.extractLsb' 0 14))
  | 0x18#8 => .ok (.sel (w.extractLsb' 29 2) (w.extractLsb' 21 3) (w.extractLsb' 14 7) (w.extractLsb' 7 7) (w.extractLsb' 0 7))
  | 0x19#8 => .ok (.sel (w.extractLsb' 29 2) (w.extractLsb' 21 3) (w.extractLsb' 14 7) (w.extractLsb' 7 7) (w.extractLsb' 0 7))
  | 0x1A#8 => .ok (.sel (w.extractLsb' 29 2) (w.extractLsb' 21 3) (w.extractLsb' 14 7) (w.extractLsb' 7 7) (w.extractLsb' 0 7))
  | 0x1B#8 => .ok (.sel (w.extractLsb' 29 2) (w.extractLsb' 21 3) (w.extractLsb' 14 7) (w.extractLsb' 7 7) (w.extractLsb' 0 7))
  | 0x1C#8 => .ok (.sel (w.extractLsb' 29 2) (w.extractLsb' 21 3) (w.extractLsb' 14 7) (w.extractLsb' 7 7) (w.extractLsb' 0 7))
  | 0x1D#8 => .ok (.sel (w.extractLsb' 29 2) (w.extractLsb' 21 3) (w.extractLsb' 14 7) (w.extractLsb' 7 7) (w.extractLsb' 0 7))
  | 0x1E#8 => .ok (.sel (w.extractLsb' 29 2) (w.extractLsb' 21 3) (w.extractLsb' 14 7) (w.extractLsb' 7 7) (w.extractLsb' 0 7))
  | 0x1F#8 => .ok (.sel (w.extractLsb' 29 2) (w.extractLsb' 21 3) (w.extractLsb' 14 7) (w.extractLsb' 7 7) (w.extractLsb' 0 7))
  | 0x20#8 => .ok (.and (w.extractLsb' 29 2) (w.extractLsb' 14 7) (w.extractLsb' 7 7) (w.extractLsb' 0 7))
  | 0x21#8 => .ok (.or (w.extractLsb' 29 2) (w.extractLsb' 14 7) (w.extractLsb' 7 7) (w.extractLsb' 0 7))
  | 0x22#8 => .ok (.xor (w.extractLsb' 29 2) (w.extractLsb' 14 7) (w.extractLsb' 7 7) (w.extractLsb' 0 7))
  | 0x23#8 => .ok (.andn (w.extractLsb' 29 2) (w.extractLsb' 14 7) (w.extractLsb' 7 7) (w.extractLsb' 0 7))
  | 0x24#8 => fixedOr ((w.extractLsb' 0 7) = 0#7) (.not (w.extractLsb' 29 2) (w.extractLsb' 14 7) (w.extractLsb' 7 7))
  | 0x25#8 => .ok (.andi (w.extractLsb' 29 2) (w.extractLsb' 14 7) (w.extractLsb' 7 7) (w.extractLsb' 0 7))
  | 0x26#8 => .ok (.ori (w.extractLsb' 29 2) (w.extractLsb' 14 7) (w.extractLsb' 7 7) (w.extractLsb' 0 7))
  | 0x27#8 => .ok (.xori (w.extractLsb' 29 2) (w.extractLsb' 14 7) (w.extractLsb' 7 7) (w.extractLsb' 0 7))
  | 0x28#8 => .ok (.shl (w.extractLsb' 29 2) (w.extractLsb' 14 7) (w.extractLsb' 7 7) (w.extractLsb' 0 7))
  | 0x29#8 => .ok (.shr (w.extractLsb' 29 2) (w.extractLsb' 14 7) (w.extractLsb' 7 7) (w.extractLsb' 0 7))
  | 0x2A#8 => .ok (.sar (w.extractLsb' 29 2) (w.extractLsb' 14 7) (w.extractLsb' 7 7) (w.extractLsb' 0 7))
  | 0x2B#8 => .ok (.rol (w.extractLsb' 29 2) (w.extractLsb' 14 7) (w.extractLsb' 7 7) (w.extractLsb' 0 7))
  | 0x2C#8 => .ok (.shli (w.extractLsb' 29 2) (w.extractLsb' 14 7) (w.extractLsb' 7 7) (w.extractLsb' 0 7))
  | 0x2D#8 => .ok (.shri (w.extractLsb' 29 2) (w.extractLsb' 14 7) (w.extractLsb' 7 7) (w.extractLsb' 0 7))
  | 0x2E#8 => .ok (.sari (w.extractLsb' 29 2) (w.extractLsb' 14 7) (w.extractLsb' 7 7) (w.extractLsb' 0 7))
  | 0x2F#8 => fixedOr ((w.extractLsb' 0 7) = 0#7) (.popc (w.extractLsb' 29 2) (w.extractLsb' 14 7) (w.extractLsb' 7 7))
  | 0x30#8 => fixedOr ((w.extractLsb' 0 7) = 0#7) (.clz (w.extractLsb' 29 2) (w.extractLsb' 14 7) (w.extractLsb' 7 7))
  | 0x31#8 => fixedOr ((w.extractLsb' 0 7) = 0#7) (.ctz (w.extractLsb' 29 2) (w.extractLsb' 14 7) (w.extractLsb' 7 7))
  | 0x32#8 => fixedOr ((w.extractLsb' 0 7) = 0#7) (.brev (w.extractLsb' 29 2) (w.extractLsb' 14 7) (w.extractLsb' 7 7))
  | 0x33#8 => .ok (.bfeN32 (w.extractLsb' 29 2) (w.extractLsb' 14 7) (w.extractLsb' 7 7) (w.extractLsb' 0 7))
  | 0x34#8 => .ok (.bfeI32 (w.extractLsb' 29 2) (w.extractLsb' 14 7) (w.extractLsb' 7 7) (w.extractLsb' 0 7))
  | 0x35#8 => .ok (.bfi (w.extractLsb' 29 2) (w.extractLsb' 14 7) (w.extractLsb' 7 7) (w.extractLsb' 0 7))
  | 0x40#8 => .ok (.fadd (w.extractLsb' 29 2) (w.extractLsb' 14 7) (w.extractLsb' 7 7) (w.extractLsb' 0 7))
  | 0x41#8 => .ok (.fsub (w.extractLsb' 29 2) (w.extractLsb' 14 7) (w.extractLsb' 7 7) (w.extractLsb' 0 7))
  | 0x42#8 => .ok (.fmul (w.extractLsb' 29 2) (w.extractLsb' 14 7) (w.extractLsb' 7 7) (w.extractLsb' 0 7))
  | 0x43#8 => .ok (.ffma (w.extractLsb' 29 2) (w.extractLsb' 14 7) (w.extractLsb' 7 7) (w.extractLsb' 0 7))
  | 0x44#8 => .ok (.fmin (w.extractLsb' 29 2) (w.extractLsb' 14 7) (w.extractLsb' 7 7) (w.extractLsb' 0 7))
  | 0x45#8 => .ok (.fmax (w.extractLsb' 29 2) (w.extractLsb' 14 7) (w.extractLsb' 7 7) (w.extractLsb' 0 7))
  | 0x46#8 => fixedOr ((w.extractLsb' 0 7) = 0#7) (.fabs (w.extractLsb' 29 2) (w.extractLsb' 14 7) (w.extractLsb' 7 7))
  | 0x47#8 => fixedOr ((w.extractLsb' 0 7) = 0#7) (.fneg (w.extractLsb' 29 2) (w.extractLsb' 14 7) (w.extractLsb' 7 7))
  | 0x48#8 => .ok (.fcmp (w.extractLsb' 29 2) (w.extractLsb' 17 4) (w.extractLsb' 14 3) (w.extractLsb' 7 7) (w.extractLsb' 0 7))
  | 0x49#8 => fixedOr ((w.extractLsb' 0 7) = 0#7) (.fclass (w.extractLsb' 29 2) (w.extractLsb' 14 7) (w.extractLsb' 7 7))
  | 0x4A#8 => .ok (.fcpys (w.extractLsb' 29 2) (w.extractLsb' 14 7) (w.extractLsb' 7 7) (w.extractLsb' 0 7))
  | 0x4B#8 => fixedOr ((w.extractLsb' 0 7) = 0#7) (.frnd (w.extractLsb' 29 2) (w.extractLsb' 14 7) (w.extractLsb' 7 7))
  | 0x50#8 => .ok (.hadd2 (w.extractLsb' 29 2) (w.extractLsb' 21 1) (w.extractLsb' 14 7) (w.extractLsb' 7 7) (w.extractLsb' 0 7))
  | 0x51#8 => .ok (.hadd2 (w.extractLsb' 29 2) (w.extractLsb' 21 1) (w.extractLsb' 14 7) (w.extractLsb' 7 7) (w.extractLsb' 0 7))
  | 0x52#8 => .ok (.hsub2 (w.extractLsb' 29 2) (w.extractLsb' 21 1) (w.extractLsb' 14 7) (w.extractLsb' 7 7) (w.extractLsb' 0 7))
  | 0x53#8 => .ok (.hsub2 (w.extractLsb' 29 2) (w.extractLsb' 21 1) (w.extractLsb' 14 7) (w.extractLsb' 7 7) (w.extractLsb' 0 7))
  | 0x54#8 => .ok (.hmul2 (w.extractLsb' 29 2) (w.extractLsb' 21 1) (w.extractLsb' 14 7) (w.extractLsb' 7 7) (w.extractLsb' 0 7))
  | 0x55#8 => .ok (.hmul2 (w.extractLsb' 29 2) (w.extractLsb' 21 1) (w.extractLsb' 14 7) (w.extractLsb' 7 7) (w.extractLsb' 0 7))
  | 0x56#8 => .ok (.hfma2 (w.extractLsb' 29 2) (w.extractLsb' 21 1) (w.extractLsb' 14 7) (w.extractLsb' 7 7) (w.extractLsb' 0 7))
  | 0x57#8 => .ok (.hfma2 (w.extractLsb' 29 2) (w.extractLsb' 21 1) (w.extractLsb' 14 7) (w.extractLsb' 7 7) (w.extractLsb' 0 7))
  | 0x58#8 => .ok (.hmin2 (w.extractLsb' 29 2) (w.extractLsb' 21 1) (w.extractLsb' 14 7) (w.extractLsb' 7 7) (w.extractLsb' 0 7))
  | 0x59#8 => .ok (.hmin2 (w.extractLsb' 29 2) (w.extractLsb' 21 1) (w.extractLsb' 14 7) (w.extractLsb' 7 7) (w.extractLsb' 0 7))
  | 0x5A#8 => .ok (.hmax2 (w.extractLsb' 29 2) (w.extractLsb' 21 1) (w.extractLsb' 14 7) (w.extractLsb' 7 7) (w.extractLsb' 0 7))
  | 0x5B#8 => .ok (.hmax2 (w.extractLsb' 29 2) (w.extractLsb' 21 1) (w.extractLsb' 14 7) (w.extractLsb' 7 7) (w.extractLsb' 0 7))
  | 0x5C#8 => .ok (.hdot2 (w.extractLsb' 29 2) (w.extractLsb' 21 1) (w.extractLsb' 14 7) (w.extractLsb' 7 7) (w.extractLsb' 0 7))
  | 0x5D#8 => .ok (.hdot2 (w.extractLsb' 29 2) (w.extractLsb' 21 1) (w.extractLsb' 14 7) (w.extractLsb' 7 7) (w.extractLsb' 0 7))
  | 0x80#8 => .ok (.cvt (w.extractLsb' 29 2) (w.extractLsb' 14 7) (w.extractLsb' 7 7) (w.extractLsb' 6 1) (w.extractLsb' 4 2) (w.extractLsb' 0 4))
  | 0x81#8 => .ok (.cvtx (w.extractLsb' 29 2) (w.extractLsb' 14 7) (w.extractLsb' 7 7) (w.extractLsb' 6 1) (w.extractLsb' 4 2) (w.extractLsb' 0 4))
  | 0x84#8 => .ok (.cvtp (w.extractLsb' 29 2) (w.extractLsb' 21 2) (w.extractLsb' 14 7) (w.extractLsb' 7 7) (w.extractLsb' 0 7))
  | 0x85#8 => .ok (.cvtp (w.extractLsb' 29 2) (w.extractLsb' 21 2) (w.extractLsb' 14 7) (w.extractLsb' 7 7) (w.extractLsb' 0 7))
  | 0x86#8 => .ok (.cvtp (w.extractLsb' 29 2) (w.extractLsb' 21 2) (w.extractLsb' 14 7) (w.extractLsb' 7 7) (w.extractLsb' 0 7))
  | 0x87#8 => .ok (.cvtp (w.extractLsb' 29 2) (w.extractLsb' 21 2) (w.extractLsb' 14 7) (w.extractLsb' 7 7) (w.extractLsb' 0 7))
  | 0x88#8 => fixedOr ((w.extractLsb' 4 3) = 0#3) (.qnt (w.extractLsb' 29 2) (w.extractLsb' 14 7) (w.extractLsb' 7 7) (w.extractLsb' 2 2) (w.extractLsb' 0 2))
  | 0x89#8 => .ok (.dqnt (w.extractLsb' 29 2) (w.extractLsb' 14 7) (w.extractLsb' 7 7) (w.extractLsb' 0 7))
  | 0x90#8 => fixedOr ((w.extractLsb' 0 7) = 0#7) (.frcp (w.extractLsb' 29 2) (w.extractLsb' 14 7) (w.extractLsb' 7 7))
  | 0x91#8 => fixedOr ((w.extractLsb' 0 7) = 0#7) (.frsq (w.extractLsb' 29 2) (w.extractLsb' 14 7) (w.extractLsb' 7 7))
  | 0x92#8 => fixedOr ((w.extractLsb' 0 7) = 0#7) (.fsqrt (w.extractLsb' 29 2) (w.extractLsb' 14 7) (w.extractLsb' 7 7))
  | 0x93#8 => fixedOr ((w.extractLsb' 0 7) = 0#7) (.fexp2 (w.extractLsb' 29 2) (w.extractLsb' 14 7) (w.extractLsb' 7 7))
  | 0x94#8 => fixedOr ((w.extractLsb' 0 7) = 0#7) (.flog2 (w.extractLsb' 29 2) (w.extractLsb' 14 7) (w.extractLsb' 7 7))
  | 0x95#8 => fixedOr ((w.extractLsb' 0 7) = 0#7) (.fsin (w.extractLsb' 29 2) (w.extractLsb' 14 7) (w.extractLsb' 7 7))
  | 0x96#8 => fixedOr ((w.extractLsb' 0 7) = 0#7) (.fcos (w.extractLsb' 29 2) (w.extractLsb' 14 7) (w.extractLsb' 7 7))
  | 0x97#8 => fixedOr ((w.extractLsb' 0 7) = 0#7) (.ftanh (w.extractLsb' 29 2) (w.extractLsb' 14 7) (w.extractLsb' 7 7))
  | 0x98#8 => fixedOr ((w.extractLsb' 0 7) = 0#7) (.ferf (w.extractLsb' 29 2) (w.extractLsb' 14 7) (w.extractLsb' 7 7))
  | 0x99#8 => fixedOr ((w.extractLsb' 0 7) = 0#7) (.fsigm (w.extractLsb' 29 2) (w.extractLsb' 14 7) (w.extractLsb' 7 7))
  | 0xA0#8 => .ok (.shfl (w.extractLsb' 29 2) (w.extractLsb' 21 2) (w.extractLsb' 14 7) (w.extractLsb' 7 7) (w.extractLsb' 0 7))
  | 0xA1#8 => .ok (.shfl (w.extractLsb' 29 2) (w.extractLsb' 21 2) (w.extractLsb' 14 7) (w.extractLsb' 7 7) (w.extractLsb' 0 7))
  | 0xA2#8 => .ok (.shfl (w.extractLsb' 29 2) (w.extractLsb' 21 2) (w.extractLsb' 14 7) (w.extractLsb' 7 7) (w.extractLsb' 0 7))
  | 0xA3#8 => .ok (.shfl (w.extractLsb' 29 2) (w.extractLsb' 21 2) (w.extractLsb' 14 7) (w.extractLsb' 7 7) (w.extractLsb' 0 7))
  | 0xA4#8 => .ok (.vote (w.extractLsb' 29 2) (w.extractLsb' 21 2) (w.extractLsb' 14 7) (w.extractLsb' 7 7) (w.extractLsb' 0 7))
  | 0xA5#8 => .ok (.vote (w.extractLsb' 29 2) (w.extractLsb' 21 2) (w.extractLsb' 14 7) (w.extractLsb' 7 7) (w.extractLsb' 0 7))
  | 0xA6#8 => .ok (.vote (w.extractLsb' 29 2) (w.extractLsb' 21 2) (w.extractLsb' 14 7) (w.extractLsb' 7 7) (w.extractLsb' 0 7))
  | 0xA7#8 => .ok (.vote (w.extractLsb' 29 2) (w.extractLsb' 21 2) (w.extractLsb' 14 7) (w.extractLsb' 7 7) (w.extractLsb' 0 7))
  | 0xA8#8 => .ok (.ballot (w.extractLsb' 29 2) (w.extractLsb' 21 2) (w.extractLsb' 14 7) (w.extractLsb' 7 7) (w.extractLsb' 0 7))
  | 0xA9#8 => .ok (.ballot (w.extractLsb' 29 2) (w.extractLsb' 21 2) (w.extractLsb' 14 7) (w.extractLsb' 7 7) (w.extractLsb' 0 7))
  | 0xAA#8 => .ok (.ballot (w.extractLsb' 29 2) (w.extractLsb' 21 2) (w.extractLsb' 14 7) (w.extractLsb' 7 7) (w.extractLsb' 0 7))
  | 0xAB#8 => .ok (.ballot (w.extractLsb' 29 2) (w.extractLsb' 21 2) (w.extractLsb' 14 7) (w.extractLsb' 7 7) (w.extractLsb' 0 7))
  | 0xAC#8 => .ok (.redx (w.extractLsb' 29 2) (w.extractLsb' 21 2) (w.extractLsb' 14 7) (w.extractLsb' 7 7) (w.extractLsb' 0 7))
  | 0xAD#8 => .ok (.redx (w.extractLsb' 29 2) (w.extractLsb' 21 2) (w.extractLsb' 14 7) (w.extractLsb' 7 7) (w.extractLsb' 0 7))
  | 0xAE#8 => .ok (.redx (w.extractLsb' 29 2) (w.extractLsb' 21 2) (w.extractLsb' 14 7) (w.extractLsb' 7 7) (w.extractLsb' 0 7))
  | 0xAF#8 => .ok (.redx (w.extractLsb' 29 2) (w.extractLsb' 21 2) (w.extractLsb' 14 7) (w.extractLsb' 7 7) (w.extractLsb' 0 7))
  | 0xB0#8 => .ok (.scan (w.extractLsb' 29 2) (w.extractLsb' 21 2) (w.extractLsb' 14 7) (w.extractLsb' 7 7) (w.extractLsb' 0 7))
  | 0xB1#8 => .ok (.scan (w.extractLsb' 29 2) (w.extractLsb' 21 2) (w.extractLsb' 14 7) (w.extractLsb' 7 7) (w.extractLsb' 0 7))
  | 0xB2#8 => .ok (.scan (w.extractLsb' 29 2) (w.extractLsb' 21 2) (w.extractLsb' 14 7) (w.extractLsb' 7 7) (w.extractLsb' 0 7))
  | 0xB3#8 => .ok (.scan (w.extractLsb' 29 2) (w.extractLsb' 21 2) (w.extractLsb' 14 7) (w.extractLsb' 7 7) (w.extractLsb' 0 7))
  | 0xB4#8 => .ok (.matchLanes (w.extractLsb' 29 2) (w.extractLsb' 21 2) (w.extractLsb' 14 7) (w.extractLsb' 7 7) (w.extractLsb' 0 7))
  | 0xB5#8 => .ok (.matchLanes (w.extractLsb' 29 2) (w.extractLsb' 21 2) (w.extractLsb' 14 7) (w.extractLsb' 7 7) (w.extractLsb' 0 7))
  | 0xB6#8 => .ok (.matchLanes (w.extractLsb' 29 2) (w.extractLsb' 21 2) (w.extractLsb' 14 7) (w.extractLsb' 7 7) (w.extractLsb' 0 7))
  | 0xB7#8 => .ok (.matchLanes (w.extractLsb' 29 2) (w.extractLsb' 21 2) (w.extractLsb' 14 7) (w.extractLsb' 7 7) (w.extractLsb' 0 7))
  | 0xC0#8 => .ok (.ld (w.extractLsb' 29 2) (w.extractLsb' 21 3) (w.extractLsb' 14 7) (w.extractLsb' 7 7) (w.extractLsb' 2 5) (w.extractLsb' 1 1) (w.extractLsb' 0 1))
  | 0xC1#8 => .ok (.ld (w.extractLsb' 29 2) (w.extractLsb' 21 3) (w.extractLsb' 14 7) (w.extractLsb' 7 7) (w.extractLsb' 2 5) (w.extractLsb' 1 1) (w.extractLsb' 0 1))
  | 0xC2#8 => .ok (.ld (w.extractLsb' 29 2) (w.extractLsb' 21 3) (w.extractLsb' 14 7) (w.extractLsb' 7 7) (w.extractLsb' 2 5) (w.extractLsb' 1 1) (w.extractLsb' 0 1))
  | 0xC3#8 => .ok (.ld (w.extractLsb' 29 2) (w.extractLsb' 21 3) (w.extractLsb' 14 7) (w.extractLsb' 7 7) (w.extractLsb' 2 5) (w.extractLsb' 1 1) (w.extractLsb' 0 1))
  | 0xC4#8 => .ok (.ld (w.extractLsb' 29 2) (w.extractLsb' 21 3) (w.extractLsb' 14 7) (w.extractLsb' 7 7) (w.extractLsb' 2 5) (w.extractLsb' 1 1) (w.extractLsb' 0 1))
  | 0xC5#8 => .ok (.ld (w.extractLsb' 29 2) (w.extractLsb' 21 3) (w.extractLsb' 14 7) (w.extractLsb' 7 7) (w.extractLsb' 2 5) (w.extractLsb' 1 1) (w.extractLsb' 0 1))
  | 0xC6#8 => .ok (.ld (w.extractLsb' 29 2) (w.extractLsb' 21 3) (w.extractLsb' 14 7) (w.extractLsb' 7 7) (w.extractLsb' 2 5) (w.extractLsb' 1 1) (w.extractLsb' 0 1))
  | 0xC7#8 => .ok (.ld (w.extractLsb' 29 2) (w.extractLsb' 21 3) (w.extractLsb' 14 7) (w.extractLsb' 7 7) (w.extractLsb' 2 5) (w.extractLsb' 1 1) (w.extractLsb' 0 1))
  | 0xC8#8 => fixedOr ((w.extractLsb' 0 1) = 0#1) (.st (w.extractLsb' 29 2) (w.extractLsb' 21 3) (w.extractLsb' 14 7) (w.extractLsb' 7 7) (w.extractLsb' 2 5) (w.extractLsb' 1 1))
  | 0xC9#8 => fixedOr ((w.extractLsb' 0 1) = 0#1) (.st (w.extractLsb' 29 2) (w.extractLsb' 21 3) (w.extractLsb' 14 7) (w.extractLsb' 7 7) (w.extractLsb' 2 5) (w.extractLsb' 1 1))
  | 0xCA#8 => fixedOr ((w.extractLsb' 0 1) = 0#1) (.st (w.extractLsb' 29 2) (w.extractLsb' 21 3) (w.extractLsb' 14 7) (w.extractLsb' 7 7) (w.extractLsb' 2 5) (w.extractLsb' 1 1))
  | 0xCB#8 => fixedOr ((w.extractLsb' 0 1) = 0#1) (.st (w.extractLsb' 29 2) (w.extractLsb' 21 3) (w.extractLsb' 14 7) (w.extractLsb' 7 7) (w.extractLsb' 2 5) (w.extractLsb' 1 1))
  | 0xCC#8 => fixedOr ((w.extractLsb' 0 1) = 0#1) (.st (w.extractLsb' 29 2) (w.extractLsb' 21 3) (w.extractLsb' 14 7) (w.extractLsb' 7 7) (w.extractLsb' 2 5) (w.extractLsb' 1 1))
  | 0xCD#8 => .ok (.atom (w.extractLsb' 29 2) (w.extractLsb' 14 7) (w.extractLsb' 8 6) (w.extractLsb' 7 1) (w.extractLsb' 3 4) (w.extractLsb' 0 3))
  | 0xCE#8 => fixedOr ((w.extractLsb' 3 4) = 0#4) (.cas (w.extractLsb' 29 2) (w.extractLsb' 14 7) (w.extractLsb' 8 6) (w.extractLsb' 7 1) (w.extractLsb' 0 3))
  | 0xCF#8 => .ok (.caddv (w.extractLsb' 29 2) (w.extractLsb' 15 6) (w.extractLsb' 14 1) (w.extractLsb' 8 6) (w.extractLsb' 7 1) (w.extractLsb' 0 7))
  | 0xD0#8 => .ok (.lds (w.extractLsb' 29 2) (w.extractLsb' 21 3) (w.extractLsb' 14 7) (w.extractLsb' 7 7) (w.extractLsb' 6 1) (w.extractLsb' 0 6))
  | 0xD1#8 => .ok (.lds (w.extractLsb' 29 2) (w.extractLsb' 21 3) (w.extractLsb' 14 7) (w.extractLsb' 7 7) (w.extractLsb' 6 1) (w.extractLsb' 0 6))
  | 0xD2#8 => .ok (.lds (w.extractLsb' 29 2) (w.extractLsb' 21 3) (w.extractLsb' 14 7) (w.extractLsb' 7 7) (w.extractLsb' 6 1) (w.extractLsb' 0 6))
  | 0xD3#8 => .ok (.lds (w.extractLsb' 29 2) (w.extractLsb' 21 3) (w.extractLsb' 14 7) (w.extractLsb' 7 7) (w.extractLsb' 6 1) (w.extractLsb' 0 6))
  | 0xD4#8 => .ok (.lds (w.extractLsb' 29 2) (w.extractLsb' 21 3) (w.extractLsb' 14 7) (w.extractLsb' 7 7) (w.extractLsb' 6 1) (w.extractLsb' 0 6))
  | 0xD5#8 => .ok (.lds (w.extractLsb' 29 2) (w.extractLsb' 21 3) (w.extractLsb' 14 7) (w.extractLsb' 7 7) (w.extractLsb' 6 1) (w.extractLsb' 0 6))
  | 0xD6#8 => .ok (.lds (w.extractLsb' 29 2) (w.extractLsb' 21 3) (w.extractLsb' 14 7) (w.extractLsb' 7 7) (w.extractLsb' 6 1) (w.extractLsb' 0 6))
  | 0xD7#8 => .ok (.lds (w.extractLsb' 29 2) (w.extractLsb' 21 3) (w.extractLsb' 14 7) (w.extractLsb' 7 7) (w.extractLsb' 6 1) (w.extractLsb' 0 6))
  | 0xD8#8 => .ok (.sts (w.extractLsb' 29 2) (w.extractLsb' 21 3) (w.extractLsb' 14 7) (w.extractLsb' 7 7) (w.extractLsb' 6 1) (w.extractLsb' 0 6))
  | 0xD9#8 => .ok (.sts (w.extractLsb' 29 2) (w.extractLsb' 21 3) (w.extractLsb' 14 7) (w.extractLsb' 7 7) (w.extractLsb' 6 1) (w.extractLsb' 0 6))
  | 0xDA#8 => .ok (.sts (w.extractLsb' 29 2) (w.extractLsb' 21 3) (w.extractLsb' 14 7) (w.extractLsb' 7 7) (w.extractLsb' 6 1) (w.extractLsb' 0 6))
  | 0xDB#8 => .ok (.sts (w.extractLsb' 29 2) (w.extractLsb' 21 3) (w.extractLsb' 14 7) (w.extractLsb' 7 7) (w.extractLsb' 6 1) (w.extractLsb' 0 6))
  | 0xDC#8 => .ok (.sts (w.extractLsb' 29 2) (w.extractLsb' 21 3) (w.extractLsb' 14 7) (w.extractLsb' 7 7) (w.extractLsb' 6 1) (w.extractLsb' 0 6))
  | 0xDD#8 => .ok (.atoms (w.extractLsb' 29 2) (w.extractLsb' 14 7) (w.extractLsb' 7 7) (w.extractLsb' 3 4) (w.extractLsb' 0 3))
  | 0xDE#8 => fixedOr ((w.extractLsb' 3 4) = 0#4) (.cass (w.extractLsb' 29 2) (w.extractLsb' 14 7) (w.extractLsb' 7 7) (w.extractLsb' 0 3))
  | 0xDF#8 => fixedOr ((w.extractLsb' 0 1) = 0#1 && (w.extractLsb' 16 5) = 0#5) (.pref (w.extractLsb' 29 2) (w.extractLsb' 14 2) (w.extractLsb' 7 7) (w.extractLsb' 2 5) (w.extractLsb' 1 1))
  | 0xE0#8 => fixedOr ((w.extractLsb' 14 7) = 0#7) (.bra (w.extractLsb' 29 2) (w.extractLsb' 0 14))
  | 0xE1#8 => fixedOr ((w.extractLsb' 18 3) = 0#3) (.brp (w.extractLsb' 29 2) (w.extractLsb' 17 1) (w.extractLsb' 14 3) (w.extractLsb' 0 14))
  | 0xE2#8 => fixedOr ((w.extractLsb' 14 7) = 0#7) (.call (w.extractLsb' 29 2) (w.extractLsb' 0 14))
  | 0xE3#8 => fixedOr ((w.extractLsb' 0 7) = 0#7 && (w.extractLsb' 14 7) = 0#7) (.calli (w.extractLsb' 29 2) (w.extractLsb' 7 7))
  | 0xE4#8 => fixedOr ((w.extractLsb' 0 21) = 0#21) (.ret (w.extractLsb' 29 2))
  | 0xE5#8 => fixedOr ((w.extractLsb' 0 7) = 0#7 && (w.extractLsb' 14 7) = 0#7) (.jmpi (w.extractLsb' 29 2) (w.extractLsb' 7 7))
  | 0xE6#8 => fixedOr ((w.extractLsb' 0 21) = 0#21) (.rcv (w.extractLsb' 29 2))
  | 0xE7#8 => fixedOr ((w.extractLsb' 0 21) = 0#21) (.exit (w.extractLsb' 29 2))
  | 0xE8#8 => fixedOr ((w.extractLsb' 14 7) = 0#7) (.spawn (w.extractLsb' 29 2) (w.extractLsb' 7 7) (w.extractLsb' 0 7))
  | 0xE9#8 => fixedOr ((w.extractLsb' 0 21) = 0#21) (.yld (w.extractLsb' 29 2))
  | 0xEA#8 => fixedOr ((w.extractLsb' 0 21) = 0#21) (.nop (w.extractLsb' 29 2))
  | _ => .error .opcode

/-- A word of the uniform set that is no prefix (08 R148, R161). -/
def decodeUniform (w : Word) : Except EncReason Instr :=
  match w.extractLsb' 22 7 with
  | 0x00#7 => fixedOr ((w.extractLsb' 0 4) = 0#4) (.sadd (w.extractLsb' 29 2) (w.extractLsb' 16 6) (w.extractLsb' 10 6) (w.extractLsb' 4 6))
  | 0x01#7 => fixedOr ((w.extractLsb' 0 4) = 0#4) (.ssub (w.extractLsb' 29 2) (w.extractLsb' 16 6) (w.extractLsb' 10 6) (w.extractLsb' 4 6))
  | 0x02#7 => fixedOr ((w.extractLsb' 0 4) = 0#4) (.smul (w.extractLsb' 29 2) (w.extractLsb' 16 6) (w.extractLsb' 10 6) (w.extractLsb' 4 6))
  | 0x03#7 => fixedOr ((w.extractLsb' 1 3) = 0#3) (.smulh (w.extractLsb' 29 2) (w.extractLsb' 16 6) (w.extractLsb' 10 6) (w.extractLsb' 4 6) (w.extractLsb' 0 1))
  | 0x04#7 => fixedOr ((w.extractLsb' 0 4) = 0#4) (.sand (w.extractLsb' 29 2) (w.extractLsb' 16 6) (w.extractLsb' 10 6) (w.extractLsb' 4 6))
  | 0x05#7 => fixedOr ((w.extractLsb' 0 4) = 0#4) (.sor (w.extractLsb' 29 2) (w.extractLsb' 16 6) (w.extractLsb' 10 6) (w.extractLsb' 4 6))
  | 0x06#7 => fixedOr ((w.extractLsb' 0 4) = 0#4) (.sxor (w.extractLsb' 29 2) (w.extractLsb' 16 6) (w.extractLsb' 10 6) (w.extractLsb' 4 6))
  | 0x07#7 => fixedOr ((w.extractLsb' 0 4) = 0#4) (.sshl (w.extractLsb' 29 2) (w.extractLsb' 16 6) (w.extractLsb' 10 6) (w.extractLsb' 4 6))
  | 0x08#7 => fixedOr ((w.extractLsb' 0 4) = 0#4) (.sshr (w.extractLsb' 29 2) (w.extractLsb' 16 6) (w.extractLsb' 10 6) (w.extractLsb' 4 6))
  | 0x09#7 => fixedOr ((w.extractLsb' 0 4) = 0#4) (.ssar (w.extractLsb' 29 2) (w.extractLsb' 16 6) (w.extractLsb' 10 6) (w.extractLsb' 4 6))
  | 0x0A#7 => fixedOr ((w.extractLsb' 1 3) = 0#3) (.smin (w.extractLsb' 29 2) (w.extractLsb' 16 6) (w.extractLsb' 10 6) (w.extractLsb' 4 6) (w.extractLsb' 0 1))
  | 0x0B#7 => fixedOr ((w.extractLsb' 1 3) = 0#3) (.smax (w.extractLsb' 29 2) (w.extractLsb' 16 6) (w.extractLsb' 10 6) (w.extractLsb' 4 6) (w.extractLsb' 0 1))
  | 0x0C#7 => fixedOr ((w.extractLsb' 0 10) = 0#10) (.smov (w.extractLsb' 29 2) (w.extractLsb' 16 6) (w.extractLsb' 10 6))
  | 0x0D#7 => .ok (.smovi (w.extractLsb' 29 2) (w.extractLsb' 16 6) (w.extractLsb' 0 16))
  | 0x0E#7 => .ok (.saddi (w.extractLsb' 29 2) (w.extractLsb' 16 6) (w.extractLsb' 0 16))
  | 0x0F#7 => fixedOr ((w.extractLsb' 18 4) = 0#4) (.scmp (w.extractLsb' 29 2) (w.extractLsb' 16 2) (w.extractLsb' 10 6) (w.extractLsb' 4 6) (w.extractLsb' 0 4))
  | 0x10#7 => fixedOr ((w.extractLsb' 2 2) = 0#2) (.ssel (w.extractLsb' 29 2) (w.extractLsb' 16 6) (w.extractLsb' 10 6) (w.extractLsb' 4 6) (w.extractLsb' 0 2))
  | 0x11#7 => fixedOr ((w.extractLsb' 0 4) = 0#4) (.sadd64 (w.extractLsb' 29 2) (w.extractLsb' 16 6) (w.extractLsb' 10 6) (w.extractLsb' 4 6))
  | 0x20#7 => subOr ((w.extractLsb' 1 3) = 0#3) (.sld (w.extractLsb' 29 2) (w.extractLsb' 16 6) (w.extractLsb' 10 6) (w.extractLsb' 4 6) (w.extractLsb' 0 1))
  | 0x21#7 => subOr ((w.extractLsb' 1 3) = 0#3) (.sst (w.extractLsb' 29 2) (w.extractLsb' 16 6) (w.extractLsb' 10 6) (w.extractLsb' 4 6) (w.extractLsb' 0 1))
  | 0x22#7 => .ok (.sbra (w.extractLsb' 29 2) (w.extractLsb' 0 22))
  | 0x23#7 => fixedOr ((w.extractLsb' 19 3) = 0#3) (.sbrp (w.extractLsb' 29 2) (w.extractLsb' 18 1) (w.extractLsb' 16 2) (w.extractLsb' 0 16))
  | 0x24#7 => .ok (.scall (w.extractLsb' 29 2) (w.extractLsb' 0 22))
  | 0x25#7 => fixedOr ((w.extractLsb' 0 22) = 0#22) (.sret (w.extractLsb' 29 2))
  | 0x26#7 => fixedOr ((w.extractLsb' 8 8) = 0#8) (.srd (w.extractLsb' 29 2) (w.extractLsb' 16 6) (w.extractLsb' 0 8))
  | 0x27#7 => fixedOr ((w.extractLsb' 8 8) = 0#8) (.swr (w.extractLsb' 29 2) (w.extractLsb' 16 6) (w.extractLsb' 0 8))
  | 0x30#7 => .ok (.cadd (w.extractLsb' 29 2) (w.extractLsb' 16 6) (w.extractLsb' 10 6) (w.extractLsb' 4 6) (w.extractLsb' 2 2) (w.extractLsb' 0 2))
  | 0x31#7 => fixedOr ((w.extractLsb' 0 2) = 0#2) (.crd (w.extractLsb' 29 2) (w.extractLsb' 16 6) (w.extractLsb' 10 6) (w.extractLsb' 4 6) (w.extractLsb' 2 2))
  | 0x32#7 => .ok (.cwait (w.extractLsb' 29 2) (w.extractLsb' 16 6) (w.extractLsb' 10 6) (w.extractLsb' 4 6) (w.extractLsb' 2 2) (w.extractLsb' 0 2))
  | 0x33#7 => .ok (.cpoll (w.extractLsb' 29 2) (w.extractLsb' 16 6) (w.extractLsb' 10 6) (w.extractLsb' 4 6) (w.extractLsb' 2 2) (w.extractLsb' 0 2))
  | 0x34#7 => fixedOr ((w.extractLsb' 2 2) = 0#2 && (w.extractLsb' 7 15) = 0#15) (.fence (w.extractLsb' 29 2) (w.extractLsb' 4 3) (w.extractLsb' 0 2))
  | 0x35#7 => fixedOr ((w.extractLsb' 16 6) = 0#6) (.cmnt (w.extractLsb' 29 2) (w.extractLsb' 10 6) (w.extractLsb' 4 6) (w.extractLsb' 2 2) (w.extractLsb' 0 2))
  | 0x36#7 =>
    if (w.extractLsb' 2 1) = 0#1 then fixedOr ((w.extractLsb' 0 4) = 0#4 && (w.extractLsb' 11 11) = 0#11) (.racq (w.extractLsb' 29 2) (w.extractLsb' 4 7))
    else fixedOr ((w.extractLsb' 2 2) = 1#2 && (w.extractLsb' 11 11) = 0#11) (.racqNb (w.extractLsb' 29 2) (w.extractLsb' 4 7) (w.extractLsb' 0 2))
  | 0x37#7 => fixedOr ((w.extractLsb' 0 4) = 0#4 && (w.extractLsb' 11 11) = 0#11) (.rrel (w.extractLsb' 29 2) (w.extractLsb' 4 7))
  | 0x38#7 => fixedOr ((w.extractLsb' 2 14) = 0#14) (.rnext (w.extractLsb' 29 2) (w.extractLsb' 16 6) (w.extractLsb' 0 2))
  | 0x39#7 => fixedOr ((w.extractLsb' 0 10) = 0#10 && (w.extractLsb' 16 6) = 0#6) (.launch (w.extractLsb' 29 2) (w.extractLsb' 10 6))
  | 0x40#7 => fixedOr ((w.extractLsb' 2 8) = 0#8 && (w.extractLsb' 16 6) = 0#6) (.cpy (w.extractLsb' 29 2) (w.extractLsb' 10 6) (w.extractLsb' 0 2))
  | 0x41#7 => fixedOr ((w.extractLsb' 2 2) = 0#2 && (w.extractLsb' 7 3) = 0#3) (.cpyb (w.extractLsb' 29 2) (w.extractLsb' 16 6) (w.extractLsb' 10 6) (w.extractLsb' 4 3) (w.extractLsb' 0 2))
  | 0x42#7 => fixedOr ((w.extractLsb' 2 2) = 0#2 && (w.extractLsb' 16 6) = 0#6) (.cpyg (w.extractLsb' 29 2) (w.extractLsb' 10 6) (w.extractLsb' 4 6) (w.extractLsb' 0 2))
  | 0x43#7 => fixedOr ((w.extractLsb' 2 2) = 0#2 && (w.extractLsb' 16 6) = 0#6) (.cpys (w.extractLsb' 29 2) (w.extractLsb' 10 6) (w.extractLsb' 4 6) (w.extractLsb' 0 2))
  | 0x44#7 => .ok (.cseal (w.extractLsb' 29 2) (w.extractLsb' 16 6) (w.extractLsb' 10 6) (w.extractLsb' 4 6) (w.extractLsb' 2 2) (w.extractLsb' 0 2))
  | 0x45#7 => fixedOr ((w.extractLsb' 0 4) = 0#4 && (w.extractLsb' 10 12) = 0#12) (.cwaitb (w.extractLsb' 29 2) (w.extractLsb' 4 6))
  | 0x46#7 => fixedOr ((w.extractLsb' 0 4) = 0#4 && (w.extractLsb' 16 6) = 0#6) (.wdesc (w.extractLsb' 29 2) (w.extractLsb' 10 6) (w.extractLsb' 4 6))
  | 0x58#7 =>
    match (w.extractLsb' 0 4) with
    | 0#4 => fixedOr ((w.extractLsb' 4 6) = 0#6 && (w.extractLsb' 20 2) = 0#2) (.msignReg (w.extractLsb' 29 2) (w.extractLsb' 16 4) (w.extractLsb' 10 6))
    | 1#4 => fixedOr ((w.extractLsb' 20 2) = 0#2) (.msignCount (w.extractLsb' 29 2) (w.extractLsb' 16 4) (w.extractLsb' 4 12))
    | _ => .error .subCode
  | 0x59#7 => fixedOr ((w.extractLsb' 0 10) = 0#10 && (w.extractLsb' 16 6) = 0#6) (.ldw (w.extractLsb' 29 2) (w.extractLsb' 10 6))
  | 0x5A#7 => fixedOr ((w.extractLsb' 0 22) = 0#22) (.wswap (w.extractLsb' 29 2))
  | 0x5B#7 => fixedOr ((w.extractLsb' 1 9) = 0#9) (.mma (w.extractLsb' 29 2) (w.extractLsb' 16 6) (w.extractLsb' 10 6) (w.extractLsb' 0 1))
  | 0x5C#7 => fixedOr ((w.extractLsb' 0 10) = 0#10) (.mmat (w.extractLsb' 29 2) (w.extractLsb' 16 6) (w.extractLsb' 10 6))
  | 0x5D#7 => fixedOr ((w.extractLsb' 0 10) = 0#10) (.mperm (w.extractLsb' 29 2) (w.extractLsb' 16 6) (w.extractLsb' 10 6))
  | 0x5E#7 => fixedOr ((w.extractLsb' 0 10) = 0#10) (.mred (w.extractLsb' 29 2) (w.extractLsb' 16 6) (w.extractLsb' 10 6))
  | 0x5F#7 => fixedOr ((w.extractLsb' 0 10) = 0#10) (.mrd (w.extractLsb' 29 2) (w.extractLsb' 16 6) (w.extractLsb' 10 6))
  | 0x60#7 => fixedOr ((w.extractLsb' 0 10) = 0#10) (.mst (w.extractLsb' 29 2) (w.extractLsb' 16 6) (w.extractLsb' 10 6))
  | 0x61#7 => fixedOr ((w.extractLsb' 0 16) = 0#16) (.mzero (w.extractLsb' 29 2) (w.extractLsb' 16 6))
  | 0x70#7 =>
    match (w.extractLsb' 0 4) with
    | 0#4 => fixedOr ((w.extractLsb' 16 6) = 0#6) (.trap (w.extractLsb' 29 2) (w.extractLsb' 4 12))
    | 1#4 => fixedOr ((w.extractLsb' 4 18) = 0#18) (.rft (w.extractLsb' 29 2))
    | 2#4 => fixedOr ((w.extractLsb' 4 6) = 0#6) (.svc (w.extractLsb' 29 2) (w.extractLsb' 16 6) (w.extractLsb' 10 6))
    | 3#4 => fixedOr ((w.extractLsb' 16 6) = 0#6) (.bkpt (w.extractLsb' 29 2) (w.extractLsb' 4 12))
    | _ => .error .subCode
  | 0x71#7 =>
    if (w.extractLsb' 0 4) != 0#4 then .error .subCode
    else if (w.extractLsb' 16 6) = 0#6 then fixedOr ((w.extractLsb' 4 12) = 0#12) (.ckpt (w.extractLsb' 29 2))
    else fixedOr ((w.extractLsb' 16 6) = 1#6) (.ckptCounter (w.extractLsb' 29 2) (w.extractLsb' 10 6) (w.extractLsb' 4 6))
  | 0x72#7 =>
    match (w.extractLsb' 0 4) with
    | 0#4 => fixedOr ((w.extractLsb' 4 6) = 0#6 && (w.extractLsb' 16 6) = 0#6) (.rgnent (w.extractLsb' 29 2) (w.extractLsb' 10 6))
    | 1#4 => fixedOr ((w.extractLsb' 4 6) = 0#6 && (w.extractLsb' 16 6) = 0#6) (.rgnlve (w.extractLsb' 29 2) (w.extractLsb' 10 6))
    | _ => .error .subCode
  | 0x73#7 =>
    match (w.extractLsb' 0 4) with
    | 0#4 => .ok (.toksub (w.extractLsb' 29 2) (w.extractLsb' 16 6) (w.extractLsb' 10 6) (w.extractLsb' 4 6))
    | 1#4 => .ok (.toksubD (w.extractLsb' 29 2) (w.extractLsb' 16 6) (w.extractLsb' 10 6) (w.extractLsb' 4 6))
    | 2#4 => .ok (.tokconf (w.extractLsb' 29 2) (w.extractLsb' 16 6) (w.extractLsb' 10 6) (w.extractLsb' 4 6))
    | 3#4 => fixedOr ((w.extractLsb' 16 6) = 0#6) (.tokarm (w.extractLsb' 29 2) (w.extractLsb' 10 6) (w.extractLsb' 4 6))
    | _ => .error .subCode
  | _ => .error .opcode

/-- One instruction word (08 R141). -/
def decodeWord (w : Word) : Except EncReason Instr :=
  if w.extractLsb' 31 1 = 0#1 then decodeLane w else decodeUniform w

/-- Is it an instruction word (08 R141), and not an event of the table? -/
def Instr.isWord : Instr → Bool
  | .iadd .. | .isub .. | .imul .. | .imulhI32 .. | .imulhN32 .. | .imad .. | .iminI32 .. | .iminN32 ..
  | .imaxI32 .. | .imaxN32 .. | .iabs .. | .ineg .. | .iaddi .. | .imuli .. | .icmp .. | .icmpi ..
  | .mov .. | .movi .. | .sel .. | .and .. | .or .. | .xor .. | .andn .. | .not .. | .andi .. | .ori ..
  | .xori .. | .shl .. | .shr .. | .sar .. | .rol .. | .shli .. | .shri .. | .sari .. | .popc .. | .clz ..
  | .ctz .. | .brev .. | .bfeN32 .. | .bfeI32 .. | .bfi .. | .fadd .. | .fsub .. | .fmul .. | .ffma ..
  | .fmin .. | .fmax .. | .fabs .. | .fneg .. | .fcmp .. | .fclass .. | .fcpys .. | .frnd .. | .hadd2 ..
  | .hsub2 .. | .hmul2 .. | .hfma2 .. | .hmin2 .. | .hmax2 .. | .hdot2 .. | .cvt .. | .cvtx .. | .cvtp ..
  | .qnt .. | .dqnt .. | .frcp .. | .frsq .. | .fsqrt .. | .fexp2 .. | .flog2 .. | .fsin .. | .fcos ..
  | .ftanh .. | .ferf .. | .fsigm .. | .shfl .. | .vote .. | .ballot .. | .redx .. | .scan ..
  | .matchLanes .. | .ld .. | .st .. | .atom .. | .cas .. | .caddv .. | .lds .. | .sts .. | .atoms ..
  | .cass .. | .pref .. | .bra .. | .brp .. | .call .. | .calli .. | .ret .. | .jmpi .. | .rcv ..
  | .exit .. | .spawn .. | .yld .. | .nop .. | .sadd .. | .ssub .. | .smul .. | .smulh .. | .sand ..
  | .sor .. | .sxor .. | .sshl .. | .sshr .. | .ssar .. | .smin .. | .smax .. | .smov .. | .smovi ..
  | .saddi .. | .scmp .. | .ssel .. | .sadd64 .. | .sld .. | .sst .. | .sbra .. | .sbrp .. | .scall ..
  | .sret .. | .srd .. | .swr .. | .cadd .. | .crd .. | .cwait .. | .cpoll .. | .fence .. | .cmnt ..
  | .racq .. | .racqNb .. | .rrel .. | .rnext .. | .launch .. | .cpy .. | .cpyb .. | .cpyg .. | .cpys ..
  | .cseal .. | .cwaitb .. | .wdesc .. | .msignCount .. | .msignReg .. | .ldw .. | .wswap .. | .mma ..
  | .mmat .. | .mperm .. | .mred .. | .mrd .. | .mst .. | .mzero .. | .trap .. | .rft .. | .svc ..
  | .bkpt .. | .ckpt .. | .ckptCounter .. | .rgnent .. | .rgnlve .. | .toksub .. | .toksubD ..
  | .tokconf .. | .tokarm .. => true
  | .quadIssueCycle .. | .spawnBinTimerExpiry .. | .spawnBinLaunch .. | .coreAdmission ..
  | .launchDescriptorTake .. | .submissionQueueEntry .. | .run .. | .launchNode .. | .copyNode ..
  | .signalNode .. | .waitNode .. | .condNode .. | .stealRequest .. | .stealAgentTimeout .. | .reserve ..
  | .commit .. | .rollback .. | .start .. | .agree .. | .refuse .. | .confirm .. | .withdraw ..
  | .gangHoldTimeout .. | .gangCollectTimeout .. | .equinoxStep .. | .stop .. | .swap .. | .resume ..
  | .demote .. | .load .. | .enter .. | .pctlReservedCommand .. | .partitionCommandComplete ..
  | .parkedEviction .. | .evictionWakePoll .. | .almanacPeriodExpiry .. | .cut .. | .cutReply ..
  | .heldWriteRelease .. | .intervalDurable .. | .vigilStep .. | .vigilDraftStep .. | .vigilConfirm ..
  | .vigilArmApply .. | .vigilResultArrival .. | .flipStep2Complete .. | .hostMemRead .. | .hostMemWrite ..
  | .hostCounterWrite .. | .peerAccess .. | .counterOpAtHome .. | .slowListNotice .. | .monitorWake ..
  | .hold .. | .apply .. | .release .. | .appCoreCounterAmo .. | .ringAgentPass .. | .ringWindowExpiry ..
  | .traceRecordWrite .. | .traceSample .. | .tileRecord .. | .captureEnd .. | .replayDigest ..
  | .copyComplete .. | .copyHalt .. | .matrixCommandStart .. | .matrixCommandRetire ..
  | .pageWalkComplete .. | .l1WritebackDeadline .. | .memoryRequestAtHome .. | .variableLatencyResult ..
  | .holdAnswer .. | .stealReply .. | .queueControlBlockGiven .. | .budgetPeriod .. | .cxlLinkLoss ..
  | .colmetLinkLoss .. | .linkRetrain .. | .partitionOffline .. | .submitterFreeze .. | .restore ..
  | .cxlCacheSnoop .. | .trapEntry .. | .asyncTrapTake .. | .biasFlipToHost .. | .biasFlipToDevice ..
  | .rollbackGo .. | .bisnpResponse .. | .peerRefusal .. | .registerWrite .. | .captureStart ..
  | .thermalThrottle .. | .powerLimitExceeded .. | .thermalShutdown .. | .vfStateChange .. | .abudWrite ..
  | .vfstateWrite .. | .dbgdataRead .. | .dbgdataWrite .. | .debugGo .. | .create .. | .destroy ..
  | .vslotAssign .. | .vslotRelease .. | .featureNegotiate .. | .inputUndervoltage .. | .keyGen ..
  | .keyLoad .. | .keyErase .. | .keyWrap .. | .keyUnwrap .. | .keyReservedCommand ..
  | .tlbInvalidateRequest .. | .tlbInvalidateComplete .. | .counterPageSet .. | .counterPageClear ..
  | .counterPageRead .. | .status .. | .writeFlash .. | .verify .. | .bist .. | .results .. | .reboot ..
  | .mailboxUnknownCommand .. | .deviceReset .. | .strandedRetentionExpiry .. => false

/-- The word of an instruction, from the same tables. An event has no word. -/
def encode : Instr → Word
  | .iadd s d a b => 0x0#1 ++ s ++ 0x0#8 ++ d ++ a ++ b
  | .isub s d a b => 0x0#1 ++ s ++ 0x1#8 ++ d ++ a ++ b
  | .imul s d a b => 0x0#1 ++ s ++ 0x2#8 ++ d ++ a ++ b
  | .imulhI32 s d a b => 0x0#1 ++ s ++ 0x3#8 ++ d ++ a ++ b
  | .imulhN32 s d a b => 0x0#1 ++ s ++ 0x4#8 ++ d ++ a ++ b
  | .imad s d a b => 0x0#1 ++ s ++ 0x5#8 ++ d ++ a ++ b
  | .iminI32 s d a b => 0x0#1 ++ s ++ 0x6#8 ++ d ++ a ++ b
  | .iminN32 s d a b => 0x0#1 ++ s ++ 0x7#8 ++ d ++ a ++ b
  | .imaxI32 s d a b => 0x0#1 ++ s ++ 0x8#8 ++ d ++ a ++ b
  | .imaxN32 s d a b => 0x0#1 ++ s ++ 0x9#8 ++ d ++ a ++ b
  | .iabs s d a => 0x0#1 ++ s ++ 0xA#8 ++ d ++ a ++ 0x0#7
  | .ineg s d a => 0x0#1 ++ s ++ 0xB#8 ++ d ++ a ++ 0x0#7
  | .iaddi s d a i => 0x0#1 ++ s ++ 0xC#8 ++ d ++ a ++ i
  | .imuli s d a i => 0x0#1 ++ s ++ 0xD#8 ++ d ++ a ++ i
  | .icmp s c p a b => 0x0#1 ++ s ++ 0xE#8 ++ c ++ p ++ a ++ b
  | .icmpi s c p a i => 0x0#1 ++ s ++ 0xF#8 ++ c ++ p ++ a ++ i
  | .mov s d a => 0x0#1 ++ s ++ 0x10#8 ++ d ++ a ++ 0x0#7
  | .movi s d i => 0x0#1 ++ s ++ 0x11#8 ++ d ++ i
  | .sel s p d a b => 0x0#1 ++ s ++ 0x3#5 ++ p ++ d ++ a ++ b
  | .and s d a b => 0x0#1 ++ s ++ 0x20#8 ++ d ++ a ++ b
  | .or s d a b => 0x0#1 ++ s ++ 0x21#8 ++ d ++ a ++ b
  | .xor s d a b => 0x0#1 ++ s ++ 0x22#8 ++ d ++ a ++ b
  | .andn s d a b => 0x0#1 ++ s ++ 0x23#8 ++ d ++ a ++ b
  | .not s d a => 0x0#1 ++ s ++ 0x24#8 ++ d ++ a ++ 0x0#7
  | .andi s d a i => 0x0#1 ++ s ++ 0x25#8 ++ d ++ a ++ i
  | .ori s d a i => 0x0#1 ++ s ++ 0x26#8 ++ d ++ a ++ i
  | .xori s d a i => 0x0#1 ++ s ++ 0x27#8 ++ d ++ a ++ i
  | .shl s d a b => 0x0#1 ++ s ++ 0x28#8 ++ d ++ a ++ b
  | .shr s d a b => 0x0#1 ++ s ++ 0x29#8 ++ d ++ a ++ b
  | .sar s d a b => 0x0#1 ++ s ++ 0x2A#8 ++ d ++ a ++ b
  | .rol s d a b => 0x0#1 ++ s ++ 0x2B#8 ++ d ++ a ++ b
  | .shli s d a i => 0x0#1 ++ s ++ 0x2C#8 ++ d ++ a ++ i
  | .shri s d a i => 0x0#1 ++ s ++ 0x2D#8 ++ d ++ a ++ i
  | .sari s d a i => 0x0#1 ++ s ++ 0x2E#8 ++ d ++ a ++ i
  | .popc s d a => 0x0#1 ++ s ++ 0x2F#8 ++ d ++ a ++ 0x0#7
  | .clz s d a => 0x0#1 ++ s ++ 0x30#8 ++ d ++ a ++ 0x0#7
  | .ctz s d a => 0x0#1 ++ s ++ 0x31#8 ++ d ++ a ++ 0x0#7
  | .brev s d a => 0x0#1 ++ s ++ 0x32#8 ++ d ++ a ++ 0x0#7
  | .bfeN32 s d a b => 0x0#1 ++ s ++ 0x33#8 ++ d ++ a ++ b
  | .bfeI32 s d a b => 0x0#1 ++ s ++ 0x34#8 ++ d ++ a ++ b
  | .bfi s d a b => 0x0#1 ++ s ++ 0x35#8 ++ d ++ a ++ b
  | .fadd s d a b => 0x0#1 ++ s ++ 0x40#8 ++ d ++ a ++ b
  | .fsub s d a b => 0x0#1 ++ s ++ 0x41#8 ++ d ++ a ++ b
  | .fmul s d a b => 0x0#1 ++ s ++ 0x42#8 ++ d ++ a ++ b
  | .ffma s d a b => 0x0#1 ++ s ++ 0x43#8 ++ d ++ a ++ b
  | .fmin s d a b => 0x0#1 ++ s ++ 0x44#8 ++ d ++ a ++ b
  | .fmax s d a b => 0x0#1 ++ s ++ 0x45#8 ++ d ++ a ++ b
  | .fabs s d a => 0x0#1 ++ s ++ 0x46#8 ++ d ++ a ++ 0x0#7
  | .fneg s d a => 0x0#1 ++ s ++ 0x47#8 ++ d ++ a ++ 0x0#7
  | .fcmp s c p a b => 0x0#1 ++ s ++ 0x48#8 ++ c ++ p ++ a ++ b
  | .fclass s d a => 0x0#1 ++ s ++ 0x49#8 ++ d ++ a ++ 0x0#7
  | .fcpys s d a b => 0x0#1 ++ s ++ 0x4A#8 ++ d ++ a ++ b
  | .frnd s d a => 0x0#1 ++ s ++ 0x4B#8 ++ d ++ a ++ 0x0#7
  | .hadd2 s f d a b => 0x0#1 ++ s ++ 0x28#7 ++ f ++ d ++ a ++ b
  | .hsub2 s f d a b => 0x0#1 ++ s ++ 0x29#7 ++ f ++ d ++ a ++ b
  | .hmul2 s f d a b => 0x0#1 ++ s ++ 0x2A#7 ++ f ++ d ++ a ++ b
  | .hfma2 s f d a b => 0x0#1 ++ s ++ 0x2B#7 ++ f ++ d ++ a ++ b
  | .hmin2 s f d a b => 0x0#1 ++ s ++ 0x2C#7 ++ f ++ d ++ a ++ b
  | .hmax2 s f d a b => 0x0#1 ++ s ++ 0x2D#7 ++ f ++ d ++ a ++ b
  | .hdot2 s f d a b => 0x0#1 ++ s ++ 0x2E#7 ++ f ++ d ++ a ++ b
  | .cvt s d a r n t => 0x0#1 ++ s ++ 0x80#8 ++ d ++ a ++ r ++ n ++ t
  | .cvtx s d a r n t => 0x0#1 ++ s ++ 0x81#8 ++ d ++ a ++ r ++ n ++ t
  | .cvtp s t d a b => 0x0#1 ++ s ++ 0x21#6 ++ t ++ d ++ a ++ b
  | .qnt s d a w y => 0x0#1 ++ s ++ 0x88#8 ++ d ++ a ++ 0x0#3 ++ w ++ y
  | .dqnt s d a b => 0x0#1 ++ s ++ 0x89#8 ++ d ++ a ++ b
  | .frcp s d a => 0x0#1 ++ s ++ 0x90#8 ++ d ++ a ++ 0x0#7
  | .frsq s d a => 0x0#1 ++ s ++ 0x91#8 ++ d ++ a ++ 0x0#7
  | .fsqrt s d a => 0x0#1 ++ s ++ 0x92#8 ++ d ++ a ++ 0x0#7
  | .fexp2 s d a => 0x0#1 ++ s ++ 0x93#8 ++ d ++ a ++ 0x0#7
  | .flog2 s d a => 0x0#1 ++ s ++ 0x94#8 ++ d ++ a ++ 0x0#7
  | .fsin s d a => 0x0#1 ++ s ++ 0x95#8 ++ d ++ a ++ 0x0#7
  | .fcos s d a => 0x0#1 ++ s ++ 0x96#8 ++ d ++ a ++ 0x0#7
  | .ftanh s d a => 0x0#1 ++ s ++ 0x97#8 ++ d ++ a ++ 0x0#7
  | .ferf s d a => 0x0#1 ++ s ++ 0x98#8 ++ d ++ a ++ 0x0#7
  | .fsigm s d a => 0x0#1 ++ s ++ 0x99#8 ++ d ++ a ++ 0x0#7
  | .shfl s g d a b => 0x0#1 ++ s ++ 0x28#6 ++ g ++ d ++ a ++ b
  | .vote s g d a b => 0x0#1 ++ s ++ 0x29#6 ++ g ++ d ++ a ++ b
  | .ballot s g d a b => 0x0#1 ++ s ++ 0x2A#6 ++ g ++ d ++ a ++ b
  | .redx s g d a b => 0x0#1 ++ s ++ 0x2B#6 ++ g ++ d ++ a ++ b
  | .scan s g d a b => 0x0#1 ++ s ++ 0x2C#6 ++ g ++ d ++ a ++ b
  | .matchLanes s g d a b => 0x0#1 ++ s ++ 0x2D#6 ++ g ++ d ++ a ++ b
  | .ld s t d a b c r => 0x0#1 ++ s ++ 0x18#5 ++ t ++ d ++ a ++ b ++ c ++ r
  | .st s t d a b c => 0x0#1 ++ s ++ 0x19#5 ++ t ++ d ++ a ++ b ++ c ++ 0x0#1
  | .atom s d a w o k => 0x0#1 ++ s ++ 0xCD#8 ++ d ++ a ++ w ++ o ++ k
  | .cas s d a w k => 0x0#1 ++ s ++ 0xCE#8 ++ d ++ a ++ w ++ 0x0#4 ++ k
  | .caddv s d x a y b => 0x0#1 ++ s ++ 0xCF#8 ++ d ++ x ++ a ++ y ++ b
  | .lds s t d a r w => 0x0#1 ++ s ++ 0x1A#5 ++ t ++ d ++ a ++ r ++ w
  | .sts s t d a r w => 0x0#1 ++ s ++ 0x1B#5 ++ t ++ d ++ a ++ r ++ w
  | .atoms s d a o k => 0x0#1 ++ s ++ 0xDD#8 ++ d ++ a ++ o ++ k
  | .cass s d a k => 0x0#1 ++ s ++ 0xDE#8 ++ d ++ a ++ 0x0#4 ++ k
  | .pref s l a b c => 0x0#1 ++ s ++ 0x1BE0#13 ++ l ++ a ++ b ++ c ++ 0x0#1
  | .bra s i => 0x0#1 ++ s ++ 0x7000#15 ++ i
  | .brp s n p i => 0x0#1 ++ s ++ 0x708#11 ++ n ++ p ++ i
  | .call s i => 0x0#1 ++ s ++ 0x7100#15 ++ i
  | .calli s a => 0x0#1 ++ s ++ 0x7180#15 ++ a ++ 0x0#7
  | .ret s => 0x0#1 ++ s ++ 0x1C800000#29
  | .jmpi s a => 0x0#1 ++ s ++ 0x7280#15 ++ a ++ 0x0#7
  | .rcv s => 0x0#1 ++ s ++ 0x1CC00000#29
  | .exit s => 0x0#1 ++ s ++ 0x1CE00000#29
  | .spawn s a b => 0x0#1 ++ s ++ 0x7400#15 ++ a ++ b
  | .yld s => 0x0#1 ++ s ++ 0x1D200000#29
  | .nop s => 0x0#1 ++ s ++ 0x1D400000#29
  | .sadd s d a b => 0x1#1 ++ s ++ 0x0#7 ++ d ++ a ++ b ++ 0x0#4
  | .ssub s d a b => 0x1#1 ++ s ++ 0x1#7 ++ d ++ a ++ b ++ 0x0#4
  | .smul s d a b => 0x1#1 ++ s ++ 0x2#7 ++ d ++ a ++ b ++ 0x0#4
  | .smulh s d a b g => 0x1#1 ++ s ++ 0x3#7 ++ d ++ a ++ b ++ 0x0#3 ++ g
  | .sand s d a b => 0x1#1 ++ s ++ 0x4#7 ++ d ++ a ++ b ++ 0x0#4
  | .sor s d a b => 0x1#1 ++ s ++ 0x5#7 ++ d ++ a ++ b ++ 0x0#4
  | .sxor s d a b => 0x1#1 ++ s ++ 0x6#7 ++ d ++ a ++ b ++ 0x0#4
  | .sshl s d a b => 0x1#1 ++ s ++ 0x7#7 ++ d ++ a ++ b ++ 0x0#4
  | .sshr s d a b => 0x1#1 ++ s ++ 0x8#7 ++ d ++ a ++ b ++ 0x0#4
  | .ssar s d a b => 0x1#1 ++ s ++ 0x9#7 ++ d ++ a ++ b ++ 0x0#4
  | .smin s d a b g => 0x1#1 ++ s ++ 0xA#7 ++ d ++ a ++ b ++ 0x0#3 ++ g
  | .smax s d a b g => 0x1#1 ++ s ++ 0xB#7 ++ d ++ a ++ b ++ 0x0#3 ++ g
  | .smov s d a => 0x1#1 ++ s ++ 0xC#7 ++ d ++ a ++ 0x0#10
  | .smovi s d i => 0x1#1 ++ s ++ 0xD#7 ++ d ++ i
  | .saddi s d i => 0x1#1 ++ s ++ 0xE#7 ++ d ++ i
  | .scmp s p a b c => 0x1#1 ++ s ++ 0xF0#11 ++ p ++ a ++ b ++ c
  | .ssel s d a b p => 0x1#1 ++ s ++ 0x10#7 ++ d ++ a ++ b ++ 0x0#2 ++ p
  | .sadd64 s d a b => 0x1#1 ++ s ++ 0x11#7 ++ d ++ a ++ b ++ 0x0#4
  | .sld s d a b w => 0x1#1 ++ s ++ 0x20#7 ++ d ++ a ++ b ++ 0x0#3 ++ w
  | .sst s d a b w => 0x1#1 ++ s ++ 0x21#7 ++ d ++ a ++ b ++ 0x0#3 ++ w
  | .sbra s o => 0x1#1 ++ s ++ 0x22#7 ++ o
  | .sbrp s n p i => 0x1#1 ++ s ++ 0x118#10 ++ n ++ p ++ i
  | .scall s o => 0x1#1 ++ s ++ 0x24#7 ++ o
  | .sret s => 0x1#1 ++ s ++ 0x9400000#29
  | .srd s d x => 0x1#1 ++ s ++ 0x26#7 ++ d ++ 0x0#8 ++ x
  | .swr s d x => 0x1#1 ++ s ++ 0x27#7 ++ d ++ 0x0#8 ++ x
  | .cadd s d a b f k => 0x1#1 ++ s ++ 0x30#7 ++ d ++ a ++ b ++ f ++ k
  | .crd s d a b f => 0x1#1 ++ s ++ 0x31#7 ++ d ++ a ++ b ++ f ++ 0x0#2
  | .cwait s d a b f k => 0x1#1 ++ s ++ 0x32#7 ++ d ++ a ++ b ++ f ++ k
  | .cpoll s d a b f k => 0x1#1 ++ s ++ 0x33#7 ++ d ++ a ++ b ++ f ++ k
  | .fence s e k => 0x1#1 ++ s ++ 0x1A0000#22 ++ e ++ 0x0#2 ++ k
  | .cmnt s a b l o => 0x1#1 ++ s ++ 0xD40#13 ++ a ++ b ++ l ++ o
  | .racq s m => 0x1#1 ++ s ++ 0x1B000#18 ++ m ++ 0x0#4
  | .racqNb s m p => 0x1#1 ++ s ++ 0x1B000#18 ++ m ++ 0x1#2 ++ p
  | .rrel s m => 0x1#1 ++ s ++ 0x1B800#18 ++ m ++ 0x0#4
  | .rnext s d p => 0x1#1 ++ s ++ 0x38#7 ++ d ++ 0x0#14 ++ p
  | .launch s a => 0x1#1 ++ s ++ 0xE40#13 ++ a ++ 0x0#10
  | .cpy s a r => 0x1#1 ++ s ++ 0x1000#13 ++ a ++ 0x0#8 ++ r
  | .cpyb s d a j r => 0x1#1 ++ s ++ 0x41#7 ++ d ++ a ++ 0x0#3 ++ j ++ 0x0#2 ++ r
  | .cpyg s a b r => 0x1#1 ++ s ++ 0x1080#13 ++ a ++ b ++ 0x0#2 ++ r
  | .cpys s a b r => 0x1#1 ++ s ++ 0x10C0#13 ++ a ++ b ++ 0x0#2 ++ r
  | .cseal s d a b f k => 0x1#1 ++ s ++ 0x44#7 ++ d ++ a ++ b ++ f ++ k
  | .cwaitb s b => 0x1#1 ++ s ++ 0x45000#19 ++ b ++ 0x0#4
  | .wdesc s a b => 0x1#1 ++ s ++ 0x1180#13 ++ a ++ b ++ 0x0#4
  | .msignCount s n c => 0x1#1 ++ s ++ 0x160#9 ++ n ++ c ++ 0x1#4
  | .msignReg s n a => 0x1#1 ++ s ++ 0x160#9 ++ n ++ a ++ 0x0#10
  | .ldw s a => 0x1#1 ++ s ++ 0x1640#13 ++ a ++ 0x0#10
  | .wswap s => 0x1#1 ++ s ++ 0x16800000#29
  | .mma s d a z => 0x1#1 ++ s ++ 0x5B#7 ++ d ++ a ++ 0x0#9 ++ z
  | .mmat s d a => 0x1#1 ++ s ++ 0x5C#7 ++ d ++ a ++ 0x0#10
  | .mperm s d a => 0x1#1 ++ s ++ 0x5D#7 ++ d ++ a ++ 0x0#10
  | .mred s d a => 0x1#1 ++ s ++ 0x5E#7 ++ d ++ a ++ 0x0#10
  | .mrd s d a => 0x1#1 ++ s ++ 0x5F#7 ++ d ++ a ++ 0x0#10
  | .mst s d a => 0x1#1 ++ s ++ 0x60#7 ++ d ++ a ++ 0x0#10
  | .mzero s d => 0x1#1 ++ s ++ 0x61#7 ++ d ++ 0x0#16
  | .trap s c => 0x1#1 ++ s ++ 0x1C00#13 ++ c ++ 0x0#4
  | .rft s => 0x1#1 ++ s ++ 0x1C000001#29
  | .svc s d a => 0x1#1 ++ s ++ 0x70#7 ++ d ++ a ++ 0x2#10
  | .bkpt s c => 0x1#1 ++ s ++ 0x1C00#13 ++ c ++ 0x3#4
  | .ckpt s => 0x1#1 ++ s ++ 0x1C400000#29
  | .ckptCounter s a b => 0x1#1 ++ s ++ 0x1C41#13 ++ a ++ b ++ 0x0#4
  | .rgnent s a => 0x1#1 ++ s ++ 0x1C80#13 ++ a ++ 0x0#10
  | .rgnlve s a => 0x1#1 ++ s ++ 0x1C80#13 ++ a ++ 0x1#10
  | .toksub s d a b => 0x1#1 ++ s ++ 0x73#7 ++ d ++ a ++ b ++ 0x0#4
  | .toksubD s d a b => 0x1#1 ++ s ++ 0x73#7 ++ d ++ a ++ b ++ 0x1#4
  | .tokconf s d a b => 0x1#1 ++ s ++ 0x73#7 ++ d ++ a ++ b ++ 0x2#4
  | .tokarm s a b => 0x1#1 ++ s ++ 0x1CC0#13 ++ a ++ b ++ 0x3#4
  | .quadIssueCycle .. | .spawnBinTimerExpiry .. | .spawnBinLaunch .. | .coreAdmission ..
  | .launchDescriptorTake .. | .submissionQueueEntry .. | .run .. | .launchNode .. | .copyNode ..
  | .signalNode .. | .waitNode .. | .condNode .. | .stealRequest .. | .stealAgentTimeout .. | .reserve ..
  | .commit .. | .rollback .. | .start .. | .agree .. | .refuse .. | .confirm .. | .withdraw ..
  | .gangHoldTimeout .. | .gangCollectTimeout .. | .equinoxStep .. | .stop .. | .swap .. | .resume ..
  | .demote .. | .load .. | .enter .. | .pctlReservedCommand .. | .partitionCommandComplete ..
  | .parkedEviction .. | .evictionWakePoll .. | .almanacPeriodExpiry .. | .cut .. | .cutReply ..
  | .heldWriteRelease .. | .intervalDurable .. | .rollbackGo .. | .vigilStep .. | .vigilDraftStep ..
  | .vigilConfirm .. | .vigilArmApply .. | .vigilResultArrival .. | .biasFlipToHost ..
  | .biasFlipToDevice .. | .flipStep2Complete .. | .counterOpAtHome .. | .slowListNotice ..
  | .monitorWake .. | .hold .. | .apply .. | .release .. | .ringAgentPass .. | .ringWindowExpiry ..
  | .traceRecordWrite .. | .traceSample .. | .tileRecord .. | .captureEnd .. | .replayDigest ..
  | .trapEntry .. | .asyncTrapTake .. | .copyComplete .. | .copyHalt .. | .matrixCommandStart ..
  | .matrixCommandRetire .. | .pageWalkComplete .. | .l1WritebackDeadline .. | .memoryRequestAtHome ..
  | .variableLatencyResult .. | .holdAnswer .. | .stealReply .. | .queueControlBlockGiven ..
  | .budgetPeriod .. | .cxlLinkLoss .. | .colmetLinkLoss .. | .linkRetrain .. | .partitionOffline ..
  | .submitterFreeze .. | .restore .. | .cxlCacheSnoop .. | .hostMemRead .. | .hostMemWrite ..
  | .hostCounterWrite .. | .bisnpResponse .. | .peerAccess .. | .peerRefusal .. | .appCoreCounterAmo ..
  | .registerWrite .. | .captureStart .. | .thermalThrottle .. | .powerLimitExceeded ..
  | .thermalShutdown .. | .vfStateChange .. | .abudWrite .. | .vfstateWrite .. | .dbgdataRead ..
  | .dbgdataWrite .. | .debugGo .. | .create .. | .destroy .. | .vslotAssign .. | .vslotRelease ..
  | .featureNegotiate | .inputUndervoltage | .keyGen | .keyLoad | .keyErase | .keyWrap | .keyUnwrap
  | .keyReservedCommand | .tlbInvalidateRequest | .tlbInvalidateComplete | .counterPageSet
  | .counterPageClear | .counterPageRead | .status | .writeFlash | .verify | .bist | .results | .reboot
  | .mailboxUnknownCommand | .deviceReset | .strandedRetentionExpiry => 0#32


/-- The single-register specifiers that REP may step, as the fields D, A and B of the word: an empty list
marks a field that names none (08 R155; 11 R224). An instruction that REP may not prefix has none. -/
def Instr.stepFields : Instr → List Nat × List Nat × List Nat
  | .iadd _ d a b => ([d.toNat], [a.toNat], [b.toNat])
  | .isub _ d a b => ([d.toNat], [a.toNat], [b.toNat])
  | .imul _ d a b => ([d.toNat], [a.toNat], [b.toNat])
  | .imulhI32 _ d a b => ([d.toNat], [a.toNat], [b.toNat])
  | .imulhN32 _ d a b => ([d.toNat], [a.toNat], [b.toNat])
  | .imad _ d a b => ([d.toNat], [a.toNat], [b.toNat])
  | .iminI32 _ d a b => ([d.toNat], [a.toNat], [b.toNat])
  | .iminN32 _ d a b => ([d.toNat], [a.toNat], [b.toNat])
  | .imaxI32 _ d a b => ([d.toNat], [a.toNat], [b.toNat])
  | .imaxN32 _ d a b => ([d.toNat], [a.toNat], [b.toNat])
  | .iabs _ d a => ([d.toNat], [a.toNat], [])
  | .ineg _ d a => ([d.toNat], [a.toNat], [])
  | .iaddi _ d a _ => ([d.toNat], [a.toNat], [])
  | .imuli _ d a _ => ([d.toNat], [a.toNat], [])
  | .icmp _ _ _ a b => ([], [a.toNat], [b.toNat])
  | .icmpi _ _ _ a _ => ([], [a.toNat], [])
  | .mov _ d a => ([d.toNat], [a.toNat], [])
  | .movi _ d _ => ([d.toNat], [], [])
  | .sel _ _ d a b => ([d.toNat], [a.toNat], [b.toNat])
  | .and _ d a b => ([d.toNat], [a.toNat], [b.toNat])
  | .or _ d a b => ([d.toNat], [a.toNat], [b.toNat])
  | .xor _ d a b => ([d.toNat], [a.toNat], [b.toNat])
  | .andn _ d a b => ([d.toNat], [a.toNat], [b.toNat])
  | .not _ d a => ([d.toNat], [a.toNat], [])
  | .andi _ d a _ => ([d.toNat], [a.toNat], [])
  | .ori _ d a _ => ([d.toNat], [a.toNat], [])
  | .xori _ d a _ => ([d.toNat], [a.toNat], [])
  | .shl _ d a b => ([d.toNat], [a.toNat], [b.toNat])
  | .shr _ d a b => ([d.toNat], [a.toNat], [b.toNat])
  | .sar _ d a b => ([d.toNat], [a.toNat], [b.toNat])
  | .rol _ d a b => ([d.toNat], [a.toNat], [b.toNat])
  | .shli _ d a _ => ([d.toNat], [a.toNat], [])
  | .shri _ d a _ => ([d.toNat], [a.toNat], [])
  | .sari _ d a _ => ([d.toNat], [a.toNat], [])
  | .popc _ d a => ([d.toNat], [a.toNat], [])
  | .clz _ d a => ([d.toNat], [a.toNat], [])
  | .ctz _ d a => ([d.toNat], [a.toNat], [])
  | .brev _ d a => ([d.toNat], [a.toNat], [])
  | .bfeN32 _ d a b => ([d.toNat], [a.toNat], [b.toNat])
  | .bfeI32 _ d a b => ([d.toNat], [a.toNat], [b.toNat])
  | .bfi _ d a b => ([d.toNat], [a.toNat], [b.toNat])
  | .fadd _ d a b => ([d.toNat], [a.toNat], [b.toNat])
  | .fsub _ d a b => ([d.toNat], [a.toNat], [b.toNat])
  | .fmul _ d a b => ([d.toNat], [a.toNat], [b.toNat])
  | .ffma _ d a b => ([d.toNat], [a.toNat], [b.toNat])
  | .fmin _ d a b => ([d.toNat], [a.toNat], [b.toNat])
  | .fmax _ d a b => ([d.toNat], [a.toNat], [b.toNat])
  | .fabs _ d a => ([d.toNat], [a.toNat], [])
  | .fneg _ d a => ([d.toNat], [a.toNat], [])
  | .fcmp _ _ _ a b => ([], [a.toNat], [b.toNat])
  | .fclass _ d a => ([d.toNat], [a.toNat], [])
  | .fcpys _ d a b => ([d.toNat], [a.toNat], [b.toNat])
  | .frnd _ d a => ([d.toNat], [a.toNat], [])
  | .hadd2 _ _ d a b => ([d.toNat], [a.toNat], [b.toNat])
  | .hsub2 _ _ d a b => ([d.toNat], [a.toNat], [b.toNat])
  | .hmul2 _ _ d a b => ([d.toNat], [a.toNat], [b.toNat])
  | .hfma2 _ _ d a b => ([d.toNat], [a.toNat], [b.toNat])
  | .hmin2 _ _ d a b => ([d.toNat], [a.toNat], [b.toNat])
  | .hmax2 _ _ d a b => ([d.toNat], [a.toNat], [b.toNat])
  | .hdot2 _ _ d a b => ([d.toNat], [a.toNat], [b.toNat])
  | .cvt _ d a r _ t => (if !(r = 0#1 && isPairType t) then [d.toNat] else [], if !(r = 1#1 && isPairType t) then [a.toNat] else [], [])
  | .cvtx _ _ a _ _ _ => ([], [a.toNat], [])
  | .cvtp _ _ d a b => ([d.toNat], [a.toNat], [b.toNat])
  | .qnt _ d a _ _ => ([d.toNat], [a.toNat], [])
  | .dqnt _ d a b => ([d.toNat], [a.toNat], [b.toNat])
  | .frcp _ d a => ([d.toNat], [a.toNat], [])
  | .frsq _ d a => ([d.toNat], [a.toNat], [])
  | .fsqrt _ d a => ([d.toNat], [a.toNat], [])
  | .fexp2 _ d a => ([d.toNat], [a.toNat], [])
  | .flog2 _ d a => ([d.toNat], [a.toNat], [])
  | .fsin _ d a => ([d.toNat], [a.toNat], [])
  | .fcos _ d a => ([d.toNat], [a.toNat], [])
  | .ftanh _ d a => ([d.toNat], [a.toNat], [])
  | .ferf _ d a => ([d.toNat], [a.toNat], [])
  | .fsigm _ d a => ([d.toNat], [a.toNat], [])
  | .shfl _ _ d a b => ([d.toNat], [a.toNat], [b.toNat])
  | .vote _ _ d a b => ([d.toNat], [a.toNat], [b.toNat])
  | .ballot _ _ d a b => ([d.toNat], [a.toNat], [b.toNat])
  | .redx _ _ d a b => ([d.toNat], [a.toNat], [b.toNat])
  | .scan _ _ d a b => ([d.toNat], [a.toNat], [b.toNat])
  | .matchLanes _ _ d a b => ([d.toNat], [a.toNat], [b.toNat])
  | .ld _ t d a _ _ _ => (if groupOfType t = 1 then [d.toNat] else [], [a.toNat], [])
  | .st _ t d a _ _ => (if groupOfSize t = 1 then [d.toNat] else [], [a.toNat], [])
  | .atom _ d _ w _ _ => (if w = 0#1 then [d.toNat] else [], [], [])
  | .cas _ _ _ _ _ => ([], [], [])
  | .caddv _ _ _ _ _ b => ([], [], [b.toNat])
  | .lds _ t d a _ _ => (if groupOfType t = 1 then [d.toNat] else [], [a.toNat], [])
  | .sts _ t d a _ _ => (if groupOfSize t = 1 then [d.toNat] else [], [a.toNat], [])
  | .atoms _ d a _ _ => ([d.toNat], [a.toNat], [])
  | .cass _ _ a _ => ([], [a.toNat], [])
  | .pref _ _ a _ _ => ([], [a.toNat], [])
  | .sadd _ d a b => ([d.toNat], [a.toNat], [b.toNat])
  | .ssub _ d a b => ([d.toNat], [a.toNat], [b.toNat])
  | .smul _ d a b => ([d.toNat], [a.toNat], [b.toNat])
  | .smulh _ d a b _ => ([d.toNat], [a.toNat], [b.toNat])
  | .sand _ d a b => ([d.toNat], [a.toNat], [b.toNat])
  | .sor _ d a b => ([d.toNat], [a.toNat], [b.toNat])
  | .sxor _ d a b => ([d.toNat], [a.toNat], [b.toNat])
  | .sshl _ d a b => ([d.toNat], [a.toNat], [b.toNat])
  | .sshr _ d a b => ([d.toNat], [a.toNat], [b.toNat])
  | .ssar _ d a b => ([d.toNat], [a.toNat], [b.toNat])
  | .smin _ d a b _ => ([d.toNat], [a.toNat], [b.toNat])
  | .smax _ d a b _ => ([d.toNat], [a.toNat], [b.toNat])
  | .smov _ d a => ([d.toNat], [a.toNat], [])
  | .smovi _ d _ => ([d.toNat], [], [])
  | .saddi _ d _ => ([d.toNat], [], [])
  | .scmp _ _ a b _ => ([], [a.toNat], [b.toNat])
  | .ssel _ d a b _ => ([d.toNat], [a.toNat], [b.toNat])
  | _ => ([], [], [])

/-- May REP prefix the instruction at all? (08 R155; 11 R224) -/
def Instr.repAllowed (w : Word) : Bool :=
  if w.extractLsb' 31 1 = 0#1 then (w.extractLsb' 21 8).toNat / 16 != 14
  else (w.extractLsb' 22 7).toNat ≤ 0x11

/-- One stepped field passes if it names a register and its last repeat names one (08 R155). -/
def stepOk (stepped : Bool) (f : List Nat) (n top : Nat) : Bool :=
  !stepped || f.any fun x => x + n - 1 ≤ top

/-- REP with step mask `m` and `n` repeats before the instruction `i` of word `w` (08 R155). -/
def repOk (i : Instr) (w : Word) (n : Nat) (m : BitVec 3) : Bool :=
  let top := if w.extractLsb' 31 1 = 0#1 then 111 else 63
  let f := i.stepFields
  Instr.repAllowed w && stepOk (m.getLsbD 2) f.1 n top && stepOk (m.getLsbD 1) f.2.1 n top &&
    stepOk (m.getLsbD 0) f.2.2 n top

/-- The word of repeat `k`: D, A and B raised by `k` where the mask says so (08 R154). -/
def stepWord (w : Word) (k : Nat) (m : BitVec 3) : Word :=
  let on (i sh : Nat) : Word := if m.getLsbD i then BitVec.ofNat 32 (k * 2 ^ sh) else 0#32
  if w.extractLsb' 31 1 = 0#1 then w + on 2 14 + on 1 7 + on 0 0 else w + on 2 16 + on 1 10 + on 0 4

/-- An instruction unit (08 R141): the instruction's word and its place in the unit, the literal and the
repeat prefix where there are any. -/
structure CodeUnit where
  word : Word
  pos : Nat
  lit : Option Word := none
  /-- repeats and step mask (R154) -/
  rep : Option (Nat × BitVec 3) := none
  deriving DecidableEq, Repr

/-- An ENCODING trap of a unit: the reason, the offending word and its place, the offending value. -/
structure EncFail where
  reason : EncReason
  pos : Nat
  word : Word
  value : Nat := 0
  deriving DecidableEq, Repr

/-- What reading a unit gives. -/
inductive UnitResult where
  /-- a word could not be fetched (R142) -/
  | fetchFault (t : TrapInfo)
  /-- a lane-set word in the firmware slot (R147) -/
  | privilege (word : Word)
  | encoding (f : EncFail)
  | unit (u : CodeUnit) (i : Instr)
  deriving DecidableEq, Repr

/-- Is the word the prefix LIT or REP? (R153, R154) -/
def isLit (w : Word) : Bool := w.extractLsb' 31 1 = 1#1 && w.extractLsb' 22 7 = 0x78#7
def isRep (w : Word) : Bool := w.extractLsb' 31 1 = 1#1 && w.extractLsb' 22 7 = 0x79#7

/-- The checks of a prefix word (R147, R153, R154). -/
def prefixBad (w : Word) : Option EncReason :=
  if w.extractLsb' 29 2 != 0#2 then some .prefixWord
  else if isLit w && w.extractLsb' 0 22 != 0#22 then some .fixedField
  else if isRep w && w.extractLsb' 0 13 != 0#13 then some .fixedField
  else none

/-- Is the access role-addressed, taking its role from the literal? (R153, R160) -/
def Instr.roleAddressed : Instr → Bool
  | .lds _ _ _ _ r _ => r = 1#1
  | .sts _ _ _ _ r _ => r = 1#1
  | _ => false

/-- Does a source of the instruction name the literal? (R145) -/
def Instr.readsLit (i : Instr) : Bool := i.names.la.any fun e => e.1 = 124 && e.2 = 1

/-- The checks of a literal: one that nothing uses, or that is missing (R153, R197; 20 R374). `lp` is
the place of the LIT word. -/
def litBad (w : Word) (i : Instr) (pos lp : Nat) : Option Word → Option EncFail
  | some v =>
    if w.extractLsb' 31 1 = 1#1 || !(i.readsLit || i.roleAddressed) then
      some { reason := .literal, pos := lp, word := 0x9E000000#32 }
    else if i.roleAddressed && i.readsLit then some { reason := .specifier, pos := pos, word := w, value := 124 }
    else if i.roleAddressed && v.extractLsb' 5 27 != 0#27 then
      some { reason := .fixedField, pos := lp + 1, word := v }
    else none
  | none =>
    if i.readsLit then some { reason := .specifier, pos := pos, word := w, value := 124 }
    else if i.roleAddressed then some { reason := .literal, pos := pos, word := w }
    else none

/-- The instruction of a unit, after its prefixes: `first` is the unit's first word. -/
def decodeBody (first w : Word) (pos lp : Nat) (lit : Option Word) (rep : Option Word) (fw : Bool) :
    UnitResult :=
  if isLit w || isRep w then .encoding { reason := .prefixWord, pos := 0, word := first }
  else if fw && w.extractLsb' 31 1 = 0#1 then .privilege w
  else match decodeWord w with
    | .error r => .encoding { reason := r, pos := pos, word := w, value := if r = .sregIndex then (w.extractLsb' 0 8).toNat else 0 }
    | .ok i =>
      match i.encFail with
      | some (r, v) => .encoding { reason := r, pos := pos, word := w, value := v }
      | none =>
        match litBad w i pos lp lit with
        | some f => .encoding f
        | none =>
          match rep with
          | none => .unit { word := w, pos := pos, lit := lit } i
          | some r =>
            let n := (r.extractLsb' 16 6).toNat + 1
            let m := r.extractLsb' 13 3
            if repOk i w n m then .unit { word := w, pos := pos, lit := lit, rep := some (n, m) } i
            else .encoding { reason := .repeated, pos := 0, word := r, value := n }

/-- After the LIT word at place `p`: the literal, which is never decoded, and the instruction. -/
def decodeLit (fetch : Nat → Except TrapInfo Word) (first : Word) (p : Nat) (rep : Option Word) (fw : Bool) :
    UnitResult :=
  match fetch (p + 1) with
  | .error t => .fetchFault t
  | .ok v =>
    match fetch (p + 2) with
    | .error t => .fetchFault t
    | .ok w => decodeBody first w (p + 2) p (some v) rep fw

/-- The unit that begins at the first of the words `fetch` gives (R141, R142). -/
def decodeUnit (fetch : Nat → Except TrapInfo Word) (fw : Bool) : UnitResult :=
  match fetch 0 with
  | .error t => .fetchFault t
  | .ok w0 =>
    match (if isLit w0 || isRep w0 then prefixBad w0 else none) with
    | some r => .encoding { reason := r, pos := 0, word := w0 }
    | none =>
      if isLit w0 then decodeLit fetch w0 0 none fw
      else if isRep w0 then
        match fetch 1 with
        | .error t => .fetchFault t
        | .ok w1 =>
          if isLit w1 then
            match prefixBad w1 with
            | some r => .encoding { reason := r, pos := 1, word := w1 }
            | none => decodeLit fetch w0 1 (some w0) fw
          else decodeBody w0 w1 1 0 none (some w0) fw
      else decodeBody w0 w0 0 0 none none fw

/-- The words of a unit (R141). -/
def CodeUnit.words (u : CodeUnit) : Nat := u.pos + 1

/-- The instruction whose words, in the table's bit numbering, are `w`: the words are little-endian in
memory (08 R141), so bit 0 of the first word is bit 0 of the number. Every row of the table is one word. -/
def decodeTableWord (nbits w : Nat) : Option Instr :=
  if nbits = 32 then (decodeWord (BitVec.ofNat 32 w)).toOption else none

end Sys2Proof
end

