-- ==== Sys2Proof/Machine/CoreState.lean ====
section
/-! DEFINITION. The state of one core (03): its warps, teams and engines, as plain data. What belongs to
the running context (R42, R46, R47, R52, R55) is `CoreCtx`, so that a swap exchanges it whole; what the core
keeps for itself (R51, 07 R130 to R132, 17 R337) is `Core`. -/

namespace Sys2Proof.Machine

/-- The state of a lane (02 R22). -/
inductive LaneState where
  | runnable | parked | exited
  deriving DecidableEq, Repr

/-- One lane's control state (03 R42, R45; 02 R26, R27). -/
structure Lane where
  state : LaneState := .exited
  pc : Word := 0
  /-- park target -/
  park : Word := 0
  waits : Nat := 0
  /-- first cycle at which the lane's group may issue: a group that can still trap waits for its result (20 R363) -/
  notBefore : Nat := 0
  /-- unspilled return addresses, newest first, at most 4 -/
  stack : List Word := []
  spill : Nat := 0
  deriving DecidableEq, Repr

/-- The register files a result goes to. -/
inductive RegFile where
  | lane | pred | uni | upred
  deriving DecidableEq, Repr

/-- An issued fixed-latency result that is not yet written (08 R150): one register, the value of each lane
(of lane 0 for a uniform register), the cycle at whose end it lands, and the flags set with it (11 R227). -/
structure Pend where
  file : RegFile
  num : Nat
  vals : Map Word
  lands : Nat
  fstat : Word := 0
  qstat : Word := 0
  deriving DecidableEq, Repr

/-- A pending variable-latency result (08 R151): a register and the lanes that wait for it. -/
structure VarPend where
  file : RegFile
  num : Nat
  lanes : Mask
  req : Nat
  deriving DecidableEq, Repr

/-- The name of a counter (07 R123): a numbered counter of a role, or a virtual address. -/
inductive CounterName where
  | num (role n : Nat)
  | addr (va : DWord)
  deriving DecidableEq, Repr

/-- The wake condition of a parked CWAIT (07 R133). -/
structure WaitCond where
  name : CounterName
  thr : DWord
  scope : Nat
  /-- the issuing group and its PC -/
  lanes : Mask
  pc : Word
  /-- the value a wake carried (R129) -/
  carried : Option DWord := none
  deriving DecidableEq, Repr

/-- A waiting RACQ, or an RREL that waits for pending writes (03 R44; 11 R232, R240). -/
structure RacqWait where
  mask : Nat
  lanes : Mask
  pc : Word
  deriving DecidableEq, Repr

/-- An RNEXT that waits for a steal reply (11 R233). -/
structure RnextWait where
  dest : Nat
  pred : Nat
  lanes : Mask
  pc : Word
  req : Nat
  deriving DecidableEq, Repr

/-- An incomplete REP sequence (08 R154, R157). -/
structure RepSeq where
  pc : Word
  lanes : Mask
  deriving DecidableEq, Repr

/-- A sealed copy batch not yet counted done (12 R251; 06 R114). -/
structure Batch where
  num : Nat
  /-- copies of the batch that are not complete -/
  copies : List Nat
  name : Option CounterName
  inc : Word := 0
  scope : Nat := 0
  /-- the counts of its gathers (12 R248) -/
  counts : List Nat := []
  deriving DecidableEq, Repr

/-- The trap registers and state (20 R364 to R371). While a handler runs, every lane outside TMASK is held. -/
structure TrapState where
  tvec : Word := 0
  epc : Word := 0
  tdet0 : Word := 0
  tdet1 : Word := 0
  tdet2 : Word := 0
  inHandler : Bool := false
  tmask : Mask := 0
  lsel : BitVec 5 := 0
  /-- pending asynchronous traps, in order of arrival -/
  async : List TrapInfo := []
  /-- frozen (R370): none, unhandled or double -/
  frozen : Bool := false
  /-- stopped for the debugger (17 R341) -/
  dbgStopped : Bool := false
  deriving DecidableEq, Repr

/-- The uniform state of a warp (03 R46, R48, R50). -/
structure WarpUni where
  s : Map Word := []
  sp : BitVec 4 := 0
  mode : Word := 0x10#32
  fstat : Word := 0
  qstat : Word := 0
  csbase : DWord := 0
  cslim : Word := 0
  repIdx : Nat := 0
  rep : Option RepSeq := none
  /-- region ids, top first (17 R333) -/
  regions : List (BitVec 16) := []
  sealedCount : Word := 0
  doneCount : Word := 0
  deriving DecidableEq, Repr

/-- A stalled SPAWN (02 R36; 10 R215): its place, its group and the next lane to place. -/
structure SpawnStall where
  pc : Word
  lanes : Mask
  next : Nat
  deriving DecidableEq, Repr

/-- What the issue logic keeps of a warp (02 R21, R23, R25; 08 R149). -/
structure WarpSched where
  /-- order of admission to the quad -/
  age : Nat := 0
  lastPick : Nat := 0
  stallUntil : Nat := 0
  /-- a stall count of 3: every fixed-latency result must have landed -/
  stallAll : Bool := false
  cwait : Option WaitCond := none
  /-- groups kept at their PC by a counter operation that its home has not answered (20 R363; 21 R383) -/
  atHome : List (Nat × Mask) := []
  /-- waiting RACQs, oldest first, and RRELs -/
  racq : List RacqWait := []
  rrel : List RacqWait := []
  rnext : Option RnextWait := none
  /-- stalled SPAWNs, the newest first (10 R215) -/
  spawns : List SpawnStall := []
  /-- groups whose next word is the command that their MSIGN completed, with the signers' tile trackers (12 R257;
  17 R338) -/
  bound : List (Mask × List Nat) := []
  /-- synchronous traps of completed instructions whose groups a handler holds (12 R270; 20 R364) -/
  due : List (Mask × TrapInfo) := []
  /-- TOKARM requests outstanding (12 R272) -/
  tokarm : Nat := 0
  deriving DecidableEq, Repr

/-- A resident warp. Lane registers are kept by specifier × 32 + lane: v0 to v111, q0 to q7 at 112 to 119,
h0 and h1 at 120 and 121 (08 R145). -/
structure Warp where
  ctx : Nat := 0
  team : Nat := 0
  wid : Nat := 0
  lanes : Map Lane := []
  lreg : Map Word := []
  preds : Map Mask := []
  /-- logical block to physical block (03 R44) -/
  blocks : Map Nat := []
  uni : WarpUni := {}
  sched : WarpSched := {}
  trap : TrapState := {}
  pend : List Pend := []
  var : List VarPend := []
  batches : List Batch := []
  /-- unsealed copies (12 R247) -/
  unsealed : List Nat := []
  deriving DecidableEq, Repr

/-- A convergence register (03 R47) with its signed mask by WARPID (12 R257). -/
structure CvReg where
  armed : Bool := false
  expect : Nat := 0
  signed : Nat := 0
  gen : Nat := 0
  mask : Map Mask := []
  deriving DecidableEq, Repr

/-- A collective copy slot (12 R249): the slice count and direction its first slice fixed, the slices held
and the warps that made them. -/
structure Collective where
  count : Nat
  dir : Nat
  slices : List Nat
  warps : List Nat
  deriving DecidableEq, Repr

/-- A resident team, kept under its team number (03 R419). -/
structure Team where
  ctx : Nat
  /-- its unit's number on the partition -/
  unit : Nat
  launch : Nat
  teamId : Nat
  trole : Nat
  prole : Nat
  /-- WARPIDs in use -/
  wids : List Nat
  cv : Map CvReg := []
  slots : Map Collective := []
  deriving DecidableEq, Repr

/-- A copy in flight (12 R243 to R250). A window operand is kept as its scratchpad address word with the
role filled in, so that it is resolved again after a move (14 R295). -/
structure Copy where
  /-- the issuing warp slot; 64 for an agent's copy (16 R329); above it, an ended warp's batches -/
  slot : Nat
  team : Nat
  ctx : Nat
  dir : Nat
  src : DWord
  dst : DWord
  len : Nat
  rows : Nat
  spitch : Nat
  dpitch : Nat
  /-- row mask of a gather or scatter (R248) -/
  mask : Option DWord := none
  scatter : Bool := false
  /-- element format and region of the first page of a global operand -/
  srcFmt : Nat := 0
  dstFmt : Nat := 0
  rowsDone : Nat := 0
  bytesDone : Nat := 0
  /-- its collective has started (R249): it may take a descriptor -/
  released : Bool := true
  /-- it holds descriptor `desc`, 0 to 15 -/
  started : Bool := true
  desc : Nat := 0
  halted : Bool := false
  /-- all its bytes are written -/
  finished : Bool := false
  /-- tile tracker it is attributed to (17 R338) -/
  tracker : Option Nat := none
  /-- a graph COPY node's completion counter, increment, context and scope (16 R329) -/
  node : Option (DWord × Word × Nat × Nat) := none
  deriving DecidableEq, Repr

/-- A range-scoreboard entry (06 R115), with what its window is resolved by again after a move (14 R295): unit, troupe role
and logical window. -/
structure ScoreEntry where
  win : Nat
  unit : Nat := 0
  role : Nat := 0
  logical : Nat := 0
  lo : Nat
  hi : Nat
  dest : Bool
  /-- the operation, as core × 2^32 + its number there -/
  op : Nat
  deriving DecidableEq, Repr

/-- A range-lock entry (06 R117): bounds in whole lines, and the first cycle in which it holds (21 R380). -/
structure LockEntry where
  lo : Nat
  hi : Nat
  dest : Bool
  op : Nat
  since : Nat := 0
  deriving DecidableEq, Repr

/-- A weight plane (12 R258): its format (none where never loaded), its bytes (64 × column + byte) and its
block scales (4 × column + block). -/
structure Plane where
  fmt : Option Nat := none
  bytes : Map Byte := []
  scales : Map Nat := []
  deriving DecidableEq, Repr

/-- A matrix command (12 R255 to R266), its operands as they were read at issue. -/
structure MCmd where
  /-- its number, for scoreboard entries -/
  num : Nat
  opc : Nat
  slot : Nat
  team : Nat
  mode : Word
  opword : Word
  rowctl : Word
  /-- MMA.z -/
  zero : Bool := false
  /-- MRD: result group and lanes -/
  dest : Nat := 0
  lanes : Mask := 0
  /-- rows whose final results have been written -/
  done : Nat := 0
  /-- the flags that they raised, and the results of the other rows of a command that was frozen: (row, column, value,
  flags) (14 R298) -/
  flags : Word := 0
  rest : Option (List (Nat × Nat × Nat × Word)) := none
  /-- the cycle at which it retires, once it has started; of a frozen one the cycles that it still takes -/
  due : Nat := 0
  trackers : List Nat := []
  deriving DecidableEq, Repr

/-- The matrix array (12 R255, R258, R267). -/
structure Matrix where
  queue : List MCmd := []
  running : Option MCmd := none
  loading : Option MCmd := none
  /-- a command frozen in the array, and the header of the matrix save image that the last stop made (14 R298) -/
  frozen : Option MCmd := none
  header : BitVec 256 := 0
  active : Plane := {}
  shadow : Plane := {}
  /-- accumulator element 64 × row + column -/
  acc : Map Word := []
  /-- the context has issued a matrix command here (14 R420) -/
  live : Bool := false
  deriving DecidableEq, Repr

/-- A spawn bin (02 R36 to R38): the threads' arguments and teams. -/
structure SpawnBin where
  entry : Word := 0
  threads : List (Word × Nat) := []
  elapsed : Nat := 0
  period : Nat := 2048
  expired : Bool := false
  deriving DecidableEq, Repr

/-- A balance table entry (02 R40). -/
structure Balance where
  phase : BitVec 16 := 0
  busy : Nat := 0
  idle : Nat := 0
  deriving DecidableEq, Repr

/-- A tile tracker (17 R338, R339). -/
structure Tracker where
  slot : Nat
  rid : BitVec 16
  rgns : BitVec 64
  cyc0 : Nat
  /-- running cycles since the RGNENT -/
  age : Nat := 0
  /-- depth of its id on the region stack -/
  depth : Nat := 0
  /-- stamps S0 to S5; a stamp that is absent reads all ones -/
  stamps : Map Nat := []
  closed : Bool := false
  pre : Nat := 0
  /-- attributed batches not yet complete: (batch, holds copy-in, holds copy-out); array commands not retired -/
  batches : List (Nat × Bool × Bool) := []
  cmds : Nat := 0
  wid : Nat := 0
  deriving DecidableEq, Repr

/-- The per-core state that belongs to the running context (03 R52, R55; 07 R122). -/
structure CoreCtx where
  ctx : Nat := 0
  warps : Map Warp := []
  teams : Map Team := []
  ctr : Map DWord := []
  wdesc : Map DWord := []
  /-- byte phys of window w, at 8192 × w + phys (05 R83) -/
  scratch : Map Byte := []
  score : List ScoreEntry := []
  locks : Map LockEntry := []
  copies : Map Copy := []
  /-- batches of ended warps, each with the warp's done count (10 R214) -/
  orphans : Map (List Batch × Word) := []
  nextOp : Nat := 0
  matrix : Matrix := {}
  /-- lazy range (11 R233) -/
  lazyNext : Nat := 0
  lazyEnd : Nat := 0
  lazyLaunch : Option Nat := none
  /-- its place among the cores of the launch (13 R282) -/
  lazyIndex : Nat := 0
  /-- steal requests that wait here, oldest first, by index of the requesting core, the cycle from which the first is
  served, and whether one from here is out (13 R282) -/
  steals : List Nat := []
  stealSince : Nat := 0
  stealOut : Bool := false
  bins : Map SpawnBin := []
  spntmr : Word := 2048#32
  balance : Map Balance := []
  /-- the phase of the warp that issued last: its region ids (02 R40; 17 R333) -/
  lastRgns : BitVec 64 := 0
  lastSlot : Nat := 32
  /-- launch queue: descriptor address and descriptor (11 R234) -/
  launchQ : List (Nat × Block) := []
  trackers : Map Tracker := []
  /-- dirty register blocks (8 × slot + block) and scratchpad lines of 256 bytes (32 × window + line) (14 R303) -/
  dirtyBlocks : List Nat := []
  dirtyLines : List Nat := []
  /-- the context ran here since its last cut -/
  ran : Bool := false
  deriving DecidableEq, Repr

/-- An entry of a waiter list: of an L2 slice or a counter file (07 R129, R131), or of a slow list (R130). -/
structure Waiter where
  /-- physical address, or 64 × core + number with bit 48 set -/
  ctr : Nat
  thr : DWord
  core : Nat
  slot : Nat
  /-- the key ID of the counter's page -/
  kid : Nat := 0
  deriving DecidableEq, Repr

/-- A cached translation (05 R77): level and entry. -/
structure TlbEntry where
  level : Nat
  entry : DWord
  deriving DecidableEq, Repr

/-- A core. -/
structure Core where
  cc : CoreCtx := {}
  cyc : Nat := 0
  /-- the warp of the firmware slot (01 R14; 11 R221) -/
  fw : Warp := {}
  /-- cycles of quad 0 since the firmware slot was last picked (13 R287) -/
  fwWait : Nat := 4
  nextAge : Nat := 0
  /-- the slots of the RACQs that wait at the block allocator, oldest first (03 R44) -/
  racqQ : List Nat := []
  /-- waiter list of the counter file (07 R131), slow list (R130), monitors by slot (R132) -/
  waiters : List Waiter := []
  slow : List Waiter := []
  monitors : Map Nat := []
  /-- L1 TLB: translations at context × 2^45 + VA[56:12] (05 R77) -/
  tlb : Map TlbEntry := []
  /-- instruction cache (01 R14; 21 R387): plain fetch units at key ID × 2^40 + physical address div 256 -/
  icache : Map (BitVec 2048) := []
  /-- events that fall due at a cycle of the core -/
  timers : List (Nat × Instr) := []
  /-- first free cycle of unit u of quad q, at 8 × q + u (09 R169) -/
  unitFree : Map Nat := []
  /-- trace records buffered and lost (17 R337) -/
  trace : List Block := []
  lost : Nat := 0
  /-- the trace control block as the core read it; 0 disables the ring (17 R334) -/
  traceBlk : Block := 0
  sampleSlot : Nat := 0
  evcnt : Map DWord := []
  evsel : Map Word := []
  /-- the core may issue: its start has been granted (13 R286) -/
  granted : Bool := true
  /-- an instruction issued in this cycle (02 R40) -/
  busy : Bool := false
  /-- it holds state of the standby context, left in place by a SWAP (14 R296) -/
  gated : Bool := false
  /-- the first cycle in which it may admit a unit or a warp (13 R280) -/
  admitAt : Nat := 0
  deriving DecidableEq, Repr

end Sys2Proof.Machine
end

