-- ==== Sys2Proof/Machine/DeviceState.lean ====
section
/-! DEFINITION. The state of the device outside its cores, as plain data: cache lines, requests in flight,
partitions and their units, contexts with their Almanac, the Vigil, queues, graphs and rings, gangs, and
the units of the I/O die. -/

namespace Sys2Proof.Machine

/-- A cache line of 32 words (05 R86): valid and dirty bit a word, key ID tag, read-only tag (R89, R91). -/
structure Line where
  kid : Nat := 0
  ro : Bool := false
  valid : BitVec 32 := 0
  dirty : BitVec 32 := 0
  data : BitVec 1024 := 0
  /-- the context that wrote it last (21 R389) -/
  owner : Nat := 0
  deriving DecidableEq, Repr

/-- Where one byte lies: memory, or physical byte 8192 × window + phys of a core's scratchpad. -/
structure ByteAt where
  pa : Nat
  kid : Nat := 0
  cache : Nat := 0
  core : Option Nat := none
  deriving DecidableEq, Repr

/-- What a memory request does (10 R200 to R206). -/
inductive MemOp where
  /-- a load of type code t (R200); 8: an unconverted run of words -/
  | load (t : Nat)
  | store
  /-- operation code, 64-bit -/
  | atom (o : Nat) (wide : Bool)
  | cas (wide : Bool)
  /-- a prefetch (R208): into the L1, or only into the home's L2 -/
  | pref (l1 : Bool)
  deriving DecidableEq, Repr

/-- One lane's access to memory after translation (10 R196, R199). -/
structure Access where
  lane : Nat
  va : DWord
  pa : Nat
  size : Nat
  kid : Nat := 0
  /-- placement (05 R90) and read-only path (R89) -/
  cache : Nat := 0
  ro : Bool := false
  /-- element format and, for B4, the two scales (05 R80, R81) -/
  fmt : Nat := 0
  /-- data stored, or the operand; the new value of a CAS -/
  data : Nat := 0
  data2 : Nat := 0
  /-- a scratchpad access: the core that holds the window; `pa` is 8192 × window + phys -/
  core : Option Nat := none
  /-- where the bytes of the two scales of a B4 access lie (05 R80; 12 R246) -/
  scale0 : List ByteAt := []
  scale1 : List ByteAt := []
  deriving DecidableEq, Repr

/-- A group that a load keeps at its unit: a B4 load can raise OF (05 R81; 04 R68). -/
structure Kept where
  enables : Word
  lanes : Mask
  pc : Word
  len : Nat
  reps : Nat := 0
  word : Word
  deriving DecidableEq, Repr

/-- A memory request in flight. Results are kept at 4 × lane + word. One of no warp (an L1's write-back that its home
holds, an ended warp's) stands under slot 64. -/
structure MemReq where
  core : Nat
  slot : Nat
  ctx : Nat
  op : MemOp
  accs : List Access
  /-- destination file, first register, registers a lane -/
  file : RegFile
  dest : Nat
  words : Nat
  result : Map Word := []
  /-- a uniform predicate set with the result (11 R232, R233) -/
  pred : Option (Nat × Bool) := none
  fstat : Word := 0
  performed : Bool := false
  /-- the scope of an atomic, for its acquire (10 R203) -/
  scope : Nat := 0
  /-- a load whose group stays at its unit until its flags are known (20 R363): the enabled conditions, the group, its PC,
  the words of the unit, its repeats, and the instruction's word -/
  keep : Option Kept := none
  /-- it writes back a line that its L1 no longer holds dirty -/
  back : Bool := false
  deriving DecidableEq, Repr

/-- The home of a counter (07 R122), with its place there. -/
inductive CtrHome where
  /-- counter n of the file of a core -/
  | file (core n : Nat)
  /-- a physical address: device, host or peer memory -/
  | mem (pa kid : Nat)
  deriving DecidableEq, Repr

/-- What follows an agent's add (07 R134; 21 R384). -/
inductive AgentAdd where
  | batch | count | launch | signal (run node : Nat) | vigil (slot : Nat) | ckpt
  /-- an add to REFCTR or FLTCTR -/
  | note
  deriving DecidableEq, Repr

/-- A counter operation (07 R124). -/
inductive CtrKind where
  | add | read | wait | poll | addv
  deriving DecidableEq, Repr

/-- A counter operation in flight. A CADDV keeps its adds as (lane, home, increment), lane ascending. -/
structure CtrOp where
  core : Nat
  slot : Nat
  ctx : Nat
  kind : CtrKind
  name : CounterName
  /-- its form in the instruction: 0 cN, 1 roleX.cN, 2 a uniform address, 3 lane addresses (20 R372) -/
  form : Nat := 0
  home : CtrHome
  inc : DWord := 0
  thr : DWord := 0
  scope : Nat := 0
  /-- destination pair, or predicate -/
  dest : Nat := 0
  lanes : Mask := 0
  pc : Word := 0
  len : Nat := 0
  adds : List (Nat × DWord × CtrHome × DWord) := []
  olds : Map DWord := []
  /-- homes that hold, and those that have applied (R127) -/
  holding : List Nat := []
  applied : List Nat := []
  /-- the trap that it takes once every home that holds has released (R127) -/
  fails : Option TrapInfo := none
  /-- repeats of its REP unit; 0 outside one (08 R154) -/
  reps : Nat := 0
  /-- an agent's add (07 R134): what follows if it fails; the cores whose writes it is the release of (06 R119) -/
  agent : Option AgentAdd := none
  cores : List Nat := []
  deriving DecidableEq, Repr

/-- A Vigil command in flight (12 R268): the slot word and token or count of each submitting lane. -/
structure VigilReq where
  core : Nat
  slot : Nat
  ctx : Nat
  /-- 0 TOKSUB, 1 TOKSUB.d, 2 TOKCONF, 3 TOKARM -/
  kind : Nat
  lanes : Map (Word × Word)
  dest : Nat := 0
  group : Mask := 0
  /-- result word k of lane l at 8 × l + k -/
  result : Map Word := []
  /-- arm records (12 R272) -/
  records : List (BitVec 1024) := []
  next : Word := 0
  /-- a slot of it was found damaged (22 R400) -/
  bad : Bool := false
  deriving DecidableEq, Repr

/-- A unit of a context resident on a partition, with its group binding table (02 R30; 13 R276). -/
structure UnitRec where
  ctx : Nat
  launch : Nat
  index : Nat
  prole : Nat
  ttable : Map Word
  ptable : Map Word := []
  nwin : Nat
  nctr : Nat
  troles : Nat
  groles : Nat
  /-- resumed, but held until every part of its gang runs (02 R34) -/
  waiting : Bool := false
  /-- teams of the unit that have not ended; 0 of a gang's unit whose entries a COMMIT has written and that no START has
  reached (13 R283) -/
  live : Nat
  gang : Option Nat := none
  deriving DecidableEq, Repr

/-- A launch in dispatch (13 R275 to R282). -/
structure LaunchRec where
  ctx : Nat
  addr : Nat
  desc : Block
  /-- allowed partitions of the context -/
  parts : List Nat
  /-- the dies' ticket counters (R281) -/
  tickets : Map DWord := []
  /-- units in all: of a grid, of a lazy launch one a core, of a gang its troupes -/
  total : Nat := 0
  ended : Nat := 0
  /-- cores on which it has started -/
  cores : List Nat := []
  /-- cores that note a die exhausted: 4 × core + die -/
  exhausted : List Nat := []
  wdescs : Map DWord := []
  /-- the cores of a lazy launch, in order (13 R282); of those that have not started, where the range ends that steals have
  cut, and the requests that wait -/
  lazy : List Nat := []
  ends : Map Nat := []
  asks : Map (List Nat) := []
  /-- log entry under replay (17 R345) -/
  log : Option Nat := none
  deriving DecidableEq, Repr

/-- A team's state taken off its core (14 R300). -/
structure SavedTeam where
  core : Nat
  num : Nat
  team : Team
  warps : Map Warp
  windows : Map Byte
  wdescs : Map DWord
  ctrs : Map DWord
  /-- copies not yet sealed: finished, or waiting in a collective slot; with the scoreboard entries and the locks of the
  latter -/
  copies : Map Copy := []
  score : List ScoreEntry := []
  locks : List LockEntry := []
  trackers : List Tracker := []
  /-- its threads in spawn bins: entry address and argument -/
  threads : List (Word × Word) := []
  deriving DecidableEq, Repr

/-- An evicted unit (14 R299, R300). -/
structure Evicted where
  key : Nat
  unit : UnitRec
  teams : List SavedTeam
  /-- its wake condition has been met -/
  met : Bool := false
  deriving DecidableEq, Repr

/-- The part of a context saved off the core arrays (14 R296, R297): core contexts by core within the
partition, units by number in the order of admission. -/
structure SavedPart where
  ctx : Nat
  /-- the partition it was taken from -/
  home : Nat := 0
  cores : Map CoreCtx
  units : Map UnitRec
  /-- of an image its bytes (14 R297), and the Vigil slots that the context held (R308) -/
  bytes : List Byte := []
  vslots : List Nat := []
  /-- an image that a LOAD has read: the context goes on elsewhere -/
  loaded : Bool := false
  /-- units evicted from the partition (14 R300) -/
  evicted : List Evicted := []
  deriving DecidableEq, Repr

/-- The part of a context that an image of another module holds (14 R308): what follows the tables of an image is not
specified, so its reading is a free value (note 60). -/
opaque Config.foreignImage : List Byte → Option SavedPart

/-- The state of a partition in the gang protocol (13 R283). -/
inductive GangState where
  | free | heldFor (gang : Nat) | committed (gang : Nat)
  deriving DecidableEq, Repr

/-- A partition of 24 cores (01 R11; 14 R292, R297; 23 R412). -/
structure Part where
  stat : BitVec 8 := 0
  drain : Bool := false
  pcnt : DWord := 0
  pimg : DWord := 0
  pbind : DWord := 0
  pctxh : Word := 0
  running : Option Nat := none
  inPlace : Option Nat := none
  standby : Option SavedPart := none
  /-- commands not yet complete, oldest first; the first is in progress (R292), and 8 more than its code once its
  outcome stands -/
  commands : List Nat := []
  offline : Bool := false
  /-- paused by a cut (R302); a stop has reached it during the cut (R309) -/
  paused : Bool := false
  stopping : Bool := false
  units : Map UnitRec := []
  nextUnit : Nat := 0
  gang : GangState := .free
  /-- the cycle of its AGREE -/
  heldSince : Nat := 0
  /-- hand-on mark (13 R283) -/
  mark : Option Nat := none
  /-- cores reserved for the held gang, by troupe role -/
  reserved : Map Word := []
  evicted : List Evicted := []
  deriving DecidableEq, Repr

/-- The submitter's side of the gang protocol (13 R283, R284). -/
structure Gang where
  launch : Nat
  agent : Nat
  parts : List Nat
  /-- 0 COLLECT, 1 CONFIRM, 2 started, 3 waits on gsv, 4 refused -/
  phase : Nat := 0
  agreed : List Nat := []
  confirmed : List Nat := []
  /-- the cycle at which its messages were sent -/
  since : Nat := 0
  ticket : Option DWord := none
  /-- the resume of a gang (02 R34), not a launch -/
  resume : Bool := false
  deriving DecidableEq, Repr

/-- What a step of a Vigil slot changes (15 R310, R314). History newest first. -/
structure VState where
  hist : List Word := []
  counts : Map DWord := []
  fired : BitVec 4 := 0
  stopped : Bool := false
  deriving DecidableEq, Repr

/-- A watch entry of a Vigil slot (12 R272; 15 R312). -/
structure Watch where
  pat : List Word := []
  wild : Nat := 0
  len : Nat := 0
  act : Nat := 0
  trp : Bool := false
  target : Nat := 0
  inj : List Word := []
  ctr : DWord := 0
  inc : Word := 0
  deriving DecidableEq, Repr

/-- A budget of a Vigil slot (15 R310, R314). -/
structure VBudget where
  limit : DWord := 0
  cls : Nat := 0
  act : Nat := 0
  trp : Bool := false
  ctr : DWord := 0
  inc : Word := 0
  deriving DecidableEq, Repr

/-- An action that fired (15 R314): it is carried out, or held by a draft. -/
structure VAction where
  act : Nat
  ent : Nat
  bud : Bool
  trp : Bool
  target : Nat := 0
  inj : List Word := []
  /-- the stopped result -/
  std : Bool := false
  deriving DecidableEq, Repr

/-- A pending draft position (15 R318): the tentative state that it leaves, and that state with the tokens of a held
INJECT, counted as the budgets then stood. -/
structure Draft where
  snap : VState
  after : VState := {}
  act : Option VAction
  notes : List (DWord × Word)
  deriving DecidableEq, Repr

/-- A Vigil slot (15 R310). -/
structure VSlot where
  owner : Option Nat := none
  st : VState := {}
  watch : Map Watch := []
  budgets : Map VBudget := []
  drafts : List Draft := []
  nerr : Bool := false
  deriving DecidableEq, Repr

/-- A class range (15 R313). -/
structure ClassRange where
  lo : Nat
  hi : Nat
  cls : Nat
  valid : Bool
  deriving DecidableEq, Repr

/-- A submission queue served by an agent (13 R278). -/
structure QueueRec where
  ctx : Nat
  agent : Nat
  block : Block
  /-- the ticket taken, when one is held -/
  ticket : Option DWord := none
  serving : Bool := true
  deriving DecidableEq, Repr

/-- A graph run (16 R329). -/
structure RunRec where
  ctx : Nat
  agent : Nat
  /-- the HEAD node; 0 for a headless chain -/
  head : Nat
  node : Nat
  /-- a queue entry's count of done is owed -/
  queue : Option Nat := none
  entry : Option Block := none
  deriving DecidableEq, Repr

/-- A host ring served by its agent (16 R330, R331). -/
structure RingRec where
  ctx : Nat
  agent : Nat
  block : Block
  t : Nat := 0
  pend : Nat := 0
  /-- the cycle at which `pend` left 0 -/
  pendSince : Nat := 0
  serving : Bool := true
  deriving DecidableEq, Repr

/-- A checkpoint interval (14 R302 to R306): the pages as they were at its cut, the on-core state and
binding of each partition role, and the Vigil slots. -/
structure Interval where
  seq : Nat
  /-- 64 KiB page number to its cells at the cut; not listed: not yet staged or streamed -/
  pages : Map (List Host.Cell)
  /-- closed set: 64 KiB pages, and 4 KiB counter pages with bit 40 set (14 R304) -/
  closed : List Nat
  parts : Map SavedPart
  slots : Map VSlot
  /-- CKPT adds owed when it is durable -/
  owed : List (DWord × Word)
  /-- the pages of the closed set as they were at the cut before -/
  pre : Map (List Host.Cell) := []
  /-- units of 64 KiB that it takes in the region beside its pages -/
  extra : Nat := 0
  /-- an uncorrectable error has been found in a page or slot of it (22 R398, R400, R406) -/
  hurt : Bool := false
  /-- what the agents keep of the context: launches, queues, graph runs, rings -/
  launches : Map LaunchRec := []
  queues : Map QueueRec := []
  runs : Map RunRec := []
  rings : Map RingRec := []
  deriving DecidableEq, Repr

/-- A context's Almanac (14 R301 to R306; 22 R397). -/
structure Almanac where
  chain : List Interval := []
  streaming : Option Interval := none
  nextSeq : Nat := 1
  /-- marks: 64 KiB numbers of dirty device-memory pages, 4 KiB numbers of counter pages -/
  dirty : List Nat := []
  dirtyCtr : List Nat := []
  /-- CKPTs that wait for the next close, with the adds that they owe -/
  waiting : List (Option (DWord × Word)) := []
  /-- a close is due -/
  due : Bool := false
  /-- partitions that have not replied to the running CUT -/
  cutting : List Nat := []
  cutParts : Map SavedPart := []
  inCut : Bool := false
  /-- the control block as the last close that could read it found it, once one has -/
  acb : Block := 0
  acbRead : Bool := false
  abandon : Bool := false
  noroom : Bool := false
  nocb : Bool := false
  late : Nat := 0
  /-- marked pages as they were at the last cut -/
  pre : Map (List Host.Cell) := []
  /-- adds of abandoned intervals (22 R398) -/
  carried : List (DWord × Word) := []
  staged : Nat := 0
  cost : DWord := 0
  /-- cycles since the last cut of the partition of its lowest partition role (14 R301) -/
  elapsed : Nat := 0
  deriving DecidableEq, Repr

/-- A context's capture (17 R342). -/
structure Capture where
  live : Bool := false
  trigger : Nat := 0
  counts : Map DWord := []
  dur : Nat := 0
  pre : Nat := 0
  deriving DecidableEq, Repr

/-- A context (23 R415): its registers by offset, and what the device keeps of it. -/
structure Context where
  valid : Bool := false
  stat : BitVec 8 := 0
  reclost : Bool := false
  /-- the RW registers that are plain cells, by offset -/
  regs : Map Word := []
  feat : Word := 0
  lspos : Word := 0
  alm : Almanac := {}
  cap : Capture := {}
  claim : Bool := false
  all : Bool := false
  halt : Bool := false
  dbgErr : Bool := false
  rbStat : BitVec 8 := 0
  /-- images that hold parts of it, by physical address -/
  images : Map SavedPart := []
  /-- replay (17 R345, R346): stopped at a difference, descriptors taken so far, and the log found full -/
  replayStopped : Bool := false
  replayPos : Nat := 0
  logFull : Bool := false
  deriving DecidableEq, Repr

/-- A bias flip engine (16 R322). -/
structure Flip where
  addr : DWord := 0
  ctr : DWord := 0
  dir : Bool := false
  stat : BitVec 8 := 0
  busy : Bool := false
  /-- the flip in progress: its page, its counter, its direction (to device bias) -/
  page : Nat := 0
  home : DWord := 0
  toDev : Bool := false
  /-- lines not yet answered in step 2 to device bias -/
  waiting : List Nat := []
  /-- step 4 is done, and the requests that it released come before the add: the outcome (16 R323) -/
  closing : Option Nat := none
  deriving DecidableEq, Repr

/-- A request that a home holds (16 R323; 14 R304; 07 R127): its event is served again when it is released. -/
structure HeldReq where
  /-- what it waits for: a 4 KiB page; 2^40 + a snooped line; 2^60 + a held counter (`ctrId`) -/
  key : Nat
  ev : Instr
  deriving DecidableEq, Repr

/-- A TLB invalidation request (23 R410). -/
structure TlbReq where
  ctx : Nat
  va : DWord
  len : DWord
  ctr : DWord
  deriving DecidableEq, Repr

/-- A compute die's own registers and counts (13 R286, R288; 17 R344; 23 R412, R413). -/
structure Die where
  eqK : Nat := 8
  eqWaiting : Nat := 0
  /-- core changes that wait for a grant: (core, start) -/
  eqPending : List (Nat × Bool) := []
  abud : Map Word := []
  used : Map Nat := []
  /-- core cycles of the last completed budget period -/
  period : Nat := 0
  vfMax : BitVec 4 := 15
  vfCur : BitVec 4 := 15
  hot : Bool := false
  tlim : BitVec 8 := 95
  evcnt : Map DWord := []
  evsel : Map Word := []
  evctx : Word := 0
  offline : Bool := false
  deriving DecidableEq, Repr

/-- The I/O die and the register block (16; 22; 23). -/
structure Io where
  devsts : BitVec 8 := 0
  /-- plain RW cells of the device block, by offset -/
  regs : Map Word := []
  featAck : Map Word := []
  featDone : Bool := false
  tlbq : List TlbReq := []
  cpgMark : Bool := false
  keys : Map (BitVec 512) := []
  keyStat : BitVec 8 := 0
  keyKid : BitVec 13 := 0
  keyBusy : Bool := false
  keyWk : BitVec 13 := 0
  /-- KEYDATA by index; a WRAP's result can be read -/
  keyData : Map Word := []
  keyOut : Bool := false
  /-- CTX of the VSLOTs of unassigned slots (23 R414) -/
  vslotCtx : Map Word := []
  flips : Map Flip := []
  routes : Map Word := []
  inbound : Map Word := []
  ret : BitVec 16 := 250
  lostCxl : List Nat := []
  lostColmet : List Nat := []
  msix : List Nat := []
  /-- an access of an application core or peer was refused (07 R125; 16 R326), and wakes sent to peers with the value (07
  R129; 16 R325) -/
  accFault : Bool := false
  peerWakes : List (Nat × DWord) := []
  powered : Bool := true
  /-- size of the HDM range as the host's decoder is given it (16 R321), and the capacity of the expander on each port
  2 to 9 (R324) -/
  hdmSize : Nat := 2 ^ 28 * (Config.hdmUnits % 1537)
  tierCaps : Map Nat := (List.range 8).map fun n => (2 + n, (Config.tierCap (2 + n)).toNat)
  deriving DecidableEq, Repr

/-- Boot and self-test (22 R401, R402). -/
structure Boot where
  rmb : Map Byte := []
  rmbcmd : Word := 0
  rmbsts : Word := 0
  /-- a mailbox command is in progress -/
  rmbBusy : Bool := false
  bootsts : Word := 0
  fused : BitVec 16 := 0
  /-- contents of flash slots A and B, by offset -/
  slotA : Map Byte := []
  slotB : Map Byte := []
  /-- BIST records of 16 bytes, oldest first, and how many RESULTS has copied -/
  records : List (BitVec 128) := []
  copied : Nat := 0
  /-- units that BIST took out of service: Vigil banks, application cores, CXL ports, Colmet links -/
  vigilOffline : List Nat := []
  appOffline : List Nat := []
  deadPorts : List Nat := []
  deadLinks : List Nat := []
  deriving DecidableEq, Repr

/-- Uncorrectable errors that stand and have not been found (22 R404): nothing in the model makes one. -/
structure Damage where
  /-- words of memory, by physical address div 4 -/
  words : List Nat := []
  /-- dirty lines of an L1 (false) or L2 (true), by the key of the cache -/
  lines : List (Bool × Nat) := []
  /-- words of a core's arrays: core, UNIT code (R402) and index in the array -/
  arrays : List (Nat × Nat × Nat) := []
  /-- Vigil slots; partitions whose shadow store is damaged; images by address; intervals by context and SEQ -/
  slots : List Nat := []
  shadows : List Nat := []
  images : List Nat := []
  intervals : List (Nat × Nat) := []
  /-- found at a write-back and not yet reported: context and physical address -/
  found : List (Nat × Nat) := []
  deriving DecidableEq, Repr

/-- The Vigil (15 R310). -/
structure Vigil where
  slots : Map VSlot := []
  /-- range i of context h at 64 × h + i -/
  ranges : Map ClassRange := []
  deriving DecidableEq, Repr

end Sys2Proof.Machine
end

