-- ==== Sys2Proof/Machine/State.lean ====
section
/-! DEFINITION. The state of the whole module, as plain data, and its value right after reset. -/

namespace Sys2Proof.Machine

/-- Why a step can stop with a fault. -/
inductive Fault where
  /-- Raised by an event whose operand names a core, partition, die, quad, lane or other unit that the module does
  not have (01 R11). Safe: the manual gives no such event. -/
  | noSuchUnit
  deriving DecidableEq, Repr

/-- Why a step can be refused. -/
inductive Refusal where
  /-- Raised for an instruction that has no meaning in the model. Safe: nothing is said of it. -/
  | notModelled (mnemonic : String)
  deriving DecidableEq, Repr

/-- An instruction chosen in the running issue cycle (02 R24) and not yet executed. -/
structure IssueSlot where
  core : Nat
  slot : Nat
  lanes : Mask
  pc : Word
  /-- MODE at the issue cycle (03 R49; 11 R227) -/
  mode : Word
  /-- SPNTMR at the issue cycle (11 R227) -/
  spntmr : Word := 2048#32
  /-- the second instruction of a pair -/
  second : Bool := false
  deriving DecidableEq, Repr

/-- The instruction that is being executed: where it was issued and what its unit says (08 R141). -/
structure Issue where
  core : Nat := 0
  slot : Nat := 0
  /-- the Active set -/
  lanes : Mask := 0
  pc : Word := 0
  mode : Word := 0
  spntmr : Word := 2048#32
  second : Bool := false
  /-- the instruction has been put off: it has not issued (20 R365) -/
  off : Bool := false
  /-- of the first instruction of the pair: it was put off, and it trapped (20 R365) -/
  firstOff : Bool := false
  firstTrapped : Bool := false
  word : Word := 0
  /-- words of the unit before the instruction's own word -/
  pos : Nat := 0
  lit : Option Word := none
  /-- repeats and step mask -/
  rep : Option (Nat × BitVec 3) := none
  deriving DecidableEq, Repr

/-- The state of a KG-768-L. Cores are numbered die × 192 + partition × 24 + core, partitions die × 8 +
partition, L2 slices die × 64 + slice. -/
structure State where
  /-- physical memory (05 R72): addresses rising, no byte that is 0 -/
  mem : List Host.Cell := []
  cores : Map Core := []
  parts : Map Part := []
  dies : Map Die := []
  ctxs : Map Context := []
  launches : Map LaunchRec := []
  nextLaunch : Nat := 0
  /-- lines of core c at 2^41 × c + line, and of die d's L2 (05 R86, R90) -/
  l1 : Map Line := []
  l2 : Map Line := []
  /-- cached translations of die d, at (d × 1024 + context) × 2^45 + VA[56:12] (05 R77) -/
  tlb : Map TlbEntry := []
  /-- waiter lists of the L2 slices, and watch bits (line, core) (07 R129, R130) -/
  waiters : Map (List Waiter) := []
  watches : List (Nat × Nat) := []
  /-- requests in flight -/
  reqs : Map MemReq := []
  ctrOps : Map CtrOp := []
  vreqs : Map VigilReq := []
  nextReq : Nat := 0
  /-- pages in host bias, being flipped, and counter pages, by 4 KiB page number (16 R321, R323; 07 R128) -/
  hostBias : List Nat := []
  flipping : List Nat := []
  ctrPages : List Nat := []
  held : List HeldReq := []
  /-- lines for which a BISnp is outstanding, and (line, invalidating) (16 R321) -/
  snoops : List (Nat × Bool) := []
  /-- lines of host-bias pages that the host may hold dirty, and those that it may hold clean (16 R321) -/
  hostLines : List Nat := []
  hostClean : List Nat := []
  /-- lines of host-bias pages whose BISnp the host has answered since it was last served the line, and whether it was
  BISnpInv (16 R321) -/
  snooped : List (Nat × Bool) := []
  /-- lines that lost their home (21 R389): physical line and contents -/
  stranded : Map Line := []
  /-- counters that a CADDV holds (07 R127): physical address or file number as in `Waiter.ctr`, and operation -/
  ctrHeld : List (Nat × Nat) := []
  /-- uncorrectable errors (22 R404) -/
  damage : Damage := {}
  /-- what an access of the running event waits for at its home, and whether it writes (16 R321, R323) -/
  blocked : Option (Nat × Bool) := none
  vigil : Vigil := {}
  io : Io := {}
  boot : Boot := {}
  gangs : Map Gang := []
  nextGang : Nat := 0
  gtk : DWord := 0
  gsv : DWord := 0
  queues : Map QueueRec := []
  runs : Map RunRec := []
  rings : Map RingRec := []
  nextRun : Nat := 0
  /-- events posted and not yet happened, oldest first -/
  agenda : List Instr := []
  /-- instructions chosen in the running issue cycle -/
  issuing : List IssueSlot := []
  cur : Issue := {}
  /-- the core and quad whose issue cycle is next -/
  turnCore : Nat := 0
  turnQuad : Nat := 0
  /-- index of the next free value -/
  free : Nat := 0
  /-- what the last read of a register-block cell or host read returned -/
  reply : BitVec 512 := 0
  deriving DecidableEq, Repr

/-- The module right after reset: every field at the value the manual gives; where it gives none, at the
value that the assumption log names (notes 1 to 6, 20). -/
def State.reset : State := {}

end Sys2Proof.Machine
end

