-- ==== Sys2Proof/Machine/Access.lean ====
section
/-! DEFINITION. Reading and changing the parts of the state: cores, warps, lanes, registers, contexts;
posting events; free values. Every other operation goes through these. -/

namespace Sys2Proof.Machine

/-- The firmware slot of a core (01 R14). -/
def fwSlot : Nat := 32

/-- Units that exist (01 R11). -/
def coreOk (c : Nat) : Bool := c < 768
def partOk (p : Nat) : Bool := p < 32
def dieOk (d : Nat) : Bool := d < 4

/-- Places of a core and of a partition. -/
def dieOfCore (c : Nat) : Nat := c / 192
def partOfCore (c : Nat) : Nat := c / 24
def dieOfPart (p : Nat) : Nat := p / 8
/-- Cores of a partition, ascending. -/
def coresOf (p : Nat) : List Nat := (List.range 24).map (24 * p + ·)

namespace State

def core (s : State) (c : Nat) : Core := s.cores.get {} c
def updCore (s : State) (c : Nat) (f : Core → Core) : State := { s with cores := s.cores.upd {} c f }
def cc (s : State) (c : Nat) : CoreCtx := (s.core c).cc
def updCc (s : State) (c : Nat) (f : CoreCtx → CoreCtx) : State :=
  s.updCore c fun x => { x with cc := f x.cc }

/-- The warp in a slot of a core; the firmware slot's warp stands outside the context (01 R14). -/
def warp (s : State) (c k : Nat) : Warp := if k = fwSlot then (s.core c).fw else (s.cc c).warps.get {} k
def updWarp (s : State) (c k : Nat) (f : Warp → Warp) : State :=
  if k = fwSlot then s.updCore c fun x => { x with fw := f x.fw }
  else s.updCc c fun x => { x with warps := x.warps.upd {} k f }

def part (s : State) (p : Nat) : Part := s.parts.get {} p
def updPart (s : State) (p : Nat) (f : Part → Part) : State := { s with parts := s.parts.upd {} p f }
def die (s : State) (d : Nat) : Die := s.dies.get {} d
def updDie (s : State) (d : Nat) (f : Die → Die) : State := { s with dies := s.dies.upd {} d f }
def ctx (s : State) (h : Nat) : Context := s.ctxs.get {} h
def updCtx (s : State) (h : Nat) (f : Context → Context) : State := { s with ctxs := s.ctxs.upd {} h f }
def updAlm (s : State) (h : Nat) (f : Almanac → Almanac) : State :=
  s.updCtx h fun x => { x with alm := f x.alm }
def updIo (s : State) (f : Io → Io) : State := { s with io := f s.io }

/-- Post an event behind those already posted. -/
def post (s : State) (e : Instr) : State := { s with agenda := s.agenda ++ [e] }
def postAll (s : State) (es : List Instr) : State := { s with agenda := s.agenda ++ es }
/-- Post an event that falls due `n` cycles of core `c` from now. -/
def postAfter (s : State) (c n : Nat) (e : Instr) : State :=
  if n = 0 then s.post e else s.updCore c fun x => { x with timers := x.timers ++ [(x.cyc + n, e)] }

/-- A free value: nothing constrains it. -/
def fresh (s : State) : Word × State := (Config.freeWord s.free, { s with free := s.free + 1 })

/-- Bytes that are free values. -/
def freshBytes (s : State) (n : Nat) : List Byte × State :=
  ((List.range n).map fun i => (Config.freeWord (s.free + i)).extractLsb' 0 8, { s with free := s.free + n })

/-- A new request number. -/
def newReq (s : State) : Nat × State := (s.nextReq, { s with nextReq := s.nextReq + 1 })

/-- The context whose code a slot runs. -/
def ctxOf (s : State) (c k : Nat) : Nat := (s.warp c k).ctx

/-- Set DEVSTS bits (23 R411). -/
def setDevsts (s : State) (b : Nat) : State :=
  s.updIo fun x => { x with devsts := x.devsts ||| (1#8 <<< b) }

end State

namespace Context

/-- A register of the context by offset: 32 bits, and a pair as 64 (23 R407, R415). -/
def reg (x : Context) (o : Nat) : Word := x.regs.get 0 o
def reg64 (x : Context) (o : Nat) : DWord := pairOf (x.reg o) (x.reg (o + 4))
def ptroot (x : Context) : Nat := (x.reg64 0x008).toNat
def frtbase (x : Context) : DWord := x.reg64 0x010
def codebase (x : Context) : DWord := x.reg64 0x018
def kidreg (x : Context) : Nat := bitsOf (x.reg 0x020).toNat 12 0
def almcb (x : Context) : DWord := x.reg64 0x028
def trcb (x : Context) : DWord := x.reg64 0x030
def rpcb (x : Context) : DWord := x.reg64 0x038
def lsa (x : Context) : DWord := x.reg64 0x040
def refctr (x : Context) : DWord := x.reg64 0x048
def fltctr (x : Context) : DWord := x.reg64 0x050
def svctab (x : Context) : DWord := x.reg64 0x058
def evarea (x : Context) : DWord := x.reg64 0x060
def capctl (x : Context) : Word := x.reg 0x078
def capsel (x : Context) : Word := x.reg 0x07C
def stoprgn (x : Context) (i : Nat) : Word := x.reg (0x090 + 4 * i)
def dbgsel (x : Context) : Word := x.reg 0x0A0
def dbgitem (x : Context) : Word := x.reg 0x0A4
def rbint (x : Context) : Nat := (x.reg 0x0B4).toNat
def rbtab (x : Context) : Nat := (x.reg64 0x0B8).toNat
def rbctr (x : Context) : DWord := x.reg64 0x0C0
/-- A feature accepted when the context was created (16 R332). -/
def hasFeat (x : Context) (b : Nat) : Bool := x.feat.getLsbD b

end Context

/-- Feature bits (16 R332). -/
def featHmem : Nat := 0
def featHdm : Nat := 1
def featTier : Nat := 2
def featPeer : Nat := 3
def featVigil : Nat := 4
def featAlm : Nat := 5
def featTrace : Nat := 6
def featSvc : Nat := 7

namespace Warp

def lane (w : Warp) (l : Nat) : Lane := w.lanes.get {} l
def updLane (w : Warp) (l : Nat) (f : Lane → Lane) : Warp := { w with lanes := w.lanes.upd {} l f }
def updLanes (w : Warp) (m : Mask) (f : Nat → Lane → Lane) : Warp :=
  (lanesOf m).foldl (fun w l => w.updLane l (f l)) w
def updUni (w : Warp) (f : WarpUni → WarpUni) : Warp := { w with uni := f w.uni }
def updSched (w : Warp) (f : WarpSched → WarpSched) : Warp := { w with sched := f w.sched }
def updTrap (w : Warp) (f : TrapState → TrapState) : Warp := { w with trap := f w.trap }

/-- The lanes in a state. -/
def lanesIn (w : Warp) (st : LaneState) : Mask := maskOf fun l => (w.lane l).state = st
/-- Has every lane exited? (02 R22) -/
def ended (w : Warp) : Bool := w.lanesIn .exited = BitVec.allOnes 32

/-- A lane register or predicate as its file holds it now. -/
def v (w : Warp) (n l : Nat) : Word := w.lreg.get 0 (n * 32 + l)
def setV (w : Warp) (n l : Nat) (x : Word) : Warp := { w with lreg := w.lreg.set (n * 32 + l) x }
def p (w : Warp) (n l : Nat) : Bool := (w.preds.get 0 n).getLsbD l
def setP (w : Warp) (n l : Nat) (b : Bool) : Warp :=
  { w with preds := w.preds.upd 0 n fun m => if b then m ||| (1#32 <<< l) else m &&& ~~~(1#32 <<< l) }
def s (w : Warp) (n : Nat) : Word := w.uni.s.get 0 n
def s64 (w : Warp) (n : Nat) : DWord := pairOf (w.s n) (w.s (n + 1))
def setS (w : Warp) (n : Nat) (x : Word) : Warp := w.updUni fun u => { u with s := u.s.set n x }
def sp (w : Warp) (n : Nat) : Bool := w.uni.sp.getLsbD n
def setSp (w : Warp) (n : Nat) (b : Bool) : Warp :=
  w.updUni fun u => { u with sp := if b then u.sp ||| (1#4 <<< n) else u.sp &&& ~~~(1#4 <<< n) }

/-- Is logical block b mapped? (03 R44) -/
def mapped (w : Warp) (b : Nat) : Bool := (w.blocks.find b).isSome
/-- BLKMAP (03 R50). -/
def blkmap (w : Warp) : Nat := (List.range 7).foldl (fun m b => if w.mapped b then m + 2 ^ b else m) 0
/-- Clear the registers of a logical block (03 R44: a new block reads 0). -/
def clearBlock (w : Warp) (b : Nat) : Warp :=
  { w with lreg := w.lreg.filter fun e => !(512 * b ≤ e.1 && e.1 < 512 * (b + 1)) }

/-- The four top region ids, the top in the low bits (17 R333). -/
def rgns (w : Warp) : BitVec 64 :=
  let g (i : Nat) : BitVec 16 := w.uni.regions.getD i 0
  g 3 ++ g 2 ++ g 1 ++ g 0
/-- The top region id; 0 where the stack is empty (02 R40). -/
def topRegion (w : Warp) : BitVec 16 := w.uni.regions.headD 0

end Warp

/-- The operation's name in scoreboard and lock tables: the issuing core and its number there. -/
def opKey (core num : Nat) : Nat := core * 2 ^ 32 + num

end Sys2Proof.Machine
end

