-- ==== Sys2Proof/Machine/Crypto.lean ====
section
/-! DEFINITION. The ciphers and the digest that the manual names: AES-256 in XTS mode over 128-byte lines
(05 R91), the AES key wrap of NIST SP 800-38F (05 R93) and SHAKE256 (17 R345). -/

namespace Sys2Proof.Machine

/-- The AES substitution and its inverse, entry i in byte i. -/
def aesSbox : BitVec 2048 :=
  0x16bb54b00f2d99416842e6bf0d89a18cdf2855cee9871e9b948ed9691198f8e19e1dc186b95735610ef6034866b53e708a8bbd4b1f74dde8c6b4a61c2e2578ba08ae7a65eaf4566ca94ed58d6d37c8e779e4959162acd3c25c2406490a3a32e0db0b5ede14b8ee4688902a22dc4f816073195d643d7ea7c41744975fec130ccdd2f3ff1021dab6bcf5389d928f40a351a89f3c507f02f94585334d43fbaaefd0cf584c4a39becb6a5bb1fc20ed00d153842fe329b3d63b52a05a6e1b1a2c830975b227ebe28012079a059618c323c7041531d871f1e5a534ccf73f362693fdb7c072a49cafa2d4adf04759fa7dc982ca76abd7fe2b670130c56f6bf27b777c63#2048
def aesInvSbox : BitVec 2048 :=
  0x7d0c2155631469e126d677ba7e042b17619953833cbbebc8b0f52aae4d3be0a0ef9cc9939f7ae52d0d4ab519a97f51605fec8027591012b131c7078833a8dd1ff45acd78fec0db9a2079d2c64b3e56fc1bbe18aa0e62b76f89c5291d711af1476edf751ce837f9e28535ade72274ac9673e6b4f0cecff297eadc674f4111913a6b8a130103bdafc1020f3fca8f1e2cd00645b3b80558e4f70ad3bc8c00abd890849d8da75746155edab9edfd5048706c92b6655dcc5ca4d41698688664f6f87225d18b6d49a25b76b224d92866a12e084ec3fa420b954cee3d23c2a632947b54cbe9dec444438e3487ff2f9b8239e37cfbd7f3819ea340bf38a53630d56a0952#2048

def subByte (b : Byte) : Byte := aesSbox.extractLsb' (8 * b.toNat) 8
def invSubByte (b : Byte) : Byte := aesInvSbox.extractLsb' (8 * b.toNat) 8
/-- Multiply by x in the AES field. -/
def xtime (b : Byte) : Byte := if b.getLsbD 7 then (b <<< 1) ^^^ 0x1b#8 else b <<< 1
/-- The product with a small constant of the field. -/
def gmul (b : Byte) (k : Nat) : Byte :=
  let b2 := xtime b
  let b4 := xtime b2
  let b8 := xtime b4
  (if k.testBit 0 then b else 0) ^^^ (if k.testBit 1 then b2 else 0) ^^^
    (if k.testBit 2 then b4 else 0) ^^^ (if k.testBit 3 then b8 else 0)

def xorBytes (a b : List Byte) : List Byte := a.zipWith (· ^^^ ·) b

/-- The next words of the AES-256 key schedule: `ws` holds the last eight words, newest first. -/
def keyStep (i : Nat) (rcon : Byte) (ws : List (List Byte)) : List Byte :=
  let t := ws.headD []
  let t' := if i % 8 = 0 then
      xorBytes ((t.drop 1 ++ t.take 1).map subByte) [rcon, 0, 0, 0]
    else if i % 8 = 4 then t.map subByte else t
  xorBytes (ws.getD 7 []) t'

def keyGo : Nat → Nat → Byte → List (List Byte) → List (List Byte)
  | 0, _, _, ws => ws
  | n + 1, i, rcon, ws =>
    keyGo n (i + 1) (if i % 8 = 0 then xtime rcon else rcon) (keyStep i rcon ws :: ws)

/-- A list cut into runs of `k`. -/
def chunks (k : Nat) : Nat → List Byte → List (List Byte)
  | 0, _ => []
  | n + 1, l => l.take k :: chunks k n (l.drop k)

/-- The fifteen round keys of a 32-byte key. -/
def roundKeys (key : List Byte) : List (List Byte) :=
  let ws := (keyGo 52 8 1#8 (chunks 4 8 key).reverse).reverse
  (List.range 15).map fun r => ((ws.drop (4 * r)).take 4).flatten

/-- Row shift: byte r + 4c of the result is byte r + 4((c + r) mod 4). -/
def shiftRows (b : List Byte) : List Byte :=
  (List.range 16).map fun i => b.getD (i % 4 + 4 * ((i / 4 + i % 4) % 4)) 0
def invShiftRows (b : List Byte) : List Byte :=
  (List.range 16).map fun i => b.getD (i % 4 + 4 * ((i / 4 + 4 - i % 4) % 4)) 0

/-- A column mix with the row of constants `k`. -/
def mixWith (k : List Nat) (b : List Byte) : List Byte :=
  (List.range 16).map fun i =>
    (List.range 4).foldl (fun x j => x ^^^ gmul (b.getD (4 * (i / 4) + j) 0) (k.getD ((j + 4 - i % 4) % 4) 0)) 0

def aesEncrypt (key block : List Byte) : List Byte :=
  let ks := roundKeys key
  let s0 := xorBytes block (ks.headD [])
  let s := ((ks.drop 1).take 13).foldl
    (fun s k => xorBytes (mixWith [2, 3, 1, 1] (shiftRows (s.map subByte))) k) s0
  xorBytes (shiftRows (s.map subByte)) (ks.getD 14 [])

def aesDecrypt (key block : List Byte) : List Byte :=
  let ks := roundKeys key
  let s0 := (invShiftRows (xorBytes block (ks.getD 14 []))).map invSubByte
  let s := ((ks.drop 1).take 13).reverse.foldl
    (fun s k => (invShiftRows (mixWith [14, 11, 13, 9] (xorBytes s k))).map invSubByte) s0
  xorBytes s (ks.headD [])

/-- The next tweak of XTS: multiplication by the primitive element, bytes little-endian. -/
def xtsDouble (t : List Byte) : List Byte :=
  let x := leNat t
  leBytes 16 (if x.testBit 127 then ((2 * x) % 2 ^ 128) ^^^ 0x87 else 2 * x)

def xtsGo (f : List Byte → List Byte) : List (List Byte) → List Byte → List Byte
  | [], _ => []
  | b :: bs, t => xorBytes (f (xorBytes b t)) t ++ xtsGo f bs (xtsDouble t)

/-- The bytes of a key: data key first (05 R93). -/
def keyBytes (k : BitVec 512) : List Byte := leBytes 64 k.toNat

/-- A line in memory from its plain bytes, and back (05 R91): tweak physical address [47:7]. -/
def xtsEncrypt (k : BitVec 512) (line : Nat) (b : List Byte) : List Byte :=
  let kb := keyBytes k
  xtsGo (aesEncrypt (kb.take 32)) (chunks 16 8 b) (aesEncrypt (kb.drop 32) (leBytes 16 line))
def xtsDecrypt (k : BitVec 512) (line : Nat) (b : List Byte) : List Byte :=
  let kb := keyBytes k
  xtsGo (aesDecrypt (kb.take 32)) (chunks 16 8 b) (aesEncrypt (kb.drop 32) (leBytes 16 line))

/-- One step of the key wrap: A and the registers, step number t. -/
def kwStep (kek : List Byte) (t i : Nat) (a : List Byte) (r : List (List Byte)) : List Byte × List (List Byte) :=
  let b := aesEncrypt kek (a ++ r.getD i [])
  (xorBytes (b.take 8) (leBytes 8 t).reverse, r.set i (b.drop 8))
def kwUnstep (kek : List Byte) (t i : Nat) (a : List Byte) (r : List (List Byte)) : List Byte × List (List Byte) :=
  let b := aesDecrypt kek (xorBytes a (leBytes 8 t).reverse ++ r.getD i [])
  (b.take 8, r.set i (b.drop 8))

/-- Wrap 64 bytes into 72, and back with the integrity value that comes out. -/
def kwWrap (kek p : List Byte) : List Byte :=
  let (a, r) := (List.range 48).foldl (fun (x : List Byte × List (List Byte)) t =>
    kwStep kek (t + 1) (t % 8) x.1 x.2) (List.replicate 8 0xA6#8, chunks 8 8 p)
  a ++ r.flatten
def kwUnwrap (kek c : List Byte) : Option (List Byte) :=
  let (a, r) := (List.range 48).foldl (fun (x : List Byte × List (List Byte)) t =>
    kwUnstep kek (48 - t) ((47 - t) % 8) x.1 x.2) (c.take 8, chunks 8 8 (c.drop 8))
  if a = List.replicate 8 0xA6#8 then some r.flatten else none

/-- Keccak: rotation amounts of lane x + 5y and the round constants. -/
def keccakRot : List Nat := [0, 1, 62, 28, 27, 36, 44, 6, 55, 20, 3, 10, 43, 25, 39, 41, 45, 15, 21, 8, 18, 2, 61, 56, 14]
def keccakRc : List DWord := [
  0x1#64, 0x8082#64, 0x800000000000808a#64, 0x8000000080008000#64,
  0x808b#64, 0x80000001#64, 0x8000000080008081#64, 0x8000000000008009#64,
  0x8a#64, 0x88#64, 0x80008009#64, 0x8000000a#64,
  0x8000808b#64, 0x800000000000008b#64, 0x8000000000008089#64, 0x8000000000008003#64,
  0x8000000000008002#64, 0x8000000000000080#64, 0x800a#64, 0x800000008000000a#64,
  0x8000000080008081#64, 0x8000000000008080#64, 0x80000001#64, 0x8000000080008008#64]

/-- One round on 25 lanes. -/
def keccakRound (a : List DWord) (rc : DWord) : List DWord :=
  let at' (l : List DWord) (i : Nat) : DWord := l.getD i 0
  let c := (List.range 5).map fun x => at' a x ^^^ at' a (x + 5) ^^^ at' a (x + 10) ^^^ at' a (x + 15) ^^^ at' a (x + 20)
  let d := (List.range 5).map fun x => at' c ((x + 4) % 5) ^^^ (at' c ((x + 1) % 5)).rotateLeft 1
  let t := (List.range 25).map fun i => at' a i ^^^ at' d (i % 5)
  -- lane (x, y) goes to (y, 2x + 3y): lane (x', y') comes from x = x' + 3y', y = x'
  let b := (List.range 25).map fun i =>
    let x := (i % 5 + 3 * (i / 5)) % 5
    let j := x + 5 * (i % 5)
    (at' t j).rotateLeft (keccakRot.getD j 0)
  let e := (List.range 25).map fun i =>
    at' b i ^^^ (~~~(at' b ((i + 1) % 5 + 5 * (i / 5))) &&& at' b ((i + 2) % 5 + 5 * (i / 5)))
  match e with
  | [] => []
  | x :: xs => (x ^^^ rc) :: xs

def keccakF (a : List DWord) : List DWord := keccakRc.foldl keccakRound a

/-- Absorb one block of 136 bytes. -/
def absorb (a : List DWord) (b : List Byte) : List DWord :=
  keccakF ((List.range 25).map fun i =>
    a.getD i 0 ^^^ BitVec.ofNat 64 (leNat ((b.drop (8 * i)).take (min 8 (136 - 8 * i)))))

def absorbGo : Nat → List DWord → List Byte → List DWord
  | 0, a, _ => a
  | n + 1, a, b => absorbGo n (absorb a (b.take 136)) (b.drop 136)

/-- The SHAKE256 digest of 32 bytes. -/
def shake256 (m : List Byte) : List Byte :=
  let n := m.length / 136 + 1
  let padLen := n * 136 - m.length
  let pad := if padLen = 1 then [0x9F#8] else 0x1F#8 :: List.replicate (padLen - 2) 0#8 ++ [0x80#8]
  let a := absorbGo n (List.replicate 25 0#64) (m ++ pad)
  ((a.take 4).map fun x => leBytes 8 x.toNat).flatten

end Sys2Proof.Machine
end

