-- ==== Sys2Proof/Machine/Mem.lean ====
section
/-! DEFINITION. Physical memory and the caches (05 R72, R86 to R91, R94): the canonical list of bytes, the
lines of L1 and L2, and the reads and writes that act on them. -/

namespace Sys2Proof.Machine

/-- What an address that the list does not hold reads as (DESIGN CHOICE: note 1). -/
def unlisted : Byte := 0

/-- Read one byte of memory. -/
def memGet : List Host.Cell → Nat → Byte
  | [], _ => unlisted
  | (a, b) :: m, x => if a = x then b else memGet m x

/-- Write one byte, keeping the addresses rising and no entry equal to `unlisted`. -/
def memSet : List Host.Cell → Nat → Byte → List Host.Cell
  | [], x, y => if y = unlisted then [] else [(x, y)]
  | (a, b) :: m, x, y =>
    if x < a then (if y = unlisted then (a, b) :: m else (x, y) :: (a, b) :: m)
    else if x = a then (if y = unlisted then m else (x, y) :: m)
    else (a, b) :: memSet m x y

/-- The canonical form: addresses strictly rising, no entry equal to `unlisted`. -/
def Memory.wf : List Host.Cell → Bool
  | [] => true
  | [(_, b)] => b != unlisted
  | (a, b) :: (a', b') :: m => b != unlisted && a < a' && Memory.wf ((a', b') :: m)

def memGets (m : List Host.Cell) (a : Nat) : Nat → List Byte
  | 0 => []
  | n + 1 => memGet m a :: memGets m (a + 1) n
def memSets (m : List Host.Cell) (a : Nat) : List Byte → List Host.Cell
  | [] => m
  | b :: bs => memSets (memSet m a b) (a + 1) bs

/-- The size of a die's region, and the end of device memory (01 R13; 05 R72). -/
def dieRegion : Nat := 0x1800000000
def deviceEnd : Nat := 0x6000000000
def isDevice (pa : Nat) : Bool := pa < 2 ^ 46
def isHost (pa : Nat) : Bool := pa / 2 ^ 46 = 1
def isTier (pa : Nat) : Bool := pa / 2 ^ 46 = 2
def isPeer (pa : Nat) : Bool := pa / 2 ^ 46 = 3
/-- The peer named by a peer address. -/
def peerOf (pa : Nat) : Nat := bitsOf pa 45 40
/-- Populated device memory that names an 8-byte counter (14 R292; 16 R322). -/
def populated8 (a : DWord) : Bool := a.toNat < deviceEnd && a.toNat % 8 = 0

/-- The die whose L2 caches an address for a requester (05 R90; 01 R13). -/
def homeDie (pa reqDie : Nat) : Nat := if isDevice pa then pa / dieRegion else reqDie
/-- The 256-byte unit of an address (05 R94). -/
def unitOf (pa : Nat) : Nat := if isDevice pa then (pa % dieRegion) / 256 else bitsOf pa 45 8
/-- The slice that serves an address (05 R94). -/
def sliceOf (pa : Nat) : Nat := (bitsOf (unitOf pa) 5 0) ^^^ (bitsOf (unitOf pa) 11 6)
/-- The pseudo-channel of its die on which a device address lies, its stack and its channel (05 R94). -/
def pseudoChannelOf (pa : Nat) : Nat := unitOf pa % 320
def stackOf (pa : Nat) : Nat := 2 * (pa / dieRegion) + pseudoChannelOf pa / 160
def channelOf (pa : Nat) : Nat := pseudoChannelOf pa % 160
/-- Where a counter's waiter list stands: home die and slice, or a peer's slice (07 R129). -/
def sliceKey (pa reqDie : Nat) : Nat :=
  if isPeer pa then 256 + peerOf pa * 64 + sliceOf pa else homeDie pa reqDie * 64 + sliceOf pa

def lineOf (pa : Nat) : Nat := pa / 128
def lineKey (unit line : Nat) : Nat := unit * 2 ^ 41 + line
/-- The set of an L1 that holds a line, and the slice and set of an L2 (05 R86). -/
def l1Set (line : Nat) : Nat := line % 128
def l2Set (line : Nat) : Nat × Nat := (sliceOf (128 * line), line % 2 + 2 * bitsOf (unitOf (128 * line)) 13 6)

/-- Byte j of a line's data. -/
def lineByte (d : BitVec 1024) (j : Nat) : Byte := d.extractLsb' (8 * j) 8
def setLineByte (d : BitVec 1024) (j : Nat) (b : Byte) : BitVec 1024 :=
  (d &&& ~~~((0xFF#1024) <<< (8 * j))) ||| (b.setWidth 1024 <<< (8 * j))
def lineBytes (d : BitVec 1024) (o n : Nat) : List Byte := (List.range n).map fun j => lineByte d (o + j)
def setLineBytes (d : BitVec 1024) (o : Nat) : List Byte → BitVec 1024
  | [] => d
  | b :: bs => setLineBytes (setLineByte d o b) (o + 1) bs
/-- All 32 bits of the words of a mask. -/
def spread (m : BitVec 32) : BitVec 1024 :=
  (lanesOf m).foldl (fun d w => d ||| ((0xFFFFFFFF#1024) <<< (32 * w))) 0
/-- The words that bytes [o, o + n) of a line touch, and those they cover whole. -/
def wordsOf (o n : Nat) : BitVec 32 := maskOf fun w => decide (4 * w < o + n ∧ o < 4 * w + 4)
def wordsWhole (o n : Nat) : BitVec 32 := maskOf fun w => decide (o ≤ 4 * w ∧ 4 * w + 4 ≤ o + n)
/-- The sectors of a set of words (05 R86). -/
def sectors (m : BitVec 32) : BitVec 32 :=
  maskOf fun w => decide ((m >>> (8 * (w / 8))) &&& 0xFF#32 ≠ 0#32)

/-- A merging fill (05 R87): fetched words replace only invalid words. -/
def Line.fill (l : Line) (m : BitVec 32) (d : BitVec 1024) : Line :=
  let n := m &&& ~~~l.valid
  { l with data := (l.data &&& ~~~spread n) ||| (d &&& spread n), valid := l.valid ||| n }
/-- A store into a line whose partly written words are valid. -/
def Line.store (l : Line) (o : Nat) (bs : List Byte) (owner : Nat) : Line :=
  let w := wordsOf o bs.length
  { l with data := setLineBytes l.data o bs, valid := l.valid ||| w, dirty := l.dirty ||| w, owner := owner }

/-- Budget registers (13 R288): the key of what waits for the next period. -/
def budgetKey (d i : Nat) : Nat := 2 ^ 61 + 16 * d + i

namespace State

/-- The tier's enabled ports (16 R324), and the bytes that each gives: the capacity of the smallest enabled expander. -/
def tierPorts (s : State) : List Nat :=
  ((List.range 8).filter fun n => (s.io.regs.get 0 0x048).getLsbD n).map (2 + ·)
def tierShare (s : State) : Nat :=
  match s.tierPorts with
  | [] => 0
  | p :: ps => ps.foldl (fun m q => min m (s.io.tierCaps.get 0 q)) (s.io.tierCaps.get 0 p)
def tierSize (s : State) : Nat := s.tierPorts.length * s.tierShare
/-- The port that serves a tier offset, and its address at the expander (16 R324). -/
def tierPort (s : State) (o : Nat) : Nat := s.tierPorts.getD (o / 4096 % s.tierPorts.length) 0
def tierAddr (s : State) (o : Nat) : Nat := o / 4096 / s.tierPorts.length * 4096 + o % 4096
/-- The line of `mem` that holds a line: a tier line stands where its expander holds it, 2^43 bytes for each port. -/
def memLine (s : State) (line : Nat) : Nat :=
  if !isTier (128 * line) then line else
  let o := 128 * line % 2 ^ 46
  (2 ^ 47 + (s.tierPort o - 2) * 2 ^ 43 + s.tierAddr o % 2 ^ 43) / 128

def memBytes (s : State) (a n : Nat) : List Byte := memGets s.mem a n
def setMemBytes (s : State) (a : Nat) (bs : List Byte) : State := { s with mem := memSets s.mem a bs }

/-- The words of a line that hold an uncorrectable error in memory (22 R404). -/
def badInMemory (s : State) (line : Nat) : BitVec 32 :=
  if s.damage.words.isEmpty then 0 else maskOf fun w => s.damage.words.contains (32 * line + w)

/-- The plain data of a line of memory under a key ID (05 R91), its damaged words as all ones (22 R404). -/
def readLine (s : State) (kid line : Nat) : BitVec 1024 :=
  let raw := s.memBytes (s.memLine line * 128) 128
  let b := match (if kid = 0 then none else s.io.keys.find kid) with
    | some k => xtsDecrypt k line raw
    | none => raw
  BitVec.ofNat 1024 (leNat b) ||| spread (s.badInMemory line)

/-! ## Event counters (17 R342, R344) -/

/-- Sources whose unit depends on what the model leaves out: bank conflicts, DRAM and fabric traffic, corrected errors. A
counter of one holds a free value (DESIGN CHOICE: note 91). -/
def unmeasured (src : Nat) : Bool := [0x0A, 0x44, 0x45, 0x47].contains src

/-- A counter with `n` more; counters saturate. -/
def countUp (m : Map DWord) (i n : Nat) : Map DWord := m.set i (BitVec.ofNat 64 (min (2 ^ 64 - 1) ((m.get 0 i).toNat + n)))

/-- Count `n` of a core source (17 R342, R344) in the core's event counters and the context's open capture. -/
def countEv (s : State) (c src n : Nat) : State :=
  let x := s.core c
  let ev := (List.range 16).foldl (fun (m : Map DWord) i =>
    let e := x.evsel.get 0 i
    if e.getLsbD 8 && bitsOf e.toNat 7 0 = src && (!e.getLsbD 9 || (s.die (dieOfCore c)).evctx = BitVec.ofNat 32 x.cc.ctx) then
      countUp m i n
    else m) x.evcnt
  let s := if x.evsel.isEmpty then s else s.updCore c fun x => { x with evcnt := ev }
  let cx := s.ctx x.cc.ctx
  if !cx.cap.live then s else
  s.updCtx x.cc.ctx fun y => { y with cap := { y.cap with
    counts := (List.range 4).foldl (fun m i =>
      if bitsOf cx.capsel.toNat (8 * i + 7) (8 * i) = src then countUp m i n else m) y.cap.counts } }

/-- Count one of a die source in the die's event counters. -/
def countDie (s : State) (d src : Nat) : State :=
  let x := s.die d
  if x.evsel.isEmpty then s else
  let ev := (List.range 32).foldl (fun (m : Map DWord) i =>
    let e := x.evsel.get 0 i
    if e.getLsbD 8 && bitsOf e.toNat 7 0 = src then countUp m i 1 else m) x.evcnt
  s.updDie d fun y => { y with evcnt := ev }

/-! ## Lines -/

/-- Write the words of a mask of a line to memory (05 R87, R91). -/
def writeLine (s : State) (kid line : Nat) (m : BitVec 32) (d : BitVec 1024) : State :=
  if m = 0#32 then s else
  let old := s.readLine kid line
  let new := (old &&& ~~~spread m) ||| (d &&& spread m)
  let b := leBytes 128 new.toNat
  let s := s.setMemBytes (s.memLine line * 128) (match (if kid = 0 then none else s.io.keys.find kid) with
    | some k => xtsEncrypt k line b
    | none => b)
  if s.damage.words.isEmpty then s else
  { s with damage := { s.damage with words := s.damage.words.filter fun x => !(x / 32 = line && m.getLsbD (x % 32)) } }

/-- Write the dirty words of a cached line to memory; of a damaged line the write-back is not made (22 R404). -/
def writeBack (s : State) (key line : Nat) (l : Line) : State :=
  if l.dirty != 0#32 && s.damage.lines.contains (true, key) then
    { s with damage := { s.damage with
        lines := s.damage.lines.filter (· != (true, key)), found := s.damage.found ++ [(l.owner, 128 * line)] } }
  else s.writeLine l.kid line l.dirty l.data

/-- Write an L2 line's dirty words to memory; they stay valid (06 R111). -/
def l2Clean (s : State) (d line : Nat) : State :=
  match s.l2.find (lineKey d line) with
  | some l => let s := s.writeBack (lineKey d line) line l
      { s with l2 := s.l2.set (lineKey d line) { l with dirty := 0 } }
  | none => s
def l2Drop (s : State) (d line : Nat) : State :=
  let s := s.l2Clean d line
  { s with l2 := s.l2.del (lineKey d line) }

/-- Hold a line in the L2 of a die: where its set is full, one of the 16 lines of the set leaves (05 R86). Which one is
a free value: the manual does not say. -/
def l2Put (s : State) (d line : Nat) (l : Line) : State :=
  let key := lineKey d line
  let s : State :=
    if (s.l2.find key).isSome then s else
    let ways := (s.l2.filter fun e => e.1 / 2 ^ 41 = d && l2Set (e.1 % 2 ^ 41) = l2Set line).map fun e => e.1 % 2 ^ 41
    if ways.length < 16 then s else
    let (v, s) := s.fresh
    s.l2Drop d (ways.getD (v.toNat % ways.length) 0)
  { s with l2 := s.l2.set key l }

/-- A line of the L2 of a die as it stands for a key ID, its needed words valid (05 R87, R91): a line of
another key ID is first written back under its own. A damaged word is delivered and not kept. A hit is an access that
finds the line, and valid every word that it needs (17 R344; DESIGN CHOICE: note 91). -/
def l2Line (s : State) (d kid line : Nat) (need : BitVec 32) : State × Line :=
  let key := lineKey d line
  let (s, l) : State × Line := match s.l2.find key with
    | some l => if l.kid = kid then (s, l) else (s.writeBack key line l, { kid := kid })
    | none => (s, { kid := kid })
  let s := s.countDie d (if l.valid != 0#32 && need &&& ~~~l.valid = 0#32 then 0x40 else 0x41)
  let f := if need &&& ~~~l.valid = 0#32 then l
    else l.fill (sectors (need &&& ~~~l.valid)) (s.readLine kid line)
  (s.l2Put d line { f with valid := f.valid &&& ~~~(s.badInMemory line &&& ~~~l.valid) }, f)

/-- The other dies' copies of a host line before die `d` reads or writes it (06 R98): dirty words go to the host, and
before a write the copies go. -/
def hostOwn (s : State) (d pa : Nat) (write : Bool) : State :=
  if !isHost pa then s else
  [0, 1, 2, 3].foldl (fun s e =>
    if e = d then s else if write then s.l2Drop e (lineOf pa) else s.l2Clean e (lineOf pa)) s

/-- Read bytes of one line at its home (05 R90). -/
def homeRead (s : State) (reqDie pa kid cache n : Nat) : State × List Byte :=
  let d := homeDie pa reqDie
  let s := s.hostOwn d pa false
  let line := lineOf pa
  let o := pa % 128
  if cache = 2 && (s.l2.find (lineKey d line)).isNone then
    (s, lineBytes (s.readLine kid line) o n)
  else
    let (s, l) := s.l2Line d kid line (wordsOf o n)
    (s, lineBytes l.data o n)

/-- A write at a home removes the clean words of every untagged L1 copy of the line but the writer's
(06 R100). -/
def invalidateCopies (s : State) (writer line : Nat) : State :=
  let kept := s.l1.map fun e =>
    if e.1 % 2 ^ 41 = line && e.1 / 2 ^ 41 != writer && !e.2.ro then (e.1, { e.2 with valid := e.2.dirty }) else e
  { s with l1 := kept.filter fun e => e.2.valid != 0#32 }

/-- The 64 KiB page of a device address, and the contexts whose streaming interval holds it unstaged
(14 R304). A counter page stands in the set as its 4 KiB page with bit 40 set. -/
def page64 (pa : Nat) : Nat := pa / 65536
def ctrPageKey (pa : Nat) : Nat := 2 ^ 40 + pa / 4096
def closedHolds (s : State) (pa : Nat) : List Nat :=
  if !isDevice pa then [] else
  (s.ctxs.filter fun e => match e.2.alm.streaming with
    | some iv => (iv.closed.contains (page64 pa) && (iv.pages.find (page64 pa)).isNone) ||
        (iv.closed.contains (ctrPageKey pa) && (iv.pages.find (ctrPageKey pa)).isNone)
    | none => false).map Prod.fst

/-- Write back the dirty L2 words of the lines of [lo, hi) of device memory; they stay valid. -/
def flushL2Range (s : State) (lo hi : Nat) : State :=
  s.l2.foldl (fun s e =>
    let line := e.1 % 2 ^ 41
    if lo ≤ line * 128 && line * 128 < hi && e.2.dirty != 0#32 then
      let s := s.writeBack e.1 line e.2
      { s with l2 := s.l2.set e.1 { e.2 with dirty := 0 } }
    else s) s

/-- The cells of a range of memory as they stand, caches included down to the home. -/
def snapshot (s : State) (lo hi : Nat) : State × List Host.Cell :=
  let s := s.flushL2Range lo hi
  (s, s.mem.filter fun e => lo ≤ e.1 && e.1 < hi)

/-- Room in a context's staging area for a page (14 R304): units of 64 KiB; a counter page takes a
sixteenth. -/
def stageRoom (s : State) (h : Nat) (sixteenths : Nat) : Bool :=
  let a := (s.ctx h).alm
  a.staged + sixteenths ≤ 16 * bitsOf a.acb.toNat 223 192

/-- The bounds of a page of a closed set. -/
def pageBounds (k : Nat) : Nat × Nat :=
  if k < 2 ^ 40 then (k * 65536, k * 65536 + 65536) else ((k - 2 ^ 40) * 4096, (k - 2 ^ 40) * 4096 + 4096)

/-- Does a word of a page of a closed set stand damaged (22 R398)? -/
def pageHurt (s : State) (k : Nat) : Bool :=
  s.damage.words.any fun w => decide ((pageBounds k).1 ≤ 4 * w ∧ 4 * w < (pageBounds k).2)

/-- Copy a page of a closed set as of the cut into the staging area (14 R304). -/
def stagePage (s : State) (h k : Nat) : State :=
  let (lo, hi) := pageBounds k
  let bad := s.pageHurt k
  let (s, cells) := s.snapshot lo hi
  s.updAlm h fun a => { a with
    staged := a.staged + (if k < 2 ^ 40 then 16 else 1)
    streaming := a.streaming.map fun iv => { iv with pages := iv.pages.set k cells, hurt := iv.hurt || bad } }

/-- Before a write at a home: every page that holds the address in a closed set and is not yet streamed is
staged (14 R304). Where there is no room the write must wait: `closedFull`. -/
def stageFor (s : State) (pa : Nat) : State :=
  (s.closedHolds pa).foldl (fun s h =>
    match (s.ctx h).alm.streaming with
    | some iv =>
      let s := if iv.closed.contains (page64 pa) && (iv.pages.find (page64 pa)).isNone then s.stagePage h (page64 pa) else s
      if iv.closed.contains (ctrPageKey pa) && (iv.pages.find (ctrPageKey pa)).isNone then s.stagePage h (ctrPageKey pa) else s
    | none => s) s
/-- Room that staging the unstreamed pages of a closed set at an address takes, in sixteenths of 64 KiB. -/
def stageNeed (s : State) (h pa : Nat) : Nat :=
  match (s.ctx h).alm.streaming with
  | some iv =>
    (if iv.closed.contains (page64 pa) && (iv.pages.find (page64 pa)).isNone then 16 else 0) +
      (if iv.closed.contains (ctrPageKey pa) && (iv.pages.find (ctrPageKey pa)).isNone then 1 else 0)
  | none => 0
def closedFull (s : State) (pa : Nat) : Bool := (s.closedHolds pa).any fun h => !s.stageRoom h (s.stageNeed h pa)

/-- Keep a page of device memory as it was at a context's last cut, before the first write that marks it since then
(14 R305). -/
def keepPage (s : State) (h k : Nat) : State :=
  let a := (s.ctx h).alm
  if (a.nextSeq = 1 && a.streaming.isNone) || a.dirty.contains k || a.dirtyCtr.contains (k - 2 ^ 40) || (a.pre.find k).isSome
  then s else
  let (lo, hi) := pageBounds k
  let (s, cells) := s.snapshot lo hi
  s.updAlm h fun a => { a with pre := a.pre.set k cells }

/-- Mark the page of a device-memory write dirty for a context (14 R303). -/
def markPage (s : State) (h pa : Nat) : State :=
  if !isDevice pa || 1024 ≤ h then s else
  s.updAlm h fun a => if a.dirty.contains (page64 pa) then a else { a with dirty := page64 pa :: a.dirty }
def markCtrPage (s : State) (h pa : Nat) : State :=
  if !isDevice pa || 1024 ≤ h then s else
  s.updAlm h fun a => if a.dirtyCtr.contains (pa / 4096) then a else { a with dirtyCtr := pa / 4096 :: a.dirtyCtr }

/-- A write to a host line wakes the warps that monitor it (07 R132). -/
def wakeMonitors (s : State) (pa : Nat) : State :=
  if isHost pa && s.cores.any fun e => e.2.monitors.any fun m => decide (m.2 = lineOf pa) then
    s.post (.monitorWake (lineOf pa)) else s

/-- Write bytes of one line at its home (05 R87, R90; 06 R99): the line's L2, or memory itself on an
uncached page whose line is not present. -/
def homePut (s : State) (reqDie writer h pa kid cache : Nat) (bs : List Byte) : State :=
  let s := s.stageFor pa
  let d := homeDie pa reqDie
  let line := lineOf pa
  let o := pa % 128
  let s := ((s.hostOwn d pa true).invalidateCopies writer line).wakeMonitors pa
  if cache = 2 && (s.l2.find (lineKey d line)).isNone then
    s.writeLine kid line (wordsOf o bs.length) (setLineBytes (s.readLine kid line) o bs)
  else
    let (s, l) := s.l2Line d kid line (wordsOf o bs.length &&& ~~~wordsWhole o bs.length)
    s.l2Put d line (l.store o bs h)

/-- Bytes at a peer's home slice (06 R110; 07 R122), past the requesting die's copy of the line, which is first
written back and dropped. -/
def targetRead (s : State) (d pa n : Nat) : State × List Byte :=
  let s := s.l2Drop d (lineOf pa)
  (s, lineBytes (s.readLine 0 (lineOf pa)) (pa % 128) n)
def targetWrite (s : State) (d pa : Nat) (bs : List Byte) : State :=
  let s := s.l2Drop d (lineOf pa)
  s.writeLine 0 (lineOf pa) (wordsOf (pa % 128) bs.length) (setLineBytes (s.readLine 0 (lineOf pa)) (pa % 128) bs)

/-- Write bytes of one line of data at its home, marking the page (14 R303). -/
def homeWrite (s : State) (reqDie writer h pa kid cache : Nat) (bs : List Byte) : State :=
  let s := if isDevice pa then s.keepPage h (page64 pa) else s
  (s.homePut reqDie writer h pa kid cache bs).markPage h pa

/-- Are lines of the page kept out of the L1s: a page in host bias or being flipped? (16 R323) -/
def l1Bypass (s : State) (pa : Nat) : Bool :=
  isDevice pa && (s.hostBias.contains (pa / 4096) || s.flipping.contains (pa / 4096))

/-- Send the BISnp that a hold for a line of a host-bias page needs, once (16 R321). -/
def snoop (s : State) (key : Nat) (inval : Bool) : State :=
  if 2 ^ 40 ≤ key && key < 2 ^ 60 && !s.snoops.contains (key - 2 ^ 40, inval) then
    { s with snoops := s.snoops ++ [(key - 2 ^ 40, inval)] }
  else s

/-- Hold a request until its key is released. -/
def hold (s : State) (key : Nat) (inval : Bool) (ev : Instr) : State :=
  let r : HeldReq := { key := key, ev := ev }
  let hs := if key < 2 ^ 40 then s.closedHolds (key * 4096) else []
  let s := if hs.isEmpty then s else s.countDie (key * 4096 / dieRegion) 0x48
  let s := s.postAll (hs.map fun h => .heldWriteRelease h key)
  State.snoop { s with held := s.held ++ [r] } key inval

/-- The dirty words of an L1 line as stores at its home, by no warp: a write-back that waits there for room to stage its
page (14 R304). -/
def lateWriteBack (s : State) (c line : Nat) (l : Line) : State :=
  let (i, s) := s.newReq
  let acc (w : Nat) : Access :=
    { lane := w, va := 0, pa := 128 * line + 4 * w, size := 4, kid := l.kid, cache := 1
      data := leNat (lineBytes l.data (4 * w) 4) }
  let q : MemReq :=
    { core := c, slot := 64, ctx := l.owner, op := .store, accs := (lanesOf l.dirty).map acc, file := .lane, dest := 0
      words := 0, back := true }
  State.hold { s with reqs := s.reqs.set i q } (line / 32) true (.memoryRequestAtHome i)

/-- Write the dirty words of an L1 line to its home (06 R100, R111), or leave them with the home, which holds them
(14 R304); they stay valid. Of a damaged line the write-back is not made (22 R404). -/
def l1WriteBack (s : State) (c line : Nat) : State :=
  let key := lineKey c line
  match s.l1.find key with
  | none => s
  | some l =>
    if l.dirty = 0#32 then s else
    let s : State :=
      if s.damage.lines.contains (false, key) then
        { s with damage := { s.damage with
            lines := s.damage.lines.filter (· != (false, key)), found := s.damage.found ++ [(l.owner, 128 * line)] } }
      else if s.closedFull (line * 128) then s.lateWriteBack c line l
      else (lanesOf l.dirty).foldl (fun s w =>
        s.homeWrite (dieOfCore c) c l.owner (line * 128 + 4 * w) l.kid 0 (lineBytes l.data (4 * w) 4)) s
    { s with l1 := s.l1.set key { l with dirty := 0 } }
/-- Write back and drop one line of a core. -/
def l1Drop (s : State) (c line : Nat) : State :=
  let s := s.l1WriteBack c line
  { s with l1 := s.l1.del (lineKey c line) }

/-- The lines that an L1 holds. -/
def l1Lines (s : State) (c : Nat) : List Nat :=
  (s.l1.filter fun e => e.1 / 2 ^ 41 = c).map fun e => e.1 % 2 ^ 41

/-- Hold a line in an L1: where its set is full, one of the 8 lines of the set leaves (05 R86). Which one is a free
value: the manual does not say. -/
def l1Put (s : State) (c line : Nat) (l : Line) : State :=
  let key := lineKey c line
  let s : State :=
    if (s.l1.find key).isSome then s else
    let ways := (s.l1Lines c).filter fun x => l1Set x = l1Set line
    if ways.length < 8 then s else
    let (v, s) := s.fresh
    s.l1Drop c (ways.getD (v.toNat % ways.length) 0)
  { s with l1 := s.l1.set key l }

/-- An L1 line of a core as it stands for an access (05 R89, R91): a line of another key ID is written back
and dropped, a tagged line is a miss for an ordinary access. -/
def l1Line (s : State) (c kid line : Nat) (ro : Bool) : State × Line :=
  let key := lineKey c line
  match s.l1.find key with
  | some l =>
    if l.kid != kid then (s.l1Drop c line, { kid := kid, ro := ro })
    else if l.ro && !ro then ({ s with l1 := s.l1.del key }, { kid := kid })
    else (s, l)
  | none => (s, { kid := kid, ro := ro })

/-- The words of a line that a reader finds damaged: damaged in memory, and not valid in the L2 that serves die `d`
(22 R404). -/
def badWords (s : State) (d line : Nat) : BitVec 32 :=
  if s.damage.words.isEmpty then 0 else
  s.badInMemory line &&& ~~~(match s.l2.find (lineKey (homeDie (128 * line) d) line) with
    | some l => l.valid
    | none => 0)

/-- Bring the sectors of the needed words of an L1 line from its home, each sector that holds one (05 R87). A damaged
word is delivered and not kept: the second line is what the L1 keeps. A miss is an access that does not find the line, or
not valid every word that it needs; each sector filled into a line that holds valid words is a merging fill (17 R344;
DESIGN CHOICE: note 91). -/
def l1Fill (s : State) (c line : Nat) (l : Line) (need : BitVec 32) : State × Line × Line :=
  let miss := need &&& ~~~l.valid
  let parts := [0, 1, 2, 3].filter fun k => (miss >>> (8 * k)) &&& 0xFF#32 != 0#32
  let s := if l.valid != 0#32 && parts.isEmpty then s else s.countEv c 0x07 1
  let s := if l.valid = 0#32 || parts.isEmpty then s else s.countEv c 0x08 parts.length
  if parts.isEmpty then (s, l, l) else
  let (s, f) := parts.foldl (fun (s, f) k =>
    let (s, bs) := State.homeRead s (dieOfCore c) (line * 128 + 32 * k) l.kid 0 32
    (s, Line.fill f (0xFF#32 <<< (8 * k)) (setLineBytes 0 (32 * k) bs))) (s, l)
  (s, f, { f with valid := f.valid &&& ~~~(s.badWords (dieOfCore c) line &&& ~~~l.valid) })

/-- A load of one line's bytes by a core (05 R87 to R90). -/
def coreRead (s : State) (c pa kid cache : Nat) (ro : Bool) (n : Nat) : State × List Byte :=
  if cache != 0 || s.l1Bypass pa then s.homeRead (dieOfCore c) pa kid cache n
  else
    let line := lineOf pa
    let (s, l) := s.l1Line c kid line ro
    let (s, l, kept) := s.l1Fill c line l (wordsOf (pa % 128) n)
    (s.l1Put c line kept, lineBytes l.data (pa % 128) n)

/-- Does an access of a core read a word with an uncorrectable error in memory (22 R404)? -/
def consumes (s : State) (c pa cache n : Nat) : Bool :=
  if s.damage.words.isEmpty then false else
  let own := if cache != 0 || s.l1Bypass pa then 0 else match s.l1.find (lineKey c (lineOf pa)) with
    | some l => l.valid
    | none => 0
  wordsOf (pa % 128) n &&& s.badWords (dieOfCore c) (lineOf pa) &&& ~~~own != 0#32

/-- A store of one line's bytes by a core: in its L1, to be written back within 8,192 cycles (06 R99,
R100), or at the home. -/
def coreWrite (s : State) (c h pa kid cache : Nat) (bs : List Byte) : State :=
  if cache != 0 || s.l1Bypass pa then s.homeWrite (dieOfCore c) c h pa kid cache bs
  else
    let line := lineOf pa
    let (s, l) := s.l1Line c kid line false
    let part := wordsOf (pa % 128) bs.length &&& ~~~wordsWhole (pa % 128) bs.length
    let (s, _, l) := s.l1Fill c line l part
    let s := if l.dirty = 0#32 then s.postAfter c 8192 (.l1WritebackDeadline c line) else s
    s.l1Put c line (l.store (pa % 128) bs h)

/-- Write back every dirty line of a core (06 R106; 14 R291). -/
def l1WriteBackAll (s : State) (c : Nat) : State := (s.l1Lines c).foldl (fun s l => s.l1WriteBack c l) s
/-- Drop every clean untagged line of a core; dirty words stay (06 R106). -/
def l1Acquire (s : State) (c : Nat) : State :=
  let kept := s.l1.map fun e =>
    if e.1 / 2 ^ 41 = c && !e.2.ro then (e.1, { e.2 with valid := e.2.dirty }) else e
  { s with l1 := kept.filter fun e => e.2.valid != 0#32 }
/-- Write back and drop every line of a core (03 R55). -/
def l1DropAll (s : State) (c : Nat) : State := (s.l1Lines c).foldl (fun s l => s.l1Drop c l) s

/-- Release and acquire of a core at a scope: 0 none, 1 .warp, 2 .team, 3 .troupe, 4 .dev, 5 .sys (06
R104 to R106). -/
def releaseAt (s : State) (c scope : Nat) : State := if scope < 3 then s else s.l1WriteBackAll c
def acquireAt (s : State) (c scope : Nat) : State := if scope < 3 then s else s.l1Acquire c

/-- Write back and invalidate every line tagged with a key ID (05 R93). -/
def dropKid (s : State) (kid : Nat) : State :=
  let s := s.l1.foldl (fun s e => if e.2.kid = kid then s.l1Drop (e.1 / 2 ^ 41) (e.1 % 2 ^ 41) else s) s
  s.l2.foldl (fun s e => if e.2.kid = kid then s.l2Drop (e.1 / 2 ^ 41) (e.1 % 2 ^ 41) else s) s

/-- The runs of [a, a + n) that do not cross a multiple of `g`: address and length; `f` bounds their count. -/
def chunks (g : Nat) : Nat → Nat → Nat → List (Nat × Nat)
  | 0, _, _ => []
  | f + 1, a, n => if n = 0 then [] else
    let k := min n (g - a % g)
    (a, k) :: chunks g f (a + k) (n - k)

/-- The key of what waits for a request to be performed. -/
def reqKey (i : Nat) : Nat := 2 ^ 62 + i
/-- The write-back of a line of a page that its home has still to take. -/
def lateBack (s : State) (p4 : Nat) : Option Nat :=
  (s.reqs.find? fun e => e.2.back && e.2.accs.any fun a => decide (a.pa / 4096 = p4)).map Prod.fst

/-- What a request for a device line waits for at its home (14 R304; 16 R321, R323): its page being flipped, a write-back
that the home has still to take, the host's answer for a line of a page in host bias, room to stage a page of a closed
set, or requests already held for the page. -/
def homeHold (s : State) (pa : Nat) (write : Bool) : Option Nat :=
  if !isDevice pa then none
  else if s.flipping.contains (pa / 4096) then some (pa / 4096)
  else if let some i := s.lateBack (pa / 4096) then some (reqKey i)
  else if s.hostBias.contains (pa / 4096) &&
      !(s.snooped.contains (lineOf pa, true) || (!write && s.snooped.contains (lineOf pa, false))) then some (2 ^ 40 + lineOf pa)
  else if (write && s.closedFull pa) || s.held.any (fun r => r.key = pa / 4096) then some (pa / 4096)
  else none

/-- Note what an access of the running event waits for: the event then has no effect and is held whole. -/
def meet (s : State) (write : Bool) (key : Option Nat) : State :=
  match key with
  | some k => if s.blocked.isSome then s else { s with blocked := some (k, write) }
  | none => s

/-- Bytes by physical address, under a key ID, at the homes that serve die `d`; they may cross lines. -/
def physRead (s : State) (d kid pa n : Nat) : State × List Byte :=
  (chunks 128 (n / 128 + 2) pa n).foldl (fun (s, bs) (a, k) =>
    let (s, b) := (s.meet false (s.homeHold a false)).homeRead d a kid 0 k
    (s, bs ++ b)) (s, [])
/-- Write bytes by physical address; the writer is no core. -/
def physWrite (s : State) (d h kid pa : Nat) (bs : List Byte) : State :=
  (chunks 128 (bs.length / 128 + 2) pa bs.length).foldl (fun s (a, k) =>
    (s.meet true (s.homeHold a true)).homeWrite d (2 ^ 20) h a kid 0 ((bs.drop (a - pa)).take k)) s

/-! ## Activity budgets (13 R288) -/

/-- CAP of a budget register, at least its GUAR; none where there is no cap (13 R288). -/
def budgetCap (s : State) (d i : Nat) : Option Nat :=
  let a := (s.die d).abud.get 0xFFFF0000#32 i
  let cap := bitsOf a.toNat 31 16
  if cap = 0xFFFF then none else some (max cap (bitsOf a.toNat 15 0))
/-- Has an activity reached its CAP? -/
def budgetOut (s : State) (d i : Nat) : Bool :=
  match s.budgetCap d i with
  | none => false
  | some n => n * 4096 ≤ (s.die d).used.get 0 i
/-- Charge traffic to an activity. -/
def charge (s : State) (d i n : Nat) : State :=
  s.updDie d fun x => { x with used := x.used.upd 0 i (· + n) }

end State

end Sys2Proof.Machine
end

