-- ==== Sys2Proof/Machine/Translate.lean ====
section
/-! DEFINITION. Virtual addresses and windows (05 R71 to R85; 02 R31; 20 R373): the page-table walk, the
checks of a leaf in the order of 10 R199, Format Region Table entries, scratchpad windows and their layouts,
range locks, and reads and writes by virtual address for the context's agents. -/

namespace Sys2Proof.Machine

/-- Cause groups (20 R372). -/
def grpTranslate : Nat := 5
def grpAccess : Nat := 6
def grpRangelock : Nat := 7

/-- Access kinds (20 R373). -/
def kLoad : Nat := 0
def kStore : Nat := 1
def kAtomic : Nat := 2
def kCtrRead : Nat := 3
def kCtrAdd : Nat := 4
def kFetch : Nat := 5
def kSpill : Nat := 6
def kRefill : Nat := 7
def kSource : Nat := 8
def kDest : Nat := 9
def kRecord : Nat := 10
def kCmnt : Nat := 11

/-- A failed check of an access: its cause group, CODE and TDET1:TDET2 (20 R372). -/
structure AccFail where
  group : Nat
  code : Nat
  addr : DWord
  deriving DecidableEq, Repr

/-- An ACCESS failure of a reason. -/
def accFail (reason kind : Nat) (a : DWord) : AccFail := ⟨grpAccess, reason * 4096 + kind, a⟩

/-- The trap of a failed check, at the lowest lane concerned. -/
def AccFail.trap (f : AccFail) (lv : Bool) (lane : Nat) (epc : Word) : TrapInfo :=
  { group := f.group, code := f.code, async := false, lv := lv, lane := lane, t1 := lo32 f.addr, t2 := hi32 f.addr,
    epc := epc }

/-- Fields of a page-table entry (05 R74). -/
def pteV (e : DWord) : Bool := e.getLsbD 63
def pteKid (e : DWord) : Nat := bitsOf e.toNat 62 50
def pteFri (e : DWord) : Nat := bitsOf e.toNat 49 44
def pteCache (e : DWord) : Nat := bitsOf e.toNat 43 42
def pteRoh (e : DWord) : Bool := e.getLsbD 41
def pteCtr (e : DWord) : Bool := e.getLsbD 40
def pteSz64 (e : DWord) : Bool := e.getLsbD 39
def pteX (e : DWord) : Bool := e.getLsbD 38
def pteW (e : DWord) : Bool := e.getLsbD 37
def pteR (e : DWord) : Bool := e.getLsbD 36
def ptePpn (e : DWord) : Nat := bitsOf e.toNat 35 0
def pteLeaf (e : DWord) : Bool := pteX e || pteW e || pteR e

/-- The TRANSLATE reason of a leaf at a level, if it has one (05 R75; 20 R373). -/
def leafBad (level : Nat) (e : DWord) : Option Nat :=
  if level ≥ 3 then some 3
  else if pteW e && !pteR e then some 7
  else if pteCtr e && pteX e then some 8
  else if pteCache e = 3 then some 9
  else if pteSz64 e && level != 0 then some 10
  else if level = 2 && ptePpn e % 2 ^ 18 != 0 then some 11
  else if level = 1 && ptePpn e % 2 ^ 9 != 0 then some 11
  else if pteSz64 e && ptePpn e % 16 != 0 then some 11
  else none

/-- The walk from the table at `tbl`, `n` levels above the last one (05 R73, R75): the leaf, or the reason and
the level at which the walk ended. The root is read at the address that PTROOT holds, aligned or not, in device memory or
not (DESIGN CHOICE: note 103). -/
def walkFrom (rd : Nat → DWord) (va : Nat) : Nat → Nat → Except (Nat × Nat) TlbEntry
  | 0, tbl =>
    let e := rd (tbl + 8 * bitsOf va 20 12)
    if !pteV e then .error (2, 0)
    else if !pteLeaf e then .error (4, 0)
    else match leafBad 0 e with
      | some r => .error (r, 0)
      | none => .ok ⟨0, e⟩
  | n + 1, tbl =>
    let e := rd (tbl + 8 * bitsOf va (29 + 9 * n) (21 + 9 * n))
    if !pteV e then .error (2, n + 1)
    else if pteLeaf e then
      match leafBad (n + 1) e with
      | some r => .error (r, n + 1)
      | none => .ok ⟨n + 1, e⟩
    else if bitsOf e.toNat 62 36 != 0 then .error (5, n + 1)
    else if ptePpn e * 4096 ≥ deviceEnd then .error (6, n + 1)
    else walkFrom rd va n (ptePpn e * 4096)

/-- Bytes that a leaf maps. -/
def TlbEntry.size (t : TlbEntry) : Nat :=
  if t.level = 2 then 2 ^ 30 else if t.level = 1 then 2 ^ 21 else if pteSz64 t.entry then 2 ^ 16 else 2 ^ 12
/-- The physical address of a virtual address under its leaf. -/
def TlbEntry.pa (t : TlbEntry) (va : DWord) : Nat := ptePpn t.entry * 4096 + va.toNat % t.size

/-- The permission row of an access kind (05 R75; 11 R231 for CMNT). -/
def permits (kind : Nat) (e : DWord) : Bool :=
  if kind = kCmnt then true
  else if kind = kFetch then pteX e && !pteCtr e
  else if kind = kCtrRead then pteR e && pteCtr e
  else if kind = kCtrAdd then pteR e && pteW e && pteCtr e
  else if kind = kAtomic then pteR e && pteW e && !pteCtr e
  else if kind = kStore || kind = kSpill || kind = kDest then pteW e && !pteCtr e
  else pteR e && !pteCtr e

/-- A checked access: its leaf and physical address. -/
structure Checked where
  tlb : TlbEntry
  pa : Nat
  deriving DecidableEq, Repr

def Checked.kid (c : Checked) : Nat := pteKid c.tlb.entry
def Checked.cache (c : Checked) : Nat := pteCache c.tlb.entry

/-- A Format Region Table entry (05 R79). -/
structure FrtEntry where
  fmt : Nat := 0
  dbase : Nat := 0
  dpitch : Nat := 0
  sbase : Nat := 0
  spitch : Nat := 0
  blen : Nat := 0
  deriving DecidableEq, Repr

/-- Element format codes (04 R61). -/
def fmtRaw : Nat := 0
def fmtB4 : Nat := 0x10
def fmtOk (f : Nat) : Bool := f ≤ 5 || (8 ≤ f && f ≤ 16)

/-- The entry that 256 bits encode; none where it is invalid (05 R80). -/
def frtDecode (x : Nat) : Option FrtEntry :=
  let fmt := bitsOf x 7 0
  let bl := bitsOf x 9 8
  if !fmtOk fmt || bl = 3 || bitsOf x 255 249 != 0 || bitsOf x 191 185 != 0 || bitsOf x 63 10 != 0 then none
  else some { fmt := fmt, dbase := bitsOf x 184 128, dpitch := bitsOf x 95 64, sbase := bitsOf x 248 192,
              spitch := bitsOf x 127 96, blen := 16 * 2 ^ bl }

/-- The address of the scale of code `j` of the byte at `a` (05 R80); none below DBASE, or where DPITCH is 0. -/
def FrtEntry.scaleAddr (f : FrtEntry) (a j : Nat) : Option Nat :=
  if a < f.dbase || f.dpitch = 0 then none else
  let o := a - f.dbase
  some (f.sbase + o / f.dpitch * f.spitch + 3 * ((o % f.dpitch * 2 + j) / f.blen))

namespace State

/-- The device's own peer id (16 R325), and the routes to a peer that have a link. -/
def colid (s : State) : Nat := bitsOf (s.io.regs.get 0 0x044).toNat 5 0
def route (s : State) (peer : Nat) : Nat :=
  s.boot.deadLinks.foldl (fun m l => if m.testBit l then m - 2 ^ l else m) (bitsOf (s.io.routes.get 0 peer).toNat 11 0)
def routed (s : State) (peer : Nat) : Bool := s.route peer != 0 && peer != s.colid

/-- The host port that serves a die (DESIGN CHOICE: note 9). -/
def hostPort (d : Nat) : Nat := d / 2
/-- Has the link that an address needs declared loss? (21 R388) -/
def spaceLost (s : State) (d pa : Nat) : Bool :=
  if isHost pa then s.io.lostCxl.contains (hostPort d)
  else if isTier pa then s.io.lostCxl.contains (s.tierPort (pa % 2 ^ 46))
  else if isPeer pa then
    let m := s.route (peerOf pa)
    (List.range 12).all fun l => !m.testBit l || s.io.lostColmet.contains l
  else false

/-- ACCESS reasons 10 and 7: a feature not accepted, and a space that does not reach so far (05 R72; 16 R324, R332). -/
def spaceBad (s : State) (h pa : Nat) : Option Nat :=
  let x := s.ctx h
  if (isHost pa && !x.hasFeat featHmem) || (isTier pa && !x.hasFeat featTier) || (isPeer pa && !x.hasFeat featPeer)
  then some 10
  else if (isDevice pa && (deviceEnd ≤ pa || (s.die (pa / dieRegion)).offline)) || (isTier pa && s.tierSize ≤ pa % 2 ^ 46) ||
    (isPeer pa && !s.routed (peerOf pa)) then some 7
  else none

/-- Does a key ID fail for an address? (05 R91, R92) -/
def kidBad (s : State) (pa kid : Nat) : Bool :=
  kid != 0 && (isHost pa || isPeer pa || (s.io.keys.find kid).isNone)

/-- A page-table entry as its home holds it: a whole plain word (05 R73). -/
def readPte (s : State) (pa : Nat) : DWord := BitVec.ofNat 64 (leNat (s.homeRead 0 pa 0 0 8).2)

def tlbKey (d h vpn : Nat) : Nat := (d * 1024 + h) * 2 ^ 45 + vpn
def vpnOf (va : DWord) : Nat := bitsOf va.toNat 56 12

/-- The translation of an address for a context on a die: cached, or walked (05 R71, R73, R77). A 64 KiB page is
translated by the address's own 4 KiB entry (DESIGN CHOICE: note 104). -/
def translate (s : State) (d h : Nat) (va : DWord) : Except (Nat × Nat) TlbEntry :=
  if bitsOf va.toNat 63 57 != 0 then .error (1, 4) else
  match s.tlb.find (tlbKey d h (vpnOf va)) with
  | some t => .ok t
  | none => walkFrom s.readPte va.toNat 4 (s.ctx h).ptroot
/-- The same for an access of a core, whose L1 TLB comes first (05 R77). -/
def coreTranslate (s : State) (c h : Nat) (va : DWord) : Except (Nat × Nat) TlbEntry :=
  if bitsOf va.toNat 63 57 != 0 then .error (1, 4) else
  match (s.core c).tlb.find (tlbKey 0 h (vpnOf va)) with
  | some t => .ok t
  | none => s.translate (dieOfCore c) h va

/-- The checks of a translated access up to its key ID, in the order of 10 R199. -/
def checkPage (s : State) (h kind : Nat) (va : DWord) (x : Except (Nat × Nat) TlbEntry) : Except AccFail Checked :=
  match x with
  | .error (r, l) => .error ⟨grpTranslate, r * 4096 + l * 256 + kind, va⟩
  | .ok t =>
    let pa := t.pa va
    if kind = kCmnt then .ok ⟨t, pa⟩ else
    match s.spaceBad h pa with
    | some r => .error (accFail r kind va)
    | none =>
      if (kind = kCtrRead || kind = kCtrAdd) && isTier pa then .error (accFail 6 kind va)
      else if !permits kind t.entry then .error (accFail 1 kind va)
      else if s.kidBad pa (pteKid t.entry) then .error (accFail 5 kind va)
      else .ok ⟨t, pa⟩

/-- The Format Region Table entry that a leaf selects (05 R79, R80), read at its home: RAW for FRI 0, none where the
entry is invalid or cannot be read. No entry is cached, so none is used stale (DESIGN CHOICE: note 105). The 32 bytes lie
in one line of an aligned table, and in two at most. -/
def frt (s : State) (d h fri : Nat) : Option FrtEntry :=
  if fri = 0 then some {} else
  let va := (s.ctx h).frtbase + BitVec.ofNat 64 (32 * fri)
  let piece (e : Nat × Nat) : Option (List Byte) :=
    match s.checkPage h kLoad (BitVec.ofNat 64 e.1) (s.translate d h (BitVec.ofNat 64 e.1)) with
    | .ok c => if s.spaceLost d c.pa then none else some (s.physRead d c.kid c.pa e.2).2
    | .error _ => none
  match (chunks 128 2 va.toNat 32).mapM piece with
  | some bs => frtDecode (leNat bs.flatten)
  | none => none

/-- A checked access also fails where its page's Format Region Table entry is invalid or unreadable (05 R80). -/
def checkFrt (s : State) (d h kind : Nat) (va : DWord) (r : Except AccFail Checked) : Except AccFail Checked :=
  match r with
  | .error f => .error f
  | .ok c => if kind != kCmnt && (s.frt d h (pteFri c.tlb.entry)).isNone then .error (accFail 11 kind va) else .ok c

/-- The checks of an agent's or engine's access near die `d`, and of an access of a core. -/
def check (s : State) (d h kind : Nat) (va : DWord) : Except AccFail Checked :=
  s.checkFrt d h kind va (s.checkPage h kind va (s.translate d h va))
def coreCheck (s : State) (c h kind : Nat) (va : DWord) : Except AccFail Checked :=
  s.checkFrt (dieOfCore c) h kind va (s.checkPage h kind va (s.coreTranslate c h va))

/-- Put a translation into a die's L2 TLB, of 32,768 entries, or a core's L1 TLB, of 128 (05 R77): of a full one an
entry leaves, a free value which. -/
def tlbPut (s : State) (d h vpn : Nat) (t : TlbEntry) : State :=
  let key := tlbKey d h vpn
  let s : State :=
    if (s.tlb.find key).isSome then s else
    let mine := (s.tlb.filter fun e => e.1 / 2 ^ 55 = d).map Prod.fst
    if mine.length < 32768 then s else
    let (v, s) := s.fresh
    { s with tlb := s.tlb.del (mine.getD (v.toNat % mine.length) 0) }
  { s with tlb := s.tlb.set key t }
def coreTlbPut (s : State) (c h vpn : Nat) (t : TlbEntry) : State :=
  let key := tlbKey 0 h vpn
  let m := (s.core c).tlb
  let (m, s) : Map TlbEntry × State :=
    if (m.find key).isSome || m.length < 128 then (m, s) else
    let (v, s) := s.fresh
    (m.del ((m.map Prod.fst).getD (v.toNat % m.length) 0), s)
  s.updCore c fun x => { x with tlb := m.set key t }

/-- Is an event the walk of a page of a die? -/
def isWalk (d : Nat) : Instr → Bool
  | .pageWalkComplete e _ _ => e = d
  | _ => false
/-- Is the walk of an address under way, and how many of a die's walks are (05 R77)? -/
def walking (s : State) (d h vpn : Nat) : Bool :=
  s.agenda.contains (.pageWalkComplete d h vpn) || s.held.any fun r => r.ev = .pageWalkComplete d h vpn
def walks (s : State) (d : Nat) : Nat := (s.agenda.filter (isWalk d)).length + (s.held.filter fun r => isWalk d r.ev).length

/-- Note the walk of an address that no TLB of the die holds (05 R77): its entry is filled when the walk
completes. -/
def noteWalk (s : State) (d h : Nat) (va : DWord) : State :=
  if bitsOf va.toNat 63 57 != 0 || (s.tlb.find (tlbKey d h (vpnOf va))).isSome || s.walking d h (vpnOf va) then s
  else s.post (.pageWalkComplete d h (vpnOf va))
/-- The same for an access of a core, whose L1 TLB takes the entry that the die holds. -/
def coreWalk (s : State) (c h : Nat) (va : DWord) : State :=
  let d := dieOfCore c
  if bitsOf va.toNat 63 57 != 0 || ((s.core c).tlb.find (tlbKey 0 h (vpnOf va))).isSome then s else
  let s := s.countEv c 0x09 1
  match s.tlb.find (tlbKey d h (vpnOf va)) with
  | some t => s.coreTlbPut c h (vpnOf va) t
  | none => s.noteWalk d h va

/-- What the walk of an address that misses the die's TLB waits for: the budget of page walks (13 R289), or a place among
the 64 walkers and the 1,024 entries of the miss queue (05 R77). -/
def walkHold (s : State) (d h : Nat) (va : DWord) : Option Nat :=
  if bitsOf va.toNat 63 57 != 0 || (s.tlb.find (tlbKey d h (vpnOf va))).isSome then none
  else if s.budgetOut d 2 || (!s.walking d h (vpnOf va) && 64 + 1024 ≤ s.walks d) then some (budgetKey d 2)
  else none
def coreWalkHold (s : State) (c h : Nat) (va : DWord) : Option Nat :=
  if ((s.core c).tlb.find (tlbKey 0 h (vpnOf va))).isSome then none else s.walkHold (dieOfCore c) h va

/-- The bytes at virtual addresses, each page checked; they may cross pages. -/
def vaRead (s : State) (d h kind : Nat) (va : DWord) (n : Nat) : Except AccFail (State × List Byte) :=
  (chunks 4096 (n / 4096 + 2) va.toNat n).foldlM (fun (s, bs) (a, k) => do
    let s := s.meet false (s.walkHold d h (BitVec.ofNat 64 a))
    let c ← s.check d h kind (BitVec.ofNat 64 a)
    if s.spaceLost d c.pa then .error (accFail 7 kind va)
    let (s, b) := (s.noteWalk d h (BitVec.ofNat 64 a)).physRead d c.kid c.pa k
    pure (s, bs ++ b)) (s, [])

/-- Write bytes at virtual addresses, every page checked before any byte is written. -/
def vaWrite (s : State) (d h kind : Nat) (va : DWord) (bs : List Byte) : Except AccFail State := do
  let runs := chunks 4096 (bs.length / 4096 + 2) va.toNat bs.length
  let cs ← runs.mapM fun (a, k) => do
    let c ← s.check d h kind (BitVec.ofNat 64 a)
    if s.spaceLost d c.pa then .error (accFail 7 kind va)
    pure (c, a, k)
  pure <| cs.foldl (fun s (c, a, k) =>
    ((s.meet true (s.walkHold d h (BitVec.ofNat 64 a))).noteWalk d h (BitVec.ofNat 64 a)).physWrite d h c.kid c.pa
      ((bs.drop (a - va.toNat)).take k)) s

/-! ## Windows -/

/-- The unit of a team. -/
def teamUnit (s : State) (c t : Nat) : Option UnitRec := do
  let tm ← (s.cc c).teams.find t
  (s.part (partOfCore c)).units.find tm.unit

/-- A troupe-role entry of a unit's binding table (02 R30). -/
def UnitRec.role (u : UnitRec) (x : Nat) : Option Word :=
  let e := u.ttable.get 0 x
  if e.getLsbD 31 then some e else none

/-- The role that an operand names: its own, or the issuing team's (02 R31). -/
def roleOf (s : State) (c t : Nat) (r : Option Nat) : Option Nat :=
  match r with
  | some x => some x
  | none => ((s.cc c).teams.find t).map Team.trole

/-- The binding of a role for a team of core `c`: core, WBASE and CBASE. -/
def binding (s : State) (c t : Nat) (r : Option Nat) : Option (Nat × Nat × Nat) := do
  let u ← s.teamUnit c t
  let x ← s.roleOf c t r
  let e ← UnitRec.role u x
  pure (24 * partOfCore c + bitsOf e.toNat 4 0, bitsOf e.toNat 13 8, bitsOf e.toNat 21 16)

/-- Window w of a role: the core that holds it and its physical number (02 R31); none where the role is
unbound or the number is 64 or more. -/
def window (s : State) (c t : Nat) (r : Option Nat) (w : Nat) : Option (Nat × Nat) := do
  let (k, wb, _) ← s.binding c t r
  if wb + w < 64 then pure (k, wb + w) else none
/-- Counter n of a role, likewise. -/
def counter (s : State) (c t : Nat) (r : Option Nat) (n : Nat) : Option (Nat × Nat) := do
  let (k, _, cb) ← s.binding c t r
  if cb + n < 64 then pure (k, cb + n) else none

end State

/-- Fields of a window descriptor (03 R53). -/
def wdV (x : DWord) : Bool := x.getLsbD 63
def wdOwner (x : DWord) : Nat := bitsOf x.toNat 55 51
def wdPitch (x : DWord) : Nat := bitsOf x.toNat 45 32
def wdLayout (x : DWord) : Nat := bitsOf x.toNat 27 24
def wdFmt (x : DWord) : Nat := bitsOf x.toNat 7 0

/-- The physical byte of logical offset o of a window (05 R83). -/
def winPhys (x : DWord) (o : Nat) : Nat :=
  let p := wdPitch x
  let row := o / p
  let c := o % p
  if wdLayout x = 0 then o
  else if wdLayout x = 4 then row * (p + 16) + c
  else
    let k := 8 * 2 ^ wdLayout x
    let g := (c % 128) / k
    row * p + (c - c % 128) + (g ^^^ (row % (128 / k))) * k + c % k

/-- Scratchpad address word fields (08 R160): role, window, offset; none where a bit is set that must be 0. -/
def spWord (x : Word) : Option (Option Nat × Nat × Nat) :=
  let n := x.toNat
  if bitsOf n 30 29 != 0 || bitsOf n 23 19 != 0 then none
  else if !x.getLsbD 31 && bitsOf n 28 24 != 0 then none
  else some (if x.getLsbD 31 then some (bitsOf n 28 24) else none, bitsOf n 18 13, bitsOf n 12 0)

/-- The scratchpad address word of an access, for its trap detail. -/
def spWordOf (r : Option Nat) (w o : Nat) : Word :=
  BitVec.ofNat 32 ((match r with | some x => 2 ^ 31 + x * 2 ^ 24 | none => 0) + w * 2 ^ 13 + o % 8192)

/-- Natural size of an .f32 access by format (10 R198); none where the pairing is outside 05 R81. -/
def f32Size (fmt : Nat) : Option Nat :=
  if fmt ≤ 1 then some 4 else if fmt ≤ 3 then some 2 else if fmt ≤ 5 || fmt = fmtB4 then some 1 else none

/-- Size of a load of type code t (10 R196). -/
def loadSize (t : Nat) : Nat := [1, 1, 2, 2, 4, 8, 16, 4].getD t 4
/-- Size of a store of size code t. -/
def storeSize (t : Nat) : Nat := 2 ^ t

/-- May a load of type code t read a page or window of a format, and with which natural size? `d` is the
destination, which an .f32 load of B4 needs even and below v111 (05 R81; 10 R198, R200). -/
def loadPair (t fmt d : Nat) : Option Nat :=
  if t = 7 then (if fmt = fmtB4 && (d % 2 = 1 || d > 110) then none else f32Size fmt)
  else if 4 ≤ t then some (loadSize t)
  else if fmt = 0 || fmt = [9, 8, 11, 10].getD t 0 then some (loadSize t)
  else none

namespace State

/-- The checks of a window access (05 R84; 10 R199), after its address word: the core, the window, phys and
the descriptor. `size` answers the natural size for the window's format, none for a pairing that is not
allowed. -/
def checkWindow (s : State) (c t kind : Nat) (r : Option Nat) (w o : Nat) (saw : Word) (size : Nat → Option Nat) :
    Except AccFail (Nat × Nat × Nat × DWord) :=
  let bad (n : Nat) : AccFail := accFail n kind (saw.setWidth 64)
  match s.window c t r w with
  | none => .error (bad 3)
  | some (k, p) =>
    let x := (s.cc k).wdesc.get 0 p
    if !wdV x then .error (bad 3) else
    match size (wdFmt x) with
    | none => .error (bad 2)
    | some n =>
      if 8192 ≤ o || 8192 ≤ winPhys x o then .error (bad 3)
      else if o % n != 0 then .error (bad 4)
      else .ok (k, p, winPhys x o, x)

/-- Bytes of a physical window of a core. -/
def winRead (s : State) (c w phys n : Nat) : List Byte :=
  (List.range n).map fun j => (s.cc c).scratch.get 0 (8192 * w + phys + j)
/-- Write bytes of a physical window, marking the line dirty since the last cut (14 R303). -/
def winWrite (s : State) (c w phys : Nat) (bs : List Byte) : State :=
  s.updCc c fun x =>
    let sc := (List.range bs.length).foldl (fun m j => m.set (8192 * w + phys + j) (bs.getD j 0)) x.scratch
    let ln := 32 * w + phys / 256
    { x with scratch := sc, dirtyLines := if x.dirtyLines.contains ln then x.dirtyLines else ln :: x.dirtyLines }

/-- Does an access to bytes of a physical window overlap an entry of its core's range scoreboard that it must
wait for (06 R115)? Entries of the operation `own` do not hold it. -/
def scoreHolds (s : State) (c w lo hi : Nat) (write : Bool) (own : Option Nat) : Bool :=
  (s.cc c).score.any fun e =>
    e.win = w && e.lo < hi && lo < e.hi && (e.dest || write) && own != some e.op

/-- The range-lock entry that an access of a warp of core `c` meets (06 R117; 21 R380). -/
def lockedBy (s : State) (c lo hi : Nat) (write : Bool) : Option (Nat × LockEntry) :=
  (s.cc c).locks.find? fun e => e.2.lo < hi && lo < e.2.hi && (e.2.dest || write) && e.2.since ≤ (s.core c).cyc

/-- The check of step 3 against the range locks. -/
def checkLock (s : State) (c kind : Nat) (va : DWord) (n : Nat) (write : Bool) : Except AccFail Unit :=
  match s.lockedBy c va.toNat (va.toNat + n) write with
  | some (i, e) => .error ⟨grpRangelock, i * 256 + (if e.dest then 16 else 0) + kind, va⟩
  | none => .ok ()

end State

end Sys2Proof.Machine
end

