-- ==== Sys2Proof/Machine/Counters.lean ====
section
/-! DEFINITION. Monotonic counters (07) and the records that agents make (20 R370; 23 R415; 17 R335 to R337):
a counter's home and value, adds and the wakes that they cause, the waiter lists, monitors and slow lists,
adds made for an agent, refusal and fault records, and trace records. -/

namespace Sys2Proof.Machine

/-- A counter's number in waiter lists and holds: its physical address, or its place in a core's file. -/
def CtrHome.id : CtrHome → Nat
  | .file c n => 2 ^ 48 + 64 * c + n
  | .mem pa _ => pa
/-- The line on which notices of the counter are sent (07 R130): a file counter is notified by its number. -/
def CtrHome.line : CtrHome → Nat
  | .file c n => 2 ^ 48 + 64 * c + n
  | .mem pa _ => lineOf pa
/-- The key ID of its page. -/
def CtrHome.kid : CtrHome → Nat
  | .file _ _ => 0
  | .mem _ kid => kid
/-- Is the counter in host memory? -/
def CtrHome.host : CtrHome → Bool
  | .file _ _ => false
  | .mem pa _ => isHost pa

/-- A scope code of a counter instruction (11 R228), as a fence scope: 0 .team is 2, 3 .sys is 5. -/
def ctrScope (c : Nat) : Nat := c + 2

/-- An agent's wait stands in waiter lists under a slot from 64 on (07 R130): 0 a queue's, 1 a graph run's, 2 a
ring's, 3 that of an evicted unit, 32 × its key + its partition (14 R300). -/
def agentSlot (kind n : Nat) : Nat := 64 + 4 * n + kind
/-- The slot of a peer's wait (16 R325). -/
def peerSlot (peer : Nat) : Nat := 2 ^ 40 + peer
/-- What a woken agent does. -/
def agentEvent (k : Nat) : Instr :=
  let n := (k - 64) / 4
  if (k - 64) % 4 = 0 then .submissionQueueEntry n else if (k - 64) % 4 = 1 then .waitNode n
  else if (k - 64) % 4 = 2 then .ringAgentPass n else .evictionWakePoll (n % 32) (n / 32)

namespace State

/-- The value of a counter at its home, for a requester on die `d`; a peer's is at the peer's slice (07 R122). -/
def ctrRead (s : State) (d : Nat) : CtrHome → DWord
  | .file c n => (s.cc c).ctr.get 0 n
  | .mem pa kid => BitVec.ofNat 64 (leNat (if isPeer pa then s.targetRead d pa 8 else s.homeRead d pa kid 0 8).2)

/-- Write a counter at its home for context `h`. -/
def ctrWrite (s : State) (d h : Nat) (v : DWord) : CtrHome → State
  | .file c n => s.updCc c fun x => { x with ctr := x.ctr.set n v }
  | .mem pa kid =>
    if isPeer pa then s.targetWrite d pa (leBytes 8 v.toNat) else
    let s := if isDevice pa then s.keepPage h (ctrPageKey pa) else s
    (s.homePut d (2 ^ 20) h pa kid 0 (leBytes 8 v.toNat)).markCtrPage h pa

/-- Is the home out of reach? (07 R127; 21 R383) -/
def ctrLost (s : State) (d : Nat) : CtrHome → Bool
  | .file _ _ => false
  | .mem pa _ => s.spaceLost d pa

/-- Complete the CWAIT that a warp is parked in (07 R124): its group moves past it, and it acquires. -/
def finishWait (s : State) (c k : Nat) (w : WaitCond) : State :=
  let s := s.updWarp c k fun x =>
    { x.updLanes w.lanes (fun _ l => if l.state = .runnable && l.pc = w.pc then { l with pc := w.pc + 4 } else l) with
      sched := { x.sched with cwait := none } }
  s.acquireAt c (ctrScope w.scope)

/-- A wake returns over Colmet to a peer. -/
def wakePeer (s : State) (peer : Nat) (v : DWord) : State :=
  s.updIo fun x => { x with peerWakes := x.peerWakes ++ [(peer, v)] }

/-- Wake a parked warp with a value that it reads (07 R129): the wait ends where the value meets its threshold. An
agent goes on with what it waited for, which reads again. -/
def wakeWith (s : State) (c k : Nat) (v : DWord) : State :=
  if 2 ^ 40 ≤ k then s.wakePeer (k - 2 ^ 40) v else
  if 64 ≤ k then s.post (agentEvent k) else
  match (s.warp c k).sched.cwait with
  | some w => if w.thr ≤ v then s.finishWait c k w else s
  | none => s

/-- The list that holds the waiters of a home (07 R129, R131). -/
def waiterList (s : State) (d : Nat) : CtrHome → List Waiter
  | .file c _ => (s.core c).waiters
  | .mem pa _ => s.waiters.get [] (sliceKey pa d)
def setWaiterList (s : State) (d : Nat) (l : List Waiter) : CtrHome → State
  | .file c _ => s.updCore c fun x => { x with waiters := l }
  | .mem pa _ => { s with waiters := s.waiters.set (sliceKey pa d) l }

/-- Cores to which a change of a counter is told (07 R130, R131). -/
def noticeCores (s : State) (home : CtrHome) : List Nat :=
  match home with
  | .file _ _ => (s.cores.filter fun e => e.2.slow.any fun w => w.ctr = home.id).map Prod.fst
  | .mem _ _ => (s.watches.filter fun e => e.1 = home.line).map Prod.snd

/-- What follows a change of a counter to `v` (07 R129 to R132): every entry whose threshold it meets wakes, in
entry order; watching cores receive a notice. The write of a host line has woken its monitors. -/
def ctrNotify (s : State) (d : Nat) (home : CtrHome) (v : DWord) : State :=
  let l := s.waiterList d home
  let met (w : Waiter) : Bool := w.ctr = home.id && decide (w.thr ≤ v)
  let s := if l.any met then s.setWaiterList d (l.filter fun w => !met w) home else s
  let s := (l.filter met).foldl (fun s w => s.wakeWith w.core w.slot v) s
  s.postAll ((s.noticeCores home).map fun c => .slowListNotice c home.line)

/-- Add to a counter at its home (07 R124, R125): the old value; none where the add is refused. -/
def ctrAdd (s : State) (d h : Nat) (home : CtrHome) (inc : DWord) : Option (DWord × State) :=
  let old := s.ctrRead d home
  if old.toNat + inc.toNat ≥ 2 ^ 64 then none
  else some (old, (s.ctrWrite d h (old + inc) home).ctrNotify d home (old + inc))

/-- Enter a waiter whose read failed (07 R129 to R132). -/
def ctrPark (s : State) (d c k : Nat) (home : CtrHome) (thr : DWord) : State :=
  let w : Waiter := { ctr := home.id, thr := thr, core := c, slot := k, kid := home.kid }
  if home.host then s.updCore c fun x => { x with monitors := x.monitors.set k home.line }
  else
    let l := s.waiterList d home
    let room := match home with
      | .file _ _ => 64
      | .mem _ _ => 256
    if l.length < room then s.setWaiterList d (l ++ [w]) home
    else
      let s := s.updCore c fun x => { x with slow := x.slow ++ [w] }
      match home with
      | .file _ _ => s
      | .mem _ _ => if s.watches.contains (home.line, c) then s else { s with watches := s.watches ++ [(home.line, c)] }

/-- Clear the watch bits of a core for lines that no slow-list entry of it names (07 R130). -/
def trimWatches (s : State) (c : Nat) : State :=
  { s with watches := s.watches.filter fun e =>
      e.2 != c || (s.core c).slow.any fun w => w.ctr < 2 ^ 48 && lineOf w.ctr = e.1 }

/-- Remove a warp's waiter-list, slow-list and monitor entries (07 R133). -/
def dropWaiters (s : State) (c k : Nat) : State :=
  let mine (w : Waiter) : Bool := w.core = c && w.slot = k
  let keep (l : List Waiter) : List Waiter := l.filter fun w => !mine w
  let ws : Map (List Waiter) := s.waiters.map fun e => (e.1, keep e.2)
  let cs : Map Core := s.cores.map fun e => (e.1, { e.2 with waiters := keep e.2.waiters, slow := keep e.2.slow })
  let s := { s with waiters := ws, cores := cs }
  (s.updCore c fun x => { x with monitors := x.monitors.del k }).trimWatches c

/-- The same for a core's load or store, which its L1 may serve without its home. -/
def coreHold (s : State) (pa cache : Nat) (write : Bool) : Option Nat :=
  if cache != 0 || s.l1Bypass pa then s.homeHold pa write
  else if s.held.any fun r => r.key = pa / 4096 then some (pa / 4096)
  else (s.lateBack (pa / 4096)).map reqKey

/-- What holds an operation on a counter: a CADDV that holds it (07 R127), or its line. -/
def ctrHold (s : State) (home : CtrHome) (write : Bool) : Option Nat :=
  if s.ctrHeld.any fun e => e.1 = home.id then some (2 ^ 60 + home.id) else
  match home with
  | .file _ _ => none
  | .mem pa _ => s.homeHold pa write

/-- Release the requests held under a key, in arrival order. -/
def unhold (s : State) (key : Nat) : State :=
  { s with held := s.held.filter fun r => r.key != key
           agenda := s.agenda ++ ((s.held.filter fun r => r.key = key).map HeldReq.ev) }

/-! ## Agent adds and records -/

def setReclost (s : State) (h : Nat) : State := s.updCtx h fun x => { x with reclost := true }

/-- The home of a counter named by virtual address, for an add (07 R123): none where the address fails. -/
def agentHome (s : State) (d h : Nat) (va : DWord) : Option CtrHome :=
  match s.check d h kCtrAdd va with
  | .ok c => if va.toNat % 8 = 0 && !s.spaceLost d c.pa then some (.mem c.pa c.kid) else none
  | .error _ => none

/-- The key of what waits for a counter operation to be made. -/
def addKey (i : Nat) : Nat := 2 ^ 63 + i
/-- The newest add of a context's engines and agents that a home holds: their adds are made in the order in which they
come (12 R248; 15 R314). -/
def lastAdd (s : State) (h : Nat) : Option Nat :=
  ((s.ctrOps.filter fun e => e.2.agent.isSome && e.2.ctx = h).map Prod.fst).getLast?

/-- Make an agent's add at a home, or hold it there. `fail` follows an add that cannot be made. -/
def makeAdd (s : State) (d h : Nat) (what : AgentAdd) (name : CounterName) (home : CtrHome) (inc : DWord) (scope : Nat)
    (fail : State → State) : State :=
  match (match s.lastAdd h with
    | some j => some (addKey j)
    | none => s.ctrHold home true) with
  | some key =>
    let (i, s) := s.newReq
    let op : CtrOp := { core := 192 * d, slot := 0, ctx := h, kind := .add, name := name, home := home,
                        inc := inc, scope := scope, agent := some what }
    { s with ctrOps := s.ctrOps.set i op }.hold key true (.counterOpAtHome i)
  | none =>
    match s.ctrAdd d h home inc with
    | some (_, s) => s
    | none => fail s

/-- Add 1 to REFCTR or FLTCTR (23 R415): an add that cannot be made is lost. -/
def noteAdd (s : State) (d h : Nat) (va : DWord) (inc : Word) : State :=
  if va = 0 then s.setReclost h else
  match s.agentHome d h va with
  | some home => s.makeAdd d h .note (.addr va) home (inc.setWidth 64) 2 fun s => s.setReclost h
  | none => s.setReclost h

/-- Write a 16-byte record into the context's launch-status area (23 R415). -/
def lsaWrite (s : State) (d h : Nat) (rec : BitVec 128) : State :=
  let x := s.ctx h
  if x.lsa = 0 then s.setReclost h else
  match s.vaWrite d h kStore (x.lsa + BitVec.ofNat 64 (16 * (x.lspos.toNat % 256))) (leBytes 16 rec.toNat) with
  | .ok s => s.updCtx h fun x => { x with lspos := x.lspos + 1 }
  | .error _ => s.setReclost h

/-- A refusal record: its code and the address concerned (13 R277; 23 R415). -/
def refusal (s : State) (d h code : Nat) (addr : DWord) : State :=
  (s.lsaWrite d h (addr ++ 0#56 ++ BitVec.ofNat 8 code)).noteAdd d h (s.ctx h).refctr 1

/-- A fault record (20 R370): code, the core and slot concerned, and 12 bytes of detail. -/
def faultRecord (s : State) (h code core slot : Nat) (detail : BitVec 96) : State :=
  let d := dieOfCore core
  let w := code + d * 2 ^ 8 + core / 24 % 8 * 2 ^ 10 + core % 24 * 2 ^ 13 + slot % 32 * 2 ^ 18
  (s.lsaWrite d h (detail ++ BitVec.ofNat 32 w)).noteAdd d h (s.ctx h).fltctr 1

/-- The value that names a counter in a fault record (21 R384). -/
def ctrNameWord : CounterName → DWord
  | .addr va => va
  | .num r n => BitVec.ofNat 64 (2 ^ 63 + r * 2 ^ 8 + n)

/-- An action of a Vigil slot failed (15 R316; 22 R399): a record where NERR was 0. Cause: 1 an add, 2 a FORK. A slot that
the context no longer holds keeps no state (15 R310). -/
def setNerr (s : State) (core h k cause : Nat) : State :=
  if (s.vigil.slots.get {} k).owner != some h || (s.vigil.slots.get {} k).nerr then s else
  let v : Vigil := { s.vigil with slots := s.vigil.slots.upd {} k fun x => { x with nerr := true } }
  State.faultRecord { s with vigil := v } h 0x50 core 0 (BitVec.ofNat 96 (k + cause * 2 ^ 16))

/-- What follows an agent's add that is not made (21 R384). -/
def agentAddFails (s : State) (core h : Nat) (what : AgentAdd) (name : CounterName) (inc : Word) : State :=
  let rec23 (s : State) : State := s.faultRecord h 0x23 core 0 (inc ++ ctrNameWord name)
  match what with
  | .note => s.setReclost h
  | .vigil k => s.setNerr core h k 1
  | .signal r node =>
    let s := (rec23 s).refusal (dieOfCore core) h 0x12 (BitVec.ofNat 64 node)
    { s with runs := s.runs.map fun e => if e.1 = r then (r, { e.2 with node := 0 }) else e }
  | .batch => rec23 s
  | .count => rec23 s
  | .launch => rec23 s
  | .ckpt => rec23 s

/-- An add that an engine or agent near `core` makes for a context, by virtual address (07 R134). -/
def agentAddBig (s : State) (core h : Nat) (what : AgentAdd) (va inc : DWord) (scope : Nat) : State :=
  let fail (s : State) : State := s.agentAddFails core h what (.addr va) (lo32 inc)
  match s.agentHome (dieOfCore core) h va with
  | some home => s.makeAdd (dieOfCore core) h what (.addr va) home inc scope fail
  | none => fail s

/-- Of a 32-bit increment. -/
def agentAdd (s : State) (core h : Nat) (what : AgentAdd) (va : DWord) (inc : Word) (scope : Nat) : State :=
  s.agentAddBig core h what va (inc.setWidth 64) scope

/-- Such an add to a numbered counter of a team of the core. -/
def agentAddNum (s : State) (core h team : Nat) (what : AgentAdd) (role n : Nat) (inc : Word) (scope : Nat) : State :=
  let fail (s : State) : State := s.agentAddFails core h what (.num role n) inc
  match s.counter core team (some role) n with
  | some (k, m) => s.makeAdd (dieOfCore core) h what (.num role n) (.file k m) (inc.setWidth 64) scope fail
  | none => fail s

/-- Add at the home slice of a physical address that belongs to no context (05 R78; 16 R322); one that its home holds
waits with the event that makes it. -/
def physAdd (s : State) (va : DWord) (inc : Word) : Option State :=
  if !populated8 va then none else
  let home : CtrHome := .mem va.toNat 0
  ((s.meet true (s.ctrHold home true)).ctrAdd 0 1024 home (inc.setWidth 64)).map Prod.snd

/-! ## Trace -/

/-- Fields of a trace control block (17 R334). -/
def tcbQlog (b : Block) : Nat := bitsOf b.toNat 39 32
def tcbKen (b : Block) (kind : Nat) : Bool := kind = 9 || (kind ≠ 0 && b.toNat.testBit (8 + (kind - 1)))
def tcbSper (b : Block) : Nat := bitsOf b.toNat 4 0
def tcbBase (b : Block) : DWord := b.extractLsb' 64 64
def tcbTpos (b : Block) : DWord := b.extractLsb' 128 64
def tcbLctr (b : Block) : DWord := b.extractLsb' 192 64

/-- The V-F index of a core's die (17 R335). -/
def vfOf (s : State) (c : Nat) : Nat := (s.die (dieOfCore c)).vfCur.toNat

/-- The first 56 bytes of a record that core `c` makes (17 R335). -/
def traceHead (s : State) (c kind wid aux npre : Nat) (rgns : BitVec 64) (body : BitVec 320) : Block :=
  let hd := aux + wid * 2 ^ 29 + c % 24 * 2 ^ 34 + c / 24 % 8 * 2 ^ 39 + dieOfCore c * 2 ^ 42 + s.vfOf c * 2 ^ 44 +
    min npre 127 * 2 ^ 48 + (if npre = 0 then 0 else 2 ^ 55) + kind * 2 ^ 56
  0#64 ++ rgns ++ BitVec.ofNat 64 hd ++ body

/-- Make a record: into the core's buffer of 64, or dropped and counted (17 R337). -/
def trace (s : State) (c kind wid aux npre : Nat) (rgns : BitVec 64) (body : BitVec 320) : State :=
  let x := s.core c
  if tcbQlog x.traceBlk = 0 || !tcbKen x.traceBlk kind then s
  else if 64 ≤ x.trace.length then (s.updCore c fun y => { y with lost := y.lost + 1 }).countEv c 0x0F 1
  else (s.updCore c fun y => { y with trace := y.trace ++ [s.traceHead c kind wid aux npre rgns body] }).post
    (.traceRecordWrite c)

/-- A record's body from a low part and CYC at bits [127:64] (17 R336). -/
def bodyCyc (s : State) (c : Nat) (low : BitVec 64) : BitVec 320 :=
  0#192 ++ BitVec.ofNat 64 (s.core c).cyc ++ low

end State

end Sys2Proof.Machine
end

