-- ==== Sys2Proof/Machine/Ops.lean ====
section
/-! DEFINITION. What every instruction shares: results and their landing (08 R149 to R152), reconvergence
(02 R27, R28), taking a trap and returning from one (20 R362 to R371), and the run of one instruction: not
ready, the issue checks, its own effect, the advance of its lanes and the stall count. -/

namespace Sys2Proof.Machine

/-- Cause groups used here (20 R372). -/
def grpEncoding : Nat := 1
def grpPrivilege : Nat := 2
def grpStallcheck : Nat := 3
def grpArith : Nat := 4
def grpRegblock : Nat := 0xB
def grpCallstack : Nat := 0xC
def grpSequence : Nat := 0xD
def grpDebug : Nat := 0xE
def grpService : Nat := 0xF
def grpCopy : Nat := 9
def grpMatrix : Nat := 0xA
def grpCounter : Nat := 8
def grpLink : Nat := 0x10
def grpMachine : Nat := 0x11
def grpRestore : Nat := 0x12
def grpSpawn : Nat := 0x13

/-! ## Results -/

namespace Warp

/-- Does one value reach a lane's register; a result also enters h0 and h1 (03 R43). -/
def landLane (w : Warp) (n l : Nat) (x : Word) : Warp :=
  let w := if n = 122 then w else w.setV n l x
  (w.setV 121 l (w.v 120 l)).setV 120 l x

/-- Write one fixed-latency result and set its flags (08 R150; 11 R227). -/
def land (w : Warp) (p : Pend) : Warp :=
  let w := match p.file with
    | .lane => p.vals.foldl (fun (w : Warp) (e : Nat × Word) => w.landLane p.num e.1 e.2) w
    | .pred => p.vals.foldl (fun (w : Warp) (e : Nat × Word) => w.setP p.num e.1 (e.2 != 0#32)) w
    | .uni => w.setS p.num (p.vals.get 0 0)
    | .upred => w.setSp p.num (p.vals.get 0 0 != 0#32)
  w.updUni fun u => { u with fstat := u.fstat ||| p.fstat, qstat := u.qstat ||| p.qstat }

/-- Insert a result behind those that land no later. -/
def insertPend (p : Pend) : List Pend → List Pend
  | [] => [p]
  | q :: qs => if p.lands < q.lands then p :: q :: qs else q :: insertPend p qs
/-- Results in the order in which they land: of two in one cycle, the one issued later lands last (08 R152). -/
def landOrder (ps : List Pend) : List Pend := ps.foldl (fun acc p => insertPend p acc) []

/-- Write the results that have landed before cycle `now`. -/
def landDue (w : Warp) (now : Nat) : Warp :=
  if w.pend.isEmpty then w else
  (landOrder (w.pend.filter fun p => p.lands < now)).foldl land
    { w with pend := w.pend.filter fun p => !(p.lands < now) }
/-- Write every result that is pending. -/
def landAll (w : Warp) : Warp := (landOrder w.pend).foldl land { w with pend := [] }

/-- The last cycle at whose end a result of the warp lands. -/
def lastLanding (w : Warp) : Nat := w.pend.foldl (fun m p => max m p.lands) 0

/-- R28: where every lane that has not exited is parked, those parked at the lowest address are released. -/
def release (w : Warp) : Warp :=
  let parked := w.lanesIn .parked
  if parked = 0#32 || w.lanesIn .runnable != 0#32 then w else
  let a := (lanesOf parked).foldl (fun m l => min m (w.lane l).park.toNat) (2 ^ 32)
  w.updLanes parked fun _ x =>
    if x.park.toNat = a then { x with state := .runnable, pc := x.park + 4, waits := 0 } else x

/-- Lanes leave an incomplete REP sequence by exiting or by a handler's edit; with none left it ends. -/
def leaveRep (w : Warp) (m : Mask) : Warp :=
  match w.uni.rep with
  | some r =>
    if r.lanes &&& ~~~m = 0#32 then w.updUni fun u => { u with rep := none, repIdx := 0 }
    else w.updUni fun u => { u with rep := some { r with lanes := r.lanes &&& ~~~m } }
  | none => w

/-- End of a handler (20 R369): every held lane is released, and R28 is evaluated again. -/
def leaveHandler (w : Warp) : Warp := (w.updTrap fun t => { t with inHandler := false }).release

/-- Is a lane held while a handler runs? (20 R364) -/
def held (w : Warp) (l : Nat) : Bool := w.trap.inHandler && !w.trap.tmask.getLsbD l

end Warp

/-- Is a stalled SPAWN that of a group at a PC? -/
def SpawnStall.of (p : SpawnStall) (pc : Word) (g : Mask) : Bool := p.pc = pc && p.lanes &&& g != 0#32

/-- TDET0 of a trap (20 R371). -/
def tdet0 (t : TrapInfo) (npend : Nat) : Word :=
  BitVec.ofNat 32 (t.code * 2 ^ 16 + (if t.async then 2 ^ 15 else 0) +
    (if t.lv then 2 ^ 14 + t.lane * 2 ^ 8 else 0) + min npend 7 * 2 ^ 5 + t.group)

/-- An instruction's outcome: where its lanes go, or what stops it. -/
inductive Flow where
  /-- every lane of Active advances to the fall-through -/
  | fall
  /-- each lane of Active goes to its own PC -/
  | goto (pc : Nat → Word)
  /-- the lanes have been moved, or stay -/
  | stay

inductive Did where
  | done (s : State) (f : Flow)
  | trap (s : State) (t : TrapInfo)
  /-- not ready: nothing has happened -/
  | wait (s : State)

namespace State

/-- Cycles of the issuing core. -/
def now (s : State) : Nat := (s.core s.cur.core).cyc
/-- The warp that issues. -/
def me (s : State) : Warp := s.warp s.cur.core s.cur.slot
def updMe (s : State) (f : Warp → Warp) : State := s.updWarp s.cur.core s.cur.slot f
/-- The die and context of the warp that issues. -/
def myDie (s : State) : Nat := dieOfCore s.cur.core
def myCtx (s : State) : Nat := s.me.ctx
/-- The lowest lane of Active, from which a uniform instruction reads a per-lane value (03 R50). -/
def firstLane (s : State) : Nat := (lanesOf s.cur.lanes).headD 0
/-- The PC after the unit (08 R141). -/
def fallThrough (s : State) : Word := s.cur.pc + BitVec.ofNat 32 (4 * (s.cur.pos + 1))

/-- A trap of the running instruction at its unit. -/
def trapAt (s : State) (group code : Nat) (t1 t2 : Word) : TrapInfo :=
  { group := group, code := code, async := false, lv := false, lane := 0, t1 := t1, t2 := t2, epc := s.cur.pc }
/-- A trap that names a lane. -/
def trapLane (s : State) (group code lane : Nat) (t1 t2 : Word) : TrapInfo :=
  { s.trapAt group code t1 t2 with lv := true, lane := lane }
/-- An ENCODING trap that an instruction's values raise (20 R374). -/
def encTrap (s : State) (r : EncReason) (value : Word) : TrapInfo :=
  s.trapAt grpEncoding (r.code * 256 + s.cur.pos) s.cur.word value

/-! ## Traps -/

/-- A partition goes offline (22 R392, R393): what it holds for a gang is withdrawn, a gang committed or running on it
stops as a whole, and the management controller sees to the gangs that its agent submits (R394). -/
def offlinePart (s : State) (p : Nat) : State :=
  let x := s.part p
  if x.offline then s else
  let s := s.updPart p fun y => { y with offline := true, gang := .free, reserved := [] }
  let s := match x.gang with
    | .heldFor g => s.post (.withdraw g p)
    | _ => s
  let committed := match x.gang with
    | .committed g => (s.gangs.find g).toList
    | _ => []
  let ls := (committed.map (·.launch) ++ (x.units.filter fun u => 1 < u.2.groles).map fun u => u.2.launch).dedup
  let on (l : Nat) : List Nat := (s.parts.filter fun e => e.2.units.any fun u => u.2.launch = l).map Prod.fst
  let others := ((committed.flatMap (·.parts)) ++ ls.flatMap on).dedup.filter fun q => q != p
  let s := s.postAll (others.map fun q => .stop q)
  let hs := ls.filterMap fun l => (s.launches.find l).map (·.ctx)
  let s := hs.foldl (fun (s : State) h => s.faultRecord h 0x25 (24 * p) 0 0) s
  s.postAll ((s.gangs.filter fun g => g.2.agent = p).map fun g => .gangCollectTimeout g.1)

/-- Is a warp stopped for the debugger, or frozen (17 R341; 20 R370)? -/
def stopped (w : Warp) : Bool := w.trap.dbgStopped || w.trap.frozen
/-- The parts of a context: the core contexts on the core arrays and in shadow stores. -/
def ctxCores (s : State) (h : Nat) : List (Nat × CoreCtx) :=
  ((s.cores.filter fun e => e.2.cc.ctx = h).map fun e => (e.1, e.2.cc)) ++
    s.parts.flatMap fun p => match p.2.standby with
      | some y => if y.ctx = h then y.cores.map fun e => (24 * p.1 + e.1, e.2) else []
      | none => []
/-- NSTOP before its saturation (17 R340). -/
def nstop (s : State) (h : Nat) : Nat :=
  (s.ctxCores h).foldl (fun n e => n + (e.2.warps.filter fun w => stopped w.2).length) 0
/-- With ALL, the first warp of a context to stop stops every partition that runs it (17 R340). -/
def firstStop (s : State) (h : Nat) : List Instr :=
  if s.nstop h = 0 && (s.ctx h).all then (s.parts.filter fun e => e.2.running = some h).map fun e => .stop e.1 else []

/-- Freeze a warp (20 R370): a STOP record, a fault record with TDET0 to TDET2, and FLTCTR; it counts as stopped for the
debugger, so ALL holds of it too. A firmware agent that freezes takes its partition offline (22 R392). -/
def freeze (s : State) (c k code : Nat) : State :=
  let stops := if k = fwSlot then [] else s.firstStop (s.warp c k).ctx
  let s := s.updWarp c k fun w => w.updTrap fun t => { t with frozen := true }
  let w := s.warp c k
  let s := s.trace c 4 w.wid 3 0 w.rgns (s.bodyCyc c (w.trap.epc.setWidth 64))
  let s := s.faultRecord w.ctx code c k (w.trap.tdet2 ++ w.trap.tdet1 ++ w.trap.tdet0)
  if k = fwSlot then s.offlinePart (partOfCore c) else s.postAll stops

/-- Trap entry (20 R364): group `g` of the warp in slot `k` of core `c` takes the trap. The warp then waits for every
fixed-latency result as after a stall count of 3, those of the other instruction of the cycle too. -/
def takeTrap (s : State) (c k : Nat) (g : Mask) (t : TrapInfo) : State :=
  let now := (s.core c).cyc
  let w := s.warp c k
  let until_ := max (now + 4) (w.lastLanding + 1)
  let w := { w.updTrap fun x => { x with
      tdet0 := tdet0 t w.trap.async.length, tdet1 := t.t1, tdet2 := t.t2, epc := t.epc } with
    sched := { w.sched with stallUntil := max w.sched.stallUntil until_, stallAll := true } }
  let s := s.updWarp c k fun _ => w
  if w.trap.tvec = 0 then s.freeze c k 0x20
  else if w.trap.inHandler then s.freeze c k 0x21
  else s.updWarp c k fun w =>
    (w.updTrap fun x => { x with tmask := g, inHandler := true }).updLanes g
      fun _ l => { l with pc := w.trap.tvec, notBefore := 0 }

/-- An asynchronous trap becomes pending on a warp (20 R362). -/
def pendAsync (s : State) (c k : Nat) (t : TrapInfo) : State :=
  s.updWarp c k fun w => w.updTrap fun x => { x with async := x.async ++ [{ t with async := true }] }

/-- The pending asynchronous trap that is taken next: the lowest cause group, the oldest of it (20 R369). -/
def nextAsync (w : Warp) : Option TrapInfo :=
  w.trap.async.foldl (fun b t => match b with
    | none => some t
    | some u => if t.group < u.group then some t else some u) none

/-- The running instruction has not issued. -/
def putOff (s : State) : State := { s with cur := { s.cur with off := true } }

/-- A synchronous trap of the running instruction: of the second of a pair whose first trapped, none of it
happens (20 R365). -/
def syncTrap (s : State) (t : TrapInfo) : State :=
  if s.cur.second && s.cur.firstTrapped then s.putOff
  else { s.takeTrap s.cur.core s.cur.slot s.cur.lanes t with cur := { s.cur with firstTrapped := true } }

/-- Return from a trap (11 R236; 20 R369): the group goes to EPC; the first such return of a handler releases
the held lanes. The handler's own interrupted REP, or stalled SPAWN, goes on where EPC is its unit's PC, and ends otherwise
(08 R156; 10 R215). -/
def returnFromTrap (s : State) (c k : Nat) (g : Mask) : State :=
  s.updWarp c k fun w =>
    let w := w.updLanes g fun _ l => { l with pc := w.trap.epc }
    if w.trap.inHandler then
      let w := match w.uni.rep with
        | some r =>
          if r.lanes &&& w.trap.tmask = 0#32 then w
          else if r.pc = w.trap.epc then w.updUni fun u => { u with rep := some { r with lanes := g } }
          else w.updUni fun u => { u with rep := none, repIdx := 0 }
        | none => w
      let w := w.updSched fun x => { x with spawns := x.spawns.filter fun p =>
        p.lanes &&& w.trap.tmask = 0#32 || p.pc = w.trap.epc }
      w.leaveHandler
    else w

/-! ## Readiness and the issue checks -/

/-- The registers that a list of register groups names. -/
def regsOf (gs : List (Nat × Nat)) : List Nat :=
  gs.foldl (fun acc g => acc ++ (List.range g.2).map (g.1 + ·)) []

/-- Does a variable-latency result pend on a register that the instruction reads or writes, in a lane of
Active (08 R151)? The blocks of a waiting RACQ count (11 R232). -/
def operandPending (s : State) (iss : Issue) (i : Instr) : Bool :=
  let w := s.warp iss.core iss.slot
  let n := i.names
  let hit (f : RegFile) (r : Nat) : Bool :=
    w.var.any fun v => v.file = f && v.num = r && (f = .uni || f = .upred || v.lanes &&& iss.lanes != 0#32)
  let racq (r : Nat) : Bool := w.sched.racq.any fun q => decide (r < 112) && q.mask.testBit (r / 16)
  (regsOf (n.la ++ n.ld)).any (fun r => hit .lane r || racq r) || (n.pr ++ n.pw).any (hit .pred) ||
    (regsOf (n.ua ++ n.ud)).any (hit .uni) || (n.sr ++ n.sw).any (hit .upred)

/-- The quad of a slot (01 R14). -/
def quadOf (k : Nat) : Nat := if k = fwSlot then 0 else k / 8
/-- A unit's index among the units of a quad. -/
def unitIdx : IssueUnit → Nat
  | .memory => 0
  | .sfu => 1
  | .cross => 2
  | .engine => 3
  | .scalar => 4
/-- Does an earlier operation still hold a unit that the instruction needs (02 R23; 09 R169)? -/
def unitBusy (s : State) (iss : Issue) (i : Instr) : Bool :=
  let c := s.core iss.core
  i.names.units.any fun u => c.cyc < c.unitFree.get 0 (8 * quadOf iss.slot + unitIdx u)
/-- Hold a unit of the issuing quad for `n` cycles from the issue. -/
def holdUnit (s : State) (u : IssueUnit) (n : Nat) : State :=
  s.updCore s.cur.core fun c => { c with unitFree := c.unitFree.set (8 * quadOf s.cur.slot + unitIdx u) (c.cyc + n) }

/-- Is another REP sequence incomplete, of other lanes or of another unit (08 R156, R157)? -/
def otherRep (s : State) (iss : Issue) : Bool :=
  match (s.warp iss.core iss.slot).uni.rep with
  | some r => iss.rep.isSome && !(r.pc = iss.pc && iss.lanes &&& ~~~r.lanes = 0#32)
  | none => false

/-- Is an atomic with a scope of lanes of the group not yet performed? Its acquire holds their later accesses (06 R105,
R110). -/
def acquiring (s : State) (iss : Issue) : Bool :=
  s.reqs.any fun e => e.2.core = iss.core && e.2.slot = iss.slot && e.2.scope != 0 && !e.2.performed &&
    e.2.accs.any fun a => iss.lanes.getLsbD a.lane

/-- The conditions of 02 R23 that hold back any instruction of a group. -/
def notReady (s : State) (iss : Issue) (i : Instr) : Bool :=
  s.operandPending iss i || s.unitBusy iss i || s.otherRep iss || s.acquiring iss

/-- REGBLOCK of an instruction that names a register in an unmapped block (03 R44; 20 R372). -/
def blockTrap (s : State) (i : Instr) : Option TrapInfo :=
  let w := s.me
  let bad := (regsOf (i.names.la ++ i.names.ld)).filter fun r => r < 112 && !w.mapped (r / 16)
  match bad with
  | [] => none
  | r :: _ =>
    let blocks := bad.foldl (fun m r => if m.testBit (r / 16) then m else m + 2 ^ (r / 16)) 0
    some (s.trapAt grpRegblock (0x1000 + blocks) s.cur.word (BitVec.ofNat 32 r))

/-- The cycle at whose end the last fixed-latency result pending on a register lands, if one pends in a lane
of Active (08 R152). h0 and h1 pend with every lane result (03 R43). -/
def pendingUntil (w : Warp) (lanes : Mask) (f : RegFile) (r : Nat) : Option Nat :=
  w.pend.foldl (fun m p =>
    if p.file = f && (p.num = r || (f = .lane && (r = 120 || r = 121))) &&
        (f = .uni || f = .upred || p.vals.any fun e => lanes.getLsbD e.1)
    then some (max (m.getD 0) p.lands) else m) none

/-- STALLCHECK of an instruction under MODE.SCC = 1 (08 R152; 20 R372): sources before destinations, in each
lane registers, p, s and sp. -/
def stallTrap (s : State) (i : Instr) : Option TrapInfo :=
  if !s.cur.mode.getLsbD 4 then none else
  let w := s.me
  let n := i.names
  let tag (dst kind : Nat) (rs : List Nat) : List (Nat × Nat × Nat) := rs.map fun r => (dst, kind, r)
  let all := tag 0 0 (regsOf n.la) ++ tag 0 1 n.pr ++ tag 0 2 (regsOf n.ua) ++ tag 0 3 n.sr ++
    tag 1 0 (regsOf n.ld) ++ tag 1 1 n.pw ++ tag 1 2 (regsOf n.ud) ++ tag 1 3 n.sw
  let file (k : Nat) : RegFile := if k = 0 then .lane else if k = 1 then .pred else if k = 2 then .uni else .upred
  all.findSome? fun (dst, kind, r) =>
    if kind = 0 && 122 ≤ r then none else
    (pendingUntil w s.cur.lanes (file kind) r).map fun t =>
      s.trapAt grpStallcheck (kind * 2 ^ 12 + dst * 2 ^ 11 + r) s.cur.word (BitVec.ofNat 32 (max 1 (t + 1 - s.now)))

/-- The issue-stage check (20 R366): REGBLOCK, then STALLCHECK. -/
def issueTrap (s : State) (i : Instr) : Option TrapInfo :=
  match s.blockTrap i with
  | some t => some t
  | none => s.stallTrap i

/-! ## The run of an instruction -/

/-- The least wait that a stall count fixes, counted from the issue cycle (08 R149). -/
def stallWait (sc : BitVec 2) : Nat := if sc = 1#2 then 2 else if sc = 2#2 then 4 else 1

/-- The stall-count wait of the warp after the issue; of a pair the longer wait applies (02 R25). -/
def stall (s : State) (sc : BitVec 2) : State :=
  let t := s.now + stallWait sc
  s.updMe fun w => w.updSched fun x =>
    if s.cur.second then { x with stallUntil := max x.stallUntil t, stallAll := x.stallAll || sc = 3#2 }
    else { x with stallUntil := t, stallAll := sc = 3#2 }

/-- Move the lanes of Active (08 R141). -/
def flow (s : State) (f : Flow) : State :=
  match f with
  | .fall => s.updMe fun w => w.updLanes s.cur.lanes fun _ l => { l with pc := s.fallThrough }
  | .goto pc => s.updMe fun w => w.updLanes s.cur.lanes fun n l => { l with pc := pc n }
  | .stay => s

/-- After a repeat (08 R154): the group advances past the unit when the last repeat has issued. A repeat that waits for
its home is not over: the home's answer goes on (`ctrAdvance`). -/
def repeated (s : State) (n : Nat) (f : Flow) : State :=
  let k := s.me.uni.repIdx + 1
  match f with
  | .stay => s.updMe fun w => w.updUni fun u => { u with rep := some ⟨s.cur.pc, s.cur.lanes⟩ }
  | _ =>
  if k < n then s.updMe fun w => w.updUni fun u => { u with repIdx := k, rep := some ⟨s.cur.pc, s.cur.lanes⟩ }
  else (s.flow f).updMe fun w => w.updUni fun u => { u with repIdx := 0, rep := none }

/-- Complete an instruction: the stall count, and the lanes' advance. -/
def complete (s : State) (sc : BitVec 2) (f : Flow) : State :=
  let s := s.stall sc
  match s.cur.rep with
  | some (n, _) => s.repeated n f
  | none => s.flow f

/-- Run an instruction of the issuing group: where it is not ready nothing happens; the issue checks; its own
effect. -/
def issue (s : State) (i : Instr) (sc : BitVec 2) (body : State → Did) : State :=
  if s.notReady s.cur i then s.putOff else
  match s.issueTrap i with
  | some t => s.syncTrap t
  | none => match body s with
    | .done s f => s.complete sc f
    | .trap s t => s.syncTrap t
    | .wait s => s.putOff

/-- Mark the register blocks of registers of a warp dirty since the last cut (14 R303). -/
def markRegs (s : State) (c k : Nat) (rs : List Nat) : State :=
  let bs := (rs.filter fun r => r < 112).map fun r => 8 * k + r / 16
  let new := bs.filter fun b => !(s.cc c).dirtyBlocks.contains b
  if new.isEmpty then s else s.updCc c fun x => { x with dirtyBlocks := x.dirtyBlocks ++ new.dedup }

/-- Add fixed-latency results of the running instruction (08 R150), the low word of a pair first. -/
def addResults (s : State) (lat : Nat) (rs : List Pend) : State :=
  let t := s.now + lat - 1
  let s := s.markRegs s.cur.core s.cur.slot ((rs.filter fun p => p.file = .lane).map Pend.num)
  s.updMe fun w => { w with pend := w.pend ++ rs.map fun p => { p with lands := t } }

/-- Mark registers of the running warp's lanes as waiting for a variable-latency result (08 R151). -/
def addVar (s : State) (file : RegFile) (num n : Nat) (lanes : Mask) (req : Nat) : State :=
  if file = .lane && 112 ≤ num && num = 122 then s else
  s.updMe fun w => { w with var := w.var ++ (List.range n).map fun j => ⟨file, num + j, lanes, req⟩ }
/-- The variable-latency results of a request have been written, or are discarded. -/
def dropVar (s : State) (c k req : Nat) : State :=
  s.updWarp c k fun w => { w with var := w.var.filter fun v => v.req != req }

end State

end Sys2Proof.Machine
end

