-- ==== Sys2Proof/Machine/Operands.lean ====
section
/-! DEFINITION. The operand forms (08 R143 to R148, R160) and the shapes of a result: what a lane specifier
reads, lane and predicate results, floating-point results with their flags and ARITH (04 R68), uniform
operands and results, lane groups (09 R189), and global addresses (10 R196). -/

namespace Sys2Proof.Machine.State

/-- What a lane specifier reads in a lane (08 R145). -/
def val (s : State) (spec l : Nat) : Word :=
  if spec = 122 then 0
  else if spec = 123 then BitVec.ofNat 32 l
  else if spec = 124 then s.cur.lit.getD 0
  else s.me.v spec l
/-- A 64-bit lane operand (00 R2). -/
def val64 (s : State) (spec l : Nat) : DWord := pairOf (s.val spec l) (s.val (spec + 1) l)

/-- A result of the lanes of Active for a register file. -/
def laneRes (s : State) (file : RegFile) (d : Nat) (f : Nat → Word) : Pend :=
  { file := file, num := d, vals := (lanesOf s.cur.lanes).map fun l => (l, f l), lands := 0 }

/-- One 32-bit result in each lane of Active. -/
def laneOp (s : State) (lat : Nat) (d : BitVec 7) (f : Nat → Word) : Did :=
  .done (s.addResults lat [s.laneRes .lane d.toNat f]) .fall
/-- A predicate result in each lane of Active. -/
def predOp (s : State) (lat : Nat) (p : BitVec 3) (f : Nat → Bool) : Did :=
  .done (s.addResults lat [s.laneRes .pred p.toNat fun l => if f l then 1 else 0]) .fall

/-- Flags ORed over the lanes of Active. -/
def orLanes (s : State) (f : Nat → Word) : Word := (lanesOf s.cur.lanes).foldl (fun a l => a ||| f l) 0

/-- The conditions that the captured MODE enables, as FSTAT bits (03 R48). -/
def enables (s : State) : Word := (s.cur.mode >>> 8) &&& 0x1F#32
/-- MODE.RM and MODE.SUB of the issue. -/
def rm (s : State) : Nat := bitsOf s.cur.mode.toNat 1 0
def sub (s : State) : Bool := s.cur.mode.getLsbD 2

/-- Results that can set FSTAT (04 R66, R68; 20 R363): where MODE enables a condition that some lane raises, no
lane writes, the flags are set and ARITH is raised; while any enable is set, the group waits for its result. -/
def flagOp (s : State) (lat : Nat) (rs : List Pend) (fl : Nat → Word) : Did :=
  let all := s.orLanes fl
  let en := s.enables
  let bad := maskOf fun l => s.cur.lanes.getLsbD l && (fl l &&& en) != 0#32
  if bad = 0#32 then
    let rs := match rs with
      | r :: rest => { r with fstat := all } :: rest
      | [] => []
    let s := s.addResults lat rs
    let s := if en = 0#32 then s else
      s.updMe fun w => w.updLanes s.cur.lanes fun _ x => { x with notBefore := s.now + lat }
    .done s .fall
  else
    let s := s.updMe fun w => w.updUni fun u => { u with fstat := u.fstat ||| all }
    .trap s (s.trapLane grpArith (all &&& en).toNat ((lanesOf bad).headD 0) bad s.cur.word)

/-- One floating-point result in each lane of Active. -/
def fpOp (s : State) (lat : Nat) (d : BitVec 7) (f : Nat → Nat × Word) : Did :=
  s.flagOp lat [s.laneRes .lane d.toNat fun l => BitVec.ofNat 32 (f l).1] fun l => (f l).2

/-- Both elements of a packed operation (09 R180). -/
def packedOp (s : State) (d : BitVec 7) (f : Nat → Nat → Nat × Word) : Did :=
  s.fpOp 4 d fun l =>
    let x := f l 0
    let y := f l 1
    (x.1 + y.1 * 2 ^ 16, x.2 ||| y.2)
/-- The format of a packed operation, and element e of a register (04 R59). -/
def packedFmt (t : BitVec 1) : Fmt := if t = 1#1 then .f16 else .bf16
def half (x : Word) (e : Nat) : Nat := bitsOf x.toNat (16 * e + 15) (16 * e)

/-! ## Lane groups -/

/-- The group width of OPC[1:0] (09 R189). -/
def groupWidth (g : BitVec 2) : Nat := 8 * 2 ^ g.toNat
def groupBase (g l : Nat) : Nat := l - l % g
/-- S: the lanes of the group of lane l that are in Active, ascending. -/
def groupLanes (s : State) (g l : Nat) : List Nat :=
  (lanesOf s.cur.lanes).filter fun j => groupBase g j = groupBase g l
/-- The control word that governs a group: its lowest active lane's (09 R190). -/
def groupWord (s : State) (g l : Nat) (b : BitVec 7) : Word := s.val b.toNat ((s.groupLanes g l).headD l)

/-- The check of every active lane's control word (09 R190). -/
def controlWords (s : State) (b : BitVec 7) (ok : Word → Bool) (body : Did) : Did :=
  match (lanesOf s.cur.lanes).find? fun l => !ok (s.val b.toNat l) with
  | some l => .trap s (s.encTrap .controlWord (s.val b.toNat l))
  | none => body

/-! ## Uniform operands -/

/-- A uniform register or pair as it stands at the issue. -/
def us (s : State) (a : BitVec 6) : Word := s.me.s a.toNat
def us64 (s : State) (a : BitVec 6) : DWord := s.me.s64 a.toNat
/-- One uniform result of latency 2 (11 R223). -/
def uniOp (s : State) (d : BitVec 6) (x : Word) : Did :=
  .done (s.addResults 2 [{ file := .uni, num := d.toNat, vals := [(0, x)], lands := 0 }]) .fall
/-- A 64-bit uniform result. -/
def uniOp64 (s : State) (d : BitVec 6) (x : DWord) : Did :=
  .done (s.addResults 2 [{ file := .uni, num := d.toNat, vals := [(0, lo32 x)], lands := 0 },
    { file := .uni, num := d.toNat + 1, vals := [(0, hi32 x)], lands := 0 }]) .fall

/-! ## Addresses -/

/-- The global address of a lane: base pair, offset, scale (10 R196). -/
def globalAddr (s : State) (a : BitVec 7) (b : BitVec 5) (scale : BitVec 1) (size l : Nat) : DWord :=
  s.me.s64 (2 * b.toNat) + (s.val a.toNat l).setWidth 64 * BitVec.ofNat 64 (if scale = 1#1 then size else 1)
/-- A lane's 64-bit address from a lane pair (08 R160). -/
def laneAddr (s : State) (a : BitVec 6) (l : Nat) : DWord := s.val64 (2 * a.toNat) l
/-- A uniform branch target or relative lane target (08 R148). -/
def relTarget (p : Word) (off : Int) : Word := p + BitVec.ofInt 32 (4 * off)

end Sys2Proof.Machine.State
end

