-- ==== Sys2Proof/Machine/Requests.lean ====
section
/-! DEFINITION. Memory requests (05 R86 to R90; 10 R196 to R206): what an instruction asks for after its
checks, how the L1, the home or the scratchpad serves it, and how its results are delivered. -/

namespace Sys2Proof.Machine

/-- The device addresses at which the firmware slots reach the register block (23 R407). -/
def regBase : Nat := 0x7000000000
def regSize : Nat := 0x200000
def inRegBlock (pa : Nat) : Bool := regBase ≤ pa && pa < regBase + regSize

namespace State

/-- May an earlier access of the warp, or a write of the core, still be outstanding? (06 R104 to R106) A prefetch orders
nothing (10 R208). -/
def warpBusy (s : State) (c k : Nat) : Bool := s.reqs.any fun e => e.2.core = c && e.2.slot = k && (match e.2.op with
  | .pref _ => false
  | _ => true)
def coreWrites (s : State) (c : Nat) : Bool := s.reqs.any fun e => e.2.core = c && (match e.2.op with
  | .load _ => false
  | .pref _ => false
  | _ => true)
/-- What a release of a core waits for: a dirty line that its home cannot take yet, or a write-back that its home holds
(14 R304). -/
def releaseHold? (s : State) (c scope : Nat) : Option Nat :=
  if scope < 3 then none else
  match s.l1.find? fun e => e.1 / 2 ^ 41 = c && e.2.dirty != 0#32 && s.closedFull (e.1 % 2 ^ 41 * 128) with
  | some e => some (e.1 % 2 ^ 41 / 32)
  | none => (s.reqs.find? fun e => e.2.core = c && e.2.slot = 64 && !e.2.performed).map fun e => reqKey e.1
/-- May a release at a scope finish? -/
def releasable (s : State) (c scope : Nat) : Bool := (s.releaseHold? c scope).isNone

/-- Can the running instruction release at a scope now? (06 R106) A release that waits for a write which its
home holds is not ready. -/
def canRelease (s : State) (c k scope : Nat) : Bool :=
  if scope = 0 then true
  else if s.warpBusy c k then false
  else scope < 3 || (!s.coreWrites c && s.releasable c scope)

/-- All checks of a lane's or uniform global access (10 R199): the leaf, the page's format entry and the natural size. -/
def globalAccess (s : State) (kind : Nat) (va : DWord) (size : Nat → Option Nat) (write : Bool) :
    Except AccFail (Checked × FrtEntry × Nat) :=
  let h := s.myCtx
  match s.coreCheck s.cur.core h kind va with
  | .error f => .error f
  | .ok k =>
    match s.frt s.myDie h (pteFri k.tlb.entry) with
    | none => .error (accFail 11 kind va)
    | some e =>
      match size e.fmt with
      | none => .error (accFail 2 kind va)
      | some n =>
        if va.toNat % n != 0 then .error (accFail 4 kind va)
        else match s.checkLock s.cur.core kind va n write with
          | .error f => .error f
          | .ok _ => .ok (k, e, n)

/-- The check of an SLD or SST of the firmware slot that names the register block (23 R407), which has no other way in;
none for any other access. -/
def regAccess (s : State) (kind : Nat) (va : DWord) (n : Nat) : Option (Except AccFail Checked) :=
  if s.cur.slot != fwSlot then none else
  match s.coreTranslate s.cur.core s.myCtx va with
  | .error _ => none
  | .ok t =>
    let pa := t.pa va
    if !inRegBlock pa then none
    else if !permits kind t.entry then some (.error (accFail 1 kind va))
    else if s.kidBad pa (pteKid t.entry) then some (.error (accFail 5 kind va))
    else if va.toNat % n != 0 then some (.error (accFail 4 kind va))
    else some (.ok ⟨t, pa⟩)

/-- The access record of a checked global access. -/
def mkAccess (l : Nat) (va : DWord) (k : Checked) (e : FrtEntry) (n : Nat) (ro : Bool) (data : Nat) : Access :=
  { lane := l, va := va, pa := k.pa, size := n, kid := k.kid, cache := k.cache, ro := ro || pteRoh k.tlb.entry,
    fmt := e.fmt, data := data }

/-- Where the three bytes of the scale of code j of the byte of a B4 page at an address lie (05 R80). -/
def pageScale (s : State) (e : FrtEntry) (va : DWord) (j : Nat) : Except AccFail (List ByteAt) :=
  match e.scaleAddr va.toNat j with
  | none => .error (accFail 11 kLoad va)
  | some a => (List.range 3).mapM fun i =>
    match s.coreCheck s.cur.core s.myCtx kLoad (BitVec.ofNat 64 (a + i)) with
    | .ok k => .ok { pa := k.pa, kid := k.kid, cache := k.cache }
    | .error f => .error f

/-- The trap of a failed access of a lane. -/
def accTrap (s : State) (l : Nat) (f : AccFail) : TrapInfo := f.trap true l s.cur.pc

/-- Run a check in each lane of Active, ascending: the accesses, or the first failure (10 R199). -/
def laneAccesses (s : State) (f : Nat → Except AccFail Access) : Except (Nat × AccFail) (List Access) :=
  (lanesOf s.cur.lanes).foldr (fun l acc => match f l with
    | .error e => .error (l, e)
    | .ok a => match acc with
      | .error e => .error e
      | .ok as => .ok (a :: as)) (.ok [])

/-- Note the walks of the addresses that an instruction translated (05 R77). -/
def noteWalks (s : State) (vas : List DWord) : State := vas.foldl (fun s va => s.coreWalk s.cur.core s.myCtx va) s
/-- Go on once no walk of the addresses has to wait (05 R77; 13 R289). -/
def walked (s : State) (vas : List DWord) (f : State → Did) : Did :=
  if vas.any fun va => (s.coreWalkHold s.cur.core s.myCtx va).isSome then .wait s else f (s.noteWalks vas)

/-- The accesses of each 128-byte line, in the order of the lowest lane that touches it (05 R88); those of scratchpads
together. -/
def lineGroups (as : List Access) : List (List Access) :=
  let key (a : Access) : Nat := if a.core.isSome then 0 else 1 + lineOf a.pa
  (as.map key).reverse.dedup.reverse.map fun k => as.filter fun a => key a = k

/-- Ask for accesses at one home: the request reaches it, and its results are delivered after that. -/
def ask (s : State) (op : MemOp) (as : List Access) (file : RegFile) (dest words scope : Nat) (lanes : Mask)
    (keep : Option Kept) : State :=
  let (r, s) := s.newReq
  let q : MemReq := { core := s.cur.core, slot := s.cur.slot, ctx := s.myCtx, op := op, accs := as, file := file,
                      dest := dest, words := words, scope := scope, keep := keep }
  let s := { s with reqs := s.reqs.set r q }
  let s := if words = 0 then s else s.addVar file dest words lanes r
  s.post (.memoryRequestAtHome r)
/-- Ask for the accesses of an instruction: one request a line, which leave the memory port one a cycle (05 R88). -/
def request (s : State) (op : MemOp) (as : List Access) (file : RegFile) (dest words scope : Nat) : State :=
  let gs := lineGroups as
  let lanes (g : List Access) : Mask := if file = .lane then maskOf fun l => g.any fun a => a.lane = l else s.cur.lanes
  let s := gs.foldl (fun s g => s.ask op g file dest words scope (lanes g) none) s
  if gs.length < 2 then s else s.holdUnit .memory gs.length

/-- The 256-byte fetch unit of an address under a key ID, as the instruction cache names it (21 R386, R387). -/
def codeKey (kid pa : Nat) : Nat := kid * 2 ^ 40 + pa / 256
/-- The bytes of a fetch unit at its home. -/
def codeUnit (s : State) (c kid pa : Nat) : State × BitVec 2048 :=
  let (s, bs) := s.physRead (dieOfCore c) kid (pa / 256 * 256) 256
  (s, BitVec.ofNat 2048 (leNat bs))
/-- A checked fetch of word n of the unit at a PC of the code space (03 R42; 20 R373). -/
def fetchCheck (s : State) (c k : Nat) (pc : Word) (n : Nat) : Except AccFail Checked :=
  let h := s.ctxOf c k
  s.coreCheck c h kFetch ((s.ctx h).codebase + (pc + BitVec.ofNat 32 (4 * n)).setWidth 64)
/-- Word n of the unit at a PC: from the instruction cache, or its home's bytes; or its fetch fault. -/
def fetchWord (s : State) (c k : Nat) (g : Mask) (pc : Word) (n : Nat) : Except TrapInfo Word :=
  match s.fetchCheck c k pc n with
  | .error f => .error (f.trap true ((lanesOf g).headD 0) pc)
  | .ok x =>
    match (s.core c).icache.find (codeKey x.kid x.pa) with
    | some b => .ok (b.extractLsb' (8 * (x.pa % 256)) 32)
    | none =>
      if s.spaceLost (dieOfCore c) x.pa then .ok 0xFFFFFFFF#32
      else .ok (BitVec.ofNat 32 (leNat (s.physRead (dieOfCore c) x.kid x.pa 4).2))
/-- What the fetch of a word waits for: its page's walk, or its home. -/
def fetchHold (s : State) (c k : Nat) (pc : Word) (n : Nat) : Option Nat :=
  let h := s.ctxOf c k
  match s.coreWalkHold c h ((s.ctx h).codebase + (pc + BitVec.ofNat 32 (4 * n)).setWidth 64) with
  | some key => some key
  | none => match s.fetchCheck c k pc n with
    | .error _ => none
    | .ok x => if ((s.core c).icache.find (codeKey x.kid x.pa)).isSome then none else s.homeHold x.pa false
/-- Keep the fetch unit that a fetch has read (21 R387): of a full instruction cache of 64 KiB a unit leaves, a free value
which. -/
def keepCode (s : State) (c k : Nat) (pc : Word) (n : Nat) : State :=
  let h := s.ctxOf c k
  match s.fetchCheck c k pc n with
  | .error _ => s
  | .ok x =>
    let s := s.coreWalk c h ((s.ctx h).codebase + (pc + BitVec.ofNat 32 (4 * n)).setWidth 64)
    let key := codeKey x.kid x.pa
    let m := (s.core c).icache
    if (m.find key).isSome || s.spaceLost (dieOfCore c) x.pa then s else
    let (m, s) : Map (BitVec 2048) × State :=
      if m.length < 256 then (m, s) else
      let (v, s) := s.fresh
      (m.del ((m.map Prod.fst).getD (v.toNat % m.length) 0), s)
    let (s, b) := s.codeUnit c x.kid x.pa
    s.updCore c fun y => { y with icache := m.set key b }

/-- A result of latency variable that is known at once: a uniform register and a uniform predicate (11 R232, R233). -/
def varResult (s : State) (reg : Option (Nat × Word)) (pred : Nat) (b : Bool) : State :=
  let (r, s) := s.newReq
  let q : MemReq := { core := s.cur.core, slot := s.cur.slot, ctx := s.myCtx, op := .load 8, accs := [], file := .uni,
                      dest := (reg.map Prod.fst).getD 0, words := if reg.isSome then 1 else 0,
                      result := match reg with
                        | some e => [(0, e.2)]
                        | none => [],
                      pred := some (pred, b), performed := true }
  let s := { s with reqs := s.reqs.set r q }
  let s := match reg with
    | some e => s.addVar .uni e.1 1 s.cur.lanes r
    | none => s
  (s.addVar .upred pred 1 s.cur.lanes r).post (.variableLatencyResult r)

/-! ## At the home -/

/-- The operation of an atomic (10 R203) on numbers of n bytes. -/
def atomOp (o n old x : Nat) : Nat :=
  let m : Nat := 2 ^ (8 * n)
  let sgn (y : Nat) : Int := if y.testBit (8 * n - 1) then (y : Int) - (m : Int) else (y : Int)
  if o = 0 then (old + x) % m
  else if o = 1 then if sgn old ≤ sgn x then old else x
  else if o = 2 then if sgn old ≤ sgn x then x else old
  else if o = 3 then min old x
  else if o = 4 then max old x
  else if o = 5 then old &&& x
  else if o = 6 then old ||| x
  else if o = 7 then old ^^^ x
  else if o = 8 then x
  else (fAdd .f32 rne false old x).1

/-- The words that a load delivers from the bytes at its address and the scales of a B4 one (10 R200; 05 R81), with
FSTAT flags. -/
def deliver (t : Nat) (a : Access) (bs : List Byte) (scale0 scale1 : Nat) : List Word × Word :=
  let v := leNat bs
  if t = 7 then
    if a.fmt = fmtB4 then
      let x := dqnt scale0 (v % 16)
      let y := dqnt scale1 (v / 16)
      ([BitVec.ofNat 32 x.1, BitVec.ofNat 32 y.1], x.2 ||| y.2)
    else if a.fmt ≤ 1 then ([BitVec.ofNat 32 v], 0)
    else
      let f : Fmt := [Fmt.f16, .bf16, .e4m3, .e5m2].getD (a.fmt - 2) .f16
      ([BitVec.ofNat 32 (widen f false v).1], 0)
  else if t = 1 then ([(BitVec.ofNat 8 v).signExtend 32], 0)
  else if t = 3 then ([(BitVec.ofNat 16 v).signExtend 32], 0)
  else ((List.range (max 1 (a.size / 4))).map fun j => BitVec.ofNat 32 (v / 2 ^ (32 * j)), 0)

/-- The bytes that an access reads: its scratchpad, or memory through the L1 or the home. -/
def accRead (s : State) (c : Nat) (a : Access) (atHome : Bool) : State × List Byte :=
  match a.core with
  | some k => (s, s.winRead k (a.pa / 8192) (a.pa % 8192) a.size)
  | none =>
    if atHome then
      if isPeer a.pa then s.targetRead (dieOfCore c) a.pa a.size else s.homeRead (dieOfCore c) a.pa a.kid a.cache a.size
    else s.coreRead c a.pa a.kid a.cache a.ro a.size
/-- Write bytes by an access. -/
def accWrite (s : State) (c h : Nat) (a : Access) (atHome : Bool) (bs : List Byte) : State :=
  match a.core with
  | some k => s.winWrite k (a.pa / 8192) (a.pa % 8192) bs
  | none =>
    if atHome then
      if isPeer a.pa then s.targetWrite (dieOfCore c) a.pa bs else s.homeWrite (dieOfCore c) c h a.pa a.kid a.cache bs
    else s.coreWrite c h a.pa a.kid a.cache bs

/-- The number that some bytes hold, each read as a load of the core reads it. -/
def bytesAt (s : State) (c : Nat) (l : List ByteAt) : State × Nat :=
  let (s, bs) := l.foldl (fun (acc : State × List Byte) b =>
    match b.core with
    | some k => (acc.1, acc.2 ++ acc.1.winRead k (b.pa / 8192) (b.pa % 8192) 1)
    | none =>
      let (s, x) := acc.1.coreRead c b.pa b.kid b.cache false 1
      (s, acc.2 ++ x)) (s, [])
  (s, leNat bs)

/-- Fill the line of a prefetch (10 R208): in the L1, or at the home. -/
def prefetch (s : State) (c : Nat) (a : Access) (l1 : Bool) : State :=
  let line := lineOf a.pa
  if l1 && a.cache = 0 && !s.l1Bypass a.pa then
    let (s, x) := s.l1Line c a.kid line false
    let (s, _, x) := s.l1Fill c line x (BitVec.allOnes 32)
    s.l1Put c line x
  else (s.l2Line (homeDie a.pa (dieOfCore c)) a.kid line (BitVec.allOnes 32)).1

/-- Does an access lie in a space whose link is lost? (21 R388) -/
def accLost (s : State) (c : Nat) (a : Access) : Bool := a.core.isNone && s.spaceLost (dieOfCore c) a.pa

/-- Perform one access of a request. -/
def perform (s : State) (r : MemReq) (a : Access) : State × MemReq :=
  let put (r : MemReq) (ws : List Word) : MemReq :=
    { r with result := (List.range ws.length).foldl (fun m j => m.set (4 * a.lane + j) (ws.getD j 0)) r.result }
  if s.accLost r.core a then
    let n := match r.op with
      | .load _ => r.words
      | .store => 0
      | .atom _ w => if w then 2 else 1
      | .cas w => if w then 2 else 1
      | .pref _ => 0
    (s, put r (List.replicate n 0xFFFFFFFF#32))
  else match r.op with
  | .load t =>
    let (s, x) := s.bytesAt r.core a.scale0
    let (s, y) := s.bytesAt r.core a.scale1
    let (s, bs) := s.accRead r.core a false
    let (ws, fl) := deliver t a bs x y
    (s, { put r ws with fstat := r.fstat ||| fl })
  | .pref l1 => (s.prefetch r.core a l1, r)
  | .store => (s.accWrite r.core r.ctx a false (leBytes a.size a.data), r)
  | .atom o wide =>
    let s := if a.core.isSome then s else s.l1Drop r.core (lineOf a.pa)
    let (s, bs) := s.accRead r.core a true
    let old := leNat bs
    let s := s.accWrite r.core r.ctx a true (leBytes a.size (atomOp o a.size old a.data))
    (s, put r (if wide then [BitVec.ofNat 32 old, BitVec.ofNat 32 (old / 2 ^ 32)] else [BitVec.ofNat 32 old]))
  | .cas wide =>
    let s := if a.core.isSome then s else s.l1Drop r.core (lineOf a.pa)
    let (s, bs) := s.accRead r.core a true
    let old := leNat bs
    let s := if old = a.data then s.accWrite r.core r.ctx a true (leBytes a.size a.data2) else s
    (s, put r (if wide then [BitVec.ofNat 32 old, BitVec.ofNat 32 (old / 2 ^ 32)] else [BitVec.ofNat 32 old]))

/-- What holds a request at a home, if anything does; a write-back only the room to stage its page (14 R304). -/
def reqHold (s : State) (r : MemReq) : Option (Nat × Bool) :=
  if r.back then (r.accs.find? fun a => s.closedFull a.pa).map fun a => (a.pa / 4096, true) else
  match r.accs.findSome? fun a =>
    if a.core.isSome || s.accLost r.core a then none else
    match r.op with
    | .load _ => match (a.scale0 ++ a.scale1).findSome? fun b =>
        if b.core.isSome then none else s.coreHold b.pa b.cache false with
      | some k => some (k, false)
      | none => (s.coreHold a.pa a.cache false).map fun k => (k, false)
    | .store => (s.coreHold a.pa a.cache true).map fun k => (k, true)
    | .pref _ => (s.coreHold a.pa a.cache false).map fun k => (k, false)
    | _ => (s.homeHold a.pa true).map fun k => (k, true) with
  | some k => some k
  | none => (s.releaseHold? r.core r.scope).map fun k => (k, true)

/-- LINK for a warp whose access met a lost space (21 R388; 20 R372). -/
def linkTrap (reason peer : Nat) (va : DWord) : TrapInfo :=
  { group := grpLink, code := reason * 4096 + peer * 64, async := true, lv := false, lane := 0,
    t1 := lo32 va, t2 := hi32 va, epc := 0 }

/-- Does a scratchpad access of a request reach a range of an operation in flight (06 R115)? -/
def reqStalls (s : State) (r : MemReq) : Bool :=
  let write := match r.op with
    | .load _ => false
    | _ => true
  r.accs.any fun a => match a.core with
    | some k => s.scoreHolds k (a.pa / 8192) (a.pa % 8192) (a.pa % 8192 + a.size) write none
    | none => false

/-- The bytes that an access reads or writes: scratchpad bytes above 2^64, by core. -/
def touched (a : Access) : List (Nat × Nat) :=
  let place (core : Option Nat) (pa : Nat) : Nat := match core with
    | some k => 2 ^ 64 * (k + 1) + pa
    | none => pa
  (place a.core a.pa, a.size) :: (a.scale0 ++ a.scale1).map fun b => (place b.core b.pa, 1)
/-- Does a request only read? -/
def readsOnly : MemOp → Bool
  | .load _ => true
  | .pref _ => true
  | _ => false
/-- Accesses of one thread to the same bytes are performed in program order (06 R101): an earlier request of the warp, not
yet performed, for bytes that the request touches, unless both only read. -/
def earlier (s : State) (i : Nat) (r : MemReq) : Option Nat :=
  let mine := r.accs.flatMap touched
  ((s.reqs.find? fun e => decide (e.1 < i) && e.2.core = r.core && e.2.slot = r.slot && !e.2.performed &&
    !(readsOnly e.2.op && readsOnly r.op) &&
    (e.2.accs.flatMap touched).any fun x => mine.any fun y => decide (x.1 < y.1 + y.2 ∧ y.1 < x.1 + x.2))).map Prod.fst

/-- MACHINE (22 R404): a reason, the UNIT code of a core array, and the address concerned. -/
def machineTrap (reason unit : Nat) (pa : Nat) : TrapInfo :=
  { group := grpMachine, code := reason * 4096 + unit * 16, async := true, lv := false, lane := 0
    t1 := BitVec.ofNat 32 pa, t2 := BitVec.ofNat 32 (pa / 2 ^ 32), epc := 0 }
/-- An uncorrectable error that an access of a warp consumes (22 R404): MACHINE becomes pending, and record 0x60 is
written. -/
def machineErr (s : State) (c k h pa : Nat) : State :=
  let s := if k ≤ fwSlot then s.pendAsync c k (machineTrap 1 0 pa) else s
  s.faultRecord h 0x60 c k (BitVec.ofNat 96 pa)
/-- The addresses that a load or atomic of a core reads damaged. -/
def damaged (s : State) (r : MemReq) : List Nat :=
  if s.damage.words.isEmpty then [] else
  r.accs.flatMap fun a =>
    let one (core : Option Nat) (pa cache n : Nat) : List Nat :=
      if core.isNone && s.consumes r.core pa cache n then [pa] else []
    match r.op with
    | .store => []
    | .pref _ => []
    | _ => one a.core a.pa a.cache a.size ++ (a.scale0 ++ a.scale1).flatMap fun b => one b.core b.pa b.cache 1

/-- Serve a request at its home, ascending lane order (10 R205; 05 R88), or hold it. -/
def serve (s : State) (i : Nat) : State :=
  match s.reqs.find i with
  | none => s
  | some r =>
    if r.performed then s else
    match s.earlier i r with
    | some j => s.hold (reqKey j) false (.memoryRequestAtHome i)
    | none =>
    if s.reqStalls r then s.post (.memoryRequestAtHome i) else
    match s.reqHold r with
    | some (key, inval) => s.hold key inval (.memoryRequestAtHome i)
    | none =>
      let bad := s.damaged r
      let s := if r.scope = 0 then s else s.releaseAt r.core r.scope
      let (s, r) := r.accs.foldl (fun (s, r) a => s.perform r a) (s, r)
      let s := if r.scope = 0 then s else s.acquireAt r.core r.scope
      let s := match r.accs.find? fun a => s.accLost r.core a with
        | some a => if r.slot ≤ fwSlot then
            s.pendAsync r.core r.slot (linkTrap 6 (if isPeer a.pa then peerOf a.pa else 0) a.va) else s
        | none => s
      let s := bad.foldl (fun s pa => s.machineErr r.core r.slot r.ctx pa) s
      let s : State := if r.words = 0 then { s with reqs := s.reqs.del i }
        else State.post { s with reqs := s.reqs.set i { r with performed := true } } (.variableLatencyResult i)
      s.unhold (reqKey i)

/-- The group that a load kept goes on, or takes ARITH with nothing written (04 R68). -/
def letGo (s : State) (i : Nat) (r : MemReq) (k : Kept) : State :=
  let s := s.updWarp r.core r.slot fun w => w.updSched fun x => { x with atHome := x.atHome.filter fun e => e.1 != i }
  s.updWarp r.core r.slot fun w =>
    if w.uni.repIdx + 1 < k.reps then w.updUni fun u => { u with repIdx := u.repIdx + 1 } else
    let w := if k.reps = 0 then w else w.updUni fun u => { u with repIdx := 0, rep := none }
    w.updLanes k.lanes fun _ l =>
      if l.state = .runnable && l.pc = k.pc then { l with pc := k.pc + BitVec.ofNat 32 (4 * k.len) } else l
def arithLoad (s : State) (i : Nat) (r : MemReq) (k : Kept) : State :=
  let s := s.updWarp r.core r.slot fun w =>
    (w.updSched fun x => { x with atHome := x.atHome.filter fun e => e.1 != i }).updUni fun u => { u with fstat := u.fstat ||| r.fstat }
  let s := s.dropVar r.core r.slot i
  let bad := maskOf fun l => k.lanes.getLsbD l && (r.accs.any fun a => a.lane = l && a.fmt = fmtB4) &&
    ((List.range 2).any fun j => ((r.result.get 0 (4 * l + j)) &&& 0x7FFFFFFF#32) = 0x7F800000#32)
  if (s.warp r.core r.slot).held ((lanesOf k.lanes).headD 0) then s else
  s.takeTrap r.core r.slot k.lanes
    { group := grpArith, code := (r.fstat &&& k.enables).toNat, async := false, lv := true, lane := (lanesOf bad).headD 0
      t1 := bad, t2 := k.word, epc := k.pc }

/-- Write a performed request's results (08 R151) and drop it. -/
def deliverReq (s : State) (i : Nat) : State :=
  match s.reqs.find i with
  | none => s
  | some r =>
    if !r.performed then s else
    let s := { s with reqs := s.reqs.del i }
    match (r.keep.filter fun k => r.fstat &&& k.enables != 0#32) with
    | some k => s.arithLoad i r k
    | none =>
    let s := match r.pred with
      | some (n, b) => s.updWarp r.core r.slot fun w => w.setSp n b
      | none => s
    if r.words = 0 && r.pred.isNone then s else
    let s := s.updWarp r.core r.slot fun w =>
      let w := r.result.foldl (fun (w : Warp) (e : Nat × Word) =>
        match r.file with
        | .lane => if r.dest = 122 then w else w.setV (r.dest + e.1 % 4) (e.1 / 4) e.2
        | _ => w.setS (r.dest + e.1 % 4) e.2) w
      w.updUni fun u => { u with fstat := u.fstat ||| r.fstat }
    let s := if r.file = .lane then s.markRegs r.core r.slot [r.dest] else s
    let s := match r.keep with
      | some k => s.letGo i r k
      | none => s
    s.dropVar r.core r.slot i

end State

/-- VARIABLE_LATENCY_RESULT. -/
def execVariableLatencyResult (req : Nat) (s : State) : Host.Outcome State Fault Refusal := .next (s.deliverReq req)

end Sys2Proof.Machine
end

