-- ==== Sys2Proof/Machine/Residency.lean ====
section
/-! DEFINITION. Residency (02 R19 to R22, R37; 03 R44, R46, R52; 13 R275, R276, R281, R286): launch
descriptors, a core's room for a team, the start of a team and its warps, register blocks, and the end of
warps, teams and units. -/

namespace Sys2Proof.Machine

/-! ## The launch descriptor (13 R275) -/

def ldPmask (b : Block) : Word := b.extractLsb' 384 32
def ldMode0 (b : Block) : Word := b.extractLsb' 352 32
def ldRegion (b : Block) : BitVec 16 := b.extractLsb' 336 16
def ldNctr (b : Block) : Nat := bitsOf b.toNat 335 328
def ldNwin (b : Block) : Nat := bitsOf b.toNat 327 320
def ldWtab (b : Block) : DWord := b.extractLsb' 256 64
def ldDisp (b : Block) : Nat := bitsOf b.toNat 249 248
def ldGroles (b : Block) : Nat := bitsOf b.toNat 244 240 + 1
def ldTroles (b : Block) : Nat := bitsOf b.toNat 236 232 + 1
def ldBlocks (b : Block) : Nat := bitsOf b.toNat 231 229
def ldWarps (b : Block) : Nat := bitsOf b.toNat 228 224 + 1
def ldCinc (b : Block) : Word := b.extractLsb' 192 32
def ldCctr (b : Block) : DWord := b.extractLsb' 128 64
def ldParam (b : Block) : DWord := b.extractLsb' 64 64
def ldGrid (b : Block) : Nat := bitsOf b.toNat 63 32
def ldEntry (b : Block) : Word := b.extractLsb' 0 32

/-- A launch record that stands for none. -/
def noLaunch : LaunchRec := { ctx := 0, addr := 0, desc := 0, parts := [] }

/-- A group binding table entry of a troupe role (02 R30). -/
def troupeEntry (core wb cb : Nat) : Word := BitVec.ofNat 32 (2 ^ 31 + cb * 2 ^ 16 + wb * 2 ^ 8 + core)
/-- Of a partition role. -/
def partEntry (p : Nat) : Word := BitVec.ofNat 32 (2 ^ 31 + p)

namespace State

def launch (s : State) (l : Nat) : LaunchRec := s.launches.get noLaunch l
def updLaunch (s : State) (l : Nat) (f : LaunchRec → LaunchRec) : State :=
  { s with launches := s.launches.upd noLaunch l f }

/-! ## Room -/

/-- Register blocks of a core that no warp maps, the firmware slot's among them, ascending. -/
def freeBlocks (s : State) (c : Nat) : List Nat :=
  let used := (s.cc c).warps.foldl (fun acc e => acc ++ e.2.blocks.map Prod.snd) ((s.core c).fw.blocks.map Prod.snd)
  (List.range 128).filter fun b => !used.contains b

/-- Ranges that the units resident on a partition, and a gang for which it is held, reserve on a core: (first, count) of
windows or of counters. -/
def reserved (s : State) (c : Nat) (windows : Bool) : List (Nat × Nat) :=
  let x := s.part (partOfCore c)
  let base (e : Word) : Nat := if windows then bitsOf e.toNat 13 8 else bitsOf e.toNat 21 16
  let mine (e : Word) : Bool := e.getLsbD 31 && bitsOf e.toNat 4 0 = c % 24
  let units := x.units.foldl (fun acc u => acc ++ ((u.2.ttable.filter fun e => mine e.2).map fun e =>
    (base e.2, if windows then u.2.nwin else u.2.nctr))) ([] : List (Nat × Nat))
  match x.gang with
  | .free => units
  | .committed _ => units
  | .heldFor g =>
    let d := (s.launch (s.gangs.get { launch := 0, agent := 0, parts := [] } g).launch).desc
    units ++ (x.reserved.filter fun e => mine e.2).map fun e => (base e.2, if windows then ldNwin d else ldNctr d)

/-- Slots and blocks that a held gang reserves on a core. -/
def reservedTeam (s : State) (c : Nat) : Nat × Nat :=
  let x := s.part (partOfCore c)
  let g : Option Nat := match x.gang with
    | .free => none
    | .heldFor g => some g
    | .committed g => some g
  match g with
  | none => (0, 0)
  | some g =>
    let d := (s.launch (s.gangs.get { launch := 0, agent := 0, parts := [] } g).launch).desc
    let n := (x.reserved.filter fun e => bitsOf e.2.toNat 4 0 = c % 24).length
    (n * ldWarps d, n * (ldWarps d * ldBlocks d))

/-- The lowest base at which `n` numbers of 64 are free. -/
def firstFit (used : List (Nat × Nat)) (n : Nat) : Option Nat :=
  (List.range (65 - n)).find? fun b => used.all fun e => e.2 = 0 || n = 0 || b + n ≤ e.1 || e.1 + e.2 ≤ b

/-- Does a core have room for one team of a descriptor (13 R276)? Its window and counter bases. -/
def room (s : State) (c : Nat) (d : Block) : Option (Nat × Nat) :=
  let x := s.cc c
  let r := s.reservedTeam c
  if (s.core c).gated || x.warps.length + r.1 + ldWarps d > 32 || 32 ≤ x.teams.length then none
  else if (s.freeBlocks c).length < r.2 + ldWarps d * ldBlocks d then none
  else match firstFit (s.reserved c true) (ldNwin d), firstFit (s.reserved c false) (ldNctr d) with
    | some wb, some cb => some (wb, cb)
    | _, _ => none

/-! ## Start -/

/-- The slot that a warp receives (02 R21): in the quad with the most free user slots, ties to the lower quad. -/
def freeSlot (s : State) (c : Nat) : Option Nat :=
  let open_ (q : Nat) : List Nat := ((List.range 8).map (8 * q + ·)).filter fun k => ((s.cc c).warps.find k).isNone
  let q := [0, 1, 2, 3].foldl (fun b q => if (open_ b).length < (open_ q).length then q else b) 0
  (open_ q).head?

/-- The initial uniform state of a warp of a launch (03 R46). -/
def startUni (d : Block) (teamId : Nat) : WarpUni :=
  { s := Map.set (Map.set (Map.set [] 0 (lo32 (ldParam d))) 1 (hi32 (ldParam d))) 2 (BitVec.ofNat 32 teamId)
    mode := ldMode0 d
    regions := if ldRegion d = 0#16 then [] else [ldRegion d] }

/-- Map `n` logical blocks from 0 to free physical blocks (03 R44). -/
def firstBlocks (s : State) (c n : Nat) : Map Nat := (List.range n).zip ((s.freeBlocks c).take n)

/-- Admit a warp of a team into slot `k`. The manual gives its blocks and uniform state; its other lane registers and
predicates start at 0 (DESIGN CHOICE: note 36). -/
def addWarp (s : State) (c k t wid : Nat) (d : Block) (lanes : Map Lane) : State :=
  let x := s.core c
  let tm := (x.cc.teams.find t).map fun m => m.teamId
  let w : Warp := { ctx := x.cc.ctx, team := t, wid := wid, lanes := lanes, blocks := s.firstBlocks c (ldBlocks d),
                    uni := startUni d (tm.getD 0), sched := { age := x.nextAge, lastPick := x.cyc } }
  s.updCore c fun y => { y with nextAge := y.nextAge + 1, cc := { y.cc with
    warps := y.cc.warps.set k w
    lastSlot := if y.cc.lastSlot = k then 32 else y.cc.lastSlot
    teams := y.cc.teams.map fun e => if e.1 = t then (t, { e.2 with wids := e.2.wids ++ [wid] }) else e
    dirtyBlocks := y.cc.dirtyBlocks ++ ((List.range (ldBlocks d)).map (8 * k + ·)).filter
      (fun b => !y.cc.dirtyBlocks.contains b) } }

/-- Equinox (13 R286): a change of core state waits for a grant. -/
def coreChange (s : State) (c : Nat) (start : Bool) : State :=
  let s := s.updDie (dieOfCore c) fun x => { x with eqPending := x.eqPending ++ [(c, start)] }
  if start then s.updCore c fun x => { x with granted := false } else s

/-- The balance table of a core is cleared when a launch of the context starts on it (02 R40). -/
def noteStart (s : State) (c l : Nat) : State :=
  if (s.launch l).cores.contains c then s
  else (s.updLaunch l fun x => { x with cores := x.cores ++ [c] }).updCc c fun x => { x with balance := [] }

/-- Start one team of a unit on a core (03 R44, R46, R52; 13 R276; 06 R119); the instruction cache is invalidated
(21 R387). -/
def startTeam (s : State) (c u l teamId trole prole wb cb : Nat) : State :=
  let r := s.launch l
  let d := r.desc
  let x := s.cc c
  let t := ((List.range 32).find? fun n => (x.teams.find n).isNone).getD 0
  let s := if x.teams.isEmpty then s.coreChange c true else s
  let s := (s.noteStart c l).updCore c fun x => { x with icache := [] }
  let tm : Team := { ctx := r.ctx, unit := u, launch := l, teamId := teamId, trole := trole, prole := prole, wids := [] }
  let wd (w : Nat) : DWord :=
    let y := r.wdescs.get 0 w
    if wdV y then (y &&& ~~~(0x1F#64 <<< 51)) ||| (BitVec.ofNat 64 t <<< 51) else 0
  let s := s.updCc c fun x => { x with
    teams := x.teams.set t tm
    ran := true
    wdesc := (List.range (ldNwin d)).foldl (fun m w => m.set (wb + w) (wd w)) x.wdesc
    ctr := (List.range (ldNctr d)).foldl (fun m n => m.set (cb + n) 0) x.ctr }
  let s := s.acquireAt c 4
  (List.range (ldWarps d)).foldl (fun s wid => match s.freeSlot c with
    | some k => s.addWarp c k t wid d ((List.range 32).map fun n => (n, ({ state := .runnable, pc := ldEntry d } : Lane)))
    | none => s) s

/-- The group binding table of a unit that is placed on cores: (core, WBASE, CBASE), ascending role (02 R30). -/
def placeTable (place : List (Nat × Nat × Nat)) : Map Word :=
  (List.range place.length).zip (place.map fun e => troupeEntry (e.1 % 24) e.2.1 e.2.2)
/-- A unit of a launch with its binding tables, none of its teams started. -/
def newUnit (s : State) (l index prole : Nat) (gang : Option Nat) (ttable ptable : Map Word) : UnitRec :=
  let d := (s.launch l).desc
  { ctx := (s.launch l).ctx, launch := l, index := index, prole := prole, ttable := ttable, ptable := ptable, nwin := ldNwin d
    nctr := ldNctr d, troles := ldTroles d, groles := ldGroles d, live := 0, gang := gang }
/-- Write a unit's entries into the binding tables of a partition: its number. -/
def enterUnit (s : State) (p : Nat) (r : UnitRec) : State × Nat :=
  let u := (s.part p).nextUnit
  (s.updPart p fun y => { y with units := y.units.set u r, nextUnit := u + 1 }, u)
/-- Start the teams of a unit where its table binds them. -/
def beginUnit (s : State) (p u : Nat) : State :=
  match (s.part p).units.find u with
  | none => s
  | some r =>
    let s := s.updPart p fun y => { y with units := y.units.set u { r with live := r.ttable.length, waiting := false } }
    r.ttable.foldl (fun s e => s.startTeam (24 * p + bitsOf e.2.toNat 4 0) u r.launch (r.index * r.troles + e.1) e.1 r.prole
      (bitsOf e.2.toNat 13 8) (bitsOf e.2.toNat 21 16)) s

/-- Admit a unit of a launch on the cores given for its troupe roles. -/
def startUnit (s : State) (p l index prole : Nat) (gang : Option Nat) (ptable : Map Word) (place : List (Nat × Nat × Nat)) :
    State :=
  let (s, u) := s.enterUnit p (s.newUnit l index prole gang (placeTable place) ptable)
  s.beginUnit p u

/-! ## Register blocks -/

/-- Map logical blocks of a warp to free physical blocks; their registers read 0. -/
def mapBlocks (s : State) (c k : Nat) (want : List Nat) : State :=
  let free := s.freeBlocks c
  let s := s.updWarp c k fun w =>
    let w := want.foldl (fun (w : Warp) b => w.clearBlock b) w
    { w with blocks := (want.zip free).foldl (fun (m : Map Nat) e => m.set e.1 e.2) w.blocks }
  s.markRegs c k (want.map (16 * ·))

/-- REGBLOCK of RACQ (2) and RREL (3) for a warp (20 R372): the blocks `bs`, the instruction's word. -/
def blockInfo (reason : Nat) (bs : List Nat) (word pc : Word) : TrapInfo :=
  { group := grpRegblock, code := reason * 4096 + bs.foldl (fun n b => n + 2 ^ b) 0, async := false, lv := false, lane := 0
    t1 := word, t2 := 0, epc := pc }

/-- Serve the requests at the head of a core's block allocator (03 R44; 11 R232). One of whose blocks a request before it
has mapped raises REGBLOCK when it is served; where a handler holds its group, the group tries again. `n` bounds their
number. -/
def serveBlocks (s : State) (c : Nat) : Nat → State
  | 0 => s
  | n + 1 =>
    match (s.core c).racqQ with
    | [] => s
    | k :: rest =>
      match (s.warp c k).sched.racq with
      | [] => serveBlocks (s.updCore c fun x => { x with racqQ := rest }) c n
      | q :: more =>
        let want := (List.range 7).filter fun b => q.mask.testBit b
        let off (s : State) : State :=
          (s.updWarp c k fun w => w.updSched fun x => { x with racq := more }).updCore c fun x => { x with racqQ := rest }
        let w := s.warp c k
        let bad := want.filter w.mapped
        if !bad.isEmpty then
          let s := off s
          let word := match s.fetchWord c k q.lanes q.pc 0 with
            | .ok x => x
            | .error _ => 0
          serveBlocks (if w.held ((lanesOf q.lanes).headD 0) then s else s.takeTrap c k q.lanes (blockInfo 2 bad word q.pc)) c n
        else
          if (s.freeBlocks c).length < want.length then s else
          let s := ((off s).mapBlocks c k want).updWarp c k fun w => w.updLanes q.lanes fun _ l =>
            if l.state = .runnable && l.pc = q.pc then { l with pc := q.pc + 4 } else l
          serveBlocks s c n

/-- Does a write pend, fixed or variable, into one of the blocks of a mask (11 R232)? -/
def blocksPend (w : Warp) (mask : Nat) : Bool :=
  let named (f : RegFile) (n : Nat) : Bool := f = .lane && decide (n < 112) && mask.testBit (n / 16)
  w.var.any (fun v => named v.file v.num) || w.pend.any fun p => named p.file p.num
/-- Unmap the blocks of a mask and return them to the allocator (03 R44). -/
def unmapBlocks (s : State) (c k mask : Nat) : State :=
  ((s.updWarp c k fun w => { w with blocks := w.blocks.filter fun e => !mask.testBit e.1 }).serveBlocks c 33).post
    (.coreAdmission c)
/-- Complete the waiting RRELs of a warp whose pending writes have landed (11 R232, R240). -/
def finishRrels (s : State) (c k : Nat) : State :=
  ((s.warp c k).sched.rrel.filter fun q => !blocksPend (s.warp c k) q.mask).foldl (fun s q =>
    (s.updWarp c k fun w => (w.updSched fun x => { x with rrel := x.rrel.filter (· != q) }).updLanes q.lanes fun _ l =>
      if l.state = .runnable && l.pc = q.pc then { l with pc := q.pc + 4 } else l).unmapBlocks c k q.mask) s

/-! ## End -/

/-- BALANCE records of a core's table (17 R336). -/
def balanceDump (s : State) (c : Nat) : State :=
  let b := (s.cc c).balance
  let entry (i : Nat) : BitVec 128 :=
    let e := b.get {} i
    e.phase ++ 0#16 ++ BitVec.ofNat 48 e.busy ++ BitVec.ofNat 48 e.idle
  (List.range 8).foldl (fun s i =>
    s.trace c 6 0 (2 * i) 0 (s.cc c).lastRgns (0#64 ++ entry (2 * i + 1) ++ entry (2 * i))) s

/-- A write of an ended warp of a context on some cores, or an L1's write-back, that is not yet performed. -/
def lateStore (s : State) (cores : List Nat) (h : Nat) : Option Nat :=
  (s.reqs.find? fun e => decide (64 ≤ e.2.slot) && cores.contains e.2.core && e.2.ctx = h && !e.2.performed &&
    !readsOnly e.2.op).map Prod.fst
/-- The completion add of a unit or gang (06 R119; 07 R134): a release at .sys of the writes that its warps made on its
cores, which it follows. -/
def completionAdd (s : State) (c h : Nat) (cores : List Nat) (d : Block) : State :=
  let s := cores.foldl (fun s c => s.releaseAt c 5) s
  match s.lateStore cores h, s.agentHome (dieOfCore c) h (ldCctr d) with
  | some j, some home =>
    let (i, s) := s.newReq
    let op : CtrOp :=
      { core := c, slot := 0, ctx := h, kind := .add, name := .addr (ldCctr d), home := home, inc := (ldCinc d).setWidth 64
        scope := 5, agent := some .launch, cores := cores }
    { s with ctrOps := s.ctrOps.set i op }.hold (reqKey j) true (.counterOpAtHome i)
  | _, _ => s.agentAdd c h .launch (ldCctr d) (ldCinc d) 5

/-- A unit ends (13 R276): its balance records, the launch's completion add (06 R119), of a gang when its last unit ends,
and room for others. -/
def endUnit (s : State) (p u : Nat) (r : UnitRec) : State :=
  let cores := (r.ttable.map fun e => 24 * p + bitsOf e.2.toNat 4 0).dedup
  let s := cores.foldl (fun s c => s.balanceDump c) s
  let s := s.updPart p fun x => { x with units := x.units.del u }
  let l := s.launch r.launch
  let last := l.ended + 1 = l.total
  let s := s.updLaunch r.launch fun x => { x with ended := x.ended + 1 }
  let add := ldCctr l.desc != 0#64 && (r.groles = 1 || last)
  let s := if add then
      s.completionAdd (cores.headD (24 * p)) r.ctx (if r.groles = 1 then cores else (cores ++ l.cores).dedup) l.desc
    else s
  let s := if last then
      let s := match l.log with
        | some e => if ldCctr l.desc != 0#64 then s.post (.replayDigest r.ctx e) else s
        | none => s
      { s with launches := s.launches.del r.launch }
    else s
  s.postAll (cores.map fun c => .coreAdmission c)

/-- A team of a core ends when no warp of it is resident and no bin holds a thread of it. -/
def endTeam (s : State) (c t : Nat) : State :=
  let x := s.cc c
  match x.teams.find t with
  | none => s
  | some m =>
    if !m.wids.isEmpty || x.bins.any (fun e => e.2.threads.any fun y => y.2 = t) then s else
    let s := s.updCc c fun y => { y with teams := y.teams.del t }
    let s := if (s.cc c).teams.isEmpty then s.coreChange c false else s
    let p := partOfCore c
    match (s.part p).units.find m.unit with
    | none => s
    | some u =>
      let s := s.updPart p fun y => { y with units := y.units.set m.unit { u with live := u.live - 1 } }
      if u.live ≤ 1 then s.endUnit p m.unit u else s

/-- The record of a halted copy whose warp has ended (21 R385). -/
def copyHaltRecord (s : State) (h c k : Nat) (t : TrapInfo) : State :=
  s.faultRecord h 0x24 c k (t.t2 ++ t.t1 ++ tdet0 { t with async := true } 0)

/-- A copy is abandoned: its descriptor, its scoreboard and lock entries go; its batch never completes. -/
def dropCopy (s : State) (c n : Nat) : State :=
  let key := opKey c n
  let s := s.updCc c fun x => { x with copies := x.copies.del n, locks := x.locks.filter fun e => e.2.op != n }
  let cs : Map Core := s.cores.map fun e =>
    (e.1, { e.2 with cc := { e.2.cc with score := e.2.cc.score.filter fun y => y.op != key } })
  { s with cores := cs }

/-- The trap of a halted copy (20 R372, reason 7): `why` 1 translation, 2 permission, 3 format. -/
def haltTrap (why : Nat) (dest : Bool) (x : Copy) : TrapInfo :=
  { group := grpCopy, code := 7 * 4096 + x.desc * 256 + (if dest then 1 else 0), async := true, lv := false, lane := 0,
    t1 := BitVec.ofNat 32 (why * 2 ^ 24 + x.bytesDone % 2 ^ 24), t2 := BitVec.ofNat 32 (x.rowsDone % 2 ^ 16), epc := 0 }

/-- What was left behind by an ended warp goes on without it (10 R214): results are discarded, copies and sealed
batches go to the core. -/
def orphan (s : State) (c k : Nat) : State :=
  let w := s.warp c k
  let n := (s.cc c).nextOp
  let key := 65 + n
  let reqs : Map MemReq := s.reqs.map fun e => if e.2.core = c && e.2.slot = k then 
    (e.1, { e.2 with slot := key, words := 0, pred := none, keep := none }) else e
  let reqs := reqs.filter fun e => !(e.2.performed && e.2.words = 0)
  let ops : Map CtrOp := s.ctrOps.map fun e =>
    if e.2.core = c && e.2.slot = k && e.2.agent.isNone then (e.1, { e.2 with slot := key, lanes := 0 }) else e
  let vs : Map VigilReq := s.vreqs.map fun e =>
    if e.2.core = c && e.2.slot = k then (e.1, { e.2 with slot := key, group := 0 }) else e
  let s := { s with reqs := reqs, ctrOps := ops, vreqs := vs }
  let cmd (x : MCmd) : MCmd := if x.slot = k then { x with slot := key, lanes := 0 } else x
  s.updCc c fun x => { x with
    nextOp := n + 1
    orphans := if w.batches.isEmpty then x.orphans else x.orphans.set key (w.batches, w.uni.doneCount)
    copies := (x.copies.filter fun e => !(e.2.slot = k && e.2.finished && w.unsealed.contains e.1)).map fun e =>
      if e.2.slot = k then (e.1, { e.2 with slot := key }) else e
    trackers := (x.trackers.filter fun e => e.2.slot != k || e.2.closed).map fun e =>
      if e.2.slot = k then (e.1, { e.2 with slot := key }) else e
    matrix := { x.matrix with queue := x.matrix.queue.map cmd, running := x.matrix.running.map cmd,
                              loading := x.matrix.loading.map cmd } }

/-- A warp whose last lane has exited ends (02 R22; 10 R214; 20 R370; 21 R385). -/
def endWarp (s : State) (c k : Nat) : State :=
  let w := s.warp c k
  let s := w.trap.async.foldl (fun s t =>
    let n := w.trap.async.length - 1
    if t.group = grpCopy then s.faultRecord w.ctx 0x24 c k (t.t2 ++ t.t1 ++ tdet0 t n)
    else s.faultRecord w.ctx 0x22 c k (t.t2 ++ t.t1 ++ tdet0 t n)) s
  let s := ((s.cc c).copies.filter fun e => e.2.slot = k && e.2.halted).foldl (fun s e => s.dropCopy c e.1) s
  let s := (s.dropWaiters c k).orphan c k
  let s := s.updCore c fun x => { x with racqQ := x.racqQ.filter (· != k) }
  let s := s.updCc c fun x => { x with
    warps := x.warps.del k
    lastSlot := if x.lastSlot = k then 32 else x.lastSlot
    dirtyBlocks := x.dirtyBlocks.filter fun b => b / 8 != k
    teams := x.teams.map fun e => if e.1 = w.team then (e.1, { e.2 with wids := e.2.wids.filter (· != w.wid) }) else e }
  let s := (s.serveBlocks c 33).endTeam c w.team
  s.post (.coreAdmission c)

/-- Lanes exit (10 R214; 20 R368): their stacks are discarded, the others may be released, a handler may end. -/
def exitLanes (s : State) (c k : Nat) (m : Mask) : State :=
  s.updWarp c k fun w =>
    let w := (w.updLanes m fun _ _ => {}).leaveRep m
    let w := if w.trap.inHandler && (w.lanesIn .exited &&& w.trap.tmask) = w.trap.tmask then w.leaveHandler else w
    w.release

/-- A user warp whose lanes have all exited ends (02 R22). -/
def reap (s : State) (c k : Nat) : State :=
  if k != fwSlot && (s.warp c k).ended then s.endWarp c k else s

end State

end Sys2Proof.Machine
end

