-- ==== Sys2Proof/Machine/Regions.lean ====
section
/-! DEFINITION. Regions (11 R235, R239; 17 R333 to R342): the region stack and its records, stops for the debugger,
tile trackers, and the capture counters. -/

namespace Sys2Proof.Machine

namespace State

/-- Does the context of a core run there (14 R296)? -/
def coreRuns (s : State) (c : Nat) : Bool :=
  let p := s.part (partOfCore c)
  p.running = some (s.cc c).ctx && !p.paused && !p.offline && !(s.core c).gated

/-- Do the teams of a unit wait for the rest of their gang (02 R34)? -/
def gangWaits (s : State) (c t : Nat) : Bool :=
  match s.teamUnit c t with
  | some u => u.waiting
  | none => false

/-- The partition of a context's lowest partition role, and a partition's lowest live core (14 R301). -/
def leadPart (s : State) (h : Nat) : Option Nat :=
  let ps := (s.parts.filter fun e => e.2.running = some h).map Prod.fst
  let role0 := ps.filter fun p => (s.part p).units.isEmpty || (s.part p).units.any fun u => u.2.prole = 0
  match role0 with
  | p :: _ => some p
  | [] => ps.head?
def liveCore (s : State) (p : Nat) : Option Nat :=
  (s.cores.find? fun e => partOfCore e.1 = p && !e.2.gated).map Prod.fst
def leadCore (s : State) (h : Nat) : Option Nat := (s.leadPart h).bind s.liveCore

/-! ## Stops for the debugger -/

/-- The running instruction's warp stops for the debugger (17 R341): the STOP record, and with ALL the stop of every
partition at the first. -/
def debugStop (s : State) (aux code : Nat) : State :=
  let h := s.myCtx
  let stops := s.firstStop h
  let s := s.updMe fun w => w.updTrap fun t => { t with dbgStopped := true }
  let low := BitVec.ofNat 64 (code % 4096 * 2 ^ 32 + s.fallThrough.toNat)
  let s := s.trace s.cur.core 4 s.me.wid aux 0 s.me.rgns (s.bodyCyc s.cur.core low)
  s.postAll stops

/-- Does an edge stop the warp: a valid entry that names it, or HALT (17 R340, R341)? `edge` is 1 enter, 2 leave. -/
def edgeStops (s : State) (id : BitVec 16) (edge : Nat) : Bool :=
  let x := s.ctx s.myCtx
  (List.range 4).any fun i =>
    let e := x.stoprgn i
    e.getLsbD 31 && e.extractLsb' 0 16 = id && (bitsOf e.toNat 17 16).testBit (edge - 1)
def edgeStop (s : State) (id : BitVec 16) (edge : Nat) : State :=
  if s.edgeStops id edge then s.debugStop 0 0
  else if (s.ctx s.myCtx).halt then s.debugStop 2 0 else s

/-! ## Tile trackers -/

/-- The topmost open tracker of a slot (17 R338). -/
def topTracker (s : State) (c k : Nat) : Option Nat :=
  ((s.cc c).trackers.foldl (fun (b : Option (Nat × Nat)) e =>
    if e.2.slot = k && !e.2.closed && (match b with | some x => decide (x.2 ≤ e.2.depth) | none => true)
    then some (e.1, e.2.depth) else b) none).map Prod.fst

def updTracker (s : State) (c n : Nat) (f : Tracker → Tracker) : State :=
  s.updCc c fun x => { x with trackers := x.trackers.map fun e => if e.1 = n then (n, f e.2) else e }

/-- A stamp of now: kept where it is the first, or written anew (17 R339). -/
def stamp (t : Tracker) (i : Nat) (first : Bool) : Tracker :=
  if first && (t.stamps.find i).isSome then t else { t with stamps := t.stamps.set i (min t.age 0xFFFFFFFE) }

/-- Post a closed tracker's record once its work is complete. -/
def trackerDone (s : State) (c n : Nat) : State :=
  match (s.cc c).trackers.find n with
  | some t => if t.closed && t.batches.isEmpty && t.cmds = 0 then s.post (.tileRecord c n) else s
  | none => s

/-- Open a tracker at a RGNENT of a tile region (17 R338). -/
def openTracker (s : State) (id : BitVec 16) : State :=
  let c := s.cur.core
  match (List.range 16).find? fun n => ((s.cc c).trackers.find n).isNone with
  | none => (s.updCore c fun x => { x with lost := x.lost + 1 }).countEv c 0x0F 1
  | some n =>
    let t : Tracker := { slot := s.cur.slot, rid := id, rgns := s.me.rgns, cyc0 := s.now,
                         depth := s.me.uni.regions.length, wid := s.me.wid }
    s.updCc c fun x => { x with trackers := x.trackers.set n t }
/-- Close the tracker of the id that stood at a depth. -/
def closeTracker (s : State) (depth : Nat) : State :=
  let c := s.cur.core
  match (s.cc c).trackers.find? fun e => e.2.slot = s.cur.slot && !e.2.closed && e.2.depth = depth with
  | some (n, _) => (s.updTracker c n fun t => { t with closed := true }).trackerDone c n
  | none => s

/-- The TILE record (17 R336, R339). -/
def tileBody (t : Tracker) : BitVec 320 :=
  let st (i : Nat) : Nat := (t.stamps.find i).getD 0xFFFFFFFF
  BitVec.ofNat 320 ((List.range 6).foldl (fun n i => n + st i * 2 ^ (32 * i)) 0 + t.cyc0 % 2 ^ 64 * 2 ^ 192)
def writeTile (s : State) (c n : Nat) : State :=
  match (s.cc c).trackers.find n with
  | some t =>
    if t.closed && t.batches.isEmpty && t.cmds = 0 then
      (s.trace c 2 t.wid 0 t.pre t.rgns (tileBody t)).updCc c fun x => { x with trackers := x.trackers.del n }
    else s
  | none => s

/-! ## Capture -/

/-- Start a capture, unless one is open (17 R342). -/
def beginCapture (s : State) (h trigger : Nat) : State :=
  if (s.ctx h).cap.live then s else s.updCtx h fun x => { x with cap := { live := true, trigger := trigger } }

/-- End it with its record, on the context's first core; it waits while the context does not run. -/
def endCapture (s : State) (h : Nat) : State :=
  let cap := (s.ctx h).cap
  if !cap.live then s else
  match s.leadCore h with
  | none => s.post (.captureEnd h)
  | some c =>
    let count (r : Nat × State) (i : Nat) : Nat × State :=
      if unmeasured (bitsOf (s.ctx h).capsel.toNat (8 * i + 7) (8 * i)) then
        let (x, t) := r.2.fresh
        let (y, t) := t.fresh
        (r.1 + (pairOf x y).toNat * 2 ^ (64 * i), t)
      else (r.1 + (cap.counts.get 0 i).toNat * 2 ^ (64 * i), r.2)
    let (sum, s) := (List.range 4).foldl count (0, s)
    let body := sum + cap.dur % 2 ^ 64 * 2 ^ 256
    (s.trace c 7 0 cap.trigger cap.pre (s.cc c).lastRgns (BitVec.ofNat 320 body)).updCtx h fun x =>
      { x with cap := { x.cap with live := false } }

/-! ## The stack -/

/-- A REGION record (17 R336), with the ids in force in the cycle of the edge. -/
def regionRecord (s : State) (aux : Nat) (id : BitVec 16) : State :=
  s.trace s.cur.core 1 s.me.wid aux 0 s.me.rgns (s.bodyCyc s.cur.core (id.setWidth 64))

/-- DEBUG (20 R372): kind, code, the region id named, the top id and the depth. -/
def debugTrap (s : State) (kind code : Nat) (id : BitVec 16) : TrapInfo :=
  let d := s.me.uni.regions.length
  s.trapAt grpDebug (kind * 4096 + code) (id.setWidth 32) (BitVec.ofNat 32 (s.me.topRegion.toNat * 2 ^ 16 + d))

def regionId (s : State) (a : BitVec 6) : BitVec 16 := (s.us a).extractLsb' 0 16

def rgnentBody (a : BitVec 6) (s : State) : Did :=
  let id := s.regionId a
  if id = 0#16 then .trap s (s.debugTrap 3 0 id)
  else if 16 ≤ s.me.uni.regions.length then .trap s (s.debugTrap 4 0 id)
  else
    let x := s.ctx s.myCtx
    let s := s.regionRecord 0 id
    let s := s.updMe fun w => w.updUni fun u => { u with regions := id :: u.regions }
    let s := if id.getLsbD 15 then s.openTracker id else s
    let s := if id = x.capctl.extractLsb' 16 16 then s.beginCapture s.myCtx 1 else s
    .done (s.edgeStop id 1) .fall

def rgnlveBody (a : BitVec 6) (s : State) : Did :=
  let id := s.regionId a
  match s.me.uni.regions with
  | [] => .trap s (s.debugTrap 5 0 id)
  | top :: rest =>
    if top ≠ id then .trap s (s.debugTrap 6 0 id) else
    let x := s.ctx s.myCtx
    let s := s.regionRecord 1 id
    let s := s.updMe fun w => w.updUni fun u => { u with regions := rest }
    let s := s.closeTracker (rest.length + 1)
    let s := if x.cap.live && x.cap.trigger = 1 && id = x.capctl.extractLsb' 16 16 then s.post (.captureEnd s.myCtx) else s
    .done (s.edgeStop id 2) .fall

/-- An instruction that completes and then traps: its lanes are at the fall-through when the trap is taken, unless it
is the second of a pair whose first trapped (11 R235; 20 R365). -/
def afterTrap (s : State) (t : TrapInfo) : Did :=
  let t := { t with epc := s.fallThrough }
  if s.cur.second && s.cur.firstTrapped then .trap s t else .trap (s.flow .fall) t

end State

def execRgnent (sc : BitVec 2) (a : BitVec 6) (s : State) : Host.Outcome State Fault Refusal :=
  .next (s.issue (.rgnent sc a) sc (State.rgnentBody a))
def execRgnlve (sc : BitVec 2) (a : BitVec 6) (s : State) : Host.Outcome State Fault Refusal :=
  .next (s.issue (.rgnlve sc a) sc (State.rgnlveBody a))
/-- TRAP (11 R235). -/
def execTrap (sc : BitVec 2) (c : BitVec 12) (s : State) : Host.Outcome State Fault Refusal :=
  .next (s.issue (.trap sc c) sc fun s => s.afterTrap (s.debugTrap 1 c.toNat 0))
/-- BKPT (11 R235; 17 R341): for a debugger that has claimed breakpoints the warp stops instead. -/
def execBkpt (sc : BitVec 2) (c : BitVec 12) (s : State) : Host.Outcome State Fault Refusal :=
  .next (s.issue (.bkpt sc c) sc fun s =>
    if (s.ctx s.myCtx).claim then .done (s.debugStop 1 c.toNat) .fall else s.afterTrap (s.debugTrap 2 c.toNat 0))

/-- TILE_RECORD. -/
def execTileRecord (core tracker : Nat) (s : State) : Host.Outcome State Fault Refusal :=
  if !coreOk core then .fault .noSuchUnit else .next (s.writeTile core tracker)
/-- CAPTURE_END. -/
def execCaptureEnd (ctx : Nat) (s : State) : Host.Outcome State Fault Refusal := .next (s.endCapture ctx)
/-- CAPTURE_START. -/
def execCaptureStart (ctx trigger : Nat) (s : State) : Host.Outcome State Fault Refusal :=
  .next (s.beginCapture ctx trigger)

end Sys2Proof.Machine
end

