-- ==== Sys2Proof/Machine/LaneMem.lean ====
section
/-! DEFINITION. Lane instructions that touch memory (10 R196 to R208): loads and stores, scratchpad accesses,
atomics, compare and swap, CADDV and PREF. -/

namespace Sys2Proof.Machine

namespace State

/-- The outcome of a memory instruction's checks: the trap of the lowest failing lane, or the request. -/
def accDo (s : State) (r : Except (Nat × AccFail) (List Access)) (f : State → List Access → Did) : Did :=
  match r with
  | .error (l, e) => .trap s (s.accTrap l e)
  | .ok as => f s as

/-- Registers of a lane that hold a store's data, as one number (10 R201). -/
def storeData (s : State) (t : Nat) (d : BitVec 7) (l : Nat) : Nat :=
  if t = 4 then
    (s.val64 d.toNat l).toNat + (s.val64 (d.toNat + 2) l).toNat * 2 ^ 64
  else if t = 3 then (s.val64 d.toNat l).toNat
  else (s.val d.toNat l).toNat % 2 ^ (8 * storeSize t)

/-- One lane of LD (10 R200). -/
def ldLane (s : State) (t : BitVec 3) (d a : BitVec 7) (b : BitVec 5) (c r : BitVec 1) (l : Nat) :
    Except AccFail Access := do
  let va := s.globalAddr a b c (loadSize t.toNat) l
  let (k, e, n) ← s.globalAccess kLoad va (fun f => loadPair t.toNat f d.toNat) false
  let acc := mkAccess l va k e n (r = 1#1) 0
  if t = 7#3 && e.fmt = fmtB4 then
    let x ← s.pageScale e va 0
    let y ← s.pageScale e va 1
    pure { acc with scale0 := x, scale1 := y }
  else pure acc
/-- Registers that a load writes in each lane. -/
def loadWords (t : BitVec 3) (as : List Access) : Nat :=
  if t = 6#3 then 4 else if t = 5#3 then 2
  else if t = 7#3 && as.any (fun a => a.fmt = fmtB4) then 2 else 1
/-- Keep the group at its PC until the home answers (20 R363; 21 R383). -/
def keepAtHome (s : State) (op : Nat) : State :=
  s.updMe fun w => w.updSched fun x => { x with atHome := x.atHome ++ [(op, s.cur.lanes)] }
/-- Ask for a checked load's accesses. An .f32 load of B4 elements writes D + 1 too, waits for a result pending there, and
can raise OF (05 R81): while a condition is enabled its group stays at its unit until its flags are known (20 R363). -/
def load (s : State) (t : BitVec 3) (d : BitVec 7) (as : List Access) : Did :=
  let n := loadWords t as
  if t = 7#3 && n = 2 then
    let next := d.toNat + 1
    if s.me.var.any fun v => v.file = .lane && v.num = next && v.lanes &&& s.cur.lanes != 0#32 then .wait s
    else if !s.me.mapped (next / 16) then
      .trap s (s.trapAt grpRegblock (0x1000 + 2 ^ (next / 16)) s.cur.word (BitVec.ofNat 32 next))
    else match (if s.cur.mode.getLsbD 4 then pendingUntil s.me s.cur.lanes .lane next else none) with
    | some c => .trap s (s.trapAt grpStallcheck (2 ^ 11 + next) s.cur.word (BitVec.ofNat 32 (max 1 (c + 1 - s.now))))
    | none =>
      if s.enables = 0#32 then .done (s.request (.load 7) as .lane d.toNat 2 0) .fall
      else
        let kept : Kept :=
          { enables := s.enables, lanes := s.cur.lanes, pc := s.cur.pc, len := s.cur.pos + 1
            reps := (s.cur.rep.map Prod.fst).getD 0, word := s.cur.word }
        let i := s.nextReq
        .done ((s.ask (.load 7) as .lane d.toNat 2 0 s.cur.lanes (some kept)).keepAtHome i) .stay
  else .done (s.request (.load t.toNat) as .lane d.toNat n 0) .fall
def ldBody (t : BitVec 3) (d a : BitVec 7) (b : BitVec 5) (c r : BitVec 1) (s : State) : Did :=
  let res := s.laneAccesses (s.ldLane t d a b c r)
  s.walked ((lanesOf s.cur.lanes).map (s.globalAddr a b c (loadSize t.toNat))) fun s => s.accDo res fun s as => s.load t d as

/-- One lane of ST (10 R201). -/
def stLane (s : State) (t : BitVec 3) (d a : BitVec 7) (b : BitVec 5) (c : BitVec 1) (l : Nat) :
    Except AccFail Access := do
  let n := storeSize t.toNat
  let va := s.globalAddr a b c n l
  let (k, e, _) ← s.globalAccess kStore va (fun _ => some n) true
  pure (mkAccess l va k e n false (s.storeData t.toNat d l))
def stBody (t : BitVec 3) (d a : BitVec 7) (b : BitVec 5) (c : BitVec 1) (s : State) : Did :=
  let res := s.laneAccesses (s.stLane t d a b c)
  s.walked ((lanesOf s.cur.lanes).map (s.globalAddr a b c (storeSize t.toNat))) fun s => s.accDo res fun s as =>
    .done (s.request .store as .lane 0 0 0) .fall

/-! ## Scratchpad -/

/-- The role of a role-addressed access: the unit's literal (08 R153). -/
def litRole (s : State) (r : BitVec 1) : Option Nat :=
  if r = 1#1 then some (bitsOf (s.cur.lit.getD 0).toNat 4 0) else none
/-- The access record of a window access. -/
def winAccess (l k p phys n fmt data : Nat) : Access :=
  { lane := l, va := 0, pa := 8192 * p + phys, size := n, fmt := fmt, data := data, core := some k }
/-- Where the scale of code j of the byte at offset o of a B4 window lies: in its companion (12 R246). -/
def winScale (s : State) (r : Option Nat) (w o j : Nat) (x : DWord) (saw : Word) : Except AccFail (List ByteAt) :=
  let bad (n : Nat) : AccFail := accFail n kLoad (saw.setWidth 64)
  if w % 2 = 1 then .error (bad 2) else
  match s.window s.cur.core s.me.team r (w + 1) with
  | none => .error (bad 3)
  | some (k, p) =>
    let y := (s.cc k).wdesc.get 0 p
    if !wdV y || wdFmt y != fmtRaw then .error (bad 2) else
    let so := o / wdPitch x * wdPitch y + 3 * ((o % wdPitch x * 2 + j) / 32)
    .ok ((List.range 3).map fun i => { pa := 8192 * p + winPhys y (so + i), core := some k })
/-- One lane of a window access of role r, window w, offset o. -/
def winLane (s : State) (kind : Nat) (r : Option Nat) (w o l : Nat) (saw : Word) (size : Nat → Option Nat) (data : Nat) :
    Except AccFail Access := do
  let (k, p, phys, x) ← s.checkWindow s.cur.core s.me.team kind r w o saw size
  pure (winAccess l k p phys ((size (wdFmt x)).getD 1) (wdFmt x) data)
/-- Does a window access wait for an operation in flight (06 R115)? -/
def winHeld (s : State) (write : Bool) (as : List Access) : Bool :=
  as.any fun a => match a.core with
    | some k => s.scoreHolds k (a.pa / 8192) (a.pa % 8192) (a.pa % 8192 + a.size) write none
    | none => false
/-- Stall, or ask. -/
def winDo (s : State) (write : Bool) (r : Except (Nat × AccFail) (List Access)) (f : State → List Access → Did) : Did :=
  s.accDo r fun s as => if s.winHeld write as then .wait s else f s as

def ldsLane (s : State) (t : BitVec 3) (d a : BitVec 7) (r : BitVec 1) (w : BitVec 6) (l : Nat) :
    Except AccFail Access := do
  let o := (s.val a.toNat l).toNat
  let role := s.litRole r
  let saw := spWordOf role w.toNat o
  let acc ← s.winLane kLoad role w.toNat o l saw (fun f => loadPair t.toNat f d.toNat) 0
  if t = 7#3 && acc.fmt = fmtB4 then
    let desc := match acc.core with
      | some k => (s.cc k).wdesc.get 0 (acc.pa / 8192)
      | none => 0
    let x ← s.winScale role w.toNat o 0 desc saw
    let y ← s.winScale role w.toNat o 1 desc saw
    pure { acc with scale0 := x, scale1 := y }
  else pure acc
def ldsBody (t : BitVec 3) (d a : BitVec 7) (r : BitVec 1) (w : BitVec 6) (s : State) : Did :=
  s.winDo false (s.laneAccesses (s.ldsLane t d a r w)) fun s as => s.load t d as

def stsLane (s : State) (t : BitVec 3) (d a : BitVec 7) (r : BitVec 1) (w : BitVec 6) (l : Nat) :
    Except AccFail Access :=
  let o := (s.val a.toNat l).toNat
  let role := s.litRole r
  s.winLane kStore role w.toNat o l (spWordOf role w.toNat o) (fun _ => some (storeSize t.toNat)) (s.storeData t.toNat d l)
def stsBody (t : BitVec 3) (d a : BitVec 7) (r : BitVec 1) (w : BitVec 6) (s : State) : Did :=
  s.winDo true (s.laneAccesses (s.stsLane t d a r w)) fun s as => .done (s.request .store as .lane 0 0 0) .fall

/-! ## Atomics -/

/-- An instruction that releases before it acts: it waits for what it must make visible (06 R106). -/
def afterRelease (s : State) (scope : Nat) (d : State → Did) : Did :=
  if !s.canRelease s.cur.core s.cur.slot scope then .wait s
  else d (if scope = 0 then s else s.releaseAt s.cur.core scope)

def atomLane (s : State) (d : BitVec 7) (a : BitVec 6) (w : BitVec 1) (l : Nat) : Except AccFail Access := do
  let n := if w = 1#1 then 8 else 4
  let va := s.laneAddr a l
  let (k, e, _) ← s.globalAccess kAtomic va (fun _ => some n) true
  pure (mkAccess l va k e n false (if w = 1#1 then (s.val64 d.toNat l).toNat else (s.val d.toNat l).toNat))
def atomBody (d : BitVec 7) (a : BitVec 6) (w : BitVec 1) (o : BitVec 4) (k : BitVec 3) (s : State) : Did :=
  let res := s.laneAccesses (s.atomLane d a w)
  s.walked ((lanesOf s.cur.lanes).map (s.laneAddr a)) fun s => s.accDo res fun s as => s.afterRelease k.toNat fun s =>
    .done (s.request (.atom o.toNat (w = 1#1)) as .lane d.toNat (1 + w.toNat) k.toNat) .fall

def casLane (s : State) (d : BitVec 7) (a : BitVec 6) (w : BitVec 1) (l : Nat) : Except AccFail Access := do
  let n := if w = 1#1 then 8 else 4
  let va := s.laneAddr a l
  let (k, e, _) ← s.globalAccess kAtomic va (fun _ => some n) true
  let acc := mkAccess l va k e n false (if w = 1#1 then (s.val64 d.toNat l).toNat else (s.val d.toNat l).toNat)
  pure { acc with data2 :=
    if w = 1#1 then (s.val64 (d.toNat + 2) l).toNat else (s.val (d.toNat + 1) l).toNat }
def casBody (d : BitVec 7) (a : BitVec 6) (w : BitVec 1) (k : BitVec 3) (s : State) : Did :=
  let res := s.laneAccesses (s.casLane d a w)
  s.walked ((lanesOf s.cur.lanes).map (s.laneAddr a)) fun s => s.accDo res fun s as => s.afterRelease k.toNat fun s =>
    .done (s.request (.cas (w = 1#1)) as .lane d.toNat (1 + w.toNat) k.toNat) .fall

/-- One lane of ATOMS or CASS: the scratchpad address word of A (10 R197, R206; 08 R160). -/
def spLane (s : State) (d a : BitVec 7) (l : Nat) : Except AccFail Access :=
  let x := s.val a.toNat l
  match spWord x with
  | none => .error (accFail 8 kAtomic (x.setWidth 64))
  | some (r, w, o) => s.winLane kAtomic r w o l x (fun _ => some 4) (s.val d.toNat l).toNat
def atomsBody (d a : BitVec 7) (o : BitVec 4) (k : BitVec 3) (s : State) : Did :=
  s.winDo true (s.laneAccesses (s.spLane d a)) fun s as => s.afterRelease k.toNat fun s =>
    .done (s.request (.atom o.toNat false) as .lane d.toNat 1 k.toNat) .fall
def cassBody (d a : BitVec 7) (k : BitVec 3) (s : State) : Did :=
  let f (l : Nat) : Except AccFail Access := do
    let acc ← s.spLane d a l
    pure { acc with data2 := (s.val (d.toNat + 1) l).toNat }
  s.winDo true (s.laneAccesses f) fun s as => s.afterRelease k.toNat fun s =>
    .done (s.request (.cas false) as .lane d.toNat 1 k.toNat) .fall

/-! ## CADDV and PREF -/

/-- One lane of CADDV (10 R207; 07 R123). -/
def caddvLane (s : State) (a : BitVec 6) (l : Nat) : Except AccFail Access :=
  let va := s.laneAddr a l
  match s.coreCheck s.cur.core s.myCtx kCtrAdd va with
  | .error f => .error f
  | .ok k => if va.toNat % 8 != 0 then .error (accFail 4 kCtrAdd va) else .ok (mkAccess l va k {} 8 false 0)
def caddvBody (d : BitVec 6) (x : BitVec 1) (a : BitVec 6) (y : BitVec 1) (b : BitVec 7) (s : State) : Did :=
  let res := s.laneAccesses (s.caddvLane a)
  let scope := ctrScope (2 * x.toNat + y.toNat)
  s.walked ((lanesOf s.cur.lanes).map (s.laneAddr a)) fun s => s.accDo res fun s as => s.afterRelease scope fun s =>
    let (op, s) := s.newReq
    let adds := as.map fun c => (c.lane, c.va, CtrHome.mem c.pa c.kid, (s.val b.toNat c.lane).setWidth 64)
    let o : CtrOp := { core := s.cur.core, slot := s.cur.slot, ctx := s.myCtx, kind := .addv, name := .addr 0, form := 3,
                       home := .mem 0 0, scope := scope, dest := 2 * d.toNat, lanes := s.cur.lanes, pc := s.cur.pc,
                       len := s.cur.pos + 1, adds := adds, reps := (s.cur.rep.map Prod.fst).getD 0 }
    let s := { s with ctrOps := s.ctrOps.set op o }
    .done (((s.addVar .lane (2 * d.toNat) 2 s.cur.lanes op).keepAtHome op).post (.counterOpAtHome op)) .stay

/-- One lane of PREF (10 R208): an access that would fault, or to a locked range (06 R117), is dropped; so is one of an
uncached page, where nothing is allocated (05 R90). -/
def prefLane (s : State) (va : DWord) (l : Nat) : Option Access :=
  match s.coreCheck s.cur.core s.myCtx kLoad va with
  | .error _ => none
  | .ok k =>
    let lo := va.toNat - va.toNat % 128
    if (s.lockedBy s.cur.core lo (lo + 128) true).isSome || k.cache = 2 then none
    else some (mkAccess l va k {} 1 false 0)
def prefBody (level : Nat) (va : Nat → DWord) (s : State) : Did :=
  let ls := lanesOf s.cur.lanes
  let as := ls.filterMap fun l => s.prefLane (va l) l
  s.walked (as.map Access.va) fun s =>
    .done ((lineGroups as).foldl (fun s g => s.ask (.pref (level = 0)) g .lane 0 0 0 0 none) s) .fall

end State

def execLd (sc : BitVec 2) (t : BitVec 3) (d a : BitVec 7) (b : BitVec 5) (c r : BitVec 1) (s : State) :
    Host.Outcome State Fault Refusal := .next (s.issue (.ld sc t d a b c r) sc (State.ldBody t d a b c r))
def execSt (sc : BitVec 2) (t : BitVec 3) (d a : BitVec 7) (b : BitVec 5) (c : BitVec 1) (s : State) :
    Host.Outcome State Fault Refusal := .next (s.issue (.st sc t d a b c) sc (State.stBody t d a b c))
def execAtom (sc : BitVec 2) (d : BitVec 7) (a : BitVec 6) (w : BitVec 1) (o : BitVec 4) (k : BitVec 3) (s : State) :
    Host.Outcome State Fault Refusal := .next (s.issue (.atom sc d a w o k) sc (State.atomBody d a w o k))
def execCas (sc : BitVec 2) (d : BitVec 7) (a : BitVec 6) (w : BitVec 1) (k : BitVec 3) (s : State) :
    Host.Outcome State Fault Refusal := .next (s.issue (.cas sc d a w k) sc (State.casBody d a w k))
def execCaddv (sc : BitVec 2) (d : BitVec 6) (x : BitVec 1) (a : BitVec 6) (y : BitVec 1) (b : BitVec 7) (s : State) :
    Host.Outcome State Fault Refusal := .next (s.issue (.caddv sc d x a y b) sc (State.caddvBody d x a y b))
def execLds (sc : BitVec 2) (t : BitVec 3) (d a : BitVec 7) (r : BitVec 1) (w : BitVec 6) (s : State) :
    Host.Outcome State Fault Refusal := .next (s.issue (.lds sc t d a r w) sc (State.ldsBody t d a r w))
def execSts (sc : BitVec 2) (t : BitVec 3) (d a : BitVec 7) (r : BitVec 1) (w : BitVec 6) (s : State) :
    Host.Outcome State Fault Refusal := .next (s.issue (.sts sc t d a r w) sc (State.stsBody t d a r w))
def execAtoms (sc : BitVec 2) (d a : BitVec 7) (o : BitVec 4) (k : BitVec 3) (s : State) :
    Host.Outcome State Fault Refusal := .next (s.issue (.atoms sc d a o k) sc (State.atomsBody d a o k))
def execCass (sc : BitVec 2) (d a : BitVec 7) (k : BitVec 3) (s : State) :
    Host.Outcome State Fault Refusal := .next (s.issue (.cass sc d a k) sc (State.cassBody d a k))
def execPref (sc l : BitVec 2) (a : BitVec 7) (b : BitVec 5) (c : BitVec 1) (s : State) :
    Host.Outcome State Fault Refusal :=
  .next (s.issue (.pref sc l a b c) sc fun s => s.prefBody l.toNat (s.globalAddr a b c 128))

end Sys2Proof.Machine
end

