-- ==== Sys2Proof/Machine/LaneControl.lean ====
section
/-! DEFINITION. Lane control (10 R209 to R217): branches, calls and returns with their stacks in memory (03
R45), reconvergence, exit, SPAWN (02 R36), YLD and NOP. -/

namespace Sys2Proof.Machine

namespace State

/-- A relative target of a lane branch (10 R209): P is the unit's PC. -/
def laneTarget (s : State) (i : BitVec 14) : Word := relTarget s.cur.pc i.toInt

/-- The lanes of Active whose register target is misaligned (10 R209). -/
def badTargets (s : State) (a : BitVec 7) : List Nat :=
  (lanesOf s.cur.lanes).filter fun l => s.val a.toNat l &&& 3#32 != 0#32
/-- ACCESS of a misaligned register target: reason 9, the target PC (20 R372, R373). -/
def targetTrap (s : State) (a : BitVec 7) (l : Nat) : TrapInfo :=
  s.accTrap l (accFail 9 kFetch ((s.val a.toNat l).setWidth 64))

/-! ## The return stack -/

/-- The address of a lane's spill unit k (03 R45). -/
def spillAddr (s : State) (k l : Nat) : DWord := s.me.uni.csbase + BitVec.ofNat 64 (k * 512 + l * 16)
/-- The checks of a spill or refill (10 R211; 10 R199 step 3). -/
def spillCheck (s : State) (kind : Nat) (write : Bool) (k l : Nat) : Except (Nat × AccFail) Checked :=
  match s.globalAccess kind (s.spillAddr k l) (fun _ => some 4) write with
  | .error f => .error (l, f)
  | .ok (x, _, _) => .ok x
/-- All of them, ascending. -/
def spillChecks (s : State) (kind : Nat) (write : Bool) : List (Nat × Nat) → Except (Nat × AccFail) (List (Nat × Nat × Checked))
  | [] => .ok []
  | (l, k) :: rest => match s.spillCheck kind write k l with
    | .error e => .error e
    | .ok x => match spillChecks s kind write rest with
      | .error e => .error e
      | .ok xs => .ok ((l, k, x) :: xs)
/-- What holds a spill or refill at its line. -/
def spillHold (s : State) (write : Bool) (xs : List (Nat × Nat × Checked)) : Option Nat :=
  xs.findSome? fun e => s.coreHold e.2.2.pa e.2.2.cache write
/-- CALLSTACK (20 R372): kind and mask of failing lanes. -/
def callTrap (s : State) (kind : Nat) (m : Mask) : TrapInfo :=
  s.trapLane grpCallstack (kind * 4096) ((lanesOf m).headD 0) m s.me.uni.cslim

/-- Push the fall-through in every lane of Active and go to its target (10 R211). A spill comes after the thread's earlier
accesses (06 R101): it waits for those of the warp. -/
def callBody (target : Nat → Word) (s : State) : Did :=
  let w := s.me
  let full := (lanesOf s.cur.lanes).filter fun l => 4 ≤ (w.lane l).stack.length
  let bad := maskOf fun l => full.contains l && decide (w.uni.cslim.toNat ≤ (w.lane l).spill)
  if bad != 0#32 then .trap s (s.callTrap 1 bad) else
  if !full.isEmpty && s.warpBusy s.cur.core s.cur.slot then .wait s else
  let checked := s.spillChecks kSpill true (full.map fun l => (l, (w.lane l).spill))
  s.walked (full.map fun l => s.spillAddr (w.lane l).spill l) fun walked =>
  match checked with
  | .error (l, e) => .trap s (s.accTrap l e)
  | .ok xs =>
    match s.spillHold true xs with
    | some key => .wait (s.snoop key true)
    | none =>
      let s := xs.foldl (fun s e =>
        let bytes := ((w.lane e.1).stack.take 4).reverse.foldl (fun bs x => bs ++ leBytes 4 x.toNat) []
        if s.spaceLost s.myDie e.2.2.pa then s.pendAsync s.cur.core s.cur.slot (linkTrap 6 (peerOf e.2.2.pa) (s.spillAddr e.2.1 e.1))
        else s.coreWrite s.cur.core s.myCtx e.2.2.pa e.2.2.kid e.2.2.cache bytes) walked
      let ret := s.fallThrough
      .done (s.updMe fun w => w.updLanes s.cur.lanes fun l x =>
        if full.contains l then { x with stack := [ret], spill := x.spill + 1 } else { x with stack := ret :: x.stack })
        (.goto target)

/-- Words of a refilled unit, newest first: the oldest lies lowest (03 R45). -/
def stackOf (bs : List Byte) : List Word :=
  (List.range 4).map fun j => BitVec.ofNat 32 (leNat ((bs.drop (4 * (3 - j))).take 4))

/-- Pop every lane of Active (10 R211). A refill comes after the thread's earlier accesses (06 R101). -/
def retBody (s : State) : Did :=
  let w := s.me
  let empty := (lanesOf s.cur.lanes).filter fun l => (w.lane l).stack.isEmpty
  let bad := maskOf fun l => empty.contains l && (w.lane l).spill = 0
  if bad != 0#32 then .trap s (s.callTrap 2 bad) else
  if !empty.isEmpty && s.warpBusy s.cur.core s.cur.slot then .wait s else
  let checked := s.spillChecks kRefill false (empty.map fun l => (l, (w.lane l).spill - 1))
  s.walked (empty.map fun l => s.spillAddr ((w.lane l).spill - 1) l) fun walked =>
  match checked with
  | .error (l, e) => .trap s (s.accTrap l e)
  | .ok xs =>
    match s.spillHold false xs with
    | some key => .wait (s.snoop key false)
    | none =>
      let s := xs.foldl (fun s e =>
        let put (s : State) (st : List Word) : State :=
          s.updMe fun w => w.updLane e.1 fun x => { x with stack := st, spill := x.spill - 1 }
        if s.spaceLost s.myDie e.2.2.pa then
          (put s (List.replicate 4 0xFFFFFFFF#32)).pendAsync s.cur.core s.cur.slot
            (linkTrap 6 (peerOf e.2.2.pa) (s.spillAddr e.2.1 e.1))
        else
          let bad := s.consumes s.cur.core e.2.2.pa e.2.2.cache 16
          let (s, bs) := s.coreRead s.cur.core e.2.2.pa e.2.2.kid e.2.2.cache (pteRoh e.2.2.tlb.entry) 16
          let s := put s (stackOf bs)
          if bad then s.machineErr s.cur.core s.cur.slot s.myCtx e.2.2.pa else s) walked
      let w := s.me
      .done (s.updMe fun w => w.updLanes s.cur.lanes fun _ x => { x with stack := x.stack.drop 1 })
        (.goto fun l => (w.lane l).stack.headD 0)

/-! ## SPAWN -/

/-- The bin that takes a thread for an entry (02 R36). -/
def binFor (bins : Map SpawnBin) (entry : Word) : Option Nat :=
  let used (b : Nat) : Bool := !(bins.get {} b).threads.isEmpty
  match (List.range 16).find? fun b => used b && (bins.get {} b).entry = entry with
  | some b => if (bins.get {} b).threads.length < 32 then some b else none
  | none => (List.range 16).find? fun b => !used b

/-- A bin with one more thread of a team (02 R36, R38): its first binds it, and starts a timer of this period. -/
def addThread (y : SpawnBin) (entry arg : Word) (t period : Nat) : SpawnBin :=
  if y.threads.isEmpty then { entry := entry, threads := [(arg, t)], period := period }
  else { y with threads := y.threads ++ [(arg, t)] }

/-- Place the threads of lanes from the first not yet placed (02 R36; 10 R215): the lane at which it stalls, if it
does. -/
def placeThreads (s : State) (a b : BitVec 7) : List Nat → State × Option Nat
  | [] => (s, none)
  | l :: ls =>
    match binFor (s.cc s.cur.core).bins (s.val a.toNat l) with
    | none => (s, some l)
    | some n =>
      let t := s.me.team
      let add (period : Nat) (y : SpawnBin) : SpawnBin := addThread y (s.val a.toNat l) (s.val b.toNat l) t period
      let s' := s.updCc s.cur.core fun x => { x with bins := x.bins.upd {} n (add s.cur.spntmr.toNat) }
      let s' := if ((s'.cc s.cur.core).bins.get {} n).threads.length = 32 then s'.post (.coreAdmission s.cur.core) else s'
      placeThreads s' a b ls

/-- Keep, or clear, the index of the next lane of the running SPAWN. -/
def spawnNext (s : State) (n : Option Nat) : State :=
  let own : List SpawnStall := match n with
    | some l => [⟨s.cur.pc, s.cur.lanes, l⟩]
    | none => []
  s.updMe fun w => w.updSched fun x => { x with spawns := own ++ x.spawns.filter fun p => !p.of s.cur.pc s.cur.lanes }

/-- The lanes of a SPAWN that have not been placed. -/
def spawnTodo (s : State) : List Nat :=
  let ls := lanesOf s.cur.lanes
  match s.me.sched.spawns.find? fun p => p.of s.cur.pc s.cur.lanes with
  | some p => ls.filter fun l => !(p.lanes.getLsbD l && decide (l < p.next))
  | none => ls

/-- SPAWN (10 R215): while it stalls it stays at its place with the index of its next lane. The memory port is held a
cycle for each thread placed. -/
def spawnBody (a b : BitVec 7) (s : State) : Did :=
  match s.badTargets a with
  | l :: _ => .trap s (s.trapLane grpSpawn 4096 l (maskOf fun n => (s.badTargets a).contains n) (s.val a.toNat l))
  | [] =>
    let todo := s.spawnTodo
    let full := match todo with
      | l :: _ => (binFor (s.cc s.cur.core).bins (s.val a.toNat l)).isNone
      | [] => false
    if full && s.me.sched.spawns.any (fun p => p.of s.cur.pc s.cur.lanes) then .wait s else
    match s.placeThreads a b todo with
    | (s, some n) => .done ((s.spawnNext (some n)).holdUnit .memory (todo.takeWhile (· != n)).length) .stay
    | (s, none) => .done ((s.spawnNext none).holdUnit .memory todo.length) .fall

end State

def execBra (sc : BitVec 2) (i : BitVec 14) (s : State) : Host.Outcome State Fault Refusal :=
  .next (s.issue (.bra sc i) sc fun s => .done s (.goto fun _ => s.laneTarget i))
def execBrp (sc : BitVec 2) (n : BitVec 1) (p : BitVec 3) (i : BitVec 14) (s : State) :
    Host.Outcome State Fault Refusal :=
  .next (s.issue (.brp sc n p i) sc fun s =>
    .done s (.goto fun l => if s.me.p p.toNat l != (n = 1#1) then s.laneTarget i else s.fallThrough))
def execCall (sc : BitVec 2) (i : BitVec 14) (s : State) : Host.Outcome State Fault Refusal :=
  .next (s.issue (.call sc i) sc fun s => s.callBody fun _ => s.laneTarget i)
def calliBody (a : BitVec 7) (s : State) : Did :=
  match s.badTargets a with
  | l :: _ => .trap s (s.targetTrap a l)
  | [] => s.callBody fun l => s.val a.toNat l
def execCalli (sc : BitVec 2) (a : BitVec 7) (s : State) : Host.Outcome State Fault Refusal :=
  .next (s.issue (.calli sc a) sc (calliBody a))
def execRet (sc : BitVec 2) (s : State) : Host.Outcome State Fault Refusal :=
  .next (s.issue (.ret sc) sc State.retBody)
def execJmpi (sc : BitVec 2) (a : BitVec 7) (s : State) : Host.Outcome State Fault Refusal :=
  .next (s.issue (.jmpi sc a) sc fun s => match s.badTargets a with
    | l :: _ => .trap s (s.targetTrap a l)
    | [] => .done s (.goto fun l => s.val a.toNat l))

/-- RCV (02 R27, R28; 10 R213). -/
def execRcv (sc : BitVec 2) (s : State) : Host.Outcome State Fault Refusal :=
  .next (s.issue (.rcv sc) sc fun s =>
    .done (s.updMe fun w => (w.updLanes s.cur.lanes fun _ x =>
      { x with state := .parked, park := s.cur.pc, waits := 0 }).release) .stay)
def execExit (sc : BitVec 2) (s : State) : Host.Outcome State Fault Refusal :=
  .next ((s.issue (.exit sc) sc fun s =>
    .done (s.exitLanes s.cur.core s.cur.slot s.cur.lanes) .stay).reap s.cur.core s.cur.slot)
def execSpawn (sc : BitVec 2) (a b : BitVec 7) (s : State) : Host.Outcome State Fault Refusal :=
  .next (s.issue (.spawn sc a b) sc (State.spawnBody a b))

/-- YLD (10 R216): the warp becomes the youngest of its quad. -/
def execYld (sc : BitVec 2) (s : State) : Host.Outcome State Fault Refusal :=
  .next (s.issue (.yld sc) sc fun s =>
    let n := (s.core s.cur.core).nextAge
    let s := s.updCore s.cur.core fun x => { x with nextAge := n + 1 }
    .done (s.updMe fun w => w.updSched fun x => { x with age := n }) .fall)
def execNop (sc : BitVec 2) (s : State) : Host.Outcome State Fault Refusal :=
  .next (s.issue (.nop sc) sc fun s => .done s .fall)

end Sys2Proof.Machine
end

