-- ==== Sys2Proof/Machine/LaneInt.lean ====
section
/-! DEFINITION. Lane instructions: integer, logic, shifts and bit fields (09 R172 to R175). -/

namespace Sys2Proof.Machine

/-- Integer results of latency 2 from one, two or three operands, and from an immediate (09 R172). -/
def int1 (i : Instr) (sc : BitVec 2) (d a : BitVec 7) (f : Word → Word) (s : State) :
    Host.Outcome State Fault Refusal :=
  .next (s.issue i sc fun s => s.laneOp 2 d fun l => f (s.val a.toNat l))
def int2 (i : Instr) (sc : BitVec 2) (d a b : BitVec 7) (f : Word → Word → Word) (s : State) :
    Host.Outcome State Fault Refusal :=
  .next (s.issue i sc fun s => s.laneOp 2 d fun l => f (s.val a.toNat l) (s.val b.toNat l))
def int3 (i : Instr) (sc : BitVec 2) (d a b : BitVec 7) (f : Word → Word → Word → Word) (s : State) :
    Host.Outcome State Fault Refusal :=
  .next (s.issue i sc fun s => s.laneOp 2 d fun l => f (s.val a.toNat l) (s.val b.toNat l) (s.val d.toNat l))

/-- The signed and unsigned high halves of a product (09 R172; 11 R223). -/
def mulHigh (signed : Bool) (x y : Word) : Word :=
  if signed then BitVec.ofInt 32 (x.toInt * y.toInt / 2 ^ 32) else BitVec.ofNat 32 (x.toNat * y.toNat / 2 ^ 32)
/-- The smaller or larger of two words, compared signed or unsigned. -/
def minMax (isMax signed : Bool) (x y : Word) : Word :=
  let lt := if signed then x.slt y else x.ult y
  if isMax then (if lt then y else x) else (if lt then x else y)
/-- Absolute value; 0x8000_0000 gives itself. -/
def absWord (x : Word) : Word := if x.msb then -x else x
/-- Shifts by n of 0 to 255 (09 R174). -/
def shlBy (x : Word) (n : Nat) : Word := x <<< n
def shrBy (x : Word) (n : Nat) : Word := x >>> n
def sarBy (x : Word) (n : Nat) : Word := x.sshiftRight (min n 31)
/-- The count of bits, of leading zeros and of trailing zeros. -/
def popCount (x : Word) : Word := BitVec.ofNat 32 (lanesOf x).length
def leadZeros (x : Word) : Word := BitVec.ofNat 32 (if x = 0#32 then 32 else 31 - Nat.log2 x.toNat)
def trailZeros (x : Word) : Word := BitVec.ofNat 32 ((lanesOf x).headD 32)
/-- A field descriptor: position and width (09 R175). -/
def fieldPos (b : Word) : Nat := bitsOf b.toNat 4 0
def fieldWidth (b : Word) : Nat := min (bitsOf b.toNat 13 8) (32 - fieldPos b)
/-- The field of A, unsigned and signed. -/
def bfe (signed : Bool) (a b : Word) : Word :=
  let w := fieldWidth b
  let x := (a.toNat / 2 ^ fieldPos b) % 2 ^ w
  if signed && w != 0 && x.testBit (w - 1) then BitVec.ofNat 32 (x + 2 ^ 32 - 2 ^ w) else BitVec.ofNat 32 x
/-- The low bits of A put into the field of D. -/
def bfiWord (a b d : Word) : Word :=
  let m : Word := BitVec.ofNat 32 ((2 ^ fieldWidth b - 1) * 2 ^ fieldPos b)
  (d &&& ~~~m) ||| ((a <<< fieldPos b) &&& m)

def execIadd (sc : BitVec 2) (d a b : BitVec 7) (s : State) := int2 (.iadd sc d a b) sc d a b (· + ·) s
def execIsub (sc : BitVec 2) (d a b : BitVec 7) (s : State) := int2 (.isub sc d a b) sc d a b (· - ·) s
def execImul (sc : BitVec 2) (d a b : BitVec 7) (s : State) := int2 (.imul sc d a b) sc d a b (· * ·) s
def execImulhI32 (sc : BitVec 2) (d a b : BitVec 7) (s : State) :=
  int2 (.imulhI32 sc d a b) sc d a b (mulHigh true) s
def execImulhN32 (sc : BitVec 2) (d a b : BitVec 7) (s : State) :=
  int2 (.imulhN32 sc d a b) sc d a b (mulHigh false) s
def execImad (sc : BitVec 2) (d a b : BitVec 7) (s : State) :=
  int3 (.imad sc d a b) sc d a b (fun x y z => x * y + z) s
def execIminI32 (sc : BitVec 2) (d a b : BitVec 7) (s : State) :=
  int2 (.iminI32 sc d a b) sc d a b (minMax false true) s
def execIminN32 (sc : BitVec 2) (d a b : BitVec 7) (s : State) :=
  int2 (.iminN32 sc d a b) sc d a b (minMax false false) s
def execImaxI32 (sc : BitVec 2) (d a b : BitVec 7) (s : State) :=
  int2 (.imaxI32 sc d a b) sc d a b (minMax true true) s
def execImaxN32 (sc : BitVec 2) (d a b : BitVec 7) (s : State) :=
  int2 (.imaxN32 sc d a b) sc d a b (minMax true false) s
def execIabs (sc : BitVec 2) (d a : BitVec 7) (s : State) := int1 (.iabs sc d a) sc d a absWord s
def execIneg (sc : BitVec 2) (d a : BitVec 7) (s : State) := int1 (.ineg sc d a) sc d a (fun x => -x) s
def execIaddi (sc : BitVec 2) (d a i : BitVec 7) (s : State) :=
  int1 (.iaddi sc d a i) sc d a (fun x => x + i.signExtend 32) s
def execImuli (sc : BitVec 2) (d a i : BitVec 7) (s : State) :=
  int1 (.imuli sc d a i) sc d a (fun x => x * i.signExtend 32) s
/-- ICMP (09 R173). -/
def execIcmp (sc : BitVec 2) (c : BitVec 4) (p : BitVec 3) (a b : BitVec 7) (s : State) :
    Host.Outcome State Fault Refusal :=
  .next (s.issue (.icmp sc c p a b) sc fun s => s.predOp 2 p fun l => iCond c.toNat (s.val a.toNat l) (s.val b.toNat l))
def execIcmpi (sc : BitVec 2) (c : BitVec 4) (p : BitVec 3) (a i : BitVec 7) (s : State) :
    Host.Outcome State Fault Refusal :=
  .next (s.issue (.icmpi sc c p a i) sc fun s => s.predOp 2 p fun l => iCond c.toNat (s.val a.toNat l) (i.signExtend 32))
def execMov (sc : BitVec 2) (d a : BitVec 7) (s : State) := int1 (.mov sc d a) sc d a id s
def execMovi (sc : BitVec 2) (d : BitVec 7) (i : BitVec 14) (s : State) : Host.Outcome State Fault Refusal :=
  .next (s.issue (.movi sc d i) sc fun s => s.laneOp 2 d fun _ => i.signExtend 32)
def execSel (sc : BitVec 2) (p : BitVec 3) (d a b : BitVec 7) (s : State) : Host.Outcome State Fault Refusal :=
  .next (s.issue (.sel sc p d a b) sc fun s => s.laneOp 2 d fun l =>
    if s.me.p p.toNat l then s.val a.toNat l else s.val b.toNat l)

def execAnd (sc : BitVec 2) (d a b : BitVec 7) (s : State) := int2 (.and sc d a b) sc d a b (· &&& ·) s
def execOr (sc : BitVec 2) (d a b : BitVec 7) (s : State) := int2 (.or sc d a b) sc d a b (· ||| ·) s
def execXor (sc : BitVec 2) (d a b : BitVec 7) (s : State) := int2 (.xor sc d a b) sc d a b (· ^^^ ·) s
def execAndn (sc : BitVec 2) (d a b : BitVec 7) (s : State) :=
  int2 (.andn sc d a b) sc d a b (fun x y => x &&& ~~~y) s
def execNot (sc : BitVec 2) (d a : BitVec 7) (s : State) := int1 (.not sc d a) sc d a (fun x => ~~~x) s
def execAndi (sc : BitVec 2) (d a i : BitVec 7) (s : State) :=
  int1 (.andi sc d a i) sc d a (fun x => x &&& i.setWidth 32) s
def execOri (sc : BitVec 2) (d a i : BitVec 7) (s : State) :=
  int1 (.ori sc d a i) sc d a (fun x => x ||| i.setWidth 32) s
def execXori (sc : BitVec 2) (d a i : BitVec 7) (s : State) :=
  int1 (.xori sc d a i) sc d a (fun x => x ^^^ i.setWidth 32) s
def execShl (sc : BitVec 2) (d a b : BitVec 7) (s : State) :=
  int2 (.shl sc d a b) sc d a b (fun x y => shlBy x (y.toNat % 256)) s
def execShr (sc : BitVec 2) (d a b : BitVec 7) (s : State) :=
  int2 (.shr sc d a b) sc d a b (fun x y => shrBy x (y.toNat % 256)) s
def execSar (sc : BitVec 2) (d a b : BitVec 7) (s : State) :=
  int2 (.sar sc d a b) sc d a b (fun x y => sarBy x (y.toNat % 256)) s
def execRol (sc : BitVec 2) (d a b : BitVec 7) (s : State) :=
  int2 (.rol sc d a b) sc d a b (fun x y => x.rotateLeft (y.toNat % 32)) s
def execShli (sc : BitVec 2) (d a i : BitVec 7) (s : State) :=
  int1 (.shli sc d a i) sc d a (fun x => shlBy x i.toNat) s
def execShri (sc : BitVec 2) (d a i : BitVec 7) (s : State) :=
  int1 (.shri sc d a i) sc d a (fun x => shrBy x i.toNat) s
def execSari (sc : BitVec 2) (d a i : BitVec 7) (s : State) :=
  int1 (.sari sc d a i) sc d a (fun x => sarBy x i.toNat) s
def execPopc (sc : BitVec 2) (d a : BitVec 7) (s : State) := int1 (.popc sc d a) sc d a popCount s
def execClz (sc : BitVec 2) (d a : BitVec 7) (s : State) := int1 (.clz sc d a) sc d a leadZeros s
def execCtz (sc : BitVec 2) (d a : BitVec 7) (s : State) := int1 (.ctz sc d a) sc d a trailZeros s
def execBrev (sc : BitVec 2) (d a : BitVec 7) (s : State) := int1 (.brev sc d a) sc d a BitVec.reverse s
def execBfeN32 (sc : BitVec 2) (d a b : BitVec 7) (s : State) :=
  int2 (.bfeN32 sc d a b) sc d a b (bfe false) s
def execBfeI32 (sc : BitVec 2) (d a b : BitVec 7) (s : State) :=
  int2 (.bfeI32 sc d a b) sc d a b (bfe true) s
/-- BFI (09 R175): destructive; D is written even where the field is empty. -/
def execBfi (sc : BitVec 2) (d a b : BitVec 7) (s : State) := int3 (.bfi sc d a b) sc d a b bfiWord s

end Sys2Proof.Machine
end

