-- ==== Sys2Proof/Machine/Uniform.lean ====
section
/-! DEFINITION. Uniform instructions (11 R220 to R227): scalar arithmetic, SLD and SST, uniform control, and
the special registers (03 R50; 20 R367, R368). -/

namespace Sys2Proof.Machine

/-- A scalar result from two registers. -/
def scalar2 (i : Instr) (sc : BitVec 2) (d a b : BitVec 6) (f : Word → Word → Word) (s : State) :
    Host.Outcome State Fault Refusal :=
  .next (s.issue i sc fun s => s.uniOp d (f (s.us a) (s.us b)))

def execSadd (sc : BitVec 2) (d a b : BitVec 6) (s : State) := scalar2 (.sadd sc d a b) sc d a b (· + ·) s
def execSsub (sc : BitVec 2) (d a b : BitVec 6) (s : State) := scalar2 (.ssub sc d a b) sc d a b (· - ·) s
def execSmul (sc : BitVec 2) (d a b : BitVec 6) (s : State) := scalar2 (.smul sc d a b) sc d a b (· * ·) s
def execSmulh (sc : BitVec 2) (d a b : BitVec 6) (g : BitVec 1) (s : State) :=
  scalar2 (.smulh sc d a b g) sc d a b (mulHigh (g = 1#1)) s
def execSand (sc : BitVec 2) (d a b : BitVec 6) (s : State) := scalar2 (.sand sc d a b) sc d a b (· &&& ·) s
def execSor (sc : BitVec 2) (d a b : BitVec 6) (s : State) := scalar2 (.sor sc d a b) sc d a b (· ||| ·) s
def execSxor (sc : BitVec 2) (d a b : BitVec 6) (s : State) := scalar2 (.sxor sc d a b) sc d a b (· ^^^ ·) s
def execSshl (sc : BitVec 2) (d a b : BitVec 6) (s : State) :=
  scalar2 (.sshl sc d a b) sc d a b (fun x y => shlBy x (y.toNat % 256)) s
def execSshr (sc : BitVec 2) (d a b : BitVec 6) (s : State) :=
  scalar2 (.sshr sc d a b) sc d a b (fun x y => shrBy x (y.toNat % 256)) s
def execSsar (sc : BitVec 2) (d a b : BitVec 6) (s : State) :=
  scalar2 (.ssar sc d a b) sc d a b (fun x y => sarBy x (y.toNat % 256)) s
def execSmin (sc : BitVec 2) (d a b : BitVec 6) (g : BitVec 1) (s : State) :=
  scalar2 (.smin sc d a b g) sc d a b (minMax false (g = 1#1)) s
def execSmax (sc : BitVec 2) (d a b : BitVec 6) (g : BitVec 1) (s : State) :=
  scalar2 (.smax sc d a b g) sc d a b (minMax true (g = 1#1)) s
def execSmov (sc : BitVec 2) (d a : BitVec 6) (s : State) : Host.Outcome State Fault Refusal :=
  .next (s.issue (.smov sc d a) sc fun s => s.uniOp d (s.us a))
def execSmovi (sc : BitVec 2) (d : BitVec 6) (i : BitVec 16) (s : State) : Host.Outcome State Fault Refusal :=
  .next (s.issue (.smovi sc d i) sc fun s => s.uniOp d (i.signExtend 32))
def execSaddi (sc : BitVec 2) (d : BitVec 6) (i : BitVec 16) (s : State) : Host.Outcome State Fault Refusal :=
  .next (s.issue (.saddi sc d i) sc fun s => s.uniOp d (s.us d + i.signExtend 32))
def execScmp (sc p : BitVec 2) (a b : BitVec 6) (c : BitVec 4) (s : State) : Host.Outcome State Fault Refusal :=
  .next (s.issue (.scmp sc p a b c) sc fun s =>
    .done (s.addResults 2 [{ file := .upred, num := p.toNat,
                             vals := [(0, if iCond c.toNat (s.us a) (s.us b) then 1 else 0)], lands := 0 }]) .fall)
def execSsel (sc : BitVec 2) (d a b : BitVec 6) (p : BitVec 2) (s : State) : Host.Outcome State Fault Refusal :=
  .next (s.issue (.ssel sc d a b p) sc fun s => s.uniOp d (if s.me.sp p.toNat then s.us a else s.us b))
def execSadd64 (sc : BitVec 2) (d a b : BitVec 6) (s : State) : Host.Outcome State Fault Refusal :=
  .next (s.issue (.sadd64 sc d a b) sc fun s => s.uniOp64 d (s.us64 a + s.us64 b))

/-! ## Uniform memory -/

namespace State

/-- The address of SLD and SST (11 R225). -/
def uniAddr (s : State) (a b : BitVec 6) : DWord := s.us64 a + (s.us b).setWidth 64
/-- The check of an SLD or SST of n bytes: the register block for the firmware slot (23 R407), else memory. -/
def uniAccess (s : State) (kind : Nat) (va : DWord) (n : Nat) (write : Bool) : Except AccFail (Checked × FrtEntry) :=
  match s.regAccess kind va n with
  | some (.error f) => .error f
  | some (.ok k) => .ok (k, {})
  | none => match s.globalAccess kind va (fun _ => some n) write with
    | .error f => .error f
    | .ok (k, e, _) => .ok (k, e)
def sldBody (d a b : BitVec 6) (w : BitVec 1) (s : State) : Did :=
  let n := if w = 1#1 then 8 else 4
  let va := s.uniAddr a b
  let checked := s.uniAccess kLoad va n false
  s.walked [va] fun walked =>
  match checked with
  | .error f => .trap s (s.accTrap s.firstLane f)
  | .ok (k, e) =>
    .done (walked.request (.load 8) [mkAccess 0 va k e n false 0] .uni d.toNat (1 + w.toNat) 0) .fall
def sstBody (d a b : BitVec 6) (w : BitVec 1) (s : State) : Did :=
  let n := if w = 1#1 then 8 else 4
  let va := s.uniAddr a b
  let checked := s.uniAccess kStore va n true
  s.walked [va] fun walked =>
  match checked with
  | .error f => .trap s (s.accTrap s.firstLane f)
  | .ok (k, e) =>
    let x := if w = 1#1 then (s.us64 d).toNat else (s.us d).toNat
    .done (walked.request .store [mkAccess 0 va k e n false x] .uni 0 0 0) .fall

end State

def execSld (sc : BitVec 2) (d a b : BitVec 6) (w : BitVec 1) (s : State) : Host.Outcome State Fault Refusal :=
  .next (s.issue (.sld sc d a b w) sc (State.sldBody d a b w))
def execSst (sc : BitVec 2) (d a b : BitVec 6) (w : BitVec 1) (s : State) : Host.Outcome State Fault Refusal :=
  .next (s.issue (.sst sc d a b w) sc (State.sstBody d a b w))

/-! ## Uniform control (11 R226) -/

def execSbra (sc : BitVec 2) (o : BitVec 22) (s : State) : Host.Outcome State Fault Refusal :=
  .next (s.issue (.sbra sc o) sc fun s => .done s (.goto fun _ => State.relTarget s.cur.pc o.toInt))
def execSbrp (sc : BitVec 2) (n : BitVec 1) (p : BitVec 2) (i : BitVec 16) (s : State) :
    Host.Outcome State Fault Refusal :=
  .next (s.issue (.sbrp sc n p i) sc fun s =>
    .done s (.goto fun _ => if s.me.sp p.toNat != (n = 1#1) then State.relTarget s.cur.pc i.toInt else s.fallThrough))
def execScall (sc : BitVec 2) (o : BitVec 22) (s : State) : Host.Outcome State Fault Refusal :=
  .next (s.issue (.scall sc o) sc fun s => s.callBody fun _ => State.relTarget s.cur.pc o.toInt)
def execSret (sc : BitVec 2) (s : State) : Host.Outcome State Fault Refusal :=
  .next (s.issue (.sret sc) sc State.retBody)

/-! ## Special registers -/

/-- A convergence register as SRD reads it (03 R47). -/
def cvWord (x : CvReg) : DWord :=
  BitVec.ofNat 64 ((if x.armed then 2 ^ 63 else 0) + x.expect % 2048 * 2 ^ 32 + x.signed % 2048 * 2 ^ 16 + x.gen % 2 ^ 16)

/-- TSTAT (20 R367). -/
def tstat (t : TrapState) : Nat :=
  let g := t.async.foldl (fun m x => if m = 0 || x.group < m then x.group else m) 0
  g * 256 + (if t.inHandler then 1 else 0)
/-- LPC and LST of the selected lane (20 R367). -/
def lpc (l : Lane) : Word := match l.state with
  | .runnable => l.pc
  | .parked => l.park
  | .exited => 0
def laneCode (l : Lane) : Nat := match l.state with
  | .runnable => 0
  | .parked => 1
  | .exited => 2

namespace State

/-- The value of a special register for the issuing group, apart from the window descriptors (03 R50; 20 R367). -/
def sreg (s : State) (x : Nat) : DWord :=
  let w := s.me
  let u := w.uni
  let t := w.trap
  let tm := (s.cc s.cur.core).teams.find w.team
  let n (v : Nat) : DWord := BitVec.ofNat 64 v
  let z (v : Word) : DWord := v.setWidth 64
  if x = 0x00 then n s.firstLane
  else if x = 0x01 then n w.wid
  else if x = 0x02 then n ((tm.map Team.teamId).getD 0)
  else if x = 0x03 then n ((tm.map fun m => m.trole + m.prole * 256).getD 0)
  else if x = 0x04 then n (((s.teamUnit s.cur.core w.team).map fun r => r.troles + r.groles * 256).getD 0)
  else if x = 0x05 then n s.now
  else if x = 0x06 then z u.mode
  else if x = 0x07 then z u.fstat
  else if x = 0x08 then z u.qstat
  else if x = 0x09 then z t.tvec
  else if x = 0x0A then z t.tdet0
  else if x = 0x0B then z t.tdet1
  else if x = 0x0C then z t.tdet2
  else if x = 0x0D then z t.epc
  else if x = 0x0E then u.csbase
  else if x = 0x0F then z u.cslim
  else if x = 0x10 then (s.ctx w.ctx).codebase
  else if x = 0x11 then z (s.ctx w.ctx).feat
  else if x = 0x12 then (s.ctx w.ctx).alm.cost
  else if x = 0x13 then z (s.cc s.cur.core).spntmr
  else if x = 0x14 then n u.repIdx
  else if x = 0x15 then n w.blkmap
  else if x = 0x16 then n (w.topRegion.toNat * 2 ^ 16 + u.regions.length)
  else if x = 0x17 then pairOf u.sealedCount u.doneCount
  else if x = 0x18 then n (tstat t)
  else if x = 0x19 then z t.tmask
  else if x = 0x1A then n t.lsel.toNat
  else if x = 0x1B then z (lpc (w.lane t.lsel.toNat))
  else if x = 0x1C then n (laneCode (w.lane t.lsel.toNat) + if t.tmask.getLsbD t.lsel.toNat then 8 else 0)
  else cvWord ((tm.map fun m => m.cv.get {} (x - 0x20)).getD {})

/-- PRIVILEGE of a special register (20 R372): 2 a protected index, 3 a handler register outside a handler. -/
def privTrap (s : State) (kind x : Nat) : TrapInfo :=
  s.trapAt grpPrivilege (kind * 256) s.cur.word (BitVec.ofNat 32 x)
/-- Is it a handler register, while no handler runs? (20 R367) -/
def handlerOnly (s : State) (x : Nat) : Bool := (x = 0x1A || x = 0x1B || x = 0x1C) && !s.me.trap.inHandler

/-- SRD (11 R227; 20 R367). The ACCESS trap of a window descriptor whose window is not there reports access kind 0, which the
manual does not give for it (DESIGN CHOICE: note 107). -/
def srdBody (d : BitVec 6) (x : BitVec 8) (s : State) : Did :=
  if s.handlerOnly x.toNat then .trap s (s.privTrap 3 x.toNat)
  else if 0x40 ≤ x.toNat then
    let w := x.toNat - 0x40
    match s.window s.cur.core s.me.team none w with
    | some (k, p) => s.uniOp64 d ((s.cc k).wdesc.get 0 p)
    | none => .trap s (s.accTrap s.firstLane (accFail 3 kLoad ((spWordOf none w 0).setWidth 64)))
  else if sregWide x.toNat then s.uniOp64 d (s.sreg x.toNat)
  else s.uniOp d (lo32 (s.sreg x.toNat))

/-- Registers that SWR writes (03 R50; 20 R367). -/
def swrTo (x : Nat) : Bool :=
  (6 ≤ x && x ≤ 9) || (0x0D ≤ x && x ≤ 0x0F) || x = 0x13 || (0x1A ≤ x && x ≤ 0x1C)
/-- Bits of a value that are reserved in the register written (11 R227; 20 R367). -/
def swrReserved (x : Nat) (v : Word) : Bool :=
  if x = 0x06 then v &&& 0xFFFFE0E8#32 != 0#32
  else if x = 0x07 then v &&& 0xFFFFFFE0#32 != 0#32
  else if x = 0x08 then v &&& 0xFFFFFFF0#32 != 0#32
  else if x = 0x0F || x = 0x13 then v &&& 0xFFFF0000#32 != 0#32
  else if x = 0x1A then v &&& 0xFFFFFFE0#32 != 0#32
  else if x = 0x1C then v &&& 0xFFFFFFF4#32 != 0#32 || v.toNat % 4 = 3
  else false

/-- A handler's write of another lane's PC (20 R368). -/
def setLpc (s : State) (v : Word) : State :=
  let l := s.me.trap.lsel.toNat
  let v := v &&& 0xFFFFFFFC#32
  if s.me.trap.tmask.getLsbD l then s else
  match (s.me.lane l).state with
  | .exited => s
  | _ => s.updMe fun w => (w.updLane l fun y => { y with state := .runnable, pc := v, waits := 0 }).leaveRep (1#32 <<< l)
/-- A handler's write of another lane's state (20 R368). -/
def setLst (s : State) (v : Word) : State :=
  let l := s.me.trap.lsel.toNat
  if s.me.trap.tmask.getLsbD l then s else
  match (s.me.lane l).state with
  | .exited => s
  | .runnable => if v.toNat % 4 = 2 then s.exitLanes s.cur.core s.cur.slot (1#32 <<< l) else s
  | .parked =>
    if v.toNat % 4 = 0 then s.updMe fun w => w.updLane l fun y => { y with state := .runnable, pc := y.park, waits := 0 }
    else if v.toNat % 4 = 2 then s.exitLanes s.cur.core s.cur.slot (1#32 <<< l) else s

/-- Write a special register. -/
def setSreg (s : State) (x : Nat) (v : Word) (wide : DWord) : State :=
  let uni (f : WarpUni → WarpUni) : State := s.updMe fun w => w.updUni f
  let trap (f : TrapState → TrapState) : State := s.updMe fun w => w.updTrap f
  if x = 0x06 then uni fun u => { u with mode := v }
  else if x = 0x07 then uni fun u => { u with fstat := u.fstat &&& ~~~v }
  else if x = 0x08 then uni fun u => { u with qstat := u.qstat &&& ~~~v }
  else if x = 0x09 then trap fun t => { t with tvec := v &&& 0xFFFFFFFC#32 }
  else if x = 0x0D then trap fun t => { t with epc := v &&& 0xFFFFFFFC#32 }
  else if x = 0x0E then uni fun u => { u with csbase := wide &&& 0xFFFFFFFFFFFFFE00#64 }
  else if x = 0x0F then uni fun u => { u with cslim := v }
  else if x = 0x13 then s.updCc s.cur.core fun y => { y with spntmr := if v = 0#32 then 1#32 else v }
  else if x = 0x1A then trap fun t => { t with lsel := v.setWidth 5 }
  else if x = 0x1B then s.setLpc v
  else if x = 0x1C then s.setLst v
  else s

def swrBody (d : BitVec 6) (x : BitVec 8) (s : State) : Did :=
  if !swrTo x.toNat then .trap s (s.privTrap 2 x.toNat)
  else if s.handlerOnly x.toNat then .trap s (s.privTrap 3 x.toNat)
  else if swrReserved x.toNat (s.us d) then .trap s (s.encTrap .swrReserved (s.us d))
  else .done (s.setSreg x.toNat (s.us d) (s.us64 d)) .fall

end State

def execSrd (sc : BitVec 2) (d : BitVec 6) (x : BitVec 8) (s : State) : Host.Outcome State Fault Refusal :=
  .next (s.issue (.srd sc d x) sc (State.srdBody d x))
def execSwr (sc : BitVec 2) (d : BitVec 6) (x : BitVec 8) (s : State) : Host.Outcome State Fault Refusal :=
  .next (s.issue (.swr sc d x) sc (State.swrBody d x))

end Sys2Proof.Machine
end

