-- ==== Sys2Proof/Machine/UniCounter.lean ====
section
/-! DEFINITION. Counter instructions (07 R122 to R134; 11 R228, R229): names, the request to the home, what the
home does in counter order, the holds of a CADDV, and the wakes of parked warps. -/

namespace Sys2Proof.Machine

namespace State

/-- The name of a counter instruction (07 R123; 11 R228). -/
def ctrName (s : State) (f : BitVec 2) (a b : BitVec 6) : CounterName :=
  if f = 2#2 then .addr (s.us64 a)
  else .num (if f = 1#2 then a.toNat % 32 else (s.roleOf s.cur.core s.me.team none).getD 0) b.toNat

/-- A name's home for a warp or agent on core c, in a team, of a context; the failed check otherwise. -/
def ctrHomeOf (s : State) (c h t kind : Nat) : CounterName → Except AccFail CtrHome
  | .num r n => match s.counter c t (some r) n with
    | some (k, m) => .ok (.file k m)
    | none => .error (accFail 6 kind 0)
  | .addr va => match s.coreCheck c h kind va with
    | .error e => .error e
    | .ok x => if va.toNat % 8 != 0 then .error (accFail 4 kind va) else .ok (.mem x.pa x.kid)

/-- TRAP of a counter operation (20 R372; 21 R382). -/
def ctrTrapInfo (op : CtrOp) (reason : Nat) : TrapInfo :=
  let r := match op.name with
    | .num r n => (if op.form = 1 then r * 2 ^ 9 else 0) + n % 64 * 2 ^ 3
    | .addr _ => 0
  let va : DWord := match op.name with
    | .addr va => va
    | .num _ _ => 0
  { group := grpCounter, code := op.form * 2 ^ 14 + r + reason, async := false, lv := false, lane := 0,
    t1 := lo32 va, t2 := hi32 va, epc := op.pc }

/-- Ask a counter's home: the group stays at its PC until the home answers (20 R363; 21 R383). -/
def askHome (s : State) (op : CtrOp) : State :=
  let (i, s) := s.newReq
  let s : State := { s with ctrOps := s.ctrOps.set i op }
  let s := match op.kind with
    | .add => s.addVar .uni op.dest 2 op.lanes i
    | .read => s.addVar .uni op.dest 2 op.lanes i
    | .poll => s.addVar .upred op.dest 1 op.lanes i
    | _ => s
  (s.keepAtHome i).post (.counterOpAtHome i)

/-- The shared part of a uniform counter instruction: the name's checks, then the request. An acquire waits for the warp's
earlier accesses (06 R105). -/
def ctrBody (s : State) (kind : CtrKind) (f : BitVec 2) (a b : BitVec 6) (dest : Nat) (inc thr : DWord) (scope : Nat) :
    Did :=
  let access := if kind = .add then kCtrAdd else kCtrRead
  let name := s.ctrName f a b
  let found := s.ctrHomeOf s.cur.core s.myCtx s.me.team access name
  s.walked (match name with
    | .addr va => [va]
    | .num _ _ => []) fun walked =>
  match found with
  | .error e => .trap s (s.accTrap s.firstLane e)
  | .ok home =>
    let op : CtrOp := { core := s.cur.core, slot := s.cur.slot, ctx := s.myCtx, kind := kind, name := name, form := f.toNat,
                        home := home, inc := inc, thr := thr, scope := scope, dest := dest, lanes := s.cur.lanes,
                        pc := s.cur.pc, len := 1 }
    if kind = .add then
      walked.afterRelease (ctrScope scope) fun s => .done (s.askHome op) .stay
    else if kind != .read && s.warpBusy s.cur.core s.cur.slot then .wait s
    else .done (walked.askHome op) .stay

def caddBody (d a b : BitVec 6) (f k : BitVec 2) (s : State) : Did :=
  let free := ctrFree f a b
  let inc : DWord := if free = 0#6 then (s.us d).setWidth 64 else free.setWidth 64
  s.ctrBody .add f a b d.toNat inc 0 k.toNat

end State

def execCadd (sc : BitVec 2) (d a b : BitVec 6) (f k : BitVec 2) (s : State) : Host.Outcome State Fault Refusal :=
  .next (s.issue (.cadd sc d a b f k) sc (State.caddBody d a b f k))
def execCrd (sc : BitVec 2) (d a b : BitVec 6) (f : BitVec 2) (s : State) : Host.Outcome State Fault Refusal :=
  .next (s.issue (.crd sc d a b f) sc fun s => s.ctrBody .read f a b d.toNat 0 0 0)
def execCwait (sc : BitVec 2) (d a b : BitVec 6) (f k : BitVec 2) (s : State) : Host.Outcome State Fault Refusal :=
  .next (s.issue (.cwait sc d a b f k) sc fun s => s.ctrBody .wait f a b 0 0 (s.us64 d) k.toNat)
def execCpoll (sc : BitVec 2) (d a b : BitVec 6) (f k : BitVec 2) (s : State) : Host.Outcome State Fault Refusal :=
  .next (s.issue (.cpoll sc d a b f k) sc fun s =>
    s.ctrBody .poll f a b ((ctrFree f a b).toNat % 4) 0 (s.us64 d) k.toNat)

/-! ## At the home -/

namespace State

/-- The operation leaves the group's warp: it is no longer kept. -/
def leaveHome (s : State) (i : Nat) (op : CtrOp) : State :=
  let s : State := { s with ctrOps := s.ctrOps.del i }
  if op.lanes = 0#32 then s else
  (s.updWarp op.core op.slot fun w => w.updSched fun x => { x with atHome := x.atHome.filter fun e => e.1 != i }).dropVar
    op.core op.slot i

/-- The operation is done: its group moves past it, or on to the next repeat of its unit (08 R154). -/
def ctrAdvance (s : State) (i : Nat) (op : CtrOp) : State :=
  let s := s.leaveHome i op
  s.updWarp op.core op.slot fun w =>
    if w.uni.repIdx + 1 < op.reps then w.updUni fun u => { u with repIdx := u.repIdx + 1 } else
    let w := if op.reps = 0 then w else w.updUni fun u => { u with repIdx := 0, rep := none }
    w.updLanes op.lanes fun _ l =>
      if l.state = .runnable && l.pc = op.pc then { l with pc := op.pc + BitVec.ofNat 32 (4 * op.len) } else l

/-- The operation fails: COUNTER at its unit (21 R382). A group held by a handler issues it again later. -/
def ctrFail (s : State) (i : Nat) (op : CtrOp) (t : TrapInfo) : State :=
  let s := s.leaveHome i op
  if op.lanes = 0#32 || (s.warp op.core op.slot).held ((lanesOf op.lanes).headD 0) then s
  else s.takeTrap op.core op.slot op.lanes t

/-- A value returned into a uniform pair. -/
def putPair (s : State) (op : CtrOp) (v : DWord) : State :=
  if op.lanes = 0#32 then s
  else s.updWarp op.core op.slot fun w => (w.setS op.dest (lo32 v)).setS (op.dest + 1) (hi32 v)

/-! ## CADDV -/

/-- The home of a lane's counter (07 R122, R127), as a number. -/
def homeKey (d : Nat) : CtrHome → Nat
  | .file c _ => 2 ^ 60 + c
  | .mem pa _ => pa / 2 ^ 46 * 2 ^ 40 + (if isPeer pa then peerOf pa * 2 ^ 20 else 0) + sliceKey pa d
/-- The adds at one home, and the homes by their lowest counter address. -/
def addsAt (d : Nat) (op : CtrOp) (home : Nat) : List (Nat × DWord × CtrHome × DWord) :=
  op.adds.filter fun e => homeKey d e.2.2.1 = home
def insertByAddr (e : Nat × Nat) : List (Nat × Nat) → List (Nat × Nat)
  | [] => [e]
  | x :: xs => if e.2 < x.2 then e :: x :: xs else x :: insertByAddr e xs
/-- The homes of a CADDV in ascending order of the lowest counter address there (07 R127). -/
def homesOf (d : Nat) (op : CtrOp) : List Nat :=
  let m : Map Nat := op.adds.foldl (fun (m : Map Nat) e =>
    let k := homeKey d e.2.2.1
    m.set k (min ((m.find k).getD (e.2.2.1.id)) e.2.2.1.id)) []
  (m.foldl (fun l e => insertByAddr e l) []).map Prod.fst

/-- The first lane whose add would carry, taking the adds in order (07 R127). -/
def carries (s : State) (d : Nat) : List (Nat × DWord × CtrHome × DWord) → Map Nat → Option (Nat × DWord)
  | [], _ => none
  | (l, va, home, inc) :: rest, m =>
    let v := (m.find home.id).getD (s.ctrRead d home).toNat
    if v + inc.toNat ≥ 2 ^ 64 then some (l, va) else carries s d rest (m.set home.id (v + inc.toNat))

/-- Apply adds in order: the old values by lane. -/
def applyAdds (s : State) (d h : Nat) (olds : Map DWord) : List (Nat × DWord × CtrHome × DWord) → State × Map DWord
  | [] => (s, olds)
  | (l, _, home, inc) :: rest =>
    match s.ctrAdd d h home inc with
    | some (old, s) => applyAdds s d h (olds.set l old) rest
    | none => applyAdds s d h olds rest

/-- COUNTER of a CADDV: reason, and the lane with its address (07 R127). -/
def addvTrap (op : CtrOp) (reason : Nat) (l : Nat) (va : DWord) : TrapInfo :=
  { group := grpCounter, code := 3 * 2 ^ 14 + reason, async := false, lv := true, lane := l, t1 := lo32 va, t2 := hi32 va,
    epc := op.pc }

/-- What holds a CADDV at a home: a counter held by another one, or a line. -/
def addvHold (s : State) (l : List (Nat × DWord × CtrHome × DWord)) : Option Nat :=
  l.findSome? fun e => s.ctrHold e.2.2.1 true
/-- The lane at a home that cannot be reached. -/
def addvLost (s : State) (d : Nat) (l : List (Nat × DWord × CtrHome × DWord)) : Option (Nat × DWord) :=
  (l.find? fun e => s.ctrLost d e.2.2.1).map fun e => (e.1, e.2.1)

/-- The results of a CADDV, and its advance. -/
def addvDone (s : State) (i : Nat) (op : CtrOp) (olds : Map DWord) : State :=
  let s := if op.lanes = 0#32 then s else
    (s.updWarp op.core op.slot fun w => olds.foldl (fun (w : Warp) (e : Nat × DWord) =>
      (w.setV op.dest e.1 (lo32 e.2)).setV (op.dest + 1) e.1 (hi32 e.2)) w).markRegs op.core op.slot [op.dest]
  s.ctrAdvance i op

/-- Release the counters that an operation holds at a home. -/
def dropHolds (s : State) (i d : Nat) (op : CtrOp) (home : Nat) : State :=
  let ids := ((addsAt d op home).map fun e => e.2.2.1.id).dedup
  let s : State := { s with ctrHeld := s.ctrHeld.filter fun e => !(e.2 = i && ids.contains e.1) }
  ids.foldl (fun s n => s.unhold (2 ^ 60 + n)) s

/-- A CADDV reaches the device: one home is done at once, of several the first is asked to hold (07 R127). -/
def addvAtHome (s : State) (i : Nat) (op : CtrOp) : State :=
  let d := dieOfCore op.core
  match homesOf d op with
  | [] => s.ctrAdvance i op
  | [_] =>
    match s.addvLost d op.adds with
    | some (l, va) => s.ctrFail i op (addvTrap op 2 l va)
    | none =>
      match s.addvHold op.adds with
      | some key => s.hold key true (.counterOpAtHome i)
      | none =>
        match s.carries d op.adds [] with
        | some (l, va) => s.ctrFail i op (addvTrap op 1 l va)
        | none =>
          let (s, olds) := s.applyAdds d op.ctx [] op.adds
          s.addvDone i op olds
  | home :: _ => s.post (.hold i home)

/-- A CADDV ends without an add: every home that holds is told to release, and then the trap is taken (07 R127). -/
def addvAbort (s : State) (i : Nat) (op : CtrOp) (t : TrapInfo) : State :=
  if op.holding.isEmpty then s.ctrFail i op t
  else State.postAll { s with ctrOps := s.ctrOps.set i { op with fails := some t } } (op.holding.map fun h => .release i h)

/-- A hold request at a home. -/
def holdAt (s : State) (i home : Nat) : State :=
  match s.ctrOps.find i with
  | none => s
  | some op =>
    let d := dieOfCore op.core
    let l := addsAt d op home
    match s.addvLost d l with
    | some (n, va) =>
      s.addvAbort i op (addvTrap op 2 n va)
    | none =>
      match s.addvHold l with
      | some key => s.hold key true (.hold i home)
      | none =>
        if (s.carries d l []).isSome then s.post (.holdAnswer i home false)
        else State.post { s with ctrHeld := s.ctrHeld ++ ((l.map fun e => e.2.2.1.id).dedup).map fun n => (n, i) }
          (.holdAnswer i home true)

/-- A home's answer reaches the issuing core. -/
def holdAnswered (s : State) (i home : Nat) (yes : Bool) : State :=
  match s.ctrOps.find i with
  | none => s
  | some op =>
    let d := dieOfCore op.core
    if yes then
      let op := { op with holding := op.holding ++ [home] }
      let s : State := { s with ctrOps := s.ctrOps.set i op }
      match s.addvLost d op.adds with
      | some (l, va) => s.addvAbort i op (addvTrap op 2 l va)
      | none =>
        match (homesOf d op).find? fun h => !op.holding.contains h with
        | some h => s.post (.hold i h)
        | none => s.postAll (op.holding.map fun h => .apply i h)
    else
      match s.carries d (addsAt d op home) [] with
      | some (l, va) => s.addvAbort i op (addvTrap op 1 l va)
      | none => s.post (.hold i home)

/-- A home applies the adds that it holds (07 R127). A loss counts until the first home applies: after that every home
does. -/
def applyAt (s : State) (i home : Nat) : State :=
  match s.ctrOps.find i with
  | none => s
  | some op =>
    if !op.holding.contains home || op.applied.contains home then s else
    let d := dieOfCore op.core
    match (if op.applied.isEmpty then s.addvLost d op.adds else none) with
    | some (l, va) => s.addvAbort i op (addvTrap op 2 l va)
    | none =>
    let s := s.dropHolds i d op home
    let (s, olds) := s.applyAdds d op.ctx op.olds (addsAt d op home)
    let op := { op with olds := olds, applied := op.applied ++ [home] }
    if op.applied.length = (homesOf d op).length then s.addvDone i op olds
    else { s with ctrOps := s.ctrOps.set i op }

/-- A home releases the counters that it holds, without an add; after the last one the operation fails. -/
def releaseHold (s : State) (i home : Nat) : State :=
  match s.ctrOps.find i with
  | none => s
  | some op =>
    let s := s.dropHolds i (dieOfCore op.core) op home
    let op := { op with holding := op.holding.filter (· != home) }
    match (if op.holding.isEmpty then op.fails else none) with
    | some t => s.ctrFail i op t
    | none => { s with ctrOps := s.ctrOps.set i op }

/-! ## The operation at its home -/

/-- A CWAIT read that fails parks the warp (07 R124, R129 to R133); of two groups' waits the second is as though
not issued. -/
def parkWait (s : State) (i : Nat) (op : CtrOp) : State :=
  let s := s.leaveHome i op
  if op.lanes = 0#32 || (s.warp op.core op.slot).sched.cwait.isSome then s else
  let w : WaitCond := { name := op.name, thr := op.thr, scope := op.scope, lanes := op.lanes, pc := op.pc }
  let s := s.updWarp op.core op.slot fun x => x.updSched fun y => { y with cwait := some w }
  let full := match op.home with
    | .mem pa _ => !isHost pa && 256 ≤ (s.waiterList (dieOfCore op.core) op.home).length
    | .file _ _ => false
  (if full then s.countDie (dieOfCore op.core) 0x43 else s).ctrPark (dieOfCore op.core) op.core op.slot op.home op.thr

/-- A counter operation is applied at its home in counter order (07 R124 to R126). -/
def counterAtHome (s : State) (i : Nat) : State :=
  match s.ctrOps.find i with
  | none => s
  | some op =>
    let d := dieOfCore op.core
    match (if op.cores.isEmpty then none else (op.cores.foldl (fun s c => State.releaseAt s c op.scope) s).lateStore op.cores op.ctx) with
    | some j => (op.cores.foldl (fun s c => State.releaseAt s c op.scope) s).hold (reqKey j) true (.counterOpAtHome i)
    | none =>
    let s := op.cores.foldl (fun s c => State.releaseAt s c op.scope) s
    match op.kind with
    | .addv => s.addvAtHome i op
    | _ =>
      if s.ctrLost d op.home then
        match op.agent with
        | some what => (State.agentAddFails { s with ctrOps := s.ctrOps.del i } op.core op.ctx what op.name (lo32 op.inc)).unhold (addKey i)
        | none => s.ctrFail i op (ctrTrapInfo op 2)
      else match s.ctrHold op.home (op.kind = .add) with
      | some key => s.hold key (op.kind = .add) (.counterOpAtHome i)
      | none =>
        match op.kind with
        | .add =>
          match s.ctrAdd d op.ctx op.home op.inc, op.agent with
          | some (_, s), some _ => State.unhold { s with ctrOps := s.ctrOps.del i } (addKey i)
          | none, some what =>
            (State.agentAddFails { s with ctrOps := s.ctrOps.del i } op.core op.ctx what op.name (lo32 op.inc)).unhold (addKey i)
          | some (old, s), none => (s.putPair op old).ctrAdvance i op
          | none, none => s.ctrFail i op (ctrTrapInfo op 1)
        | .read => (s.putPair op (s.ctrRead d op.home)).ctrAdvance i op
        | .poll =>
          let met := decide (op.thr ≤ s.ctrRead d op.home)
          let s := if op.lanes = 0#32 then s else s.updWarp op.core op.slot fun w => w.setSp op.dest met
          (if met then s.acquireAt op.core (ctrScope op.scope) else s).ctrAdvance i op
        | _ =>
          if op.thr ≤ s.ctrRead d op.home then (s.acquireAt op.core (ctrScope op.scope)).ctrAdvance i op
          else s.parkWait i op

/-! ## Wakes -/

/-- A parked warp or a waiting agent reads its counter again (07 R129, R133): the entry goes where the threshold is
met. -/
def rereadSlow (s : State) (c : Nat) (w : Waiter) (home : CtrHome) : State :=
  let v := s.ctrRead (dieOfCore c) home
  if w.thr ≤ v then
    (s.updCore c fun x => { x with slow := x.slow.erase w }).wakeWith c w.slot v
  else s

/-- The home that a waiter names. -/
def homeOf (w : Waiter) : CtrHome :=
  if 2 ^ 48 ≤ w.ctr then .file ((w.ctr - 2 ^ 48) / 64) ((w.ctr - 2 ^ 48) % 64) else .mem w.ctr w.kid

/-- A write notice reaches a core (07 R130, R131). -/
def slowNotice (s : State) (c line : Nat) : State :=
  let mine := (s.core c).slow.filter fun w => if 2 ^ 48 ≤ w.ctr then w.ctr = line else lineOf w.ctr = line
  (mine.foldl (fun s w => s.rereadSlow c w (homeOf w)) s).trimWatches c

/-- The counter that a warp parked in CWAIT waits on, resolved afresh. -/
def waitHome (s : State) (c k : Nat) (w : WaitCond) : Except AccFail CtrHome :=
  s.ctrHomeOf c (s.ctxOf c k) (s.warp c k).team kCtrRead w.name

/-- COUNTER of a parked CWAIT: reason 2 its home is unreachable, 4 its name no longer resolves (21 R382). -/
def waitTrap (w : WaitCond) (reason : Nat) : TrapInfo :=
  let form := match w.name with
    | .num _ _ => 1
    | .addr _ => 2
  ctrTrapInfo { core := 0, slot := 0, ctx := 0, kind := .wait, name := w.name, form := form, home := .mem 0 0, pc := w.pc } reason

/-- A parked warp reads again (07 R132, R133; 21 R382, R383): it goes on, waits on, or traps. -/
def rereadWait (s : State) (c k : Nat) (park : Bool) : State :=
  match (s.warp c k).sched.cwait with
  | none => s
  | some w =>
    let unpark (s : State) : State :=
      (s.dropWaiters c k).updWarp c k fun x => x.updSched fun y => { y with cwait := none }
    match s.waitHome c k w with
    | .error f =>
      match w.name with
      | .num _ _ => (unpark s).takeTrap c k w.lanes (waitTrap w 4)
      | .addr _ => (unpark s).takeTrap c k w.lanes (f.trap true ((lanesOf w.lanes).headD 0) w.pc)
    | .ok home =>
      if s.ctrLost (dieOfCore c) home then (unpark s).takeTrap c k w.lanes (waitTrap w 2)
      else if w.thr ≤ s.ctrRead (dieOfCore c) home then (s.dropWaiters c k).finishWait c k w
      else if park then (s.dropWaiters c k).ctrPark (dieOfCore c) c k home w.thr
      else s

/-- A write to a monitored line (07 R132): every monitor on it wakes, and stays armed where the wait goes on. -/
def monitorHit (s : State) (line : Nat) : State :=
  let hits := s.cores.foldl (fun acc e =>
    acc ++ (e.2.monitors.filter fun m => m.2 = line).map fun m => (e.1, m.1)) ([] : List (Nat × Nat))
  hits.foldl (fun s (e : Nat × Nat) =>
    if 64 ≤ e.2 then (s.updCore e.1 fun x => { x with monitors := x.monitors.del e.2 }).post (agentEvent e.2)
    else s.rereadWait e.1 e.2 false) s

end State

/-- COUNTER_OP_AT_HOME. -/
def execCounterOpAtHome (op : Nat) (s : State) : Host.Outcome State Fault Refusal := .next (s.counterAtHome op)
/-- HOLD. -/
def execHold (op home : Nat) (s : State) : Host.Outcome State Fault Refusal := .next (s.holdAt op home)
/-- HOLD_ANSWER. -/
def execHoldAnswer (op home : Nat) (yes : Bool) (s : State) : Host.Outcome State Fault Refusal :=
  .next (s.holdAnswered op home yes)
/-- APPLY. -/
def execApply (op home : Nat) (s : State) : Host.Outcome State Fault Refusal := .next (s.applyAt op home)
/-- RELEASE. -/
def execRelease (op home : Nat) (s : State) : Host.Outcome State Fault Refusal := .next (s.releaseHold op home)
/-- SLOW_LIST_NOTICE. -/
def execSlowListNotice (core line : Nat) (s : State) : Host.Outcome State Fault Refusal :=
  if !coreOk core then .fault .noSuchUnit else .next (s.slowNotice core line)
/-- MONITOR_WAKE. -/
def execMonitorWake (line : Nat) (s : State) : Host.Outcome State Fault Refusal := .next (s.monitorHit line)

end Sys2Proof.Machine
end

