-- ==== Sys2Proof/Machine/CopyEngine.lean ====
section
/-! DEFINITION. The copy engine (12 R243 to R254): copy blocks and their checks at issue, the movement of bytes and of
scales, halts, collective copies, batches and their completion, and window descriptors. -/

namespace Sys2Proof.Machine

/-- A copy block (12 R243). -/
structure CopyBlk where
  src : DWord
  dst : DWord
  len : Nat
  rows : Nat
  slay : Nat
  dlay : Nat
  spitch : Nat
  dpitch : Nat
  top : Nat
  deriving DecidableEq, Repr

/-- A checked operand of a copy. -/
structure CopySide where
  window : Bool := false
  /-- the operand's address; of a window, its address word with the role filled in -/
  addr : DWord := 0
  fmt : Nat := 0
  /-- of a window: the core that holds it, its number and descriptor, and those of its companion -/
  core : Nat := 0
  win : Nat := 0
  desc : DWord := 0
  comp : Option (Nat × DWord) := none
  /-- of a page: its region -/
  frt : FrtEntry := {}
  deriving DecidableEq, Repr

/-- May a window descriptor be in force: its FMT, PITCH and LAYOUT (03 R53; 05 R83)? -/
def wdescOk (x : DWord) : Bool :=
  let p := wdPitch x
  fmtOk (wdFmt x) && p % 16 = 0 && 16 ≤ p && p ≤ 8192 && wdLayout x ≤ 4 &&
    (wdLayout x = 0 || wdLayout x = 4 || p % 128 = 0) && (wdLayout x != 4 || p ≤ 8176)
/-- Reserved fields of a window descriptor. -/
def wdescReserved (x : DWord) : Bool := x &&& 0x7F07C000F0FFFF00#64 != 0#64

/-- Directions (12 R244). -/
def dirSrcWin (dir : Nat) : Bool := dir = 1 || dir = 2
def dirDstWin (dir : Nat) : Bool := dir = 0 || dir = 2

namespace State

/-! ## The block and its checks -/

def copyBlk (s : State) (a : BitVec 6) : CopyBlk :=
  let r (i : Nat) : Word := s.me.s (a.toNat + i)
  { src := pairOf (r 0) (r 1), dst := pairOf (r 2) (r 3), len := (r 4).toNat, rows := bitsOf (r 5).toNat 15 0,
    slay := bitsOf (r 5).toNat 19 16, dlay := bitsOf (r 5).toNat 23 20, top := bitsOf (r 5).toNat 31 24,
    spitch := (r 6).toNat, dpitch := (r 7).toNat }

/-- COPY at issue (20 R372): reason and operand. -/
def copyTrap (s : State) (reason operand : Nat) : TrapInfo := s.trapAt grpCopy (reason * 4096 + operand) s.cur.word 0

/-- The last logical byte of an operand, plus one, from its first row's start. -/
def extent (rows pitch len : Nat) : Nat := (rows - 1) * pitch + len

/-- A window of a role of a team: its core, number and valid descriptor. -/
def winOf (s : State) (c t role w : Nat) : Option (Nat × Nat × DWord) :=
  match s.window c t (some role) w with
  | none => none
  | some (k, p) =>
    let x := (s.cc k).wdesc.get 0 p
    if wdV x then some (k, p, x) else none

/-- A window operand (12 R244): its checks in order. -/
def windowSide (s : State) (addr : DWord) (lay rows pitch len op : Nat) : Except TrapInfo CopySide :=
  let c := s.cur.core
  let bad (n : Nat) : Except TrapInfo CopySide := .error (s.copyTrap n op)
  if hi32 addr != 0#32 then bad 1 else
  match spWord (lo32 addr) with
  | none => bad 1
  | some (r, w, o) =>
    match s.roleOf c s.me.team r with
    | none => bad 1
    | some role =>
      match s.winOf c s.me.team role w with
      | none => bad 1
      | some (k, p, x) =>
        if lay != wdLayout x then bad 2
        else
          let e := o + extent rows pitch len
          if 8192 < e || 8192 ≤ winPhys x (e - 1) then bad 1
          else .ok { window := true, addr := (spWordOf (some role) w o).setWidth 64, fmt := wdFmt x, core := k, win := p,
                     desc := x }

/-- A global operand (12 R245): its first page. One in a lost space halts the copy, later (21 R388). -/
def globalSide (s : State) (addr : DWord) (kind : Nat) : Except TrapInfo CopySide :=
  match s.coreCheck s.cur.core s.myCtx kind addr with
  | .error e => .error (s.accTrap s.firstLane e)
  | .ok k =>
    match s.frt s.myDie s.myCtx (pteFri k.tlb.entry) with
    | none => .error (s.accTrap s.firstLane (accFail 11 kind addr))
    | some e => .ok { addr := addr, fmt := e.fmt, frt := e }

/-- B4 checks of a side (12 R246), with the companion of a window. -/
def b4Side (s : State) (x : CopySide) (rows pitch len op : Nat) : Except TrapInfo CopySide :=
  let bad : Except TrapInfo CopySide := .error (s.copyTrap 4 op)
  if x.fmt != fmtB4 then .ok x
  else if len % 16 != 0 then bad
  else if x.window then
    match spWord (lo32 x.addr) with
    | some (some role, w, o) =>
      if w % 2 = 1 || o % 16 != 0 then bad else
      match s.winOf s.cur.core s.me.team role (w + 1) with
      | some (_, p, y) => if wdFmt y = fmtRaw then .ok { x with comp := some (p, y) } else bad
      | none => bad
    | _ => bad
  else if x.frt.blen != 32 then bad
  else
    let rowOk (r : Nat) : Bool :=
      let a := x.addr.toNat + r * pitch
      x.frt.dbase ≤ a && x.frt.dpitch != 0 && (a - x.frt.dbase) % x.frt.dpitch % 16 = 0
    if (List.range rows).all rowOk then .ok x else bad

/-- The side of a B4 copy that is not B4 itself: a RAW window takes part with the window after it, where that could be its
companion; a RAW page has no place for scales (DESIGN CHOICE: note 106). -/
def rawSide (s : State) (x y : CopySide) : CopySide :=
  if !x.window || x.fmt = fmtB4 || y.fmt != fmtB4 then x else
  match spWord (lo32 x.addr) with
  | some (some role, w, _) =>
    if w % 2 = 1 then x else
    match s.winOf s.cur.core s.me.team role (w + 1) with
    | some (_, p, z) => if wdFmt z = fmtRaw then { x with comp := some (p, z) } else x
    | none => x
  | _ => x

/-- May the two sides' formats meet (05 R82; 12 R245)? -/
def pairOk (dir : Nat) (a b : CopySide) : Bool :=
  dir = 3 || a.fmt = b.fmt || (a.window && a.fmt = fmtRaw) || (b.window && b.fmt = fmtRaw) ||
    (!a.window && a.fmt = fmtRaw) || (!b.window && b.fmt = fmtRaw)

/-- All checks of a copy at issue, `most` the largest ROWS. -/
def copyChecks (s : State) (b : CopyBlk) (dir most : Nat) : Except TrapInfo (CopySide × CopySide) := do
  if b.len = 0 || 2 ^ 24 < b.len || b.rows = 0 || b.top != 0 then .error (s.copyTrap 9 0)
  if most < b.rows then .error (s.copyTrap 5 0)
  let winSrc := dirSrcWin dir
  let winDst := dirDstWin dir
  let sw ← if winSrc then s.windowSide b.src b.slay b.rows b.spitch b.len 0 else pure {}
  let dw ← if winDst then s.windowSide b.dst b.dlay b.rows b.dpitch b.len 1 else pure {}
  if !winSrc && b.slay != 0 then .error (s.copyTrap 2 0)
  if !winDst && b.dlay != 0 then .error (s.copyTrap 2 1)
  let x ← if winSrc then pure sw else s.globalSide b.src kSource
  let y ← if winDst then pure dw else s.globalSide b.dst kDest
  if !pairOk dir x y then .error (s.copyTrap 3 0)
  if dir = 3 then pure (x, y)
  else
    let x ← s.b4Side x b.rows b.spitch b.len 0
    let y ← s.b4Side y b.rows b.dpitch b.len 1
    pure (s.rawSide x y, s.rawSide y x)
/-- The global addresses of a copy that are translated at issue. -/
def copyVas (b : CopyBlk) (dir : Nat) : List DWord :=
  (if dirSrcWin dir then [] else [b.src]) ++ (if dirDstWin dir then [] else [b.dst])

/-! ## Scoreboard and locks -/

/-- Whole 128-byte lines around bytes [lo, hi). -/
def lineLo (a : Nat) : Nat := a / 128 * 128
def lineHi (a : Nat) : Nat := (a + 127) / 128 * 128

/-- The scoreboard entry of logical bytes [lo, hi) of a window (06 R115), `place` its unit, role and number. -/
def winEntry (place : Nat × Nat × Nat) (win : Nat) (x : DWord) (lo hi : Nat) (dest : Bool) (op : Nat) : ScoreEntry :=
  { win := win, unit := place.1, role := place.2.1, logical := place.2.2, lo := lineLo (winPhys x lo), hi := lineHi (winPhys x (hi - 1) + 1), dest := dest, op := op }

/-- The offset of the scales of logical offset o of a B4 window, in its companion (12 R246). -/
def scaleOff (x y : DWord) (o : Nat) : Nat := o / wdPitch x * wdPitch y + 3 * (o % wdPitch x * 2 / 32)

/-- The entries of a side of a copy of a unit's team, with the core that holds them. -/
def sideEntries (unit : Nat) (x : CopySide) (rows pitch len : Nat) (dest : Bool) (op : Nat) : List (Nat × ScoreEntry) :=
  if !x.window then [] else
  let o := bitsOf x.addr.toNat 12 0
  let e := o + extent rows pitch len
  let (r, w) : Nat × Nat := match spWord (lo32 x.addr) with
    | some (some r, w, _) => (r, w)
    | _ => (0, 0)
  (x.core, winEntry (unit, r, w) x.win x.desc o e dest op) :: match x.comp with
    | some (p, y) => [(x.core, winEntry (unit, r, w + 1) p y (scaleOff x.desc y o) (min 8192 (scaleOff x.desc y (e - 1) + 3)) dest op)]
    | none => []

/-- Is there room on the scoreboards for entries (32 a core; 14 R420)? -/
def scoreRoom (s : State) (es : List (Nat × ScoreEntry)) : Bool :=
  es.all fun e => (s.cc e.1).score.length + (es.filter fun f => f.1 = e.1).length ≤ 32
def addScore (s : State) (es : List (Nat × ScoreEntry)) : State :=
  es.foldl (fun s e => s.updCc e.1 fun x => { x with score := x.score ++ [e.2] }) s
/-- An operation retires: its entries go. -/
def dropScore (s : State) (op : Nat) : State :=
  let cs : Map Core := s.cores.map fun e =>
    if e.2.cc.score.any (fun y => y.op = op) then
      (e.1, { e.2 with cc := { e.2.cc with score := e.2.cc.score.filter fun y => y.op != op } })
    else e
  { s with cores := cs }

/-- Does an entry of an earlier operation hold one of an operation's own ranges (06 R115)? -/
def scoreBlocks (s : State) (op : Nat) : Bool :=
  s.cores.any fun e =>
    let l := e.2.cc.score
    (List.range l.length).any fun i =>
      match l[i]? with
      | some y => y.op = op && (l.take i).any fun z =>
          z.op != op && z.win = y.win && z.lo < y.hi && y.lo < z.hi && (z.dest || y.dest)
      | none => false

/-- Enter the global ranges of a gather, scatter or collective (06 R117). -/
def addLocks (s : State) (c : Nat) (ls : List LockEntry) : State :=
  ls.foldl (fun s l => s.updCc c fun x =>
    match (List.range 64).find? fun i => (x.locks.find i).isNone with
    | some i => { x with locks := x.locks.set i l }
    | none => x) s
def sideLocks (s : State) (x : CopySide) (rows pitch len : Nat) (dest : Bool) (n : Nat) : List LockEntry :=
  if x.window then [] else
  [{ lo := lineLo x.addr.toNat, hi := lineHi (x.addr.toNat + extent rows pitch len), dest := dest, op := n, since := s.now + 1 }]

/-! ## Issue -/

/-- The unit of the running warp's team. -/
def myUnit (s : State) : Nat := (((s.cc s.cur.core).teams.find s.me.team).map Team.unit).getD 0

/-- Descriptors of a core that no copy holds, ascending. -/
def freeDescs (s : State) (c : Nat) : List Nat :=
  (List.range 16).filter fun d => (s.cc c).copies.all fun e => !(e.2.started && !e.2.finished && e.2.desc = d)

/-- Rows of a copy in the order of the engine: source and destination row (12 R247, R248). -/
def copyRows (x : Copy) : List (Nat × Nat) :=
  match x.mask with
  | none => (List.range x.rows).map fun r => (r, r)
  | some m =>
    let rs := (List.range x.rows).filter fun r => m.getLsbD r
    (List.range rs.length).zip rs |>.map fun e => if x.scatter then e else (e.2, e.1)
/-- Engine cycles of a copy (12 R250). -/
def copyCost (x : Copy) : Nat := max 1 ((copyRows x).length * (ceilDiv x.len 128 + 1))

/-- The engine starts a copy: its bytes are written when its cycles have passed. -/
def runCopy (s : State) (c n : Nat) : State :=
  match (s.cc c).copies.find n with
  | some x => s.postAfter c (copyCost x) (.copyComplete c n)
  | none => s

/-- Released slices take descriptors as descriptors free, in order of arrival (12 R249). -/
def startSlices (s : State) (c : Nat) : State :=
  (((s.cc c).copies.filter fun e => e.2.released && !e.2.started && !s.gangWaits c e.2.team).map Prod.fst).foldl (fun s n =>
    match s.freeDescs c with
    | d :: _ => (s.updCc c fun x => { x with copies := x.copies.map fun e =>
        if e.1 = n then (n, { e.2 with started := true, desc := d }) else e }).runCopy c n
    | [] => s) s

/-- Make a copy of the running warp: entries, descriptor, unsealed (12 R247). -/
def makeCopy (s : State) (b : CopyBlk) (dir : Nat) (x y : CopySide) (mask : Option DWord) (scatter lock wait : Bool) :
    Nat × State :=
  let c := s.cur.core
  let n := (s.cc c).nextOp
  let key := opKey c n
  let u := s.myUnit
  let s := s.addScore (sideEntries u x b.rows b.spitch b.len false key ++ sideEntries u y b.rows b.dpitch b.len true key)
  let s := if lock then
      s.addLocks c (s.sideLocks x b.rows b.spitch b.len false n ++ s.sideLocks y b.rows b.dpitch b.len true n)
    else s
  let tr := s.topTracker c s.cur.slot
  let cp : Copy :=
    { slot := s.cur.slot, team := s.me.team, ctx := s.myCtx, dir := dir, src := x.addr, dst := y.addr, len := b.len,
      rows := b.rows, spitch := b.spitch, dpitch := b.dpitch, mask := mask, scatter := scatter, srcFmt := x.fmt,
      dstFmt := y.fmt, released := !wait, started := !wait, desc := (s.freeDescs c).headD 0, tracker := tr }
  let s := s.updCc c fun z => { z with nextOp := n + 1, copies := z.copies.set n cp }
  let s := match tr with
    | some t => if dir = 0 || dir = 2 then s.updTracker c t fun t => stamp t 0 true else s
    | none => s
  (n, s.updMe fun w => { w with unsealed := w.unsealed ++ [n] })

/-- Has the core the resources of a copy with these operands: scoreboard, locks (12 R242)? -/
def copyRoom (s : State) (b : CopyBlk) (x y : CopySide) (lock : Bool) : Bool :=
  s.scoreRoom (sideEntries s.myUnit x b.rows b.spitch b.len false 0 ++ sideEntries s.myUnit y b.rows b.dpitch b.len true 0) &&
    (!lock || (s.cc s.cur.core).locks.length + (if x.window then 0 else 1) + (if y.window then 0 else 1) ≤ 64)

/-- CPY, CPYG and CPYS (12 R247, R248): `mask` is a gather's or scatter's. -/
def copyBody (a : BitVec 6) (dir : Nat) (mask : Option DWord) (scatter : Bool) (s : State) : Did :=
  let b := s.copyBlk a
  let checked := s.copyChecks b dir (if mask.isSome then 64 else 65535)
  s.walked (copyVas b dir) fun walked =>
  match checked with
  | .error t => .trap s t
  | .ok (x, y) =>
    if (s.freeDescs s.cur.core).isEmpty || !s.copyRoom b x y mask.isSome then .wait s else
    walked.afterRelease 2 fun s =>
      let r := s.makeCopy b dir x y mask scatter mask.isSome false
      .done (r.2.runCopy s.cur.core r.1) .fall

def updTeam (s : State) (c t : Nat) (f : Team → Team) : State :=
  s.updCc c fun x => { x with teams := x.teams.map fun e => if e.1 = t then (t, f e.2) else e }

/-- CPYB (12 R249). -/
def cpybBody (n a : BitVec 6) (j : BitVec 3) (r : BitVec 2) (s : State) : Did :=
  let c := s.cur.core
  let dir := r.toNat
  let b := s.copyBlk a
  let checked := s.copyChecks b dir 65535
  s.walked (copyVas b dir) fun walked =>
  match checked with
  | .error t => .trap s t
  | .ok (x, y) =>
    let old := ((s.cc c).teams.find s.me.team).bind fun t => t.slots.find j.toNat
    let col := old.getD { count := n.toNat, dir := dir, slices := [], warps := [] }
    if col.warps.contains s.me.wid then .wait s
    else if col.count != n.toNat || col.dir != dir then .trap s (s.copyTrap 6 0)
    else if !s.copyRoom b x y true then .wait s
    else walked.afterRelease 2 fun s =>
      let m := s.makeCopy b dir x y none false true true
      let s := m.2
      let col := { col with slices := col.slices ++ [m.1], warps := col.warps ++ [s.me.wid] }
      if col.slices.length = col.count then
        let s := s.updTeam c s.me.team fun t => { t with slots := t.slots.del j.toNat }
        let go (e : Nat × Copy) : Nat × Copy := if col.slices.contains e.1 then (e.1, { e.2 with released := true }) else e
        let s := s.updCc c fun z => { z with copies := z.copies.map go }
        .done (s.startSlices c) .fall
      else .done (s.updTeam c s.me.team fun t => { t with slots := t.slots.set j.toNat col }) .fall

/-! ## Movement -/

/-- What stops a copy: a page that fails (20 R372: 1 translation, 2 permission, 3 format), a line or budget that
holds it. -/
inductive CopyStop where
  | halt (why : Nat) (dest : Bool)
  | hold (key : Nat) (write : Bool)
  deriving DecidableEq, Repr

/-- A page that a copy reads or writes, checked (12 R245, R253): of its data, or of a scale plane. A page whose Format
Region Table entry is invalid fails by its format. -/
def copyPlain (s : State) (c : Nat) (x : Copy) (dest : Bool) (va : DWord) : Except CopyStop Checked :=
  let d := dieOfCore c
  match s.walkHold d x.ctx va with
  | some key => .error (.hold key dest)
  | none =>
  match s.check d x.ctx (if dest then kDest else kSource) va with
  | .error e => .error (.halt (if e.group = grpTranslate then 1 else if e.code / 4096 = 11 then 3 else 2) dest)
  | .ok k =>
    if s.spaceLost d k.pa then .error (.halt 2 dest) else
    match s.coreHold k.pa k.cache dest with
    | some key => .error (.hold key dest)
    | none => .ok k
/-- A page of a copy's data has the format of the operand's first page; between two pages none is asked for. -/
def copyPage (s : State) (c : Nat) (x : Copy) (dest : Bool) (va : DWord) : Except CopyStop Checked :=
  match s.copyPlain c x dest va with
  | .error e => .error e
  | .ok k =>
    match s.frt (dieOfCore c) x.ctx (pteFri k.tlb.entry) with
    | some e => if x.dir != 3 && e.fmt != (if dest then x.dstFmt else x.srcFmt) then .error (.halt 3 dest) else .ok k
    | none => .error (.halt 3 dest)

/-- Read bytes of one line by the engine through the core's L1 (06 R113); damaged words are moved as they are delivered, and
the warp that issued the copy takes MACHINE (22 R404). -/
def engineRead (s : State) (c : Nat) (x : Copy) (k : Checked) (n : Nat) : State × List Byte :=
  let s := if s.consumes c k.pa k.cache n then s.machineErr c x.slot x.ctx k.pa else s
  s.coreRead c k.pa k.kid k.cache (pteRoh k.tlb.entry) n

/-- Read n bytes of an operand that do not cross a line. -/
def copyRead (s : State) (c : Nat) (x : Copy) (va : Nat) (n : Nat) : Except CopyStop (State × List Byte) :=
  if dirSrcWin x.dir then
    match spWord (lo32 x.src) with
    | some (some r, w, o) => match s.winOf c x.team r w with
      | some (k, p, y) =>
        .ok (s, (List.range n).map fun i => (s.cc k).scratch.get 0 (8192 * p + winPhys y (o + va + i)))
      | none => .error (.halt 2 false)
    | _ => .error (.halt 2 false)
  else
    match s.copyPage c x false (BitVec.ofNat 64 (x.src.toNat + va)) with
    | .error e => .error e
    | .ok k => .ok (s.engineRead c x k n)
/-- Write bytes of an operand that do not cross a line. -/
def copyWrite (s : State) (c : Nat) (x : Copy) (va : Nat) (bs : List Byte) : Except CopyStop State :=
  if dirDstWin x.dir then
    match spWord (lo32 x.dst) with
    | some (some r, w, o) => match s.winOf c x.team r w with
      | some (k, p, y) => .ok ((List.range bs.length).foldl (fun s i => s.winWrite k p (winPhys y (o + va + i)) [bs.getD i 0]) s)
      | none => .error (.halt 2 true)
    | _ => .error (.halt 2 true)
  else
    match s.copyPage c x true (BitVec.ofNat 64 (x.dst.toNat + va)) with
    | .error e => .error e
    | .ok k => .ok (s.coreWrite c x.ctx k.pa k.kid k.cache bs)

/-- Where the scale of the block at byte o of a row lies: in the companion of a window, or at a virtual address. -/
def scaleAt (s : State) (c : Nat) (x : Copy) (dest : Bool) (o : Nat) : Option (Sum (Nat × Nat × DWord × Nat) DWord) :=
  let a := if dest then x.dst else x.src
  if (if dest then dirDstWin x.dir else dirSrcWin x.dir) then
    match spWord (lo32 a) with
    | some (some r, w, b) => match s.winOf c x.team r w, s.winOf c x.team r (w + 1) with
      | some (_, _, y), some (k, p, z) => if w % 2 = 0 && wdFmt z = fmtRaw then some (.inl (k, p, z, scaleOff y z (b + o))) else none
      | _, _ => none
    | _ => none
  else
    let va := a.toNat + o
    match s.check (dieOfCore c) x.ctx (if dest then kDest else kSource) (BitVec.ofNat 64 va) with
    | .ok k => match s.frt (dieOfCore c) x.ctx (pteFri k.tlb.entry) with
      | some e => (e.scaleAddr va 0).map fun y => .inr (BitVec.ofNat 64 y)
      | none => none
    | .error _ => none

/-- Move one scale of three bytes, as the data move (12 R246; 06 R113): where a side of another format has no place for it,
it stays. -/
def copyScale (s : State) (c : Nat) (x : Copy) (so dof : Nat) : Except CopyStop State :=
  match s.scaleAt c x false so, s.scaleAt c x true dof with
  | some a, some b =>
    (List.range 3).foldlM (fun (s : State) i => do
      let (s, bs) ← match a with
        | .inl (k, p, z, o) => (.ok (s, [(s.cc k).scratch.get 0 (8192 * p + winPhys z (o + i))]) : Except CopyStop (State × List Byte))
        | .inr va => (s.copyPlain c x false (va + BitVec.ofNat 64 i)).map fun k => s.engineRead c x k 1
      match b with
      | .inl (k, p, z, o) => .ok (s.winWrite k p (winPhys z (o + i)) bs)
      | .inr va => (s.copyPlain c x true (va + BitVec.ofNat 64 i)).map fun k => s.coreWrite c x.ctx k.pa k.kid k.cache bs) s
  | none, _ => if x.srcFmt = fmtB4 then .error (.halt 3 false) else .ok s
  | _, none => if x.dstFmt = fmtB4 then .error (.halt 3 true) else .ok s

/-- The budget of a copy's global traffic (12 R250; 13 R288). -/
def copyBudget (c : Nat) : Nat := 4 + c / 24 % 8

/-- Note progress in the descriptor. -/
def progress (s : State) (c n rows bytes : Nat) : State :=
  s.updCc c fun z => { z with copies := z.copies.map fun e =>
    if e.1 = n then (n, { e.2 with rowsDone := rows, bytesDone := bytes }) else e }

/-- Pieces of [from, from + n) of a row that cross no line of either operand. -/
def pieces (sa da from_ n : Nat) : List (Nat × Nat) :=
  (chunks 128 (n / 128 + 2) (sa + from_) n).foldl (fun acc e =>
    acc ++ (chunks 128 (e.2 / 128 + 2) (da + (e.1 - sa)) e.2).map fun f => (f.1 - da, f.2)) ([] : List (Nat × Nat))

/-- Global bytes among n of each side of a copy. -/
def globalBytes (x : Copy) (n : Nat) : Nat := (if dirSrcWin x.dir then 0 else n) + (if dirDstWin x.dir then 0 else n)
/-- Is a copy one that moves scales (12 R246)? -/
def movesScales (x : Copy) : Bool := x.dir != 3 && (x.srcFmt = fmtB4 || x.dstFmt = fmtB4)

/-- Move the scales of blocks of a row, charged and held as its data are (12 R246, R250). -/
def moveScales (c : Nat) (x : Copy) (so dof : Nat) : List Nat → State → State × Option CopyStop
  | [], s => (s, none)
  | b :: rest, s =>
    if s.budgetOut (dieOfCore c) (copyBudget c) then (s, some (.hold (budgetKey (dieOfCore c) (copyBudget c)) false)) else
    match s.copyScale c x (so + 16 * b) (dof + 16 * b) with
    | .error e => (s, some e)
    | .ok s => moveScales c x so dof rest (s.charge (dieOfCore c) (copyBudget c) (globalBytes x 3))

/-- Move pieces of a row, each after the scales of the blocks that begin in it. -/
def movePieces (c n i : Nat) (x : Copy) (so dof : Nat) : List (Nat × Nat) → State → State × Option CopyStop
  | [], s => (s, none)
  | (o, k) :: rest, s =>
    let blocks := if movesScales x then (List.range (x.len / 16)).filter fun b => decide (o ≤ 16 * b ∧ 16 * b < o + k) else []
    match moveScales c x so dof blocks s with
    | (s, some e) => (s, some e)
    | (s, none) =>
    if s.budgetOut (dieOfCore c) (copyBudget c) then (s, some (.hold (budgetKey (dieOfCore c) (copyBudget c)) false)) else
    match s.copyRead c x (so + o) k with
    | .error e => (s, some e)
    | .ok (s, bs) =>
      match s.copyWrite c x (dof + o) bs with
      | .error e => (s, some e)
      | .ok s =>
        let s := (s.charge (dieOfCore c) (copyBudget c) (globalBytes x k)).countEv c 0x0D 1
        movePieces c n i x so dof rest (s.progress c n i (o + k))

/-- Move rows from row i on. -/
def moveRows (c n : Nat) (x : Copy) : List (Nat × Nat) → Nat → Nat → State → State × Option CopyStop
  | [], _, _, s => (s, none)
  | (r, t) :: rest, i, done, s =>
    let so := r * x.spitch
    let dof := t * x.dpitch
    let sa := if dirSrcWin x.dir then bitsOf x.src.toNat 12 0 + so else x.src.toNat + so
    let da := if dirDstWin x.dir then bitsOf x.dst.toNat 12 0 + dof else x.dst.toNat + dof
    match movePieces c n i x so dof (pieces sa da done (x.len - done)) s with
    | (s, some e) => (s, some e)
    | (s, none) => moveRows c n x rest (i + 1) 0 (s.progress c n (i + 1) 0)

/-! ## Completion -/

/-- The batches of a warp slot, or of an ended warp. -/
def batchesOf (s : State) (c k : Nat) : List Batch :=
  if k ≤ fwSlot then (s.warp c k).batches else ((s.cc c).orphans.get ([], 0) k).1
def setBatches (s : State) (c k : Nat) (l : List Batch) (done : Nat) : State :=
  if k ≤ fwSlot then s.updWarp c k fun w => { w.updUni fun u => { u with doneCount := u.doneCount + BitVec.ofNat 32 done } with batches := l }
  else s.updCc c fun x => { x with orphans :=
    if l.isEmpty then x.orphans.del k else x.orphans.set k (l, (x.orphans.get ([], 0) k).2 + BitVec.ofNat 32 done) }

/-- The count counter of a completion counter (12 R248). -/
def countName : CounterName → CounterName
  | .num r n => .num r (n + 1)
  | .addr va => .addr (va + 8)

/-- An engine's add to a counter by name. -/
def engineAdd (s : State) (c h t : Nat) (what : AgentAdd) (name : CounterName) (inc : Word) (scope : Nat) : State :=
  match name with
  | .num r n => s.agentAddNum c h t what r n inc scope
  | .addr va => s.agentAdd c h what va inc scope

/-- Tile stamps at the completion of a batch (17 R338, R339). -/
def batchStamps (s : State) (c k num : Nat) : State :=
  (s.cc c).trackers.foldl (fun s e =>
    match e.2.batches.find? fun b => e.2.slot = k && b.1 = num with
    | some b =>
      (s.updTracker c e.1 fun t =>
        let t := if b.2.1 then stamp t 1 false else t
        let t := if b.2.2 then stamp t 5 false else t
        { t with batches := t.batches.filter fun y => y.1 != num }).trackerDone c e.1
    | none => s) s

/-- The event that counts a slot's batches again once what their release waits for is done. -/
def pumpEvent (c k : Nat) : Instr := .copyComplete c (2 ^ 32 + k)

/-- Batches are counted done in seal order (06 R114; 12 R248, R251): the release, the counts of gathers, the
completion add. `n` bounds their number. -/
def pumpBatches (s : State) (c k h t : Nat) : Nat → State
  | 0 => s
  | n + 1 =>
    match s.batchesOf c k with
    | [] => s
    | b :: rest =>
      let fin (i : Nat) : Bool := match (s.cc c).copies.find i with
        | some x => x.finished
        | none => false
      if !(b.copies.all fin) then s else
      match s.releaseHold? c b.scope with
      | some key => s.hold key true (pumpEvent c k)
      | none =>
      let s := s.releaseAt c b.scope
      let s := match b.name with
        | some name =>
          let s := b.counts.foldl (fun (s : State) i => s.engineAdd c h t .count (countName name) (BitVec.ofNat 32 i) b.scope) s
          s.engineAdd c h t .batch name b.inc b.scope
        | none => s
      let s := s.batchStamps c k b.num
      let s := s.updCc c fun x => { x with copies := x.copies.filter fun e => !b.copies.contains e.1 }
      pumpBatches (s.setBatches c k rest 1) c k h t n

/-- A copy's last byte is written: its entries and descriptor go (06 R114, R115, R117). -/
def finishCopy (s : State) (c n : Nat) (x : Copy) : State :=
  let s := s.updCc c fun z => { z with
    copies := z.copies.map fun e => if e.1 = n then (n, { e.2 with finished := true }) else e
    locks := z.locks.filter fun e => e.2.op != n }
  let s := (s.dropScore (opKey c n)).startSlices c
  match x.node with
  | some (va, inc, h, scope) =>
    match (if va = 0#64 then none else s.releaseHold? c scope) with
    | some key => s.hold key true (.copyComplete c n)
    | none =>
    let s := s.updCc c fun z => { z with copies := z.copies.del n }
    if va = 0#64 then s else (s.releaseAt c scope).agentAdd c h .batch va inc scope
  | none =>
    let s := s.pumpBatches c x.slot x.ctx x.team 9
    if fwSlot < x.slot && (s.batchesOf c x.slot).all (fun b => !b.copies.contains n) then
      s.updCc c fun z => { z with copies := z.copies.del n }
    else s

/-- Halt a copy (12 R253; 21 R385): COPY becomes pending on its warp; without one it is reported and abandoned. -/
def haltCopy (s : State) (c n why : Nat) (dest : Bool) : State :=
  match (s.cc c).copies.find n with
  | none => s
  | some x =>
    let t := haltTrap why dest x
    if x.slot ≤ fwSlot then
      (s.updCc c fun z => { z with copies := z.copies.map fun e => if e.1 = n then (n, { e.2 with halted := true }) else e }).pendAsync
        c x.slot t
    else (s.copyHaltRecord x.ctx c 0 t).dropCopy c n

/-- The engine's work on a copy: what remains of it moves, or it stops. `first` defers a halt to its own event. -/
def engineRun (s : State) (c n : Nat) (first : Bool) : State :=
  if 2 ^ 32 ≤ n then
    let k := n - 2 ^ 32
    let of := ((s.cc c).copies.find? fun e => e.2.slot = k).map fun e => (e.2.ctx, e.2.team)
    let ht := if k ≤ fwSlot then ((s.warp c k).ctx, (s.warp c k).team) else of.getD ((s.cc c).ctx, 0)
    s.pumpBatches c k ht.1 ht.2 9
  else
  match (s.cc c).copies.find n with
  | none => s
  | some x =>
    if !x.started || x.halted || !s.coreRuns c || s.gangWaits c x.team then s
    else if x.finished then (if x.node.isSome then s.finishCopy c n x else s.pumpBatches c x.slot x.ctx x.team 9)
    else if s.scoreBlocks (opKey c n) then s.postAfter c 1 (.copyComplete c n)
    else match moveRows c n x ((copyRows x).drop x.rowsDone) x.rowsDone x.bytesDone s with
      | (s, none) => s.finishCopy c n x
      | (s, some (.hold key w)) => s.hold key w (.copyComplete c n)
      | (s, some (.halt why dest)) => if first then s.post (.copyHalt c n) else s.haltCopy c n why dest

/-- The engine goes on with the halted copies of a warp whose trap has been taken (12 R253). -/
def retryCopies (s : State) (c k : Nat) : State :=
  let waiting (x : Copy) : Bool := (s.warp c k).trap.async.any fun t => t.group = grpCopy && bitsOf t.code 11 8 = x.desc
  let ns := ((s.cc c).copies.filter fun e => e.2.slot = k && e.2.halted && !waiting e.2).map Prod.fst
  let s := s.updCc c fun z => { z with copies := z.copies.map fun e => if ns.contains e.1 then (e.1, { e.2 with halted := false }) else e }
  s.postAll (ns.map fun n => .copyComplete c n)

/-! ## Batches and descriptors -/

/-- CSEAL (12 R251). -/
def sealBatch (s : State) (name : Option CounterName) (inc : Word) (scope : Nat) : State :=
  let c := s.cur.core
  let w := s.me
  let num := w.uni.sealedCount + 1
  let cps := w.unsealed.filterMap fun n => ((s.cc c).copies.find n).map fun x => (n, x)
  let b : Batch :=
    { num := num.toNat, copies := w.unsealed, name := name, inc := inc, scope := scope
      counts := (cps.filter fun e => e.2.mask.isSome && !e.2.scatter).map fun e => (copyRows e.2).length }
  let s := (cps.filterMap fun e => e.2.tracker).dedup.foldl (fun s t =>
    let mine := cps.filter fun e => e.2.tracker = some t
    s.updTracker c t fun y => if y.closed then y else { y with batches := y.batches ++
      [(num.toNat, mine.any (fun e => e.2.dir = 0 || e.2.dir = 2), mine.any fun e => e.2.dir = 1)] }) s
  let s := s.updMe fun w => { w.updUni fun u => { u with sealedCount := num } with
    unsealed := [], batches := w.batches ++ [b] }
  s.pumpBatches c s.cur.slot s.myCtx w.team 9

def csealBody (d a b : BitVec 6) (f k : BitVec 2) (s : State) : Did :=
  let w := s.me
  if (w.uni.sealedCount - w.uni.doneCount).toNat = 8 then .wait s
  else if f = 3#2 then .done (s.sealBatch none 0 2) .fall
  else
    let name := s.ctrName f a b
    let free := ctrFree f a b
    let inc := if free = 0#6 then s.us d else free.setWidth 32
    let gather := w.unsealed.any fun n => match (s.cc s.cur.core).copies.find n with
      | some x => x.mask.isSome && !x.scatter
      | none => false
    let found := s.ctrHomeOf s.cur.core s.myCtx w.team kCtrAdd name
    s.walked (match name with
      | .addr va => [va]
      | .num _ _ => []) fun walked =>
    match found with
    | .error e => .trap s (s.accTrap s.firstLane e)
    | .ok _ =>
      let last := match name with
        | .num _ n => n = 63
        | .addr _ => false
      if gather && last then .trap s (s.copyTrap 8 0)
      else .done (walked.sealBatch (some name) inc (ctrScope k.toNat)) .fall

/-- CWAITB (12 R252): its acquire waits for the warp's earlier accesses (06 R105). -/
def cwaitbBody (n : BitVec 6) (s : State) : Did :=
  if n.toNat < (s.me.uni.sealedCount - s.me.uni.doneCount).toNat || s.warpBusy s.cur.core s.cur.slot then .wait s
  else .done (s.acquireAt s.cur.core 2) .fall

/-- WDESC (03 R54; 12 R254). Its ACCESS traps report access kind 0 and, in TDET1, the scratchpad address word of offset 0
of the window: the manual gives neither (DESIGN CHOICE: note 107). -/
def wdescBody (a w : BitVec 6) (s : State) : Did :=
  let x := s.us64 a
  let bad (n : Nat) : Did := .trap s (s.accTrap s.firstLane (accFail n kLoad ((spWordOf none w.toNat 0).setWidth 64)))
  if wdescReserved x then .trap s (s.encTrap .fixedField (lo32 x))
  else if wdV x && !wdescOk x then .trap s (s.encTrap .wdesc (lo32 x))
  else match s.window s.cur.core s.me.team none w.toNat with
    | none => bad 3
    | some (k, p) =>
      let old := (s.cc k).wdesc.get 0 p
      if wdV old && wdOwner old != s.me.team then bad 12
      else if (s.cc k).score.any (fun e => e.win = p) then .wait s
      else
        let new := (x &&& ~~~(0x1F#64 <<< 51)) ||| (BitVec.ofNat 64 s.me.team <<< 51)
        .done (s.updCc k fun z => { z with wdesc := z.wdesc.set p new }) .fall

end State

def execCpy (sc : BitVec 2) (a : BitVec 6) (r : BitVec 2) (s : State) : Host.Outcome State Fault Refusal :=
  .next (s.issue (.cpy sc a r) sc (State.copyBody a r.toNat none false))
def execCpyb (sc : BitVec 2) (d a : BitVec 6) (j : BitVec 3) (r : BitVec 2) (s : State) : Host.Outcome State Fault Refusal :=
  .next (s.issue (.cpyb sc d a j r) sc (State.cpybBody d a j r))
def execCpyg (sc : BitVec 2) (a b : BitVec 6) (r : BitVec 2) (s : State) : Host.Outcome State Fault Refusal :=
  .next (s.issue (.cpyg sc a b r) sc fun s => s.copyBody a r.toNat (some (s.us64 b)) false)
def execCpys (sc : BitVec 2) (a b : BitVec 6) (r : BitVec 2) (s : State) : Host.Outcome State Fault Refusal :=
  .next (s.issue (.cpys sc a b r) sc fun s => s.copyBody a r.toNat (some (s.us64 b)) true)
def execCseal (sc : BitVec 2) (d a b : BitVec 6) (f k : BitVec 2) (s : State) : Host.Outcome State Fault Refusal :=
  .next (s.issue (.cseal sc d a b f k) sc (State.csealBody d a b f k))
def execCwaitb (sc : BitVec 2) (b : BitVec 6) (s : State) : Host.Outcome State Fault Refusal :=
  .next (s.issue (.cwaitb sc b) sc (State.cwaitbBody b))
def execWdesc (sc : BitVec 2) (a b : BitVec 6) (s : State) : Host.Outcome State Fault Refusal :=
  .next (s.issue (.wdesc sc a b) sc (State.wdescBody a b))

/-- COPY_COMPLETE. -/
def execCopyComplete (core copy : Nat) (s : State) : Host.Outcome State Fault Refusal :=
  if !coreOk core then .fault .noSuchUnit else .next (s.engineRun core copy true)
/-- COPY_HALT. -/
def execCopyHalt (core copy : Nat) (s : State) : Host.Outcome State Fault Refusal :=
  if !coreOk core then .fault .noSuchUnit else .next (s.engineRun core copy false)

end Sys2Proof.Machine
end

