-- ==== Sys2Proof/Machine/MatrixMath.lean ====
section
/-! DEFINITION. The arithmetic of the matrix array (04 R69, R70; 12 R258 to R265): group sums, block products, the
accumulation of a row, and what MMAT, MPERM, MRED and MST make of a value. -/

namespace Sys2Proof.Machine

/-- Class of a format: 16-bit, 8-bit, 4-bit block; 0 for the others (04, order of matrix accumulation). -/
def matrixClass (fmt : Nat) : Nat := if fmt = 2 || fmt = 3 then 16 else if fmt = 4 || fmt = 5 then 8 else if fmt = fmtB4 then 4 else 0
/-- K of a format (12 R258). -/
def matrixK (fmt : Nat) : Nat := if matrixClass fmt = 16 then 32 else if matrixClass fmt = 8 then 64 else 128
/-- The arithmetic format of an element format code (04 R61). -/
def fmtOf (fmt : Nat) : Fmt := if fmt = 2 then .f16 else if fmt = 3 then .bf16 else if fmt = 4 then .e4m3 else if fmt = 5 then .e5m2 else .f32
/-- Bytes of an element of a window that MST writes. -/
def elemSize (fmt : Nat) : Nat := if fmt = 1 then 4 else if fmt ≤ 3 then 2 else 1
/-- Bytes of 64 elements of a format (04 R60, R61); a RAW window has elements of a byte. -/
def rowBytes (fmt : Nat) : Nat :=
  if fmt = 0 then 64 else if fmt = fmtB4 then 32 else if 8 ≤ fmt && fmt < 16 then 64 * 2 ^ ((fmt - 8) / 2) else 64 * elemSize fmt

/-- Element k of a row of 64 bytes (12 R258). -/
def rowElem (fmt : Nat) (row : List Byte) (k : Nat) : Nat :=
  if matrixClass fmt = 16 then (row.getD (2 * k) 0).toNat + 256 * (row.getD (2 * k + 1) 0).toNat
  else if matrixClass fmt = 8 then (row.getD k 0).toNat
  else bitsOf (row.getD (k / 2) 0).toNat (4 * (k % 2) + 3) (4 * (k % 2))

/-- One group of products, exact and rounded once (04 R69). A group that holds a NaN input beside an invalid product
raises no flag (DESIGN CHOICE: note 108). -/
def groupSum (sub : Bool) (xs ys : List Num) : Nat × Word :=
  if xs.any Num.isNan || ys.any Num.isNan then (Fmt.f32.nan false, 0)
  else sumRound .f32 rne sub (xs.zipWith Num.mul ys)

/-- One block of products with both scales, rounded once (04 R70). -/
def blockSum (sub : Bool) (sa : Nat) (ca : List Nat) (sw : Nat) (cw : List Nat) : Nat × Word :=
  if scaleE sa = 255 || scaleE sw = 255 then (Fmt.f32.nan false, 0)
  else if scaleE sa = 0 || scaleE sw = 0 then (0, 0)
  else
    let t : Int := (ca.zipWith (fun a w => decode4 (scaleT sa) a * decode4 (scaleT sw) w) cw).foldl (· + ·) 0
    if t = 0 then (0, 0)
    else roundTo .f32 rne sub ⟨t < 0, t.natAbs * (2 ^ 14 + scaleM sa) * (2 ^ 14 + scaleM sw),
      (scaleE sa : Int) + scaleE sw - 254 - 28 - 6⟩

/-- The terms that a row adds to one column, ascending (04 R69, R70): the row's format, bytes and scales, the plane's
format, column bytes and scales. -/
def rowTerms (sub : Bool) (fa : Nat) (row : List Byte) (sa : List Nat) (fw : Nat) (col : List Byte) (sw : List Nat) :
    List (Nat × Word) :=
  if matrixClass fw = 4 then
    (List.range 4).map fun b =>
      let cs (f : Nat) (r : List Byte) : List Nat := (List.range 32).map fun k => rowElem f r (32 * b + k)
      blockSum sub (sa.getD b 0) (cs fa row) (sw.getD b 0) (cs fw col)
  else
    (List.range (matrixK fw / 8)).map fun g =>
      let xs (f : Nat) (r : List Byte) : List Num := (List.range 8).map fun k => operand (fmtOf f) sub (rowElem f r (8 * g + k))
      groupSum sub (xs fa row) (xs fw col)
/-- Terms added to an accumulator in order, each sum rounded and, where subnormal, flushed (04 R69). The incoming
accumulator is no input that is flushed; the 4-bit class does the same (DESIGN CHOICE: note 109). -/
def accumulate (sub : Bool) (acc : Nat) (ts : List (Nat × Word)) : Nat × Word :=
  ts.foldl (fun a t =>
    let r := sumRound .f32 rne sub [some (unpack .f32 a.1), some (unpack .f32 t.1)]
    (r.1, a.2 ||| t.2 ||| r.2)) (acc, 0)

/-- MRED of one column's values (12 R263): groups of up to 8 rows, from −0. -/
def reduceGroups (sub : Bool) : Nat → List Nat → Nat × Word → Nat × Word
  | 0, _, a => a
  | n + 1, vs, a =>
    let g := (vs.take 8).map (operand .f32 sub)
    let t := if g.any Num.isNan then (Fmt.f32.nan false, 0) else sumRound .f32 rne sub (g.map some)
    let r := fAdd .f32 rne sub a.1 t.1
    reduceGroups sub n (vs.drop 8) (r.1, a.2 ||| t.2 ||| r.2)
def reduceRows (sub : Bool) (vs : List Nat) : Nat × Word :=
  reduceGroups sub (ceilDiv vs.length 8) vs (0x80000000, 0)

/-- MPERM's copy of a value (12 R262). -/
def permValue (sub : Bool) (v : Nat) : Nat × Word :=
  match unpack .f32 v with
  | .nan _ => (Fmt.f32.nan false, 0)
  | .inf _ => (v, 0)
  | .fin x => if sub && x.m != 0 && bitsOf v 30 23 = 0 then (Fmt.f32.signBit x.neg, fUF ||| fNX) else (v, 0)

/-- MST's value of an element (12 R265). -/
def storeValue (sub : Bool) (fmt v : Nat) : Nat × Word := if fmt = 1 then (v, 0) else narrow (fmtOf fmt) sub v

end Sys2Proof.Machine
end

