-- ==== Sys2Proof/Machine/MatrixEngine.lean ====
section
/-! DEFINITION. The matrix array (12 R255 to R267): operand words and their checks, MSIGN, the queue, and what each
command does when it retires. -/

namespace Sys2Proof.Machine

/-- A matrix operand that passed its checks (12 R256). -/
structure MOpnd where
  core : Nat
  win : Nat
  desc : DWord
  off : Nat
  comp : Option (Nat × DWord) := none
  /-- its unit, role and number -/
  place : Nat × Nat × Nat := (0, 0, 0)
  deriving DecidableEq, Repr

namespace State

/-! ## Checks -/

/-- MATRIX (20 R372): reason, convergence register, and what failed. -/
def mtrap (s : State) (reason cv : Nat) (x : Word) : TrapInfo := s.trapAt grpMatrix (reason * 4096 + cv * 256) x s.cur.word

def opWin (x : Word) : Nat := bitsOf x.toNat 18 13
def opOff (x : Word) : Nat := bitsOf x.toNat 12 0
def opLay (x : Word) : Nat := bitsOf x.toNat 31 28
def rcM (x : Word) : Nat := bitsOf x.toNat 16 8
def rcBase (x : Word) : Nat := bitsOf x.toNat 7 0

/-- Check 1 of an operand word and of a row control word, check 2 of the latter. -/
def opBits (x : Word) : Bool := bitsOf x.toNat 27 19 = 0 && opOff x % 16 = 0
def rcBits (x : Word) : Bool := bitsOf x.toNat 31 17 = 0
def rcRange (x : Word) : Bool := 8 ≤ rcM x && rcM x ≤ 256 && rcM x % 8 = 0 && rcBase x % 8 = 0

/-- The window of an operand word, for a team (12 R256 check 4). -/
def opWindow (s : State) (c t : Nat) (x : Word) : Option (Nat × Nat × DWord) :=
  match s.window c t none (opWin x) with
  | none => none
  | some (k, p) =>
    let d := (s.cc k).wdesc.get 0 p
    if wdV d then some (k, p, d) else none
/-- The companion of a B4 window (12 R246). -/
def opComp (s : State) (c t : Nat) (x : Word) : Option (Nat × DWord) :=
  if opWin x % 2 = 1 then none else
  match s.window c t none (opWin x + 1) with
  | none => none
  | some (k, p) =>
    let d := (s.cc k).wdesc.get 0 p
    if wdV d && wdFmt d = fmtRaw then some (p, d) else none

/-- Checks 4 to 9 of an operand of `rows` rows (12 R256): `len` is a row's bytes for the window's FMT and whether the
command accepts it; `table` an operand whose PITCH is ignored; `fits` check 3 where it needs the FMT, of the row control
word `rc`. -/
def opChecks (s : State) (x : Word) (rows : Nat) (table : Bool) (len : Nat → Nat × Bool) (fits : Nat → Bool) (rc : Word) :
    Except TrapInfo MOpnd :=
  let c := s.cur.core
  let t := s.me.team
  let bad (n : Nat) : Except TrapInfo MOpnd := .error (s.mtrap n 0 x)
  match s.opWindow c t x with
  | none => bad 4
  | some (k, p, d) =>
    let n := (len (wdFmt d)).1
    let e := if table then opOff x + rows else opOff x + (rows - 1) * wdPitch d + n
    if !fits (wdFmt d) then .error (s.mtrap 3 0 rc)
    else if opLay x != wdLayout d then bad 5
    else if !table && wdPitch d < n then bad 6
    else if 8192 < e || 8192 ≤ winPhys d (e - 1) then bad 7
    else if !(len (wdFmt d)).2 then bad 8
    else if wdFmt d = fmtB4 && (s.opComp c t x).isNone then bad 9
    else .ok { core := k, win := p, desc := d, off := opOff x
               comp := if wdFmt d = fmtB4 then s.opComp c t x else none
               place := (s.myUnit, (((s.cc c).teams.find t).map Team.trole).getD 0, opWin x) }

/-- Scoreboard entries of an operand, companions included (12 R256). -/
def opEntries (o : MOpnd) (rows len : Nat) (table dest : Bool) (op : Nat) : List (Nat × ScoreEntry) :=
  let e := if table then o.off + rows else o.off + (rows - 1) * wdPitch o.desc + len
  (o.core, winEntry o.place o.win o.desc o.off e dest op) :: match o.comp with
    | some (p, y) =>
      [(o.core, winEntry (o.place.1, o.place.2.1, o.place.2.2 + 1) p y (scaleOff o.desc y o.off) (min 8192 (scaleOff o.desc y (e - 1) + 3)) dest op)]
    | none => []

/-- Formats of the active and shadow planes once every command before a new one has run (12 R260). -/
def planesAfter (m : Matrix) : Option Nat × Option Nat :=
  (m.loading.toList ++ m.running.toList ++ m.queue).foldl (fun f x =>
    if x.opc = 0x59 then (f.1, some x.dest) else if x.opc = 0x5A then (f.2, f.1) else f) (m.active.fmt, m.shadow.fmt)

/-- Does the warp's group wait for its own scratchpad writes (06 R116)? -/
def storesOut (s : State) (c k : Nat) : Bool :=
  s.reqs.any fun e => e.2.core = c && e.2.slot = k && (match e.2.op with
    | .load _ => false
    | _ => true) && e.2.accs.any fun a => a.core.isSome

/-! ## Issue -/

/-- A command enters the queue (12 R255), unless the queue or a scoreboard is full. -/
def enqueue (s : State) (x : MCmd) (es : Nat → List (Nat × ScoreEntry)) : Did :=
  let c := s.cur.core
  let k := s.cur.slot
  if 8 ≤ (s.cc c).matrix.queue.length || !s.scoreRoom (es 0) || s.storesOut c k then .wait s else
  let n := (s.cc c).nextOp
  let trs := ((s.topTracker c k).toList ++ ((s.me.sched.bound.filter fun e => e.1 = s.cur.lanes).flatMap Prod.snd)).dedup
  let x : MCmd := { x with num := n, slot := k, team := s.me.team, mode := s.cur.mode, trackers := if x.opc == 0x59 then [] else trs }
  let s := s.addScore (es (opKey c n))
  let s := match s.topTracker c k with
    | some t => s.updTracker c t fun y => stamp y 2 true
    | none => s
  let s := x.trackers.foldl (fun (s : State) t => s.updTracker c t fun y => { y with cmds := y.cmds + 1 }) s
  let s := s.updMe fun w => w.updSched fun y => { y with bound := y.bound.filter fun e => e.1 != s.cur.lanes }
  let s := s.updCc c fun z => { z with nextOp := n + 1, matrix := { z.matrix with queue := z.matrix.queue ++ [x], live := true } }
  let s := if x.opc == 0x5F then s.addVar .lane x.dest 8 x.lanes (2 ^ 40 + n) else s
  .done (s.post (.matrixCommandStart c)) .fall

/-- A command of an opcode with its words. -/
def cmd (opc : Nat) (opword rowctl : Word) : MCmd :=
  { num := 0, opc := opc, slot := 0, team := 0, mode := 0, opword := opword, rowctl := rowctl }

/-- Checks 1 to 3 of a row control word whose command touches `rows` rows from ABASE. -/
def rowChecks (s : State) (x : Word) : Option TrapInfo :=
  if !rcBits x then some (s.mtrap 1 0 x)
  else if !rcRange x then some (s.mtrap 2 0 x)
  else if 256 < rcBase x + rcM x then some (s.mtrap 3 0 x)
  else none

/-- Row bytes of a plane or activation operand. -/
def planeLen (fmt : Nat) : Nat × Bool := (64, matrixClass fmt != 0)

/-- LDW (12 R258). Its queue entry keeps the format that it will give the shadow plane. -/
def ldwBody (a : BitVec 6) (s : State) : Did :=
  let x := s.us a
  if !opBits x then .trap s (s.mtrap 1 0 x) else
  match s.opChecks x 64 false planeLen (fun _ => true) 0 with
  | .error t => .trap s t
  | .ok o => s.enqueue { cmd 0x59 x 0 with dest := wdFmt o.desc } (opEntries o 64 64 false false)
def wswapBody (s : State) : Did := s.enqueue (cmd 0x5A 0 0) fun _ => []
/-- MMA (12 R260). -/
def mmaBody (d a : BitVec 6) (z : BitVec 1) (s : State) : Did :=
  let rc := s.us d
  let x := s.us a
  if !opBits x then .trap s (s.mtrap 1 0 x) else
  match s.rowChecks rc with
  | some t => .trap s t
  | none =>
    match s.opChecks x (rcM rc) false planeLen (fun _ => true) rc with
    | .error t => .trap s t
    | .ok o =>
      match (planesAfter (s.cc s.cur.core).matrix).1 with
      | none => .trap s (s.mtrap 10 0 x)
      | some f =>
        if matrixClass f != matrixClass (wdFmt o.desc) then .trap s (s.mtrap 11 0 x)
        else s.enqueue { cmd 0x5B x rc with zero := z = 1#1 } (opEntries o (rcM rc) 64 false false)
/-- MMAT (12 R261): it touches K accumulator rows. -/
def mmatBody (d a : BitVec 6) (s : State) : Did :=
  let rc := s.us d
  let x := s.us a
  if !opBits x then .trap s (s.mtrap 1 0 x)
  else if !rcBits rc then .trap s (s.mtrap 1 0 rc)
  else if !rcRange rc then .trap s (s.mtrap 2 0 rc)
  else
    match s.opChecks x 64 false planeLen (fun f => matrixClass f = 0 || rcBase rc + matrixK f ≤ 256) rc with
    | .error t => .trap s t
    | .ok o =>
      if rcM rc != 64 then .trap s (s.mtrap 12 0 rc)
      else s.enqueue (cmd 0x5C x rc) (opEntries o 64 64 false false)
/-- MPERM (12 R262). -/
def mpermBody (d a : BitVec 6) (s : State) : Did :=
  let rc := s.us d
  let x := s.us a
  if !opBits x then .trap s (s.mtrap 1 0 x) else
  match s.rowChecks rc with
  | some t => .trap s t
  | none =>
    match s.opChecks x (rcM rc) true (fun f => (1, f = 9 || f = fmtRaw)) (fun _ => true) rc with
    | .error t => .trap s t
    | .ok o => s.enqueue (cmd 0x5D x rc) (opEntries o (rcM rc) 1 true false)
/-- MRED (12 R263): SBASE and LG are checked as ABASE and M are. -/
def mredBody (d a : BitVec 6) (s : State) : Did :=
  let rc := s.us d
  let x := s.us a
  let lg := bitsOf x.toNat 10 8
  if bitsOf x.toNat 31 11 != 0 then .trap s (s.mtrap 1 0 x)
  else if !rcBits rc then .trap s (s.mtrap 1 0 rc)
  else if !rcRange rc then .trap s (s.mtrap 2 0 rc)
  else if lg = 0 || 5 < lg then .trap s (s.mtrap 2 0 x)
  else if 256 < rcBase rc + rcM rc then .trap s (s.mtrap 3 0 rc)
  else if 256 < bitsOf x.toNat 7 0 + 2 ^ lg * rcM rc then .trap s (s.mtrap 3 0 x)
  else s.enqueue (cmd 0x5E x rc) fun _ => []
/-- MRD (12 R264). -/
def mrdBody (d a : BitVec 6) (s : State) : Did :=
  let x := s.us a
  if bitsOf x.toNat 31 9 != 0 then .trap s (s.mtrap 1 0 x)
  else if bitsOf x.toNat 7 0 % 8 != 0 then .trap s (s.mtrap 2 0 x)
  else s.enqueue { cmd 0x5F x 0 with dest := d.toNat, lanes := s.cur.lanes } fun _ => []
/-- MST (12 R265). -/
def mstBody (d a : BitVec 6) (s : State) : Did :=
  let rc := s.us d
  let x := s.us a
  if !opBits x then .trap s (s.mtrap 1 0 x) else
  match s.rowChecks rc with
  | some t => .trap s t
  | none =>
    match s.opChecks x (rcM rc) false (fun f => (rowBytes f, 1 ≤ f && f ≤ 5)) (fun _ => true) rc with
    | .error t => .trap s t
    | .ok o => s.enqueue (cmd 0x60 x rc) (opEntries o (rcM rc) (64 * elemSize (wdFmt o.desc)) false true)
/-- MZERO (12 R266). -/
def mzeroBody (d : BitVec 6) (s : State) : Did :=
  let rc := s.us d
  match s.rowChecks rc with
  | some t => .trap s t
  | none => s.enqueue (cmd 0x61 0 rc) fun _ => []

/-! ## MSIGN -/

/-- Is the word after the unit one that MSIGN may bind (12 R257)? -/
def boundNext (s : State) : Bool :=
  match s.fetchWord s.cur.core s.cur.slot s.cur.lanes s.cur.pc 1 with
  | .ok w => w.getLsbD 31 && 0x59 ≤ bitsOf w.toNat 28 22 && bitsOf w.toNat 28 22 ≤ 0x61
  | .error _ => false

/-- Lanes of a convergence register that have signed, all warps of the team. -/
def cvReg (s : State) (n : Nat) : CvReg := match (s.cc s.cur.core).teams.find s.me.team with
  | some t => t.cv.get {} n
  | none => {}

/-- MSIGN (12 R257). -/
def msignBody (n : BitVec 4) (count : Word) (s : State) : Did :=
  let c := s.cur.core
  let k := (lanesOf s.cur.lanes).length
  let cv := s.cvReg n.toNat
  let cnt := count.toNat
  if !s.boundNext then .trap s (s.encTrap .msignNext 0)
  else if cv.mask.get 0 s.me.wid &&& s.cur.lanes != 0#32 || s.storesOut c s.cur.slot then .wait s
  else if cnt = 0 || 1024 < cnt || (cv.armed && cnt != cv.expect) then .trap s (s.mtrap 13 n.toNat count)
  else if cnt < (if cv.armed then cv.signed else 0) + k then .trap s (s.mtrap 14 n.toNat count)
  else
    let tot := (if cv.armed then cv.signed else 0) + k
    let mask := cv.mask.upd 0 s.me.wid (· ||| s.cur.lanes)
    let s := match s.topTracker c s.cur.slot with
      | some t => s.updTracker c t fun y => stamp y 2 true
      | none => s
    if tot = cnt then
      let signers := (s.cc c).warps.filter fun e => e.2.team = s.me.team && mask.get 0 e.2.wid != 0#32
      let trs := (signers.filterMap fun e => s.topTracker c e.1).dedup
      let s := s.updTeam c s.me.team fun t => { t with cv := t.cv.set n.toNat { expect := cnt, gen := (cv.gen + 1) % 65536 } }
      let s := s.updMe fun w => w.updSched fun y => { y with bound := y.bound ++ [(s.cur.lanes, trs)] }
      .done s .fall
    else
      let s := s.updTeam c s.me.team fun t =>
        { t with cv := t.cv.set n.toNat { armed := true, expect := cnt, signed := tot, gen := cv.gen, mask := mask } }
      .done s (.goto fun _ => s.fallThrough + 4)

/-! ## The array -/

/-- Occupancy of a command, and cycles from its start to its retirement (12 R267). -/
def occupies (x : MCmd) (fmt : Nat) : Nat :=
  let m := rcM x.rowctl
  if x.opc = 0x5B then m else if x.opc = 0x5C then 64 + matrixK fmt else if x.opc = 0x5D || x.opc = 0x60 then m
  else if x.opc = 0x5E then 2 ^ bitsOf x.opword.toNat 10 8 * m else if x.opc = 0x61 then m / 8
  else if x.opc = 0x5F then 8 else if x.opc = 0x59 then 76 else 1
def retiresIn (x : MCmd) (fmt : Nat) : Nat := if x.opc = 0x5F then 8 else occupies x fmt + 40
/-- The format of a command's window as it stands. -/
def cmdFmt (s : State) (c : Nat) (x : MCmd) : Nat := match s.opWindow c x.team x.opword with
  | some (_, _, d) => wdFmt d
  | none => 0

def updMatrix (s : State) (c : Nat) (f : Matrix → Matrix) : State := s.updCc c fun z => { z with matrix := f z.matrix }

/-- The first LDW of the queue, where no WSWAP stands before it. -/
def nextLoad (m : Matrix) : Option MCmd :=
  match m.queue.find? fun x => x.opc = 0x59 || x.opc = 0x5A with
  | some x => if x.opc = 0x59 && m.running.all (fun y => y.opc != 0x5A) then some x else none
  | none => none
/-- The first array command of the queue, where it may start: a WSWAP after every LDW before it. -/
def nextArray (m : Matrix) : Option MCmd :=
  match m.queue.find? fun x => x.opc != 0x59 with
  | some x => if x.opc != 0x5A then some x
    else if m.loading.isNone && (m.queue.head?.map MCmd.num) = some x.num then some x else none
  | none => none

/-- Start what may start (12 R255; 06 R115): a command whose windows an earlier operation still uses waits, and one of a
team that waits for its gang (02 R34). -/
def startMatrix (s : State) (c : Nat) : State :=
  if !s.coreRuns c then s else
  let m := (s.cc c).matrix
  let now := (s.core c).cyc
  let go (s : State) (x : MCmd) (put : Matrix → MCmd → Matrix) : State :=
    if s.gangWaits c x.team then s else
    if s.scoreBlocks (opKey c x.num) then s.postAfter c 1 (.matrixCommandStart c) else
    let f := s.cmdFmt c x
    let n := retiresIn x f
    let s := s.updMatrix c fun m => put { m with queue := m.queue.filter fun y => y.num != x.num } { x with due := now + n }
    let s := x.trackers.foldl (fun s t => s.updTracker c t fun y => stamp y 3 true) s
    let s := if x.opc = 0x59 then s else s.countEv c 0x0C (occupies x f)
    s.postAfter c n (.matrixCommandRetire c)
  let s := match m.loading, nextLoad m with
    | none, some x => go s x fun m x => { m with loading := some x }
    | _, _ => s
  let m := (s.cc c).matrix
  match m.running.orElse fun _ => m.frozen, nextArray m with
  | none, some x => go s x fun m x => { m with running := some x }
  | _, _ => s

/-! ## What commands do -/

/-- Logical bytes of a window. -/
def winLogical (s : State) (k p : Nat) (d : DWord) (o n : Nat) : List Byte :=
  (List.range n).map fun i => (s.cc k).scratch.get 0 (8192 * p + winPhys d (o + i))
/-- Row i of a command's operand, n bytes, and the scales of its four blocks. -/
def opRow (s : State) (c : Nat) (x : MCmd) (i n : Nat) : List Byte :=
  match s.opWindow c x.team x.opword with
  | some (k, p, d) => s.winLogical k p d (opOff x.opword + i * wdPitch d) n
  | none => List.replicate n 0
def opScales (s : State) (c : Nat) (x : MCmd) (i : Nat) : List Nat :=
  match s.opWindow c x.team x.opword, s.opComp c x.team x.opword with
  | some (k, _, d), some (q, y) => (List.range 4).map fun b =>
      leNat (s.winLogical k q y (scaleOff d y (opOff x.opword + i * wdPitch d + 16 * b)) 3)
  | _, _ => []

def acc (m : Matrix) (r j : Nat) : Nat := (m.acc.get 0 (64 * r + j)).toNat
/-- Set rows of the accumulator: (row, column, value). -/
def setAcc (m : Matrix) (vs : List (Nat × Nat × Nat)) : Matrix :=
  { m with acc := vs.foldl (fun a v => a.set (64 * v.1 + v.2.1) (BitVec.ofNat 32 v.2.2)) m.acc }
/-- All pairs below two bounds. -/
def grid (m n : Nat) : List (Nat × Nat) := (List.range m).flatMap fun i => (List.range n).map fun j => (i, j)

/-- A plane as 64 window rows give it (12 R258). -/
def loadPlane (s : State) (c : Nat) (x : MCmd) : Plane :=
  let f := s.cmdFmt c x
  let bytes := (List.range 64).flatMap fun j => (s.opRow c x j 64).zipIdx.map fun e => (64 * j + e.2, e.1)
  let sc := if matrixClass f = 4 then (List.range 64).flatMap fun j => (s.opScales c x j).zipIdx.map fun e => (4 * j + e.2, e.1) else []
  { fmt := some f, bytes := bytes, scales := sc }
def planeCol (p : Plane) (j : Nat) : List Byte := (List.range 64).map fun k => p.bytes.get 0 (64 * j + k)
def planeScales (p : Plane) (j : Nat) : List Nat := (List.range 4).map fun b => p.scales.get 0 (4 * j + b)

/-- New accumulator values with flags: (row, column, value, flags). -/
def cmdValues (s : State) (c : Nat) (x : MCmd) : List (Nat × Nat × Nat × Word) :=
  let m := (s.cc c).matrix
  let sub := x.mode.getLsbD 2
  let f := s.cmdFmt c x
  let base := rcBase x.rowctl
  let n := rcM x.rowctl
  if x.opc = 0x5B then
    (List.range n).flatMap fun i =>
      let row := s.opRow c x i 64
      let sc := s.opScales c x i
      (List.range 64).map fun j =>
        let r := accumulate sub (if x.zero then 0 else acc m (base + i) j)
          (rowTerms sub f row sc (m.active.fmt.getD 0) (planeCol m.active j) (planeScales m.active j))
        (base + i, j, r.1, r.2)
  else if x.opc = 0x5C then
    (List.range 64).flatMap fun i =>
      let row := s.opRow c x i 64
      let sc := s.opScales c x i
      (List.range (matrixK f)).map fun k =>
        let r := if matrixClass f = 4 then dqnt (sc.getD (k / 32) 0) (rowElem f row k) else widen (fmtOf f) sub (rowElem f row k)
        (base + k, i, r.1, r.2)
  else if x.opc = 0x5D then
    let tab := s.opRow c x 0 n
    (grid n 64).map fun e =>
      let r := permValue sub (acc m (tab.getD e.1 0).toNat e.2)
      (base + e.1, e.2, r.1, r.2)
  else if x.opc = 0x5E then
    let sb := bitsOf x.opword.toNat 7 0
    let g := 2 ^ bitsOf x.opword.toNat 10 8
    (grid n 64).map fun e =>
      let r := reduceRows sub ((List.range g).map fun q => acc m (sb + g * e.1 + q) e.2)
      (base + e.1, e.2, r.1, r.2)
  else if x.opc = 0x61 then (grid n 64).map fun e => (base + e.1, e.2, 0, 0)
  else []

/-- The row of a command that a result belongs to: of MMAT the source row, its column. -/
def resultRow (x : MCmd) (v : Nat × Nat × Nat × Word) : Nat := if x.opc = 0x5C then v.2.1 else v.1 - rcBase x.rowctl

/-- MST's rows: the bytes of each with the flags (12 R265). -/
def storeRows (s : State) (c : Nat) (x : MCmd) : List (List Byte × Word) :=
  let m := (s.cc c).matrix
  let f := s.cmdFmt c x
  (List.range (rcM x.rowctl)).map fun i =>
    let vs := (List.range 64).map fun j => storeValue (x.mode.getLsbD 2) f (acc m (rcBase x.rowctl + i) j)
    (vs.flatMap fun v => leBytes (elemSize f) v.1, vs.foldl (fun a v => a ||| v.2) 0)

/-- Flags of a retiring command enter its warp's FSTAT (04 R68). -/
def matrixFlags (s : State) (c k : Nat) (fl : Word) : State :=
  if fwSlot < k then s else s.updWarp c k fun w => w.updUni fun u => { u with fstat := u.fstat ||| fl }

/-- Write the final results of the rows of an array command below row n (12 R260 to R266; 14 R298): the command as it
then stands. -/
def writeRows (s : State) (c : Nat) (x : MCmd) (n : Nat) : State × MCmd :=
  if x.opc = 0x60 then
    match s.opWindow c x.team x.opword with
    | some (k, p, d) =>
      let rows := ((s.storeRows c x).zipIdx.take n).drop x.done
      (rows.foldl (fun s e => (e.1.1.zipIdx).foldl (fun s b =>
          s.winWrite k p (winPhys d (opOff x.opword + e.2 * wdPitch d + b.2)) [b.1]) s) s,
        { x with done := max x.done n, flags := rows.foldl (fun a r => a ||| r.1.2) x.flags })
    | none => (s, { x with done := max x.done n })
  else
    let vs := x.rest.getD (s.cmdValues c x)
    let now := vs.filter fun v => resultRow x v < n
    (s.updMatrix c fun m => setAcc m (now.map fun v => (v.1, v.2.1, v.2.2.1)),
      { x with done := max x.done n, flags := now.foldl (fun a v => a ||| v.2.2.2) x.flags,
               rest := some (vs.filter fun v => !(resultRow x v < n)) })

/-- The effect of a command (12 R258 to R266). -/
def effect (s : State) (c : Nat) (x : MCmd) : State :=
  if x.opc = 0x59 then
    let p := s.loadPlane c x
    s.updMatrix c fun m => { m with shadow := p }
  else if x.opc = 0x5A then s.updMatrix c fun m => { m with active := m.shadow, shadow := m.active }
  else if x.opc = 0x5F then
    let row := bitsOf x.opword.toNat 7 0
    let h := bitsOf x.opword.toNat 8 8
    let m := (s.cc c).matrix
    if fwSlot < x.slot then s else
    ((s.updWarp c x.slot fun w => (List.range 8).foldl (fun w k =>
      (lanesOf x.lanes).foldl (fun w l => w.setV (x.dest + k) l (m.acc.get 0 (64 * (row + k) + 32 * h + l))) w) w).markRegs
        c x.slot ((List.range 8).map (x.dest + ·))).dropVar c x.slot (2 ^ 40 + x.num)
  else
    let (s, x) := s.writeRows c x 256
    s.matrixFlags c x.slot x.flags

/-- A command retires (12 R255, R267): its effect, its entries and trackers. -/
def retireCmd (s : State) (c : Nat) (x : MCmd) : State :=
  let s := (s.effect c x).dropScore (opKey c x.num)
  x.trackers.foldl (fun s t =>
    (s.updTracker c t fun y => stamp { y with cmds := y.cmds - 1 } 4 false).trackerDone c t) s

/-- Retire what is due; then others may start. -/
def retireMatrix (s : State) (c : Nat) : State :=
  let now := (s.core c).cyc
  let s := match (s.cc c).matrix.loading with
    | some x => if x.due ≤ now then (s.updMatrix c fun m => { m with loading := none }).retireCmd c x else s
    | none => s
  let s := match (s.cc c).matrix.running with
    | some x => if x.due ≤ now then (s.updMatrix c fun m => { m with running := none }).retireCmd c x else s
    | none => s
  s.startMatrix c

end State

def execMsignCount (sc : BitVec 2) (n : BitVec 4) (c : BitVec 12) (s : State) : Host.Outcome State Fault Refusal :=
  .next (s.issue (.msignCount sc n c) sc (State.msignBody n (c.setWidth 32)))
def execMsignReg (sc : BitVec 2) (n : BitVec 4) (a : BitVec 6) (s : State) : Host.Outcome State Fault Refusal :=
  .next (s.issue (.msignReg sc n a) sc fun s => s.msignBody n (s.us a))
def execLdw (sc : BitVec 2) (a : BitVec 6) (s : State) : Host.Outcome State Fault Refusal :=
  .next (s.issue (.ldw sc a) sc (State.ldwBody a))
def execWswap (sc : BitVec 2) (s : State) : Host.Outcome State Fault Refusal :=
  .next (s.issue (.wswap sc) sc State.wswapBody)
def execMma (sc : BitVec 2) (d a : BitVec 6) (z : BitVec 1) (s : State) : Host.Outcome State Fault Refusal :=
  .next (s.issue (.mma sc d a z) sc (State.mmaBody d a z))
def execMmat (sc : BitVec 2) (d a : BitVec 6) (s : State) : Host.Outcome State Fault Refusal :=
  .next (s.issue (.mmat sc d a) sc (State.mmatBody d a))
def execMperm (sc : BitVec 2) (d a : BitVec 6) (s : State) : Host.Outcome State Fault Refusal :=
  .next (s.issue (.mperm sc d a) sc (State.mpermBody d a))
def execMred (sc : BitVec 2) (d a : BitVec 6) (s : State) : Host.Outcome State Fault Refusal :=
  .next (s.issue (.mred sc d a) sc (State.mredBody d a))
def execMrd (sc : BitVec 2) (d a : BitVec 6) (s : State) : Host.Outcome State Fault Refusal :=
  .next (s.issue (.mrd sc d a) sc (State.mrdBody d a))
def execMst (sc : BitVec 2) (d a : BitVec 6) (s : State) : Host.Outcome State Fault Refusal :=
  .next (s.issue (.mst sc d a) sc (State.mstBody d a))
def execMzero (sc : BitVec 2) (d : BitVec 6) (s : State) : Host.Outcome State Fault Refusal :=
  .next (s.issue (.mzero sc d) sc (State.mzeroBody d))

/-- MATRIX_COMMAND_START. -/
def execMatrixCommandStart (core : Nat) (s : State) : Host.Outcome State Fault Refusal :=
  if !coreOk core then .fault .noSuchUnit else .next (s.startMatrix core)
/-- MATRIX_COMMAND_RETIRE. -/
def execMatrixCommandRetire (core : Nat) (s : State) : Host.Outcome State Fault Refusal :=
  if !coreOk core then .fault .noSuchUnit else .next (s.retireMatrix core)

end Sys2Proof.Machine
end

