-- ==== Sys2Proof/Machine/System.lean ====
section
/-! DEFINITION. System instructions (11 R230 to R238): fences, cache maintenance, register blocks, work claiming with
the steal protocol (13 R282), device-side launch, return from a trap, services (16 R327) and checkpoints. -/

namespace Sys2Proof.Machine

/-! ## Queue control blocks (13 R278) -/

def qcbBase (b : Block) : DWord := b.extractLsb' 0 64
def qcbQlog (b : Block) : Nat := bitsOf b.toNat 68 64
def qcbPub (b : Block) : DWord := b.extractLsb' 128 64
def qcbTkt (b : Block) : DWord := b.extractLsb' 192 64
def qcbDone (b : Block) : DWord := b.extractLsb' 256 64
def qcbPmask (b : Block) : Word := b.extractLsb' 320 32
/-- May the block be served? -/
def qcbOk (b : Block) : Bool :=
  bitsOf b.toNat 511 352 = 0 && bitsOf b.toNat 127 69 = 0 && 1 ≤ qcbQlog b && qcbQlog b ≤ 16 &&
    (qcbBase b).toNat % (64 * 2 ^ qcbQlog b) = 0
/-- The address of entry i. -/
def qcbSlot (b : Block) (i : DWord) : DWord := qcbBase b + BitVec.ofNat 64 (64 * (i.toNat % 2 ^ qcbQlog b))

namespace State

/-- A 64-byte record at a virtual address. -/
def readBlock (s : State) (d h kind : Nat) (va : DWord) : Except AccFail (State × Block) :=
  match s.vaRead d h kind va 64 with
  | .ok (s, bs) => .ok (s, BitVec.ofNat 512 (leNat bs))
  | .error e => .error e

/-! ## Fences and cache maintenance -/

/-- FENCE (11 R230; 06 R104 to R106). -/
def fenceBody (e : BitVec 3) (k : BitVec 2) (s : State) : Did :=
  let acq (s : State) : Did :=
    if k = 1#2 then .done s .fall
    else if s.warpBusy s.cur.core s.cur.slot then .wait s
    else .done (s.acquireAt s.cur.core e.toNat) .fall
  if k = 0#2 then acq s else s.afterRelease e.toNat acq

/-- CMNT on one line (06 R111). -/
def cmntLine (s : State) (o level pa : Nat) : State :=
  let c := s.cur.core
  let line := lineOf pa
  let s := if o = 0 then s.l1WriteBack c line else s.l1Drop c line
  if level = 0 then s else
  let dies := if level = 2 && (isTier pa || isPeer pa) then [0, 1, 2, 3] else [homeDie pa s.myDie]
  dies.foldl (fun s d => if o = 0 then s.l2Clean d line else s.l2Drop d line) s
/-- CMNT on the pages of a range, ascending (11 R231): the failure of a page ends it. -/
def cmntPages (o level : Nat) : List (Nat × Nat) → State → State × Option AccFail
  | [], s => (s, none)
  | (a, k) :: rest, s =>
    let s := s.meet false (s.coreWalkHold s.cur.core s.myCtx (BitVec.ofNat 64 a))
    match s.coreCheck s.cur.core s.myCtx kCmnt (BitVec.ofNat 64 a) with
    | .error f => (s, some f)
    | .ok x =>
      let s := s.coreWalk s.cur.core s.myCtx (BitVec.ofNat 64 a)
      if pteCtr x.tlb.entry || pteCache x.tlb.entry = 2 then cmntPages o level rest s
      else
        let first := lineOf x.pa
        let n := lineOf (x.pa + k - 1) + 1 - first
        cmntPages o level rest ((List.range n).foldl (fun s i => s.cmntLine o level ((first + i) * 128)) s)
def cmntBody (a b : BitVec 6) (l o : BitVec 2) (s : State) : Did :=
  let n := (s.us b).toNat
  if n = 0 then .done s .fall
  else if s.warpBusy s.cur.core s.cur.slot || !s.releasable s.cur.core 4 then .wait s
  else match cmntPages o.toNat l.toNat (chunks 4096 (n / 4096 + 2) (s.us64 a).toNat n) s with
    | (s, none) => .done s .fall
    | (s, some f) => .trap s (s.accTrap s.firstLane f)

/-! ## Register blocks -/

def maskBlocks (m : BitVec 7) : List Nat := (List.range 7).filter fun b => m.getLsbD b
/-- REGBLOCK of RACQ (2) and RREL (3) (20 R372). -/
def allocTrap (s : State) (reason : Nat) (bs : List Nat) : TrapInfo := blockInfo reason bs s.cur.word s.cur.pc

def racqBody (m : BitVec 7) (s : State) : Did :=
  let bad := (maskBlocks m).filter s.me.mapped
  if !bad.isEmpty then .trap s (s.allocTrap 2 bad)
  else
    let s := s.updMe fun w => w.updSched fun x =>
      { x with racq := x.racq ++ [{ mask := m.toNat, lanes := s.cur.lanes, pc := s.cur.pc }] }
    let s := s.updCore s.cur.core fun x => { x with racqQ := x.racqQ ++ [s.cur.slot] }
    .done (s.serveBlocks s.cur.core 33) .stay
def racqNbBody (m : BitVec 7) (p : BitVec 2) (s : State) : Did :=
  let bad := (maskBlocks m).filter s.me.mapped
  if !bad.isEmpty then .trap s (s.allocTrap 2 bad)
  else if !(s.core s.cur.core).racqQ.isEmpty || (s.freeBlocks s.cur.core).length < (maskBlocks m).length then
    .done (s.varResult none p.toNat false) .fall
  else .done ((s.mapBlocks s.cur.core s.cur.slot (maskBlocks m)).varResult none p.toNat true) .fall
def rrelBody (m : BitVec 7) (s : State) : Did :=
  let bad := (maskBlocks m).filter fun b => !s.me.mapped b
  if !bad.isEmpty then .trap s (s.allocTrap 3 bad)
  else if blocksPend s.me m.toNat then
    .done (s.updMe fun w => w.updSched fun x =>
      { x with rrel := x.rrel ++ [{ mask := m.toNat, lanes := s.cur.lanes, pc := s.cur.pc }] }) .stay
  else .done (s.unmapBlocks s.cur.core s.cur.slot m.toNat) .fall

/-! ## Work claiming -/

/-- A core of a lazy launch in steal messages: its launch and its place there. A context that moves keeps both. -/
def lazyName (l j : Nat) : Nat := l * 2 ^ 20 + j
def isLazy (l j : Nat) (x : CoreCtx) : Bool := x.lazyLaunch = some l && x.lazyIndex = j
/-- The core on which a place of a lazy launch stands now. -/
def lazyCore (s : State) (l j : Nat) : Option Nat := (s.cores.find? fun e => isLazy l j e.2.cc).map Prod.fst
/-- Parts of contexts off the core arrays. -/
def savedParts (s : State) : List SavedPart :=
  s.parts.filterMap (fun e => e.2.standby) ++ s.ctxs.flatMap fun e => (e.2.images.map Prod.snd).filter fun x => !x.loaded
/-- The core context of a place, wherever it stands. -/
def lazyCc (s : State) (l j : Nat) : Option CoreCtx :=
  match s.lazyCore l j with
  | some c => some (s.cc c)
  | none => ((s.savedParts.flatMap fun p => p.cores.map Prod.snd).find? (isLazy l j))
def updLazy (s : State) (l j : Nat) (f : CoreCtx → CoreCtx) : State :=
  let g (x : CoreCtx) : CoreCtx := if isLazy l j x then f x else x
  let part (p : SavedPart) : SavedPart := if p.loaded then p else { p with cores := p.cores.map fun e => (e.1, g e.2) }
  let cores : Map Core := s.cores.map fun e => (e.1, { e.2 with cc := g e.2.cc })
  let parts : Map Part := s.parts.map fun e => (e.1, { e.2 with standby := e.2.standby.map part })
  let ctxs : Map Context := s.ctxs.map fun e => (e.1, { e.2 with images := e.2.images.map fun i => (i.1, part i.2) })
  { s with cores := cores, parts := parts, ctxs := ctxs }

/-- The first index of part i of n shares of a grid (13 R281, R282). -/
def shareBase (grid n i : Nat) : Nat := i * grid / max 1 n
/-- The lazy range of a place whose core has not started (13 R282). -/
def unstartedRange (s : State) (l j : Nat) : Nat × Nat :=
  let r := s.launch l
  let n := r.lazy.length
  if n ≤ j || r.cores.contains (r.lazy.getD j 0) then (0, 0) else
  (shareBase (ldGrid r.desc) n j, (r.ends.find j).getD (shareBase (ldGrid r.desc) n (j + 1)))

/-- From now on the first waiting request of a place is its RNEXT's, or in 1,024 cycles its agent's (13 R282). -/
def armSteal (s : State) (l j : Nat) : State :=
  match s.lazyCore l j with
  | some c =>
    (s.updCc c fun x => { x with stealSince := (s.core c).cyc }).postAfter c 1024 (.stealAgentTimeout (lazyName l j))
  | none => s
/-- Forward a request to the next core, or answer none where it has passed every other. -/
def passSteal (s : State) (l j i : Nat) : State :=
  let next := (j + 1) % max 1 (s.launch l).lazy.length
  if next = i then s.post (.stealReply (lazyName l i) 0 0) else s.post (.stealRequest (lazyName l next) (lazyName l i))
/-- Forward the requests that wait at a place whose range holds fewer than 2 indices (13 R282). `n` bounds their number. -/
def forwardSteals (s : State) (l j : Nat) : Nat → State
  | 0 => s
  | n + 1 =>
    match s.lazyCc l j with
    | none => s
    | some x =>
      match x.steals with
      | [] => s
      | i :: rest =>
        if 2 ≤ x.lazyEnd - x.lazyNext then s.armSteal l j else
        let s := (s.updLazy l j fun y => { y with steals := rest }).passSteal l j i
        forwardSteals s l j n
/-- Serve the first waiting request of a place with the upper half of its range. -/
def serveSteal (s : State) (l j : Nat) : State :=
  match s.lazyCc l j with
  | none => s
  | some x =>
    match x.steals with
    | [] => s
    | i :: rest =>
      if x.lazyEnd - x.lazyNext < 2 then s else
      let h := (x.lazyEnd - x.lazyNext) / 2
      let s := s.updLazy l j fun y => { y with steals := rest, lazyEnd := y.lazyEnd - h }
      (s.post (.stealReply (lazyName l i) (x.lazyEnd - h) x.lazyEnd)).forwardSteals l j 65

/-- RNEXT (11 R233). -/
def rnextBody (d : BitVec 6) (p : BitVec 2) (s : State) : Did :=
  let c := s.cur.core
  let x := s.cc c
  if (x.warps.any fun e => e.2.sched.rnext.isSome) || (s.core c).fw.sched.rnext.isSome then .wait s else
  match x.lazyLaunch with
  | none => .done (s.varResult none p.toNat false) .fall
  | some l =>
    let s := s.serveSteal l x.lazyIndex
    let x := s.cc c
    if x.lazyNext < x.lazyEnd then
      let s := (s.updCc c fun y => { y with lazyNext := y.lazyNext + 1 }).forwardSteals l x.lazyIndex 65
      .done (s.varResult (some (d.toNat, BitVec.ofNat 32 x.lazyNext)) p.toNat true) .fall
    else
      let n := (s.launch l).lazy.length
      if n ≤ 1 then .done (s.varResult none p.toNat false) .fall else
      let (r, s) := s.newReq
      let s := (s.addVar .uni d.toNat 1 s.cur.lanes r).addVar .upred p.toNat 1 s.cur.lanes r
      let q : RnextWait := { dest := d.toNat, pred := p.toNat, lanes := s.cur.lanes, pc := s.cur.pc, req := r }
      let s := s.updMe fun w => w.updSched fun y => { y with rnext := some q }
      let s := if x.stealOut then s else
        (s.updCc c fun y => { y with stealOut := true }).post
          (.stealRequest (lazyName l ((x.lazyIndex + 1) % n)) (lazyName l x.lazyIndex))
      .done s .stay

/-- The agent of a core that has not started serves the requests that wait for its range, in order (13 R282). -/
def serveUnstarted (s : State) (l j : Nat) : State :=
  let asks := (s.launch l).asks.get [] j
  let s := s.updLaunch l fun r => { r with asks := r.asks.del j }
  asks.foldl (fun (s : State) i =>
    let e := s.unstartedRange l j
    if e.2 < e.1 + 2 then s.passSteal l j i else
    let h := (e.2 - e.1) / 2
    (s.updLaunch l fun r => { r with ends := r.ends.set j (e.2 - h) }).post (.stealReply (lazyName l i) (e.2 - h) e.2)) s

/-- A steal request reaches a core (13 R282). -/
def stealAt (s : State) (core requester : Nat) : State :=
  let l := core / 2 ^ 20
  let j := core % 2 ^ 20
  match s.lazyCc l j with
  | none =>
    let e := s.unstartedRange l j
    if e.2 < e.1 + 2 then s.passSteal l j (requester % 2 ^ 20)
    else
      let c := (s.launch l).lazy.getD j 0
      (s.updLaunch l fun r => { r with asks := r.asks.upd [] j fun q => q ++ [requester % 2 ^ 20] }).postAfter c 1024
        (.stealAgentTimeout (lazyName l j))
  | some x =>
    let s := s.updLazy l j fun y => { y with steals := y.steals ++ [requester % 2 ^ 20] }
    if x.steals.isEmpty then s.forwardSteals l j 65 else s
/-- The agent's turn: 1,024 cycles have passed with no RNEXT that served the request. -/
def stealTimeout (s : State) (core : Nat) : State :=
  let l := core / 2 ^ 20
  let j := core % 2 ^ 20
  match s.lazyCore l j with
  | none => s.serveUnstarted l j
  | some c =>
    if (s.cc c).stealSince + 1024 ≤ (s.core c).cyc then (s.serveSteal l j).forwardSteals l j 65 else s

/-- A steal reply (11 R233): the range `[lo, hi)`, none where it is empty. -/
def stealAnswer (s : State) (core lo hi : Nat) : State :=
  let l := core / 2 ^ 20
  let j := core % 2 ^ 20
  let take (n : Nat) (s : State) : State := s.updLazy l j fun x =>
    if lo < hi then { x with stealOut := false, lazyNext := lo + n, lazyEnd := hi } else { x with stealOut := false }
  match s.lazyCore l j with
  | none => take 0 s
  | some c =>
    match ((s.cc c).warps ++ [(fwSlot, (s.core c).fw)]).find? fun e => e.2.sched.rnext.isSome with
    | none => take 0 s
    | some (k, w) =>
      match w.sched.rnext with
      | none => take 0 s
      | some q =>
        let s := (take 1 s).updWarp c k fun w =>
          let w := if lo < hi then (w.setS q.dest (BitVec.ofNat 32 lo)).setSp q.pred true else w.setSp q.pred false
          (w.updSched fun x => { x with rnext := none }).updLanes q.lanes fun _ y =>
            if y.state = .runnable && y.pc = q.pc then { y with pc := q.pc + 4 } else y
        (s.dropVar c k q.req).forwardSteals l j 65

/-! ## Launch, services, checkpoints -/

/-- The agent of a core's launch queue, in the events that name agents; 8 × die + partition names others. -/
def coreAgent (c : Nat) : Nat := 1024 + c

/-- LAUNCH (11 R234). -/
def launchBody (a : BitVec 6) (s : State) : Did :=
  let va := s.us64 a
  let c := s.cur.core
  s.afterRelease 4 fun s =>
    if va.toNat % 64 != 0 then .trap s (s.accTrap s.firstLane (accFail 4 kRecord va)) else
    match s.readBlock s.myDie s.myCtx kRecord va with
    | .error e => .trap s (s.accTrap s.firstLane e)
    | .ok (s, desc) =>
      if 16 ≤ (s.cc c).launchQ.length then .wait s else
      let s := s.updCc c fun x => { x with launchQ := x.launchQ ++ [(va.toNat, desc)] }
      .done (s.post (.launchDescriptorTake (coreAgent c) s.myCtx va.toNat desc)) .fall

/-- The queue control block of service k of a context, if it has one (16 R327). -/
def serviceBlock (s : State) (d h k : Nat) : Option (State × Block) :=
  let x := s.ctx h
  if x.svctab = 0#64 || !x.hasFeat featSvc then none else
  match s.vaRead d h kLoad (x.svctab + BitVec.ofNat 64 (16 * k)) 16 with
  | .error _ => none
  | .ok (s, bs) =>
    if (leNat bs).testBit 63 then
      match s.readBlock d h kLoad (BitVec.ofNat 64 (leNat (bs.drop 8))) with
      | .ok (s, b) => if qcbOk b then some (s, b) else none
      | .error _ => none
    else none

/-- SVC (11 R237): the record becomes entry `pub` of the service's queue. -/
def svcBody (n a : BitVec 6) (s : State) : Did :=
  let va := s.us64 a
  let k := s.us n
  let d := s.myDie
  let h := s.myCtx
  let none_ (s : State) : Did := .trap s (s.trapAt grpService k.toNat (lo32 va) (hi32 va))
  if k &&& 0xFFFF0000#32 != 0#32 then .trap s (s.encTrap .fixedField k)
  else if va.toNat % 64 != 0 then .trap s (s.accTrap s.firstLane (accFail 4 kRecord va))
  else s.afterRelease 4 fun s =>
    match s.readBlock d h kRecord va with
    | .error e => .trap s (s.accTrap s.firstLane e)
    | .ok (s, rec) =>
      match s.serviceBlock d h k.toNat with
      | none => none_ s
      | some (s, b) =>
        match s.agentHome d h (qcbPub b), s.ctrHomeOf s.cur.core h 0 kCtrRead (.addr (qcbDone b)) with
        | some pub, .ok done =>
          let i := s.ctrRead d pub
          let s := (s.meet true (s.ctrHold pub true)).meet true ((s.lastAdd h).map addKey)
          if s.ctrLost d done then .wait s
          else if 2 ^ qcbQlog b ≤ i.toNat - (s.ctrRead d done).toNat then .wait s
          else match s.vaWrite d h kStore (qcbSlot b i) (leBytes 64 rec.toNat) with
            | .error _ => none_ s
            | .ok s => .done (s.agentAdd s.cur.core h .count (qcbPub b) 1 4) .fall
        | _, _ => none_ s

/-- Are intervals configured for the context (14 R301): ALM is accepted and the control block has EN = 1? -/
def almanacOn (s : State) (d h : Nat) : State × Bool :=
  let x := s.ctx h
  if !x.hasFeat featAlm || x.almcb = 0#64 then (s, false) else
  match s.readBlock d h kLoad x.almcb with
  | .ok (s, b) => (s, b.getLsbD 0)
  | .error _ => (s, true)

/-- A CKPT reaches the Almanac with the add it owes, if it owes one (11 R238). -/
def askClose (s : State) (add : Option (DWord × Word)) : State :=
  let h := s.myCtx
  let (s, on) := s.almanacOn s.myDie h
  if on then (s.updAlm h fun x => { x with waiting := x.waiting ++ [add] }).post (.cut h)
  else match add with
    | some (va, inc) => s.agentAdd s.cur.core h .ckpt va inc 4
    | none => s

def ckptBody (s : State) : Did := s.afterRelease 4 fun s => .done (s.askClose none) .fall
def ckptCounterBody (a b : BitVec 6) (s : State) : Did :=
  let va := s.us64 a
  let found := s.ctrHomeOf s.cur.core s.myCtx s.me.team kCtrAdd (.addr va)
  s.walked [va] fun walked =>
  match found with
  | .error e => .trap s (s.accTrap s.firstLane e)
  | .ok _ => walked.afterRelease 4 fun s => .done (s.askClose (some (va, s.us b))) .fall

end State

def execFence (sc : BitVec 2) (e : BitVec 3) (k : BitVec 2) (s : State) : Host.Outcome State Fault Refusal :=
  .next (s.issue (.fence sc e k) sc (State.fenceBody e k))
def execCmnt (sc : BitVec 2) (a b : BitVec 6) (l o : BitVec 2) (s : State) : Host.Outcome State Fault Refusal :=
  .next (s.issue (.cmnt sc a b l o) sc (State.cmntBody a b l o))
def execRacq (sc : BitVec 2) (m : BitVec 7) (s : State) : Host.Outcome State Fault Refusal :=
  .next (s.issue (.racq sc m) sc (State.racqBody m))
def execRacqNb (sc : BitVec 2) (m : BitVec 7) (p : BitVec 2) (s : State) : Host.Outcome State Fault Refusal :=
  .next (s.issue (.racqNb sc m p) sc (State.racqNbBody m p))
def execRrel (sc : BitVec 2) (m : BitVec 7) (s : State) : Host.Outcome State Fault Refusal :=
  .next (s.issue (.rrel sc m) sc (State.rrelBody m))
def execRnext (sc : BitVec 2) (d : BitVec 6) (p : BitVec 2) (s : State) : Host.Outcome State Fault Refusal :=
  .next (s.issue (.rnext sc d p) sc (State.rnextBody d p))
def execLaunch (sc : BitVec 2) (a : BitVec 6) (s : State) : Host.Outcome State Fault Refusal :=
  .next (s.issue (.launch sc a) sc (State.launchBody a))
/-- RFT (11 R236; 20 R369): the copies whose COPY traps were taken are tried again (12 R253). -/
def execRft (sc : BitVec 2) (s : State) : Host.Outcome State Fault Refusal :=
  .next (s.issue (.rft sc) sc fun s =>
    .done ((s.returnFromTrap s.cur.core s.cur.slot s.cur.lanes).retryCopies s.cur.core s.cur.slot) .stay)
def execSvc (sc : BitVec 2) (d a : BitVec 6) (s : State) : Host.Outcome State Fault Refusal :=
  .next (s.issue (.svc sc d a) sc (State.svcBody d a))
def execCkpt (sc : BitVec 2) (s : State) : Host.Outcome State Fault Refusal :=
  .next (s.issue (.ckpt sc) sc State.ckptBody)
def execCkptCounter (sc : BitVec 2) (a b : BitVec 6) (s : State) : Host.Outcome State Fault Refusal :=
  .next (s.issue (.ckptCounter sc a b) sc (State.ckptCounterBody a b))

/-- STEAL_REQUEST. -/
def execStealRequest (core requester : Nat) (s : State) : Host.Outcome State Fault Refusal :=
  .next (s.stealAt core requester)
/-- STEAL_AGENT_TIMEOUT. -/
def execStealAgentTimeout (core : Nat) (s : State) : Host.Outcome State Fault Refusal := .next (s.stealTimeout core)
/-- STEAL_REPLY. -/
def execStealReply (core lo hi : Nat) (s : State) : Host.Outcome State Fault Refusal := .next (s.stealAnswer core lo hi)

end Sys2Proof.Machine
end

