-- ==== Sys2Proof/Machine/Trace.lean ====
section
/-! DEFINITION. The trace ring (17 R334 to R337): the records that a core has buffered go into its context's ring. -/

namespace Sys2Proof.Machine

namespace State

/-- A record is dropped and counted (17 R337). -/
def dropRecord (s : State) (c : Nat) : State := (s.updCore c fun x => { x with lost := x.lost + 1 }).countEv c 0x0F 1

/-- Put one record into the ring (17 R337): a position, the first 56 bytes, a release, POS. -/
def putRecord (s : State) (c : Nat) (rec : Block) : State :=
  let b := (s.core c).traceBlk
  let h := (s.cc c).ctx
  let d := dieOfCore c
  let failed (s : State) : State := (s.agentAddFails c h .count (.addr (tcbTpos b)) 1).dropRecord c
  match s.agentHome d h (tcbTpos b) with
  | none => failed s
  | some home =>
    match s.ctrAdd d h home 1 with
    | none => failed s
    | some (p, s) =>
      let at_ := tcbBase b + BitVec.ofNat 64 (64 * (p.toNat % 2 ^ tcbQlog b))
      match s.vaWrite d h kStore at_ (leBytes 56 rec.toNat) with
      | .error _ => s.dropRecord c
      | .ok s =>
        match s.vaWrite d h kStore (at_ + 56) (leBytes 8 (p.toNat + 1)) with
        | .ok s => s.charge d 1 64
        | .error _ => s.dropRecord c

/-- A LOST record stands before the next one after drops: its count goes to LCTR (17 R336, R337). -/
def putLost (s : State) (c : Nat) : State :=
  let x := s.core c
  if x.lost = 0 then s else
  let b := x.traceBlk
  let n := BitVec.ofNat 32 x.lost
  let s := s.updCore c fun y => { y with lost := 0 }
  let s := if tcbKen b 8 then s.putRecord c (s.traceHead c 8 0 0 0 (s.cc c).lastRgns (n.setWidth 320)) else s
  if tcbLctr b = 0#64 then s else s.agentAdd c (s.cc c).ctx .count (tcbLctr b) n 4

/-- Write the oldest buffered record of a core; it waits where ABUD1 or the counter's home holds it. -/
def writeTrace (s : State) (c : Nat) : State :=
  let x := s.core c
  let d := dieOfCore c
  match x.trace with
  | [] => s
  | rec :: rest =>
    if tcbQlog x.traceBlk = 0 then s.updCore c fun y => { y with trace := [] } else
    if s.budgetOut d 1 then s.hold (budgetKey d 1) false (.traceRecordWrite c) else
    match (s.agentHome d (s.cc c).ctx (tcbTpos x.traceBlk)).bind fun home => s.ctrHold home true with
    | some key => s.hold key true (.traceRecordWrite c)
    | none => ((s.putLost c).updCore c fun y => { y with trace := rest }).putRecord c rec

/-- At a stop the buffered records are written, or dropped where ABUD1 holds them (17 R347). `n` bounds their number. -/
def flushTrace (s : State) (c : Nat) : Nat → State
  | 0 => s
  | n + 1 =>
    match (s.core c).trace with
    | [] => s
    | rec :: rest =>
      let s := s.updCore c fun y => { y with trace := rest }
      if s.budgetOut (dieOfCore c) 1 || tcbQlog (s.core c).traceBlk = 0 then flushTrace (s.dropRecord c) c n
      else flushTrace ((s.putLost c).putRecord c rec) c n

end State

/-- TRACE_RECORD_WRITE. -/
def execTraceRecordWrite (core : Nat) (s : State) : Host.Outcome State Fault Refusal :=
  if !coreOk core then .fault .noSuchUnit else .next (s.writeTrace core)

end Sys2Proof.Machine
end

