-- ==== Sys2Proof/Machine/Vigil.lean ====
section
/-! DEFINITION. Token watchpoints (12 R268 to R272; 15): the checks of the four commands, one step of a slot, drafts and
their confirmation, arm records, and the answers. -/

namespace Sys2Proof.Machine

/-! ## One step (15 R312 to R315) -/

/-- Push a token: the newest 8 stay. -/
def pushToken (h : List Word) (t : Word) : List Word := (t :: h).take 8
/-- Does a token belong to a class of a context's ranges? Class 16 takes every token. -/
def inClass (ranges : List ClassRange) (c : Nat) (t : Word) : Bool :=
  c = 16 || ranges.any fun r => r.valid && r.cls = c && r.lo ≤ t.toNat && t.toNat ≤ r.hi
/-- Count a token into every budget. -/
def countToken (x : VSlot) (ranges : List ClassRange) (m : Map DWord) (t : Word) : Map DWord :=
  [0, 1, 2, 3].foldl (fun m b =>
    if inClass ranges (x.budgets.get {} b).cls t then m.set b (BitVec.ofNat 64 (min (2 ^ 64 - 1) ((m.get 0 b).toNat + 1))) else m) m
/-- Does a watch entry match a history, newest first? -/
def matchesWatch (e : Watch) (h : List Word) : Bool :=
  e.len != 0 && e.act != 0 && e.len ≤ h.length && (List.range e.len).all fun i =>
    e.wild.testBit i || h.getD (e.len - 1 - i) 0 = e.pat.getD i 0

/-- Budgets that reach their limit: FIRED, the STOP of the lowest, the adds. -/
def fireBudgets (x : VSlot) (st : VState) : VState × Option VAction × List (DWord × Word) :=
  [0, 1, 2, 3].foldl (fun (r : VState × Option VAction × List (DWord × Word)) b =>
    let y := x.budgets.get {} b
    if y.act = 0 || r.1.fired.getLsbD b || r.1.counts.get 0 b < y.limit then r else
    let st := { r.1 with fired := r.1.fired ||| (1#4 <<< b) }
    if y.act = 1 then
      (st, (match r.2.1 with
        | some a => some a
        | none => some { act := 1, ent := b, bud := true, trp := y.trp }), r.2.2)
    else (st, r.2.1, r.2.2 ++ [(y.ctr, y.inc)])) (st, none, [])
/-- Watch entries that match. -/
def fireWatches (x : VSlot) (h : List Word) (a : Option VAction) : Option VAction × List (DWord × Word) :=
  (List.range 8).foldl (fun (r : Option VAction × List (DWord × Word)) e =>
    let y := x.watch.get {} e
    if !matchesWatch y h then r
    else if y.act = 4 then (r.1, r.2 ++ [(y.ctr, y.inc)])
    else match r.1 with
      | some a => (some a, r.2)
      | none => (some { act := y.act, ent := e, bud := false, trp := y.act = 1 && y.trp,
                        target := if y.act = 2 then y.target else 0, inj := if y.act = 3 then y.inj else [] }, r.2)) (a, [])

/-- The stopped result (15 R314). -/
def stoppedAction : VAction := { act := 1, ent := 0, bud := false, trp := false, std := true }

/-- One step on a state of a slot, its action not yet applied. -/
def slotStep (x : VSlot) (ranges : List ClassRange) (st : VState) (t : Word) : VState × Option VAction × List (DWord × Word) :=
  if st.stopped then (st, some stoppedAction, []) else
  let st := { st with hist := pushToken st.hist t, counts := countToken x ranges st.counts t }
  let (st, a, n) := fireBudgets x st
  let (a, m) := fireWatches x st.hist a
  (st, a, n ++ m)

/-- A slot as KIND 3 and assignment leave it (12 R272; 15 R310). -/
def clearSlot (x : VSlot) : VSlot := { owner := x.owner, nerr := x.nerr }

/-! ## Results (12 R269) -/

/-- The 8 words of a result. -/
def tokWords (a : Option VAction) (ntf held : Bool) (conf pend : Nat) : List Word :=
  let n (b : Bool) (k : Nat) : Nat := if b then 2 ^ k else 0
  let tail : Word := BitVec.ofNat 32 (min pend 15 * 16 + conf)
  if held || a.isNone then
    let std := match a with
      | some x => x.std
      | none => false
    [BitVec.ofNat 32 (n held 16 + n (held && std) 17 + n (!held && ntf) 23), 0, 0, 0, 0, 0, 0, tail]
  else match a with
    | none => []
    | some x =>
      let w := x.act * 2 ^ 28 + x.inj.length * 2 ^ 24 + n ntf 23 + n x.bud 22 + x.ent * 2 ^ 19 + n x.trp 18 + n x.std 17 + x.target
      let bytes := leNat (x.inj.flatMap fun t => leBytes 3 t.toNat)
      [BitVec.ofNat 32 w] ++ ((List.range 6).map fun i => BitVec.ofNat 32 (bytes / 2 ^ (32 * i))) ++ [tail]

namespace State

def vslot (s : State) (k : Nat) : VSlot := s.vigil.slots.get {} k
def updVslot (s : State) (k : Nat) (f : VSlot → VSlot) : State :=
  { s with vigil := { s.vigil with slots := s.vigil.slots.upd {} k f } }
/-- The range set of a context. -/
def classRanges (s : State) (h : Nat) : List ClassRange :=
  (s.vigil.ranges.filter fun e => e.1 / 64 = h).map Prod.snd

/-- The state that an INJECT leaves (15 R315): its tokens pushed and counted. -/
def injected (x : VSlot) (r : List ClassRange) (st : VState) (a : VAction) : VState :=
  if a.std || a.act != 3 then st else
  a.inj.foldl (fun st t => { st with hist := pushToken st.hist t, counts := countToken x r st.counts t }) st
/-- Carry out a STOP or FORK of slot k (15 R315, R316). -/
def applyAction (s : State) (core h k : Nat) (a : VAction) : State :=
  if a.std then s
  else if a.act = 1 then s.updVslot k fun x => { x with st := { x.st with stopped := true } }
  else if a.act = 2 then
    if (s.vslot a.target).owner != some h then s.setNerr core h k 2 else
    let st := (s.vslot k).st
    s.updVslot a.target fun x => { x with st := { st with stopped := false }, drafts := [] }
  else s

/-- Make the adds of notes (15 R316): at .sys where the counter stands in host memory, at .dev otherwise. -/
def makeNotes (s : State) (core h k : Nat) (notes : List (DWord × Word)) : State :=
  notes.foldl (fun (s : State) n =>
    let scope := match s.agentHome (dieOfCore core) h n.1 with
      | some home => if home.host then 5 else 4
      | none => 4
    s.agentAdd core h (.vigil k) n.1 n.2 scope) s

/-- The newest add of a slot that is still to be made. A step of the slot is whole once none is (15 R319). -/
def slotAdd (s : State) (k : Nat) : Option Nat :=
  ((s.ctrOps.filter fun e => e.2.agent = some (.vigil k)).map Prod.fst).getLast?

/-! ## The commands at issue (12 R268, R270 to R272) -/

/-- SEQUENCE (20 R372). -/
def seqTrap (s : State) (reason sub : Nat) (m : Mask) (t2 : Word) : TrapInfo :=
  s.trapAt grpSequence (reason * 4096 + sub * 256) m t2

/-- The submitting lanes with slot word and B operand. -/
def tokLanes (s : State) (a b : BitVec 7) : List (Nat × Word × Word) :=
  ((lanesOf s.cur.lanes).map fun l => (l, s.val a.toNat l, s.val b.toNat l)).filter fun e => !e.2.1.getLsbD 31
def tokSlot (w : Word) : Nat := bitsOf w.toNat 13 0

/-- The first failure of a lane (12 R268), 0 where there is none. `kind`: 0 TOKSUB, 1 TOKSUB.d, 2 TOKCONF. -/
def tokCheck (s : State) (kind : Nat) (ls : List (Nat × Word × Word)) (e : Nat × Word × Word) : Nat :=
  let k := tokSlot e.2.1
  let x := s.vslot k
  if bitsOf e.2.1.toNat 30 14 != 0 then 1
  else if x.owner != some s.myCtx then 2
  else if ls.any fun f => f.1 < e.1 && tokSlot f.2.1 = k then 3
  else if kind < 2 && bitsOf e.2.2.toNat 31 24 != 0 then 7
  else if kind = 0 && !x.drafts.isEmpty then 4
  else if kind = 1 && 8 ≤ x.drafts.length then 5
  else if kind = 2 && (8 < e.2.2.toNat || x.drafts.length < e.2.2.toNat) then 6
  else 0

/-- Is a command for one of the slots still on its way? -/
def slotsBusy (s : State) (ks : List Nat) : Bool :=
  s.vreqs.any fun e => e.2.kind < 3 && e.2.lanes.any fun l => ks.contains (tokSlot l.2.1)

/-- A lane's register of a uniform-set lane form (08 R148): D names v8k, A and B name lane registers. -/
def tokBody (kind : Nat) (d a b : BitVec 6) (s : State) : Did :=
  let lane (x : BitVec 6) : BitVec 7 := x.setWidth 7
  let ls := s.tokLanes (lane a) (lane b)
  if !(s.ctx s.myCtx).hasFeat featVigil then .trap s (s.accTrap s.firstLane (accFail 10 kLoad 0)) else
  if s.me.sched.tokarm != 0 || s.slotsBusy (ls.map fun e => tokSlot e.2.1) then .wait s else
  match ls.filter fun e => s.tokCheck kind ls e != 0 with
  | e :: rest =>
    let t := s.seqTrap 1 (s.tokCheck kind ls e) (maskOf fun l => (e :: rest).any fun f => f.1 = l) (BitVec.ofNat 32 (tokSlot e.2.1))
    .trap s { t with lv := true, lane := e.1 }
  | [] => s.afterRelease 4 fun s =>
    let (r, s) := s.newReq
    let skip := (lanesOf s.cur.lanes).filter fun l => ls.all fun e => e.1 != l
    let q : VigilReq :=
      { core := s.cur.core, slot := s.cur.slot, ctx := s.myCtx, kind := kind, lanes := ls.map fun e => (e.1, e.2)
        dest := d.toNat, group := s.cur.lanes, next := s.fallThrough
        result := (skip.flatMap fun l => (List.range 8).map fun i => (8 * l + i)).foldl (fun (m : Map Word) i => m.set i 0) [] }
    let s : State := { s with vreqs := s.vreqs.set r q }
    let s := s.addVar .lane d.toNat 8 s.cur.lanes r
    let ev : Instr := match ls with
      | [] => .vigilResultArrival r
      | e :: _ => if kind = 0 then .vigilStep r e.1 else if kind = 1 then .vigilDraftStep r e.1 else .vigilConfirm r e.1
    if kind = 1 then .done (s.post ev) .fall else .done ((s.keepAtHome r).post ev) .stay

/-! ## Arm records -/

def armKind (b : BitVec 1024) : Nat := bitsOf b.toNat 31 30
def armIndex (b : BitVec 1024) : Nat := bitsOf b.toNat 21 16
def armSlot (b : BitVec 1024) : Nat := bitsOf b.toNat 13 0
/-- Bytes [i, j) of a record as a number. -/
def armField (b : BitVec 1024) (i j : Nat) : Nat := bitsOf b.toNat (8 * j - 1) (8 * i)
/-- Are the bytes of a record outside the given ranges 0? -/
def armZero (b : BitVec 1024) (rs : List (Nat × Nat)) : Bool :=
  (List.range 124).all fun i => rs.any (fun r => r.1 ≤ i + 4 && i + 4 < r.2) || armField b (i + 4) (i + 5) = 0
/-- Is a record valid (12 R272; 15 R313)? -/
def armValid (s : State) (h : Nat) (b : BitVec 1024) : Bool :=
  let k := armSlot b
  let mine (n : Nat) : Bool := (s.vslot n).owner = some h
  let kind := armKind b
  if bitsOf b.toNat 29 22 != 0 || bitsOf b.toNat 15 14 != 0 then false
  else if kind = 0 then
    let act := armField b 30 31
    armZero b [(4, 32), (32, 34), (34, 35), (36, 60), (64, 76)] && armField b 31 32 ≤ 1 && armField b 32 34 < 2 ^ 14 &&
      armIndex b ≤ 7 && mine k && armField b 29 30 ≤ 8 && act ≤ 4 &&
      (act != 3 || (1 ≤ armField b 34 35 && armField b 34 35 ≤ 8)) &&
      (act != 2 || (armField b 32 34 != k && mine (armField b 32 34)))
  else if kind = 1 then
    let act := armField b 13 14
    armZero b [(4, 15), (16, 24), (64, 76)] && armField b 14 15 ≤ 1 && armIndex b ≤ 3 && mine k && armField b 12 13 ≤ 16 &&
      (act = 0 || act = 1 || act = 4)
  else if kind = 2 then
    armZero b [(4, 7), (8, 11), (12, 14)] && armField b 13 14 ≤ 1 && k = 0 && armField b 12 13 ≤ 15 &&
      armField b 4 7 ≤ armField b 8 11
  else armZero b [] && armIndex b = 0 && mine k

def tokarmBody (a b : BitVec 6) (s : State) : Did :=
  let va := s.us64 a
  let n := (s.us b).toNat
  let h := s.myCtx
  if !(s.ctx h).hasFeat featVigil then .trap s (s.accTrap s.firstLane (accFail 10 kRecord va))
  else if s.me.sched.tokarm != 0 then .wait s
  else if n = 0 || 256 < n then .trap s (s.seqTrap 3 1 0 (BitVec.ofNat 32 n))
  else s.afterRelease 4 fun s => match s.vaRead s.myDie h kRecord va (128 * n) with
    | .error e => .trap s (s.accTrap s.firstLane e)
    | .ok (s, bs) =>
      if va.toNat % 128 != 0 then .trap s (s.accTrap s.firstLane (accFail 4 kRecord va)) else
      let recs := (List.range n).map fun i => BitVec.ofNat 1024 (leNat ((bs.drop (128 * i)).take 128))
      match (List.range n).find? fun i => !s.armValid h (recs.getD i 0) with
      | some i => .trap s (s.seqTrap 3 0 0 (BitVec.ofNat 32 i))
      | none =>
        let (r, s) := s.newReq
        let q : VigilReq := { core := s.cur.core, slot := s.cur.slot, ctx := h, kind := 3, lanes := [], records := recs }
        let s : State := { s with vreqs := s.vreqs.set r q }
        let s := s.updMe fun w => w.updSched fun x => { x with tokarm := x.tokarm + 1 }
        .done (s.post (.vigilArmApply r)) .fall

/-! ## At the Vigil -/

/-- Post an event once the adds of a slot's last step have been made. -/
def afterStep (s : State) (k : Nat) (ev : Instr) : State :=
  match s.slotAdd k with
  | some j => s.hold (addKey j) false ev
  | none => s.post ev
/-- What follows a lane's step: the next lane's, in ascending order, or the answer (15 R319). -/
def nextLane (s : State) (i lane : Nat) (ev : Nat → Instr) : State :=
  match s.vreqs.find i with
  | none => s
  | some r =>
    let k := tokSlot (r.lanes.get (0, 0) lane).1
    match r.lanes.find? fun e => lane < e.1 with
    | some (l, _) => s.afterStep k (ev l)
    | none => s.afterStep k (.vigilResultArrival i)
/-- Keep a lane's result. -/
def putWords (s : State) (i lane : Nat) (r : VigilReq) (ws : List Word) : State :=
  let m := (List.range 8).foldl (fun (m : Map Word) j => m.set (8 * lane + j) (ws.getD j 0)) r.result
  { s with vreqs := s.vreqs.set i { r with result := m } }

/-- An uncorrectable error in a slot's state is found (22 R400, R404): the slot is cleared, stopped and marked NERR, and
record 0x51 is written. -/
def slotError (s : State) (core h k : Nat) : State :=
  let s : State := { s with damage := { s.damage with slots := s.damage.slots.filter (· != k) } }
  (s.updVslot k fun x => { clearSlot x with st := { stopped := true }, nerr := true }).faultRecord h 0x51 core 0
    (BitVec.ofNat 96 k)
/-- A lane's command `step` on its slot, which takes effect whole: an earlier one of the slot whose adds are not all made
comes first (15 R319), a slot that is not the context's or is damaged answers 0 (22 R400). -/
def laneStep (s : State) (i lane : Nat) (ev : Nat → Instr) (step : VigilReq → Word → Nat → State) : State :=
  match s.vreqs.find i with
  | none => s
  | some r =>
    let (w, t) := r.lanes.get (0, 0) lane
    let k := tokSlot w
    match s.slotAdd k with
    | some j => s.hold (addKey j) false (ev lane)
    | none =>
      let s := if (s.vslot k).owner != some r.ctx then s.putWords i lane r []
        else if s.damage.slots.contains k then (s.slotError r.core r.ctx k).putWords i lane { r with bad := true } []
        else step r t k
      s.nextLane i lane ev

/-- A lane's step on the real state (15 R314). -/
def realStep (s : State) (i lane : Nat) : State :=
  s.laneStep i lane (fun l => .vigilStep i l) fun r t k =>
    let x := s.vslot k
    let (st, a, notes) := slotStep x (s.classRanges r.ctx) x.st t
    let st := match a with
      | some a => injected x (s.classRanges r.ctx) st a
      | none => st
    let s := s.updVslot k fun x => { x with st := st }
    let s := match a with
      | some a => s.applyAction r.core r.ctx k a
      | none => s
    let s := s.makeNotes r.core r.ctx k notes
    s.putWords i lane r (tokWords a (!notes.isEmpty) false 0 (s.vslot k).drafts.length)

/-- A lane's step on the tentative state (15 R318). -/
def draftStep (s : State) (i lane : Nat) : State :=
  s.laneStep i lane (fun l => .vigilDraftStep i l) fun r t k =>
    let x := s.vslot k
    let base := match x.drafts.getLast? with
      | some d => d.snap
      | none => x.st
    let (st, a, notes) := slotStep x (s.classRanges r.ctx) base t
    let after := match a with
      | some a => injected x (s.classRanges r.ctx) st a
      | none => st
    let s := s.updVslot k fun x => { x with drafts := x.drafts ++ [{ snap := st, after := after, act := a, notes := notes }] }
    s.putWords i lane r (tokWords a false (a.isSome || !notes.isEmpty) 0 (x.drafts.length + 1))

/-- Drafts 1 to n up to the first that holds an action (12 R271). -/
def keptDrafts (n : Nat) (ds : List Draft) : List Draft :=
  let l := ds.take n
  match l.findIdx? fun d => d.act.isSome with
  | some i => l.take (i + 1)
  | none => l
/-- A lane's confirmation (15 R318). -/
def confirmStep (s : State) (i lane : Nat) : State :=
  s.laneStep i lane (fun l => .vigilConfirm i l) fun r n k =>
    let x := s.vslot k
    let kept := keptDrafts n.toNat x.drafts
    let a := kept.getLast?.bind Draft.act
    let notes := kept.flatMap Draft.notes
    let s := s.updVslot k fun x => { x with drafts := [], st := (kept.getLast?.map Draft.after).getD x.st }
    let s := match a with
      | some a => s.applyAction r.core r.ctx k a
      | none => s
    let s := s.makeNotes r.core r.ctx k notes
    s.putWords i lane r (tokWords a (!notes.isEmpty) false kept.length 0)

/-- Tokens of 3 bytes from byte i of a record. -/
def armTokens (b : BitVec 1024) (i n : Nat) : List Word :=
  (List.range n).map fun j => BitVec.ofNat 32 (armField b (i + 3 * j) (i + 3 * j + 3))
/-- Apply one record. -/
def armOne (s : State) (h : Nat) (b : BitVec 1024) : State :=
  let k := armSlot b
  if armKind b = 0 then
    let e : Watch :=
      { pat := armTokens b 4 8, wild := armField b 28 29, len := armField b 29 30, act := armField b 30 31
        trp := armField b 31 32 = 1, target := armField b 32 34, inj := armTokens b 36 (armField b 34 35)
        ctr := BitVec.ofNat 64 (armField b 64 72), inc := BitVec.ofNat 32 (armField b 72 76) }
    s.updVslot k fun x => { x with watch := x.watch.set (armIndex b) e }
  else if armKind b = 1 then
    let e : VBudget :=
      { limit := BitVec.ofNat 64 (armField b 4 12), cls := armField b 12 13, act := armField b 13 14
        trp := armField b 14 15 = 1, ctr := BitVec.ofNat 64 (armField b 64 72), inc := BitVec.ofNat 32 (armField b 72 76) }
    let i := armIndex b
    s.updVslot k fun x => { x with
      budgets := x.budgets.set i e
      st := { x.st with counts := x.st.counts.set i (BitVec.ofNat 64 (armField b 16 24)), fired := x.st.fired &&& ~~~(1#4 <<< i) } }
  else if armKind b = 2 then
    let e : ClassRange := { lo := armField b 4 7, hi := armField b 8 11, cls := armField b 12 13, valid := armField b 13 14 = 1 }
    { s with vigil := { s.vigil with ranges := s.vigil.ranges.set (64 * h + armIndex b) e } }
  else s.updVslot k clearSlot

/-- MACHINE of a damaged slot for the warp that submitted to it (22 R404). -/
def slotMachine (s : State) (r : VigilReq) : State :=
  if fwSlot < r.slot then s else s.pendAsync r.core r.slot (machineTrap 4 0 0)

/-- Apply the records of a TOKARM, between two steps of each slot concerned (12 R272). -/
def armApply (s : State) (i : Nat) : State :=
  match s.vreqs.find i with
  | none => s
  | some r =>
    let slots := (r.records.filter fun b => armKind b != 2).map armSlot
    match slots.findSome? s.slotAdd with
    | some j => s.hold (addKey j) false (.vigilArmApply i)
    | none =>
    let hurt := (slots.dedup.filter fun k => s.damage.slots.contains k && (s.vslot k).owner = some r.ctx)
    let s := hurt.foldl (fun s k => s.slotError r.core r.ctx k) s
    let s := if hurt.isEmpty then s else s.slotMachine r
    let own (b : BitVec 1024) : Bool := armKind b = 2 || (s.vslot (armSlot b)).owner = some r.ctx
    let s := (r.records.filter own).foldl (fun s b => s.armOne r.ctx b) s
    let s : State := { s with vreqs := s.vreqs.del i }
    if fwSlot < r.slot then s
    else s.updWarp r.core r.slot fun w => w.updSched fun x => { x with tokarm := x.tokarm - 1 }

/-- The answer: results, and SEQUENCE of a STOP with the trap flag (12 R270). It follows the adds of the steps. -/
def tokAnswer (s : State) (i : Nat) : State :=
  match s.vreqs.find i with
  | none => s
  | some r =>
    let ks := r.lanes.map fun e => tokSlot e.2.1
    if s.ctrOps.any fun e => e.2.ctx = r.ctx && ks.any (fun k => e.2.agent = some (.vigil k)) then
      s.post (.vigilResultArrival i)
    else
      let s : State := { s with vreqs := s.vreqs.del i }
      if r.group = 0#32 then s else
      let c := r.core
      let k := r.slot
      let s := s.updWarp c k fun w =>
        let w := r.result.foldl (fun (w : Warp) (e : Nat × Word) => w.setV (r.dest + e.1 % 8) (e.1 / 8) e.2) w
        w.updSched fun x => { x with atHome := x.atHome.filter fun e => e.1 != i }
      let s := (s.markRegs c k [r.dest]).dropVar c k i
      let s := if r.bad then s.slotMachine r else s
      if r.kind = 1 then s else
      let s := s.updWarp c k fun w => w.updLanes r.group fun _ l => { l with pc := r.next }
      let trp := r.lanes.filter fun e => (r.result.get 0 (8 * e.1)).getLsbD 18
      match trp with
      | [] => s
      | (l, w, _) :: _ =>
        let t : TrapInfo :=
          { group := grpSequence, code := 2 * 4096, async := false, lv := true, lane := l
            t1 := maskOf fun n => trp.any fun e => e.1 = n, t2 := BitVec.ofNat 32 (tokSlot w), epc := r.next }
        if (s.warp c k).held ((lanesOf r.group).headD 0) then
          s.updWarp c k fun w => w.updSched fun x => { x with due := x.due ++ [(r.group, t)] }
        else s.takeTrap c k r.group t

end State

def execToksub (sc : BitVec 2) (d a b : BitVec 6) (s : State) : Host.Outcome State Fault Refusal :=
  .next (s.issue (.toksub sc d a b) sc (State.tokBody 0 d a b))
def execToksubD (sc : BitVec 2) (d a b : BitVec 6) (s : State) : Host.Outcome State Fault Refusal :=
  .next (s.issue (.toksubD sc d a b) sc (State.tokBody 1 d a b))
def execTokconf (sc : BitVec 2) (d a b : BitVec 6) (s : State) : Host.Outcome State Fault Refusal :=
  .next (s.issue (.tokconf sc d a b) sc (State.tokBody 2 d a b))
def execTokarm (sc : BitVec 2) (a b : BitVec 6) (s : State) : Host.Outcome State Fault Refusal :=
  .next (s.issue (.tokarm sc a b) sc (State.tokarmBody a b))

/-- VIGIL_STEP. -/
def execVigilStep (req lane : Nat) (s : State) : Host.Outcome State Fault Refusal := .next (s.realStep req lane)
/-- VIGIL_DRAFT_STEP. -/
def execVigilDraftStep (req lane : Nat) (s : State) : Host.Outcome State Fault Refusal := .next (s.draftStep req lane)
/-- VIGIL_CONFIRM. -/
def execVigilConfirm (req lane : Nat) (s : State) : Host.Outcome State Fault Refusal := .next (s.confirmStep req lane)
/-- VIGIL_ARM_APPLY. -/
def execVigilArmApply (req : Nat) (s : State) : Host.Outcome State Fault Refusal := .next (s.armApply req)
/-- VIGIL_RESULT_ARRIVAL. -/
def execVigilResultArrival (req : Nat) (s : State) : Host.Outcome State Fault Refusal := .next (s.tokAnswer req)

end Sys2Proof.Machine
end

