-- ==== Sys2Proof/Machine/Preempt.lean ====
section
/-! DEFINITION. Stopping and restarting a partition (14 R290 to R295, R298; 03 R55, R56): the pause, the wait until
everything in flight has completed, the capture, and what goes on when a context runs again. -/

namespace Sys2Proof.Machine

/-- The core on which an agent runs: of partition p, or of a core's launch queue. -/
def agentCore (agent : Nat) : Nat := if agent < 1024 then 24 * agent else agent - 1024

/-- Is a command in the array frozen at a stop, or does it retire (14 R298)? -/
def freezes (opc : Nat) : Bool := (0x5B ≤ opc && opc ≤ 0x5E) || opc = 0x60

/-- An operation's key with its core's number shifted. -/
def shiftOp (op sub add : Nat) : Nat := (op / 2 ^ 32 - sub + add) * 2 ^ 32 + op % 2 ^ 32
/-- A core context with the keys of its scoreboard shifted from one partition to another. -/
def CoreCtx.shift (x : CoreCtx) (sub add : Nat) : CoreCtx :=
  { x with score := x.score.map fun e => { e with op := shiftOp e.op sub add } }

/-- A window descriptor with another owner, where it is valid (03 R419). -/
def ownedBy (d : DWord) (t : Nat) : DWord :=
  if wdV d then (d &&& ~~~(0x1F#64 <<< 51)) ||| (BitVec.ofNat 64 t <<< 51) else d

/-- A core context whose teams are admitted afresh (03 R419): they are numbered from 0 in the order of their old numbers
(DESIGN CHOICE: note 110), and the windows that they own follow. -/
def CoreCtx.readmit (x : CoreCtx) : CoreCtx :=
  let olds := x.teams.map Prod.fst
  if decide (olds = List.range olds.length) then x else
  let num (t : Nat) : Nat := if olds.contains t then olds.idxOf t else 32
  let cmd (m : MCmd) : MCmd := { m with team := num m.team }
  { x with
    teams := x.teams.map fun e => (num e.1, e.2)
    warps := x.warps.map fun e => (e.1, { e.2 with team := num e.2.team })
    copies := x.copies.map fun e => (e.1, { e.2 with team := num e.2.team })
    bins := x.bins.map fun e => (e.1, { e.2 with threads := e.2.threads.map fun y => (y.1, num y.2) })
    wdesc := x.wdesc.map fun e => (e.1, if olds.contains (wdOwner e.2) then ownedBy e.2 (num (wdOwner e.2)) else e.2)
    matrix := { x.matrix with queue := x.matrix.queue.map cmd, frozen := x.matrix.frozen.map cmd } }

namespace State

/-- Cores of a partition that have state, but for those that hold a part of the standby in place (14 R296). -/
def partCores (s : State) (p : Nat) : List Nat :=
  (s.cores.filter fun e => partOfCore e.1 = p && !e.2.gated).map Prod.fst
def eachCore (s : State) (p : Nat) (f : State → Nat → State) : State := (s.partCores p).foldl f s
def eachWarp (s : State) (c : Nat) (f : State → Nat → State) : State := ((s.cc c).warps.map Prod.fst).foldl f s

/-- Rows that a command in the array has completed by now (14 R298): a row's result is written 40 cycles after it
entered. -/
def rowsDone (s : State) (c : Nat) (x : MCmd) : Nat :=
  let f := s.cmdFmt c x
  let m := rcM x.rowctl
  let elapsed := (s.core c).cyc - (x.due - retiresIn x f)
  min m ((elapsed - 40) * m / max 1 (occupies x f))

/-- The header of a matrix save image (14 R298); `body` is its body's length. -/
def matrixHeader (x : Option MCmd) (body : BitVec 16) : BitVec 256 :=
  match x with
  | none => 0x0001#256
  | some x => 0#96 ++ x.mode ++ x.opword ++ x.rowctl ++ 0#9 ++ BitVec.ofNat 9 x.done ++ 0#6 ++ BitVec.ofNat 8 x.opc ++ body ++ 0x0001#16

/-- The array at a stop (14 R294, R298): the results of the rows that are done stand where they belong, those of the others
in the save image's body, whose length is not stated. -/
def pauseMatrix (s : State) (c : Nat) (drain : Bool) : State :=
  let s := match (s.cc c).matrix.running with
    | some x =>
      if freezes x.opc && !drain then
        let (s, x) := s.writeRows c x (s.rowsDone c x)
        let (len, s) := s.fresh
        s.updMatrix c fun m => { m with running := none, frozen := some { x with due := x.due - (s.core c).cyc },
                                        header := matrixHeader (some x) (len.extractLsb' 0 16) }
      else s.updMatrix c fun m => { m with header := matrixHeader none 0 }
    | none => s.updMatrix c fun m => { m with header := if m.frozen.isSome then m.header else matrixHeader none 0 }
  s.updMatrix c fun m => match m.loading with
    | some x => { m with loading := none, queue := x :: m.queue }
    | none => m

/-- Waits that restart from their beginning (14 R294). -/
def pauseWarp (s : State) (c k : Nat) : State :=
  let s := match (s.warp c k).sched.rnext with
    | some q => s.dropVar c k q.req
    | none => s
  s.updWarp c k fun w => w.updSched fun x => { x with racq := [], rnext := none }

/-- A partition issues no more (14 R290); the firmware slot goes on. -/
def pausePart (s : State) (p : Nat) (drain : Bool) : State :=
  let s := s.updPart p fun x => { x with paused := true }
  s.eachCore p fun s c =>
    let s := (s.pauseMatrix c drain).eachWarp c fun s k => s.pauseWarp c k
    (s.updCore c fun x => { x with racqQ := x.racqQ.filter (· = fwSlot) }).serveBlocks c 33

/-- Is an event the count of a core's batches, which a release of theirs has held up (06 R114)? -/
def isPump (p : Nat) : Instr → Bool
  | .copyComplete c n => partOfCore c = p && decide (2 ^ 32 ≤ n)
  | _ => false
/-- Does a stop wait for a counter operation: one of a warp, or an add that an engine or a unit's end owes (14 R291,
R309)? -/
def stopWaits (o : CtrOp) : Bool := match o.agent with
  | none => true
  | some .batch => true
  | some .count => true
  | some .launch => true
  | _ => false

/-- Has everything that was in flight completed (14 R291, R292, R309)? -/
def drained (s : State) (p : Nat) : Bool :=
  let here (c slot : Nat) : Bool := partOfCore c = p && slot != fwSlot
  !(s.reqs.any fun e => here e.2.core e.2.slot) && !(s.ctrOps.any fun e => here e.2.core e.2.slot && stopWaits e.2) &&
    !(s.vreqs.any fun e => here e.2.core e.2.slot) && !(s.held.any fun e => isPump p e.ev) && !(s.agenda.any (isPump p)) &&
    (s.partCores p).all fun c => (s.cc c).matrix.running.isNone && (s.cc c).matrix.loading.isNone && s.releasable c 4

/-- A warp's results land (03 R56) and its issue waits end. -/
def settleWarp (s : State) (c k : Nat) : State :=
  s.updWarp c k fun w =>
    let w := w.landAll.updSched fun x => { x with stallUntil := 0, stallAll := false }
    w.updLanes (BitVec.allOnes 32) fun _ l => { l with notBefore := 0 }

/-- The cut's part of a stop: results land, RRELs that waited for them complete (11 R240), and every write is visible at
.dev (06 R121). -/
def settlePart (s : State) (p : Nat) : State :=
  s.eachCore p fun s c => (s.eachWarp c fun s k => (s.settleWarp c k).finishRrels c k).releaseAt c 4

/-- Stops that trackers and a capture span (17 R335, R342). -/
def countStop (s : State) (p h : Nat) : State :=
  let s := s.eachCore p fun s c => s.updCc c fun x =>
    { x with trackers := x.trackers.map fun e => (e.1, { e.2 with pre := e.2.pre + 1 }) }
  if (s.ctx h).cap.live then s.updCtx h fun x => { x with cap := { x.cap with pre := x.cap.pre + 1 } } else s

/-- Capture what a stop saves in place (14 R290, R291; 03 R55; 07 R133): balance and buffered records are written (17
R336, R347), the L1s are left, waiter entries removed. -/
def capturePart (s : State) (p h : Nat) : State :=
  let s := s.eachCore p fun s c => (s.balanceDump c).flushTrace c 80
  let s := (s.settlePart p).countStop p h
  s.eachCore p fun s c => (s.eachWarp c fun s k =>
    if (s.warp c k).sched.cwait.isSome then s.dropWaiters c k else s).l1DropAll c

/-- The state of the context on a partition, off the core arrays (14 R295, R297). -/
def savePart (s : State) (p h : Nat) : SavedPart :=
  let x := s.part p
  { ctx := h, home := p, units := x.units, evicted := x.evicted,
    cores := (s.cores.filter fun e => partOfCore e.1 = p && e.2.cc.ctx = h && !e.2.gated).map fun e =>
      (e.1 % 24, e.2.cc.shift (24 * p) 0) }
/-- The cores of a partition that hold a part of the standby in place (14 R296, R297). -/
def gatedCores (s : State) (p : Nat) : Map CoreCtx :=
  (s.cores.filter fun e => partOfCore e.1 = p && e.2.gated).map fun e => (e.1 % 24, e.2.cc.shift (24 * p) 0)
/-- A standby together with its part in place (14 R297). -/
def wholeStandby (s : State) (p : Nat) (y : SavedPart) : SavedPart :=
  { y with cores := (s.gatedCores p).foldl (fun (m : Map CoreCtx) e => m.set e.1 e.2) y.cores }

/-- A core that runs nothing of a context yet. -/
def emptyCore (x : CoreCtx) : Bool := decide (x = { ctx := x.ctx })

/-- Take the context off the core arrays; its cores wait for no grant (13 R286). -/
def clearPart (s : State) (p : Nat) : State :=
  let s := s.eachCore p fun s c => (s.updCc c fun _ => {}).updCore c fun x => { x with granted := true }
  let s := s.updDie (dieOfPart p) fun x => { x with eqPending := x.eqPending.filter fun e => !(e.2 && partOfCore e.1 = p) }
  s.updPart p fun x => { x with units := [], evicted := [] }
/-- A core takes a saved core context: its teams are admitted afresh, its locks hold from the start. -/
def installCore (s : State) (p c : Nat) (x : CoreCtx) : State :=
  let x := (x.shift 0 (24 * p)).readmit
  let age := x.warps.foldl (fun m e => max m (e.2.sched.age + 1)) 0
  s.updCore c fun z =>
    let ws : Map Warp := x.warps.map fun e => (e.1, e.2.updSched fun q => { q with lastPick := z.cyc })
    { z with cc := { x with warps := ws, locks := x.locks.map fun l => (l.1, { l.2 with since := 0 }) }
             nextAge := max z.nextAge age }
/-- Put a saved part on the core arrays of a partition: the cores that it names, and those in which nothing stands (14
R296). Launches of the context that named its old place follow it, and its evicted units are tested again. -/
def installPart (s : State) (p : Nat) (y : SavedPart) : State :=
  let s := (List.range 24).foldl (fun s i =>
    let c := 24 * p + i
    if (s.core c).gated then s else
    match y.cores.find i with
    | some x => s.installCore p c x
    | none => s.updCc c fun _ => { ctx := y.ctx }) s
  let next := (y.units.map Prod.fst ++ y.evicted.map Evicted.key).foldl (fun m e => max m (e + 1)) 0
  let s := s.updPart p fun x => { x with units := y.units, nextUnit := max x.nextUnit next }
  let s := s.updPart p fun x => { x with evicted := x.evicted ++ y.evicted }
  let s := s.postAll (y.evicted.map fun e => .evictionWakePoll p e.key)
  if y.home = p then s else
  let ls : Map LaunchRec := s.launches.map fun e => if e.2.ctx = y.ctx && !e.2.parts.contains p then
    (e.1, { e.2 with parts := e.2.parts.map fun q => if q = y.home then p else q }) else e
  { s with launches := ls }

/-- The trace control block as the core reads it at a start or resume (17 R334); 0 where it cannot be served. -/
def readTraceBlk (s : State) (c : Nat) : State :=
  let h := (s.cc c).ctx
  let x := s.ctx h
  let d := dieOfCore c
  let hostRing (b : Block) : Bool := match s.check d h kStore (tcbBase b) with
    | .ok k => isHost k.pa
    | .error _ => false
  let ok (b : Block) : Bool :=
    4 ≤ tcbQlog b && tcbQlog b ≤ 26 && (tcbSper b = 0 || (8 ≤ tcbSper b && tcbSper b ≤ 24)) &&
      (tcbBase b).toNat % (64 * 2 ^ tcbQlog b) = 0 && (x.hasFeat featTrace || !hostRing b)
  let (s, b) : State × Block := if x.trcb = 0#64 then (s, 0) else
    match s.readBlock d h kLoad x.trcb with
    | .ok (s, b) => (s, if ok b then b else 0)
    | .error _ => (s, 0)
  s.updCore c fun y => { y with traceBlk := b }

/-- The engines of a core go on with the work of teams that may run: copies, collective slices, the frozen command and the
queue, batches whose release waited. -/
def startEngines (s : State) (c : Nat) : State :=
  let live := (s.cc c).copies.filter fun e => e.2.started && !e.2.halted && (!e.2.finished || e.2.node.isSome) &&
    !s.gangWaits c e.2.team
  let s := (live.map Prod.fst).foldl (fun s n => s.runCopy c n) (s.startSlices c)
  let s := match (s.cc c).matrix.frozen with
    | some x =>
      if s.gangWaits c x.team then s else
      (s.updMatrix c fun m => { m with frozen := none, running := some { x with due := (s.core c).cyc + x.due } }).postAfter c x.due
        (.matrixCommandRetire c)
    | none => s
  let s := (s.startMatrix c).eachWarp c fun s k => if (s.warp c k).batches.isEmpty then s else s.post (pumpEvent c k)
  s.post (.coreAdmission c)

/-- What a core goes on with when its context runs (again): it reads its trace control block, its instruction cache is
invalidated (21 R387), engines, the launch queue and parked warps go on. -/
def startCore (s : State) (c : Nat) : State :=
  let s := (s.updCc c fun x => { x with ran := x.ran || !x.teams.isEmpty }).updCore c fun x => { x with icache := [] }
  let s := (s.readTraceBlk c).startEngines c
  let s := s.postAll ((s.cc c).launchQ.map fun e => .launchDescriptorTake (coreAgent c) (s.cc c).ctx e.1 e.2)
  let s := match (s.cc c).lazyLaunch with
    | some l => s.forwardSteals l (s.cc c).lazyIndex 65
    | none => s
  s.eachWarp c fun s k => if (s.warp c k).sched.cwait.isSome then s.rereadWait c k true else s

/-- The partition's agents serve the context's queues, runs and rings (13 R278; 14 R293; 16 R329, R331). -/
def serveAll (s : State) (p h : Nat) : State :=
  let s := s.postAll ((s.queues.filter fun e => e.2.ctx = h && e.2.agent = p && e.2.serving).map fun e => .submissionQueueEntry e.1)
  let s := s.postAll ((s.runs.filter fun e => e.2.ctx = h && e.2.agent = p).map fun e => .waitNode e.1)
  s.postAll ((s.rings.filter fun e => e.2.ctx = h && e.2.agent = p && e.2.serving).map fun e => .ringAgentPass e.1)

/-- Let a partition run its context. -/
def startPart (s : State) (p : Nat) : State :=
  let s := s.updPart p fun x => { x with paused := false }
  let s := (s.partCores p).foldl (fun s c => s.startCore c) s
  match (s.part p).running with
  | some h => s.serveAll p h
  | none => s

end State

end Sys2Proof.Machine
end

