-- ==== Sys2Proof/Machine/Rebind.lean ====
section
/-! DEFINITION. Rebinding a saved part of a context to other cores (02 R30 to R33; 14 R295, R308, R420; 19 R356): the
check of binding tables, the fit of what they bring together, and the state that each core takes. -/

namespace Sys2Proof.Machine

/-- Binding tables by unit: troupe roles and partition roles. -/
abbrev Tables := Map (Map Word × Map Word)

/-- Core, WBASE and CBASE of a bound troupe role of a unit. -/
def tableRole (t : Tables) (u r : Nat) : Option (Nat × Nat × Nat) :=
  let e := ((t.find u).map fun x => x.1.get 0 r).getD 0
  if e.getLsbD 31 then some (bitsOf e.toNat 4 0, bitsOf e.toNat 13 8, bitsOf e.toNat 21 16) else none

/-- A table of 224 bytes. -/
def readTable (bs : List Byte) : Map Word × Map Word :=
  let w (i : Nat) : Word := BitVec.ofNat 32 (leNat ((bs.drop (4 * i)).take 4))
  let bound (n base : Nat) : Map Word := ((List.range n).map fun i => (i, w (base + i))).filter fun e => e.2.getLsbD 31
  (bound 24 0, bound 32 24)
/-- Its bytes. -/
def tableBytes (u : UnitRec) : List Byte :=
  ((List.range 24).flatMap fun i => leBytes 4 (u.ttable.get 0 i).toNat) ++
    (List.range 32).flatMap fun i => leBytes 4 (u.ptable.get 0 i).toNat

/-- A reserved range: core, first, count. -/
def rangesOf (y : SavedPart) (t : Tables) (windows : Bool) : List (Nat × Nat × Nat) :=
  y.units.flatMap fun e => (List.range e.2.troles).filterMap fun r => (tableRole t e.1 r).map fun x =>
    (x.1, if windows then (x.2.1, e.2.nwin) else (x.2.2, e.2.nctr))
/-- Ranges that share a core do not overlap. -/
def disjointRanges : List (Nat × Nat × Nat) → Bool
  | [] => true
  | (c, b, n) :: l => l.all (fun e => e.1 != c || n = 0 || e.2.2 = 0 || b + n ≤ e.2.1 || e.2.1 + e.2.2 ≤ b) && disjointRanges l

/-- Is a binding valid (02 R32)? -/
def tablesOk (y : SavedPart) (t : Tables) : Bool :=
  y.units.all (fun e =>
    let u := e.2
    let cores := (List.range u.troles).filterMap fun r => (tableRole t e.1 r).map Prod.fst
    let parts := (List.range u.groles).map fun r => ((t.find e.1).map fun x => x.2.get 0 r).getD 0
    (List.range u.troles).all (fun r => match tableRole t e.1 r with
      | some (c, wb, cb) => c < 24 && wb + u.nwin ≤ 64 && cb + u.nctr ≤ 64
      | none => false) &&
    cores.all (fun c => (cores.filter (· = c)).length ≤ 2) &&
    parts.all (fun w => w.getLsbD 31) && (parts.map fun w => bitsOf w.toNat 4 0).Nodup) &&
  disjointRanges (rangesOf y t true) && disjointRanges (rangesOf y t false)

/-- The unit and role of a team of a source core. -/
def teamPlace (y : SavedPart) (c t : Nat) : Option (Nat × Nat) :=
  ((y.cores.find c).bind fun x => x.teams.find t).map fun m => (m.unit, m.trole)
/-- The core to which a team goes. -/
def teamDst (y : SavedPart) (t : Tables) (c n : Nat) : Option Nat :=
  (teamPlace y c n).bind fun e => (tableRole t e.1 e.2).map Prod.fst
/-- The core that takes what is not a team's: where the first of its teams goes. -/
def coreDst (y : SavedPart) (t : Tables) (c : Nat) : Nat :=
  match (y.cores.find c).map fun x => x.teams with
  | some ((n, _) :: _) => (teamDst y t c n).getD c
  | _ => c

/-- The array's commands, queued or frozen. -/
def allCmds (m : Matrix) : List MCmd := m.frozen.toList ++ m.queue
/-- Does a command use a window? -/
def cmdWindow (x : MCmd) : Bool := x.opc != 0x5A && x.opc != 0x5F && x.opc != 0x61

/-- Is every role and name that the saved state uses bound, and below 64 (14 R420)? -/
def namesOk (y : SavedPart) (t : Tables) : Bool :=
  y.cores.all fun e =>
    let x := e.2
    let win (team : Nat) (r : Option Nat) (w : Nat) : Bool := match teamPlace y e.1 team with
      | none => true
      | some (u, own) => match tableRole t u (r.getD own) with
        | some (_, wb, _) => wb + w < 64
        | none => false
    let ctr (team : Nat) (n : CounterName) : Bool := match n, teamPlace y e.1 team with
      | .num r k, some (u, _) => match tableRole t u r with
        | some (_, _, cb) => cb + k < 64
        | none => false
      | _, _ => true
    let addr (team : Nat) (a : DWord) : Bool := match spWord (lo32 a) with
      | some (r, w, _) => win team r w
      | none => true
    x.copies.all (fun c => c.2.finished ||
      ((!dirSrcWin c.2.dir || addr c.2.team c.2.src) && (!dirDstWin c.2.dir || addr c.2.team c.2.dst))) &&
    (allCmds x.matrix).all (fun m => !cmdWindow m || win m.team none (State.opWin m.opword)) &&
    let named (team : Nat) (bs : List Batch) : Bool := bs.all fun b => match b.name with
      | some n => ctr team n
      | none => true
    x.orphans.all (fun o => named (((x.copies.find? fun c => c.2.slot = o.1).map fun c => c.2.team).getD 32) o.2.1) &&
    x.warps.all fun w => named w.2.team w.2.batches &&
      match w.2.sched.cwait with
      | some q => ctr w.2.team q.name
      | none => true

/-- The core that an operation of a source core goes with: its copy's team's, or the array's. -/
def opDst (y : SavedPart) (t : Tables) (c n : Nat) : Nat :=
  match (y.cores.find c).bind fun x => x.copies.find n with
  | some x => (teamDst y t c x.team).getD (coreDst y t c)
  | none => coreDst y t c
/-- Where an entry of a source core's scoreboard goes: its role and logical window are resolved again (14 R295). -/
def entryDst (y : SavedPart) (t : Tables) (c : Nat) (q : ScoreEntry) : Nat × Nat :=
  match tableRole t q.unit q.role with
  | some (k, wb, _) => (k, wb + q.logical)
  | none => (coreDst y t c, q.win)

/-- Has a core a lazy range that is not empty? -/
def nonEmptyLazy (x : CoreCtx) : Bool := x.lazyNext < x.lazyEnd

/-- Does what the tables bring together on core j fit it (14 R420)? -/
def coreFits (y : SavedPart) (t : Tables) (j : Nat) : Bool :=
  let warps := y.cores.flatMap fun e => (e.2.warps.map Prod.snd).filter fun w => teamDst y t e.1 w.team = some j
  let teams := y.cores.flatMap fun e => e.2.teams.filter fun m => teamDst y t e.1 m.1 = some j
  let copies := y.cores.flatMap fun e => e.2.copies.filter fun c => c.2.started && !c.2.finished && teamDst y t e.1 c.2.team = some j
  let score := y.cores.flatMap fun e => e.2.score.filter fun q => (entryDst y t e.1 q).1 = j
  let mine := y.cores.filter fun e => coreDst y t e.1 = j
  let locks := y.cores.flatMap fun e => e.2.locks.filter fun l => opDst y t e.1 l.2.op = j
  let bins := mine.flatMap fun e => e.2.bins.filter fun b => !b.2.threads.isEmpty
  warps.length ≤ 32 && teams.length ≤ 32 && (warps.flatMap fun w => w.blocks).length ≤ 128 && copies.length ≤ 16 &&
    score.length ≤ 32 && locks.length ≤ 64 && bins.length ≤ 16 &&
    (mine.filter fun e => e.2.matrix.live).length ≤ 1 && (mine.filter fun e => nonEmptyLazy e.2).length ≤ 1
def tablesFit (y : SavedPart) (t : Tables) : Bool := (List.range 24).all (coreFits y t)

/-! ## The move -/

/-- The new numbers of teams and warp slots: (source core, old number, core, new number). -/
structure Renumber where
  teams : List (Nat × Nat × Nat × Nat) := []
  slots : List (Nat × Nat × Nat × Nat) := []

def lowestFree (used : List Nat) : Nat := ((List.range 33).find? fun n => !used.contains n).getD 0
/-- A new number on core j: the lowest that is free (03 R419), or, for a warp's slot, the old one where it is free (DESIGN
CHOICE: note 111). -/
def pickNumber (l : List (Nat × Nat × Nat × Nat)) (j n : Nat) (keep : Bool) : Nat :=
  let used := (l.filter fun e => e.2.2.1 = j).map fun e => e.2.2.2
  if keep && !used.contains n then n else lowestFree used

/-- The new numbers: teams are admitted, and warps given slots, by source core and then by old number (DESIGN CHOICE: notes
110 and 111). -/
def renumber (y : SavedPart) (t : Tables) : Renumber :=
  y.cores.foldl (fun r e =>
    let r := e.2.teams.foldl (fun (r : Renumber) m => match teamDst y t e.1 m.1 with
      | some j => { r with teams := r.teams ++ [(e.1, m.1, j, pickNumber r.teams j m.1 false)] }
      | none => r) r
    e.2.warps.foldl (fun (r : Renumber) w => match teamDst y t e.1 w.2.team with
      | some j => { r with slots := r.slots ++ [(e.1, w.1, j, pickNumber r.slots j w.1 true)] }
      | none => r) r) {}
def Renumber.team (r : Renumber) (c n : Nat) : Nat :=
  ((r.teams.find? fun e => e.1 = c && e.2.1 = n).map fun e => e.2.2.2).getD n
/-- The new slot; ended warps' keys move with the operation numbers. -/
def Renumber.slot (r : Renumber) (c k off : Nat) : Nat :=
  if k < 33 then ((r.slots.find? fun e => e.1 = c && e.2.1 = k).map fun e => e.2.2.2).getD k
  else if k = 64 then 64 else k + off

/-- The first operation number of a source core's operations after the move. -/
def opOffset (y : SavedPart) (c : Nat) : Nat := (y.cores.filter fun e => e.1 < c).foldl (fun n e => n + e.2.nextOp) 0

def moveBatch (off : Nat) (b : Batch) : Batch := { b with copies := b.copies.map (· + off) }

/-- A warp at its new place; `blocks` are its physical blocks. -/
def moveWarp (r : Renumber) (c off : Nat) (w : Warp) (blocks : Map Nat) : Warp :=
  { w with team := r.team c w.team, blocks := blocks, unsealed := w.unsealed.map (· + off), batches := w.batches.map (moveBatch off)
           var := w.var.map fun v => if 2 ^ 40 ≤ v.req then { v with req := v.req + off } else v }

/-- The warps that core j takes, their blocks numbered anew. -/
def moveWarps (y : SavedPart) (r : Renumber) (j : Nat) : Map Warp :=
  (r.slots.foldl (fun (acc : Map Warp × Nat) e =>
    if e.2.2.1 != j then acc else
    match (y.cores.find e.1).bind fun x => x.warps.find e.2.1 with
    | none => acc
    | some w =>
      let bs := w.blocks.zipIdx.map fun b => (b.1.1, acc.2 + b.2)
      (acc.1.set e.2.2.2 (moveWarp r e.1 (opOffset y e.1) w bs), acc.2 + w.blocks.length)) ([], 0)).1

def moveTeam (off : Nat) (m : Team) : Team :=
  { m with slots := m.slots.map fun e => (e.1, { e.2 with slices := e.2.slices.map (· + off) }) }

/-- Shift the entries of a map in [lo, lo + n) to [at0, at0 + n). -/
def shiftRange {α : Type} (src dst : Map α) (lo n at0 : Nat) : Map α :=
  (src.filter fun e => lo ≤ e.1 && e.1 < lo + n).foldl (fun (m : Map α) e => m.set (e.1 - lo + at0) e.2) dst

/-- Windows, descriptors and counters that the roles bound to core j bring. -/
def moveRoles (y : SavedPart) (t : Tables) (r : Renumber) (j : Nat) (z : CoreCtx) : CoreCtx :=
  y.units.foldl (fun z e => (List.range e.2.troles).foldl (fun (z : CoreCtx) i =>
    match State.UnitRec.role e.2 i, tableRole t e.1 i with
    | some old, some (k, wb, cb) =>
      if k != j then z else
      let c := bitsOf old.toNat 4 0
      let x := (y.cores.find c).getD {}
      let ob := bitsOf old.toNat 13 8
      let wd : Map DWord := x.wdesc.map fun d => (d.1, ownedBy d.2 (r.team c (wdOwner d.2)))
      { z with scratch := shiftRange x.scratch z.scratch (8192 * ob) (8192 * e.2.nwin) (8192 * wb)
               wdesc := shiftRange wd z.wdesc ob e.2.nwin wb
               ctr := shiftRange x.ctr z.ctr (bitsOf old.toNat 21 16) e.2.nctr cb
               dirtyLines := z.dirtyLines ++ (x.dirtyLines.filter fun l => ob ≤ l / 32 && l / 32 < ob + e.2.nwin).map fun l =>
                 l - 32 * ob + 32 * wb }
    | _, _ => z) z) z

/-- Merge a balance table into another by phase (14 R420). -/
def mergeBalance (a b : Map Balance) : Map Balance :=
  b.foldl (fun (a : Map Balance) e =>
    let add (x : Balance) : Balance := { x with busy := min (x.busy + e.2.busy) (2 ^ 48 - 1), idle := min (x.idle + e.2.idle) (2 ^ 48 - 1) }
    if e.1 = 15 then a.upd {} 15 add else
    match a.find? fun f => f.1 < 15 && f.2.phase = e.2.phase with
    | some f => a.upd {} f.1 add
    | none => match (List.range 15).find? fun i => (a.find i).isNone with
      | some i => a.set i e.2
      | none => a.upd {} 15 add) a

def moveCmd (r : Renumber) (c off : Nat) (x : MCmd) : MCmd :=
  { x with num := x.num + off, slot := r.slot c x.slot off, team := r.team c x.team }
def moveMatrix (r : Renumber) (c off : Nat) (m : Matrix) : Matrix :=
  { m with queue := m.queue.map (moveCmd r c off), frozen := m.frozen.map (moveCmd r c off) }

/-- Entries numbered from 0. -/
def listMap {α : Type} (l : List α) : Map α := l.zipIdx.map fun e => (e.2, e.1)

/-- Copies that core j takes; where sources meet, descriptors are numbered anew. -/
def moveCopies (y : SavedPart) (t : Tables) (r : Renumber) (j : Nat) : Map Copy :=
  let l := y.cores.flatMap fun e => (e.2.copies.filter fun c => opDst y t e.1 c.1 = j).map fun c => (e.1, c)
  let merged := 1 < (l.map Prod.fst).dedup.length
  (l.foldl (fun (acc : Map Copy × Nat) e =>
    let off := opOffset y e.1
    let x := e.2.2
    let desc := if merged && x.started && !x.finished then acc.2 else x.desc
    let x : Copy := { x with slot := r.slot e.1 x.slot off, team := r.team e.1 x.team, desc := desc }
    (acc.1.set (e.2.1 + off) x, if x.started && !x.finished then acc.2 + 1 else acc.2)) ([], 0)).1

/-- The new number of the descriptor that a pending COPY trap of a warp names. -/
def moveTraps (z : CoreCtx) (y : SavedPart) (r : Renumber) : CoreCtx :=
  { z with warps := z.warps.map fun e => (e.1, e.2.updTrap fun q => { q with async := q.async.map fun a =>
      if a.group != grpCopy then a else
      let hit := y.cores.findSome? fun c => c.2.copies.find? fun x =>
        x.2.halted && r.slot c.1 x.2.slot 0 = e.1 && x.2.desc = bitsOf a.code 11 8 && (z.copies.find (x.1 + opOffset y c.1)).isSome
      let src := y.cores.find? fun c => c.2.copies.any fun x => some x = hit
      match hit, src with
      | some x, some c => match z.copies.find (x.1 + opOffset y c.1) with
        | some n => { a with code := a.code - bitsOf a.code 11 8 * 256 + n.desc * 256 }
        | none => a
      | _, _ => a }) }

/-- The state that core j takes (14 R420). The manual does not say where what a source core keeps for none of its teams goes
(02 R33; 03 R51): its bins and launch queue go with the first of its teams, and SPNTMR, the phase and the slot that issued
last are those of the first source core that sends a team (DESIGN CHOICE: note 112). -/
def moveCore (y : SavedPart) (t : Tables) (r : Renumber) (j : Nat) : CoreCtx :=
  let mine := y.cores.filter fun e => coreDst y t e.1 = j
  let sends (e : Nat × CoreCtx) : Bool := e.2.teams.any fun m => teamDst y t e.1 m.1 = some j
  let first := (((y.cores.find? sends).orElse fun _ => mine.head?).map Prod.snd).getD {}
  let firstCore := (((y.cores.find? sends).orElse fun _ => mine.head?).map Prod.fst).getD j
  let arr := match mine.find? fun e => e.2.matrix.live with
    | some e => some e
    | none => mine.head?
  let lz := ((mine.find? fun e => nonEmptyLazy e.2).orElse fun _ => mine.find? fun e => e.2.lazyLaunch.isSome).map Prod.snd |>.getD first
  let bins := mine.flatMap fun e => (e.2.bins.filter fun b => !b.2.threads.isEmpty).map fun b =>
    { b.2 with threads := b.2.threads.map fun x => (x.1, r.team e.1 x.2) }
  let score := y.cores.flatMap fun e => e.2.score.filterMap fun q =>
    let d := entryDst y t e.1 q
    let c := q.op / 2 ^ 32
    let n := q.op % 2 ^ 32
    if d.1 = j then some { q with win := d.2, op := opKey (opDst y t c n) (n + opOffset y c) } else none
  let locks := y.cores.flatMap fun e => (e.2.locks.filter fun l => opDst y t e.1 l.2.op = j).map fun l =>
    { l.2 with op := l.2.op + opOffset y e.1, since := 0 }
  let trackers := y.cores.flatMap fun e => (e.2.trackers.filter fun k => coreDst y t e.1 = j || 32 < k.2.slot).map fun k =>
    { k.2 with slot := r.slot e.1 k.2.slot (opOffset y e.1) }
  let teams : Map Team := r.teams.foldl (fun (m : Map Team) e =>
    if e.2.2.1 != j then m else
    match (y.cores.find e.1).bind fun x => x.teams.find e.2.1 with
    | some tm => m.set e.2.2.2 (moveTeam (opOffset y e.1) tm)
    | none => m) []
  let orphans : Map (List Batch × Word) := mine.foldl (fun (m : Map (List Batch × Word)) e =>
    e.2.orphans.foldl (fun (m : Map (List Batch × Word)) o =>
      m.set (o.1 + opOffset y e.1) (o.2.1.map (moveBatch (opOffset y e.1)), o.2.2)) m) []
  let blocks := r.slots.flatMap fun e => if e.2.2.1 != j then [] else
    (((y.cores.find e.1).getD {}).dirtyBlocks.filter fun b => b / 8 = e.2.1).map fun b => 8 * e.2.2.2 + b % 8
  let z : CoreCtx :=
    { ctx := y.ctx, warps := moveWarps y r j, teams := teams, score := score, locks := listMap locks,
      copies := moveCopies y t r j, orphans := orphans, nextOp := y.cores.foldl (fun n e => n + e.2.nextOp) 0,
      matrix := match arr with
        | some e => moveMatrix r e.1 (opOffset y e.1) e.2.matrix
        | none => {},
      lazyNext := lz.lazyNext, lazyEnd := lz.lazyEnd, lazyLaunch := lz.lazyLaunch, lazyIndex := lz.lazyIndex, steals := lz.steals,
      stealOut := lz.stealOut, bins := listMap bins, spntmr := first.spntmr,
      balance := mine.foldl (fun (b : Map Balance) e => mergeBalance b e.2.balance) [],
      lastRgns := first.lastRgns, lastSlot := ((r.slots.find? fun e => e.1 = firstCore && e.2.1 = first.lastSlot && e.2.2.1 = j).map fun e =>
        e.2.2.2).getD 32, launchQ := mine.flatMap fun e => e.2.launchQ,
      trackers := (listMap trackers).take 16, dirtyBlocks := blocks
      ran := y.cores.any fun e => e.2.ran && (coreDst y t e.1 = j || sends e) }
  moveTraps (moveRoles y t r j z) y r

/-- A saved part under new tables (02 R33; 14 R420). -/
def rebind (y : SavedPart) (t : Tables) : SavedPart :=
  let same := y.units.all fun e => match t.find e.1 with
    | some x => decide (x.1 = e.2.ttable)
    | none => true
  let units : Map UnitRec := y.units.map fun e => match t.find e.1 with
    | some x => (e.1, { e.2 with ttable := x.1, ptable := x.2 })
    | none => e
  if same then { y with units := units } else
  let r := renumber y t
  let bound (j : Nat) : Bool := y.units.any fun e => (List.range e.2.troles).any fun i =>
    (tableRole t e.1 i).any fun x => x.1 = j
  let used := (List.range 24).filter fun j => bound j || y.cores.any fun e => coreDst y t e.1 = j ||
    e.2.teams.any fun m => teamDst y t e.1 m.1 = some j
  { y with units := units, cores := used.map fun j => (j, moveCore y t r j) }

end Sys2Proof.Machine
end

