-- ==== Sys2Proof/Machine/Eviction.lean ====
section
/-! DEFINITION. Parked eviction (02 R41; 14 R299, R300): one unit of a running context leaves its cores while all its
warps wait, and comes back once a wait of it is over and there is room. -/

namespace Sys2Proof.Machine

namespace State

/-- The teams of a unit by troupe role: (core, team number, team); a team that has ended has number 32, and its role
keeps its windows and counters. -/
def unitTeams (s : State) (p u : Nat) : List (Nat × Nat × Team) :=
  match (s.part p).units.find u with
  | none => []
  | some r => (List.range r.troles).filterMap fun i => (UnitRec.role r i).map fun e =>
    let c := 24 * p + bitsOf e.toNat 4 0
    match (s.cc c).teams.find? fun m => m.2.unit = u && m.2.trole = i with
    | some m => (c, m.1, m.2)
    | none => (c, 32, { ctx := r.ctx, unit := u, launch := r.launch, teamId := 0, trole := i, prole := r.prole, wids := [] })
/-- The warps of a team. -/
def teamWarps (s : State) (c t : Nat) : Map Warp := (s.cc c).warps.filter fun w => w.2.team = t

/-- Are all warps of a team parked in CWAIT, with nothing of theirs in flight? -/
def teamParked (s : State) (c t : Nat) : Bool :=
  (s.teamWarps c t).all fun w => w.2.sched.cwait.isSome && !s.warpBusy c w.1 && w.2.sched.tokarm = 0 &&
    !(s.ctrOps.any fun o => o.2.core = c && o.2.slot = w.1 && o.2.agent.isNone) &&
    !(s.vreqs.any fun v => v.2.core = c && v.2.slot = w.1)
/-- Is a team without copies in flight and without matrix commands? -/
def teamQuiet (s : State) (c t : Nat) : Bool :=
  let x := s.cc c
  let m := x.matrix
  !(x.copies.any fun e => e.2.team = t && e.2.released && !e.2.finished) &&
    !((m.queue ++ m.running.toList ++ m.loading.toList ++ m.frozen.toList).any fun q => q.team = t) && (x.orphans.isEmpty || x.copies.all fun e => e.2.team != t || e.2.slot ≤ fwSlot)

/-- May a unit be evicted (14 R299; 02 R41)? -/
def evictable (s : State) (p u : Nat) : Bool :=
  match (s.part p).units.find u with
  | none => false
  | some r => r.groles = 1 && (s.unitTeams p u).all fun e => s.teamParked e.1 e.2.1 && s.teamQuiet e.1 e.2.1

/-- Every resident team of a context is parked in CWAIT (02 R41). -/
def allParked (s : State) (h : Nat) : Bool :=
  s.cores.all fun e => e.2.cc.ctx != h || e.2.cc.warps.all fun w => w.2.sched.cwait.isSome

/-- Entries of a map in [lo, lo + n), numbered from 0. -/
def cutMap {α : Type} (m : Map α) (lo n : Nat) : Map α := shiftRange m [] lo n 0

/-- A team's state as eviction saves it (14 R300); its threads in spawn bins go with it (DESIGN CHOICE: note 63). -/
def saveTeam (s : State) (p : Nat) (u : UnitRec) (c t : Nat) (m : Team) : SavedTeam :=
  let x := s.cc c
  let e := (UnitRec.role u m.trole).getD 0
  let wb := bitsOf e.toNat 13 8
  let ws := s.teamWarps c t
  let cps := x.copies.filter fun y => y.2.team = t
  { core := c, num := t, team := m, warps := ws, windows := cutMap x.scratch (8192 * wb) (8192 * u.nwin),
    wdescs := cutMap x.wdesc wb u.nwin, ctrs := cutMap x.ctr (bitsOf e.toNat 21 16) u.nctr, copies := cps,
    score := (s.partCores p).flatMap fun k => ((s.cc k).score.filter fun q => cps.any fun y => q.op = opKey c y.1),
    locks := (x.locks.filter fun l => cps.any fun y => l.2.op = y.1).map Prod.snd,
    trackers := (x.trackers.filter fun k => ws.any fun w => w.1 = k.2.slot).map Prod.snd
    threads := x.bins.flatMap fun b => (b.2.threads.filter fun y => y.2 = t).map fun y => (b.2.entry, y.1) }

/-- Take a team off its core. -/
def removeTeam (s : State) (u : UnitRec) (c t : Nat) (m : Team) : State :=
  let ks := (s.teamWarps c t).map Prod.fst
  let s := ks.foldl (fun (s : State) k => s.dropWaiters c k) s
  let e := (UnitRec.role u m.trole).getD 0
  let wb := bitsOf e.toNat 13 8
  let ns := ((s.cc c).copies.filter fun y => y.2.team = t).map Prod.fst
  let s := ns.foldl (fun (s : State) n => s.dropScore (opKey c n)) s
  let s := s.updCc c fun x => { x with
    warps := x.warps.filter fun w => w.2.team != t
    teams := x.teams.del t
    copies := x.copies.filter fun y => y.2.team != t
    locks := x.locks.filter fun l => !ns.contains l.2.op
    wdesc := x.wdesc.filter fun d => d.1 < wb || wb + u.nwin ≤ d.1
    bins := (x.bins.map fun b => (b.1, { b.2 with threads := b.2.threads.filter fun y => y.2 != t })).filter fun b =>
      !b.2.threads.isEmpty
    trackers := x.trackers.filter fun k => !ks.contains k.2.slot
    dirtyBlocks := x.dirtyBlocks.filter fun b => !ks.contains (b / 8) }
  let s := (s.updCore c fun x => { x with racqQ := x.racqQ.filter fun k => !ks.contains k }).serveBlocks c 33
  if t != 32 && (s.cc c).teams.isEmpty then s.coreChange c false else s

/-- Write a unit's state to the context's eviction area (14 R300; 23 R415): its layout and length are not stated, so its
bytes are free values. `none` where it cannot be written. -/
def writeEvicted (s : State) (core h : Nat) : Option State :=
  let d := dieOfCore core
  let a := (s.ctx h).evarea
  if a = 0#64 then none else
  let (n, s) := s.fresh
  let (bs, s) := s.freshBytes n.toNat
  match s.vaWrite d h kStore a bs with
  | .error _ => none
  | .ok s => some (s.charge d (copyBudget core) n.toNat)

/-- A warp as eviction takes it: what had issued lands, RRELs complete, and waits restart (14 R294, R300). -/
def restWarp (s : State) (c k : Nat) : State := ((s.settleWarp c k).finishRrels c k).pauseWarp c k

/-- The agent's waiter entries for an evicted unit, one at each home that it can reach (14 R300). -/
def parkEvicted (s : State) (p : Nat) (e : Evicted) : State :=
  let c := 24 * p
  let k := agentSlot 3 (32 * e.key + p)
  let conds := (e.teams.flatMap fun t => t.warps).filterMap fun w => w.2.sched.cwait
  conds.foldl (fun (s : State) q => match q.name with
    | .num _ _ => s
    | .addr va => match s.check (dieOfCore c) e.unit.ctx kCtrRead va with
      | .error _ => s
      | .ok x => if s.spaceLost (dieOfCore c) x.pa then s else s.ctrPark (dieOfCore c) c k (.mem x.pa x.kid) q.thr)
    (s.dropWaiters c k)

/-- Carry out an eviction, if the unit may still be evicted, as its copy budget lets it. -/
def evictUnit (s : State) (p u : Nat) : State :=
  match (s.part p).units.find u with
  | none => s
  | some r =>
    if (s.part p).paused || (s.part p).running != some r.ctx || !s.evictable p u then s else
    if s.budgetOut (dieOfPart p) (copyBudget (24 * p)) then
      s.hold (budgetKey (dieOfPart p) (copyBudget (24 * p))) true (.parkedEviction p u)
    else match s.writeEvicted (24 * p) r.ctx with
    | none => s
    | some s =>
    let ts := s.unitTeams p u
    let s := ts.foldl (fun (s : State) e => ((s.teamWarps e.1 e.2.1).map Prod.fst).foldl (fun s k => s.restWarp e.1 k) s) s
    let saved := ts.map fun e => s.saveTeam p r e.1 e.2.1 e.2.2
    let s := ts.foldl (fun (s : State) e => s.removeTeam r e.1 e.2.1 e.2.2) s
    let key := (s.part p).nextUnit
    let ev : Evicted := { key := key, unit := r, teams := saved }
    let s := s.updPart p fun x => { x with units := x.units.del u, nextUnit := key + 1, evicted := x.evicted ++ [ev] }
    let (x, s) := s.fresh
    ((s.parkEvicted p ev).postAfter (24 * p) (x.toNat % 65536 + 1) (.evictionWakePoll p key)).postAll
      ((coresOf p).map fun c => .coreAdmission c)

/-- The value of the counter that an evicted warp waits for: of its own unit's roles in what was saved, else at its home;
`none` where it cannot be read, and the warp must find out. -/
def evictedValue (s : State) (d : Nat) (e : Evicted) (w : WaitCond) : Option DWord :=
  match w.name with
  | .num r n => match e.teams.find? fun t => t.team.trole = r with
    | some t => if n < e.unit.nctr then some (t.ctrs.get 0 n) else none
    | none => none
  | .addr va => match s.check d e.unit.ctx kCtrRead va with
    | .error _ => none
    | .ok k => if s.spaceLost d k.pa then none else some (s.ctrRead d (.mem k.pa k.kid))
/-- Is a wake condition of the unit met (07 R133; 14 R300)? -/
def evictedMet (s : State) (d : Nat) (e : Evicted) : Bool :=
  e.teams.any fun t => t.warps.any fun w => match w.2.sched.cwait with
    | none => true
    | some q => match s.evictedValue d e q with
      | some v => q.thr ≤ v
      | none => true

/-- The agent's test of an evicted unit's conditions (14 R300): by its waiter entries at any time, by a read within
65,536 cycles. -/
def pollEvicted (s : State) (p key : Nat) : State :=
  match (s.part p).evicted.find? fun e => e.key = key with
  | none => s
  | some e =>
    if e.met then s
    else if s.evictedMet (dieOfPart p) e then
      let s := s.updPart p fun x => { x with evicted := x.evicted.map fun y => if y.key = key then { y with met := true } else y }
      let s := s.dropWaiters (24 * p) (agentSlot 3 (32 * key + p))
      let held := (s.parts.filter fun q => q.2.running = some e.unit.ctx).map Prod.fst
      s.postAll ((held.flatMap coresOf).map fun c => .coreAdmission c)
    else
      let (x, s) := s.fresh
      s.postAfter (24 * p) (x.toNat % 65536 + 1) (.evictionWakePoll p key)

/-! ## Readmission -/

/-- Put threads of a team back into bins (02 R36); none where they do not fit. -/
def refillBins (bins : Map SpawnBin) (period t : Nat) : List (Word × Word) → Option (Map SpawnBin)
  | [] => some bins
  | (entry, arg) :: rest => match binFor bins entry with
    | none => none
    | some n => refillBins (bins.upd {} n fun y => addThread y entry arg t period) period t rest

/-- Room on a core for a team that comes back: its window and counter bases. -/
def roomBack (s : State) (c : Nat) (u : UnitRec) (t : SavedTeam) : Option (Nat × Nat) :=
  let x := s.cc c
  let r := s.reservedTeam c
  let blocks := (t.warps.map fun w => w.2.blocks.length).foldl (· + ·) 0
  if (s.core c).gated || x.warps.length + r.1 + t.warps.length > 32 || 32 ≤ x.teams.length then none
  else if (refillBins x.bins 1 0 t.threads).isNone then none
  else if (s.freeBlocks c).length < r.2 + blocks then none
  else if 64 < x.locks.length + t.locks.length || 32 < x.score.length + t.score.length then none
  else match firstFit (s.reserved c true) u.nwin, firstFit (s.reserved c false) u.nctr with
    | some wb, some cb => some (wb, cb)
    | _, _ => none

/-- Put one warp back, in a free slot and on free blocks; its copies and batches are numbered from `base`. -/
def putWarp (s : State) (c t base : Nat) (w : Warp) : State × Nat :=
  let k := (s.freeSlot c).getD 0
  let free := s.freeBlocks c
  let y := s.core c
  let w : Warp := (moveWarp {} c base w (w.blocks.zipIdx.map fun b => (b.1.1, free.getD b.2 0)))
  let w : Warp := { w with team := t, sched := { w.sched with age := y.nextAge, lastPick := y.cyc } }
  let s := s.updCore c fun z => { z with nextAge := z.nextAge + 1 }
  let s := s.updCc c fun x => { x with warps := x.warps.set k w }
  (s.markRegs c k (w.blocks.map fun b => 16 * b.1), k)

/-- Put a team back on a core. `place` are the places of its unit's roles: core, WBASE, CBASE. -/
def putTeam (s : State) (u : UnitRec) (unit c wb cb : Nat) (place : List (Nat × Nat × Nat)) (t : SavedTeam) : State :=
  let x := s.cc c
  let n := ((List.range 32).find? fun i => (x.teams.find i).isNone).getD 0
  let base := x.nextOp
  let s := if x.teams.isEmpty && t.num != 32 then s.coreChange c true else s
  let wd : Map DWord := t.wdescs.map fun e => (e.1, ownedBy e.2 n)
  let tm : Team := { moveTeam base t.team with unit := unit }
  let s := s.updCc c fun x => { x with
    teams := if t.num = 32 then x.teams else x.teams.set n tm
    ran := true
    bins := (refillBins x.bins x.spntmr.toNat n t.threads).getD x.bins
    scratch := shiftRange t.windows (x.scratch.filter fun b => b.1 < 8192 * wb || 8192 * (wb + u.nwin) ≤ b.1) 0 (8192 * u.nwin) (8192 * wb)
    wdesc := shiftRange wd (x.wdesc.filter fun d => d.1 < wb || wb + u.nwin ≤ d.1) 0 u.nwin wb
    ctr := shiftRange t.ctrs (x.ctr.filter fun d => d.1 < cb || cb + u.nctr ≤ d.1) 0 u.nctr cb
    nextOp := base + t.copies.foldl (fun m e => max m (e.1 + 1)) 0
    locks := x.locks ++ (t.locks.zipIdx.map fun l =>
      (x.locks.foldl (fun m e => max m (e.1 + 1)) 0 + l.2, { l.1 with op := l.1.op + base }))
    dirtyLines := x.dirtyLines ++ ((List.range (32 * u.nwin)).map (32 * wb + ·)).filter fun l => !x.dirtyLines.contains l }
  let s := s.addScore (t.score.filterMap fun e => (place[e.role]?).map fun q =>
    (q.1, { e with win := q.2.1 + e.logical, unit := unit, op := opKey c (e.op % 2 ^ 32 + base) }))
  t.warps.foldl (fun (s : State) w =>
    let (s, k) := s.putWarp c n base w.2
    let cps := (t.copies.filter fun y => y.2.slot = w.1).map fun y => (y.1 + base, { y.2 with slot := k, team := n })
    let s := s.updCc c fun x => { x with copies := cps.foldl (fun (m : Map Copy) y => m.set y.1 y.2) x.copies }
    let trs := (t.trackers.filter fun y => y.slot = w.1).map fun y => { y with slot := k }
    let s := trs.foldl (fun (s : State) y => match (List.range 16).find? fun i => ((s.cc c).trackers.find i).isNone with
      | some i => s.updCc c fun x => { x with trackers := x.trackers.set i y }
      | none => s) s
    s.rereadWait c k true) s

/-- Cores of a partition on which the teams of an evicted unit fit, one each, in order. -/
def placeBack (s : State) (e : Evicted) : List SavedTeam → List Nat → Option (List (Nat × Nat × Nat))
  | [], _ => some []
  | t :: ts, cores =>
    match cores.find? fun c => (s.roomBack c e.unit t).isSome with
    | none => none
    | some c => match s.roomBack c e.unit t with
      | none => none
      | some (wb, cb) => (placeBack s e ts (cores.filter (· != c))).map fun l => (c, wb, cb) :: l

/-- Readmit an evicted unit of the context that partition p runs, if one whose condition is met fits. -/
def readmit (s : State) (p h : Nat) : Option State :=
  let cands := s.parts.flatMap fun q => (q.2.evicted.filter fun e => e.met && e.unit.ctx = h).map fun e => (q.1, e)
  cands.findSome? fun (q, e) =>
    (s.placeBack e e.teams (coresOf p)).map fun place =>
      let u := (s.part p).nextUnit
      let tt : Map Word := (e.teams.zip place).foldl (fun (m : Map Word) t =>
        m.set t.1.team.trole (troupeEntry (t.2.1 % 24) t.2.2.1 t.2.2.2)) []
      let pt : Map Word := e.unit.ptable.map fun r => (r.1, if r.1 = e.unit.prole then partEntry p else r.2)
      let r : UnitRec := { e.unit with ttable := tt, ptable := pt }
      let s := s.updPart q fun x => { x with evicted := x.evicted.filter fun y => y.key != e.key }
      let s := s.updPart p fun x => { x with units := x.units.set u r, nextUnit := u + 1 }
      let byRole := (List.range e.unit.troles).map fun i => match (e.teams.zip place).find? fun t => t.1.team.trole = i with
        | some t => t.2
        | none => (24 * p, 0, 0)
      (e.teams.zip place).foldl (fun (s : State) t => s.putTeam e.unit u t.2.1 t.2.2.1 t.2.2.2 byRole t.1) s

end State

/-- PARKED_EVICTION. -/
def execParkedEviction (part unit : Nat) (s : State) : Host.Outcome State Fault Refusal :=
  if !partOk part then .fault .noSuchUnit else .next (s.evictUnit part unit)
/-- EVICTION_WAKE_POLL. -/
def execEvictionWakePoll (part unit : Nat) (s : State) : Host.Outcome State Fault Refusal :=
  if !partOk part then .fault .noSuchUnit else .next (s.pollEvicted part unit)

end Sys2Proof.Machine
end

