-- ==== Sys2Proof/Machine/Partition.lean ====
section
/-! DEFINITION. Partition commands (14 R292, R293, R297, R420; 22 R395): STOP, SWAP, RESUME, DEMOTE, LOAD and ENTER, each
completed by its own event; the stop of a gang as a whole and the return of its parts (02 R34; 13 R283). -/

namespace Sys2Proof.Machine

/-- The event of a PCTL command. -/
def pctlEvent (p cmd : Nat) : Instr :=
  if cmd = 1 then .stop p else if cmd = 2 then .swap p else if cmd = 3 then .resume p else if cmd = 4 then .demote p
  else if cmd = 5 then .load p else if cmd = 6 then .enter p else .pctlReservedCommand p

/-- The first 64 bytes of a context image (14 R297): VER, length, number of units. -/
def imageHeader (ver len units : Nat) : List Byte := leBytes 64 (ver % 2 ^ 16 + len % 2 ^ 48 * 2 ^ 16 + units % 2 ^ 32 * 2 ^ 64)

namespace State

/-! ## Commands -/

/-- PCTL.CMD is written: the command is held behind those before it (R292). -/
def partCommand (s : State) (p cmd : Nat) : State :=
  if cmd = 0 then s else
  let idle := (s.part p).commands.isEmpty
  let s := s.updPart p fun x => { x with commands := x.commands ++ [cmd] }
  if idle then s.post (pctlEvent p cmd) else s

/-- The command in progress has its outcome. A stop that no command asked for finishes none. -/
def finish (s : State) (p cmd stat : Nat) : State :=
  match (s.part p).commands with
  | x :: rest =>
    if x != cmd then s else
    (s.updPart p fun y => { y with stat := BitVec.ofNat 8 stat, commands := (cmd + 8) :: rest }).post (.partitionCommandComplete p)
  | [] => s

/-- It completes with its add at .dev to PCNT, and the next one begins. -/
def commandDone (s : State) (p : Nat) : State :=
  match (s.part p).commands with
  | x :: rest =>
    if x < 8 then s else
    let s := match s.physAdd (s.part p).pcnt 1 with
      | some s => s
      | none => s.setDevsts 7
    let s := s.updPart p fun y => { y with commands := rest }
    match rest with
    | y :: _ => s.post (pctlEvent p y)
    | [] => s
  | [] => s

/-! ## Gangs -/

/-- The parts of a gang's unit: partitions where units of its launch run. -/
def gangParts (s : State) (l : Nat) : List Nat :=
  (s.parts.filter fun e => e.2.units.any fun u => u.2.launch = l).map Prod.fst
/-- The stop of a partition stops every partition of its gangs (02 R34). -/
def stopGangs (s : State) (p : Nat) : State :=
  let ls := ((s.part p).units.filter fun u => 1 < u.2.groles).map fun u => u.2.launch
  let others := (ls.flatMap fun l => s.gangParts l).dedup.filter fun q => q != p
  s.postAll ((others.filter fun q => (s.part q).running.isSome && !(s.part q).paused).map fun q => .stop q)

def updUnit (s : State) (p u : Nat) (f : UnitRec → UnitRec) : State :=
  s.updPart p fun x => { x with units := x.units.map fun e => if e.1 = u then (u, f e.2) else e }

/-- The partition that a partition-role entry names (02 R30). -/
def entryPart (e : Word) : Option Nat := if e.getLsbD 31 then some (bitsOf e.toNat 4 0) else none
/-- A gang whose parts have come back is resumed by the protocol once every role's unit runs where its table says
(02 R34; 13 R283); a table that breaks R32 is refused with 0x02, a gang that needs an offline partition with 0x06. -/
def resumeGang (s : State) (p : Nat) (u : UnitRec) : State :=
  let where_ := (List.range u.groles).map fun r => entryPart (u.ptable.get 0 r)
  let d := dieOfPart p
  if where_.any Option.isNone || !where_.Nodup then s.refusal d u.ctx 0x02 (BitVec.ofNat 64 (s.launch u.launch).addr) else
  let ps := where_.filterMap id
  if ps.any fun q => (s.part q).offline then s.refusal d u.ctx 0x06 (BitVec.ofNat 64 (s.launch u.launch).addr) else
  let there (e : Nat × Nat) : Bool := (s.part e.2).running = some u.ctx && !(s.part e.2).paused &&
    (s.part e.2).units.any fun y => y.2.launch = u.launch && y.2.prole = e.1 && y.2.waiting
  if !((List.range u.groles).zip ps).all there || s.gangs.any (fun g => g.2.launch = u.launch) then s else
  let g := s.nextGang
  let gang : Gang := { launch := u.launch, agent := p, parts := ps, since := (s.core (24 * p)).cyc, resume := true }
  (State.postAll { s with gangs := s.gangs.set g gang, nextGang := g + 1 } (ps.map fun q => .reserve q g false)).postAfter
    (24 * p) 2048 (.gangCollectTimeout g)
/-- The gang units of a partition that have started. -/
def gangUnits (s : State) (p : Nat) : Map UnitRec := (s.part p).units.filter fun e => 1 < e.2.groles && 0 < e.2.live
/-- Let a partition run what is on it: gangs wait, with all that their teams have on its cores, until the protocol has
brought back every part (02 R34); the rest goes on. -/
def goPart (s : State) (p : Nat) : State :=
  let s := (s.gangUnits p).foldl (fun (s : State) e => s.updUnit p e.1 fun u => { u with waiting := true }) s
  let s := s.startPart p
  (s.gangUnits p).foldl (fun (s : State) e => s.resumeGang p e.2) s

/-! ## STOP, SWAP, RESUME, ENTER -/

/-- Bring the running context of a partition to rest; false while something of it is in flight (14 R290, R291). A stop
that reaches it during a cut applies from the cut's pause (R309). -/
def bringToRest (s : State) (p h : Nat) : State × Bool :=
  if (s.ctx h).alm.inCut then (s.updPart p fun x => { x with stopping := true }, false) else
  let s := if (s.part p).stopping then (s.updPart p fun x => { x with stopping := false }).stopGangs p
    else if (s.part p).paused then s
    else (s.pausePart p (s.part p).drain).stopGangs p
  if s.drained p then (s.capturePart p h, true) else (s, false)

def stopPart (s : State) (p : Nat) : State :=
  let x := s.part p
  if x.offline then s.finish p 1 0x09 else
  match x.running with
  | none => s.finish p 1 0x01
  | some h =>
    let (s, done) := s.bringToRest p h
    if done then (s.updPart p fun x => { x with running := none, inPlace := some h }).finish p 1 0 else s.post (.stop p)

/-- The cores of a partition that hold teams start under the ramp (13 R286). -/
def rampPart (s : State) (p : Nat) : State :=
  s.eachCore p fun s c => if (s.cc c).teams.isEmpty then s else s.coreChange c true

/-- A core whose context goes on where it stands: its teams are admitted afresh (03 R419). -/
def readmitCore (s : State) (c : Nat) : State := (s.updCc c CoreCtx.readmit).updCore c fun x => { x with gated := false }

/-- The standby and what is on the core arrays change places (14 R296). A core that the standby does not use keeps what the
outgoing context has there, gated; one in which neither has state is the incoming context's (DESIGN CHOICE: note 113). -/
def exchange (s : State) (p : Nat) (y : SavedPart) : State :=
  let x := s.part p
  let out : Option SavedPart := (x.running.orElse fun _ => x.inPlace).map fun h => s.savePart p h
  let stays (e : Nat × CoreCtx) : Bool := (y.cores.find e.1).isNone && !emptyCore e.2
  let back := (s.gatedCores p).map fun e => 24 * p + e.1
  let keep := (out.toList.flatMap fun z => z.cores.filter stays).map fun e => 24 * p + e.1
  let s := keep.foldl (fun (s : State) c => s.updCore c fun z => { z with gated := true }) s
  let s := (s.clearPart p).installPart p y
  let s := back.foldl (fun (s : State) c => s.readmitCore c) s
  let out := out.map fun z => { z with cores := z.cores.filter fun e => !stays e }
  let s := (s.updPart p fun z => { z with standby := out, running := some y.ctx, inPlace := none }).rampPart p
  s.goPart p

/-- MACHINE with reason 5 for the warps of a saved part that cannot be brought in (22 R404). -/
def hurtStandby (y : SavedPart) : SavedPart :=
  { y with cores := y.cores.map fun e => (e.1, { e.2 with warps := e.2.warps.map fun w =>
      (w.1, w.2.updTrap fun q => { q with async := q.async ++ [machineTrap 5 0 0] }) }) }

/-- SWAP; a damaged shadow store is not brought in (22 R395; DESIGN CHOICE: note 114), a context that is being cut waits for
its cut (14 R302). -/
def swapPart (s : State) (p : Nat) : State :=
  let x := s.part p
  if x.offline then s.finish p 2 0x09 else
  match x.standby with
  | none => s.finish p 2 0x01
  | some y =>
    if s.damage.shadows.contains p then
      (State.updPart { s with damage := { s.damage with shadows := s.damage.shadows.filter (· != p) } } p fun z =>
        { z with standby := some (hurtStandby y) }).finish p 2 0x08
    else if (s.ctx y.ctx).alm.inCut && x.running != some y.ctx then s.post (.swap p)
    else match x.running with
    | none => (s.exchange p y).finish p 2 0
    | some h =>
      let (s, done) := s.bringToRest p h
      if done then (s.exchange p y).finish p 2 0 else s.post (.swap p)

def resumePart (s : State) (p : Nat) : State :=
  let x := s.part p
  if x.offline then s.finish p 3 0x09 else
  match x.inPlace with
  | none => s.finish p 3 0x01
  | some h =>
    if (s.ctx h).alm.inCut then s.post (.resume p) else
    let s := s.eachCore p fun s c => s.readmitCore c
    ((s.updPart p fun x => { x with running := some h, inPlace := none }).goPart p).finish p 3 0

def enterPart (s : State) (p : Nat) : State :=
  let x := s.part p
  let h := bitsOf x.pctxh.toNat 9 0
  if x.offline then s.finish p 6 0x09
  else if x.running.isSome || (x.inPlace.isSome && x.standby.isSome) then s.finish p 6 0x0B
  else if !(s.ctx h).valid then s.finish p 6 0x0C
  else if (s.ctx h).alm.inCut then s.post (.enter p)
  else
    let s := match x.inPlace with
      | some g =>
        let out := s.savePart p g
        s.updPart p fun z => { z with standby := some out, inPlace := none }
      | none => s
    let s := (s.clearPart p).installPart p { ctx := h, home := p, cores := [], units := [] }
    ((s.updPart p fun z => { z with running := some h }).goPart p).finish p 6 0

/-! ## DEMOTE and LOAD -/

/-- A physical range that an image can be written to: device memory or the second tier. -/
def imageRoom (s : State) (pa n : Nat) : Bool :=
  pa % 64 = 0 && ((isDevice pa && pa + n ≤ deviceEnd) || (isTier pa && pa % 2 ^ 46 + n ≤ s.tierSize))

/-- The Vigil slots assigned to a context. -/
def slotsOf (s : State) (h : Nat) : List Nat := (s.vigil.slots.filter fun e => e.2.owner = some h).map Prod.fst

/-- Write a saved part as an image (14 R297): header and tables; what follows them is not specified. `none` where it
cannot be written. -/
def writeImage (s : State) (d pa : Nat) (y : SavedPart) : Option State :=
  let kid := (s.ctx y.ctx).kidreg
  let tables := y.units.flatMap fun e => tableBytes e.2
  let (x, s) := s.fresh
  let len := ceilDiv (64 + tables.length) 64 + x.toNat
  if !s.imageRoom pa (64 * len) || s.kidBad pa kid then none else
  let head := imageHeader 1 len y.units.length ++ tables
  let n := 64 * len - head.length
  let bytes := head ++ (List.range n).map fun i => (Config.freeWord (s.free + i)).extractLsb' 0 8
  let s := State.physWrite { s with free := s.free + n } d y.ctx kid pa bytes
  let s : State := { s with damage := { s.damage with images := s.damage.images.filter (· != pa) } }
  let img : SavedPart := { y with bytes := bytes, vslots := s.slotsOf y.ctx, loaded := false }
  some (s.updCtx y.ctx fun c => { c with images := c.images.set pa img })

/-- The standby of a partition, together with what of it is still on the core arrays, goes to its image; the cores that it
leaves are free. -/
def demotePart (s : State) (p : Nat) : State :=
  let x := s.part p
  if x.offline then s.finish p 4 0x09 else
  match x.standby with
  | none => s.finish p 4 0x01
  | some y => match s.writeImage (dieOfPart p) x.pimg.toNat (s.wholeStandby p y) with
    | none => s.finish p 4 0x0A
    | some s =>
      let h := (x.running.orElse fun _ => x.inPlace).getD 0
      let s := (s.gatedCores p).foldl (fun (s : State) e =>
        (s.updCc (24 * p + e.1) fun _ => { ctx := h }).updCore (24 * p + e.1) fun z => { z with gated := false }) s
      (s.updPart p fun x => { x with standby := none }).finish p 4 0

/-- Does an uncorrectable error stand in n bytes of an image (22 R404)? -/
def imageHurt (s : State) (pa n : Nat) : Bool :=
  s.damage.images.contains pa || s.damage.words.any fun w => decide (pa ≤ 4 * w ∧ 4 * w < pa + n)

/-- The context image at a physical address and the part that it holds, read under its context's key ID (14 R297, R308): one
that this module wrote, here or where its bytes have been copied to, or one of another module. -/
def imageAt (s : State) (d pa : Nat) : Option (Nat × SavedPart) :=
  let bytes (h n : Nat) : List Byte := (s.physRead d (s.ctx h).kidreg pa n).2
  let own (h : Nat) (f : Nat × SavedPart) : Bool :=
    let n := f.2.bytes.length
    if s.kidBad pa (s.ctx h).kidreg || s.imageHurt pa n then f.1 = pa else s.imageRoom pa n && bytes h n = f.2.bytes
  let mine := s.ctxs.findSome? fun e => (e.2.images.find? (own e.1)).map fun f => (e.1, f.2)
  let foreign (e : Nat × Context) : Option (Nat × SavedPart) :=
    let n := 64 * (leNat (bytes e.1 8) / 2 ^ 16)
    if !e.2.valid || s.kidBad pa e.2.kidreg || !s.imageRoom pa n then none else
    match Config.foreignImage (bytes e.1 n) with
    | some y => if y.ctx = e.1 then some (e.1, { y with bytes := bytes e.1 n }) else none
    | none => none
  mine.orElse fun _ => s.ctxs.findSome? foreign

/-- The tables that a LOAD installs: at PBIND, else the image's own (14 R420). -/
def loadTables (s : State) (d pbind pa kid : Nat) (y : SavedPart) : State × Option Tables :=
  let base := if pbind = 0 then pa + 64 else pbind
  let n := 224 * y.units.length
  if pbind != 0 && (pbind % 64 != 0 || deviceEnd < pbind + n) then (s, none) else
  let (s, bs) := s.physRead d (if pbind = 0 then kid else 0) base n
  (s, some (y.units.zipIdx.map fun e => (e.1.1, readTable ((bs.drop (224 * e.2)).take 224))))

/-- Is the version of every matrix save image of a part accepted (14 R298)? A core without one has the header 0. -/
def matrixVersOk (y : SavedPart) : Bool :=
  y.cores.all fun e => e.2.matrix.header = 0#256 || e.2.matrix.header.extractLsb' 0 16 = 1#16

def loadPart (s : State) (p : Nat) : State :=
  let x := s.part p
  let d := dieOfPart p
  let pa := x.pimg.toNat
  if x.offline then s.finish p 5 0x09
  else if x.standby.isSome then s.finish p 5 0x02
  else match s.imageAt d pa with
  | none => (s.physRead d 0 pa 64).1.finish p 5 0x03
  | some (h, y) =>
    let kid := (s.ctx h).kidreg
    if s.kidBad pa kid then s.finish p 5 0x07
    else if s.imageHurt pa y.bytes.length then s.finish p 5 0x08 else
    let s := (s.physRead d kid pa y.bytes.length).1
    if y.bytes.take 64 != imageHeader 1 (y.bytes.length / 64) y.units.length then s.finish p 5 0x03
    else if !matrixVersOk y then s.finish p 5 0x04
    else match s.loadTables d x.pbind.toNat pa kid y with
    | (s, none) => s.finish p 5 0x05
    | (s, some t) =>
      if !tablesOk y t || !namesOk y t then s.finish p 5 0x05
      else if !y.vslots.all fun k => (s.slotsOf h).contains k then s.finish p 5 0x06
      else if !tablesFit y t then s.finish p 5 0x0E
      else
        let z : SavedPart := { rebind y t with loaded := false }
        let s := s.updCtx h fun c => { c with images := c.images.map fun e =>
          (e.1, if e.2.bytes = y.bytes then { e.2 with loaded := true } else e.2) }
        (s.updPart p fun x => { x with standby := some z }).finish p 5 0

end State

/-- STOP. -/
def execStop (part : Nat) (s : State) : Host.Outcome State Fault Refusal :=
  if !partOk part then .fault .noSuchUnit else .next (s.stopPart part)
/-- SWAP. -/
def execSwap (part : Nat) (s : State) : Host.Outcome State Fault Refusal :=
  if !partOk part then .fault .noSuchUnit else .next (s.swapPart part)
/-- RESUME. -/
def execResume (part : Nat) (s : State) : Host.Outcome State Fault Refusal :=
  if !partOk part then .fault .noSuchUnit else .next (s.resumePart part)
/-- DEMOTE. -/
def execDemote (part : Nat) (s : State) : Host.Outcome State Fault Refusal :=
  if !partOk part then .fault .noSuchUnit else .next (s.demotePart part)
/-- LOAD. -/
def execLoad (part : Nat) (s : State) : Host.Outcome State Fault Refusal :=
  if !partOk part then .fault .noSuchUnit else .next (s.loadPart part)
/-- ENTER. -/
def execEnter (part : Nat) (s : State) : Host.Outcome State Fault Refusal :=
  if !partOk part then .fault .noSuchUnit else .next (s.enterPart part)
/-- PCTL_RESERVED_COMMAND. -/
def execPctlReservedCommand (part : Nat) (s : State) : Host.Outcome State Fault Refusal :=
  if !partOk part then .fault .noSuchUnit else .next (s.finish part 7 0x0D)
/-- PARTITION_COMMAND_COMPLETE. -/
def execPartitionCommandComplete (part : Nat) (s : State) : Host.Outcome State Fault Refusal :=
  if !partOk part then .fault .noSuchUnit else .next (s.commandDone part)

end Sys2Proof.Machine
end

