-- ==== Sys2Proof/Machine/Launch.lean ====
section
/-! DEFINITION. Launches (13 R275 to R279, R281, R282; 22 R392): the checks of a descriptor, its refusal, the shares of a
grid, and the log of a recorded launch (17 R345; 23 R416). -/

namespace Sys2Proof.Machine

/-! ## Replay control block (23 R416) -/

def rpMode (b : Block) : Nat := bitsOf b.toNat 1 0
def rpL (b : Block) : Nat := bitsOf b.toNat 127 96
def rpLog (b : Block) : DWord := b.extractLsb' 128 64
def rpPos (b : Block) : DWord := b.extractLsb' 192 64
def rpTab (b : Block) : DWord := b.extractLsb' 256 64
def rpNr (b : Block) : Nat := bitsOf b.toNat 327 320
/-- The address of log entry e. -/
def rpEntry (b : Block) (e : Nat) : DWord := rpLog b + BitVec.ofNat 64 (128 * e)

/-! ## The checks -/

/-- Does a descriptor break its layout (13 R277, 0x01)? -/
def ldFieldBad (d : Block) : Bool :=
  bitsOf d.toNat 511 416 != 0 || bitsOf d.toNat 255 250 != 0 || bitsOf d.toNat 247 245 != 0 || bitsOf d.toNat 239 237 != 0 ||
    ldBlocks d = 0 || 2 ≤ ldDisp d || ldGrid d = 0 || (ldEntry d).toNat % 4 != 0 || ldMode0 d &&& 0xFFFFE0E8#32 != 0#32 ||
    24 < ldTroles d || 64 < ldNwin d || 64 < ldNctr d
/-- Can one team not fit an empty core (0x03)? -/
def ldFitBad (d : Block) : Bool := 128 < ldWarps d * ldBlocks d || 24 < ldTroles d

namespace State

/-- The held set of a context, ascending (14 R293). -/
def heldSet (s : State) (h : Nat) : List Nat := (s.parts.filter fun e => e.2.running = some h).map Prod.fst
/-- The partitions that PMASK allows. -/
def allowedParts (s : State) (h : Nat) (d : Block) : List Nat :=
  let ps := s.heldSet h
  if ldPmask d = 0#32 then ps else (ps.zipIdx.filter fun e => (ldPmask d).getLsbD e.2).map Prod.fst

/-- The window descriptors of WTAB (R275, R276): none where one cannot be read or breaks R53 or R83. -/
def readWtab (s : State) (d h : Nat) (desc : Block) : Option (Map DWord) :=
  let one (w : Nat) : Option (Nat × DWord) := match s.vaRead d h kLoad (ldWtab desc + BitVec.ofNat 64 (8 * w)) 8 with
    | .error _ => none
    | .ok (_, bs) =>
      let x : DWord := BitVec.ofNat 64 (leNat bs)
      if !wdV x then some (w, 0) else if wdescReserved x || !wdescOk x then none else some (w, x)
  let l := (List.range (ldNwin desc)).map one
  if l.any Option.isNone then none else some (l.filterMap id)

/-- The state after those reads. -/
def touchWtab (s : State) (d h : Nat) (desc : Block) : State :=
  (List.range (ldNwin desc)).foldl (fun s w => match s.vaRead d h kLoad (ldWtab desc + BitVec.ofNat 64 (8 * w)) 8 with
    | .ok (s, _) => s
    | .error _ => s) s

/-- Why a descriptor is refused, if it is (13 R277; 22 R392). -/
def launchBad (s : State) (die h : Nat) (d : Block) : Option Nat :=
  let ps := s.allowedParts h d
  let on := ps.filter fun p => !(s.part p).offline
  if ldFieldBad d then some 0x01
  else if ldFitBad d then some 0x03
  else if ps.isEmpty || (1 < ldGroles d && (ps.length < ldGroles d || ldGrid d != 1)) then some 0x04
  else if (s.readWtab die h d).isNone || (ldCctr d != 0#64 && (s.agentHome die h (ldCctr d)).isNone) then some 0x05
  else if on.isEmpty || (1 < ldGroles d && on.length < ldGroles d) then some 0x06
  else none

/-- Refuse a launch (13 R277): the record, REFCTR, and the units' adds at once. -/
def refuseLaunch (s : State) (core h code addr : Nat) (d : Block) : State :=
  let s := s.refusal (dieOfCore core) h code (BitVec.ofNat 64 addr)
  if ldCctr d = 0#64 then s
  else s.agentAddBig core h .launch (ldCctr d) (BitVec.ofNat 64 (ldGrid d * (ldCinc d).toNat)) 5

/-! ## The log -/

/-- The replay control block of a context, where it has one. -/
def replayBlock (s : State) (d h : Nat) : Option (State × Block) :=
  let x := s.ctx h
  if x.rpcb = 0#64 then none else
  match s.readBlock d h kLoad x.rpcb with
  | .ok (s, b) => if bitsOf b.toNat 511 328 = 0 && bitsOf b.toNat 63 2 = 0 then some (s, b) else none
  | .error _ => none

/-- An agent logs a descriptor in record mode, or counts it in replay mode (17 R345, R346): its log entry. -/
def logLaunch (s : State) (core h : Nat) (desc : Block) : Option Nat × State :=
  let d := dieOfCore core
  match s.replayBlock d h with
  | none => (none, s)
  | some (s, b) =>
    if rpMode b = 1 then
      match s.agentHome d h (rpPos b) with
      | none => (none, s)
      | some home =>
        let p := (s.ctrRead d home).toNat
        if rpL b ≤ p then
          if (s.ctx h).logFull then (none, s)
          else (none, (s.updCtx h fun x => { x with logFull := true }).faultRecord h 0x26 core 0 0)
        else match s.ctrAdd d h home 1 with
          | none => (none, s)
          | some (_, s) =>
            match s.vaWrite d h kStore (rpEntry b p) (leBytes 64 desc.toNat) with
            | .ok s => (some p, s)
            | .error _ => (some p, s)
    else if rpMode b = 2 && !(s.ctx h).replayStopped then
      (some (s.ctx h).replayPos, s.updCtx h fun x => { x with replayPos := x.replayPos + 1 })
    else (none, s)

/-! ## Dispatch -/

/-- The cores of a lazy launch (13 R282): of each partition as many whole units as it has cores for. -/
def lazyCores (s : State) (ps : List Nat) (troles : Nat) : List Nat :=
  ps.flatMap fun p =>
    let cs := (coresOf p).filter fun c => !(s.core c).gated
    cs.take (cs.length / max 1 troles * troles)

/-- Ask the cores of partitions to admit what waits (13 R280). -/
def askCores (s : State) (ps : List Nat) : State := s.postAll ((ps.flatMap coresOf).map fun c => .coreAdmission c)

/-- Send RESERVE to every partition of a gang (13 R283). -/
def sendReserve (s : State) (g : Nat) : State :=
  match s.gangs.find g with
  | none => s
  | some x =>
    let core := 24 * x.agent
    let y : Gang := { x with phase := 0, agreed := [], confirmed := [], since := (s.core core).cyc }
    (State.postAll { s with gangs := s.gangs.set g y } (x.parts.map fun p => .reserve p g x.ticket.isSome)).postAfter core 2048
      (.gangCollectTimeout g)

/-- Start the dispatch of a launch that passed its checks. -/
def placeLaunch (s : State) (core h addr : Nat) (desc : Block) (log : Option Nat) : State :=
  let die := dieOfCore core
  let ps := (s.allowedParts h desc).filter fun p => !(s.part p).offline
  let l := s.nextLaunch
  let dies := (ps.map dieOfPart).dedup
  let gang := 1 < ldGroles desc
  let lazy := if !gang && ldDisp desc = 1 then s.lazyCores ps (ldTroles desc) else []
  let r : LaunchRec :=
    { ctx := h, addr := addr, desc := desc, parts := ps, wdescs := (s.readWtab die h desc).getD [], log := log, lazy := lazy,
      tickets := if gang || ldDisp desc = 1 then [] else dies.foldl (fun (m : Map DWord) d => m.set d 0) [],
      total := if gang then ldGroles desc else if ldDisp desc = 1 then lazy.length / ldTroles desc else ldGrid desc }
  let s : State := { s with launches := s.launches.set l r, nextLaunch := l + 1 }
  if gang then
    let g := s.nextGang
    let x : Gang := { launch := l, agent := partOfCore core, parts := ps.take (ldGroles desc) }
    State.sendReserve { s with gangs := s.gangs.set g x, nextGang := g + 1 } g
  else s.askCores ps

/-- An agent takes a descriptor (13 R277): `logged` where it counts in the log. -/
def takeLaunch (s : State) (core h addr : Nat) (desc : Block) (logged : Bool) : State :=
  let (log, s) := if logged then s.logLaunch core h desc else (none, s)
  let s := s.touchWtab (dieOfCore core) h desc
  match s.launchBad (dieOfCore core) h desc with
  | some code =>
    let s := s.refuseLaunch core h code addr desc
    match log with
    | some e => if ldCctr desc = 0#64 then s else s.post (.replayDigest h e)
    | none => s
  | none => s.placeLaunch core h addr desc log

/-- Does the partition of a core run a context? -/
def runsOn (s : State) (core h : Nat) : Bool :=
  let p := s.part (partOfCore core)
  p.running = some h && !p.paused && !p.offline

/-- A posted descriptor: a core's own agent takes the head of its launch queue, another agent the one named. -/
def descriptorTake (s : State) (agent h addr : Nat) (desc : Block) : State :=
  let core := agentCore agent
  if agent < 1024 then
    if s.runsOn core h then s.takeLaunch core h addr desc true else s.post (.launchDescriptorTake agent h addr desc)
  else if !s.coreRuns core then s
  else match (s.cc core).launchQ with
    | [] => s
    | (a, d) :: rest => (s.updCc core fun x => { x with launchQ := rest }).takeLaunch core (s.cc core).ctx a d false

end State

/-- LAUNCH_DESCRIPTOR_TAKE. -/
def execLaunchDescriptorTake (agent ctx addr : Nat) (desc : Block) (s : State) : Host.Outcome State Fault Refusal :=
  if !coreOk (agentCore agent) || (32 ≤ agent && agent < 1024) then .fault .noSuchUnit else .next (s.descriptorTake agent ctx addr desc)

end Sys2Proof.Machine
end

