-- ==== Sys2Proof/Machine/Gangs.lean ====
section
/-! DEFINITION. The reserve-and-commit protocol (13 R283 to R285; 22 R392 to R394; 02 R34): the partition's part, the
submitter's part, the gang tickets, and a submitter that freezes. -/

namespace Sys2Proof.Machine

namespace State

def updGang (s : State) (g : Nat) (f : Gang → Gang) : State :=
  { s with gangs := s.gangs.map fun e => if e.1 = g then (g, f e.2) else e }

/-! ## Partitions -/

/-- Distinct cores of a partition with room for a team of a descriptor each: core, WBASE, CBASE. -/
def troupePlace (s : State) (p : Nat) (d : Block) : Option (List (Nat × Nat × Nat)) :=
  let l := (coresOf p).filterMap fun c => (s.room c d).map fun e => (c, e.1, e.2)
  if l.length < ldTroles d then none else some (l.take (ldTroles d))

/-- The unit of a gang's launch that waits on a partition. -/
def waitingUnit (s : State) (p l : Nat) : Option Nat :=
  ((s.part p).units.find? fun u => u.2.launch = l && u.2.waiting && 0 < u.2.live).map Prod.fst
/-- A unit of a gang that a COMMIT has entered and that has not started. -/
def committedUnit (g : Nat) (u : UnitRec) : Bool := u.gang = some g && u.live = 0

/-- What a partition would reserve for a gang, by troupe role; nothing where it cannot take it. -/
def gangRoom (s : State) (p : Nat) (g : Gang) : Option (Map Word) :=
  let r := s.launch g.launch
  if !s.runsOn (24 * p) r.ctx then none
  else if g.resume then (s.waitingUnit p g.launch).map fun _ => []
  else (s.troupePlace p r.desc).map fun l => (List.range l.length).zip (l.map fun e => troupeEntry (e.1 % 24) e.2.1 e.2.2)

/-- RESERVE(g) at a partition. -/
def reserveAt (s : State) (p g : Nat) (ticketed : Bool) : State :=
  match s.gangs.find g with
  | none => s
  | some x =>
    let y := s.part p
    let no (s : State) : State := s.post (.refuse g p)
    if y.offline then no s else
    match y.gang with
    | .free =>
      if y.mark.any (· != g) then no s else
      match s.gangRoom p x with
      | none => no s
      | some res =>
        let now := (s.core (24 * p)).cyc
        let s := s.updPart p fun z => { z with gang := .heldFor g, heldSince := now, reserved := res, mark := none }
        (s.post (.agree g p)).postAfter (24 * p) 16384 (.gangHoldTimeout p g)
    | .heldFor x =>
      if x = g then s.post (.agree g p)
      else no (if ticketed then s.updPart p fun z => { z with mark := some g } else s)
    | .committed _ => no s

/-- COMMIT(g): of a launch, the entries of the gang's unit go into the binding tables (13 R283). -/
def commitAt (s : State) (p g : Nat) : State :=
  if (s.part p).gang != .heldFor g then s.post (.withdraw g p) else
  let s := s.updPart p fun z => { z with gang := .committed g }
  let s := match s.gangs.find g with
    | some x =>
      if x.resume then s else
      let role := x.parts.idxOf p
      let table : Map Word := (List.range x.parts.length).zip (x.parts.map partEntry)
      (s.enterUnit p { s.newUnit x.launch role role (some g) (s.part p).reserved table with waiting := true }).1
    | none => s
  s.post (.confirm g p)

/-- ROLLBACK(g): the reservation of a gang is released, and its entries are cleared from the binding tables. -/
def freeGang (s : State) (p g : Nat) : State :=
  let x := (s.part p).gang
  if x = .heldFor g || x = .committed g then
    let others (us : Map UnitRec) : Map UnitRec := us.filter fun u => !committedUnit g u.2
    (s.updPart p fun z => { z with
      gang := .free, reserved := [], units := others z.units
      standby := z.standby.map fun y => { y with units := others y.units } }).askCores [p]
  else s

/-- The cores of a gang's unit, by die, partition and core. -/
def gangCores (s : State) (g : Nat) (ps : List Nat) : List Nat :=
  (ps.foldl (fun (m : Map Nat) p => m.set p 0) []).flatMap fun e =>
    (((s.part e.1).units.filter fun u => committedUnit g u.2).flatMap fun u =>
      (u.2.ttable.foldl (fun (m : Map Nat) t => m.set (bitsOf t.2.toNat 4 0) 0) []).map fun t => 24 * e.1 + t.1)

/-- A core of a lazy launch takes its range, and the steal requests that waited for it to start (13 R282). -/
def setLazy (s : State) (l c : Nat) : State :=
  let r := s.launch l
  let j := r.lazy.idxOf c
  if r.lazy.length ≤ j then s else
  let e := s.unstartedRange l j
  let s := s.updCc c fun x => { x with
    lazyNext := e.1, lazyEnd := e.2, lazyLaunch := some l, lazyIndex := j, stealOut := false, steals := r.asks.get [] j }
  (s.updLaunch l fun r => { r with asks := r.asks.del j }).forwardSteals l j 65

/-- START(g): the gang's teams begin; the partition is free. -/
def startAt (s : State) (p g : Nat) : State :=
  match s.gangs.find g with
  | none => s
  | some x =>
    if (s.part p).gang != .committed g then s else
    let r := s.launch x.launch
    if !s.runsOn (24 * p) r.ctx then s.post (.start p g) else
    let s := s.updPart p fun z => { z with gang := .free, reserved := [] }
    let s := if x.resume then
        match s.waitingUnit p x.launch with
        | some u =>
          let s := s.updUnit p u fun y => { y with waiting := false }
          (s.partCores p).foldl (fun (s : State) c => s.startEngines c) s
        | none => s
      else match (s.part p).units.find? fun u => committedUnit g u.2 with
        | some (u, y) =>
          let cores : List Nat := y.ttable.map fun e => 24 * p + bitsOf e.2.toNat 4 0
          (cores.foldl (fun (s : State) c => s.setLazy x.launch c) s).beginUnit p u
        | none => s
    let rest := x.confirmed.filter (· != p)
    if rest.isEmpty then { s with gangs := s.gangs.del g } else s.updGang g fun y => { y with confirmed := rest }

/-- A hold that has lasted 16,384 of the partition's cycles ends. -/
def holdEnds (s : State) (p g : Nat) : State :=
  if (s.part p).gang = .heldFor g && (s.part p).heldSince + 16384 ≤ (s.core (24 * p)).cyc then s.freeGang p g else s

/-! ## The submitter -/

/-- A gang is served: the next ticket's turn comes (R284). -/
def serveNext (s : State) : State :=
  let s := { s with gsv := s.gsv + 1 }
  let ready := (s.gangs.filter fun e => e.2.phase = 3 && (match e.2.ticket with
    | some t => t ≤ s.gsv
    | none => false)).map Prod.fst
  ready.foldl (fun (s : State) g => s.sendReserve g) s

/-- A gang's launch or resume is given up with a refusal; a ticket it holds is served. -/
def giveUp (s : State) (g code : Nat) : State :=
  match s.gangs.find g with
  | none => s
  | some x =>
    let r := s.launch x.launch
    let core := 24 * x.agent
    let s := { s with gangs := s.gangs.del g }
    let s := if x.resume then s.refusal (dieOfCore core) r.ctx code (BitVec.ofNat 64 r.addr)
      else State.refuseLaunch { s with launches := s.launches.del x.launch } core r.ctx code r.addr r.desc
    let s := match r.log with
      | some e => if x.resume || ldCctr r.desc = 0#64 then s else s.post (.replayDigest r.ctx e)
      | none => s
    if x.ticket.isSome then s.serveNext else s

/-- The next attempt of a gang: it is given up where only offline partitions could serve it (22 R392). -/
def retryGang (s : State) (g : Nat) : State :=
  match s.gangs.find g with
  | none => s
  | some x =>
    let r := s.launch x.launch
    if x.resume then
      if x.parts.any fun p => (s.part p).offline then s.giveUp g 0x06
      else if x.parts.all fun p => (s.waitingUnit p x.launch).isSome && s.runsOn (24 * p) r.ctx then s.sendReserve g
      else
        let s := { s with gangs := s.gangs.del g }
        if x.ticket.isSome then s.serveNext else s
    else
      let on := r.parts.filter fun p => !(s.part p).offline
      if on.length < ldGroles r.desc then s.giveUp g 0x06
      else
        let parts := if x.parts.any fun p => (s.part p).offline then on.take (ldGroles r.desc) else x.parts
        (s.updGang g fun y => { y with parts := parts }).sendReserve g

/-- An attempt fails: ROLLBACK to all that agreed, a ticket after the first failure, and a retry (R283, R284). -/
def attemptFails (s : State) (g : Nat) : State :=
  match s.gangs.find g with
  | none => s
  | some x =>
    let s := s.postAll (x.agreed.map fun p => .rollback p g)
    match x.ticket with
    | some _ => s.retryGang g
    | none =>
      let t := s.gtk
      let s := { s with gtk := s.gtk + 1 }
      let s := s.updGang g fun y => { y with ticket := some t, phase := 3, agreed := [], confirmed := [] }
      if t ≤ s.gsv then s.retryGang g else s

/-- AGREE of a partition: with the last one the submitter commits. A reply outside COLLECT from a partition that has not
agreed to this attempt is rolled back. -/
def agreeFrom (s : State) (g p : Nat) : State :=
  match s.gangs.find g with
  | none => s.post (.rollback p g)
  | some x =>
    if x.phase = 0 && x.parts.contains p then
      let agreed := if x.agreed.contains p then x.agreed else x.agreed ++ [p]
      let s := s.updGang g fun y => { y with agreed := agreed }
      if x.parts.all agreed.contains then
        let core := 24 * x.agent
        let s := s.updGang g fun y => { y with phase := 1, since := (s.core core).cyc }
        (s.postAll (x.parts.map fun q => .commit q g)).postAfter core 2048 (.gangCollectTimeout g)
      else s
    else if x.phase ≤ 2 && x.agreed.contains p then s
    else s.post (.rollback p g)

/-- REFUSE or WITHDRAW of a partition. -/
def attemptRefused (s : State) (g p : Nat) : State :=
  match s.gangs.find g with
  | none => s
  | some x => if x.phase ≤ 1 && x.parts.contains p then s.attemptFails g else s

/-- CONFIRM of a partition: with the last one the start token goes out. -/
def confirmFrom (s : State) (g p : Nat) : State :=
  match s.gangs.find g with
  | none => s
  | some x =>
    if x.phase != 1 || !x.parts.contains p then s else
    let done := if x.confirmed.contains p then x.confirmed else x.confirmed ++ [p]
    let s := s.updGang g fun y => { y with confirmed := done }
    if x.parts.all done.contains then
      let s := if !x.resume && ldDisp (s.launch x.launch).desc = 1 then
          s.updLaunch x.launch fun r => { r with lazy := s.gangCores g x.parts }
        else s
      let s := (s.updGang g fun y => { y with phase := 2 }).postAll (x.parts.map fun q => .start q g)
      if x.ticket.isSome then s.serveNext else s
    else s

/-- The management controller rolls a gang back on every partition that has not received START, and clears its hand-on
marks (22 R394). -/
def clearGang (s : State) (g : Nat) (ps : List Nat) : State :=
  let s := ps.foldl (fun (s : State) p => s.freeGang p g) s
  let ps : Map Part := s.parts.map fun e => if e.2.mark = some g then (e.1, { e.2 with mark := none }) else e
  { s with parts := ps }
/-- It acts for a submitter that has frozen (22 R394). -/
def freezeGang (s : State) (g : Nat) : State :=
  match s.gangs.find g with
  | none => s
  | some x =>
    if x.phase = 2 then s else
    let s := s.clearGang g x.parts
    let s := (s.updGang g fun y => { y with ticket := none }).giveUp g 0x06
    s.serveNext

/-- 2,048 of the submitter's cycles have passed without every reply; a submitter that is offline is frozen. -/
def collectEnds (s : State) (g : Nat) : State :=
  match s.gangs.find g with
  | none => s
  | some x =>
    if (s.part x.agent).offline then s.freezeGang g
    else if x.phase ≤ 1 && x.since + 2048 ≤ (s.core (24 * x.agent)).cyc then s.attemptFails g else s

end State

/-- RESERVE. -/
def execReserve (part gang : Nat) (ticketed : Bool) (s : State) : Host.Outcome State Fault Refusal :=
  if !partOk part then .fault .noSuchUnit else .next (s.reserveAt part gang ticketed)
/-- COMMIT. -/
def execCommit (part gang : Nat) (s : State) : Host.Outcome State Fault Refusal :=
  if !partOk part then .fault .noSuchUnit else .next (s.commitAt part gang)
/-- ROLLBACK. -/
def execRollback (part gang : Nat) (s : State) : Host.Outcome State Fault Refusal :=
  if !partOk part then .fault .noSuchUnit else .next (s.freeGang part gang)
/-- START. -/
def execStart (part gang : Nat) (s : State) : Host.Outcome State Fault Refusal :=
  if !partOk part then .fault .noSuchUnit else .next (s.startAt part gang)
/-- AGREE. -/
def execAgree (gang part : Nat) (s : State) : Host.Outcome State Fault Refusal :=
  if !partOk part then .fault .noSuchUnit else .next (s.agreeFrom gang part)
/-- REFUSE. -/
def execRefuse (gang part : Nat) (s : State) : Host.Outcome State Fault Refusal :=
  if !partOk part then .fault .noSuchUnit else .next (s.attemptRefused gang part)
/-- CONFIRM. -/
def execConfirm (gang part : Nat) (s : State) : Host.Outcome State Fault Refusal :=
  if !partOk part then .fault .noSuchUnit else .next (s.confirmFrom gang part)
/-- WITHDRAW. -/
def execWithdraw (gang part : Nat) (s : State) : Host.Outcome State Fault Refusal :=
  if !partOk part then .fault .noSuchUnit else .next (s.attemptRefused gang part)
/-- GANG_HOLD_TIMEOUT. -/
def execGangHoldTimeout (part gang : Nat) (s : State) : Host.Outcome State Fault Refusal :=
  if !partOk part then .fault .noSuchUnit else .next (s.holdEnds part gang)
/-- GANG_COLLECT_TIMEOUT. -/
def execGangCollectTimeout (gang : Nat) (s : State) : Host.Outcome State Fault Refusal := .next (s.collectEnds gang)
/-- SUBMITTER_FREEZE. -/
def execSubmitterFreeze (gang : Nat) (s : State) : Host.Outcome State Fault Refusal := .next (s.freezeGang gang)
/-- PARTITION_OFFLINE. -/
def execPartitionOffline (part : Nat) (s : State) : Host.Outcome State Fault Refusal :=
  if !partOk part then .fault .noSuchUnit else .next (s.offlinePart part)

end Sys2Proof.Machine
end

