-- ==== Sys2Proof/Machine/Admission.lean ====
section
/-! DEFINITION. Admission (13 R280 to R282), spawn bins (02 R37, R38), Equinox (13 R286), activity budgets (13 R288, R289)
and SAVECOST (14 R307). -/

namespace Sys2Proof.Machine

/-- EQXCFG.K as it acts (13 R286). -/
def equinoxK (k : Nat) : Nat := if k = 0 then 1 else min k 192

/-- Insert a change in the order of its core. -/
def insertChange (x : Nat × Bool) : List (Nat × Bool) → List (Nat × Bool)
  | [] => [x]
  | y :: l => if x.1 < y.1 then x :: y :: l else y :: insertChange x l

namespace State

/-! ## Spawn bins -/

/-- May a bin launch (02 R37)? -/
def binReady (s : State) (c b : Nat) : Bool :=
  match (s.cc c).bins.find b with
  | none => false
  | some x => !x.threads.isEmpty && !s.gangWaits c ((x.threads.head?.map Prod.snd).getD 32) && (32 ≤ x.threads.length || x.expired)
/-- The team and WARPID of the warp that a bin launches, where the core has what it takes. -/
def binPlace (s : State) (c b : Nat) : Option (Nat × Team × Nat) :=
  let x := s.cc c
  match (x.bins.find b).bind fun y => y.threads.head? with
  | none => none
  | some (_, t) => match x.teams.find t with
    | none => none
    | some m =>
      let d := (s.launch m.launch).desc
      let r := s.reservedTeam c
      if 32 ≤ x.warps.length + r.1 || (s.freeBlocks c).length < r.2 + ldBlocks d then none
      else ((List.range 32).find? fun i => !m.wids.contains i).map fun i => (t, m, i)

/-- The lane registers of a spawned warp: free values but for v0 (02 R37). -/
def spawnRegs (free blocks : Nat) (args : List Word) : Map Word :=
  let specs := List.range (16 * blocks) ++ (List.range 10).map (112 + ·)
  specs.flatMap fun n => (List.range 32).map fun l => (32 * n + l,
    match n, args[l]? with
    | 0, some a => a
    | _, _ => Config.freeWord (free + 32 * n + l))

/-- A core has admitted a unit or a warp in this cycle (13 R280). -/
def admitted (s : State) (c : Nat) : State := s.updCore c fun x => { x with admitAt := x.cyc + 1 }
/-- May it admit another? -/
def mayAdmit (s : State) (c : Nat) : Bool := (s.core c).admitAt ≤ (s.core c).cyc

/-- A bin launches its warp: it empties and is unbound. -/
def binLaunch (s : State) (c b : Nat) : State :=
  match (s.cc c).bins.find b, s.binPlace c b, s.freeSlot c with
  | some x, some (t, m, wid), some k =>
    if !s.binReady c b || !s.coreRuns c then s
    else if !s.mayAdmit c then s.postAfter c 1 (.coreAdmission c) else
    let s := s.admitted c
    let d := (s.launch m.launch).desc
    let n := x.threads.length
    let lanes := (List.range 32).map fun j => (j, if j < n then ({ state := .runnable, pc := x.entry } : Lane) else {})
    let s := s.addWarp c k t wid d lanes
    let free := s.free
    let s : State := { s with free := free + 4096 }
    let s := s.updWarp c k fun w => { w with
      lreg := spawnRegs free (ldBlocks d) (x.threads.map Prod.fst)
      preds := (List.range 8).map fun i => (i, Config.freeWord (free + 4000 + i)) }
    s.updCc c fun y => { y with bins := y.bins.del b }
  | _, _, _ => s

/-- A bin's timer ends (02 R38): it stays expired until the bin launches. -/
def binExpires (s : State) (c b : Nat) : State :=
  match (s.cc c).bins.find b with
  | some x =>
    if x.threads.isEmpty || x.elapsed < x.period then s else
    (s.updCc c fun y => { y with bins := y.bins.set b { x with expired := true } }).post (.coreAdmission c)
  | none => s

/-! ## New units -/

/-- The dies in the order of a claim from die d (13 R281). -/
def claimOrder (d : Nat) : List Nat := [d, d ^^^ 1, d ^^^ 2, d ^^^ 3]
/-- A die's share of a grid: its first index and its size. -/
def dieShare (r : LaunchRec) (d : Nat) : Nat × Nat :=
  let n := r.tickets.length
  let i := (r.tickets.map Prod.fst).idxOf d
  let base := shareBase (ldGrid r.desc) n i
  (base, shareBase (ldGrid r.desc) n (i + 1) - base)

/-- Claim a unit for a core (13 R281): its index, if one is left. -/
def claim (s : State) (l c : Nat) : List Nat → State × Option Nat
  | [] => (s, none)
  | d :: rest =>
    let r := s.launch l
    if (r.tickets.find d).isNone || r.exhausted.contains (4 * c + d) then claim s l c rest else
    let v := (r.tickets.get 0 d).toNat
    let s := s.updLaunch l fun x => { x with tickets := x.tickets.set d (BitVec.ofNat 64 (v + 1)) }
    let (base, size) := dieShare r d
    if v < size then (s, some (base + v))
    else claim (s.updLaunch l fun x => { x with exhausted := x.exhausted ++ [4 * c + d] }) l c rest

/-- Cores for a new unit of a launch that core c claims: itself for a team, the lowest cores with room for a troupe. -/
def unitPlace (s : State) (c : Nat) (d : Block) : Option (List (Nat × Nat × Nat)) :=
  if ldTroles d = 1 then (s.room c d).map fun e => [(c, e.1, e.2)] else s.troupePlace (partOfCore c) d

/-- A new unit of a grid on a core, if one fits and one is left. -/
def admitUnit (s : State) (l c : Nat) : State × Bool :=
  let r := s.launch l
  let p := partOfCore c
  if r.tickets.isEmpty || !r.parts.contains p then (s, false) else
  match s.unitPlace c r.desc with
  | none => (s, false)
  | some place =>
    match s.claim l c (claimOrder (dieOfCore c)) with
    | (s, none) => (s, false)
    | (s, some i) => (s.startUnit p l i 0 none [(0, partEntry p)] place, true)

/-- A lazy launch's unit on a core (13 R282): once its cores have room and their own ranges are spent. -/
def admitLazy (s : State) (l c : Nat) : State × Bool :=
  let r := s.launch l
  let n := ldTroles r.desc
  let j := r.lazy.idxOf c
  if 1 < ldGroles r.desc || r.lazy.length ≤ j || r.cores.contains c then (s, false) else
  let unit := j / n
  let cores := (r.lazy.drop (unit * n)).take n
  let spent (k : Nat) : Bool :=
    let x := s.cc k
    x.lazyEnd ≤ x.lazyNext || x.lazyLaunch.all fun m => (s.launches.find m).isNone
  let place := cores.filterMap fun k => (s.room k r.desc).map fun e => (k, e.1, e.2)
  if place.length < n || !cores.all spent then (s, false) else
  let s := cores.foldl (fun (s : State) k => s.setLazy l k) s
  (s.startUnit (partOfCore c) l unit 0 none [(0, partEntry (partOfCore c))] place, true)

/-- The launches of a context in order. -/
def launchesOf (s : State) (h : Nat) : List Nat := (s.launches.filter fun e => e.2.ctx = h).map Prod.fst
/-- Admit a new unit of the first launch that has one for the core. -/
def admitNew (s : State) (c : Nat) : List Nat → State × Bool
  | [] => (s, false)
  | l :: ls =>
    let (s, ok) := if (s.launch l).lazy.isEmpty then s.admitUnit l c else s.admitLazy l c
    if ok then (s, true) else admitNew s c ls

/-- Has a launch a unit that has not started, which partition p may take? -/
def queued (s : State) (p : Nat) (r : LaunchRec) : Bool :=
  r.parts.contains p && ((r.tickets.any fun e => e.2.toNat < (dieShare r e.1).2) ||
    (ldGroles r.desc = 1 && r.lazy.any fun c => !r.cores.contains c) ||
    s.gangs.any fun g => g.2.phase ≤ 1 && (s.launch g.2.launch).addr = r.addr && g.2.parts.contains p)

/-- Does an evicted unit of a context wait only for room? -/
def metEvicted (s : State) (h : Nat) : Bool := s.parts.any fun q => q.2.evicted.any fun e => e.met && e.unit.ctx = h

/-- The promise of R41: with every resident team parked and a unit queued, new or evicted, one parked unit goes. -/
def evictOne (s : State) (p h : Nat) : State :=
  if !s.allParked h || !(((s.launches.filter fun e => e.2.ctx = h).any fun e => s.queued p e.2) || s.metEvicted h) then s else
  match ((s.part p).units.map Prod.fst).filter fun u => s.evictable p u with
  | [] => s
  | us =>
    let (x, s) := s.fresh
    s.post (.parkedEviction p (us.getD (x.toNat % us.length) 0))

/-- Look again for a parked unit to evict, where every team of a context waits (02 R41). -/
def askParked (s : State) (h : Nat) : State :=
  if s.allParked h && (!(s.launchesOf h).isEmpty || s.metEvicted h) then s.askCores (s.heldSet h) else s

/-- A core admits at most one unit or warp per cycle (13 R280). -/
def admitWork (s : State) (c : Nat) : State :=
  if !s.coreRuns c then s else
  let p := partOfCore c
  let h := (s.cc c).ctx
  let next (s : State) : State := s.postAfter c 1 (.coreAdmission c)
  let again (s : State) : State := next (s.admitted c)
  if !s.mayAdmit c then next s else
  match s.readmit p h with
  | some s => again s
  | none =>
    match (List.range 16).find? fun b => s.binReady c b && (s.binPlace c b).isSome && (s.freeSlot c).isSome with
    | some b => next (s.post (.spawnBinLaunch c b))
    | none =>
      let (s, ok) := s.admitNew c (s.launchesOf h)
      if ok then again s else s.evictOne p h

/-! ## Equinox -/

/-- A step of a die's Equinox (13 R286). -/
def equinox (s : State) (d : Nat) : State :=
  let x := s.die d
  let order := x.eqPending.foldl (fun l e => insertChange e l) []
  let k := equinoxK x.eqK
  let rest := order.drop k
  let s := (order.take k).foldl (fun (s : State) e =>
    if e.2 then s.updCore e.1 fun y => { y with granted := true } else s) s
  s.updDie d fun y => { y with eqPending := rest, eqWaiting := min rest.length 255 }

/-! ## Budgets and SAVECOST -/

/-- GUAR of a budget register. -/
def guar (e : Word) : Nat := bitsOf e.toNat 15 0

/-- A write of ABUDi (13 R288). -/
def writeAbud (s : State) (d i : Nat) (v : Word) : State :=
  let x := s.die d
  let sum := (List.range 12).foldl (fun n j => n + guar (if j = i then v else x.abud.get 0xFFFF0000#32 j)) 0
  if (Config.budCap d).toNat < sum then s.setDevsts 1 else s.updDie d fun y => { y with abud := y.abud.set i v }

/-- SAVECOST of a context for the die of its lowest partition role (14 R307). -/
def saveCost (s : State) (h d : Nat) : DWord × State :=
  let a := (s.ctx h).alm
  let cs := (s.ctxCores h).filter fun e => e.2.ran
  let blocks := cs.foldl (fun n e => n + e.2.dirtyBlocks.length) 0
  let lines := cs.foldl (fun n e => n + e.2.dirtyLines.length) 0
  let units := 8 * blocks + lines + 256 * a.dirty.length + 16 * a.dirtyCtr.length + 472 * cs.length
  let onCore (x : CoreCtx) : Nat := 2048 * x.dirtyBlocks.length + 256 * x.dirtyLines.length + 120832
  let most := cs.foldl (fun n e => max n (ceilDiv (onCore e.2) 1024)) 0
  let g := guar ((s.die d).abud.get 0xFFFF0000#32 0)
  let rate := if g = 0 then (Config.budCap d).toNat * 256 else g * 4096
  let per := (cs.map fun e => (s.die (dieOfCore e.1)).period).foldl max (s.die d).period
  let bytes := 65536 * a.dirty.length + 4096 * a.dirtyCtr.length
  let (x, s) := s.fresh
  let stream := if rate = 0 && bytes != 0 then x.toNat else ceilDiv bytes (max 1 rate) * per
  let est := ceilDiv (64 + most + stream) 64
  (pairOf (BitVec.ofNat 32 (min units (2 ^ 32 - 1))) (BitVec.ofNat 32 (min est (2 ^ 32 - 1))), s)

/-- A budget period of a die ends (13 R288, R289): waiting requests go on, SAVECOST is computed. -/
def endPeriod (s : State) (d cycles : Nat) : State :=
  let s := if (List.range 12).any fun i => s.budgetOut d i then s.countDie d 0x46 else s
  let s := s.updDie d fun x => { x with used := [], period := cycles }
  let s := (List.range 12).foldl (fun (s : State) i => s.unhold (budgetKey d i)) s
  let hs := (s.ctxs.filter fun e => (s.leadPart e.1).any fun p => dieOfPart p = d).map Prod.fst
  hs.foldl (fun (s : State) h =>
    let (v, s) := s.saveCost h d
    s.updAlm h fun a => { a with cost := v }) s

end State

/-- SPAWN_BIN_TIMER_EXPIRY. -/
def execSpawnBinTimerExpiry (core bin : Nat) (s : State) : Host.Outcome State Fault Refusal :=
  if !coreOk core then .fault .noSuchUnit else .next (s.binExpires core bin)
/-- SPAWN_BIN_LAUNCH. -/
def execSpawnBinLaunch (core bin : Nat) (s : State) : Host.Outcome State Fault Refusal :=
  if !coreOk core then .fault .noSuchUnit else .next (s.binLaunch core bin)
/-- CORE_ADMISSION. -/
def execCoreAdmission (core : Nat) (s : State) : Host.Outcome State Fault Refusal :=
  if !coreOk core then .fault .noSuchUnit else .next (s.admitWork core)
/-- EQUINOX_STEP. -/
def execEquinoxStep (die : Nat) (s : State) : Host.Outcome State Fault Refusal :=
  if !dieOk die then .fault .noSuchUnit else .next (s.equinox die)
/-- BUDGET_PERIOD. -/
def execBudgetPeriod (die cycles : Nat) (s : State) : Host.Outcome State Fault Refusal :=
  if !dieOk die then .fault .noSuchUnit else .next (s.endPeriod die cycles)
/-- ABUD_WRITE. -/
def execAbudWrite (die index : Nat) (value : Word) (s : State) : Host.Outcome State Fault Refusal :=
  if !dieOk die || 12 ≤ index then .fault .noSuchUnit else .next (s.writeAbud die index value)

end Sys2Proof.Machine
end

