-- ==== Sys2Proof/Machine/Almanac.lean ====
section
/-! DEFINITION. The Almanac (14 R301 to R306; 22 R397, R398): closes and cuts, the streaming of intervals, writes held on
pages of a closed set, intervals that become durable or are abandoned, and rollback. -/

namespace Sys2Proof.Machine

/-! ## The control block (14 R301) -/

def acbEn (b : Block) : Bool := b.getLsbD 0
def acbPeriod (b : Block) : Nat := bitsOf b.toNat 63 32
def acbDurctr (b : Block) : DWord := b.extractLsb' 64 64
def acbTierSize (b : Block) : Nat := bitsOf b.toNat 255 224
def acbTierBase (b : Block) : Nat := bitsOf b.toNat 319 256

/-- Pages of 64 KiB in a closed set, and counter pages. -/
def closedPages (iv : Interval) : Nat := (iv.closed.filter fun k => k < 2 ^ 40).length
def closedCtr (iv : Interval) : Nat := (iv.closed.filter fun k => 2 ^ 40 ≤ k).length
/-- Units of 64 KiB that an interval takes in the region. -/
def Interval.units (iv : Interval) : Nat := closedPages iv + ceilDiv (closedCtr iv) 16 + iv.extra

/-- Merge an interval into its successor (14 R305, R306): the successor's state of a page stands, and its number. -/
def Interval.merge (a b : Interval) : Interval :=
  { b with
    pages := b.pages.foldl (fun (m : Map (List Host.Cell)) e => m.set e.1 e.2) a.pages
    pre := a.pre.foldl (fun (m : Map (List Host.Cell)) e => m.set e.1 e.2) b.pre
    closed := a.closed ++ b.closed.filter fun k => !a.closed.contains k }

/-- Merge the oldest intervals until the chain and a new one take no more than `room` units. `n` bounds the merges. -/
def mergeChain (room new : Nat) : Nat → List Interval → List Interval
  | 0, l => l
  | n + 1, a :: b :: rest =>
    let l := a :: b :: rest
    if (l.map Interval.units).foldl (· + ·) 0 + new ≤ room then l else mergeChain room new n (a.merge b :: rest)
  | _, l => l

/-- The cells of a 4 KiB page among those of a larger one. -/
def subCells (p4 : Nat) (l : List Host.Cell) : List Host.Cell := l.filter fun e => e.1 / 4096 = p4
/-- A 4 KiB page in a map of pages of either size. -/
def pageIn (m : Map (List Host.Cell)) (p4 : Nat) : Option (List Host.Cell) :=
  ((m.find (2 ^ 40 + p4)).orElse fun _ => m.find (p4 / 16)).map (subCells p4)

/-- A 4 KiB page as it was at cut n: as the last interval up to n holds it, else as it was before its first write after
cut n. -/
def Almanac.pageAt (a : Almanac) (n p4 : Nat) : Option (List Host.Cell) :=
  let before := (a.chain.filter fun iv => iv.seq ≤ n).reverse.findSome? fun iv => pageIn iv.pages p4
  let after := ((a.chain.filter fun iv => n < iv.seq) ++ a.streaming.toList).findSome? fun iv => pageIn iv.pre p4
  (before.orElse fun _ => after).orElse fun _ => pageIn a.pre p4

/-- The interval whose copy of a 4 KiB page a rollback to cut n takes. -/
def Almanac.source (a : Almanac) (n p4 : Nat) : Option Nat :=
  let before := (a.chain.filter fun iv => iv.seq ≤ n).reverse.find? fun iv => (pageIn iv.pages p4).isSome
  let after := (a.chain.filter fun iv => n < iv.seq).find? fun iv => (pageIn iv.pre p4).isSome
  (before.orElse fun _ => after).map Interval.seq

/-- The 4 KiB pages of a page of a closed set. -/
def pages4 (k : Nat) : List Nat := if k < 2 ^ 40 then (List.range 16).map (16 * k + ·) else [k - 2 ^ 40]

/-- The 4 KiB pages written since cut n. -/
def Almanac.writtenSince (a : Almanac) (n : Nat) : List Nat :=
  let ks := ((a.chain.filter fun iv => n < iv.seq) ++ a.streaming.toList).flatMap Interval.closed
  ((ks ++ a.dirty ++ a.dirtyCtr.map (2 ^ 40 + ·)).flatMap pages4).dedup

namespace State

/-! ## Cuts -/

/-- The die whose agents serve a context's Almanac. -/
def almDie (s : State) (h : Nat) : Nat := ((s.leadPart h).map dieOfPart).getD 0
/-- The core by which they are named in records. -/
def almCore (s : State) (h : Nat) : Nat := (s.leadCore h).getD 0

/-- Make the adds that CKPTs wait for (11 R238). -/
def ckptAdds (s : State) (h : Nat) (adds : List (DWord × Word)) : State :=
  adds.foldl (fun (s : State) e => s.agentAdd (s.almCore h) h .ckpt e.1 e.2 4) s

/-- PERIOD of the context's Almanac control block as the last close found it (14 R301); before the first that could read it,
as it stands (DESIGN CHOICE: note 115). -/
def almPeriod (s : State) (h : Nat) : State × Nat :=
  let a := (s.ctx h).alm
  if a.acbRead then (s, acbPeriod a.acb) else
  match s.readBlock (s.almDie h) h kLoad (s.ctx h).almcb with
  | .ok (s, b) => (s, acbPeriod b)
  | .error _ => (s, 0)

/-- A close is due by PERIOD (14 R301, R302; 22 R397). -/
def periodDue (s : State) (h : Nat) : State :=
  let a := (s.ctx h).alm
  let (s, period) := s.almPeriod h
  if period = 0 || a.elapsed < period * 65536 then s else
  let late := if a.streaming.isSome then min (a.late + 1) 65535 else a.late
  (s.updAlm h fun a => { a with due := true, elapsed := 0, late := late }).post (.cut h)

/-- A cut begins, if a close is asked for and none is running or streaming (14 R301, R302). -/
def beginCut (s : State) (h : Nat) : State :=
  let x := s.ctx h
  let a := x.alm
  let held := (s.parts.filter fun e => e.2.running = some h).map Prod.fst
  if a.inCut || a.streaming.isSome || !(a.due || !a.waiting.isEmpty) then s
  else if held.any fun p => (s.part p).paused then s.post (.cut h)
  else
    let none_ (s : State) : State :=
      (s.updAlm h fun a => { a with due := false, waiting := [] }).ckptAdds h (a.waiting.filterMap id)
    if x.almcb = 0#64 || !x.hasFeat featAlm then none_ s else
    match s.readBlock (s.almDie h) h kLoad x.almcb with
    | .error _ => (s.updAlm h fun a => { a with due := false, nocb := true, elapsed := 0 }).faultRecord h 0x42 (s.almCore h) 0 0
    | .ok (s, b) =>
      let s := s.updAlm h fun a => { a with acb := b, acbRead := true, elapsed := 0 }
      if !acbEn b then none_ s else
      let s := s.updAlm h fun a => { a with inCut := true, cutting := held, cutParts := [] }
      let s := held.foldl (fun (s : State) p => s.pausePart p false) s
      s.postAll (if held.isEmpty then [.cutReply h 32] else held.map fun p => .cutReply h p)

/-- Dirty state of a core, in bytes (14 R307). -/
def onCoreBytes (x : CoreCtx) : Nat := 2048 * x.dirtyBlocks.length + 256 * x.dirtyLines.length + 120832

/-- The partition role for which a part of a cut stands (14 R306): a gang's own, else the lowest that is left. -/
def cutRoles (l : List SavedPart) : Map SavedPart :=
  let own (y : SavedPart) : Option Nat := (y.units.find? fun u => 1 < u.2.groles).map fun u => u.2.prole
  let first : Map SavedPart := l.foldl (fun (m : Map SavedPart) y => match own y with
    | some r => if (m.find r).isNone then m.set r y else m
    | none => m) []
  l.foldl (fun (m : Map SavedPart) y =>
    if m.any fun e => decide (e.2 = y) then m else
    match (List.range 64).find? fun i => (m.find i).isNone with
    | some i => m.set i y
    | none => m) first

/-- The marks of a core since the last cut, cleared (R303). -/
def unmarked (x : CoreCtx) : CoreCtx := { x with dirtyBlocks := [], dirtyLines := [], ran := false }

/-- The Almanac writes to memory (R304): the layout of the staging area, which lies in device memory of the context, and of
the checkpoint region, in the second tier under KIDREG, is not stated, so from then on their bytes are free values. -/
def writeStaging (s : State) (h : Nat) : State :=
  let b := (s.ctx h).alm.acb
  let (bs, s) := s.freshBytes (65536 * bitsOf b.toNat 223 192)
  match s.vaWrite (s.almDie h) h kStore (b.extractLsb' 128 64) bs with
  | .ok s => s
  | .error _ => s
def writeRegion (s : State) (h : Nat) : State :=
  let b := (s.ctx h).alm.acb
  let (bs, s) := s.freshBytes (65536 * acbTierSize b)
  s.physWrite (s.almDie h) h (s.ctx h).kidreg (2 ^ 47 + acbTierBase b) bs

/-- Every partition has replied: the closed set is taken, marking starts afresh, and all but those that a stop has reached
go on (R302, R304, R309). -/
def finishCut (s : State) (h : Nat) : State :=
  let a := (s.ctx h).alm
  let stopped := (s.parts.filter fun e => e.2.inPlace = some h).map fun e => s.savePart e.1 h
  let standby := s.parts.filterMap fun e => e.2.standby.bind fun y => if y.ctx = h then some (s.wholeStandby e.1 y) else none
  let parts := a.cutParts.map Prod.snd ++ stopped ++ standby
  let buffers := ((s.parts.filter fun e => e.2.running = some h && e.2.standby.isSome).flatMap fun e => s.partCores e.1).foldl
    (fun n c => n + onCoreBytes (s.cc c)) 0
  let bad := (s.damage.slots.filter fun k => (s.vslot k).owner = some h)
  let s := bad.foldl (fun (s : State) k => s.slotError (s.almCore h) h k) s
  let (x, s) := s.fresh
  let iv : Interval :=
    { seq := a.nextSeq, pages := [], closed := a.dirty ++ a.dirtyCtr.map (2 ^ 40 + ·), parts := cutRoles parts,
      slots := s.vigil.slots.filter fun e => e.2.owner = some h, owed := a.carried ++ a.waiting.filterMap id, pre := a.pre
      extra := x.toNat, hurt := !bad.isEmpty,
      launches := s.launches.filter fun e => e.2.ctx = h, queues := s.queues.filter fun e => e.2.ctx = h,
      runs := s.runs.filter fun e => e.2.ctx = h, rings := s.rings.filter fun e => e.2.ctx = h }
  let s := s.updAlm h fun y => { y with
    streaming := some iv, dirty := [], dirtyCtr := [], pre := [], waiting := [], carried := [], due := false, inCut := false
    cutting := [], cutParts := [], staged := 16 * ceilDiv buffers 65536 }
  let cs : Map Core := s.cores.map fun e => if e.2.cc.ctx = h then (e.1, { e.2 with cc := unmarked e.2.cc }) else e
  let ps : Map Part := s.parts.map fun e => (e.1, { e.2 with standby := e.2.standby.map fun y =>
    if y.ctx = h then { y with cores := y.cores.map fun c => (c.1, unmarked c.2) } else y })
  let s : State := { s with cores := cs, parts := ps }
  let goes := (s.parts.filter fun e => e.2.running = some h && e.2.paused && !e.2.stopping).map Prod.fst
  let s := goes.foldl (fun (s : State) p => s.startPart p) s
  (s.writeStaging h).post (.intervalDurable h)

/-- A partition replies once what it had in flight has completed and its state is copied (R302). -/
def cutReplyFrom (s : State) (h p : Nat) : State :=
  let a := (s.ctx h).alm
  if !a.inCut then s else
  if a.cutting.isEmpty then s.finishCut h else
  if !a.cutting.contains p then s else
  if !s.drained p then s.post (.cutReply h p) else
  let s := s.settlePart p
  let y := s.savePart p h
  let rest := a.cutting.filter (· != p)
  let s := s.updAlm h fun a => { a with cutting := rest, cutParts := a.cutParts.set p y }
  if rest.isEmpty then s.finishCut h else s

/-! ## Streaming -/

/-- Take a page of the streaming interval into it as of the cut, if that is still to be done. -/
def takePage (s : State) (h k : Nat) : State :=
  match (s.ctx h).alm.streaming with
  | some iv =>
    if !iv.closed.contains k || (iv.pages.find k).isSome then s else
    let (lo, hi) := pageBounds k
    let bad := s.pageHurt k
    let (s, cells) := s.snapshot lo hi
    s.updAlm h fun a => { a with streaming := a.streaming.map fun iv =>
      { iv with pages := iv.pages.set k cells, hurt := iv.hurt || bad } }
  | none => s

/-- Streaming has reached a page on which a write is held: it proceeds (R304). -/
def heldRelease (s : State) (h page : Nat) : State :=
  ((s.takePage h (page / 16)).takePage h (2 ^ 40 + page)).unhold page

/-- Every write held on a page of a closed set goes on. -/
def releaseClosed (s : State) (closed : List Nat) : State :=
  let ks := ((s.held.map HeldReq.key).filter fun k => k < 2 ^ 40 && (closed.contains (k / 16) || closed.contains (2 ^ 40 + k))).dedup
  ks.foldl (fun (s : State) k => s.unhold k) s

/-- The streaming interval is abandoned (22 R398): code 0x40, or 0x41 where the region cannot hold it. -/
def abandon (s : State) (h code : Nat) : State :=
  match (s.ctx h).alm.streaming with
  | none => s
  | some iv =>
    let pages := iv.closed.filter fun k => k < 2 ^ 40
    let ctrs := (iv.closed.filter fun k => 2 ^ 40 ≤ k).map (· - 2 ^ 40)
    let s := s.updAlm h fun a => { a with
      streaming := none, staged := 0, abandon := true, noroom := a.noroom || code = 0x41
      dirty := (a.dirty ++ pages).dedup, dirtyCtr := (a.dirtyCtr ++ ctrs).dedup, carried := a.carried ++ iv.owed
      pre := iv.pre.foldl (fun (m : Map (List Host.Cell)) e => m.set e.1 e.2) a.pre }
    let s := (s.releaseClosed iv.closed).faultRecord h code (s.almCore h) 0 0
    let a := (s.ctx h).alm
    if a.due || !a.waiting.isEmpty then s.post (.cut h) else s

/-- Is a port of the second tier lost? -/
def tierLost (s : State) : Bool := s.tierPorts.any s.io.lostCxl.contains
/-- Does the region of a control block lie in the second tier? -/
def regionOk (s : State) (b : Block) : Bool :=
  !s.tierPorts.isEmpty && (acbTierBase b + acbTierSize b * 65536 ≤ s.tierSize)

/-- The streaming interval is in the second tier (R304): DURCTR, the adds of its CKPTs, and the next close. -/
def durable (s : State) (h : Nat) : State :=
  let a := (s.ctx h).alm
  match a.streaming with
  | none => s
  | some iv =>
    let d := s.almDie h
    if s.tierLost || iv.hurt || iv.closed.any (fun k => (iv.pages.find k).isNone && s.pageHurt k) ||
        s.kidBad (2 ^ 47) (s.ctx h).kidreg then s.abandon h 0x40
    else if !s.regionOk a.acb then s.abandon h 0x41
    else if s.budgetOut d 0 then s.hold (budgetKey d 0) false (.intervalDurable h)
    else
      let room := acbTierSize a.acb
      let chain := mergeChain room iv.units a.chain.length a.chain
      if room < (chain.map Interval.units).foldl (· + ·) 0 + iv.units then
        (s.updAlm h fun a => { a with chain := chain }).abandon h 0x41
      else
        let s := s.charge d 0 (65536 * iv.units)
        let s := iv.closed.foldl (fun (s : State) k => s.takePage h k) s
        let s := s.writeRegion h
        let done := ((s.ctx h).alm.streaming.getD iv)
        let s := s.updAlm h fun a => { a with chain := chain ++ [done], nextSeq := a.nextSeq + 1, streaming := none, staged := 0 }
        let s := s.releaseClosed iv.closed
        let s := if acbDurctr a.acb = 0#64 then s else s.agentAdd (s.almCore h) h .count (acbDurctr a.acb) 1 5
        let s := s.ckptAdds h iv.owed
        let a := (s.ctx h).alm
        if a.due || !a.waiting.isEmpty then s.post (.cut h) else s

/-! ## Rollback -/

/-- Write back and drop every cached line of a range. -/
def dropRange (s : State) (lo hi : Nat) : State :=
  let within (k : Nat) : Bool := let a := k % 2 ^ 41 * 128; lo ≤ a && a < hi
  let s := ((s.l1.map Prod.fst).filter within).foldl (fun (s : State) k => s.l1Drop (k / 2 ^ 41) (k % 2 ^ 41)) s
  ((s.l2.map Prod.fst).filter within).foldl (fun (s : State) k => s.l2Drop (k / 2 ^ 41) (k % 2 ^ 41)) s

/-- Is an interval of a context's chain damaged (R306)? -/
def intervalHurt (s : State) (h n : Nat) : Bool := s.damage.intervals.contains (h, n)

/-- Rewrite a 4 KiB page of a context to its state at cut n (R306 step 3). -/
def rewritePage (s : State) (h n p4 : Nat) : State :=
  match (s.ctx h).alm.pageAt n p4 with
  | none => s
  | some cells =>
    let lo := p4 * 4096
    let ctr := s.ctrPages.contains p4
    let s := s.keepPage h (if ctr then 2 ^ 40 + p4 else p4 / 16)
    let s := ((s.takePage h (p4 / 16)).takePage h (2 ^ 40 + p4)).dropRange lo (lo + 4096)
    let s := s.setMemBytes lo ((List.range 4096).map fun i => memGet cells (lo + i))
    if ctr then s.markCtrPage h lo else s.markPage h lo

/-- Rewrite pages until one is met whose copy is damaged. -/
def rewritePages (s : State) (h n : Nat) : List Nat → State × Bool
  | [] => (s, true)
  | p4 :: rest =>
    if ((s.ctx h).alm.source n p4).any (s.intervalHurt h) then (s, false)
    else rewritePages (s.rewritePage h n p4) h n rest

/-- Write the images of a cut to the addresses of RBTAB (R306 step 5): 0, or the code of the failure. -/
def writeImages (s : State) (h rbtab : Nat) : List (Nat × SavedPart) → State × Nat
  | [] => (s, 0)
  | (r, y) :: rest =>
    let (s, bs) := s.physRead 0 0 (rbtab + 8 * r) 8
    let pa := leNat bs
    if pa = 0 then (s, 3) else
    match s.writeImage 0 pa { y with ctx := h } with
    | none => (s, 3)
    | some s => writeImages s h rbtab rest

/-- GO of RBCTL (14 R306). -/
def rollback (s : State) (h : Nat) : State :=
  let x := s.ctx h
  let here := s.parts.any fun e => e.2.running = some h || e.2.inPlace = some h || e.2.standby.any fun y => y.ctx = h
  let finish (s : State) (code : Nat) : State :=
    let s := s.updCtx h fun y => { y with rbStat := BitVec.ofNat 8 code }
    match s.physAdd x.rbctr 1 with
    | some s => s
    | none => s.setDevsts 7
  if here then finish s 1 else
  match x.alm.chain.find? fun iv => iv.seq = x.rbint with
  | none => finish s 2
  | some iv =>
    let (s, whole) := s.rewritePages h iv.seq (x.alm.writtenSince iv.seq)
    if !whole || s.intervalHurt h iv.seq then finish s 4 else
    let mine (e : Nat × VSlot) : Bool := (s.vigil.slots.get {} e.1).owner = some h
    let slots : Map VSlot := (iv.slots.filter mine).foldl (fun (m : Map VSlot) e => m.set e.1 e.2) s.vigil.slots
    let put {α : Type} (all : Map α) (own : α → Bool) (old : Map α) : Map α :=
      old.foldl (fun (m : Map α) e => m.set e.1 e.2) (all.filter fun e => !own e.2)
    let s : State := { s with
      vigil := { s.vigil with slots := slots }
      launches := put s.launches (fun r => r.ctx = h) iv.launches
      queues := put s.queues (fun r => r.ctx = h) iv.queues
      runs := put s.runs (fun r => r.ctx = h) iv.runs
      rings := put s.rings (fun r => r.ctx = h) iv.rings }
    let s := s.updCtx h fun y => { y with
      images := y.images.map (fun e => (e.1, { e.2 with loaded := true })), replayPos := 0, replayStopped := false }
    let (s, code) := if x.rbtab % 64 = 0 && x.rbtab + 256 ≤ deviceEnd then s.writeImages h x.rbtab iv.parts else (s, 3)
    finish s code

end State

/-- ALMANAC_PERIOD_EXPIRY. -/
def execAlmanacPeriodExpiry (ctx : Nat) (s : State) : Host.Outcome State Fault Refusal := .next (s.periodDue ctx)
/-- CUT. -/
def execCut (ctx : Nat) (s : State) : Host.Outcome State Fault Refusal := .next (s.beginCut ctx)
/-- CUT_REPLY; 32 stands for no partition. -/
def execCutReply (ctx part : Nat) (s : State) : Host.Outcome State Fault Refusal :=
  if 32 < part then .fault .noSuchUnit else .next (s.cutReplyFrom ctx part)
/-- HELD_WRITE_RELEASE. -/
def execHeldWriteRelease (ctx page : Nat) (s : State) : Host.Outcome State Fault Refusal := .next (s.heldRelease ctx page)
/-- INTERVAL_DURABLE. -/
def execIntervalDurable (ctx : Nat) (s : State) : Host.Outcome State Fault Refusal := .next (s.durable ctx)
/-- ROLLBACK_GO. -/
def execRollbackGo (ctx : Nat) (s : State) : Host.Outcome State Fault Refusal := .next (s.rollback ctx)

end Sys2Proof.Machine
end

