-- ==== Sys2Proof/Machine/HostMem.lean ====
section
/-! DEFINITION. The host, peers and application cores at device memory (16 R321 to R326; 07 R128, R132; 21 R391): bias
flips, CXL.mem reads and writes, back-invalidate snoops and their answers, CXL.cache snoops, Colmet accesses inside the
inbound windows, the AMOs of application cores, and feature negotiation (R332). -/

namespace Sys2Proof.Machine

/-- The port that owns the HDM range (DESIGN CHOICE: note 9). -/
def rangePort : Nat := 0
/-- The lines of a 4 KiB page. -/
def linesOfPage (p4 : Nat) : List Nat := (List.range 32).map (32 * p4 + ·)
/-- No context: an agent that writes for none. -/
def noCtx : Nat := 1024

/-- Does a page table map a 4 KiB page of physical memory (05 R73)? `n` levels remain below. -/
def mapsPage (rd : Nat → DWord) (p4 : Nat) : Nat → Nat → Bool
  | 0, tbl => (List.range 512).any fun i =>
    let e := rd (tbl + 8 * i)
    pteV e && pteLeaf e && (ptePpn e ≤ p4 && p4 * 4096 < ptePpn e * 4096 + TlbEntry.size ⟨0, e⟩)
  | n + 1, tbl => (List.range 512).any fun i =>
    let e := rd (tbl + 8 * i)
    pteV e && if pteLeaf e then ptePpn e ≤ p4 && p4 * 4096 < ptePpn e * 4096 + TlbEntry.size ⟨n + 1, e⟩
      else ptePpn e * 4096 < deviceEnd && mapsPage rd p4 n (ptePpn e * 4096)

namespace State

/-- Is a feature accepted (16 R332)? -/
def accepted (s : State) (b : Nat) : Bool := (s.io.featAck.get 0 0).getLsbD b

/-! ## Whose page it is (14 R303) -/

/-- The contexts whose page tables map a device address: a host or peer write there is a write of theirs. -/
def ctxsMapping (s : State) (pa : Nat) : List Nat :=
  (s.ctxs.filter fun e => e.2.valid && mapsPage s.readPte (pa / 4096) 4 e.2.ptroot).map Prod.fst
/-- Mark a page for them, data or counter, its state before the write kept. -/
def markMapped (s : State) (pa : Nat) (ctr : Bool) : State :=
  (s.ctxsMapping pa).foldl (fun (s : State) h =>
    if ctr then (s.keepPage h (ctrPageKey pa)).markCtrPage h pa else (s.keepPage h (page64 pa)).markPage h pa) s

/-! ## Writes that carry no leaf (07 R128) -/

/-- A counter of a marked page takes a value that does not lower it; else the write is discarded. -/
def hostCounter (s : State) (pa : Nat) (v : DWord) : State :=
  let home : CtrHome := .mem pa 0
  if v < s.ctrRead (homeDie pa 0) home then s.setDevsts 0
  else ((s.markMapped pa true).ctrWrite 0 noCtx v home).ctrNotify 0 home v

/-- Write the counters that a run of bytes covers, in ascending order: `n` bounds their number. A part of a counter is
not written. -/
def hostCounters (pa : Nat) (bs : List Byte) : Nat → State → State
  | 0, s => s
  | n + 1, s =>
    if bs.isEmpty then s
    else
      let k := min bs.length (8 - pa % 8)
      let s := if k = 8 then s.hostCounter pa (BitVec.ofNat 64 (leNat (bs.take 8))) else s.setDevsts 0
      hostCounters (pa + k) (bs.drop k) n s

/-- Write the dirty words of a line in every L1 to its home (16 R321). -/
def recallLine (s : State) (line : Nat) : State :=
  ((s.l1.filter fun e => e.1 % 2 ^ 41 = line).map fun e => e.1 / 2 ^ 41).foldl (fun (s : State) c => s.l1WriteBack c line) s

/-- Bytes of one line that the host puts into device memory: data, or counters on a marked page. -/
def hostPut (s : State) (pa kid : Nat) (bs : List Byte) : State :=
  if s.ctrPages.contains (pa / 4096) then hostCounters pa bs 65 s
  else
    let s := (s.markMapped pa false).recallLine (lineOf pa)
    s.homeWrite (homeDie pa 0) (2 ^ 20) noCtx pa kid 0 bs

/-! ## CXL.mem (16 R321) -/

/-- Does the recovery image run (22 R401)? -/
def recovery (s : State) : Bool := s.boot.bootsts.getLsbD 19

/-- Does a host request reach device memory there? None arrives on a lost port (21 R388). -/
def hostReaches (s : State) (pa : Nat) : Bool :=
  !s.recovery && s.accepted featHdm && pa < s.io.hdmSize && pa < deviceEnd && !s.io.lostCxl.contains rangePort && s.io.powered

/-- Does an L1 hold a dirty word of a line? -/
def dirtyCopy (s : State) (line : Nat) : Bool := s.l1.any fun e => e.1 % 2 ^ 41 = line && e.2.dirty != 0#32

/-- What a host request waits for: its page being flipped, requests held before it, room to stage a page of a closed
set that it writes, or to which it recalls dirty words (14 R304; 16 R321, R323), a counter that a CADDV holds (07 R127), or
the traffic that its die's budget leaves the host (13 R289). -/
def hostHold (s : State) (pa : Nat) (write : Bool) : Option Nat :=
  if s.flipping.contains (pa / 4096) || ((write || s.dirtyCopy (lineOf pa)) && s.closedFull pa) ||
      s.held.any (fun r => r.key = pa / 4096) then some (pa / 4096)
  else if let some i := s.lateBack (pa / 4096) then some (reqKey i)
  else match s.ctrHeld.find? fun e => e.1 / 64 = pa / 64 with
  | some e => some (2 ^ 60 + e.1)
  | none => if s.budgetOut (pa / dieRegion) 3 then some (budgetKey (pa / dieRegion) 3)
  else none

/-- A line that the host has been given under its bias: it may keep it and write it, and is asked again for it (R321). -/
def hostKeeps (s : State) (pa : Nat) : State :=
  let s : State := { s with snooped := s.snooped.filter fun e => e.1 != lineOf pa }
  if s.hostBias.contains (pa / 4096) && !s.hostLines.contains (lineOf pa) then
    { s with hostLines := s.hostLines ++ [lineOf pa], hostClean := s.hostClean.filter (· != lineOf pa) }
  else s

/-- The host reads 64 bytes: of its own memory, or of a line of device memory. -/
def hostRead (s : State) (addr : Nat) : State :=
  let a := addr / 64 * 64
  if isHost a then
    let s := [0, 1, 2, 3].foldl (fun (s : State) d => s.l2Clean d (lineOf a)) s
    { s with reply := BitVec.ofNat 512 (leNat (s.memBytes a 64)) }
  else if !s.hostReaches a then s
  else match s.hostHold a false with
    | some key => s.hold key false (.hostMemRead addr)
    | none =>
      let (s, bs) := (s.recallLine (lineOf a)).homeRead (homeDie a 0) a 0 0 64
      State.hostKeeps { s.charge (homeDie a 0) 3 64 with reply := BitVec.ofNat 512 (leNat bs) } a

/-- The host writes bytes of one 64-byte line; `ev` is the request, should it be held. -/
def hostWrite (s : State) (addr : Nat) (bytes : List Byte) (ev : Instr) : State :=
  let bs := bytes.take (64 - addr % 64)
  if isHost addr then
    let s := [0, 1, 2, 3].foldl (fun (s : State) d => s.l2Drop d (lineOf addr)) s
    ((s.invalidateCopies (2 ^ 20) (lineOf addr)).setMemBytes addr bs).post (.monitorWake (lineOf addr))
  else if !s.hostReaches addr then s
  else match s.hostHold addr true with
    | some key => s.hold key true ev
    | none =>
      let s := (s.hostPut addr 0 bs).charge (homeDie addr 0) 3 64
      { s with snooped := s.snooped.filter fun e => e.1 != lineOf addr }

/-! ## Bias flips (16 R322, R323; 21 R391) -/

def flip (s : State) (e : Nat) : Flip := s.io.flips.get {} e
def updFlip (s : State) (e : Nat) (f : Flip → Flip) : State := s.updIo fun x => { x with flips := x.flips.upd {} e f }

/-- A flip ends: STAT, and the add to BFCTR. -/
def flipDone (s : State) (e stat : Nat) : State :=
  let s := s.updFlip e fun f => { f with busy := false, stat := BitVec.ofNat 8 stat, waiting := [], closing := none }
  match s.physAdd (s.flip e).home 1 with
  | some s => s
  | none => s.setDevsts 3

/-- Send BISnpInv for lines of a page (R323). -/
def snoopLines (s : State) (ls : List Nat) : State :=
  ls.foldl (fun (s : State) l => s.snoop (2 ^ 40 + l) true) s

/-- GO of a flip engine: `toDev` is DIR. -/
def startFlip (s : State) (e : Nat) (toDev : Bool) : State :=
  let f := s.flip e
  let p4 := f.addr.toNat / 4096
  if f.busy then s else
  let s := s.updFlip e fun f => { f with busy := true, page := p4, home := f.ctr, toDev := toDev }
  if !s.accepted featHdm then s.flipDone e 3
  else if s.io.hdmSize ≤ f.addr.toNat || f.addr.toNat % 4096 != 0 then s.flipDone e 1
  else if s.flipping.contains p4 then s.flipDone e 2
  else if s.hostBias.contains p4 != toDev then s.flipDone e 0
  else
    let s : State := { s with flipping := s.flipping ++ [p4] }
    if toDev then
      let ls := linesOfPage p4
      (s.updFlip e fun f => { f with waiting := ls }).snoopLines ls
    else s.post (.flipStep2Complete e)

/-- Steps 3 and 4: the bias changes, FLIPPING is cleared and the held requests are served; the add follows them. -/
def flipPage (s : State) (e stat : Nat) : State :=
  let f := s.flip e
  let s : State := { s with
    hostBias := if f.toDev then s.hostBias.filter (· != f.page) else s.hostBias ++ [f.page]
    flipping := s.flipping.filter (· != f.page)
    snooped := s.snooped.filter fun l => l.1 / 32 != f.page }
  ((s.unhold f.page).updFlip e fun f => { f with waiting := [], closing := some stat }).post (.flipStep2Complete e)

/-- Step 2 is complete: to host bias once no core holds a line of the page and every write-back of one has been taken, to device bias
once every line is answered. -/
def flipStep2 (s : State) (e : Nat) : State :=
  let f := s.flip e
  match f.closing with
  | some stat => s.flipDone e stat
  | none =>
  if !f.busy || !s.flipping.contains f.page then s
  else if f.toDev then (if f.waiting.isEmpty then s.flipPage e 0 else s)
  else
    let on := (s.l1.filter fun k => k.1 % 2 ^ 41 / 32 = f.page).map Prod.fst
    let s := on.foldl (fun (s : State) k => s.l1Drop (k / 2 ^ 41) (k % 2 ^ 41)) s
    if (s.lateBack f.page).isSome then s.post (.flipStep2Complete e) else s.flipPage e 0

/-- Is it a request of the host? -/
def hostRequest (ev : Instr) : Bool :=
  match ev with
  | .hostMemRead _ => true
  | .hostMemWrite .. => true
  | .hostCounterWrite .. => true
  | _ => false

/-- A flip fails as the range's port is lost (R391): to device bias the host's copies are lost, each with its record; to
host bias the flip completes without the held host requests. -/
def flipLost (s : State) (e : Nat) : State :=
  let f := s.flip e
  let p4 := f.page
  if !f.busy || !s.flipping.contains p4 then s
  else if f.toDev then
    let s := f.waiting.foldl (fun (s : State) l =>
      let hs := s.ctxsMapping (l * 128)
      if hs.isEmpty then s.setDevsts 4
      else hs.foldl (fun (s : State) h =>
        s.faultRecord h 0x30 ((s.leadCore h).getD 0) 0 (BitVec.ofNat 96 (l * 128))) s) s
    let s : State := { s with
      hostLines := s.hostLines.filter fun l => l / 32 != p4
      hostClean := s.hostClean.filter fun l => l / 32 != p4
      snoops := s.snoops.filter fun l => l.1 / 32 != p4 }
    s.flipPage e 4
  else
    State.flipPage { s with held := s.held.filter fun r => !(r.key = p4 && hostRequest r.ev) } e 5

/-! ## The host's answers and snoops -/

/-- The host answers a BISnp (16 R321, R323): its dirty bytes merge at the home; what waited for the line goes on. -/
def bisnpAnswer (s : State) (addr : Nat) (bytes : List Byte) : State :=
  let line := lineOf addr
  match s.snoops.find? fun e => e.1 = line with
  | none => s
  | some e =>
    let s := if s.hostLines.contains line && !bytes.isEmpty then s.hostPut addr 0 (bytes.take (128 - addr % 128)) else s
    let s : State := { s with
      snoops := s.snoops.erase e
      hostLines := s.hostLines.filter (· != line)
      hostClean := if e.2 then s.hostClean.filter (· != line)
        else if s.hostClean.contains line then s.hostClean else s.hostClean ++ [line]
      snooped := if s.hostBias.contains (line / 32) && !s.snooped.contains (line, e.2) then s.snooped ++ [(line, e.2)] else s.snooped }
    let s := [0, 1, 2, 3].foldl (fun (s : State) i =>
      let f := s.flip i
      if !f.waiting.contains line || !e.2 then s else
      let s := s.updFlip i fun f => { f with waiting := f.waiting.filter (· != line) }
      if (s.flip i).waiting.isEmpty then s.post (.flipStep2Complete i) else s) s
    s.unhold (2 ^ 40 + line)

/-- The host invalidates or downgrades a die's copy of a line of its memory (07 R132). -/
def cacheSnoop (s : State) (d line : Nat) (inval : Bool) : State :=
  if !isHost (line * 128) then s else
  let s := if inval then s.l2Drop d line else s.l2Clean d line
  let kept := s.l1.map fun e =>
    if inval && e.1 % 2 ^ 41 = line && dieOfCore (e.1 / 2 ^ 41) = d && !e.2.ro then (e.1, { e.2 with valid := e.2.dirty }) else e
  State.post { s with l1 := kept.filter fun e => e.2.valid != 0#32 } (.monitorWake line)

/-! ## Peers (16 R325) -/

/-- Words of an inbound window: base, size in 64 KiB, admitted peers, and WE with the KID in the last word. -/
def inWord (s : State) (w i : Nat) : Nat := (s.io.inbound.get 0 (8 * w + i)).toNat
def inBase (s : State) (w : Nat) : Nat := s.inWord w 0 + 2 ^ 32 * s.inWord w 1
def inSize (s : State) (w : Nat) : Nat := 65536 * (s.inWord w 2 + 2 ^ 32 * s.inWord w 3)
def inMask (s : State) (w : Nat) : Nat := s.inWord w 4 + 2 ^ 32 * s.inWord w 5
def inKid (s : State) (w : Nat) : Nat := bitsOf (s.inWord w 7) 13 1
/-- Does a window allow an access of n bytes? -/
def admits (s : State) (w peer addr n : Nat) (write : Bool) : Bool :=
  decide (s.inBase w ≤ addr) && addr + n ≤ s.inBase w + s.inSize w && (s.inMask w).testBit peer &&
    (!write || (s.inWord w 7).testBit 0) && addr + n ≤ deviceEnd && !s.kidBad addr (s.inKid w)

/-- The lowest window that admits an access (R325). -/
def admitting (s : State) (peer addr n : Nat) (write : Bool) : Option Nat :=
  (List.range 16).find? fun w => s.admits w peer addr n write

/-- Bytes that a peer's operation of a size reads or writes: an atomic's are 8 or 4, a counter's 8. -/
def peerSize (addr size : Nat) : PeerOp → Nat
  | .read => min size (64 - addr % 64)
  | .write bs => min (min size bs.length) (64 - addr % 64)
  | .atom _ _ => if size = 8 then 8 else 4
  | .cas _ _ => if size = 8 then 8 else 4
  | .add _ => 8
  | .wait _ => 8
def peerWrites : PeerOp → Bool
  | .read => false
  | .wait _ => false
  | _ => true

/-- What a requester that is no core reads. -/
def answer (s : State) (v : Nat) : State := { s with reply := BitVec.ofNat 512 v }
/-- Its access raises a fault there: a store access fault on an application core (R326), COUNTER on a peer (07 R125). -/
def refuseAccess (s : State) : State := s.updIo fun x => { x with accFault := true }

/-- An atomic of n bytes at its home, for a requester that is no core (06 R110): the old value is the answer. -/
def homeAtomic (s : State) (addr kid n : Nat) (f : Nat → Nat) : State :=
  if addr % n != 0 then s.refuseAccess else
  let (s, b) := s.homeRead (homeDie addr 0) addr kid 0 n
  ((s.markMapped addr false).homeWrite (homeDie addr 0) (2 ^ 20) noCtx addr kid 0 (leBytes n (f (leNat b)))).answer (leNat b)
/-- An add to a counter of device memory for such a requester (07 R124, R125). -/
def homeAdd (s : State) (addr kid : Nat) (inc : DWord) : State :=
  let home : CtrHome := .mem addr kid
  if addr % 8 != 0 then s.refuseAccess else
  match s.ctrAdd 0 noCtx home inc with
  | none => s.refuseAccess
  | some (old, _) =>
    match (s.markMapped addr true).ctrAdd 0 noCtx home inc with
    | some (_, s) => s.answer old.toNat
    | none => s.refuseAccess

/-- A wait of a peer for a counter here (07 R129): the wake goes back over Colmet with the value; a full list answers at
once, and the peer reads again. -/
def peerWait (s : State) (peer addr kid : Nat) (thr : DWord) : State :=
  let home : CtrHome := .mem addr kid
  let v := s.ctrRead (homeDie addr 0) home
  if thr ≤ v || 256 ≤ (s.waiterList 0 home).length then s.wakePeer peer v
  else s.ctrPark 0 0 (peerSlot peer) home thr

/-- A peer's access, within one 64-byte run: under the lowest window that admits it, or not at all. -/
def peerAccess (s : State) (peer addr size : Nat) (op : PeerOp) : State :=
  let n := peerSize addr size op
  match s.admitting peer addr n (peerWrites op) with
  | none => s
  | some w =>
    match s.ctrHold (.mem addr (s.inKid w)) (peerWrites op) with
    | some key => s.hold key (peerWrites op) (.peerAccess peer addr size op)
    | none =>
      let s := s.recallLine (lineOf addr)
      let kid := s.inKid w
      match op with
      | .write bs => (s.markMapped addr false).homeWrite (homeDie addr 0) (2 ^ 20) noCtx addr kid 0 (bs.take n)
      | .read =>
        let (s, b) := s.homeRead (homeDie addr 0) addr kid 0 n
        s.answer (leNat b)
      | .atom o x => s.homeAtomic addr kid n fun old => atomOp o n old x.toNat
      | .cas old new => s.homeAtomic addr kid n fun v => if v = old.toNat then new.toNat else v
      | .add inc => s.homeAdd addr kid inc
      | .wait thr => s.peerWait peer addr kid thr

/-! ## Application cores (16 R326) -/

/-- Bytes that an application core's operation reads or writes. -/
def appSize (addr : Nat) : AppOp → Nat
  | .load n => min n (64 - addr % 64)
  | .store bs => min bs.length (64 - addr % 64)
  | .amo _ wide _ _ _ => if wide then 8 else 4

/-- An access of an application core to device memory, at its home: on a counter page a load reads like CRD, an aligned
AMOADD.D is a CADD, and anything else faults. What aq and rl order is complete at once: each access is made at the home before
the next. -/
def appAccess (s : State) (app addr : Nat) (op : AppOp) : State :=
  let n := appSize addr op
  if s.boot.appOffline.contains app || deviceEnd < addr + n then s.refuseAccess else
  let write := match op with
    | .load _ => false
    | _ => true
  match s.ctrHold (.mem addr 0) write with
  | some key => s.hold key write (.appCoreCounterAmo app addr op)
  | none =>
    let ctr := s.ctrPages.contains (addr / 4096)
    match op with
    | .load _ =>
      let (s, b) := s.homeRead (homeDie addr 0) addr 0 0 n
      s.answer (leNat b)
    | .store bs => if ctr then s.refuseAccess
      else (s.markMapped addr false).homeWrite (homeDie addr 0) (2 ^ 20) noCtx addr 0 0 (bs.take n)
    | .amo o wide x _ _ =>
      if !ctr then s.homeAtomic addr 0 n fun old => atomOp o n old x.toNat
      else if o = 0 && wide then s.homeAdd addr 0 x
      else s.refuseAccess

/-! ## Features (16 R332) -/

/-- FEAT0 of the KG-768-L. -/
def feat0 : Nat := 0xFF
/-- The accepted features of a selection: a bit whose prerequisite is not accepted falls. -/
def acceptFeats (sel : Nat) : Nat :=
  let a := feat0 &&& sel
  let drop (a b n : Nat) : Nat := if a.testBit b && !a.testBit n then a - 2 ^ b else a
  drop (drop (drop a featSvc featHmem) featTrace featHmem) featAlm featTier

/-- FEATCTL.GO. -/
def negotiate (s : State) : State :=
  if s.ctxs.any fun e => e.2.valid then s.setDevsts 2
  else s.updIo fun x => { x with
    featAck := [(0, BitVec.ofNat 32 (acceptFeats (x.regs.get 0 0x020).toNat))], featDone := true }

end State

/-- BIAS_FLIP_TO_HOST. -/
def execBiasFlipToHost (engine : Nat) (s : State) : Host.Outcome State Fault Refusal :=
  if 4 ≤ engine then .fault .noSuchUnit else .next (s.startFlip engine false)
/-- BIAS_FLIP_TO_DEVICE. -/
def execBiasFlipToDevice (engine : Nat) (s : State) : Host.Outcome State Fault Refusal :=
  if 4 ≤ engine then .fault .noSuchUnit else .next (s.startFlip engine true)
/-- FLIP_STEP2_COMPLETE. -/
def execFlipStep2Complete (engine : Nat) (s : State) : Host.Outcome State Fault Refusal :=
  if 4 ≤ engine then .fault .noSuchUnit else .next (s.flipStep2 engine)
/-- HOST_MEM_READ. -/
def execHostMemRead (addr : Nat) (s : State) : Host.Outcome State Fault Refusal := .next (s.hostRead addr)
/-- HOST_MEM_WRITE. -/
def execHostMemWrite (addr : Nat) (bytes : List Byte) (s : State) : Host.Outcome State Fault Refusal :=
  .next (s.hostWrite addr bytes (.hostMemWrite addr bytes))
/-- HOST_COUNTER_WRITE. -/
def execHostCounterWrite (addr : Nat) (bytes : List Byte) (s : State) : Host.Outcome State Fault Refusal :=
  .next (s.hostWrite addr bytes (.hostCounterWrite addr bytes))
/-- BISNP_RESPONSE. -/
def execBisnpResponse (addr : Nat) (bytes : List Byte) (s : State) : Host.Outcome State Fault Refusal :=
  .next (s.bisnpAnswer addr bytes)
/-- CXL_CACHE_SNOOP. -/
def execCxlCacheSnoop (die line : Nat) (inval : Bool) (s : State) : Host.Outcome State Fault Refusal :=
  if !dieOk die then .fault .noSuchUnit else .next (s.cacheSnoop die line inval)
/-- PEER_ACCESS. -/
def execPeerAccess (peer addr size : Nat) (op : PeerOp) (s : State) : Host.Outcome State Fault Refusal :=
  if 64 ≤ peer then .fault .noSuchUnit else .next (s.peerAccess peer addr size op)
/-- PEER_REFUSAL: LINK becomes pending on the issuing warp (16 R325). -/
def execPeerRefusal (core slot peer : Nat) (va : DWord) (s : State) : Host.Outcome State Fault Refusal :=
  if !coreOk core || fwSlot < slot || 64 ≤ peer then .fault .noSuchUnit
  else .next (s.pendAsync core slot (State.linkTrap 1 peer va))
/-- APP_CORE_COUNTER_AMO. -/
def execAppCoreCounterAmo (app addr : Nat) (op : AppOp) (s : State) : Host.Outcome State Fault Refusal :=
  if 16 ≤ app then .fault .noSuchUnit else .next (s.appAccess app addr op)
/-- FEATURE_NEGOTIATE. -/
def execFeatureNegotiate (s : State) : Host.Outcome State Fault Refusal := .next s.negotiate

end Sys2Proof.Machine
end

