-- ==== Sys2Proof/Machine/Links.lean ====
section
/-! DEFINITION. Links that fail and return (21 R383, R388 to R391), and saved parts found damaged (22 R396). -/

namespace Sys2Proof.Machine

/-- Lines that the stranded-line buffer holds (21 R389). -/
def strandedMax : Nat := 4096

namespace State

/-- The warps of a context on the core arrays. -/
def contextWarps (s : State) (h : Nat) : List (Nat × Nat) :=
  let here (c : Nat) : Bool := (s.part (partOfCore c)).running = some h || (s.part (partOfCore c)).inPlace = some h
  (s.cores.filter fun e => e.2.cc.ctx = h && here e.1).flatMap fun e =>
    (e.2.cc.warps.filter fun w => !w.2.ended).map fun w => (e.1, w.1)

/-- A trap becomes pending on every warp of a context. -/
def pendAll (s : State) (h : Nat) (t : TrapInfo) : State :=
  (s.contextWarps h).foldl (fun (s : State) e => s.pendAsync e.1 e.2 t) s

/-- LINK of lines that were stranded, discarded or written back: the address that TDET1 and TDET2 would hold is none of
a refused access, and is a free value. -/
def pendLink (s : State) (h reason peer : Nat) : State :=
  let (a, s) := s.fresh
  let (b, s) := s.fresh
  s.pendAll h (linkTrap reason peer (pairOf a b))

/-! ## Stranded lines (21 R389, R390) -/

/-- The address and the die of a line kept under its key. -/
def linePa (k : Nat) : Nat := k % 2 ^ 41 * 128
def lineDie (k : Nat) : Nat := k / 2 ^ 41
/-- Owner and peer of lines, each once. -/
def owners (ls : Map Line) : List (Nat × Nat) :=
  (ls.map fun e => (e.2.owner, if isPeer (linePa e.1) then peerOf (linePa e.1) else 64)).dedup
/-- LINK of a reason to the owners of lines; a line of host memory names no peer. -/
def tellOwners (s : State) (ls : Map Line) (host peer : Nat) : State :=
  (owners ls).foldl (fun (s : State) e => if e.2 = 64 then s.pendLink e.1 host 0 else s.pendLink e.1 peer e.2) s

/-- Lines are discarded: a record each, and LINK reason 4. -/
def discardLines (s : State) (ls : Map Line) : State :=
  let s := ls.foldl (fun (s : State) e =>
    s.faultRecord e.2.owner 0x30 ((s.leadCore e.2.owner).getD 0) 0 (BitVec.ofNat 96 (linePa e.1))) s
  s.tellOwners ls 4 4

/-- Is a cached line's home out of reach? -/
def lineLost (s : State) (pa d : Nat) : Bool := (isHost pa || isPeer pa) && s.spaceLost d pa

/-- Lines whose home was lost leave the caches, the dirty ones for the stranded-line buffer. -/
def strand (s : State) : State :=
  let near (k : Nat) : Bool := s.lineLost (linePa k) (dieOfCore (lineDie k))
  let l1s := (s.l1.filter fun e => near e.1).map Prod.fst
  let s := l1s.foldl (fun (s : State) k => s.l1WriteBack (lineDie k) (k % 2 ^ 41)) s
  let s : State := { s with l1 := s.l1.filter fun e => !l1s.contains e.1 }
  let gone := s.l2.filter fun e => s.lineLost (linePa e.1) (lineDie e.1)
  let dirty := gone.filter fun e => e.2.dirty != 0#32
  let room := strandedMax - s.stranded.length
  let kept := dirty.take room
  let s : State := { s with
    l2 := s.l2.filter fun e => !gone.any fun g => g.1 = e.1
    stranded := kept.foldl (fun (m : Map Line) e => m.set e.1 e.2) s.stranded }
  (s.tellOwners kept 2 3).discardLines (dirty.drop room)

/-- Lines whose link is back are written back under their KID, or discarded; the contexts whose lines are then all home
learn of it. -/
def unstrand (s : State) (discard : Bool) : State :=
  let back := s.stranded.filter fun e => !s.lineLost (linePa e.1) (lineDie e.1)
  let s : State := { s with stranded := s.stranded.filter fun e => s.lineLost (linePa e.1) (lineDie e.1) }
  if discard then s.discardLines back
  else
    let s := back.foldl (fun (s : State) e => s.writeLine e.2.kid (e.1 % 2 ^ 41) e.2.dirty e.2.data) s
    s.tellOwners (back.filter fun e => s.stranded.all fun g => g.2.owner != e.2.owner) 5 5

/-! ## Loss and return (21 R383, R388) -/

/-- What waits on a counter whose home is lost reads again, and fails: parked warps, and agents. -/
def wakeLost (s : State) : State :=
  let parked := s.cores.flatMap fun e =>
    ((e.2.cc.warps.filter fun w => w.2.sched.cwait.isSome).map fun w => (e.1, w.1)) ++
      (if e.2.fw.sched.cwait.isSome then [(e.1, fwSlot)] else [])
  let s := parked.foldl (fun (s : State) e =>
    match (s.warp e.1 e.2).sched.cwait with
    | some w => match s.waitHome e.1 e.2 w with
      | .ok home => if s.ctrLost (dieOfCore e.1) home then s.rereadWait e.1 e.2 false else s
      | .error _ => s
    | none => s) s
  s.postAll ((s.cores.flatMap fun e => e.2.monitors.filter fun m => 64 ≤ m.1).map fun m => agentEvent m.1)

/-- A loss is declared: accesses fail from now on, lines are stranded, waits fail. -/
def afterLoss (s : State) : State := s.strand.wakeLost

/-- A CXL port declares loss. -/
def loseCxl (s : State) (port : Nat) : State :=
  if s.io.lostCxl.contains port then s else
  let s := (s.updIo fun x => { x with lostCxl := x.lostCxl ++ [port] }).afterLoss
  let s := if port = rangePort then [0, 1, 2, 3].foldl (fun (s : State) e => s.flipLost e) s else s
  if s.tierPorts.contains port then (s.ctxs.map Prod.fst).foldl (fun (s : State) h => s.abandon h 0x40) s else s

/-- A Colmet link declares loss. -/
def loseColmet (s : State) (link : Nat) : State :=
  if s.io.lostColmet.contains link then s
  else (s.updIo fun x => { x with lostColmet := x.lostColmet ++ [link] }).afterLoss

/-- A link retrains; `hostReset`: with a conventional reset of the host side of a CXL port. -/
def retrain (s : State) (colmet : Bool) (link : Nat) (hostReset : Bool) : State :=
  if colmet then
    if !s.io.lostColmet.contains link then s
    else (s.updIo fun x => { x with lostColmet := x.lostColmet.filter (· != link) }).unstrand false
  else if !s.io.lostCxl.contains link || s.boot.deadPorts.contains link then s
  else (s.updIo fun x => { x with lostCxl := x.lostCxl.filter (· != link) }).unstrand hostReset

/-- RET has passed: every stranded line is discarded. -/
def retentionOver (s : State) : State := State.discardLines { s with stranded := [] } s.stranded

/-! ## Damaged parts (22 R396) -/

/-- RESTORE of a reason: the version found and the version accepted. -/
def restoreTrap (reason version : Nat) : TrapInfo :=
  { group := grpRestore, code := reason * 4096, async := true, lv := false, lane := 0,
    t1 := BitVec.ofNat 32 version, t2 := 1, epc := 0 }

/-- RESTORE on a warp, if it has not ended. -/
def pendRestore (s : State) (c k reason version : Nat) : State :=
  if fwSlot < k then s else s.pendAsync c k (restoreTrap reason version)

/-- The command that was frozen is abandoned: its rows that are not final become the canonical NaN. -/
def restoreMatrix (s : State) (c num version : Nat) : State :=
  let m := (s.cc c).matrix
  match m.running.orElse fun _ => m.frozen with
  | none => s
  | some x =>
    if x.num != num then s else
    let rows := (List.range (rcM x.rowctl)).filter fun i => x.done ≤ i
    let nan : Nat := Fmt.nan .f32 false
    let vs := rows.flatMap fun i => (List.range 64).map fun j => (rcBase x.rowctl + i, j, nan)
    let s := (s.updMatrix c fun m => setAcc { m with running := none, frozen := none } vs).dropScore (opKey c x.num)
    let s := x.trackers.foldl (fun (s : State) t =>
      (s.updTracker c t fun y => { y with cmds := y.cmds - 1 }).trackerDone c t) s
    (s.pendRestore c x.slot 1 version).startMatrix c

/-- A copy whose saved progress is damaged is abandoned. -/
def restoreCopy (s : State) (c n version : Nat) : State :=
  match (s.cc c).copies.find n with
  | none => s
  | some x => (s.dropCopy c n).pendRestore c x.slot 2 version

/-- A Vigil slot whose saved state is damaged is cleared, stopped and marked NERR. -/
def restoreSlot (s : State) (k version : Nat) : State :=
  match (s.vslot k).owner with
  | none => s
  | some h =>
    let s := s.updVslot k fun x => { clearSlot x with st := { stopped := true }, nerr := true }
    s.pendAll h (restoreTrap 3 version)

/-- A damaged part is found after its context runs again. -/
def partDamaged (s : State) (c part index version : Nat) : State :=
  if part = 1 then s.restoreMatrix c index version
  else if part = 2 then s.restoreCopy c index version
  else if part = 3 then s.restoreSlot index version
  else s

end State

/-- CXL_LINK_LOSS. -/
def execCxlLinkLoss (port : Nat) (s : State) : Host.Outcome State Fault Refusal :=
  if 10 ≤ port then .fault .noSuchUnit else .next (s.loseCxl port)
/-- COLMET_LINK_LOSS. -/
def execColmetLinkLoss (link : Nat) (s : State) : Host.Outcome State Fault Refusal :=
  if 12 ≤ link then .fault .noSuchUnit else .next (s.loseColmet link)
/-- LINK_RETRAIN. -/
def execLinkRetrain (colmet : Bool) (link : Nat) (hostReset : Bool) (s : State) : Host.Outcome State Fault Refusal :=
  if (if colmet then 12 else 10) ≤ link then .fault .noSuchUnit else .next (s.retrain colmet link hostReset)
/-- STRANDED_RETENTION_EXPIRY. -/
def execStrandedRetentionExpiry (s : State) : Host.Outcome State Fault Refusal := .next s.retentionOver
/-- RESTORE: reason 1 to 3, the number of the command, copy or Vigil slot, and the version found. -/
def execRestore (core part index version : Nat) (s : State) : Host.Outcome State Fault Refusal :=
  if !coreOk core || part = 0 || 3 < part || (part = 3 && 16384 ≤ index) then .fault .noSuchUnit
  else .next (s.partDamaged core part index version)

end Sys2Proof.Machine
end

