-- ==== Sys2Proof/Machine/Manage.lean ====
section
/-! DEFINITION. What the I/O die and the dies do for memory at the device block's request (05 R77, R78, R93, R100; 07
R128; 23 R410): page walks that end, write-back deadlines, TLB invalidation, the counter-page table, keys. -/

namespace Sys2Proof.Machine

/-- Is a request the write-back of a line tagged k that has left its cache? -/
def MemReq.writesUnder (r : MemReq) (k : Nat) : Bool := r.slot = 64 && r.op = .store && r.accs.any fun a => a.kid = k

namespace State

/-- A register of the device block that is a plain cell, and a pair. -/
def devReg (s : State) (o : Nat) : Word := s.io.regs.get 0 o
def devReg64 (s : State) (o : Nat) : DWord := pairOf (s.devReg o) (s.devReg (o + 4))
/-- Make the completion add that a device register names, or set DEVSTS.CMDCTR (23 R411). -/
def completeAt (s : State) (a : DWord) : State :=
  match s.physAdd a 1 with
  | some s => s
  | none => s.setDevsts 7

/-! ## Walks and write-backs -/

/-- A page walk ends (05 R77): a leaf is kept by the die's TLB; a walk that faults leaves nothing (21 R378). -/
def walkDone (s : State) (d h vpn : Nat) : State :=
  if !(s.ctx h).valid || 2 ^ 45 ≤ vpn then s
  else if s.budgetOut d 2 then s.hold (budgetKey d 2) false (.pageWalkComplete d h vpn)
  else
    let s := (s.countDie d 0x42).charge d 2 40
    match walkFrom s.readPte (vpn * 4096) 4 (s.ctx h).ptroot with
    | .ok t => s.tlbPut d h vpn t
    | .error _ => s

/-- A dirty line is written back in time (05 R100), unless its home must hold the write (14 R304). -/
def deadline (s : State) (c line : Nat) : State :=
  match s.l1.find (lineKey c line) with
  | none => s
  | some l =>
    if l.dirty = 0#32 then s
    else if s.closedFull (line * 128) then s.hold (line * 128 / 4096) true (.l1WritebackDeadline c line)
    else s.l1WriteBack c line

/-! ## TLB invalidation (05 R78; 23 R410) -/

/-- A GO of TLBICTL queues the request that the TLBI registers describe. -/
def askInvalidate (s : State) : State :=
  if 16 ≤ s.io.tlbq.length then s.setDevsts 6
  else
    let r : TlbReq := { ctx := bitsOf (s.devReg 0x080).toNat 9 0, va := s.devReg64 0x088, len := s.devReg64 0x090,
                        ctr := s.devReg64 0x098 }
    (s.updIo fun x => { x with tlbq := x.tlbq ++ [r] }).post .tlbInvalidateComplete

/-- Does a request name a cached translation? -/
def TlbReq.hits (r : TlbReq) (k : Nat) (t : TlbEntry) : Bool :=
  let lo := k % 2 ^ 45 * 4096 / t.size * t.size
  k / 2 ^ 45 % 1024 = r.ctx && (r.len = 0#64 || (r.va.toNat < lo + t.size && lo < r.va.toNat + r.len.toNat))

/-- Drop the cached translations, of every die and core, that `hit` picks. -/
def dropTlb (s : State) (hit : Nat → TlbEntry → Bool) : State :=
  let keep (m : Map TlbEntry) : Map TlbEntry := m.filter fun e => !hit e.1 e.2
  let cores : Map Core := s.cores.map fun e => (e.1, { e.2 with tlb := keep e.2.tlb })
  { s with tlb := keep s.tlb, cores := cores }
/-- The oldest request completes on every die. -/
def invalidated (s : State) : State :=
  match s.io.tlbq with
  | [] => s
  | r :: rest =>
    ((s.updIo fun x => { x with tlbq := rest }).dropTlb (TlbReq.hits r)).completeAt r.ctr

/-! ## The counter-page table (07 R128; 23 R410) -/

/-- The page of CPGADDR, where device memory has it. -/
def cpgPage (s : State) : Option Nat :=
  let p := (s.devReg64 0x0B0).toNat / 4096
  if p * 4096 < deviceEnd then some p else none
/-- MARK: the bit of the page as it stands after the command. -/
def noteMark (s : State) : State :=
  let m := match s.cpgPage with
    | some p => s.ctrPages.contains p
    | none => false
  s.updIo fun x => { x with cpgMark := m }
def setCtrPage (s : State) : State :=
  match s.cpgPage with
  | some p => if s.ctrPages.contains p then s.noteMark else State.noteMark { s with ctrPages := s.ctrPages ++ [p] }
  | none => s.noteMark
def clearCtrPage (s : State) : State :=
  match s.cpgPage with
  | some p => State.noteMark { s with ctrPages := s.ctrPages.filter (· != p) }
  | none => s.noteMark

/-! ## Keys (05 R93) -/

/-- A command ends: STAT, and KEYDATA cleared. -/
def keyEnds (s : State) (stat : Nat) : State :=
  s.updIo fun x => { x with keyStat := BitVec.ofNat 8 stat, keyBusy := false, keyData := [], keyOut := false }
/-- KID k takes a key, or none. -/
def putKey (s : State) (k : Nat) (key : Option (BitVec 512)) : State :=
  s.updIo fun x => { x with keys := match key with
    | some v => x.keys.set k v
    | none => x.keys.del k }
/-- Before the key of KID k changes, every dirty line tagged k is written under the old one, and every line tagged k leaves
the caches: the command `e` waits for write-backs that wait at their home (14 R304). -/
def afterDrop (s : State) (k : Nat) (e : Instr) (f : State → State) : State :=
  let s := s.dropKid k
  let late : List Nat := (s.reqs.filter fun r => r.2.writesUnder k).map Prod.fst
  match s.held.find? fun h => late.any fun i => h.ev = .memoryRequestAtHome i with
  | some h => s.hold h.key true e
  | none => if late.isEmpty then f s else s.post e
/-- The bytes of KEYDATA0 to KEYDATA(n − 1). -/
def keyBytesIn (s : State) (n : Nat) : List Byte := (List.range n).flatMap fun i => leBytes 4 (s.io.keyData.get 0 i).toNat
def keyOfBytes (b : List Byte) : BitVec 512 := BitVec.ofNat 512 (leNat b)

/-- Run a command on the KID of KEYCTL; KID 0 has no key. -/
def keyCommand (s : State) (f : State → Nat → State) : State :=
  let k := s.io.keyKid.toNat
  if k = 0 then s.keyEnds 1 else f s k
/-- With the wrapping key of KEYWK. -/
def withWrapKey (s : State) (k : Nat) (f : List Byte → State) : State :=
  let w := s.io.keyWk.toNat
  match s.io.keys.find w with
  | none => s.keyEnds 2
  | some kek => if w = 0 || w = k then s.keyEnds 2 else f ((keyBytes kek).take 32)

def genKey (s : State) : State := s.keyCommand fun s k => s.afterDrop k .keyGen fun s =>
  let key := Config.freeKey s.free
  (State.putKey { s with free := s.free + 1 } k (some key)).keyEnds 0
def loadKey (s : State) : State := s.keyCommand fun s k => s.afterDrop k .keyLoad fun s =>
  (s.putKey k (some (keyOfBytes (s.keyBytesIn 16)))).keyEnds 0
def eraseKey (s : State) : State := s.keyCommand fun s k => s.afterDrop k .keyErase fun s => (s.putKey k none).keyEnds 0
def wrapKey (s : State) : State := s.keyCommand fun s k =>
  match s.io.keys.find k with
  | none => s.keyEnds 2
  | some key => s.withWrapKey k fun kek =>
    let c := kwWrap kek (keyBytes key)
    (s.keyEnds 0).updIo fun x => { x with
      keyOut := true
      keyData := (List.range 18).map fun i => (i, BitVec.ofNat 32 (leNat ((c.drop (4 * i)).take 4))) }
def unwrapKey (s : State) : State := s.keyCommand fun s k =>
  s.withWrapKey k fun kek =>
    match kwUnwrap kek (s.keyBytesIn 18) with
    | none => s.keyEnds 3
    | some p => s.afterDrop k .keyUnwrap fun s => (s.putKey k (some (keyOfBytes p))).keyEnds 0

end State

/-- PAGE_WALK_COMPLETE. -/
def execPageWalkComplete (die ctx vpn : Nat) (s : State) : Host.Outcome State Fault Refusal :=
  if !dieOk die || 1024 ≤ ctx then .fault .noSuchUnit else .next (s.walkDone die ctx vpn)
/-- L1_WRITEBACK_DEADLINE. -/
def execL1WritebackDeadline (core line : Nat) (s : State) : Host.Outcome State Fault Refusal :=
  if !coreOk core then .fault .noSuchUnit else .next (s.deadline core line)
/-- TLB_INVALIDATE_REQUEST. -/
def execTlbInvalidateRequest (s : State) : Host.Outcome State Fault Refusal := .next s.askInvalidate
/-- TLB_INVALIDATE_COMPLETE. -/
def execTlbInvalidateComplete (s : State) : Host.Outcome State Fault Refusal := .next s.invalidated
/-- COUNTER_PAGE_SET. -/
def execCounterPageSet (s : State) : Host.Outcome State Fault Refusal := .next s.setCtrPage
/-- COUNTER_PAGE_CLEAR. -/
def execCounterPageClear (s : State) : Host.Outcome State Fault Refusal := .next s.clearCtrPage
/-- COUNTER_PAGE_READ. -/
def execCounterPageRead (s : State) : Host.Outcome State Fault Refusal := .next s.noteMark
/-- GEN. -/
def execKeyGen (s : State) : Host.Outcome State Fault Refusal := .next s.genKey
/-- KEY_LOAD. -/
def execKeyLoad (s : State) : Host.Outcome State Fault Refusal := .next s.loadKey
/-- ERASE. -/
def execKeyErase (s : State) : Host.Outcome State Fault Refusal := .next s.eraseKey
/-- WRAP. -/
def execKeyWrap (s : State) : Host.Outcome State Fault Refusal := .next s.wrapKey
/-- UNWRAP. -/
def execKeyUnwrap (s : State) : Host.Outcome State Fault Refusal := .next s.unwrapKey
/-- KEY_RESERVED_COMMAND. -/
def execKeyReservedCommand (s : State) : Host.Outcome State Fault Refusal := .next (s.keyEnds 1)

end Sys2Proof.Machine
end

