-- ==== Sys2Proof/Machine/Power.lean ====
section
/-! DEFINITION. Power and heat (17 R343; 23 R413): the V-F state of a die, its POWER records, throttling and power-down. -/

namespace Sys2Proof.Machine

namespace State

/-- LIM of PWRLIM (23 R413). -/
def powerLim (s : State) : Nat := bitsOf (s.io.regs.get 2000#32 0x050).toNat 15 0

/-- Each core of a die writes one POWER record for its running context; contexts with CAPCTL.PWR start a capture (17 R342,
R343). -/
def powerRecords (s : State) (d cause old new : Nat) : State :=
  let cs := (s.cores.filter fun e => dieOfCore e.1 = d && s.coreRuns e.1).map Prod.fst
  let s := cs.foldl (fun (s : State) c =>
    s.trace c 5 0 cause 0 (s.cc c).lastRgns (s.bodyCyc c (BitVec.ofNat 64 (old + 16 * new)))) s
  let hs := (cs.map fun c => (s.cc c).ctx).dedup.filter fun h => (s.ctx h).capctl.getLsbD 1
  hs.foldl (fun (s : State) h => s.beginCapture h 2) s

/-- The management controller changes a die's V-F state. -/
def setVf (s : State) (d new cause : Nat) : State :=
  let old := (s.die d).vfCur.toNat
  (s.updDie d fun x => { x with vfCur := BitVec.ofNat 4 new }).powerRecords d cause old new

/-- It selects an index below `bound`; which one the manual leaves open. -/
def lowerVf (s : State) (d bound cause : Nat) : State :=
  let (x, s) := s.fresh
  s.setVf d (x.toNat % bound) cause
/-- It lowers CUR, unless it is 0. -/
def throttle (s : State) (d cause : Nat) : State :=
  let v := (s.die d).vfCur.toNat
  if v = 0 then s else s.lowerVf d v cause

/-- The management controller selects an index, no higher than MAX. -/
def selectVf (s : State) (d index cause : Nat) : State :=
  if (s.die d).vfMax.toNat < index || (s.die d).vfCur.toNat = index then s else s.setVf d index cause

/-- A write of VFSTATE: MAX below CUR lowers CUR. -/
def writeVfstate (s : State) (d : Nat) (v : Word) : State :=
  let m := bitsOf v.toNat 11 8
  let s := s.updDie d fun x => { x with vfMax := BitVec.ofNat 4 m }
  if m < (s.die d).vfCur.toNat then s.lowerVf d (m + 1) 2 else s

/-- TJ reaches TLIM: HOT, and a lower index. -/
def heat (s : State) (d tj : Nat) : State :=
  if tj < (s.die d).tlim.toNat then s else (s.updDie d fun x => { x with hot := true }).throttle d 0

/-- The module draws more than LIM: every die is lowered, and one that cannot be still records the limit. -/
def powerOver (s : State) (watts : Nat) : State :=
  if watts ≤ s.powerLim then s else
  [0, 1, 2, 3].foldl (fun (s : State) d =>
    if (s.die d).vfCur = 0#4 then s.powerRecords d 1 0 0 else s.throttle d 1) s

def undervoltage (s : State) : State := [0, 1, 2, 3].foldl (fun (s : State) d => s.throttle d 3) s

/-- What outlasts a reset or power-down: memory outside the module, flash and fuses; and the model's index of free
values. -/
def cold (s : State) : State :=
  { State.reset with
    mem := s.mem.filter fun e => 2 ^ 46 ≤ e.1
    boot := { fused := s.boot.fused, slotA := s.boot.slotA, slotB := s.boot.slotB }
    free := s.free }

/-- At 115 °C the module powers down. -/
def shutdown (s : State) (tj : Nat) : State :=
  if tj < 115 then s else s.cold.updIo fun x => { x with powered := false }

end State

/-- VF_STATE_CHANGE. -/
def execVfStateChange (die index cause : Nat) (s : State) : Host.Outcome State Fault Refusal :=
  if !dieOk die || 16 ≤ index || 4 ≤ cause then .fault .noSuchUnit else .next (s.selectVf die index cause)
/-- VFSTATE_WRITE. -/
def execVfstateWrite (die : Nat) (value : Word) (s : State) : Host.Outcome State Fault Refusal :=
  if !dieOk die then .fault .noSuchUnit else .next (s.writeVfstate die value)
/-- THERMAL_THROTTLE. -/
def execThermalThrottle (die tj : Nat) (s : State) : Host.Outcome State Fault Refusal :=
  if !dieOk die then .fault .noSuchUnit else .next (s.heat die tj)
/-- POWER_LIMIT_EXCEEDED. -/
def execPowerLimitExceeded (watts : Nat) (s : State) : Host.Outcome State Fault Refusal := .next (s.powerOver watts)
/-- INPUT_UNDERVOLTAGE. -/
def execInputUndervoltage (s : State) : Host.Outcome State Fault Refusal := .next s.undervoltage
/-- THERMAL_SHUTDOWN. -/
def execThermalShutdown (die tj : Nat) (s : State) : Host.Outcome State Fault Refusal :=
  if !dieOk die then .fault .noSuchUnit else .next (s.shutdown tj)

end Sys2Proof.Machine
end

