-- ==== Sys2Proof/Machine/Boot.lean ====
section
/-! DEFINITION. Reset, the choice of the firmware, self-test and the recovery mailbox (22 R401, R402, R406). -/

namespace Sys2Proof.Machine

/-- Fields of word 0 of a BIST record (22 R402). -/
def bistUnit (w : Nat) : Nat := bitsOf w 7 0
def bistDie (w : Nat) : Nat := bitsOf w 9 8
def bistPart (w : Nat) : Nat := 8 * bistDie w + bitsOf w 12 10
def bistIndex (w : Nat) : Nat := bitsOf w 23 18
/-- Is it a unit of a partition? -/
def bistOfPart (u : Nat) : Bool := (1 ≤ u && u ≤ 8) || u = 0x11

namespace State

/-! ## The firmware (R401) -/

/-- The slot result of contents: 0 valid, 1 absent, 2 signature, 3 digest, 4 version, 5 read error. -/
def slotResult (s : State) (x : Map Byte) : Nat × State :=
  let bad := Config.flashReadFails s.free
  let s : State := { s with free := s.free + 1 }
  (if bad then 5 else if !Config.flashMagic x then 1 else if !Config.flashDigest x then 3
   else if !Config.flashSignature x then 2 else if Config.flashSvn x < s.boot.fused then 4 else 0, s)

/-- BOOTSTS in PHASE 3. -/
def bootWord (a b : Nat) (rcv act : Bool) (svn : Nat) : Word :=
  BitVec.ofNat 32 (3 * 2 ^ 28 + a * 2 ^ 24 + b * 2 ^ 20 + (if rcv then 2 ^ 19 else 0) + (if act then 2 ^ 18 else 0) + svn)

/-- Choose and boot the firmware. -/
def bootFirmware (s : State) : State :=
  let (a, s) := s.slotResult s.boot.slotA
  let (b, s) := s.slotResult s.boot.slotB
  let va := Config.flashSvn s.boot.slotA
  let vb := Config.flashSvn s.boot.slotB
  let run (w : Word) (svn : BitVec 16) : State :=
    { s with boot := { s.boot with bootsts := w, fused := if s.boot.fused < svn then svn else s.boot.fused } }
  if a != 0 && b != 0 then { s with boot := { s.boot with bootsts := bootWord a b true false 0 } }
  else if a = 0 && (b != 0 || vb ≤ va) then run (bootWord a b false false va.toNat) va
  else run (bootWord a b false true vb.toNat) vb

/-! ## Self-test (R402) -/

/-- The home die of the gang counters leaves service (13 R284): every gang in protocol is rolled back where it has not
started, and the agents that wait on gsv read it again at its new home. The counters have no other home in the state than
their values. -/
def leaveTicketHome (s : State) (d : Nat) : State :=
  if (s.die d).offline || (List.range d).any (fun e => dieOk e && !(s.die e).offline) then s else
  let s := (s.gangs.filter fun g => g.2.phase ≤ 1).foldl (fun s g => s.clearGang g.1 g.2.parts) s
  let ready := (s.gangs.filter fun g => g.2.phase = 3 && g.2.ticket.any fun t => decide (t ≤ s.gsv)).map Prod.fst
  ready.foldl (fun s g => s.retryGang g) s

/-- Take the unit of a failure out of service. -/
def outOfService (s : State) (r : BitVec 128) : State :=
  let w := r.toNat % 2 ^ 32
  let u := bistUnit w
  let add (l : List Nat) : List Nat := if l.contains (bistIndex w) then l else l ++ [bistIndex w]
  if bistOfPart u then s.offlinePart (bistPart w)
  else if u = 0x10 || u = 0x12 then
    let s := (s.leaveTicketHome (bistDie w)).updDie (bistDie w) fun x => { x with offline := true }
    (List.range 8).foldl (fun (s : State) p => s.offlinePart (8 * bistDie w + p)) s
  else if u = 0x20 then { s with boot := { s.boot with appOffline := add s.boot.appOffline } }
  else if u = 0x21 then { s with boot := { s.boot with vigilOffline := add s.boot.vigilOffline } }
  else if u = 0x22 then State.loseCxl { s with boot := { s.boot with deadPorts := add s.boot.deadPorts } } (bistIndex w)
  else if u = 0x23 then { s with boot := { s.boot with deadLinks := add s.boot.deadLinks } }
  else s

/-- Run self-test; `only` names the unit, 0 every one: a record for each failure, whose unit is taken out of service. -/
def runBist (s : State) (only : Nat) : State :=
  let found := (Config.bistFinds s.free).filter fun r =>
    only = 0 || (r.toNat % 2 ^ 24 = only % 2 ^ 24)
  let s : State := { s with free := s.free + 1, boot := { s.boot with records := s.boot.records ++ found } }
  found.foldl (fun (s : State) r => s.outOfService r) s

/-- Is the unit that a word names, laid out as word 0 of a record, out of service? -/
def unitOffline (s : State) (w : Nat) : Bool :=
  let u := bistUnit w
  let i := bistIndex w
  if bistOfPart u then (s.part (bistPart w)).offline && (s.part (bistPart w)).running.isNone
  else if u = 0x10 || u = 0x12 then (List.range 8).all fun p => (s.part (8 * bistDie w + p)).offline
  else if u = 0x20 then s.boot.appOffline.contains i
  else if u = 0x21 then s.boot.vigilOffline.contains i
  else if u = 0x22 then s.boot.deadPorts.contains i || s.io.lostCxl.contains i
  else if u = 0x23 then s.boot.deadLinks.contains i || s.io.lostColmet.contains i
  else false

/-- A reset of the module: the firmware is authenticated and booted, and self-test runs before PHASE 3. -/
def resetModule (s : State) : State := s.cold.bootFirmware.runBist 0

/-! ## The recovery mailbox (R401) -/

def updBoot (s : State) (f : Boot → Boot) : State := { s with boot := f s.boot }
/-- Bytes into RMBDATA. -/
def toRmb (s : State) (o : Nat) (bs : List Byte) : State :=
  s.updBoot fun x => { x with rmb := (List.range bs.length).foldl (fun m i => m.set (o + i) (bs.getD i 0)) x.rmb }
def fromRmb (s : State) (o n : Nat) : List Byte := (List.range n).map fun i => s.boot.rmb.get 0 (o + i)
/-- A command ends with an outcome in RMBSTS. -/
def mailboxEnds (s : State) (stat : Nat) : State := s.updBoot fun x => { x with rmbsts := BitVec.ofNat 32 stat, rmbBusy := false }
/-- The slot of RMBCMD, B if true, and its block offset. -/
def rmbSlot (s : State) : Bool := s.boot.rmbcmd.getLsbD 8
def rmbBlock (s : State) : Nat := bitsOf s.boot.rmbcmd.toNat 31 16

/-- STATUS: BOOTSTS, then the fused minimum. -/
def mailStatus (s : State) : State :=
  (s.toRmb 0 (leBytes 4 s.boot.bootsts.toNat ++ leBytes 4 s.boot.fused.toNat)).mailboxEnds 0

/-- WRITE: 4 KiB into a block of a flash slot, never of the one that runs. -/
def mailWrite (s : State) : State :=
  let act := s.boot.bootsts.getLsbD 18
  if Config.flashBlocks ≤ s.rmbBlock || (!s.recovery && act = s.rmbSlot) then s.mailboxEnds 2
  else if Config.flashFails s.free then State.mailboxEnds { s with free := s.free + 1 } 3
  else
    let bs := s.fromRmb 0 4096
    let o := 4096 * s.rmbBlock
    let put (m : Map Byte) : Map Byte := (List.range 4096).foldl (fun m i => m.set (o + i) (bs.getD i 0)) m
    State.mailboxEnds (State.updBoot { s with free := s.free + 1 } fun x =>
      if s.rmbSlot then { x with slotB := put x.slotB } else { x with slotA := put x.slotA }) 0

/-- VERIFY: the slot's result code, into RMBDATA. -/
def mailVerify (s : State) : State :=
  let (r, s) := s.slotResult (if s.rmbSlot then s.boot.slotB else s.boot.slotA)
  (s.toRmb 0 (leBytes 4 r)).mailboxEnds 0

/-- BIST of the unit that RMBDATA names; refused where it is in service (R406). -/
def mailBist (s : State) : State :=
  let w := leNat (s.fromRmb 0 4)
  if s.unitOffline w then (s.runBist w).mailboxEnds 0 else s.mailboxEnds 2

/-- RESULTS: the next 16 records. -/
def mailResults (s : State) : State :=
  let rs := (s.boot.records.drop s.boot.copied).take 16
  let s := s.toRmb 0 (rs.flatMap fun r => leBytes 16 r.toNat)
  (s.updBoot fun x => { x with copied := x.copied + rs.length }).mailboxEnds 0

/-- The event of a mailbox command. -/
def mailEvent (cmd : Nat) : Instr :=
  if cmd = 1 then .status else if cmd = 2 then .writeFlash else if cmd = 3 then .verify else if cmd = 4 then .bist
  else if cmd = 5 then .results else if cmd = 6 then .reboot else .mailboxUnknownCommand

/-- RMBCMD is written: one command at a time. Until it ends the manual states no value of RMBSTS. -/
def writeRmbcmd (s : State) (v : Word) : State :=
  if s.boot.rmbBusy then s else
  let (x, s) := s.fresh
  (s.updBoot fun y => { y with rmbcmd := v, rmbsts := x, rmbBusy := true }).post (mailEvent (bitsOf v.toNat 7 0))

end State

/-- STATUS. -/
def execStatus (s : State) : Host.Outcome State Fault Refusal := .next s.mailStatus
/-- WRITE. -/
def execWriteFlash (s : State) : Host.Outcome State Fault Refusal := .next s.mailWrite
/-- VERIFY. -/
def execVerify (s : State) : Host.Outcome State Fault Refusal := .next s.mailVerify
/-- BIST. -/
def execBist (s : State) : Host.Outcome State Fault Refusal := .next s.mailBist
/-- RESULTS. -/
def execResults (s : State) : Host.Outcome State Fault Refusal := .next s.mailResults
/-- REBOOT. -/
def execReboot (s : State) : Host.Outcome State Fault Refusal := .next s.resetModule
/-- MAILBOX_UNKNOWN_COMMAND. -/
def execMailboxUnknownCommand (s : State) : Host.Outcome State Fault Refusal := .next (s.mailboxEnds 1)
/-- DEVICE_RESET. -/
def execDeviceReset (s : State) : Host.Outcome State Fault Refusal := .next s.resetModule

end Sys2Proof.Machine
end

