-- ==== Sys2Proof/Machine/Debug.lean ====
section
/-! DEFINITION. The debug window (17 R340, R341; 23 R415), the creation and destruction of contexts, and the assignment of
Vigil slots (23 R414, R415). -/

namespace Sys2Proof.Machine

/-- A lane is given a PC, as a handler's write of LPC gives it (20 R368). -/
def Warp.placeLane (w : Warp) (l : Nat) (v : Word) : Warp :=
  match (w.lane l).state with
  | .exited => w
  | _ => (w.updLane l fun y => { y with state := .runnable, pc := v &&& 0xFFFFFFFC#32, waits := 0 }).leaveRep (1#32 <<< l)

namespace State

/-! ## The selected item -/

/-- The warp that DBGSEL selects, if it is stopped for the debugger. -/
def dbgWarp (s : State) (h : Nat) : Option (Nat × Nat) :=
  let x := ((s.ctx h).dbgsel).toNat
  let k := bitsOf x 9 5
  match (s.heldSet h)[bitsOf x 20 16]? with
  | none => none
  | some p =>
    let c := 24 * p + bitsOf x 14 10
    if 24 ≤ bitsOf x 14 10 then none
    else match (s.cc c).warps.find k with
      | some w => if stopped w && (s.cc c).ctx = h then some (c, k) else none
      | none => none

/-- Kind, number and lane of DBGITEM. -/
def dbgItem (s : State) (h : Nat) : Nat × Nat × Nat :=
  let x := (s.ctx h).dbgitem.toNat
  (bitsOf x 15 8, bitsOf x 7 0, bitsOf x 20 16)

/-- The state as an instruction of one lane of a warp would find it. -/
def asIssued (s : State) (c k l : Nat) : State :=
  { s with cur := { core := c, slot := k, lanes := 1#32 <<< l, pc := ((s.warp c k).lane l).pc } }

/-- A special register of a warp by index: of a wide one the low word; an index that names none reads 0. -/
def dbgSreg (s : State) (c k l x : Nat) : Word :=
  let t := s.asIssued c k l
  if 0x40 ≤ x then
    match t.window c (s.warp c k).team none (x - 0x40) with
    | some (q, p) => if sregAssigned x then lo32 ((s.cc q).wdesc.get 0 p) else 0
    | none => 0
  else if sregAssigned x then lo32 (t.sreg x) else 0

/-- The selected item; one that does not exist reads 0, a register of an unmapped block a free value. -/
def dbgValue (s : State) (h c k : Nat) : Word × State :=
  let (kind, n, l) := s.dbgItem h
  let w := s.warp c k
  let b (x : Bool) : Word := if x then 1 else 0
  if kind = 0 then
    if 112 ≤ n then (0, s) else if w.mapped (n / 16) then (w.v n l, s) else s.fresh
  else if kind = 1 then (if n < 8 then w.v (112 + n) l else 0, s)
  else if kind = 2 then (if n < 64 then w.s n else 0, s)
  else if kind = 3 then (b (n < 8 && w.p n l), s)
  else if kind = 4 then (b (n < 4 && w.sp n), s)
  else if kind = 5 then (lpc (w.lane l), s)
  else if kind = 6 then (BitVec.ofNat 32 (laneCode (w.lane l) + if w.trap.tmask.getLsbD l then 8 else 0), s)
  else if kind = 7 then (s.dbgSreg c k l n, s)
  else (0, s)

/-- A read of DBGDATA: 0, and ERR, where the selected warp is not stopped for the debugger. -/
def dbgRead (s : State) (h : Nat) : Word × State :=
  match s.dbgWarp h with
  | some (c, k) => s.dbgValue h c k
  | none => (0, s.updCtx h fun x => { x with dbgErr := true })

/-- A lane's state written as a handler writes LST (20 R368). -/
def dbgLane (s : State) (c k l : Nat) (v : Word) : State :=
  match ((s.warp c k).lane l).state with
  | .exited => s
  | .runnable => if v.toNat % 4 = 2 then s.exitLanes c k (1#32 <<< l) else s
  | .parked =>
    if v.toNat % 4 = 0 then s.updWarp c k fun w => w.updLane l fun y => { y with state := .runnable, pc := y.park, waits := 0 }
    else if v.toNat % 4 = 2 then s.exitLanes c k (1#32 <<< l) else s

/-- Write the selected item; what SWR cannot write stays. -/
def dbgPut (s : State) (h c k : Nat) (v : Word) : State :=
  let (kind, n, l) := s.dbgItem h
  let w := s.warp c k
  if kind = 0 then
    if n < 112 && w.mapped (n / 16) then (s.updWarp c k fun w => w.setV n l v).markRegs c k [n] else s
  else if kind = 1 then (if n < 8 then s.updWarp c k fun w => w.setV (112 + n) l v else s)
  else if kind = 2 then (if n < 64 then s.updWarp c k fun w => w.setS n v else s)
  else if kind = 3 then (if n < 8 then s.updWarp c k fun w => w.setP n l (v.getLsbD 0) else s)
  else if kind = 4 then (if n < 4 then s.updWarp c k fun w => w.setSp n (v.getLsbD 0) else s)
  else if kind = 5 then s.updWarp c k fun w => w.placeLane l v
  else if kind = 6 then s.dbgLane c k l v
  else if kind = 7 && swrTo n && !swrReserved n v then
    let t := s.asIssued c k l
    { t.setSreg n v (pairOf v (hi32 (t.sreg n))) with cur := s.cur }
  else s

/-- A write of DBGDATA. -/
def dbgWrite (s : State) (h : Nat) (v : Word) : State :=
  match s.dbgWarp h with
  | some (c, k) => s.dbgPut h c k v
  | none => s.updCtx h fun x => { x with dbgErr := true }

/-! ## GO (17 R340; 20 R370) -/

def wakeWarp (w : Warp) : Warp := w.updTrap fun t => { t with dbgStopped := false, frozen := false }
def wakeWarps (m : Map Warp) : Map Warp := m.map fun e => (e.1, wakeWarp e.2)
/-- A saved or evicted part of the context, its stopped warps resumed. -/
def wakeSaved (y : SavedPart) : SavedPart :=
  { y with
    cores := y.cores.map fun e => (e.1, { e.2 with warps := wakeWarps e.2.warps })
    evicted := y.evicted.map fun e => { e with teams := e.teams.map fun t => { t with warps := wakeWarps t.warps } } }

/-- GO of DBGCTL: every stopped warp of the context resumes, HALT is cleared. -/
def debugResume (s : State) (h : Nat) : State :=
  let cs : Map Core := s.cores.map fun e =>
    if e.2.cc.ctx = h then (e.1, { e.2 with cc := { e.2.cc with warps := wakeWarps e.2.cc.warps } }) else e
  let ps : Map Part := s.parts.map fun e => (e.1, { e.2 with
    standby := e.2.standby.map fun y => if y.ctx = h then wakeSaved y else y
    evicted := e.2.evicted.map fun v => if v.unit.ctx = h then
      { v with teams := v.teams.map fun t => { t with warps := wakeWarps t.warps } } else v })
  State.updCtx { s with cores := cs, parts := ps } h fun x => { x with halt := false }

/-- DBGCTL. -/
def writeDbgctl (s : State) (h : Nat) (v : Word) : State :=
  let s := s.updCtx h fun x => { x with claim := v.getLsbD 0, all := v.getLsbD 1, halt := v.getLsbD 3 }
  if v.getLsbD 2 then s.debugResume h else s

/-! ## Contexts (23 R415) -/

/-- CTXCTL.CREATE. -/
def createCtx (s : State) (h : Nat) : State :=
  let x := s.ctx h
  if !s.io.featDone then s.updCtx h fun x => { x with stat := 1 }
  else if x.valid then s.updCtx h fun x => { x with stat := 2 }
  else s.updCtx h fun x => { x with
    valid := true, stat := 0, feat := s.io.featAck.get 0 0, alm := {}, cap := {}, images := []
    replayStopped := false, replayPos := 0, logFull := false }

/-- Is a part of the context resident, standby or imaged (14 R297)? -/
def hasParts (s : State) (h : Nat) : Bool :=
  s.parts.any (fun e => e.2.running = some h || e.2.inPlace = some h || e.2.standby.any fun y => y.ctx = h) ||
    (s.ctx h).images.any fun e => !e.2.loaded

/-- CTXCTL.DESTROY: what the device keeps of the context goes. -/
def destroyCtx (s : State) (h : Nat) : State :=
  if s.hasParts h then s.updCtx h fun x => { x with stat := 3 }
  else
    let s : State := { s with
      launches := s.launches.filter fun e => e.2.ctx != h
      queues := s.queues.filter fun e => e.2.ctx != h
      runs := s.runs.filter fun e => e.2.ctx != h
      rings := s.rings.filter fun e => e.2.ctx != h
      vigil := { s.vigil with ranges := s.vigil.ranges.filter fun e => e.1 / 64 != h } }
    (s.dropTlb fun k _ => k / 2 ^ 45 % 1024 = h).updCtx h fun x =>
      { x with valid := false, stat := 0, alm := {}, cap := {}, images := [] }

/-! ## Vigil slots (23 R414; 22 R400) -/

/-- A VSLOTs write with V = 1. -/
def assignSlot (s : State) (k h : Nat) : State :=
  if s.boot.vigilOffline.contains (k / 1024) then s.setDevsts 5
  else if !(s.ctx h).hasFeat featVigil then s
  else s.updVslot k fun x => { clearSlot x with owner := some h }
/-- With V = 0: the slot keeps nothing, and adds of it that are still to be made have no slot to report to. -/
def releaseSlot (s : State) (k : Nat) : State :=
  let ops : Map CtrOp := s.ctrOps.map fun e =>
    (e.1, if e.2.agent = some (.vigil k) then { e.2 with agent := some (.vigil 16384) } else e.2)
  { s with vigil := { s.vigil with slots := s.vigil.slots.del k }, ctrOps := ops }

/-- The status word of a slot (15 R311). -/
def vstat (s : State) (k : Nat) : Word :=
  let x := s.vslot k
  match x.owner with
  | none => 0
  | some _ => BitVec.ofNat 32 (2 ^ 31 + (if x.st.stopped then 2 ^ 30 else 0) + (if x.nerr then 2 ^ 29 else 0) +
      x.st.fired.toNat * 2 ^ 16 + min x.drafts.length 8 * 2 ^ 8 + min x.st.hist.length 8)

end State

/-- DBGDATA_READ. -/
def execDbgdataRead (ctx : Nat) (s : State) : Host.Outcome State Fault Refusal :=
  if 1024 ≤ ctx then .fault .noSuchUnit
  else .next { (s.dbgRead ctx).2 with reply := (s.dbgRead ctx).1.setWidth 512 }
/-- DBGDATA_WRITE. -/
def execDbgdataWrite (ctx : Nat) (value : Word) (s : State) : Host.Outcome State Fault Refusal :=
  if 1024 ≤ ctx then .fault .noSuchUnit else .next (s.dbgWrite ctx value)
/-- DEBUG_GO. -/
def execDebugGo (ctx : Nat) (s : State) : Host.Outcome State Fault Refusal :=
  if 1024 ≤ ctx then .fault .noSuchUnit else .next (s.debugResume ctx)
/-- CREATE. -/
def execCreate (ctx : Nat) (s : State) : Host.Outcome State Fault Refusal :=
  if 1024 ≤ ctx then .fault .noSuchUnit else .next (s.createCtx ctx)
/-- DESTROY. -/
def execDestroy (ctx : Nat) (s : State) : Host.Outcome State Fault Refusal :=
  if 1024 ≤ ctx then .fault .noSuchUnit else .next (s.destroyCtx ctx)
/-- VSLOT_ASSIGN. -/
def execVslotAssign (slot ctx : Nat) (s : State) : Host.Outcome State Fault Refusal :=
  if 16384 ≤ slot || 1024 ≤ ctx then .fault .noSuchUnit else .next (s.assignSlot slot ctx)
/-- VSLOT_RELEASE. -/
def execVslotRelease (slot : Nat) (s : State) : Host.Outcome State Fault Refusal :=
  if 16384 ≤ slot then .fault .noSuchUnit else .next (s.releaseSlot slot)

end Sys2Proof.Machine
end

