-- ==== Sys2Proof/Machine/LaneCross.lean ====
section
/-! DEFINITION. Cross-lane instructions (09 R189 to R194): SHFL, VOTE, BALLOT, REDX, SCAN, MATCH. -/

namespace Sys2Proof.Machine

/-- Which control words each instruction takes (09 R190). -/
def shflWord (x : Word) : Bool :=
  let n := x.toNat
  bitsOf n 31 13 = 0 && bitsOf n 11 10 = 0 && bitsOf n 7 5 = 0 &&
    (!x.getLsbD 12 || bitsOf n 9 8 = 1 || bitsOf n 9 8 = 2)
def voteWord (x : Word) : Bool := x.toNat < 3
def ballotWord (x : Word) : Bool := x = 0#32
def redxWord (x : Word) : Bool := x.toNat ≤ 10
def scanWord (x : Word) : Bool := x.toNat < 32 && x.toNat % 16 ≤ 10
def matchWord (x : Word) : Bool := x.toNat < 2

/-- The source lane of SHFL, as an integer that may lie outside the warp (09 R191). -/
def shflSource (g l : Nat) (x : Word) : Int :=
  let n := bitsOf x.toNat 4 0
  let k := bitsOf x.toNat 9 8
  let b := State.groupBase g l
  let p := l - b
  if k = 0 then ((b + n % g : Nat) : Int)
  else if k = 1 then if x.getLsbD 12 then ((b + (p + g - n % g) % g : Nat) : Int) else (l : Int) - n
  else if k = 2 then if x.getLsbD 12 then ((b + (p + n) % g : Nat) : Int) else ((l + n : Nat) : Int)
  else ((b + (p ^^^ (n % g)) : Nat) : Int)

def execShfl (sc g : BitVec 2) (d a b : BitVec 7) (s : State) : Host.Outcome State Fault Refusal :=
  .next (s.issue (.shfl sc g d a b) sc fun s => s.controlWords b shflWord <|
    s.laneOp 6 d fun l =>
      let w := State.groupWidth g
      let j := shflSource w l (s.val b.toNat l)
      let base := State.groupBase w l
      if j < base || (base + w - 1 : Nat) < j || !s.cur.lanes.getLsbD j.toNat then s.val a.toNat l
      else s.val a.toNat j.toNat)

/-- The sum of 2^(j − b) over the lanes of a list that satisfy a condition (09 R192). -/
def groupMask (w l : Nat) (js : List Nat) (f : Nat → Bool) : Word :=
  BitVec.ofNat 32 (js.foldl (fun m j => if f j then m + 2 ^ (j - State.groupBase w l) else m) 0)

/-- VOTE (09 R192). -/
def execVote (sc g : BitVec 2) (d a b : BitVec 7) (s : State) : Host.Outcome State Fault Refusal :=
  .next (s.issue (.vote sc g d a b) sc fun s => s.controlWords b voteWord <|
    s.laneOp 6 d fun l =>
      let w := State.groupWidth g
      let js := s.groupLanes w l
      let k := (s.groupWord w l b).toNat
      let t := if k = 0 then js.any fun j => s.val a.toNat j != 0#32
        else if k = 1 then js.all fun j => s.val a.toNat j != 0#32
        else js.all fun j => s.val a.toNat j = s.val a.toNat l
      if t then 1 else 0)
def execBallot (sc g : BitVec 2) (d a b : BitVec 7) (s : State) : Host.Outcome State Fault Refusal :=
  .next (s.issue (.ballot sc g d a b) sc fun s => s.controlWords b ballotWord <|
    s.laneOp 6 d fun l =>
      let w := State.groupWidth g
      groupMask w l (s.groupLanes w l) fun j => s.val a.toNat j != 0#32)

/-- An operation of REDX and SCAN (09 R190), with its flags. -/
def crossOp (op rm : Nat) (z : Bool) (x y : Word) : Word × Word :=
  if op = 0 then (x + y, 0)
  else if op = 1 then (minMax false true x y, 0)
  else if op = 2 then (minMax true true x y, 0)
  else if op = 3 then (minMax false false x y, 0)
  else if op = 4 then (minMax true false x y, 0)
  else if op = 5 then (x &&& y, 0)
  else if op = 6 then (x ||| y, 0)
  else if op = 7 then (x ^^^ y, 0)
  else if op = 8 then let r := fAdd .f32 rm z x.toNat y.toNat
    (BitVec.ofNat 32 r.1, r.2)
  else (BitVec.ofNat 32 (fMinMax .f32 z (op = 10) x.toNat y.toNat), 0)
/-- The identity of an operation. -/
def crossIdentity (op : Nat) : Word :=
  [0, 0x7FFFFFFF, 0x80000000, 0xFFFFFFFF, 0, 0xFFFFFFFF, 0, 0, 0x80000000, 0x7F800000, 0xFF800000].getD op 0

/-- One level of REDX's tree: neighbours are combined, a lone value passes unchanged (09 R193). -/
def treeLevel (f : Word → Word → Word × Word) : List (Option Word) → List (Option Word) × Word
  | x :: y :: rest =>
    let (r, fl) := treeLevel f rest
    match x, y with
    | some u, some v => let (o, fo) := f u v
      (some o :: r, fl ||| fo)
    | some u, none => (some u :: r, fl)
    | none, v => (v :: r, fl)
  | l => (l, 0)
/-- The tree over n levels. -/
def treeReduce (f : Word → Word → Word × Word) : Nat → List (Option Word) → Word × Word
  | 0, l => (((l.headD none).getD 0), 0)
  | n + 1, l =>
    let (l, fl) := treeLevel f l
    let (x, fl') := treeReduce f n l
    (x, fl ||| fl')

def execRedx (sc g : BitVec 2) (d a b : BitVec 7) (s : State) : Host.Outcome State Fault Refusal :=
  .next (s.issue (.redx sc g d a b) sc fun s => s.controlWords b redxWord <|
    let w := State.groupWidth g
    let f (l : Nat) : Word × Word :=
      let base := State.groupBase w l
      treeReduce (crossOp (s.groupWord w l b).toNat s.rm s.sub) (3 + g.toNat)
        ((List.range w).map fun i => if s.cur.lanes.getLsbD (base + i) then some (s.val a.toNat (base + i)) else none)
    if (lanesOf s.cur.lanes).any fun l => (s.groupWord w l b).toNat = 8 then s.fpOp 6 d fun l => ((f l).1.toNat, (f l).2)
    else s.laneOp 6 d fun l => (f l).1)

/-- SCAN's running value over the lanes up to l: the value before l, the value with l, the flags of l's own
step (09 R194). -/
def scanTo (f : Word → Word → Word × Word) (x : Nat → Word) (l : Nat) (js : List Nat) : Option Word × Word × Word :=
  js.foldl (fun acc j => if l < j then acc else
    let before := acc.1
    -- acc.1 holds the running value until lane l itself is met
    match before with
    | none => if j = l then (none, x j, 0) else (some (x j), x j, 0)
    | some u => let (o, fl) := f u (x j)
      if j = l then (some u, o, fl) else (some o, o, fl)) (none, 0, 0)

def execScan (sc g : BitVec 2) (d a b : BitVec 7) (s : State) : Host.Outcome State Fault Refusal :=
  .next (s.issue (.scan sc g d a b) sc fun s => s.controlWords b scanWord <|
    let w := State.groupWidth g
    let f (l : Nat) : Word × Word :=
      let cw := s.groupWord w l b
      let op := cw.toNat % 16
      let (before, now, fl) := scanTo (crossOp op s.rm s.sub) (s.val a.toNat) l (s.groupLanes w l)
      (if cw.getLsbD 4 then before.getD (crossIdentity op) else now, fl)
    if (lanesOf s.cur.lanes).any fun l => (s.groupWord w l b).toNat % 16 = 8 then s.fpOp 6 d fun l => ((f l).1.toNat, (f l).2)
    else s.laneOp 6 d fun l => (f l).1)

/-- A is a register pair under .b64, which REP cannot step (08 R155): the control word tells, so the check is made as the
repeat issues. -/
def stepsPair (s : State) : Option TrapInfo := match s.cur.rep with
  | some (n, m) =>
    let word := 0x9E400000#32 ||| (BitVec.ofNat 32 (n - 1) <<< 16) ||| (m.setWidth 32 <<< 13)
    if m.getLsbD 1 then some (s.trapAt grpEncoding (EncReason.repeated.code * 256) word (BitVec.ofNat 32 n)) else none
  | none => none

/-- MATCH (09 R192). The form .b64 also reads A + 1, whose group and pending results are then checked (08 R146,
R151, R152). -/
def matchBody (g : BitVec 2) (d a b : BitVec 7) (s : State) : Did :=
  s.controlWords b matchWord <|
    let w := State.groupWidth g
    let wide := (lanesOf s.cur.lanes).any fun l => (s.groupWord w l b).getLsbD 0
    let hi : Nat := a.toNat + 1
    match (if wide then stepsPair s else none) with
    | some t => .trap s t
    | none =>
    if wide && (a.toNat % 2 = 1 || 110 < a.toNat) then .trap s (s.encTrap .group (a.setWidth 32))
    else if wide && s.me.var.any (fun v => v.file = .lane && v.num = hi && v.lanes &&& s.cur.lanes != 0#32) then .wait s
    else match (if wide && s.cur.mode.getLsbD 4 then State.pendingUntil s.me s.cur.lanes .lane hi else none) with
      | some t => .trap s (s.trapAt grpStallcheck hi s.cur.word (BitVec.ofNat 32 (max 1 (t + 1 - s.now))))
      | none => s.laneOp 6 d fun l =>
          let b64 := (s.groupWord w l b).getLsbD 0
          groupMask w l (s.groupLanes w l) fun j =>
            s.val a.toNat j = s.val a.toNat l && (!b64 || s.val hi j = s.val hi l)
def execMatch (sc g : BitVec 2) (d a b : BitVec 7) (s : State) : Host.Outcome State Fault Refusal :=
  .next (s.issue (.matchLanes sc g d a b) sc (matchBody g d a b))

end Sys2Proof.Machine
end

