-- ==== Sys2Proof/Machine/Ready.lean ====
section
/-! DEFINITION. Readiness that depends on more than names (02 R23): instructions that wait for what they act
on. Each body that can wait is tried on the state as it stands. -/

namespace Sys2Proof.Machine

/-- Does an outcome of an instruction of `s` say that it is not ready? One that meets a line for which no BISnp is
outstanding goes to its home, so that the line is asked for (16 R321). -/
def Did.waits (s : State) : Did → Bool
  | .wait _ => true
  | .done t _ => stuck t
  | .trap t _ => stuck t
where
  stuck (t : State) : Bool := match t.blocked with
    | none => false
    | some (key, inval) => !(2 ^ 40 ≤ key && key < 2 ^ 60 && !s.snoops.contains (key - 2 ^ 40, inval))

/-- Would the instruction of `s.cur` wait? -/
def State.bodyWaits (s : State) (i : Instr) : Bool :=
  match i with
  | .ld _ t d a b c r => (State.ldBody t d a b c r s).waits s
  | .st _ t d a b c => (State.stBody t d a b c s).waits s
  | .matchLanes _ g d a b => (matchBody g d a b s).waits s
  | .atom _ d a w o k => (State.atomBody d a w o k s).waits s
  | .cas _ d a w k => (State.casBody d a w k s).waits s
  | .caddv _ d x a y b => (State.caddvBody d x a y b s).waits s
  | .lds _ t d a r w => (State.ldsBody t d a r w s).waits s
  | .sts _ t d a r w => (State.stsBody t d a r w s).waits s
  | .atoms _ d a o k => (State.atomsBody d a o k s).waits s
  | .cass _ d a k => (State.cassBody d a k s).waits s
  | .pref _ l a b c => (s.prefBody l.toNat (s.globalAddr a b c 128)).waits s
  | .sld _ d a b w => (State.sldBody d a b w s).waits s
  | .sst _ d a b w => (State.sstBody d a b w s).waits s
  | .scall _ o => (State.callBody (fun _ => State.relTarget s.cur.pc o.toInt) s).waits s
  | .sret _ => (State.retBody s).waits s
  | .crd _ d a b f => (s.ctrBody .read f a b d.toNat 0 0 0).waits s
  | .cwait _ d a b f k => (s.ctrBody .wait f a b 0 0 (s.us64 d) k.toNat).waits s
  | .cpoll _ d a b f k => (s.ctrBody .poll f a b ((ctrFree f a b).toNat % 4) 0 (s.us64 d) k.toNat).waits s
  | .call _ i => (State.callBody (fun _ => s.laneTarget i) s).waits s
  | .calli _ a => (calliBody a s).waits s
  | .ret _ => (State.retBody s).waits s
  | .spawn _ a b => (State.spawnBody a b s).waits s
  | .cadd _ d a b f k => (State.caddBody d a b f k s).waits s
  | .fence _ e k => (State.fenceBody e k s).waits s
  | .cmnt _ a b l o => (State.cmntBody a b l o s).waits s
  | .racq _ m => (State.racqBody m s).waits s
  | .rrel _ m => (State.rrelBody m s).waits s
  | .rnext _ d p => (State.rnextBody d p s).waits s
  | .launch _ a => (State.launchBody a s).waits s
  | .svc _ d a => (State.svcBody d a s).waits s
  | .ckpt _ => (State.ckptBody s).waits s
  | .ckptCounter _ a b => (State.ckptCounterBody a b s).waits s
  | .cpy _ a r => (State.copyBody a r.toNat none false s).waits s
  | .cpyb _ d a j r => (State.cpybBody d a j r s).waits s
  | .cpyg _ a b r => (State.copyBody a r.toNat (some (s.us64 b)) false s).waits s
  | .cpys _ a b r => (State.copyBody a r.toNat (some (s.us64 b)) true s).waits s
  | .cseal _ d a b f k => (State.csealBody d a b f k s).waits s
  | .cwaitb _ b => (State.cwaitbBody b s).waits s
  | .wdesc _ a b => (State.wdescBody a b s).waits s
  | .msignCount _ n c => (State.msignBody n (c.setWidth 32) s).waits s
  | .msignReg _ n a => (State.msignBody n (s.us a) s).waits s
  | .ldw _ a => (State.ldwBody a s).waits s
  | .wswap _ => (State.wswapBody s).waits s
  | .mma _ d a z => (State.mmaBody d a z s).waits s
  | .mmat _ d a => (State.mmatBody d a s).waits s
  | .mperm _ d a => (State.mpermBody d a s).waits s
  | .mred _ d a => (State.mredBody d a s).waits s
  | .mrd _ d a => (State.mrdBody d a s).waits s
  | .mst _ d a => (State.mstBody d a s).waits s
  | .mzero _ d => (State.mzeroBody d s).waits s
  | .toksub _ d a b => (State.tokBody 0 d a b s).waits s
  | .toksubD _ d a b => (State.tokBody 1 d a b s).waits s
  | .tokconf _ d a b => (State.tokBody 2 d a b s).waits s
  | .tokarm _ a b => (State.tokarmBody a b s).waits s
  | _ => false

/-- Is the wait a stall on the range scoreboard? (06 R115; 17 R344) -/
def windowAccess : Instr → Bool
  | .lds .. => true
  | .sts .. => true
  | .atoms .. => true
  | .cass .. => true
  | _ => false

end Sys2Proof.Machine
end

