-- ==== Sys2Proof/Machine/Issue.lean ====
section
/-! DEFINITION. Issue (02 R23 to R26; 13 R287): a warp's PC groups and the units at their PCs, readiness, the
quad's choice of a warp and of up to two of its groups, what a core does each cycle, and the taking of a
pending asynchronous trap. -/

namespace Sys2Proof.Machine

/-- The PC groups of a warp by ascending PC (02 R22, R24). Lanes at the PC of an incomplete REP that joined
after its first repeat stand apart (08 R154). -/
def Warp.groups (w : Warp) : List (Word × Mask) :=
  let late (pc : Word) (l : Nat) : Nat := match w.uni.rep with
    | some r => if r.pc = pc && !r.lanes.getLsbD l then 1 else 0
    | none => 0
  let m : Map Mask := (List.range 32).foldl (fun m l =>
    let x := w.lane l
    if x.state = .runnable && !w.held l then m.upd 0 (2 * x.pc.toNat + late x.pc l) (· ||| (1#32 <<< l)) else m) []
  m.map fun e => (BitVec.ofNat 32 (e.1 / 2), e.2)

/-- What a group's next unit is. -/
inductive Chosen where
  /-- it traps before it issues -/
  | trap (t : TrapInfo)
  /-- a REP with no repeat left (08 R154) -/
  | skip (iss : Issue)
  | run (iss : Issue) (i : Instr)
  deriving DecidableEq, Repr

/-- A group with its next unit. -/
structure Cand where
  pc : Word
  lanes : Mask
  what : Chosen
  ready : Bool
  deriving DecidableEq, Repr

namespace State

/-- The unit at a group's PC (08 R141, R142, R154). -/
def choose (s : State) (c k : Nat) (g : Mask) (pc mode : Word) : Chosen :=
  let t (group code : Nat) (t1 t2 : Word) : TrapInfo :=
    { group := group, code := code, async := false, lv := false, lane := 0, t1 := t1, t2 := t2, epc := pc }
  match decodeUnit (s.fetchWord c k g pc) (k = fwSlot) with
  | .fetchFault f => .trap f
  | .privilege w => .trap (t grpPrivilege 256 w 0)
  | .encoding f => .trap (t grpEncoding (f.reason.code * 256 + f.pos) f.word (BitVec.ofNat 32 f.value))
  | .unit u i =>
    let iss : Issue := { core := c, slot := k, lanes := g, pc := pc, mode := mode, word := u.word, pos := u.pos,
                         lit := u.lit, rep := u.rep }
    match u.rep with
    | none => .run iss i
    | some (n, m) =>
      let j := (s.warp c k).uni.repIdx
      if n ≤ j then .skip iss else
      let w := stepWord u.word j m
      match decodeWord w with
      | .ok i => .run { iss with word := w } i
      | .error r => .trap (t grpEncoding (r.code * 256 + u.pos) w 0)

/-- Can an instruction's body go on, or does a check of the issue stage stop it first? -/
def canRun (s : State) (iss : Issue) (i : Instr) : Bool :=
  let s : State := { s with cur := iss }
  !s.notReady iss i && ((s.issueTrap i).isSome || !s.bodyWaits i)

/-- What the fetch of a group's next unit waits for. -/
def fetchWait (s : State) (c k : Nat) (pc : Word) (what : Chosen) : Option Nat :=
  let n := match what with
    | .run iss _ => iss.pos + 1
    | .skip iss => iss.pos + 1
    | .trap _ => 1
  (List.range n).findSome? (s.fetchHold c k pc)

/-- Does a wait for a home leave an instruction not ready? One that meets a line for which no BISnp is outstanding goes to
issue, so that the line is asked for (16 R321). -/
def waitsFor (s : State) (key : Nat) : Bool :=
  !(2 ^ 40 ≤ key && key < 2 ^ 60 && !s.snoops.contains (key - 2 ^ 40, false))

/-- Does a warp stall at a SPAWN of another group (02 R36)? -/
def spawnStalls (w : Warp) (pc : Word) (g : Mask) : Bool :=
  w.sched.spawns.any fun p => !p.of pc g && (lanesOf p.lanes).any fun l =>
    (w.lane l).state = .runnable && (w.lane l).pc = p.pc && !w.held l

/-- Is a group whose unit traps before it issues held by another's incomplete REP (08 R157)? -/
def badRepWaits (s : State) (c k : Nat) (g : Mask) (pc : Word) : Bool :=
  let rep : Option (Nat × BitVec 3) := match s.fetchWord c k g pc 0 with
    | .ok w => if isRep w then some (0, 0) else none
    | .error _ => none
  s.otherRep { core := c, slot := k, lanes := g, pc := pc, rep := rep }

/-- Is a group ready, its warp's own conditions apart (02 R23; 20 R363)? -/
def groupReady (s : State) (c k : Nat) (g : Mask) (pc : Word) (what : Chosen) : Bool :=
  let w := s.warp c k
  let now := (s.core c).cyc
  (lanesOf g).all (fun l => (w.lane l).notBefore ≤ now) &&
    w.sched.atHome.all (fun e => e.2 &&& g = 0#32) &&
    (w.sched.racq ++ w.sched.rrel).all (fun q => q.lanes &&& g = 0#32) &&
    (match w.sched.rnext with | some q => q.lanes &&& g = 0#32 | none => true) &&
    w.sched.due.all (fun e => e.1 &&& g = 0#32) && !spawnStalls w pc g &&
    match s.fetchWait c k pc what with
    | some key => !s.waitsFor key
    | none => match what with
    | .trap _ => !s.badRepWaits c k g pc
    | .skip iss => !s.otherRep iss
    | .run iss i => s.canRun iss i

/-- The groups of a warp with their next units. -/
def cands (s : State) (c k : Nat) : List Cand :=
  let w := s.warp c k
  w.groups.map fun e =>
    let what := s.choose c k e.2 e.1 w.uni.mode
    { pc := e.1, lanes := e.2, what := what, ready := s.groupReady c k e.2 e.1 what }

/-- The conditions of a warp: not frozen, stopped or parked in CWAIT, and its stall-count wait over. -/
def warpOpen (s : State) (c k : Nat) : Bool :=
  let w := s.warp c k
  let now := (s.core c).cyc
  !w.ended && !w.trap.frozen && !w.trap.dbgStopped && !s.gangWaits c w.team && w.sched.cwait.isNone && w.sched.stallUntil ≤ now &&
    !(w.sched.stallAll && w.pend.any fun p => now ≤ p.lands)

/-- The ready groups of a warp. -/
def readyGroups (s : State) (c k : Nat) : List Cand :=
  if s.warpOpen c k then (s.cands c k).filter Cand.ready else []

/-- The occupied user slots of a quad. -/
def quadSlots (s : State) (c q : Nat) : List Nat :=
  ((List.range 8).map (8 * q + ·)).filter fun k => ((s.cc c).warps.find k).isSome

/-! ## The choice -/

/-- The group with the most lanes, ties to the lower PC: the list ascends by PC. -/
def mostLanes (gs : List Cand) : Option Cand :=
  gs.foldl (fun b g => match b with
    | none => some g
    | some x => if (lanesOf x.lanes).length < (lanesOf g.lanes).length then some g else some x) none

/-- Is a group promoted (02 R26)? -/
def promoted (w : Warp) (g : Cand) : Bool := (lanesOf g.lanes).any fun l => 256 ≤ (w.lane l).waits

/-- The first group of an issue opportunity. -/
def firstGroup (w : Warp) (gs : List Cand) : Option Cand :=
  match gs.find? (promoted w) with
  | some g => some g
  | none => mostLanes gs
/-- The second. -/
def secondGroup (gs : List Cand) (first : Cand) : Option Cand :=
  mostLanes (gs.filter fun g => !(g.pc = first.pc && g.lanes = first.lanes))

/-- What a REDX or SCAN reads and writes beside registers, by its operations: MODE and FSTAT where one rounds, MODE where
one only flushes (09 R190). -/
def crossState (s : State) (g : BitVec 2) (b : BitVec 7) : List Nat × List Nat :=
  let ops := (lanesOf s.cur.lanes).map fun l => (s.groupWord (groupWidth g) l b).toNat % 16
  if ops.contains 8 then ([0x06], [0x07]) else if ops.any (8 < ·) then ([0x06], []) else ([], [])

/-- The uniform state that an instruction of `s.cur` reads and writes beside registers (02 R25; 03 R46): MODE, FSTAT,
QSTAT, CSBASE and CSLIM by special-register index, and the map of block b at 256 + b. -/
def uniformState (s : State) (i : Instr) : List Nat × List Nat :=
  let blocks : List Nat := ((regsOf (i.names.la ++ i.names.ld)).filter (· < 112)).map fun r => 256 + r / 16
  let mask (m : BitVec 7) : List Nat := ((List.range 7).filter m.getLsbD).map (256 + ·)
  let float : List Nat × List Nat := match i with
    | .fabs .. => ([], [])
    | .fneg .. => ([], [])
    | .fclass .. => ([], [])
    | .fcpys .. => ([], [])
    | .fmin .. => ([0x06], [])
    | .fmax .. => ([0x06], [])
    | .hmin2 .. => ([0x06], [])
    | .hmax2 .. => ([0x06], [])
    | .fcmp .. => ([0x06], [])
    | .qnt .. => ([0x06], [0x08])
    | .redx _ g _ _ b => s.crossState g b
    | .scan _ g _ _ b => s.crossState g b
    | i =>
      let w := encode i
      let o := bitsOf w.toNat 28 21
      if !w.getLsbD 31 && i.names.lat != 0 && 0x40 ≤ o && o ≤ 0x99 then ([0x06], [0x07]) else ([], [])
  match i with
  | .srd _ _ x => (if x = 0x15 then mask 0x7F else [x.toNat], [])
  | .swr _ _ x => ([x.toNat], [x.toNat])
  | .racq _ m => (mask m, mask m)
  | .racqNb _ m _ => (mask m, mask m)
  | .rrel _ m => (mask m, mask m)
  | .call .. => ([0x0E, 0x0F], [])
  | .calli .. => ([0x0E, 0x0F], [])
  | .ret .. => ([0x0E, 0x0F], [])
  | _ => (blocks ++ float.1, float.2)

/-- The counters that a counter instruction acts on (07 R122). -/
def countersOf (s : State) (i : Instr) : List Nat :=
  let one (f : BitVec 2) (a b : BitVec 6) (kind : Nat) : List Nat :=
    match s.ctrHomeOf s.cur.core s.myCtx s.me.team kind (s.ctrName f a b) with
    | .ok h => [h.id]
    | .error _ => []
  match i with
  | .caddv _ _ _ a _ _ => (lanesOf s.cur.lanes).filterMap fun l => match s.caddvLane a l with
    | .ok x => some (CtrHome.mem x.pa x.kid).id
    | .error _ => none
  | .cadd _ _ a b f _ => one f a b kCtrAdd
  | .crd _ _ a b f => one f a b kCtrRead
  | .cwait _ _ a b f _ => one f a b kCtrRead
  | .cpoll _ _ a b f _ => one f a b kCtrRead
  | _ => []
/-- Does it add to them? -/
def addsCounter : Instr → Bool
  | .caddv .. => true
  | .cadd .. => true
  | _ => false

/-- Is the second of two instructions dropped (02 R25)? The sticky flags of two lane instructions are no
conflict. -/
def dropped (s : State) (ia ib : Issue) (a b : Instr) : Bool :=
  let x := a.names
  let y := b.names
  let sa := uniformState { s with cur := ia } a
  let sb := uniformState { s with cur := ib } b
  let meet (p q : List Nat) : Bool := p.any q.contains
  let lanes := !(encode a).getLsbD 31 && !(encode b).getLsbD 31
  x.units.any y.units.contains || meet x.pw (y.pr ++ y.pw) || meet x.sw (y.sr ++ y.sw) ||
    meet (regsOf x.ud) (regsOf (y.ua ++ y.ud)) || meet (regsOf x.ua) (regsOf y.ud) ||
    (!lanes && meet sa.2 (sb.1 ++ sb.2)) ||
    (addsCounter a && meet (countersOf { s with cur := ia } a) (countersOf { s with cur := ib } b))
def droppedSecond (s : State) (a b : Cand) : Bool :=
  match a.what, b.what with
  | .run x i, .run y j => s.dropped x y i j
  | _, _ => false

/-- The slot that a quad picks (02 R23; 13 R287): `ks` are its ready user slots. -/
def pickUser (s : State) (c : Nat) (ks : List Nat) : Option Nat :=
  let now := (s.core c).cyc
  let oldest (l : List Nat) : Option Nat := l.foldl (fun b k => match b with
    | none => some k
    | some j => if (s.warp c k).sched.age < (s.warp c j).sched.age then some k else some j) none
  match oldest (ks.filter fun k => (s.warp c k).sched.lastPick + 64 < now) with
  | some k => some k
  | none => oldest ks

/-- An instruction chosen from a group. -/
def slotOf (s : State) (c k : Nat) (second : Bool) (g : Cand) : IssueSlot :=
  { core := c, slot := k, lanes := g.lanes, pc := g.pc, mode := (s.warp c k).uni.mode, spntmr := (s.cc c).spntmr
    second := second }

/-- Take the pending asynchronous trap of a warp, its handler group the one that would have been first (20
R362, R369). -/
def takeAsync (s : State) (c k : Nat) (gs : List Cand) : State :=
  let w := s.warp c k
  match nextAsync w, firstGroup w gs with
  | some t, some g =>
    let s := s.updWarp c k fun w => w.updTrap fun x => { x with async := x.async.erase t }
    s.takeTrap c k g.lanes { t with epc := g.pc }
  | _, _ => s

/-- An issue opportunity of a warp: its pending trap, or up to two instructions. The wait counts of its ready groups rise;
those of a group that issues go back to 0 (`issued`) (02 R24 to R26). Drops and promotions are counted (17 R344). -/
def opportunity (s : State) (c k : Nat) (gs : List Cand) : State :=
  let w := s.warp c k
  let s := s.updWarp c k fun w => (gs.foldl (fun w g => w.updLanes g.lanes fun _ l => { l with waits := l.waits + 1 }) w).updSched
    fun x => { x with lastPick := (s.core c).cyc }
  if !w.trap.async.isEmpty && !w.trap.inHandler then s.takeAsync c k gs else
  match firstGroup w gs with
  | none => s
  | some a =>
    let b := secondGroup gs a
    let drop := match b with
      | some b => s.droppedSecond a b
      | none => false
    let s := if drop then s.countEv c 5 1 else s
    let s := if promoted w a then s.countEv c 0x0E 1 else s
    { s with issuing := s.slotOf c k false a :: (if drop then [] else b.toList).map (s.slotOf c k true) }

/-! ## What a core does each cycle -/

/-- Count a cycle in the balance table (02 R40). -/
def countBalance (b : Map Balance) (phase : BitVec 16) (busy : Bool) : Map Balance :=
  let add (x : Balance) : Balance :=
    if busy then { x with busy := min (x.busy + 1) (2 ^ 48 - 1) } else { x with idle := min (x.idle + 1) (2 ^ 48 - 1) }
  let own (i : Nat) : Bool := match b.find i with
    | some x => x.phase = phase
    | none => false
  match (List.range 15).find? own with
  | some i => b.upd {} i add
  | none => match (List.range 15).find? fun i => (b.find i).isNone with
    | some i => b.set i (add { phase := phase })
    | none => b.upd {} 15 add

/-- What the lowest core of a context's lowest partition counts: a capture's cycles (17 R342) and the Almanac's
period (14 R301). -/
def tickContext (s : State) (h : Nat) : State :=
  let x := s.ctx h
  let s := if x.cap.live then
      let n := x.cap.dur + 1
      let s := s.updCtx h fun y => { y with cap := { y.cap with dur := n } }
      if n = max 1 (bitsOf x.capctl.toNat 15 4) * 4096 then s.post (.captureEnd h) else s
    else s
  let n := x.alm.elapsed + 1
  let s := s.updAlm h fun a => { a with elapsed := n }
  let s := if n % 1024 = 0 then s.askParked h else s
  if n % 65536 = 0 && (s.almPeriod h).2 != 0 && (s.almPeriod h).2 * 65536 ≤ n then s.post (.almanacPeriodExpiry h) else s

/-- Spawn-bin timers (02 R38; 13 R280). -/
def tickBins (s : State) (c : Nat) : State :=
  (s.cc c).bins.foldl (fun s e =>
    let b := e.2
    if b.threads.isEmpty || b.expired then s else
    let s := s.updCc c fun x => { x with bins := x.bins.upd {} e.1 fun b => { b with elapsed := b.elapsed + 1 } }
    if b.elapsed + 1 = b.period then s.post (.spawnBinTimerExpiry c e.1) else s) s

/-- Take the traps that waited for a handler to end (12 R270; 20 R364). -/
def takeDue (s : State) (c : Nat) : State :=
  ((s.cc c).warps.filter fun e => !e.2.sched.due.isEmpty && !e.2.trap.inHandler).foldl (fun s e =>
    match e.2.sched.due with
    | [] => s
    | (m, t) :: rest =>
      let s := s.updWarp c e.1 fun w => w.updSched fun x => { x with due := rest }
      let m := m &&& ~~~(e.2.lanesIn .exited)
      if m = 0#32 then s else s.takeTrap c e.1 m t) s

/-- The uncorrectable errors of a core's arrays (22 R404): the words read as all ones, and every resident warp of the
context takes MACHINE. Lane registers at 4096 × slot + 32 × specifier + lane, scratchpad words at 2048 × window + word.
DESIGN CHOICE: they are found in the next cycle in which the context runs (note 98). -/
def arrayErrors (s : State) (c : Nat) : State :=
  let bad := s.damage.arrays.filter fun e => e.1 = c
  if bad.isEmpty then s else
  let spoil (x : CoreCtx) (u n : Nat) : CoreCtx :=
    if u = 1 then { x with warps := x.warps.map fun e =>
      if e.1 = n / 4096 then (e.1, e.2.setV (n / 32 % 128) (n % 32) 0xFFFFFFFF#32) else e }
    else if u = 4 then { x with scratch := (List.range 4).foldl (fun m i => m.set (4 * n + i) 0xFF#8) x.scratch }
    else if u = 5 then { x with matrix := { x.matrix with acc := x.matrix.acc.set n 0xFFFFFFFF#32 } }
    else if u = 8 then { x with ctr := x.ctr.set n (BitVec.allOnes 64) }
    else x
  let s : State := { s with damage := { s.damage with arrays := s.damage.arrays.filter fun e => !(e.1 = c) } }
  bad.foldl (fun s e =>
    let s := s.updCc c fun x => spoil x e.2.1 e.2.2
    let s := ((s.cc c).warps.map Prod.fst).foldl (fun s k => s.pendAsync c k (machineTrap 3 e.2.1 0)) s
    s.faultRecord (s.cc c).ctx 0x60 c 0 0) s

/-- Errors found at write-backs (22 R404): the owning context's resident warps take MACHINE (DESIGN CHOICE: note 98). -/
def writeBackErrors (s : State) (c : Nat) : State :=
  let bad := s.damage.found.filter fun e => e.1 = (s.cc c).ctx
  if bad.isEmpty then s else
  let s : State := { s with damage := { s.damage with found := s.damage.found.filter fun e => !bad.contains e } }
  let on := (s.cores.filter fun e => e.2.cc.ctx = (s.cc c).ctx).flatMap fun e => e.2.cc.warps.map fun w => (e.1, w.1)
  bad.foldl (fun s e =>
    let s := on.foldl (fun s p => s.pendAsync p.1 p.2 (machineTrap 2 0 e.2)) s
    s.faultRecord e.1 0x60 c 0 (BitVec.ofNat 96 e.2)) s

/-- The cycle of a context's core: balance, timers, trackers, counters. -/
def tickRunning (s : State) (c : Nat) : State :=
  let x := s.core c
  let s := s.updCc c fun y => { y with
    balance := countBalance y.balance (y.lastRgns.extractLsb' 0 16) x.busy
    lastRgns := match y.warps.find y.lastSlot with
      | some w => w.rgns
      | none => y.lastRgns
    trackers := y.trackers.map fun e => (e.1, { e.2 with age := e.2.age + 1 }) }
  let s := (((s.tickBins c).takeDue c).arrayErrors c).writeBackErrors c
  let parked := (x.cc.warps.filter fun e => e.2.sched.cwait.isSome).length
  let s := s.countEv c 1 1
  let s := if parked = 0 then s else s.countEv c 6 parked
  if s.leadPart x.cc.ctx = some (partOfCore c) && s.liveCore (partOfCore c) = some c then s.tickContext x.cc.ctx else s

/-- One cycle of a core: results that have landed, timers that fall due, and what its context counts. -/
def tick (s : State) (c : Nat) : State :=
  let s := if s.coreRuns c then s.tickRunning c else s
  let x := s.core c
  let now := x.cyc + 1
  let s := s.updCore c fun y => { y with
    cyc := now, busy := false, fwWait := y.fwWait + 1
    fw := y.fw.landDue now
    cc := { y.cc with warps := y.cc.warps.map fun e => (e.1, e.2.landDue now) }
    timers := y.timers.filter fun e => now < e.1 }
  let s := s.postAll ((x.timers.filter fun e => e.1 ≤ now).map Prod.snd)
  let per := tcbSper x.traceBlk
  let s := if s.coreRuns c && per != 0 && now % 2 ^ per = 0 then s.post (.traceSample c) else s
  let first := (s.cores.find? fun e => dieOfCore e.1 = dieOfCore c).map Prod.fst
  if now % 64 = 0 && first = some c then s.post (.equinoxStep (dieOfCore c)) else s

/-- One cycle of a quad (13 R287). -/
def quadCycle (s : State) (c q : Nat) : State :=
  let s := if q = 0 then s.tick c else s
  let user := if s.coreRuns c && (s.core c).granted then
      (s.quadSlots c q).map fun k => (k, s.readyGroups c k)
    else []
  let ready := user.filter fun e => !e.2.isEmpty
  let s := if s.coreRuns c && (s.core c).granted && (s.quadSlots c q).any (fun k => s.warpOpen c k &&
      (s.cands c k).any fun g => match g.what with
        | .run iss i => windowAccess i && !g.ready && !s.notReady iss i
        | _ => false) then s.countEv c 0x0B 1 else s
  let fw := if q = 0 then s.readyGroups c fwSlot else []
  if !fw.isEmpty && (ready.isEmpty || 4 ≤ (s.core c).fwWait) then
    (s.updCore c fun x => { x with fwWait := 0 }).opportunity c fwSlot fw
  else match s.pickUser c (ready.map Prod.fst) with
    | some k => s.opportunity c k (((ready.find? fun e => e.1 = k).map Prod.snd).getD [])
    | none => s

/-! ## Running what was chosen -/

/-- The quad whose cycle is next: the quads of a core in order, then the next core that has state. -/
def nextTurn (s : State) : Nat × Nat :=
  if s.turnQuad < 3 then (s.turnCore, s.turnQuad + 1)
  else match s.cores.find? fun e => s.turnCore < e.1 with
    | some e => (e.1, 0)
    | none => ((s.cores.head?.map Prod.fst).getD 0, 0)
def advanceTurn (s : State) : State := { s with turnCore := s.nextTurn.1, turnQuad := s.nextTurn.2 }

/-- Begin an instruction that an issue cycle chose: it leaves the list; the second of a pair learns whether the
first trapped (20 R365). -/
def beginIssue (s : State) (i : IssueSlot) (rest : List IssueSlot) : State :=
  let iss : Issue := { core := i.core, slot := i.slot, lanes := i.lanes, pc := i.pc, mode := i.mode, spntmr := i.spntmr
                       second := i.second, firstOff := i.second && s.cur.off
                       firstTrapped := i.second && s.cur.firstTrapped }
  { s with issuing := rest, cur := iss }

/-- The issue as an instruction finds it: what its unit says, with what is known of its pair. -/
def withUnit (s : State) (iss : Issue) : State :=
  { s with cur := { iss with spntmr := s.cur.spntmr, second := s.cur.second, firstOff := s.cur.firstOff,
                             firstTrapped := s.cur.firstTrapped } }

/-- A user warp issues: the cycle is busy, in the warp's phase (02 R40). -/
def beginWork (s : State) : State :=
  if s.cur.slot = fwSlot then s else
  s.updCore s.cur.core fun x =>
    { x with busy := true, cc := { x.cc with lastRgns := s.me.rgns, lastSlot := s.cur.slot } }

/-- The lanes of the group that has issued wait no more (02 R26). -/
def clearWaits (s : State) : State :=
  if s.cur.slot = fwSlot || ((s.cc s.cur.core).warps.find s.cur.slot).isSome then
    s.updMe fun w => w.updLanes s.cur.lanes fun _ l => { l with waits := 0 }
  else s

/-- An instruction has issued: its lanes' wait counts, the counts of 17 R344, and its unit in the instruction cache (21
R387). -/
def issued (s : State) : State :=
  let i := s.cur
  let s := s.clearWaits.countEv i.core (if i.word.getLsbD 31 then 3 else 2) 1
  let s := if i.second && !i.firstOff then s.countEv i.core 4 1 else s
  (List.range (i.pos + 1)).foldl (fun s n => s.keepCode i.core i.slot i.pc n) s

/-- What an issue leaves: where the instruction met a line that the host holds the line is asked for, and nothing else has
happened (16 R321); nothing, where it has been put off. -/
def afterIssue (s : State) : Host.Outcome State Fault Refusal → Host.Outcome State Fault Refusal
  | .next t => .next (match t.blocked with
    | some (key, inval) => (s.snoop key inval).putOff
    | none => if t.cur.off then { s with cur := t.cur } else t.issued)
  | o => o

/-- What an event leaves: one that met a line that the host holds, a page being flipped or a page with no room to stage is
held whole (14 R304; 16 R321, R323). -/
def afterEvent (s : State) (e : Instr) : Host.Outcome State Fault Refusal → Host.Outcome State Fault Refusal
  | .next t => .next (match t.blocked with
    | some (key, inval) => s.hold key inval e
    | none => t)
  | o => o

/-- A unit that traps before it issues. -/
def trapUnit (s : State) (t : TrapInfo) : State :=
  let s := s.beginWork.syncTrap t
  if s.cur.off then s else s.clearWaits

/-- A unit whose REP has no repeat left: the group moves past it (08 R154). -/
def skipUnit (s : State) : State :=
  (s.flow .fall).updMe fun w => w.updUni fun u => { u with repIdx := 0, rep := none }

/-- The activity whose memory traffic an event is (13 R288): die and index of its budget. -/
def activityOf (s : State) : Instr → Option (Nat × Nat)
  | .intervalDurable h => some (s.almDie h, 0)
  | .traceRecordWrite c => some (dieOfCore c, 1)
  | .pageWalkComplete d _ _ => some (d, 2)
  | .hostMemRead a => some (homeDie a 0, 3)
  | .hostMemWrite a _ => some (homeDie a 0, 3)
  | .copyComplete c _ => some (dieOfCore c, copyBudget c)
  | _ => none
/-- Is an event a request of an activity that has not yet received its GUAR in the period (13 R289)? -/
def guaranteed (s : State) (e : Instr) : Bool :=
  match s.activityOf e with
  | some (d, i) => (s.die d).used.get 0 i < bitsOf ((s.die d).abud.get 0xFFFF0000#32 i).toNat 15 0 * 4096
  | none => false
/-- The next posted event and the others: the oldest request that its guarantee covers (13 R289), else the oldest. -/
def nextEvent (s : State) : Option (Instr × List Instr) :=
  match s.agenda.find? s.guaranteed with
  | some e => some (e, s.agenda.erase e)
  | none => match s.agenda with
    | e :: rest => some (e, rest)
    | [] => none

/-- Does the next posted event happen now, or the next quad cycle? The manual fixes no order; a free value
decides. -/
def eventNow (s : State) : Bool × State :=
  let (x, s) := s.fresh
  (x.getLsbD 0, s)

/-- Place one instruction of the table for the next step: a context whose code lies on one page at physical
0x1000, a warp of 32 lanes at PC 0 of core 0, slot 0, and its issue. The words after it are zero. -/
def placeUnit (s : State) (w : Nat) : State :=
  let leaf : TlbEntry := { level := 0, entry := 0x8000007000000001#64 }
  let s := { s with tlb := s.tlb.set (tlbKey 0 0 0) leaf }
  let s := (s.updCtx 0 fun x => { x with valid := true }).physWrite 0 0 0 0x1000 (leBytes 16 w)
  let s := s.updCore 0 fun x => { x with icache := x.icache.del (codeKey 0 0x1000) }
  let s := (s.updPart 0 fun p => { p with running := some 0, paused := false, offline := false }).updCc 0
    fun x => { x with ctx := 0 }
  let s := s.updWarp 0 0 fun x =>
    { x with ctx := 0
             lanes := (List.range 32).map fun l => (l, { state := .runnable })
             blocks := (List.range 7).map fun b => (b, b) }
  { s with issuing := [{ core := 0, slot := 0, lanes := BitVec.allOnes 32, pc := 0, mode := 0x10#32 }] }

end State

/-- QUAD_ISSUE_CYCLE. -/
def execQuadIssueCycle (core quad : Nat) (s : State) : Host.Outcome State Fault Refusal :=
  if !coreOk core || 4 ≤ quad then .fault .noSuchUnit else .next (s.quadCycle core quad)

/-- TRAP_ENTRY. -/
def execTrapEntry (core slot : Nat) (lanes : Mask) (info : TrapInfo) (s : State) : Host.Outcome State Fault Refusal :=
  if !coreOk core || fwSlot < slot then .fault .noSuchUnit else .next (s.takeTrap core slot lanes info)

/-- ASYNC_TRAP_TAKE. -/
def execAsyncTrapTake (core slot : Nat) (s : State) : Host.Outcome State Fault Refusal :=
  if !coreOk core || fwSlot < slot then .fault .noSuchUnit
  else if (s.warp core slot).trap.inHandler then .next s
  else .next (s.takeAsync core slot (s.readyGroups core slot))

end Sys2Proof.Machine
end

