-- ==== Sys2Proof/Machine/SfuBounds.lean ====
section
/-! DEFINITION. The bounds of the special functions (09 R187, R188): each function as a number with 400 fraction bits,
the distance from it at which a result may lie, and the choice of a result within that distance. -/

namespace Sys2Proof.Machine

/-- 1 with 400 fraction bits, and π, ln 2 and 2 ÷ √π cut to as many. -/
def fxOne : Nat := 2 ^ 400
def fxPi : Nat :=
  8112377246730971238862271351300894519161151600179265203591191037615230905373990498745523360926816815427566779727327576236
def fxLn2 : Nat :=
  1789879222497203190815761498240779176894896805856420935579692301363062920687047601279850318367644315849030039181347319086
def fxErf : Nat :=
  2913756966668194800300214067270034030186276855045544562015353861004409627435460814446341471088463227900768995815277951550

/-- The size of a finite FP32 value, exact. -/
def fxAbs (x : Exact) : Nat := x.m * 2 ^ (x.e + 400).toNat
/-- A value with its sign. -/
def fxSigned (neg : Bool) (n : Nat) : Int := if neg then -(n : Int) else n

/-- n terms of a power series: `next k t` is the term after term k, `part k t` what term k adds. -/
def fxSeries (n : Nat) (first : Int) (next : Nat → Int → Int) (part : Nat → Int → Int) : Int :=
  ((List.range n).foldl (fun (p : Int × Int) k => (p.1 + part k p.2, next k p.2)) (0, first)).1

/-- e^(−t), t not negative. -/
def fxExpNeg (t : Nat) : Nat :=
  let k := t / fxLn2
  if 400 < k then 0 else
  (fxSeries 90 fxOne (fun k x => -(x * (t % fxLn2 : Nat) / fxOne) / (k + 1)) fun _ x => x).toNat / 2 ^ k
/-- 2^x for x below 128. -/
def fxExp2 (x : Exact) : Nat :=
  let t := 128 * (fxOne : Int) - fxSigned x.neg (fxAbs x)
  fxExpNeg (t.toNat * fxLn2 / fxOne) * 2 ^ 128
/-- log₂ of a positive value, by the series of artanh. -/
def fxLog2 (x : Exact) : Int :=
  let l := Nat.log2 x.m
  let z := (x.m - 2 ^ l) * fxOne / (x.m + 2 ^ l)
  let ln := 2 * fxSeries 140 z (fun _ t => t * (z * z / fxOne : Nat) / fxOne) fun k t => t / (2 * k + 1)
  (x.e + l) * fxOne + ln * fxOne / fxLn2
/-- The sine or cosine of an angle below 2π. -/
def fxTrig (sine : Bool) (r : Nat) : Int :=
  let o := if sine then 1 else 0
  fxSeries 120 (if sine then r else fxOne)
    (fun k t => -(t * (r * r / fxOne : Nat) / fxOne) / ((2 * k + 1 + o) * (2 * k + 2 + o) : Nat)) fun _ t => t
/-- erf of a value that is not negative. -/
def fxErfOf (x : Nat) : Int :=
  if 10 * fxOne ≤ x then fxOne else
  fxSeries 420 x (fun k t => -(t * (x * x / fxOne : Nat) / fxOne) / (k + 1)) (fun k t => t / (2 * k + 1)) * fxErf / fxOne
/-- √(n ÷ 2^400), n with 400 fraction bits, by Newton's steps from above. -/
def fxSqrt (n : Nat) : Nat :=
  let a := n * fxOne
  (List.range 700).foldl (fun r _ => if r * r ≤ a then r else (r + a / r) / 2) (2 ^ ((Nat.log2 a) / 2 + 1))

/-- The value of function op (opcode 0x90 + op) of a finite input that is no special case of R188. -/
def sfuExact (op : Nat) (x : Exact) : Int :=
  let n := fxAbs x
  let inv := 2 ^ (400 - x.e).toNat / x.m
  if op = 0 then fxSigned x.neg inv
  else if op = 1 then fxSqrt inv
  else if op = 2 then fxSqrt n
  else if op = 3 then fxExp2 x
  else if op = 4 then fxLog2 x
  else if op = 5 then fxSigned x.neg 1 * fxTrig true (n % (2 * fxPi))
  else if op = 6 then fxTrig false (n % (2 * fxPi))
  else if op = 7 then
    let q := fxExpNeg (2 * n)
    fxSigned x.neg ((fxOne - q) * fxOne / (fxOne + q))
  else if op = 8 then fxSigned x.neg 1 * fxErfOf n
  else
    let q := fxExpNeg n
    (if x.neg then q else fxOne) * fxOne / (fxOne + q)

/-- An ulp: that of the FP32 binade of a value (09 R187). -/
def fxUlp (a : Int) : Nat := 2 ^ (max (Nat.log2 a.natAbs) 274 - 23)

/-- The bound of R188. The last term is for what the series leave out: 2^−140, and 2^−260 where the bound is in ulps. -/
def sfuBound (op : Nat) (x : Exact) (a : Int) : Nat :=
  if op = 5 || op = 6 then 2 ^ 379 + 2 ^ 260
  else if 7 ≤ op || (op = 4 && 2 ^ 399 ≤ fxAbs x && fxAbs x ≤ 2 ^ 401) then 2 ^ 378 + 2 ^ 260
  else (if op = 0 || op = 2 then 1 else 2) * fxUlp a + 2 ^ 140

/-- Does an FP32 value lie within the bound and in the range of the function? -/
def sfuWithin (op : Nat) (x : Exact) (a : Int) (y : Nat) : Bool :=
  match unpack .f32 y with
  | .fin v =>
    let b := fxSigned v.neg (fxAbs v)
    (b - a).natAbs ≤ sfuBound op x a && (op < 7 || b.natAbs ≤ fxOne) && (op < 9 || 0 ≤ b)
  | _ => false

/-- The result: the free value where it lies within the bound, else the value rounded to nearest, which does. -/
def sfuChoice (op : Nat) (x : Exact) (free : Nat) : Nat :=
  let a := sfuExact op x
  if sfuWithin op x a free then free else (roundTo .f32 0 false ⟨a < 0, a.natAbs, -400⟩).1

end Sys2Proof.Machine
end

