-- ==== Sys2Proof/Machine/LaneFloat.lean ====
section
/-! DEFINITION. Lane instructions: FP32, packed, conversions, quantisation and special functions (09 R176 to
R188). -/

namespace Sys2Proof.Machine

/-- An FP32 result of latency 4 that can set flags, from one, two or three operands (09 R176). -/
def fp2 (i : Instr) (sc : BitVec 2) (d a b : BitVec 7) (f : Nat → Bool → Nat → Nat → Nat × Word) (s : State) :
    Host.Outcome State Fault Refusal :=
  .next (s.issue i sc fun s => s.fpOp 4 d fun l => f s.rm s.sub (s.val a.toNat l).toNat (s.val b.toNat l).toNat)
/-- A result of latency 4 that sets no flag. -/
def bits2 (i : Instr) (sc : BitVec 2) (d a b : BitVec 7) (f : Bool → Word → Word → Word) (s : State) :
    Host.Outcome State Fault Refusal :=
  .next (s.issue i sc fun s => s.laneOp 4 d fun l => f s.sub (s.val a.toNat l) (s.val b.toNat l))
/-- A packed result from the elements of A, B and D (09 R180). -/
def packed (i : Instr) (sc : BitVec 2) (t : BitVec 1) (d a b : BitVec 7)
    (f : Fmt → Nat → Bool → Nat → Nat → Nat → Nat × Word) (s : State) : Host.Outcome State Fault Refusal :=
  .next (s.issue i sc fun s => s.packedOp d fun l e => f (State.packedFmt t) s.rm s.sub
    (State.half (s.val a.toNat l) e) (State.half (s.val b.toNat l) e) (State.half (s.val d.toNat l) e))

def execFadd (sc : BitVec 2) (d a b : BitVec 7) (s : State) := fp2 (.fadd sc d a b) sc d a b (fAdd .f32) s
def execFsub (sc : BitVec 2) (d a b : BitVec 7) (s : State) := fp2 (.fsub sc d a b) sc d a b (fSub .f32) s
def execFmul (sc : BitVec 2) (d a b : BitVec 7) (s : State) := fp2 (.fmul sc d a b) sc d a b (fMul .f32) s
def execFfma (sc : BitVec 2) (d a b : BitVec 7) (s : State) : Host.Outcome State Fault Refusal :=
  .next (s.issue (.ffma sc d a b) sc fun s => s.fpOp 4 d fun l =>
    fFma .f32 s.rm s.sub (s.val a.toNat l).toNat (s.val b.toNat l).toNat (s.val d.toNat l).toNat)
def execFmin (sc : BitVec 2) (d a b : BitVec 7) (s : State) :=
  bits2 (.fmin sc d a b) sc d a b (fun z x y => BitVec.ofNat 32 (fMinMax .f32 z false x.toNat y.toNat)) s
def execFmax (sc : BitVec 2) (d a b : BitVec 7) (s : State) :=
  bits2 (.fmax sc d a b) sc d a b (fun z x y => BitVec.ofNat 32 (fMinMax .f32 z true x.toNat y.toNat)) s
def execFabs (sc : BitVec 2) (d a : BitVec 7) (s : State) :=
  bits2 (.fabs sc d a) sc d a a (fun _ x _ => x &&& 0x7FFFFFFF#32) s
def execFneg (sc : BitVec 2) (d a : BitVec 7) (s : State) :=
  bits2 (.fneg sc d a) sc d a a (fun _ x _ => x ^^^ 0x80000000#32) s
def execFcmp (sc : BitVec 2) (c : BitVec 4) (p : BitVec 3) (a b : BitVec 7) (s : State) :
    Host.Outcome State Fault Refusal :=
  .next (s.issue (.fcmp sc c p a b) sc fun s => s.predOp 4 p fun l =>
    fCond c.toNat s.sub (s.val a.toNat l).toNat (s.val b.toNat l).toNat)
def execFclass (sc : BitVec 2) (d a : BitVec 7) (s : State) :=
  bits2 (.fclass sc d a) sc d a a (fun _ x _ => BitVec.ofNat 32 (2 ^ fClass x.toNat)) s
def execFcpys (sc : BitVec 2) (d a b : BitVec 7) (s : State) :=
  bits2 (.fcpys sc d a b) sc d a b (fun _ x y => (x &&& 0x7FFFFFFF#32) ||| (y &&& 0x80000000#32)) s
def execFrnd (sc : BitVec 2) (d a : BitVec 7) (s : State) : Host.Outcome State Fault Refusal :=
  .next (s.issue (.frnd sc d a) sc fun s => s.laneOp 4 d fun l =>
    BitVec.ofNat 32 (fRnd s.rm s.sub (s.val a.toNat l).toNat))

def execHadd2 (sc : BitVec 2) (f : BitVec 1) (d a b : BitVec 7) (s : State) :=
  packed (.hadd2 sc f d a b) sc f d a b (fun t m z x y _ => fAdd t m z x y) s
def execHsub2 (sc : BitVec 2) (f : BitVec 1) (d a b : BitVec 7) (s : State) :=
  packed (.hsub2 sc f d a b) sc f d a b (fun t m z x y _ => fSub t m z x y) s
def execHmul2 (sc : BitVec 2) (f : BitVec 1) (d a b : BitVec 7) (s : State) :=
  packed (.hmul2 sc f d a b) sc f d a b (fun t m z x y _ => fMul t m z x y) s
def execHfma2 (sc : BitVec 2) (f : BitVec 1) (d a b : BitVec 7) (s : State) :=
  packed (.hfma2 sc f d a b) sc f d a b fFma s
/-- HMIN2 and HMAX2 set no flag and are never held for ARITH. -/
def packedMinMax (isMax : Bool) (f : BitVec 1) (z : Bool) (x y : Word) : Word :=
  let t := State.packedFmt f
  BitVec.ofNat 32 (fMinMax t z isMax (State.half x 0) (State.half y 0) +
    fMinMax t z isMax (State.half x 1) (State.half y 1) * 2 ^ 16)
def execHmin2 (sc : BitVec 2) (f : BitVec 1) (d a b : BitVec 7) (s : State) :=
  bits2 (.hmin2 sc f d a b) sc d a b (packedMinMax false f) s
def execHmax2 (sc : BitVec 2) (f : BitVec 1) (d a b : BitVec 7) (s : State) :=
  bits2 (.hmax2 sc f d a b) sc d a b (packedMinMax true f) s
/-- HDOT2 (09 R180): both products and D, summed exactly and rounded once to FP32. -/
def dot2 (t : Fmt) (m : Nat) (z : Bool) (x y acc : Word) : Nat × Word :=
  let p (e : Nat) : Option Num := (operand t z (State.half x e)).mul (operand t z (State.half y e))
  sumRound .f32 m z [p 0, p 1, some (operand .f32 z acc.toNat)]
def execHdot2 (sc : BitVec 2) (f : BitVec 1) (d a b : BitVec 7) (s : State) : Host.Outcome State Fault Refusal :=
  .next (s.issue (.hdot2 sc f d a b) sc fun s => s.fpOp 4 d fun l =>
    dot2 (State.packedFmt f) s.rm s.sub (s.val a.toNat l) (s.val b.toNat l) (s.val d.toNat l))

/-! ## Conversions (09 R181 to R184) -/

/-- An element of a packed source of float format t. -/
def element (t : Fmt) (x : Word) (n : Nat) : Nat := bitsOf x.toNat (t.width * n + t.width - 1) (t.width * n)
/-- Type T in A to FP32. -/
def cvtIn (t n : Nat) (z : Bool) (x : DWord) : Nat × Word :=
  match cvtFloat t with
  | some f => widen f z (element f (lo32 x) n)
  | none => fromInt (intValue (cvtInt t) x.toNat)
/-- Narrow(x, T): the register bits, as wide as a pair, and the flags. -/
def narrowTo (t rm : Nat) (z : Bool) (x : Nat) : DWord × Word :=
  match cvtFloat t with
  | some f => let r := narrow f z x
    (BitVec.ofNat 64 r.1, r.2)
  | none => let r := toInt (cvtInt t) rm z x
    (BitVec.ofInt 64 r.1, r.2)
/-- The exact value of a narrowed result, as a number. -/
def narrowed (t : Nat) (x : Word) : Num :=
  match cvtFloat t with
  | some f => unpack f (bitsOf x.toNat (f.width - 1) 0)
  | none => let v := intValue (cvtInt t) x.toNat
    .fin ⟨v < 0, v.natAbs, 0⟩
def Num.neg : Num → Num
  | .fin x => .fin { x with neg := !x.neg }
  | .inf n => .inf (!n)
  | .nan n => .nan n

def execCvt (sc : BitVec 2) (d a : BitVec 7) (r : BitVec 1) (n : BitVec 2) (t : BitVec 4) (s : State) :
    Host.Outcome State Fault Refusal :=
  .next (s.issue (.cvt sc d a r n t) sc fun s =>
    if r = 1#1 then
      s.fpOp 4 d fun l => cvtIn t.toNat n.toNat s.sub (if isPairType t then s.val64 a.toNat l else (s.val a.toNat l).setWidth 64)
    else
      let f (l : Nat) : DWord × Word := narrowTo t.toNat s.rm s.sub (s.val a.toNat l).toNat
      s.flagOp 4 (s.laneRes .lane d.toNat (fun l => lo32 (f l).1) ::
        (if isPairType t then [s.laneRes .lane (d.toNat + 1) fun l => hi32 (f l).1] else [])) fun l => (f l).2)

/-- CVTX in one lane (09 R184): the converted value, the residual, the flags. -/
def cvtxLane (t rm : Nat) (z : Bool) (x e : Word) : Word × Word × Word :=
  let (y, f1) := fAdd .f32 rne z x.toNat e.toNat
  let (v, f2) := narrowTo t rm z y
  match unpack .f32 y with
  | .fin _ =>
    let (res, f3) := sumRound .f32 rne z [some (unpack .f32 y), some (narrowed t (lo32 v)).neg]
    (lo32 v, BitVec.ofNat 32 res, f1 ||| f2 ||| f3)
  | _ => (lo32 v, 0, f1 ||| f2)
def execCvtx (sc : BitVec 2) (d a : BitVec 7) (r : BitVec 1) (n : BitVec 2) (t : BitVec 4) (s : State) :
    Host.Outcome State Fault Refusal :=
  .next (s.issue (.cvtx sc d a r n t) sc fun s =>
    let f (l : Nat) : Word × Word × Word := cvtxLane t.toNat s.rm s.sub (s.val a.toNat l) (s.val (d.toNat + 1) l)
    s.flagOp 4 [s.laneRes .lane d.toNat fun l => (f l).1, s.laneRes .lane (d.toNat + 1) fun l => (f l).2.1]
      fun l => (f l).2.2)

/-- CVTP (09 R183): targets .bf16, .f16, .e4m3, .e5m2. -/
def cvtpLane (t : Nat) (z : Bool) (a b d : Word) : Nat × Word :=
  let f : Fmt := [Fmt.bf16, .f16, .e4m3, .e5m2].getD t .bf16
  let x := narrow f z a.toNat
  let y := narrow f z b.toNat
  if t < 2 then (y.1 * 2 ^ 16 + x.1, x.2 ||| y.2)
  else (y.1 * 2 ^ 24 + x.1 * 2 ^ 16 + bitsOf d.toNat 31 16, x.2 ||| y.2)
def execCvtp (sc t : BitVec 2) (d a b : BitVec 7) (s : State) : Host.Outcome State Fault Refusal :=
  .next (s.issue (.cvtp sc t d a b) sc fun s => s.fpOp 4 d fun l =>
    cvtpLane t.toNat s.sub (s.val a.toNat l) (s.val b.toNat l) (s.val d.toNat l))

/-- QNT (09 R185; 04 R64): each lane group of Active is one block. -/
def execQnt (sc : BitVec 2) (d a : BitVec 7) (w y : BitVec 2) (s : State) : Host.Outcome State Fault Refusal :=
  .next (s.issue (.qnt sc d a w y) sc fun s =>
    let g := State.groupWidth w
    let blk (l : Nat) : List Nat × Nat × Word :=
      qntBlock y.toNat ((s.groupLanes g l).map fun j => (s.val a.toNat j).toNat)
    let res (l : Nat) : Word :=
      let (cs, sc, _) := blk l
      BitVec.ofNat 32 (sc * 256 + cs.getD ((s.groupLanes g l).idxOf l) 0)
    let s' := s.holdUnit .cross 4
    .done (s'.addResults 6 [{ s.laneRes .lane d.toNat res with qstat := s.orLanes fun l => (blk l).2.2 }]) .fall)

/-- DQNT (09 R186). -/
def execDqnt (sc : BitVec 2) (d a b : BitVec 7) (s : State) : Host.Outcome State Fault Refusal :=
  .next (s.issue (.dqnt sc d a b) sc fun s => s.fpOp 4 d fun l =>
    dqnt (bitsOf (s.val b.toNat l).toNat 31 8) (bitsOf (s.val a.toNat l).toNat 3 0))

/-! ## Special functions (09 R187, R188) -/

/-- A finite value as FP32 bits, where it is one exactly. -/
def exactBits (x : Exact) : Nat × Word :=
  let r := roundTo .f32 rne false x
  (r.1, 0)
/-- The integer square root of a number below 2^26. -/
def isqrt (n : Nat) : Nat :=
  (List.range 13).foldl (fun r k => let c := r + 2 ^ (12 - k)
    if c * c ≤ n then c else r) 0
/-- The value with an even exponent. -/
def evenExp (x : Exact) : Exact := if x.e % 2 = 0 then x else { x with m := 2 * x.m, e := x.e - 1 }
def one32 : Nat := 0x3F800000
def inf32 (neg : Bool) : Nat := Fmt.f32.signBit neg + Fmt.f32.inf
def nan32 : Nat := Fmt.f32.nan false

/-- The power of two that a value is, if it is one. -/
def log2Exact (x : Exact) : Option Int :=
  if x.m != 0 && 2 ^ Nat.log2 x.m = x.m then some (x.e + Nat.log2 x.m) else none
/-- An integer value, if it is one. -/
def intExact (x : Exact) : Option Int :=
  let v : Option Nat := if 0 ≤ x.e then (if x.e < 32 then some (x.m * 2 ^ x.e.toNat) else none)
    else if x.m % 2 ^ (-x.e).toNat = 0 then some (x.m / 2 ^ (-x.e).toNat) else none
  v.map fun n => if x.neg then -(n : Int) else n

/-- The special and exact results of function op (opcode 0x90 + op) of R188, and otherwise none. -/
def sfuSpecial (op : Nat) (x : Nat) : Option (Nat × Word) :=
  match unpack .f32 x with
  | .nan _ => some (nan32, 0)
  | .inf neg =>
    if op = 0 then some (Fmt.f32.signBit neg, 0)
    else if op = 1 || op = 2 || op = 4 then
      some (if neg then (nan32, fNV) else if op = 1 then (0, 0) else (inf32 false, 0))
    else if op = 3 then some (if neg then 0 else inf32 false, 0)
    else if op = 5 || op = 6 then some (nan32, fNV)
    else if op = 9 then some (if neg then 0 else one32, 0)
    else some (Fmt.f32.signBit neg + one32, 0)
  | .fin v =>
    if v.m = 0 then
      if op = 0 then some (inf32 v.neg, fDZ)
      else if op = 1 then some (inf32 v.neg, fDZ)
      else if op = 3 then some (one32, 0)
      else if op = 4 then some (inf32 true, fDZ)
      else if op = 6 then some (one32, 0)
      else if op = 9 then some (0x3F000000, 0)
      else some (x, 0)
    else if op = 0 then
      if ltPow (v.m * (2 ^ 24 - 1)) (v.e + 104) 1 0 then some (inf32 v.neg, fOF)
      else (log2Exact v).map fun k => exactBits ⟨v.neg, 1, -k⟩
    else if (op = 1 || op = 2 || op = 4) && v.neg then some (nan32, fNV)
    else if op = 1 then
      match log2Exact v with
      | some k => if k % 2 = 0 then some (exactBits ⟨false, 1, -(k / 2)⟩) else none
      | none => none
    else if op = 2 then
      let y := evenExp v
      let r := isqrt y.m
      if r * r = y.m then some (exactBits ⟨false, r, y.e / 2⟩) else none
    else if op = 3 then
      if !v.neg && !ltPow v.m v.e 128 0 then some (inf32 false, fOF)
      else match intExact v with
        | some k => if -149 ≤ k then some (exactBits ⟨false, 1, k⟩) else none
        | none => none
    else if op = 4 then (log2Exact v).map fun k => exactBits ⟨k < 0, k.natAbs, 0⟩
    else none

/-- A special function (09 R187): special and exact results as they are, any other a fixed function within its bound, a
constant without a body held to it. A subnormal input or result is replaced by zero under MODE.SUB. -/
def sfuLane (op : Nat) (z : Bool) (x : Word) : Nat × Word :=
  let x := flushIn .f32 z x.toNat
  let (y, fl) := match sfuSpecial op x, unpack .f32 x with
    | some r, _ => r
    | none, .fin v => (sfuChoice op v (Config.sfu op (BitVec.ofNat 32 x)).toNat, 0)
    | none, _ => (nan32, 0)
  let y' := flushIn .f32 z y
  (y', if y' = y then fl else fl ||| fUF)

/-- One special-function instruction: the SFU is held for a cycle per 8 active lanes (09 R169). -/
def sfuOp (i : Instr) (op : Nat) (sc : BitVec 2) (d a : BitVec 7) (s : State) : Host.Outcome State Fault Refusal :=
  .next (s.issue i sc fun s =>
    (s.holdUnit .sfu (max 1 (ceilDiv (lanesOf s.cur.lanes).length 8))).fpOp 12 d fun l => sfuLane op s.sub (s.val a.toNat l))

def execFrcp (sc : BitVec 2) (d a : BitVec 7) (s : State) := sfuOp (.frcp sc d a) 0 sc d a s
def execFrsq (sc : BitVec 2) (d a : BitVec 7) (s : State) := sfuOp (.frsq sc d a) 1 sc d a s
def execFsqrt (sc : BitVec 2) (d a : BitVec 7) (s : State) := sfuOp (.fsqrt sc d a) 2 sc d a s
def execFexp2 (sc : BitVec 2) (d a : BitVec 7) (s : State) := sfuOp (.fexp2 sc d a) 3 sc d a s
def execFlog2 (sc : BitVec 2) (d a : BitVec 7) (s : State) := sfuOp (.flog2 sc d a) 4 sc d a s
def execFsin (sc : BitVec 2) (d a : BitVec 7) (s : State) := sfuOp (.fsin sc d a) 5 sc d a s
def execFcos (sc : BitVec 2) (d a : BitVec 7) (s : State) := sfuOp (.fcos sc d a) 6 sc d a s
def execFtanh (sc : BitVec 2) (d a : BitVec 7) (s : State) := sfuOp (.ftanh sc d a) 7 sc d a s
def execFerf (sc : BitVec 2) (d a : BitVec 7) (s : State) := sfuOp (.ferf sc d a) 8 sc d a s
def execFsigm (sc : BitVec 2) (d a : BitVec 7) (s : State) := sfuOp (.fsigm sc d a) 9 sc d a s

end Sys2Proof.Machine
end

