-- ==== Sys2Proof/Machine/Queues.lean ====
section
/-! DEFINITION. What firmware agents serve: submission queues (13 R278), command graphs (16 R328, R329) and host rings (16
R330, R331). -/

namespace Sys2Proof.Machine

/-! ## Nodes (16 R328) -/

def ndType (b : Block) : Nat := bitsOf b.toNat 511 504
def ndScope (b : Block) : Nat := bitsOf b.toNat 499 498
def ndRearm (b : Block) : Bool := b.getLsbD 497
def ndNext (b : Block) : Nat := bitsOf b.toNat 447 384
/-- The word of 64 bits number i of BODY. -/
def ndBody (b : Block) (i : Nat) : DWord := b.extractLsb' (64 * i) 64
/-- Does a node break the layout of its type: a reserved field, a reserved SCOPE of a counter operation, a LEN out of
range (16 R329)? -/
def ndBad (b : Block) : Bool :=
  let t := ndType b
  bitsOf b.toNat 503 500 != 0 || bitsOf b.toNat 496 448 != 0 || (2 ≤ t && t ≤ 5 && ndScope b < 2) ||
    (t = 2 && (bitsOf b.toNat 159 128 = 0 || 2 ^ 24 < bitsOf b.toNat 159 128))

/-! ## Ring control blocks (16 R330) -/

def rbBase (b : Block) : DWord := b.extractLsb' 0 64
def rbQlog (b : Block) : Nat := bitsOf b.toNat 67 64
def rbSize (b : Block) : Nat := 16 * 2 ^ bitsOf b.toNat 69 68
def rbK (b : Block) : Nat := bitsOf b.toNat 127 96
def rbWin (b : Block) : Nat := bitsOf b.toNat 159 128
def rbVec (b : Block) : Nat := bitsOf b.toNat 175 160
def rbTail (b : Block) : DWord := b.extractLsb' 192 64
def rbRpub (b : Block) : DWord := b.extractLsb' 384 64
/-- May the block be served? -/
def rbOk (b : Block) : Bool :=
  bitsOf b.toNat 511 448 = 0 && bitsOf b.toNat 191 176 = 0 && bitsOf b.toNat 95 70 = 0 && bitsOf b.toNat 69 68 != 3 &&
    1 ≤ rbQlog b && rbQlog b ≤ 15 && 1 ≤ rbK b && rbK b ≤ 2 ^ rbQlog b && (rbBase b).toNat % (2 ^ rbQlog b * rbSize b) = 0

/-- A run that stands for none. -/
def noRun : RunRec := { ctx := 0, agent := 0, head := 0, node := 0 }

namespace State

/-! ## Waits of agents -/

/-- The home of a counter that an agent reads or waits on: none where the address fails. -/
def readHome (s : State) (d h : Nat) (va : DWord) : Option CtrHome :=
  match s.check d h kCtrRead va with
  | .ok k => if va.toNat % 8 = 0 && !s.spaceLost d k.pa then some (.mem k.pa k.kid) else none
  | .error _ => none

/-- An agent waits at a home under its slot, once. -/
def agentPark (s : State) (core slot : Nat) (home : CtrHome) (thr : DWord) : State :=
  (s.dropWaiters core slot).ctrPark (dieOfCore core) core slot home thr

/-! ## Graph runs -/

def runRec (s : State) (r : Nat) : RunRec := s.runs.get noRun r
def setNode (s : State) (r node : Nat) : State :=
  { s with runs := s.runs.map fun e => if e.1 = r then (r, { e.2 with node := node }) else e }

/-- A queue entry is finished (13 R278). -/
def entryDone (s : State) (q : Nat) : State :=
  match s.queues.find q with
  | some x => s.agentAdd (24 * x.agent) x.ctx .count (qcbDone x.block) 1 5
  | none => s

/-- A run ends (16 R329): DINC to DCTR, and the queue entry that it was. -/
def endRun (s : State) (r : Nat) : State :=
  let x := s.runRec r
  let s := match x.entry with
    | some hd =>
      if ndBody hd 2 = 0#64 then s else s.agentAdd (24 * x.agent) x.ctx (.signal r x.head) (ndBody hd 2) (lo32 (ndBody hd 3)) 5
    | none => s
  let s : State := { s with runs := s.runs.del r }
  match x.queue with
  | some q => s.entryDone q
  | none => s

/-- A node ends its run with a refusal. -/
def badNode (s : State) (r code addr : Nat) : State :=
  let x := s.runRec r
  (s.refusal (dieOfPart x.agent) x.ctx code (BitVec.ofNat 64 addr)).endRun r

/-- A 64-byte record that an agent reads at an aligned address. -/
def agentRead (s : State) (d h va : Nat) : Option (State × Block) :=
  if va % 64 != 0 then none else
  match s.readBlock d h kLoad (BitVec.ofNat 64 va) with
  | .ok r => some r
  | .error _ => none

/-- Go on with a run at its node: the node's own event, or the end. -/
def nextNode (s : State) (r : Nat) : State :=
  match s.runs.find r with
  | none => s
  | some x =>
    if x.node = 0 then s.endRun r else
    match s.agentRead (dieOfPart x.agent) x.ctx x.node with
    | none => s.badNode r 0x11 x.node
    | some (s, b) =>
      let t := ndType b
      if t = 0 || 5 < t || ndBad b then s.badNode r 0x10 x.node
      else s.post (if t = 1 then .launchNode r else if t = 2 then .copyNode r else if t = 3 then .signalNode r
        else if t = 4 then .waitNode r else .condNode r)

/-- The node of a run at which an event of type `t` acts, while the agent's partition runs the context: `f` has its effect;
a node that is no longer of that type has its own event. -/
def atNode (s : State) (r t : Nat) (f : State → RunRec → Block → State) : State :=
  match s.runs.find r with
  | none => s
  | some x =>
    if !s.runsOn (24 * x.agent) x.ctx then s else
    match (if x.node = 0 then none else s.agentRead (dieOfPart x.agent) x.ctx x.node) with
    | none => s.nextNode r
    | some (s, b) => if ndType b != t || ndBad b then s.nextNode r else f s x b

/-- ITER as the HEAD holds it now; 0 in a headless chain. -/
def iterOf (s : State) (x : RunRec) : Option (State × Nat) :=
  if x.head = 0 then some (s, 0)
  else (s.agentRead (dieOfPart x.agent) x.ctx x.head).map fun e => (e.1, (ndBody e.2 1).toNat)

/-- LAUNCH node. -/
def launchAt (s : State) (r : Nat) : State := s.atNode r 1 fun s x b =>
  let a := (ndBody b 0).toNat
  match s.agentRead (dieOfPart x.agent) x.ctx a with
  | none => s.badNode r 0x11 a
  | some (s, d) => ((s.setNode r (ndNext b)).post (.launchDescriptorTake x.agent x.ctx a d)).nextNode r

/-- COPY node: a one-row copy between global addresses by the agent's engine. -/
def copyAt (s : State) (r : Nat) : State := s.atNode r 2 fun s x b =>
  let c := 24 * x.agent
  let n := (s.cc c).nextOp
  let cp : Copy :=
    { slot := 64, team := 32, ctx := x.ctx, dir := 3, src := ndBody b 0, dst := ndBody b 1, len := bitsOf b.toNat 159 128, rows := 1,
      spitch := 0, dpitch := 0, started := false, node := some (ndBody b 3, b.extractLsb' 160 32, x.ctx, ndScope b + 2) }
  let s := s.updCc c fun z => { z with nextOp := n + 1, copies := z.copies.set n cp }
  ((s.startSlices c).setNode r (ndNext b)).nextNode r

/-- SIGNAL node. -/
def signalAt (s : State) (r : Nat) : State := s.atNode r 3 fun s x b =>
  let node := x.node
  let s := s.setNode r (ndNext b)
  (s.agentAdd (24 * x.agent) x.ctx (.signal r node) (ndBody b 0) (lo32 (ndBody b 1)) (ndScope b + 2)).nextNode r

/-- The threshold of a WAIT or COND node, exactly. -/
def ndThreshold (b : Block) (iter : Nat) : Nat := (ndBody b 1).toNat + (ndBody b 2).toNat * iter

/-- WAIT node. The agent itself reads and writes at the homes, so of its releases and acquires (06 R104) only the
acquire shows: what its engine copies next is not read from a stale line of its core (06 R113). -/
def waitAt (s : State) (r : Nat) : State := s.atNode r 4 fun s x b =>
  let d := dieOfPart x.agent
  match s.iterOf x, s.readHome d x.ctx (ndBody b 0) with
  | none, _ => s.badNode r 0x11 x.head
  | _, none => s.badNode r 0x11 x.node
  | some (s, i), some home =>
    let thr := ndThreshold b i
    match s.ctrHold home false with
    | some key => s.hold key false (.waitNode r)
    | none =>
      if thr ≤ (s.ctrRead d home).toNat then
        (((s.acquireAt (24 * x.agent) (ndScope b + 2)).dropWaiters (24 * x.agent) (agentSlot 1 r)).setNode r (ndNext b)).nextNode r
      else if 2 ^ 64 ≤ thr then s
      else s.agentPark (24 * x.agent) (agentSlot 1 r) home (BitVec.ofNat 64 thr)

/-- COND node. -/
def condAt (s : State) (r : Nat) : State := s.atNode r 5 fun s x b =>
  let d := dieOfPart x.agent
  match s.iterOf x, s.readHome d x.ctx (ndBody b 0) with
  | none, _ => s.badNode r 0x11 x.head
  | _, none => s.badNode r 0x11 x.node
  | some (s, i), some home =>
    match s.ctrHold home false with
    | some key => s.hold key false (.condNode r)
    | none =>
      if ndThreshold b i ≤ (s.ctrRead d home).toNat then
        ((s.acquireAt (24 * x.agent) (ndScope b + 2)).setNode r (ndNext b)).nextNode r
      else
        let alt := (ndBody b 3).toNat
        if ndRearm b && x.head != 0 then
          match s.vaWrite d x.ctx kStore (BitVec.ofNat 64 (x.head + 8)) (leBytes 8 (i + 1)) with
          | .error _ => s.badNode r 0x11 x.head
          | .ok s => (s.setNode r alt).nextNode r
        else (s.setNode r alt).nextNode r

/-- Begin a run at a node. -/
def beginRun (s : State) (agent h head node : Nat) (hd : Option Block) (queue : Option Nat) : State :=
  let r := s.nextRun
  let x : RunRec := { ctx := h, agent := agent, head := head, node := node, queue := queue, entry := hd }
  State.nextNode { s with runs := s.runs.set r x, nextRun := r + 1 } r

/-- RUN (16 R329): the HEAD is read; a bad one starts nothing. -/
def startRun (s : State) (agent h head : Nat) (queue : Option Nat) : State :=
  let d := dieOfPart agent
  let no (s : State) (code : Nat) : State :=
    let s := s.refusal d h code (BitVec.ofNat 64 head)
    match queue with
    | some q => s.entryDone q
    | none => s
  match s.agentRead d h head with
  | none => no s 0x11
  | some (s, b) => if ndType b != 6 || ndBad b then no s 0x10 else s.beginRun agent h head (ndBody b 0).toNat (some b) queue

/-! ## Submission queues -/

def updQueue (s : State) (q : Nat) (f : QueueRec → QueueRec) : State :=
  { s with queues := s.queues.map fun e => if e.1 = q then (q, f e.2) else e }

/-- An agent stops serving a queue (13 R278; 21 R384). -/
def stopQueue (s : State) (q : Nat) (ctr : DWord) (inc : Word) : State :=
  match s.queues.find q with
  | some x => (s.updQueue q fun y => { y with serving := false, ticket := none }).agentAddFails (24 * x.agent) x.ctx .count (.addr ctr) inc
  | none => s

/-- Process an entry (13 R278; 16 R328, R329). -/
def processEntry (s : State) (q : Nat) (x : QueueRec) (t : DWord) : State :=
  let d := dieOfPart x.agent
  let va := (qcbSlot x.block t).toNat
  match s.agentRead d x.ctx va with
  | none => (s.refusal d x.ctx 0x11 (BitVec.ofNat 64 va)).entryDone q
  | some (s, b) =>
    let ty := ndType b
    if ty = 0 then (s.takeLaunch (24 * x.agent) x.ctx va b true).entryDone q
    else if ty = 7 && !ndBad b then s.post (.run x.agent x.ctx (ndBody b 0).toNat (q + 1))
    else if 1 ≤ ty && ty ≤ 5 then s.beginRun x.agent x.ctx 0 va none (some q)
    else (s.refusal d x.ctx 0x10 (BitVec.ofNat 64 va)).entryDone q

/-- A serving agent's loop (13 R278): a ticket, the wait for its entry, the entry. -/
def serveQueue (s : State) (q : Nat) : State :=
  match s.queues.find q with
  | none => s
  | some x =>
    let core := 24 * x.agent
    let d := dieOfPart x.agent
    if !x.serving || !s.runsOn core x.ctx then s else
    match x.ticket with
    | none =>
      match s.agentHome d x.ctx (qcbTkt x.block) with
      | none => s.stopQueue q (qcbTkt x.block) 1
      | some home =>
        match s.ctrHold home true with
        | some key => s.hold key true (.submissionQueueEntry q)
        | none =>
          match s.ctrAdd d x.ctx home 1 with
          | none => s.stopQueue q (qcbTkt x.block) 1
          | some (t, s) => (s.updQueue q fun y => { y with ticket := some t }).post (.submissionQueueEntry q)
    | some t =>
      match s.readHome d x.ctx (qcbPub x.block) with
      | none => s.stopQueue q (qcbPub x.block) 0
      | some home =>
        match s.ctrHold home false with
        | some key => s.hold key false (.submissionQueueEntry q)
        | none =>
          if t < s.ctrRead d home then
            let s := (s.dropWaiters core (agentSlot 0 q)).updQueue q fun y => { y with ticket := none }
            (s.processEntry q x t).post (.submissionQueueEntry q)
          else s.agentPark core (agentSlot 0 q) home (t + 1)

/-! ## Host rings -/

def updRing (s : State) (r : Nat) (f : RingRec → RingRec) : State :=
  { s with rings := s.rings.map fun e => if e.1 = r then (r, f e.2) else e }

/-- Entries in place from entry t on, at most `fuel`. -/
def ringReady (s : State) (d h : Nat) (b : Block) (t : Nat) : Nat → Nat → State × Nat
  | 0, n => (s, n)
  | fuel + 1, n =>
    let slot := (t + n) % 2 ^ rbQlog b
    match s.vaRead d h kLoad (rbBase b + BitVec.ofNat 64 (rbSize b * slot + rbSize b - 8)) 8 with
    | .ok (s, bs) => if leNat bs = (t + n + 1) % 2 ^ 64 then ringReady s d h b t fuel (n + 1) else (s, n)
    | .error _ => (s, n)

/-- MSI-X on port 0 (16 R331). -/
def raiseMsix (s : State) (r : Nat) (b : Block) : State :=
  (s.updRing r fun y => { y with pend := 0 }).updIo fun i => { i with msix := i.msix ++ [rbVec b] }
/-- Raise the interrupt where K entries are pending. -/
def ringInterrupt (s : State) (r : Nat) : State :=
  match s.rings.find r with
  | some x => if rbK x.block ≤ x.pend then s.raiseMsix r x.block else s
  | none => s

/-- A pass of the ring agent (16 R331; 21 R384). -/
def ringPass (s : State) (r : Nat) : State :=
  match s.rings.find r with
  | none => s
  | some x =>
    let core := 24 * x.agent
    let d := dieOfPart x.agent
    let b := x.block
    if !x.serving || !s.runsOn core x.ctx then s else
    match s.readHome d x.ctx (rbRpub b) with
    | none => (s.updRing r fun y => { y with serving := false }).agentAddFails core x.ctx .count (.addr (rbRpub b)) 0
    | some pub =>
      match s.ctrHold pub false with
      | some key => s.hold key false (.ringAgentPass r)
      | none =>
        let v := s.ctrRead d pub
        let wait (s : State) : State := s.agentPark core (agentSlot 2 r) pub (v + 1)
        let (s, n) := s.ringReady d x.ctx b x.t (2 ^ rbQlog b) 0
        if n = 0 then wait s else
        let inc := BitVec.ofNat 32 n
        match s.agentHome d x.ctx (rbTail b) with
        | none => wait (s.agentAddFails core x.ctx .count (.addr (rbTail b)) inc)
        | some tail =>
          match s.ctrHold tail true with
          | some key => s.hold key true (.ringAgentPass r)
          | none =>
            match s.ctrAdd d x.ctx tail (BitVec.ofNat 64 n) with
            | none => wait (s.agentAddFails core x.ctx .count (.addr (rbTail b)) inc)
            | some (_, s) =>
              let now := (s.core core).cyc
              let since := if x.pend = 0 then now else x.pendSince
              let s := s.updRing r fun y => { y with t := x.t + n, pend := x.pend + n, pendSince := since }
              let s := if x.pend = 0 && rbWin b != 0 then s.postAfter core (rbWin b) (.ringWindowExpiry r) else s
              (s.ringInterrupt r).post (.ringAgentPass r)

/-- WIN cycles have passed since entries became pending (16 R331). -/
def ringWindow (s : State) (r : Nat) : State :=
  match s.rings.find r with
  | none => s
  | some x =>
    if 0 < x.pend && rbWin x.block != 0 && x.pendSince + rbWin x.block ≤ (s.core (24 * x.agent)).cyc then s.raiseMsix r x.block else s

/-! ## Control blocks -/

/-- The lowest number that a map does not use. -/
def nextKey {α : Type} (m : Map α) : Nat := m.foldl (fun n e => max n (e.1 + 1)) 0

/-- An agent reads a control block that it is given, and serves or refuses it (13 R278; 16 R330). -/
def giveBlock (s : State) (agent h addr : Nat) (ring : Bool) : State :=
  let d := dieOfPart agent
  let bad (s : State) : State := s.refusal d h 0x13 (BitVec.ofNat 64 addr)
  match s.agentRead d h addr with
  | none => bad s
  | some (s, b) =>
    if ring then
      if !rbOk b then bad s else
      let r := match s.rings.find? fun e => e.2.ctx = h && e.2.agent = agent && e.2.block = b with
        | some e => e.1
        | none => nextKey s.rings
      let old := s.rings.get { ctx := h, agent := agent, block := b } r
      State.post { s with rings := s.rings.set r { old with serving := true } } (.ringAgentPass r)
    else if !qcbOk b then bad s
    else if !(qcbPmask b).getLsbD agent then s
    else
      let q := match s.queues.find? fun e => e.2.ctx = h && e.2.agent = agent && e.2.block = b with
        | some e => e.1
        | none => nextKey s.queues
      let old := s.queues.get { ctx := h, agent := agent, block := b } q
      State.post { s with queues := s.queues.set q { old with serving := true } } (.submissionQueueEntry q)

end State

/-- SUBMISSION_QUEUE_ENTRY. -/
def execSubmissionQueueEntry (queue : Nat) (s : State) : Host.Outcome State Fault Refusal := .next (s.serveQueue queue)
/-- RUN; `queue` is one more than the queue whose entry it is, 0 for none. -/
def execRun (agent ctx head queue : Nat) (s : State) : Host.Outcome State Fault Refusal :=
  if !partOk agent then .fault .noSuchUnit
  else .next (s.startRun agent ctx head (if queue = 0 then none else some (queue - 1)))
/-- LAUNCH_NODE. -/
def execLaunchNode (run : Nat) (s : State) : Host.Outcome State Fault Refusal := .next (s.launchAt run)
/-- COPY_NODE. -/
def execCopyNode (run : Nat) (s : State) : Host.Outcome State Fault Refusal := .next (s.copyAt run)
/-- SIGNAL_NODE. -/
def execSignalNode (run : Nat) (s : State) : Host.Outcome State Fault Refusal := .next (s.signalAt run)
/-- WAIT_NODE. -/
def execWaitNode (run : Nat) (s : State) : Host.Outcome State Fault Refusal := .next (s.waitAt run)
/-- COND_NODE. -/
def execCondNode (run : Nat) (s : State) : Host.Outcome State Fault Refusal := .next (s.condAt run)
/-- RING_AGENT_PASS. -/
def execRingAgentPass (ring : Nat) (s : State) : Host.Outcome State Fault Refusal := .next (s.ringPass ring)
/-- RING_WINDOW_EXPIRY. -/
def execRingWindowExpiry (ring : Nat) (s : State) : Host.Outcome State Fault Refusal := .next (s.ringWindow ring)
/-- QUEUE_CONTROL_BLOCK_GIVEN. -/
def execQueueControlBlockGiven (agent ctx addr : Nat) (ring : Bool) (s : State) : Host.Outcome State Fault Refusal :=
  if !partOk agent then .fault .noSuchUnit else .next (s.giveBlock agent ctx addr ring)

end Sys2Proof.Machine
end

