-- ==== Sys2Proof/Machine/Registers.lean ====
section
/-! DEFINITION. The register block (23 R407 to R417): what a read of each register returns and what a write of it does,
and the requests by which the firmware slots reach it. From `dvsec` on stand the registers of the Rhabry DVSEC, which are
not in the block (R409). -/

namespace Sys2Proof.Machine

/-- Where the model numbers the DVSEC registers: RMBCMD 0x10, RMBSTS 0x14, BOOTSTS 0x18. -/
def dvsec : Nat := 2 ^ 32

/-- Word i of a 64-bit register, and the register with it written. -/
def wordOf (x : DWord) (hi : Bool) : Word := if hi then hi32 x else lo32 x
def withWord (x : DWord) (hi : Bool) (v : Word) : DWord := if hi then pairOf (lo32 x) v else pairOf v (hi32 x)

/-- Is the writer the host? -/
def byHost : Writer → Bool
  | .host => true
  | _ => false

/-- Registers of the device block that only the application cores and the firmware reach (R410): CPGADDR, CPGCTL, and the
key registers. -/
def noHost (o : Nat) : Bool := o = 0x0B0 || o = 0x0B4 || o = 0x0B8 || (0x200 ≤ o && o < 0x258)
/-- The writable bits of the plain registers of the device block. -/
def devMask (o : Nat) : Word :=
  if 0x020 ≤ o && o < 0x030 then 0xFFFFFFFF#32
  else if o = 0x044 then 0x3F#32
  else if o = 0x048 then 0xFF#32
  else if o = 0x080 then 0x3FF#32
  else if 0x088 ≤ o && o < 0x0A0 then 0xFFFFFFFF#32
  else if o = 0x0B0 then 0xFFFFF000#32
  else if o = 0x0B4 then 0xFFFFFFFF#32
  else 0
/-- The writable bits of the plain registers of a context; the address registers are those of `ctxAddr`. -/
def ctxMask (o : Nat) : Word :=
  if o = 0x020 then 0x1FFF#32
  else if o = 0x07C || (0x0B4 ≤ o && o < 0x0C8) then 0xFFFFFFFF#32
  else if 0x090 ≤ o && o < 0x0A0 then 0x8003FFFF#32
  else if o = 0x0A0 then 0x001F7FE0#32
  else if o = 0x0A4 then 0x001FFFFF#32
  else if o = 0x078 then 0xFFFFFFF2#32
  else 0
/-- The address registers of a context, written only while V = 0 (R415). -/
def ctxAddr (o : Nat) : Bool := (0x008 ≤ o && o < 0x020) || (0x028 ≤ o && o < 0x068)

namespace State

/-! ## Reads -/

/-- A value that the manual leaves open, of some bits. -/
def open_ (s : State) (bits : Nat) : Word × State :=
  let (x, s) := s.fresh
  (BitVec.ofNat 32 (x.toNat % 2 ^ bits), s)

/-- BFADDR, BFCTR and BFCTL of a flip engine (16 R322). -/
def readFlip (s : State) (e o : Nat) : Word :=
  let f := s.flip e
  if o = 0 || o = 4 then wordOf f.addr (o = 4)
  else if o = 8 || o = 0xC then wordOf f.ctr (o = 0xC)
  else if o = 0x10 then BitVec.ofNat 32 (f.stat.toNat * 2 ^ 24 + (if f.busy then 2 ^ 8 else 0) + (if f.dir then 2 else 0))
  else 0

/-- The key registers (05 R93): KEYDATA reads 0 but for a WRAP's result. -/
def readKey (s : State) (o : Nat) : Word :=
  if o = 0x200 then BitVec.ofNat 32 (s.io.keyStat.toNat * 2 ^ 24 + (if s.io.keyBusy then 2 ^ 23 else 0) + s.io.keyKid.toNat * 2 ^ 8)
  else if o = 0x204 then s.io.keyWk.setWidth 32
  else if 0x210 ≤ o && s.io.keyOut then s.io.keyData.get 0 ((o - 0x210) / 4)
  else 0

/-- The device block (R410). -/
def readDev (s : State) (src : Writer) (o : Nat) : Word × State :=
  if byHost src && noHost o then (0, s)
  else if o = 0x000 then (s.io.devsts.setWidth 32, s)
  else if o = 0x010 then (BitVec.ofNat 32 feat0, s)
  else if 0x030 ≤ o && o < 0x040 then (s.io.featAck.get 0 ((o - 0x030) / 4), s)
  else if o = 0x040 then (if s.io.featDone then 2 else 0, s)
  else if o = 0x04C then (BitVec.ofNat 32 (s.io.ret.toNat * 2 ^ 16 + min s.stranded.length strandedMax), s)
  else if o = 0x050 then (BitVec.ofNat 32 s.powerLim, s)
  else if o = 0x054 then s.open_ 16
  else if o = 0x0A0 then (BitVec.ofNat 32 (s.io.tlbq.length * 2 ^ 16 + (if s.io.tlbq.isEmpty then 0 else 2 ^ 8)), s)
  else if o = 0x0B8 then (if s.io.cpgMark then 0x100 else 0, s)
  else if 0x100 ≤ o && o < 0x180 then (s.readFlip ((o - 0x100) / 32) (o % 32), s)
  else if 0x200 ≤ o && o < 0x258 then (s.readKey o, s)
  else (s.io.regs.get 0 o, s)

/-- An event counter: one that counts what the model does not measure holds a free value (17 R344). -/
def readEvcnt (s : State) (cnt : DWord) (sel : Word) (hi : Bool) : Word × State :=
  if sel.getLsbD 8 && unmeasured (bitsOf sel.toNat 7 0) then s.fresh else (wordOf cnt hi, s)

/-- The registers of a partition (14 R292; R412). -/
def readPart (s : State) (p o : Nat) : Word :=
  let x := s.part p
  if o = 0x00 then BitVec.ofNat 32 (x.stat.toNat * 2 ^ 24 + (if x.standby.isSome then 2 ^ 16 else 0) + (if x.drain then 2 ^ 7 else 0))
  else if o = 0x08 || o = 0x0C then wordOf x.pcnt (o = 0x0C)
  else if o = 0x10 || o = 0x14 then wordOf x.pimg (o = 0x14)
  else if o = 0x18 || o = 0x1C then wordOf x.pbind (o = 0x1C)
  else if o = 0x20 then x.pctxh
  else 0

/-- A die block (R412). -/
def readDie (s : State) (d o : Nat) : Word × State :=
  let x := s.die d
  if o = 0 then (BitVec.ofNat 32 (min x.eqWaiting 255 * 2 ^ 16 + x.eqK % 256), s)
  else if 0x10 ≤ o && o < 0x40 then (x.abud.get 0xFFFF0000#32 ((o - 0x10) / 4), s)
  else if o = 0x40 then ((Config.budCap d).setWidth 32, s)
  else if o = 0x50 then (BitVec.ofNat 32 (x.vfMax.toNat * 2 ^ 8 + x.vfCur.toNat), s)
  else if o = 0x54 then
    let (t, s) := s.open_ 8
    (t + BitVec.ofNat 32 ((if x.hot then 2 ^ 16 else 0) + x.tlim.toNat * 2 ^ 8), s)
  else if 0x100 ≤ o && o < 0x900 then (s.readPart (8 * d + (o - 0x100) / 0x100) (o % 0x100), s)
  else if 0x1000 ≤ o && o < 0x1100 then
    let i := (o - 0x1000) / 8
    s.readEvcnt (x.evcnt.get 0 i) (x.evsel.get 0 i) (o % 8 = 4)
  else if 0x1100 ≤ o && o < 0x1180 then (x.evsel.get 0 ((o - 0x1100) / 4), s)
  else if o = 0x1180 then (x.evctx, s)
  else if 0x4000 ≤ o && (o - 0x4000) / 0x100 < 192 then
    let c := s.core (192 * d + (o - 0x4000) / 0x100)
    let q := o % 0x100
    if q < 0x80 then s.readEvcnt (c.evcnt.get 0 (q / 8)) (c.evsel.get 0 (q / 8)) (q % 8 = 4)
    else if q < 0xC0 then (c.evsel.get 0 ((q - 0x80) / 4), s)
    else (0, s)
  else (0, s)

/-- Does a write of the context wait under 14 R304? -/
def writesHeld (s : State) (h : Nat) : Bool :=
  s.held.any fun r => r.key < 2 ^ 40 && (s.closedHolds (r.key * 4096)).contains h

/-- The registers of a context (R415 to R417). -/
def readCtx (s : State) (h o : Nat) : Word × State :=
  let x := s.ctx h
  let b (c : Bool) (n : Nat) : Nat := if c then 2 ^ n else 0
  if o = 0x000 then (BitVec.ofNat 32 (x.stat.toNat * 2 ^ 24 + b x.reclost 9 + b x.valid 8), s)
  else if o = 0x068 || o = 0x06C then (wordOf x.alm.cost (o = 0x06C), s)
  else if o = 0x070 then
    (BitVec.ofNat 32 (b x.alm.abandon 31 + b x.alm.noroom 30 + b (s.writesHeld h) 29 + b x.alm.nocb 28 + min x.alm.late 65535), s)
  else if o = 0x074 then (x.lspos, s)
  else if o = 0x080 then (BitVec.ofNat 32 (min (s.nstop h) 65535 * 2 ^ 16 + b x.halt 3 + b x.all 1 + b x.claim 0), s)
  else if o = 0x0A0 then (x.dbgsel ||| BitVec.ofNat 32 (b x.dbgErr 31), s)
  else if o = 0x0A8 then s.dbgRead h
  else if o = 0x0B0 then (BitVec.ofNat 32 (x.rbStat.toNat * 2 ^ 24), s)
  else (x.reg o, s)

/-- Can the register block be reached? Under the recovery image the host reaches its first 4 KiB alone (22 R401). -/
def reaches (s : State) (src : Writer) (off : Nat) : Bool :=
  s.io.powered && off % 4 = 0 && !(s.recovery && byHost src && 0x1000 ≤ off && off < dvsec)

/-- A read of a register: an offset that is not assigned reads 0 (R407). -/
def readReg (s : State) (src : Writer) (off : Nat) : Word × State :=
  if !s.reaches src off then (0, s)
  else if off < 0x1000 then (BitVec.ofNat 32 (leNat (s.fromRmb off 4)), s)
  else if off < 0x10000 then s.readDev src (off - 0x1000)
  else if off < 0x50000 then s.readDie ((off - 0x10000) / 0x10000) (off % 0x10000)
  else if off < 0x80000 then (0, s)
  else if off < 0x90000 then
    let k := (off - 0x80000) / 4
    (match (s.vslot k).owner with
      | some h => BitVec.ofNat 32 (2 ^ 31 + h)
      | none => s.io.vslotCtx.get 0 k, s)
  else if off < 0xA0000 then (s.vstat ((off - 0x90000) / 4), s)
  else if off < 0xA0200 then (if off % 8 = 0 then s.io.routes.get 0 ((off - 0xA0000) / 8) else 0, s)
  else if off < 0xA1000 then (0, s)
  else if off < 0xA1200 then (s.io.inbound.get 0 ((off - 0xA1000) / 4), s)
  else if off < 0x100000 then (0, s)
  else if off < 0x200000 then s.readCtx ((off - 0x100000) / 0x400) (off % 0x400)
  else if off = dvsec + 0x10 && byHost src then (s.boot.rmbcmd, s)
  else if off = dvsec + 0x14 && byHost src then (s.boot.rmbsts, s)
  else if off = dvsec + 0x18 && byHost src then (s.boot.bootsts, s)
  else (0, s)

/-! ## Writes -/

def anyCtx (s : State) : Bool := s.ctxs.any fun e => e.2.valid
def setDevReg (s : State) (o : Nat) (v : Word) : State := s.updIo fun x => { x with regs := x.regs.set o (v &&& devMask o) }

def writeFlip (s : State) (e o : Nat) (v : Word) : State :=
  if o = 0 || o = 4 then s.updFlip e fun f => { f with addr := withWord f.addr (o = 4) v }
  else if o = 8 || o = 0xC then s.updFlip e fun f => { f with ctr := withWord f.ctr (o = 0xC) v }
  else if o = 0x10 then
    let s := s.updFlip e fun f => { f with dir := v.getLsbD 1 }
    if v.getLsbD 0 then s.startFlip e (v.getLsbD 1) else s
  else s

/-- The event of a KEYCTL command. -/
def keyEvent (cmd : Nat) : Instr :=
  if cmd = 1 then .keyGen else if cmd = 2 then .keyLoad else if cmd = 3 then .keyErase else if cmd = 4 then .keyWrap
  else if cmd = 5 then .keyUnwrap else .keyReservedCommand

/-- A write of a key register ends the stay of a WRAP's result (05 R93). KEYCTL is not written while BUSY = 1. -/
def writeKey (s : State) (o : Nat) (v : Word) : State :=
  let s := if s.io.keyOut then s.updIo fun x => { x with keyData := [], keyOut := false } else s
  if o = 0x200 then
    if s.io.keyBusy then s else
    let s := s.updIo fun x => { x with keyKid := v.extractLsb' 8 13 }
    let cmd := bitsOf v.toNat 2 0
    if cmd = 0 then s else (s.updIo fun x => { x with keyBusy := true }).post (keyEvent cmd)
  else if o = 0x204 then s.updIo fun x => { x with keyWk := v.extractLsb' 0 13 }
  else if 0x210 ≤ o then s.updIo fun x => { x with keyData := x.keyData.set ((o - 0x210) / 4) v }
  else s

/-- Ports that a value of TIERCFG enables. -/
def portsOf (v : Word) : Nat := ((List.range 8).filter fun i => v.getLsbD i).length

/-- The device block (R410, R411). -/
def writeDev (s : State) (src : Writer) (o : Nat) (v : Word) : State :=
  if byHost src && noHost o then s
  else if o = 0x000 then s.updIo fun x => { x with devsts := x.devsts &&& ~~~(v.extractLsb' 0 8) }
  else if o = 0x040 then (if v.getLsbD 0 then s.negotiate else s)
  else if o = 0x044 then (if s.anyCtx then s else s.setDevReg o v)
  else if o = 0x048 then (if s.anyCtx || !([0, 1, 2, 4, 8].contains (portsOf v)) then s else s.setDevReg o v)
  else if o = 0x04C then s.updIo fun x => { x with ret := v.extractLsb' 16 16 }
  else if o = 0x050 then
    s.updIo fun x => { x with regs := x.regs.set o (BitVec.ofNat 32 (max 400 (min 2000 (bitsOf v.toNat 15 0)))) }
  else if o = 0x0A0 then (if v.getLsbD 0 then s.askInvalidate else s)
  else if o = 0x0B8 then
    let c := bitsOf v.toNat 1 0
    if c = 1 then s.setCtrPage else if c = 2 then s.clearCtrPage else if c = 3 then s.noteMark else s
  else if 0x100 ≤ o && o < 0x180 then s.writeFlip ((o - 0x100) / 32) (o % 32) v
  else if 0x200 ≤ o && o < 0x258 then s.writeKey o v
  else if devMask o = 0#32 then s
  else s.setDevReg o v

def writePart (s : State) (p o : Nat) (v : Word) : State :=
  if o = 0x00 then (s.updPart p fun x => { x with drain := v.getLsbD 7 }).partCommand p (bitsOf v.toNat 2 0)
  else if o = 0x08 || o = 0x0C then s.updPart p fun x => { x with pcnt := withWord x.pcnt (o = 0x0C) v }
  else if o = 0x10 || o = 0x14 then s.updPart p fun x => { x with pimg := withWord x.pimg (o = 0x14) v }
  else if o = 0x18 || o = 0x1C then s.updPart p fun x => { x with pbind := withWord x.pbind (o = 0x1C) v }
  else if o = 0x20 then s.updPart p fun x => { x with pctxh := v &&& 0x3FF#32 }
  else s

/-- A counter whose selection changes keeps what it counted: a free value, if that was not measured. -/
def keepCount (s : State) (cnt : DWord) (sel : Word) : DWord × State :=
  if sel.getLsbD 8 && unmeasured (bitsOf sel.toNat 7 0) then
    let (x, s) := s.fresh
    let (y, s) := s.fresh
    (pairOf x y, s)
  else (cnt, s)

/-- A die block (R412, R413). -/
def writeDie (s : State) (d o : Nat) (v : Word) : State :=
  if o = 0 then s.updDie d fun x => { x with eqK := bitsOf v.toNat 7 0 }
  else if 0x10 ≤ o && o < 0x40 then s.writeAbud d ((o - 0x10) / 4) v
  else if o = 0x50 then s.writeVfstate d v
  else if o = 0x54 then s.updDie d fun x => { x with
    hot := x.hot && !v.getLsbD 16, tlim := BitVec.ofNat 8 (max 70 (min 105 (bitsOf v.toNat 15 8))) }
  else if 0x100 ≤ o && o < 0x900 then s.writePart (8 * d + (o - 0x100) / 0x100) (o % 0x100) v
  else if 0x1100 ≤ o && o < 0x1180 then
    let i := (o - 0x1100) / 4
    let (n, s) := s.keepCount ((s.die d).evcnt.get 0 i) ((s.die d).evsel.get 0 i)
    s.updDie d fun x => { x with evcnt := x.evcnt.set i n, evsel := x.evsel.set i (v &&& 0x3FF#32) }
  else if o = 0x1180 then s.updDie d fun x => { x with evctx := v &&& 0x3FF#32 }
  else if 0x4000 ≤ o && (o - 0x4000) / 0x100 < 192 && 0x80 ≤ o % 0x100 && o % 0x100 < 0xC0 then
    let c := 192 * d + (o - 0x4000) / 0x100
    let i := (o % 0x100 - 0x80) / 4
    let (n, s) := s.keepCount ((s.core c).evcnt.get 0 i) ((s.core c).evsel.get 0 i)
    s.updCore c fun x => { x with evcnt := x.evcnt.set i n, evsel := x.evsel.set i (v &&& 0x3FF#32) }
  else s

def setCtxReg (s : State) (h o : Nat) (v : Word) : State := s.updCtx h fun x => { x with regs := x.regs.set o v }

/-- The registers of a context (R415 to R417). -/
def writeCtx (s : State) (h o : Nat) (v : Word) : State :=
  if o = 0x000 then
    let s := if v.getLsbD 9 then s.updCtx h fun x => { x with reclost := false } else s
    let c := bitsOf v.toNat 1 0
    if c = 1 then s.createCtx h else if c = 2 then s.destroyCtx h else s
  else if ctxAddr o then (if (s.ctx h).valid then s else s.setCtxReg h o v)
  else if o = 0x070 then s.updAlm h fun a => { a with
    abandon := a.abandon && !v.getLsbD 31, noroom := a.noroom && !v.getLsbD 30, nocb := a.nocb && !v.getLsbD 28 }
  else if o = 0x078 then
    let s := s.setCtxReg h o (v &&& ctxMask o)
    if v.getLsbD 0 then s.beginCapture h 0 else s
  else if o = 0x080 then s.writeDbgctl h v
  else if o = 0x0A0 then
    let s := if v.getLsbD 31 then s.updCtx h fun x => { x with dbgErr := false } else s
    s.setCtxReg h o (v &&& ctxMask o)
  else if o = 0x0A8 then s.dbgWrite h v
  else if o = 0x0B0 then (if v.getLsbD 0 then s.rollback h else s)
  else if ctxMask o = 0#32 then s
  else s.setCtxReg h o (v &&& ctxMask o)

/-- VSLOTs (R414). -/
def writeVslot (s : State) (k : Nat) (v : Word) : State :=
  if v.getLsbD 31 then s.assignSlot k (bitsOf v.toNat 9 0)
  else (s.releaseSlot k).updIo fun x => { x with vslotCtx := x.vslotCtx.set k (v &&& 0x3FF#32) }

/-- The writable bits of a word of an inbound window. -/
def inboundMask (i : Nat) : Word := if i % 8 = 7 then 0x3FFF#32 else if i % 8 = 6 then 0 else 0xFFFFFFFF#32

/-- A write of a register: an offset that is not assigned ignores it (R407, R408). -/
def writeReg (s : State) (src : Writer) (off : Nat) (v : Word) : State :=
  if !s.reaches src off then s
  else if off < 0x1000 then s.toRmb off (leBytes 4 v.toNat)
  else if off < 0x10000 then s.writeDev src (off - 0x1000) v
  else if off < 0x50000 then s.writeDie ((off - 0x10000) / 0x10000) (off % 0x10000) v
  else if off < 0x80000 then s
  else if off < 0x90000 then s.writeVslot ((off - 0x80000) / 4) v
  else if off < 0xA0000 then
    let k := (off - 0x90000) / 4
    if v.getLsbD 29 && (s.vslot k).owner.isSome then s.updVslot k fun x => { x with nerr := false } else s
  else if off < 0xA0200 then
    if off % 8 = 0 then s.updIo fun x => { x with routes := x.routes.set ((off - 0xA0000) / 8) (v &&& 0xFFF#32) } else s
  else if off < 0xA1000 then s
  else if off < 0xA1200 then
    let i := (off - 0xA1000) / 4
    s.updIo fun x => { x with inbound := x.inbound.set i (v &&& inboundMask i) }
  else if off < 0x100000 then s
  else if off < 0x200000 then s.writeCtx ((off - 0x100000) / 0x400) (off % 0x400) v
  else if off = dvsec + 0x10 && byHost src then s.writeRmbcmd v
  else s

/-! ## The firmware slots' accesses (R407) -/

/-- Serve a request that names the register block: its words in ascending order. -/
def serveReg (s : State) (i : Nat) (r : MemReq) (a : Access) : State :=
  let src : Writer := .agent (dieOfCore r.core) r.core
  let off := a.pa - regBase
  match r.op with
  | .store =>
    let s := (List.range (a.size / 4)).foldl (fun (s : State) j =>
      s.writeReg src (off + 4 * j) (BitVec.ofNat 32 (a.data / 2 ^ (32 * j)))) s
    { s with reqs := s.reqs.del i }
  | _ =>
    let (ws, s) := (List.range (a.size / 4)).foldl (fun (acc : Map Word × State) j =>
      let (w, s) := acc.2.readReg src (off + 4 * j)
      (acc.1.set j w, s)) (([] : Map Word), s)
    State.post { s with reqs := s.reqs.set i { r with result := ws, performed := true } } (.variableLatencyResult i)

/-- A request reaches its home, or the register block. -/
def atHome (s : State) (i : Nat) : State :=
  match s.reqs.find i with
  | none => s
  | some r =>
    match r.accs.find? fun a => a.core.isNone && inRegBlock a.pa with
    | some a => if r.performed then s else s.serveReg i r a
    | none => s.serve i

end State

/-- REGISTER_WRITE. -/
def execRegisterWrite (src : Writer) (offset : Nat) (value : Word) (s : State) : Host.Outcome State Fault Refusal :=
  .next (s.writeReg src offset value)
/-- MEMORY_REQUEST_AT_HOME. -/
def execMemoryRequestAtHome (req : Nat) (s : State) : Host.Outcome State Fault Refusal := .next (s.atHome req)

end Sys2Proof.Machine
end

