-- ==== Sys2Proof/Machine/Sample.lean ====
section
/-! DEFINITION. Samples of warps (17 R336) and the digests of record and replay (17 R345, R346; 23 R416). -/

namespace Sys2Proof.Machine

namespace State

/-! ## Samples -/

/-- The occupied user slots of a core, and the one whose turn it is: the first from `sampleSlot` on, else the lowest. -/
def sampleTurn (s : State) (c : Nat) : Option Nat :=
  let ks := ((s.cc c).warps.filter fun e => !e.2.ended && e.1 < fwSlot).map Prod.fst
  match ks.find? fun k => (s.core c).sampleSlot ≤ k with
  | some k => some k
  | none => ks.head?

/-- What holds a group's next instruction back: 2 a variable-latency operand, 3 a unit, 6 the range scoreboard; none
where it is something else. -/
def heldBy (s : State) (iss : Issue) (i : Instr) : Option Nat :=
  if s.operandPending iss i then some 2
  else if s.unitBusy iss i then some 3
  else if windowAccess i && State.bodyWaits { s with cur := iss } i then some 6
  else none

/-- The state code of a sampled warp and the group that R24 places first (17 R336); no code where the manual lists none
for the warp's state. -/
def sampleState (s : State) (c k : Nat) : Option Nat × Option Cand :=
  let w := s.warp c k
  let now := (s.core c).cyc
  let all := s.cands c k
  let ready := s.readyGroups c k
  let first := match firstGroup w ready with
    | some g => some g
    | none => mostLanes all
  let code :=
    if w.sched.lastPick = now then some 0
    else if w.sched.cwait.isSome then some 4
    else if w.lanesIn .runnable = 0#32 && w.lanesIn .parked != 0#32 then some 7
    else if now < w.sched.stallUntil || (w.sched.stallAll && w.pend.any fun p => now ≤ p.lands) then some 1
    else if !ready.isEmpty then some 5
    else match first.map Cand.what with
      | some (.run iss i) => s.heldBy iss i
      | _ => none
  (code, first)

/-- A sample period expires: one record, of the slot whose turn it is. -/
def sample (s : State) (c : Nat) : State :=
  if !s.coreRuns c then s else
  match s.sampleTurn c with
  | none => s
  | some k =>
    let s := s.updCore c fun x => { x with sampleSlot := (k + 1) % 32 }
    let w := s.warp c k
    let (x, s) := s.fresh
    let (y, s) := s.fresh
    let (code, first) := s.sampleState c k
    let pc := match first with
      | some g => g.pc
      | none => y
    s.trace c 3 w.wid (code.getD (x.toNat % 8)) 0 w.rgns (s.bodyCyc c (pc.setWidth 64))

/-! ## Digests -/

/-- The bytes that the digest of a control block covers: of each range its address, its length and its bytes; none where
one cannot be read. -/
def digestInput (s : State) (d h : Nat) (b : Block) : Option (State × List Byte) :=
  let rtab := b.extractLsb' 256 64
  let n := bitsOf b.toNat 327 320
  if n = 0 || 16 < n then none else
  (List.range n).foldl (fun (acc : Option (State × List Byte)) i => do
    let (s, l) ← acc
    let (s, e) ← (s.vaRead d h kLoad (rtab + BitVec.ofNat 64 (16 * i)) 16).toOption
    let (s, bs) ← (s.vaRead d h kLoad (BitVec.ofNat 64 (leNat (e.take 8))) (leNat (e.drop 8))).toOption
    pure (s, l ++ e ++ bs)) (some (s, []))

/-- RMISS: the ranges are digested together, so the first that differs is not known and is a free value. -/
def digestMiss (s : State) (c h entry : Nat) : State :=
  let (x, s) := s.fresh
  let s := s.trace c 9 0 (x.toNat % 16) 0 (s.cc c).lastRgns (BitVec.ofNat 320 (entry % 2 ^ 32))
  s.updCtx h fun y => { y with replayStopped := true }

/-- After a logged launch's add: its digest is written to the entry, or compared with it. -/
def digest (s : State) (h entry : Nat) : State :=
  let c := (s.leadCore h).getD 0
  let d := dieOfCore c
  match s.replayBlock d h with
  | none => s
  | some (s, b) =>
    match s.digestInput d h b with
    | none => s
    | some (s, m) =>
      let at_ := rpEntry b entry
      let sum := shake256 m
      if rpMode b = 1 then
        match s.vaWrite d h kStore (at_ + 64) (sum ++ [1#8]) with
        | .ok s => s
        | .error _ => s
      else if rpMode b = 2 && !(s.ctx h).replayStopped then
        match s.vaRead d h kLoad (at_ + 64) 33 with
        | .ok (s, bs) => if (bs.getD 32 0).getLsbD 0 && bs.take 32 != sum then s.digestMiss c h entry else s
        | .error _ => s
      else s

end State

/-- TRACE_SAMPLE. -/
def execTraceSample (core : Nat) (s : State) : Host.Outcome State Fault Refusal :=
  if !coreOk core then .fault .noSuchUnit else .next (s.sample core)
/-- REPLAY_DIGEST. -/
def execReplayDigest (ctx entry : Nat) (s : State) : Host.Outcome State Fault Refusal :=
  if 1024 ≤ ctx then .fault .noSuchUnit else .next (s.digest ctx entry)

end Sys2Proof.Machine
end

