-- ==== Sys2Proof/Machine/Dispatch.lean ====
section
/-! DEFINITION. One arm for each constructor of Instr: the meaning of every instruction word and every event. -/

namespace Sys2Proof.Machine

def exec (i : Instr) (s : State) : Host.Outcome State Fault Refusal :=
  match i with
  | .iadd sc d a b => Sys2Proof.Machine.execIadd sc d a b s
  | .isub sc d a b => Sys2Proof.Machine.execIsub sc d a b s
  | .imul sc d a b => Sys2Proof.Machine.execImul sc d a b s
  | .imulhI32 sc d a b => Sys2Proof.Machine.execImulhI32 sc d a b s
  | .imulhN32 sc d a b => Sys2Proof.Machine.execImulhN32 sc d a b s
  | .imad sc d a b => Sys2Proof.Machine.execImad sc d a b s
  | .iminI32 sc d a b => Sys2Proof.Machine.execIminI32 sc d a b s
  | .iminN32 sc d a b => Sys2Proof.Machine.execIminN32 sc d a b s
  | .imaxI32 sc d a b => Sys2Proof.Machine.execImaxI32 sc d a b s
  | .imaxN32 sc d a b => Sys2Proof.Machine.execImaxN32 sc d a b s
  | .iabs sc d a => Sys2Proof.Machine.execIabs sc d a s
  | .ineg sc d a => Sys2Proof.Machine.execIneg sc d a s
  | .iaddi sc d a imm => Sys2Proof.Machine.execIaddi sc d a imm s
  | .imuli sc d a imm => Sys2Proof.Machine.execImuli sc d a imm s
  | .icmp sc c p a b => Sys2Proof.Machine.execIcmp sc c p a b s
  | .icmpi sc c p a imm => Sys2Proof.Machine.execIcmpi sc c p a imm s
  | .mov sc d a => Sys2Proof.Machine.execMov sc d a s
  | .movi sc d imm => Sys2Proof.Machine.execMovi sc d imm s
  | .sel sc p d a b => Sys2Proof.Machine.execSel sc p d a b s
  | .and sc d a b => Sys2Proof.Machine.execAnd sc d a b s
  | .or sc d a b => Sys2Proof.Machine.execOr sc d a b s
  | .xor sc d a b => Sys2Proof.Machine.execXor sc d a b s
  | .andn sc d a b => Sys2Proof.Machine.execAndn sc d a b s
  | .not sc d a => Sys2Proof.Machine.execNot sc d a s
  | .andi sc d a imm => Sys2Proof.Machine.execAndi sc d a imm s
  | .ori sc d a imm => Sys2Proof.Machine.execOri sc d a imm s
  | .xori sc d a imm => Sys2Proof.Machine.execXori sc d a imm s
  | .shl sc d a b => Sys2Proof.Machine.execShl sc d a b s
  | .shr sc d a b => Sys2Proof.Machine.execShr sc d a b s
  | .sar sc d a b => Sys2Proof.Machine.execSar sc d a b s
  | .rol sc d a b => Sys2Proof.Machine.execRol sc d a b s
  | .shli sc d a imm => Sys2Proof.Machine.execShli sc d a imm s
  | .shri sc d a imm => Sys2Proof.Machine.execShri sc d a imm s
  | .sari sc d a imm => Sys2Proof.Machine.execSari sc d a imm s
  | .popc sc d a => Sys2Proof.Machine.execPopc sc d a s
  | .clz sc d a => Sys2Proof.Machine.execClz sc d a s
  | .ctz sc d a => Sys2Proof.Machine.execCtz sc d a s
  | .brev sc d a => Sys2Proof.Machine.execBrev sc d a s
  | .bfeN32 sc d a b => Sys2Proof.Machine.execBfeN32 sc d a b s
  | .bfeI32 sc d a b => Sys2Proof.Machine.execBfeI32 sc d a b s
  | .bfi sc d a b => Sys2Proof.Machine.execBfi sc d a b s
  | .fadd sc d a b => Sys2Proof.Machine.execFadd sc d a b s
  | .fsub sc d a b => Sys2Proof.Machine.execFsub sc d a b s
  | .fmul sc d a b => Sys2Proof.Machine.execFmul sc d a b s
  | .ffma sc d a b => Sys2Proof.Machine.execFfma sc d a b s
  | .fmin sc d a b => Sys2Proof.Machine.execFmin sc d a b s
  | .fmax sc d a b => Sys2Proof.Machine.execFmax sc d a b s
  | .fabs sc d a => Sys2Proof.Machine.execFabs sc d a s
  | .fneg sc d a => Sys2Proof.Machine.execFneg sc d a s
  | .fcmp sc c p a b => Sys2Proof.Machine.execFcmp sc c p a b s
  | .fclass sc d a => Sys2Proof.Machine.execFclass sc d a s
  | .fcpys sc d a b => Sys2Proof.Machine.execFcpys sc d a b s
  | .frnd sc d a => Sys2Proof.Machine.execFrnd sc d a s
  | .hadd2 sc f d a b => Sys2Proof.Machine.execHadd2 sc f d a b s
  | .hsub2 sc f d a b => Sys2Proof.Machine.execHsub2 sc f d a b s
  | .hmul2 sc f d a b => Sys2Proof.Machine.execHmul2 sc f d a b s
  | .hfma2 sc f d a b => Sys2Proof.Machine.execHfma2 sc f d a b s
  | .hmin2 sc f d a b => Sys2Proof.Machine.execHmin2 sc f d a b s
  | .hmax2 sc f d a b => Sys2Proof.Machine.execHmax2 sc f d a b s
  | .hdot2 sc f d a b => Sys2Proof.Machine.execHdot2 sc f d a b s
  | .cvt sc d a r n t => Sys2Proof.Machine.execCvt sc d a r n t s
  | .cvtx sc d a r n t => Sys2Proof.Machine.execCvtx sc d a r n t s
  | .cvtp sc t d a b => Sys2Proof.Machine.execCvtp sc t d a b s
  | .qnt sc d a w y => Sys2Proof.Machine.execQnt sc d a w y s
  | .dqnt sc d a b => Sys2Proof.Machine.execDqnt sc d a b s
  | .frcp sc d a => Sys2Proof.Machine.execFrcp sc d a s
  | .frsq sc d a => Sys2Proof.Machine.execFrsq sc d a s
  | .fsqrt sc d a => Sys2Proof.Machine.execFsqrt sc d a s
  | .fexp2 sc d a => Sys2Proof.Machine.execFexp2 sc d a s
  | .flog2 sc d a => Sys2Proof.Machine.execFlog2 sc d a s
  | .fsin sc d a => Sys2Proof.Machine.execFsin sc d a s
  | .fcos sc d a => Sys2Proof.Machine.execFcos sc d a s
  | .ftanh sc d a => Sys2Proof.Machine.execFtanh sc d a s
  | .ferf sc d a => Sys2Proof.Machine.execFerf sc d a s
  | .fsigm sc d a => Sys2Proof.Machine.execFsigm sc d a s
  | .shfl sc g d a b => Sys2Proof.Machine.execShfl sc g d a b s
  | .vote sc g d a b => Sys2Proof.Machine.execVote sc g d a b s
  | .ballot sc g d a b => Sys2Proof.Machine.execBallot sc g d a b s
  | .redx sc g d a b => Sys2Proof.Machine.execRedx sc g d a b s
  | .scan sc g d a b => Sys2Proof.Machine.execScan sc g d a b s
  | .matchLanes sc g d a b => Sys2Proof.Machine.execMatch sc g d a b s
  | .ld sc t d a b c r => Sys2Proof.Machine.execLd sc t d a b c r s
  | .st sc t d a b c => Sys2Proof.Machine.execSt sc t d a b c s
  | .atom sc d a w o k => Sys2Proof.Machine.execAtom sc d a w o k s
  | .cas sc d a w k => Sys2Proof.Machine.execCas sc d a w k s
  | .caddv sc d x a y b => Sys2Proof.Machine.execCaddv sc d x a y b s
  | .lds sc t d a r w => Sys2Proof.Machine.execLds sc t d a r w s
  | .sts sc t d a r w => Sys2Proof.Machine.execSts sc t d a r w s
  | .atoms sc d a o k => Sys2Proof.Machine.execAtoms sc d a o k s
  | .cass sc d a k => Sys2Proof.Machine.execCass sc d a k s
  | .pref sc l a b c => Sys2Proof.Machine.execPref sc l a b c s
  | .bra sc imm => Sys2Proof.Machine.execBra sc imm s
  | .brp sc n p imm => Sys2Proof.Machine.execBrp sc n p imm s
  | .call sc imm => Sys2Proof.Machine.execCall sc imm s
  | .calli sc a => Sys2Proof.Machine.execCalli sc a s
  | .ret sc => Sys2Proof.Machine.execRet sc s
  | .jmpi sc a => Sys2Proof.Machine.execJmpi sc a s
  | .rcv sc => Sys2Proof.Machine.execRcv sc s
  | .exit sc => Sys2Proof.Machine.execExit sc s
  | .spawn sc a b => Sys2Proof.Machine.execSpawn sc a b s
  | .yld sc => Sys2Proof.Machine.execYld sc s
  | .nop sc => Sys2Proof.Machine.execNop sc s
  | .sadd sc d a b => Sys2Proof.Machine.execSadd sc d a b s
  | .ssub sc d a b => Sys2Proof.Machine.execSsub sc d a b s
  | .smul sc d a b => Sys2Proof.Machine.execSmul sc d a b s
  | .smulh sc d a b g => Sys2Proof.Machine.execSmulh sc d a b g s
  | .sand sc d a b => Sys2Proof.Machine.execSand sc d a b s
  | .sor sc d a b => Sys2Proof.Machine.execSor sc d a b s
  | .sxor sc d a b => Sys2Proof.Machine.execSxor sc d a b s
  | .sshl sc d a b => Sys2Proof.Machine.execSshl sc d a b s
  | .sshr sc d a b => Sys2Proof.Machine.execSshr sc d a b s
  | .ssar sc d a b => Sys2Proof.Machine.execSsar sc d a b s
  | .smin sc d a b g => Sys2Proof.Machine.execSmin sc d a b g s
  | .smax sc d a b g => Sys2Proof.Machine.execSmax sc d a b g s
  | .smov sc d a => Sys2Proof.Machine.execSmov sc d a s
  | .smovi sc d imm => Sys2Proof.Machine.execSmovi sc d imm s
  | .saddi sc d imm => Sys2Proof.Machine.execSaddi sc d imm s
  | .scmp sc p a b c => Sys2Proof.Machine.execScmp sc p a b c s
  | .ssel sc d a b p => Sys2Proof.Machine.execSsel sc d a b p s
  | .sadd64 sc d a b => Sys2Proof.Machine.execSadd64 sc d a b s
  | .sld sc d a b w => Sys2Proof.Machine.execSld sc d a b w s
  | .sst sc d a b w => Sys2Proof.Machine.execSst sc d a b w s
  | .sbra sc o => Sys2Proof.Machine.execSbra sc o s
  | .sbrp sc n p imm => Sys2Proof.Machine.execSbrp sc n p imm s
  | .scall sc o => Sys2Proof.Machine.execScall sc o s
  | .sret sc => Sys2Proof.Machine.execSret sc s
  | .srd sc d x => Sys2Proof.Machine.execSrd sc d x s
  | .swr sc d x => Sys2Proof.Machine.execSwr sc d x s
  | .cadd sc d a b f k => Sys2Proof.Machine.execCadd sc d a b f k s
  | .crd sc d a b f => Sys2Proof.Machine.execCrd sc d a b f s
  | .cwait sc d a b f k => Sys2Proof.Machine.execCwait sc d a b f k s
  | .cpoll sc d a b f k => Sys2Proof.Machine.execCpoll sc d a b f k s
  | .fence sc e k => Sys2Proof.Machine.execFence sc e k s
  | .cmnt sc a b l o => Sys2Proof.Machine.execCmnt sc a b l o s
  | .racq sc m => Sys2Proof.Machine.execRacq sc m s
  | .racqNb sc m p => Sys2Proof.Machine.execRacqNb sc m p s
  | .rrel sc m => Sys2Proof.Machine.execRrel sc m s
  | .rnext sc d p => Sys2Proof.Machine.execRnext sc d p s
  | .launch sc a => Sys2Proof.Machine.execLaunch sc a s
  | .cpy sc a r => Sys2Proof.Machine.execCpy sc a r s
  | .cpyb sc d a j r => Sys2Proof.Machine.execCpyb sc d a j r s
  | .cpyg sc a b r => Sys2Proof.Machine.execCpyg sc a b r s
  | .cpys sc a b r => Sys2Proof.Machine.execCpys sc a b r s
  | .cseal sc d a b f k => Sys2Proof.Machine.execCseal sc d a b f k s
  | .cwaitb sc b => Sys2Proof.Machine.execCwaitb sc b s
  | .wdesc sc a b => Sys2Proof.Machine.execWdesc sc a b s
  | .msignCount sc n c => Sys2Proof.Machine.execMsignCount sc n c s
  | .msignReg sc n a => Sys2Proof.Machine.execMsignReg sc n a s
  | .ldw sc a => Sys2Proof.Machine.execLdw sc a s
  | .wswap sc => Sys2Proof.Machine.execWswap sc s
  | .mma sc d a z => Sys2Proof.Machine.execMma sc d a z s
  | .mmat sc d a => Sys2Proof.Machine.execMmat sc d a s
  | .mperm sc d a => Sys2Proof.Machine.execMperm sc d a s
  | .mred sc d a => Sys2Proof.Machine.execMred sc d a s
  | .mrd sc d a => Sys2Proof.Machine.execMrd sc d a s
  | .mst sc d a => Sys2Proof.Machine.execMst sc d a s
  | .mzero sc d => Sys2Proof.Machine.execMzero sc d s
  | .trap sc c => Sys2Proof.Machine.execTrap sc c s
  | .rft sc => Sys2Proof.Machine.execRft sc s
  | .svc sc d a => Sys2Proof.Machine.execSvc sc d a s
  | .bkpt sc c => Sys2Proof.Machine.execBkpt sc c s
  | .ckpt sc => Sys2Proof.Machine.execCkpt sc s
  | .ckptCounter sc a b => Sys2Proof.Machine.execCkptCounter sc a b s
  | .rgnent sc a => Sys2Proof.Machine.execRgnent sc a s
  | .rgnlve sc a => Sys2Proof.Machine.execRgnlve sc a s
  | .toksub sc d a b => Sys2Proof.Machine.execToksub sc d a b s
  | .toksubD sc d a b => Sys2Proof.Machine.execToksubD sc d a b s
  | .tokconf sc d a b => Sys2Proof.Machine.execTokconf sc d a b s
  | .tokarm sc a b => Sys2Proof.Machine.execTokarm sc a b s
  | .quadIssueCycle core quad => Sys2Proof.Machine.execQuadIssueCycle core quad s
  | .spawnBinTimerExpiry core bin => Sys2Proof.Machine.execSpawnBinTimerExpiry core bin s
  | .spawnBinLaunch core bin => Sys2Proof.Machine.execSpawnBinLaunch core bin s
  | .coreAdmission core => Sys2Proof.Machine.execCoreAdmission core s
  | .launchDescriptorTake agent ctx addr desc => Sys2Proof.Machine.execLaunchDescriptorTake agent ctx addr desc s
  | .submissionQueueEntry queue => Sys2Proof.Machine.execSubmissionQueueEntry queue s
  | .run agent ctx head queue => Sys2Proof.Machine.execRun agent ctx head queue s
  | .launchNode run => Sys2Proof.Machine.execLaunchNode run s
  | .copyNode run => Sys2Proof.Machine.execCopyNode run s
  | .signalNode run => Sys2Proof.Machine.execSignalNode run s
  | .waitNode run => Sys2Proof.Machine.execWaitNode run s
  | .condNode run => Sys2Proof.Machine.execCondNode run s
  | .stealRequest core requester => Sys2Proof.Machine.execStealRequest core requester s
  | .stealAgentTimeout core => Sys2Proof.Machine.execStealAgentTimeout core s
  | .reserve part gang ticketed => Sys2Proof.Machine.execReserve part gang ticketed s
  | .commit part gang => Sys2Proof.Machine.execCommit part gang s
  | .rollback part gang => Sys2Proof.Machine.execRollback part gang s
  | .start part gang => Sys2Proof.Machine.execStart part gang s
  | .agree gang part => Sys2Proof.Machine.execAgree gang part s
  | .refuse gang part => Sys2Proof.Machine.execRefuse gang part s
  | .confirm gang part => Sys2Proof.Machine.execConfirm gang part s
  | .withdraw gang part => Sys2Proof.Machine.execWithdraw gang part s
  | .gangHoldTimeout part gang => Sys2Proof.Machine.execGangHoldTimeout part gang s
  | .gangCollectTimeout gang => Sys2Proof.Machine.execGangCollectTimeout gang s
  | .equinoxStep die => Sys2Proof.Machine.execEquinoxStep die s
  | .stop part => Sys2Proof.Machine.execStop part s
  | .swap part => Sys2Proof.Machine.execSwap part s
  | .resume part => Sys2Proof.Machine.execResume part s
  | .demote part => Sys2Proof.Machine.execDemote part s
  | .load part => Sys2Proof.Machine.execLoad part s
  | .enter part => Sys2Proof.Machine.execEnter part s
  | .pctlReservedCommand part => Sys2Proof.Machine.execPctlReservedCommand part s
  | .partitionCommandComplete part => Sys2Proof.Machine.execPartitionCommandComplete part s
  | .parkedEviction part unit => Sys2Proof.Machine.execParkedEviction part unit s
  | .evictionWakePoll part unit => Sys2Proof.Machine.execEvictionWakePoll part unit s
  | .almanacPeriodExpiry ctx => Sys2Proof.Machine.execAlmanacPeriodExpiry ctx s
  | .cut ctx => Sys2Proof.Machine.execCut ctx s
  | .cutReply ctx part => Sys2Proof.Machine.execCutReply ctx part s
  | .heldWriteRelease ctx page => Sys2Proof.Machine.execHeldWriteRelease ctx page s
  | .intervalDurable ctx => Sys2Proof.Machine.execIntervalDurable ctx s
  | .vigilStep req lane => Sys2Proof.Machine.execVigilStep req lane s
  | .vigilDraftStep req lane => Sys2Proof.Machine.execVigilDraftStep req lane s
  | .vigilConfirm req lane => Sys2Proof.Machine.execVigilConfirm req lane s
  | .vigilArmApply req => Sys2Proof.Machine.execVigilArmApply req s
  | .vigilResultArrival req => Sys2Proof.Machine.execVigilResultArrival req s
  | .flipStep2Complete engine => Sys2Proof.Machine.execFlipStep2Complete engine s
  | .hostMemRead addr => Sys2Proof.Machine.execHostMemRead addr s
  | .hostMemWrite addr bytes => Sys2Proof.Machine.execHostMemWrite addr bytes s
  | .hostCounterWrite addr bytes => Sys2Proof.Machine.execHostCounterWrite addr bytes s
  | .peerAccess peer addr size op => Sys2Proof.Machine.execPeerAccess peer addr size op s
  | .counterOpAtHome op => Sys2Proof.Machine.execCounterOpAtHome op s
  | .slowListNotice core line => Sys2Proof.Machine.execSlowListNotice core line s
  | .monitorWake line => Sys2Proof.Machine.execMonitorWake line s
  | .hold op home => Sys2Proof.Machine.execHold op home s
  | .apply op home => Sys2Proof.Machine.execApply op home s
  | .release op home => Sys2Proof.Machine.execRelease op home s
  | .appCoreCounterAmo app addr op => Sys2Proof.Machine.execAppCoreCounterAmo app addr op s
  | .ringAgentPass ring => Sys2Proof.Machine.execRingAgentPass ring s
  | .ringWindowExpiry ring => Sys2Proof.Machine.execRingWindowExpiry ring s
  | .traceRecordWrite core => Sys2Proof.Machine.execTraceRecordWrite core s
  | .traceSample core => Sys2Proof.Machine.execTraceSample core s
  | .tileRecord core tracker => Sys2Proof.Machine.execTileRecord core tracker s
  | .captureEnd ctx => Sys2Proof.Machine.execCaptureEnd ctx s
  | .replayDigest ctx entry => Sys2Proof.Machine.execReplayDigest ctx entry s
  | .copyComplete core copy => Sys2Proof.Machine.execCopyComplete core copy s
  | .copyHalt core copy => Sys2Proof.Machine.execCopyHalt core copy s
  | .matrixCommandStart core => Sys2Proof.Machine.execMatrixCommandStart core s
  | .matrixCommandRetire core => Sys2Proof.Machine.execMatrixCommandRetire core s
  | .pageWalkComplete die ctx vpn => Sys2Proof.Machine.execPageWalkComplete die ctx vpn s
  | .l1WritebackDeadline core line => Sys2Proof.Machine.execL1WritebackDeadline core line s
  | .memoryRequestAtHome req => Sys2Proof.Machine.execMemoryRequestAtHome req s
  | .variableLatencyResult req => Sys2Proof.Machine.execVariableLatencyResult req s
  | .holdAnswer op home yes => Sys2Proof.Machine.execHoldAnswer op home yes s
  | .stealReply core lo hi => Sys2Proof.Machine.execStealReply core lo hi s
  | .queueControlBlockGiven agent ctx addr ring => Sys2Proof.Machine.execQueueControlBlockGiven agent ctx addr ring s
  | .budgetPeriod die cycles => Sys2Proof.Machine.execBudgetPeriod die cycles s
  | .cxlLinkLoss port => Sys2Proof.Machine.execCxlLinkLoss port s
  | .colmetLinkLoss link => Sys2Proof.Machine.execColmetLinkLoss link s
  | .linkRetrain colmet link hostReset => Sys2Proof.Machine.execLinkRetrain colmet link hostReset s
  | .partitionOffline part => Sys2Proof.Machine.execPartitionOffline part s
  | .submitterFreeze gang => Sys2Proof.Machine.execSubmitterFreeze gang s
  | .restore core part index version => Sys2Proof.Machine.execRestore core part index version s
  | .cxlCacheSnoop die line inval => Sys2Proof.Machine.execCxlCacheSnoop die line inval s
  | .trapEntry core slot lanes info => Sys2Proof.Machine.execTrapEntry core slot lanes info s
  | .asyncTrapTake core slot => Sys2Proof.Machine.execAsyncTrapTake core slot s
  | .biasFlipToHost engine => Sys2Proof.Machine.execBiasFlipToHost engine s
  | .biasFlipToDevice engine => Sys2Proof.Machine.execBiasFlipToDevice engine s
  | .rollbackGo ctx => Sys2Proof.Machine.execRollbackGo ctx s
  | .bisnpResponse addr bytes => Sys2Proof.Machine.execBisnpResponse addr bytes s
  | .peerRefusal core slot peer va => Sys2Proof.Machine.execPeerRefusal core slot peer va s
  | .registerWrite src offset value => Sys2Proof.Machine.execRegisterWrite src offset value s
  | .captureStart ctx trigger => Sys2Proof.Machine.execCaptureStart ctx trigger s
  | .thermalThrottle die tj => Sys2Proof.Machine.execThermalThrottle die tj s
  | .powerLimitExceeded watts => Sys2Proof.Machine.execPowerLimitExceeded watts s
  | .thermalShutdown die tj => Sys2Proof.Machine.execThermalShutdown die tj s
  | .vfStateChange die index cause => Sys2Proof.Machine.execVfStateChange die index cause s
  | .abudWrite die index value => Sys2Proof.Machine.execAbudWrite die index value s
  | .vfstateWrite die value => Sys2Proof.Machine.execVfstateWrite die value s
  | .dbgdataRead ctx => Sys2Proof.Machine.execDbgdataRead ctx s
  | .dbgdataWrite ctx value => Sys2Proof.Machine.execDbgdataWrite ctx value s
  | .debugGo ctx => Sys2Proof.Machine.execDebugGo ctx s
  | .create ctx => Sys2Proof.Machine.execCreate ctx s
  | .destroy ctx => Sys2Proof.Machine.execDestroy ctx s
  | .vslotAssign slot ctx => Sys2Proof.Machine.execVslotAssign slot ctx s
  | .vslotRelease slot => Sys2Proof.Machine.execVslotRelease slot s
  | .featureNegotiate => Sys2Proof.Machine.execFeatureNegotiate s
  | .inputUndervoltage => Sys2Proof.Machine.execInputUndervoltage s
  | .keyGen => Sys2Proof.Machine.execKeyGen s
  | .keyLoad => Sys2Proof.Machine.execKeyLoad s
  | .keyErase => Sys2Proof.Machine.execKeyErase s
  | .keyWrap => Sys2Proof.Machine.execKeyWrap s
  | .keyUnwrap => Sys2Proof.Machine.execKeyUnwrap s
  | .keyReservedCommand => Sys2Proof.Machine.execKeyReservedCommand s
  | .tlbInvalidateRequest => Sys2Proof.Machine.execTlbInvalidateRequest s
  | .tlbInvalidateComplete => Sys2Proof.Machine.execTlbInvalidateComplete s
  | .counterPageSet => Sys2Proof.Machine.execCounterPageSet s
  | .counterPageClear => Sys2Proof.Machine.execCounterPageClear s
  | .counterPageRead => Sys2Proof.Machine.execCounterPageRead s
  | .status => Sys2Proof.Machine.execStatus s
  | .writeFlash => Sys2Proof.Machine.execWriteFlash s
  | .verify => Sys2Proof.Machine.execVerify s
  | .bist => Sys2Proof.Machine.execBist s
  | .results => Sys2Proof.Machine.execResults s
  | .reboot => Sys2Proof.Machine.execReboot s
  | .mailboxUnknownCommand => Sys2Proof.Machine.execMailboxUnknownCommand s
  | .deviceReset => Sys2Proof.Machine.execDeviceReset s
  | .strandedRetentionExpiry => Sys2Proof.Machine.execStrandedRetentionExpiry s

end Sys2Proof.Machine
end

