-- ==== Sys2Proof/Machine/Step.lean ====
section
/-! DEFINITION. One step of the module: the next instruction chosen by the running issue cycle; else the
next posted event or the next quad's issue cycle. -/

namespace Sys2Proof.Machine

/-- The issue cycle of the next quad. -/
def stepQuad (s : State) : Host.Outcome State Fault Refusal :=
  s.advanceTurn.afterEvent (.quadIssueCycle s.turnCore s.turnQuad)
    (exec (.quadIssueCycle s.turnCore s.turnQuad) s.advanceTurn)

/-- The instruction at the head of the running issue cycle (02 R24; 08 R141). -/
def stepIssue (s : State) (i : IssueSlot) (rest : List IssueSlot) : Host.Outcome State Fault Refusal :=
  let s := s.beginIssue i rest
  let what := s.choose i.core i.slot i.lanes i.pc i.mode
  match s.fetchWait i.core i.slot i.pc what with
  | some key => .next (s.snoop key false).putOff
  | none => match what with
    | .trap t => .next (s.trapUnit t)
    | .skip iss => .next (s.withUnit iss).skipUnit
    | .run iss j => (s.withUnit iss).afterIssue (exec j (s.withUnit iss).beginWork)

/-- The next posted event. -/
def stepEvent (s : State) (e : Instr) (rest : List Instr) : Host.Outcome State Fault Refusal :=
  State.afterEvent { s with agenda := rest } e (exec e { s with agenda := rest })

/-- One step. A module that has powered down (23 R413) stays as it is. -/
def step (s : State) : Host.Outcome State Fault Refusal :=
  if !s.io.powered then .next s else
  match s.issuing with
  | i :: rest => stepIssue s i rest
  | [] =>
    match s.nextEvent with
    | some (e, rest) =>
      match s.eventNow with
      | (true, s) => stepEvent s e rest
      | (false, s) => stepQuad s
    | none => stepQuad s

/-- The state with one instruction of the table placed where the next step fetches and runs it. -/
def State.withFetchWord (s : State) (nbits w : Nat) : State := s.placeUnit (w % 2 ^ nbits)

end Sys2Proof.Machine
end

