-- ==== Sys2Proof/Safety.lean ====
section
/-! DEFINITION. What counts as a safe run, and the words in which statements are made: when an instruction
may run, what an instruction that writes registers leaves, and what it leaves alone. -/

namespace Sys2Proof.Machine

/-- Memory is in its one form (05 R72): addresses rise, every listed byte differs from what an unlisted
address reads as. -/
def State.memWf (s : State) : Prop := Memory.wf s.mem = true

/-- The condition codes 0 to 10 of the integer compares (09 R173). -/
def CondHolds (c : BitVec 4) (x y : Word) : Prop :=
  (c = 0#4 ∧ x = y) ∨ (c = 1#4 ∧ x ≠ y) ∨ (c = 2#4 ∧ x.toInt < y.toInt) ∨ (c = 3#4 ∧ x.toInt ≤ y.toInt) ∨
  (c = 4#4 ∧ y.toInt < x.toInt) ∨ (c = 5#4 ∧ y.toInt ≤ x.toInt) ∨ (c = 6#4 ∧ x.toNat < y.toNat) ∨
  (c = 7#4 ∧ x.toNat ≤ y.toNat) ∨ (c = 8#4 ∧ y.toNat < x.toNat) ∨ (c = 9#4 ∧ y.toNat ≤ x.toNat) ∨
  (c = 10#4 ∧ x &&& y ≠ 0#32)

/-- A step gives a next state. -/
def Completes (o : Host.Outcome State Fault Refusal) : Prop := ∃ t, o = .next t

namespace State

/-- The instruction is ready and passes the check of the issue stage (02 R23; 08 R151; 20 R366). -/
def Runs (s : State) (i : Instr) : Prop := s.notReady s.cur i = false ∧ s.issueTrap i = none

/-- The issuing warp in a state that comes after `s`. -/
def meIn (s t : State) : Warp := t.warp s.cur.core s.cur.slot

/-- Is this issue the last of its unit (08 R154)? A unit without REP issues once. -/
def lastRepeat (s : State) : Bool :=
  match s.cur.rep with
  | some (n, _) => n ≤ s.me.uni.repIdx + 1
  | none => true

/-- REPIDX and the incomplete sequence after the issue (08 R154). -/
def repAfter (s : State) : Nat × Option RepSeq :=
  match s.cur.rep with
  | some (n, _) => if s.me.uni.repIdx + 1 < n then (s.me.uni.repIdx + 1, some ⟨s.cur.pc, s.cur.lanes⟩) else (0, none)
  | none => (s.me.uni.repIdx, s.me.uni.rep)

/-- The same where the lanes stay for a repeat that waits for its home. -/
def repNext (s : State) (moves : Bool) : Nat × Option RepSeq :=
  if moves || s.cur.rep.isNone then s.repAfter else (s.me.uni.repIdx, some ⟨s.cur.pc, s.cur.lanes⟩)

/-- The stall-count wait after the issue (08 R149): of a pair the longer one (02 R25). -/
def waitAfter (s : State) (sc : BitVec 2) : Nat × Bool :=
  let n := s.now + (if sc = 1#2 then 2 else if sc = 2#2 then 4 else 1)
  if s.cur.second then (max s.me.sched.stallUntil n, s.me.sched.stallAll || sc = 3#2) else (n, sc = 3#2)

/-- A result of the lanes of Active that lands at the end of the cycle `lat` − 1 after the issue (08 R150). -/
def result (s : State) (lat : Nat) (file : RegFile) (d : Nat) (f : Nat → Word) : Pend :=
  { file := file, num := d, vals := (lanesOf s.cur.lanes).map fun l => (l, f l), lands := s.now + lat - 1 }
/-- A uniform result. -/
def uniResult (s : State) (file : RegFile) (d : Nat) (x : Word) : Pend :=
  { file := file, num := d, vals := [(0, x)], lands := s.now + 1 }

/-- The state after a unit of the quad is held for some cycles (09 R169). -/
def unitHeld (s : State) : Option (IssueUnit × Nat) → State
  | some (u, n) => s.holdUnit u n
  | none => s

/-- Nothing but the issuing warp has changed, and the marks of its dirty register blocks (14 R303): no other
register, special register, accumulator or counter of the device, and no byte of memory. `hold` is the unit of the
quad that the instruction holds, and for how many cycles (09 R169). -/
structure OnlyWarp (s : State) (hold : Option (IssueUnit × Nat)) (t : State) : Prop where
  device : t = { s with cores := t.cores }
  otherCores : ∀ c, c ≠ s.cur.core → t.core c = s.core c
  core : t.core s.cur.core =
    { s.core s.cur.core with
      cc := (t.core s.cur.core).cc, fw := (t.core s.cur.core).fw
      unitFree := match hold with
        | some (u, n) => (s.core s.cur.core).unitFree.set (8 * quadOf s.cur.slot + unitIdx u) (s.now + n)
        | none => (s.core s.cur.core).unitFree }
  context : t.cc s.cur.core =
    { s.cc s.cur.core with warps := (t.cc s.cur.core).warps, dirtyBlocks := (t.cc s.cur.core).dirtyBlocks }
  otherWarps : ∀ k, k ≠ s.cur.slot → t.warp s.cur.core k = s.warp s.cur.core k
  memory : ∀ a, memGet t.mem a = memGet s.mem a

/-- What an instruction that writes registers with fixed latency does to its warp: the results are pending;
the lanes of Active move past the unit with its last issue, or stay for the next repeat; the stall count
holds. Nothing else of the warp changes, and nothing outside it. `nb` is the cycle from which the group may
issue again, where a condition of MODE makes it wait (20 R363). -/
structure Issued (s : State) (sc : BitVec 2) (hold : Option (IssueUnit × Nat)) (nb : Option Nat) (rs : List Pend)
    (t : State) : Prop where
  warp : s.meIn t = { s.me with
    lanes := (s.meIn t).lanes
    pend := s.me.pend ++ rs
    uni := { s.me.uni with repIdx := s.repAfter.1, rep := s.repAfter.2 }
    sched := { s.me.sched with stallUntil := (s.waitAfter sc).1, stallAll := (s.waitAfter sc).2 } }
  active : ∀ l, l < 32 → s.cur.lanes.getLsbD l = true → (s.meIn t).lane l = { s.me.lane l with
    pc := if s.lastRepeat then s.fallThrough else (s.me.lane l).pc
    notBefore := nb.getD (s.me.lane l).notBefore }
  otherLanes : ∀ l, s.cur.lanes.getLsbD l = false → (s.meIn t).lane l = s.me.lane l
  dirty : ∀ b, b ∈ (t.cc s.cur.core).dirtyBlocks ↔ b ∈ (s.cc s.cur.core).dirtyBlocks ∨
    ∃ p ∈ rs, p.file = .lane ∧ p.num < 112 ∧ b = 8 * s.cur.slot + p.num / 16
  frame : s.OnlyWarp hold t

/-- The instruction completes with these results, wherever it runs. -/
def Gives (s : State) (i : Instr) (sc : BitVec 2) (rs : List Pend) (hold : Option (IssueUnit × Nat) := none) : Prop :=
  s.Runs i → ∃ t, exec i s = .next t ∧ s.Issued sc hold none rs t

/-- The PC of lane l where the lanes go as `pc` says. -/
def laneGoes (pc : Option (Nat → Word)) (l : Nat) (old : Word) : Word :=
  match pc with
  | some f => f l
  | none => old

/-- What completing an instruction adds to its own effect `e` (08 R141, R149, R154): with the last issue of its unit
the lanes of Active go where `pc` says (where it says nothing, they stay as the effect left them); the stall
count holds; nothing else changes, of the warp and outside it. -/
structure After (e : State) (sc : BitVec 2) (pc : Option (Nat → Word)) (t : State) : Prop where
  device : t = { e with cores := t.cores }
  otherCores : ∀ c, c ≠ e.cur.core → t.core c = e.core c
  core : t.core e.cur.core = { e.core e.cur.core with cc := (t.core e.cur.core).cc, fw := (t.core e.cur.core).fw }
  context : t.cc e.cur.core = { e.cc e.cur.core with warps := (t.cc e.cur.core).warps }
  otherWarps : ∀ k, k ≠ e.cur.slot → t.warp e.cur.core k = e.warp e.cur.core k
  warp : e.meIn t = { e.me with
    lanes := (e.meIn t).lanes
    uni := { e.me.uni with repIdx := (e.repNext pc.isSome).1, rep := (e.repNext pc.isSome).2 }
    sched := { e.me.sched with stallUntil := (e.waitAfter sc).1, stallAll := (e.waitAfter sc).2 } }
  active : ∀ l, l < 32 → e.cur.lanes.getLsbD l = true → (e.meIn t).lane l = { e.me.lane l with
    pc := if e.lastRepeat then laneGoes pc l (e.me.lane l).pc else (e.me.lane l).pc }
  otherLanes : ∀ l, e.cur.lanes.getLsbD l = false → (e.meIn t).lane l = e.me.lane l

/-- The instruction completes with its own effect `e`, and its lanes go where `pc` says. -/
def Does (s : State) (i : Instr) (sc : BitVec 2) (e : State) (pc : Option (Nat → Word)) : Prop :=
  s.Runs i → ∃ t, exec i s = .next t ∧ e.After sc pc t
/-- An event or an instruction gives the next state `t`. -/
def Goes (s : State) (e : Instr) (t : State) : Prop := exec e s = .next t
/-- It completes, and its lanes go to the instruction after the unit. -/
def DoesFall (s : State) (i : Instr) (sc : BitVec 2) (e : State) : Prop := s.Does i sc e (some fun _ => s.fallThrough)

/-- Results that carry FSTAT flags: they are set with the first. -/
def flagged (fl : Word) : List Pend → List Pend
  | r :: rest => { r with fstat := fl } :: rest
  | [] => []

/-- The instruction completes with results that set flags (04 R66, R68): where MODE enables no condition that a
lane of Active raises, the results are pending and FSTAT gets the flags with them; where it does, no lane
writes, FSTAT gets the flags at once, and ARITH names the lanes and their conditions. -/
def GivesFlags (s : State) (i : Instr) (sc : BitVec 2) (lat : Nat) (rs : List Pend) (fl : Nat → Word)
    (hold : Option (IssueUnit × Nat) := none) : Prop :=
  s.Runs i →
  let all := (lanesOf s.cur.lanes).foldl (fun a l => a ||| fl l) 0
  let raised := (lanesOf s.cur.lanes).filter fun l => fl l &&& s.enables != 0#32
  (raised = [] → ∃ t, exec i s = .next t ∧
    s.Issued sc hold (if s.enables = 0#32 then none else some (s.now + lat))
      (flagged all rs) t) ∧
  (raised ≠ [] → ∃ g : Mask, (∀ l, l < 32 → (g.getLsbD l = true ↔ l ∈ raised)) ∧
    exec i s = .next (((s.unitHeld hold).updMe fun w => w.updUni fun u => { u with fstat := u.fstat ||| all }).syncTrap
      { group := 4, code := (all &&& s.enables).toNat, async := false, lv := true, lane := raised.headD 0,
        t1 := g, t2 := s.cur.word, epc := s.cur.pc }))

/-- A warp has entered its trap handler (20 R364, R371): it waits until every pending result is written, the trap registers
hold the cause, the lanes of the group are at TVEC, and the others are held where they are. Nothing outside the warp changes. -/
structure Trapped (s : State) (c k : Nat) (g : Mask) (t : TrapInfo) (u : State) : Prop where
  device : u = { s with cores := u.cores }
  otherCores : ∀ j, j ≠ c → u.core j = s.core j
  core : u.core c = { s.core c with cc := (u.core c).cc, fw := (u.core c).fw }
  context : u.cc c = { s.cc c with warps := (u.cc c).warps }
  otherWarps : ∀ j, j ≠ k → u.warp c j = s.warp c j
  warp : let w := s.warp c k
    u.warp c k = { w with
      lanes := (u.warp c k).lanes
      trap := { w.trap with
        tdet0 := tdet0 t w.trap.async.length, tdet1 := t.t1, tdet2 := t.t2, epc := t.epc, tmask := g, inHandler := true }
      sched := { w.sched with
        stallUntil := max w.sched.stallUntil (max ((s.core c).cyc + 4) (w.lastLanding + 1)), stallAll := true } }
  group : ∀ l, l < 32 → g.getLsbD l = true → (u.warp c k).lane l =
    { (s.warp c k).lane l with pc := (s.warp c k).trap.tvec, notBefore := 0 }
  otherLanes : ∀ l, g.getLsbD l = false → (u.warp c k).lane l = (s.warp c k).lane l

end State

end Sys2Proof.Machine
end

