-- ==== Sys2Proof/Certificates/Slice0/Obligations.lean ====
section
/-! DEFINITION. The statements for the provers, each with the rules of spec/ that it formalises. -/

open Sys2Proof Sys2Proof.Machine

/-! ## Lane words that write registers (09) -/

/-- R172, R173: the integer words, each result in each lane of Active, landing after 2 cycles (08 R150); ICMP and ICMPI
write a predicate. -/
def Obligations.IntegerResults : Prop :=
  ∀ (s : State) (sc : BitVec 2) (d a b i : BitVec 7) (p : BitVec 3) (c : BitVec 4) (j : BitVec 14),
    let A := s.val a.toNat
    let B := s.val b.toNat
    let D := s.val d.toNat
    let r := s.result 2 .lane d.toNat
    s.Gives (.iadd sc d a b) sc [r fun l => A l + B l] ∧
    s.Gives (.isub sc d a b) sc [r fun l => A l - B l] ∧
    s.Gives (.imul sc d a b) sc [r fun l => A l * B l] ∧
    s.Gives (.imulhI32 sc d a b) sc [r fun l => ((A l).signExtend 64 * (B l).signExtend 64).extractLsb' 32 32] ∧
    s.Gives (.imulhN32 sc d a b) sc [r fun l => ((A l).setWidth 64 * (B l).setWidth 64).extractLsb' 32 32] ∧
    s.Gives (.imad sc d a b) sc [r fun l => A l * B l + D l] ∧
    s.Gives (.iminI32 sc d a b) sc [r fun l => if (A l).toInt < (B l).toInt then A l else B l] ∧
    s.Gives (.iminN32 sc d a b) sc [r fun l => if (A l).toNat < (B l).toNat then A l else B l] ∧
    s.Gives (.imaxI32 sc d a b) sc [r fun l => if (A l).toInt < (B l).toInt then B l else A l] ∧
    s.Gives (.imaxN32 sc d a b) sc [r fun l => if (A l).toNat < (B l).toNat then B l else A l] ∧
    s.Gives (.iabs sc d a) sc [r fun l => BitVec.ofNat 32 (A l).toInt.natAbs] ∧
    s.Gives (.ineg sc d a) sc [r fun l => 0#32 - A l] ∧
    s.Gives (.iaddi sc d a i) sc [r fun l => A l + i.signExtend 32] ∧
    s.Gives (.imuli sc d a i) sc [r fun l => A l * i.signExtend 32] ∧
    s.Gives (.mov sc d a) sc [r A] ∧
    s.Gives (.movi sc d j) sc [r fun _ => j.signExtend 32] ∧
    s.Gives (.sel sc p d a b) sc [r fun l => if s.me.p p.toNat l then A l else B l] ∧
    (c.toNat ≤ 10 → ∃ f : Word → Word → Bool, (∀ x y, f x y = true ↔ CondHolds c x y) ∧
      s.Gives (.icmp sc c p a b) sc [s.result 2 .pred p.toNat fun l => if f (A l) (B l) then 1 else 0] ∧
      s.Gives (.icmpi sc c p a i) sc [s.result 2 .pred p.toNat fun l => if f (A l) (i.signExtend 32) then 1 else 0])

/-- R174: the bitwise words. -/
def Obligations.LogicResults : Prop :=
  ∀ (s : State) (sc : BitVec 2) (d a b i : BitVec 7),
    let A := s.val a.toNat
    let B := s.val b.toNat
    let r := s.result 2 .lane d.toNat
    s.Gives (.and sc d a b) sc [r fun l => A l &&& B l] ∧
    s.Gives (.or sc d a b) sc [r fun l => A l ||| B l] ∧
    s.Gives (.xor sc d a b) sc [r fun l => A l ^^^ B l] ∧
    s.Gives (.andn sc d a b) sc [r fun l => A l &&& ~~~(B l)] ∧
    s.Gives (.not sc d a) sc [r fun l => ~~~(A l)] ∧
    s.Gives (.andi sc d a i) sc [r fun l => A l &&& i.setWidth 32] ∧
    s.Gives (.ori sc d a i) sc [r fun l => A l ||| i.setWidth 32] ∧
    s.Gives (.xori sc d a i) sc [r fun l => A l ^^^ i.setWidth 32]

/-- R174: shifts by 0 to 255 and rotates; the counts of bits, said by the bits of the operand. -/
def Obligations.ShiftAndCountResults : Prop :=
  ∀ (s : State) (sc : BitVec 2) (d a b i : BitVec 7),
    let A := s.val a.toNat
    let n (l : Nat) : Nat := (s.val b.toNat l).toNat % 256
    let r := s.result 2 .lane d.toNat
    s.Gives (.shl sc d a b) sc [r fun l => BitVec.ofNat 32 ((A l).toNat * 2 ^ n l)] ∧
    s.Gives (.shr sc d a b) sc [r fun l => BitVec.ofNat 32 ((A l).toNat / 2 ^ n l)] ∧
    s.Gives (.sar sc d a b) sc [r fun l => BitVec.ofInt 32 ((A l).toInt / 2 ^ min (n l) 31)] ∧
    s.Gives (.rol sc d a b) sc [r fun l => (A l).rotateLeft ((s.val b.toNat l).toNat % 32)] ∧
    s.Gives (.shli sc d a i) sc [r fun l => BitVec.ofNat 32 ((A l).toNat * 2 ^ i.toNat)] ∧
    s.Gives (.shri sc d a i) sc [r fun l => BitVec.ofNat 32 ((A l).toNat / 2 ^ i.toNat)] ∧
    s.Gives (.sari sc d a i) sc [r fun l => BitVec.ofInt 32 ((A l).toInt / 2 ^ min i.toNat 31)] ∧
    s.Gives (.popc sc d a) sc [r fun l => BitVec.ofNat 32 ((List.range 32).countP fun k => (A l).getLsbD k)] ∧
    (∃ z : Word → Nat, (∀ x, z x ≤ 32 ∧ (∀ k < z x, x.getLsbD (31 - k) = false) ∧
        (z x < 32 → x.getLsbD (31 - z x) = true)) ∧
      s.Gives (.clz sc d a) sc [r fun l => BitVec.ofNat 32 (z (A l))]) ∧
    (∃ z : Word → Nat, (∀ x, z x ≤ 32 ∧ (∀ k < z x, x.getLsbD k = false) ∧ (z x < 32 → x.getLsbD (z x) = true)) ∧
      s.Gives (.ctz sc d a) sc [r fun l => BitVec.ofNat 32 (z (A l))])

/-- R175, and BREV of R174: each bit of the result. -/
def Obligations.BitFieldResults : Prop :=
  ∀ (s : State) (sc : BitVec 2) (d a b : BitVec 7),
    let A := s.val a.toNat
    let B := s.val b.toNat
    let D := s.val d.toNat
    let r := s.result 2 .lane d.toNat
    let pos (x : Word) : Nat := x.toNat % 32
    let w (x : Word) : Nat := min (x.toNat / 256 % 64) (32 - pos x)
    (∃ f : Word → Word, (∀ x k, k < 32 → (f x).getLsbD k = x.getLsbD (31 - k)) ∧
      s.Gives (.brev sc d a) sc [r fun l => f (A l)]) ∧
    (∃ f : Word → Word → Word, (∀ x y k, (f x y).getLsbD k = (decide (k < w y) && x.getLsbD (pos y + k))) ∧
      s.Gives (.bfeN32 sc d a b) sc [r fun l => f (A l) (B l)]) ∧
    (∃ f : Word → Word → Word, (∀ x y k, k < 32 →
        (f x y).getLsbD k = (decide (0 < w y) && x.getLsbD (pos y + min k (w y - 1)))) ∧
      s.Gives (.bfeI32 sc d a b) sc [r fun l => f (A l) (B l)]) ∧
    (∃ f : Word → Word → Word → Word, (∀ x y z k, k < 32 →
        (f x y z).getLsbD k = if pos y ≤ k ∧ k < pos y + w y then x.getLsbD (k - pos y) else z.getLsbD k) ∧
      s.Gives (.bfi sc d a b) sc [r fun l => f (A l) (B l) (D l)])

/-- R176 to R180: the FP32 and packed words that set no flag. -/
def Obligations.FloatSelectResults : Prop :=
  ∀ (s : State) (sc : BitVec 2) (f : BitVec 1) (c : BitVec 4) (p : BitVec 3) (d a b : BitVec 7),
    let A := s.val a.toNat
    let B := s.val b.toNat
    let r := s.result 4 .lane d.toNat
    let fmt : Fmt := if f = 0#1 then .bf16 else .f16
    let lo (x : Word) : Nat := x.toNat % 2 ^ 16
    let hi (x : Word) : Nat := x.toNat / 2 ^ 16
    s.Gives (.fmin sc d a b) sc [r fun l => BitVec.ofNat 32 (fMinMax .f32 s.sub false (A l).toNat (B l).toNat)] ∧
    s.Gives (.fmax sc d a b) sc [r fun l => BitVec.ofNat 32 (fMinMax .f32 s.sub true (A l).toNat (B l).toNat)] ∧
    s.Gives (.fabs sc d a) sc [r fun l => A l &&& 0x7FFFFFFF#32] ∧
    s.Gives (.fneg sc d a) sc [r fun l => A l ^^^ 0x80000000#32] ∧
    s.Gives (.fcmp sc c p a b) sc [s.result 4 .pred p.toNat fun l =>
      if fCond c.toNat s.sub (A l).toNat (B l).toNat then 1 else 0] ∧
    s.Gives (.fclass sc d a) sc [r fun l => 1#32 <<< fClass (A l).toNat] ∧
    s.Gives (.fcpys sc d a b) sc [r fun l => (A l &&& 0x7FFFFFFF#32) ||| (B l &&& 0x80000000#32)] ∧
    s.Gives (.frnd sc d a) sc [r fun l => BitVec.ofNat 32 (fRnd s.rm s.sub (A l).toNat)] ∧
    s.Gives (.hmin2 sc f d a b) sc [r fun l => BitVec.ofNat 32 (fMinMax fmt s.sub false (lo (A l)) (lo (B l)) +
      2 ^ 16 * fMinMax fmt s.sub false (hi (A l)) (hi (B l)))] ∧
    s.Gives (.hmax2 sc f d a b) sc [r fun l => BitVec.ofNat 32 (fMinMax fmt s.sub true (lo (A l)) (lo (B l)) +
      2 ^ 16 * fMinMax fmt s.sub true (hi (A l)) (hi (B l)))]

/-- R176, R180, R183, R186 with R66, R68 and R171: the words that round, with their flags and ARITH. -/
def Obligations.FloatRoundResults : Prop :=
  ∀ (s : State) (sc t : BitVec 2) (f : BitVec 1) (d a b : BitVec 7),
    let A (l : Nat) : Nat := (s.val a.toNat l).toNat
    let B (l : Nat) : Nat := (s.val b.toNat l).toNat
    let D (l : Nat) : Nat := (s.val d.toNat l).toNat
    let fmt : Fmt := if f = 0#1 then .bf16 else .f16
    let lo (x : Nat) : Nat := x % 2 ^ 16
    let hi (x : Nat) : Nat := x / 2 ^ 16
    let one (i : Instr) (g : Nat → Nat × Word) : Prop :=
      s.GivesFlags i sc 4 [s.result 4 .lane d.toNat fun l => BitVec.ofNat 32 (g l).1] fun l => (g l).2
    let two (i : Instr) (g : Nat → (Nat → Nat) → Nat × Word) : Prop :=
      s.GivesFlags i sc 4 [s.result 4 .lane d.toNat fun l => BitVec.ofNat 32 ((g l lo).1 + (g l hi).1 * 2 ^ 16)]
        fun l => (g l lo).2 ||| (g l hi).2
    one (.fadd sc d a b) (fun l => fAdd .f32 s.rm s.sub (A l) (B l)) ∧
    one (.fsub sc d a b) (fun l => fSub .f32 s.rm s.sub (A l) (B l)) ∧
    one (.fmul sc d a b) (fun l => fMul .f32 s.rm s.sub (A l) (B l)) ∧
    one (.ffma sc d a b) (fun l => fFma .f32 s.rm s.sub (A l) (B l) (D l)) ∧
    two (.hadd2 sc f d a b) (fun l e => fAdd fmt s.rm s.sub (e (A l)) (e (B l))) ∧
    two (.hsub2 sc f d a b) (fun l e => fSub fmt s.rm s.sub (e (A l)) (e (B l))) ∧
    two (.hmul2 sc f d a b) (fun l e => fMul fmt s.rm s.sub (e (A l)) (e (B l))) ∧
    two (.hfma2 sc f d a b) (fun l e => fFma fmt s.rm s.sub (e (A l)) (e (B l)) (e (D l))) ∧
    one (.hdot2 sc f d a b) (fun l => sumRound .f32 s.rm s.sub
      [(operand fmt s.sub (lo (A l))).mul (operand fmt s.sub (lo (B l))),
       (operand fmt s.sub (hi (A l))).mul (operand fmt s.sub (hi (B l))), some (operand .f32 s.sub (D l))]) ∧
    one (.dqnt sc d a b) (fun l => dqnt (B l / 256) (A l % 16)) ∧
    one (.cvtp sc t d a b) (fun l =>
      let n (g : Fmt) (x : Nat) : Nat × Word := narrow g s.sub x
      if t = 0#2 ∨ t = 1#2 then
        let g : Fmt := if t = 0#2 then .bf16 else .f16
        ((n g (B l)).1 * 2 ^ 16 + (n g (A l)).1, (n g (A l)).2 ||| (n g (B l)).2)
      else
        let g : Fmt := if t = 2#2 then .e4m3 else .e5m2
        ((n g (B l)).1 * 2 ^ 24 + (n g (A l)).1 * 2 ^ 16 + D l / 2 ^ 16, (n g (A l)).2 ||| (n g (B l)).2))

/-- R181, R182, R184: CVT in both directions, and CVTX with its residual. -/
def Obligations.ConversionResults : Prop :=
  ∀ (s : State) (sc n : BitVec 2) (d a : BitVec 7) (r : BitVec 1) (t : BitVec 4),
    let A := s.val a.toNat
    let wide : Prop := t = 14#4 ∨ t = 15#4
    let x (l : Nat) := cvtxLane t.toNat s.rm s.sub (A l) (s.val (d.toNat + 1) l)
    (r = 1#1 → ∀ i, i = Instr.cvt sc d a r n t →
      let g (l : Nat) := cvtIn t.toNat n.toNat s.sub (if 14 ≤ t.toNat then s.val64 a.toNat l else (A l).setWidth 64)
      s.GivesFlags i sc 4 [s.result 4 .lane d.toNat fun l => BitVec.ofNat 32 (g l).1] fun l => (g l).2) ∧
    (r = 0#1 → ∀ i, i = Instr.cvt sc d a r n t →
      let g (l : Nat) := narrowTo t.toNat s.rm s.sub (A l).toNat
      (¬ wide → s.GivesFlags i sc 4 [s.result 4 .lane d.toNat fun l => lo32 (g l).1] fun l => (g l).2) ∧
      (wide → s.GivesFlags i sc 4 [s.result 4 .lane d.toNat (fun l => lo32 (g l).1),
        s.result 4 .lane (d.toNat + 1) fun l => hi32 (g l).1] fun l => (g l).2)) ∧
    s.GivesFlags (.cvtx sc d a r n t) sc 4 [s.result 4 .lane d.toNat (fun l => (x l).1),
      s.result 4 .lane (d.toNat + 1) fun l => (x l).2.1] fun l => (x l).2.2

/-- R187, R188 with R169: the special functions hold the SFU and deliver a fixed function of the operand's bits, which of
a finite input that is no special case lies within its bound and range, or is the function's value rounded to nearest.
It rests on the model's choices of note 34. -/
def Obligations.SpecialFunctionResults : Prop :=
  ∀ (s : State) (sc : BitVec 2) (d a : BitVec 7) (i : Instr) (op : Nat),
    (i, op) ∈ [(Instr.frcp sc d a, 0), (.frsq sc d a, 1), (.fsqrt sc d a, 2), (.fexp2 sc d a, 3), (.flog2 sc d a, 4),
      (.fsin sc d a, 5), (.fcos sc d a, 6), (.ftanh sc d a, 7), (.ferf sc d a, 8), (.fsigm sc d a, 9)] →
    let g (l : Nat) := sfuLane op s.sub (s.val a.toNat l)
    s.GivesFlags i sc 12 [s.result 12 .lane d.toNat fun l => BitVec.ofNat 32 (g l).1] (fun l => (g l).2)
      (some (.sfu, max 1 (((lanesOf s.cur.lanes).length + 7) / 8))) ∧
    ∀ (x : Word) (v : Exact), sfuSpecial op x.toNat = none → unpack .f32 x.toNat = .fin v →
      let r := sfuExact op v
      let y := (sfuLane op false x).1
      sfuWithin op v r y = true ∨ y = (roundTo .f32 0 false ⟨r < 0, r.natAbs, -400⟩).1

/-- R189, R191, R192: SHFL, VOTE, BALLOT and MATCH combine the lanes of Active of one aligned group. -/
def Obligations.CrossLaneResults : Prop :=
  ∀ (s : State) (sc gw : BitVec 2) (d a b : BitVec 7), gw ≠ 3#2 →
    let g : Nat := 8 * 2 ^ gw.toNat
    let A := s.val a.toNat
    let active (j : Nat) : Prop := s.cur.lanes.getLsbD j = true
    let S (l : Nat) : List Nat := (lanesOf s.cur.lanes).filter fun j => j / g = l / g
    let word (l : Nat) : Nat := (s.val b.toNat ((S l).headD l)).toNat
    let sum (l : Nat) (t : Nat → Bool) : Word := BitVec.ofNat 32 (((S l).filter t).map fun j => 2 ^ (j - g * (l / g))).sum
    let r := s.result 6 .lane d.toNat
    ((∀ l < 32, active l → let c := (s.val b.toNat l).toNat
        c / 2 ^ 13 = 0 ∧ c / 2 ^ 10 % 4 = 0 ∧ c / 2 ^ 5 % 8 = 0 ∧ (c / 2 ^ 12 % 2 = 1 → c / 2 ^ 8 % 4 = 1 ∨ c / 2 ^ 8 % 4 = 2)) →
      s.Gives (.shfl sc gw d a b) sc [r fun l =>
        let c := (s.val b.toNat l).toNat
        let n : Int := (c % 32 : Nat)
        let k := c / 2 ^ 8 % 4
        let w := c / 2 ^ 12 % 2
        let lo : Int := (g * (l / g) : Nat)
        let p : Int := (l % g : Nat)
        let j : Int := if k = 0 then lo + n % g else if k = 1 then (if w = 0 then l - n else lo + (p - n) % g)
          else if k = 2 then (if w = 0 then l + n else lo + (p + n) % g) else lo + ((l % g ^^^ c % 32 % g : Nat) : Int)
        if lo ≤ j ∧ j < lo + g ∧ s.cur.lanes.getLsbD j.toNat then A j.toNat else A l]) ∧
    ((∀ l < 32, active l → (s.val b.toNat l).toNat ≤ 2) →
      s.Gives (.vote sc gw d a b) sc [r fun l =>
        if (word l = 0 ∧ ∃ j ∈ S l, A j ≠ 0#32) ∨ (word l = 1 ∧ ∀ j ∈ S l, A j ≠ 0#32) ∨
          (word l = 2 ∧ ∀ j ∈ S l, A j = A l) then 1 else 0]) ∧
    ((∀ l < 32, active l → s.val b.toNat l = 0#32) →
      s.Gives (.ballot sc gw d a b) sc [r fun l => sum l fun j => A j != 0#32]) ∧
    ((∀ l < 32, active l → s.val b.toNat l = 0#32) →
      s.Gives (.matchLanes sc gw d a b) sc [r fun l => sum l fun j => A j = A l]) ∧
    ((∀ l < 32, active l → s.val b.toNat l = 1#32) → s.cur.lanes ≠ 0#32 → a.toNat % 2 = 0 → a.toNat + 1 < 112 →
      (∀ v ∈ s.me.var, ¬ (v.file = .lane ∧ v.num = a.toNat + 1)) →
      (∀ p ∈ s.me.pend, ¬ (p.file = .lane ∧ p.num = a.toNat + 1)) →
      s.Gives (.matchLanes sc gw d a b) sc [r fun l =>
        sum l fun j => A j = A l && s.val (a.toNat + 1) j = s.val (a.toNat + 1) l])

/-- R190, R193, R194: REDX by its tree and SCAN in lane order, each with the word of its group's lowest active lane;
with the floating-point sum they set flags. -/
def Obligations.ReduceAndScanResults : Prop :=
  ∀ (s : State) (sc gw : BitVec 2) (d a b : BitVec 7), gw ≠ 3#2 →
    let g : Nat := 8 * 2 ^ gw.toNat
    let A := s.val a.toNat
    let S (l : Nat) : List Nat := (lanesOf s.cur.lanes).filter fun j => j / g = l / g
    let word (l : Nat) : Nat := (s.val b.toNat ((S l).headD l)).toNat
    let op (l : Nat) : Word → Word → Word × Word := crossOp (word l % 16) s.rm s.sub
    let slots (l : Nat) : List (Option Word) := (List.range g).map fun k =>
      if s.cur.lanes.getLsbD (g * (l / g) + k) then some (A (g * (l / g) + k)) else none
    let red (l : Nat) : Word × Word := treeReduce (op l) (3 + gw.toNat) (slots l)
    let before (l : Nat) : Option Word := match (S l).filter fun j => j < l with
      | [] => none
      | x :: xs => some (xs.foldl (fun u j => (op l u (A j)).1) (A x))
    let incl (l : Nat) : Word × Word := match before l with
      | none => (A l, 0)
      | some u => op l u (A l)
    let scan (l : Nat) : Word × Word :=
      (if 16 ≤ word l then (before l).getD (crossIdentity (word l % 16)) else (incl l).1, (incl l).2)
    ((∀ l < 32, s.cur.lanes.getLsbD l = true → (s.val b.toNat l).toNat ≤ 10) →
      ((∀ l < 32, s.cur.lanes.getLsbD l = true → word l ≠ 8) →
        s.Gives (.redx sc gw d a b) sc [s.result 6 .lane d.toNat fun l => (red l).1]) ∧
      ((∃ l < 32, s.cur.lanes.getLsbD l = true ∧ word l = 8) →
        s.GivesFlags (.redx sc gw d a b) sc 6 [s.result 6 .lane d.toNat fun l => (red l).1] fun l => (red l).2)) ∧
    ((∀ l < 32, s.cur.lanes.getLsbD l = true → (s.val b.toNat l).toNat < 32 ∧ (s.val b.toNat l).toNat % 16 ≤ 10) →
      ((∀ l < 32, s.cur.lanes.getLsbD l = true → word l % 16 ≠ 8) →
        s.Gives (.scan sc gw d a b) sc [s.result 6 .lane d.toNat fun l => (scan l).1]) ∧
      ((∃ l < 32, s.cur.lanes.getLsbD l = true ∧ word l % 16 = 8) →
        s.GivesFlags (.scan sc gw d a b) sc 6 [s.result 6 .lane d.toNat fun l => (scan l).1] fun l => (scan l).2))

/-- R190: a control word of some lane of Active that is not one of the instruction's raises ENCODING, reason 9, and
the instruction has no effect. -/
def Obligations.ControlWordTraps : Prop :=
  ∀ (s : State) (sc gw : BitVec 2) (d a b : BitVec 7) (i : Instr) (ok : Word → Bool),
    (i, ok) ∈ [(Instr.shfl sc gw d a b, shflWord), (.vote sc gw d a b, voteWord), (.ballot sc gw d a b, ballotWord),
      (.redx sc gw d a b, redxWord), (.scan sc gw d a b, scanWord), (.matchLanes sc gw d a b, matchWord)] →
    s.Runs i → (∃ l < 32, s.cur.lanes.getLsbD l = true ∧ ok (s.val b.toNat l) = false) →
    ∃ l, l < 32 ∧ s.cur.lanes.getLsbD l = true ∧ ok (s.val b.toNat l) = false ∧
      exec i s = .next (s.syncTrap
        { group := 1, code := 9 * 256 + s.cur.pos, async := false, lv := false, lane := 0,
          t1 := s.cur.word, t2 := s.val b.toNat l, epc := s.cur.pc })

/-- R185 with 04 R64: each lane of Active gets its block's scale and its own code, QSTAT the block's flags, and the
cross-lane unit is held for 4 cycles. -/
def Obligations.QuantiseResults : Prop :=
  ∀ (s : State) (sc w y : BitVec 2) (d a : BitVec 7), w ≠ 3#2 →
    let g : Nat := 8 * 2 ^ w.toNat
    let S (l : Nat) : List Nat := (lanesOf s.cur.lanes).filter fun j => j / g = l / g
    let blk (l : Nat) := qntBlock y.toNat ((S l).map fun j => (s.val a.toNat j).toNat)
    s.Gives (.qnt sc d a w y) sc [{ s.result 6 .lane d.toNat (fun l =>
        BitVec.ofNat 32 ((blk l).2.1 * 2 ^ 8 + (blk l).1.getD ((S l).idxOf l) 0)) with
        qstat := (lanesOf s.cur.lanes).foldl (fun q l => q ||| (blk l).2.2) 0 }] (some (.cross, 4))

/-- 11 R223: the scalar words, each written into a uniform register or predicate that lands after 2 cycles. -/
def Obligations.UniformResults : Prop :=
  ∀ (s : State) (sc p : BitVec 2) (d a b : BitVec 6) (g : BitVec 1) (i : BitVec 16) (c : BitVec 4),
    let A := s.us a
    let B := s.us b
    let n := B.toNat % 256
    let r (x : Word) : List Pend := [s.uniResult .uni d.toNat x]
    s.Gives (.sadd sc d a b) sc (r (A + B)) ∧
    s.Gives (.ssub sc d a b) sc (r (A - B)) ∧
    s.Gives (.smul sc d a b) sc (r (A * B)) ∧
    s.Gives (.smulh sc d a b g) sc (r (if g = 1#1 then (A.signExtend 64 * B.signExtend 64).extractLsb' 32 32
      else (A.setWidth 64 * B.setWidth 64).extractLsb' 32 32)) ∧
    s.Gives (.sand sc d a b) sc (r (A &&& B)) ∧
    s.Gives (.sor sc d a b) sc (r (A ||| B)) ∧
    s.Gives (.sxor sc d a b) sc (r (A ^^^ B)) ∧
    s.Gives (.sshl sc d a b) sc (r (BitVec.ofNat 32 (A.toNat * 2 ^ n))) ∧
    s.Gives (.sshr sc d a b) sc (r (BitVec.ofNat 32 (A.toNat / 2 ^ n))) ∧
    s.Gives (.ssar sc d a b) sc (r (BitVec.ofInt 32 (A.toInt / 2 ^ min n 31))) ∧
    s.Gives (.smin sc d a b g) sc (r (if (g = 1#1 ∧ A.toInt < B.toInt) ∨ (g = 0#1 ∧ A.toNat < B.toNat) then A else B)) ∧
    s.Gives (.smax sc d a b g) sc (r (if (g = 1#1 ∧ A.toInt < B.toInt) ∨ (g = 0#1 ∧ A.toNat < B.toNat) then B else A)) ∧
    s.Gives (.smov sc d a) sc (r A) ∧
    s.Gives (.smovi sc d i) sc (r (i.signExtend 32)) ∧
    s.Gives (.saddi sc d i) sc (r (s.us d + i.signExtend 32)) ∧
    s.Gives (.ssel sc d a b p) sc (r (if s.me.sp p.toNat then A else B)) ∧
    s.Gives (.sadd64 sc d a b) sc [s.uniResult .uni d.toNat (lo32 (s.us64 a + s.us64 b)),
      s.uniResult .uni (d.toNat + 1) (hi32 (s.us64 a + s.us64 b))] ∧
    (c.toNat ≤ 10 → ∃ f : Word → Word → Bool, (∀ x y, f x y = true ↔ CondHolds c x y) ∧
      s.Gives (.scmp sc p a b c) sc [s.uniResult .upred p.toNat (if f A B then 1 else 0)])

/-- 03 R43, R48; 08 R150: what a result writes when it lands. A lane result writes its register in its lanes and
moves h0 into h1; one to ZERO writes no register; its flags enter FSTAT and QSTAT; nothing else of the warp
changes. -/
def Obligations.LandingWrites : Prop :=
  ∀ (w : Warp) (m : Mask) (d lands : Nat) (f : Nat → Word) (fs qs : Word),
    let p : Pend := { file := .lane, num := d, vals := (lanesOf m).map (fun l => (l, f l)), lands := lands, fstat := fs, qstat := qs }
    let t := w.land p
    (d ≤ 119 ∨ d = 122 →
      (∀ n l, l < 32 → t.v n l =
        if m.getLsbD l = true ∧ n = d ∧ d ≠ 122 then f l
        else if m.getLsbD l = true ∧ n = 120 then f l
        else if m.getLsbD l = true ∧ n = 121 then w.v 120 l
        else w.v n l)) ∧
    t = { w with lreg := t.lreg, uni := { w.uni with fstat := w.uni.fstat ||| fs, qstat := w.uni.qstat ||| qs } }

/-! ## Control (10, 11) -/

/-- 10 R209, R210, R212, R216; 11 R226: where the branches send each lane of Active, and that nothing but the warp's
lanes and its stall count changes. P is the unit's PC, and offsets count words. -/
def Obligations.BranchResults : Prop :=
  ∀ (s : State) (sc p2 : BitVec 2) (n : BitVec 1) (p : BitVec 3) (a : BitVec 7) (i : BitVec 14) (j : BitVec 16) (o : BitVec 22),
    let P := s.cur.pc
    let next : Word := P + BitVec.ofNat 32 (4 * (s.cur.pos + 1))
    let rel (x : Int) : Word := P + BitVec.ofInt 32 (4 * x)
    let goes (i : Instr) (f : Nat → Word) : Prop := s.Does i sc s (some f)
    goes (.nop sc) (fun _ => next) ∧
    goes (.bra sc i) (fun _ => rel i.toInt) ∧
    goes (.brp sc 0#1 p i) (fun l => if s.me.p p.toNat l then rel i.toInt else next) ∧
    goes (.brp sc 1#1 p i) (fun l => if s.me.p p.toNat l then next else rel i.toInt) ∧
    goes (.sbra sc o) (fun _ => rel o.toInt) ∧
    goes (.sbrp sc n p2 j) (fun _ => if (s.me.uni.sp.getLsbD p2.toNat = true) = (n = 0#1) then rel j.toInt else next) ∧
    ((∀ l < 32, s.cur.lanes.getLsbD l = true → (s.val a.toNat l).toNat % 4 = 0) →
      goes (.jmpi sc a) (s.val a.toNat))

/-- 10 R209: a misaligned register target in some lane of Active raises ACCESS (reason 9, fetch) for CALLI and JMPI and
SPAWN's own trap for SPAWN; nothing is placed, no lane jumps, and the trap names the lowest such lane. -/
def Obligations.TargetTraps : Prop :=
  ∀ (s : State) (sc : BitVec 2) (a b : BitVec 7) (l : Nat), l < 32 → s.cur.lanes.getLsbD l = true →
    (s.val a.toNat l).toNat % 4 ≠ 0 →
    (∀ k < l, s.cur.lanes.getLsbD k = true → (s.val a.toNat k).toNat % 4 = 0) →
    (∀ i ∈ [Instr.calli sc a, .jmpi sc a], s.Runs i → exec i s = .next (s.syncTrap (s.targetTrap a l))) ∧
    (s.Runs (.spawn sc a b) → ∃ m : Mask,
      (∀ k < 32, m.getLsbD k = true ↔ s.cur.lanes.getLsbD k = true ∧ (s.val a.toNat k).toNat % 4 ≠ 0) ∧
      exec (.spawn sc a b) s = .next (s.syncTrap
        { group := 0x13, code := 0x1000, async := false, lv := true, lane := l, t1 := m, t2 := s.val a.toNat l,
          epc := s.cur.pc }))

/-- 03 R45; 10 R211; 11 R226: a call pushes the fall-through in each lane of Active and jumps. A lane whose 4 entries
are used first spills them as one unit: its stack then holds the new address alone, its spill count is one more,
and the unit is written, in the order of the lanes, to its place in memory, with the oldest entry lowest (21 R388: where
that place is lost with its link, a LINK trap becomes pending instead of the write). A spill waits for the warp's earlier
accesses (06 R101). -/
def Obligations.CallResults : Prop :=
  ∀ (s : State) (sc : BitVec 2) (a : BitVec 7) (o : BitVec 22) (j : BitVec 14) (xs : List (Nat × Nat × Checked))
    (i : Instr) (target : Nat → Word),
    let A := lanesOf s.cur.lanes
    let full := A.filter fun l => 4 ≤ (s.me.lane l).stack.length
    let addr (l : Nat) : DWord := s.me.uni.csbase + BitVec.ofNat 64 ((s.me.lane l).spill * 512 + l * 16)
    let unit (l : Nat) : List Byte := ((s.me.lane l).stack.take 4).reverse.flatMap fun x => leBytes 4 x.toNat
    let e : State := xs.foldl (fun (e : State) x =>
      if e.spaceLost e.myDie x.2.2.pa then e.pendAsync e.cur.core e.cur.slot (State.linkTrap 6 (peerOf x.2.2.pa) (addr x.1))
      else e.coreWrite e.cur.core e.myCtx x.2.2.pa x.2.2.kid x.2.2.cache (unit x.1)) (s.noteWalks (full.map addr))
    (i, target) ∈ [(Instr.call sc j, fun _ => s.laneTarget j), (.calli sc a, s.val a.toNat),
      (.scall sc o, fun _ => State.relTarget s.cur.pc o.toInt)] →
    (i = .calli sc a → ∀ l ∈ A, (s.val a.toNat l).toNat % 4 = 0) →
    (∀ l ∈ full, (s.me.lane l).spill < s.me.uni.cslim.toNat) →
    s.spillChecks kSpill true (full.map fun l => (l, (s.me.lane l).spill)) = .ok xs →
    s.spillHold true xs = none →
    (full ≠ [] → s.warpBusy s.cur.core s.cur.slot = true → s.Runs i → exec i s = .next s.putOff) ∧
    ((full = [] ∨ s.warpBusy s.cur.core s.cur.slot = false) →
    (∀ l ∈ full, s.coreWalkHold s.cur.core s.myCtx (addr l) = none) →
    e.cur = s.cur ∧ (∀ l < 32, e.me.lane l = s.me.lane l) ∧ (full = [] → e = s) ∧
    s.Does i sc (e.updMe fun w => w.updLanes s.cur.lanes fun l x =>
      if l ∈ full then { x with stack := [s.fallThrough], spill := x.spill + 1 }
      else { x with stack := s.fallThrough :: x.stack }) (some target))

/-- 03 R45; 10 R211; 20 R372: RET pops each lane of Active; with nothing on its stack a lane first refills its last
unit, which is read from memory after the warp's earlier accesses (06 R101); a refill that reads a word with an
uncorrectable error takes MACHINE (22 R404). A call of a lane at its limit, and a return of a lane with nothing to pop, raise
CALLSTACK with the mask of those lanes, and no lane moves. -/
def Obligations.ReturnResults : Prop :=
  ∀ (s : State) (sc : BitVec 2) (i : Instr), i ∈ [Instr.ret sc, .sret sc] →
    let A := lanesOf s.cur.lanes
    ((∀ l ∈ A, (s.me.lane l).stack ≠ []) →
      s.Does i sc (s.updMe fun w => w.updLanes s.cur.lanes fun _ x => { x with stack := x.stack.drop 1 })
        (some fun l => (s.me.lane l).stack.headD 0)) ∧
    (∀ (l : Nat) (k : Checked), A = [l] → (s.me.lane l).stack = [] → (s.me.lane l).spill ≠ 0 →
      let va : DWord := s.me.uni.csbase + BitVec.ofNat 64 (((s.me.lane l).spill - 1) * 512 + l * 16)
      s.spillCheck kRefill false ((s.me.lane l).spill - 1) l = .ok k → s.coreHold k.pa k.cache false = none →
      s.spaceLost s.myDie k.pa = false →
      (s.warpBusy s.cur.core s.cur.slot = true → s.Runs i → exec i s = .next s.putOff) ∧
      (s.warpBusy s.cur.core s.cur.slot = false → s.coreWalkHold s.cur.core s.myCtx va = none →
      let n := s.noteWalks [va]
      let r := n.coreRead s.cur.core k.pa k.kid k.cache (pteRoh k.tlb.entry) 16
      let word (n : Nat) : Word := BitVec.ofNat 32 (leNat ((r.2.drop (4 * n)).take 4))
      let e := r.1.updMe fun w => w.updLane l fun x =>
        { x with stack := [word 3, word 2, word 1, word 0], spill := x.spill - 1 }
      let e := if n.consumes s.cur.core k.pa k.cache 16 then e.machineErr s.cur.core s.cur.slot s.myCtx k.pa else e
      r.1.cur = s.cur ∧ r.1.me = s.me ∧
      s.Does i sc (e.updMe fun w => w.updLanes s.cur.lanes fun _ x => { x with stack := x.stack.drop 1 })
        (some fun _ => word 3))) ∧
    ((∃ l ∈ A, (s.me.lane l).stack = [] ∧ (s.me.lane l).spill = 0) → s.Runs i → ∃ m : Mask,
      (∀ l < 32, m.getLsbD l = true ↔ l ∈ A ∧ (s.me.lane l).stack = [] ∧ (s.me.lane l).spill = 0) ∧
      exec i s = .next (s.syncTrap
        { group := 0x0C, code := 0x2000, async := false, lv := true, lane := (lanesOf m).headD 0, t1 := m,
          t2 := s.me.uni.cslim, epc := s.cur.pc })) ∧
    (∀ j o, ∀ i' ∈ [Instr.call sc j, .scall sc o],
      (∃ l ∈ A, 4 ≤ (s.me.lane l).stack.length ∧ s.me.uni.cslim.toNat ≤ (s.me.lane l).spill) → s.Runs i' → ∃ m : Mask,
      (∀ l < 32, m.getLsbD l = true ↔ l ∈ A ∧ 4 ≤ (s.me.lane l).stack.length ∧ s.me.uni.cslim.toNat ≤ (s.me.lane l).spill) ∧
      exec i' s = .next (s.syncTrap
        { group := 0x0C, code := 0x1000, async := false, lv := true, lane := (lanesOf m).headD 0, t1 := m,
          t2 := s.me.uni.cslim, epc := s.cur.pc }))

/-- 02 R27, R28; 10 R213: RCV parks the lanes of Active at its own address. Where another lane is still runnable they
stay parked; where none is, the lanes parked at the lowest address `b` go on together at `b` + 4. -/
def Obligations.ParkAndRelease : Prop :=
  ∀ (s : State) (sc : BitVec 2), s.cur.rep = none → s.cur.lanes ≠ 0#32 →
    let active (l : Nat) : Prop := s.cur.lanes.getLsbD l = true
    let old := s.me.lane
    let parkedAt (l a : Nat) : Prop := (active l ∧ s.cur.pc.toNat = a) ∨ (¬ active l ∧ (old l).state = .parked ∧ (old l).park.toNat = a)
    s.Runs (.rcv sc) → ∃ t, exec (.rcv sc) s = .next t ∧
      t = { s with cores := t.cores } ∧ (∀ c, c ≠ s.cur.core → t.core c = s.core c) ∧
      (∀ k, k ≠ s.cur.slot → t.warp s.cur.core k = s.warp s.cur.core k) ∧
      (let w := s.meIn t
       w = { s.me with lanes := w.lanes, sched := w.sched } ∧
       ((∃ l < 32, ¬ active l ∧ (old l).state = .runnable) →
          ∀ l < 32, w.lane l = if active l then { old l with state := .parked, park := s.cur.pc, waits := 0 } else old l) ∧
       ((∀ l < 32, ¬ active l → (old l).state ≠ .runnable) →
          ∃ b : Word, (∃ l < 32, parkedAt l b.toNat) ∧ (∀ l < 32, ∀ a, parkedAt l a → b.toNat ≤ a) ∧
            ∀ l < 32, w.lane l = if parkedAt l b.toNat then { old l with state := .runnable, pc := b + 4, park := b, waits := 0 }
              else if active l then { old l with state := .parked, park := s.cur.pc, waits := 0 } else old l))

/-- 10 R214 with 02 R22, R28; 10 R216; 20 R370: EXIT ends each lane of Active, whose stack and spill count go; where
another lane can still run, and no handler ends with it, the others stay as they are and the warp lives on. A warp
none of whose lanes is left ends. YLD makes the warp the youngest of its quad. -/
def Obligations.ExitAndYield : Prop :=
  ∀ (s : State) (sc : BitVec 2),
    (s.Runs (.exit sc) → ∃ e t, s.exitLanes s.cur.core s.cur.slot s.cur.lanes = e ∧ e.After sc none t ∧
      (e.me.ended = false ∨ s.cur.slot = 32 → exec (.exit sc) s = .next t) ∧
      (e.me.ended = true → s.cur.slot ≠ 32 → exec (.exit sc) s = .next (t.endWarp s.cur.core s.cur.slot)) ∧
      e = { s with cores := e.cores } ∧ (∀ c, c ≠ s.cur.core → e.core c = s.core c) ∧
      (∀ k, k ≠ s.cur.slot → e.warp s.cur.core k = s.warp s.cur.core k) ∧
      (∀ l < 32, s.cur.lanes.getLsbD l = true → (e.me.lane l).state = .exited ∧ (e.me.lane l).stack = [] ∧ (e.me.lane l).spill = 0) ∧
      (s.me.trap.inHandler = false → (∃ l < 32, s.cur.lanes.getLsbD l = false ∧ (s.me.lane l).state = .runnable) →
        ∀ l < 32, s.cur.lanes.getLsbD l = false → e.me.lane l = s.me.lane l)) ∧
    s.DoesFall (.yld sc) sc ((s.updCore s.cur.core fun x => { x with nextAge := x.nextAge + 1 }).updMe fun w =>
      { w with sched := { w.sched with age := (s.core s.cur.core).nextAge } })

/-- 02 R36; 10 R215: SPAWN places one thread of each lane of Active, lane by lane, in the bin of its entry, or in the
lowest empty bin. Where every lane finds a place the lanes go on; where one finds none, SPAWN stays with the number of
that lane, which is the first it places when it goes on, and is put off while that lane finds none. The memory port is held
a cycle for each thread placed. -/
def Obligations.SpawnPlaces : Prop :=
  ∀ (s : State) (sc : BitVec 2) (a b : BitVec 7) (todo : List Nat),
    let stall := s.me.sched.spawns.find? fun p => p.of s.cur.pc s.cur.lanes
    let others := s.me.sched.spawns.filter fun p => !p.of s.cur.pc s.cur.lanes
    (∀ k < 32, s.cur.lanes.getLsbD k = true → (s.val a.toNat k).toNat % 4 = 0) →
    (lanesOf s.cur.lanes).filter (fun k => !stall.any fun p => p.lanes.getLsbD k && decide (k < p.next)) = todo →
    (∀ e, s.placeThreads a b todo = (e, none) →
      s.DoesFall (.spawn sc a b) sc ((e.updMe fun w => { w with sched := { w.sched with spawns := others } }).holdUnit
        .memory todo.length)) ∧
    (∀ e n, s.placeThreads a b todo = (e, some n) → todo.head? ≠ some n ∨ stall = none →
      s.Does (.spawn sc a b) sc ((e.updMe fun w => { w with sched := { w.sched with
        spawns := ⟨s.cur.pc, s.cur.lanes, n⟩ :: others } }).holdUnit .memory (todo.takeWhile (· != n)).length) none) ∧
    (∀ e n, s.placeThreads a b todo = (e, some n) → todo.head? = some n → stall ≠ none → s.Runs (.spawn sc a b) →
      exec (.spawn sc a b) s = .next s.putOff) ∧
    (∀ l n y, State.binFor (s.cc s.cur.core).bins (s.val a.toNat l) = some n → (s.cc s.cur.core).bins.get {} n = y →
      ∃ e, s.placeThreads a b [l] = (e, none) ∧ e.me = s.me ∧
        ((e.cc s.cur.core).bins.get {} n).threads = y.threads ++ [(s.val b.toNat l, s.me.team)] ∧
        (y.threads = [] → ((e.cc s.cur.core).bins.get {} n).entry = s.val a.toNat l ∧
          ((e.cc s.cur.core).bins.get {} n).period = s.cur.spntmr.toNat) ∧
        (∀ m, m ≠ n → (e.cc s.cur.core).bins.get {} m = (s.cc s.cur.core).bins.get {} m))

/-! ## Special registers (03 R50; 20 R367) -/

/-- 03 R50; 11 R227; 20 R367: what SRD reads. -/
def Obligations.SpecialRegisterReads : Prop :=
  ∀ (s : State) (sc : BitVec 2) (d : BitVec 6),
    let u := s.me.uni
    let t := s.me.trap
    let one (x : BitVec 8) (v : Word) : Prop := s.Gives (.srd sc d x) sc [s.uniResult .uni d.toNat v]
    let two (x : BitVec 8) (v : DWord) : Prop :=
      s.Gives (.srd sc d x) sc [s.uniResult .uni d.toNat (lo32 v), s.uniResult .uni (d.toNat + 1) (hi32 v)]
    one 0x00#8 (BitVec.ofNat 32 ((lanesOf s.cur.lanes).headD 0)) ∧
    one 0x01#8 (BitVec.ofNat 32 s.me.wid) ∧
    two 0x05#8 (BitVec.ofNat 64 (s.core s.cur.core).cyc) ∧
    one 0x06#8 u.mode ∧ one 0x07#8 u.fstat ∧ one 0x08#8 u.qstat ∧
    one 0x09#8 t.tvec ∧ one 0x0A#8 t.tdet0 ∧ one 0x0B#8 t.tdet1 ∧ one 0x0C#8 t.tdet2 ∧ one 0x0D#8 t.epc ∧
    two 0x0E#8 u.csbase ∧ one 0x0F#8 u.cslim ∧
    two 0x10#8 (s.ctx s.me.ctx).codebase ∧ one 0x11#8 (s.ctx s.me.ctx).feat ∧ two 0x12#8 (s.ctx s.me.ctx).alm.cost ∧
    one 0x13#8 (s.cc s.cur.core).spntmr ∧ one 0x14#8 (BitVec.ofNat 32 u.repIdx) ∧
    two 0x17#8 (pairOf u.sealedCount u.doneCount) ∧
    one 0x19#8 t.tmask ∧
    (∀ m, (s.cc s.cur.core).teams.find s.me.team = some m →
      one 0x02#8 (BitVec.ofNat 32 m.teamId) ∧ one 0x03#8 (BitVec.ofNat 32 (m.trole + m.prole * 256)) ∧
      ∀ n : Nat, n < 16 → (m.cv.get {} n).expect < 2048 → (m.cv.get {} n).signed < 2048 → (m.cv.get {} n).gen < 65536 →
        let v := m.cv.get {} n
        two (BitVec.ofNat 8 (0x20 + n)) (BitVec.ofNat 64 (v.gen + 2 ^ 16 * v.signed + 2 ^ 32 * v.expect + if v.armed then 2 ^ 63 else 0))) ∧
    (t.inHandler = true →
      one 0x1A#8 (BitVec.ofNat 32 t.lsel.toNat) ∧
      one 0x1B#8 (match (s.me.lane t.lsel.toNat).state with
        | .runnable => (s.me.lane t.lsel.toNat).pc
        | .parked => (s.me.lane t.lsel.toNat).park
        | .exited => 0)) ∧
    (t.inHandler = false → ∀ x ∈ [0x1A#8, 0x1B#8, 0x1C#8], s.Runs (.srd sc d x) →
      exec (.srd sc d x) s = .next (s.syncTrap (s.privTrap 3 x.toNat)))

/-- 03 R50; 11 R227; 20 R366 to R368: what SWR writes. Each writable register takes the value with its reserved and
fixed bits as the rules say; FSTAT and QSTAT are cleared where the value has ones; an index that no rule makes
writable raises PRIVILEGE. -/
def Obligations.SpecialRegisterWrites : Prop :=
  ∀ (s : State) (sc : BitVec 2) (d : BitVec 6),
    let v := s.us d
    let uni (x : BitVec 8) (f : WarpUni → WarpUni) : Prop :=
      State.swrReserved x.toNat v = false → s.DoesFall (.swr sc d x) sc (s.updMe fun w => { w with uni := f w.uni })
    let trap (x : BitVec 8) (f : TrapState → TrapState) : Prop :=
      State.swrReserved x.toNat v = false → s.DoesFall (.swr sc d x) sc (s.updMe fun w => { w with trap := f w.trap })
    uni 0x06#8 (fun u => { u with mode := v }) ∧
    uni 0x07#8 (fun u => { u with fstat := u.fstat &&& ~~~v }) ∧
    uni 0x08#8 (fun u => { u with qstat := u.qstat &&& ~~~v }) ∧
    trap 0x09#8 (fun t => { t with tvec := BitVec.ofNat 32 (v.toNat / 4 * 4) }) ∧
    trap 0x0D#8 (fun t => { t with epc := BitVec.ofNat 32 (v.toNat / 4 * 4) }) ∧
    uni 0x0E#8 (fun u => { u with csbase := BitVec.ofNat 64 ((s.us64 d).toNat / 512 * 512) }) ∧
    uni 0x0F#8 (fun u => { u with cslim := v }) ∧
    (State.swrReserved 0x13 v = false → s.DoesFall (.swr sc d 0x13#8) sc
      (s.updCc s.cur.core fun x => { x with spntmr := if v = 0#32 then 1#32 else v })) ∧
    (s.me.trap.inHandler = true →
      trap 0x1A#8 (fun t => { t with lsel := v.setWidth 5 }) ∧
      let l := s.me.trap.lsel.toNat
      let other : Prop := s.me.trap.tmask.getLsbD l = false
      (¬ other ∨ (s.me.lane l).state = .exited →
        s.DoesFall (.swr sc d 0x1B#8) sc s ∧ (State.swrReserved 0x1C v = false → s.DoesFall (.swr sc d 0x1C#8) sc s)) ∧
      (other → (s.me.lane l).state ≠ .exited → s.me.uni.rep = none →
        s.DoesFall (.swr sc d 0x1B#8) sc (s.updMe fun w => w.updLane l fun y =>
          { y with state := .runnable, pc := BitVec.ofNat 32 (v.toNat / 4 * 4), waits := 0 })) ∧
      (other → State.swrReserved 0x1C v = false →
        ((s.me.lane l).state = .parked → v.toNat % 4 = 0 → s.DoesFall (.swr sc d 0x1C#8) sc
          (s.updMe fun w => w.updLane l fun y => { y with state := .runnable, pc := y.park, waits := 0 })) ∧
        ((s.me.lane l).state ≠ .exited → v.toNat % 4 = 2 → s.DoesFall (.swr sc d 0x1C#8) sc
          (s.exitLanes s.cur.core s.cur.slot (1#32 <<< l))))) ∧
    (∀ x ∈ [0x06, 0x07, 0x08, 0x0F, 0x13], State.swrReserved x v = true → s.Runs (.swr sc d (BitVec.ofNat 8 x)) →
      exec (.swr sc d (BitVec.ofNat 8 x)) s = .next (s.syncTrap (s.encTrap .swrReserved v))) ∧
    (s.me.trap.inHandler = false → ∀ x ∈ [0x1A#8, 0x1B#8, 0x1C#8], s.Runs (.swr sc d x) →
      exec (.swr sc d x) s = .next (s.syncTrap (s.privTrap 3 x.toNat))) ∧
    (∀ x : BitVec 8, State.swrTo x.toNat = false → s.Runs (.swr sc d x) →
      exec (.swr sc d x) s = .next (s.syncTrap (s.privTrap 2 x.toNat)))

/-! ## Memory words (10, 11 R225) -/

/-- 10 R196, R199 to R204; 11 R225: the accesses that pass every check leave the memory port, a request for each line
(`RequestPlaced`): in each lane of Active its own address, size and data, with the destination registers marked as waiting;
the lanes go on. `k` is what the checks of step 3 answer in each lane: the translation, the page's format and the natural
size. An access whose walk must wait puts the instruction off (05 R77; 13 R289). R81: a load of B4 elements, its lanes'
accesses `g`, writes D + 1 too; while a condition is enabled its group stays until its flags are known. -/
def Obligations.GlobalRequests : Prop :=
  ∀ (s : State) (sc : BitVec 2) (t : BitVec 3) (d a : BitVec 7) (b : BitVec 5) (c r w : BitVec 1) (o : BitVec 4) (m : BitVec 3)
    (ua ub ud : BitVec 6) (k : Nat → Checked × FrtEntry × Nat) (g : Nat → Access),
    let A := lanesOf s.cur.lanes
    let size : Nat := if w = 1#1 then 8 else 4
    let offset (n l : Nat) : DWord := s.me.s64 (2 * b.toNat) + (s.val a.toNat l).setWidth 64 * (if c = 1#1 then BitVec.ofNat 64 n else 1)
    let pair (l : Nat) : DWord := s.val64 (2 * ua.toNat) l
    let acc (l : Nat) (va : DWord) (n : Nat) (ro : Bool) (x y : Nat) : Access :=
      { lane := l, va := va, pa := (k l).1.pa, size := n, kid := (k l).1.kid, cache := (k l).1.cache,
        ro := ro || pteRoh (k l).1.tlb.entry, fmt := (k l).2.1.fmt, data := x, data2 := y }
    let passes (kind : Nat) (va : Nat → DWord) (n : Nat → Nat → Option Nat) (write : Bool) : Prop :=
      ∀ l ∈ A, s.globalAccess kind (va l) (n l) write = .ok (k l) ∧ s.coreWalkHold s.cur.core s.me.ctx (va l) = none
    let loads : Nat := [1, 1, 2, 2, 4, 8, 16, 4].getD t.toNat 4
    let stores : Nat := 2 ^ t.toNat
    let data (l : Nat) : Nat := if t = 4#3 then (s.val64 d.toNat l).toNat + (s.val64 (d.toNat + 2) l).toNat * 2 ^ 64
      else if t = 3#3 then (s.val64 d.toNat l).toNat else (s.val d.toNat l).toNat % 2 ^ (8 * stores)
    let word (n l : Nat) : Nat := if w = 1#1 then (s.val64 (d.toNat + 2 * n) l).toNat else (s.val (d.toNat + n) l).toNat
    let then_ (va : Nat → DWord) (f : State → State) : State :=
      let e := s.noteWalks (A.map va)
      f (if m = 0#3 then e else e.releaseAt s.cur.core m.toNat)
    let free (va : Nat → DWord) : Prop := m = 0#3 ∨ (s.noteWalks (A.map va)).canRelease s.cur.core s.cur.slot m.toNat = true
    (passes kLoad (offset loads) (fun _ f => loadPair t.toNat f d.toNat) false → (t = 7#3 → ∀ l ∈ A, (k l).2.1.fmt ≠ fmtB4) →
      s.DoesFall (.ld sc t d a b c r) sc ((s.noteWalks (A.map (offset loads))).request (.load t.toNat)
        (A.map fun l => acc l (offset loads l) (k l).2.2 (r = 1#1) 0 0) .lane d.toNat
        (if t = 6#3 then 4 else if t = 5#3 then 2 else 1) 0)) ∧
    ((∀ l ∈ A, s.ldLane 7#3 d a b c r l = .ok (g l) ∧ s.coreWalkHold s.cur.core s.me.ctx (offset 4 l) = none) →
      (∃ l ∈ A, (g l).fmt = fmtB4) →
      (∀ v ∈ s.me.var, v.file = .lane → v.num = d.toNat + 1 → v.lanes &&& s.cur.lanes = 0#32) →
      s.me.mapped ((d.toNat + 1) / 16) = true →
      (s.cur.mode.getLsbD 4 = true → State.pendingUntil s.me s.cur.lanes .lane (d.toNat + 1) = none) →
      let e := s.noteWalks (A.map (offset 4))
      let kept : Kept := { enables := s.enables, lanes := s.cur.lanes, pc := s.cur.pc, len := s.cur.pos + 1
                           reps := (s.cur.rep.map Prod.fst).getD 0, word := s.cur.word }
      (s.enables = 0#32 → s.DoesFall (.ld sc 7#3 d a b c r) sc (e.request (.load 7) (A.map g) .lane d.toNat 2 0)) ∧
      (s.enables ≠ 0#32 → s.Does (.ld sc 7#3 d a b c r) sc
        ((e.ask (.load 7) (A.map g) .lane d.toNat 2 0 s.cur.lanes (some kept)).updMe fun w =>
          { w with sched := { w.sched with atHome := w.sched.atHome ++ [(e.nextReq, s.cur.lanes)] } }) none)) ∧
    (∀ l ∈ A, (s.coreWalkHold s.cur.core s.me.ctx (offset loads l)).isSome = true → s.Runs (.ld sc t d a b c r) →
      exec (.ld sc t d a b c r) s = .next s.putOff) ∧
    (passes kStore (offset stores) (fun _ _ => some stores) true →
      s.DoesFall (.st sc t d a b c) sc ((s.noteWalks (A.map (offset stores))).request .store
        (A.map fun l => acc l (offset stores l) stores false (data l) 0) .lane 0 0 0)) ∧
    (passes kAtomic pair (fun _ _ => some size) true → free pair →
      s.DoesFall (.atom sc d ua w o m) sc (then_ pair fun e => e.request (.atom o.toNat (w = 1#1))
        (A.map fun l => acc l (pair l) size false (word 0 l) 0) .lane d.toNat (1 + w.toNat) m.toNat)) ∧
    (passes kAtomic pair (fun _ _ => some size) true → free pair →
      s.DoesFall (.cas sc d ua w m) sc (then_ pair fun e => e.request (.cas (w = 1#1))
        (A.map fun l => acc l (pair l) size false (word 0 l) (word 1 l)) .lane d.toNat (1 + w.toNat) m.toNat)) ∧
    (let va : DWord := s.us64 ua + (s.us ub).setWidth 64
     s.cur.slot ≠ 32 → s.coreWalkHold s.cur.core s.me.ctx va = none →
     (s.globalAccess kLoad va (fun _ => some size) false = .ok (k 0) →
       s.DoesFall (.sld sc ud ua ub w) sc ((s.noteWalks [va]).request (.load 8) [acc 0 va size false 0 0] .uni ud.toNat
         (1 + w.toNat) 0)) ∧
     (s.globalAccess kStore va (fun _ => some size) true = .ok (k 0) →
       s.DoesFall (.sst sc ud ua ub w) sc ((s.noteWalks [va]).request .store
         [acc 0 va size false (if w = 1#1 then (s.us64 ud).toNat else (s.us ud).toNat) 0] .uni 0 0 0)))

/-- 10 R197, R198, R202, R206: the same for the scratchpad. `q` is what the window check answers in each lane: the core,
its physical window, the byte there and the descriptor; a role-addressed form takes its role from the literal. One that
meets the range of an operation in flight is put off (06 R115). A load of B4 elements is as in `GlobalRequests`. -/
def Obligations.ScratchpadRequests : Prop :=
  ∀ (s : State) (sc : BitVec 2) (t : BitVec 3) (d a : BitVec 7) (r : BitVec 1) (w : BitVec 6) (o : BitVec 4) (m : BitVec 3)
    (q : Nat → Nat × Nat × Nat × DWord) (g : Nat → Access),
    let A := lanesOf s.cur.lanes
    let role : Option Nat := if r = 1#1 then some ((s.cur.lit.getD 0).toNat % 32) else none
    let acc (l n x y : Nat) : Access :=
      { lane := l, va := 0, pa := 8192 * (q l).2.1 + (q l).2.2.1, size := n, fmt := wdFmt (q l).2.2.2, data := x, data2 := y,
        core := some (q l).1 }
    let off (l : Nat) : Nat := (s.val a.toNat l).toNat
    let stores : Nat := 2 ^ t.toNat
    let passes (kind : Nat) (n : Nat → Option Nat) : Prop :=
      ∀ l ∈ A, s.checkWindow s.cur.core s.me.team kind role w.toNat (off l) (spWordOf role w.toNat (off l)) n = .ok (q l)
    let named : Prop := ∀ l ∈ A, ∃ x, spWord (s.val a.toNat l) = some x ∧
      s.checkWindow s.cur.core s.me.team kAtomic x.1 x.2.1 x.2.2 (s.val a.toNat l) (fun _ => some 4) = .ok (q l)
    let open_ (write : Bool) (as : List Access) : Prop := s.winHeld write as = false
    let free : Prop := m = 0#3 ∨ s.canRelease s.cur.core s.cur.slot m.toNat = true
    let rel : State := if m = 0#3 then s else s.releaseAt s.cur.core m.toNat
    let lds := A.map fun l => acc l ((loadPair t.toNat (wdFmt (q l).2.2.2) d.toNat).getD 1) 0 0
    let sts := A.map fun l => acc l stores (if t = 4#3 then (s.val64 d.toNat l).toNat + (s.val64 (d.toNat + 2) l).toNat * 2 ^ 64
      else if t = 3#3 then (s.val64 d.toNat l).toNat else (s.val d.toNat l).toNat % 2 ^ (8 * stores)) 0
    let atoms := A.map fun l => acc l 4 (s.val d.toNat l).toNat 0
    let cass := A.map fun l => acc l 4 (s.val d.toNat l).toNat (s.val (d.toNat + 1) l).toNat
    (passes kLoad (fun f => loadPair t.toNat f d.toNat) → (t = 7#3 → ∀ l ∈ A, wdFmt (q l).2.2.2 ≠ fmtB4) → open_ false lds →
      s.DoesFall (.lds sc t d a r w) sc (s.request (.load t.toNat) lds .lane d.toNat
        (if t = 6#3 then 4 else if t = 5#3 then 2 else 1) 0)) ∧
    ((∀ l ∈ A, s.ldsLane 7#3 d a r w l = .ok (g l)) → (∃ l ∈ A, (g l).fmt = fmtB4) → open_ false (A.map g) →
      (∀ v ∈ s.me.var, v.file = .lane → v.num = d.toNat + 1 → v.lanes &&& s.cur.lanes = 0#32) →
      s.me.mapped ((d.toNat + 1) / 16) = true →
      (s.cur.mode.getLsbD 4 = true → State.pendingUntil s.me s.cur.lanes .lane (d.toNat + 1) = none) →
      let kept : Kept := { enables := s.enables, lanes := s.cur.lanes, pc := s.cur.pc, len := s.cur.pos + 1
                           reps := (s.cur.rep.map Prod.fst).getD 0, word := s.cur.word }
      (s.enables = 0#32 → s.DoesFall (.lds sc 7#3 d a r w) sc (s.request (.load 7) (A.map g) .lane d.toNat 2 0)) ∧
      (s.enables ≠ 0#32 → s.Does (.lds sc 7#3 d a r w) sc
        ((s.ask (.load 7) (A.map g) .lane d.toNat 2 0 s.cur.lanes (some kept)).updMe fun w =>
          { w with sched := { w.sched with atHome := w.sched.atHome ++ [(s.nextReq, s.cur.lanes)] } }) none)) ∧
    (passes kStore (fun _ => some stores) → open_ true sts →
      s.DoesFall (.sts sc t d a r w) sc (s.request .store sts .lane 0 0 0)) ∧
    (named → open_ true atoms → free →
      s.DoesFall (.atoms sc d a o m) sc (rel.request (.atom o.toNat false) atoms .lane d.toNat 1 m.toNat)) ∧
    (named → open_ true cass → free →
      s.DoesFall (.cass sc d a m) sc (rel.request (.cas false) cass .lane d.toNat 1 m.toNat)) ∧
    (passes kStore (fun _ => some stores) → s.winHeld true sts = true → s.Runs (.sts sc t d a r w) →
      exec (.sts sc t d a r w) s = .next s.putOff)

/-- 10 R199: a memory instruction takes effect in all its lanes or in none: where a lane fails a check, the trap
names the lowest such lane and its first failure, and nothing but translations has happened.
It rests on the model's choices of note 48. -/
def Obligations.AccessTraps : Prop :=
  ∀ (s : State) (sc : BitVec 2) (t : BitVec 3) (d a : BitVec 7) (b : BitVec 5) (c r w : BitVec 1) (o : BitVec 4) (m : BitVec 3)
    (u v : BitVec 6) (x y : BitVec 1) (i : Instr) (F : Nat → Except AccFail Access) (va : Nat → DWord) (l : Nat) (f : AccFail),
    let A := lanesOf s.cur.lanes
    (i, F, va) ∈ [(Instr.ld sc t d a b c r, s.ldLane t d a b c r, s.globalAddr a b c (loadSize t.toNat)),
      (.st sc t d a b c, s.stLane t d a b c, s.globalAddr a b c (2 ^ t.toNat)),
      (.atom sc d u w o m, s.atomLane d u w, s.laneAddr u), (.cas sc d u w m, s.casLane d u w, s.laneAddr u),
      (.caddv sc v x u y a, s.caddvLane u, s.laneAddr u)] →
    l ∈ A → F l = .error f → (∀ j ∈ A, j < l → ∃ acc, F j = .ok acc) →
    (∀ j ∈ A, s.coreWalkHold s.cur.core s.me.ctx (va j) = none) → s.Runs i →
    exec i s = .next ((s.noteWalks (A.map va)).syncTrap
      { group := f.group, code := f.code, async := false, lv := true, lane := l, t1 := f.addr.setWidth 32,
        t2 := (f.addr >>> 32).setWidth 32, epc := s.cur.pc })

/-- 05 R88; 08 R151; 10 R202: the accesses of an instruction are a request for each 128-byte line that they touch, in the
order of the lowest lane that touches it; more than one leave the memory port one a cycle. What a request is: it
stands under the next number, an event takes it to its home, its destination registers wait for it in its lanes, and
nothing else changes. -/
def Obligations.RequestPlaced : Prop :=
  (∀ (s : State) (op : MemOp) (as : List Access) (file : RegFile) (dest words scope : Nat),
    let same (a b : Access) : Bool := a.core.isSome == b.core.isSome && (a.core.isSome || a.pa / 128 == b.pa / 128)
    let gs := State.lineGroups as
    (∀ a ∈ as, ∃ g ∈ gs, g = as.filter (same a)) ∧ (∀ g ∈ gs, ∃ a ∈ as, g = as.filter (same a)) ∧
    (as.Pairwise (fun a b => a.lane < b.lane) →
      gs.Pairwise fun g h => ∀ a ∈ g.head?, ∀ b ∈ h.head?, a.lane < b.lane ∧ same a b = false) ∧
    (let lanes (g : List Access) : Mask := if file = .lane then maskOf fun l => g.any fun a => a.lane = l else s.cur.lanes
     let e := gs.foldl (fun e g => e.ask op g file dest words scope (lanes g) none) s
     s.request op as file dest words scope = if gs.length < 2 then e else e.holdUnit .memory gs.length)) ∧
  ∀ (s : State) (op : MemOp) (as : List Access) (file : RegFile) (dest words scope : Nat) (lanes : Mask) (keep : Option Kept),
    let t := s.ask op as file dest words scope lanes keep
    t = { s with cores := t.cores, reqs := t.reqs, nextReq := s.nextReq + 1, agenda := s.agenda ++ [.memoryRequestAtHome s.nextReq] } ∧
    (let q : MemReq :=
       { core := s.cur.core, slot := s.cur.slot, ctx := s.me.ctx, op := op, accs := as, file := file, dest := dest, words := words,
         scope := scope, keep := keep }
     ∀ n, t.reqs.find n = if n = s.nextReq then some q else s.reqs.find n) ∧
    (∀ c, c ≠ s.cur.core → t.core c = s.core c) ∧ (∀ k, k ≠ s.cur.slot → t.warp s.cur.core k = s.warp s.cur.core k) ∧
    t.me = { s.me with var := t.me.var } ∧
    (∀ v, v ∈ t.me.var ↔ v ∈ s.me.var ∨
      (¬ (file = .lane ∧ dest = 122) ∧ v.file = file ∧ v.lanes = lanes ∧ v.req = s.nextReq ∧ ∃ j < words, v.num = dest + j))

/-- 10 R200 to R204, R208: what a request of one access does when it is served: a load reads its bytes, and the scales of
a B4 one, and delivers them; a store writes its data; an atomic replaces the old value by the operation's and
returns it; a compare and swap writes the new value only where the old one equals the compare value; a prefetch
fills its line. What waits for the request goes on. 06 R101: it waits for an earlier one of its warp for the same bytes. 22
R404: what it reads damaged raises MACHINE. R203: the operations of the atomics on operands of 4 and 8 bytes, as numbers
and as integers. -/
def Obligations.RequestServed : Prop :=
  (∀ (s : State) (n j : Nat) (r : MemReq), s.reqs.find n = some r → r.performed = false →
    (r.accs.any fun a => a.core.isNone && inRegBlock a.pa) = false → s.earlier n r = some j →
    exec (.memoryRequestAtHome n) s = .next (s.hold (State.reqKey j) false (.memoryRequestAtHome n))) ∧
  (∀ (s : State) (n : Nat) (r : MemReq) (a : Access),
    s.reqs.find n = some r → r.performed = false → r.accs = [a] → r.scope = 0 → s.earlier n r = none →
    s.reqStalls r = false → s.reqHold r = none →
    s.accLost r.core a = false → (a.core = none → inRegBlock a.pa = false) →
    let run := exec (.memoryRequestAtHome n) s
    let found (e : State) : State := (s.damaged r).foldl (fun e pa => e.machineErr r.core r.slot r.ctx pa) e
    let gone (e : State) : State := { found e with reqs := (found e).reqs.del n }
    let results (e : State) (ws : List Word) (fl : Word) : Prop := ∃ q, run = .next (State.unhold
      { found e with reqs := (found e).reqs.set n q, agenda := (found e).agenda ++ [.variableLatencyResult n] } (State.reqKey n)) ∧
      q = { r with performed := true, result := q.result, fstat := r.fstat ||| fl } ∧
      (∀ j, j < ws.length → q.result.find (4 * a.lane + j) = some (ws.getD j 0))
    (∀ t, r.op = .load t → r.words ≠ 0 →
      let x := s.bytesAt r.core a.scale0
      let y := x.1.bytesAt r.core a.scale1
      let z := y.1.accRead r.core a false
      results z.1 (State.deliver t a z.2 x.2 y.2).1 (State.deliver t a z.2 x.2 y.2).2) ∧
    (r.op = .store → r.words = 0 →
      run = .next ((gone (s.accWrite r.core r.ctx a false (leBytes a.size a.data))).unhold (State.reqKey n))) ∧
    (∀ l1, r.op = .pref l1 → r.words = 0 →
      let e := s.prefetch r.core a l1
      run = .next ((gone e).unhold (State.reqKey n)) ∧ e.cur = s.cur ∧ (∀ c k, e.warp c k = s.warp c k) ∧
      (∀ c, e.cc c = s.cc c) ∧ (s.memWf → e.memWf)) ∧
    (∀ o w, r.op = .atom o w → r.words ≠ 0 →
      let x := (if a.core.isSome then s else s.l1Drop r.core (lineOf a.pa)).accRead r.core a true
      let old := leNat x.2
      results (x.1.accWrite r.core r.ctx a true (leBytes a.size (State.atomOp o a.size old a.data)))
        (if w then [BitVec.ofNat 32 old, BitVec.ofNat 32 (old / 2 ^ 32)] else [BitVec.ofNat 32 old]) 0) ∧
    (∀ w, r.op = .cas w → r.words ≠ 0 →
      let x := (if a.core.isSome then s else s.l1Drop r.core (lineOf a.pa)).accRead r.core a true
      let old := leNat x.2
      results (if old = a.data then x.1.accWrite r.core r.ctx a true (leBytes a.size a.data2) else x.1)
        (if w then [BitVec.ofNat 32 old, BitVec.ofNat 32 (old / 2 ^ 32)] else [BitVec.ofNat 32 old]) 0)) ∧
  (∀ (old x : Word) (y z : DWord),
    let num (o : Nat) : Nat := State.atomOp o 4 old.toNat x.toNat
    let wide (o : Nat) : Nat := State.atomOp o 8 y.toNat z.toNat
    num 0 = (old + x).toNat ∧ wide 0 = (y + z).toNat ∧
    num 1 = (if old.toInt ≤ x.toInt then old else x).toNat ∧ wide 1 = (if y.toInt ≤ z.toInt then y else z).toNat ∧
    num 2 = (if old.toInt ≤ x.toInt then x else old).toNat ∧ wide 2 = (if y.toInt ≤ z.toInt then z else y).toNat ∧
    num 3 = min old.toNat x.toNat ∧ wide 3 = min y.toNat z.toNat ∧
    num 4 = max old.toNat x.toNat ∧ wide 4 = max y.toNat z.toNat ∧
    num 5 = (old &&& x).toNat ∧ wide 5 = (y &&& z).toNat ∧
    num 6 = (old ||| x).toNat ∧ wide 6 = (y ||| z).toNat ∧
    num 7 = (old ^^^ x).toNat ∧ wide 7 = (y ^^^ z).toNat ∧
    num 8 = x.toNat ∧ wide 8 = z.toNat ∧
    num 9 = (fAdd .f32 0 false old.toNat x.toNat).1)

/-- 10 R207, R208; 07 R124; 20 R363: CADDV asks the homes of its lanes' counters and stays at its place until they have
answered. PREF asks for the line of each lane whose access would not fault, meets no locked range and is not of an
uncached page; it writes no register and raises no trap. -/
def Obligations.CounterAddAndPrefetch : Prop :=
  ∀ (s : State) (sc lv : BitVec 2) (d a : BitVec 6) (x y : BitVec 1) (b va : BitVec 7) (sb : BitVec 5) (c : BitVec 1)
    (k : Nat → Checked),
    let A := lanesOf s.cur.lanes
    let addr (l : Nat) : DWord := s.val64 (2 * a.toNat) l
    let scope : Nat := 2 + 2 * x.toNat + y.toNat
    let e := s.noteWalks (A.map addr)
    let e := e.releaseAt s.cur.core scope
    ((∀ l ∈ A, s.coreCheck s.cur.core s.me.ctx kCtrAdd (addr l) = .ok (k l) ∧ (addr l).toNat % 8 = 0 ∧
        s.coreWalkHold s.cur.core s.me.ctx (addr l) = none) →
      (s.noteWalks (A.map addr)).canRelease s.cur.core s.cur.slot scope = true →
      ∃ t, s.Does (.caddv sc d x a y b) sc t none ∧
        t = { e with cores := t.cores, nextReq := e.nextReq + 1, ctrOps := t.ctrOps, agenda := e.agenda ++ [.counterOpAtHome e.nextReq] } ∧
        (let q : CtrOp :=
           { core := s.cur.core, slot := s.cur.slot, ctx := s.me.ctx, kind := .addv, name := .addr 0, form := 3, home := .mem 0 0,
             scope := scope, dest := 2 * d.toNat, lanes := s.cur.lanes, pc := s.cur.pc, len := s.cur.pos + 1,
             adds := A.map (fun l => (l, addr l, CtrHome.mem (k l).pa (k l).kid, (s.val b.toNat l).setWidth 64))
             reps := (s.cur.rep.map Prod.fst).getD 0 }
         ∀ n, t.ctrOps.find n = if n = e.nextReq then some q else s.ctrOps.find n) ∧
        t.me = { s.me with var := t.me.var, sched := { s.me.sched with atHome := s.me.sched.atHome ++ [(e.nextReq, s.cur.lanes)] } } ∧
        (d.toNat ≠ 61 → t.me.var = s.me.var ++ [⟨.lane, 2 * d.toNat, s.cur.lanes, e.nextReq⟩, ⟨.lane, 2 * d.toNat + 1, s.cur.lanes, e.nextReq⟩])) ∧
    (let at_ (l : Nat) : DWord := s.globalAddr va sb c 128 l
     let line (l : Nat) : Nat := (at_ l).toNat / 128 * 128
     let as := A.filterMap fun l => s.prefLane (at_ l) l
     let f := (State.lineGroups as).foldl (fun f g => f.ask (.pref (lv = 0#2)) g .lane 0 0 0 0 none) (s.noteWalks (as.map Access.va))
     (∀ l ∈ A, (∀ f, s.coreCheck s.cur.core s.me.ctx kLoad (at_ l) = .error f → s.prefLane (at_ l) l = none) ∧
       (∀ q, s.coreCheck s.cur.core s.me.ctx kLoad (at_ l) = .ok q →
         s.prefLane (at_ l) l = if (s.lockedBy s.cur.core (line l) (line l + 128) true).isSome ∨ q.cache = 2 then none
           else some { lane := l, va := at_ l, pa := q.pa, size := 1, kid := q.kid, cache := q.cache
                       ro := pteRoh q.tlb.entry, fmt := 0 })) ∧
     ((∀ z ∈ as, s.coreWalkHold s.cur.core s.me.ctx z.va = none) → s.DoesFall (.pref sc lv va sb c) sc f) ∧
     f.me = s.me ∧ f.mem = s.mem ∧ (as = [] → f = s))

/-! ## Counters, order, blocks and claims (06; 07; 11 R228 to R238) -/

/-- 07 R122 to R125; 11 R228, R229; 21 R383: a counter instruction whose name has a home asks that home and stays at its
PC until the home answers; CADD releases first, and waits while it cannot; the acquire of CWAIT and CPOLL waits for the
warp's earlier accesses (06 R105). A name that fails a check traps. -/
def Obligations.CounterRequests : Prop :=
  ∀ (s : State) (sc : BitVec 2) (d a b : BitVec 6) (f k : BitVec 2) (home : CtrHome),
    let own : Nat := (((s.cc s.cur.core).teams.find s.me.team).map Team.trole).getD 0
    let name : CounterName := if f = 2#2 then .addr (s.us64 a) else .num (if f = 1#2 then a.toNat % 32 else own) b.toNat
    let free : BitVec 6 := if f = 0#2 then a else if f = 2#2 then b else 0#6
    let inc : DWord := if free = 0#6 then (s.us d).setWidth 64 else free.setWidth 64
    let e : State := if f = 2#2 then s.noteWalks [s.us64 a] else s
    let scope : Nat := 2 + k.toNat
    let r : State := e.releaseAt s.cur.core scope
    let q (kind : CtrKind) (dest : Nat) (inc thr : DWord) (x : Nat) : CtrOp :=
      { core := s.cur.core, slot := s.cur.slot, ctx := s.me.ctx, kind := kind, name := name, form := f.toNat, home := home,
        inc := inc, thr := thr, scope := x, dest := dest, lanes := s.cur.lanes, pc := s.cur.pc, len := 1 }
    let asked (e : State) (o : CtrOp) (vs : List (RegFile × Nat)) (t : State) : Prop :=
      t = { e with cores := t.cores, nextReq := e.nextReq + 1, ctrOps := t.ctrOps, agenda := e.agenda ++ [.counterOpAtHome e.nextReq] } ∧
      (∀ n, t.ctrOps.find n = if n = e.nextReq then some o else s.ctrOps.find n) ∧
      t.me = { s.me with var := s.me.var ++ vs.map fun v => ⟨v.1, v.2, s.cur.lanes, e.nextReq⟩
                         sched := { s.me.sched with atHome := s.me.sched.atHome ++ [(e.nextReq, s.cur.lanes)] } } ∧
      (∀ c, c ≠ s.cur.core → t.core c = e.core c) ∧ (∀ n, n ≠ s.cur.slot → t.warp s.cur.core n = e.warp s.cur.core n)
    let named (kind : Nat) : Prop := s.ctrHomeOf s.cur.core s.me.ctx s.me.team kind name = .ok home
    let fails (kind : Nat) (x : AccFail) : Prop := s.ctrHomeOf s.cur.core s.me.ctx s.me.team kind name = .error x
    let pair : List (RegFile × Nat) := [(.uni, d.toNat), (.uni, d.toNat + 1)]
    let walk : Option Nat := if f = 2#2 then s.coreWalkHold s.cur.core s.me.ctx (s.us64 a) else none
    let busy : Bool := s.warpBusy s.cur.core s.cur.slot
    (walk ≠ none → ∀ i ∈ [Instr.cadd sc d a b f k, .crd sc d a b f, .cwait sc d a b f k, .cpoll sc d a b f k], s.Runs i →
      exec i s = .next s.putOff) ∧
    (walk = none →
    (named kCtrAdd → e.canRelease s.cur.core s.cur.slot scope = true →
      ∃ t, s.Does (.cadd sc d a b f k) sc t none ∧ asked r (q .add d.toNat inc 0 k.toNat) pair t) ∧
    (named kCtrRead →
      (∃ t, s.Does (.crd sc d a b f) sc t none ∧ asked e (q .read d.toNat 0 0 0) pair t) ∧
      (busy = false → (∃ t, s.Does (.cwait sc d a b f k) sc t none ∧ asked e (q .wait 0 0 (s.us64 d) k.toNat) [] t) ∧
        (∃ t, s.Does (.cpoll sc d a b f k) sc t none ∧
          asked e (q .poll (free.toNat % 4) 0 (s.us64 d) k.toNat) [(.upred, free.toNat % 4)] t)) ∧
      (busy = true → ∀ i ∈ [Instr.cwait sc d a b f k, .cpoll sc d a b f k], s.Runs i → exec i s = .next s.putOff)) ∧
    (named kCtrAdd → e.canRelease s.cur.core s.cur.slot scope = false → s.Runs (.cadd sc d a b f k) →
      exec (.cadd sc d a b f k) s = .next e.putOff) ∧
    (∀ x, (fails kCtrAdd x → s.Runs (.cadd sc d a b f k) →
        exec (.cadd sc d a b f k) s = .next (s.syncTrap (s.accTrap ((lanesOf s.cur.lanes).headD 0) x))) ∧
      (fails kCtrRead x → ∀ i ∈ [Instr.crd sc d a b f, .cwait sc d a b f k, .cpoll sc d a b f k], s.Runs i →
        exec i s = .next (s.syncTrap (s.accTrap ((lanesOf s.cur.lanes).headD 0) x)))))

/-- 06 R104 to R106, R111; 11 R230, R231: FENCE releases, acquires, or does both in this order, and waits for what it must
make visible; an acquire leaves no clean word in the core's L1 that is not tagged read-only. CMNT on a range within
one page writes back, and with OP 1 drops, each line of the range, at the levels that it names. -/
def Obligations.OrderResults : Prop :=
  ∀ (s : State) (sc l o k : BitVec 2) (e : BitVec 3) (a b : BitVec 6),
    let c := s.cur.core
    let x := e.toNat
    let can : Prop := s.canRelease c s.cur.slot x = true
    let rel : State := s.releaseAt c x
    (k = 1#2 → can → s.DoesFall (.fence sc e k) sc rel) ∧
    (k = 0#2 → s.warpBusy c s.cur.slot = false → s.DoesFall (.fence sc e k) sc (s.acquireAt c x)) ∧
    (k = 2#2 → can → rel.warpBusy c s.cur.slot = false → s.DoesFall (.fence sc e k) sc (rel.acquireAt c x)) ∧
    (k ≠ 0#2 → ¬ can → s.Runs (.fence sc e k) → exec (.fence sc e k) s = .next s.putOff) ∧
    (k = 0#2 → s.warpBusy c s.cur.slot = true → s.Runs (.fence sc e k) → exec (.fence sc e k) s = .next s.putOff) ∧
    (x < 3 → rel = s ∧ s.acquireAt c x = s) ∧
    (3 ≤ x → ∀ n y, (s.acquireAt c x).l1.find n = some y → n / 2 ^ 41 = c → y.ro = true ∨ y.valid = y.dirty) ∧
    (let va := s.us64 a
     let n := (s.us b).toNat
     (n = 0 → s.DoesFall (.cmnt sc a b l o) sc s) ∧
     (n ≠ 0 → va.toNat % 4096 + n ≤ 4096 → s.warpBusy c s.cur.slot = false → s.releasable c 4 = true →
       s.coreWalkHold c s.myCtx va = none →
       (∀ y, s.coreCheck c s.myCtx kCmnt va = .ok y →
         let w := s.coreWalk c s.myCtx va
         let first := y.pa / 128
         let last := (y.pa + n - 1) / 128
         let one (t : State) (i : Nat) : State :=
           let t := if o = 0#2 then t.l1WriteBack c i else t.l1Drop c i
           let dies := if l = 0#2 then [] else if l = 2#2 ∧ (isTier (128 * i) || isPeer (128 * i)) = true then [0, 1, 2, 3]
             else [homeDie (128 * i) t.myDie]
           dies.foldl (fun t d => if o = 0#2 then t.l2Clean d i else t.l2Drop d i) t
         s.DoesFall (.cmnt sc a b l o) sc
           (if pteCtr y.tlb.entry = true ∨ pteCache y.tlb.entry = 2 then w
            else (List.range (last + 1 - first)).foldl (fun t i => one t (first + i)) w)) ∧
       (∀ f, s.coreCheck c s.myCtx kCmnt va = .error f → s.Runs (.cmnt sc a b l o) →
         exec (.cmnt sc a b l o) s = .next (s.syncTrap (s.accTrap ((lanesOf s.cur.lanes).headD 0) f)))))

/-- 03 R44; 11 R232; 20 R372: register blocks. RACQ enters the core's queue and stays until the blocks are mapped;
RACQ.nb maps them at once, in ascending order to the lowest free physical blocks, or says that it did not; RREL
frees them and serves the queue, or stays until every write that pends into them has landed. A block that is mapped already, or is not mapped, raises REGBLOCK. -/
def Obligations.BlockResults : Prop :=
  ∀ (s : State) (sc p : BitVec 2) (m : BitVec 7),
    let c := s.cur.core
    let named := (List.range 7).filter fun b => m.getLsbD b
    let has (b : Nat) : Prop := (s.me.blocks.find b).isSome = true
    let room := s.freeBlocks c
    let bits (bs : List Nat) : Nat := bs.foldl (fun n b => n + 2 ^ b) 0
    let regblock (reason : Nat) (bs : List Nat) : TrapInfo :=
      { group := 0x0B, code := reason * 4096 + bits bs, async := false, lv := false, lane := 0, t1 := s.cur.word, t2 := 0,
        epc := s.cur.pc }
    ((∀ b ∈ named, ¬ has b) →
      (s.Does (.racq sc m) sc
        (((s.updMe fun w => { w with sched := { w.sched with
            racq := w.sched.racq ++ [{ mask := m.toNat, lanes := s.cur.lanes, pc := s.cur.pc }] } }).updCore c
          fun x => { x with racqQ := x.racqQ ++ [s.cur.slot] }).serveBlocks c 33) none) ∧
      ((s.core c).racqQ = [] → named.length ≤ room.length →
        s.DoesFall (.racqNb sc m p) sc ((s.mapBlocks c s.cur.slot named).varResult none p.toNat true)) ∧
      ((s.core c).racqQ ≠ [] ∨ room.length < named.length → s.DoesFall (.racqNb sc m p) sc (s.varResult none p.toNat false))) ∧
    let still : Prop := (∃ v ∈ s.me.var, v.file = .lane ∧ v.num < 112 ∧ m.getLsbD (v.num / 16) = true) ∨
      ∃ v ∈ s.me.pend, v.file = .lane ∧ v.num < 112 ∧ m.getLsbD (v.num / 16) = true
    ((∀ b ∈ named, has b) → still → s.Does (.rrel sc m) sc (s.updMe fun w => { w with sched := { w.sched with
      rrel := w.sched.rrel ++ [{ mask := m.toNat, lanes := s.cur.lanes, pc := s.cur.pc }] } }) none) ∧
    ((∀ b ∈ named, has b) → ¬ still →
      s.DoesFall (.rrel sc m) sc (((s.updMe fun w => { w with blocks := w.blocks.filter fun x => !m.getLsbD x.1 }).serveBlocks c 33).post
        (.coreAdmission c))) ∧
    ((∃ b ∈ named, has b) → ∀ i ∈ [Instr.racq sc m, .racqNb sc m p], s.Runs i →
      exec i s = .next (s.syncTrap (regblock 2 (named.filter fun b => (s.me.blocks.find b).isSome)))) ∧
    ((∃ b ∈ named, ¬ has b) → s.Runs (.rrel sc m) →
      exec (.rrel sc m) s = .next (s.syncTrap (regblock 3 (named.filter fun b => (s.me.blocks.find b).isNone))))

/-- 11 R233; 13 R282: RNEXT first serves the request that waits longest for its core's range, and takes the next index of
the range; with none, where the launch has another core, it stays until the answer to the core's request, which asks
the next core for half of its range; else its predicate is false. While another RNEXT of the core waits it is put off.
It rests on the model's choices of note 39. -/
def Obligations.RangeClaims : Prop :=
  ∀ (s : State) (sc p : BitVec 2) (d : BitVec 6) (l : Nat),
    let c := s.cur.core
    let waits : Bool := ((s.cc c).warps.any fun w => w.2.sched.rnext.isSome) || (s.core c).fw.sched.rnext.isSome
    (waits = true → s.Runs (.rnext sc d p) → exec (.rnext sc d p) s = .next s.putOff) ∧
    (waits = false → (s.cc c).lazyLaunch = none → s.DoesFall (.rnext sc d p) sc (s.varResult none p.toNat false)) ∧
    (waits = false → (s.cc c).lazyLaunch = some l →
      let e := s.serveSteal l (s.cc c).lazyIndex
      let x := e.cc c
      let n := (e.launch l).lazy.length
      (x.lazyNext < x.lazyEnd → s.DoesFall (.rnext sc d p) sc
        (((e.updCc c fun y => { y with lazyNext := y.lazyNext + 1 }).forwardSteals l x.lazyIndex 65).varResult
          (some (d.toNat, BitVec.ofNat 32 x.lazyNext)) p.toNat true)) ∧
      (x.lazyEnd ≤ x.lazyNext → n ≤ 1 → s.DoesFall (.rnext sc d p) sc (e.varResult none p.toNat false)) ∧
      (x.lazyEnd ≤ x.lazyNext → 2 ≤ n → ∃ t, s.Does (.rnext sc d p) sc t none ∧
        t = { e with cores := t.cores, nextReq := e.nextReq + 1
                     agenda := e.agenda ++ (if x.stealOut then [] else
                       [.stealRequest (l * 2 ^ 20 + (x.lazyIndex + 1) % n) (l * 2 ^ 20 + x.lazyIndex)]) } ∧
        t.me.var = e.me.var ++ [⟨.uni, d.toNat, s.cur.lanes, e.nextReq⟩, ⟨.upred, p.toNat, s.cur.lanes, e.nextReq⟩] ∧
        t.me.sched.rnext = some { dest := d.toNat, pred := p.toNat, lanes := s.cur.lanes, pc := s.cur.pc, req := e.nextReq } ∧
        (t.cc c).stealOut = true) ∧
      e.me = s.me ∧ ((s.cc c).steals = [] → s.lazyCc l (s.cc c).lazyIndex = some (s.cc c) → e = s))

/-- 11 R234, R237, R238; 13 R277; 14 R301; 16 R327: LAUNCH releases, copies its record into the core's launch queue, and
goes on; where 16 are queued it waits. SVC writes its record to entry `pub` of the service's queue and adds 1 to its `pub`
counter; a full queue makes it wait, and a missing service traps. CKPT asks for the close of an interval where the context
has intervals, and else makes the add that it owes. -/
def Obligations.LaunchServiceCheckpoint : Prop :=
  ∀ (s : State) (sc : BitVec 2) (a b n : BitVec 6) (rec blk : Block) (pub done : CtrHome) (home : CtrHome) (w v e : State),
    let c := s.cur.core
    let d := dieOfCore c
    let h := s.me.ctx
    let va := s.us64 a
    let k := s.us n
    let lane := (lanesOf s.cur.lanes).headD 0
    let can : Prop := s.canRelease c s.cur.slot 4 = true
    let r := s.releaseAt c 4
    let misaligned := s.accTrap lane (accFail 4 kRecord va)
    (¬ can → (s.Runs (.launch sc a) → exec (.launch sc a) s = .next s.putOff) ∧
      (k.toNat < 2 ^ 16 → va.toNat % 64 = 0 → s.Runs (.svc sc n a) → exec (.svc sc n a) s = .next s.putOff)) ∧
    (can → va.toNat % 64 = 0 → r.readBlock d h kRecord va = .ok (w, rec) →
      ((w.cc c).launchQ.length < 16 → s.DoesFall (.launch sc a) sc
        ((w.updCc c fun x => { x with launchQ := x.launchQ ++ [(va.toNat, rec)] }).post (.launchDescriptorTake (1024 + c) h va.toNat rec))) ∧
      (16 ≤ (w.cc c).launchQ.length → s.Runs (.launch sc a) → exec (.launch sc a) s = .next w.putOff) ∧
      (k.toNat < 2 ^ 16 → w.serviceBlock d h k.toNat = some (v, blk) → v.agentHome d h (qcbPub blk) = some pub →
         v.ctrHomeOf c h 0 kCtrRead (.addr (qcbDone blk)) = .ok done → v.ctrHold pub true = none → v.lastAdd h = none →
         v.ctrLost d done = false →
         let i := v.ctrRead d pub
         let room : Prop := i.toNat - (v.ctrRead d done).toNat < 2 ^ qcbQlog blk
         (room → v.vaWrite d h kStore (qcbBase blk + BitVec.ofNat 64 (64 * (i.toNat % 2 ^ qcbQlog blk))) (leBytes 64 rec.toNat) = .ok e →
           s.DoesFall (.svc sc n a) sc (e.agentAdd c h .count (qcbPub blk) 1 4)) ∧
         (¬ room → s.Runs (.svc sc n a) → exec (.svc sc n a) s = .next v.putOff)) ∧
      (k.toNat < 2 ^ 16 → w.serviceBlock d h k.toNat = none → s.Runs (.svc sc n a) →
         exec (.svc sc n a) s = .next (w.syncTrap
           { group := 0x0F, code := k.toNat, async := false, lv := false, lane := 0, t1 := lo32 va, t2 := hi32 va, epc := s.cur.pc }))) ∧
    (va.toNat % 64 ≠ 0 → (can → s.Runs (.launch sc a) → exec (.launch sc a) s = .next (r.syncTrap misaligned)) ∧
      (k.toNat < 2 ^ 16 → s.Runs (.svc sc n a) → exec (.svc sc n a) s = .next (s.syncTrap misaligned))) ∧
    (can →
      (r.almanacOn d h = (w, true) →
        s.DoesFall (.ckpt sc) sc ((w.updAlm h fun x => { x with waiting := x.waiting ++ [none] }).post (.cut h))) ∧
      (r.almanacOn d h = (w, false) → s.DoesFall (.ckpt sc) sc w)) ∧
    (¬ can → s.Runs (.ckpt sc) → exec (.ckpt sc) s = .next s.putOff) ∧
    (s.coreWalkHold c h va = none →
      let q := s.noteWalks [va]
      (s.ctrHomeOf c h s.me.team kCtrAdd (.addr va) = .ok home → q.canRelease c s.cur.slot 4 = true →
        ((q.releaseAt c 4).almanacOn d h = (w, true) → s.DoesFall (.ckptCounter sc a b) sc
          ((w.updAlm h fun x => { x with waiting := x.waiting ++ [some (va, s.us b)] }).post (.cut h))) ∧
        ((q.releaseAt c 4).almanacOn d h = (w, false) →
          s.DoesFall (.ckptCounter sc a b) sc (w.agentAdd c h .ckpt va (s.us b) 4))) ∧
      (∀ x, s.ctrHomeOf c h s.me.team kCtrAdd (.addr va) = .error x → s.Runs (.ckptCounter sc a b) →
        exec (.ckptCounter sc a b) s = .next (s.syncTrap (s.accTrap lane x))))

/-! ## Copies and the matrix array (12) -/

/-- 12 R242 to R249: what the copy instructions do at issue. A copy whose checks pass takes the core's next number, its
entries, and a free descriptor, and the warp goes on; where a resource is missing it is put off, and a check that fails traps.
CPYB's slices wait for the last of their collective; a warp's second slice in a slot is put off until the collective starts.
`z` is the copy as it is entered, `e` the state with the walks of the global operands noted (05 R77).
It rests on the model's choices of note 57. -/
def Obligations.CopyIssue : Prop :=
  ∀ (s : State) (sc r : BitVec 2) (d a b : BitVec 6) (j : BitVec 3) (x y : CopySide) (col : Collective),
    let c := s.cur.core
    let n := (s.cc c).nextOp
    let q := s.copyBlk a
    let reg (i : Nat) : Word := s.me.s (a.toNat + i)
    let z (mask : Option DWord) (scatter wait : Bool) : Copy :=
      { slot := s.cur.slot, team := s.me.team, ctx := s.me.ctx, dir := r.toNat, src := x.addr, dst := y.addr, len := q.len
        rows := q.rows, spitch := q.spitch, dpitch := q.dpitch, mask := mask, scatter := scatter, srcFmt := x.fmt
        dstFmt := y.fmt, released := !wait, started := !wait, desc := (s.freeDescs c).headD 0, tracker := s.topTracker c s.cur.slot }
    let vas := State.copyVas q r.toNat
    let e := s.noteWalks vas
    let walks : Prop := ∀ va ∈ vas, s.coreWalkHold c s.me.ctx va = none
    let ready (lock : Bool) : Prop := walks ∧ s.copyRoom q x y lock = true ∧ e.canRelease c s.cur.slot 2 = true
    let made (mask : Option DWord) (scatter lock wait : Bool) : State :=
      ((e.releaseAt c 2).makeCopy q r.toNat x y mask scatter lock wait).2
    (q = { src := reg 1 ++ reg 0, dst := reg 3 ++ reg 2, len := (reg 4).toNat, rows := (reg 5).toNat % 2 ^ 16
           slay := (reg 5).toNat / 2 ^ 16 % 16, dlay := (reg 5).toNat / 2 ^ 20 % 16, top := (reg 5).toNat / 2 ^ 24
           spitch := (reg 6).toNat, dpitch := (reg 7).toNat }) ∧
    (vas = (if r = 1#2 ∨ r = 2#2 then [] else [q.src]) ++ (if r = 0#2 ∨ r = 2#2 then [] else [q.dst])) ∧
    (∀ mask scatter lock wait, let t := (s.makeCopy q r.toNat x y mask scatter lock wait).2
      (s.makeCopy q r.toNat x y mask scatter lock wait).1 = n ∧ (t.cc c).nextOp = n + 1 ∧
      (t.cc c).copies.find n = some (z mask scatter wait) ∧ (∀ m, m ≠ n → (t.cc c).copies.find m = (s.cc c).copies.find m) ∧
      t.me = { s.me with unsealed := s.me.unsealed ++ [n] } ∧ t.mem = s.mem ∧ t.cur = s.cur) ∧
    (s.copyChecks q r.toNat 65535 = .ok (x, y) →
      (s.freeDescs c ≠ [] → ready false → s.DoesFall (.cpy sc a r) sc ((made none false false false).runCopy c n)) ∧
      (walks → s.freeDescs c = [] ∨ s.copyRoom q x y false = false → s.Runs (.cpy sc a r) →
        exec (.cpy sc a r) s = .next s.putOff) ∧
      (((s.cc c).teams.find s.me.team).bind (fun t => t.slots.find j.toNat) = some col ∨
          (((s.cc c).teams.find s.me.team).bind (fun t => t.slots.find j.toNat) = none ∧
            col = { count := d.toNat, dir := r.toNat, slices := [], warps := [] }) →
        (walks → col.warps.contains s.me.wid = true → s.Runs (.cpyb sc d a j r) →
          exec (.cpyb sc d a j r) s = .next s.putOff) ∧
        (walks → col.warps.contains s.me.wid = false → col.count ≠ d.toNat ∨ col.dir ≠ r.toNat → s.Runs (.cpyb sc d a j r) →
          exec (.cpyb sc d a j r) s = .next (s.syncTrap (s.copyTrap 6 0))) ∧
        (col.count = d.toNat → col.dir = r.toNat → col.warps.contains s.me.wid = false → ready true →
          let t := made none false true true
          let new : Collective := { col with slices := col.slices ++ [n], warps := col.warps ++ [s.me.wid] }
          (new.slices.length ≠ d.toNat → s.DoesFall (.cpyb sc d a j r) sc
            (t.updTeam c s.me.team fun u => { u with slots := u.slots.set j.toNat new })) ∧
          (new.slices.length = d.toNat → s.DoesFall (.cpyb sc d a j r) sc
            (((t.updTeam c s.me.team fun u => { u with slots := u.slots.del j.toNat }).updCc c fun w =>
              { w with copies := w.copies.map fun e => if new.slices.contains e.1 then (e.1, { e.2 with released := true }) else e }).startSlices
                c))))) ∧
    (s.copyChecks q r.toNat 64 = .ok (x, y) → s.freeDescs c ≠ [] → ready true →
      s.DoesFall (.cpyg sc a b r) sc ((made (some (s.us64 b)) false true false).runCopy c n) ∧
      s.DoesFall (.cpys sc a b r) sc ((made (some (s.us64 b)) true true false).runCopy c n)) ∧
    (∀ va ∈ vas, (s.coreWalkHold c s.me.ctx va).isSome = true →
      ∀ i ∈ [Instr.cpy sc a r, .cpyb sc d a j r, .cpyg sc a b r, .cpys sc a b r], s.Runs i → exec i s = .next s.putOff) ∧
    (∀ t, walks → (s.copyChecks q r.toNat 65535 = .error t → ∀ i ∈ [Instr.cpy sc a r, .cpyb sc d a j r], s.Runs i →
        exec i s = .next (s.syncTrap t)) ∧
      (s.copyChecks q r.toNat 64 = .error t → ∀ i ∈ [Instr.cpyg sc a b r, .cpys sc a b r], s.Runs i →
        exec i s = .next (s.syncTrap t))) ∧
    (∀ most, q.len = 0 ∨ 2 ^ 24 < q.len ∨ q.rows = 0 ∨ q.top ≠ 0 → s.copyChecks q r.toNat most = .error
      { group := 9, code := 0x9000, async := false, lv := false, lane := 0, t1 := s.cur.word, t2 := 0, epc := s.cur.pc }) ∧
    (∀ most, q.len ≠ 0 → q.len ≤ 2 ^ 24 → q.rows ≠ 0 → q.top = 0 → most < q.rows → s.copyChecks q r.toNat most = .error
      { group := 9, code := 0x5000, async := false, lv := false, lane := 0, t1 := s.cur.word, t2 := 0, epc := s.cur.pc })

/-- 12 R251, R252, R254; 06 R112; 03 R53, R54: CSEAL makes a batch of the warp's unsealed copies, unless 8 are outstanding;
CWAITB acquires once at most N batches are not done and the warp's earlier accesses are performed (06 R105); WDESC writes a
window descriptor with the warp's team as its owner, once no operation in flight uses the window. The access kind and TDET1
of WDESC's ACCESS traps are the model's choice (note 107). -/
def Obligations.BatchesAndWindows : Prop :=
  ∀ (s : State) (sc : BitVec 2) (d a b w : BitVec 6) (f k : BitVec 2) (n p : Nat),
    let c := s.cur.core
    let open_ : Nat := (s.me.uni.sealedCount - s.me.uni.doneCount).toNat
    let own : Nat := (((s.cc c).teams.find s.me.team).map Team.trole).getD 0
    let name : CounterName := if f = 2#2 then .addr (s.us64 a) else .num (if f = 1#2 then a.toNat % 32 else own) b.toNat
    let free : BitVec 6 := if f = 0#2 then a else if f = 2#2 then b else 0#6
    let inc : Word := if free = 0#6 then s.us d else free.setWidth 32
    let e : State := if f = 2#2 then s.noteWalks [s.us64 a] else s
    let walk : Option Nat := if f = 2#2 then s.coreWalkHold c s.me.ctx (s.us64 a) else none
    let found := s.ctrHomeOf c s.me.ctx s.me.team kCtrAdd name
    let gathers : Prop := ∃ m ∈ s.me.unsealed, ∃ y, (s.cc c).copies.find m = some y ∧ y.mask.isSome = true ∧ y.scatter = false
    let last : Prop := ∃ r, name = .num r 63
    let x := s.us64 a
    let lane := (lanesOf s.cur.lanes).headD 0
    let acc (reason : Nat) : State := s.syncTrap (s.accTrap lane (accFail reason kLoad ((spWordOf none w.toNat 0).setWidth 64)))
    let cs := Instr.cseal sc d a b f k
    (open_ ≠ 8 → f = 3#2 → s.DoesFall cs sc (s.sealBatch none 0 2)) ∧
    (open_ ≠ 8 → f ≠ 3#2 → walk = none →
      (∀ home, found = .ok home → ¬ (gathers ∧ last) → s.DoesFall cs sc (e.sealBatch (some name) inc (2 + k.toNat))) ∧
      (∀ home, found = .ok home → gathers ∧ last → s.Runs cs → exec cs s = .next (s.syncTrap
        { group := 9, code := 0x8000, async := false, lv := false, lane := 0, t1 := s.cur.word, t2 := 0, epc := s.cur.pc })) ∧
      (∀ y, found = .error y → s.Runs cs → exec cs s = .next (s.syncTrap (s.accTrap lane y)))) ∧
    (open_ = 8 ∨ (f ≠ 3#2 ∧ walk ≠ none) → s.Runs cs → exec cs s = .next s.putOff) ∧
    (∀ nm i scope, ∃ y : State,
      s.sealBatch nm i scope = (y.updMe fun v =>
        { v with uni := { v.uni with sealedCount := s.me.uni.sealedCount + 1 }, unsealed := []
                 batches := v.batches ++ [{ num := (s.me.uni.sealedCount + 1).toNat, copies := s.me.unsealed, name := nm, inc := i, scope := scope
                                            counts := s.me.unsealed.filterMap fun m => ((s.cc c).copies.find m).bind fun z =>
                                              if z.mask.isSome && !z.scatter then some (State.copyRows z).length else none }] }).pumpBatches
          c s.cur.slot s.me.ctx s.me.team 9 ∧
      y = { s with cores := y.cores } ∧ (∀ j, j ≠ c → y.core j = s.core j) ∧ y.core c = { s.core c with cc := y.cc c } ∧
      y.cc c = { s.cc c with trackers := (y.cc c).trackers } ∧
      ((∀ m ∈ s.me.unsealed, ∀ z, (s.cc c).copies.find m = some z → z.tracker = none) → y = s)) ∧
    (open_ ≤ b.toNat → s.warpBusy c s.cur.slot = false → s.DoesFall (.cwaitb sc b) sc (s.acquireAt c 2)) ∧
    (b.toNat < open_ ∨ s.warpBusy c s.cur.slot = true → s.Runs (.cwaitb sc b) → exec (.cwaitb sc b) s = .next s.putOff) ∧
    (wdescReserved x = false → (wdV x = true → wdescOk x = true) → s.window c s.me.team none w.toNat = some (n, p) →
      let old := (s.cc n).wdesc.get 0 p
      (wdV old = true → wdOwner old = s.me.team) →
      ((∀ e ∈ (s.cc n).score, e.win ≠ p) → s.DoesFall (.wdesc sc a w) sc (s.updCc n fun z =>
        { z with wdesc := z.wdesc.set p ((x &&& ~~~(0x1F#64 <<< 51)) ||| (BitVec.ofNat 64 s.me.team <<< 51)) })) ∧
      ((∃ e ∈ (s.cc n).score, e.win = p) → s.Runs (.wdesc sc a w) → exec (.wdesc sc a w) s = .next s.putOff)) ∧
    (s.Runs (.wdesc sc a w) →
      (wdescReserved x = true → exec (.wdesc sc a w) s = .next (s.syncTrap (s.encTrap .fixedField (lo32 x)))) ∧
      (wdescReserved x = false → wdV x = true → wdescOk x = false →
        exec (.wdesc sc a w) s = .next (s.syncTrap (s.encTrap .wdesc (lo32 x)))) ∧
      (wdescReserved x = false → (wdV x = true → wdescOk x = true) →
        (s.window c s.me.team none w.toNat = none → exec (.wdesc sc a w) s = .next (acc 3)) ∧
        (s.window c s.me.team none w.toNat = some (n, p) → wdV ((s.cc n).wdesc.get 0 p) = true →
          wdOwner ((s.cc n).wdesc.get 0 p) ≠ s.me.team → exec (.wdesc sc a w) s = .next (acc 12))))

/-- 12 R255, R256, R258 to R266: a matrix instruction whose checks pass puts its command at the end of the array's queue and
goes on; with 8 commands there, or without room on a scoreboard, it is put off; a check that fails traps. -/
def Obligations.MatrixIssue : Prop :=
  ∀ (s : State) (sc : BitVec 2) (d a : BitVec 6) (z : BitVec 1) (o : MOpnd) (f : Nat),
    let c := s.cur.core
    let m := (s.cc c).matrix
    let n := (s.cc c).nextOp
    let x := s.us a
    let rc := s.us d
    let rows := rc.toNat / 256 % 512
    let planes (f : Nat) : Nat × Bool := (64, decide (matrixClass f ≠ 0))
    let enters (i : Instr) (x : MCmd) (es : List (Nat × ScoreEntry)) (vs : List VarPend) : Prop :=
      m.queue.length < 8 → s.scoreRoom es = true → s.storesOut c s.cur.slot = false → ∃ t, s.DoesFall i sc t ∧
        (t.cc c).nextOp = n + 1 ∧ t.mem = s.mem ∧ t.agenda = s.agenda ++ [.matrixCommandStart c] ∧
        (∃ q, (t.cc c).matrix = { m with queue := m.queue ++ [q], live := true } ∧
          q = { x with num := n, slot := s.cur.slot, team := s.me.team, mode := s.cur.mode, trackers := q.trackers }) ∧
        t.me = { s.me with sched := t.me.sched, var := s.me.var ++ vs }
    let row (opc : Nat) (w r : Word) : MCmd := { num := 0, opc := opc, slot := 0, team := 0, mode := 0, opword := w, rowctl := r }
    let good : Prop := State.opBits x = true
    let rowOk : Prop := s.rowChecks rc = none
    let all : Nat → Bool := fun _ => true
    let plane (r : Nat) (c : Word) : Prop := s.opChecks x r false planes all c = .ok o
    (good → plane 64 0 → enters (.ldw sc a) { row 0x59 x 0 with dest := wdFmt o.desc } (State.opEntries o 64 64 false false 0) []) ∧
    enters (.wswap sc) (row 0x5A 0 0) [] [] ∧
    (good → rowOk → plane rows rc → (State.planesAfter m).1 = some f → matrixClass f = matrixClass (wdFmt o.desc) →
      enters (.mma sc d a z) { row 0x5B x rc with zero := z = 1#1 } (State.opEntries o rows 64 false false 0) []) ∧
    (good → State.rcBits rc = true → State.rcRange rc = true → rows = 64 →
      s.opChecks x 64 false planes (fun f => matrixClass f = 0 || State.rcBase rc + matrixK f ≤ 256) rc = .ok o →
      enters (.mmat sc d a) (row 0x5C x rc) (State.opEntries o 64 64 false false 0) []) ∧
    (good → rowOk → s.opChecks x rows true (fun f => (1, f = 9 || f = fmtRaw)) all rc = .ok o →
      enters (.mperm sc d a) (row 0x5D x rc) (State.opEntries o rows 1 true false 0) []) ∧
    (let lg := x.toNat / 256 % 8
     x.toNat / 2 ^ 11 = 0 → State.rcBits rc = true → State.rcRange rc = true → 1 ≤ lg → lg ≤ 5 → State.rcBase rc + rows ≤ 256 →
      x.toNat % 256 + 2 ^ lg * rows ≤ 256 → enters (.mred sc d a) (row 0x5E x rc) [] []) ∧
    (x.toNat / 2 ^ 9 = 0 → x.toNat % 8 = 0 → enters (.mrd sc d a) { row 0x5F x 0 with dest := d.toNat, lanes := s.cur.lanes } []
      ((List.range 8).map fun i => ⟨.lane, d.toNat + i, s.cur.lanes, 2 ^ 40 + n⟩)) ∧
    (good → rowOk → s.opChecks x rows false (fun f => (rowBytes f, 1 ≤ f && f ≤ 5)) all rc = .ok o →
      enters (.mst sc d a) (row 0x60 x rc) (State.opEntries o rows (64 * elemSize (wdFmt o.desc)) false true 0) []) ∧
    (rowOk → enters (.mzero sc d) (row 0x61 0 rc) [] []) ∧
    (8 ≤ m.queue.length → s.Runs (.wswap sc) → exec (.wswap sc) s = .next s.putOff) ∧
    (let trap (reason : Nat) (w : Word) : TrapInfo :=
       { group := 0x0A, code := reason * 4096, async := false, lv := false, lane := 0, t1 := w, t2 := s.cur.word, epc := s.cur.pc }
     (State.opBits x = false → ∀ i ∈ [Instr.ldw sc a, .mma sc d a z, .mmat sc d a, .mperm sc d a, .mst sc d a], s.Runs i →
       exec i s = .next (s.syncTrap (trap 1 x))) ∧
     (s.rowChecks rc = if State.rcBits rc = false then some (trap 1 rc) else if State.rcRange rc = false then some (trap 2 rc)
       else if 256 < State.rcBase rc + rows then some (trap 3 rc) else none) ∧
     (good → rowOk → plane rows rc → (State.planesAfter m).1 = none → s.Runs (.mma sc d a z) →
       exec (.mma sc d a z) s = .next (s.syncTrap (trap 10 x))))

/-- 12 R257: MSIGN signs for the lanes of Active. Below the count the lanes pass the matrix instruction that follows; with
the last signature they go on to it, and the convergence register starts its next generation, its ARMED, SIGNED and signed
mask cleared. A group whose lanes have signed is put off; a count that differs from EXPECT, or more signatures than it
counts, traps. The signers' topmost trackers are kept with the bound lanes (17 R339). -/
def Obligations.SignResults : Prop :=
  ∀ (s : State) (sc : BitVec 2) (n : BitVec 4) (count : BitVec 12) (a : BitVec 6) (i : Instr) (x : Word),
    (i, x) ∈ [(Instr.msignCount sc n count, count.setWidth 32), (.msignReg sc n a, s.us a)] →
    let c := s.cur.core
    let cv := s.cvReg n.toNat
    let had : Nat := if cv.armed then cv.signed else 0
    let tot := had + (lanesOf s.cur.lanes).length
    let mask : Map Mask := cv.mask.upd 0 s.me.wid (· ||| s.cur.lanes)
    let fits : Prop := x.toNat ≠ 0 ∧ x.toNat ≤ 1024 ∧ (cv.armed = true → x.toNat = cv.expect)
    let free : Prop := cv.mask.get 0 s.me.wid &&& s.cur.lanes = 0#32 ∧ s.storesOut c s.cur.slot = false
    let stamped : State := match s.topTracker c s.cur.slot with
      | some t => s.updTracker c t fun y => State.stamp y 2 true
      | none => s
    let signers := (s.cc c).warps.filter fun e => decide (e.2.team = s.me.team ∧ mask.get 0 e.2.wid ≠ 0#32)
    let put (cv : CvReg) : State := stamped.updTeam c s.me.team fun t => { t with cv := t.cv.set n.toNat cv }
    s.boundNext = true →
    (free → fits →
      (tot < x.toNat → s.Does i sc (put { armed := true, expect := x.toNat, signed := tot, gen := cv.gen, mask := mask })
        (some fun _ => s.fallThrough + 4)) ∧
      (tot = x.toNat → ∃ trs : List Nat, s.DoesFall i sc ((put { expect := x.toNat, gen := (cv.gen + 1) % 65536 }).updMe fun w =>
          { w with sched := { w.sched with bound := w.sched.bound ++ [(s.cur.lanes, trs)] } }) ∧
        ∀ m, m ∈ trs ↔ ∃ e ∈ signers, stamped.topTracker c e.1 = some m) ∧
      (x.toNat < tot → s.Runs i → exec i s = .next (s.syncTrap
        { group := 0x0A, code := 0xE000 + n.toNat * 256, async := false, lv := false, lane := 0, t1 := x, t2 := s.cur.word, epc := s.cur.pc }))) ∧
    (free → ¬ fits → s.Runs i → exec i s = .next (s.syncTrap
      { group := 0x0A, code := 0xD000 + n.toNat * 256, async := false, lv := false, lane := 0, t1 := x, t2 := s.cur.word, epc := s.cur.pc })) ∧
    (¬ free → s.Runs i → exec i s = .next s.putOff)

/-! ## Traps, regions and tokens (11, 20, 17, 12, 15) -/

/-- 20 R364, R369, R370, R371: trap entry, and the pending asynchronous trap that is taken. With a vector and no handler
running the group enters the handler; without a vector, or within a handler, the warp freezes with a fault record of
code 0x20 or 0x21. Of the pending asynchronous traps the lowest cause group is taken, of that the oldest, by the group
that would be first; its EPC is that group's PC. TDET0 holds code, A, LV, LANE, NPEND and GROUP in this order. -/
def Obligations.TrapEntries : Prop :=
  ∀ (s : State) (c k : Nat) (g : Mask) (t : TrapInfo), coreOk c = true → k ≤ 32 →
    let w := s.warp c k
    let flag (b : Bool) : Nat := if b then 1 else 0
    (w.trap.tvec ≠ 0 → w.trap.inHandler = false →
      ∃ u, exec (.trapEntry c k g t) s = .next u ∧ s.Trapped c k g t u ∧ s.takeTrap c k g t = u) ∧
    (w.trap.tvec = 0 ∨ w.trap.inHandler = true → ∃ e : State, exec (.trapEntry c k g t) s =
        .next (e.freeze c k (if w.trap.tvec = 0 then 0x20 else 0x21)) ∧ e = { s with cores := e.cores } ∧
      (∀ j, j ≠ c → e.core j = s.core j) ∧ (∀ j, j ≠ k → e.warp c j = s.warp c j) ∧
      (e.warp c k).trap = { w.trap with tdet0 := (e.warp c k).trap.tdet0, tdet1 := t.t1, tdet2 := t.t2, epc := t.epc } ∧
      (∀ l, (e.warp c k).lane l = w.lane l)) ∧
    (∀ n, t.code < 2 ^ 16 → t.group < 32 → t.lane < 32 → (t.lv = false → t.lane = 0) →
      let d := (tdet0 t n).toNat
      d / 2 ^ 16 = t.code ∧ d / 2 ^ 15 % 2 = flag t.async ∧ d / 2 ^ 14 % 2 = flag t.lv ∧
      d / 2 ^ 8 % 2 ^ 6 = t.lane ∧ d / 2 ^ 5 % 8 = min n 7 ∧ d % 32 = t.group) ∧
    (w.trap.inHandler = true → exec (.asyncTrapTake c k) s = .next s) ∧
    (w.trap.inHandler = false →
      (w.trap.async = [] ∨ s.readyGroups c k = [] → exec (.asyncTrapTake c k) s = .next s) ∧
      (∀ p q x, w.trap.async = p ++ t :: q → (∀ y ∈ p, t.group < y.group) → (∀ y ∈ q, t.group ≤ y.group) →
        State.firstGroup w (s.readyGroups c k) = some x →
        let e := s.updWarp c k fun w => w.updTrap fun y => { y with async := p ++ q }
        exec (.asyncTrapTake c k) s = .next (e.takeTrap c k x.lanes { t with epc := x.pc })))

/-- 11 R235, R236; 12 R253; 17 R341; 20 R369, R372: TRAP and BKPT complete and then take DEBUG; for a debugger that has
claimed breakpoints BKPT stops the warp instead. RFT sends its group to EPC and ends the handler, so that the held
lanes go on; the warp's halted copies whose traps have been taken are tried again. -/
def Obligations.TrapWords : Prop :=
  ∀ (s : State) (sc : BitVec 2) (n : BitVec 12),
    let c := s.cur.core
    let k := s.cur.slot
    let next : Word := s.cur.pc + BitVec.ofNat 32 (4 * (s.cur.pos + 1))
    let e := s.updMe fun w => w.updLanes s.cur.lanes fun _ l => { l with pc := next }
    let back := s.updMe fun w =>
      (w.updTrap fun t => { t with inHandler := false }).updLanes s.cur.lanes fun _ l => { l with pc := s.me.trap.epc }
    ((s.cur.second = true → s.cur.firstTrapped = false) → s.me.trap.tvec ≠ 0 → s.me.trap.inHandler = false →
      ∀ i kind, (i, kind) ∈ [(Instr.trap sc n, 1), (.bkpt sc n, 2)] → (kind = 2 → (s.ctx s.me.ctx).claim = false) →
      s.Runs i → ∃ u, exec i s = .next { u with cur := { s.cur with firstTrapped := true } } ∧
        e.Trapped c k s.cur.lanes
          { group := 0x0E, code := kind * 2 ^ 12 + n.toNat, async := false, lv := false, lane := 0, t1 := 0
            t2 := BitVec.ofNat 32 (s.me.topRegion.toNat * 2 ^ 16 + s.me.uni.regions.length), epc := next } u) ∧
    ((s.ctx s.me.ctx).claim = true →
      s.DoesFall (.bkpt sc n) sc (s.debugStop 1 n.toNat) ∧ (s.debugStop 1 n.toNat).me.trap.dbgStopped = true) ∧
    (s.me.uni.rep = none → s.me.sched.spawns = [] → (∃ l < 32, (s.me.lane l).state = .runnable) →
      s.Does (.rft sc) sc (back.retryCopies c k) none) ∧
    (((s.cc c).copies.filter fun e => e.2.slot = k && e.2.halted) = [] → (back.retryCopies c k).me = back.me ∧
      (back.retryCopies c k).agenda = s.agenda) ∧
    (∀ m x, (s.cc c).copies.find m = some x → x.slot = k → x.halted = true →
      (∀ t ∈ s.me.trap.async, t.group = 9 → t.code / 2 ^ 8 % 16 ≠ x.desc) →
      Instr.copyComplete c m ∈ (back.retryCopies c k).agenda)

/-- 11 R235, R239; 17 R333, R336, R338, R340 to R342: RGNENT pushes a region id and RGNLVE pops it, each with a record of
the edge; a tile region opens a tracker, or counts an event where the core has none free; the trigger region starts and
ends a capture; an edge that the debugger has named, or HALT, stops the warp. An id of 0, a seventeenth region, an
empty stack and another top raise DEBUG.
It rests on the model's choices of notes 58 and 59. -/
def Obligations.RegionResults : Prop :=
  ∀ (s : State) (sc : BitVec 2) (a : BitVec 6),
    let c := s.cur.core
    let h := s.me.ctx
    let id := (s.us a).extractLsb' 0 16
    let depth := s.me.uni.regions.length
    let trig : Bool := decide (id = (s.ctx h).capctl.extractLsb' 16 16)
    let trap (kind : Nat) : TrapInfo := { group := 0x0E, code := kind * 2 ^ 12, async := false, lv := false, lane := 0
                                          t1 := id.setWidth 32, t2 := BitVec.ofNat 32 (s.me.topRegion.toNat * 2 ^ 16 + depth)
                                          epc := s.cur.pc }
    let traps (i : Instr) (kind : Nat) : Prop := s.Runs i → exec i s = .next (s.syncTrap (trap kind))
    let stack (rs : List (BitVec 16)) (e : State) : State := e.updMe fun w => w.updUni fun u => { u with regions := rs }
    let record (edge : Nat) : State := s.trace c 1 s.me.wid edge 0 s.me.rgns
      (0#192 ++ BitVec.ofNat 64 s.now ++ id.setWidth 64)
    let quiet (edge : Nat) (e : State) : Prop := ((∀ n < 4, ((e.ctx h).stoprgn n).getLsbD 31 = true →
      ((e.ctx h).stoprgn n).extractLsb' 0 16 = id → ((e.ctx h).stoprgn n).toNat / 2 ^ 16 % 4 / edge % 2 = 0) ∧ (e.ctx h).halt = false)
    (id = 0#16 → traps (.rgnent sc a) 3) ∧
    (id ≠ 0#16 → 16 ≤ depth → traps (.rgnent sc a) 4) ∧
    (depth = 0 → traps (.rgnlve sc a) 5) ∧
    (depth ≠ 0 → s.me.uni.regions.head? ≠ some id → traps (.rgnlve sc a) 6) ∧
    (id ≠ 0#16 → depth < 16 →
      let e := stack (id :: s.me.uni.regions) (record 0)
      let e := if id.getLsbD 15 then e.openTracker id else e
      let e := if trig then e.beginCapture h 1 else e
      s.DoesFall (.rgnent sc a) sc (e.edgeStop id 1)) ∧
    (∀ rest, s.me.uni.regions = id :: rest →
      let e := (stack rest (record 1)).closeTracker depth
      let e := if (s.ctx h).cap.live && (s.ctx h).cap.trigger = 1 && trig then e.post (.captureEnd h) else e
      s.DoesFall (.rgnlve sc a) sc (e.edgeStop id 2)) ∧
    (quiet 1 s → s.edgeStop id 1 = s) ∧ (quiet 2 s → s.edgeStop id 2 = s) ∧
    (∀ n, n < 16 → (∀ m < n, ((s.cc c).trackers.find m).isSome) → (s.cc c).trackers.find n = none →
      ((s.openTracker id).cc c).trackers.find n = some
        { slot := s.cur.slot, rid := id, rgns := s.me.rgns, cyc0 := s.now, depth := depth, wid := s.me.wid }) ∧
    ((s.ctx h).cap.live = false → ((s.beginCapture h 1).ctx h).cap = { live := true, trigger := 1 })

/-- 12 R268, R270 to R272; 15 R319: a token command whose lanes pass their checks becomes a request with the next
number, after a release at .dev; its registers wait; the first submitting lane's step follows. TOKSUB and TOKCONF keep their group at
their PC until the answer; TOKSUB.d goes on. Where a slot still has a command on its way, or an arm record waits, or the release
cannot be made, the command is put off. A lane that fails raises SEQUENCE, and TOKARM, after its release, checks every record
before any of them is applied.
It rests on the model's choices of note 56. -/
def Obligations.TokenCommands : Prop :=
  ∀ (s : State) (sc : BitVec 2) (d a b : BitVec 6),
    let lanes := lanesOf s.cur.lanes
    let ls := (lanes.map fun l => (l, s.me.v a.toNat l, s.me.v b.toNat l)).filter fun e => !e.2.1.getLsbD 31
    let slots := ls.map fun e => e.2.1.toNat % 2 ^ 14
    let rel := s.releaseAt s.cur.core 4
    let n := rel.nextReq
    let h := s.me.ctx
    let va := s.us64 a
    let count := (s.us b).toNat
    let free : Prop := s.me.sched.tokarm = 0 ∧ s.slotsBusy slots = false
    let q (kind : Nat) : VigilReq :=
      { core := s.cur.core, slot := s.cur.slot, ctx := h, kind := kind, lanes := ls.map fun e => (e.1, e.2)
        dest := d.toNat, group := s.cur.lanes, next := s.fallThrough
        result := ((lanes.filter fun l => ls.all fun e => e.1 != l).flatMap fun l => (List.range 8).map fun i => (8 * l + i)).foldl
          (fun (m : Map Word) i => m.set i 0) [] }
    let first (kind : Nat) : Instr := match ls with
      | [] => .vigilResultArrival n
      | e :: _ => if kind = 0 then .vigilStep n e.1 else if kind = 1 then .vigilDraftStep n e.1 else .vigilConfirm n e.1
    let can : Prop := s.canRelease s.cur.core s.cur.slot 4 = true
    let asked (kind : Nat) (t : State) : Prop :=
      t.vreqs.find n = some (q kind) ∧ (∀ m, m ≠ n → t.vreqs.find m = s.vreqs.find m) ∧ t.nextReq = n + 1 ∧
      t.agenda = rel.agenda ++ [first kind] ∧ t.mem = rel.mem ∧ t.vigil = s.vigil ∧
      t.me = { s.me with var := s.me.var ++ (List.range 8).map fun j => ⟨.lane, d.toNat + j, s.cur.lanes, n⟩, sched := t.me.sched } ∧
      t.me.sched = { s.me.sched with atHome := s.me.sched.atHome ++ if kind = 1 then [] else [(n, s.cur.lanes)] }
    let word (i : Instr) (kind : Nat) : Prop := (i, kind) ∈ [(Instr.toksub sc d a b, 0), (.toksubD sc d a b, 1), (.tokconf sc d a b, 2)]
    let seq (code : Nat) (m : Mask) (lv : Bool) (lane x : Nat) : TrapInfo :=
      { group := 0x0D, code := code, async := false, lv := lv, lane := lane, t1 := m, t2 := BitVec.ofNat 32 x, epc := s.cur.pc }
    (∀ kind (e : Nat × Word × Word), kind < 3 → let k := e.2.1.toNat % 2 ^ 14
      s.tokCheck kind ls e =
        if e.2.1.toNat / 2 ^ 14 % 2 ^ 17 ≠ 0 then 1
        else if (s.vslot k).owner ≠ some h then 2
        else if ∃ f ∈ ls, f.1 < e.1 ∧ f.2.1.toNat % 2 ^ 14 = k then 3
        else if kind ≠ 2 ∧ e.2.2.toNat / 2 ^ 24 ≠ 0 then 7
        else if kind = 0 ∧ (s.vslot k).drafts ≠ [] then 4
        else if kind = 1 ∧ 8 ≤ (s.vslot k).drafts.length then 5
        else if kind = 2 ∧ (8 < e.2.2.toNat ∨ (s.vslot k).drafts.length < e.2.2.toNat) then 6 else 0) ∧
    ((s.ctx h).hasFeat featVigil = true →
      (free → ¬ can → ∀ i kind, word i kind → (∀ e ∈ ls, s.tokCheck kind ls e = 0) → s.Runs i → exec i s = .next s.putOff) ∧
      (free → can → ∀ i kind, word i kind → (∀ e ∈ ls, s.tokCheck kind ls e = 0) →
        ∃ t, asked kind t ∧ s.Does i sc t (if kind = 1 then some fun _ => s.fallThrough else none)) ∧
      (free → ∀ i kind, word i kind → ∀ p e r, ls = p ++ e :: r → (∀ x ∈ p, s.tokCheck kind ls x = 0) → s.tokCheck kind ls e ≠ 0 →
        s.Runs i → ∃ m : Mask, (∀ l < 32, m.getLsbD l = true ↔ ∃ x ∈ ls, x.1 = l ∧ s.tokCheck kind ls x ≠ 0) ∧
        exec i s = .next (s.syncTrap (seq (0x1000 + s.tokCheck kind ls e * 2 ^ 8) m true e.1 (e.2.1.toNat % 2 ^ 14)))) ∧
      (¬ free → ∀ i kind, word i kind → s.Runs i → exec i s = .next s.putOff) ∧
      (s.me.sched.tokarm ≠ 0 → s.Runs (.tokarm sc a b) → exec (.tokarm sc a b) s = .next s.putOff) ∧
      (s.me.sched.tokarm = 0 → count = 0 ∨ 256 < count → s.Runs (.tokarm sc a b) →
        exec (.tokarm sc a b) s = .next (s.syncTrap (seq 0x3100 0 false 0 count))) ∧
      (s.me.sched.tokarm = 0 → count ≠ 0 → count ≤ 256 →
        (¬ can → s.Runs (.tokarm sc a b) → exec (.tokarm sc a b) s = .next s.putOff) ∧
        (∀ x, can → rel.vaRead s.myDie h kRecord va (128 * count) = .error x → s.Runs (.tokarm sc a b) →
          exec (.tokarm sc a b) s = .next (rel.syncTrap (s.accTrap s.firstLane x))) ∧
        (∀ e bs, can → rel.vaRead s.myDie h kRecord va (128 * count) = .ok (e, bs) →
          let recs := (List.range count).map fun i => BitVec.ofNat 1024 (leNat ((bs.drop (128 * i)).take 128))
          (va.toNat % 128 ≠ 0 → s.Runs (.tokarm sc a b) →
            exec (.tokarm sc a b) s = .next (e.syncTrap (s.accTrap s.firstLane (accFail 4 kRecord va)))) ∧
          (va.toNat % 128 = 0 → ∀ i < count, (∀ j < i, e.armValid h (recs.getD j 0) = true) → e.armValid h (recs.getD i 0) = false →
            s.Runs (.tokarm sc a b) → exec (.tokarm sc a b) s = .next (e.syncTrap (seq 0x3000 0 false 0 i))) ∧
          (va.toNat % 128 = 0 → (∀ r ∈ recs, e.armValid h r = true) →
            ∃ t, s.DoesFall (.tokarm sc a b) sc t ∧ t.agenda = e.agenda ++ [.vigilArmApply e.nextReq] ∧ t.nextReq = e.nextReq + 1 ∧
              t.vreqs.find e.nextReq = some { core := s.cur.core, slot := s.cur.slot, ctx := h, kind := 3, lanes := [], records := recs } ∧
              t.me = { s.me with sched := { s.me.sched with tokarm := s.me.sched.tokarm + 1 } } ∧ t.mem = e.mem ∧ t.vigil = s.vigil)))) ∧
    ((s.ctx h).hasFeat featVigil = false →
      (∀ i kind, word i kind → s.Runs i → exec i s = .next (s.syncTrap (s.accTrap s.firstLane (accFail 10 kLoad 0)))) ∧
      (s.Runs (.tokarm sc a b) → exec (.tokarm sc a b) s = .next (s.syncTrap (s.accTrap s.firstLane (accFail 10 kRecord va)))))

/-! ## Events: issue, admission and launches (02, 13) -/

/-- 02 R24, R26; 08 R150; 13 R286, R287: an issue cycle of quad 0 is one cycle of its core's clock, in which due results
land and due timers fire. Where no context runs on the core, or Equinox has not let it start, no warp of the context is
chosen. Of a quad's only warp with a ready group that group issues, and its lanes' wait counts rise; of several groups, in the order of their PCs, the
one with the most lanes comes first, the lower PC among equals.
It rests on the model's choices of notes 4, 11 and 32. -/
def Obligations.IssueCycles : Prop :=
  ∀ (s : State) (c q : Nat), coreOk c = true → q < 4 →
    (q ≠ 0 → s.coreRuns c = false ∨ (s.core c).granted = false → s.Goes (.quadIssueCycle c q) s) ∧
    (q = 0 → s.coreRuns c = false → (s.tick c).readyGroups c 32 = [] → ∃ t, s.Goes (.quadIssueCycle c q) t ∧
      let n := (s.core c).cyc + 1
      (t.core c).cyc = n ∧ (t.core c).timers = ((s.core c).timers.filter fun e => n < e.1) ∧
      (∀ e ∈ (s.core c).timers, e.1 ≤ n → e.2 ∈ t.agenda) ∧ (∀ e ∈ s.agenda, e ∈ t.agenda) ∧
      (t.core c).fw = (s.core c).fw.landDue n ∧ t.mem = s.mem) ∧
    (∀ k g, s.coreRuns c = true → (s.core c).granted = true → q ≠ 0 → s.quadSlots c q = [k] → k < 32 →
      s.cands c k = [g] → g.ready = true → s.warpOpen c k = true → (s.warp c k).trap.async = [] →
      ∃ t, s.Goes (.quadIssueCycle c q) t ∧ t.mem = s.mem ∧ t.issuing =
        [{ core := c, slot := k, lanes := g.lanes, pc := g.pc, mode := (s.warp c k).uni.mode, spntmr := (s.cc c).spntmr, second := false }] ∧
        (∀ l < 32, g.lanes.getLsbD l = true → ((t.warp c k).lane l).waits = ((s.warp c k).lane l).waits + 1)) ∧
    (∀ (a r : List Cand) (g : Cand), (∀ x ∈ a, (lanesOf x.lanes).length < (lanesOf g.lanes).length) →
      (∀ x ∈ r, (lanesOf x.lanes).length ≤ (lanesOf g.lanes).length) → State.mostLanes (a ++ g :: r) = some g)

/-- 02 R37, R38; 13 R280 to R282, R277: a bin's timer that has run its period makes the bin ready until it launches. A
ready bin launches a warp of its threads in order, each lane with its argument in v0, and empties. A core admits at most
one unit or warp in a cycle: an evicted unit first, then a spawn bin, then a new unit; with none to admit a parked unit may
be evicted (02 R41). The unit of a claim is the number of the ticket of the core's own die. An agent takes a descriptor only while its partition runs the context;
one that passes its checks is placed on the allowed partitions, and their cores are asked.
It rests on the model's choices of notes 36 to 38 and 64. -/
def Obligations.AdmissionEvents : Prop :=
  ∀ (s : State) (c b : Nat) (x : SpawnBin), coreOk c = true →
    let p := partOfCore c
    let h := (s.cc c).ctx
    let may : Prop := (s.core c).admitAt ≤ (s.core c).cyc
    let again (t : State) : State := (t.updCore c fun y => { y with admitAt := y.cyc + 1 }).postAfter c 1 (.coreAdmission c)
    ((s.cc c).bins.find b = some x →
      (x.threads ≠ [] → x.period ≤ x.elapsed → s.Goes (.spawnBinTimerExpiry c b)
        ((s.updCc c fun y => { y with bins := y.bins.set b { x with expired := true } }).post (.coreAdmission c))) ∧
      (x.threads = [] ∨ x.elapsed < x.period → s.Goes (.spawnBinTimerExpiry c b) s) ∧
      (x.threads = [] ∨ (x.threads.length < 32 ∧ x.expired = false) → s.Goes (.spawnBinLaunch c b) s) ∧
      (∀ tm m wid k, s.binPlace c b = some (tm, m, wid) → s.freeSlot c = some k → s.coreRuns c = true →
        32 ≤ x.threads.length ∨ (x.threads ≠ [] ∧ x.expired = true) → s.gangWaits c tm = false →
        (¬ may → s.Goes (.spawnBinLaunch c b) (s.postAfter c 1 (.coreAdmission c))) ∧
        (may → k < 32 → 1 ≤ ldBlocks (s.launch m.launch).desc →
        ∃ t, s.Goes (.spawnBinLaunch c b) t ∧ (t.cc c).bins.find b = none ∧ t.mem = s.mem ∧
          (∀ j, j ≠ k → t.warp c j = s.warp c j) ∧ (t.warp c k).wid = wid ∧ (t.warp c k).team = tm ∧ (t.warp c k).ctx = h ∧
          (∀ j < 32, ((t.warp c k).lane j).state = (if j < x.threads.length then .runnable else .exited) ∧
            (j < x.threads.length → ((t.warp c k).lane j).pc = x.entry ∧ (t.warp c k).lreg.find j = some (x.threads.getD j (0, 0)).1))))) ∧
    (s.coreRuns c = false → s.Goes (.coreAdmission c) s) ∧
    (s.coreRuns c = true → ¬ may → s.Goes (.coreAdmission c) (s.postAfter c 1 (.coreAdmission c))) ∧
    (s.coreRuns c = true → may →
      (∀ t, s.readmit p h = some t → s.Goes (.coreAdmission c) (again t)) ∧
      (s.readmit p h = none →
        (b < 16 → (∀ i < b, s.binReady c i = false) → s.binReady c b = true → (s.binPlace c b).isSome → (s.freeSlot c).isSome →
          s.Goes (.coreAdmission c) ((s.post (.spawnBinLaunch c b)).postAfter c 1 (.coreAdmission c))) ∧
        (∀ t l, (∀ i < 16, s.binReady c i = false) → s.launchesOf h = [l] → (s.launch l).lazy = [] → s.admitUnit l c = (t, true) →
          s.Goes (.coreAdmission c) (again t)) ∧
        (∀ t, (∀ i < 16, s.binReady c i = false) → s.admitNew c (s.launchesOf h) = (t, false) → s.Goes (.coreAdmission c) (t.evictOne p h)))) ∧
    (∀ (l : Nat) place v, (s.launch l).tickets.find (dieOfCore c) = some v → (s.launch l).parts.contains p = true →
      ((s.launch l).exhausted.contains (4 * c + dieOfCore c)) = false →
      s.unitPlace c (s.launch l).desc = some place → v.toNat < (State.dieShare (s.launch l) (dieOfCore c)).2 →
      s.admitUnit l c = (((s.updLaunch l fun x => { x with tickets := x.tickets.set (dieOfCore c) (BitVec.ofNat 64 (v.toNat + 1)) }).startUnit
        p l ((State.dieShare (s.launch l) (dieOfCore c)).1 + v.toNat) 0 none [(0, partEntry p)] place), true)) ∧
    (∀ agent ctx addr (d : Block), agent < 32 →
      (s.runsOn (agentCore agent) ctx = false → s.Goes (.launchDescriptorTake agent ctx addr d) (s.post (.launchDescriptorTake agent ctx addr d))) ∧
      (s.runsOn (agentCore agent) ctx = true → (s.ctx ctx).rpcb = 0#64 →
        let e := s.touchWtab (dieOfCore (agentCore agent)) ctx d
        (e.launchBad (dieOfCore (agentCore agent)) ctx d = none → ldGroles d = 1 →
          ∃ t, s.Goes (.launchDescriptorTake agent ctx addr d) t ∧
          let ps := (e.allowedParts ctx d).filter fun p => !(e.part p).offline
          t.nextLaunch = e.nextLaunch + 1 ∧ t.mem = e.mem ∧ t.cores = e.cores ∧
          t.agenda = e.agenda ++ (ps.flatMap coresOf).map (fun k => Instr.coreAdmission k) ∧
          ∃ r, t.launches.find e.nextLaunch = some r ∧ r.ctx = ctx ∧ r.addr = addr ∧ r.desc = d ∧ r.parts = ps ∧
            r.total = if ldDisp d = 1 then r.lazy.length / ldTroles d else ldGrid d) ∧
        (∀ code, e.launchBad (dieOfCore (agentCore agent)) ctx d = some code → ldCctr d = 0#64 →
          s.Goes (.launchDescriptorTake agent ctx addr d) (e.refusal (dieOfCore (agentCore agent)) ctx code (BitVec.ofNat 64 addr)))))

/-! ## Events: agents' queues, graphs and rings (13, 16) -/

/-- 13 R278; 16 R328 to R331: what a firmware agent does for a submission queue, a command graph and a host ring, while its
partition runs their context. It takes a ticket, waits until PUB exceeds it, and processes the entry; it walks a graph node
by node; it counts the ring entries that are in place, adds them to TAIL, and raises the interrupt at K pending
entries or after WIN cycles. A control block, a head or a node that breaks its layout is refused: 0x13, or 0x10, or
0x11 where it cannot be read.
It rests on the model's choices of notes 69 to 71. -/
def Obligations.QueueEvents : Prop :=
  ∀ (s e w : State) (q r : Nat) (x : QueueRec) (y : RunRec) (z : RingRec) (b : Block) (home tail : CtrHome),
    let die := dieOfPart
    let node (t : Nat) : Prop := s.runs.find r = some y ∧ s.runsOn (24 * y.agent) y.ctx = true ∧ y.node ≠ 0 ∧
      s.agentRead (die y.agent) y.ctx y.node = some (e, b) ∧ ndBad b = false ∧ ndType b = t
    let next (u : State) : State := (u.setNode r (ndNext b)).nextNode r
    let parked (u : State) (slot : Nat) (agent : Nat) (thr : DWord) : State := u.agentPark (24 * agent) slot home thr
    (s.queues.find q = some x →
      (x.serving = false ∨ s.runsOn (24 * x.agent) x.ctx = false → s.Goes (.submissionQueueEntry q) s) ∧
      (x.serving = true → s.runsOn (24 * x.agent) x.ctx = true →
        (∀ t u, x.ticket = none → s.agentHome (die x.agent) x.ctx (qcbTkt x.block) = some home → s.ctrHold home true = none →
          s.ctrAdd (die x.agent) x.ctx home 1 = some (t, u) →
          s.Goes (.submissionQueueEntry q) ((u.updQueue q fun y => { y with ticket := some t }).post (.submissionQueueEntry q))) ∧
        (∀ t, x.ticket = some t → s.readHome (die x.agent) x.ctx (qcbPub x.block) = some home → s.ctrHold home false = none →
          (t < s.ctrRead (die x.agent) home → s.Goes (.submissionQueueEntry q)
            ((((s.dropWaiters (24 * x.agent) (agentSlot 0 q)).updQueue q fun y => { y with ticket := none }).processEntry q x t).post
              (.submissionQueueEntry q))) ∧
          (s.ctrRead (die x.agent) home ≤ t → s.Goes (.submissionQueueEntry q) (parked s (agentSlot 0 q) x.agent (t + 1)))))) ∧
    (∀ agent ctx head, agent < 32 →
      (s.agentRead (die agent) ctx head = none → s.Goes (.run agent ctx head 0) (s.refusal (die agent) ctx 0x11 (BitVec.ofNat 64 head))) ∧
      (s.agentRead (die agent) ctx head = some (e, b) → ndType b ≠ 6 ∨ ndBad b = true →
        s.Goes (.run agent ctx head 0) (e.refusal (die agent) ctx 0x10 (BitVec.ofNat 64 head))) ∧
      (s.agentRead (die agent) ctx head = some (e, b) → ndType b = 6 → ndBad b = false → s.Goes (.run agent ctx head 0)
        (State.nextNode { e with
          runs := e.runs.set e.nextRun { ctx := ctx, agent := agent, head := head, node := (ndBody b 0).toNat, entry := some b }
          nextRun := e.nextRun + 1 } e.nextRun))) ∧
    (∀ e ∈ [Instr.launchNode r, .copyNode r, .signalNode r, .waitNode r, .condNode r],
      (s.runs.find r = none → s.Goes e s) ∧
      (s.runs.find r = some y → s.runsOn (24 * y.agent) y.ctx = false → s.Goes e s)) ∧
    (node 1 → (∀ d, e.agentRead (die y.agent) y.ctx (ndBody b 0).toNat = some (w, d) → s.Goes (.launchNode r)
        (((w.setNode r (ndNext b)).post (.launchDescriptorTake y.agent y.ctx (ndBody b 0).toNat d)).nextNode r)) ∧
      (e.agentRead (die y.agent) y.ctx (ndBody b 0).toNat = none → s.Goes (.launchNode r) (e.badNode r 0x11 (ndBody b 0).toNat))) ∧
    (node 2 → let c := 24 * y.agent
      let n := (e.cc c).nextOp
      let cp : Copy := { slot := 64, team := 32, ctx := y.ctx, dir := 3, src := ndBody b 0, dst := ndBody b 1, len := b.toNat / 2 ^ 128 % 2 ^ 32
                         rows := 1, spitch := 0, dpitch := 0, started := false
                         node := some (ndBody b 3, b.extractLsb' 160 32, y.ctx, ndScope b + 2) }
      s.Goes (.copyNode r) (next ((e.updCc c fun z => { z with nextOp := n + 1, copies := z.copies.set n cp }).startSlices c))) ∧
    (node 3 → s.Goes (.signalNode r) (((e.setNode r (ndNext b)).agentAdd (24 * y.agent) y.ctx (.signal r y.node) (ndBody b 0)
      (lo32 (ndBody b 1)) (ndScope b + 2)).nextNode r)) ∧
    (∀ i, e.iterOf y = some (w, i) → e.readHome (die y.agent) y.ctx (ndBody b 0) = some home → w.ctrHold home false = none →
      let thr := (ndBody b 1).toNat + (ndBody b 2).toNat * i
      let v := (w.ctrRead (die y.agent) home).toNat
      let met : State := w.acquireAt (24 * y.agent) (ndScope b + 2)
      (node 4 → (thr ≤ v → s.Goes (.waitNode r) (next (met.dropWaiters (24 * y.agent) (agentSlot 1 r)))) ∧
        (v < thr → thr < 2 ^ 64 → s.Goes (.waitNode r) (parked w (agentSlot 1 r) y.agent (BitVec.ofNat 64 thr))) ∧
        (2 ^ 64 ≤ thr → s.Goes (.waitNode r) w)) ∧
      (node 5 → (thr ≤ v → s.Goes (.condNode r) (next met)) ∧
        (v < thr → ndRearm b = false ∨ y.head = 0 → s.Goes (.condNode r) ((w.setNode r (ndBody b 3).toNat).nextNode r)) ∧
        (∀ u, v < thr → ndRearm b = true → y.head ≠ 0 →
          w.vaWrite (die y.agent) y.ctx kStore (BitVec.ofNat 64 (y.head + 8)) (leBytes 8 (i + 1)) = .ok u →
          s.Goes (.condNode r) ((u.setNode r (ndBody b 3).toNat).nextNode r)))) ∧
    (∀ agent ctx addr ring, agent < 32 →
      (s.agentRead (die agent) ctx addr = none →
        s.Goes (.queueControlBlockGiven agent ctx addr ring) (s.refusal (die agent) ctx 0x13 (BitVec.ofNat 64 addr))) ∧
      (s.agentRead (die agent) ctx addr = some (e, b) → (if ring then rbOk b else qcbOk b) = false →
        s.Goes (.queueControlBlockGiven agent ctx addr ring) (e.refusal (die agent) ctx 0x13 (BitVec.ofNat 64 addr))) ∧
      (s.agentRead (die agent) ctx addr = some (e, b) → ring = true → rbOk b = true → e.rings = [] →
        s.Goes (.queueControlBlockGiven agent ctx addr ring)
          (State.post { e with rings := [(0, { ctx := ctx, agent := agent, block := b, serving := true })] } (.ringAgentPass 0))) ∧
      (s.agentRead (die agent) ctx addr = some (e, b) → ring = false → qcbOk b = true → (qcbPmask b).getLsbD agent = true → e.queues = [] →
        s.Goes (.queueControlBlockGiven agent ctx addr ring)
          (State.post { e with queues := [(0, { ctx := ctx, agent := agent, block := b, serving := true })] } (.submissionQueueEntry 0)))) ∧
    (s.rings.find q = some z → let c := 24 * z.agent
      (z.serving = false ∨ s.runsOn c z.ctx = false → s.Goes (.ringAgentPass q) s) ∧
      (z.serving = true → s.runsOn c z.ctx = true → s.readHome (die z.agent) z.ctx (rbRpub z.block) = some home → s.ctrHold home false = none →
        ∀ n, s.ringReady (die z.agent) z.ctx z.block z.t (2 ^ rbQlog z.block) 0 = (w, n) →
        (n = 0 → s.Goes (.ringAgentPass q) (parked w (agentSlot 2 q) z.agent (s.ctrRead (die z.agent) home + 1))) ∧
        (∀ old u, n ≠ 0 → w.agentHome (die z.agent) z.ctx (rbTail z.block) = some tail → w.ctrHold tail true = none →
          w.ctrAdd (die z.agent) z.ctx tail (BitVec.ofNat 64 n) = some (old, u) → z.pend ≠ 0 → z.pend + n < rbK z.block → u.rings.find q = some z →
          s.Goes (.ringAgentPass q)
            ((u.updRing q fun v => { v with t := z.t + n, pend := z.pend + n, pendSince := z.pendSince }).post (.ringAgentPass q)))) ∧
      (0 < z.pend → rbWin z.block ≠ 0 → z.pendSince + rbWin z.block ≤ (s.core c).cyc → ∃ t, s.Goes (.ringWindowExpiry q) t ∧
        t.io.msix = s.io.msix ++ [rbVec z.block] ∧ t.rings.find q = some { z with pend := 0 } ∧ t.mem = s.mem) ∧
      (z.pend = 0 ∨ rbWin z.block = 0 ∨ (s.core c).cyc < z.pendSince + rbWin z.block → s.Goes (.ringWindowExpiry q) s))

/-- 13 R283 to R285; 22 R392 to R394: the reserve-and-commit protocol. A free partition that has room for its part of a
gang holds it and agrees; one that is offline, held for another gang, committed, marked for another or without room
refuses. With the last AGREE the submitter commits; COMMIT is confirmed by the partition that holds the gang, which enters
the gang's unit in its binding tables; with the last CONFIRM the gang starts, and its teams begin, or go on after a resume,
as each START arrives. ROLLBACK clears what COMMIT has entered. A refusal or a withdrawal sends ROLLBACK to
those that agreed, and takes a ticket after the first failure. A hold of 16,384 cycles ends, and the submitter waits
2,048 cycles for the replies.
It rests on the model's choices of notes 65 and 66. -/
def Obligations.GangEvents : Prop :=
  ∀ (s : State) (p g : Nat) (x : Gang) (tk : Bool) (res : Map Word), p < 32 → s.gangs.find g = some x →
    let y := s.part p
    let now (q : Nat) : Nat := (s.core (24 * q)).cyc
    let r := s.launch x.launch
    let refuses : Prop := s.Goes (.reserve p g tk) (s.post (.refuse g p))
    let others (us : Map UnitRec) : Map UnitRec := us.filter fun u => !(decide (u.2.gang = some g) && decide (u.2.live = 0))
    let cleared : State := (s.updPart p fun z => { z with
      gang := .free, reserved := [], units := others z.units
      standby := z.standby.map fun v => { v with units := others v.units } }).askCores [p]
    let gang (f : Gang → Gang) (e : State) : State := { e with gangs := e.gangs.map fun m => if m.1 = g then (g, f m.2) else m }
    let ranged (e : State) : State := if x.resume = false ∧ ldDisp r.desc = 1 then
      e.updLaunch x.launch fun z => { z with lazy := e.gangCores g x.parts } else e
    (y.offline = true → refuses) ∧
    (y.offline = false →
      (y.gang = .free → (∀ m, y.mark = some m → m = g) → s.gangRoom p x = some res → s.Goes (.reserve p g tk)
        (((s.updPart p fun z => { z with gang := .heldFor g, heldSince := now p, reserved := res, mark := none }).post (.agree g p)).postAfter
          (24 * p) 16384 (.gangHoldTimeout p g))) ∧
      (y.gang = .free → (∃ m, y.mark = some m ∧ m ≠ g) ∨ s.gangRoom p x = none → refuses) ∧
      (y.gang = .heldFor g → s.Goes (.reserve p g tk) (s.post (.agree g p))) ∧
      (∀ m, m ≠ g → y.gang = .heldFor m → s.Goes (.reserve p g tk)
        ((if tk then s.updPart p fun z => { z with mark := some g } else s).post (.refuse g p))) ∧
      (∀ m, y.gang = .committed m → refuses)) ∧
    let role := x.parts.idxOf p
    let entered : UnitRec :=
      { ctx := r.ctx, launch := x.launch, index := role, prole := role, ttable := y.reserved
        ptable := (List.range x.parts.length).zip (x.parts.map partEntry), nwin := ldNwin r.desc, nctr := ldNctr r.desc
        troles := ldTroles r.desc, groles := ldGroles r.desc, live := 0, gang := some g, waiting := true }
    (y.gang = .heldFor g → s.Goes (.commit p g) ((s.updPart p fun z =>
      if x.resume then { z with gang := .committed g }
      else { z with gang := .committed g, units := z.units.set z.nextUnit entered, nextUnit := z.nextUnit + 1 }).post (.confirm g p))) ∧
    (y.gang ≠ .heldFor g → s.Goes (.commit p g) (s.post (.withdraw g p))) ∧
    (y.gang = .heldFor g ∨ y.gang = .committed g → s.Goes (.rollback p g) cleared) ∧
    (y.gang ≠ .heldFor g → y.gang ≠ .committed g → s.Goes (.rollback p g) s) ∧
    (y.gang ≠ .committed g → s.Goes (.start p g) s) ∧
    (y.gang = .committed g → s.runsOn (24 * p) r.ctx = false → s.Goes (.start p g) (s.post (.start p g))) ∧
    (y.gang = .committed g → s.runsOn (24 * p) r.ctx = true → x.confirmed = [p] →
      let e := s.updPart p fun z => { z with gang := .free, reserved := [] }
      let goes (t : State) : Prop := s.Goes (.start p g) { t with gangs := t.gangs.del g }
      (x.resume = false → ∀ u z, y.units.find? (fun u => decide (u.2.gang = some g) && decide (u.2.live = 0)) = some (u, z) →
        goes (((z.ttable.map fun t => 24 * p + t.2.toNat % 32).foldl (fun (e : State) c => e.setLazy x.launch c) e).beginUnit p u)) ∧
      (x.resume = true → ∀ u, e.waitingUnit p x.launch = some u →
        let v := e.updUnit p u fun z => { z with waiting := false }
        goes ((v.partCores p).foldl (fun (e : State) c => e.startEngines c) v))) ∧
    (x.phase = 0 → x.parts.contains p = true → x.agreed.contains p = false →
      ((∃ q ∈ x.parts, q ≠ p ∧ q ∉ x.agreed) → s.Goes (.agree g p) (gang (fun m => { m with agreed := x.agreed ++ [p] }) s)) ∧
      ((∀ q ∈ x.parts, q = p ∨ q ∈ x.agreed) → s.Goes (.agree g p)
        (((gang (fun m => { m with phase := 1, since := now x.agent }) (gang (fun m => { m with agreed := x.agreed ++ [p] }) s)).postAll
          (x.parts.map fun q => .commit q g)).postAfter (24 * x.agent) 2048 (.gangCollectTimeout g)))) ∧
    (x.phase = 1 → x.agreed.contains p = true → s.Goes (.agree g p) s) ∧
    (x.phase = 1 → x.agreed.contains p = false → s.Goes (.agree g p) (s.post (.rollback p g))) ∧
    (∀ e ∈ [Instr.refuse g p, .withdraw g p],
      (2 ≤ x.phase ∨ x.parts.contains p = false → s.Goes e s) ∧
      (x.phase ≤ 1 → x.parts.contains p = true → x.ticket = none → s.gsv < s.gtk → s.Goes e
        (gang (fun m => { m with ticket := some s.gtk, phase := 3, agreed := [], confirmed := [] })
          { (s.postAll (x.agreed.map fun q => .rollback q g)) with gtk := s.gtk + 1 }))) ∧
    (x.phase = 1 → x.parts.contains p = true → x.confirmed.contains p = false →
      ((∃ q ∈ x.parts, q ≠ p ∧ q ∉ x.confirmed) → s.Goes (.confirm g p) (gang (fun m => { m with confirmed := x.confirmed ++ [p] }) s)) ∧
      ((∀ q ∈ x.parts, q = p ∨ q ∈ x.confirmed) → x.ticket = none → s.Goes (.confirm g p)
        ((gang (fun m => { m with phase := 2 }) (ranged (gang (fun m => { m with confirmed := x.confirmed ++ [p] }) s))).postAll
          (x.parts.map fun q => .start q g)))) ∧
    (x.phase ≠ 1 → s.Goes (.confirm g p) s) ∧
    (y.gang = .heldFor g → y.heldSince + 16384 ≤ now p →
      s.Goes (.gangHoldTimeout p g) cleared) ∧
    (y.gang ≠ .heldFor g ∨ now p < y.heldSince + 16384 → s.Goes (.gangHoldTimeout p g) s) ∧
    ((s.part x.agent).offline = false →
      (x.phase ≤ 1 → x.since + 2048 ≤ now x.agent → s.Goes (.gangCollectTimeout g) (s.attemptFails g)) ∧
      (2 ≤ x.phase ∨ now x.agent < x.since + 2048 → s.Goes (.gangCollectTimeout g) s)) ∧
    ((s.part x.agent).offline = true → s.Goes (.gangCollectTimeout g) (s.freezeGang g)) ∧
    (x.phase = 2 → s.Goes (.submitterFreeze g) s) ∧
    (x.phase ≠ 2 → ∃ t, s.Goes (.submitterFreeze g) t.serveNext ∧
      t = (gang (fun m => { m with ticket := none }) { (x.parts.foldl (fun (e : State) q => e.freeGang q g) s) with
        parts := (x.parts.foldl (fun (e : State) q => e.freeGang q g) s).parts.map fun e =>
          if e.2.mark = some g then (e.1, { e.2 with mark := none }) else e }).giveUp g 6) ∧
    (y.offline = true → s.Goes (.partitionOffline p) s) ∧
    (y.offline = false → y.gang = .free → y.units = [] → (∀ e ∈ s.gangs, e.2.agent ≠ p) →
      s.Goes (.partitionOffline p) (s.updPart p fun z => { z with offline := true, gang := .free, reserved := [] }))

/-- 14 R292, R293, R296, R297, R299, R300, R420; 22 R395: the partition commands. Each ends with its code in PSTAT (0x09 offline,
0x01 nothing to act on, 0x02 a standby already there, 0x03 to 0x08 and 0x0E an image or a standby that cannot be brought in,
0x0A an image that cannot be written, 0x0B an occupied partition, 0x0C no such context, 0x0D a reserved command), and completes
with its add to PCNT, after which the next one begins. STOP and SWAP wait until what is in flight has drained; no command
starts a context that is being cut. A parked unit that may be evicted leaves its cores once its state is written, and is
polled until a wake condition holds.
It rests on the model's choices of notes 60 to 63 and 114. -/
def Obligations.PartitionEvents : Prop :=
  ∀ (s : State) (p u : Nat) (y : SavedPart) (r : UnitRec) (ev : Evicted), p < 32 →
    let x := s.part p
    let die := dieOfPart p
    let done (e : State) (cmd stat : Nat) : State := e.finish p cmd stat
    let set (e : State) (f : Part → Part) : State := e.updPart p f
    let rest (h : Nat) (e : State) : Prop := (s.ctx h).alm.inCut = false ∧
      (if x.stopping then (set s fun z => { z with stopping := false }).stopGangs p
        else if x.paused then s else (s.pausePart p x.drain).stopGangs p) = e
    let cutWaits : State := set s fun z => { z with stopping := true }
    let free : Prop := s.damage.shadows.contains p = false ∧ ((s.ctx y.ctx).alm.inCut = true → x.running = some y.ctx)
    (∀ cmd stat, x.commands.head? = some cmd → done s cmd stat =
      (set s fun z => { z with stat := BitVec.ofNat 8 stat, commands := (cmd + 8) :: x.commands.drop 1 }).post (.partitionCommandComplete p)) ∧
    (∀ cmd stat, x.commands.head? ≠ some cmd → done s cmd stat = s) ∧
    (x.offline = true → ∀ e cmd, (e, cmd) ∈ [(Instr.stop p, 1), (.swap p, 2), (.resume p, 3), (.demote p, 4), (.load p, 5), (.enter p, 6)] →
      s.Goes e (done s cmd 9)) ∧
    (x.offline = false →
      (x.running = none → s.Goes (.stop p) (done s 1 1)) ∧
      (∀ h e, x.running = some h → rest h e →
        (e.drained p = true → s.Goes (.stop p) (done (set (e.capturePart p h) fun z => { z with running := none, inPlace := some h }) 1 0)) ∧
        (e.drained p = false → s.Goes (.stop p) (e.post (.stop p))) ∧
        (x.standby = some y → free → e.drained p = true → s.Goes (.swap p) (done ((e.capturePart p h).exchange p y) 2 0)) ∧
        (x.standby = some y → free → e.drained p = false → s.Goes (.swap p) (e.post (.swap p)))) ∧
      (∀ h, x.running = some h → (s.ctx h).alm.inCut = true → s.Goes (.stop p) (cutWaits.post (.stop p)) ∧
        (x.standby = some y → free → s.Goes (.swap p) (cutWaits.post (.swap p)))) ∧
      (x.standby = some y → s.damage.shadows.contains p = true → s.Goes (.swap p) (done
        (set { s with damage := { s.damage with shadows := s.damage.shadows.filter (· != p) } } fun z =>
          { z with standby := some (State.hurtStandby y) }) 2 8)) ∧
      (x.standby = some y → s.damage.shadows.contains p = false → (s.ctx y.ctx).alm.inCut = true → x.running ≠ some y.ctx →
        s.Goes (.swap p) (s.post (.swap p))) ∧
      (x.standby = none → s.Goes (.swap p) (done s 2 1) ∧ s.Goes (.demote p) (done s 4 1)) ∧
      (x.standby = some y →
        (x.running = none → free → s.Goes (.swap p) (done (s.exchange p y) 2 0)) ∧
        (s.writeImage die x.pimg.toNat (s.wholeStandby p y) = none → s.Goes (.demote p) (done s 4 10)) ∧
        (∀ e, s.writeImage die x.pimg.toNat (s.wholeStandby p y) = some e →
          let left := (e.gatedCores p).foldl (fun (e : State) z => (e.updCc (24 * p + z.1) fun _ =>
            { ctx := (x.running.orElse fun _ => x.inPlace).getD 0 }).updCore (24 * p + z.1) fun z => { z with gated := false }) e
          s.Goes (.demote p) (done (set left fun z => { z with standby := none }) 4 0)) ∧
        s.Goes (.load p) (done s 5 2)) ∧
      (x.inPlace = none → s.Goes (.resume p) (done s 3 1)) ∧
      (∀ h, x.inPlace = some h →
        ((s.ctx h).alm.inCut = true → s.Goes (.resume p) (s.post (.resume p))) ∧
        ((s.ctx h).alm.inCut = false → s.Goes (.resume p) (done
          ((set (s.eachCore p fun s c => s.readmitCore c) fun z => { z with running := some h, inPlace := none }).goPart p) 3 0))) ∧
      (x.standby = none → let pa := x.pimg.toNat;
        (s.imageAt die pa = none → s.Goes (.load p) (done (s.physRead die 0 pa 64).1 5 3)) ∧
        (∀ h, s.imageAt die pa = some (h, y) → let kid := (s.ctx h).kidreg;
          (s.kidBad pa kid = true → s.Goes (.load p) (done s 5 7)) ∧
          (s.kidBad pa kid = false → s.imageHurt pa y.bytes.length = true → s.Goes (.load p) (done s 5 8)) ∧
          (s.kidBad pa kid = false → s.imageHurt pa y.bytes.length = false →
            let e := (s.physRead die kid pa y.bytes.length).1
            let good := y.bytes.take 64 = imageHeader 1 (y.bytes.length / 64) y.units.length
            (¬ good → s.Goes (.load p) (done e 5 3)) ∧
            (good → State.matrixVersOk y = false → s.Goes (.load p) (done e 5 4)) ∧
            (good → State.matrixVersOk y = true → ∀ v tb, e.loadTables die x.pbind.toNat pa kid y = (v, tb) →
              (tb = none → s.Goes (.load p) (done v 5 5)) ∧
              (∀ t, tb = some t →
                (tablesOk y t = false ∨ namesOk y t = false → s.Goes (.load p) (done v 5 5)) ∧
                (tablesOk y t = true → namesOk y t = true → let own : Prop := ∀ k ∈ y.vslots, k ∈ v.slotsOf h;
                  (¬ own → s.Goes (.load p) (done v 5 6)) ∧
                  (own → tablesFit y t = false → s.Goes (.load p) (done v 5 14)) ∧
                  (own → tablesFit y t = true → s.Goes (.load p) (done
                    (set (v.updCtx h fun c => { c with images := c.images.map fun e =>
                      (e.1, if e.2.bytes = y.bytes then { e.2 with loaded := true } else e.2) })
                      fun z => { z with standby := some { rebind y t with loaded := false } }) 5 0)))))))) ∧
      (let h := x.pctxh.toNat % 1024;
        let base : State := match x.inPlace with
          | none => s
          | some g => set s fun z => { z with standby := some (s.savePart p g), inPlace := none }
        (x.running ≠ none ∨ (x.inPlace ≠ none ∧ x.standby ≠ none) → s.Goes (.enter p) (done s 6 11)) ∧
        (x.running = none → x.inPlace = none ∨ x.standby = none →
          ((s.ctx h).valid = false → s.Goes (.enter p) (done s 6 12)) ∧
          ((s.ctx h).valid = true → (s.ctx h).alm.inCut = true → s.Goes (.enter p) (s.post (.enter p))) ∧
          ((s.ctx h).valid = true → (s.ctx h).alm.inCut = false → s.Goes (.enter p) (done ((set ((base.clearPart p).installPart p
            { ctx := h, home := p, cores := [], units := [] }) fun z => { z with running := some h }).goPart p) 6 0))))) ∧
    s.Goes (.pctlReservedCommand p) (done s 7 13) ∧
    (∀ cmd more, x.commands = cmd :: more → 8 ≤ cmd →
      let e := (s.physAdd x.pcnt 1).getD (s.setDevsts 7)
      (more = [] → s.Goes (.partitionCommandComplete p) (set e fun z => { z with commands := [] })) ∧
      (∀ n l, more = n :: l → s.Goes (.partitionCommandComplete p) ((set e fun z => { z with commands := more }).post (pctlEvent p n)))) ∧
    (x.units.find u = none → s.Goes (.parkedEviction p u) s) ∧
    (x.units.find u = some r →
      let may : Prop := x.paused = false ∧ x.running = some r.ctx ∧ s.evictable p u = true
      let bud := State.copyBudget (24 * p)
      (¬ may → s.Goes (.parkedEviction p u) s) ∧
      (may → s.budgetOut die bud = true → s.Goes (.parkedEviction p u) (s.hold (budgetKey die bud) true (.parkedEviction p u))) ∧
      (may → s.budgetOut die bud = false → ∃ n, 1 ≤ n ∧ n ≤ 65536 ∧ s.Goes (.parkedEviction p u) (match s.writeEvicted (24 * p) r.ctx with
        | none => s
        | some w =>
          let ts := w.unitTeams p u
          let e := ts.foldl (fun (e : State) t => ((e.teamWarps t.1 t.2.1).map Prod.fst).foldl (fun e k => e.restWarp t.1 k) e) w
          let e' := ts.foldl (fun (e : State) t => e.removeTeam r t.1 t.2.1 t.2.2) e
          let key := (e'.part p).nextUnit
          let ev : Evicted := { key := key, unit := r, teams := ts.map fun t => e.saveTeam p r t.1 t.2.1 t.2.2 }
          let e'' := (set e' fun z => { z with units := z.units.del u, nextUnit := key + 1, evicted := z.evicted ++ [ev] })
          ((e''.fresh.2.parkEvicted p ev).postAfter (24 * p) n (.evictionWakePoll p key)).postAll
            ((coresOf p).map fun c => .coreAdmission c)))) ∧
    ((x.evicted.find? fun z => z.key = u) = none → s.Goes (.evictionWakePoll p u) s) ∧
    ((x.evicted.find? fun z => z.key = u) = some ev →
      (ev.met = true → s.Goes (.evictionWakePoll p u) s) ∧
      (ev.met = false → s.evictedMet die ev = true →
        let e := (set s fun z => { z with evicted := z.evicted.map fun e => if e.key = u then { e with met := true } else e }).dropWaiters
          (24 * p) (agentSlot 3 (32 * u + p))
        s.Goes (.evictionWakePoll p u) (e.postAll
          (((e.parts.filter fun q => q.2.running = some ev.unit.ctx).flatMap fun q => coresOf q.1).map fun c => .coreAdmission c))) ∧
      (ev.met = false → s.evictedMet die ev = false → ∃ n, 1 ≤ n ∧ n ≤ 65536 ∧
        s.Goes (.evictionWakePoll p u) ((s.fresh.2).postAfter (24 * p) n (.evictionWakePoll p u))))

/-- 14 R301 to R306; 11 R238; 22 R397, R398: closes, cuts, intervals and rollback of a context's Almanac. A close that is due
asks for a cut; one that finds a stream still running counts as late. A cut pauses every partition of the context and
waits for each to drain; with the last reply the closed set is the pages written since the cut before, and marking starts
afresh. An interval becomes durable, with its adds, unless a port of the tier is lost, what it holds is damaged or the tier's
key is gone (0x40), or the region is not there or too small even with the oldest intervals merged (0x41); a write held on a
page goes on once its page is taken. Rollback refuses a context that is on a partition (1), an interval that is not in the
chain (2), images it cannot write (3) and an interval that is damaged (4); else it puts back the pages, slots, launches,
queues, trace runs and rings of that cut, and writes the images.
It rests on the model's choices of notes 67, 68 and 115. -/
def Obligations.AlmanacEvents : Prop :=
  ∀ (s r : State) (h p page n : Nat) (iv : Interval) (b : Block), p < 32 →
    let x := s.ctx h
    let a := x.alm
    let set (e : State) (f : Almanac → Almanac) : State := e.updAlm h f
    let asked : Prop := a.due = true ∨ a.waiting ≠ []
    let held := (s.parts.filter fun e => e.2.running = some h).map Prod.fst
    let die := s.almDie h
    let idle (e : State) : State := (set e fun a => { a with due := false, waiting := [] }).ckptAdds h (a.waiting.filterMap id)
    let fin (e : State) (code : Nat) : State :=
      let e := e.updCtx h fun y => { y with rbStat := BitVec.ofNat 8 code };
      match e.physAdd x.rbctr 1 with
      | some e => e
      | none => e.setDevsts 7
    let here : Prop := ∃ e ∈ s.parts, e.2.running = some h ∨ e.2.inPlace = some h ∨ (∃ y, e.2.standby = some y ∧ y.ctx = h)
    (a.acbRead = true → s.almPeriod h = (s, acbPeriod a.acb)) ∧
    (a.acbRead = false → (∀ f, s.readBlock die h kLoad x.almcb = .error f → s.almPeriod h = (s, 0)) ∧
      (s.readBlock die h kLoad x.almcb = .ok (r, b) → s.almPeriod h = (r, acbPeriod b))) ∧
    (s.almPeriod h = (r, n) →
      (n ≠ 0 → n * 2 ^ 16 ≤ a.elapsed → s.Goes (.almanacPeriodExpiry h) ((set r fun z => { z with
        due := true, elapsed := 0, late := if a.streaming.isSome then min (a.late + 1) 65535 else a.late }).post (.cut h))) ∧
      (n = 0 ∨ a.elapsed < n * 2 ^ 16 → s.Goes (.almanacPeriodExpiry h) r)) ∧
    (a.inCut = true ∨ a.streaming ≠ none ∨ ¬ asked → s.Goes (.cut h) s) ∧
    (a.inCut = false → a.streaming = none → asked →
      ((∃ q ∈ held, (s.part q).paused = true) → s.Goes (.cut h) (s.post (.cut h))) ∧
      ((∀ q ∈ held, (s.part q).paused = false) →
        (x.almcb = 0#64 ∨ x.hasFeat featAlm = false → s.Goes (.cut h) (idle s)) ∧
        (x.almcb ≠ 0#64 → x.hasFeat featAlm = true →
          (∀ f, s.readBlock die h kLoad x.almcb = .error f →
            s.Goes (.cut h) ((set s fun a => { a with due := false, nocb := true, elapsed := 0 }).faultRecord h 0x42 (s.almCore h) 0 0)) ∧
          (s.readBlock die h kLoad x.almcb = .ok (r, b) →
            let e := set r fun a => { a with acb := b, acbRead := true, elapsed := 0 }
            (b.getLsbD 0 = false → s.Goes (.cut h) (idle e)) ∧
            (b.getLsbD 0 = true →
              let e := set e fun a => { a with inCut := true, cutting := held, cutParts := [] }
              s.Goes (.cut h) ((held.foldl (fun (e : State) q => e.pausePart q false) e).postAll
                (if held = [] then [.cutReply h 32] else held.map fun q => .cutReply h q))))))) ∧
    (a.inCut = false → s.Goes (.cutReply h p) s) ∧
    (a.inCut = true →
      (a.cutting ≠ [] → p ∉ a.cutting → s.Goes (.cutReply h p) s) ∧
      (p ∈ a.cutting → s.drained p = false → s.Goes (.cutReply h p) (s.post (.cutReply h p))) ∧
      (p ∈ a.cutting → s.drained p = true →
        let e := set (s.settlePart p) fun z => { z with cutting := a.cutting.filter (· != p)
                                                        cutParts := z.cutParts.set p ((s.settlePart p).savePart p h) }
        ((∃ q ∈ a.cutting, q ≠ p) → s.Goes (.cutReply h p) e) ∧ ((∀ q ∈ a.cutting, q = p) → s.Goes (.cutReply h p) (e.finishCut h))) ∧
      (a.cutting = [] → s.Goes (.cutReply h p) (s.finishCut h)) ∧
      (held = [] → ∃ (e : State) (i : Interval), s.finishCut h = (e.writeStaging h).post (.intervalDurable h) ∧
        (let z := (e.ctx h).alm
        z.dirty = [] ∧ z.dirtyCtr = [] ∧ z.waiting = [] ∧ z.carried = [] ∧ z.inCut = false ∧ z.due = false ∧ z.streaming = some i) ∧
        i.seq = a.nextSeq ∧ i.closed = a.dirty ++ a.dirtyCtr.map (2 ^ 40 + ·) ∧ i.owed = a.carried ++ a.waiting.filterMap id ∧
        (i.hurt = true ↔ ∃ k ∈ s.damage.slots, (s.vslot k).owner = some h) ∧ (i.hurt = false → e.mem = s.mem))) ∧
    (a.streaming = none → s.Goes (.heldWriteRelease h page) (s.unhold page) ∧ s.Goes (.intervalDurable h) s) ∧
    s.Goes (.heldWriteRelease h page) (((s.takePage h (page / 16)).takePage h (2 ^ 40 + page)).unhold page) ∧
    (a.streaming = some iv →
      let hurt : Prop := s.tierLost = true ∨ iv.hurt = true ∨ (∃ k ∈ iv.closed, iv.pages.find k = none ∧ s.pageHurt k = true) ∨
        s.kidBad (2 ^ 47) x.kidreg = true
      let room := acbTierSize a.acb
      let chain := mergeChain room iv.units a.chain.length a.chain
      let used := (chain.map Interval.units).foldl (· + ·) 0
      (hurt → s.Goes (.intervalDurable h) (s.abandon h 0x40)) ∧
      (¬ hurt → s.regionOk a.acb = false → s.Goes (.intervalDurable h) (s.abandon h 0x41)) ∧
      (¬ hurt → s.regionOk a.acb = true → s.budgetOut die 0 = true →
        s.Goes (.intervalDurable h) (s.hold (budgetKey die 0) false (.intervalDurable h))) ∧
      (¬ hurt → s.regionOk a.acb = true → s.budgetOut die 0 = false →
        (room < used + iv.units → s.Goes (.intervalDurable h) ((set s fun z => { z with chain := chain }).abandon h 0x41)) ∧
        (used + iv.units ≤ room →
          let e := (iv.closed.foldl (fun (e : State) k => e.takePage h k) (s.charge die 0 (2 ^ 16 * iv.units))).writeRegion h
          let e := (set e fun z => { z with chain := chain ++ [(e.ctx h).alm.streaming.getD iv], nextSeq := z.nextSeq + 1
                                            streaming := none, staged := 0 }).releaseClosed iv.closed
          let e := if acbDurctr a.acb = 0#64 then e else e.agentAdd (e.almCore h) h .count (acbDurctr a.acb) 1 5
          let e := e.ckptAdds h iv.owed
          s.Goes (.intervalDurable h)
            (if (e.ctx h).alm.due = true ∨ (e.ctx h).alm.waiting ≠ [] then e.post (.cut h) else e)))) ∧
    (here → s.Goes (.rollbackGo h) (fin s 1)) ∧
    (¬ here → (a.chain.find? fun i => i.seq = x.rbint) = none → s.Goes (.rollbackGo h) (fin s 2)) ∧
    (∀ whole, ¬ here → (a.chain.find? fun i => i.seq = x.rbint) = some iv →
      s.rewritePages h iv.seq (a.writtenSince iv.seq) = (r, whole) →
      (whole = false ∨ r.intervalHurt h iv.seq = true → s.Goes (.rollbackGo h) (fin r 4)) ∧
      (whole = true → r.intervalHurt h iv.seq = false →
        let mine (e : Nat × VSlot) : Bool := (r.vigil.slots.get {} e.1).owner = some h
        let slots : Map VSlot := (iv.slots.filter mine).foldl (fun (m : Map VSlot) e => m.set e.1 e.2) r.vigil.slots
        let put {α : Type} (all : Map α) (own : α → Bool) (old : Map α) : Map α :=
          old.foldl (fun (m : Map α) e => m.set e.1 e.2) (all.filter fun e => !own e.2)
        let e : State := { r with
          vigil := { r.vigil with slots := slots }
          launches := put r.launches (fun v => v.ctx = h) iv.launches
          queues := put r.queues (fun v => v.ctx = h) iv.queues
          runs := put r.runs (fun v => v.ctx = h) iv.runs
          rings := put r.rings (fun v => v.ctx = h) iv.rings }
        let e := e.updCtx h fun y => { y with
          images := y.images.map (fun e => (e.1, { e.2 with loaded := true })), replayPos := 0, replayStopped := false }
        (x.rbtab % 64 = 0 ∧ x.rbtab + 256 ≤ deviceEnd → ∀ v code, e.writeImages h x.rbtab iv.parts = (v, code) →
          s.Goes (.rollbackGo h) (fin v code)) ∧
        (x.rbtab % 64 ≠ 0 ∨ deviceEnd < x.rbtab + 256 → s.Goes (.rollbackGo h) (fin e 3))))

/-- 13 R282; 11 R233: steal requests of a lazy launch. A request reaches a core, where it waits, in order of arrival, for
its RNEXT or, in 1,024 cycles, its agent, while at least 2 indices are left; with fewer it is passed on, and one that has
passed every other core is answered with nothing. A core that has not started answers by its agent. The answer gives the upper
half of the range; a waiting RNEXT, in a warp or in the firmware slot, takes its first index. -/
def Obligations.StealEvents : Prop :=
  ∀ (s : State) (l j i c : Nat) (x : CoreCtx) (rest : List Nat), j < 2 ^ 20 → i < 2 ^ 20 →
    let name (k : Nat) : Nat := l * 2 ^ 20 + k
    let n := (s.launch l).lazy.length
    let left := x.lazyEnd - x.lazyNext
    let pass (e : State) (i : Nat) : State := if (j + 1) % max 1 n = i then e.post (.stealReply (name i) 0 0)
      else e.post (.stealRequest (name ((j + 1) % max 1 n)) (name i))
    (s.lazyCc l j = none →
      let own := s.unstartedRange l j
      (own.2 < own.1 + 2 → s.Goes (.stealRequest (name j) (name i)) (pass s i)) ∧
      (own.1 + 2 ≤ own.2 → s.Goes (.stealRequest (name j) (name i))
        ((s.updLaunch l fun r => { r with asks := r.asks.upd [] j fun q => q ++ [i] }).postAfter ((s.launch l).lazy.getD j 0) 1024
          (.stealAgentTimeout (name j))))) ∧
    (s.lazyCc l j = some x → x.steals ≠ [] → s.Goes (.stealRequest (name j) (name i))
      (s.updLazy l j fun y => { y with steals := y.steals ++ [i] })) ∧
    (s.lazyCc l j = some x → x.steals = [] → s.Goes (.stealRequest (name j) (name i))
      ((s.updLazy l j fun y => { y with steals := y.steals ++ [i] }).forwardSteals l j 65)) ∧
    (s.lazyCore l j = some c → s.Goes (.stealAgentTimeout (name j))
      (if (s.cc c).stealSince + 1024 ≤ (s.core c).cyc then (s.serveSteal l j).forwardSteals l j 65 else s)) ∧
    (s.lazyCore l j = none → s.Goes (.stealAgentTimeout (name j)) (s.serveUnstarted l j)) ∧
    ((s.launch l).asks.get [] j = [i] →
      let e := s.updLaunch l fun r => { r with asks := r.asks.del j }
      let own := e.unstartedRange l j
      (own.2 < own.1 + 2 → s.serveUnstarted l j = pass e i) ∧
      (own.1 + 2 ≤ own.2 → let m := own.2 - (own.2 - own.1) / 2
        s.serveUnstarted l j = (e.updLaunch l fun r => { r with ends := r.ends.set j m }).post (.stealReply (name i) m own.2))) ∧
    (s.lazyCc l j = some x → x.steals = [] → ∀ m, s.forwardSteals l j m = s) ∧
    (s.lazyCc l j = some x → x.steals = i :: rest → ∀ m,
      (2 ≤ left → s.forwardSteals l j (m + 1) = s.armSteal l j) ∧
      (left < 2 → s.forwardSteals l j (m + 1) =
        (pass (s.updLazy l j fun y => { y with steals := rest }) i).forwardSteals l j m) ∧
      (left < 2 → s.serveSteal l j = s) ∧
      (2 ≤ left → s.serveSteal l j =
        ((s.updLazy l j fun y => { y with steals := rest, lazyEnd := y.lazyEnd - left / 2 }).post
          (.stealReply (name i) (x.lazyEnd - left / 2) x.lazyEnd)).forwardSteals l j 65)) ∧
    (s.lazyCore l j = none → ∀ lo hi, s.Goes (.stealReply (name j) lo hi) (s.updLazy l j fun y =>
      if lo < hi then { y with stealOut := false, lazyNext := lo, lazyEnd := hi } else { y with stealOut := false })) ∧
    (∀ k w q lo hi, s.lazyCore l j = some c →
      (((s.cc c).warps ++ [(fwSlot, (s.core c).fw)]).find? fun e => e.2.sched.rnext.isSome) = some (k, w) →
      w.sched.rnext = some q → s.Goes (.stealReply (name j) lo hi)
        ((((s.updLazy l j fun y =>
            if lo < hi then { y with stealOut := false, lazyNext := lo + 1, lazyEnd := hi } else { y with stealOut := false }).updWarp c k fun v =>
          ((if lo < hi then (v.setS q.dest (BitVec.ofNat 32 lo)).setSp q.pred true else v.setSp q.pred false).updSched fun z =>
            { z with rnext := none }).updLanes q.lanes fun _ y => if y.state = .runnable && y.pc = q.pc then { y with pc := q.pc + 4 } else y).dropVar
              c k q.req).forwardSteals l j 65))

/-- 12 R268 to R272; 15 R310 to R319; 22 R400, R404: steps, drafts, confirmations and arm records at the Vigil, slot
assignment and the answers. A step follows the adds of the one before. A step on a stopped slot changes nothing and gives
STOP with STD; any other takes the token into the history (the newest 8) and the counts. STOP stops the slot, FORK copies its
state onto a target of the same context, which then runs without drafts, and INJECT gives the slot its tokens in order. A
draft leaves the real state alone; a confirmation takes the state of the last position kept and drops all. A damaged slot is
cleared, stopped and marked, and the lane gets 0. The lanes' steps go in ascending lane order, and the answer writes the
results, moves the lanes on and raises SEQUENCE where a STOP carries the trap flag.
It rests on the model's choices of notes 56 and 80. -/
def Obligations.VigilEvents : Prop :=
  ∀ (s : State) (i lane : Nat) (r : VigilReq) (w tok : Word), s.vreqs.find i = some r → r.lanes.get (0, 0) lane = (w, tok) →
    let k := State.tokSlot w
    let x := s.vslot k
    let ranges := s.classRanges r.ctx
    let mine : Prop := x.owner = some r.ctx
    let hurt : Prop := k ∈ s.damage.slots
    let put (e : State) (ws : List Word) : State := e.putWords i lane r ws
    let thenLane (ev : Nat → Instr) (e t : State) : Prop :=
      (∀ l m, (r.lanes.find? fun y => lane < y.1) = some (l, m) → t = e.afterStep k (ev l)) ∧
      ((∀ y ∈ r.lanes, y.1 ≤ lane) → t = e.afterStep k (.vigilResultArrival i))
    let goes (ev : Nat → Instr) (e : State) : Prop := ∃ t, s.Goes (ev lane) t ∧ thenLane ev e t
    let inj (st : VState) (a : Option VAction) : VState := (a.map fun a => State.injected x ranges st a).getD st
    let act (e : State) (a : Option VAction) (n : List (DWord × Word)) : State :=
      ((a.map fun a => e.applyAction r.core r.ctx k a).getD e).makeNotes r.core r.ctx k n
    (∀ ev, (s.slotAdd k = none → s.afterStep k ev = s.post ev) ∧
      ∀ j, s.slotAdd k = some j → s.afterStep k ev = s.hold (State.addKey j) false ev) ∧
    (∀ ev ∈ [Instr.vigilStep i, .vigilDraftStep i, .vigilConfirm i],
      (∀ j, s.slotAdd k = some j → s.Goes (ev lane) (s.hold (State.addKey j) false (ev lane))) ∧
      (s.slotAdd k = none → ¬ mine → goes ev (put s [])) ∧
      (s.slotAdd k = none → mine → hurt → goes ev ((s.slotError r.core r.ctx k).putWords i lane { r with bad := true } []))) ∧
    (s.slotAdd k = none → mine → ¬ hurt →
      (∀ st a n, slotStep x ranges x.st tok = (st, a, n) →
        let e := act (s.updVslot k fun x => { x with st := inj st a }) a n
        goes (.vigilStep i) (put e (tokWords a (!n.isEmpty) false 0 (e.vslot k).drafts.length))) ∧
      (∀ st a n, slotStep x ranges ((x.drafts.getLast?.map Draft.snap).getD x.st) tok = (st, a, n) →
        let e := s.updVslot k fun x => { x with drafts := x.drafts ++ [{ snap := st, after := inj st a, act := a, notes := n }] }
        (e.vslot k).st = x.st ∧ goes (.vigilDraftStep i)
          (put e (tokWords a false (a.isSome || !n.isEmpty) 0 (x.drafts.length + 1)))) ∧
      (let kept := State.keptDrafts tok.toNat x.drafts
       let a := kept.getLast?.bind Draft.act
       let n := kept.flatMap Draft.notes
       let e := act (s.updVslot k fun x => { x with drafts := [], st := (kept.getLast?.map Draft.after).getD x.st }) a n
       goes (.vigilConfirm i) (put e (tokWords a (!n.isEmpty) false kept.length 0)))) ∧
    (∀ st : VState, (st.stopped = true → slotStep x ranges st tok = (st, some stoppedAction, [])) ∧
      (st.stopped = false → let u := (slotStep x ranges st tok).1
        u.hist = (tok :: st.hist).take 8 ∧ u.stopped = false ∧ u.counts = countToken x ranges st.counts tok ∧
        (∀ b, st.fired.getLsbD b = true → u.fired.getLsbD b = true))) ∧
    (∀ (st : VState) (a : VAction), (a.std = true ∨ a.act ≠ 3 ∨ a.inj = [] → State.injected x ranges st a = st) ∧
      ∀ t m, a.std = false → a.act = 3 → a.inj = t :: m → State.injected x ranges st a =
        State.injected x ranges { st with hist := (t :: st.hist).take 8, counts := countToken x ranges st.counts t }
          { a with inj := m }) ∧
    (∀ a : VAction, (a.std = true → s.applyAction r.core r.ctx k a = s) ∧
      (a.std = false → a.act = 1 → let e := s.applyAction r.core r.ctx k a
        (e.vslot k).st = { x.st with stopped := true } ∧ ∀ j, j ≠ k → e.vslot j = s.vslot j) ∧
      (a.std = false → a.act = 2 → (s.vslot a.target).owner = some r.ctx → let e := s.applyAction r.core r.ctx k a
        e.vslot a.target = { s.vslot a.target with st := { x.st with stopped := false }, drafts := [] } ∧
          ∀ j, j ≠ a.target → e.vslot j = s.vslot j) ∧
      (a.std = false → a.act = 2 → (s.vslot a.target).owner ≠ some r.ctx →
        s.applyAction r.core r.ctx k a = s.setNerr r.core r.ctx k 2)) ∧
    (let e := s.slotError r.core r.ctx k
     e.vslot k = { owner := x.owner, nerr := true, st := { stopped := true } } ∧ (∀ j, j ≠ k → e.vslot j = s.vslot j) ∧
       k ∉ e.damage.slots) ∧
    (let slots := (r.records.filter fun b => State.armKind b ≠ 2).map State.armSlot
     (∀ j, slots.findSome? s.slotAdd = some j → s.Goes (.vigilArmApply i) (s.hold (State.addKey j) false (.vigilArmApply i))) ∧
     (slots.findSome? s.slotAdd = none →
       let bad := slots.dedup.filter fun k => s.damage.slots.contains k && (s.vslot k).owner = some r.ctx
       let e := bad.foldl (fun e k => e.slotError r.core r.ctx k) s
       let e := if bad = [] then e else e.slotMachine r
       let own : List (BitVec 1024) :=
         r.records.filter fun b => State.armKind b = 2 || (e.vslot (State.armSlot b)).owner = some r.ctx
       let u := own.foldl (fun e b => e.armOne r.ctx b) e
       let u : State := { u with vreqs := u.vreqs.del i }
       (r.slot ≤ fwSlot → s.Goes (.vigilArmApply i) (u.updWarp r.core r.slot fun w => w.updSched fun z => { z with tokarm := z.tokarm - 1 })) ∧
       (fwSlot < r.slot → s.Goes (.vigilArmApply i) u))) ∧
    (let ks := r.lanes.map fun y => State.tokSlot y.2.1
     let owed : Prop := ∃ y ∈ s.ctrOps, y.2.ctx = r.ctx ∧ ∃ j ∈ ks, y.2.agent = some (.vigil j)
     let e : State := { s with vreqs := s.vreqs.del i }
     let e' := ((e.updWarp r.core r.slot fun v => (r.result.foldl (fun (v : Warp) (y : Nat × Word) =>
       v.setV (r.dest + y.1 % 8) (y.1 / 8) y.2) v).updSched fun z => { z with atHome := z.atHome.filter fun y => y.1 != i }).markRegs
         r.core r.slot [r.dest]).dropVar r.core r.slot i
     let e' := if r.bad then e'.slotMachine r else e'
     let on := e'.updWarp r.core r.slot fun v => v.updLanes r.group fun _ l => { l with pc := r.next }
     let trp := r.lanes.filter fun y => (r.result.get 0 (8 * y.1)).getLsbD 18
     (owed → s.Goes (.vigilResultArrival i) (s.post (.vigilResultArrival i))) ∧
     (¬ owed →
       (r.group = 0#32 → s.Goes (.vigilResultArrival i) e) ∧
       (r.group ≠ 0#32 → r.kind = 1 → s.Goes (.vigilResultArrival i) e') ∧
       (r.group ≠ 0#32 → r.kind ≠ 1 → trp = [] → s.Goes (.vigilResultArrival i) on) ∧
       (∀ l z m, r.group ≠ 0#32 → r.kind ≠ 1 → trp = (l, z) :: m →
         let t : TrapInfo := { group := 13, code := 0x2000, async := false, lv := true, lane := l
                               t1 := maskOf fun n => trp.any fun y => y.1 = n, t2 := BitVec.ofNat 32 (State.tokSlot z.1), epc := r.next }
         ((on.warp r.core r.slot).held ((lanesOf r.group).headD 0) = false → s.Goes (.vigilResultArrival i) (on.takeTrap r.core r.slot r.group t)) ∧
         ((on.warp r.core r.slot).held ((lanesOf r.group).headD 0) = true → s.Goes (.vigilResultArrival i)
           (on.updWarp r.core r.slot fun v => v.updSched fun y => { y with due := y.due ++ [(r.group, t)] }))))) ∧
    (∀ n h, n < 16384 → h < 1024 →
      (s.boot.vigilOffline.contains (n / 1024) = true → s.Goes (.vslotAssign n h) (s.setDevsts 5)) ∧
      (s.boot.vigilOffline.contains (n / 1024) = false → (s.ctx h).hasFeat featVigil = true → ∃ t, s.Goes (.vslotAssign n h) t ∧
        t.vslot n = { owner := some h, nerr := (s.vslot n).nerr } ∧ ∀ j, j ≠ n → t.vslot j = s.vslot j) ∧
      (∃ t, s.Goes (.vslotRelease n) t ∧ t.vslot n = {} ∧ ∀ j, j ≠ n → t.vslot j = s.vslot j))

/-- 07 R122 to R133; 21 R382, R383; 16 R326, R332: counters at their home. A CADD returns the value before and adds, unless
the sum would carry: then it changes nothing and COUNTER reason 1 is taken (reason 2 where the home cannot be reached); an
agent's add that fails is recorded instead. CRD returns the value; CPOLL says whether it meets the threshold and goes on;
a CWAIT whose threshold is met goes on, and else parks its warp. A CADDV with one home adds for all lanes or none; with
several, each home holds its counters in turn, all apply once every one holds, and one that would carry makes all
release. A completion add follows the releases of its cores and their last stores (06 R119). A parked warp reads again with
a write to the line. An application core's load, store and AMO act at the home; on a counter page its AMOADD.D adds as CADD
does, and its other stores and AMOs, and refused adds, fault. Features are negotiated only while no context is valid.
It rests on the model's choices of note 50. -/
def Obligations.CounterEvents : Prop :=
  ∀ (s : State) (i home line c app pa : Nat) (op : CtrOp) (u : AppOp), c < 768 → app < 16 →
    let d := dieOfCore op.core
    let e := op.cores.foldl (fun (e : State) c => e.releaseAt c op.scope) s
    let gone (e : State) : State := { e with ctrOps := e.ctrOps.del i }
    let at' (t : State) : Prop := s.Goes (.counterOpAtHome i) t
    let old := e.ctrRead d op.home
    let added := (e.ctrWrite d op.ctx (old + op.inc) op.home).ctrNotify d op.home (old + op.inc)
    let mine := State.addsAt d op home
    let fails (a : AgentAdd) : State := ((gone e).agentAddFails op.core op.ctx a op.name (lo32 op.inc)).unhold (State.addKey i)
    let abort (e : State) (op : CtrOp) (t : TrapInfo) : State := if op.holding = [] then e.ctrFail i op t
      else State.postAll { e with ctrOps := e.ctrOps.set i { op with fails := some t } } (op.holding.map fun h => .release i h)
    (s.ctrOps.find i = none → at' s ∧ s.Goes (.hold i home) s ∧ s.Goes (.apply i home) s ∧ s.Goes (.release i home) s ∧
      ∀ yes, s.Goes (.holdAnswer i home yes) s) ∧
    (s.ctrOps.find i = some op → op.cores ≠ [] → ∀ j, e.lateStore op.cores op.ctx = some j →
      at' (e.hold (State.reqKey j) true (.counterOpAtHome i))) ∧
    (s.ctrOps.find i = some op → op.cores = [] ∨ e.lateStore op.cores op.ctx = none → op.kind ≠ .addv →
      (e.ctrLost d op.home = true → (op.agent = none → at' (e.ctrFail i op (State.ctrTrapInfo op 2))) ∧
        (∀ a, op.agent = some a → at' (fails a))) ∧
      (e.ctrLost d op.home = false →
        (∀ key, e.ctrHold op.home (op.kind = .add) = some key → at' (e.hold key (op.kind = .add) (.counterOpAtHome i))) ∧
        (e.ctrHold op.home (op.kind = .add) = none →
          (op.kind = .add → old.toNat + op.inc.toNat < 2 ^ 64 →
            (op.agent = none → at' ((added.putPair op old).ctrAdvance i op)) ∧
            (op.agent ≠ none → at' ((gone added).unhold (State.addKey i)))) ∧
          (op.kind = .add → 2 ^ 64 ≤ old.toNat + op.inc.toNat →
            (op.agent = none → at' (e.ctrFail i op (State.ctrTrapInfo op 1))) ∧
            (∀ a, op.agent = some a → at' (fails a))) ∧
          (op.kind = .read → at' ((e.putPair op old).ctrAdvance i op)) ∧
          (op.kind = .poll → op.lanes ≠ 0#32 → let v := e.updWarp op.core op.slot fun w => w.setSp op.dest (decide (op.thr ≤ old))
            at' (if op.thr ≤ old then (v.acquireAt op.core (ctrScope op.scope)).ctrAdvance i op else v.ctrAdvance i op)) ∧
          (op.kind = .wait → at' (if op.thr ≤ old then (e.acquireAt op.core (ctrScope op.scope)).ctrAdvance i op else e.parkWait i op))))) ∧
    (s.ctrOps.find i = some op → op.cores = [] → op.kind = .addv →
      (State.homesOf d op = [] → at' (s.ctrAdvance i op)) ∧
      (State.homesOf d op = [home] →
        (∀ l va, s.addvLost d op.adds = some (l, va) → at' (s.ctrFail i op (State.addvTrap op 2 l va))) ∧
        (∀ key, s.addvLost d op.adds = none → s.addvHold op.adds = some key → at' (s.hold key true (.counterOpAtHome i))) ∧
        (s.addvLost d op.adds = none → s.addvHold op.adds = none →
          (s.carries d op.adds [] = none → let e := s.applyAdds d op.ctx [] op.adds; at' (e.1.addvDone i op e.2)) ∧
          (∀ l va, s.carries d op.adds [] = some (l, va) → at' (s.ctrFail i op (State.addvTrap op 1 l va))))) ∧
      (∀ h l, State.homesOf d op = home :: h :: l → at' (s.post (.hold i home)))) ∧
    (s.ctrOps.find i = some op → ∀ l va, s.addvLost d mine = some (l, va) →
      s.Goes (.hold i home) (abort s op (State.addvTrap op 2 l va))) ∧
    (s.ctrOps.find i = some op → s.addvLost d mine = none →
      (∀ key, s.addvHold mine = some key → s.Goes (.hold i home) (s.hold key true (.hold i home))) ∧
      (s.addvHold mine = none →
        (∀ x, s.carries d mine [] = some x → s.Goes (.hold i home) (s.post (.holdAnswer i home false))) ∧
        (s.carries d mine [] = none → s.Goes (.hold i home)
          { s with ctrHeld := s.ctrHeld ++ ((mine.map fun e => e.2.2.1.id).dedup).map fun n => (n, i)
                   agenda := s.agenda ++ [.holdAnswer i home true] })) ∧
      (∀ l va, s.carries d mine [] = some (l, va) → s.Goes (.holdAnswer i home false) (abort s op (State.addvTrap op 1 l va))) ∧
      (s.carries d mine [] = none → s.Goes (.holdAnswer i home false) (s.post (.hold i home)))) ∧
    (s.ctrOps.find i = some op →
      (let q : CtrOp := { op with holding := op.holding ++ [home] }
       let e : State := { s with ctrOps := s.ctrOps.set i q }
       (∀ l va, e.addvLost d op.adds = some (l, va) → s.Goes (.holdAnswer i home true) (abort e q (State.addvTrap q 2 l va))) ∧
       (e.addvLost d op.adds = none →
        (∀ h, ((State.homesOf d op).find? fun h => !q.holding.contains h) = some h → s.Goes (.holdAnswer i home true) (e.post (.hold i h))) ∧
        ((∀ h ∈ State.homesOf d op, h ∈ q.holding) → s.Goes (.holdAnswer i home true) (e.postAll (q.holding.map fun h => .apply i h))))) ∧
      (home ∉ op.holding ∨ home ∈ op.applied → s.Goes (.apply i home) s) ∧
      (home ∈ op.holding → home ∉ op.applied →
        (∀ l va, op.applied = [] → s.addvLost d op.adds = some (l, va) →
          s.Goes (.apply i home) (abort s op (State.addvTrap op 2 l va))) ∧
        (op.applied ≠ [] ∨ s.addvLost d op.adds = none →
          let e := (s.dropHolds i d op home).applyAdds d op.ctx op.olds mine
          let q : CtrOp := { op with olds := e.2, applied := op.applied ++ [home] }
          s.Goes (.apply i home) (if q.applied.length = (State.homesOf d q).length then e.1.addvDone i q e.2
            else { e.1 with ctrOps := e.1.ctrOps.set i q }))) ∧
      (let e := s.dropHolds i d op home
       let q : CtrOp := { op with holding := op.holding.filter (· != home) }
       (∀ t, q.holding = [] → op.fails = some t → s.Goes (.release i home) (e.ctrFail i q t)) ∧
       (q.holding ≠ [] ∨ op.fails = none → s.Goes (.release i home) { e with ctrOps := e.ctrOps.set i q }))) ∧
    ((∀ w ∈ (s.core c).slow, lineOf w.ctr ≠ line ∧ w.ctr ≠ line) → s.Goes (.slowListNotice c line) (s.trimWatches c)) ∧
    (∀ w, (s.core c).slow = [w] → w.ctr = line → 2 ^ 48 ≤ line → let v := s.ctrRead (dieOfCore c) (State.homeOf w)
      s.Goes (.slowListNotice c line)
        (if w.thr ≤ v then (((s.updCore c fun x => { x with slow := [] }).wakeWith c w.slot v).trimWatches c) else s.trimWatches c)) ∧
    ((∀ e ∈ s.cores, ∀ m ∈ e.2.monitors, m.2 ≠ line) → s.Goes (.monitorWake line) s) ∧
    (∀ k x, s.cores = [(c, x)] → x.monitors = [(k, line)] → s.Goes (.monitorWake line)
      (if 64 ≤ k then (s.updCore c fun x => { x with monitors := x.monitors.del k }).post (agentEvent k) else s.rereadWait c k false)) ∧
    (let n := State.appSize pa u
     let here : Prop := app ∉ s.boot.appOffline ∧ pa + n ≤ deviceEnd
     let write : Bool := match u with
       | .load _ => false
       | _ => true
     let goes (t : State) : Prop := s.Goes (.appCoreCounterAmo app pa u) t
     let marked : Prop := s.ctrPages.contains (pa / 4096) = true
     (¬ here → goes s.refuseAccess) ∧
     (here → ∀ key, s.ctrHold (.mem pa 0) write = some key → goes (s.hold key write (.appCoreCounterAmo app pa u))) ∧
     (here → s.ctrHold (.mem pa 0) write = none →
       (∀ m, u = .load m → let r := s.homeRead (homeDie pa 0) pa 0 0 n; goes (r.1.answer (leNat r.2))) ∧
       (∀ bs, u = .store bs → (marked → goes s.refuseAccess) ∧
         (¬ marked → goes ((s.markMapped pa false).homeWrite (homeDie pa 0) (2 ^ 20) noCtx pa 0 0 (bs.take n)))) ∧
       (∀ o wide x aq rl, u = .amo o wide x aq rl →
         (¬ marked → goes (s.homeAtomic pa 0 n fun v => State.atomOp o n v x.toNat)) ∧
         (marked → o = 0 → wide = true → goes (s.homeAdd pa 0 x)) ∧
         (marked → o ≠ 0 ∨ wide = false → goes s.refuseAccess)))) ∧
    (∀ (n : Nat) (g : Nat → Nat), (pa % n ≠ 0 → s.homeAtomic pa 0 n g = s.refuseAccess) ∧
      (pa % n = 0 → let r := s.homeRead (homeDie pa 0) pa 0 0 n; let v := leNat r.2
        s.homeAtomic pa 0 n g =
          ((r.1.markMapped pa false).homeWrite (homeDie pa 0) (2 ^ 20) noCtx pa 0 0 (leBytes n (g v))).answer v)) ∧
    (∀ inc : DWord, let v := s.ctrRead 0 (.mem pa 0); let e := s.markMapped pa true
      (pa % 8 ≠ 0 ∨ 2 ^ 64 ≤ v.toNat + inc.toNat → s.homeAdd pa 0 inc = s.refuseAccess) ∧
      (pa % 8 = 0 → v.toNat + inc.toNat < 2 ^ 64 → e.ctrRead 0 (.mem pa 0) = v →
        s.homeAdd pa 0 inc = ((e.ctrWrite 0 noCtx (v + inc) (.mem pa 0)).ctrNotify 0 (.mem pa 0) (v + inc)).answer v.toNat)) ∧
    ((∃ x ∈ s.ctxs, x.2.valid = true) → s.Goes .featureNegotiate (s.setDevsts 2)) ∧
    ((∀ x ∈ s.ctxs, x.2.valid = false) → s.Goes .featureNegotiate { s with io := { s.io with
      featAck := [(0, BitVec.ofNat 32 (State.acceptFeats (s.io.regs.get 0 0x020).toNat))], featDone := true } })

/-- 16 R321 to R323, R325; 07 R128, R132; 21 R388: the host and peers at device memory. A read replies with the line's
bytes, dirty words in caches included, and under host bias the host may keep the line; a write puts its bytes at the home; on
a counter page a write that would lower a counter is discarded and sets DEVSTS. A flip that is refused or that has nothing
to do ends at once with its code and its add to BFCTR; to host bias no L1 keeps a line of the page, to device bias every
line is asked back first; then the bias changes, the held requests go on and the flip ends. The host's answer merges what it
changed. A peer's read, write, atomic, add or wait takes place under the lowest window that admits it, or not at all.
It rests on the model's choices of notes 50, 51 and 81 to 84. -/
def Obligations.HostEvents : Prop :=
  ∀ (s : State) (e c k peer a size d line : Nat) (va : DWord) (u : PeerOp) (bs : List Byte) (inval : Bool),
    e < 4 → c < 768 → k ≤ 32 → peer < 64 → d < 4 →
    let f := s.flip e
    let p4 := f.addr.toNat / 4096
    let set (t : State) (g : Flip → Flip) : State := t.updIo fun x => { x with flips := x.flips.upd {} e g }
    let flipGo (dir : Bool) (t : State) : Prop := s.Goes (if dir then .biasFlipToDevice e else .biasFlipToHost e) t
    let begun (dir : Bool) : State := set s fun z => { z with busy := true, page := p4, home := z.ctr, toDev := dir }
    let fin (t : State) (code : Nat) : State :=
      let t := set t fun z => { z with busy := false, stat := BitVec.ofNat 8 code, waiting := [], closing := none }
      match t.physAdd (t.flip e).home 1 with
      | some t => t
      | none => t.setDevsts 3
    let page := f.page
    let turned (t : State) (code : Nat) : State := (set (State.unhold { t with
      hostBias := if f.toDev then t.hostBias.filter (· != page) else t.hostBias ++ [page]
      flipping := t.flipping.filter (· != page)
      snooped := t.snooped.filter fun l => l.1 / 32 != page } page) fun z =>
        { z with waiting := [], closing := some code }).post (.flipStep2Complete e)
    let base := a / 64 * 64
    let put (t : State) : State :=
      let t := (t.hostPut a 0 (bs.take (64 - a % 64))).charge (homeDie a 0) 3 64
      { t with snooped := t.snooped.filter fun l => l.1 != lineOf a }
    (f.busy = true → ∀ dir, flipGo dir s) ∧
    (f.busy = false → ∀ dir, ∃ t, flipGo dir t ∧ (
      (s.accepted featHdm = false → t = fin (begun dir) 3) ∧
      (s.accepted featHdm = true →
        (s.io.hdmSize ≤ f.addr.toNat ∨ f.addr.toNat % 4096 ≠ 0 → t = fin (begun dir) 1) ∧
        (f.addr.toNat < s.io.hdmSize → f.addr.toNat % 4096 = 0 →
          (p4 ∈ s.flipping → t = fin (begun dir) 2) ∧
          (p4 ∉ s.flipping → (p4 ∈ s.hostBias ↔ dir = false) → t = fin (begun dir) 0) ∧
          (p4 ∉ s.flipping → (p4 ∈ s.hostBias ↔ dir = true) → let b : State := { begun dir with flipping := s.flipping ++ [p4] }
            (dir = false → t = b.post (.flipStep2Complete e)) ∧
            (dir = true → t = (set b fun z => { z with waiting := linesOfPage p4 }).snoopLines (linesOfPage p4))))))) ∧
    (∀ code, f.closing = some code → s.Goes (.flipStep2Complete e) (fin s code)) ∧
    (f.closing = none → f.busy = false ∨ page ∉ s.flipping → s.Goes (.flipStep2Complete e) s) ∧
    (f.closing = none → f.busy = true → page ∈ s.flipping →
      (f.toDev = true → f.waiting ≠ [] → s.Goes (.flipStep2Complete e) s) ∧
      (f.toDev = true → f.waiting = [] → s.Goes (.flipStep2Complete e) (turned s 0)) ∧
      (f.toDev = false → let on := (s.l1.filter fun k => k.1 % 2 ^ 41 / 32 = page).map Prod.fst
        let t := on.foldl (fun (t : State) k => t.l1Drop (k / 2 ^ 41) (k % 2 ^ 41)) s
        (∀ x ∈ t.l1, x.1 % 2 ^ 41 / 32 ≠ page) ∧
        ((t.lateBack page).isSome = true → s.Goes (.flipStep2Complete e) (t.post (.flipStep2Complete e))) ∧
        (t.lateBack page = none → t.flip e = f → s.Goes (.flipStep2Complete e) (turned t 0)))) ∧
    (isHost base = true → ∃ t, s.Goes (.hostMemRead a) t ∧ t.reply = BitVec.ofNat 512 (leNat (t.memBytes base 64)) ∧ t.cores = s.cores) ∧
    (isHost base = false → s.hostReaches base = false → s.Goes (.hostMemRead a) s) ∧
    (isHost base = false → s.hostReaches base = true →
      (∀ key, s.hostHold base false = some key → s.Goes (.hostMemRead a) (s.hold key false (.hostMemRead a))) ∧
      (s.hostHold base false = none → let r := (s.recallLine (lineOf base)).homeRead (homeDie base 0) base 0 0 64
        s.Goes (.hostMemRead a) (State.hostKeeps { r.1.charge (homeDie base 0) 3 64 with reply := BitVec.ofNat 512 (leNat r.2) } base))) ∧
    (isHost a = false →
      (∀ w, w = .hostMemWrite a bs ∨ w = .hostCounterWrite a bs →
        (s.hostReaches a = false → s.Goes w s) ∧
        (s.hostReaches a = true →
          (∀ key, s.hostHold a true = some key → s.Goes w (s.hold key true w)) ∧
          (s.hostHold a true = none → s.Goes w (put s))))) ∧
    (isHost a = true → ∀ w, w = .hostMemWrite a bs ∨ w = .hostCounterWrite a bs →
      s.Goes w (((([0, 1, 2, 3].foldl (fun (t : State) d => t.l2Drop d (lineOf a)) s).invalidateCopies (2 ^ 20) (lineOf a)).setMemBytes
        a (bs.take (64 - a % 64))).post (.monitorWake (lineOf a)))) ∧
    (∀ v : DWord, (v < s.ctrRead (homeDie a 0) (.mem a 0) → s.hostCounter a v = s.setDevsts 0) ∧
      (s.ctrRead (homeDie a 0) (.mem a 0) ≤ v →
        s.hostCounter a v = ((s.markMapped a true).ctrWrite 0 noCtx v (.mem a 0)).ctrNotify 0 (.mem a 0) v)) ∧
    ((s.snoops.find? fun x => x.1 = lineOf a) = none → s.Goes (.bisnpResponse a bs) s) ∧
    (∀ x, (s.snoops.find? fun x => x.1 = lineOf a) = some x →
      let l := lineOf a
      let t := if l ∈ s.hostLines ∧ bs ≠ [] then s.hostPut a 0 (bs.take (128 - a % 128)) else s
      let u : State := { t with
        snoops := t.snoops.erase x
        hostLines := t.hostLines.filter (· != l)
        hostClean := if x.2 then t.hostClean.filter (· != l) else if t.hostClean.contains l then t.hostClean else t.hostClean ++ [l]
        snooped := if t.hostBias.contains (l / 32) && !t.snooped.contains (l, x.2) then t.snooped ++ [(l, x.2)] else t.snooped }
      (∀ i ∈ [0, 1, 2, 3], i ≠ e → l ∉ (u.flip i).waiting) →
        (l ∉ (u.flip e).waiting ∨ x.2 = false → s.Goes (.bisnpResponse a bs) (u.unhold (2 ^ 40 + l))) ∧
        (l ∈ (u.flip e).waiting → x.2 = true → let v := set u fun z => { z with waiting := z.waiting.filter (· != l) }
          s.Goes (.bisnpResponse a bs)
            ((if (v.flip e).waiting = [] then v.post (.flipStep2Complete e) else v).unhold (2 ^ 40 + l)))) ∧
    (isHost (line * 128) = false → s.Goes (.cxlCacheSnoop d line inval) s) ∧
    (isHost (line * 128) = true → inval = false ∨ (∀ x ∈ s.l1, x.1 % 2 ^ 41 = line → dieOfCore (x.1 / 2 ^ 41) ≠ d) →
      let t := if inval then s.l2Drop d line else s.l2Clean d line
      s.Goes (.cxlCacheSnoop d line inval) (State.post { t with l1 := s.l1.filter fun x => x.2.valid != 0#32 } (.monitorWake line))) ∧
    (let n := State.peerSize a size u
     let write := State.peerWrites u
     let goes (t : State) : Prop := s.Goes (.peerAccess peer a size u) t
     ((∀ w < 16, s.admits w peer a n write = false) → goes s) ∧
     (∀ w < 16, s.admits w peer a n write = true → (∀ v < w, s.admits v peer a n write = false) →
       let kid := s.inKid w
       let home : CtrHome := .mem a kid
       let t := s.recallLine (lineOf a)
       (∀ key, s.ctrHold home write = some key → goes (s.hold key write (.peerAccess peer a size u))) ∧
       (s.ctrHold home write = none → t.inKid w = kid →
         (∀ bs, u = .write bs → goes ((t.markMapped a false).homeWrite (homeDie a 0) (2 ^ 20) noCtx a kid 0 (bs.take n))) ∧
         (u = .read → let r := t.homeRead (homeDie a 0) a kid 0 n; goes (r.1.answer (leNat r.2))) ∧
         (∀ o x, u = .atom o x → goes (t.homeAtomic a kid n fun v => State.atomOp o n v x.toNat)) ∧
         (∀ x y, u = .cas x y → goes (t.homeAtomic a kid n fun v => if v = x.toNat then y.toNat else v)) ∧
         (∀ inc, u = .add inc → goes (t.homeAdd a kid inc)) ∧
         (∀ thr, u = .wait thr → let v := t.ctrRead (homeDie a 0) home
           (thr ≤ v ∨ 256 ≤ (t.waiterList 0 home).length → goes (t.wakePeer peer v)) ∧
           (v < thr → (t.waiterList 0 home).length < 256 → goes (t.ctrPark 0 0 (peerSlot peer) home thr)))))) ∧
    s.Goes (.peerRefusal c k peer va) (s.pendAsync c k (State.linkTrap 1 peer va))

/-- 05 R77, R100; 08 R151; 12 R247, R253, R255, R267; 17 R336, R337, R342, R345: walks, write-backs, results, the copy and
matrix engines, and what is measured. A walk that finds a leaf enters it in the TLB of its die, and one that faults enters
nothing. A dirty line is written back at its deadline. A result is written to its registers, once; of a load whose flags are
enabled nothing is written and ARITH is taken (04 R68). A copy that can move all its
bytes finishes; one that meets a bad page halts, first in an event of its own, and COPY becomes pending on its warp. A matrix
command starts when its windows are free and retires when its cycles have passed. A trace record goes to its ring unless its
budget or the counter's home holds it. A capture starts once and ends with its record.
It rests on the model's choices of notes 47, 59, 71 to 73 and 92. -/
def Obligations.EngineEvents : Prop :=
  ∀ (s : State) (d h vpn c i n : Nat), d < 4 → h < 1024 → c < 768 →
    let x := s.ctx h
    let walk : State := (s.countDie d 0x42).charge d 2 40
    let line := (s.l1.find (lineKey c i))
    let y := s.core c
    let cap := x.cap
    (x.valid = false ∨ 2 ^ 45 ≤ vpn → s.Goes (.pageWalkComplete d h vpn) s) ∧
    (x.valid = true → vpn < 2 ^ 45 →
      (s.budgetOut d 2 = true → s.Goes (.pageWalkComplete d h vpn) (s.hold (budgetKey d 2) false (.pageWalkComplete d h vpn))) ∧
      (s.budgetOut d 2 = false →
        (∀ f, walkFrom walk.readPte (vpn * 4096) 4 (walk.ctx h).ptroot = .error f → s.Goes (.pageWalkComplete d h vpn) walk) ∧
        (∀ t, walkFrom walk.readPte (vpn * 4096) 4 (walk.ctx h).ptroot = .ok t →
          s.Goes (.pageWalkComplete d h vpn) (walk.tlbPut d h vpn t)))) ∧
    (∀ t, (s.tlbPut d h vpn t).tlb.find (State.tlbKey d h vpn) = some t ∧
      ((s.tlb.find (State.tlbKey d h vpn)).isSome = true ∨ (s.tlb.filter fun e => e.1 / 2 ^ 55 = d).length < 32768 →
        s.tlbPut d h vpn t = { s with tlb := s.tlb.set (State.tlbKey d h vpn) t })) ∧
    (line = none → s.Goes (.l1WritebackDeadline c i) s) ∧
    (∀ l, line = some l → (l.dirty = 0#32 → s.Goes (.l1WritebackDeadline c i) s) ∧
      (l.dirty ≠ 0#32 → s.closedFull (i * 128) = true →
        s.Goes (.l1WritebackDeadline c i) (s.hold (i * 128 / 4096) true (.l1WritebackDeadline c i))) ∧
      (l.dirty ≠ 0#32 → s.closedFull (i * 128) = false → s.Goes (.l1WritebackDeadline c i) (s.l1WriteBack c i))) ∧
    (s.reqs.find i = none → s.Goes (.variableLatencyResult i) s) ∧
    (∀ r, s.reqs.find i = some r →
      let e0 : State := { s with reqs := s.reqs.del i }
      let e := match r.pred with
        | some (n, b) => e0.updWarp r.core r.slot fun w => w.setSp n b
        | none => e0
      let put (f : Warp → Nat × Word → Warp) : State := e.updWarp r.core r.slot fun w =>
        (r.result.foldl f w).updUni fun u => { u with fstat := u.fstat ||| r.fstat }
      let go (t : State) : State := match r.keep with
        | some q => t.letGo i r q
        | none => t
      (r.performed = false → s.Goes (.variableLatencyResult i) s) ∧
      (∀ q, r.performed = true → r.keep = some q → r.fstat &&& q.enables ≠ 0#32 →
        let u := (e0.updWarp r.core r.slot fun w => (w.updSched fun x =>
          { x with atHome := x.atHome.filter fun e => e.1 != i }).updUni fun u => { u with fstat := u.fstat ||| r.fstat }).dropVar
            r.core r.slot i
        ((u.warp r.core r.slot).held ((lanesOf q.lanes).headD 0) = true → s.Goes (.variableLatencyResult i) u) ∧
        ((u.warp r.core r.slot).held ((lanesOf q.lanes).headD 0) = false → ∃ l bad, s.Goes (.variableLatencyResult i)
          (u.takeTrap r.core r.slot q.lanes { group := grpArith, code := (r.fstat &&& q.enables).toNat, async := false, lv := true
                                              lane := l, t1 := bad, t2 := q.word, epc := q.pc }))) ∧
      (r.performed = true → (∀ q, r.keep = some q → r.fstat &&& q.enables = 0#32) →
        (r.words = 0 → r.pred = none → s.Goes (.variableLatencyResult i) e) ∧
        (r.words ≠ 0 ∨ r.pred ≠ none →
          (r.file = .lane → s.Goes (.variableLatencyResult i)
            ((go ((put fun w e => if r.dest = 122 then w else w.setV (r.dest + e.1 % 4) (e.1 / 4) e.2).markRegs
              r.core r.slot [r.dest])).dropVar r.core r.slot i)) ∧
          (r.file = .uni → s.Goes (.variableLatencyResult i)
            ((go (put fun w e => w.setS (r.dest + e.1 % 4) e.2)).dropVar r.core r.slot i))))) ∧
    (∀ k ≤ fwSlot, ∀ ev ∈ [Instr.copyComplete c (2 ^ 32 + k), .copyHalt c (2 ^ 32 + k)],
      s.Goes ev (s.pumpBatches c k (s.warp c k).ctx (s.warp c k).team 9)) ∧
    (n < 2 ^ 32 → (s.cc c).copies.find n = none → s.Goes (.copyComplete c n) s ∧ s.Goes (.copyHalt c n) s) ∧
    (∀ z, n < 2 ^ 32 → (s.cc c).copies.find n = some z →
      let move := State.moveRows c n z ((State.copyRows z).drop z.rowsDone) z.rowsDone z.bytesDone s
      let both (t : State) : Prop := s.Goes (.copyComplete c n) t ∧ s.Goes (.copyHalt c n) t
      (z.started = false ∨ z.halted = true ∨ s.coreRuns c = false ∨ s.gangWaits c z.team = true → both s) ∧
      (z.started = true → z.halted = false → s.coreRuns c = true → s.gangWaits c z.team = false →
        (z.finished = true → z.node ≠ none → both (s.finishCopy c n z)) ∧
        (z.finished = true → z.node = none → both (s.pumpBatches c z.slot z.ctx z.team 9)) ∧
        (z.finished = false → s.scoreBlocks (opKey c n) = true → both (s.postAfter c 1 (.copyComplete c n))) ∧
        (z.finished = false → s.scoreBlocks (opKey c n) = false →
          (∀ e, move = (e, none) → both (e.finishCopy c n z)) ∧
          (∀ e key w, move = (e, some (.hold key w)) → both (e.hold key w (.copyComplete c n))) ∧
          (∀ e why dest, move = (e, some (.halt why dest)) →
            s.Goes (.copyComplete c n) (e.post (.copyHalt c n)) ∧ s.Goes (.copyHalt c n) (e.haltCopy c n why dest))))) ∧
    (∀ z why dest, (s.cc c).copies.find n = some z → z.slot ≤ fwSlot → s.haltCopy c n why dest =
      (s.updCc c fun v => { v with copies := v.copies.map fun e => if e.1 = n then (n, { e.2 with halted := true }) else e }).pendAsync
        c z.slot (State.haltTrap why dest z)) ∧
    (s.coreRuns c = false → s.Goes (.matrixCommandStart c) s) ∧
    (s.coreRuns c = true → ((s.cc c).matrix.loading ≠ none ∨ State.nextLoad (s.cc c).matrix = none) →
      ((s.cc c).matrix.running ≠ none ∨ (s.cc c).matrix.frozen ≠ none ∨ State.nextArray (s.cc c).matrix = none →
        s.Goes (.matrixCommandStart c) s) ∧
      (∀ q, (s.cc c).matrix.running = none → (s.cc c).matrix.frozen = none → State.nextArray (s.cc c).matrix = some q →
        (s.gangWaits c q.team = true → s.Goes (.matrixCommandStart c) s) ∧
        (s.gangWaits c q.team = false → s.scoreBlocks (opKey c q.num) = true → s.Goes (.matrixCommandStart c) (s.postAfter c 1 (.matrixCommandStart c))) ∧
        (s.gangWaits c q.team = false → s.scoreBlocks (opKey c q.num) = false → q.trackers = [] → q.opc = 0x5A → let f := s.cmdFmt c q
          s.Goes (.matrixCommandStart c) (((s.updMatrix c fun m => { m with
            queue := m.queue.filter fun y => y.num != q.num, running := some { q with due := y.cyc + State.retiresIn q f } }).countEv c 0x0C
              (State.occupies q f)).postAfter c (State.retiresIn q f) (.matrixCommandRetire c))))) ∧
    ((s.cc c).matrix.loading = none → (s.cc c).matrix.running = none → s.Goes (.matrixCommandRetire c) (s.startMatrix c)) ∧
    (∀ q, (s.cc c).matrix.loading = none → (s.cc c).matrix.running = some q →
      s.Goes (.matrixCommandRetire c) (if q.due ≤ y.cyc then
        ((s.updMatrix c fun m => { m with running := none }).retireCmd c q).startMatrix c else s.startMatrix c)) ∧
    (y.trace = [] → s.Goes (.traceRecordWrite c) s) ∧
    (∀ r l, y.trace = r :: l → let at' := (s.agentHome (dieOfCore c) (s.cc c).ctx (State.tcbTpos y.traceBlk)).bind fun z => s.ctrHold z true
      (State.tcbQlog y.traceBlk = 0 → s.Goes (.traceRecordWrite c) (s.updCore c fun z => { z with trace := [] })) ∧
      (State.tcbQlog y.traceBlk ≠ 0 → s.budgetOut (dieOfCore c) 1 = true →
        s.Goes (.traceRecordWrite c) (s.hold (budgetKey (dieOfCore c) 1) false (.traceRecordWrite c))) ∧
      (State.tcbQlog y.traceBlk ≠ 0 → s.budgetOut (dieOfCore c) 1 = false →
        (∀ key, at' = some key → s.Goes (.traceRecordWrite c) (s.hold key true (.traceRecordWrite c))) ∧
        (at' = none → s.Goes (.traceRecordWrite c) (((s.putLost c).updCore c fun z => { z with trace := l }).putRecord c r)))) ∧
    (s.coreRuns c = false ∨ s.sampleTurn c = none → s.Goes (.traceSample c) s) ∧
    (∀ k, s.coreRuns c = true → s.sampleTurn c = some k → ∃ t, s.Goes (.traceSample c) t ∧ t.mem = s.mem ∧
      t.cc c = s.cc c ∧ (t.core c).sampleSlot = (k + 1) % 32) ∧
    ((s.cc c).trackers.find n = none → s.Goes (.tileRecord c n) s) ∧
    (∀ z, (s.cc c).trackers.find n = some z →
      (z.closed = false ∨ z.batches ≠ [] ∨ z.cmds ≠ 0 → s.Goes (.tileRecord c n) s) ∧
      (z.closed = true → z.batches = [] → z.cmds = 0 → s.Goes (.tileRecord c n)
        ((s.trace c 2 z.wid 0 z.pre z.rgns (State.tileBody z)).updCc c fun v => { v with trackers := v.trackers.del n }))) ∧
    (s.Goes (.captureStart h n) (if cap.live then s else s.updCtx h fun z => { z with cap := { live := true, trigger := n } })) ∧
    (cap.live = false → s.Goes (.captureEnd h) s) ∧
    (cap.live = true → s.leadCore h = none → s.Goes (.captureEnd h) (s.post (.captureEnd h))) ∧
    (cap.live = true → s.leadCore h = some c → ∃ t, s.Goes (.captureEnd h) t ∧ (t.ctx h).cap.live = false ∧ t.mem = s.mem) ∧
    (let c := (s.leadCore h).getD 0
     let d := dieOfCore c
     (s.replayBlock d h = none → s.Goes (.replayDigest h n) s) ∧
     (∀ e b, s.replayBlock d h = some (e, b) →
       (e.digestInput d h b = none → s.Goes (.replayDigest h n) e) ∧
       (∀ u m, e.digestInput d h b = some (u, m) →
         (∀ t, rpMode b = 1 → u.vaWrite d h kStore (rpEntry b n + 64) (shake256 m ++ [1#8]) = .ok t → s.Goes (.replayDigest h n) t) ∧
         (∀ f, rpMode b = 1 → u.vaWrite d h kStore (rpEntry b n + 64) (shake256 m ++ [1#8]) = .error f → s.Goes (.replayDigest h n) u) ∧
         (rpMode b ≠ 1 → rpMode b ≠ 2 ∨ (u.ctx h).replayStopped = true → s.Goes (.replayDigest h n) u) ∧
         (rpMode b = 2 → (u.ctx h).replayStopped = false →
           (∀ f, u.vaRead d h kLoad (rpEntry b n + 64) 33 = .error f → s.Goes (.replayDigest h n) u) ∧
           (∀ e bs, u.vaRead d h kLoad (rpEntry b n + 64) 33 = .ok (e, bs) → s.Goes (.replayDigest h n)
             (if (bs.getD 32 0).getLsbD 0 = true ∧ bs.take 32 ≠ shake256 m then e.digestMiss c h n else e))))))

/-- 13 R286, R288, R289; 17 R343; 21 R383, R388 to R390; 22 R396; 23 R413: budgets, Equinox, power and links. A period sets
a die's counts to 0 and lets every request that waited for its budget go on; a budget write that would promise more than
BUDCAP is refused and sets DEVSTS. A step of Equinox makes the first K pending changes, in the order of their cores. The
V-F index never rises above MAX, and each throttling lowers it unless it is 0 already. At 115 degrees the module powers
down. A declared loss strands the lines whose home is gone and wakes what waits for them; a return writes them back or, after
a reset of the host's side, discards them. A damaged command, copy or Vigil slot is abandoned or cleared, and RESTORE
becomes pending.
It rests on the model's choices of notes 21, 74, 75, 85 and 87. -/
def Obligations.PowerAndLinkEvents : Prop :=
  ∀ (s : State) (d cycles i tj w port link c n v k cause : Nat) (val : Word) (back : Bool),
    d < 4 → i < 12 → port < 10 → link < 12 → c < 768 → n < 16384 → k < 16 → cause < 4 →
    let x := s.die d
    let cur (t : State) (e : Nat) : Nat := (t.die e).vfCur.toNat
    let lowered (t : State) (e : Nat) : Prop := cur t e < cur s e ∨ (cur s e = 0 ∧ cur t e = 0)
    let sum := (List.range 12).foldl (fun m j => m + (if j = i then val else x.abud.get 0xFFFF0000#32 j).toNat % 2 ^ 16) 0
    let order := x.eqPending.foldl (fun l e => insertChange e l) []
    let m := val.toNat / 2 ^ 8 % 16
    (∃ t, s.Goes (.budgetPeriod d cycles) t ∧ (t.die d).used = [] ∧ (t.die d).period = cycles ∧
      (∀ r ∈ s.held, (∃ j < 12, r.key = budgetKey d j) → r.ev ∈ t.agenda) ∧
      (∀ r, r ∈ t.held ↔ r ∈ s.held ∧ ∀ j < 12, r.key ≠ budgetKey d j)) ∧
    ((Config.budCap d).toNat < sum → s.Goes (.abudWrite d i val) (s.setDevsts 1)) ∧
    (sum ≤ (Config.budCap d).toNat → s.Goes (.abudWrite d i val) (s.updDie d fun y => { y with abud := y.abud.set i val })) ∧
    (∃ t, s.Goes (.equinoxStep d) t ∧ (t.die d).eqPending = order.drop (equinoxK x.eqK) ∧
      (t.die d).eqWaiting = min (order.length - equinoxK x.eqK) 255 ∧
      ∀ j, (t.core j).granted = true ↔ (s.core j).granted = true ∨ (j, true) ∈ order.take (equinoxK x.eqK)) ∧
    (m < cur s d → ∃ t, s.Goes (.vfstateWrite d val) t ∧ (t.die d).vfMax.toNat = m ∧ cur t d ≤ m) ∧
    (cur s d ≤ m → s.Goes (.vfstateWrite d val) (s.updDie d fun y => { y with vfMax := BitVec.ofNat 4 m })) ∧
    (x.vfMax.toNat < k ∨ cur s d = k → s.Goes (.vfStateChange d k cause) s) ∧
    (k ≤ x.vfMax.toNat → cur s d ≠ k → s.Goes (.vfStateChange d k cause)
      ((s.updDie d fun y => { y with vfCur := BitVec.ofNat 4 k }).powerRecords d cause (cur s d) k)) ∧
    (tj < x.tlim.toNat → s.Goes (.thermalThrottle d tj) s) ∧
    (x.tlim.toNat ≤ tj → ∃ t, s.Goes (.thermalThrottle d tj) t ∧ (t.die d).hot = true ∧ lowered t d) ∧
    (w ≤ s.powerLim → s.Goes (.powerLimitExceeded w) s) ∧
    (s.powerLim < w → ∃ t, s.Goes (.powerLimitExceeded w) t ∧ ∀ e < 4, lowered t e) ∧
    (∃ t, s.Goes .inputUndervoltage t ∧ ∀ e < 4, lowered t e) ∧
    (tj < 115 → s.Goes (.thermalShutdown d tj) s) ∧
    (115 ≤ tj → s.Goes (.thermalShutdown d tj) { State.reset with
      mem := s.mem.filter fun e => 2 ^ 46 ≤ e.1
      boot := { fused := s.boot.fused, slotA := s.boot.slotA, slotB := s.boot.slotB }
      free := s.free, io := { State.reset.io with powered := false } }) ∧
    (s.io.lostCxl.contains port = true → s.Goes (.cxlLinkLoss port) s) ∧
    (s.io.lostCxl.contains port = false → let e := (s.updIo fun y => { y with lostCxl := y.lostCxl ++ [port] }).strand.wakeLost
      let e := if port = rangePort then [0, 1, 2, 3].foldl (fun (s : State) e => s.flipLost e) e else e
      s.Goes (.cxlLinkLoss port) (if e.tierPorts.contains port then (e.ctxs.map Prod.fst).foldl (fun (s : State) h => s.abandon h 0x40) e else e)) ∧
    (s.io.lostColmet.contains link = true → s.Goes (.colmetLinkLoss link) s) ∧
    (s.io.lostColmet.contains link = false →
      s.Goes (.colmetLinkLoss link) (s.updIo fun y => { y with lostColmet := y.lostColmet ++ [link] }).strand.wakeLost) ∧
    (s.io.lostColmet.contains link = false → s.Goes (.linkRetrain true link back) s) ∧
    (s.io.lostColmet.contains link = true →
      s.Goes (.linkRetrain true link back) ((s.updIo fun y => { y with lostColmet := y.lostColmet.filter (· != link) }).unstrand false)) ∧
    (s.io.lostCxl.contains port = false ∨ s.boot.deadPorts.contains port = true → s.Goes (.linkRetrain false port back) s) ∧
    (s.io.lostCxl.contains port = true → s.boot.deadPorts.contains port = false →
      s.Goes (.linkRetrain false port back) ((s.updIo fun y => { y with lostCxl := y.lostCxl.filter (· != port) }).unstrand back)) ∧
    (s.stranded = [] → s.Goes .strandedRetentionExpiry s) ∧
    s.Goes .strandedRetentionExpiry (State.discardLines { s with stranded := [] } s.stranded) ∧
    ((s.vslot n).owner = none → s.Goes (.restore c 3 n v) s) ∧
    (∀ h, (s.vslot n).owner = some h → s.Goes (.restore c 3 n v)
      ((s.updVslot n fun z => { owner := z.owner, st := { stopped := true }, nerr := true }).pendAll h (State.restoreTrap 3 v))) ∧
    ((s.cc c).copies.find n = none → s.Goes (.restore c 2 n v) s) ∧
    (∀ z, (s.cc c).copies.find n = some z → s.Goes (.restore c 2 n v) ((s.dropCopy c n).pendRestore c z.slot 2 v)) ∧
    ((s.cc c).matrix.running = none → (s.cc c).matrix.frozen = none → s.Goes (.restore c 1 n v) s) ∧
    (∀ z, (s.cc c).matrix.running = some z → z.num = n → z.trackers = [] →
      let vs := ((List.range (State.rcM z.rowctl)).filter fun r => z.done ≤ r).flatMap fun r => (List.range 64).map fun j =>
        (State.rcBase z.rowctl + r, j, Fmt.nan .f32 false)
      s.Goes (.restore c 1 n v) ((((s.updMatrix c fun y => State.setAcc { y with running := none, frozen := none } vs).dropScore
        (opKey c n)).pendRestore c z.slot 1 v).startMatrix c))

/-- 05 R78, R93; 07 R128; 17 R340; 22 R401, R402; 23 R407 to R411, R415: the register block, keys, translations,
counter pages, contexts, the debug window and the recovery mailbox. A command on KID 0 ends with 1, and a WRAP or UNWRAP
without a usable wrapping key with 2; GEN, LOAD, ERASE and UNWRAP change the key of their KID alone, after the lines tagged with
it are written and dropped. The oldest TLB request drops what it names, on every die and core, and is counted. A counter page is marked once. CREATE fails before features are negotiated (1) and on a valid
context (2), DESTROY on one with parts (3). DBGDATA works on a stopped warp and else sets ERR; GO resumes the context. A mailbox
command ends with its outcome; REBOOT and a device reset leave the cold state, booted and tested.
It rests on the model's choices of notes 20 to 22, 88 to 90 and 93. -/
def Obligations.ManagementEvents : Prop :=
  ∀ (s : State) (src : Writer) (off h : Nat) (v : Word), h < 1024 →
    let k := s.io.keyKid.toNat
    let ends (t : State) (n : Nat) : State := t.updIo fun x =>
      { x with keyStat := BitVec.ofNat 8 n, keyBusy := false, keyData := [], keyOut := false }
    let kw := s.io.keyWk.toNat
    let d := s.dropKid k
    let late : List Nat := (d.reqs.filter fun q => q.2.writesUnder k).map Prod.fst
    let waits := d.held.find? fun q => late.any fun i => q.ev = .memoryRequestAtHome i
    let after (e : Instr) (f : State → State) : Prop :=
      (∀ q, waits = some q → s.Goes e (d.hold q.key true e)) ∧ (waits = none → s.Goes e (if late = [] then f d else d.post e))
    let x := s.ctx h
    let ctx (t : State) (f : Context → Context) : State := t.updCtx h f
    let page := (s.devReg64 0x0B0).toNat / 4096
    let mark (t : State) (b : Bool) : State := t.updIo fun y => { y with cpgMark := b }
    let mail (t : State) (n : Nat) : State := { t with boot := { t.boot with rmbsts := BitVec.ofNat 32 n, rmbBusy := false } }
    let act := s.boot.bootsts.getLsbD 18
    (s.reaches src off = false → s.Goes (.registerWrite src off v) s) ∧
    (s.reaches src off = true →
      (off < 0x1000 → s.Goes (.registerWrite src off v) (s.toRmb off (leBytes 4 v.toNat))) ∧
      (0x1000 ≤ off → off < 0x10000 → s.Goes (.registerWrite src off v) (s.writeDev src (off - 0x1000) v)) ∧
      (0x10000 ≤ off → off < 0x50000 →
        s.Goes (.registerWrite src off v) (s.writeDie ((off - 0x10000) / 0x10000) (off % 0x10000) v)) ∧
      (0x80000 ≤ off → off < 0x90000 → s.Goes (.registerWrite src off v) (s.writeVslot ((off - 0x80000) / 4) v)) ∧
      (0x100000 ≤ off → off < 0x200000 →
        s.Goes (.registerWrite src off v) (s.writeCtx ((off - 0x100000) / 0x400) (off % 0x400) v))) ∧
    (k = 0 → ∀ e ∈ [Instr.keyGen, .keyLoad, .keyErase, .keyWrap, .keyUnwrap], s.Goes e (ends s 1)) ∧
    s.Goes .keyReservedCommand (ends s 1) ∧
    (k ≠ 0 →
      after .keyGen (fun t => ends (State.putKey { t with free := t.free + 1 } k (some (Config.freeKey t.free))) 0) ∧
      after .keyLoad (fun t => ends (t.putKey k (some (State.keyOfBytes (t.keyBytesIn 16)))) 0) ∧
      after .keyErase (fun t => ends (t.putKey k none) 0) ∧
      (s.io.keys.find k = none → s.Goes .keyWrap (ends s 2)) ∧
      (s.io.keys.find kw = none ∨ kw = 0 ∨ kw = k → s.Goes .keyUnwrap (ends s 2) ∧ s.Goes .keyWrap (ends s 2)) ∧
      (∀ kek, s.io.keys.find kw = some kek → kw ≠ 0 → kw ≠ k → let w := (keyBytes kek).take 32
        (∀ key, s.io.keys.find k = some key → s.Goes .keyWrap ((ends s 0).updIo fun y => { y with
          keyOut := true
          keyData := (List.range 18).map fun i => (i, BitVec.ofNat 32 (leNat (((kwWrap w (keyBytes key)).drop (4 * i)).take 4))) })) ∧
        (kwUnwrap w (s.keyBytesIn 18) = none → s.Goes .keyUnwrap (ends s 3)) ∧
        (∀ p, kwUnwrap w (s.keyBytesIn 18) = some p → after .keyUnwrap fun t => ends (t.putKey k (some (State.keyOfBytes p))) 0))) ∧
    (∀ key : Option (BitVec 512), (s.putKey k key).io.keys.find k = key ∧
      ∀ j, j ≠ k → (s.putKey k key).io.keys.find j = s.io.keys.find j) ∧
    (16 ≤ s.io.tlbq.length → s.Goes .tlbInvalidateRequest (s.setDevsts 6)) ∧
    (s.io.tlbq.length < 16 → s.Goes .tlbInvalidateRequest ((s.updIo fun y => { y with tlbq := y.tlbq ++
      [{ ctx := (s.devReg 0x080).toNat % 1024, va := s.devReg64 0x088, len := s.devReg64 0x090, ctr := s.devReg64 0x098 }] }).post
        .tlbInvalidateComplete)) ∧
    (s.io.tlbq = [] → s.Goes .tlbInvalidateComplete s) ∧
    (∀ r l, s.io.tlbq = r :: l →
      let e : State := ({ s with io := { s.io with tlbq := l } }).dropTlb (State.TlbReq.hits r)
      (∀ y ∈ e.tlb, State.TlbReq.hits r y.1 y.2 = false) ∧ (∀ z ∈ e.cores, ∀ y ∈ z.2.tlb, State.TlbReq.hits r y.1 y.2 = false) ∧
      (∀ t, e.physAdd r.ctr 1 = some t → s.Goes .tlbInvalidateComplete t) ∧
      (e.physAdd r.ctr 1 = none → s.Goes .tlbInvalidateComplete (e.setDevsts 7))) ∧
    (4096 * page < deviceEnd →
      s.Goes .counterPageSet (mark { s with ctrPages := if page ∈ s.ctrPages then s.ctrPages else s.ctrPages ++ [page] } true) ∧
      s.Goes .counterPageClear (mark { s with ctrPages := s.ctrPages.filter (· != page) } false) ∧
      s.Goes .counterPageRead (mark s (decide (page ∈ s.ctrPages)))) ∧
    (deviceEnd ≤ 4096 * page → ∀ e ∈ [Instr.counterPageSet, .counterPageClear, .counterPageRead], s.Goes e (mark s false)) ∧
    (s.io.featDone = false → s.Goes (.create h) (ctx s fun y => { y with stat := 1 })) ∧
    (s.io.featDone = true → x.valid = true → s.Goes (.create h) (ctx s fun y => { y with stat := 2 })) ∧
    (s.io.featDone = true → x.valid = false → ∃ t, s.Goes (.create h) t ∧ t = ctx s (fun _ => t.ctx h) ∧
      (t.ctx h).valid = true ∧ (t.ctx h).stat = 0 ∧ (t.ctx h).feat = s.io.featAck.get 0 0 ∧ (t.ctx h).regs = x.regs) ∧
    (s.hasParts h = true → s.Goes (.destroy h) (ctx s fun y => { y with stat := 3 })) ∧
    (s.hasParts h = false → ∃ t, s.Goes (.destroy h) t ∧ (t.ctx h).valid = false ∧ (t.ctx h).stat = 0 ∧ t.mem = s.mem ∧ (∀ c, t.cc c = s.cc c) ∧
      t.parts = s.parts ∧ (∀ e ∈ t.launches, e.2.ctx ≠ h) ∧ (∀ e ∈ t.queues, e.2.ctx ≠ h) ∧ (∀ e ∈ t.tlb, e.1 / 2 ^ 45 % 1024 ≠ h) ∧
      ∀ z ∈ t.cores, ∀ e ∈ z.2.tlb, e.1 / 2 ^ 45 % 1024 ≠ h) ∧
    (s.dbgWarp h = none → s.Goes (.dbgdataRead h) { ctx s (fun y => { y with dbgErr := true }) with reply := 0 } ∧
      s.Goes (.dbgdataWrite h v) (ctx s fun y => { y with dbgErr := true })) ∧
    (∀ c w, s.dbgWarp h = some (c, w) →
      s.Goes (.dbgdataRead h) { (s.dbgValue h c w).2 with reply := (s.dbgValue h c w).1.setWidth 512 } ∧
      s.Goes (.dbgdataWrite h v) (s.dbgPut h c w v)) ∧
    (∃ t, s.Goes (.debugGo h) t ∧ t.mem = s.mem ∧ (t.ctx h).halt = false ∧
      ∀ c, (s.cc c).ctx = h → ∀ e ∈ (t.cc c).warps, e.2.trap.dbgStopped = false ∧ e.2.trap.frozen = false) ∧
    s.Goes .status (mail (s.toRmb 0 (leBytes 4 s.boot.bootsts.toNat ++ leBytes 4 s.boot.fused.toNat)) 0) ∧
    (Config.flashBlocks ≤ s.rmbBlock ∨ (s.recovery = false ∧ act = s.rmbSlot) → s.Goes .writeFlash (mail s 2)) ∧
    (s.rmbBlock < Config.flashBlocks → s.recovery = true ∨ act ≠ s.rmbSlot →
      let bs := s.fromRmb 0 4096
      let put (m : Map Byte) : Map Byte := (List.range 4096).foldl (fun m i => m.set (4096 * s.rmbBlock + i) (bs.getD i 0)) m
      (Config.flashFails s.free = true → s.Goes .writeFlash (mail { s with free := s.free + 1 } 3)) ∧
      (Config.flashFails s.free = false →
        (s.rmbSlot = true → s.Goes .writeFlash (mail { s with free := s.free + 1, boot := { s.boot with slotB := put s.boot.slotB } } 0)) ∧
        (s.rmbSlot = false → s.Goes .writeFlash (mail { s with free := s.free + 1, boot := { s.boot with slotA := put s.boot.slotA } } 0)))) ∧
    (let r := s.slotResult (if s.rmbSlot then s.boot.slotB else s.boot.slotA)
     s.Goes .verify (mail (r.2.toRmb 0 (leBytes 4 r.1)) 0)) ∧
    (let w := leNat (s.fromRmb 0 4)
     (s.unitOffline w = true → s.Goes .bist (mail (s.runBist w) 0)) ∧ (s.unitOffline w = false → s.Goes .bist (mail s 2))) ∧
    (let rs := (s.boot.records.drop s.boot.copied).take 16
     let e := s.toRmb 0 (rs.flatMap fun r => leBytes 16 r.toNat)
     s.Goes .results (mail { e with boot := { e.boot with copied := s.boot.copied + rs.length } } 0)) ∧
    s.Goes .mailboxUnknownCommand (mail s 1) ∧
    (∀ e, e = Instr.reboot ∨ e = .deviceReset → s.Goes e (s.cold.bootFirmware.runBist 0))

/-! ## The machine as a whole -/

/-- 08 R143 to R148, R159 to R161: the encoder writes every field of a well-formed instruction where the decoder reads
it, with every operand. -/
def Obligations.RoundTrip : Prop :=
  ∀ i : Instr, i.isWord = true → i.WellFormed = true → decodeWord (encode i) = .ok i

/-- Words written out from the layouts of 08 R143, R148 and the maps of R159 to R161 (SET, SC, OPC and the fields), one
or more of each family; an unassigned opcode and a fixed field with another value; a unit with LIT, one with REP (R153,
R154), and a sequence of prefixes that R142 does not allow. -/
def Obligations.DecodeWords : Prop :=
  decodeWord (0#1 ++ 1#2 ++ 0x00#8 ++ 3#7 ++ 5#7 ++ 7#7) = .ok (.iadd 1#2 3#7 5#7 7#7) ∧
  decodeWord (0#1 ++ 3#2 ++ 0x40#8 ++ 10#7 ++ 20#7 ++ 124#7) = .ok (.fadd 3#2 10#7 20#7 124#7) ∧
  decodeWord (0#1 ++ 0#2 ++ 0xA1#8 ++ 9#7 ++ 8#7 ++ 7#7) = .ok (.shfl 0#2 1#2 9#7 8#7 7#7) ∧
  decodeWord (0#1 ++ 2#2 ++ 0xC5#8 ++ 4#7 ++ 11#7 ++ (6#5 ++ 1#1 ++ 0#1)) = .ok (.ld 2#2 5#3 4#7 11#7 6#5 1#1 0#1) ∧
  decodeWord (0#1 ++ 0#2 ++ 0xE1#8 ++ (0#3 ++ 1#1 ++ 5#3) ++ 0x3FFF#14) = .ok (.brp 0#2 1#1 5#3 0x3FFF#14) ∧
  decodeWord 0x1D400000#32 = .ok (.nop 0#2) ∧
  decodeWord (1#1 ++ 2#2 ++ 0x00#7 ++ 33#6 ++ 21#6 ++ 12#6 ++ 0#4) = .ok (.sadd 2#2 33#6 21#6 12#6) ∧
  decodeWord (1#1 ++ 0#2 ++ 0x30#7 ++ 4#6 ++ 6#6 ++ 2#6 ++ (0#2 ++ 3#2)) = .ok (.cadd 0#2 4#6 6#6 2#6 0#2 3#2) ∧
  decodeWord (1#1 ++ 0#2 ++ 0x41#7 ++ 7#6 ++ 16#6 ++ (0#2 ++ 0#1 ++ 5#3) ++ (0#2 ++ 2#2)) = .ok (.cpyb 0#2 7#6 16#6 5#3 2#2) ∧
  decodeWord (1#1 ++ 0#2 ++ 0x5B#7 ++ 9#6 ++ 3#6 ++ 0#6 ++ (0#3 ++ 1#1)) = .ok (.mma 0#2 9#6 3#6 1#1) ∧
  decodeWord (1#1 ++ 1#2 ++ 0x70#7 ++ 0#6 ++ 0xABC#12 ++ 0#4) = .ok (.trap 1#2 0xABC#12) ∧
  decodeWord (1#1 ++ 0#2 ++ 0x73#7 ++ 8#6 ++ 2#6 ++ 1#6 ++ 0#4) = .ok (.toksub 0#2 8#6 2#6 1#6) ∧
  decodeWord (0#1 ++ 0#2 ++ 0x12#8 ++ 0#21) = .error .opcode ∧
  decodeWord (0#1 ++ 0#2 ++ 0xE4#8 ++ 1#7 ++ 0#14) = .error .fixedField ∧
  (let words (l : List Word) (n : Nat) : Except TrapInfo Word := .ok (l.getD n 0)
   let lit : Word := 1#1 ++ 0#2 ++ 0x78#7 ++ 0#22
   let rep : Word := 1#1 ++ 0#2 ++ 0x79#7 ++ 3#6 ++ 6#3 ++ 0#13
   let add : Word := 0#1 ++ 0#2 ++ 0x00#8 ++ 20#7 ++ 10#7 ++ 124#7
   let sum : Word := 0#1 ++ 0#2 ++ 0x40#8 ++ 20#7 ++ 10#7 ++ 30#7
   decodeUnit (words [lit, 0xDEADBEEF#32, add]) false =
     .unit { word := add, pos := 2, lit := some 0xDEADBEEF#32 } (.iadd 0#2 20#7 10#7 124#7) ∧
   decodeUnit (words [rep, sum]) false = .unit { word := sum, pos := 1, rep := some (4, 6#3) } (.fadd 0#2 20#7 10#7 30#7) ∧
   decodeUnit (words [lit, lit, add]) false = .unit { word := add, pos := 2, lit := some lit } (.iadd 0#2 20#7 10#7 124#7) ∧
   decodeUnit (words [lit, 0#32, lit]) false = .encoding { reason := .prefixWord, pos := 0, word := lit })

/-- 02 R24, R26, R40; 08 R141, R154; 20 R363: a step runs the instruction whose unit lies at the PC of the group that the
issue cycle chose. What it adds around `exec`: the choice leaves the list, `cur` says where it was issued and what its unit
says, and a user warp's core is busy in the cycle (`beginWork`); with the issue the lanes' wait counts end, the counters of
17 R344 count, and the unit's lines enter the instruction cache, and no register or PC changes (`issued`). An instruction that is put off, or that meets a line which the host holds, leaves the
state as it was; the line is asked for (16 R321). A unit that cannot be decoded takes its trap; one whose REP has no repeat
left is passed. With nothing chosen a step is a posted event, the oldest of an activity below its GUAR (13 R289), else
the oldest (the order is the model's choice, notes 4 and 5), or the next quad's issue cycle; an event that meets such a line
is held whole. -/
def Obligations.StepRunsDecoded : Prop :=
  ∀ s : State,
    (s.io.powered = false → step s = .next s) ∧
    (s.io.powered = true → ∀ x rest, s.issuing = x :: rest →
      let e : State := { s with issuing := rest, cur :=
        { core := x.core, slot := x.slot, lanes := x.lanes, pc := x.pc, mode := x.mode, spntmr := x.spntmr, second := x.second,
          firstOff := x.second && s.cur.off, firstTrapped := x.second && s.cur.firstTrapped } }
      let at_ (u : CodeUnit) (w : Word) : State :=
        { e with cur := { e.cur with word := w, pos := u.pos, lit := u.lit, rep := u.rep } }
      let trap (group code : Nat) (t1 t2 : Word) : TrapInfo :=
        { group := group, code := code, async := false, lv := false, lane := 0, t1 := t1, t2 := t2, epc := x.pc }
      let fetched (n : Nat) (p : Prop) : Prop := match (List.range n).findSome? (e.fetchHold x.core x.slot x.pc) with
        | some key => step s = .next (e.snoop key false).putOff
        | none => p
      let runs (b : State) (i : Instr) : Prop :=
        (∀ t, exec i b.beginWork = .next t → step s = .next (match t.blocked with
          | some (key, inval) => (b.snoop key inval).putOff
          | none => if t.cur.off then { b with cur := t.cur } else t.issued)) ∧
        (∀ f, exec i b.beginWork = .fault f → step s = .fault f) ∧ (∀ r, exec i b.beginWork = .refused r → step s = .refused r)
      match decodeUnit (e.fetchWord x.core x.slot x.lanes x.pc) (x.slot = fwSlot) with
      | .fetchFault t => fetched 1 (step s = .next (e.trapUnit t))
      | .privilege w => fetched 1 (step s = .next (e.trapUnit (trap grpPrivilege 256 w 0)))
      | .encoding f =>
        fetched 1 (step s = .next (e.trapUnit (trap grpEncoding (f.reason.code * 256 + f.pos) f.word (BitVec.ofNat 32 f.value))))
      | .unit u i =>
        match u.rep with
        | none => fetched (u.pos + 1) (runs (at_ u u.word) i)
        | some (n, m) =>
          let k := (e.warp x.core x.slot).uni.repIdx
          let w := stepWord u.word k m
          (n ≤ k → fetched (u.pos + 1) (step s = .next (at_ u u.word).skipUnit)) ∧
          (∀ j, k < n → decodeWord w = .ok j → fetched (u.pos + 1) (runs (at_ u w) j)) ∧
          (∀ r, k < n → decodeWord w = .error r →
            fetched 1 (step s = .next (e.trapUnit (trap grpEncoding (r.code * 256 + u.pos) w 0))))) ∧
    (s.beginWork = if s.cur.slot = 32 then s else s.updCore s.cur.core fun y =>
      { y with busy := true, cc := { y.cc with lastRgns := s.me.rgns, lastSlot := s.cur.slot } }) ∧
    (∀ t, s.trapUnit t = let u := s.beginWork.syncTrap t
      if u.cur.off then u else u.clearWaits) ∧
    (s.issued.cur = s.cur ∧ ∀ c k,
      s.issued.warp c k = { s.warp c k with lanes := (s.issued.warp c k).lanes } ∧
      ∀ l, (s.issued.warp c k).lane l = { (s.warp c k).lane l with waits := ((s.issued.warp c k).lane l).waits }) ∧
    (s.agenda = [] → s.nextEvent = none) ∧
    (∀ p i q, s.agenda = p ++ i :: q → (∀ y ∈ p, s.guaranteed y = false) →
      s.guaranteed i = true ∨ (p = [] ∧ ∀ y ∈ q, s.guaranteed y = false) → s.nextEvent = some (i, p ++ q)) ∧
    (s.io.powered = true → s.issuing = [] →
      let goes (b : State) (i : Instr) : Prop :=
        (∀ t, exec i b = .next t → step s = .next (match t.blocked with
          | some (key, inval) => b.hold key inval i
          | none => t)) ∧
        (∀ f, exec i b = .fault f → step s = .fault f) ∧ (∀ r, exec i b = .refused r → step s = .refused r)
      let quad : Instr := .quadIssueCycle s.turnCore s.turnQuad
      (∀ i rest, s.nextEvent = some (i, rest) →
        if s.eventNow.1 then goes { s with agenda := rest, free := s.free + 1 } i
        else goes { s.advanceTurn with free := s.free + 1 } quad) ∧
      (s.nextEvent = none → goes s.advanceTurn quad))

/-- What reset leaves: the values that 13 R286, 21 R389, 23 R410, R411, R413 and R414 give, read as the host reads them; no
context, so no warp of one, and nothing chosen, posted or in flight. The rest of the reset state is the model's choice
(notes 1 to 6). -/
def Obligations.ResetState : Prop :=
  let rd (off : Nat) : Word := (State.reset.readReg .host off).1
  State.reset.memWf ∧ (∀ a, memGet State.reset.mem a = 0#8) ∧
  rd 0x1000 = 0 ∧ (∀ n, n < 4 → rd (0x1030 + 4 * n) = 0) ∧ rd 0x1044 = 0 ∧ rd 0x1048 = 0 ∧
  rd 0x104C = BitVec.ofNat 32 (250 * 2 ^ 16) ∧ rd 0x1050 = 2000#32 ∧
  (∀ d, d < 4 → rd (0x10000 + 0x10000 * d) = 8#32 ∧ rd (0x10050 + 0x10000 * d) = 0xF0F#32 ∧
    (rd (0x10054 + 0x10000 * d)).extractLsb' 8 9 = 95#9) ∧
  (∀ k, k < 16384 → rd (0x80000 + 4 * k) = 0) ∧
  (∀ h, (State.reset.ctx h).valid = false) ∧ (∀ p, (State.reset.part p).running = none) ∧
  State.reset.issuing = [] ∧ State.reset.agenda = [] ∧ State.reset.reqs = []

/-- 05 R72: whatever a step does, memory keeps its one form, so that equal memories are equal data. -/
def Obligations.MemoryStaysCanonical : Prop := ∀ s t : State, s.memWf → step s = .next t → t.memWf
end

