-- ==== Sys2Proof/Laws/Maps.lean ====
section
/-! SUPPORT. Maps, lane masks and lists: what is read after a write. -/

namespace Sys2Proof

theorem Map.get_set_same {α : Type} (d : α) (m : Map α) (n : Nat) (y : α) : (Map.set m n y).get d n = y := by
  induction m with
  | nil => simp [Map.set, Map.get]
  | cons e m ih =>
    obtain ⟨k, x⟩ := e
    simp only [Map.set]
    split
    · simp [Map.get]
    · split
      · simp [Map.get]
      · rename_i h; simp only [Map.get, if_neg (Ne.symm h)]; exact ih

theorem Map.get_set_other {α : Type} (d : α) (m : Map α) (n j : Nat) (y : α) (h : j ≠ n) :
    (Map.set m n y).get d j = m.get d j := by
  induction m with
  | nil => simp [Map.set, Map.get, Ne.symm h]
  | cons e m ih =>
    obtain ⟨k, x⟩ := e
    simp only [Map.set]
    split
    · simp [Map.get, Ne.symm h]
    · split
      · rename_i h'; subst h'; simp [Map.get, Ne.symm h]
      · simp only [Map.get]; split <;> simp_all

@[simp] theorem Map.get_set {α : Type} (d : α) (m : Map α) (n j : Nat) (y : α) :
    (Map.set m n y).get d j = if j = n then y else m.get d j := by
  split
  · subst_vars; exact Map.get_set_same ..
  · exact Map.get_set_other _ _ _ _ _ ‹_›

@[simp] theorem Map.get_upd {α : Type} (d : α) (m : Map α) (n j : Nat) (f : α → α) :
    (Map.upd d m n f).get d j = if j = n then f (m.get d n) else m.get d j := by
  simp [Map.upd]

theorem Map.find_set_same {α : Type} (m : Map α) (n : Nat) (y : α) : (Map.set m n y).find n = some y := by
  induction m with
  | nil => simp [Map.set, Map.find]
  | cons e m ih =>
    obtain ⟨k, x⟩ := e
    simp only [Map.set]
    split
    · simp [Map.find]
    · split
      · simp [Map.find]
      · rename_i h; simp only [Map.find, if_neg (Ne.symm h)]; exact ih

theorem Map.find_set_other {α : Type} (m : Map α) (n j : Nat) (y : α) (h : j ≠ n) :
    (Map.set m n y).find j = m.find j := by
  induction m with
  | nil => simp [Map.set, Map.find, Ne.symm h]
  | cons e m ih =>
    obtain ⟨k, x⟩ := e
    simp only [Map.set]
    split
    · simp [Map.find, Ne.symm h]
    · split
      · rename_i h'; subst h'; simp [Map.find, Ne.symm h]
      · simp only [Map.find]; split <;> simp_all

@[simp] theorem Map.find_set {α : Type} (m : Map α) (n j : Nat) (y : α) :
    (Map.set m n y).find j = if j = n then some y else m.find j := by
  split
  · subst_vars; exact Map.find_set_same ..
  · exact Map.find_set_other _ _ _ _ ‹_›

/-- A read with a default is a lookup. -/
theorem Map.get_eq_find {α : Type} (d : α) (m : Map α) (n : Nat) : m.get d n = (m.find n).getD d := by
  induction m with
  | nil => rfl
  | cons e m ih =>
    obtain ⟨k, y⟩ := e
    simp only [Map.get, Map.find]; split
    · rfl
    · exact ih
theorem Map.find_del_same {α : Type} (m : Map α) (n : Nat) : (Map.del m n).find n = none := by
  induction m with
  | nil => rfl
  | cons e m ih =>
    obtain ⟨k, x⟩ := e
    by_cases h : k = n
    · subst h; simpa [Map.del, Map.find] using ih
    · simp only [Map.del] at ih ⊢; simp [h, Map.find]; simpa [Map.del] using ih

theorem Map.find_del_other {α : Type} (m : Map α) (n j : Nat) (h : j ≠ n) : (Map.del m n).find j = m.find j := by
  induction m with
  | nil => rfl
  | cons e m ih =>
    obtain ⟨k, x⟩ := e
    simp only [Map.del] at ih ⊢
    by_cases hk : k = n
    · subst hk; simp [Map.find, Ne.symm h]; simpa using ih
    · simp [hk, Map.find]; rw [ih]

@[simp] theorem Map.find_del {α : Type} (m : Map α) (n j : Nat) :
    (Map.del m n).find j = if j = n then none else m.find j := by
  split
  · subst_vars; exact Map.find_del_same ..
  · exact Map.find_del_other _ _ _ ‹_›

theorem Map.get_find {α : Type} (d : α) (m : Map α) (n : Nat) : m.get d n = (m.find n).getD d := by
  induction m with
  | nil => rfl
  | cons e m ih => obtain ⟨k, x⟩ := e; simp only [Map.get, Map.find]; split <;> simp_all

/-- Setting a key twice is setting it once. -/
theorem Map.set_set {α : Type} (m : Map α) (n : Nat) (x y : α) : (m.set n x).set n y = m.set n y := by
  induction m with
  | nil => simp [Map.set]
  | cons e m ih =>
    obtain ⟨k, z⟩ := e
    simp only [Map.set]
    split
    · simp [Map.set]
    · split
      · simp [Map.set]
      · simp only [Map.set, *, if_false]

@[simp] theorem Map.upd_upd {α : Type} (d : α) (m : Map α) (n : Nat) (f g : α → α) :
    (Map.upd d (Map.upd d m n f) n g) = Map.upd d m n (fun x => g (f x)) := by
  simp [Map.upd, Map.set_set]

theorem mem_lanesOf (m : Mask) (l : Nat) : l ∈ lanesOf m ↔ l < 32 ∧ m.getLsbD l = true := by
  simp [lanesOf]

theorem maskOf_fold (f : Nat → Bool) (ls : List Nat) (m : Mask) (i : Nat) :
    (ls.foldl (fun (m : Mask) l => if f l then m ||| (1#32 <<< l) else m) m).getLsbD i =
      (m.getLsbD i || (i < 32 && ls.any fun l => l = i && f l)) := by
  induction ls generalizing m with
  | nil => simp
  | cons a ls ih =>
    simp only [List.foldl_cons, List.any_cons]
    rw [ih]
    by_cases ha : f a = true
    · simp only [ha, if_true, BitVec.getLsbD_or, BitVec.getLsbD_shiftLeft, Bool.and_true]
      by_cases hi : i < 32
      · by_cases hai : a = i
        · subst hai; simp [hi]
        · have : (1#32).getLsbD (i - a) = decide (i - a = 0) := by
            rw [BitVec.getLsbD_one]; simp
          have h2 : (!decide (i < a) && decide (i - a = 0)) = false := by
            rw [Bool.eq_false_iff]; simp; omega
          simp [hi, hai, this, h2]
      · have := BitVec.getLsbD_of_ge m i (by omega); simp [hi, this]
    · simp [ha]

theorem getLsbD_maskOf (f : Nat → Bool) (i : Nat) : (maskOf f).getLsbD i = (decide (i < 32) && f i) := by
  rw [maskOf, maskOf_fold]
  simp only [BitVec.getLsbD_zero, Bool.false_or]
  by_cases hi : i < 32
  · simp only [hi, decide_true, Bool.true_and]
    rw [Bool.eq_iff_iff]
    simp only [List.any_eq_true, List.mem_range, Bool.and_eq_true, decide_eq_true_eq]
    constructor
    · rintro ⟨x, hx, rfl, h⟩; exact h
    · intro h; exact ⟨i, hi, rfl, h⟩
  · simp [hi]

theorem lanesOf_maskOf (f : Nat → Bool) : lanesOf (maskOf f) = (List.range 32).filter f := by
  simp only [lanesOf, getLsbD_maskOf]
  apply List.filter_congr
  intro l hl; simp at hl; simp [hl]
theorem maskOf_eq_zero (f : Nat → Bool) : maskOf f = 0#32 ↔ (List.range 32).filter f = [] := by
  rw [← lanesOf_maskOf]
  constructor
  · intro h; rw [h]; rfl
  · intro h
    apply BitVec.eq_of_getLsbD_eq
    intro i hi
    have : i ∉ lanesOf (maskOf f) := by rw [h]; simp
    rw [mem_lanesOf] at this; simp [hi] at this; simpa [hi] using this
theorem filter_lanesOf (m : Mask) (f : Nat → Bool) :
    (lanesOf m).filter f = (List.range 32).filter fun l => m.getLsbD l && f l := by
  simp only [lanesOf, List.filter_filter]; congr 1; funext l; rw [Bool.and_comm]

end Sys2Proof
end

