-- ==== Sys2Proof/Laws/State.lean ====
section
/-! SUPPORT. The small laws of the state: what each field is after each update, and what the accessors of
`Machine/Access.lean` read after a write. No later proof unfolds an update. -/

namespace Sys2Proof.Machine.State

/-! ### updCore -/

@[simp] theorem updCore_mem (s : State) (c : Nat) (f : Core → Core) : (s.updCore c f).mem = s.mem := rfl
@[simp] theorem updCore_parts (s : State) (c : Nat) (f : Core → Core) : (s.updCore c f).parts = s.parts := rfl
@[simp] theorem updCore_dies (s : State) (c : Nat) (f : Core → Core) : (s.updCore c f).dies = s.dies := rfl
@[simp] theorem updCore_ctxs (s : State) (c : Nat) (f : Core → Core) : (s.updCore c f).ctxs = s.ctxs := rfl
@[simp] theorem updCore_launches (s : State) (c : Nat) (f : Core → Core) : (s.updCore c f).launches = s.launches := rfl
@[simp] theorem updCore_nextLaunch (s : State) (c : Nat) (f : Core → Core) : (s.updCore c f).nextLaunch = s.nextLaunch := rfl
@[simp] theorem updCore_l1 (s : State) (c : Nat) (f : Core → Core) : (s.updCore c f).l1 = s.l1 := rfl
@[simp] theorem updCore_l2 (s : State) (c : Nat) (f : Core → Core) : (s.updCore c f).l2 = s.l2 := rfl
@[simp] theorem updCore_tlb (s : State) (c : Nat) (f : Core → Core) : (s.updCore c f).tlb = s.tlb := rfl
@[simp] theorem updCore_waiters (s : State) (c : Nat) (f : Core → Core) : (s.updCore c f).waiters = s.waiters := rfl
@[simp] theorem updCore_watches (s : State) (c : Nat) (f : Core → Core) : (s.updCore c f).watches = s.watches := rfl
@[simp] theorem updCore_reqs (s : State) (c : Nat) (f : Core → Core) : (s.updCore c f).reqs = s.reqs := rfl
@[simp] theorem updCore_ctrOps (s : State) (c : Nat) (f : Core → Core) : (s.updCore c f).ctrOps = s.ctrOps := rfl
@[simp] theorem updCore_vreqs (s : State) (c : Nat) (f : Core → Core) : (s.updCore c f).vreqs = s.vreqs := rfl
@[simp] theorem updCore_nextReq (s : State) (c : Nat) (f : Core → Core) : (s.updCore c f).nextReq = s.nextReq := rfl
@[simp] theorem updCore_hostBias (s : State) (c : Nat) (f : Core → Core) : (s.updCore c f).hostBias = s.hostBias := rfl
@[simp] theorem updCore_flipping (s : State) (c : Nat) (f : Core → Core) : (s.updCore c f).flipping = s.flipping := rfl
@[simp] theorem updCore_ctrPages (s : State) (c : Nat) (f : Core → Core) : (s.updCore c f).ctrPages = s.ctrPages := rfl
@[simp] theorem updCore_held (s : State) (c : Nat) (f : Core → Core) : (s.updCore c f).held = s.held := rfl
@[simp] theorem updCore_snoops (s : State) (c : Nat) (f : Core → Core) : (s.updCore c f).snoops = s.snoops := rfl
@[simp] theorem updCore_hostLines (s : State) (c : Nat) (f : Core → Core) : (s.updCore c f).hostLines = s.hostLines := rfl
@[simp] theorem updCore_hostClean (s : State) (c : Nat) (f : Core → Core) : (s.updCore c f).hostClean = s.hostClean := rfl
@[simp] theorem updCore_stranded (s : State) (c : Nat) (f : Core → Core) : (s.updCore c f).stranded = s.stranded := rfl
@[simp] theorem updCore_ctrHeld (s : State) (c : Nat) (f : Core → Core) : (s.updCore c f).ctrHeld = s.ctrHeld := rfl
@[simp] theorem updCore_snooped (s : State) (c : Nat) (f : Core → Core) : (s.updCore c f).snooped = s.snooped := rfl
@[simp] theorem updCore_damage (s : State) (c : Nat) (f : Core → Core) : (s.updCore c f).damage = s.damage := rfl
@[simp] theorem updCore_blocked (s : State) (c : Nat) (f : Core → Core) : (s.updCore c f).blocked = s.blocked := rfl
@[simp] theorem updCore_vigil (s : State) (c : Nat) (f : Core → Core) : (s.updCore c f).vigil = s.vigil := rfl
@[simp] theorem updCore_io (s : State) (c : Nat) (f : Core → Core) : (s.updCore c f).io = s.io := rfl
@[simp] theorem updCore_boot (s : State) (c : Nat) (f : Core → Core) : (s.updCore c f).boot = s.boot := rfl
@[simp] theorem updCore_gangs (s : State) (c : Nat) (f : Core → Core) : (s.updCore c f).gangs = s.gangs := rfl
@[simp] theorem updCore_nextGang (s : State) (c : Nat) (f : Core → Core) : (s.updCore c f).nextGang = s.nextGang := rfl
@[simp] theorem updCore_gtk (s : State) (c : Nat) (f : Core → Core) : (s.updCore c f).gtk = s.gtk := rfl
@[simp] theorem updCore_gsv (s : State) (c : Nat) (f : Core → Core) : (s.updCore c f).gsv = s.gsv := rfl
@[simp] theorem updCore_queues (s : State) (c : Nat) (f : Core → Core) : (s.updCore c f).queues = s.queues := rfl
@[simp] theorem updCore_runs (s : State) (c : Nat) (f : Core → Core) : (s.updCore c f).runs = s.runs := rfl
@[simp] theorem updCore_rings (s : State) (c : Nat) (f : Core → Core) : (s.updCore c f).rings = s.rings := rfl
@[simp] theorem updCore_nextRun (s : State) (c : Nat) (f : Core → Core) : (s.updCore c f).nextRun = s.nextRun := rfl
@[simp] theorem updCore_agenda (s : State) (c : Nat) (f : Core → Core) : (s.updCore c f).agenda = s.agenda := rfl
@[simp] theorem updCore_issuing (s : State) (c : Nat) (f : Core → Core) : (s.updCore c f).issuing = s.issuing := rfl
@[simp] theorem updCore_cur (s : State) (c : Nat) (f : Core → Core) : (s.updCore c f).cur = s.cur := rfl
@[simp] theorem updCore_turnCore (s : State) (c : Nat) (f : Core → Core) : (s.updCore c f).turnCore = s.turnCore := rfl
@[simp] theorem updCore_turnQuad (s : State) (c : Nat) (f : Core → Core) : (s.updCore c f).turnQuad = s.turnQuad := rfl
@[simp] theorem updCore_free (s : State) (c : Nat) (f : Core → Core) : (s.updCore c f).free = s.free := rfl
@[simp] theorem updCore_reply (s : State) (c : Nat) (f : Core → Core) : (s.updCore c f).reply = s.reply := rfl

/-! ### updCc -/

@[simp] theorem updCc_mem (s : State) (c : Nat) (f : CoreCtx → CoreCtx) : (s.updCc c f).mem = s.mem := rfl
@[simp] theorem updCc_parts (s : State) (c : Nat) (f : CoreCtx → CoreCtx) : (s.updCc c f).parts = s.parts := rfl
@[simp] theorem updCc_dies (s : State) (c : Nat) (f : CoreCtx → CoreCtx) : (s.updCc c f).dies = s.dies := rfl
@[simp] theorem updCc_ctxs (s : State) (c : Nat) (f : CoreCtx → CoreCtx) : (s.updCc c f).ctxs = s.ctxs := rfl
@[simp] theorem updCc_launches (s : State) (c : Nat) (f : CoreCtx → CoreCtx) : (s.updCc c f).launches = s.launches := rfl
@[simp] theorem updCc_nextLaunch (s : State) (c : Nat) (f : CoreCtx → CoreCtx) : (s.updCc c f).nextLaunch = s.nextLaunch := rfl
@[simp] theorem updCc_l1 (s : State) (c : Nat) (f : CoreCtx → CoreCtx) : (s.updCc c f).l1 = s.l1 := rfl
@[simp] theorem updCc_l2 (s : State) (c : Nat) (f : CoreCtx → CoreCtx) : (s.updCc c f).l2 = s.l2 := rfl
@[simp] theorem updCc_tlb (s : State) (c : Nat) (f : CoreCtx → CoreCtx) : (s.updCc c f).tlb = s.tlb := rfl
@[simp] theorem updCc_waiters (s : State) (c : Nat) (f : CoreCtx → CoreCtx) : (s.updCc c f).waiters = s.waiters := rfl
@[simp] theorem updCc_watches (s : State) (c : Nat) (f : CoreCtx → CoreCtx) : (s.updCc c f).watches = s.watches := rfl
@[simp] theorem updCc_reqs (s : State) (c : Nat) (f : CoreCtx → CoreCtx) : (s.updCc c f).reqs = s.reqs := rfl
@[simp] theorem updCc_ctrOps (s : State) (c : Nat) (f : CoreCtx → CoreCtx) : (s.updCc c f).ctrOps = s.ctrOps := rfl
@[simp] theorem updCc_vreqs (s : State) (c : Nat) (f : CoreCtx → CoreCtx) : (s.updCc c f).vreqs = s.vreqs := rfl
@[simp] theorem updCc_nextReq (s : State) (c : Nat) (f : CoreCtx → CoreCtx) : (s.updCc c f).nextReq = s.nextReq := rfl
@[simp] theorem updCc_hostBias (s : State) (c : Nat) (f : CoreCtx → CoreCtx) : (s.updCc c f).hostBias = s.hostBias := rfl
@[simp] theorem updCc_flipping (s : State) (c : Nat) (f : CoreCtx → CoreCtx) : (s.updCc c f).flipping = s.flipping := rfl
@[simp] theorem updCc_ctrPages (s : State) (c : Nat) (f : CoreCtx → CoreCtx) : (s.updCc c f).ctrPages = s.ctrPages := rfl
@[simp] theorem updCc_held (s : State) (c : Nat) (f : CoreCtx → CoreCtx) : (s.updCc c f).held = s.held := rfl
@[simp] theorem updCc_snoops (s : State) (c : Nat) (f : CoreCtx → CoreCtx) : (s.updCc c f).snoops = s.snoops := rfl
@[simp] theorem updCc_hostLines (s : State) (c : Nat) (f : CoreCtx → CoreCtx) : (s.updCc c f).hostLines = s.hostLines := rfl
@[simp] theorem updCc_hostClean (s : State) (c : Nat) (f : CoreCtx → CoreCtx) : (s.updCc c f).hostClean = s.hostClean := rfl
@[simp] theorem updCc_stranded (s : State) (c : Nat) (f : CoreCtx → CoreCtx) : (s.updCc c f).stranded = s.stranded := rfl
@[simp] theorem updCc_ctrHeld (s : State) (c : Nat) (f : CoreCtx → CoreCtx) : (s.updCc c f).ctrHeld = s.ctrHeld := rfl
@[simp] theorem updCc_snooped (s : State) (c : Nat) (f : CoreCtx → CoreCtx) : (s.updCc c f).snooped = s.snooped := rfl
@[simp] theorem updCc_damage (s : State) (c : Nat) (f : CoreCtx → CoreCtx) : (s.updCc c f).damage = s.damage := rfl
@[simp] theorem updCc_blocked (s : State) (c : Nat) (f : CoreCtx → CoreCtx) : (s.updCc c f).blocked = s.blocked := rfl
@[simp] theorem updCc_vigil (s : State) (c : Nat) (f : CoreCtx → CoreCtx) : (s.updCc c f).vigil = s.vigil := rfl
@[simp] theorem updCc_io (s : State) (c : Nat) (f : CoreCtx → CoreCtx) : (s.updCc c f).io = s.io := rfl
@[simp] theorem updCc_boot (s : State) (c : Nat) (f : CoreCtx → CoreCtx) : (s.updCc c f).boot = s.boot := rfl
@[simp] theorem updCc_gangs (s : State) (c : Nat) (f : CoreCtx → CoreCtx) : (s.updCc c f).gangs = s.gangs := rfl
@[simp] theorem updCc_nextGang (s : State) (c : Nat) (f : CoreCtx → CoreCtx) : (s.updCc c f).nextGang = s.nextGang := rfl
@[simp] theorem updCc_gtk (s : State) (c : Nat) (f : CoreCtx → CoreCtx) : (s.updCc c f).gtk = s.gtk := rfl
@[simp] theorem updCc_gsv (s : State) (c : Nat) (f : CoreCtx → CoreCtx) : (s.updCc c f).gsv = s.gsv := rfl
@[simp] theorem updCc_queues (s : State) (c : Nat) (f : CoreCtx → CoreCtx) : (s.updCc c f).queues = s.queues := rfl
@[simp] theorem updCc_runs (s : State) (c : Nat) (f : CoreCtx → CoreCtx) : (s.updCc c f).runs = s.runs := rfl
@[simp] theorem updCc_rings (s : State) (c : Nat) (f : CoreCtx → CoreCtx) : (s.updCc c f).rings = s.rings := rfl
@[simp] theorem updCc_nextRun (s : State) (c : Nat) (f : CoreCtx → CoreCtx) : (s.updCc c f).nextRun = s.nextRun := rfl
@[simp] theorem updCc_agenda (s : State) (c : Nat) (f : CoreCtx → CoreCtx) : (s.updCc c f).agenda = s.agenda := rfl
@[simp] theorem updCc_issuing (s : State) (c : Nat) (f : CoreCtx → CoreCtx) : (s.updCc c f).issuing = s.issuing := rfl
@[simp] theorem updCc_cur (s : State) (c : Nat) (f : CoreCtx → CoreCtx) : (s.updCc c f).cur = s.cur := rfl
@[simp] theorem updCc_turnCore (s : State) (c : Nat) (f : CoreCtx → CoreCtx) : (s.updCc c f).turnCore = s.turnCore := rfl
@[simp] theorem updCc_turnQuad (s : State) (c : Nat) (f : CoreCtx → CoreCtx) : (s.updCc c f).turnQuad = s.turnQuad := rfl
@[simp] theorem updCc_free (s : State) (c : Nat) (f : CoreCtx → CoreCtx) : (s.updCc c f).free = s.free := rfl
@[simp] theorem updCc_reply (s : State) (c : Nat) (f : CoreCtx → CoreCtx) : (s.updCc c f).reply = s.reply := rfl

/-! ### updWarp -/

@[simp] theorem updWarp_mem (s : State) (c k : Nat) (f : Warp → Warp) : (s.updWarp c k f).mem = s.mem := by unfold updWarp; split <;> rfl
@[simp] theorem updWarp_parts (s : State) (c k : Nat) (f : Warp → Warp) : (s.updWarp c k f).parts = s.parts := by unfold updWarp; split <;> rfl
@[simp] theorem updWarp_dies (s : State) (c k : Nat) (f : Warp → Warp) : (s.updWarp c k f).dies = s.dies := by unfold updWarp; split <;> rfl
@[simp] theorem updWarp_ctxs (s : State) (c k : Nat) (f : Warp → Warp) : (s.updWarp c k f).ctxs = s.ctxs := by unfold updWarp; split <;> rfl
@[simp] theorem updWarp_launches (s : State) (c k : Nat) (f : Warp → Warp) : (s.updWarp c k f).launches = s.launches := by unfold updWarp; split <;> rfl
@[simp] theorem updWarp_nextLaunch (s : State) (c k : Nat) (f : Warp → Warp) : (s.updWarp c k f).nextLaunch = s.nextLaunch := by unfold updWarp; split <;> rfl
@[simp] theorem updWarp_l1 (s : State) (c k : Nat) (f : Warp → Warp) : (s.updWarp c k f).l1 = s.l1 := by unfold updWarp; split <;> rfl
@[simp] theorem updWarp_l2 (s : State) (c k : Nat) (f : Warp → Warp) : (s.updWarp c k f).l2 = s.l2 := by unfold updWarp; split <;> rfl
@[simp] theorem updWarp_tlb (s : State) (c k : Nat) (f : Warp → Warp) : (s.updWarp c k f).tlb = s.tlb := by unfold updWarp; split <;> rfl
@[simp] theorem updWarp_waiters (s : State) (c k : Nat) (f : Warp → Warp) : (s.updWarp c k f).waiters = s.waiters := by unfold updWarp; split <;> rfl
@[simp] theorem updWarp_watches (s : State) (c k : Nat) (f : Warp → Warp) : (s.updWarp c k f).watches = s.watches := by unfold updWarp; split <;> rfl
@[simp] theorem updWarp_reqs (s : State) (c k : Nat) (f : Warp → Warp) : (s.updWarp c k f).reqs = s.reqs := by unfold updWarp; split <;> rfl
@[simp] theorem updWarp_ctrOps (s : State) (c k : Nat) (f : Warp → Warp) : (s.updWarp c k f).ctrOps = s.ctrOps := by unfold updWarp; split <;> rfl
@[simp] theorem updWarp_vreqs (s : State) (c k : Nat) (f : Warp → Warp) : (s.updWarp c k f).vreqs = s.vreqs := by unfold updWarp; split <;> rfl
@[simp] theorem updWarp_nextReq (s : State) (c k : Nat) (f : Warp → Warp) : (s.updWarp c k f).nextReq = s.nextReq := by unfold updWarp; split <;> rfl
@[simp] theorem updWarp_hostBias (s : State) (c k : Nat) (f : Warp → Warp) : (s.updWarp c k f).hostBias = s.hostBias := by unfold updWarp; split <;> rfl
@[simp] theorem updWarp_flipping (s : State) (c k : Nat) (f : Warp → Warp) : (s.updWarp c k f).flipping = s.flipping := by unfold updWarp; split <;> rfl
@[simp] theorem updWarp_ctrPages (s : State) (c k : Nat) (f : Warp → Warp) : (s.updWarp c k f).ctrPages = s.ctrPages := by unfold updWarp; split <;> rfl
@[simp] theorem updWarp_held (s : State) (c k : Nat) (f : Warp → Warp) : (s.updWarp c k f).held = s.held := by unfold updWarp; split <;> rfl
@[simp] theorem updWarp_snoops (s : State) (c k : Nat) (f : Warp → Warp) : (s.updWarp c k f).snoops = s.snoops := by unfold updWarp; split <;> rfl
@[simp] theorem updWarp_hostLines (s : State) (c k : Nat) (f : Warp → Warp) : (s.updWarp c k f).hostLines = s.hostLines := by unfold updWarp; split <;> rfl
@[simp] theorem updWarp_hostClean (s : State) (c k : Nat) (f : Warp → Warp) : (s.updWarp c k f).hostClean = s.hostClean := by unfold updWarp; split <;> rfl
@[simp] theorem updWarp_stranded (s : State) (c k : Nat) (f : Warp → Warp) : (s.updWarp c k f).stranded = s.stranded := by unfold updWarp; split <;> rfl
@[simp] theorem updWarp_ctrHeld (s : State) (c k : Nat) (f : Warp → Warp) : (s.updWarp c k f).ctrHeld = s.ctrHeld := by unfold updWarp; split <;> rfl
@[simp] theorem updWarp_snooped (s : State) (c k : Nat) (f : Warp → Warp) : (s.updWarp c k f).snooped = s.snooped := by unfold updWarp; split <;> rfl
@[simp] theorem updWarp_damage (s : State) (c k : Nat) (f : Warp → Warp) : (s.updWarp c k f).damage = s.damage := by unfold updWarp; split <;> rfl
@[simp] theorem updWarp_blocked (s : State) (c k : Nat) (f : Warp → Warp) : (s.updWarp c k f).blocked = s.blocked := by unfold updWarp; split <;> rfl
@[simp] theorem updWarp_vigil (s : State) (c k : Nat) (f : Warp → Warp) : (s.updWarp c k f).vigil = s.vigil := by unfold updWarp; split <;> rfl
@[simp] theorem updWarp_io (s : State) (c k : Nat) (f : Warp → Warp) : (s.updWarp c k f).io = s.io := by unfold updWarp; split <;> rfl
@[simp] theorem updWarp_boot (s : State) (c k : Nat) (f : Warp → Warp) : (s.updWarp c k f).boot = s.boot := by unfold updWarp; split <;> rfl
@[simp] theorem updWarp_gangs (s : State) (c k : Nat) (f : Warp → Warp) : (s.updWarp c k f).gangs = s.gangs := by unfold updWarp; split <;> rfl
@[simp] theorem updWarp_nextGang (s : State) (c k : Nat) (f : Warp → Warp) : (s.updWarp c k f).nextGang = s.nextGang := by unfold updWarp; split <;> rfl
@[simp] theorem updWarp_gtk (s : State) (c k : Nat) (f : Warp → Warp) : (s.updWarp c k f).gtk = s.gtk := by unfold updWarp; split <;> rfl
@[simp] theorem updWarp_gsv (s : State) (c k : Nat) (f : Warp → Warp) : (s.updWarp c k f).gsv = s.gsv := by unfold updWarp; split <;> rfl
@[simp] theorem updWarp_queues (s : State) (c k : Nat) (f : Warp → Warp) : (s.updWarp c k f).queues = s.queues := by unfold updWarp; split <;> rfl
@[simp] theorem updWarp_runs (s : State) (c k : Nat) (f : Warp → Warp) : (s.updWarp c k f).runs = s.runs := by unfold updWarp; split <;> rfl
@[simp] theorem updWarp_rings (s : State) (c k : Nat) (f : Warp → Warp) : (s.updWarp c k f).rings = s.rings := by unfold updWarp; split <;> rfl
@[simp] theorem updWarp_nextRun (s : State) (c k : Nat) (f : Warp → Warp) : (s.updWarp c k f).nextRun = s.nextRun := by unfold updWarp; split <;> rfl
@[simp] theorem updWarp_agenda (s : State) (c k : Nat) (f : Warp → Warp) : (s.updWarp c k f).agenda = s.agenda := by unfold updWarp; split <;> rfl
@[simp] theorem updWarp_issuing (s : State) (c k : Nat) (f : Warp → Warp) : (s.updWarp c k f).issuing = s.issuing := by unfold updWarp; split <;> rfl
@[simp] theorem updWarp_cur (s : State) (c k : Nat) (f : Warp → Warp) : (s.updWarp c k f).cur = s.cur := by unfold updWarp; split <;> rfl
@[simp] theorem updWarp_turnCore (s : State) (c k : Nat) (f : Warp → Warp) : (s.updWarp c k f).turnCore = s.turnCore := by unfold updWarp; split <;> rfl
@[simp] theorem updWarp_turnQuad (s : State) (c k : Nat) (f : Warp → Warp) : (s.updWarp c k f).turnQuad = s.turnQuad := by unfold updWarp; split <;> rfl
@[simp] theorem updWarp_free (s : State) (c k : Nat) (f : Warp → Warp) : (s.updWarp c k f).free = s.free := by unfold updWarp; split <;> rfl
@[simp] theorem updWarp_reply (s : State) (c k : Nat) (f : Warp → Warp) : (s.updWarp c k f).reply = s.reply := by unfold updWarp; split <;> rfl

/-! ### updPart -/

@[simp] theorem updPart_mem (s : State) (p : Nat) (f : Part → Part) : (s.updPart p f).mem = s.mem := rfl
@[simp] theorem updPart_cores (s : State) (p : Nat) (f : Part → Part) : (s.updPart p f).cores = s.cores := rfl
@[simp] theorem updPart_dies (s : State) (p : Nat) (f : Part → Part) : (s.updPart p f).dies = s.dies := rfl
@[simp] theorem updPart_ctxs (s : State) (p : Nat) (f : Part → Part) : (s.updPart p f).ctxs = s.ctxs := rfl
@[simp] theorem updPart_launches (s : State) (p : Nat) (f : Part → Part) : (s.updPart p f).launches = s.launches := rfl
@[simp] theorem updPart_nextLaunch (s : State) (p : Nat) (f : Part → Part) : (s.updPart p f).nextLaunch = s.nextLaunch := rfl
@[simp] theorem updPart_l1 (s : State) (p : Nat) (f : Part → Part) : (s.updPart p f).l1 = s.l1 := rfl
@[simp] theorem updPart_l2 (s : State) (p : Nat) (f : Part → Part) : (s.updPart p f).l2 = s.l2 := rfl
@[simp] theorem updPart_tlb (s : State) (p : Nat) (f : Part → Part) : (s.updPart p f).tlb = s.tlb := rfl
@[simp] theorem updPart_waiters (s : State) (p : Nat) (f : Part → Part) : (s.updPart p f).waiters = s.waiters := rfl
@[simp] theorem updPart_watches (s : State) (p : Nat) (f : Part → Part) : (s.updPart p f).watches = s.watches := rfl
@[simp] theorem updPart_reqs (s : State) (p : Nat) (f : Part → Part) : (s.updPart p f).reqs = s.reqs := rfl
@[simp] theorem updPart_ctrOps (s : State) (p : Nat) (f : Part → Part) : (s.updPart p f).ctrOps = s.ctrOps := rfl
@[simp] theorem updPart_vreqs (s : State) (p : Nat) (f : Part → Part) : (s.updPart p f).vreqs = s.vreqs := rfl
@[simp] theorem updPart_nextReq (s : State) (p : Nat) (f : Part → Part) : (s.updPart p f).nextReq = s.nextReq := rfl
@[simp] theorem updPart_hostBias (s : State) (p : Nat) (f : Part → Part) : (s.updPart p f).hostBias = s.hostBias := rfl
@[simp] theorem updPart_flipping (s : State) (p : Nat) (f : Part → Part) : (s.updPart p f).flipping = s.flipping := rfl
@[simp] theorem updPart_ctrPages (s : State) (p : Nat) (f : Part → Part) : (s.updPart p f).ctrPages = s.ctrPages := rfl
@[simp] theorem updPart_held (s : State) (p : Nat) (f : Part → Part) : (s.updPart p f).held = s.held := rfl
@[simp] theorem updPart_snoops (s : State) (p : Nat) (f : Part → Part) : (s.updPart p f).snoops = s.snoops := rfl
@[simp] theorem updPart_hostLines (s : State) (p : Nat) (f : Part → Part) : (s.updPart p f).hostLines = s.hostLines := rfl
@[simp] theorem updPart_hostClean (s : State) (p : Nat) (f : Part → Part) : (s.updPart p f).hostClean = s.hostClean := rfl
@[simp] theorem updPart_stranded (s : State) (p : Nat) (f : Part → Part) : (s.updPart p f).stranded = s.stranded := rfl
@[simp] theorem updPart_ctrHeld (s : State) (p : Nat) (f : Part → Part) : (s.updPart p f).ctrHeld = s.ctrHeld := rfl
@[simp] theorem updPart_snooped (s : State) (p : Nat) (f : Part → Part) : (s.updPart p f).snooped = s.snooped := rfl
@[simp] theorem updPart_damage (s : State) (p : Nat) (f : Part → Part) : (s.updPart p f).damage = s.damage := rfl
@[simp] theorem updPart_blocked (s : State) (p : Nat) (f : Part → Part) : (s.updPart p f).blocked = s.blocked := rfl
@[simp] theorem updPart_vigil (s : State) (p : Nat) (f : Part → Part) : (s.updPart p f).vigil = s.vigil := rfl
@[simp] theorem updPart_io (s : State) (p : Nat) (f : Part → Part) : (s.updPart p f).io = s.io := rfl
@[simp] theorem updPart_boot (s : State) (p : Nat) (f : Part → Part) : (s.updPart p f).boot = s.boot := rfl
@[simp] theorem updPart_gangs (s : State) (p : Nat) (f : Part → Part) : (s.updPart p f).gangs = s.gangs := rfl
@[simp] theorem updPart_nextGang (s : State) (p : Nat) (f : Part → Part) : (s.updPart p f).nextGang = s.nextGang := rfl
@[simp] theorem updPart_gtk (s : State) (p : Nat) (f : Part → Part) : (s.updPart p f).gtk = s.gtk := rfl
@[simp] theorem updPart_gsv (s : State) (p : Nat) (f : Part → Part) : (s.updPart p f).gsv = s.gsv := rfl
@[simp] theorem updPart_queues (s : State) (p : Nat) (f : Part → Part) : (s.updPart p f).queues = s.queues := rfl
@[simp] theorem updPart_runs (s : State) (p : Nat) (f : Part → Part) : (s.updPart p f).runs = s.runs := rfl
@[simp] theorem updPart_rings (s : State) (p : Nat) (f : Part → Part) : (s.updPart p f).rings = s.rings := rfl
@[simp] theorem updPart_nextRun (s : State) (p : Nat) (f : Part → Part) : (s.updPart p f).nextRun = s.nextRun := rfl
@[simp] theorem updPart_agenda (s : State) (p : Nat) (f : Part → Part) : (s.updPart p f).agenda = s.agenda := rfl
@[simp] theorem updPart_issuing (s : State) (p : Nat) (f : Part → Part) : (s.updPart p f).issuing = s.issuing := rfl
@[simp] theorem updPart_cur (s : State) (p : Nat) (f : Part → Part) : (s.updPart p f).cur = s.cur := rfl
@[simp] theorem updPart_turnCore (s : State) (p : Nat) (f : Part → Part) : (s.updPart p f).turnCore = s.turnCore := rfl
@[simp] theorem updPart_turnQuad (s : State) (p : Nat) (f : Part → Part) : (s.updPart p f).turnQuad = s.turnQuad := rfl
@[simp] theorem updPart_free (s : State) (p : Nat) (f : Part → Part) : (s.updPart p f).free = s.free := rfl
@[simp] theorem updPart_reply (s : State) (p : Nat) (f : Part → Part) : (s.updPart p f).reply = s.reply := rfl

/-! ### updDie -/

@[simp] theorem updDie_mem (s : State) (d : Nat) (f : Die → Die) : (s.updDie d f).mem = s.mem := rfl
@[simp] theorem updDie_cores (s : State) (d : Nat) (f : Die → Die) : (s.updDie d f).cores = s.cores := rfl
@[simp] theorem updDie_parts (s : State) (d : Nat) (f : Die → Die) : (s.updDie d f).parts = s.parts := rfl
@[simp] theorem updDie_ctxs (s : State) (d : Nat) (f : Die → Die) : (s.updDie d f).ctxs = s.ctxs := rfl
@[simp] theorem updDie_launches (s : State) (d : Nat) (f : Die → Die) : (s.updDie d f).launches = s.launches := rfl
@[simp] theorem updDie_nextLaunch (s : State) (d : Nat) (f : Die → Die) : (s.updDie d f).nextLaunch = s.nextLaunch := rfl
@[simp] theorem updDie_l1 (s : State) (d : Nat) (f : Die → Die) : (s.updDie d f).l1 = s.l1 := rfl
@[simp] theorem updDie_l2 (s : State) (d : Nat) (f : Die → Die) : (s.updDie d f).l2 = s.l2 := rfl
@[simp] theorem updDie_tlb (s : State) (d : Nat) (f : Die → Die) : (s.updDie d f).tlb = s.tlb := rfl
@[simp] theorem updDie_waiters (s : State) (d : Nat) (f : Die → Die) : (s.updDie d f).waiters = s.waiters := rfl
@[simp] theorem updDie_watches (s : State) (d : Nat) (f : Die → Die) : (s.updDie d f).watches = s.watches := rfl
@[simp] theorem updDie_reqs (s : State) (d : Nat) (f : Die → Die) : (s.updDie d f).reqs = s.reqs := rfl
@[simp] theorem updDie_ctrOps (s : State) (d : Nat) (f : Die → Die) : (s.updDie d f).ctrOps = s.ctrOps := rfl
@[simp] theorem updDie_vreqs (s : State) (d : Nat) (f : Die → Die) : (s.updDie d f).vreqs = s.vreqs := rfl
@[simp] theorem updDie_nextReq (s : State) (d : Nat) (f : Die → Die) : (s.updDie d f).nextReq = s.nextReq := rfl
@[simp] theorem updDie_hostBias (s : State) (d : Nat) (f : Die → Die) : (s.updDie d f).hostBias = s.hostBias := rfl
@[simp] theorem updDie_flipping (s : State) (d : Nat) (f : Die → Die) : (s.updDie d f).flipping = s.flipping := rfl
@[simp] theorem updDie_ctrPages (s : State) (d : Nat) (f : Die → Die) : (s.updDie d f).ctrPages = s.ctrPages := rfl
@[simp] theorem updDie_held (s : State) (d : Nat) (f : Die → Die) : (s.updDie d f).held = s.held := rfl
@[simp] theorem updDie_snoops (s : State) (d : Nat) (f : Die → Die) : (s.updDie d f).snoops = s.snoops := rfl
@[simp] theorem updDie_hostLines (s : State) (d : Nat) (f : Die → Die) : (s.updDie d f).hostLines = s.hostLines := rfl
@[simp] theorem updDie_hostClean (s : State) (d : Nat) (f : Die → Die) : (s.updDie d f).hostClean = s.hostClean := rfl
@[simp] theorem updDie_stranded (s : State) (d : Nat) (f : Die → Die) : (s.updDie d f).stranded = s.stranded := rfl
@[simp] theorem updDie_ctrHeld (s : State) (d : Nat) (f : Die → Die) : (s.updDie d f).ctrHeld = s.ctrHeld := rfl
@[simp] theorem updDie_snooped (s : State) (d : Nat) (f : Die → Die) : (s.updDie d f).snooped = s.snooped := rfl
@[simp] theorem updDie_damage (s : State) (d : Nat) (f : Die → Die) : (s.updDie d f).damage = s.damage := rfl
@[simp] theorem updDie_blocked (s : State) (d : Nat) (f : Die → Die) : (s.updDie d f).blocked = s.blocked := rfl
@[simp] theorem updDie_vigil (s : State) (d : Nat) (f : Die → Die) : (s.updDie d f).vigil = s.vigil := rfl
@[simp] theorem updDie_io (s : State) (d : Nat) (f : Die → Die) : (s.updDie d f).io = s.io := rfl
@[simp] theorem updDie_boot (s : State) (d : Nat) (f : Die → Die) : (s.updDie d f).boot = s.boot := rfl
@[simp] theorem updDie_gangs (s : State) (d : Nat) (f : Die → Die) : (s.updDie d f).gangs = s.gangs := rfl
@[simp] theorem updDie_nextGang (s : State) (d : Nat) (f : Die → Die) : (s.updDie d f).nextGang = s.nextGang := rfl
@[simp] theorem updDie_gtk (s : State) (d : Nat) (f : Die → Die) : (s.updDie d f).gtk = s.gtk := rfl
@[simp] theorem updDie_gsv (s : State) (d : Nat) (f : Die → Die) : (s.updDie d f).gsv = s.gsv := rfl
@[simp] theorem updDie_queues (s : State) (d : Nat) (f : Die → Die) : (s.updDie d f).queues = s.queues := rfl
@[simp] theorem updDie_runs (s : State) (d : Nat) (f : Die → Die) : (s.updDie d f).runs = s.runs := rfl
@[simp] theorem updDie_rings (s : State) (d : Nat) (f : Die → Die) : (s.updDie d f).rings = s.rings := rfl
@[simp] theorem updDie_nextRun (s : State) (d : Nat) (f : Die → Die) : (s.updDie d f).nextRun = s.nextRun := rfl
@[simp] theorem updDie_agenda (s : State) (d : Nat) (f : Die → Die) : (s.updDie d f).agenda = s.agenda := rfl
@[simp] theorem updDie_issuing (s : State) (d : Nat) (f : Die → Die) : (s.updDie d f).issuing = s.issuing := rfl
@[simp] theorem updDie_cur (s : State) (d : Nat) (f : Die → Die) : (s.updDie d f).cur = s.cur := rfl
@[simp] theorem updDie_turnCore (s : State) (d : Nat) (f : Die → Die) : (s.updDie d f).turnCore = s.turnCore := rfl
@[simp] theorem updDie_turnQuad (s : State) (d : Nat) (f : Die → Die) : (s.updDie d f).turnQuad = s.turnQuad := rfl
@[simp] theorem updDie_free (s : State) (d : Nat) (f : Die → Die) : (s.updDie d f).free = s.free := rfl
@[simp] theorem updDie_reply (s : State) (d : Nat) (f : Die → Die) : (s.updDie d f).reply = s.reply := rfl

/-! ### updCtx -/

@[simp] theorem updCtx_mem (s : State) (h : Nat) (f : Context → Context) : (s.updCtx h f).mem = s.mem := rfl
@[simp] theorem updCtx_cores (s : State) (h : Nat) (f : Context → Context) : (s.updCtx h f).cores = s.cores := rfl
@[simp] theorem updCtx_parts (s : State) (h : Nat) (f : Context → Context) : (s.updCtx h f).parts = s.parts := rfl
@[simp] theorem updCtx_dies (s : State) (h : Nat) (f : Context → Context) : (s.updCtx h f).dies = s.dies := rfl
@[simp] theorem updCtx_launches (s : State) (h : Nat) (f : Context → Context) : (s.updCtx h f).launches = s.launches := rfl
@[simp] theorem updCtx_nextLaunch (s : State) (h : Nat) (f : Context → Context) : (s.updCtx h f).nextLaunch = s.nextLaunch := rfl
@[simp] theorem updCtx_l1 (s : State) (h : Nat) (f : Context → Context) : (s.updCtx h f).l1 = s.l1 := rfl
@[simp] theorem updCtx_l2 (s : State) (h : Nat) (f : Context → Context) : (s.updCtx h f).l2 = s.l2 := rfl
@[simp] theorem updCtx_tlb (s : State) (h : Nat) (f : Context → Context) : (s.updCtx h f).tlb = s.tlb := rfl
@[simp] theorem updCtx_waiters (s : State) (h : Nat) (f : Context → Context) : (s.updCtx h f).waiters = s.waiters := rfl
@[simp] theorem updCtx_watches (s : State) (h : Nat) (f : Context → Context) : (s.updCtx h f).watches = s.watches := rfl
@[simp] theorem updCtx_reqs (s : State) (h : Nat) (f : Context → Context) : (s.updCtx h f).reqs = s.reqs := rfl
@[simp] theorem updCtx_ctrOps (s : State) (h : Nat) (f : Context → Context) : (s.updCtx h f).ctrOps = s.ctrOps := rfl
@[simp] theorem updCtx_vreqs (s : State) (h : Nat) (f : Context → Context) : (s.updCtx h f).vreqs = s.vreqs := rfl
@[simp] theorem updCtx_nextReq (s : State) (h : Nat) (f : Context → Context) : (s.updCtx h f).nextReq = s.nextReq := rfl
@[simp] theorem updCtx_hostBias (s : State) (h : Nat) (f : Context → Context) : (s.updCtx h f).hostBias = s.hostBias := rfl
@[simp] theorem updCtx_flipping (s : State) (h : Nat) (f : Context → Context) : (s.updCtx h f).flipping = s.flipping := rfl
@[simp] theorem updCtx_ctrPages (s : State) (h : Nat) (f : Context → Context) : (s.updCtx h f).ctrPages = s.ctrPages := rfl
@[simp] theorem updCtx_held (s : State) (h : Nat) (f : Context → Context) : (s.updCtx h f).held = s.held := rfl
@[simp] theorem updCtx_snoops (s : State) (h : Nat) (f : Context → Context) : (s.updCtx h f).snoops = s.snoops := rfl
@[simp] theorem updCtx_hostLines (s : State) (h : Nat) (f : Context → Context) : (s.updCtx h f).hostLines = s.hostLines := rfl
@[simp] theorem updCtx_hostClean (s : State) (h : Nat) (f : Context → Context) : (s.updCtx h f).hostClean = s.hostClean := rfl
@[simp] theorem updCtx_stranded (s : State) (h : Nat) (f : Context → Context) : (s.updCtx h f).stranded = s.stranded := rfl
@[simp] theorem updCtx_ctrHeld (s : State) (h : Nat) (f : Context → Context) : (s.updCtx h f).ctrHeld = s.ctrHeld := rfl
@[simp] theorem updCtx_snooped (s : State) (h : Nat) (f : Context → Context) : (s.updCtx h f).snooped = s.snooped := rfl
@[simp] theorem updCtx_damage (s : State) (h : Nat) (f : Context → Context) : (s.updCtx h f).damage = s.damage := rfl
@[simp] theorem updCtx_blocked (s : State) (h : Nat) (f : Context → Context) : (s.updCtx h f).blocked = s.blocked := rfl
@[simp] theorem updCtx_vigil (s : State) (h : Nat) (f : Context → Context) : (s.updCtx h f).vigil = s.vigil := rfl
@[simp] theorem updCtx_io (s : State) (h : Nat) (f : Context → Context) : (s.updCtx h f).io = s.io := rfl
@[simp] theorem updCtx_boot (s : State) (h : Nat) (f : Context → Context) : (s.updCtx h f).boot = s.boot := rfl
@[simp] theorem updCtx_gangs (s : State) (h : Nat) (f : Context → Context) : (s.updCtx h f).gangs = s.gangs := rfl
@[simp] theorem updCtx_nextGang (s : State) (h : Nat) (f : Context → Context) : (s.updCtx h f).nextGang = s.nextGang := rfl
@[simp] theorem updCtx_gtk (s : State) (h : Nat) (f : Context → Context) : (s.updCtx h f).gtk = s.gtk := rfl
@[simp] theorem updCtx_gsv (s : State) (h : Nat) (f : Context → Context) : (s.updCtx h f).gsv = s.gsv := rfl
@[simp] theorem updCtx_queues (s : State) (h : Nat) (f : Context → Context) : (s.updCtx h f).queues = s.queues := rfl
@[simp] theorem updCtx_runs (s : State) (h : Nat) (f : Context → Context) : (s.updCtx h f).runs = s.runs := rfl
@[simp] theorem updCtx_rings (s : State) (h : Nat) (f : Context → Context) : (s.updCtx h f).rings = s.rings := rfl
@[simp] theorem updCtx_nextRun (s : State) (h : Nat) (f : Context → Context) : (s.updCtx h f).nextRun = s.nextRun := rfl
@[simp] theorem updCtx_agenda (s : State) (h : Nat) (f : Context → Context) : (s.updCtx h f).agenda = s.agenda := rfl
@[simp] theorem updCtx_issuing (s : State) (h : Nat) (f : Context → Context) : (s.updCtx h f).issuing = s.issuing := rfl
@[simp] theorem updCtx_cur (s : State) (h : Nat) (f : Context → Context) : (s.updCtx h f).cur = s.cur := rfl
@[simp] theorem updCtx_turnCore (s : State) (h : Nat) (f : Context → Context) : (s.updCtx h f).turnCore = s.turnCore := rfl
@[simp] theorem updCtx_turnQuad (s : State) (h : Nat) (f : Context → Context) : (s.updCtx h f).turnQuad = s.turnQuad := rfl
@[simp] theorem updCtx_free (s : State) (h : Nat) (f : Context → Context) : (s.updCtx h f).free = s.free := rfl
@[simp] theorem updCtx_reply (s : State) (h : Nat) (f : Context → Context) : (s.updCtx h f).reply = s.reply := rfl

/-! ### updAlm -/

@[simp] theorem updAlm_mem (s : State) (h : Nat) (f : Almanac → Almanac) : (s.updAlm h f).mem = s.mem := rfl
@[simp] theorem updAlm_cores (s : State) (h : Nat) (f : Almanac → Almanac) : (s.updAlm h f).cores = s.cores := rfl
@[simp] theorem updAlm_parts (s : State) (h : Nat) (f : Almanac → Almanac) : (s.updAlm h f).parts = s.parts := rfl
@[simp] theorem updAlm_dies (s : State) (h : Nat) (f : Almanac → Almanac) : (s.updAlm h f).dies = s.dies := rfl
@[simp] theorem updAlm_launches (s : State) (h : Nat) (f : Almanac → Almanac) : (s.updAlm h f).launches = s.launches := rfl
@[simp] theorem updAlm_nextLaunch (s : State) (h : Nat) (f : Almanac → Almanac) : (s.updAlm h f).nextLaunch = s.nextLaunch := rfl
@[simp] theorem updAlm_l1 (s : State) (h : Nat) (f : Almanac → Almanac) : (s.updAlm h f).l1 = s.l1 := rfl
@[simp] theorem updAlm_l2 (s : State) (h : Nat) (f : Almanac → Almanac) : (s.updAlm h f).l2 = s.l2 := rfl
@[simp] theorem updAlm_tlb (s : State) (h : Nat) (f : Almanac → Almanac) : (s.updAlm h f).tlb = s.tlb := rfl
@[simp] theorem updAlm_waiters (s : State) (h : Nat) (f : Almanac → Almanac) : (s.updAlm h f).waiters = s.waiters := rfl
@[simp] theorem updAlm_watches (s : State) (h : Nat) (f : Almanac → Almanac) : (s.updAlm h f).watches = s.watches := rfl
@[simp] theorem updAlm_reqs (s : State) (h : Nat) (f : Almanac → Almanac) : (s.updAlm h f).reqs = s.reqs := rfl
@[simp] theorem updAlm_ctrOps (s : State) (h : Nat) (f : Almanac → Almanac) : (s.updAlm h f).ctrOps = s.ctrOps := rfl
@[simp] theorem updAlm_vreqs (s : State) (h : Nat) (f : Almanac → Almanac) : (s.updAlm h f).vreqs = s.vreqs := rfl
@[simp] theorem updAlm_nextReq (s : State) (h : Nat) (f : Almanac → Almanac) : (s.updAlm h f).nextReq = s.nextReq := rfl
@[simp] theorem updAlm_hostBias (s : State) (h : Nat) (f : Almanac → Almanac) : (s.updAlm h f).hostBias = s.hostBias := rfl
@[simp] theorem updAlm_flipping (s : State) (h : Nat) (f : Almanac → Almanac) : (s.updAlm h f).flipping = s.flipping := rfl
@[simp] theorem updAlm_ctrPages (s : State) (h : Nat) (f : Almanac → Almanac) : (s.updAlm h f).ctrPages = s.ctrPages := rfl
@[simp] theorem updAlm_held (s : State) (h : Nat) (f : Almanac → Almanac) : (s.updAlm h f).held = s.held := rfl
@[simp] theorem updAlm_snoops (s : State) (h : Nat) (f : Almanac → Almanac) : (s.updAlm h f).snoops = s.snoops := rfl
@[simp] theorem updAlm_hostLines (s : State) (h : Nat) (f : Almanac → Almanac) : (s.updAlm h f).hostLines = s.hostLines := rfl
@[simp] theorem updAlm_hostClean (s : State) (h : Nat) (f : Almanac → Almanac) : (s.updAlm h f).hostClean = s.hostClean := rfl
@[simp] theorem updAlm_stranded (s : State) (h : Nat) (f : Almanac → Almanac) : (s.updAlm h f).stranded = s.stranded := rfl
@[simp] theorem updAlm_ctrHeld (s : State) (h : Nat) (f : Almanac → Almanac) : (s.updAlm h f).ctrHeld = s.ctrHeld := rfl
@[simp] theorem updAlm_snooped (s : State) (h : Nat) (f : Almanac → Almanac) : (s.updAlm h f).snooped = s.snooped := rfl
@[simp] theorem updAlm_damage (s : State) (h : Nat) (f : Almanac → Almanac) : (s.updAlm h f).damage = s.damage := rfl
@[simp] theorem updAlm_blocked (s : State) (h : Nat) (f : Almanac → Almanac) : (s.updAlm h f).blocked = s.blocked := rfl
@[simp] theorem updAlm_vigil (s : State) (h : Nat) (f : Almanac → Almanac) : (s.updAlm h f).vigil = s.vigil := rfl
@[simp] theorem updAlm_io (s : State) (h : Nat) (f : Almanac → Almanac) : (s.updAlm h f).io = s.io := rfl
@[simp] theorem updAlm_boot (s : State) (h : Nat) (f : Almanac → Almanac) : (s.updAlm h f).boot = s.boot := rfl
@[simp] theorem updAlm_gangs (s : State) (h : Nat) (f : Almanac → Almanac) : (s.updAlm h f).gangs = s.gangs := rfl
@[simp] theorem updAlm_nextGang (s : State) (h : Nat) (f : Almanac → Almanac) : (s.updAlm h f).nextGang = s.nextGang := rfl
@[simp] theorem updAlm_gtk (s : State) (h : Nat) (f : Almanac → Almanac) : (s.updAlm h f).gtk = s.gtk := rfl
@[simp] theorem updAlm_gsv (s : State) (h : Nat) (f : Almanac → Almanac) : (s.updAlm h f).gsv = s.gsv := rfl
@[simp] theorem updAlm_queues (s : State) (h : Nat) (f : Almanac → Almanac) : (s.updAlm h f).queues = s.queues := rfl
@[simp] theorem updAlm_runs (s : State) (h : Nat) (f : Almanac → Almanac) : (s.updAlm h f).runs = s.runs := rfl
@[simp] theorem updAlm_rings (s : State) (h : Nat) (f : Almanac → Almanac) : (s.updAlm h f).rings = s.rings := rfl
@[simp] theorem updAlm_nextRun (s : State) (h : Nat) (f : Almanac → Almanac) : (s.updAlm h f).nextRun = s.nextRun := rfl
@[simp] theorem updAlm_agenda (s : State) (h : Nat) (f : Almanac → Almanac) : (s.updAlm h f).agenda = s.agenda := rfl
@[simp] theorem updAlm_issuing (s : State) (h : Nat) (f : Almanac → Almanac) : (s.updAlm h f).issuing = s.issuing := rfl
@[simp] theorem updAlm_cur (s : State) (h : Nat) (f : Almanac → Almanac) : (s.updAlm h f).cur = s.cur := rfl
@[simp] theorem updAlm_turnCore (s : State) (h : Nat) (f : Almanac → Almanac) : (s.updAlm h f).turnCore = s.turnCore := rfl
@[simp] theorem updAlm_turnQuad (s : State) (h : Nat) (f : Almanac → Almanac) : (s.updAlm h f).turnQuad = s.turnQuad := rfl
@[simp] theorem updAlm_free (s : State) (h : Nat) (f : Almanac → Almanac) : (s.updAlm h f).free = s.free := rfl
@[simp] theorem updAlm_reply (s : State) (h : Nat) (f : Almanac → Almanac) : (s.updAlm h f).reply = s.reply := rfl

/-! ### updIo -/

@[simp] theorem updIo_mem (s : State) (f : Io → Io) : (s.updIo f).mem = s.mem := rfl
@[simp] theorem updIo_cores (s : State) (f : Io → Io) : (s.updIo f).cores = s.cores := rfl
@[simp] theorem updIo_parts (s : State) (f : Io → Io) : (s.updIo f).parts = s.parts := rfl
@[simp] theorem updIo_dies (s : State) (f : Io → Io) : (s.updIo f).dies = s.dies := rfl
@[simp] theorem updIo_ctxs (s : State) (f : Io → Io) : (s.updIo f).ctxs = s.ctxs := rfl
@[simp] theorem updIo_launches (s : State) (f : Io → Io) : (s.updIo f).launches = s.launches := rfl
@[simp] theorem updIo_nextLaunch (s : State) (f : Io → Io) : (s.updIo f).nextLaunch = s.nextLaunch := rfl
@[simp] theorem updIo_l1 (s : State) (f : Io → Io) : (s.updIo f).l1 = s.l1 := rfl
@[simp] theorem updIo_l2 (s : State) (f : Io → Io) : (s.updIo f).l2 = s.l2 := rfl
@[simp] theorem updIo_tlb (s : State) (f : Io → Io) : (s.updIo f).tlb = s.tlb := rfl
@[simp] theorem updIo_waiters (s : State) (f : Io → Io) : (s.updIo f).waiters = s.waiters := rfl
@[simp] theorem updIo_watches (s : State) (f : Io → Io) : (s.updIo f).watches = s.watches := rfl
@[simp] theorem updIo_reqs (s : State) (f : Io → Io) : (s.updIo f).reqs = s.reqs := rfl
@[simp] theorem updIo_ctrOps (s : State) (f : Io → Io) : (s.updIo f).ctrOps = s.ctrOps := rfl
@[simp] theorem updIo_vreqs (s : State) (f : Io → Io) : (s.updIo f).vreqs = s.vreqs := rfl
@[simp] theorem updIo_nextReq (s : State) (f : Io → Io) : (s.updIo f).nextReq = s.nextReq := rfl
@[simp] theorem updIo_hostBias (s : State) (f : Io → Io) : (s.updIo f).hostBias = s.hostBias := rfl
@[simp] theorem updIo_flipping (s : State) (f : Io → Io) : (s.updIo f).flipping = s.flipping := rfl
@[simp] theorem updIo_ctrPages (s : State) (f : Io → Io) : (s.updIo f).ctrPages = s.ctrPages := rfl
@[simp] theorem updIo_held (s : State) (f : Io → Io) : (s.updIo f).held = s.held := rfl
@[simp] theorem updIo_snoops (s : State) (f : Io → Io) : (s.updIo f).snoops = s.snoops := rfl
@[simp] theorem updIo_hostLines (s : State) (f : Io → Io) : (s.updIo f).hostLines = s.hostLines := rfl
@[simp] theorem updIo_hostClean (s : State) (f : Io → Io) : (s.updIo f).hostClean = s.hostClean := rfl
@[simp] theorem updIo_stranded (s : State) (f : Io → Io) : (s.updIo f).stranded = s.stranded := rfl
@[simp] theorem updIo_ctrHeld (s : State) (f : Io → Io) : (s.updIo f).ctrHeld = s.ctrHeld := rfl
@[simp] theorem updIo_snooped (s : State) (f : Io → Io) : (s.updIo f).snooped = s.snooped := rfl
@[simp] theorem updIo_damage (s : State) (f : Io → Io) : (s.updIo f).damage = s.damage := rfl
@[simp] theorem updIo_blocked (s : State) (f : Io → Io) : (s.updIo f).blocked = s.blocked := rfl
@[simp] theorem updIo_vigil (s : State) (f : Io → Io) : (s.updIo f).vigil = s.vigil := rfl
@[simp] theorem updIo_boot (s : State) (f : Io → Io) : (s.updIo f).boot = s.boot := rfl
@[simp] theorem updIo_gangs (s : State) (f : Io → Io) : (s.updIo f).gangs = s.gangs := rfl
@[simp] theorem updIo_nextGang (s : State) (f : Io → Io) : (s.updIo f).nextGang = s.nextGang := rfl
@[simp] theorem updIo_gtk (s : State) (f : Io → Io) : (s.updIo f).gtk = s.gtk := rfl
@[simp] theorem updIo_gsv (s : State) (f : Io → Io) : (s.updIo f).gsv = s.gsv := rfl
@[simp] theorem updIo_queues (s : State) (f : Io → Io) : (s.updIo f).queues = s.queues := rfl
@[simp] theorem updIo_runs (s : State) (f : Io → Io) : (s.updIo f).runs = s.runs := rfl
@[simp] theorem updIo_rings (s : State) (f : Io → Io) : (s.updIo f).rings = s.rings := rfl
@[simp] theorem updIo_nextRun (s : State) (f : Io → Io) : (s.updIo f).nextRun = s.nextRun := rfl
@[simp] theorem updIo_agenda (s : State) (f : Io → Io) : (s.updIo f).agenda = s.agenda := rfl
@[simp] theorem updIo_issuing (s : State) (f : Io → Io) : (s.updIo f).issuing = s.issuing := rfl
@[simp] theorem updIo_cur (s : State) (f : Io → Io) : (s.updIo f).cur = s.cur := rfl
@[simp] theorem updIo_turnCore (s : State) (f : Io → Io) : (s.updIo f).turnCore = s.turnCore := rfl
@[simp] theorem updIo_turnQuad (s : State) (f : Io → Io) : (s.updIo f).turnQuad = s.turnQuad := rfl
@[simp] theorem updIo_free (s : State) (f : Io → Io) : (s.updIo f).free = s.free := rfl
@[simp] theorem updIo_reply (s : State) (f : Io → Io) : (s.updIo f).reply = s.reply := rfl

/-! ### post -/

@[simp] theorem post_mem (s : State) (e : Instr) : (s.post e).mem = s.mem := rfl
@[simp] theorem post_cores (s : State) (e : Instr) : (s.post e).cores = s.cores := rfl
@[simp] theorem post_parts (s : State) (e : Instr) : (s.post e).parts = s.parts := rfl
@[simp] theorem post_dies (s : State) (e : Instr) : (s.post e).dies = s.dies := rfl
@[simp] theorem post_ctxs (s : State) (e : Instr) : (s.post e).ctxs = s.ctxs := rfl
@[simp] theorem post_launches (s : State) (e : Instr) : (s.post e).launches = s.launches := rfl
@[simp] theorem post_nextLaunch (s : State) (e : Instr) : (s.post e).nextLaunch = s.nextLaunch := rfl
@[simp] theorem post_l1 (s : State) (e : Instr) : (s.post e).l1 = s.l1 := rfl
@[simp] theorem post_l2 (s : State) (e : Instr) : (s.post e).l2 = s.l2 := rfl
@[simp] theorem post_tlb (s : State) (e : Instr) : (s.post e).tlb = s.tlb := rfl
@[simp] theorem post_waiters (s : State) (e : Instr) : (s.post e).waiters = s.waiters := rfl
@[simp] theorem post_watches (s : State) (e : Instr) : (s.post e).watches = s.watches := rfl
@[simp] theorem post_reqs (s : State) (e : Instr) : (s.post e).reqs = s.reqs := rfl
@[simp] theorem post_ctrOps (s : State) (e : Instr) : (s.post e).ctrOps = s.ctrOps := rfl
@[simp] theorem post_vreqs (s : State) (e : Instr) : (s.post e).vreqs = s.vreqs := rfl
@[simp] theorem post_nextReq (s : State) (e : Instr) : (s.post e).nextReq = s.nextReq := rfl
@[simp] theorem post_hostBias (s : State) (e : Instr) : (s.post e).hostBias = s.hostBias := rfl
@[simp] theorem post_flipping (s : State) (e : Instr) : (s.post e).flipping = s.flipping := rfl
@[simp] theorem post_ctrPages (s : State) (e : Instr) : (s.post e).ctrPages = s.ctrPages := rfl
@[simp] theorem post_held (s : State) (e : Instr) : (s.post e).held = s.held := rfl
@[simp] theorem post_snoops (s : State) (e : Instr) : (s.post e).snoops = s.snoops := rfl
@[simp] theorem post_hostLines (s : State) (e : Instr) : (s.post e).hostLines = s.hostLines := rfl
@[simp] theorem post_hostClean (s : State) (e : Instr) : (s.post e).hostClean = s.hostClean := rfl
@[simp] theorem post_stranded (s : State) (e : Instr) : (s.post e).stranded = s.stranded := rfl
@[simp] theorem post_ctrHeld (s : State) (e : Instr) : (s.post e).ctrHeld = s.ctrHeld := rfl
@[simp] theorem post_snooped (s : State) (e : Instr) : (s.post e).snooped = s.snooped := rfl
@[simp] theorem post_damage (s : State) (e : Instr) : (s.post e).damage = s.damage := rfl
@[simp] theorem post_blocked (s : State) (e : Instr) : (s.post e).blocked = s.blocked := rfl
@[simp] theorem post_vigil (s : State) (e : Instr) : (s.post e).vigil = s.vigil := rfl
@[simp] theorem post_io (s : State) (e : Instr) : (s.post e).io = s.io := rfl
@[simp] theorem post_boot (s : State) (e : Instr) : (s.post e).boot = s.boot := rfl
@[simp] theorem post_gangs (s : State) (e : Instr) : (s.post e).gangs = s.gangs := rfl
@[simp] theorem post_nextGang (s : State) (e : Instr) : (s.post e).nextGang = s.nextGang := rfl
@[simp] theorem post_gtk (s : State) (e : Instr) : (s.post e).gtk = s.gtk := rfl
@[simp] theorem post_gsv (s : State) (e : Instr) : (s.post e).gsv = s.gsv := rfl
@[simp] theorem post_queues (s : State) (e : Instr) : (s.post e).queues = s.queues := rfl
@[simp] theorem post_runs (s : State) (e : Instr) : (s.post e).runs = s.runs := rfl
@[simp] theorem post_rings (s : State) (e : Instr) : (s.post e).rings = s.rings := rfl
@[simp] theorem post_nextRun (s : State) (e : Instr) : (s.post e).nextRun = s.nextRun := rfl
@[simp] theorem post_issuing (s : State) (e : Instr) : (s.post e).issuing = s.issuing := rfl
@[simp] theorem post_cur (s : State) (e : Instr) : (s.post e).cur = s.cur := rfl
@[simp] theorem post_turnCore (s : State) (e : Instr) : (s.post e).turnCore = s.turnCore := rfl
@[simp] theorem post_turnQuad (s : State) (e : Instr) : (s.post e).turnQuad = s.turnQuad := rfl
@[simp] theorem post_free (s : State) (e : Instr) : (s.post e).free = s.free := rfl
@[simp] theorem post_reply (s : State) (e : Instr) : (s.post e).reply = s.reply := rfl

/-! ### postAll -/

@[simp] theorem postAll_mem (s : State) (es : List Instr) : (s.postAll es).mem = s.mem := rfl
@[simp] theorem postAll_cores (s : State) (es : List Instr) : (s.postAll es).cores = s.cores := rfl
@[simp] theorem postAll_parts (s : State) (es : List Instr) : (s.postAll es).parts = s.parts := rfl
@[simp] theorem postAll_dies (s : State) (es : List Instr) : (s.postAll es).dies = s.dies := rfl
@[simp] theorem postAll_ctxs (s : State) (es : List Instr) : (s.postAll es).ctxs = s.ctxs := rfl
@[simp] theorem postAll_launches (s : State) (es : List Instr) : (s.postAll es).launches = s.launches := rfl
@[simp] theorem postAll_nextLaunch (s : State) (es : List Instr) : (s.postAll es).nextLaunch = s.nextLaunch := rfl
@[simp] theorem postAll_l1 (s : State) (es : List Instr) : (s.postAll es).l1 = s.l1 := rfl
@[simp] theorem postAll_l2 (s : State) (es : List Instr) : (s.postAll es).l2 = s.l2 := rfl
@[simp] theorem postAll_tlb (s : State) (es : List Instr) : (s.postAll es).tlb = s.tlb := rfl
@[simp] theorem postAll_waiters (s : State) (es : List Instr) : (s.postAll es).waiters = s.waiters := rfl
@[simp] theorem postAll_watches (s : State) (es : List Instr) : (s.postAll es).watches = s.watches := rfl
@[simp] theorem postAll_reqs (s : State) (es : List Instr) : (s.postAll es).reqs = s.reqs := rfl
@[simp] theorem postAll_ctrOps (s : State) (es : List Instr) : (s.postAll es).ctrOps = s.ctrOps := rfl
@[simp] theorem postAll_vreqs (s : State) (es : List Instr) : (s.postAll es).vreqs = s.vreqs := rfl
@[simp] theorem postAll_nextReq (s : State) (es : List Instr) : (s.postAll es).nextReq = s.nextReq := rfl
@[simp] theorem postAll_hostBias (s : State) (es : List Instr) : (s.postAll es).hostBias = s.hostBias := rfl
@[simp] theorem postAll_flipping (s : State) (es : List Instr) : (s.postAll es).flipping = s.flipping := rfl
@[simp] theorem postAll_ctrPages (s : State) (es : List Instr) : (s.postAll es).ctrPages = s.ctrPages := rfl
@[simp] theorem postAll_held (s : State) (es : List Instr) : (s.postAll es).held = s.held := rfl
@[simp] theorem postAll_snoops (s : State) (es : List Instr) : (s.postAll es).snoops = s.snoops := rfl
@[simp] theorem postAll_hostLines (s : State) (es : List Instr) : (s.postAll es).hostLines = s.hostLines := rfl
@[simp] theorem postAll_hostClean (s : State) (es : List Instr) : (s.postAll es).hostClean = s.hostClean := rfl
@[simp] theorem postAll_stranded (s : State) (es : List Instr) : (s.postAll es).stranded = s.stranded := rfl
@[simp] theorem postAll_ctrHeld (s : State) (es : List Instr) : (s.postAll es).ctrHeld = s.ctrHeld := rfl
@[simp] theorem postAll_snooped (s : State) (es : List Instr) : (s.postAll es).snooped = s.snooped := rfl
@[simp] theorem postAll_damage (s : State) (es : List Instr) : (s.postAll es).damage = s.damage := rfl
@[simp] theorem postAll_blocked (s : State) (es : List Instr) : (s.postAll es).blocked = s.blocked := rfl
@[simp] theorem postAll_vigil (s : State) (es : List Instr) : (s.postAll es).vigil = s.vigil := rfl
@[simp] theorem postAll_io (s : State) (es : List Instr) : (s.postAll es).io = s.io := rfl
@[simp] theorem postAll_boot (s : State) (es : List Instr) : (s.postAll es).boot = s.boot := rfl
@[simp] theorem postAll_gangs (s : State) (es : List Instr) : (s.postAll es).gangs = s.gangs := rfl
@[simp] theorem postAll_nextGang (s : State) (es : List Instr) : (s.postAll es).nextGang = s.nextGang := rfl
@[simp] theorem postAll_gtk (s : State) (es : List Instr) : (s.postAll es).gtk = s.gtk := rfl
@[simp] theorem postAll_gsv (s : State) (es : List Instr) : (s.postAll es).gsv = s.gsv := rfl
@[simp] theorem postAll_queues (s : State) (es : List Instr) : (s.postAll es).queues = s.queues := rfl
@[simp] theorem postAll_runs (s : State) (es : List Instr) : (s.postAll es).runs = s.runs := rfl
@[simp] theorem postAll_rings (s : State) (es : List Instr) : (s.postAll es).rings = s.rings := rfl
@[simp] theorem postAll_nextRun (s : State) (es : List Instr) : (s.postAll es).nextRun = s.nextRun := rfl
@[simp] theorem postAll_issuing (s : State) (es : List Instr) : (s.postAll es).issuing = s.issuing := rfl
@[simp] theorem postAll_cur (s : State) (es : List Instr) : (s.postAll es).cur = s.cur := rfl
@[simp] theorem postAll_turnCore (s : State) (es : List Instr) : (s.postAll es).turnCore = s.turnCore := rfl
@[simp] theorem postAll_turnQuad (s : State) (es : List Instr) : (s.postAll es).turnQuad = s.turnQuad := rfl
@[simp] theorem postAll_free (s : State) (es : List Instr) : (s.postAll es).free = s.free := rfl
@[simp] theorem postAll_reply (s : State) (es : List Instr) : (s.postAll es).reply = s.reply := rfl

/-! ### fresh -/

@[simp] theorem fresh_mem (s : State) : (s.fresh.2).mem = s.mem := rfl
@[simp] theorem fresh_cores (s : State) : (s.fresh.2).cores = s.cores := rfl
@[simp] theorem fresh_parts (s : State) : (s.fresh.2).parts = s.parts := rfl
@[simp] theorem fresh_dies (s : State) : (s.fresh.2).dies = s.dies := rfl
@[simp] theorem fresh_ctxs (s : State) : (s.fresh.2).ctxs = s.ctxs := rfl
@[simp] theorem fresh_launches (s : State) : (s.fresh.2).launches = s.launches := rfl
@[simp] theorem fresh_nextLaunch (s : State) : (s.fresh.2).nextLaunch = s.nextLaunch := rfl
@[simp] theorem fresh_l1 (s : State) : (s.fresh.2).l1 = s.l1 := rfl
@[simp] theorem fresh_l2 (s : State) : (s.fresh.2).l2 = s.l2 := rfl
@[simp] theorem fresh_tlb (s : State) : (s.fresh.2).tlb = s.tlb := rfl
@[simp] theorem fresh_waiters (s : State) : (s.fresh.2).waiters = s.waiters := rfl
@[simp] theorem fresh_watches (s : State) : (s.fresh.2).watches = s.watches := rfl
@[simp] theorem fresh_reqs (s : State) : (s.fresh.2).reqs = s.reqs := rfl
@[simp] theorem fresh_ctrOps (s : State) : (s.fresh.2).ctrOps = s.ctrOps := rfl
@[simp] theorem fresh_vreqs (s : State) : (s.fresh.2).vreqs = s.vreqs := rfl
@[simp] theorem fresh_nextReq (s : State) : (s.fresh.2).nextReq = s.nextReq := rfl
@[simp] theorem fresh_hostBias (s : State) : (s.fresh.2).hostBias = s.hostBias := rfl
@[simp] theorem fresh_flipping (s : State) : (s.fresh.2).flipping = s.flipping := rfl
@[simp] theorem fresh_ctrPages (s : State) : (s.fresh.2).ctrPages = s.ctrPages := rfl
@[simp] theorem fresh_held (s : State) : (s.fresh.2).held = s.held := rfl
@[simp] theorem fresh_snoops (s : State) : (s.fresh.2).snoops = s.snoops := rfl
@[simp] theorem fresh_hostLines (s : State) : (s.fresh.2).hostLines = s.hostLines := rfl
@[simp] theorem fresh_hostClean (s : State) : (s.fresh.2).hostClean = s.hostClean := rfl
@[simp] theorem fresh_stranded (s : State) : (s.fresh.2).stranded = s.stranded := rfl
@[simp] theorem fresh_ctrHeld (s : State) : (s.fresh.2).ctrHeld = s.ctrHeld := rfl
@[simp] theorem fresh_snooped (s : State) : (s.fresh.2).snooped = s.snooped := rfl
@[simp] theorem fresh_damage (s : State) : (s.fresh.2).damage = s.damage := rfl
@[simp] theorem fresh_blocked (s : State) : (s.fresh.2).blocked = s.blocked := rfl
@[simp] theorem fresh_vigil (s : State) : (s.fresh.2).vigil = s.vigil := rfl
@[simp] theorem fresh_io (s : State) : (s.fresh.2).io = s.io := rfl
@[simp] theorem fresh_boot (s : State) : (s.fresh.2).boot = s.boot := rfl
@[simp] theorem fresh_gangs (s : State) : (s.fresh.2).gangs = s.gangs := rfl
@[simp] theorem fresh_nextGang (s : State) : (s.fresh.2).nextGang = s.nextGang := rfl
@[simp] theorem fresh_gtk (s : State) : (s.fresh.2).gtk = s.gtk := rfl
@[simp] theorem fresh_gsv (s : State) : (s.fresh.2).gsv = s.gsv := rfl
@[simp] theorem fresh_queues (s : State) : (s.fresh.2).queues = s.queues := rfl
@[simp] theorem fresh_runs (s : State) : (s.fresh.2).runs = s.runs := rfl
@[simp] theorem fresh_rings (s : State) : (s.fresh.2).rings = s.rings := rfl
@[simp] theorem fresh_nextRun (s : State) : (s.fresh.2).nextRun = s.nextRun := rfl
@[simp] theorem fresh_agenda (s : State) : (s.fresh.2).agenda = s.agenda := rfl
@[simp] theorem fresh_issuing (s : State) : (s.fresh.2).issuing = s.issuing := rfl
@[simp] theorem fresh_cur (s : State) : (s.fresh.2).cur = s.cur := rfl
@[simp] theorem fresh_turnCore (s : State) : (s.fresh.2).turnCore = s.turnCore := rfl
@[simp] theorem fresh_turnQuad (s : State) : (s.fresh.2).turnQuad = s.turnQuad := rfl
@[simp] theorem fresh_reply (s : State) : (s.fresh.2).reply = s.reply := rfl

/-! ### newReq -/

@[simp] theorem newReq_mem (s : State) : (s.newReq.2).mem = s.mem := rfl
@[simp] theorem newReq_cores (s : State) : (s.newReq.2).cores = s.cores := rfl
@[simp] theorem newReq_parts (s : State) : (s.newReq.2).parts = s.parts := rfl
@[simp] theorem newReq_dies (s : State) : (s.newReq.2).dies = s.dies := rfl
@[simp] theorem newReq_ctxs (s : State) : (s.newReq.2).ctxs = s.ctxs := rfl
@[simp] theorem newReq_launches (s : State) : (s.newReq.2).launches = s.launches := rfl
@[simp] theorem newReq_nextLaunch (s : State) : (s.newReq.2).nextLaunch = s.nextLaunch := rfl
@[simp] theorem newReq_l1 (s : State) : (s.newReq.2).l1 = s.l1 := rfl
@[simp] theorem newReq_l2 (s : State) : (s.newReq.2).l2 = s.l2 := rfl
@[simp] theorem newReq_tlb (s : State) : (s.newReq.2).tlb = s.tlb := rfl
@[simp] theorem newReq_waiters (s : State) : (s.newReq.2).waiters = s.waiters := rfl
@[simp] theorem newReq_watches (s : State) : (s.newReq.2).watches = s.watches := rfl
@[simp] theorem newReq_reqs (s : State) : (s.newReq.2).reqs = s.reqs := rfl
@[simp] theorem newReq_ctrOps (s : State) : (s.newReq.2).ctrOps = s.ctrOps := rfl
@[simp] theorem newReq_vreqs (s : State) : (s.newReq.2).vreqs = s.vreqs := rfl
@[simp] theorem newReq_hostBias (s : State) : (s.newReq.2).hostBias = s.hostBias := rfl
@[simp] theorem newReq_flipping (s : State) : (s.newReq.2).flipping = s.flipping := rfl
@[simp] theorem newReq_ctrPages (s : State) : (s.newReq.2).ctrPages = s.ctrPages := rfl
@[simp] theorem newReq_held (s : State) : (s.newReq.2).held = s.held := rfl
@[simp] theorem newReq_snoops (s : State) : (s.newReq.2).snoops = s.snoops := rfl
@[simp] theorem newReq_hostLines (s : State) : (s.newReq.2).hostLines = s.hostLines := rfl
@[simp] theorem newReq_hostClean (s : State) : (s.newReq.2).hostClean = s.hostClean := rfl
@[simp] theorem newReq_stranded (s : State) : (s.newReq.2).stranded = s.stranded := rfl
@[simp] theorem newReq_ctrHeld (s : State) : (s.newReq.2).ctrHeld = s.ctrHeld := rfl
@[simp] theorem newReq_snooped (s : State) : (s.newReq.2).snooped = s.snooped := rfl
@[simp] theorem newReq_damage (s : State) : (s.newReq.2).damage = s.damage := rfl
@[simp] theorem newReq_blocked (s : State) : (s.newReq.2).blocked = s.blocked := rfl
@[simp] theorem newReq_vigil (s : State) : (s.newReq.2).vigil = s.vigil := rfl
@[simp] theorem newReq_io (s : State) : (s.newReq.2).io = s.io := rfl
@[simp] theorem newReq_boot (s : State) : (s.newReq.2).boot = s.boot := rfl
@[simp] theorem newReq_gangs (s : State) : (s.newReq.2).gangs = s.gangs := rfl
@[simp] theorem newReq_nextGang (s : State) : (s.newReq.2).nextGang = s.nextGang := rfl
@[simp] theorem newReq_gtk (s : State) : (s.newReq.2).gtk = s.gtk := rfl
@[simp] theorem newReq_gsv (s : State) : (s.newReq.2).gsv = s.gsv := rfl
@[simp] theorem newReq_queues (s : State) : (s.newReq.2).queues = s.queues := rfl
@[simp] theorem newReq_runs (s : State) : (s.newReq.2).runs = s.runs := rfl
@[simp] theorem newReq_rings (s : State) : (s.newReq.2).rings = s.rings := rfl
@[simp] theorem newReq_nextRun (s : State) : (s.newReq.2).nextRun = s.nextRun := rfl
@[simp] theorem newReq_agenda (s : State) : (s.newReq.2).agenda = s.agenda := rfl
@[simp] theorem newReq_issuing (s : State) : (s.newReq.2).issuing = s.issuing := rfl
@[simp] theorem newReq_cur (s : State) : (s.newReq.2).cur = s.cur := rfl
@[simp] theorem newReq_turnCore (s : State) : (s.newReq.2).turnCore = s.turnCore := rfl
@[simp] theorem newReq_turnQuad (s : State) : (s.newReq.2).turnQuad = s.turnQuad := rfl
@[simp] theorem newReq_free (s : State) : (s.newReq.2).free = s.free := rfl
@[simp] theorem newReq_reply (s : State) : (s.newReq.2).reply = s.reply := rfl

/-! ### setMemBytes -/

@[simp] theorem setMemBytes_cores (s : State) (a : Nat) (bs : List Byte) : (s.setMemBytes a bs).cores = s.cores := rfl
@[simp] theorem setMemBytes_parts (s : State) (a : Nat) (bs : List Byte) : (s.setMemBytes a bs).parts = s.parts := rfl
@[simp] theorem setMemBytes_dies (s : State) (a : Nat) (bs : List Byte) : (s.setMemBytes a bs).dies = s.dies := rfl
@[simp] theorem setMemBytes_ctxs (s : State) (a : Nat) (bs : List Byte) : (s.setMemBytes a bs).ctxs = s.ctxs := rfl
@[simp] theorem setMemBytes_launches (s : State) (a : Nat) (bs : List Byte) : (s.setMemBytes a bs).launches = s.launches := rfl
@[simp] theorem setMemBytes_nextLaunch (s : State) (a : Nat) (bs : List Byte) : (s.setMemBytes a bs).nextLaunch = s.nextLaunch := rfl
@[simp] theorem setMemBytes_l1 (s : State) (a : Nat) (bs : List Byte) : (s.setMemBytes a bs).l1 = s.l1 := rfl
@[simp] theorem setMemBytes_l2 (s : State) (a : Nat) (bs : List Byte) : (s.setMemBytes a bs).l2 = s.l2 := rfl
@[simp] theorem setMemBytes_tlb (s : State) (a : Nat) (bs : List Byte) : (s.setMemBytes a bs).tlb = s.tlb := rfl
@[simp] theorem setMemBytes_waiters (s : State) (a : Nat) (bs : List Byte) : (s.setMemBytes a bs).waiters = s.waiters := rfl
@[simp] theorem setMemBytes_watches (s : State) (a : Nat) (bs : List Byte) : (s.setMemBytes a bs).watches = s.watches := rfl
@[simp] theorem setMemBytes_reqs (s : State) (a : Nat) (bs : List Byte) : (s.setMemBytes a bs).reqs = s.reqs := rfl
@[simp] theorem setMemBytes_ctrOps (s : State) (a : Nat) (bs : List Byte) : (s.setMemBytes a bs).ctrOps = s.ctrOps := rfl
@[simp] theorem setMemBytes_vreqs (s : State) (a : Nat) (bs : List Byte) : (s.setMemBytes a bs).vreqs = s.vreqs := rfl
@[simp] theorem setMemBytes_nextReq (s : State) (a : Nat) (bs : List Byte) : (s.setMemBytes a bs).nextReq = s.nextReq := rfl
@[simp] theorem setMemBytes_hostBias (s : State) (a : Nat) (bs : List Byte) : (s.setMemBytes a bs).hostBias = s.hostBias := rfl
@[simp] theorem setMemBytes_flipping (s : State) (a : Nat) (bs : List Byte) : (s.setMemBytes a bs).flipping = s.flipping := rfl
@[simp] theorem setMemBytes_ctrPages (s : State) (a : Nat) (bs : List Byte) : (s.setMemBytes a bs).ctrPages = s.ctrPages := rfl
@[simp] theorem setMemBytes_held (s : State) (a : Nat) (bs : List Byte) : (s.setMemBytes a bs).held = s.held := rfl
@[simp] theorem setMemBytes_snoops (s : State) (a : Nat) (bs : List Byte) : (s.setMemBytes a bs).snoops = s.snoops := rfl
@[simp] theorem setMemBytes_hostLines (s : State) (a : Nat) (bs : List Byte) : (s.setMemBytes a bs).hostLines = s.hostLines := rfl
@[simp] theorem setMemBytes_hostClean (s : State) (a : Nat) (bs : List Byte) : (s.setMemBytes a bs).hostClean = s.hostClean := rfl
@[simp] theorem setMemBytes_stranded (s : State) (a : Nat) (bs : List Byte) : (s.setMemBytes a bs).stranded = s.stranded := rfl
@[simp] theorem setMemBytes_ctrHeld (s : State) (a : Nat) (bs : List Byte) : (s.setMemBytes a bs).ctrHeld = s.ctrHeld := rfl
@[simp] theorem setMemBytes_snooped (s : State) (a : Nat) (bs : List Byte) : (s.setMemBytes a bs).snooped = s.snooped := rfl
@[simp] theorem setMemBytes_damage (s : State) (a : Nat) (bs : List Byte) : (s.setMemBytes a bs).damage = s.damage := rfl
@[simp] theorem setMemBytes_blocked (s : State) (a : Nat) (bs : List Byte) : (s.setMemBytes a bs).blocked = s.blocked := rfl
@[simp] theorem setMemBytes_vigil (s : State) (a : Nat) (bs : List Byte) : (s.setMemBytes a bs).vigil = s.vigil := rfl
@[simp] theorem setMemBytes_io (s : State) (a : Nat) (bs : List Byte) : (s.setMemBytes a bs).io = s.io := rfl
@[simp] theorem setMemBytes_boot (s : State) (a : Nat) (bs : List Byte) : (s.setMemBytes a bs).boot = s.boot := rfl
@[simp] theorem setMemBytes_gangs (s : State) (a : Nat) (bs : List Byte) : (s.setMemBytes a bs).gangs = s.gangs := rfl
@[simp] theorem setMemBytes_nextGang (s : State) (a : Nat) (bs : List Byte) : (s.setMemBytes a bs).nextGang = s.nextGang := rfl
@[simp] theorem setMemBytes_gtk (s : State) (a : Nat) (bs : List Byte) : (s.setMemBytes a bs).gtk = s.gtk := rfl
@[simp] theorem setMemBytes_gsv (s : State) (a : Nat) (bs : List Byte) : (s.setMemBytes a bs).gsv = s.gsv := rfl
@[simp] theorem setMemBytes_queues (s : State) (a : Nat) (bs : List Byte) : (s.setMemBytes a bs).queues = s.queues := rfl
@[simp] theorem setMemBytes_runs (s : State) (a : Nat) (bs : List Byte) : (s.setMemBytes a bs).runs = s.runs := rfl
@[simp] theorem setMemBytes_rings (s : State) (a : Nat) (bs : List Byte) : (s.setMemBytes a bs).rings = s.rings := rfl
@[simp] theorem setMemBytes_nextRun (s : State) (a : Nat) (bs : List Byte) : (s.setMemBytes a bs).nextRun = s.nextRun := rfl
@[simp] theorem setMemBytes_agenda (s : State) (a : Nat) (bs : List Byte) : (s.setMemBytes a bs).agenda = s.agenda := rfl
@[simp] theorem setMemBytes_issuing (s : State) (a : Nat) (bs : List Byte) : (s.setMemBytes a bs).issuing = s.issuing := rfl
@[simp] theorem setMemBytes_cur (s : State) (a : Nat) (bs : List Byte) : (s.setMemBytes a bs).cur = s.cur := rfl
@[simp] theorem setMemBytes_turnCore (s : State) (a : Nat) (bs : List Byte) : (s.setMemBytes a bs).turnCore = s.turnCore := rfl
@[simp] theorem setMemBytes_turnQuad (s : State) (a : Nat) (bs : List Byte) : (s.setMemBytes a bs).turnQuad = s.turnQuad := rfl
@[simp] theorem setMemBytes_free (s : State) (a : Nat) (bs : List Byte) : (s.setMemBytes a bs).free = s.free := rfl
@[simp] theorem setMemBytes_reply (s : State) (a : Nat) (bs : List Byte) : (s.setMemBytes a bs).reply = s.reply := rfl

/-! ### Reads after writes -/

@[simp] theorem post_agenda (s : State) (e : Instr) : (s.post e).agenda = s.agenda ++ [e] := rfl
@[simp] theorem postAll_agenda (s : State) (es : List Instr) : (s.postAll es).agenda = s.agenda ++ es := rfl
@[simp] theorem fresh_free (s : State) : s.fresh.2.free = s.free + 1 := rfl
@[simp] theorem newReq_nextReq (s : State) : s.newReq.2.nextReq = s.nextReq + 1 := rfl
@[simp] theorem newReq_fst (s : State) : s.newReq.1 = s.nextReq := rfl
@[simp] theorem setMemBytes_mem (s : State) (a : Nat) (bs : List Byte) :
    (s.setMemBytes a bs).mem = memSets s.mem a bs := rfl
@[simp] theorem updIo_io (s : State) (f : Io → Io) : (s.updIo f).io = f s.io := rfl

@[simp] theorem core_updCore (s : State) (c j : Nat) (f : Core → Core) :
    (s.updCore c f).core j = if j = c then f (s.core c) else s.core j := by
  simp [core, updCore]
@[simp] theorem core_updCc (s : State) (c j : Nat) (f : CoreCtx → CoreCtx) :
    (s.updCc c f).core j = if j = c then { s.core c with cc := f (s.cc c) } else s.core j := by
  simp [updCc, cc]
@[simp] theorem cc_updCore (s : State) (c j : Nat) (f : Core → Core) :
    (s.updCore c f).cc j = if j = c then (f (s.core c)).cc else s.cc j := by
  simp only [cc, core_updCore]; split <;> rfl
@[simp] theorem cc_updCc (s : State) (c j : Nat) (f : CoreCtx → CoreCtx) :
    (s.updCc c f).cc j = if j = c then f (s.cc c) else s.cc j := by
  simp only [cc, core_updCc]; split <;> rfl
theorem core_updWarp (s : State) (c k j : Nat) (f : Warp → Warp) :
    (s.updWarp c k f).core j = if j = c then
      (if k = fwSlot then { s.core c with fw := f (s.core c).fw }
       else { s.core c with cc := { s.cc c with warps := (s.cc c).warps.upd {} k f } })
      else s.core j := by
  unfold updWarp; split <;> simp [cc]
@[simp] theorem warp_updWarp (s : State) (c k j i : Nat) (f : Warp → Warp) :
    (s.updWarp c k f).warp j i = if j = c ∧ i = k then f (s.warp c k) else s.warp j i := by
  by_cases hj : j = c
  · subst hj
    by_cases hk : k = fwSlot
    · subst hk
      by_cases hi : i = fwSlot
      · subst hi; simp [warp, core_updWarp]
      · simp [warp, cc, core_updWarp, hi]
    · by_cases hi : i = fwSlot
      · subst hi; simp [warp, core_updWarp, hk, Ne.symm hk]
      · simp [warp, cc, core_updWarp, hi, hk]
  · simp [warp, cc, core_updWarp, hj]
@[simp] theorem part_updPart (s : State) (p j : Nat) (f : Part → Part) :
    (s.updPart p f).part j = if j = p then f (s.part p) else s.part j := by
  simp [part, updPart]
@[simp] theorem die_updDie (s : State) (d j : Nat) (f : Die → Die) :
    (s.updDie d f).die j = if j = d then f (s.die d) else s.die j := by
  simp [die, updDie]
@[simp] theorem ctx_updCtx (s : State) (h j : Nat) (f : Context → Context) :
    (s.updCtx h f).ctx j = if j = h then f (s.ctx h) else s.ctx j := by
  simp [ctx, updCtx]
@[simp] theorem ctx_updAlm (s : State) (h j : Nat) (f : Almanac → Almanac) :
    (s.updAlm h f).ctx j = if j = h then { s.ctx h with alm := f (s.ctx h).alm } else s.ctx j := by
  simp [updAlm]

/-! ### Accessors through unrelated updates -/

@[simp] theorem part_updCore (s : State) (c : Nat) (f : Core → Core) (j : Nat) : (s.updCore c f).part j = s.part j := rfl
@[simp] theorem die_updCore (s : State) (c : Nat) (f : Core → Core) (j : Nat) : (s.updCore c f).die j = s.die j := rfl
@[simp] theorem ctx_updCore (s : State) (c : Nat) (f : Core → Core) (j : Nat) : (s.updCore c f).ctx j = s.ctx j := rfl
@[simp] theorem part_updCc (s : State) (c : Nat) (f : CoreCtx → CoreCtx) (j : Nat) : (s.updCc c f).part j = s.part j := rfl
@[simp] theorem die_updCc (s : State) (c : Nat) (f : CoreCtx → CoreCtx) (j : Nat) : (s.updCc c f).die j = s.die j := rfl
@[simp] theorem ctx_updCc (s : State) (c : Nat) (f : CoreCtx → CoreCtx) (j : Nat) : (s.updCc c f).ctx j = s.ctx j := rfl
@[simp] theorem part_updWarp (s : State) (c k : Nat) (f : Warp → Warp) (j : Nat) : (s.updWarp c k f).part j = s.part j := by unfold updWarp; split <;> rfl
@[simp] theorem die_updWarp (s : State) (c k : Nat) (f : Warp → Warp) (j : Nat) : (s.updWarp c k f).die j = s.die j := by unfold updWarp; split <;> rfl
@[simp] theorem ctx_updWarp (s : State) (c k : Nat) (f : Warp → Warp) (j : Nat) : (s.updWarp c k f).ctx j = s.ctx j := by unfold updWarp; split <;> rfl
@[simp] theorem core_updPart (s : State) (p : Nat) (f : Part → Part) (j : Nat) : (s.updPart p f).core j = s.core j := rfl
@[simp] theorem cc_updPart (s : State) (p : Nat) (f : Part → Part) (j : Nat) : (s.updPart p f).cc j = s.cc j := rfl
@[simp] theorem die_updPart (s : State) (p : Nat) (f : Part → Part) (j : Nat) : (s.updPart p f).die j = s.die j := rfl
@[simp] theorem ctx_updPart (s : State) (p : Nat) (f : Part → Part) (j : Nat) : (s.updPart p f).ctx j = s.ctx j := rfl
@[simp] theorem warp_updPart (s : State) (p : Nat) (f : Part → Part) (j i : Nat) : (s.updPart p f).warp j i = s.warp j i := rfl
@[simp] theorem core_updDie (s : State) (d : Nat) (f : Die → Die) (j : Nat) : (s.updDie d f).core j = s.core j := rfl
@[simp] theorem cc_updDie (s : State) (d : Nat) (f : Die → Die) (j : Nat) : (s.updDie d f).cc j = s.cc j := rfl
@[simp] theorem part_updDie (s : State) (d : Nat) (f : Die → Die) (j : Nat) : (s.updDie d f).part j = s.part j := rfl
@[simp] theorem ctx_updDie (s : State) (d : Nat) (f : Die → Die) (j : Nat) : (s.updDie d f).ctx j = s.ctx j := rfl
@[simp] theorem warp_updDie (s : State) (d : Nat) (f : Die → Die) (j i : Nat) : (s.updDie d f).warp j i = s.warp j i := rfl
@[simp] theorem core_updCtx (s : State) (h : Nat) (f : Context → Context) (j : Nat) : (s.updCtx h f).core j = s.core j := rfl
@[simp] theorem cc_updCtx (s : State) (h : Nat) (f : Context → Context) (j : Nat) : (s.updCtx h f).cc j = s.cc j := rfl
@[simp] theorem part_updCtx (s : State) (h : Nat) (f : Context → Context) (j : Nat) : (s.updCtx h f).part j = s.part j := rfl
@[simp] theorem die_updCtx (s : State) (h : Nat) (f : Context → Context) (j : Nat) : (s.updCtx h f).die j = s.die j := rfl
@[simp] theorem warp_updCtx (s : State) (h : Nat) (f : Context → Context) (j i : Nat) : (s.updCtx h f).warp j i = s.warp j i := rfl
@[simp] theorem core_updAlm (s : State) (h : Nat) (f : Almanac → Almanac) (j : Nat) : (s.updAlm h f).core j = s.core j := rfl
@[simp] theorem cc_updAlm (s : State) (h : Nat) (f : Almanac → Almanac) (j : Nat) : (s.updAlm h f).cc j = s.cc j := rfl
@[simp] theorem part_updAlm (s : State) (h : Nat) (f : Almanac → Almanac) (j : Nat) : (s.updAlm h f).part j = s.part j := rfl
@[simp] theorem die_updAlm (s : State) (h : Nat) (f : Almanac → Almanac) (j : Nat) : (s.updAlm h f).die j = s.die j := rfl
@[simp] theorem warp_updAlm (s : State) (h : Nat) (f : Almanac → Almanac) (j i : Nat) : (s.updAlm h f).warp j i = s.warp j i := rfl
@[simp] theorem core_updIo (s : State) (f : Io → Io) (j : Nat) : (s.updIo f).core j = s.core j := rfl
@[simp] theorem cc_updIo (s : State) (f : Io → Io) (j : Nat) : (s.updIo f).cc j = s.cc j := rfl
@[simp] theorem part_updIo (s : State) (f : Io → Io) (j : Nat) : (s.updIo f).part j = s.part j := rfl
@[simp] theorem die_updIo (s : State) (f : Io → Io) (j : Nat) : (s.updIo f).die j = s.die j := rfl
@[simp] theorem ctx_updIo (s : State) (f : Io → Io) (j : Nat) : (s.updIo f).ctx j = s.ctx j := rfl
@[simp] theorem warp_updIo (s : State) (f : Io → Io) (j i : Nat) : (s.updIo f).warp j i = s.warp j i := rfl
@[simp] theorem core_post (s : State) (e : Instr) (j : Nat) : (s.post e).core j = s.core j := rfl
@[simp] theorem cc_post (s : State) (e : Instr) (j : Nat) : (s.post e).cc j = s.cc j := rfl
@[simp] theorem part_post (s : State) (e : Instr) (j : Nat) : (s.post e).part j = s.part j := rfl
@[simp] theorem die_post (s : State) (e : Instr) (j : Nat) : (s.post e).die j = s.die j := rfl
@[simp] theorem ctx_post (s : State) (e : Instr) (j : Nat) : (s.post e).ctx j = s.ctx j := rfl
@[simp] theorem warp_post (s : State) (e : Instr) (j i : Nat) : (s.post e).warp j i = s.warp j i := rfl
@[simp] theorem core_postAll (s : State) (es : List Instr) (j : Nat) : (s.postAll es).core j = s.core j := rfl
@[simp] theorem cc_postAll (s : State) (es : List Instr) (j : Nat) : (s.postAll es).cc j = s.cc j := rfl
@[simp] theorem part_postAll (s : State) (es : List Instr) (j : Nat) : (s.postAll es).part j = s.part j := rfl
@[simp] theorem die_postAll (s : State) (es : List Instr) (j : Nat) : (s.postAll es).die j = s.die j := rfl
@[simp] theorem ctx_postAll (s : State) (es : List Instr) (j : Nat) : (s.postAll es).ctx j = s.ctx j := rfl
@[simp] theorem warp_postAll (s : State) (es : List Instr) (j i : Nat) : (s.postAll es).warp j i = s.warp j i := rfl
@[simp] theorem core_fresh (s : State) (j : Nat) : (s.fresh.2).core j = s.core j := rfl
@[simp] theorem cc_fresh (s : State) (j : Nat) : (s.fresh.2).cc j = s.cc j := rfl
@[simp] theorem part_fresh (s : State) (j : Nat) : (s.fresh.2).part j = s.part j := rfl
@[simp] theorem die_fresh (s : State) (j : Nat) : (s.fresh.2).die j = s.die j := rfl
@[simp] theorem ctx_fresh (s : State) (j : Nat) : (s.fresh.2).ctx j = s.ctx j := rfl
@[simp] theorem warp_fresh (s : State) (j i : Nat) : (s.fresh.2).warp j i = s.warp j i := rfl
@[simp] theorem core_newReq (s : State) (j : Nat) : (s.newReq.2).core j = s.core j := rfl
@[simp] theorem cc_newReq (s : State) (j : Nat) : (s.newReq.2).cc j = s.cc j := rfl
@[simp] theorem part_newReq (s : State) (j : Nat) : (s.newReq.2).part j = s.part j := rfl
@[simp] theorem die_newReq (s : State) (j : Nat) : (s.newReq.2).die j = s.die j := rfl
@[simp] theorem ctx_newReq (s : State) (j : Nat) : (s.newReq.2).ctx j = s.ctx j := rfl
@[simp] theorem warp_newReq (s : State) (j i : Nat) : (s.newReq.2).warp j i = s.warp j i := rfl
@[simp] theorem core_setMemBytes (s : State) (a : Nat) (bs : List Byte) (j : Nat) : (s.setMemBytes a bs).core j = s.core j := rfl
@[simp] theorem cc_setMemBytes (s : State) (a : Nat) (bs : List Byte) (j : Nat) : (s.setMemBytes a bs).cc j = s.cc j := rfl
@[simp] theorem part_setMemBytes (s : State) (a : Nat) (bs : List Byte) (j : Nat) : (s.setMemBytes a bs).part j = s.part j := rfl
@[simp] theorem die_setMemBytes (s : State) (a : Nat) (bs : List Byte) (j : Nat) : (s.setMemBytes a bs).die j = s.die j := rfl
@[simp] theorem ctx_setMemBytes (s : State) (a : Nat) (bs : List Byte) (j : Nat) : (s.setMemBytes a bs).ctx j = s.ctx j := rfl
@[simp] theorem warp_setMemBytes (s : State) (a : Nat) (bs : List Byte) (j i : Nat) : (s.setMemBytes a bs).warp j i = s.warp j i := rfl

end Sys2Proof.Machine.State

namespace Sys2Proof.Machine.Warp

@[simp] theorem lane_updLane (w : Warp) (l j : Nat) (f : Lane → Lane) :
    (w.updLane l f).lane j = if j = l then f (w.lane l) else w.lane j := by
  simp [updLane, lane]

theorem updLanes_fold (f : Nat → Lane → Lane) (ls : List Nat) (w : Warp) (h : ls.Nodup) :
    (∀ l, (ls.foldl (fun (w : Warp) l => w.updLane l (f l)) w).lane l = if l ∈ ls then f l (w.lane l) else w.lane l) ∧
    ls.foldl (fun (w : Warp) l => w.updLane l (f l)) w =
      { w with lanes := (ls.foldl (fun (w : Warp) l => w.updLane l (f l)) w).lanes } := by
  induction ls generalizing w with
  | nil => simp
  | cons a ls ih =>
    obtain ⟨h1, h2⟩ := List.nodup_cons.mp h
    obtain ⟨i1, i2⟩ := ih (w.updLane a (f a)) h2
    refine ⟨fun l => ?_, i2.trans rfl⟩
    rw [List.foldl_cons, i1 l]
    by_cases hl : l = a
    · subst hl; simp [h1]
    · simp [hl]

theorem lanesOf_nodup (m : Mask) : (lanesOf m).Nodup := List.Nodup.filter _ List.nodup_range

/-- Each lane of the mask is changed, and nothing else. -/
@[simp] theorem lane_updLanes (w : Warp) (m : Mask) (f : Nat → Lane → Lane) (l : Nat) :
    (w.updLanes m f).lane l = if l < 32 ∧ m.getLsbD l = true then f l (w.lane l) else w.lane l := by
  rw [updLanes, (updLanes_fold f _ w (lanesOf_nodup m)).1 l]; simp only [mem_lanesOf]
theorem updLanes_eq (w : Warp) (m : Mask) (f : Nat → Lane → Lane) :
    w.updLanes m f = { w with lanes := (w.updLanes m f).lanes } :=
  (updLanes_fold f _ w (lanesOf_nodup m)).2
theorem updLanes_lanes (w : Warp) (m : Mask) (f : Nat → Lane → Lane) :
    (w.updLanes m f).lanes = (lanesOf m).foldl (fun ls l => ls.upd {} l (f l)) w.lanes := by
  unfold updLanes
  generalize lanesOf m = xs
  induction xs generalizing w with
  | nil => rfl
  | cons a xs ih => rw [List.foldl_cons, List.foldl_cons, ih]; rfl
theorem updLanes_updSched (w : Warp) (m : Mask) (f : Nat → Lane → Lane) (g : WarpSched → WarpSched) :
    (w.updSched g).updLanes m f = (w.updLanes m f).updSched g := by
  rw [updLanes_eq, updLanes_eq w, updLanes_lanes, updLanes_lanes]; rfl
theorem updLanes_updUni (w : Warp) (m : Mask) (f : Nat → Lane → Lane) (g : WarpUni → WarpUni) :
    (w.updUni g).updLanes m f = (w.updLanes m f).updUni g := by
  rw [updLanes_eq, updLanes_eq w, updLanes_lanes, updLanes_lanes]; rfl

theorem updLanes_updTrap (w : Warp) (m : Mask) (f : Nat → Lane → Lane) (g : TrapState → TrapState) :
    (w.updTrap g).updLanes m f = (w.updLanes m f).updTrap g := by
  rw [updLanes_eq, updLanes_eq w, updLanes_lanes, updLanes_lanes]; rfl
@[simp] theorem updLanes_ctx (w : Warp) (m : Mask) (f : Nat → Lane → Lane) : (w.updLanes m f).ctx = w.ctx := by
  rw [updLanes_eq]
@[simp] theorem updLanes_team (w : Warp) (m : Mask) (f : Nat → Lane → Lane) : (w.updLanes m f).team = w.team := by
  rw [updLanes_eq]
@[simp] theorem updLanes_wid (w : Warp) (m : Mask) (f : Nat → Lane → Lane) : (w.updLanes m f).wid = w.wid := by
  rw [updLanes_eq]
@[simp] theorem updLanes_lreg (w : Warp) (m : Mask) (f : Nat → Lane → Lane) : (w.updLanes m f).lreg = w.lreg := by
  rw [updLanes_eq]
@[simp] theorem updLanes_preds (w : Warp) (m : Mask) (f : Nat → Lane → Lane) : (w.updLanes m f).preds = w.preds := by
  rw [updLanes_eq]
@[simp] theorem updLanes_blocks (w : Warp) (m : Mask) (f : Nat → Lane → Lane) : (w.updLanes m f).blocks = w.blocks := by
  rw [updLanes_eq]
@[simp] theorem updLanes_uni (w : Warp) (m : Mask) (f : Nat → Lane → Lane) : (w.updLanes m f).uni = w.uni := by
  rw [updLanes_eq]
@[simp] theorem updLanes_sched (w : Warp) (m : Mask) (f : Nat → Lane → Lane) : (w.updLanes m f).sched = w.sched := by
  rw [updLanes_eq]
@[simp] theorem updLanes_trap (w : Warp) (m : Mask) (f : Nat → Lane → Lane) : (w.updLanes m f).trap = w.trap := by
  rw [updLanes_eq]
@[simp] theorem updLanes_pend (w : Warp) (m : Mask) (f : Nat → Lane → Lane) : (w.updLanes m f).pend = w.pend := by
  rw [updLanes_eq]
@[simp] theorem updLanes_var (w : Warp) (m : Mask) (f : Nat → Lane → Lane) : (w.updLanes m f).var = w.var := by
  rw [updLanes_eq]
@[simp] theorem updLanes_batches (w : Warp) (m : Mask) (f : Nat → Lane → Lane) : (w.updLanes m f).batches = w.batches := by
  rw [updLanes_eq]
@[simp] theorem updLanes_unsealed (w : Warp) (m : Mask) (f : Nat → Lane → Lane) : (w.updLanes m f).unsealed = w.unsealed := by
  rw [updLanes_eq]
@[simp] theorem updUni_ctx (w : Warp) (f : WarpUni → WarpUni) : (w.updUni f).ctx = w.ctx := rfl
@[simp] theorem updUni_team (w : Warp) (f : WarpUni → WarpUni) : (w.updUni f).team = w.team := rfl
@[simp] theorem updUni_wid (w : Warp) (f : WarpUni → WarpUni) : (w.updUni f).wid = w.wid := rfl
@[simp] theorem updUni_lanes (w : Warp) (f : WarpUni → WarpUni) : (w.updUni f).lanes = w.lanes := rfl
@[simp] theorem updUni_lreg (w : Warp) (f : WarpUni → WarpUni) : (w.updUni f).lreg = w.lreg := rfl
@[simp] theorem updUni_preds (w : Warp) (f : WarpUni → WarpUni) : (w.updUni f).preds = w.preds := rfl
@[simp] theorem updUni_blocks (w : Warp) (f : WarpUni → WarpUni) : (w.updUni f).blocks = w.blocks := rfl
@[simp] theorem updUni_uni (w : Warp) (f : WarpUni → WarpUni) : (w.updUni f).uni = f w.uni := rfl
@[simp] theorem updUni_sched (w : Warp) (f : WarpUni → WarpUni) : (w.updUni f).sched = w.sched := rfl
@[simp] theorem updUni_trap (w : Warp) (f : WarpUni → WarpUni) : (w.updUni f).trap = w.trap := rfl
@[simp] theorem updUni_pend (w : Warp) (f : WarpUni → WarpUni) : (w.updUni f).pend = w.pend := rfl
@[simp] theorem updUni_var (w : Warp) (f : WarpUni → WarpUni) : (w.updUni f).var = w.var := rfl
@[simp] theorem updUni_batches (w : Warp) (f : WarpUni → WarpUni) : (w.updUni f).batches = w.batches := rfl
@[simp] theorem updUni_unsealed (w : Warp) (f : WarpUni → WarpUni) : (w.updUni f).unsealed = w.unsealed := rfl
@[simp] theorem lane_updUni (w : Warp) (f : WarpUni → WarpUni) (l : Nat) : (w.updUni f).lane l = w.lane l := rfl
@[simp] theorem updSched_ctx (w : Warp) (f : WarpSched → WarpSched) : (w.updSched f).ctx = w.ctx := rfl
@[simp] theorem updSched_team (w : Warp) (f : WarpSched → WarpSched) : (w.updSched f).team = w.team := rfl
@[simp] theorem updSched_wid (w : Warp) (f : WarpSched → WarpSched) : (w.updSched f).wid = w.wid := rfl
@[simp] theorem updSched_lanes (w : Warp) (f : WarpSched → WarpSched) : (w.updSched f).lanes = w.lanes := rfl
@[simp] theorem updSched_lreg (w : Warp) (f : WarpSched → WarpSched) : (w.updSched f).lreg = w.lreg := rfl
@[simp] theorem updSched_preds (w : Warp) (f : WarpSched → WarpSched) : (w.updSched f).preds = w.preds := rfl
@[simp] theorem updSched_blocks (w : Warp) (f : WarpSched → WarpSched) : (w.updSched f).blocks = w.blocks := rfl
@[simp] theorem updSched_uni (w : Warp) (f : WarpSched → WarpSched) : (w.updSched f).uni = w.uni := rfl
@[simp] theorem updSched_sched (w : Warp) (f : WarpSched → WarpSched) : (w.updSched f).sched = f w.sched := rfl
@[simp] theorem updSched_trap (w : Warp) (f : WarpSched → WarpSched) : (w.updSched f).trap = w.trap := rfl
@[simp] theorem updSched_pend (w : Warp) (f : WarpSched → WarpSched) : (w.updSched f).pend = w.pend := rfl
@[simp] theorem updSched_var (w : Warp) (f : WarpSched → WarpSched) : (w.updSched f).var = w.var := rfl
@[simp] theorem updSched_batches (w : Warp) (f : WarpSched → WarpSched) : (w.updSched f).batches = w.batches := rfl
@[simp] theorem updSched_unsealed (w : Warp) (f : WarpSched → WarpSched) : (w.updSched f).unsealed = w.unsealed := rfl
@[simp] theorem lane_updSched (w : Warp) (f : WarpSched → WarpSched) (l : Nat) : (w.updSched f).lane l = w.lane l := rfl
@[simp] theorem updTrap_ctx (w : Warp) (f : TrapState → TrapState) : (w.updTrap f).ctx = w.ctx := rfl
@[simp] theorem updTrap_team (w : Warp) (f : TrapState → TrapState) : (w.updTrap f).team = w.team := rfl
@[simp] theorem updTrap_wid (w : Warp) (f : TrapState → TrapState) : (w.updTrap f).wid = w.wid := rfl
@[simp] theorem updTrap_lanes (w : Warp) (f : TrapState → TrapState) : (w.updTrap f).lanes = w.lanes := rfl
@[simp] theorem updTrap_lreg (w : Warp) (f : TrapState → TrapState) : (w.updTrap f).lreg = w.lreg := rfl
@[simp] theorem updTrap_preds (w : Warp) (f : TrapState → TrapState) : (w.updTrap f).preds = w.preds := rfl
@[simp] theorem updTrap_blocks (w : Warp) (f : TrapState → TrapState) : (w.updTrap f).blocks = w.blocks := rfl
@[simp] theorem updTrap_uni (w : Warp) (f : TrapState → TrapState) : (w.updTrap f).uni = w.uni := rfl
@[simp] theorem updTrap_sched (w : Warp) (f : TrapState → TrapState) : (w.updTrap f).sched = w.sched := rfl
@[simp] theorem updTrap_trap (w : Warp) (f : TrapState → TrapState) : (w.updTrap f).trap = f w.trap := rfl
@[simp] theorem updTrap_pend (w : Warp) (f : TrapState → TrapState) : (w.updTrap f).pend = w.pend := rfl
@[simp] theorem updTrap_var (w : Warp) (f : TrapState → TrapState) : (w.updTrap f).var = w.var := rfl
@[simp] theorem updTrap_batches (w : Warp) (f : TrapState → TrapState) : (w.updTrap f).batches = w.batches := rfl
@[simp] theorem updTrap_unsealed (w : Warp) (f : TrapState → TrapState) : (w.updTrap f).unsealed = w.unsealed := rfl
@[simp] theorem lane_updTrap (w : Warp) (f : TrapState → TrapState) (l : Nat) : (w.updTrap f).lane l = w.lane l := rfl

end Sys2Proof.Machine.Warp
end

