-- ==== Sys2Proof/Laws/Issue.lean ====
section
/-! SUPPORT. What the shared run of an instruction does (`State.issue`, `State.complete`), said once: an
instruction that runs, does its own effect and advances; and the frame of one that only writes registers. -/

namespace Sys2Proof.Machine

namespace State

/-! ### The run -/

theorem issue_done {s : State} {i : Instr} {sc : BitVec 2} {body : State → Did} {s' : State} {f : Flow}
    (h : s.Runs i) (hb : body s = .done s' f) : s.issue i sc body = s'.complete sc f := by
  simp [issue, h.1, h.2, hb]
theorem issue_trap {s : State} {i : Instr} {sc : BitVec 2} {body : State → Did} {s' : State} {t : TrapInfo}
    (h : s.Runs i) (hb : body s = .trap s' t) : s.issue i sc body = s'.syncTrap t := by
  simp [issue, h.1, h.2, hb]
theorem issue_wait {s : State} {i : Instr} {sc : BitVec 2} {body : State → Did} {s' : State}
    (h : s.Runs i) (hb : body s = .wait s') : s.issue i sc body = s'.putOff := by
  simp [issue, h.1, h.2, hb]

theorem issue_notReady {s : State} {i : Instr} {sc : BitVec 2} {body : State → Did} (h : s.notReady s.cur i = true) :
    s.issue i sc body = s.putOff := by
  simp [issue, h]

/-- An instruction that is put off has done nothing: only the running instruction says so. -/
@[simp] theorem putOff_core (s : State) (c : Nat) : s.putOff.core c = s.core c := rfl
@[simp] theorem putOff_cc (s : State) (c : Nat) : s.putOff.cc c = s.cc c := rfl
@[simp] theorem putOff_warp (s : State) (c k : Nat) : s.putOff.warp c k = s.warp c k := rfl
@[simp] theorem putOff_me (s : State) : s.putOff.me = s.me := rfl
@[simp] theorem putOff_now (s : State) : s.putOff.now = s.now := rfl
@[simp] theorem putOff_mem (s : State) : s.putOff.mem = s.mem := rfl
@[simp] theorem putOff_agenda (s : State) : s.putOff.agenda = s.agenda := rfl
theorem putOff_device (s : State) : s.putOff = { s with cur := { s.cur with off := true } } := rfl

theorem exec_trap {s : State} {i : Instr} {sc : BitVec 2} {body : State → Did} {s' : State} {t : TrapInfo}
    (hx : exec i s = .next (s.issue i sc body)) (h : s.Runs i) (hb : body s = .trap s' t) :
    exec i s = .next (s'.syncTrap t) := by rw [hx, issue_trap h hb]
theorem exec_wait {s : State} {i : Instr} {sc : BitVec 2} {body : State → Did} {s' : State}
    (hx : exec i s = .next (s.issue i sc body)) (h : s.Runs i) (hb : body s = .wait s') : exec i s = .next s'.putOff := by
  rw [hx, issue_wait h hb]

/-! ### Warps through the updates -/

@[simp] theorem updWarp_updWarp (s : State) (c k : Nat) (f g : Warp → Warp) :
    (s.updWarp c k f).updWarp c k g = s.updWarp c k fun w => g (f w) := by
  unfold updWarp updCc updCore; split <;> simp [Map.upd, Map.set_set]

@[simp] theorem updMe_cur (s : State) (f : Warp → Warp) : (s.updMe f).cur = s.cur := by simp [updMe]
@[simp] theorem updMe_me (s : State) (f : Warp → Warp) : (s.updMe f).me = f s.me := by simp [updMe, me]
@[simp] theorem updMe_meIn (s : State) (f : Warp → Warp) : s.meIn (s.updMe f) = f s.me := by simp [updMe, me, meIn]
@[simp] theorem updMe_updMe (s : State) (f g : Warp → Warp) : (s.updMe f).updMe g = s.updMe fun w => g (f w) := by
  simp only [updMe, updWarp_cur, updWarp_updWarp]
theorem cyc_updWarp (s : State) (c k j : Nat) (f : Warp → Warp) : ((s.updWarp c k f).core j).cyc = (s.core j).cyc := by
  rw [core_updWarp]; split
  · subst_vars; split <;> rfl
  · rfl
@[simp] theorem updMe_now (s : State) (f : Warp → Warp) : (s.updMe f).now = s.now := by
  simp only [now, updMe, updWarp_cur, cyc_updWarp]
@[simp] theorem updMe_fallThrough (s : State) (f : Warp → Warp) : (s.updMe f).fallThrough = s.fallThrough := by
  simp [fallThrough]

/-- What completing an instruction with the fall-through does to its warp. -/
def fallWarp (s : State) (sc : BitVec 2) (w : Warp) : Warp :=
  let w := if s.lastRepeat then w.updLanes s.cur.lanes fun _ l => { l with pc := s.fallThrough } else w
  { w with uni := { w.uni with repIdx := s.repAfter.1, rep := s.repAfter.2 }
           sched := { w.sched with stallUntil := (s.waitAfter sc).1, stallAll := (s.waitAfter sc).2 } }

end State

/-- The warp of a state in which only the sets of fields below differ from another warp. -/
structure SameSched (w w' : Warp) : Prop where
  rep : w'.uni.repIdx = w.uni.repIdx ∧ w'.uni.rep = w.uni.rep
  stall : w'.sched.stallUntil = w.sched.stallUntil ∧ w'.sched.stallAll = w.sched.stallAll

namespace State

theorem updMe_congr (s : State) (f g : Warp → Warp) (h : f s.me = g s.me) : s.updMe f = s.updMe g := by
  simp only [updMe, me] at *
  unfold updWarp updCc updCore
  split
  · rename_i hk
    simp only [warp, hk, if_true] at h
    simp only [Map.upd]; congr 2
    simp only [core] at h; rw [h]
  · rename_i hk
    simp only [warp, hk, if_false, cc, core] at h
    simp only [Map.upd]; congr 2; rw [h]

/-- Completing an instruction of a state whose warp has the schedule of `s`. -/
theorem complete_fall (s s' : State) (sc : BitVec 2) (hc : s'.cur = s.cur) (hn : s'.now = s.now)
    (hs : SameSched s.me s'.me) : s'.complete sc .fall = s'.updMe (s.fallWarp sc) := by
  obtain ⟨⟨r1, r2⟩, t1, t2⟩ := hs
  have hf : s'.fallThrough = s.fallThrough := by simp [fallThrough, hc]
  have hst : ∀ w : Warp, w.sched = s'.me.sched → (w.updSched fun x =>
      if s.cur.second then { x with stallUntil := max x.stallUntil (s.now + stallWait sc), stallAll := x.stallAll || sc = 3#2 }
      else { x with stallUntil := s.now + stallWait sc, stallAll := sc = 3#2 }) =
      w.updSched fun x => { x with stallUntil := (s.waitAfter sc).1, stallAll := (s.waitAfter sc).2 } := by
    intro w hw
    simp only [Warp.updSched, waitAfter, hw, t1, t2, stallWait]
    split <;> simp
  unfold complete stall
  cases hr : s.cur.rep with
  | none =>
    simp only [updMe_cur, hc, hr, flow, updMe_updMe, updMe_fallThrough, hf, hn]
    apply updMe_congr
    rw [hst _ rfl, Warp.updLanes_updSched]
    simp only [fallWarp, lastRepeat, repAfter, hr, if_true, ← r1, ← r2]
    simp [Warp.updSched]
  | some p =>
    obtain ⟨n, m⟩ := p
    simp only [updMe_cur, hc, hr, repeated, flow, updMe_updMe, updMe_fallThrough, hf, hn, updMe_me]
    simp only [Warp.updSched_uni, r1]
    by_cases hk : s.me.uni.repIdx + 1 < n
    · simp only [if_pos hk]
      apply updMe_congr
      rw [hst _ rfl]
      simp only [fallWarp, lastRepeat, repAfter, hr, if_pos hk]
      rw [if_neg (by simp; omega)]
      simp [Warp.updSched, Warp.updUni]
    · simp only [if_neg hk]
      apply updMe_congr
      rw [hst _ rfl, Warp.updLanes_updSched]
      simp only [fallWarp, lastRepeat, repAfter, hr, if_neg hk]
      rw [if_pos (by simp; omega)]
      simp [Warp.updSched, Warp.updUni]

/-! ### Results of fixed latency -/

@[simp] theorem unitHeld_none (s : State) : s.unitHeld none = s := rfl
@[simp] theorem unitHeld_some (s : State) (u : IssueUnit) (n : Nat) : s.unitHeld (some (u, n)) = s.holdUnit u n := rfl
@[simp] theorem unitHeld_cur (s : State) (hold : Option (IssueUnit × Nat)) : (s.unitHeld hold).cur = s.cur := by
  rcases hold with _ | ⟨u, n⟩ <;> rfl
theorem unitHeld_core (s : State) (hold : Option (IssueUnit × Nat)) (c : Nat) : (s.unitHeld hold).core c =
    if c = s.cur.core then { s.core c with unitFree := match (hold : Option (IssueUnit × Nat)) with
        | some (u, n) => (s.core c).unitFree.set (8 * quadOf s.cur.slot + unitIdx u) (s.now + n)
        | none => (s.core c).unitFree } else s.core c := by
  rcases hold with _ | ⟨u, n⟩
  · simp
  · simp only [unitHeld_some, holdUnit, core_updCore, now]; split
    · subst_vars; rfl
    · rfl
@[simp] theorem unitHeld_now (s : State) (hold : Option (IssueUnit × Nat)) : (s.unitHeld hold).now = s.now := by
  simp only [now, unitHeld_cur, unitHeld_core, if_true]
@[simp] theorem unitHeld_cc (s : State) (hold : Option (IssueUnit × Nat)) (c : Nat) : (s.unitHeld hold).cc c = s.cc c := by
  simp only [cc, unitHeld_core]; split <;> rfl
@[simp] theorem unitHeld_warp (s : State) (hold : Option (IssueUnit × Nat)) (c k : Nat) :
    (s.unitHeld hold).warp c k = s.warp c k := by
  simp only [warp, unitHeld_cc, unitHeld_core]; split
  · split <;> rfl
  · rfl
@[simp] theorem unitHeld_me (s : State) (hold : Option (IssueUnit × Nat)) : (s.unitHeld hold).me = s.me := by simp [me]
theorem unitHeld_device (s : State) (hold : Option (IssueUnit × Nat)) : s.unitHeld hold = { s with cores := (s.unitHeld hold).cores } := by
  rcases hold with _ | ⟨u, n⟩ <;> rfl

/-- Marking registers dirty: which blocks are marked after it. -/
theorem mem_dirty_markRegs (s : State) (c k : Nat) (rs : List Nat) (b : Nat) :
    b ∈ ((s.markRegs c k rs).cc c).dirtyBlocks ↔
      b ∈ (s.cc c).dirtyBlocks ∨ ∃ r ∈ rs, r < 112 ∧ b = 8 * k + r / 16 := by
  unfold markRegs
  dsimp only
  generalize hn : (((rs.filter fun r => r < 112).map fun r => 8 * k + r / 16).filter
    fun b => !(s.cc c).dirtyBlocks.contains b) = new
  have hm : ∀ b, b ∈ new ↔ b ∉ (s.cc c).dirtyBlocks ∧ ∃ r ∈ rs, r < 112 ∧ b = 8 * k + r / 16 := by
    intro b; rw [← hn]
    simp only [List.mem_filter, List.mem_map, decide_eq_true_eq, Bool.not_eq_true', List.contains_eq_mem,
      decide_eq_false_iff_not]
    constructor
    · rintro ⟨⟨r, ⟨h1, h2⟩, rfl⟩, h3⟩; exact ⟨h3, r, h1, h2, rfl⟩
    · rintro ⟨h3, r, h1, h2, rfl⟩; exact ⟨⟨r, ⟨h1, h2⟩, rfl⟩, h3⟩
  split
  · rename_i he
    have he : new = [] := by simpa using he
    constructor
    · exact Or.inl
    · rintro (h | h)
      · exact h
      · by_contra hb
        have := (hm b).mpr ⟨hb, h⟩
        simp [he] at this
  · simp only [cc_updCc, if_true, List.mem_append, List.mem_dedup, hm]
    tauto
theorem markRegs_shape (s : State) (c k : Nat) (rs : List Nat) :
    s.markRegs c k rs = s ∨ ∃ D : List Nat → List Nat, s.markRegs c k rs = s.updCc c fun x => { x with dirtyBlocks := D x.dirtyBlocks } := by
  unfold markRegs
  simp only
  split
  · exact Or.inl rfl
  · exact Or.inr ⟨fun d => d ++ _, rfl⟩
@[simp] theorem markRegs_cur (s : State) (c k : Nat) (rs : List Nat) : (s.markRegs c k rs).cur = s.cur := by
  rcases markRegs_shape s c k rs with h | ⟨D, h⟩ <;> rw [h]; rfl
@[simp] theorem markRegs_warp (s : State) (c k j i : Nat) (rs : List Nat) :
    (s.markRegs c k rs).warp j i = s.warp j i := by
  rcases markRegs_shape s c k rs with h | ⟨D, h⟩ <;> rw [h]
  simp only [warp, cc_updCc, core_updCc]; split
  · split <;> simp_all
  · split <;> simp_all
@[simp] theorem markRegs_now (s : State) (c k : Nat) (rs : List Nat) : (s.markRegs c k rs).now = s.now := by
  simp only [now, markRegs_cur]
  rcases markRegs_shape s c k rs with h | ⟨D, h⟩ <;> rw [h]
  simp only [core_updCc]; split <;> simp_all

@[simp] theorem addResults_cur (s : State) (lat : Nat) (rs : List Pend) : (s.addResults lat rs).cur = s.cur := by
  simp [addResults]
@[simp] theorem addResults_now (s : State) (lat : Nat) (rs : List Pend) : (s.addResults lat rs).now = s.now := by
  simp [addResults]
@[simp] theorem addResults_me (s : State) (lat : Nat) (rs : List Pend) : (s.addResults lat rs).me =
    { s.me with pend := s.me.pend ++ rs.map fun p => { p with lands := s.now + lat - 1 } } := by
  simp only [addResults, updMe_me]; simp only [me, markRegs_cur, markRegs_warp]

theorem warp_dirty (s : State) (c j i : Nat) (D : List Nat → List Nat) :
    (s.updCc c fun x => { x with dirtyBlocks := D x.dirtyBlocks }).warp j i = s.warp j i := by
  simp only [warp, cc_updCc, core_updCc]; split
  · split
    · subst_vars; rfl
    · rfl
  · split
    · subst_vars; rfl
    · rfl
theorem updWarp_device (s : State) (c k : Nat) (F : Warp → Warp) :
    s.updWarp c k F = { s with cores := (s.updWarp c k F).cores } := by unfold updWarp; split <;> rfl
theorem markRegs_device (s : State) (c k : Nat) (rs : List Nat) :
    s.markRegs c k rs = { s with cores := (s.markRegs c k rs).cores } := by
  rcases markRegs_shape s c k rs with h | ⟨D, h⟩ <;> rw [h]; rfl
theorem markRegs_core (s : State) (c k j : Nat) (rs : List Nat) : (s.markRegs c k rs).core j =
    if j = c then { s.core c with cc := { s.cc c with dirtyBlocks := ((s.markRegs c k rs).cc c).dirtyBlocks } }
    else s.core j := by
  rcases markRegs_shape s c k rs with h | ⟨D, h⟩ <;> rw [h]
  · split
    · subst_vars; rfl
    · rfl
  · simp only [core_updCc, cc_updCc, if_true]

/-- The frame of an instruction whose effect is marks, a held unit, and changes of its warp. -/
theorem onlyWarp_updMe (s : State) (hold : Option (IssueUnit × Nat)) (k : Nat) (rs : List Nat) (F : Warp → Warp) :
    s.OnlyWarp hold (((s.unitHeld hold).markRegs s.cur.core k rs).updMe F) := by
  unfold updMe
  rw [markRegs_cur, unitHeld_cur]
  refine ⟨?_, ?_, ?_, ?_, ?_, ?_⟩
  · rw [updWarp_device, markRegs_device, unitHeld_device]
  · intro j hj
    rw [core_updWarp, if_neg hj, markRegs_core, if_neg hj, unitHeld_core, if_neg hj]
  · rw [core_updWarp, if_pos rfl, markRegs_core, if_pos rfl, unitHeld_core, if_pos rfl]
    split <;> rfl
  · simp only [cc, core_updWarp, if_true]
    rw [markRegs_core, if_pos rfl]
    simp only [unitHeld_cc]
    split
    · rfl
    · rfl
  · intro i hi; rw [warp_updWarp, if_neg (by simp [hi]), markRegs_warp, unitHeld_warp]
  · intro a; rw [updWarp_mem, markRegs_device, unitHeld_device]

/-- The wait of a group that can still trap (20 R363). -/
def heldBack (s : State) (nb : Option Nat) (w : Warp) : Warp :=
  match nb with
  | some n => w.updLanes s.cur.lanes fun _ x => { x with notBefore := n }
  | none => w
theorem heldBack_eq (s : State) (nb : Option Nat) (w : Warp) :
    s.heldBack nb w = { w with lanes := (s.heldBack nb w).lanes } := by
  cases nb
  · rfl
  · exact Warp.updLanes_eq ..
theorem heldBack_lane (s : State) (nb : Option Nat) (w : Warp) (l : Nat) : (s.heldBack nb w).lane l =
    if l < 32 ∧ s.cur.lanes.getLsbD l = true then { w.lane l with notBefore := nb.getD (w.lane l).notBefore }
    else w.lane l := by
  cases nb
  · simp [heldBack]
  · simp [heldBack]
theorem fallWarp_eq (s : State) (sc : BitVec 2) (w : Warp) : s.fallWarp sc w = { w with
    lanes := (s.fallWarp sc w).lanes
    uni := { w.uni with repIdx := s.repAfter.1, rep := s.repAfter.2 }
    sched := { w.sched with stallUntil := (s.waitAfter sc).1, stallAll := (s.waitAfter sc).2 } } := by
  unfold fallWarp; dsimp only; split
  · rw [Warp.updLanes_eq]
  · rfl
theorem fallWarp_lane (s : State) (sc : BitVec 2) (w : Warp) (l : Nat) : (s.fallWarp sc w).lane l =
    if l < 32 ∧ s.cur.lanes.getLsbD l = true then
      { w.lane l with pc := if s.lastRepeat then s.fallThrough else (w.lane l).pc } else w.lane l := by
  have : (s.fallWarp sc w).lane l = (if s.lastRepeat then w.updLanes s.cur.lanes fun _ l => { l with pc := s.fallThrough } else w).lane l := rfl
  rw [this]; split
  · rw [Warp.lane_updLanes]
  · simp

/-- Everything a fixed-latency instruction does, in one place: `nb` is the cycle from which the group may issue
again, where it has to wait. -/
theorem issued_fixed (s : State) (sc : BitVec 2) (hold : Option (IssueUnit × Nat)) (nb : Option Nat) (lat : Nat)
    (rs : List Pend) :
    s.Issued sc hold nb (rs.map fun p => { p with lands := s.now + lat - 1 })
      (((((s.unitHeld hold).addResults lat rs)).updMe (s.heldBack nb)).complete sc .fall) := by
  generalize hw1 : s.heldBack nb { s.me with pend := s.me.pend ++ rs.map fun p => { p with lands := s.now + lat - 1 } } = w1
  generalize ht : (((s.unitHeld hold).addResults lat rs)).updMe (s.heldBack nb) = t
  have hme : t.me = w1 := by rw [← ht, ← hw1]; simp
  have hw := heldBack_eq s nb { s.me with pend := s.me.pend ++ rs.map fun p => { p with lands := s.now + lat - 1 } }
  rw [hw1] at hw
  have hcur : t.cur = s.cur := by rw [← ht]; simp
  have hnow : t.now = s.now := by rw [← ht]; simp
  have hsame : SameSched s.me t.me := by rw [hme, hw]; exact ⟨⟨rfl, rfl⟩, rfl, rfl⟩
  rw [complete_fall s t sc hcur hnow hsame]
  have hin : s.meIn (t.updMe (s.fallWarp sc)) = s.fallWarp sc w1 := by
    rw [← hme, ← updMe_me t (s.fallWarp sc)]; simp only [meIn, me, updMe_cur, hcur]
  have hF : t.updMe (s.fallWarp sc) =
      ((s.unitHeld hold).markRegs s.cur.core s.cur.slot ((rs.filter fun p => p.file = .lane).map Pend.num)).updMe
        fun w => s.fallWarp sc (s.heldBack nb { w with pend := w.pend ++ rs.map fun p => { p with lands := s.now + lat - 1 } }) := by
    rw [← ht]; simp only [addResults, updMe_updMe, unitHeld_cur, unitHeld_now]
  refine ⟨?_, ?_, ?_, ?_, hF ▸ onlyWarp_updMe s hold _ _ _⟩
  · rw [hin, fallWarp_eq, hw]
  · intro l hl ha
    rw [hin, fallWarp_lane, if_pos ⟨hl, ha⟩, ← hw1, heldBack_lane, if_pos ⟨hl, ha⟩]; rfl
  · intro l ha
    rw [hin, fallWarp_lane, if_neg (by simp [ha]), ← hw1, heldBack_lane, if_neg (by simp [ha])]; rfl
  · intro b
    rw [hF]
    have hcc : ∀ (x : State) (F : Warp → Warp) (c : Nat), ((x.updMe F).cc c).dirtyBlocks = (x.cc c).dirtyBlocks := by
      intro x F c; simp only [updMe, cc, core_updWarp]; split
      · subst_vars; split <;> rfl
      · rfl
    rw [hcc, mem_dirty_markRegs, unitHeld_cc]
    constructor
    · rintro (h | ⟨r, hr, h1, h2⟩)
      · exact Or.inl h
      · obtain ⟨p, hp, rfl⟩ := List.mem_map.mp hr
        obtain ⟨hp, hf⟩ := List.mem_filter.mp hp
        exact Or.inr ⟨_, List.mem_map.mpr ⟨p, hp, rfl⟩, by simpa using hf, h1, h2⟩
    · rintro (h | ⟨p, hp, hf, h1, h2⟩)
      · exact Or.inl h
      · obtain ⟨q, hq, rfl⟩ := List.mem_map.mp hp
        exact Or.inr ⟨q.num, List.mem_map.mpr ⟨q, List.mem_filter.mpr ⟨hq, by simpa using hf⟩, rfl⟩, h1, h2⟩

theorem addResults_heldBack_none (s x : State) (lat : Nat) (rs : List Pend) :
    (x.addResults lat rs).updMe (s.heldBack none) = x.addResults lat rs := by
  unfold addResults; simp only [updMe_updMe]; rfl

/-! ### The shapes of a result -/

/-- An instruction whose body is one fixed-latency result of the lanes. -/
theorem gives_results {s : State} {i : Instr} {sc : BitVec 2} {body : State → Did} {lat : Nat} {rs rs' : List Pend}
    {hold : Option (IssueUnit × Nat)} (hx : exec i s = .next (s.issue i sc body))
    (hb : body s = .done ((s.unitHeld hold).addResults lat rs) .fall)
    (hr : rs' = rs.map fun p => { p with lands := s.now + lat - 1 }) : s.Gives i sc rs' hold := by
  intro h
  refine ⟨_, hx, ?_⟩
  rw [issue_done h hb, ← addResults_heldBack_none s, hr]
  exact issued_fixed s sc hold none lat rs

/-- An instruction whose body is a result that sets flags. -/
theorem gives_flags {s : State} {i : Instr} {sc : BitVec 2} {body : State → Did} {lat : Nat} {rs rs' : List Pend}
    {fl : Nat → Word} {hold : Option (IssueUnit × Nat)} (hx : exec i s = .next (s.issue i sc body))
    (hb : body s = (s.unitHeld hold).flagOp lat rs fl)
    (hr : rs' = rs.map fun p => { p with lands := s.now + lat - 1 }) : s.GivesFlags i sc lat rs' fl hold := by
  intro h
  have hor : (s.unitHeld hold).orLanes fl = (lanesOf s.cur.lanes).foldl (fun a l => a ||| fl l) 0 := by simp [orLanes]
  have hen : (s.unitHeld hold).enables = s.enables := by simp [enables]
  have hbad : (maskOf fun l => s.cur.lanes.getLsbD l && (fl l &&& s.enables) != 0#32) = 0#32 ↔
      ((lanesOf s.cur.lanes).filter fun l => fl l &&& s.enables != 0#32) = [] := by
    rw [maskOf_eq_zero, filter_lanesOf]
  dsimp only
  refine ⟨fun hn => ⟨_, hx, ?_⟩, fun hn =>
    ⟨maskOf fun l => s.cur.lanes.getLsbD l && (fl l &&& s.enables) != 0#32, ?_, ?_⟩⟩
  · have hd : body s = .done (((s.unitHeld hold).addResults lat (flagged ((lanesOf s.cur.lanes).foldl (fun a l => a ||| fl l) 0) rs)).updMe (s.heldBack (if s.enables = 0#32 then none else some (s.now + lat)))) .fall := by
      rw [hb]; unfold flagOp; dsimp only
      simp only [unitHeld_cur, hor, hen]
      rw [if_pos (hbad.mpr hn)]
      by_cases he : s.enables = 0#32
      · rw [if_pos he, if_pos he, addResults_heldBack_none]; cases rs <;> rfl
      · rw [if_neg he, if_neg he]
        cases rs <;> simp only [addResults_cur, unitHeld_cur, addResults_now, unitHeld_now] <;> rfl
    rw [issue_done h hd, hr]
    have := issued_fixed s sc hold (if s.enables = 0#32 then none else some (s.now + lat)) lat (flagged ((lanesOf s.cur.lanes).foldl (fun a l => a ||| fl l) 0) rs)
    cases rs <;> exact this
  · intro l hl
    rw [getLsbD_maskOf, List.mem_filter, mem_lanesOf]
    simp [hl]
  · have hd : body s = .trap ((s.unitHeld hold).updMe fun w => w.updUni fun u =>
          { u with fstat := u.fstat ||| (lanesOf s.cur.lanes).foldl (fun a l => a ||| fl l) 0 })
        (s.trapLane grpArith ((lanesOf s.cur.lanes).foldl (fun a l => a ||| fl l) 0 &&& s.enables).toNat
          (((lanesOf s.cur.lanes).filter fun l => fl l &&& s.enables != 0#32).headD 0)
          (maskOf fun l => s.cur.lanes.getLsbD l && (fl l &&& s.enables) != 0#32) s.cur.word) := by
      rw [hb]; unfold flagOp; dsimp only
      simp only [unitHeld_cur, hor, hen]
      rw [if_neg (fun h0 => hn (hbad.mp h0)), lanesOf_maskOf, filter_lanesOf]
      simp [trapLane, trapAt]
    rw [hx, issue_trap h hd]; rfl

/-! ### Any instruction that completes -/

/-- Where a flow sends the lanes. -/
def flowPc (s : State) : Flow → Option (Nat → Word)
  | .fall => some fun _ => s.fallThrough
  | .goto pc => some pc
  | .stay => none

/-- What completing an instruction does to its warp. -/
def doneWarp (e : State) (sc : BitVec 2) (pc : Option (Nat → Word)) (w : Warp) : Warp :=
  let w := if e.lastRepeat then match pc with
      | some f => w.updLanes e.cur.lanes fun n l => { l with pc := f n }
      | none => w
    else w
  { w with uni := { w.uni with repIdx := (e.repNext pc.isSome).1, rep := (e.repNext pc.isSome).2 }
           sched := { w.sched with stallUntil := (e.waitAfter sc).1, stallAll := (e.waitAfter sc).2 } }
theorem doneWarp_eq (e : State) (sc : BitVec 2) (pc : Option (Nat → Word)) (w : Warp) : e.doneWarp sc pc w = { w with
    lanes := (e.doneWarp sc pc w).lanes
    uni := { w.uni with repIdx := (e.repNext pc.isSome).1, rep := (e.repNext pc.isSome).2 }
    sched := { w.sched with stallUntil := (e.waitAfter sc).1, stallAll := (e.waitAfter sc).2 } } := by
  unfold doneWarp; dsimp only; split
  · split
    · rw [Warp.updLanes_eq]
    · rfl
  · rfl
theorem doneWarp_lane (e : State) (sc : BitVec 2) (pc : Option (Nat → Word)) (w : Warp) (l : Nat) :
    (e.doneWarp sc pc w).lane l = if l < 32 ∧ e.cur.lanes.getLsbD l = true then
      { w.lane l with pc := if e.lastRepeat then laneGoes pc l (w.lane l).pc else (w.lane l).pc } else w.lane l := by
  have : (e.doneWarp sc pc w).lane l = (if e.lastRepeat then match pc with
      | some f => w.updLanes e.cur.lanes fun n l => { l with pc := f n }
      | none => w
    else w).lane l := rfl
  rw [this]; split
  · cases pc
    · simp [laneGoes]
    · simp only [Warp.lane_updLanes, laneGoes]
  · simp

/-- Completing an instruction is one change of the issuing warp. -/
theorem complete_eq (e : State) (sc : BitVec 2) (f : Flow) :
    e.complete sc f = e.updMe (e.doneWarp sc (e.flowPc f)) := by
  have hst : ∀ w : Warp, w.sched = e.me.sched → (w.updSched fun x =>
      if e.cur.second then { x with stallUntil := max x.stallUntil (e.now + stallWait sc), stallAll := x.stallAll || sc = 3#2 }
      else { x with stallUntil := e.now + stallWait sc, stallAll := sc = 3#2 }) =
      w.updSched fun x => { x with stallUntil := (e.waitAfter sc).1, stallAll := (e.waitAfter sc).2 } := by
    intro w hw
    simp only [Warp.updSched, waitAfter, hw, stallWait]
    split <;> simp
  unfold complete stall
  cases hr : e.cur.rep with
  | none =>
    simp only [updMe_cur, hr]
    cases f <;> simp only [flow, updMe_updMe, updMe_fallThrough, updMe_cur, flowPc] <;> apply updMe_congr <;>
      rw [hst _ rfl] <;> simp only [doneWarp, lastRepeat, repNext, repAfter, hr, if_true, Option.isNone, Bool.or_true]
    · rw [Warp.updLanes_updSched]; simp [Warp.updSched]
    · rw [Warp.updLanes_updSched]; simp [Warp.updSched]
    · simp [Warp.updSched]
  | some p =>
    obtain ⟨n, m⟩ := p
    simp only [updMe_cur, hr, repeated, updMe_me, Warp.updSched_uni]
    cases f with
    | stay =>
      simp only [updMe_updMe]
      apply updMe_congr
      rw [hst _ rfl]
      simp [doneWarp, flowPc, repNext, hr, Warp.updSched, Warp.updUni]
    | fall =>
      by_cases hk : e.me.uni.repIdx + 1 < n
      · simp only [if_pos hk, updMe_updMe]
        apply updMe_congr
        rw [hst _ rfl]
        simp only [doneWarp, lastRepeat, repNext, repAfter, hr, if_pos hk, flowPc]
        rw [if_neg (by simp; omega)]
        simp [Warp.updSched, Warp.updUni]
      · simp only [if_neg hk, flow, updMe_updMe, updMe_fallThrough, updMe_cur, flowPc]
        apply updMe_congr
        rw [hst _ rfl]
        simp only [doneWarp, lastRepeat, repNext, repAfter, hr, if_neg hk]
        rw [if_pos (by simp; omega), Warp.updLanes_updSched]; simp [Warp.updSched, Warp.updUni]
    | goto pc =>
      by_cases hk : e.me.uni.repIdx + 1 < n
      · simp only [if_pos hk, updMe_updMe]
        apply updMe_congr
        rw [hst _ rfl]
        simp only [doneWarp, lastRepeat, repNext, repAfter, hr, if_pos hk, flowPc]
        rw [if_neg (by simp; omega)]
        simp [Warp.updSched, Warp.updUni]
      · simp only [if_neg hk, flow, updMe_updMe, updMe_cur, flowPc]
        apply updMe_congr
        rw [hst _ rfl]
        simp only [doneWarp, lastRepeat, repNext, repAfter, hr, if_neg hk]
        rw [if_pos (by simp; omega), Warp.updLanes_updSched]; simp [Warp.updSched, Warp.updUni]

/-- Everything that completing an instruction does. -/
theorem after_complete (e : State) (sc : BitVec 2) (f : Flow) : e.After sc (e.flowPc f) (e.complete sc f) := by
  rw [complete_eq]
  generalize e.flowPc f = pc
  have hin : e.meIn (e.updMe (e.doneWarp sc pc)) = e.doneWarp sc pc e.me := updMe_meIn ..
  refine ⟨?_, ?_, ?_, ?_, ?_, ?_, ?_, ?_⟩
  · unfold updMe; rw [updWarp_device]
  · intro j hj; unfold updMe; rw [core_updWarp, if_neg hj]
  · unfold updMe; rw [core_updWarp, if_pos rfl]; split <;> rfl
  · unfold updMe; simp only [cc, core_updWarp, if_true]; split <;> rfl
  · intro i hi; unfold updMe; rw [warp_updWarp, if_neg (by simp [hi])]
  · rw [hin, doneWarp_eq]
  · intro l hl ha; rw [hin, doneWarp_lane, if_pos ⟨hl, ha⟩]
  · intro l ha; rw [hin, doneWarp_lane, if_neg (by simp [ha])]

/-- An instruction whose body is done. -/
theorem does {s : State} {i : Instr} {sc : BitVec 2} {body : State → Did} {e : State} {f : Flow} {pc : Option (Nat → Word)}
    (hx : exec i s = .next (s.issue i sc body)) (hb : body s = .done e f) (hp : e.flowPc f = pc) : s.Does i sc e pc := by
  intro h
  refine ⟨_, hx, ?_⟩
  rw [issue_done h hb, ← hp]
  exact after_complete e sc f

/-- Only where the lanes of Active go counts. -/
theorem does_congr {s : State} {i : Instr} {sc : BitVec 2} {e : State} {f g : Nat → Word} (hc : e.cur = s.cur)
    (h : ∀ l < 32, s.cur.lanes.getLsbD l = true → f l = g l) (hd : s.Does i sc e (some f)) : s.Does i sc e (some g) := by
  intro hr
  obtain ⟨t, ht, a⟩ := hd hr
  refine ⟨t, ht, { a with active := ?_ }⟩
  intro l hl ha
  have := h l hl (hc ▸ ha)
  rw [a.active l hl ha]; dsimp only [laneGoes]; rw [this]

end State
end Sys2Proof.Machine
end

