-- ==== Sys2Proof/Laws/Memory.lean ====
section
/-! SUPPORT. Memory and the caches: a read after a write, the canonical form, and everything that an operation of
the memory system can change. -/

namespace Sys2Proof.Machine

/-! ### The list of bytes -/

theorem memGet_memSet (m : List Host.Cell) (x y : Nat) (b : Byte) (h : Memory.wf m = true) :
    memGet (memSet m x b) y = if y = x then b else memGet m y := by
  induction m with
  | nil =>
    simp only [memSet]
    by_cases hb : b = unlisted
    · rw [if_pos hb, hb]; simp [memGet]
    · rw [if_neg hb]; simp only [memGet, eq_comm (a := x)]
  | cons e m ih =>
    obtain ⟨a, c⟩ := e
    have hm : Memory.wf m = true := by
      cases m with
      | nil => rfl
      | cons e' m => simp only [Memory.wf, Bool.and_eq_true] at h; exact h.2
    have low : ∀ z, z ≤ a → memGet m z = unlisted := by
      clear ih
      intro z hz
      induction m generalizing a c with
      | nil => rfl
      | cons e' m ih =>
        obtain ⟨a', c'⟩ := e'
        simp only [Memory.wf, Bool.and_eq_true, decide_eq_true_eq] at h
        have hm' : Memory.wf m = true := by
          cases m with
          | nil => rfl
          | cons e' m => simp only [Memory.wf, Bool.and_eq_true] at h; exact h.2.2
        simp only [memGet]
        rw [if_neg (by omega)]
        exact ih a' c' h.2 hm' (by omega)
    simp only [memSet]
    split
    · rename_i hx
      split
      · rename_i hb
        split
        · subst_vars; simp only [memGet]; rw [if_neg (by omega)]; exact low _ (by omega)
        · rfl
      · simp only [memGet, eq_comm]
    · split
      · rename_i hx hxa
        subst hxa
        split
        · rename_i hb
          split
          · subst_vars; exact low _ (le_refl _)
          · rename_i hy; simp only [memGet]; rw [if_neg (Ne.symm hy)]
        · simp only [memGet, eq_comm]; split <;> simp_all
      · simp only [memGet, ih hm]
        split <;> split <;> simp_all

/-- Where every address of the list is above one that is put in front, the list stays canonical. -/
theorem wf_cons (a : Nat) (b : Byte) (m : List Host.Cell) (hb : b ≠ unlisted) (hm : Memory.wf m = true)
    (h : ∀ e ∈ m.head?, a < e.1) : Memory.wf ((a, b) :: m) = true := by
  cases m with
  | nil => simpa [Memory.wf] using hb
  | cons e m => obtain ⟨a', b'⟩ := e; simp at h; simp [Memory.wf, hb, h, hm]

theorem wf_tail (e : Host.Cell) (m : List Host.Cell) (h : Memory.wf (e :: m) = true) : Memory.wf m = true := by
  cases m with
  | nil => rfl
  | cons e' m => simp only [Memory.wf, Bool.and_eq_true] at h; exact h.2

theorem wf_memSet (m : List Host.Cell) (x : Nat) (y : Byte) (h : Memory.wf m = true) : Memory.wf (memSet m x y) = true := by
  have key : Memory.wf (memSet m x y) = true ∧
      ∀ e ∈ (memSet m x y).head?, e.1 = x ∨ ∃ e' ∈ m.head?, e'.1 ≤ e.1 := by
    induction m with
    | nil => simp only [memSet]; split <;> simp_all [Memory.wf]
    | cons e m ih =>
      obtain ⟨a, c⟩ := e
      have hm := wf_tail _ _ h
      have hc : c ≠ unlisted := by
        cases m with
        | nil => simpa [Memory.wf] using h
        | cons e' m => simp only [Memory.wf, Bool.and_eq_true, bne_iff_ne] at h; exact h.1.1
      have hlt : ∀ e' ∈ m.head?, a < e'.1 := by
        cases m with
        | nil => simp
        | cons e' m => simp only [Memory.wf, Bool.and_eq_true, decide_eq_true_eq] at h; simpa using h.1.2
      simp only [memSet]
      split
      · split
        · exact ⟨h, by simp⟩
        · exact ⟨wf_cons _ _ _ (by assumption) h (by simpa), by simp⟩
      · split
        · rename_i hx; subst hx
          split
          · refine ⟨hm, ?_⟩
            intro e' he'; right; exact ⟨(x, c), by simp, (hlt e' he').le⟩
          · exact ⟨wf_cons _ _ _ (by assumption) hm hlt, by simp⟩
        · obtain ⟨i1, i2⟩ := ih hm
          refine ⟨wf_cons _ _ _ hc i1 ?_, by simp⟩
          intro e' he'
          rcases i2 e' he' with h' | ⟨e'', h1, h2⟩
          · omega
          · have := hlt e'' h1; omega
  exact key.1

theorem wf_memSets (m : List Host.Cell) (a : Nat) (bs : List Byte) (h : Memory.wf m = true) :
    Memory.wf (memSets m a bs) = true := by
  induction bs generalizing m a with
  | nil => exact h
  | cons b bs ih => exact ih _ _ (wf_memSet _ _ _ h)

theorem memGet_memSets (m : List Host.Cell) (a y : Nat) (bs : List Byte) (h : Memory.wf m = true) :
    memGet (memSets m a bs) y = if a ≤ y ∧ y < a + bs.length then bs.getD (y - a) 0 else memGet m y := by
  induction bs generalizing m a with
  | nil => simp only [memSets, List.length_nil]; rw [if_neg (by omega)]
  | cons b bs ih =>
    simp only [memSets, List.length_cons]
    rw [ih _ _ (wf_memSet _ _ _ h), memGet_memSet _ _ _ _ h]
    by_cases h1 : y = a
    · subst h1; rw [if_neg (by omega), if_pos rfl, if_pos (by omega)]; simp
    · by_cases h2 : a + 1 ≤ y ∧ y < a + 1 + bs.length
      · rw [if_pos h2, if_pos (by omega), show y - a = (y - (a + 1)) + 1 by omega]; simp
      · rw [if_neg h2, if_neg h1, if_neg (by omega)]

/-- What memory holds above an address is canonical too. -/
theorem wf_filter (m : List Host.Cell) (p : Host.Cell → Bool) (h : Memory.wf m = true) : Memory.wf (m.filter p) = true := by
  have key : Memory.wf (m.filter p) = true ∧ ∀ e ∈ (m.filter p).head?, ∃ e' ∈ m.head?, e'.1 ≤ e.1 := by
    induction m with
    | nil => simp [Memory.wf]
    | cons e m ih =>
      obtain ⟨a, c⟩ := e
      obtain ⟨i1, i2⟩ := ih (wf_tail _ _ h)
      have hlt : ∀ e' ∈ m.head?, a < e'.1 := by
        cases m with
        | nil => simp
        | cons e' m => simp only [Memory.wf, Bool.and_eq_true, decide_eq_true_eq] at h; simpa using h.1.2
      have hc : c ≠ unlisted := by
        cases m with
        | nil => simpa [Memory.wf] using h
        | cons e' m => simp only [Memory.wf, Bool.and_eq_true, bne_iff_ne] at h; exact h.1.1
      rw [List.filter_cons]
      split
      · refine ⟨wf_cons _ _ _ hc i1 ?_, by simp⟩
        intro e' he'; obtain ⟨e'', h1, h2⟩ := i2 e' he'; have := hlt e'' h1; omega
      · refine ⟨i1, ?_⟩
        intro e' he'; obtain ⟨e'', h1, h2⟩ := i2 e' he'; have := hlt e'' h1
        exact ⟨(a, c), by simp, by simp; omega⟩
  exact key.1

namespace State

/-- Everything that an operation of the memory system can change: memory, the cache lines, an almanac's marks and
pages, deadlines of lines, cached translations of a core, damage that it meets, write-backs that it leaves with a home,
event and capture counters, and what is posted and held. Memory keeps its form; a request that stands stays as it is. -/
structure MemStep (s t : State) : Prop where
  device : t = { s with
    mem := t.mem, cores := t.cores, dies := t.dies, ctxs := t.ctxs, l1 := t.l1, l2 := t.l2, agenda := t.agenda
    damage := t.damage, reqs := t.reqs, nextReq := t.nextReq, held := t.held, snoops := t.snoops, free := t.free
    blocked := t.blocked }
  core : ∀ c, t.core c = { s.core c with timers := (t.core c).timers, tlb := (t.core c).tlb, evcnt := (t.core c).evcnt }
  die : ∀ d, t.die d = { s.die d with evcnt := (t.die d).evcnt }
  ctx : ∀ h, t.ctx h = { s.ctx h with alm := (t.ctx h).alm, cap := (t.ctx h).cap }
  nextReq : s.nextReq ≤ t.nextReq
  req : ∀ i, i < s.nextReq → t.reqs.find i = s.reqs.find i
  wf : s.memWf → t.memWf

namespace MemStep
theorem refl (s : State) : MemStep s s := ⟨rfl, fun _ => rfl, fun _ => rfl, fun _ => rfl, le_rfl, fun _ _ => rfl, id⟩
theorem trans {s t u : State} (h : MemStep s t) (g : MemStep t u) : MemStep s u := by
  refine ⟨?_, ?_, ?_, ?_, h.nextReq.trans g.nextReq, ?_, fun w => g.wf (h.wf w)⟩
  · rw [g.device, h.device]
  · intro c; rw [g.core, h.core]
  · intro d; rw [g.die, h.die]
  · intro c; rw [g.ctx, h.ctx]
  · intro i hi; rw [g.req i (hi.trans_le h.nextReq), h.req i hi]
theorem foldl {α : Type} (f : State → α → State) (l : List α) (H : ∀ s x, MemStep s (f s x)) (s : State) :
    MemStep s (l.foldl f s) := by
  induction l generalizing s with
  | nil => exact refl s
  | cons a l ih => exact (H s a).trans (ih _)
/-- The same for a fold that also builds a value. -/
theorem foldlFst {α β : Type} (f : State × β → α → State × β) (l : List α) (H : ∀ x a, MemStep x.1 (f x a).1) (x : State × β) :
    MemStep x.1 (l.foldl f x).1 := by
  induction l generalizing x with
  | nil => exact refl _
  | cons a l ih => exact (H x a).trans (ih _)
theorem cur {s t : State} (h : MemStep s t) : t.cur = s.cur := by rw [h.device]
theorem io {s t : State} (h : MemStep s t) : t.io = s.io := by rw [h.device]
theorem boot {s t : State} (h : MemStep s t) : t.boot = s.boot := by rw [h.device]
theorem cc {s t : State} (h : MemStep s t) (c : Nat) : t.cc c = s.cc c := by rw [State.cc, h.core c]; rfl
theorem warp {s t : State} (h : MemStep s t) (c k : Nat) : t.warp c k = s.warp c k := by
  rw [State.warp, h.cc, h.core c]; rfl
theorem me {s t : State} (h : MemStep s t) : t.me = s.me := by simp only [State.me, h.cur, h.warp]
theorem now {s t : State} (h : MemStep s t) : t.now = s.now := by rw [State.now, h.cur, h.core]; rfl
theorem fallThrough {s t : State} (h : MemStep s t) : t.fallThrough = s.fallThrough := by simp only [State.fallThrough, h.cur]
theorem ite {s a b : State} {p : Prop} [Decidable p] (h : MemStep s a) (g : MemStep s b) : MemStep s (if p then a else b) := by
  split <;> assumption
/-- Changes of the plain fields that an operation of the memory system may change. -/
theorem of_fields {s t : State}
    (h : t = { s with l1 := t.l1, l2 := t.l2, agenda := t.agenda, damage := t.damage, held := t.held, snoops := t.snoops, free := t.free, blocked := t.blocked }) :
    MemStep s t := by rw [h]; exact ⟨rfl, fun _ => rfl, fun _ => rfl, fun _ => rfl, le_rfl, fun _ _ => rfl, id⟩
theorem of_alm (s : State) (h : Nat) (f : Almanac → Almanac) : MemStep s (s.updAlm h f) := by
  refine ⟨rfl, fun _ => rfl, fun _ => rfl, ?_, le_rfl, fun _ _ => rfl, id⟩
  intro k; simp only [updAlm, updCtx, State.ctx, Map.get_upd]; split
  · subst_vars; rfl
  · rfl
theorem of_cap (s : State) (h : Nat) (f : Context → Context) (hf : ∀ x, f x = { x with cap := (f x).cap }) :
    MemStep s (s.updCtx h f) := by
  refine ⟨rfl, fun _ => rfl, fun _ => rfl, ?_, le_rfl, fun _ _ => rfl, id⟩
  intro k; simp only [updCtx, State.ctx, Map.get_upd]; split
  · subst_vars; rw [hf]
  · rfl
/-- A change of a core's timers, cached translations and event counters. -/
theorem of_core (s : State) (c : Nat) (f : Core → Core)
    (hf : ∀ x, f x = { x with timers := (f x).timers, tlb := (f x).tlb, evcnt := (f x).evcnt }) :
    MemStep s (s.updCore c f) := by
  refine ⟨rfl, ?_, fun _ => rfl, fun _ => rfl, le_rfl, fun _ _ => rfl, id⟩
  intro k; rw [core_updCore]; split
  · subst_vars; exact hf _
  · rfl
end MemStep

theorem post_memStep (s : State) (e : Instr) : MemStep s (s.post e) := .of_fields rfl
theorem postAll_memStep (s : State) (es : List Instr) : MemStep s (s.postAll es) := .of_fields rfl
theorem fresh_memStep (s : State) : MemStep s s.fresh.2 := .of_fields rfl
theorem postAfter_memStep (s : State) (c n : Nat) (e : Instr) : MemStep s (s.postAfter c n e) := by
  unfold postAfter; split
  · exact post_memStep s e
  · exact .of_core _ _ _ fun _ => rfl
theorem setMemBytes_memStep (s : State) (a : Nat) (bs : List Byte) : MemStep s (s.setMemBytes a bs) :=
  ⟨rfl, fun _ => rfl, fun _ => rfl, fun _ => rfl, le_rfl, fun _ _ => rfl, wf_memSets _ _ _⟩
theorem writeLine_memStep (s : State) (kid line : Nat) (m : BitVec 32) (d : BitVec 1024) :
    MemStep s (s.writeLine kid line m d) := by
  unfold writeLine; dsimp only; split
  · exact .refl s
  · generalize s.setMemBytes _ _ = t, setMemBytes_memStep s _ _ = h
    exact .ite h (h.trans (.of_fields rfl))
theorem writeBack_memStep (s : State) (key line : Nat) (l : Line) : MemStep s (s.writeBack key line l) := by
  unfold writeBack; split
  · exact .of_fields rfl
  · exact writeLine_memStep ..
theorem countDie_memStep (s : State) (d n : Nat) : MemStep s (s.countDie d n) := by
  unfold countDie; dsimp only; split
  · exact .refl s
  · refine ⟨rfl, fun _ => rfl, ?_, fun _ => rfl, le_rfl, fun _ _ => rfl, id⟩
    intro k; simp only [updDie, State.die, Map.get_upd]; split
    · subst_vars; rfl
    · rfl
theorem countEv_memStep (s : State) (c src n : Nat) : MemStep s (s.countEv c src n) := by
  unfold countEv; dsimp only
  generalize hx : (if (s.core c).evsel.isEmpty = true then s else s.updCore c _) = t
  have ht : MemStep s t := by rw [← hx]; exact .ite (.refl s) (.of_core _ _ _ fun _ => rfl)
  split
  · exact ht
  · exact ht.trans (.of_cap _ _ _ fun _ => rfl)
theorem l2Clean_memStep (s : State) (d line : Nat) : MemStep s (s.l2Clean d line) := by
  unfold l2Clean; split
  · exact (writeBack_memStep ..).trans (.of_fields rfl)
  · exact .refl s
theorem l2Drop_memStep (s : State) (d line : Nat) : MemStep s (s.l2Drop d line) :=
  (l2Clean_memStep ..).trans (.of_fields rfl)
theorem l2Put_memStep (s : State) (d line : Nat) (l : Line) : MemStep s (s.l2Put d line l) := by
  unfold l2Put; dsimp only
  refine MemStep.trans ?_ (MemStep.of_fields rfl)
  exact MemStep.ite (.refl s) (MemStep.ite (.refl s) ((fresh_memStep s).trans (l2Drop_memStep ..)))
theorem l2Line_memStep (s : State) (d kid line : Nat) (need : BitVec 32) : MemStep s (s.l2Line d kid line need).1 := by
  unfold l2Line; dsimp only
  refine MemStep.trans (MemStep.trans ?_ (countDie_memStep ..)) (l2Put_memStep ..)
  split
  · split
    · exact .refl s
    · exact writeBack_memStep ..
  · exact .refl s
theorem hostOwn_memStep (s : State) (d pa : Nat) (w : Bool) : MemStep s (s.hostOwn d pa w) := by
  unfold hostOwn; split
  · exact .refl s
  · refine MemStep.foldl _ _ ?_ s
    intro s e; split
    · exact .refl s
    · split
      · exact l2Drop_memStep ..
      · exact l2Clean_memStep ..
theorem homeRead_memStep (s : State) (r pa kid cache n : Nat) : MemStep s (s.homeRead r pa kid cache n).1 := by
  unfold homeRead; dsimp only; split
  · exact hostOwn_memStep ..
  · exact (hostOwn_memStep ..).trans (l2Line_memStep ..)
theorem invalidateCopies_memStep (s : State) (w line : Nat) : MemStep s (s.invalidateCopies w line) := .of_fields rfl
theorem flushL2Range_memStep (s : State) (lo hi : Nat) : MemStep s (s.flushL2Range lo hi) := by
  unfold flushL2Range
  refine MemStep.foldl _ _ ?_ s
  intro s e; dsimp only; split
  · exact (writeBack_memStep ..).trans (.of_fields rfl)
  · exact .refl s
theorem snapshot_memStep (s : State) (lo hi : Nat) : MemStep s (s.snapshot lo hi).1 := flushL2Range_memStep ..
theorem stagePage_memStep (s : State) (h k : Nat) : MemStep s (s.stagePage h k) := by
  unfold stagePage; dsimp only
  exact (snapshot_memStep ..).trans (.of_alm ..)
theorem stageFor_memStep (s : State) (pa : Nat) : MemStep s (s.stageFor pa) := by
  unfold stageFor
  refine MemStep.foldl _ _ ?_ s
  intro s h; split
  · dsimp only
    split
    · exact (MemStep.ite (stagePage_memStep ..) (.refl s)).trans (stagePage_memStep ..)
    · exact MemStep.ite (stagePage_memStep ..) (.refl s)
  · exact .refl s
theorem keepPage_memStep (s : State) (h k : Nat) : MemStep s (s.keepPage h k) := by
  unfold keepPage; dsimp only; split
  · exact .refl s
  · exact (snapshot_memStep ..).trans (.of_alm ..)
theorem markPage_memStep (s : State) (h pa : Nat) : MemStep s (s.markPage h pa) := by
  unfold markPage; split
  · exact .refl s
  · exact .of_alm ..
theorem markCtrPage_memStep (s : State) (h pa : Nat) : MemStep s (s.markCtrPage h pa) := by
  unfold markCtrPage; split
  · exact .refl s
  · exact .of_alm ..
theorem wakeMonitors_memStep (s : State) (pa : Nat) : MemStep s (s.wakeMonitors pa) :=
  MemStep.ite (post_memStep ..) (.refl s)
theorem homePut_memStep (s : State) (r w h pa kid cache : Nat) (bs : List Byte) :
    MemStep s (s.homePut r w h pa kid cache bs) := by
  have h1 : MemStep s ((((s.stageFor pa).hostOwn (homeDie pa r) pa true).invalidateCopies w (lineOf pa)).wakeMonitors pa) :=
    (stageFor_memStep ..).trans ((hostOwn_memStep ..).trans ((invalidateCopies_memStep ..).trans (wakeMonitors_memStep ..)))
  unfold homePut; dsimp only; split
  · exact h1.trans (writeLine_memStep ..)
  · exact h1.trans ((l2Line_memStep ..).trans (l2Put_memStep ..))
theorem targetRead_memStep (s : State) (d pa n : Nat) : MemStep s (s.targetRead d pa n).1 := by
  unfold targetRead; exact l2Drop_memStep ..
theorem targetWrite_memStep (s : State) (d pa : Nat) (bs : List Byte) : MemStep s (s.targetWrite d pa bs) := by
  unfold targetWrite; dsimp only; exact (l2Drop_memStep ..).trans (writeLine_memStep ..)
theorem homeWrite_memStep (s : State) (r w h pa kid cache : Nat) (bs : List Byte) :
    MemStep s (s.homeWrite r w h pa kid cache bs) := by
  unfold homeWrite; dsimp only
  exact (MemStep.ite (keepPage_memStep ..) (.refl s)).trans ((homePut_memStep ..).trans (markPage_memStep ..))
theorem snoop_memStep (s : State) (k : Nat) (b : Bool) : MemStep s (s.snoop k b) :=
  MemStep.ite (.of_fields rfl) (.refl s)
theorem hold_memStep (s : State) (k : Nat) (b : Bool) (e : Instr) : MemStep s (s.hold k b e) := by
  unfold hold; dsimp only
  refine MemStep.trans ?_ (snoop_memStep ..)
  exact ((MemStep.ite (.refl s) (countDie_memStep ..)).trans (postAll_memStep ..)).trans (.of_fields rfl)
/-- Setting down a new request. -/
theorem newReq_memStep (s : State) (q : MemReq) : MemStep s { s with nextReq := s.nextReq + 1, reqs := s.reqs.set s.nextReq q } := by
  refine ⟨rfl, fun _ => rfl, fun _ => rfl, fun _ => rfl, Nat.le_succ _, ?_, id⟩
  intro i hi; exact (Map.find_set ..).trans (if_neg (by omega))
theorem lateWriteBack_memStep (s : State) (c line : Nat) (l : Line) : MemStep s (s.lateWriteBack c line l) :=
  (newReq_memStep ..).trans (hold_memStep ..)
theorem l1WriteBack_memStep (s : State) (c line : Nat) : MemStep s (s.l1WriteBack c line) := by
  unfold l1WriteBack; dsimp only; split
  · exact .refl s
  · split
    · exact .refl s
    · refine MemStep.trans ?_ (MemStep.of_fields rfl)
      exact MemStep.ite (.of_fields rfl) (MemStep.ite (lateWriteBack_memStep ..)
        (MemStep.foldl _ _ (fun s w => homeWrite_memStep ..) s))
theorem l1Drop_memStep (s : State) (c line : Nat) : MemStep s (s.l1Drop c line) :=
  (l1WriteBack_memStep ..).trans (.of_fields rfl)
theorem l1Put_memStep (s : State) (c line : Nat) (l : Line) : MemStep s (s.l1Put c line l) := by
  unfold l1Put; dsimp only
  refine MemStep.trans ?_ (MemStep.of_fields rfl)
  exact MemStep.ite (.refl s) (MemStep.ite (.refl s) ((fresh_memStep s).trans (l1Drop_memStep ..)))
theorem l1Line_memStep (s : State) (c kid line : Nat) (ro : Bool) : MemStep s (s.l1Line c kid line ro).1 := by
  unfold l1Line; dsimp only; split
  · split
    · exact l1Drop_memStep ..
    · split
      · exact .of_fields rfl
      · exact .refl s
  · exact .refl s
theorem l1Fill_memStep (s : State) (c line : Nat) (l : Line) (need : BitVec 32) : MemStep s (s.l1Fill c line l need).1 := by
  unfold l1Fill; dsimp only
  have h (b b' : Prop) [Decidable b] [Decidable b'] (k : Nat) :
      MemStep s (if b' then (if b then s else s.countEv c 0x07 1) else (if b then s else s.countEv c 0x07 1).countEv c 0x08 k) :=
    have h1 := MemStep.ite (p := b) (.refl s) (countEv_memStep s c 0x07 1)
    MemStep.ite h1 (h1.trans (countEv_memStep ..))
  split
  · exact h ..
  · exact (h ..).trans (MemStep.foldlFst (β := Line) _ _ (fun x a => homeRead_memStep ..) (_, l))
theorem coreRead_memStep (s : State) (c pa kid cache : Nat) (ro : Bool) (n : Nat) :
    MemStep s (s.coreRead c pa kid cache ro n).1 := by
  unfold coreRead; split
  · exact homeRead_memStep ..
  · exact (l1Line_memStep ..).trans ((l1Fill_memStep ..).trans (l1Put_memStep ..))
theorem coreWrite_memStep (s : State) (c h pa kid cache : Nat) (bs : List Byte) :
    MemStep s (s.coreWrite c h pa kid cache bs) := by
  unfold coreWrite; split
  · exact homeWrite_memStep ..
  · dsimp only
    exact (l1Line_memStep s c kid (lineOf pa) false).trans ((l1Fill_memStep ..).trans
      ((MemStep.ite (postAfter_memStep ..) (.refl _)).trans (l1Put_memStep ..)))
theorem l1WriteBackAll_memStep (s : State) (c : Nat) : MemStep s (s.l1WriteBackAll c) :=
  MemStep.foldl _ _ (fun _ _ => l1WriteBack_memStep ..) s
theorem l1Acquire_memStep (s : State) (c : Nat) : MemStep s (s.l1Acquire c) := .of_fields rfl
theorem l1DropAll_memStep (s : State) (c : Nat) : MemStep s (s.l1DropAll c) :=
  MemStep.foldl _ _ (fun _ _ => l1Drop_memStep ..) s
theorem releaseAt_memStep (s : State) (c k : Nat) : MemStep s (s.releaseAt c k) := by
  unfold releaseAt; split
  · exact .refl s
  · exact l1WriteBackAll_memStep ..
theorem acquireAt_memStep (s : State) (c k : Nat) : MemStep s (s.acquireAt c k) := by
  unfold acquireAt; split
  · exact .refl s
  · exact l1Acquire_memStep ..
theorem dropKid_memStep (s : State) (kid : Nat) : MemStep s (s.dropKid kid) := by
  unfold dropKid; dsimp only
  refine MemStep.trans (MemStep.foldl _ s.l1 ?_ s) (MemStep.foldl _ _ ?_ _)
  · intro s e; split
    · exact l1Drop_memStep ..
    · exact .refl s
  · intro s e; split
    · exact l2Drop_memStep ..
    · exact .refl s
theorem meet_memStep (s : State) (w : Bool) (k : Option Nat) : MemStep s (s.meet w k) := by
  unfold meet; split
  · exact MemStep.ite (.refl s) (.of_fields rfl)
  · exact .refl s
theorem physRead_memStep (s : State) (d kid pa n : Nat) : MemStep s (s.physRead d kid pa n).1 := by
  refine MemStep.foldlFst (β := List Byte) _ _ (fun x a => ?_) (s, [])
  exact (meet_memStep x.1 false _).trans (homeRead_memStep ..)
theorem physWrite_memStep (s : State) (d h kid pa : Nat) (bs : List Byte) : MemStep s (s.physWrite d h kid pa bs) :=
  MemStep.foldl _ _ (fun s _ => (meet_memStep s true _).trans (homeWrite_memStep ..)) s
theorem noteWalk_memStep (s : State) (d h : Nat) (va : DWord) : MemStep s (s.noteWalk d h va) := by
  unfold noteWalk; split
  · exact .refl s
  · exact post_memStep ..
theorem coreTlbPut_memStep (s : State) (c h vpn : Nat) (t : TlbEntry) : MemStep s (s.coreTlbPut c h vpn t) := by
  unfold coreTlbPut; dsimp only; split
  · exact .of_core _ _ _ fun _ => rfl
  · exact (fresh_memStep s).trans (.of_core _ _ _ fun _ => rfl)
theorem coreWalk_memStep (s : State) (c h : Nat) (va : DWord) : MemStep s (s.coreWalk c h va) := by
  unfold coreWalk; dsimp only; split
  · exact .refl s
  · split
    · exact (countEv_memStep ..).trans (coreTlbPut_memStep ..)
    · exact (countEv_memStep ..).trans (noteWalk_memStep ..)

end State
end Sys2Proof.Machine
end

