-- ==== Sys2Proof/Laws/Requests.lean ====
section
/-! SUPPORT. Memory requests: what the checks of an instruction's lanes answer, what asking for accesses does, and
what serving a request of one access does. -/

namespace Sys2Proof.Machine.State

/-- Every lane passes. -/
theorem laneAccesses_ok (s : State) (F : Nat → Except AccFail Access) (g : Nat → Access)
    (h : ∀ l ∈ lanesOf s.cur.lanes, F l = .ok (g l)) : s.laneAccesses F = .ok ((lanesOf s.cur.lanes).map g) := by
  unfold laneAccesses
  generalize lanesOf s.cur.lanes = ls at h
  induction ls with
  | nil => rfl
  | cons a ls ih =>
    rw [List.foldr_cons, h a (by simp), ih fun l hl => h l (by simp [hl])]; rfl

/-- The lowest failing lane is reported. -/
theorem laneAccesses_error (s : State) (F : Nat → Except AccFail Access) (l : Nat) (f : AccFail)
    (hl : l ∈ lanesOf s.cur.lanes) (hf : F l = .error f) (h : ∀ j ∈ lanesOf s.cur.lanes, j < l → ∃ a, F j = .ok a) :
    s.laneAccesses F = .error (l, f) := by
  unfold laneAccesses
  have hs : (lanesOf s.cur.lanes).Pairwise (· < ·) := List.Pairwise.filter _ List.pairwise_lt_range
  generalize lanesOf s.cur.lanes = ls at hl h hs
  induction ls with
  | nil => simp at hl
  | cons a ls ih =>
    rw [List.foldr_cons]
    rcases List.mem_cons.mp hl with rfl | hl'
    · rw [hf]
    · obtain ⟨x, hx⟩ := h a (by simp) ((List.pairwise_cons.mp hs).1 l hl')
      rw [hx, ih hl' (fun j hj hjl => h j (by simp [hj]) hjl) (List.pairwise_cons.mp hs).2]

theorem accDo_ok {s : State} {as : List Access} {f : State → List Access → Did} : s.accDo (.ok as) f = f s as := rfl
theorem accDo_error {s : State} {l : Nat} {e : AccFail} {f : State → List Access → Did} :
    s.accDo (.error (l, e)) f = .trap s (s.accTrap l e) := rfl
theorem noteWalks_memStep (s : State) (vas : List DWord) : MemStep s (s.noteWalks vas) :=
  MemStep.foldl _ _ (fun _ _ => coreWalk_memStep ..) s

/-- Where no walk has to wait, an instruction goes on, its walks noted. -/
theorem walked_eq {s : State} {vas : List DWord} {f : State → Did}
    (h : ∀ va ∈ vas, s.coreWalkHold s.cur.core s.myCtx va = none) : s.walked vas f = f (s.noteWalks vas) := by
  unfold walked
  rw [if_neg]
  simp only [List.any_eq_true, not_exists, not_and]
  intro va hva
  rw [h va hva]; simp
/-- Where one has to wait, nothing happens. -/
theorem walked_wait {s : State} {vas : List DWord} {f : State → Did} {va : DWord} {k : Nat} (hv : va ∈ vas)
    (h : s.coreWalkHold s.cur.core s.myCtx va = some k) : s.walked vas f = .wait s := by
  unfold walked
  rw [if_pos]
  simp only [List.any_eq_true]
  exact ⟨va, hv, by rw [h]; rfl⟩

/-- Marking registers as waiting. -/
theorem addVar_eq (s : State) (file : RegFile) (num n : Nat) (lanes : Mask) (r : Nat) :
    s.addVar file num n lanes r = if file = .lane ∧ num = 122 then s else
      s.updMe fun w => { w with var := w.var ++ (List.range n).map fun j => ⟨file, num + j, lanes, r⟩ } := by
  unfold addVar
  by_cases h : file = .lane ∧ num = 122
  · obtain ⟨rfl, rfl⟩ := h; simp
  · rw [if_neg h, if_neg]; simp; intro h1 _ h2; exact h ⟨h1, h2⟩

/-- What the running warp's core and warp are after an update of the issuing warp, and that nothing outside it moves. -/
theorem updMe_device (s : State) (f : Warp → Warp) : s.updMe f = { s with cores := (s.updMe f).cores } := by
  unfold updMe; rw [updWarp_device]
theorem updMe_otherCore (s : State) (f : Warp → Warp) (c : Nat) (h : c ≠ s.cur.core) : (s.updMe f).core c = s.core c := by
  unfold updMe; rw [core_updWarp, if_neg h]
theorem updMe_otherWarp (s : State) (f : Warp → Warp) (k : Nat) (h : k ≠ s.cur.slot) :
    (s.updMe f).warp s.cur.core k = s.warp s.cur.core k := by
  unfold updMe; rw [warp_updWarp, if_neg (by simp [h])]

/-- A change of a core's context that keeps its warps changes no warp. -/
theorem warp_updCc (s : State) (c j i : Nat) (f : CoreCtx → CoreCtx) (h : ∀ x, (f x).warps = x.warps) :
    (s.updCc c f).warp j i = s.warp j i := by
  simp only [warp, cc_updCc, core_updCc]; split
  · split
    · subst_vars; rfl
    · rfl
  · split
    · subst_vars; rw [h]
    · rfl
theorem me_updCc (s : State) (c : Nat) (f : CoreCtx → CoreCtx) (h : ∀ x, (f x).warps = x.warps) : (s.updCc c f).me = s.me := by
  unfold me; rw [updCc_cur, warp_updCc _ _ _ _ _ h]

/-- An update of a warp changes nothing else of a core's context. -/
theorem updWarp_cc (s : State) (c k : Nat) (F : Warp → Warp) (d : Nat) :
    (s.updWarp c k F).cc d = { s.cc d with warps := ((s.updWarp c k F).cc d).warps } := by
  unfold updWarp
  by_cases h : d = c
  · subst h; split
    · simp only [cc, core_updCore, if_true]
    · simp only [cc_updCc, if_true]
  · split
    · simp only [cc, core_updCore, if_neg h]
    · simp only [cc_updCc, if_neg h]
theorem updMe_cc (s : State) (F : Warp → Warp) (d : Nat) :
    (s.updMe F).cc d = { s.cc d with warps := ((s.updMe F).cc d).warps } := updWarp_cc ..

end Sys2Proof.Machine.State
end

