-- ==== Sys2Proof/Laws/Agents.lean ====
section
/-! SUPPORT. What agents' adds and records leave alone: the running instruction, whatever counters, waiters and areas
they touch. -/

namespace Sys2Proof.Machine.State

/-- A fold keeps the running instruction where each step does. -/
theorem foldl_cur {α : Type} (f : State → α → State) (l : List α) (H : ∀ s x, (f s x).cur = s.cur) (s : State) :
    (l.foldl f s).cur = s.cur := by
  induction l generalizing s with
  | nil => rfl
  | cons a l ih => rw [List.foldl_cons, ih, H]

@[simp] theorem countDie_cur (s : State) (d n : Nat) : (s.countDie d n).cur = s.cur := (countDie_memStep ..).cur
@[simp] theorem snoop_cur (s : State) (k : Nat) (b : Bool) : (s.snoop k b).cur = s.cur := (snoop_memStep ..).cur
@[simp] theorem hold_cur (s : State) (k : Nat) (b : Bool) (e : Instr) : (s.hold k b e).cur = s.cur := (hold_memStep ..).cur
@[simp] theorem finishWait_cur (s : State) (c k : Nat) (w : WaitCond) : (s.finishWait c k w).cur = s.cur := by
  unfold finishWait; dsimp only; rw [(acquireAt_memStep ..).cur, updWarp_cur]
@[simp] theorem wakeWith_cur (s : State) (c k : Nat) (v : DWord) : (s.wakeWith c k v).cur = s.cur := by
  unfold wakeWith; split
  · rfl
  · split
    · rfl
    · split
      · split
        · exact finishWait_cur ..
        · rfl
      · rfl
@[simp] theorem setWaiterList_cur (s : State) (d : Nat) (l : List Waiter) (h : CtrHome) :
    (s.setWaiterList d l h).cur = s.cur := by cases h <;> rfl
@[simp] theorem ctrNotify_cur (s : State) (d : Nat) (h : CtrHome) (v : DWord) : (s.ctrNotify d h v).cur = s.cur := by
  unfold ctrNotify; dsimp only
  rw [postAll_cur]
  refine (foldl_cur _ _ (fun _ _ => wakeWith_cur ..) _).trans ?_
  split <;> simp
@[simp] theorem ctrWrite_cur (s : State) (d h : Nat) (v : DWord) (x : CtrHome) : (s.ctrWrite d h v x).cur = s.cur := by
  cases x with
  | file c n => rfl
  | mem pa kid =>
    unfold ctrWrite; dsimp only
    split
    · exact (targetWrite_memStep ..).cur
    · rw [(markCtrPage_memStep ..).cur, (homePut_memStep ..).cur]
      split
      · exact (keepPage_memStep ..).cur
      · rfl
theorem ctrAdd_cur {s t : State} {d h : Nat} {home : CtrHome} {inc old : DWord} (e : s.ctrAdd d h home inc = some (old, t)) :
    t.cur = s.cur := by
  unfold ctrAdd at e; dsimp only at e
  split at e
  · cases e
  · injection e with e; injection e with _ e; rw [← e]; simp
theorem makeAdd_cur (s : State) (d h : Nat) (what : AgentAdd) (name : CounterName) (home : CtrHome) (inc : DWord) (scope : Nat)
    (fail : State → State) (hf : (fail s).cur = s.cur) : (s.makeAdd d h what name home inc scope fail).cur = s.cur := by
  unfold makeAdd
  split
  · rw [hold_cur]; rfl
  · split
    · rename_i e; exact ctrAdd_cur e
    · exact hf
@[simp] theorem noteAdd_cur (s : State) (d h : Nat) (va : DWord) (inc : Word) : (s.noteAdd d h va inc).cur = s.cur := by
  unfold noteAdd; split
  · rfl
  · split
    · exact makeAdd_cur _ _ _ _ _ _ _ _ _ rfl
    · rfl
/-- A write by virtual address is a step of the memory system. -/
theorem vaWrite_memStep {s t : State} {d h kind : Nat} {va : DWord} {bs : List Byte} (e : s.vaWrite d h kind va bs = .ok t) :
    MemStep s t := by
  unfold vaWrite at e; dsimp only at e
  generalize List.mapM (m := Except AccFail) _ _ = r at e
  cases r with
  | error f => cases e
  | ok cs =>
    injection e with e; rw [← e]
    exact MemStep.foldl _ _ (fun s _ => (meet_memStep s true _).trans ((noteWalk_memStep ..).trans (physWrite_memStep ..))) s
@[simp] theorem lsaWrite_cur (s : State) (d h : Nat) (rec : BitVec 128) : (s.lsaWrite d h rec).cur = s.cur := by
  unfold lsaWrite; dsimp only; split
  · rfl
  · split
    · rename_i e; exact (vaWrite_memStep e).cur
    · rfl
@[simp] theorem refusal_cur (s : State) (d h code : Nat) (a : DWord) : (s.refusal d h code a).cur = s.cur := by
  unfold refusal; simp
@[simp] theorem faultRecord_cur (s : State) (h code core slot : Nat) (x : BitVec 96) :
    (s.faultRecord h code core slot x).cur = s.cur := by unfold faultRecord; simp
@[simp] theorem setNerr_cur (s : State) (core h k cause : Nat) : (s.setNerr core h k cause).cur = s.cur := by
  unfold setNerr; split
  · rfl
  · simp
@[simp] theorem agentAddFails_cur (s : State) (core h : Nat) (what : AgentAdd) (n : CounterName) (inc : Word) :
    (s.agentAddFails core h what n inc).cur = s.cur := by
  unfold agentAddFails
  cases what <;> dsimp only <;> first | rfl | simp
@[simp] theorem agentAdd_cur (s : State) (core h : Nat) (what : AgentAdd) (va : DWord) (inc : Word) (scope : Nat) :
    (s.agentAdd core h what va inc scope).cur = s.cur := by
  unfold agentAdd agentAddBig; dsimp only
  split
  · exact makeAdd_cur _ _ _ _ _ _ _ _ _ (agentAddFails_cur ..)
  · exact agentAddFails_cur ..
@[simp] theorem agentAddNum_cur (s : State) (core h team : Nat) (what : AgentAdd) (role n : Nat) (inc : Word) (scope : Nat) :
    (s.agentAddNum core h team what role n inc scope).cur = s.cur := by
  unfold agentAddNum; dsimp only
  split
  · exact makeAdd_cur _ _ _ _ _ _ _ _ _ (agentAddFails_cur ..)
  · exact agentAddFails_cur ..

end Sys2Proof.Machine.State
end

