-- ==== Sys2Proof/Laws/PerInstr.lean ====
section
/-! SUPPORT. One lemma per constructor of `Instr`: the word that the encoder gives an instruction is read
back by the decoder as that instruction, with every operand. Before them, one lemma per layout of a word:
what each of its fields reads as. -/

set_option maxRecDepth 8000

namespace Sys2Proof.Laws.RoundTrip
open BitVec Sys2Proof

/-- A well-formed instruction word is decoded from the word it encodes to. -/
def Statement (i : Instr) : Prop := i.isWord = true → i.WellFormed = true → decodeWord (encode i) = .ok i

/-- The values of short fields. -/
theorem cases1 (x : BitVec 1) : x = 0#1 ∨ x = 1#1 := by revert x; decide
theorem cases2 (x : BitVec 2) : x = 0#2 ∨ x = 1#2 ∨ x = 2#2 ∨ x = 3#2 := by revert x; decide
theorem cases3 (x : BitVec 3) : x = 0#3 ∨ x = 1#3 ∨ x = 2#3 ∨ x = 3#3 ∨ x = 4#3 ∨ x = 5#3 ∨ x = 6#3 ∨ x = 7#3 := by
  revert x; decide

/-- Two adjoining low fields together. -/
theorem lowTwo {n m k : Nat} (x : BitVec n) (o : BitVec m) (p : BitVec k) :
    (x ++ o ++ p).extractLsb' 0 (m + k) = o ++ p := by
  ext i hi
  simp only [getElem_extractLsb', Nat.zero_add, getLsbD_append, getElem_append]
  split
  · simp [getLsbD_eq_getElem, *]
  · rw [if_pos (by omega), ← getLsbD_eq_getElem]

theorem layout1 (x0 : BitVec 1) (x1 : BitVec 2) (x2 : BitVec 8) (x3 : BitVec 7) (x4 : BitVec 7) (x5 : BitVec 7) (w : Word) (h : w = x0 ++ x1 ++ x2 ++ x3 ++ x4 ++ x5) :
    w.extractLsb' 31 1 = x0 ∧
    w.extractLsb' 29 2 = x1 ∧
    w.extractLsb' 21 8 = x2 ∧
    w.extractLsb' 14 7 = x3 ∧
    w.extractLsb' 7 7 = x4 ∧
    w.extractLsb' 0 7 = x5 := by
  subst h
  refine ⟨?_, ?_, ?_, ?_, ?_, ?_⟩
  · iterate 5 rw [extractLsb'_append_eq_of_le (by decide)]
    exact extractLsb'_eq_self
  · iterate 4 rw [extractLsb'_append_eq_of_le (by decide)]
    rw [extractLsb'_append_eq_of_add_le (by decide)]
    exact extractLsb'_eq_self
  · iterate 3 rw [extractLsb'_append_eq_of_le (by decide)]
    rw [extractLsb'_append_eq_of_add_le (by decide)]
    exact extractLsb'_eq_self
  · iterate 2 rw [extractLsb'_append_eq_of_le (by decide)]
    rw [extractLsb'_append_eq_of_add_le (by decide)]
    exact extractLsb'_eq_self
  · iterate 1 rw [extractLsb'_append_eq_of_le (by decide)]
    rw [extractLsb'_append_eq_of_add_le (by decide)]
    exact extractLsb'_eq_self
  · rw [extractLsb'_append_eq_of_add_le (by decide)]
    exact extractLsb'_eq_self

theorem layout2 (x0 : BitVec 1) (x1 : BitVec 2) (x2 : BitVec 8) (x3 : BitVec 4) (x4 : BitVec 3) (x5 : BitVec 7) (x6 : BitVec 7) (w : Word) (h : w = x0 ++ x1 ++ x2 ++ x3 ++ x4 ++ x5 ++ x6) :
    w.extractLsb' 31 1 = x0 ∧
    w.extractLsb' 29 2 = x1 ∧
    w.extractLsb' 21 8 = x2 ∧
    w.extractLsb' 17 4 = x3 ∧
    w.extractLsb' 14 3 = x4 ∧
    w.extractLsb' 7 7 = x5 ∧
    w.extractLsb' 0 7 = x6 := by
  subst h
  refine ⟨?_, ?_, ?_, ?_, ?_, ?_, ?_⟩
  · iterate 6 rw [extractLsb'_append_eq_of_le (by decide)]
    exact extractLsb'_eq_self
  · iterate 5 rw [extractLsb'_append_eq_of_le (by decide)]
    rw [extractLsb'_append_eq_of_add_le (by decide)]
    exact extractLsb'_eq_self
  · iterate 4 rw [extractLsb'_append_eq_of_le (by decide)]
    rw [extractLsb'_append_eq_of_add_le (by decide)]
    exact extractLsb'_eq_self
  · iterate 3 rw [extractLsb'_append_eq_of_le (by decide)]
    rw [extractLsb'_append_eq_of_add_le (by decide)]
    exact extractLsb'_eq_self
  · iterate 2 rw [extractLsb'_append_eq_of_le (by decide)]
    rw [extractLsb'_append_eq_of_add_le (by decide)]
    exact extractLsb'_eq_self
  · iterate 1 rw [extractLsb'_append_eq_of_le (by decide)]
    rw [extractLsb'_append_eq_of_add_le (by decide)]
    exact extractLsb'_eq_self
  · rw [extractLsb'_append_eq_of_add_le (by decide)]
    exact extractLsb'_eq_self

theorem layout3 (x0 : BitVec 1) (x1 : BitVec 2) (x2 : BitVec 8) (x3 : BitVec 7) (x4 : BitVec 14) (w : Word) (h : w = x0 ++ x1 ++ x2 ++ x3 ++ x4) :
    w.extractLsb' 31 1 = x0 ∧
    w.extractLsb' 29 2 = x1 ∧
    w.extractLsb' 21 8 = x2 ∧
    w.extractLsb' 14 7 = x3 ∧
    w.extractLsb' 0 14 = x4 := by
  subst h
  refine ⟨?_, ?_, ?_, ?_, ?_⟩
  · iterate 4 rw [extractLsb'_append_eq_of_le (by decide)]
    exact extractLsb'_eq_self
  · iterate 3 rw [extractLsb'_append_eq_of_le (by decide)]
    rw [extractLsb'_append_eq_of_add_le (by decide)]
    exact extractLsb'_eq_self
  · iterate 2 rw [extractLsb'_append_eq_of_le (by decide)]
    rw [extractLsb'_append_eq_of_add_le (by decide)]
    exact extractLsb'_eq_self
  · iterate 1 rw [extractLsb'_append_eq_of_le (by decide)]
    rw [extractLsb'_append_eq_of_add_le (by decide)]
    exact extractLsb'_eq_self
  · rw [extractLsb'_append_eq_of_add_le (by decide)]
    exact extractLsb'_eq_self

theorem layout4 (x0 : BitVec 1) (x1 : BitVec 2) (x2 : BitVec 5) (x3 : BitVec 3) (x4 : BitVec 7) (x5 : BitVec 7) (x6 : BitVec 7) (w : Word) (h : w = x0 ++ x1 ++ x2 ++ x3 ++ x4 ++ x5 ++ x6) :
    w.extractLsb' 31 1 = x0 ∧
    w.extractLsb' 29 2 = x1 ∧
    w.extractLsb' 21 8 = x2 ++ x3 ∧
    w.extractLsb' 21 3 = x3 ∧
    w.extractLsb' 14 7 = x4 ∧
    w.extractLsb' 7 7 = x5 ∧
    w.extractLsb' 0 7 = x6 := by
  subst h
  refine ⟨?_, ?_, ?_, ?_, ?_, ?_, ?_⟩
  · iterate 6 rw [extractLsb'_append_eq_of_le (by decide)]
    exact extractLsb'_eq_self
  · iterate 5 rw [extractLsb'_append_eq_of_le (by decide)]
    rw [extractLsb'_append_eq_of_add_le (by decide)]
    exact extractLsb'_eq_self
  · iterate 3 rw [extractLsb'_append_eq_of_le (by decide)]
    exact lowTwo _ _ _
  · iterate 3 rw [extractLsb'_append_eq_of_le (by decide)]
    rw [extractLsb'_append_eq_of_add_le (by decide)]
    exact extractLsb'_eq_self
  · iterate 2 rw [extractLsb'_append_eq_of_le (by decide)]
    rw [extractLsb'_append_eq_of_add_le (by decide)]
    exact extractLsb'_eq_self
  · iterate 1 rw [extractLsb'_append_eq_of_le (by decide)]
    rw [extractLsb'_append_eq_of_add_le (by decide)]
    exact extractLsb'_eq_self
  · rw [extractLsb'_append_eq_of_add_le (by decide)]
    exact extractLsb'_eq_self

theorem layout5 (x0 : BitVec 1) (x1 : BitVec 2) (x2 : BitVec 7) (x3 : BitVec 1) (x4 : BitVec 7) (x5 : BitVec 7) (x6 : BitVec 7) (w : Word) (h : w = x0 ++ x1 ++ x2 ++ x3 ++ x4 ++ x5 ++ x6) :
    w.extractLsb' 31 1 = x0 ∧
    w.extractLsb' 29 2 = x1 ∧
    w.extractLsb' 21 8 = x2 ++ x3 ∧
    w.extractLsb' 21 1 = x3 ∧
    w.extractLsb' 14 7 = x4 ∧
    w.extractLsb' 7 7 = x5 ∧
    w.extractLsb' 0 7 = x6 := by
  subst h
  refine ⟨?_, ?_, ?_, ?_, ?_, ?_, ?_⟩
  · iterate 6 rw [extractLsb'_append_eq_of_le (by decide)]
    exact extractLsb'_eq_self
  · iterate 5 rw [extractLsb'_append_eq_of_le (by decide)]
    rw [extractLsb'_append_eq_of_add_le (by decide)]
    exact extractLsb'_eq_self
  · iterate 3 rw [extractLsb'_append_eq_of_le (by decide)]
    exact lowTwo _ _ _
  · iterate 3 rw [extractLsb'_append_eq_of_le (by decide)]
    rw [extractLsb'_append_eq_of_add_le (by decide)]
    exact extractLsb'_eq_self
  · iterate 2 rw [extractLsb'_append_eq_of_le (by decide)]
    rw [extractLsb'_append_eq_of_add_le (by decide)]
    exact extractLsb'_eq_self
  · iterate 1 rw [extractLsb'_append_eq_of_le (by decide)]
    rw [extractLsb'_append_eq_of_add_le (by decide)]
    exact extractLsb'_eq_self
  · rw [extractLsb'_append_eq_of_add_le (by decide)]
    exact extractLsb'_eq_self

theorem layout6 (x0 : BitVec 1) (x1 : BitVec 2) (x2 : BitVec 8) (x3 : BitVec 7) (x4 : BitVec 7) (x5 : BitVec 1) (x6 : BitVec 2) (x7 : BitVec 4) (w : Word) (h : w = x0 ++ x1 ++ x2 ++ x3 ++ x4 ++ x5 ++ x6 ++ x7) :
    w.extractLsb' 31 1 = x0 ∧
    w.extractLsb' 29 2 = x1 ∧
    w.extractLsb' 21 8 = x2 ∧
    w.extractLsb' 14 7 = x3 ∧
    w.extractLsb' 7 7 = x4 ∧
    w.extractLsb' 6 1 = x5 ∧
    w.extractLsb' 4 2 = x6 ∧
    w.extractLsb' 0 4 = x7 := by
  subst h
  refine ⟨?_, ?_, ?_, ?_, ?_, ?_, ?_, ?_⟩
  · iterate 7 rw [extractLsb'_append_eq_of_le (by decide)]
    exact extractLsb'_eq_self
  · iterate 6 rw [extractLsb'_append_eq_of_le (by decide)]
    rw [extractLsb'_append_eq_of_add_le (by decide)]
    exact extractLsb'_eq_self
  · iterate 5 rw [extractLsb'_append_eq_of_le (by decide)]
    rw [extractLsb'_append_eq_of_add_le (by decide)]
    exact extractLsb'_eq_self
  · iterate 4 rw [extractLsb'_append_eq_of_le (by decide)]
    rw [extractLsb'_append_eq_of_add_le (by decide)]
    exact extractLsb'_eq_self
  · iterate 3 rw [extractLsb'_append_eq_of_le (by decide)]
    rw [extractLsb'_append_eq_of_add_le (by decide)]
    exact extractLsb'_eq_self
  · iterate 2 rw [extractLsb'_append_eq_of_le (by decide)]
    rw [extractLsb'_append_eq_of_add_le (by decide)]
    exact extractLsb'_eq_self
  · iterate 1 rw [extractLsb'_append_eq_of_le (by decide)]
    rw [extractLsb'_append_eq_of_add_le (by decide)]
    exact extractLsb'_eq_self
  · rw [extractLsb'_append_eq_of_add_le (by decide)]
    exact extractLsb'_eq_self

theorem layout7 (x0 : BitVec 1) (x1 : BitVec 2) (x2 : BitVec 6) (x3 : BitVec 2) (x4 : BitVec 7) (x5 : BitVec 7) (x6 : BitVec 7) (w : Word) (h : w = x0 ++ x1 ++ x2 ++ x3 ++ x4 ++ x5 ++ x6) :
    w.extractLsb' 31 1 = x0 ∧
    w.extractLsb' 29 2 = x1 ∧
    w.extractLsb' 21 8 = x2 ++ x3 ∧
    w.extractLsb' 21 2 = x3 ∧
    w.extractLsb' 14 7 = x4 ∧
    w.extractLsb' 7 7 = x5 ∧
    w.extractLsb' 0 7 = x6 := by
  subst h
  refine ⟨?_, ?_, ?_, ?_, ?_, ?_, ?_⟩
  · iterate 6 rw [extractLsb'_append_eq_of_le (by decide)]
    exact extractLsb'_eq_self
  · iterate 5 rw [extractLsb'_append_eq_of_le (by decide)]
    rw [extractLsb'_append_eq_of_add_le (by decide)]
    exact extractLsb'_eq_self
  · iterate 3 rw [extractLsb'_append_eq_of_le (by decide)]
    exact lowTwo _ _ _
  · iterate 3 rw [extractLsb'_append_eq_of_le (by decide)]
    rw [extractLsb'_append_eq_of_add_le (by decide)]
    exact extractLsb'_eq_self
  · iterate 2 rw [extractLsb'_append_eq_of_le (by decide)]
    rw [extractLsb'_append_eq_of_add_le (by decide)]
    exact extractLsb'_eq_self
  · iterate 1 rw [extractLsb'_append_eq_of_le (by decide)]
    rw [extractLsb'_append_eq_of_add_le (by decide)]
    exact extractLsb'_eq_self
  · rw [extractLsb'_append_eq_of_add_le (by decide)]
    exact extractLsb'_eq_self

theorem layout8 (x0 : BitVec 1) (x1 : BitVec 2) (x2 : BitVec 8) (x3 : BitVec 7) (x4 : BitVec 7) (x5 : BitVec 3) (x6 : BitVec 2) (x7 : BitVec 2) (w : Word) (h : w = x0 ++ x1 ++ x2 ++ x3 ++ x4 ++ x5 ++ x6 ++ x7) :
    w.extractLsb' 31 1 = x0 ∧
    w.extractLsb' 29 2 = x1 ∧
    w.extractLsb' 21 8 = x2 ∧
    w.extractLsb' 14 7 = x3 ∧
    w.extractLsb' 7 7 = x4 ∧
    w.extractLsb' 4 3 = x5 ∧
    w.extractLsb' 2 2 = x6 ∧
    w.extractLsb' 0 2 = x7 := by
  subst h
  refine ⟨?_, ?_, ?_, ?_, ?_, ?_, ?_, ?_⟩
  · iterate 7 rw [extractLsb'_append_eq_of_le (by decide)]
    exact extractLsb'_eq_self
  · iterate 6 rw [extractLsb'_append_eq_of_le (by decide)]
    rw [extractLsb'_append_eq_of_add_le (by decide)]
    exact extractLsb'_eq_self
  · iterate 5 rw [extractLsb'_append_eq_of_le (by decide)]
    rw [extractLsb'_append_eq_of_add_le (by decide)]
    exact extractLsb'_eq_self
  · iterate 4 rw [extractLsb'_append_eq_of_le (by decide)]
    rw [extractLsb'_append_eq_of_add_le (by decide)]
    exact extractLsb'_eq_self
  · iterate 3 rw [extractLsb'_append_eq_of_le (by decide)]
    rw [extractLsb'_append_eq_of_add_le (by decide)]
    exact extractLsb'_eq_self
  · iterate 2 rw [extractLsb'_append_eq_of_le (by decide)]
    rw [extractLsb'_append_eq_of_add_le (by decide)]
    exact extractLsb'_eq_self
  · iterate 1 rw [extractLsb'_append_eq_of_le (by decide)]
    rw [extractLsb'_append_eq_of_add_le (by decide)]
    exact extractLsb'_eq_self
  · rw [extractLsb'_append_eq_of_add_le (by decide)]
    exact extractLsb'_eq_self

theorem layout9 (x0 : BitVec 1) (x1 : BitVec 2) (x2 : BitVec 5) (x3 : BitVec 3) (x4 : BitVec 7) (x5 : BitVec 7) (x6 : BitVec 5) (x7 : BitVec 1) (x8 : BitVec 1) (w : Word) (h : w = x0 ++ x1 ++ x2 ++ x3 ++ x4 ++ x5 ++ x6 ++ x7 ++ x8) :
    w.extractLsb' 31 1 = x0 ∧
    w.extractLsb' 29 2 = x1 ∧
    w.extractLsb' 21 8 = x2 ++ x3 ∧
    w.extractLsb' 21 3 = x3 ∧
    w.extractLsb' 14 7 = x4 ∧
    w.extractLsb' 7 7 = x5 ∧
    w.extractLsb' 2 5 = x6 ∧
    w.extractLsb' 1 1 = x7 ∧
    w.extractLsb' 0 1 = x8 := by
  subst h
  refine ⟨?_, ?_, ?_, ?_, ?_, ?_, ?_, ?_, ?_⟩
  · iterate 8 rw [extractLsb'_append_eq_of_le (by decide)]
    exact extractLsb'_eq_self
  · iterate 7 rw [extractLsb'_append_eq_of_le (by decide)]
    rw [extractLsb'_append_eq_of_add_le (by decide)]
    exact extractLsb'_eq_self
  · iterate 5 rw [extractLsb'_append_eq_of_le (by decide)]
    exact lowTwo _ _ _
  · iterate 5 rw [extractLsb'_append_eq_of_le (by decide)]
    rw [extractLsb'_append_eq_of_add_le (by decide)]
    exact extractLsb'_eq_self
  · iterate 4 rw [extractLsb'_append_eq_of_le (by decide)]
    rw [extractLsb'_append_eq_of_add_le (by decide)]
    exact extractLsb'_eq_self
  · iterate 3 rw [extractLsb'_append_eq_of_le (by decide)]
    rw [extractLsb'_append_eq_of_add_le (by decide)]
    exact extractLsb'_eq_self
  · iterate 2 rw [extractLsb'_append_eq_of_le (by decide)]
    rw [extractLsb'_append_eq_of_add_le (by decide)]
    exact extractLsb'_eq_self
  · iterate 1 rw [extractLsb'_append_eq_of_le (by decide)]
    rw [extractLsb'_append_eq_of_add_le (by decide)]
    exact extractLsb'_eq_self
  · rw [extractLsb'_append_eq_of_add_le (by decide)]
    exact extractLsb'_eq_self

theorem layout10 (x0 : BitVec 1) (x1 : BitVec 2) (x2 : BitVec 8) (x3 : BitVec 7) (x4 : BitVec 6) (x5 : BitVec 1) (x6 : BitVec 4) (x7 : BitVec 3) (w : Word) (h : w = x0 ++ x1 ++ x2 ++ x3 ++ x4 ++ x5 ++ x6 ++ x7) :
    w.extractLsb' 31 1 = x0 ∧
    w.extractLsb' 29 2 = x1 ∧
    w.extractLsb' 21 8 = x2 ∧
    w.extractLsb' 14 7 = x3 ∧
    w.extractLsb' 8 6 = x4 ∧
    w.extractLsb' 7 1 = x5 ∧
    w.extractLsb' 3 4 = x6 ∧
    w.extractLsb' 0 3 = x7 := by
  subst h
  refine ⟨?_, ?_, ?_, ?_, ?_, ?_, ?_, ?_⟩
  · iterate 7 rw [extractLsb'_append_eq_of_le (by decide)]
    exact extractLsb'_eq_self
  · iterate 6 rw [extractLsb'_append_eq_of_le (by decide)]
    rw [extractLsb'_append_eq_of_add_le (by decide)]
    exact extractLsb'_eq_self
  · iterate 5 rw [extractLsb'_append_eq_of_le (by decide)]
    rw [extractLsb'_append_eq_of_add_le (by decide)]
    exact extractLsb'_eq_self
  · iterate 4 rw [extractLsb'_append_eq_of_le (by decide)]
    rw [extractLsb'_append_eq_of_add_le (by decide)]
    exact extractLsb'_eq_self
  · iterate 3 rw [extractLsb'_append_eq_of_le (by decide)]
    rw [extractLsb'_append_eq_of_add_le (by decide)]
    exact extractLsb'_eq_self
  · iterate 2 rw [extractLsb'_append_eq_of_le (by decide)]
    rw [extractLsb'_append_eq_of_add_le (by decide)]
    exact extractLsb'_eq_self
  · iterate 1 rw [extractLsb'_append_eq_of_le (by decide)]
    rw [extractLsb'_append_eq_of_add_le (by decide)]
    exact extractLsb'_eq_self
  · rw [extractLsb'_append_eq_of_add_le (by decide)]
    exact extractLsb'_eq_self

theorem layout11 (x0 : BitVec 1) (x1 : BitVec 2) (x2 : BitVec 8) (x3 : BitVec 6) (x4 : BitVec 1) (x5 : BitVec 6) (x6 : BitVec 1) (x7 : BitVec 7) (w : Word) (h : w = x0 ++ x1 ++ x2 ++ x3 ++ x4 ++ x5 ++ x6 ++ x7) :
    w.extractLsb' 31 1 = x0 ∧
    w.extractLsb' 29 2 = x1 ∧
    w.extractLsb' 21 8 = x2 ∧
    w.extractLsb' 15 6 = x3 ∧
    w.extractLsb' 14 1 = x4 ∧
    w.extractLsb' 8 6 = x5 ∧
    w.extractLsb' 7 1 = x6 ∧
    w.extractLsb' 0 7 = x7 := by
  subst h
  refine ⟨?_, ?_, ?_, ?_, ?_, ?_, ?_, ?_⟩
  · iterate 7 rw [extractLsb'_append_eq_of_le (by decide)]
    exact extractLsb'_eq_self
  · iterate 6 rw [extractLsb'_append_eq_of_le (by decide)]
    rw [extractLsb'_append_eq_of_add_le (by decide)]
    exact extractLsb'_eq_self
  · iterate 5 rw [extractLsb'_append_eq_of_le (by decide)]
    rw [extractLsb'_append_eq_of_add_le (by decide)]
    exact extractLsb'_eq_self
  · iterate 4 rw [extractLsb'_append_eq_of_le (by decide)]
    rw [extractLsb'_append_eq_of_add_le (by decide)]
    exact extractLsb'_eq_self
  · iterate 3 rw [extractLsb'_append_eq_of_le (by decide)]
    rw [extractLsb'_append_eq_of_add_le (by decide)]
    exact extractLsb'_eq_self
  · iterate 2 rw [extractLsb'_append_eq_of_le (by decide)]
    rw [extractLsb'_append_eq_of_add_le (by decide)]
    exact extractLsb'_eq_self
  · iterate 1 rw [extractLsb'_append_eq_of_le (by decide)]
    rw [extractLsb'_append_eq_of_add_le (by decide)]
    exact extractLsb'_eq_self
  · rw [extractLsb'_append_eq_of_add_le (by decide)]
    exact extractLsb'_eq_self

theorem layout12 (x0 : BitVec 1) (x1 : BitVec 2) (x2 : BitVec 5) (x3 : BitVec 3) (x4 : BitVec 7) (x5 : BitVec 7) (x6 : BitVec 1) (x7 : BitVec 6) (w : Word) (h : w = x0 ++ x1 ++ x2 ++ x3 ++ x4 ++ x5 ++ x6 ++ x7) :
    w.extractLsb' 31 1 = x0 ∧
    w.extractLsb' 29 2 = x1 ∧
    w.extractLsb' 21 8 = x2 ++ x3 ∧
    w.extractLsb' 21 3 = x3 ∧
    w.extractLsb' 14 7 = x4 ∧
    w.extractLsb' 7 7 = x5 ∧
    w.extractLsb' 6 1 = x6 ∧
    w.extractLsb' 0 6 = x7 := by
  subst h
  refine ⟨?_, ?_, ?_, ?_, ?_, ?_, ?_, ?_⟩
  · iterate 7 rw [extractLsb'_append_eq_of_le (by decide)]
    exact extractLsb'_eq_self
  · iterate 6 rw [extractLsb'_append_eq_of_le (by decide)]
    rw [extractLsb'_append_eq_of_add_le (by decide)]
    exact extractLsb'_eq_self
  · iterate 4 rw [extractLsb'_append_eq_of_le (by decide)]
    exact lowTwo _ _ _
  · iterate 4 rw [extractLsb'_append_eq_of_le (by decide)]
    rw [extractLsb'_append_eq_of_add_le (by decide)]
    exact extractLsb'_eq_self
  · iterate 3 rw [extractLsb'_append_eq_of_le (by decide)]
    rw [extractLsb'_append_eq_of_add_le (by decide)]
    exact extractLsb'_eq_self
  · iterate 2 rw [extractLsb'_append_eq_of_le (by decide)]
    rw [extractLsb'_append_eq_of_add_le (by decide)]
    exact extractLsb'_eq_self
  · iterate 1 rw [extractLsb'_append_eq_of_le (by decide)]
    rw [extractLsb'_append_eq_of_add_le (by decide)]
    exact extractLsb'_eq_self
  · rw [extractLsb'_append_eq_of_add_le (by decide)]
    exact extractLsb'_eq_self

theorem layout13 (x0 : BitVec 1) (x1 : BitVec 2) (x2 : BitVec 8) (x3 : BitVec 7) (x4 : BitVec 7) (x5 : BitVec 4) (x6 : BitVec 3) (w : Word) (h : w = x0 ++ x1 ++ x2 ++ x3 ++ x4 ++ x5 ++ x6) :
    w.extractLsb' 31 1 = x0 ∧
    w.extractLsb' 29 2 = x1 ∧
    w.extractLsb' 21 8 = x2 ∧
    w.extractLsb' 14 7 = x3 ∧
    w.extractLsb' 7 7 = x4 ∧
    w.extractLsb' 3 4 = x5 ∧
    w.extractLsb' 0 3 = x6 := by
  subst h
  refine ⟨?_, ?_, ?_, ?_, ?_, ?_, ?_⟩
  · iterate 6 rw [extractLsb'_append_eq_of_le (by decide)]
    exact extractLsb'_eq_self
  · iterate 5 rw [extractLsb'_append_eq_of_le (by decide)]
    rw [extractLsb'_append_eq_of_add_le (by decide)]
    exact extractLsb'_eq_self
  · iterate 4 rw [extractLsb'_append_eq_of_le (by decide)]
    rw [extractLsb'_append_eq_of_add_le (by decide)]
    exact extractLsb'_eq_self
  · iterate 3 rw [extractLsb'_append_eq_of_le (by decide)]
    rw [extractLsb'_append_eq_of_add_le (by decide)]
    exact extractLsb'_eq_self
  · iterate 2 rw [extractLsb'_append_eq_of_le (by decide)]
    rw [extractLsb'_append_eq_of_add_le (by decide)]
    exact extractLsb'_eq_self
  · iterate 1 rw [extractLsb'_append_eq_of_le (by decide)]
    rw [extractLsb'_append_eq_of_add_le (by decide)]
    exact extractLsb'_eq_self
  · rw [extractLsb'_append_eq_of_add_le (by decide)]
    exact extractLsb'_eq_self

theorem layout14 (x0 : BitVec 1) (x1 : BitVec 2) (x2 : BitVec 13) (x3 : BitVec 2) (x4 : BitVec 7) (x5 : BitVec 5) (x6 : BitVec 1) (x7 : BitVec 1) (w : Word) (h : w = x0 ++ x1 ++ x2 ++ x3 ++ x4 ++ x5 ++ x6 ++ x7) :
    w.extractLsb' 31 1 = x0 ∧
    w.extractLsb' 29 2 = x1 ∧
    w.extractLsb' 21 8 = x2.extractLsb' 5 8 ∧
    w.extractLsb' 16 5 = x2.extractLsb' 0 5 ∧
    w.extractLsb' 14 2 = x3 ∧
    w.extractLsb' 7 7 = x4 ∧
    w.extractLsb' 2 5 = x5 ∧
    w.extractLsb' 1 1 = x6 ∧
    w.extractLsb' 0 1 = x7 := by
  subst h
  refine ⟨?_, ?_, ?_, ?_, ?_, ?_, ?_, ?_, ?_⟩
  · iterate 7 rw [extractLsb'_append_eq_of_le (by decide)]
    exact extractLsb'_eq_self
  · iterate 6 rw [extractLsb'_append_eq_of_le (by decide)]
    rw [extractLsb'_append_eq_of_add_le (by decide)]
    exact extractLsb'_eq_self
  · iterate 5 rw [extractLsb'_append_eq_of_le (by decide)]
    rw [extractLsb'_append_eq_of_add_le (by decide)]
  · iterate 5 rw [extractLsb'_append_eq_of_le (by decide)]
    rw [extractLsb'_append_eq_of_add_le (by decide)]
  · iterate 4 rw [extractLsb'_append_eq_of_le (by decide)]
    rw [extractLsb'_append_eq_of_add_le (by decide)]
    exact extractLsb'_eq_self
  · iterate 3 rw [extractLsb'_append_eq_of_le (by decide)]
    rw [extractLsb'_append_eq_of_add_le (by decide)]
    exact extractLsb'_eq_self
  · iterate 2 rw [extractLsb'_append_eq_of_le (by decide)]
    rw [extractLsb'_append_eq_of_add_le (by decide)]
    exact extractLsb'_eq_self
  · iterate 1 rw [extractLsb'_append_eq_of_le (by decide)]
    rw [extractLsb'_append_eq_of_add_le (by decide)]
    exact extractLsb'_eq_self
  · rw [extractLsb'_append_eq_of_add_le (by decide)]
    exact extractLsb'_eq_self

theorem layout15 (x0 : BitVec 1) (x1 : BitVec 2) (x2 : BitVec 15) (x3 : BitVec 14) (w : Word) (h : w = x0 ++ x1 ++ x2 ++ x3) :
    w.extractLsb' 31 1 = x0 ∧
    w.extractLsb' 29 2 = x1 ∧
    w.extractLsb' 21 8 = x2.extractLsb' 7 8 ∧
    w.extractLsb' 14 7 = x2.extractLsb' 0 7 ∧
    w.extractLsb' 0 14 = x3 := by
  subst h
  refine ⟨?_, ?_, ?_, ?_, ?_⟩
  · iterate 3 rw [extractLsb'_append_eq_of_le (by decide)]
    exact extractLsb'_eq_self
  · iterate 2 rw [extractLsb'_append_eq_of_le (by decide)]
    rw [extractLsb'_append_eq_of_add_le (by decide)]
    exact extractLsb'_eq_self
  · iterate 1 rw [extractLsb'_append_eq_of_le (by decide)]
    rw [extractLsb'_append_eq_of_add_le (by decide)]
  · iterate 1 rw [extractLsb'_append_eq_of_le (by decide)]
    rw [extractLsb'_append_eq_of_add_le (by decide)]
  · rw [extractLsb'_append_eq_of_add_le (by decide)]
    exact extractLsb'_eq_self

theorem layout16 (x0 : BitVec 1) (x1 : BitVec 2) (x2 : BitVec 11) (x3 : BitVec 1) (x4 : BitVec 3) (x5 : BitVec 14) (w : Word) (h : w = x0 ++ x1 ++ x2 ++ x3 ++ x4 ++ x5) :
    w.extractLsb' 31 1 = x0 ∧
    w.extractLsb' 29 2 = x1 ∧
    w.extractLsb' 21 8 = x2.extractLsb' 3 8 ∧
    w.extractLsb' 18 3 = x2.extractLsb' 0 3 ∧
    w.extractLsb' 17 1 = x3 ∧
    w.extractLsb' 14 3 = x4 ∧
    w.extractLsb' 0 14 = x5 := by
  subst h
  refine ⟨?_, ?_, ?_, ?_, ?_, ?_, ?_⟩
  · iterate 5 rw [extractLsb'_append_eq_of_le (by decide)]
    exact extractLsb'_eq_self
  · iterate 4 rw [extractLsb'_append_eq_of_le (by decide)]
    rw [extractLsb'_append_eq_of_add_le (by decide)]
    exact extractLsb'_eq_self
  · iterate 3 rw [extractLsb'_append_eq_of_le (by decide)]
    rw [extractLsb'_append_eq_of_add_le (by decide)]
  · iterate 3 rw [extractLsb'_append_eq_of_le (by decide)]
    rw [extractLsb'_append_eq_of_add_le (by decide)]
  · iterate 2 rw [extractLsb'_append_eq_of_le (by decide)]
    rw [extractLsb'_append_eq_of_add_le (by decide)]
    exact extractLsb'_eq_self
  · iterate 1 rw [extractLsb'_append_eq_of_le (by decide)]
    rw [extractLsb'_append_eq_of_add_le (by decide)]
    exact extractLsb'_eq_self
  · rw [extractLsb'_append_eq_of_add_le (by decide)]
    exact extractLsb'_eq_self

theorem layout17 (x0 : BitVec 1) (x1 : BitVec 2) (x2 : BitVec 15) (x3 : BitVec 7) (x4 : BitVec 7) (w : Word) (h : w = x0 ++ x1 ++ x2 ++ x3 ++ x4) :
    w.extractLsb' 31 1 = x0 ∧
    w.extractLsb' 29 2 = x1 ∧
    w.extractLsb' 21 8 = x2.extractLsb' 7 8 ∧
    w.extractLsb' 14 7 = x2.extractLsb' 0 7 ∧
    w.extractLsb' 7 7 = x3 ∧
    w.extractLsb' 0 7 = x4 := by
  subst h
  refine ⟨?_, ?_, ?_, ?_, ?_, ?_⟩
  · iterate 4 rw [extractLsb'_append_eq_of_le (by decide)]
    exact extractLsb'_eq_self
  · iterate 3 rw [extractLsb'_append_eq_of_le (by decide)]
    rw [extractLsb'_append_eq_of_add_le (by decide)]
    exact extractLsb'_eq_self
  · iterate 2 rw [extractLsb'_append_eq_of_le (by decide)]
    rw [extractLsb'_append_eq_of_add_le (by decide)]
  · iterate 2 rw [extractLsb'_append_eq_of_le (by decide)]
    rw [extractLsb'_append_eq_of_add_le (by decide)]
  · iterate 1 rw [extractLsb'_append_eq_of_le (by decide)]
    rw [extractLsb'_append_eq_of_add_le (by decide)]
    exact extractLsb'_eq_self
  · rw [extractLsb'_append_eq_of_add_le (by decide)]
    exact extractLsb'_eq_self

theorem layout18 (x0 : BitVec 1) (x1 : BitVec 2) (x2 : BitVec 29) (w : Word) (h : w = x0 ++ x1 ++ x2) :
    w.extractLsb' 31 1 = x0 ∧
    w.extractLsb' 29 2 = x1 ∧
    w.extractLsb' 21 8 = x2.extractLsb' 21 8 ∧
    w.extractLsb' 0 21 = x2.extractLsb' 0 21 := by
  subst h
  refine ⟨?_, ?_, ?_, ?_⟩
  · iterate 2 rw [extractLsb'_append_eq_of_le (by decide)]
    exact extractLsb'_eq_self
  · iterate 1 rw [extractLsb'_append_eq_of_le (by decide)]
    rw [extractLsb'_append_eq_of_add_le (by decide)]
    exact extractLsb'_eq_self
  · rw [extractLsb'_append_eq_of_add_le (by decide)]
  · rw [extractLsb'_append_eq_of_add_le (by decide)]

theorem layout19 (x0 : BitVec 1) (x1 : BitVec 2) (x2 : BitVec 7) (x3 : BitVec 6) (x4 : BitVec 6) (x5 : BitVec 6) (x6 : BitVec 4) (w : Word) (h : w = x0 ++ x1 ++ x2 ++ x3 ++ x4 ++ x5 ++ x6) :
    w.extractLsb' 31 1 = x0 ∧
    w.extractLsb' 29 2 = x1 ∧
    w.extractLsb' 22 7 = x2 ∧
    w.extractLsb' 16 6 = x3 ∧
    w.extractLsb' 10 6 = x4 ∧
    w.extractLsb' 4 6 = x5 ∧
    w.extractLsb' 0 4 = x6 := by
  subst h
  refine ⟨?_, ?_, ?_, ?_, ?_, ?_, ?_⟩
  · iterate 6 rw [extractLsb'_append_eq_of_le (by decide)]
    exact extractLsb'_eq_self
  · iterate 5 rw [extractLsb'_append_eq_of_le (by decide)]
    rw [extractLsb'_append_eq_of_add_le (by decide)]
    exact extractLsb'_eq_self
  · iterate 4 rw [extractLsb'_append_eq_of_le (by decide)]
    rw [extractLsb'_append_eq_of_add_le (by decide)]
    exact extractLsb'_eq_self
  · iterate 3 rw [extractLsb'_append_eq_of_le (by decide)]
    rw [extractLsb'_append_eq_of_add_le (by decide)]
    exact extractLsb'_eq_self
  · iterate 2 rw [extractLsb'_append_eq_of_le (by decide)]
    rw [extractLsb'_append_eq_of_add_le (by decide)]
    exact extractLsb'_eq_self
  · iterate 1 rw [extractLsb'_append_eq_of_le (by decide)]
    rw [extractLsb'_append_eq_of_add_le (by decide)]
    exact extractLsb'_eq_self
  · rw [extractLsb'_append_eq_of_add_le (by decide)]
    exact extractLsb'_eq_self

theorem layout20 (x0 : BitVec 1) (x1 : BitVec 2) (x2 : BitVec 7) (x3 : BitVec 6) (x4 : BitVec 6) (x5 : BitVec 6) (x6 : BitVec 3) (x7 : BitVec 1) (w : Word) (h : w = x0 ++ x1 ++ x2 ++ x3 ++ x4 ++ x5 ++ x6 ++ x7) :
    w.extractLsb' 31 1 = x0 ∧
    w.extractLsb' 29 2 = x1 ∧
    w.extractLsb' 22 7 = x2 ∧
    w.extractLsb' 16 6 = x3 ∧
    w.extractLsb' 10 6 = x4 ∧
    w.extractLsb' 4 6 = x5 ∧
    w.extractLsb' 1 3 = x6 ∧
    w.extractLsb' 0 1 = x7 := by
  subst h
  refine ⟨?_, ?_, ?_, ?_, ?_, ?_, ?_, ?_⟩
  · iterate 7 rw [extractLsb'_append_eq_of_le (by decide)]
    exact extractLsb'_eq_self
  · iterate 6 rw [extractLsb'_append_eq_of_le (by decide)]
    rw [extractLsb'_append_eq_of_add_le (by decide)]
    exact extractLsb'_eq_self
  · iterate 5 rw [extractLsb'_append_eq_of_le (by decide)]
    rw [extractLsb'_append_eq_of_add_le (by decide)]
    exact extractLsb'_eq_self
  · iterate 4 rw [extractLsb'_append_eq_of_le (by decide)]
    rw [extractLsb'_append_eq_of_add_le (by decide)]
    exact extractLsb'_eq_self
  · iterate 3 rw [extractLsb'_append_eq_of_le (by decide)]
    rw [extractLsb'_append_eq_of_add_le (by decide)]
    exact extractLsb'_eq_self
  · iterate 2 rw [extractLsb'_append_eq_of_le (by decide)]
    rw [extractLsb'_append_eq_of_add_le (by decide)]
    exact extractLsb'_eq_self
  · iterate 1 rw [extractLsb'_append_eq_of_le (by decide)]
    rw [extractLsb'_append_eq_of_add_le (by decide)]
    exact extractLsb'_eq_self
  · rw [extractLsb'_append_eq_of_add_le (by decide)]
    exact extractLsb'_eq_self

theorem layout21 (x0 : BitVec 1) (x1 : BitVec 2) (x2 : BitVec 7) (x3 : BitVec 6) (x4 : BitVec 6) (x5 : BitVec 10) (w : Word) (h : w = x0 ++ x1 ++ x2 ++ x3 ++ x4 ++ x5) :
    w.extractLsb' 31 1 = x0 ∧
    w.extractLsb' 29 2 = x1 ∧
    w.extractLsb' 22 7 = x2 ∧
    w.extractLsb' 16 6 = x3 ∧
    w.extractLsb' 10 6 = x4 ∧
    w.extractLsb' 0 10 = x5 := by
  subst h
  refine ⟨?_, ?_, ?_, ?_, ?_, ?_⟩
  · iterate 5 rw [extractLsb'_append_eq_of_le (by decide)]
    exact extractLsb'_eq_self
  · iterate 4 rw [extractLsb'_append_eq_of_le (by decide)]
    rw [extractLsb'_append_eq_of_add_le (by decide)]
    exact extractLsb'_eq_self
  · iterate 3 rw [extractLsb'_append_eq_of_le (by decide)]
    rw [extractLsb'_append_eq_of_add_le (by decide)]
    exact extractLsb'_eq_self
  · iterate 2 rw [extractLsb'_append_eq_of_le (by decide)]
    rw [extractLsb'_append_eq_of_add_le (by decide)]
    exact extractLsb'_eq_self
  · iterate 1 rw [extractLsb'_append_eq_of_le (by decide)]
    rw [extractLsb'_append_eq_of_add_le (by decide)]
    exact extractLsb'_eq_self
  · rw [extractLsb'_append_eq_of_add_le (by decide)]
    exact extractLsb'_eq_self

theorem layout22 (x0 : BitVec 1) (x1 : BitVec 2) (x2 : BitVec 7) (x3 : BitVec 6) (x4 : BitVec 16) (w : Word) (h : w = x0 ++ x1 ++ x2 ++ x3 ++ x4) :
    w.extractLsb' 31 1 = x0 ∧
    w.extractLsb' 29 2 = x1 ∧
    w.extractLsb' 22 7 = x2 ∧
    w.extractLsb' 16 6 = x3 ∧
    w.extractLsb' 0 16 = x4 := by
  subst h
  refine ⟨?_, ?_, ?_, ?_, ?_⟩
  · iterate 4 rw [extractLsb'_append_eq_of_le (by decide)]
    exact extractLsb'_eq_self
  · iterate 3 rw [extractLsb'_append_eq_of_le (by decide)]
    rw [extractLsb'_append_eq_of_add_le (by decide)]
    exact extractLsb'_eq_self
  · iterate 2 rw [extractLsb'_append_eq_of_le (by decide)]
    rw [extractLsb'_append_eq_of_add_le (by decide)]
    exact extractLsb'_eq_self
  · iterate 1 rw [extractLsb'_append_eq_of_le (by decide)]
    rw [extractLsb'_append_eq_of_add_le (by decide)]
    exact extractLsb'_eq_self
  · rw [extractLsb'_append_eq_of_add_le (by decide)]
    exact extractLsb'_eq_self

theorem layout23 (x0 : BitVec 1) (x1 : BitVec 2) (x2 : BitVec 11) (x3 : BitVec 2) (x4 : BitVec 6) (x5 : BitVec 6) (x6 : BitVec 4) (w : Word) (h : w = x0 ++ x1 ++ x2 ++ x3 ++ x4 ++ x5 ++ x6) :
    w.extractLsb' 31 1 = x0 ∧
    w.extractLsb' 29 2 = x1 ∧
    w.extractLsb' 22 7 = x2.extractLsb' 4 7 ∧
    w.extractLsb' 18 4 = x2.extractLsb' 0 4 ∧
    w.extractLsb' 16 2 = x3 ∧
    w.extractLsb' 10 6 = x4 ∧
    w.extractLsb' 4 6 = x5 ∧
    w.extractLsb' 0 4 = x6 := by
  subst h
  refine ⟨?_, ?_, ?_, ?_, ?_, ?_, ?_, ?_⟩
  · iterate 6 rw [extractLsb'_append_eq_of_le (by decide)]
    exact extractLsb'_eq_self
  · iterate 5 rw [extractLsb'_append_eq_of_le (by decide)]
    rw [extractLsb'_append_eq_of_add_le (by decide)]
    exact extractLsb'_eq_self
  · iterate 4 rw [extractLsb'_append_eq_of_le (by decide)]
    rw [extractLsb'_append_eq_of_add_le (by decide)]
  · iterate 4 rw [extractLsb'_append_eq_of_le (by decide)]
    rw [extractLsb'_append_eq_of_add_le (by decide)]
  · iterate 3 rw [extractLsb'_append_eq_of_le (by decide)]
    rw [extractLsb'_append_eq_of_add_le (by decide)]
    exact extractLsb'_eq_self
  · iterate 2 rw [extractLsb'_append_eq_of_le (by decide)]
    rw [extractLsb'_append_eq_of_add_le (by decide)]
    exact extractLsb'_eq_self
  · iterate 1 rw [extractLsb'_append_eq_of_le (by decide)]
    rw [extractLsb'_append_eq_of_add_le (by decide)]
    exact extractLsb'_eq_self
  · rw [extractLsb'_append_eq_of_add_le (by decide)]
    exact extractLsb'_eq_self

theorem layout24 (x0 : BitVec 1) (x1 : BitVec 2) (x2 : BitVec 7) (x3 : BitVec 6) (x4 : BitVec 6) (x5 : BitVec 6) (x6 : BitVec 2) (x7 : BitVec 2) (w : Word) (h : w = x0 ++ x1 ++ x2 ++ x3 ++ x4 ++ x5 ++ x6 ++ x7) :
    w.extractLsb' 31 1 = x0 ∧
    w.extractLsb' 29 2 = x1 ∧
    w.extractLsb' 22 7 = x2 ∧
    w.extractLsb' 16 6 = x3 ∧
    w.extractLsb' 10 6 = x4 ∧
    w.extractLsb' 4 6 = x5 ∧
    w.extractLsb' 2 2 = x6 ∧
    w.extractLsb' 0 2 = x7 := by
  subst h
  refine ⟨?_, ?_, ?_, ?_, ?_, ?_, ?_, ?_⟩
  · iterate 7 rw [extractLsb'_append_eq_of_le (by decide)]
    exact extractLsb'_eq_self
  · iterate 6 rw [extractLsb'_append_eq_of_le (by decide)]
    rw [extractLsb'_append_eq_of_add_le (by decide)]
    exact extractLsb'_eq_self
  · iterate 5 rw [extractLsb'_append_eq_of_le (by decide)]
    rw [extractLsb'_append_eq_of_add_le (by decide)]
    exact extractLsb'_eq_self
  · iterate 4 rw [extractLsb'_append_eq_of_le (by decide)]
    rw [extractLsb'_append_eq_of_add_le (by decide)]
    exact extractLsb'_eq_self
  · iterate 3 rw [extractLsb'_append_eq_of_le (by decide)]
    rw [extractLsb'_append_eq_of_add_le (by decide)]
    exact extractLsb'_eq_self
  · iterate 2 rw [extractLsb'_append_eq_of_le (by decide)]
    rw [extractLsb'_append_eq_of_add_le (by decide)]
    exact extractLsb'_eq_self
  · iterate 1 rw [extractLsb'_append_eq_of_le (by decide)]
    rw [extractLsb'_append_eq_of_add_le (by decide)]
    exact extractLsb'_eq_self
  · rw [extractLsb'_append_eq_of_add_le (by decide)]
    exact extractLsb'_eq_self

theorem layout25 (x0 : BitVec 1) (x1 : BitVec 2) (x2 : BitVec 7) (x3 : BitVec 22) (w : Word) (h : w = x0 ++ x1 ++ x2 ++ x3) :
    w.extractLsb' 31 1 = x0 ∧
    w.extractLsb' 29 2 = x1 ∧
    w.extractLsb' 22 7 = x2 ∧
    w.extractLsb' 0 22 = x3 := by
  subst h
  refine ⟨?_, ?_, ?_, ?_⟩
  · iterate 3 rw [extractLsb'_append_eq_of_le (by decide)]
    exact extractLsb'_eq_self
  · iterate 2 rw [extractLsb'_append_eq_of_le (by decide)]
    rw [extractLsb'_append_eq_of_add_le (by decide)]
    exact extractLsb'_eq_self
  · iterate 1 rw [extractLsb'_append_eq_of_le (by decide)]
    rw [extractLsb'_append_eq_of_add_le (by decide)]
    exact extractLsb'_eq_self
  · rw [extractLsb'_append_eq_of_add_le (by decide)]
    exact extractLsb'_eq_self

theorem layout26 (x0 : BitVec 1) (x1 : BitVec 2) (x2 : BitVec 10) (x3 : BitVec 1) (x4 : BitVec 2) (x5 : BitVec 16) (w : Word) (h : w = x0 ++ x1 ++ x2 ++ x3 ++ x4 ++ x5) :
    w.extractLsb' 31 1 = x0 ∧
    w.extractLsb' 29 2 = x1 ∧
    w.extractLsb' 22 7 = x2.extractLsb' 3 7 ∧
    w.extractLsb' 19 3 = x2.extractLsb' 0 3 ∧
    w.extractLsb' 18 1 = x3 ∧
    w.extractLsb' 16 2 = x4 ∧
    w.extractLsb' 0 16 = x5 := by
  subst h
  refine ⟨?_, ?_, ?_, ?_, ?_, ?_, ?_⟩
  · iterate 5 rw [extractLsb'_append_eq_of_le (by decide)]
    exact extractLsb'_eq_self
  · iterate 4 rw [extractLsb'_append_eq_of_le (by decide)]
    rw [extractLsb'_append_eq_of_add_le (by decide)]
    exact extractLsb'_eq_self
  · iterate 3 rw [extractLsb'_append_eq_of_le (by decide)]
    rw [extractLsb'_append_eq_of_add_le (by decide)]
  · iterate 3 rw [extractLsb'_append_eq_of_le (by decide)]
    rw [extractLsb'_append_eq_of_add_le (by decide)]
  · iterate 2 rw [extractLsb'_append_eq_of_le (by decide)]
    rw [extractLsb'_append_eq_of_add_le (by decide)]
    exact extractLsb'_eq_self
  · iterate 1 rw [extractLsb'_append_eq_of_le (by decide)]
    rw [extractLsb'_append_eq_of_add_le (by decide)]
    exact extractLsb'_eq_self
  · rw [extractLsb'_append_eq_of_add_le (by decide)]
    exact extractLsb'_eq_self

theorem layout27 (x0 : BitVec 1) (x1 : BitVec 2) (x2 : BitVec 29) (w : Word) (h : w = x0 ++ x1 ++ x2) :
    w.extractLsb' 31 1 = x0 ∧
    w.extractLsb' 29 2 = x1 ∧
    w.extractLsb' 22 7 = x2.extractLsb' 22 7 ∧
    w.extractLsb' 0 22 = x2.extractLsb' 0 22 := by
  subst h
  refine ⟨?_, ?_, ?_, ?_⟩
  · iterate 2 rw [extractLsb'_append_eq_of_le (by decide)]
    exact extractLsb'_eq_self
  · iterate 1 rw [extractLsb'_append_eq_of_le (by decide)]
    rw [extractLsb'_append_eq_of_add_le (by decide)]
    exact extractLsb'_eq_self
  · rw [extractLsb'_append_eq_of_add_le (by decide)]
  · rw [extractLsb'_append_eq_of_add_le (by decide)]

theorem layout28 (x0 : BitVec 1) (x1 : BitVec 2) (x2 : BitVec 7) (x3 : BitVec 6) (x4 : BitVec 8) (x5 : BitVec 8) (w : Word) (h : w = x0 ++ x1 ++ x2 ++ x3 ++ x4 ++ x5) :
    w.extractLsb' 31 1 = x0 ∧
    w.extractLsb' 29 2 = x1 ∧
    w.extractLsb' 22 7 = x2 ∧
    w.extractLsb' 16 6 = x3 ∧
    w.extractLsb' 8 8 = x4 ∧
    w.extractLsb' 0 8 = x5 := by
  subst h
  refine ⟨?_, ?_, ?_, ?_, ?_, ?_⟩
  · iterate 5 rw [extractLsb'_append_eq_of_le (by decide)]
    exact extractLsb'_eq_self
  · iterate 4 rw [extractLsb'_append_eq_of_le (by decide)]
    rw [extractLsb'_append_eq_of_add_le (by decide)]
    exact extractLsb'_eq_self
  · iterate 3 rw [extractLsb'_append_eq_of_le (by decide)]
    rw [extractLsb'_append_eq_of_add_le (by decide)]
    exact extractLsb'_eq_self
  · iterate 2 rw [extractLsb'_append_eq_of_le (by decide)]
    rw [extractLsb'_append_eq_of_add_le (by decide)]
    exact extractLsb'_eq_self
  · iterate 1 rw [extractLsb'_append_eq_of_le (by decide)]
    rw [extractLsb'_append_eq_of_add_le (by decide)]
    exact extractLsb'_eq_self
  · rw [extractLsb'_append_eq_of_add_le (by decide)]
    exact extractLsb'_eq_self

theorem layout29 (x0 : BitVec 1) (x1 : BitVec 2) (x2 : BitVec 22) (x3 : BitVec 3) (x4 : BitVec 2) (x5 : BitVec 2) (w : Word) (h : w = x0 ++ x1 ++ x2 ++ x3 ++ x4 ++ x5) :
    w.extractLsb' 31 1 = x0 ∧
    w.extractLsb' 29 2 = x1 ∧
    w.extractLsb' 22 7 = x2.extractLsb' 15 7 ∧
    w.extractLsb' 7 15 = x2.extractLsb' 0 15 ∧
    w.extractLsb' 4 3 = x3 ∧
    w.extractLsb' 2 2 = x4 ∧
    w.extractLsb' 0 2 = x5 := by
  subst h
  refine ⟨?_, ?_, ?_, ?_, ?_, ?_, ?_⟩
  · iterate 5 rw [extractLsb'_append_eq_of_le (by decide)]
    exact extractLsb'_eq_self
  · iterate 4 rw [extractLsb'_append_eq_of_le (by decide)]
    rw [extractLsb'_append_eq_of_add_le (by decide)]
    exact extractLsb'_eq_self
  · iterate 3 rw [extractLsb'_append_eq_of_le (by decide)]
    rw [extractLsb'_append_eq_of_add_le (by decide)]
  · iterate 3 rw [extractLsb'_append_eq_of_le (by decide)]
    rw [extractLsb'_append_eq_of_add_le (by decide)]
  · iterate 2 rw [extractLsb'_append_eq_of_le (by decide)]
    rw [extractLsb'_append_eq_of_add_le (by decide)]
    exact extractLsb'_eq_self
  · iterate 1 rw [extractLsb'_append_eq_of_le (by decide)]
    rw [extractLsb'_append_eq_of_add_le (by decide)]
    exact extractLsb'_eq_self
  · rw [extractLsb'_append_eq_of_add_le (by decide)]
    exact extractLsb'_eq_self

theorem layout30 (x0 : BitVec 1) (x1 : BitVec 2) (x2 : BitVec 13) (x3 : BitVec 6) (x4 : BitVec 6) (x5 : BitVec 2) (x6 : BitVec 2) (w : Word) (h : w = x0 ++ x1 ++ x2 ++ x3 ++ x4 ++ x5 ++ x6) :
    w.extractLsb' 31 1 = x0 ∧
    w.extractLsb' 29 2 = x1 ∧
    w.extractLsb' 22 7 = x2.extractLsb' 6 7 ∧
    w.extractLsb' 16 6 = x2.extractLsb' 0 6 ∧
    w.extractLsb' 10 6 = x3 ∧
    w.extractLsb' 4 6 = x4 ∧
    w.extractLsb' 2 2 = x5 ∧
    w.extractLsb' 0 2 = x6 := by
  subst h
  refine ⟨?_, ?_, ?_, ?_, ?_, ?_, ?_, ?_⟩
  · iterate 6 rw [extractLsb'_append_eq_of_le (by decide)]
    exact extractLsb'_eq_self
  · iterate 5 rw [extractLsb'_append_eq_of_le (by decide)]
    rw [extractLsb'_append_eq_of_add_le (by decide)]
    exact extractLsb'_eq_self
  · iterate 4 rw [extractLsb'_append_eq_of_le (by decide)]
    rw [extractLsb'_append_eq_of_add_le (by decide)]
  · iterate 4 rw [extractLsb'_append_eq_of_le (by decide)]
    rw [extractLsb'_append_eq_of_add_le (by decide)]
  · iterate 3 rw [extractLsb'_append_eq_of_le (by decide)]
    rw [extractLsb'_append_eq_of_add_le (by decide)]
    exact extractLsb'_eq_self
  · iterate 2 rw [extractLsb'_append_eq_of_le (by decide)]
    rw [extractLsb'_append_eq_of_add_le (by decide)]
    exact extractLsb'_eq_self
  · iterate 1 rw [extractLsb'_append_eq_of_le (by decide)]
    rw [extractLsb'_append_eq_of_add_le (by decide)]
    exact extractLsb'_eq_self
  · rw [extractLsb'_append_eq_of_add_le (by decide)]
    exact extractLsb'_eq_self

theorem layout31 (x0 : BitVec 1) (x1 : BitVec 2) (x2 : BitVec 18) (x3 : BitVec 7) (x4 : BitVec 4) (w : Word) (h : w = x0 ++ x1 ++ x2 ++ x3 ++ x4) :
    w.extractLsb' 31 1 = x0 ∧
    w.extractLsb' 29 2 = x1 ∧
    w.extractLsb' 22 7 = x2.extractLsb' 11 7 ∧
    w.extractLsb' 11 11 = x2.extractLsb' 0 11 ∧
    w.extractLsb' 4 7 = x3 ∧
    w.extractLsb' 2 2 = x4.extractLsb' 2 2 ∧
    w.extractLsb' 2 1 = x4.extractLsb' 2 1 ∧
    w.extractLsb' 0 4 = x4 ∧
    w.extractLsb' 0 2 = x4.extractLsb' 0 2 := by
  subst h
  refine ⟨?_, ?_, ?_, ?_, ?_, ?_, ?_, ?_, ?_⟩
  · iterate 4 rw [extractLsb'_append_eq_of_le (by decide)]
    exact extractLsb'_eq_self
  · iterate 3 rw [extractLsb'_append_eq_of_le (by decide)]
    rw [extractLsb'_append_eq_of_add_le (by decide)]
    exact extractLsb'_eq_self
  · iterate 2 rw [extractLsb'_append_eq_of_le (by decide)]
    rw [extractLsb'_append_eq_of_add_le (by decide)]
  · iterate 2 rw [extractLsb'_append_eq_of_le (by decide)]
    rw [extractLsb'_append_eq_of_add_le (by decide)]
  · iterate 1 rw [extractLsb'_append_eq_of_le (by decide)]
    rw [extractLsb'_append_eq_of_add_le (by decide)]
    exact extractLsb'_eq_self
  · rw [extractLsb'_append_eq_of_add_le (by decide)]
  · rw [extractLsb'_append_eq_of_add_le (by decide)]
  · rw [extractLsb'_append_eq_of_add_le (by decide)]
    exact extractLsb'_eq_self
  · rw [extractLsb'_append_eq_of_add_le (by decide)]

theorem layout32 (x0 : BitVec 1) (x1 : BitVec 2) (x2 : BitVec 18) (x3 : BitVec 7) (x4 : BitVec 2) (x5 : BitVec 2) (w : Word) (h : w = x0 ++ x1 ++ x2 ++ x3 ++ x4 ++ x5) :
    w.extractLsb' 31 1 = x0 ∧
    w.extractLsb' 29 2 = x1 ∧
    w.extractLsb' 22 7 = x2.extractLsb' 11 7 ∧
    w.extractLsb' 11 11 = x2.extractLsb' 0 11 ∧
    w.extractLsb' 4 7 = x3 ∧
    w.extractLsb' 2 2 = x4 ∧
    w.extractLsb' 2 1 = x4.extractLsb' 0 1 ∧
    w.extractLsb' 0 2 = x5 := by
  subst h
  refine ⟨?_, ?_, ?_, ?_, ?_, ?_, ?_, ?_⟩
  · iterate 5 rw [extractLsb'_append_eq_of_le (by decide)]
    exact extractLsb'_eq_self
  · iterate 4 rw [extractLsb'_append_eq_of_le (by decide)]
    rw [extractLsb'_append_eq_of_add_le (by decide)]
    exact extractLsb'_eq_self
  · iterate 3 rw [extractLsb'_append_eq_of_le (by decide)]
    rw [extractLsb'_append_eq_of_add_le (by decide)]
  · iterate 3 rw [extractLsb'_append_eq_of_le (by decide)]
    rw [extractLsb'_append_eq_of_add_le (by decide)]
  · iterate 2 rw [extractLsb'_append_eq_of_le (by decide)]
    rw [extractLsb'_append_eq_of_add_le (by decide)]
    exact extractLsb'_eq_self
  · iterate 1 rw [extractLsb'_append_eq_of_le (by decide)]
    rw [extractLsb'_append_eq_of_add_le (by decide)]
    exact extractLsb'_eq_self
  · iterate 1 rw [extractLsb'_append_eq_of_le (by decide)]
    rw [extractLsb'_append_eq_of_add_le (by decide)]
  · rw [extractLsb'_append_eq_of_add_le (by decide)]
    exact extractLsb'_eq_self

theorem layout33 (x0 : BitVec 1) (x1 : BitVec 2) (x2 : BitVec 18) (x3 : BitVec 7) (x4 : BitVec 4) (w : Word) (h : w = x0 ++ x1 ++ x2 ++ x3 ++ x4) :
    w.extractLsb' 31 1 = x0 ∧
    w.extractLsb' 29 2 = x1 ∧
    w.extractLsb' 22 7 = x2.extractLsb' 11 7 ∧
    w.extractLsb' 11 11 = x2.extractLsb' 0 11 ∧
    w.extractLsb' 4 7 = x3 ∧
    w.extractLsb' 0 4 = x4 := by
  subst h
  refine ⟨?_, ?_, ?_, ?_, ?_, ?_⟩
  · iterate 4 rw [extractLsb'_append_eq_of_le (by decide)]
    exact extractLsb'_eq_self
  · iterate 3 rw [extractLsb'_append_eq_of_le (by decide)]
    rw [extractLsb'_append_eq_of_add_le (by decide)]
    exact extractLsb'_eq_self
  · iterate 2 rw [extractLsb'_append_eq_of_le (by decide)]
    rw [extractLsb'_append_eq_of_add_le (by decide)]
  · iterate 2 rw [extractLsb'_append_eq_of_le (by decide)]
    rw [extractLsb'_append_eq_of_add_le (by decide)]
  · iterate 1 rw [extractLsb'_append_eq_of_le (by decide)]
    rw [extractLsb'_append_eq_of_add_le (by decide)]
    exact extractLsb'_eq_self
  · rw [extractLsb'_append_eq_of_add_le (by decide)]
    exact extractLsb'_eq_self

theorem layout34 (x0 : BitVec 1) (x1 : BitVec 2) (x2 : BitVec 7) (x3 : BitVec 6) (x4 : BitVec 14) (x5 : BitVec 2) (w : Word) (h : w = x0 ++ x1 ++ x2 ++ x3 ++ x4 ++ x5) :
    w.extractLsb' 31 1 = x0 ∧
    w.extractLsb' 29 2 = x1 ∧
    w.extractLsb' 22 7 = x2 ∧
    w.extractLsb' 16 6 = x3 ∧
    w.extractLsb' 2 14 = x4 ∧
    w.extractLsb' 0 2 = x5 := by
  subst h
  refine ⟨?_, ?_, ?_, ?_, ?_, ?_⟩
  · iterate 5 rw [extractLsb'_append_eq_of_le (by decide)]
    exact extractLsb'_eq_self
  · iterate 4 rw [extractLsb'_append_eq_of_le (by decide)]
    rw [extractLsb'_append_eq_of_add_le (by decide)]
    exact extractLsb'_eq_self
  · iterate 3 rw [extractLsb'_append_eq_of_le (by decide)]
    rw [extractLsb'_append_eq_of_add_le (by decide)]
    exact extractLsb'_eq_self
  · iterate 2 rw [extractLsb'_append_eq_of_le (by decide)]
    rw [extractLsb'_append_eq_of_add_le (by decide)]
    exact extractLsb'_eq_self
  · iterate 1 rw [extractLsb'_append_eq_of_le (by decide)]
    rw [extractLsb'_append_eq_of_add_le (by decide)]
    exact extractLsb'_eq_self
  · rw [extractLsb'_append_eq_of_add_le (by decide)]
    exact extractLsb'_eq_self

theorem layout35 (x0 : BitVec 1) (x1 : BitVec 2) (x2 : BitVec 13) (x3 : BitVec 6) (x4 : BitVec 10) (w : Word) (h : w = x0 ++ x1 ++ x2 ++ x3 ++ x4) :
    w.extractLsb' 31 1 = x0 ∧
    w.extractLsb' 29 2 = x1 ∧
    w.extractLsb' 22 7 = x2.extractLsb' 6 7 ∧
    w.extractLsb' 16 6 = x2.extractLsb' 0 6 ∧
    w.extractLsb' 10 6 = x3 ∧
    w.extractLsb' 0 10 = x4 := by
  subst h
  refine ⟨?_, ?_, ?_, ?_, ?_, ?_⟩
  · iterate 4 rw [extractLsb'_append_eq_of_le (by decide)]
    exact extractLsb'_eq_self
  · iterate 3 rw [extractLsb'_append_eq_of_le (by decide)]
    rw [extractLsb'_append_eq_of_add_le (by decide)]
    exact extractLsb'_eq_self
  · iterate 2 rw [extractLsb'_append_eq_of_le (by decide)]
    rw [extractLsb'_append_eq_of_add_le (by decide)]
  · iterate 2 rw [extractLsb'_append_eq_of_le (by decide)]
    rw [extractLsb'_append_eq_of_add_le (by decide)]
  · iterate 1 rw [extractLsb'_append_eq_of_le (by decide)]
    rw [extractLsb'_append_eq_of_add_le (by decide)]
    exact extractLsb'_eq_self
  · rw [extractLsb'_append_eq_of_add_le (by decide)]
    exact extractLsb'_eq_self

theorem layout36 (x0 : BitVec 1) (x1 : BitVec 2) (x2 : BitVec 13) (x3 : BitVec 6) (x4 : BitVec 8) (x5 : BitVec 2) (w : Word) (h : w = x0 ++ x1 ++ x2 ++ x3 ++ x4 ++ x5) :
    w.extractLsb' 31 1 = x0 ∧
    w.extractLsb' 29 2 = x1 ∧
    w.extractLsb' 22 7 = x2.extractLsb' 6 7 ∧
    w.extractLsb' 16 6 = x2.extractLsb' 0 6 ∧
    w.extractLsb' 10 6 = x3 ∧
    w.extractLsb' 2 8 = x4 ∧
    w.extractLsb' 0 2 = x5 := by
  subst h
  refine ⟨?_, ?_, ?_, ?_, ?_, ?_, ?_⟩
  · iterate 5 rw [extractLsb'_append_eq_of_le (by decide)]
    exact extractLsb'_eq_self
  · iterate 4 rw [extractLsb'_append_eq_of_le (by decide)]
    rw [extractLsb'_append_eq_of_add_le (by decide)]
    exact extractLsb'_eq_self
  · iterate 3 rw [extractLsb'_append_eq_of_le (by decide)]
    rw [extractLsb'_append_eq_of_add_le (by decide)]
  · iterate 3 rw [extractLsb'_append_eq_of_le (by decide)]
    rw [extractLsb'_append_eq_of_add_le (by decide)]
  · iterate 2 rw [extractLsb'_append_eq_of_le (by decide)]
    rw [extractLsb'_append_eq_of_add_le (by decide)]
    exact extractLsb'_eq_self
  · iterate 1 rw [extractLsb'_append_eq_of_le (by decide)]
    rw [extractLsb'_append_eq_of_add_le (by decide)]
    exact extractLsb'_eq_self
  · rw [extractLsb'_append_eq_of_add_le (by decide)]
    exact extractLsb'_eq_self

theorem layout37 (x0 : BitVec 1) (x1 : BitVec 2) (x2 : BitVec 7) (x3 : BitVec 6) (x4 : BitVec 6) (x5 : BitVec 3) (x6 : BitVec 3) (x7 : BitVec 2) (x8 : BitVec 2) (w : Word) (h : w = x0 ++ x1 ++ x2 ++ x3 ++ x4 ++ x5 ++ x6 ++ x7 ++ x8) :
    w.extractLsb' 31 1 = x0 ∧
    w.extractLsb' 29 2 = x1 ∧
    w.extractLsb' 22 7 = x2 ∧
    w.extractLsb' 16 6 = x3 ∧
    w.extractLsb' 10 6 = x4 ∧
    w.extractLsb' 7 3 = x5 ∧
    w.extractLsb' 4 3 = x6 ∧
    w.extractLsb' 2 2 = x7 ∧
    w.extractLsb' 0 2 = x8 := by
  subst h
  refine ⟨?_, ?_, ?_, ?_, ?_, ?_, ?_, ?_, ?_⟩
  · iterate 8 rw [extractLsb'_append_eq_of_le (by decide)]
    exact extractLsb'_eq_self
  · iterate 7 rw [extractLsb'_append_eq_of_le (by decide)]
    rw [extractLsb'_append_eq_of_add_le (by decide)]
    exact extractLsb'_eq_self
  · iterate 6 rw [extractLsb'_append_eq_of_le (by decide)]
    rw [extractLsb'_append_eq_of_add_le (by decide)]
    exact extractLsb'_eq_self
  · iterate 5 rw [extractLsb'_append_eq_of_le (by decide)]
    rw [extractLsb'_append_eq_of_add_le (by decide)]
    exact extractLsb'_eq_self
  · iterate 4 rw [extractLsb'_append_eq_of_le (by decide)]
    rw [extractLsb'_append_eq_of_add_le (by decide)]
    exact extractLsb'_eq_self
  · iterate 3 rw [extractLsb'_append_eq_of_le (by decide)]
    rw [extractLsb'_append_eq_of_add_le (by decide)]
    exact extractLsb'_eq_self
  · iterate 2 rw [extractLsb'_append_eq_of_le (by decide)]
    rw [extractLsb'_append_eq_of_add_le (by decide)]
    exact extractLsb'_eq_self
  · iterate 1 rw [extractLsb'_append_eq_of_le (by decide)]
    rw [extractLsb'_append_eq_of_add_le (by decide)]
    exact extractLsb'_eq_self
  · rw [extractLsb'_append_eq_of_add_le (by decide)]
    exact extractLsb'_eq_self

theorem layout38 (x0 : BitVec 1) (x1 : BitVec 2) (x2 : BitVec 19) (x3 : BitVec 6) (x4 : BitVec 4) (w : Word) (h : w = x0 ++ x1 ++ x2 ++ x3 ++ x4) :
    w.extractLsb' 31 1 = x0 ∧
    w.extractLsb' 29 2 = x1 ∧
    w.extractLsb' 22 7 = x2.extractLsb' 12 7 ∧
    w.extractLsb' 10 12 = x2.extractLsb' 0 12 ∧
    w.extractLsb' 4 6 = x3 ∧
    w.extractLsb' 0 4 = x4 := by
  subst h
  refine ⟨?_, ?_, ?_, ?_, ?_, ?_⟩
  · iterate 4 rw [extractLsb'_append_eq_of_le (by decide)]
    exact extractLsb'_eq_self
  · iterate 3 rw [extractLsb'_append_eq_of_le (by decide)]
    rw [extractLsb'_append_eq_of_add_le (by decide)]
    exact extractLsb'_eq_self
  · iterate 2 rw [extractLsb'_append_eq_of_le (by decide)]
    rw [extractLsb'_append_eq_of_add_le (by decide)]
  · iterate 2 rw [extractLsb'_append_eq_of_le (by decide)]
    rw [extractLsb'_append_eq_of_add_le (by decide)]
  · iterate 1 rw [extractLsb'_append_eq_of_le (by decide)]
    rw [extractLsb'_append_eq_of_add_le (by decide)]
    exact extractLsb'_eq_self
  · rw [extractLsb'_append_eq_of_add_le (by decide)]
    exact extractLsb'_eq_self

theorem layout39 (x0 : BitVec 1) (x1 : BitVec 2) (x2 : BitVec 13) (x3 : BitVec 6) (x4 : BitVec 6) (x5 : BitVec 4) (w : Word) (h : w = x0 ++ x1 ++ x2 ++ x3 ++ x4 ++ x5) :
    w.extractLsb' 31 1 = x0 ∧
    w.extractLsb' 29 2 = x1 ∧
    w.extractLsb' 22 7 = x2.extractLsb' 6 7 ∧
    w.extractLsb' 16 6 = x2.extractLsb' 0 6 ∧
    w.extractLsb' 10 6 = x3 ∧
    w.extractLsb' 4 6 = x4 ∧
    w.extractLsb' 0 4 = x5 := by
  subst h
  refine ⟨?_, ?_, ?_, ?_, ?_, ?_, ?_⟩
  · iterate 5 rw [extractLsb'_append_eq_of_le (by decide)]
    exact extractLsb'_eq_self
  · iterate 4 rw [extractLsb'_append_eq_of_le (by decide)]
    rw [extractLsb'_append_eq_of_add_le (by decide)]
    exact extractLsb'_eq_self
  · iterate 3 rw [extractLsb'_append_eq_of_le (by decide)]
    rw [extractLsb'_append_eq_of_add_le (by decide)]
  · iterate 3 rw [extractLsb'_append_eq_of_le (by decide)]
    rw [extractLsb'_append_eq_of_add_le (by decide)]
  · iterate 2 rw [extractLsb'_append_eq_of_le (by decide)]
    rw [extractLsb'_append_eq_of_add_le (by decide)]
    exact extractLsb'_eq_self
  · iterate 1 rw [extractLsb'_append_eq_of_le (by decide)]
    rw [extractLsb'_append_eq_of_add_le (by decide)]
    exact extractLsb'_eq_self
  · rw [extractLsb'_append_eq_of_add_le (by decide)]
    exact extractLsb'_eq_self

theorem layout40 (x0 : BitVec 1) (x1 : BitVec 2) (x2 : BitVec 9) (x3 : BitVec 4) (x4 : BitVec 12) (x5 : BitVec 4) (w : Word) (h : w = x0 ++ x1 ++ x2 ++ x3 ++ x4 ++ x5) :
    w.extractLsb' 31 1 = x0 ∧
    w.extractLsb' 29 2 = x1 ∧
    w.extractLsb' 22 7 = x2.extractLsb' 2 7 ∧
    w.extractLsb' 20 2 = x2.extractLsb' 0 2 ∧
    w.extractLsb' 16 4 = x3 ∧
    w.extractLsb' 4 12 = x4 ∧
    w.extractLsb' 0 4 = x5 := by
  subst h
  refine ⟨?_, ?_, ?_, ?_, ?_, ?_, ?_⟩
  · iterate 5 rw [extractLsb'_append_eq_of_le (by decide)]
    exact extractLsb'_eq_self
  · iterate 4 rw [extractLsb'_append_eq_of_le (by decide)]
    rw [extractLsb'_append_eq_of_add_le (by decide)]
    exact extractLsb'_eq_self
  · iterate 3 rw [extractLsb'_append_eq_of_le (by decide)]
    rw [extractLsb'_append_eq_of_add_le (by decide)]
  · iterate 3 rw [extractLsb'_append_eq_of_le (by decide)]
    rw [extractLsb'_append_eq_of_add_le (by decide)]
  · iterate 2 rw [extractLsb'_append_eq_of_le (by decide)]
    rw [extractLsb'_append_eq_of_add_le (by decide)]
    exact extractLsb'_eq_self
  · iterate 1 rw [extractLsb'_append_eq_of_le (by decide)]
    rw [extractLsb'_append_eq_of_add_le (by decide)]
    exact extractLsb'_eq_self
  · rw [extractLsb'_append_eq_of_add_le (by decide)]
    exact extractLsb'_eq_self

theorem layout41 (x0 : BitVec 1) (x1 : BitVec 2) (x2 : BitVec 9) (x3 : BitVec 4) (x4 : BitVec 6) (x5 : BitVec 10) (w : Word) (h : w = x0 ++ x1 ++ x2 ++ x3 ++ x4 ++ x5) :
    w.extractLsb' 31 1 = x0 ∧
    w.extractLsb' 29 2 = x1 ∧
    w.extractLsb' 22 7 = x2.extractLsb' 2 7 ∧
    w.extractLsb' 20 2 = x2.extractLsb' 0 2 ∧
    w.extractLsb' 16 4 = x3 ∧
    w.extractLsb' 10 6 = x4 ∧
    w.extractLsb' 4 6 = x5.extractLsb' 4 6 ∧
    w.extractLsb' 0 4 = x5.extractLsb' 0 4 := by
  subst h
  refine ⟨?_, ?_, ?_, ?_, ?_, ?_, ?_, ?_⟩
  · iterate 5 rw [extractLsb'_append_eq_of_le (by decide)]
    exact extractLsb'_eq_self
  · iterate 4 rw [extractLsb'_append_eq_of_le (by decide)]
    rw [extractLsb'_append_eq_of_add_le (by decide)]
    exact extractLsb'_eq_self
  · iterate 3 rw [extractLsb'_append_eq_of_le (by decide)]
    rw [extractLsb'_append_eq_of_add_le (by decide)]
  · iterate 3 rw [extractLsb'_append_eq_of_le (by decide)]
    rw [extractLsb'_append_eq_of_add_le (by decide)]
  · iterate 2 rw [extractLsb'_append_eq_of_le (by decide)]
    rw [extractLsb'_append_eq_of_add_le (by decide)]
    exact extractLsb'_eq_self
  · iterate 1 rw [extractLsb'_append_eq_of_le (by decide)]
    rw [extractLsb'_append_eq_of_add_le (by decide)]
    exact extractLsb'_eq_self
  · rw [extractLsb'_append_eq_of_add_le (by decide)]
  · rw [extractLsb'_append_eq_of_add_le (by decide)]

theorem layout42 (x0 : BitVec 1) (x1 : BitVec 2) (x2 : BitVec 7) (x3 : BitVec 6) (x4 : BitVec 6) (x5 : BitVec 9) (x6 : BitVec 1) (w : Word) (h : w = x0 ++ x1 ++ x2 ++ x3 ++ x4 ++ x5 ++ x6) :
    w.extractLsb' 31 1 = x0 ∧
    w.extractLsb' 29 2 = x1 ∧
    w.extractLsb' 22 7 = x2 ∧
    w.extractLsb' 16 6 = x3 ∧
    w.extractLsb' 10 6 = x4 ∧
    w.extractLsb' 1 9 = x5 ∧
    w.extractLsb' 0 1 = x6 := by
  subst h
  refine ⟨?_, ?_, ?_, ?_, ?_, ?_, ?_⟩
  · iterate 6 rw [extractLsb'_append_eq_of_le (by decide)]
    exact extractLsb'_eq_self
  · iterate 5 rw [extractLsb'_append_eq_of_le (by decide)]
    rw [extractLsb'_append_eq_of_add_le (by decide)]
    exact extractLsb'_eq_self
  · iterate 4 rw [extractLsb'_append_eq_of_le (by decide)]
    rw [extractLsb'_append_eq_of_add_le (by decide)]
    exact extractLsb'_eq_self
  · iterate 3 rw [extractLsb'_append_eq_of_le (by decide)]
    rw [extractLsb'_append_eq_of_add_le (by decide)]
    exact extractLsb'_eq_self
  · iterate 2 rw [extractLsb'_append_eq_of_le (by decide)]
    rw [extractLsb'_append_eq_of_add_le (by decide)]
    exact extractLsb'_eq_self
  · iterate 1 rw [extractLsb'_append_eq_of_le (by decide)]
    rw [extractLsb'_append_eq_of_add_le (by decide)]
    exact extractLsb'_eq_self
  · rw [extractLsb'_append_eq_of_add_le (by decide)]
    exact extractLsb'_eq_self

theorem layout43 (x0 : BitVec 1) (x1 : BitVec 2) (x2 : BitVec 13) (x3 : BitVec 12) (x4 : BitVec 4) (w : Word) (h : w = x0 ++ x1 ++ x2 ++ x3 ++ x4) :
    w.extractLsb' 31 1 = x0 ∧
    w.extractLsb' 29 2 = x1 ∧
    w.extractLsb' 22 7 = x2.extractLsb' 6 7 ∧
    w.extractLsb' 16 6 = x2.extractLsb' 0 6 ∧
    w.extractLsb' 4 12 = x3 ∧
    w.extractLsb' 0 4 = x4 := by
  subst h
  refine ⟨?_, ?_, ?_, ?_, ?_, ?_⟩
  · iterate 4 rw [extractLsb'_append_eq_of_le (by decide)]
    exact extractLsb'_eq_self
  · iterate 3 rw [extractLsb'_append_eq_of_le (by decide)]
    rw [extractLsb'_append_eq_of_add_le (by decide)]
    exact extractLsb'_eq_self
  · iterate 2 rw [extractLsb'_append_eq_of_le (by decide)]
    rw [extractLsb'_append_eq_of_add_le (by decide)]
  · iterate 2 rw [extractLsb'_append_eq_of_le (by decide)]
    rw [extractLsb'_append_eq_of_add_le (by decide)]
  · iterate 1 rw [extractLsb'_append_eq_of_le (by decide)]
    rw [extractLsb'_append_eq_of_add_le (by decide)]
    exact extractLsb'_eq_self
  · rw [extractLsb'_append_eq_of_add_le (by decide)]
    exact extractLsb'_eq_self

theorem layout44 (x0 : BitVec 1) (x1 : BitVec 2) (x2 : BitVec 29) (w : Word) (h : w = x0 ++ x1 ++ x2) :
    w.extractLsb' 31 1 = x0 ∧
    w.extractLsb' 29 2 = x1 ∧
    w.extractLsb' 22 7 = x2.extractLsb' 22 7 ∧
    w.extractLsb' 16 6 = x2.extractLsb' 16 6 ∧
    w.extractLsb' 10 6 = x2.extractLsb' 10 6 ∧
    w.extractLsb' 4 18 = x2.extractLsb' 4 18 ∧
    w.extractLsb' 4 12 = x2.extractLsb' 4 12 ∧
    w.extractLsb' 4 6 = x2.extractLsb' 4 6 ∧
    w.extractLsb' 0 4 = x2.extractLsb' 0 4 := by
  subst h
  refine ⟨?_, ?_, ?_, ?_, ?_, ?_, ?_, ?_, ?_⟩
  · iterate 2 rw [extractLsb'_append_eq_of_le (by decide)]
    exact extractLsb'_eq_self
  · iterate 1 rw [extractLsb'_append_eq_of_le (by decide)]
    rw [extractLsb'_append_eq_of_add_le (by decide)]
    exact extractLsb'_eq_self
  · rw [extractLsb'_append_eq_of_add_le (by decide)]
  · rw [extractLsb'_append_eq_of_add_le (by decide)]
  · rw [extractLsb'_append_eq_of_add_le (by decide)]
  · rw [extractLsb'_append_eq_of_add_le (by decide)]
  · rw [extractLsb'_append_eq_of_add_le (by decide)]
  · rw [extractLsb'_append_eq_of_add_le (by decide)]
  · rw [extractLsb'_append_eq_of_add_le (by decide)]

theorem layout45 (x0 : BitVec 1) (x1 : BitVec 2) (x2 : BitVec 7) (x3 : BitVec 6) (x4 : BitVec 6) (x5 : BitVec 10) (w : Word) (h : w = x0 ++ x1 ++ x2 ++ x3 ++ x4 ++ x5) :
    w.extractLsb' 31 1 = x0 ∧
    w.extractLsb' 29 2 = x1 ∧
    w.extractLsb' 22 7 = x2 ∧
    w.extractLsb' 16 6 = x3 ∧
    w.extractLsb' 10 6 = x4 ∧
    w.extractLsb' 4 6 = x5.extractLsb' 4 6 ∧
    w.extractLsb' 0 4 = x5.extractLsb' 0 4 := by
  subst h
  refine ⟨?_, ?_, ?_, ?_, ?_, ?_, ?_⟩
  · iterate 5 rw [extractLsb'_append_eq_of_le (by decide)]
    exact extractLsb'_eq_self
  · iterate 4 rw [extractLsb'_append_eq_of_le (by decide)]
    rw [extractLsb'_append_eq_of_add_le (by decide)]
    exact extractLsb'_eq_self
  · iterate 3 rw [extractLsb'_append_eq_of_le (by decide)]
    rw [extractLsb'_append_eq_of_add_le (by decide)]
    exact extractLsb'_eq_self
  · iterate 2 rw [extractLsb'_append_eq_of_le (by decide)]
    rw [extractLsb'_append_eq_of_add_le (by decide)]
    exact extractLsb'_eq_self
  · iterate 1 rw [extractLsb'_append_eq_of_le (by decide)]
    rw [extractLsb'_append_eq_of_add_le (by decide)]
    exact extractLsb'_eq_self
  · rw [extractLsb'_append_eq_of_add_le (by decide)]
  · rw [extractLsb'_append_eq_of_add_le (by decide)]

theorem layout46 (x0 : BitVec 1) (x1 : BitVec 2) (x2 : BitVec 29) (w : Word) (h : w = x0 ++ x1 ++ x2) :
    w.extractLsb' 31 1 = x0 ∧
    w.extractLsb' 29 2 = x1 ∧
    w.extractLsb' 22 7 = x2.extractLsb' 22 7 ∧
    w.extractLsb' 16 6 = x2.extractLsb' 16 6 ∧
    w.extractLsb' 10 6 = x2.extractLsb' 10 6 ∧
    w.extractLsb' 4 12 = x2.extractLsb' 4 12 ∧
    w.extractLsb' 4 6 = x2.extractLsb' 4 6 ∧
    w.extractLsb' 0 4 = x2.extractLsb' 0 4 := by
  subst h
  refine ⟨?_, ?_, ?_, ?_, ?_, ?_, ?_, ?_⟩
  · iterate 2 rw [extractLsb'_append_eq_of_le (by decide)]
    exact extractLsb'_eq_self
  · iterate 1 rw [extractLsb'_append_eq_of_le (by decide)]
    rw [extractLsb'_append_eq_of_add_le (by decide)]
    exact extractLsb'_eq_self
  · rw [extractLsb'_append_eq_of_add_le (by decide)]
  · rw [extractLsb'_append_eq_of_add_le (by decide)]
  · rw [extractLsb'_append_eq_of_add_le (by decide)]
  · rw [extractLsb'_append_eq_of_add_le (by decide)]
  · rw [extractLsb'_append_eq_of_add_le (by decide)]
  · rw [extractLsb'_append_eq_of_add_le (by decide)]

theorem layout47 (x0 : BitVec 1) (x1 : BitVec 2) (x2 : BitVec 13) (x3 : BitVec 6) (x4 : BitVec 10) (w : Word) (h : w = x0 ++ x1 ++ x2 ++ x3 ++ x4) :
    w.extractLsb' 31 1 = x0 ∧
    w.extractLsb' 29 2 = x1 ∧
    w.extractLsb' 22 7 = x2.extractLsb' 6 7 ∧
    w.extractLsb' 16 6 = x2.extractLsb' 0 6 ∧
    w.extractLsb' 10 6 = x3 ∧
    w.extractLsb' 4 6 = x4.extractLsb' 4 6 ∧
    w.extractLsb' 0 4 = x4.extractLsb' 0 4 := by
  subst h
  refine ⟨?_, ?_, ?_, ?_, ?_, ?_, ?_⟩
  · iterate 4 rw [extractLsb'_append_eq_of_le (by decide)]
    exact extractLsb'_eq_self
  · iterate 3 rw [extractLsb'_append_eq_of_le (by decide)]
    rw [extractLsb'_append_eq_of_add_le (by decide)]
    exact extractLsb'_eq_self
  · iterate 2 rw [extractLsb'_append_eq_of_le (by decide)]
    rw [extractLsb'_append_eq_of_add_le (by decide)]
  · iterate 2 rw [extractLsb'_append_eq_of_le (by decide)]
    rw [extractLsb'_append_eq_of_add_le (by decide)]
  · iterate 1 rw [extractLsb'_append_eq_of_le (by decide)]
    rw [extractLsb'_append_eq_of_add_le (by decide)]
    exact extractLsb'_eq_self
  · rw [extractLsb'_append_eq_of_add_le (by decide)]
  · rw [extractLsb'_append_eq_of_add_le (by decide)]

theorem iadd (s : BitVec 2) (d : BitVec 7) (a : BitVec 7) (b : BitVec 7) : Statement (.iadd s d a b) := by
  intro _ wf
  obtain ⟨h31_1, h29_2, h21_8, h14_7, h7_7, h0_7⟩ := layout1 _ _ _ _ _ _ (encode (.iadd s d a b)) rfl
  generalize encode (.iadd s d a b) = w at *
  subst h29_2 h14_7 h7_7 h0_7
  refine (if_pos h31_1).trans ?_
  unfold decodeLane
  rw [h21_8]; rfl

theorem isub (s : BitVec 2) (d : BitVec 7) (a : BitVec 7) (b : BitVec 7) : Statement (.isub s d a b) := by
  intro _ wf
  obtain ⟨h31_1, h29_2, h21_8, h14_7, h7_7, h0_7⟩ := layout1 _ _ _ _ _ _ (encode (.isub s d a b)) rfl
  generalize encode (.isub s d a b) = w at *
  subst h29_2 h14_7 h7_7 h0_7
  refine (if_pos h31_1).trans ?_
  unfold decodeLane
  rw [h21_8]; rfl

theorem imul (s : BitVec 2) (d : BitVec 7) (a : BitVec 7) (b : BitVec 7) : Statement (.imul s d a b) := by
  intro _ wf
  obtain ⟨h31_1, h29_2, h21_8, h14_7, h7_7, h0_7⟩ := layout1 _ _ _ _ _ _ (encode (.imul s d a b)) rfl
  generalize encode (.imul s d a b) = w at *
  subst h29_2 h14_7 h7_7 h0_7
  refine (if_pos h31_1).trans ?_
  unfold decodeLane
  rw [h21_8]; rfl

theorem imulhI32 (s : BitVec 2) (d : BitVec 7) (a : BitVec 7) (b : BitVec 7) : Statement (.imulhI32 s d a b) := by
  intro _ wf
  obtain ⟨h31_1, h29_2, h21_8, h14_7, h7_7, h0_7⟩ := layout1 _ _ _ _ _ _ (encode (.imulhI32 s d a b)) rfl
  generalize encode (.imulhI32 s d a b) = w at *
  subst h29_2 h14_7 h7_7 h0_7
  refine (if_pos h31_1).trans ?_
  unfold decodeLane
  rw [h21_8]; rfl

theorem imulhN32 (s : BitVec 2) (d : BitVec 7) (a : BitVec 7) (b : BitVec 7) : Statement (.imulhN32 s d a b) := by
  intro _ wf
  obtain ⟨h31_1, h29_2, h21_8, h14_7, h7_7, h0_7⟩ := layout1 _ _ _ _ _ _ (encode (.imulhN32 s d a b)) rfl
  generalize encode (.imulhN32 s d a b) = w at *
  subst h29_2 h14_7 h7_7 h0_7
  refine (if_pos h31_1).trans ?_
  unfold decodeLane
  rw [h21_8]; rfl

theorem imad (s : BitVec 2) (d : BitVec 7) (a : BitVec 7) (b : BitVec 7) : Statement (.imad s d a b) := by
  intro _ wf
  obtain ⟨h31_1, h29_2, h21_8, h14_7, h7_7, h0_7⟩ := layout1 _ _ _ _ _ _ (encode (.imad s d a b)) rfl
  generalize encode (.imad s d a b) = w at *
  subst h29_2 h14_7 h7_7 h0_7
  refine (if_pos h31_1).trans ?_
  unfold decodeLane
  rw [h21_8]; rfl

theorem iminI32 (s : BitVec 2) (d : BitVec 7) (a : BitVec 7) (b : BitVec 7) : Statement (.iminI32 s d a b) := by
  intro _ wf
  obtain ⟨h31_1, h29_2, h21_8, h14_7, h7_7, h0_7⟩ := layout1 _ _ _ _ _ _ (encode (.iminI32 s d a b)) rfl
  generalize encode (.iminI32 s d a b) = w at *
  subst h29_2 h14_7 h7_7 h0_7
  refine (if_pos h31_1).trans ?_
  unfold decodeLane
  rw [h21_8]; rfl

theorem iminN32 (s : BitVec 2) (d : BitVec 7) (a : BitVec 7) (b : BitVec 7) : Statement (.iminN32 s d a b) := by
  intro _ wf
  obtain ⟨h31_1, h29_2, h21_8, h14_7, h7_7, h0_7⟩ := layout1 _ _ _ _ _ _ (encode (.iminN32 s d a b)) rfl
  generalize encode (.iminN32 s d a b) = w at *
  subst h29_2 h14_7 h7_7 h0_7
  refine (if_pos h31_1).trans ?_
  unfold decodeLane
  rw [h21_8]; rfl

theorem imaxI32 (s : BitVec 2) (d : BitVec 7) (a : BitVec 7) (b : BitVec 7) : Statement (.imaxI32 s d a b) := by
  intro _ wf
  obtain ⟨h31_1, h29_2, h21_8, h14_7, h7_7, h0_7⟩ := layout1 _ _ _ _ _ _ (encode (.imaxI32 s d a b)) rfl
  generalize encode (.imaxI32 s d a b) = w at *
  subst h29_2 h14_7 h7_7 h0_7
  refine (if_pos h31_1).trans ?_
  unfold decodeLane
  rw [h21_8]; rfl

theorem imaxN32 (s : BitVec 2) (d : BitVec 7) (a : BitVec 7) (b : BitVec 7) : Statement (.imaxN32 s d a b) := by
  intro _ wf
  obtain ⟨h31_1, h29_2, h21_8, h14_7, h7_7, h0_7⟩ := layout1 _ _ _ _ _ _ (encode (.imaxN32 s d a b)) rfl
  generalize encode (.imaxN32 s d a b) = w at *
  subst h29_2 h14_7 h7_7 h0_7
  refine (if_pos h31_1).trans ?_
  unfold decodeLane
  rw [h21_8]; rfl

theorem iabs (s : BitVec 2) (d : BitVec 7) (a : BitVec 7) : Statement (.iabs s d a) := by
  intro _ wf
  obtain ⟨h31_1, h29_2, h21_8, h14_7, h7_7, h0_7⟩ := layout1 _ _ _ _ _ _ (encode (.iabs s d a)) rfl
  generalize encode (.iabs s d a) = w at *
  subst h29_2 h14_7 h7_7
  refine (if_pos h31_1).trans ?_
  unfold decodeLane
  rw [h21_8]
  refine Eq.trans (b := fixedOr ((w.extractLsb' 0 7) = 0#7) (.iabs (w.extractLsb' 29 2) (w.extractLsb' 14 7) (w.extractLsb' 7 7))) rfl ?_
  simp [fixedOr, h0_7]

theorem ineg (s : BitVec 2) (d : BitVec 7) (a : BitVec 7) : Statement (.ineg s d a) := by
  intro _ wf
  obtain ⟨h31_1, h29_2, h21_8, h14_7, h7_7, h0_7⟩ := layout1 _ _ _ _ _ _ (encode (.ineg s d a)) rfl
  generalize encode (.ineg s d a) = w at *
  subst h29_2 h14_7 h7_7
  refine (if_pos h31_1).trans ?_
  unfold decodeLane
  rw [h21_8]
  refine Eq.trans (b := fixedOr ((w.extractLsb' 0 7) = 0#7) (.ineg (w.extractLsb' 29 2) (w.extractLsb' 14 7) (w.extractLsb' 7 7))) rfl ?_
  simp [fixedOr, h0_7]

theorem iaddi (s : BitVec 2) (d : BitVec 7) (a : BitVec 7) (i : BitVec 7) : Statement (.iaddi s d a i) := by
  intro _ wf
  obtain ⟨h31_1, h29_2, h21_8, h14_7, h7_7, h0_7⟩ := layout1 _ _ _ _ _ _ (encode (.iaddi s d a i)) rfl
  generalize encode (.iaddi s d a i) = w at *
  subst h29_2 h14_7 h7_7 h0_7
  refine (if_pos h31_1).trans ?_
  unfold decodeLane
  rw [h21_8]; rfl

theorem imuli (s : BitVec 2) (d : BitVec 7) (a : BitVec 7) (i : BitVec 7) : Statement (.imuli s d a i) := by
  intro _ wf
  obtain ⟨h31_1, h29_2, h21_8, h14_7, h7_7, h0_7⟩ := layout1 _ _ _ _ _ _ (encode (.imuli s d a i)) rfl
  generalize encode (.imuli s d a i) = w at *
  subst h29_2 h14_7 h7_7 h0_7
  refine (if_pos h31_1).trans ?_
  unfold decodeLane
  rw [h21_8]; rfl

theorem icmp (s : BitVec 2) (c : BitVec 4) (p : BitVec 3) (a : BitVec 7) (b : BitVec 7) : Statement (.icmp s c p a b) := by
  intro _ wf
  obtain ⟨h31_1, h29_2, h21_8, h17_4, h14_3, h7_7, h0_7⟩ := layout2 _ _ _ _ _ _ _ (encode (.icmp s c p a b)) rfl
  generalize encode (.icmp s c p a b) = w at *
  subst h29_2 h17_4 h14_3 h7_7 h0_7
  refine (if_pos h31_1).trans ?_
  unfold decodeLane
  rw [h21_8]; rfl

theorem icmpi (s : BitVec 2) (c : BitVec 4) (p : BitVec 3) (a : BitVec 7) (i : BitVec 7) : Statement (.icmpi s c p a i) := by
  intro _ wf
  obtain ⟨h31_1, h29_2, h21_8, h17_4, h14_3, h7_7, h0_7⟩ := layout2 _ _ _ _ _ _ _ (encode (.icmpi s c p a i)) rfl
  generalize encode (.icmpi s c p a i) = w at *
  subst h29_2 h17_4 h14_3 h7_7 h0_7
  refine (if_pos h31_1).trans ?_
  unfold decodeLane
  rw [h21_8]; rfl

theorem mov (s : BitVec 2) (d : BitVec 7) (a : BitVec 7) : Statement (.mov s d a) := by
  intro _ wf
  obtain ⟨h31_1, h29_2, h21_8, h14_7, h7_7, h0_7⟩ := layout1 _ _ _ _ _ _ (encode (.mov s d a)) rfl
  generalize encode (.mov s d a) = w at *
  subst h29_2 h14_7 h7_7
  refine (if_pos h31_1).trans ?_
  unfold decodeLane
  rw [h21_8]
  refine Eq.trans (b := fixedOr ((w.extractLsb' 0 7) = 0#7) (.mov (w.extractLsb' 29 2) (w.extractLsb' 14 7) (w.extractLsb' 7 7))) rfl ?_
  simp [fixedOr, h0_7]

theorem movi (s : BitVec 2) (d : BitVec 7) (i : BitVec 14) : Statement (.movi s d i) := by
  intro _ wf
  obtain ⟨h31_1, h29_2, h21_8, h14_7, h0_14⟩ := layout3 _ _ _ _ _ (encode (.movi s d i)) rfl
  generalize encode (.movi s d i) = w at *
  subst h29_2 h14_7 h0_14
  refine (if_pos h31_1).trans ?_
  unfold decodeLane
  rw [h21_8]; rfl

theorem sel (s : BitVec 2) (p : BitVec 3) (d : BitVec 7) (a : BitVec 7) (b : BitVec 7) : Statement (.sel s p d a b) := by
  intro _ wf
  obtain ⟨h31_1, h29_2, h21_8, h21_3, h14_7, h7_7, h0_7⟩ := layout4 _ _ _ _ _ _ _ (encode (.sel s p d a b)) rfl
  generalize encode (.sel s p d a b) = w at *
  subst h29_2 h21_3 h14_7 h7_7 h0_7
  refine (if_pos h31_1).trans ?_
  unfold decodeLane
  rcases cases3 (w.extractLsb' 21 3) with h | h | h | h | h | h | h | h <;>
    rw [h21_8, h] <;> rfl

theorem and (s : BitVec 2) (d : BitVec 7) (a : BitVec 7) (b : BitVec 7) : Statement (.and s d a b) := by
  intro _ wf
  obtain ⟨h31_1, h29_2, h21_8, h14_7, h7_7, h0_7⟩ := layout1 _ _ _ _ _ _ (encode (.and s d a b)) rfl
  generalize encode (.and s d a b) = w at *
  subst h29_2 h14_7 h7_7 h0_7
  refine (if_pos h31_1).trans ?_
  unfold decodeLane
  rw [h21_8]; rfl

theorem or (s : BitVec 2) (d : BitVec 7) (a : BitVec 7) (b : BitVec 7) : Statement (.or s d a b) := by
  intro _ wf
  obtain ⟨h31_1, h29_2, h21_8, h14_7, h7_7, h0_7⟩ := layout1 _ _ _ _ _ _ (encode (.or s d a b)) rfl
  generalize encode (.or s d a b) = w at *
  subst h29_2 h14_7 h7_7 h0_7
  refine (if_pos h31_1).trans ?_
  unfold decodeLane
  rw [h21_8]; rfl

theorem xor (s : BitVec 2) (d : BitVec 7) (a : BitVec 7) (b : BitVec 7) : Statement (.xor s d a b) := by
  intro _ wf
  obtain ⟨h31_1, h29_2, h21_8, h14_7, h7_7, h0_7⟩ := layout1 _ _ _ _ _ _ (encode (.xor s d a b)) rfl
  generalize encode (.xor s d a b) = w at *
  subst h29_2 h14_7 h7_7 h0_7
  refine (if_pos h31_1).trans ?_
  unfold decodeLane
  rw [h21_8]; rfl

theorem andn (s : BitVec 2) (d : BitVec 7) (a : BitVec 7) (b : BitVec 7) : Statement (.andn s d a b) := by
  intro _ wf
  obtain ⟨h31_1, h29_2, h21_8, h14_7, h7_7, h0_7⟩ := layout1 _ _ _ _ _ _ (encode (.andn s d a b)) rfl
  generalize encode (.andn s d a b) = w at *
  subst h29_2 h14_7 h7_7 h0_7
  refine (if_pos h31_1).trans ?_
  unfold decodeLane
  rw [h21_8]; rfl

theorem not (s : BitVec 2) (d : BitVec 7) (a : BitVec 7) : Statement (.not s d a) := by
  intro _ wf
  obtain ⟨h31_1, h29_2, h21_8, h14_7, h7_7, h0_7⟩ := layout1 _ _ _ _ _ _ (encode (.not s d a)) rfl
  generalize encode (.not s d a) = w at *
  subst h29_2 h14_7 h7_7
  refine (if_pos h31_1).trans ?_
  unfold decodeLane
  rw [h21_8]
  refine Eq.trans (b := fixedOr ((w.extractLsb' 0 7) = 0#7) (.not (w.extractLsb' 29 2) (w.extractLsb' 14 7) (w.extractLsb' 7 7))) rfl ?_
  simp [fixedOr, h0_7]

theorem andi (s : BitVec 2) (d : BitVec 7) (a : BitVec 7) (i : BitVec 7) : Statement (.andi s d a i) := by
  intro _ wf
  obtain ⟨h31_1, h29_2, h21_8, h14_7, h7_7, h0_7⟩ := layout1 _ _ _ _ _ _ (encode (.andi s d a i)) rfl
  generalize encode (.andi s d a i) = w at *
  subst h29_2 h14_7 h7_7 h0_7
  refine (if_pos h31_1).trans ?_
  unfold decodeLane
  rw [h21_8]; rfl

theorem ori (s : BitVec 2) (d : BitVec 7) (a : BitVec 7) (i : BitVec 7) : Statement (.ori s d a i) := by
  intro _ wf
  obtain ⟨h31_1, h29_2, h21_8, h14_7, h7_7, h0_7⟩ := layout1 _ _ _ _ _ _ (encode (.ori s d a i)) rfl
  generalize encode (.ori s d a i) = w at *
  subst h29_2 h14_7 h7_7 h0_7
  refine (if_pos h31_1).trans ?_
  unfold decodeLane
  rw [h21_8]; rfl

theorem xori (s : BitVec 2) (d : BitVec 7) (a : BitVec 7) (i : BitVec 7) : Statement (.xori s d a i) := by
  intro _ wf
  obtain ⟨h31_1, h29_2, h21_8, h14_7, h7_7, h0_7⟩ := layout1 _ _ _ _ _ _ (encode (.xori s d a i)) rfl
  generalize encode (.xori s d a i) = w at *
  subst h29_2 h14_7 h7_7 h0_7
  refine (if_pos h31_1).trans ?_
  unfold decodeLane
  rw [h21_8]; rfl

theorem shl (s : BitVec 2) (d : BitVec 7) (a : BitVec 7) (b : BitVec 7) : Statement (.shl s d a b) := by
  intro _ wf
  obtain ⟨h31_1, h29_2, h21_8, h14_7, h7_7, h0_7⟩ := layout1 _ _ _ _ _ _ (encode (.shl s d a b)) rfl
  generalize encode (.shl s d a b) = w at *
  subst h29_2 h14_7 h7_7 h0_7
  refine (if_pos h31_1).trans ?_
  unfold decodeLane
  rw [h21_8]; rfl

theorem shr (s : BitVec 2) (d : BitVec 7) (a : BitVec 7) (b : BitVec 7) : Statement (.shr s d a b) := by
  intro _ wf
  obtain ⟨h31_1, h29_2, h21_8, h14_7, h7_7, h0_7⟩ := layout1 _ _ _ _ _ _ (encode (.shr s d a b)) rfl
  generalize encode (.shr s d a b) = w at *
  subst h29_2 h14_7 h7_7 h0_7
  refine (if_pos h31_1).trans ?_
  unfold decodeLane
  rw [h21_8]; rfl

theorem sar (s : BitVec 2) (d : BitVec 7) (a : BitVec 7) (b : BitVec 7) : Statement (.sar s d a b) := by
  intro _ wf
  obtain ⟨h31_1, h29_2, h21_8, h14_7, h7_7, h0_7⟩ := layout1 _ _ _ _ _ _ (encode (.sar s d a b)) rfl
  generalize encode (.sar s d a b) = w at *
  subst h29_2 h14_7 h7_7 h0_7
  refine (if_pos h31_1).trans ?_
  unfold decodeLane
  rw [h21_8]; rfl

theorem rol (s : BitVec 2) (d : BitVec 7) (a : BitVec 7) (b : BitVec 7) : Statement (.rol s d a b) := by
  intro _ wf
  obtain ⟨h31_1, h29_2, h21_8, h14_7, h7_7, h0_7⟩ := layout1 _ _ _ _ _ _ (encode (.rol s d a b)) rfl
  generalize encode (.rol s d a b) = w at *
  subst h29_2 h14_7 h7_7 h0_7
  refine (if_pos h31_1).trans ?_
  unfold decodeLane
  rw [h21_8]; rfl

theorem shli (s : BitVec 2) (d : BitVec 7) (a : BitVec 7) (i : BitVec 7) : Statement (.shli s d a i) := by
  intro _ wf
  obtain ⟨h31_1, h29_2, h21_8, h14_7, h7_7, h0_7⟩ := layout1 _ _ _ _ _ _ (encode (.shli s d a i)) rfl
  generalize encode (.shli s d a i) = w at *
  subst h29_2 h14_7 h7_7 h0_7
  refine (if_pos h31_1).trans ?_
  unfold decodeLane
  rw [h21_8]; rfl

theorem shri (s : BitVec 2) (d : BitVec 7) (a : BitVec 7) (i : BitVec 7) : Statement (.shri s d a i) := by
  intro _ wf
  obtain ⟨h31_1, h29_2, h21_8, h14_7, h7_7, h0_7⟩ := layout1 _ _ _ _ _ _ (encode (.shri s d a i)) rfl
  generalize encode (.shri s d a i) = w at *
  subst h29_2 h14_7 h7_7 h0_7
  refine (if_pos h31_1).trans ?_
  unfold decodeLane
  rw [h21_8]; rfl

theorem sari (s : BitVec 2) (d : BitVec 7) (a : BitVec 7) (i : BitVec 7) : Statement (.sari s d a i) := by
  intro _ wf
  obtain ⟨h31_1, h29_2, h21_8, h14_7, h7_7, h0_7⟩ := layout1 _ _ _ _ _ _ (encode (.sari s d a i)) rfl
  generalize encode (.sari s d a i) = w at *
  subst h29_2 h14_7 h7_7 h0_7
  refine (if_pos h31_1).trans ?_
  unfold decodeLane
  rw [h21_8]; rfl

theorem popc (s : BitVec 2) (d : BitVec 7) (a : BitVec 7) : Statement (.popc s d a) := by
  intro _ wf
  obtain ⟨h31_1, h29_2, h21_8, h14_7, h7_7, h0_7⟩ := layout1 _ _ _ _ _ _ (encode (.popc s d a)) rfl
  generalize encode (.popc s d a) = w at *
  subst h29_2 h14_7 h7_7
  refine (if_pos h31_1).trans ?_
  unfold decodeLane
  rw [h21_8]
  refine Eq.trans (b := fixedOr ((w.extractLsb' 0 7) = 0#7) (.popc (w.extractLsb' 29 2) (w.extractLsb' 14 7) (w.extractLsb' 7 7))) rfl ?_
  simp [fixedOr, h0_7]

theorem clz (s : BitVec 2) (d : BitVec 7) (a : BitVec 7) : Statement (.clz s d a) := by
  intro _ wf
  obtain ⟨h31_1, h29_2, h21_8, h14_7, h7_7, h0_7⟩ := layout1 _ _ _ _ _ _ (encode (.clz s d a)) rfl
  generalize encode (.clz s d a) = w at *
  subst h29_2 h14_7 h7_7
  refine (if_pos h31_1).trans ?_
  unfold decodeLane
  rw [h21_8]
  refine Eq.trans (b := fixedOr ((w.extractLsb' 0 7) = 0#7) (.clz (w.extractLsb' 29 2) (w.extractLsb' 14 7) (w.extractLsb' 7 7))) rfl ?_
  simp [fixedOr, h0_7]

theorem ctz (s : BitVec 2) (d : BitVec 7) (a : BitVec 7) : Statement (.ctz s d a) := by
  intro _ wf
  obtain ⟨h31_1, h29_2, h21_8, h14_7, h7_7, h0_7⟩ := layout1 _ _ _ _ _ _ (encode (.ctz s d a)) rfl
  generalize encode (.ctz s d a) = w at *
  subst h29_2 h14_7 h7_7
  refine (if_pos h31_1).trans ?_
  unfold decodeLane
  rw [h21_8]
  refine Eq.trans (b := fixedOr ((w.extractLsb' 0 7) = 0#7) (.ctz (w.extractLsb' 29 2) (w.extractLsb' 14 7) (w.extractLsb' 7 7))) rfl ?_
  simp [fixedOr, h0_7]

theorem brev (s : BitVec 2) (d : BitVec 7) (a : BitVec 7) : Statement (.brev s d a) := by
  intro _ wf
  obtain ⟨h31_1, h29_2, h21_8, h14_7, h7_7, h0_7⟩ := layout1 _ _ _ _ _ _ (encode (.brev s d a)) rfl
  generalize encode (.brev s d a) = w at *
  subst h29_2 h14_7 h7_7
  refine (if_pos h31_1).trans ?_
  unfold decodeLane
  rw [h21_8]
  refine Eq.trans (b := fixedOr ((w.extractLsb' 0 7) = 0#7) (.brev (w.extractLsb' 29 2) (w.extractLsb' 14 7) (w.extractLsb' 7 7))) rfl ?_
  simp [fixedOr, h0_7]

theorem bfeN32 (s : BitVec 2) (d : BitVec 7) (a : BitVec 7) (b : BitVec 7) : Statement (.bfeN32 s d a b) := by
  intro _ wf
  obtain ⟨h31_1, h29_2, h21_8, h14_7, h7_7, h0_7⟩ := layout1 _ _ _ _ _ _ (encode (.bfeN32 s d a b)) rfl
  generalize encode (.bfeN32 s d a b) = w at *
  subst h29_2 h14_7 h7_7 h0_7
  refine (if_pos h31_1).trans ?_
  unfold decodeLane
  rw [h21_8]; rfl

theorem bfeI32 (s : BitVec 2) (d : BitVec 7) (a : BitVec 7) (b : BitVec 7) : Statement (.bfeI32 s d a b) := by
  intro _ wf
  obtain ⟨h31_1, h29_2, h21_8, h14_7, h7_7, h0_7⟩ := layout1 _ _ _ _ _ _ (encode (.bfeI32 s d a b)) rfl
  generalize encode (.bfeI32 s d a b) = w at *
  subst h29_2 h14_7 h7_7 h0_7
  refine (if_pos h31_1).trans ?_
  unfold decodeLane
  rw [h21_8]; rfl

theorem bfi (s : BitVec 2) (d : BitVec 7) (a : BitVec 7) (b : BitVec 7) : Statement (.bfi s d a b) := by
  intro _ wf
  obtain ⟨h31_1, h29_2, h21_8, h14_7, h7_7, h0_7⟩ := layout1 _ _ _ _ _ _ (encode (.bfi s d a b)) rfl
  generalize encode (.bfi s d a b) = w at *
  subst h29_2 h14_7 h7_7 h0_7
  refine (if_pos h31_1).trans ?_
  unfold decodeLane
  rw [h21_8]; rfl

theorem fadd (s : BitVec 2) (d : BitVec 7) (a : BitVec 7) (b : BitVec 7) : Statement (.fadd s d a b) := by
  intro _ wf
  obtain ⟨h31_1, h29_2, h21_8, h14_7, h7_7, h0_7⟩ := layout1 _ _ _ _ _ _ (encode (.fadd s d a b)) rfl
  generalize encode (.fadd s d a b) = w at *
  subst h29_2 h14_7 h7_7 h0_7
  refine (if_pos h31_1).trans ?_
  unfold decodeLane
  rw [h21_8]; rfl

theorem fsub (s : BitVec 2) (d : BitVec 7) (a : BitVec 7) (b : BitVec 7) : Statement (.fsub s d a b) := by
  intro _ wf
  obtain ⟨h31_1, h29_2, h21_8, h14_7, h7_7, h0_7⟩ := layout1 _ _ _ _ _ _ (encode (.fsub s d a b)) rfl
  generalize encode (.fsub s d a b) = w at *
  subst h29_2 h14_7 h7_7 h0_7
  refine (if_pos h31_1).trans ?_
  unfold decodeLane
  rw [h21_8]; rfl

theorem fmul (s : BitVec 2) (d : BitVec 7) (a : BitVec 7) (b : BitVec 7) : Statement (.fmul s d a b) := by
  intro _ wf
  obtain ⟨h31_1, h29_2, h21_8, h14_7, h7_7, h0_7⟩ := layout1 _ _ _ _ _ _ (encode (.fmul s d a b)) rfl
  generalize encode (.fmul s d a b) = w at *
  subst h29_2 h14_7 h7_7 h0_7
  refine (if_pos h31_1).trans ?_
  unfold decodeLane
  rw [h21_8]; rfl

theorem ffma (s : BitVec 2) (d : BitVec 7) (a : BitVec 7) (b : BitVec 7) : Statement (.ffma s d a b) := by
  intro _ wf
  obtain ⟨h31_1, h29_2, h21_8, h14_7, h7_7, h0_7⟩ := layout1 _ _ _ _ _ _ (encode (.ffma s d a b)) rfl
  generalize encode (.ffma s d a b) = w at *
  subst h29_2 h14_7 h7_7 h0_7
  refine (if_pos h31_1).trans ?_
  unfold decodeLane
  rw [h21_8]; rfl

theorem fmin (s : BitVec 2) (d : BitVec 7) (a : BitVec 7) (b : BitVec 7) : Statement (.fmin s d a b) := by
  intro _ wf
  obtain ⟨h31_1, h29_2, h21_8, h14_7, h7_7, h0_7⟩ := layout1 _ _ _ _ _ _ (encode (.fmin s d a b)) rfl
  generalize encode (.fmin s d a b) = w at *
  subst h29_2 h14_7 h7_7 h0_7
  refine (if_pos h31_1).trans ?_
  unfold decodeLane
  rw [h21_8]; rfl

theorem fmax (s : BitVec 2) (d : BitVec 7) (a : BitVec 7) (b : BitVec 7) : Statement (.fmax s d a b) := by
  intro _ wf
  obtain ⟨h31_1, h29_2, h21_8, h14_7, h7_7, h0_7⟩ := layout1 _ _ _ _ _ _ (encode (.fmax s d a b)) rfl
  generalize encode (.fmax s d a b) = w at *
  subst h29_2 h14_7 h7_7 h0_7
  refine (if_pos h31_1).trans ?_
  unfold decodeLane
  rw [h21_8]; rfl

theorem fabs (s : BitVec 2) (d : BitVec 7) (a : BitVec 7) : Statement (.fabs s d a) := by
  intro _ wf
  obtain ⟨h31_1, h29_2, h21_8, h14_7, h7_7, h0_7⟩ := layout1 _ _ _ _ _ _ (encode (.fabs s d a)) rfl
  generalize encode (.fabs s d a) = w at *
  subst h29_2 h14_7 h7_7
  refine (if_pos h31_1).trans ?_
  unfold decodeLane
  rw [h21_8]
  refine Eq.trans (b := fixedOr ((w.extractLsb' 0 7) = 0#7) (.fabs (w.extractLsb' 29 2) (w.extractLsb' 14 7) (w.extractLsb' 7 7))) rfl ?_
  simp [fixedOr, h0_7]

theorem fneg (s : BitVec 2) (d : BitVec 7) (a : BitVec 7) : Statement (.fneg s d a) := by
  intro _ wf
  obtain ⟨h31_1, h29_2, h21_8, h14_7, h7_7, h0_7⟩ := layout1 _ _ _ _ _ _ (encode (.fneg s d a)) rfl
  generalize encode (.fneg s d a) = w at *
  subst h29_2 h14_7 h7_7
  refine (if_pos h31_1).trans ?_
  unfold decodeLane
  rw [h21_8]
  refine Eq.trans (b := fixedOr ((w.extractLsb' 0 7) = 0#7) (.fneg (w.extractLsb' 29 2) (w.extractLsb' 14 7) (w.extractLsb' 7 7))) rfl ?_
  simp [fixedOr, h0_7]

theorem fcmp (s : BitVec 2) (c : BitVec 4) (p : BitVec 3) (a : BitVec 7) (b : BitVec 7) : Statement (.fcmp s c p a b) := by
  intro _ wf
  obtain ⟨h31_1, h29_2, h21_8, h17_4, h14_3, h7_7, h0_7⟩ := layout2 _ _ _ _ _ _ _ (encode (.fcmp s c p a b)) rfl
  generalize encode (.fcmp s c p a b) = w at *
  subst h29_2 h17_4 h14_3 h7_7 h0_7
  refine (if_pos h31_1).trans ?_
  unfold decodeLane
  rw [h21_8]; rfl

theorem fclass (s : BitVec 2) (d : BitVec 7) (a : BitVec 7) : Statement (.fclass s d a) := by
  intro _ wf
  obtain ⟨h31_1, h29_2, h21_8, h14_7, h7_7, h0_7⟩ := layout1 _ _ _ _ _ _ (encode (.fclass s d a)) rfl
  generalize encode (.fclass s d a) = w at *
  subst h29_2 h14_7 h7_7
  refine (if_pos h31_1).trans ?_
  unfold decodeLane
  rw [h21_8]
  refine Eq.trans (b := fixedOr ((w.extractLsb' 0 7) = 0#7) (.fclass (w.extractLsb' 29 2) (w.extractLsb' 14 7) (w.extractLsb' 7 7))) rfl ?_
  simp [fixedOr, h0_7]

theorem fcpys (s : BitVec 2) (d : BitVec 7) (a : BitVec 7) (b : BitVec 7) : Statement (.fcpys s d a b) := by
  intro _ wf
  obtain ⟨h31_1, h29_2, h21_8, h14_7, h7_7, h0_7⟩ := layout1 _ _ _ _ _ _ (encode (.fcpys s d a b)) rfl
  generalize encode (.fcpys s d a b) = w at *
  subst h29_2 h14_7 h7_7 h0_7
  refine (if_pos h31_1).trans ?_
  unfold decodeLane
  rw [h21_8]; rfl

theorem frnd (s : BitVec 2) (d : BitVec 7) (a : BitVec 7) : Statement (.frnd s d a) := by
  intro _ wf
  obtain ⟨h31_1, h29_2, h21_8, h14_7, h7_7, h0_7⟩ := layout1 _ _ _ _ _ _ (encode (.frnd s d a)) rfl
  generalize encode (.frnd s d a) = w at *
  subst h29_2 h14_7 h7_7
  refine (if_pos h31_1).trans ?_
  unfold decodeLane
  rw [h21_8]
  refine Eq.trans (b := fixedOr ((w.extractLsb' 0 7) = 0#7) (.frnd (w.extractLsb' 29 2) (w.extractLsb' 14 7) (w.extractLsb' 7 7))) rfl ?_
  simp [fixedOr, h0_7]

theorem hadd2 (s : BitVec 2) (f : BitVec 1) (d : BitVec 7) (a : BitVec 7) (b : BitVec 7) : Statement (.hadd2 s f d a b) := by
  intro _ wf
  obtain ⟨h31_1, h29_2, h21_8, h21_1, h14_7, h7_7, h0_7⟩ := layout5 _ _ _ _ _ _ _ (encode (.hadd2 s f d a b)) rfl
  generalize encode (.hadd2 s f d a b) = w at *
  subst h29_2 h21_1 h14_7 h7_7 h0_7
  refine (if_pos h31_1).trans ?_
  unfold decodeLane
  rcases cases1 (w.extractLsb' 21 1) with h | h <;>
    rw [h21_8, h] <;> rfl

theorem hsub2 (s : BitVec 2) (f : BitVec 1) (d : BitVec 7) (a : BitVec 7) (b : BitVec 7) : Statement (.hsub2 s f d a b) := by
  intro _ wf
  obtain ⟨h31_1, h29_2, h21_8, h21_1, h14_7, h7_7, h0_7⟩ := layout5 _ _ _ _ _ _ _ (encode (.hsub2 s f d a b)) rfl
  generalize encode (.hsub2 s f d a b) = w at *
  subst h29_2 h21_1 h14_7 h7_7 h0_7
  refine (if_pos h31_1).trans ?_
  unfold decodeLane
  rcases cases1 (w.extractLsb' 21 1) with h | h <;>
    rw [h21_8, h] <;> rfl

theorem hmul2 (s : BitVec 2) (f : BitVec 1) (d : BitVec 7) (a : BitVec 7) (b : BitVec 7) : Statement (.hmul2 s f d a b) := by
  intro _ wf
  obtain ⟨h31_1, h29_2, h21_8, h21_1, h14_7, h7_7, h0_7⟩ := layout5 _ _ _ _ _ _ _ (encode (.hmul2 s f d a b)) rfl
  generalize encode (.hmul2 s f d a b) = w at *
  subst h29_2 h21_1 h14_7 h7_7 h0_7
  refine (if_pos h31_1).trans ?_
  unfold decodeLane
  rcases cases1 (w.extractLsb' 21 1) with h | h <;>
    rw [h21_8, h] <;> rfl

theorem hfma2 (s : BitVec 2) (f : BitVec 1) (d : BitVec 7) (a : BitVec 7) (b : BitVec 7) : Statement (.hfma2 s f d a b) := by
  intro _ wf
  obtain ⟨h31_1, h29_2, h21_8, h21_1, h14_7, h7_7, h0_7⟩ := layout5 _ _ _ _ _ _ _ (encode (.hfma2 s f d a b)) rfl
  generalize encode (.hfma2 s f d a b) = w at *
  subst h29_2 h21_1 h14_7 h7_7 h0_7
  refine (if_pos h31_1).trans ?_
  unfold decodeLane
  rcases cases1 (w.extractLsb' 21 1) with h | h <;>
    rw [h21_8, h] <;> rfl

theorem hmin2 (s : BitVec 2) (f : BitVec 1) (d : BitVec 7) (a : BitVec 7) (b : BitVec 7) : Statement (.hmin2 s f d a b) := by
  intro _ wf
  obtain ⟨h31_1, h29_2, h21_8, h21_1, h14_7, h7_7, h0_7⟩ := layout5 _ _ _ _ _ _ _ (encode (.hmin2 s f d a b)) rfl
  generalize encode (.hmin2 s f d a b) = w at *
  subst h29_2 h21_1 h14_7 h7_7 h0_7
  refine (if_pos h31_1).trans ?_
  unfold decodeLane
  rcases cases1 (w.extractLsb' 21 1) with h | h <;>
    rw [h21_8, h] <;> rfl

theorem hmax2 (s : BitVec 2) (f : BitVec 1) (d : BitVec 7) (a : BitVec 7) (b : BitVec 7) : Statement (.hmax2 s f d a b) := by
  intro _ wf
  obtain ⟨h31_1, h29_2, h21_8, h21_1, h14_7, h7_7, h0_7⟩ := layout5 _ _ _ _ _ _ _ (encode (.hmax2 s f d a b)) rfl
  generalize encode (.hmax2 s f d a b) = w at *
  subst h29_2 h21_1 h14_7 h7_7 h0_7
  refine (if_pos h31_1).trans ?_
  unfold decodeLane
  rcases cases1 (w.extractLsb' 21 1) with h | h <;>
    rw [h21_8, h] <;> rfl

theorem hdot2 (s : BitVec 2) (f : BitVec 1) (d : BitVec 7) (a : BitVec 7) (b : BitVec 7) : Statement (.hdot2 s f d a b) := by
  intro _ wf
  obtain ⟨h31_1, h29_2, h21_8, h21_1, h14_7, h7_7, h0_7⟩ := layout5 _ _ _ _ _ _ _ (encode (.hdot2 s f d a b)) rfl
  generalize encode (.hdot2 s f d a b) = w at *
  subst h29_2 h21_1 h14_7 h7_7 h0_7
  refine (if_pos h31_1).trans ?_
  unfold decodeLane
  rcases cases1 (w.extractLsb' 21 1) with h | h <;>
    rw [h21_8, h] <;> rfl

theorem cvt (s : BitVec 2) (d : BitVec 7) (a : BitVec 7) (r : BitVec 1) (n : BitVec 2) (t : BitVec 4) : Statement (.cvt s d a r n t) := by
  intro _ wf
  obtain ⟨h31_1, h29_2, h21_8, h14_7, h7_7, h6_1, h4_2, h0_4⟩ := layout6 _ _ _ _ _ _ _ _ (encode (.cvt s d a r n t)) rfl
  generalize encode (.cvt s d a r n t) = w at *
  subst h29_2 h14_7 h7_7 h6_1 h4_2 h0_4
  refine (if_pos h31_1).trans ?_
  unfold decodeLane
  rw [h21_8]; rfl

theorem cvtx (s : BitVec 2) (d : BitVec 7) (a : BitVec 7) (r : BitVec 1) (n : BitVec 2) (t : BitVec 4) : Statement (.cvtx s d a r n t) := by
  intro _ wf
  obtain ⟨h31_1, h29_2, h21_8, h14_7, h7_7, h6_1, h4_2, h0_4⟩ := layout6 _ _ _ _ _ _ _ _ (encode (.cvtx s d a r n t)) rfl
  generalize encode (.cvtx s d a r n t) = w at *
  subst h29_2 h14_7 h7_7 h6_1 h4_2 h0_4
  refine (if_pos h31_1).trans ?_
  unfold decodeLane
  rw [h21_8]; rfl

theorem cvtp (s : BitVec 2) (t : BitVec 2) (d : BitVec 7) (a : BitVec 7) (b : BitVec 7) : Statement (.cvtp s t d a b) := by
  intro _ wf
  obtain ⟨h31_1, h29_2, h21_8, h21_2, h14_7, h7_7, h0_7⟩ := layout7 _ _ _ _ _ _ _ (encode (.cvtp s t d a b)) rfl
  generalize encode (.cvtp s t d a b) = w at *
  subst h29_2 h21_2 h14_7 h7_7 h0_7
  refine (if_pos h31_1).trans ?_
  unfold decodeLane
  rcases cases2 (w.extractLsb' 21 2) with h | h | h | h <;>
    rw [h21_8, h] <;> rfl

theorem qnt (s : BitVec 2) (d : BitVec 7) (a : BitVec 7) (w : BitVec 2) (y : BitVec 2) : Statement (.qnt s d a w y) := by
  intro _ wf
  obtain ⟨h31_1, h29_2, h21_8, h14_7, h7_7, h4_3, h2_2, h0_2⟩ := layout8 _ _ _ _ _ _ _ _ (encode (.qnt s d a w y)) rfl
  generalize encode (.qnt s d a w y) = w at *
  subst h29_2 h14_7 h7_7 h2_2 h0_2
  refine (if_pos h31_1).trans ?_
  unfold decodeLane
  rw [h21_8]
  refine Eq.trans (b := fixedOr ((w.extractLsb' 4 3) = 0#3) (.qnt (w.extractLsb' 29 2) (w.extractLsb' 14 7) (w.extractLsb' 7 7) (w.extractLsb' 2 2) (w.extractLsb' 0 2))) rfl ?_
  simp [fixedOr, h4_3]

theorem dqnt (s : BitVec 2) (d : BitVec 7) (a : BitVec 7) (b : BitVec 7) : Statement (.dqnt s d a b) := by
  intro _ wf
  obtain ⟨h31_1, h29_2, h21_8, h14_7, h7_7, h0_7⟩ := layout1 _ _ _ _ _ _ (encode (.dqnt s d a b)) rfl
  generalize encode (.dqnt s d a b) = w at *
  subst h29_2 h14_7 h7_7 h0_7
  refine (if_pos h31_1).trans ?_
  unfold decodeLane
  rw [h21_8]; rfl

theorem frcp (s : BitVec 2) (d : BitVec 7) (a : BitVec 7) : Statement (.frcp s d a) := by
  intro _ wf
  obtain ⟨h31_1, h29_2, h21_8, h14_7, h7_7, h0_7⟩ := layout1 _ _ _ _ _ _ (encode (.frcp s d a)) rfl
  generalize encode (.frcp s d a) = w at *
  subst h29_2 h14_7 h7_7
  refine (if_pos h31_1).trans ?_
  unfold decodeLane
  rw [h21_8]
  refine Eq.trans (b := fixedOr ((w.extractLsb' 0 7) = 0#7) (.frcp (w.extractLsb' 29 2) (w.extractLsb' 14 7) (w.extractLsb' 7 7))) rfl ?_
  simp [fixedOr, h0_7]

theorem frsq (s : BitVec 2) (d : BitVec 7) (a : BitVec 7) : Statement (.frsq s d a) := by
  intro _ wf
  obtain ⟨h31_1, h29_2, h21_8, h14_7, h7_7, h0_7⟩ := layout1 _ _ _ _ _ _ (encode (.frsq s d a)) rfl
  generalize encode (.frsq s d a) = w at *
  subst h29_2 h14_7 h7_7
  refine (if_pos h31_1).trans ?_
  unfold decodeLane
  rw [h21_8]
  refine Eq.trans (b := fixedOr ((w.extractLsb' 0 7) = 0#7) (.frsq (w.extractLsb' 29 2) (w.extractLsb' 14 7) (w.extractLsb' 7 7))) rfl ?_
  simp [fixedOr, h0_7]

theorem fsqrt (s : BitVec 2) (d : BitVec 7) (a : BitVec 7) : Statement (.fsqrt s d a) := by
  intro _ wf
  obtain ⟨h31_1, h29_2, h21_8, h14_7, h7_7, h0_7⟩ := layout1 _ _ _ _ _ _ (encode (.fsqrt s d a)) rfl
  generalize encode (.fsqrt s d a) = w at *
  subst h29_2 h14_7 h7_7
  refine (if_pos h31_1).trans ?_
  unfold decodeLane
  rw [h21_8]
  refine Eq.trans (b := fixedOr ((w.extractLsb' 0 7) = 0#7) (.fsqrt (w.extractLsb' 29 2) (w.extractLsb' 14 7) (w.extractLsb' 7 7))) rfl ?_
  simp [fixedOr, h0_7]

theorem fexp2 (s : BitVec 2) (d : BitVec 7) (a : BitVec 7) : Statement (.fexp2 s d a) := by
  intro _ wf
  obtain ⟨h31_1, h29_2, h21_8, h14_7, h7_7, h0_7⟩ := layout1 _ _ _ _ _ _ (encode (.fexp2 s d a)) rfl
  generalize encode (.fexp2 s d a) = w at *
  subst h29_2 h14_7 h7_7
  refine (if_pos h31_1).trans ?_
  unfold decodeLane
  rw [h21_8]
  refine Eq.trans (b := fixedOr ((w.extractLsb' 0 7) = 0#7) (.fexp2 (w.extractLsb' 29 2) (w.extractLsb' 14 7) (w.extractLsb' 7 7))) rfl ?_
  simp [fixedOr, h0_7]

theorem flog2 (s : BitVec 2) (d : BitVec 7) (a : BitVec 7) : Statement (.flog2 s d a) := by
  intro _ wf
  obtain ⟨h31_1, h29_2, h21_8, h14_7, h7_7, h0_7⟩ := layout1 _ _ _ _ _ _ (encode (.flog2 s d a)) rfl
  generalize encode (.flog2 s d a) = w at *
  subst h29_2 h14_7 h7_7
  refine (if_pos h31_1).trans ?_
  unfold decodeLane
  rw [h21_8]
  refine Eq.trans (b := fixedOr ((w.extractLsb' 0 7) = 0#7) (.flog2 (w.extractLsb' 29 2) (w.extractLsb' 14 7) (w.extractLsb' 7 7))) rfl ?_
  simp [fixedOr, h0_7]

theorem fsin (s : BitVec 2) (d : BitVec 7) (a : BitVec 7) : Statement (.fsin s d a) := by
  intro _ wf
  obtain ⟨h31_1, h29_2, h21_8, h14_7, h7_7, h0_7⟩ := layout1 _ _ _ _ _ _ (encode (.fsin s d a)) rfl
  generalize encode (.fsin s d a) = w at *
  subst h29_2 h14_7 h7_7
  refine (if_pos h31_1).trans ?_
  unfold decodeLane
  rw [h21_8]
  refine Eq.trans (b := fixedOr ((w.extractLsb' 0 7) = 0#7) (.fsin (w.extractLsb' 29 2) (w.extractLsb' 14 7) (w.extractLsb' 7 7))) rfl ?_
  simp [fixedOr, h0_7]

theorem fcos (s : BitVec 2) (d : BitVec 7) (a : BitVec 7) : Statement (.fcos s d a) := by
  intro _ wf
  obtain ⟨h31_1, h29_2, h21_8, h14_7, h7_7, h0_7⟩ := layout1 _ _ _ _ _ _ (encode (.fcos s d a)) rfl
  generalize encode (.fcos s d a) = w at *
  subst h29_2 h14_7 h7_7
  refine (if_pos h31_1).trans ?_
  unfold decodeLane
  rw [h21_8]
  refine Eq.trans (b := fixedOr ((w.extractLsb' 0 7) = 0#7) (.fcos (w.extractLsb' 29 2) (w.extractLsb' 14 7) (w.extractLsb' 7 7))) rfl ?_
  simp [fixedOr, h0_7]

theorem ftanh (s : BitVec 2) (d : BitVec 7) (a : BitVec 7) : Statement (.ftanh s d a) := by
  intro _ wf
  obtain ⟨h31_1, h29_2, h21_8, h14_7, h7_7, h0_7⟩ := layout1 _ _ _ _ _ _ (encode (.ftanh s d a)) rfl
  generalize encode (.ftanh s d a) = w at *
  subst h29_2 h14_7 h7_7
  refine (if_pos h31_1).trans ?_
  unfold decodeLane
  rw [h21_8]
  refine Eq.trans (b := fixedOr ((w.extractLsb' 0 7) = 0#7) (.ftanh (w.extractLsb' 29 2) (w.extractLsb' 14 7) (w.extractLsb' 7 7))) rfl ?_
  simp [fixedOr, h0_7]

theorem ferf (s : BitVec 2) (d : BitVec 7) (a : BitVec 7) : Statement (.ferf s d a) := by
  intro _ wf
  obtain ⟨h31_1, h29_2, h21_8, h14_7, h7_7, h0_7⟩ := layout1 _ _ _ _ _ _ (encode (.ferf s d a)) rfl
  generalize encode (.ferf s d a) = w at *
  subst h29_2 h14_7 h7_7
  refine (if_pos h31_1).trans ?_
  unfold decodeLane
  rw [h21_8]
  refine Eq.trans (b := fixedOr ((w.extractLsb' 0 7) = 0#7) (.ferf (w.extractLsb' 29 2) (w.extractLsb' 14 7) (w.extractLsb' 7 7))) rfl ?_
  simp [fixedOr, h0_7]

theorem fsigm (s : BitVec 2) (d : BitVec 7) (a : BitVec 7) : Statement (.fsigm s d a) := by
  intro _ wf
  obtain ⟨h31_1, h29_2, h21_8, h14_7, h7_7, h0_7⟩ := layout1 _ _ _ _ _ _ (encode (.fsigm s d a)) rfl
  generalize encode (.fsigm s d a) = w at *
  subst h29_2 h14_7 h7_7
  refine (if_pos h31_1).trans ?_
  unfold decodeLane
  rw [h21_8]
  refine Eq.trans (b := fixedOr ((w.extractLsb' 0 7) = 0#7) (.fsigm (w.extractLsb' 29 2) (w.extractLsb' 14 7) (w.extractLsb' 7 7))) rfl ?_
  simp [fixedOr, h0_7]

theorem shfl (s : BitVec 2) (g : BitVec 2) (d : BitVec 7) (a : BitVec 7) (b : BitVec 7) : Statement (.shfl s g d a b) := by
  intro _ wf
  obtain ⟨h31_1, h29_2, h21_8, h21_2, h14_7, h7_7, h0_7⟩ := layout7 _ _ _ _ _ _ _ (encode (.shfl s g d a b)) rfl
  generalize encode (.shfl s g d a b) = w at *
  subst h29_2 h21_2 h14_7 h7_7 h0_7
  refine (if_pos h31_1).trans ?_
  unfold decodeLane
  rcases cases2 (w.extractLsb' 21 2) with h | h | h | h <;>
    rw [h21_8, h] <;> rfl

theorem vote (s : BitVec 2) (g : BitVec 2) (d : BitVec 7) (a : BitVec 7) (b : BitVec 7) : Statement (.vote s g d a b) := by
  intro _ wf
  obtain ⟨h31_1, h29_2, h21_8, h21_2, h14_7, h7_7, h0_7⟩ := layout7 _ _ _ _ _ _ _ (encode (.vote s g d a b)) rfl
  generalize encode (.vote s g d a b) = w at *
  subst h29_2 h21_2 h14_7 h7_7 h0_7
  refine (if_pos h31_1).trans ?_
  unfold decodeLane
  rcases cases2 (w.extractLsb' 21 2) with h | h | h | h <;>
    rw [h21_8, h] <;> rfl

theorem ballot (s : BitVec 2) (g : BitVec 2) (d : BitVec 7) (a : BitVec 7) (b : BitVec 7) : Statement (.ballot s g d a b) := by
  intro _ wf
  obtain ⟨h31_1, h29_2, h21_8, h21_2, h14_7, h7_7, h0_7⟩ := layout7 _ _ _ _ _ _ _ (encode (.ballot s g d a b)) rfl
  generalize encode (.ballot s g d a b) = w at *
  subst h29_2 h21_2 h14_7 h7_7 h0_7
  refine (if_pos h31_1).trans ?_
  unfold decodeLane
  rcases cases2 (w.extractLsb' 21 2) with h | h | h | h <;>
    rw [h21_8, h] <;> rfl

theorem redx (s : BitVec 2) (g : BitVec 2) (d : BitVec 7) (a : BitVec 7) (b : BitVec 7) : Statement (.redx s g d a b) := by
  intro _ wf
  obtain ⟨h31_1, h29_2, h21_8, h21_2, h14_7, h7_7, h0_7⟩ := layout7 _ _ _ _ _ _ _ (encode (.redx s g d a b)) rfl
  generalize encode (.redx s g d a b) = w at *
  subst h29_2 h21_2 h14_7 h7_7 h0_7
  refine (if_pos h31_1).trans ?_
  unfold decodeLane
  rcases cases2 (w.extractLsb' 21 2) with h | h | h | h <;>
    rw [h21_8, h] <;> rfl

theorem scan (s : BitVec 2) (g : BitVec 2) (d : BitVec 7) (a : BitVec 7) (b : BitVec 7) : Statement (.scan s g d a b) := by
  intro _ wf
  obtain ⟨h31_1, h29_2, h21_8, h21_2, h14_7, h7_7, h0_7⟩ := layout7 _ _ _ _ _ _ _ (encode (.scan s g d a b)) rfl
  generalize encode (.scan s g d a b) = w at *
  subst h29_2 h21_2 h14_7 h7_7 h0_7
  refine (if_pos h31_1).trans ?_
  unfold decodeLane
  rcases cases2 (w.extractLsb' 21 2) with h | h | h | h <;>
    rw [h21_8, h] <;> rfl

theorem matchLanes (s : BitVec 2) (g : BitVec 2) (d : BitVec 7) (a : BitVec 7) (b : BitVec 7) : Statement (.matchLanes s g d a b) := by
  intro _ wf
  obtain ⟨h31_1, h29_2, h21_8, h21_2, h14_7, h7_7, h0_7⟩ := layout7 _ _ _ _ _ _ _ (encode (.matchLanes s g d a b)) rfl
  generalize encode (.matchLanes s g d a b) = w at *
  subst h29_2 h21_2 h14_7 h7_7 h0_7
  refine (if_pos h31_1).trans ?_
  unfold decodeLane
  rcases cases2 (w.extractLsb' 21 2) with h | h | h | h <;>
    rw [h21_8, h] <;> rfl

theorem ld (s : BitVec 2) (t : BitVec 3) (d : BitVec 7) (a : BitVec 7) (b : BitVec 5) (c : BitVec 1) (r : BitVec 1) : Statement (.ld s t d a b c r) := by
  intro _ wf
  obtain ⟨h31_1, h29_2, h21_8, h21_3, h14_7, h7_7, h2_5, h1_1, h0_1⟩ := layout9 _ _ _ _ _ _ _ _ _ (encode (.ld s t d a b c r)) rfl
  generalize encode (.ld s t d a b c r) = w at *
  subst h29_2 h21_3 h14_7 h7_7 h2_5 h1_1 h0_1
  refine (if_pos h31_1).trans ?_
  unfold decodeLane
  rcases cases3 (w.extractLsb' 21 3) with h | h | h | h | h | h | h | h <;>
    rw [h21_8, h] <;> rfl

theorem st (s : BitVec 2) (t : BitVec 3) (d : BitVec 7) (a : BitVec 7) (b : BitVec 5) (c : BitVec 1) : Statement (.st s t d a b c) := by
  intro _ wf
  obtain ⟨h31_1, h29_2, h21_8, h21_3, h14_7, h7_7, h2_5, h1_1, h0_1⟩ := layout9 _ _ _ _ _ _ _ _ _ (encode (.st s t d a b c)) rfl
  generalize encode (.st s t d a b c) = w at *
  subst h29_2 h21_3 h14_7 h7_7 h2_5 h1_1
  refine (if_pos h31_1).trans ?_
  unfold decodeLane
  rcases cases3 (w.extractLsb' 21 3) with h | h | h | h | h | h | h | h
  rotate_left 5
  iterate 3 · exfalso; rw [Instr.WellFormed, Instr.illFormed, Instr.encFail, Instr.fieldBad, h] at wf; simp [subIf] at wf
  all_goals (rw [h21_8]; refine Eq.trans (b := fixedOr ((w.extractLsb' 0 1) = 0#1) (.st (w.extractLsb' 29 2) (w.extractLsb' 21 3) (w.extractLsb' 14 7) (w.extractLsb' 7 7) (w.extractLsb' 2 5) (w.extractLsb' 1 1))) (by rw [h]; rfl) ?_; simp [fixedOr, h0_1])

theorem atom (s : BitVec 2) (d : BitVec 7) (a : BitVec 6) (w : BitVec 1) (o : BitVec 4) (k : BitVec 3) : Statement (.atom s d a w o k) := by
  intro _ wf
  obtain ⟨h31_1, h29_2, h21_8, h14_7, h8_6, h7_1, h3_4, h0_3⟩ := layout10 _ _ _ _ _ _ _ _ (encode (.atom s d a w o k)) rfl
  generalize encode (.atom s d a w o k) = w at *
  subst h29_2 h14_7 h8_6 h7_1 h3_4 h0_3
  refine (if_pos h31_1).trans ?_
  unfold decodeLane
  rw [h21_8]; rfl

theorem cas (s : BitVec 2) (d : BitVec 7) (a : BitVec 6) (w : BitVec 1) (k : BitVec 3) : Statement (.cas s d a w k) := by
  intro _ wf
  obtain ⟨h31_1, h29_2, h21_8, h14_7, h8_6, h7_1, h3_4, h0_3⟩ := layout10 _ _ _ _ _ _ _ _ (encode (.cas s d a w k)) rfl
  generalize encode (.cas s d a w k) = w at *
  subst h29_2 h14_7 h8_6 h7_1 h0_3
  refine (if_pos h31_1).trans ?_
  unfold decodeLane
  rw [h21_8]
  refine Eq.trans (b := fixedOr ((w.extractLsb' 3 4) = 0#4) (.cas (w.extractLsb' 29 2) (w.extractLsb' 14 7) (w.extractLsb' 8 6) (w.extractLsb' 7 1) (w.extractLsb' 0 3))) rfl ?_
  simp [fixedOr, h3_4]

theorem caddv (s : BitVec 2) (d : BitVec 6) (x : BitVec 1) (a : BitVec 6) (y : BitVec 1) (b : BitVec 7) : Statement (.caddv s d x a y b) := by
  intro _ wf
  obtain ⟨h31_1, h29_2, h21_8, h15_6, h14_1, h8_6, h7_1, h0_7⟩ := layout11 _ _ _ _ _ _ _ _ (encode (.caddv s d x a y b)) rfl
  generalize encode (.caddv s d x a y b) = w at *
  subst h29_2 h15_6 h14_1 h8_6 h7_1 h0_7
  refine (if_pos h31_1).trans ?_
  unfold decodeLane
  rw [h21_8]; rfl

theorem lds (s : BitVec 2) (t : BitVec 3) (d : BitVec 7) (a : BitVec 7) (r : BitVec 1) (w : BitVec 6) : Statement (.lds s t d a r w) := by
  intro _ wf
  obtain ⟨h31_1, h29_2, h21_8, h21_3, h14_7, h7_7, h6_1, h0_6⟩ := layout12 _ _ _ _ _ _ _ _ (encode (.lds s t d a r w)) rfl
  generalize encode (.lds s t d a r w) = w at *
  subst h29_2 h21_3 h14_7 h7_7 h6_1 h0_6
  refine (if_pos h31_1).trans ?_
  unfold decodeLane
  rcases cases3 (w.extractLsb' 21 3) with h | h | h | h | h | h | h | h <;>
    rw [h21_8, h] <;> rfl

theorem sts (s : BitVec 2) (t : BitVec 3) (d : BitVec 7) (a : BitVec 7) (r : BitVec 1) (w : BitVec 6) : Statement (.sts s t d a r w) := by
  intro _ wf
  obtain ⟨h31_1, h29_2, h21_8, h21_3, h14_7, h7_7, h6_1, h0_6⟩ := layout12 _ _ _ _ _ _ _ _ (encode (.sts s t d a r w)) rfl
  generalize encode (.sts s t d a r w) = w at *
  subst h29_2 h21_3 h14_7 h7_7 h6_1 h0_6
  refine (if_pos h31_1).trans ?_
  unfold decodeLane
  rcases cases3 (w.extractLsb' 21 3) with h | h | h | h | h | h | h | h
  rotate_left 5
  iterate 3 · exfalso; rw [Instr.WellFormed, Instr.illFormed, Instr.encFail, Instr.fieldBad, h] at wf; simp [subIf] at wf
  all_goals (rw [h21_8, h]; rfl)

theorem atoms (s : BitVec 2) (d : BitVec 7) (a : BitVec 7) (o : BitVec 4) (k : BitVec 3) : Statement (.atoms s d a o k) := by
  intro _ wf
  obtain ⟨h31_1, h29_2, h21_8, h14_7, h7_7, h3_4, h0_3⟩ := layout13 _ _ _ _ _ _ _ (encode (.atoms s d a o k)) rfl
  generalize encode (.atoms s d a o k) = w at *
  subst h29_2 h14_7 h7_7 h3_4 h0_3
  refine (if_pos h31_1).trans ?_
  unfold decodeLane
  rw [h21_8]; rfl

theorem cass (s : BitVec 2) (d : BitVec 7) (a : BitVec 7) (k : BitVec 3) : Statement (.cass s d a k) := by
  intro _ wf
  obtain ⟨h31_1, h29_2, h21_8, h14_7, h7_7, h3_4, h0_3⟩ := layout13 _ _ _ _ _ _ _ (encode (.cass s d a k)) rfl
  generalize encode (.cass s d a k) = w at *
  subst h29_2 h14_7 h7_7 h0_3
  refine (if_pos h31_1).trans ?_
  unfold decodeLane
  rw [h21_8]
  refine Eq.trans (b := fixedOr ((w.extractLsb' 3 4) = 0#4) (.cass (w.extractLsb' 29 2) (w.extractLsb' 14 7) (w.extractLsb' 7 7) (w.extractLsb' 0 3))) rfl ?_
  simp [fixedOr, h3_4]

theorem pref (s : BitVec 2) (l : BitVec 2) (a : BitVec 7) (b : BitVec 5) (c : BitVec 1) : Statement (.pref s l a b c) := by
  intro _ wf
  obtain ⟨h31_1, h29_2, h21_8, h16_5, h14_2, h7_7, h2_5, h1_1, h0_1⟩ := layout14 _ _ _ _ _ _ _ _ (encode (.pref s l a b c)) rfl
  generalize encode (.pref s l a b c) = w at *
  subst h29_2 h14_2 h7_7 h2_5 h1_1
  refine (if_pos h31_1).trans ?_
  unfold decodeLane
  rw [h21_8]
  refine Eq.trans (b := fixedOr ((w.extractLsb' 0 1) = 0#1 && (w.extractLsb' 16 5) = 0#5) (.pref (w.extractLsb' 29 2) (w.extractLsb' 14 2) (w.extractLsb' 7 7) (w.extractLsb' 2 5) (w.extractLsb' 1 1))) rfl ?_
  simp [fixedOr, h16_5, h0_1]

theorem bra (s : BitVec 2) (i : BitVec 14) : Statement (.bra s i) := by
  intro _ wf
  obtain ⟨h31_1, h29_2, h21_8, h14_7, h0_14⟩ := layout15 _ _ _ _ (encode (.bra s i)) rfl
  generalize encode (.bra s i) = w at *
  subst h29_2 h0_14
  refine (if_pos h31_1).trans ?_
  unfold decodeLane
  rw [h21_8]
  refine Eq.trans (b := fixedOr ((w.extractLsb' 14 7) = 0#7) (.bra (w.extractLsb' 29 2) (w.extractLsb' 0 14))) rfl ?_
  simp [fixedOr, h14_7]

theorem brp (s : BitVec 2) (n : BitVec 1) (p : BitVec 3) (i : BitVec 14) : Statement (.brp s n p i) := by
  intro _ wf
  obtain ⟨h31_1, h29_2, h21_8, h18_3, h17_1, h14_3, h0_14⟩ := layout16 _ _ _ _ _ _ (encode (.brp s n p i)) rfl
  generalize encode (.brp s n p i) = w at *
  subst h29_2 h17_1 h14_3 h0_14
  refine (if_pos h31_1).trans ?_
  unfold decodeLane
  rw [h21_8]
  refine Eq.trans (b := fixedOr ((w.extractLsb' 18 3) = 0#3) (.brp (w.extractLsb' 29 2) (w.extractLsb' 17 1) (w.extractLsb' 14 3) (w.extractLsb' 0 14))) rfl ?_
  simp [fixedOr, h18_3]

theorem call (s : BitVec 2) (i : BitVec 14) : Statement (.call s i) := by
  intro _ wf
  obtain ⟨h31_1, h29_2, h21_8, h14_7, h0_14⟩ := layout15 _ _ _ _ (encode (.call s i)) rfl
  generalize encode (.call s i) = w at *
  subst h29_2 h0_14
  refine (if_pos h31_1).trans ?_
  unfold decodeLane
  rw [h21_8]
  refine Eq.trans (b := fixedOr ((w.extractLsb' 14 7) = 0#7) (.call (w.extractLsb' 29 2) (w.extractLsb' 0 14))) rfl ?_
  simp [fixedOr, h14_7]

theorem calli (s : BitVec 2) (a : BitVec 7) : Statement (.calli s a) := by
  intro _ wf
  obtain ⟨h31_1, h29_2, h21_8, h14_7, h7_7, h0_7⟩ := layout17 _ _ _ _ _ (encode (.calli s a)) rfl
  generalize encode (.calli s a) = w at *
  subst h29_2 h7_7
  refine (if_pos h31_1).trans ?_
  unfold decodeLane
  rw [h21_8]
  refine Eq.trans (b := fixedOr ((w.extractLsb' 0 7) = 0#7 && (w.extractLsb' 14 7) = 0#7) (.calli (w.extractLsb' 29 2) (w.extractLsb' 7 7))) rfl ?_
  simp [fixedOr, h14_7, h0_7]

theorem ret (s : BitVec 2) : Statement (.ret s) := by
  intro _ wf
  obtain ⟨h31_1, h29_2, h21_8, h0_21⟩ := layout18 _ _ _ (encode (.ret s)) rfl
  generalize encode (.ret s) = w at *
  subst h29_2
  refine (if_pos h31_1).trans ?_
  unfold decodeLane
  rw [h21_8]
  refine Eq.trans (b := fixedOr ((w.extractLsb' 0 21) = 0#21) (.ret (w.extractLsb' 29 2))) rfl ?_
  simp [fixedOr, h0_21]

theorem jmpi (s : BitVec 2) (a : BitVec 7) : Statement (.jmpi s a) := by
  intro _ wf
  obtain ⟨h31_1, h29_2, h21_8, h14_7, h7_7, h0_7⟩ := layout17 _ _ _ _ _ (encode (.jmpi s a)) rfl
  generalize encode (.jmpi s a) = w at *
  subst h29_2 h7_7
  refine (if_pos h31_1).trans ?_
  unfold decodeLane
  rw [h21_8]
  refine Eq.trans (b := fixedOr ((w.extractLsb' 0 7) = 0#7 && (w.extractLsb' 14 7) = 0#7) (.jmpi (w.extractLsb' 29 2) (w.extractLsb' 7 7))) rfl ?_
  simp [fixedOr, h14_7, h0_7]

theorem rcv (s : BitVec 2) : Statement (.rcv s) := by
  intro _ wf
  obtain ⟨h31_1, h29_2, h21_8, h0_21⟩ := layout18 _ _ _ (encode (.rcv s)) rfl
  generalize encode (.rcv s) = w at *
  subst h29_2
  refine (if_pos h31_1).trans ?_
  unfold decodeLane
  rw [h21_8]
  refine Eq.trans (b := fixedOr ((w.extractLsb' 0 21) = 0#21) (.rcv (w.extractLsb' 29 2))) rfl ?_
  simp [fixedOr, h0_21]

theorem exit (s : BitVec 2) : Statement (.exit s) := by
  intro _ wf
  obtain ⟨h31_1, h29_2, h21_8, h0_21⟩ := layout18 _ _ _ (encode (.exit s)) rfl
  generalize encode (.exit s) = w at *
  subst h29_2
  refine (if_pos h31_1).trans ?_
  unfold decodeLane
  rw [h21_8]
  refine Eq.trans (b := fixedOr ((w.extractLsb' 0 21) = 0#21) (.exit (w.extractLsb' 29 2))) rfl ?_
  simp [fixedOr, h0_21]

theorem spawn (s : BitVec 2) (a : BitVec 7) (b : BitVec 7) : Statement (.spawn s a b) := by
  intro _ wf
  obtain ⟨h31_1, h29_2, h21_8, h14_7, h7_7, h0_7⟩ := layout17 _ _ _ _ _ (encode (.spawn s a b)) rfl
  generalize encode (.spawn s a b) = w at *
  subst h29_2 h7_7 h0_7
  refine (if_pos h31_1).trans ?_
  unfold decodeLane
  rw [h21_8]
  refine Eq.trans (b := fixedOr ((w.extractLsb' 14 7) = 0#7) (.spawn (w.extractLsb' 29 2) (w.extractLsb' 7 7) (w.extractLsb' 0 7))) rfl ?_
  simp [fixedOr, h14_7]

theorem yld (s : BitVec 2) : Statement (.yld s) := by
  intro _ wf
  obtain ⟨h31_1, h29_2, h21_8, h0_21⟩ := layout18 _ _ _ (encode (.yld s)) rfl
  generalize encode (.yld s) = w at *
  subst h29_2
  refine (if_pos h31_1).trans ?_
  unfold decodeLane
  rw [h21_8]
  refine Eq.trans (b := fixedOr ((w.extractLsb' 0 21) = 0#21) (.yld (w.extractLsb' 29 2))) rfl ?_
  simp [fixedOr, h0_21]

theorem nop (s : BitVec 2) : Statement (.nop s) := by
  intro _ wf
  obtain ⟨h31_1, h29_2, h21_8, h0_21⟩ := layout18 _ _ _ (encode (.nop s)) rfl
  generalize encode (.nop s) = w at *
  subst h29_2
  refine (if_pos h31_1).trans ?_
  unfold decodeLane
  rw [h21_8]
  refine Eq.trans (b := fixedOr ((w.extractLsb' 0 21) = 0#21) (.nop (w.extractLsb' 29 2))) rfl ?_
  simp [fixedOr, h0_21]

theorem sadd (s : BitVec 2) (d : BitVec 6) (a : BitVec 6) (b : BitVec 6) : Statement (.sadd s d a b) := by
  intro _ wf
  obtain ⟨h31_1, h29_2, h22_7, h16_6, h10_6, h4_6, h0_4⟩ := layout19 _ _ _ _ _ _ _ (encode (.sadd s d a b)) rfl
  generalize encode (.sadd s d a b) = w at *
  subst h29_2 h16_6 h10_6 h4_6
  refine (if_neg (by rw [h31_1]; decide)).trans ?_
  unfold decodeUniform
  rw [h22_7]
  refine Eq.trans (b := fixedOr ((w.extractLsb' 0 4) = 0#4) (.sadd (w.extractLsb' 29 2) (w.extractLsb' 16 6) (w.extractLsb' 10 6) (w.extractLsb' 4 6))) rfl ?_
  simp [fixedOr, h0_4]

theorem ssub (s : BitVec 2) (d : BitVec 6) (a : BitVec 6) (b : BitVec 6) : Statement (.ssub s d a b) := by
  intro _ wf
  obtain ⟨h31_1, h29_2, h22_7, h16_6, h10_6, h4_6, h0_4⟩ := layout19 _ _ _ _ _ _ _ (encode (.ssub s d a b)) rfl
  generalize encode (.ssub s d a b) = w at *
  subst h29_2 h16_6 h10_6 h4_6
  refine (if_neg (by rw [h31_1]; decide)).trans ?_
  unfold decodeUniform
  rw [h22_7]
  refine Eq.trans (b := fixedOr ((w.extractLsb' 0 4) = 0#4) (.ssub (w.extractLsb' 29 2) (w.extractLsb' 16 6) (w.extractLsb' 10 6) (w.extractLsb' 4 6))) rfl ?_
  simp [fixedOr, h0_4]

theorem smul (s : BitVec 2) (d : BitVec 6) (a : BitVec 6) (b : BitVec 6) : Statement (.smul s d a b) := by
  intro _ wf
  obtain ⟨h31_1, h29_2, h22_7, h16_6, h10_6, h4_6, h0_4⟩ := layout19 _ _ _ _ _ _ _ (encode (.smul s d a b)) rfl
  generalize encode (.smul s d a b) = w at *
  subst h29_2 h16_6 h10_6 h4_6
  refine (if_neg (by rw [h31_1]; decide)).trans ?_
  unfold decodeUniform
  rw [h22_7]
  refine Eq.trans (b := fixedOr ((w.extractLsb' 0 4) = 0#4) (.smul (w.extractLsb' 29 2) (w.extractLsb' 16 6) (w.extractLsb' 10 6) (w.extractLsb' 4 6))) rfl ?_
  simp [fixedOr, h0_4]

theorem smulh (s : BitVec 2) (d : BitVec 6) (a : BitVec 6) (b : BitVec 6) (g : BitVec 1) : Statement (.smulh s d a b g) := by
  intro _ wf
  obtain ⟨h31_1, h29_2, h22_7, h16_6, h10_6, h4_6, h1_3, h0_1⟩ := layout20 _ _ _ _ _ _ _ _ (encode (.smulh s d a b g)) rfl
  generalize encode (.smulh s d a b g) = w at *
  subst h29_2 h16_6 h10_6 h4_6 h0_1
  refine (if_neg (by rw [h31_1]; decide)).trans ?_
  unfold decodeUniform
  rw [h22_7]
  refine Eq.trans (b := fixedOr ((w.extractLsb' 1 3) = 0#3) (.smulh (w.extractLsb' 29 2) (w.extractLsb' 16 6) (w.extractLsb' 10 6) (w.extractLsb' 4 6) (w.extractLsb' 0 1))) rfl ?_
  simp [fixedOr, h1_3]

theorem sand (s : BitVec 2) (d : BitVec 6) (a : BitVec 6) (b : BitVec 6) : Statement (.sand s d a b) := by
  intro _ wf
  obtain ⟨h31_1, h29_2, h22_7, h16_6, h10_6, h4_6, h0_4⟩ := layout19 _ _ _ _ _ _ _ (encode (.sand s d a b)) rfl
  generalize encode (.sand s d a b) = w at *
  subst h29_2 h16_6 h10_6 h4_6
  refine (if_neg (by rw [h31_1]; decide)).trans ?_
  unfold decodeUniform
  rw [h22_7]
  refine Eq.trans (b := fixedOr ((w.extractLsb' 0 4) = 0#4) (.sand (w.extractLsb' 29 2) (w.extractLsb' 16 6) (w.extractLsb' 10 6) (w.extractLsb' 4 6))) rfl ?_
  simp [fixedOr, h0_4]

theorem sor (s : BitVec 2) (d : BitVec 6) (a : BitVec 6) (b : BitVec 6) : Statement (.sor s d a b) := by
  intro _ wf
  obtain ⟨h31_1, h29_2, h22_7, h16_6, h10_6, h4_6, h0_4⟩ := layout19 _ _ _ _ _ _ _ (encode (.sor s d a b)) rfl
  generalize encode (.sor s d a b) = w at *
  subst h29_2 h16_6 h10_6 h4_6
  refine (if_neg (by rw [h31_1]; decide)).trans ?_
  unfold decodeUniform
  rw [h22_7]
  refine Eq.trans (b := fixedOr ((w.extractLsb' 0 4) = 0#4) (.sor (w.extractLsb' 29 2) (w.extractLsb' 16 6) (w.extractLsb' 10 6) (w.extractLsb' 4 6))) rfl ?_
  simp [fixedOr, h0_4]

theorem sxor (s : BitVec 2) (d : BitVec 6) (a : BitVec 6) (b : BitVec 6) : Statement (.sxor s d a b) := by
  intro _ wf
  obtain ⟨h31_1, h29_2, h22_7, h16_6, h10_6, h4_6, h0_4⟩ := layout19 _ _ _ _ _ _ _ (encode (.sxor s d a b)) rfl
  generalize encode (.sxor s d a b) = w at *
  subst h29_2 h16_6 h10_6 h4_6
  refine (if_neg (by rw [h31_1]; decide)).trans ?_
  unfold decodeUniform
  rw [h22_7]
  refine Eq.trans (b := fixedOr ((w.extractLsb' 0 4) = 0#4) (.sxor (w.extractLsb' 29 2) (w.extractLsb' 16 6) (w.extractLsb' 10 6) (w.extractLsb' 4 6))) rfl ?_
  simp [fixedOr, h0_4]

theorem sshl (s : BitVec 2) (d : BitVec 6) (a : BitVec 6) (b : BitVec 6) : Statement (.sshl s d a b) := by
  intro _ wf
  obtain ⟨h31_1, h29_2, h22_7, h16_6, h10_6, h4_6, h0_4⟩ := layout19 _ _ _ _ _ _ _ (encode (.sshl s d a b)) rfl
  generalize encode (.sshl s d a b) = w at *
  subst h29_2 h16_6 h10_6 h4_6
  refine (if_neg (by rw [h31_1]; decide)).trans ?_
  unfold decodeUniform
  rw [h22_7]
  refine Eq.trans (b := fixedOr ((w.extractLsb' 0 4) = 0#4) (.sshl (w.extractLsb' 29 2) (w.extractLsb' 16 6) (w.extractLsb' 10 6) (w.extractLsb' 4 6))) rfl ?_
  simp [fixedOr, h0_4]

theorem sshr (s : BitVec 2) (d : BitVec 6) (a : BitVec 6) (b : BitVec 6) : Statement (.sshr s d a b) := by
  intro _ wf
  obtain ⟨h31_1, h29_2, h22_7, h16_6, h10_6, h4_6, h0_4⟩ := layout19 _ _ _ _ _ _ _ (encode (.sshr s d a b)) rfl
  generalize encode (.sshr s d a b) = w at *
  subst h29_2 h16_6 h10_6 h4_6
  refine (if_neg (by rw [h31_1]; decide)).trans ?_
  unfold decodeUniform
  rw [h22_7]
  refine Eq.trans (b := fixedOr ((w.extractLsb' 0 4) = 0#4) (.sshr (w.extractLsb' 29 2) (w.extractLsb' 16 6) (w.extractLsb' 10 6) (w.extractLsb' 4 6))) rfl ?_
  simp [fixedOr, h0_4]

theorem ssar (s : BitVec 2) (d : BitVec 6) (a : BitVec 6) (b : BitVec 6) : Statement (.ssar s d a b) := by
  intro _ wf
  obtain ⟨h31_1, h29_2, h22_7, h16_6, h10_6, h4_6, h0_4⟩ := layout19 _ _ _ _ _ _ _ (encode (.ssar s d a b)) rfl
  generalize encode (.ssar s d a b) = w at *
  subst h29_2 h16_6 h10_6 h4_6
  refine (if_neg (by rw [h31_1]; decide)).trans ?_
  unfold decodeUniform
  rw [h22_7]
  refine Eq.trans (b := fixedOr ((w.extractLsb' 0 4) = 0#4) (.ssar (w.extractLsb' 29 2) (w.extractLsb' 16 6) (w.extractLsb' 10 6) (w.extractLsb' 4 6))) rfl ?_
  simp [fixedOr, h0_4]

theorem smin (s : BitVec 2) (d : BitVec 6) (a : BitVec 6) (b : BitVec 6) (g : BitVec 1) : Statement (.smin s d a b g) := by
  intro _ wf
  obtain ⟨h31_1, h29_2, h22_7, h16_6, h10_6, h4_6, h1_3, h0_1⟩ := layout20 _ _ _ _ _ _ _ _ (encode (.smin s d a b g)) rfl
  generalize encode (.smin s d a b g) = w at *
  subst h29_2 h16_6 h10_6 h4_6 h0_1
  refine (if_neg (by rw [h31_1]; decide)).trans ?_
  unfold decodeUniform
  rw [h22_7]
  refine Eq.trans (b := fixedOr ((w.extractLsb' 1 3) = 0#3) (.smin (w.extractLsb' 29 2) (w.extractLsb' 16 6) (w.extractLsb' 10 6) (w.extractLsb' 4 6) (w.extractLsb' 0 1))) rfl ?_
  simp [fixedOr, h1_3]

theorem smax (s : BitVec 2) (d : BitVec 6) (a : BitVec 6) (b : BitVec 6) (g : BitVec 1) : Statement (.smax s d a b g) := by
  intro _ wf
  obtain ⟨h31_1, h29_2, h22_7, h16_6, h10_6, h4_6, h1_3, h0_1⟩ := layout20 _ _ _ _ _ _ _ _ (encode (.smax s d a b g)) rfl
  generalize encode (.smax s d a b g) = w at *
  subst h29_2 h16_6 h10_6 h4_6 h0_1
  refine (if_neg (by rw [h31_1]; decide)).trans ?_
  unfold decodeUniform
  rw [h22_7]
  refine Eq.trans (b := fixedOr ((w.extractLsb' 1 3) = 0#3) (.smax (w.extractLsb' 29 2) (w.extractLsb' 16 6) (w.extractLsb' 10 6) (w.extractLsb' 4 6) (w.extractLsb' 0 1))) rfl ?_
  simp [fixedOr, h1_3]

theorem smov (s : BitVec 2) (d : BitVec 6) (a : BitVec 6) : Statement (.smov s d a) := by
  intro _ wf
  obtain ⟨h31_1, h29_2, h22_7, h16_6, h10_6, h0_10⟩ := layout21 _ _ _ _ _ _ (encode (.smov s d a)) rfl
  generalize encode (.smov s d a) = w at *
  subst h29_2 h16_6 h10_6
  refine (if_neg (by rw [h31_1]; decide)).trans ?_
  unfold decodeUniform
  rw [h22_7]
  refine Eq.trans (b := fixedOr ((w.extractLsb' 0 10) = 0#10) (.smov (w.extractLsb' 29 2) (w.extractLsb' 16 6) (w.extractLsb' 10 6))) rfl ?_
  simp [fixedOr, h0_10]

theorem smovi (s : BitVec 2) (d : BitVec 6) (i : BitVec 16) : Statement (.smovi s d i) := by
  intro _ wf
  obtain ⟨h31_1, h29_2, h22_7, h16_6, h0_16⟩ := layout22 _ _ _ _ _ (encode (.smovi s d i)) rfl
  generalize encode (.smovi s d i) = w at *
  subst h29_2 h16_6 h0_16
  refine (if_neg (by rw [h31_1]; decide)).trans ?_
  unfold decodeUniform
  rw [h22_7]; rfl

theorem saddi (s : BitVec 2) (d : BitVec 6) (i : BitVec 16) : Statement (.saddi s d i) := by
  intro _ wf
  obtain ⟨h31_1, h29_2, h22_7, h16_6, h0_16⟩ := layout22 _ _ _ _ _ (encode (.saddi s d i)) rfl
  generalize encode (.saddi s d i) = w at *
  subst h29_2 h16_6 h0_16
  refine (if_neg (by rw [h31_1]; decide)).trans ?_
  unfold decodeUniform
  rw [h22_7]; rfl

theorem scmp (s : BitVec 2) (p : BitVec 2) (a : BitVec 6) (b : BitVec 6) (c : BitVec 4) : Statement (.scmp s p a b c) := by
  intro _ wf
  obtain ⟨h31_1, h29_2, h22_7, h18_4, h16_2, h10_6, h4_6, h0_4⟩ := layout23 _ _ _ _ _ _ _ (encode (.scmp s p a b c)) rfl
  generalize encode (.scmp s p a b c) = w at *
  subst h29_2 h16_2 h10_6 h4_6 h0_4
  refine (if_neg (by rw [h31_1]; decide)).trans ?_
  unfold decodeUniform
  rw [h22_7]
  refine Eq.trans (b := fixedOr ((w.extractLsb' 18 4) = 0#4) (.scmp (w.extractLsb' 29 2) (w.extractLsb' 16 2) (w.extractLsb' 10 6) (w.extractLsb' 4 6) (w.extractLsb' 0 4))) rfl ?_
  simp [fixedOr, h18_4]

theorem ssel (s : BitVec 2) (d : BitVec 6) (a : BitVec 6) (b : BitVec 6) (p : BitVec 2) : Statement (.ssel s d a b p) := by
  intro _ wf
  obtain ⟨h31_1, h29_2, h22_7, h16_6, h10_6, h4_6, h2_2, h0_2⟩ := layout24 _ _ _ _ _ _ _ _ (encode (.ssel s d a b p)) rfl
  generalize encode (.ssel s d a b p) = w at *
  subst h29_2 h16_6 h10_6 h4_6 h0_2
  refine (if_neg (by rw [h31_1]; decide)).trans ?_
  unfold decodeUniform
  rw [h22_7]
  refine Eq.trans (b := fixedOr ((w.extractLsb' 2 2) = 0#2) (.ssel (w.extractLsb' 29 2) (w.extractLsb' 16 6) (w.extractLsb' 10 6) (w.extractLsb' 4 6) (w.extractLsb' 0 2))) rfl ?_
  simp [fixedOr, h2_2]

theorem sadd64 (s : BitVec 2) (d : BitVec 6) (a : BitVec 6) (b : BitVec 6) : Statement (.sadd64 s d a b) := by
  intro _ wf
  obtain ⟨h31_1, h29_2, h22_7, h16_6, h10_6, h4_6, h0_4⟩ := layout19 _ _ _ _ _ _ _ (encode (.sadd64 s d a b)) rfl
  generalize encode (.sadd64 s d a b) = w at *
  subst h29_2 h16_6 h10_6 h4_6
  refine (if_neg (by rw [h31_1]; decide)).trans ?_
  unfold decodeUniform
  rw [h22_7]
  refine Eq.trans (b := fixedOr ((w.extractLsb' 0 4) = 0#4) (.sadd64 (w.extractLsb' 29 2) (w.extractLsb' 16 6) (w.extractLsb' 10 6) (w.extractLsb' 4 6))) rfl ?_
  simp [fixedOr, h0_4]

theorem sld (s : BitVec 2) (d : BitVec 6) (a : BitVec 6) (b : BitVec 6) (w : BitVec 1) : Statement (.sld s d a b w) := by
  intro _ wf
  obtain ⟨h31_1, h29_2, h22_7, h16_6, h10_6, h4_6, h1_3, h0_1⟩ := layout20 _ _ _ _ _ _ _ _ (encode (.sld s d a b w)) rfl
  generalize encode (.sld s d a b w) = w at *
  subst h29_2 h16_6 h10_6 h4_6 h0_1
  refine (if_neg (by rw [h31_1]; decide)).trans ?_
  unfold decodeUniform
  rw [h22_7]
  refine Eq.trans (b := subOr ((w.extractLsb' 1 3) = 0#3) (.sld (w.extractLsb' 29 2) (w.extractLsb' 16 6) (w.extractLsb' 10 6) (w.extractLsb' 4 6) (w.extractLsb' 0 1))) rfl ?_
  simp [subOr, h1_3]

theorem sst (s : BitVec 2) (d : BitVec 6) (a : BitVec 6) (b : BitVec 6) (w : BitVec 1) : Statement (.sst s d a b w) := by
  intro _ wf
  obtain ⟨h31_1, h29_2, h22_7, h16_6, h10_6, h4_6, h1_3, h0_1⟩ := layout20 _ _ _ _ _ _ _ _ (encode (.sst s d a b w)) rfl
  generalize encode (.sst s d a b w) = w at *
  subst h29_2 h16_6 h10_6 h4_6 h0_1
  refine (if_neg (by rw [h31_1]; decide)).trans ?_
  unfold decodeUniform
  rw [h22_7]
  refine Eq.trans (b := subOr ((w.extractLsb' 1 3) = 0#3) (.sst (w.extractLsb' 29 2) (w.extractLsb' 16 6) (w.extractLsb' 10 6) (w.extractLsb' 4 6) (w.extractLsb' 0 1))) rfl ?_
  simp [subOr, h1_3]

theorem sbra (s : BitVec 2) (o : BitVec 22) : Statement (.sbra s o) := by
  intro _ wf
  obtain ⟨h31_1, h29_2, h22_7, h0_22⟩ := layout25 _ _ _ _ (encode (.sbra s o)) rfl
  generalize encode (.sbra s o) = w at *
  subst h29_2 h0_22
  refine (if_neg (by rw [h31_1]; decide)).trans ?_
  unfold decodeUniform
  rw [h22_7]; rfl

theorem sbrp (s : BitVec 2) (n : BitVec 1) (p : BitVec 2) (i : BitVec 16) : Statement (.sbrp s n p i) := by
  intro _ wf
  obtain ⟨h31_1, h29_2, h22_7, h19_3, h18_1, h16_2, h0_16⟩ := layout26 _ _ _ _ _ _ (encode (.sbrp s n p i)) rfl
  generalize encode (.sbrp s n p i) = w at *
  subst h29_2 h18_1 h16_2 h0_16
  refine (if_neg (by rw [h31_1]; decide)).trans ?_
  unfold decodeUniform
  rw [h22_7]
  refine Eq.trans (b := fixedOr ((w.extractLsb' 19 3) = 0#3) (.sbrp (w.extractLsb' 29 2) (w.extractLsb' 18 1) (w.extractLsb' 16 2) (w.extractLsb' 0 16))) rfl ?_
  simp [fixedOr, h19_3]

theorem scall (s : BitVec 2) (o : BitVec 22) : Statement (.scall s o) := by
  intro _ wf
  obtain ⟨h31_1, h29_2, h22_7, h0_22⟩ := layout25 _ _ _ _ (encode (.scall s o)) rfl
  generalize encode (.scall s o) = w at *
  subst h29_2 h0_22
  refine (if_neg (by rw [h31_1]; decide)).trans ?_
  unfold decodeUniform
  rw [h22_7]; rfl

theorem sret (s : BitVec 2) : Statement (.sret s) := by
  intro _ wf
  obtain ⟨h31_1, h29_2, h22_7, h0_22⟩ := layout27 _ _ _ (encode (.sret s)) rfl
  generalize encode (.sret s) = w at *
  subst h29_2
  refine (if_neg (by rw [h31_1]; decide)).trans ?_
  unfold decodeUniform
  rw [h22_7]
  refine Eq.trans (b := fixedOr ((w.extractLsb' 0 22) = 0#22) (.sret (w.extractLsb' 29 2))) rfl ?_
  simp [fixedOr, h0_22]

theorem srd (s : BitVec 2) (d : BitVec 6) (x : BitVec 8) : Statement (.srd s d x) := by
  intro _ wf
  obtain ⟨h31_1, h29_2, h22_7, h16_6, h8_8, h0_8⟩ := layout28 _ _ _ _ _ _ (encode (.srd s d x)) rfl
  generalize encode (.srd s d x) = w at *
  subst h29_2 h16_6 h0_8
  refine (if_neg (by rw [h31_1]; decide)).trans ?_
  unfold decodeUniform
  rw [h22_7]
  refine Eq.trans (b := fixedOr ((w.extractLsb' 8 8) = 0#8) (.srd (w.extractLsb' 29 2) (w.extractLsb' 16 6) (w.extractLsb' 0 8))) rfl ?_
  simp [fixedOr, h8_8]

theorem swr (s : BitVec 2) (d : BitVec 6) (x : BitVec 8) : Statement (.swr s d x) := by
  intro _ wf
  obtain ⟨h31_1, h29_2, h22_7, h16_6, h8_8, h0_8⟩ := layout28 _ _ _ _ _ _ (encode (.swr s d x)) rfl
  generalize encode (.swr s d x) = w at *
  subst h29_2 h16_6 h0_8
  refine (if_neg (by rw [h31_1]; decide)).trans ?_
  unfold decodeUniform
  rw [h22_7]
  refine Eq.trans (b := fixedOr ((w.extractLsb' 8 8) = 0#8) (.swr (w.extractLsb' 29 2) (w.extractLsb' 16 6) (w.extractLsb' 0 8))) rfl ?_
  simp [fixedOr, h8_8]

theorem cadd (s : BitVec 2) (d : BitVec 6) (a : BitVec 6) (b : BitVec 6) (f : BitVec 2) (k : BitVec 2) : Statement (.cadd s d a b f k) := by
  intro _ wf
  obtain ⟨h31_1, h29_2, h22_7, h16_6, h10_6, h4_6, h2_2, h0_2⟩ := layout24 _ _ _ _ _ _ _ _ (encode (.cadd s d a b f k)) rfl
  generalize encode (.cadd s d a b f k) = w at *
  subst h29_2 h16_6 h10_6 h4_6 h2_2 h0_2
  refine (if_neg (by rw [h31_1]; decide)).trans ?_
  unfold decodeUniform
  rw [h22_7]; rfl

theorem crd (s : BitVec 2) (d : BitVec 6) (a : BitVec 6) (b : BitVec 6) (f : BitVec 2) : Statement (.crd s d a b f) := by
  intro _ wf
  obtain ⟨h31_1, h29_2, h22_7, h16_6, h10_6, h4_6, h2_2, h0_2⟩ := layout24 _ _ _ _ _ _ _ _ (encode (.crd s d a b f)) rfl
  generalize encode (.crd s d a b f) = w at *
  subst h29_2 h16_6 h10_6 h4_6 h2_2
  refine (if_neg (by rw [h31_1]; decide)).trans ?_
  unfold decodeUniform
  rw [h22_7]
  refine Eq.trans (b := fixedOr ((w.extractLsb' 0 2) = 0#2) (.crd (w.extractLsb' 29 2) (w.extractLsb' 16 6) (w.extractLsb' 10 6) (w.extractLsb' 4 6) (w.extractLsb' 2 2))) rfl ?_
  simp [fixedOr, h0_2]

theorem cwait (s : BitVec 2) (d : BitVec 6) (a : BitVec 6) (b : BitVec 6) (f : BitVec 2) (k : BitVec 2) : Statement (.cwait s d a b f k) := by
  intro _ wf
  obtain ⟨h31_1, h29_2, h22_7, h16_6, h10_6, h4_6, h2_2, h0_2⟩ := layout24 _ _ _ _ _ _ _ _ (encode (.cwait s d a b f k)) rfl
  generalize encode (.cwait s d a b f k) = w at *
  subst h29_2 h16_6 h10_6 h4_6 h2_2 h0_2
  refine (if_neg (by rw [h31_1]; decide)).trans ?_
  unfold decodeUniform
  rw [h22_7]; rfl

theorem cpoll (s : BitVec 2) (d : BitVec 6) (a : BitVec 6) (b : BitVec 6) (f : BitVec 2) (k : BitVec 2) : Statement (.cpoll s d a b f k) := by
  intro _ wf
  obtain ⟨h31_1, h29_2, h22_7, h16_6, h10_6, h4_6, h2_2, h0_2⟩ := layout24 _ _ _ _ _ _ _ _ (encode (.cpoll s d a b f k)) rfl
  generalize encode (.cpoll s d a b f k) = w at *
  subst h29_2 h16_6 h10_6 h4_6 h2_2 h0_2
  refine (if_neg (by rw [h31_1]; decide)).trans ?_
  unfold decodeUniform
  rw [h22_7]; rfl

theorem fence (s : BitVec 2) (e : BitVec 3) (k : BitVec 2) : Statement (.fence s e k) := by
  intro _ wf
  obtain ⟨h31_1, h29_2, h22_7, h7_15, h4_3, h2_2, h0_2⟩ := layout29 _ _ _ _ _ _ (encode (.fence s e k)) rfl
  generalize encode (.fence s e k) = w at *
  subst h29_2 h4_3 h0_2
  refine (if_neg (by rw [h31_1]; decide)).trans ?_
  unfold decodeUniform
  rw [h22_7]
  refine Eq.trans (b := fixedOr ((w.extractLsb' 2 2) = 0#2 && (w.extractLsb' 7 15) = 0#15) (.fence (w.extractLsb' 29 2) (w.extractLsb' 4 3) (w.extractLsb' 0 2))) rfl ?_
  simp [fixedOr, h7_15, h2_2]

theorem cmnt (s : BitVec 2) (a : BitVec 6) (b : BitVec 6) (l : BitVec 2) (o : BitVec 2) : Statement (.cmnt s a b l o) := by
  intro _ wf
  obtain ⟨h31_1, h29_2, h22_7, h16_6, h10_6, h4_6, h2_2, h0_2⟩ := layout30 _ _ _ _ _ _ _ (encode (.cmnt s a b l o)) rfl
  generalize encode (.cmnt s a b l o) = w at *
  subst h29_2 h10_6 h4_6 h2_2 h0_2
  refine (if_neg (by rw [h31_1]; decide)).trans ?_
  unfold decodeUniform
  rw [h22_7]
  refine Eq.trans (b := fixedOr ((w.extractLsb' 16 6) = 0#6) (.cmnt (w.extractLsb' 29 2) (w.extractLsb' 10 6) (w.extractLsb' 4 6) (w.extractLsb' 2 2) (w.extractLsb' 0 2))) rfl ?_
  simp [fixedOr, h16_6]

theorem racq (s : BitVec 2) (m : BitVec 7) : Statement (.racq s m) := by
  intro _ wf
  obtain ⟨h31_1, h29_2, h22_7, h11_11, h4_7, h2_2, h2_1, h0_4, h0_2⟩ := layout31 _ _ _ _ _ (encode (.racq s m)) rfl
  generalize encode (.racq s m) = w at *
  subst h29_2 h4_7
  refine (if_neg (by rw [h31_1]; decide)).trans ?_
  unfold decodeUniform
  rw [h22_7]
  refine Eq.trans (b :=
          if (w.extractLsb' 2 1) = 0#1 then fixedOr ((w.extractLsb' 0 4) = 0#4 && (w.extractLsb' 11 11) = 0#11) (.racq (w.extractLsb' 29 2) (w.extractLsb' 4 7))
          else fixedOr ((w.extractLsb' 2 2) = 1#2 && (w.extractLsb' 11 11) = 0#11) (.racqNb (w.extractLsb' 29 2) (w.extractLsb' 4 7) (w.extractLsb' 0 2))) rfl ?_
  simp [fixedOr, h11_11, h2_2, h2_1, h0_4, h0_2]

theorem racqNb (s : BitVec 2) (m : BitVec 7) (p : BitVec 2) : Statement (.racqNb s m p) := by
  intro _ wf
  obtain ⟨h31_1, h29_2, h22_7, h11_11, h4_7, h2_2, h2_1, h0_2⟩ := layout32 _ _ _ _ _ _ (encode (.racqNb s m p)) rfl
  generalize encode (.racqNb s m p) = w at *
  subst h29_2 h4_7 h0_2
  refine (if_neg (by rw [h31_1]; decide)).trans ?_
  unfold decodeUniform
  rw [h22_7]
  refine Eq.trans (b :=
          if (w.extractLsb' 2 1) = 0#1 then fixedOr ((w.extractLsb' 0 4) = 0#4 && (w.extractLsb' 11 11) = 0#11) (.racq (w.extractLsb' 29 2) (w.extractLsb' 4 7))
          else fixedOr ((w.extractLsb' 2 2) = 1#2 && (w.extractLsb' 11 11) = 0#11) (.racqNb (w.extractLsb' 29 2) (w.extractLsb' 4 7) (w.extractLsb' 0 2))) rfl ?_
  simp [fixedOr, h11_11, h2_2, h2_1]

theorem rrel (s : BitVec 2) (m : BitVec 7) : Statement (.rrel s m) := by
  intro _ wf
  obtain ⟨h31_1, h29_2, h22_7, h11_11, h4_7, h0_4⟩ := layout33 _ _ _ _ _ (encode (.rrel s m)) rfl
  generalize encode (.rrel s m) = w at *
  subst h29_2 h4_7
  refine (if_neg (by rw [h31_1]; decide)).trans ?_
  unfold decodeUniform
  rw [h22_7]
  refine Eq.trans (b := fixedOr ((w.extractLsb' 0 4) = 0#4 && (w.extractLsb' 11 11) = 0#11) (.rrel (w.extractLsb' 29 2) (w.extractLsb' 4 7))) rfl ?_
  simp [fixedOr, h11_11, h0_4]

theorem rnext (s : BitVec 2) (d : BitVec 6) (p : BitVec 2) : Statement (.rnext s d p) := by
  intro _ wf
  obtain ⟨h31_1, h29_2, h22_7, h16_6, h2_14, h0_2⟩ := layout34 _ _ _ _ _ _ (encode (.rnext s d p)) rfl
  generalize encode (.rnext s d p) = w at *
  subst h29_2 h16_6 h0_2
  refine (if_neg (by rw [h31_1]; decide)).trans ?_
  unfold decodeUniform
  rw [h22_7]
  refine Eq.trans (b := fixedOr ((w.extractLsb' 2 14) = 0#14) (.rnext (w.extractLsb' 29 2) (w.extractLsb' 16 6) (w.extractLsb' 0 2))) rfl ?_
  simp [fixedOr, h2_14]

theorem launch (s : BitVec 2) (a : BitVec 6) : Statement (.launch s a) := by
  intro _ wf
  obtain ⟨h31_1, h29_2, h22_7, h16_6, h10_6, h0_10⟩ := layout35 _ _ _ _ _ (encode (.launch s a)) rfl
  generalize encode (.launch s a) = w at *
  subst h29_2 h10_6
  refine (if_neg (by rw [h31_1]; decide)).trans ?_
  unfold decodeUniform
  rw [h22_7]
  refine Eq.trans (b := fixedOr ((w.extractLsb' 0 10) = 0#10 && (w.extractLsb' 16 6) = 0#6) (.launch (w.extractLsb' 29 2) (w.extractLsb' 10 6))) rfl ?_
  simp [fixedOr, h16_6, h0_10]

theorem cpy (s : BitVec 2) (a : BitVec 6) (r : BitVec 2) : Statement (.cpy s a r) := by
  intro _ wf
  obtain ⟨h31_1, h29_2, h22_7, h16_6, h10_6, h2_8, h0_2⟩ := layout36 _ _ _ _ _ _ (encode (.cpy s a r)) rfl
  generalize encode (.cpy s a r) = w at *
  subst h29_2 h10_6 h0_2
  refine (if_neg (by rw [h31_1]; decide)).trans ?_
  unfold decodeUniform
  rw [h22_7]
  refine Eq.trans (b := fixedOr ((w.extractLsb' 2 8) = 0#8 && (w.extractLsb' 16 6) = 0#6) (.cpy (w.extractLsb' 29 2) (w.extractLsb' 10 6) (w.extractLsb' 0 2))) rfl ?_
  simp [fixedOr, h16_6, h2_8]

theorem cpyb (s : BitVec 2) (d : BitVec 6) (a : BitVec 6) (j : BitVec 3) (r : BitVec 2) : Statement (.cpyb s d a j r) := by
  intro _ wf
  obtain ⟨h31_1, h29_2, h22_7, h16_6, h10_6, h7_3, h4_3, h2_2, h0_2⟩ := layout37 _ _ _ _ _ _ _ _ _ (encode (.cpyb s d a j r)) rfl
  generalize encode (.cpyb s d a j r) = w at *
  subst h29_2 h16_6 h10_6 h4_3 h0_2
  refine (if_neg (by rw [h31_1]; decide)).trans ?_
  unfold decodeUniform
  rw [h22_7]
  refine Eq.trans (b := fixedOr ((w.extractLsb' 2 2) = 0#2 && (w.extractLsb' 7 3) = 0#3) (.cpyb (w.extractLsb' 29 2) (w.extractLsb' 16 6) (w.extractLsb' 10 6) (w.extractLsb' 4 3) (w.extractLsb' 0 2))) rfl ?_
  simp [fixedOr, h7_3, h2_2]

theorem cpyg (s : BitVec 2) (a : BitVec 6) (b : BitVec 6) (r : BitVec 2) : Statement (.cpyg s a b r) := by
  intro _ wf
  obtain ⟨h31_1, h29_2, h22_7, h16_6, h10_6, h4_6, h2_2, h0_2⟩ := layout30 _ _ _ _ _ _ _ (encode (.cpyg s a b r)) rfl
  generalize encode (.cpyg s a b r) = w at *
  subst h29_2 h10_6 h4_6 h0_2
  refine (if_neg (by rw [h31_1]; decide)).trans ?_
  unfold decodeUniform
  rw [h22_7]
  refine Eq.trans (b := fixedOr ((w.extractLsb' 2 2) = 0#2 && (w.extractLsb' 16 6) = 0#6) (.cpyg (w.extractLsb' 29 2) (w.extractLsb' 10 6) (w.extractLsb' 4 6) (w.extractLsb' 0 2))) rfl ?_
  simp [fixedOr, h16_6, h2_2]

theorem cpys (s : BitVec 2) (a : BitVec 6) (b : BitVec 6) (r : BitVec 2) : Statement (.cpys s a b r) := by
  intro _ wf
  obtain ⟨h31_1, h29_2, h22_7, h16_6, h10_6, h4_6, h2_2, h0_2⟩ := layout30 _ _ _ _ _ _ _ (encode (.cpys s a b r)) rfl
  generalize encode (.cpys s a b r) = w at *
  subst h29_2 h10_6 h4_6 h0_2
  refine (if_neg (by rw [h31_1]; decide)).trans ?_
  unfold decodeUniform
  rw [h22_7]
  refine Eq.trans (b := fixedOr ((w.extractLsb' 2 2) = 0#2 && (w.extractLsb' 16 6) = 0#6) (.cpys (w.extractLsb' 29 2) (w.extractLsb' 10 6) (w.extractLsb' 4 6) (w.extractLsb' 0 2))) rfl ?_
  simp [fixedOr, h16_6, h2_2]

theorem cseal (s : BitVec 2) (d : BitVec 6) (a : BitVec 6) (b : BitVec 6) (f : BitVec 2) (k : BitVec 2) : Statement (.cseal s d a b f k) := by
  intro _ wf
  obtain ⟨h31_1, h29_2, h22_7, h16_6, h10_6, h4_6, h2_2, h0_2⟩ := layout24 _ _ _ _ _ _ _ _ (encode (.cseal s d a b f k)) rfl
  generalize encode (.cseal s d a b f k) = w at *
  subst h29_2 h16_6 h10_6 h4_6 h2_2 h0_2
  refine (if_neg (by rw [h31_1]; decide)).trans ?_
  unfold decodeUniform
  rw [h22_7]; rfl

theorem cwaitb (s : BitVec 2) (b : BitVec 6) : Statement (.cwaitb s b) := by
  intro _ wf
  obtain ⟨h31_1, h29_2, h22_7, h10_12, h4_6, h0_4⟩ := layout38 _ _ _ _ _ (encode (.cwaitb s b)) rfl
  generalize encode (.cwaitb s b) = w at *
  subst h29_2 h4_6
  refine (if_neg (by rw [h31_1]; decide)).trans ?_
  unfold decodeUniform
  rw [h22_7]
  refine Eq.trans (b := fixedOr ((w.extractLsb' 0 4) = 0#4 && (w.extractLsb' 10 12) = 0#12) (.cwaitb (w.extractLsb' 29 2) (w.extractLsb' 4 6))) rfl ?_
  simp [fixedOr, h10_12, h0_4]

theorem wdesc (s : BitVec 2) (a : BitVec 6) (b : BitVec 6) : Statement (.wdesc s a b) := by
  intro _ wf
  obtain ⟨h31_1, h29_2, h22_7, h16_6, h10_6, h4_6, h0_4⟩ := layout39 _ _ _ _ _ _ (encode (.wdesc s a b)) rfl
  generalize encode (.wdesc s a b) = w at *
  subst h29_2 h10_6 h4_6
  refine (if_neg (by rw [h31_1]; decide)).trans ?_
  unfold decodeUniform
  rw [h22_7]
  refine Eq.trans (b := fixedOr ((w.extractLsb' 0 4) = 0#4 && (w.extractLsb' 16 6) = 0#6) (.wdesc (w.extractLsb' 29 2) (w.extractLsb' 10 6) (w.extractLsb' 4 6))) rfl ?_
  simp [fixedOr, h16_6, h0_4]

theorem msignCount (s : BitVec 2) (n : BitVec 4) (c : BitVec 12) : Statement (.msignCount s n c) := by
  intro _ wf
  obtain ⟨h31_1, h29_2, h22_7, h20_2, h16_4, h4_12, h0_4⟩ := layout40 _ _ _ _ _ _ (encode (.msignCount s n c)) rfl
  generalize encode (.msignCount s n c) = w at *
  subst h29_2 h16_4 h4_12
  refine (if_neg (by rw [h31_1]; decide)).trans ?_
  unfold decodeUniform
  rw [h22_7]
  refine Eq.trans (b :=
          match (w.extractLsb' 0 4) with
          | 0#4 => fixedOr ((w.extractLsb' 4 6) = 0#6 && (w.extractLsb' 20 2) = 0#2) (.msignReg (w.extractLsb' 29 2) (w.extractLsb' 16 4) (w.extractLsb' 10 6))
          | 1#4 => fixedOr ((w.extractLsb' 20 2) = 0#2) (.msignCount (w.extractLsb' 29 2) (w.extractLsb' 16 4) (w.extractLsb' 4 12))
          | _ => .error .subCode) rfl ?_
  simp [fixedOr, h20_2, h0_4]

theorem msignReg (s : BitVec 2) (n : BitVec 4) (a : BitVec 6) : Statement (.msignReg s n a) := by
  intro _ wf
  obtain ⟨h31_1, h29_2, h22_7, h20_2, h16_4, h10_6, h4_6, h0_4⟩ := layout41 _ _ _ _ _ _ (encode (.msignReg s n a)) rfl
  generalize encode (.msignReg s n a) = w at *
  subst h29_2 h16_4 h10_6
  refine (if_neg (by rw [h31_1]; decide)).trans ?_
  unfold decodeUniform
  rw [h22_7]
  refine Eq.trans (b :=
          match (w.extractLsb' 0 4) with
          | 0#4 => fixedOr ((w.extractLsb' 4 6) = 0#6 && (w.extractLsb' 20 2) = 0#2) (.msignReg (w.extractLsb' 29 2) (w.extractLsb' 16 4) (w.extractLsb' 10 6))
          | 1#4 => fixedOr ((w.extractLsb' 20 2) = 0#2) (.msignCount (w.extractLsb' 29 2) (w.extractLsb' 16 4) (w.extractLsb' 4 12))
          | _ => .error .subCode) rfl ?_
  simp [fixedOr, h20_2, h4_6, h0_4]

theorem ldw (s : BitVec 2) (a : BitVec 6) : Statement (.ldw s a) := by
  intro _ wf
  obtain ⟨h31_1, h29_2, h22_7, h16_6, h10_6, h0_10⟩ := layout35 _ _ _ _ _ (encode (.ldw s a)) rfl
  generalize encode (.ldw s a) = w at *
  subst h29_2 h10_6
  refine (if_neg (by rw [h31_1]; decide)).trans ?_
  unfold decodeUniform
  rw [h22_7]
  refine Eq.trans (b := fixedOr ((w.extractLsb' 0 10) = 0#10 && (w.extractLsb' 16 6) = 0#6) (.ldw (w.extractLsb' 29 2) (w.extractLsb' 10 6))) rfl ?_
  simp [fixedOr, h16_6, h0_10]

theorem wswap (s : BitVec 2) : Statement (.wswap s) := by
  intro _ wf
  obtain ⟨h31_1, h29_2, h22_7, h0_22⟩ := layout27 _ _ _ (encode (.wswap s)) rfl
  generalize encode (.wswap s) = w at *
  subst h29_2
  refine (if_neg (by rw [h31_1]; decide)).trans ?_
  unfold decodeUniform
  rw [h22_7]
  refine Eq.trans (b := fixedOr ((w.extractLsb' 0 22) = 0#22) (.wswap (w.extractLsb' 29 2))) rfl ?_
  simp [fixedOr, h0_22]

theorem mma (s : BitVec 2) (d : BitVec 6) (a : BitVec 6) (z : BitVec 1) : Statement (.mma s d a z) := by
  intro _ wf
  obtain ⟨h31_1, h29_2, h22_7, h16_6, h10_6, h1_9, h0_1⟩ := layout42 _ _ _ _ _ _ _ (encode (.mma s d a z)) rfl
  generalize encode (.mma s d a z) = w at *
  subst h29_2 h16_6 h10_6 h0_1
  refine (if_neg (by rw [h31_1]; decide)).trans ?_
  unfold decodeUniform
  rw [h22_7]
  refine Eq.trans (b := fixedOr ((w.extractLsb' 1 9) = 0#9) (.mma (w.extractLsb' 29 2) (w.extractLsb' 16 6) (w.extractLsb' 10 6) (w.extractLsb' 0 1))) rfl ?_
  simp [fixedOr, h1_9]

theorem mmat (s : BitVec 2) (d : BitVec 6) (a : BitVec 6) : Statement (.mmat s d a) := by
  intro _ wf
  obtain ⟨h31_1, h29_2, h22_7, h16_6, h10_6, h0_10⟩ := layout21 _ _ _ _ _ _ (encode (.mmat s d a)) rfl
  generalize encode (.mmat s d a) = w at *
  subst h29_2 h16_6 h10_6
  refine (if_neg (by rw [h31_1]; decide)).trans ?_
  unfold decodeUniform
  rw [h22_7]
  refine Eq.trans (b := fixedOr ((w.extractLsb' 0 10) = 0#10) (.mmat (w.extractLsb' 29 2) (w.extractLsb' 16 6) (w.extractLsb' 10 6))) rfl ?_
  simp [fixedOr, h0_10]

theorem mperm (s : BitVec 2) (d : BitVec 6) (a : BitVec 6) : Statement (.mperm s d a) := by
  intro _ wf
  obtain ⟨h31_1, h29_2, h22_7, h16_6, h10_6, h0_10⟩ := layout21 _ _ _ _ _ _ (encode (.mperm s d a)) rfl
  generalize encode (.mperm s d a) = w at *
  subst h29_2 h16_6 h10_6
  refine (if_neg (by rw [h31_1]; decide)).trans ?_
  unfold decodeUniform
  rw [h22_7]
  refine Eq.trans (b := fixedOr ((w.extractLsb' 0 10) = 0#10) (.mperm (w.extractLsb' 29 2) (w.extractLsb' 16 6) (w.extractLsb' 10 6))) rfl ?_
  simp [fixedOr, h0_10]

theorem mred (s : BitVec 2) (d : BitVec 6) (a : BitVec 6) : Statement (.mred s d a) := by
  intro _ wf
  obtain ⟨h31_1, h29_2, h22_7, h16_6, h10_6, h0_10⟩ := layout21 _ _ _ _ _ _ (encode (.mred s d a)) rfl
  generalize encode (.mred s d a) = w at *
  subst h29_2 h16_6 h10_6
  refine (if_neg (by rw [h31_1]; decide)).trans ?_
  unfold decodeUniform
  rw [h22_7]
  refine Eq.trans (b := fixedOr ((w.extractLsb' 0 10) = 0#10) (.mred (w.extractLsb' 29 2) (w.extractLsb' 16 6) (w.extractLsb' 10 6))) rfl ?_
  simp [fixedOr, h0_10]

theorem mrd (s : BitVec 2) (d : BitVec 6) (a : BitVec 6) : Statement (.mrd s d a) := by
  intro _ wf
  obtain ⟨h31_1, h29_2, h22_7, h16_6, h10_6, h0_10⟩ := layout21 _ _ _ _ _ _ (encode (.mrd s d a)) rfl
  generalize encode (.mrd s d a) = w at *
  subst h29_2 h16_6 h10_6
  refine (if_neg (by rw [h31_1]; decide)).trans ?_
  unfold decodeUniform
  rw [h22_7]
  refine Eq.trans (b := fixedOr ((w.extractLsb' 0 10) = 0#10) (.mrd (w.extractLsb' 29 2) (w.extractLsb' 16 6) (w.extractLsb' 10 6))) rfl ?_
  simp [fixedOr, h0_10]

theorem mst (s : BitVec 2) (d : BitVec 6) (a : BitVec 6) : Statement (.mst s d a) := by
  intro _ wf
  obtain ⟨h31_1, h29_2, h22_7, h16_6, h10_6, h0_10⟩ := layout21 _ _ _ _ _ _ (encode (.mst s d a)) rfl
  generalize encode (.mst s d a) = w at *
  subst h29_2 h16_6 h10_6
  refine (if_neg (by rw [h31_1]; decide)).trans ?_
  unfold decodeUniform
  rw [h22_7]
  refine Eq.trans (b := fixedOr ((w.extractLsb' 0 10) = 0#10) (.mst (w.extractLsb' 29 2) (w.extractLsb' 16 6) (w.extractLsb' 10 6))) rfl ?_
  simp [fixedOr, h0_10]

theorem mzero (s : BitVec 2) (d : BitVec 6) : Statement (.mzero s d) := by
  intro _ wf
  obtain ⟨h31_1, h29_2, h22_7, h16_6, h0_16⟩ := layout22 _ _ _ _ _ (encode (.mzero s d)) rfl
  generalize encode (.mzero s d) = w at *
  subst h29_2 h16_6
  refine (if_neg (by rw [h31_1]; decide)).trans ?_
  unfold decodeUniform
  rw [h22_7]
  refine Eq.trans (b := fixedOr ((w.extractLsb' 0 16) = 0#16) (.mzero (w.extractLsb' 29 2) (w.extractLsb' 16 6))) rfl ?_
  simp [fixedOr, h0_16]

theorem trap (s : BitVec 2) (c : BitVec 12) : Statement (.trap s c) := by
  intro _ wf
  obtain ⟨h31_1, h29_2, h22_7, h16_6, h4_12, h0_4⟩ := layout43 _ _ _ _ _ (encode (.trap s c)) rfl
  generalize encode (.trap s c) = w at *
  subst h29_2 h4_12
  refine (if_neg (by rw [h31_1]; decide)).trans ?_
  unfold decodeUniform
  rw [h22_7]
  refine Eq.trans (b :=
          match (w.extractLsb' 0 4) with
          | 0#4 => fixedOr ((w.extractLsb' 16 6) = 0#6) (.trap (w.extractLsb' 29 2) (w.extractLsb' 4 12))
          | 1#4 => fixedOr ((w.extractLsb' 4 18) = 0#18) (.rft (w.extractLsb' 29 2))
          | 2#4 => fixedOr ((w.extractLsb' 4 6) = 0#6) (.svc (w.extractLsb' 29 2) (w.extractLsb' 16 6) (w.extractLsb' 10 6))
          | 3#4 => fixedOr ((w.extractLsb' 16 6) = 0#6) (.bkpt (w.extractLsb' 29 2) (w.extractLsb' 4 12))
          | _ => .error .subCode) rfl ?_
  simp [fixedOr, h16_6, h0_4]

theorem rft (s : BitVec 2) : Statement (.rft s) := by
  intro _ wf
  obtain ⟨h31_1, h29_2, h22_7, h16_6, h10_6, h4_18, h4_12, h4_6, h0_4⟩ := layout44 _ _ _ (encode (.rft s)) rfl
  generalize encode (.rft s) = w at *
  subst h29_2
  refine (if_neg (by rw [h31_1]; decide)).trans ?_
  unfold decodeUniform
  rw [h22_7]
  refine Eq.trans (b :=
          match (w.extractLsb' 0 4) with
          | 0#4 => fixedOr ((w.extractLsb' 16 6) = 0#6) (.trap (w.extractLsb' 29 2) (w.extractLsb' 4 12))
          | 1#4 => fixedOr ((w.extractLsb' 4 18) = 0#18) (.rft (w.extractLsb' 29 2))
          | 2#4 => fixedOr ((w.extractLsb' 4 6) = 0#6) (.svc (w.extractLsb' 29 2) (w.extractLsb' 16 6) (w.extractLsb' 10 6))
          | 3#4 => fixedOr ((w.extractLsb' 16 6) = 0#6) (.bkpt (w.extractLsb' 29 2) (w.extractLsb' 4 12))
          | _ => .error .subCode) rfl ?_
  simp [fixedOr, h16_6, h10_6, h4_18, h4_12, h4_6, h0_4]

theorem svc (s : BitVec 2) (d : BitVec 6) (a : BitVec 6) : Statement (.svc s d a) := by
  intro _ wf
  obtain ⟨h31_1, h29_2, h22_7, h16_6, h10_6, h4_6, h0_4⟩ := layout45 _ _ _ _ _ _ (encode (.svc s d a)) rfl
  generalize encode (.svc s d a) = w at *
  subst h29_2 h16_6 h10_6
  refine (if_neg (by rw [h31_1]; decide)).trans ?_
  unfold decodeUniform
  rw [h22_7]
  refine Eq.trans (b :=
          match (w.extractLsb' 0 4) with
          | 0#4 => fixedOr ((w.extractLsb' 16 6) = 0#6) (.trap (w.extractLsb' 29 2) (w.extractLsb' 4 12))
          | 1#4 => fixedOr ((w.extractLsb' 4 18) = 0#18) (.rft (w.extractLsb' 29 2))
          | 2#4 => fixedOr ((w.extractLsb' 4 6) = 0#6) (.svc (w.extractLsb' 29 2) (w.extractLsb' 16 6) (w.extractLsb' 10 6))
          | 3#4 => fixedOr ((w.extractLsb' 16 6) = 0#6) (.bkpt (w.extractLsb' 29 2) (w.extractLsb' 4 12))
          | _ => .error .subCode) rfl ?_
  simp [fixedOr, h4_6, h0_4]

theorem bkpt (s : BitVec 2) (c : BitVec 12) : Statement (.bkpt s c) := by
  intro _ wf
  obtain ⟨h31_1, h29_2, h22_7, h16_6, h4_12, h0_4⟩ := layout43 _ _ _ _ _ (encode (.bkpt s c)) rfl
  generalize encode (.bkpt s c) = w at *
  subst h29_2 h4_12
  refine (if_neg (by rw [h31_1]; decide)).trans ?_
  unfold decodeUniform
  rw [h22_7]
  refine Eq.trans (b :=
          match (w.extractLsb' 0 4) with
          | 0#4 => fixedOr ((w.extractLsb' 16 6) = 0#6) (.trap (w.extractLsb' 29 2) (w.extractLsb' 4 12))
          | 1#4 => fixedOr ((w.extractLsb' 4 18) = 0#18) (.rft (w.extractLsb' 29 2))
          | 2#4 => fixedOr ((w.extractLsb' 4 6) = 0#6) (.svc (w.extractLsb' 29 2) (w.extractLsb' 16 6) (w.extractLsb' 10 6))
          | 3#4 => fixedOr ((w.extractLsb' 16 6) = 0#6) (.bkpt (w.extractLsb' 29 2) (w.extractLsb' 4 12))
          | _ => .error .subCode) rfl ?_
  simp [fixedOr, h16_6, h0_4]

theorem ckpt (s : BitVec 2) : Statement (.ckpt s) := by
  intro _ wf
  obtain ⟨h31_1, h29_2, h22_7, h16_6, h10_6, h4_12, h4_6, h0_4⟩ := layout46 _ _ _ (encode (.ckpt s)) rfl
  generalize encode (.ckpt s) = w at *
  subst h29_2
  refine (if_neg (by rw [h31_1]; decide)).trans ?_
  unfold decodeUniform
  rw [h22_7]
  refine Eq.trans (b :=
          if (w.extractLsb' 0 4) != 0#4 then .error .subCode
          else if (w.extractLsb' 16 6) = 0#6 then fixedOr ((w.extractLsb' 4 12) = 0#12) (.ckpt (w.extractLsb' 29 2))
          else fixedOr ((w.extractLsb' 16 6) = 1#6) (.ckptCounter (w.extractLsb' 29 2) (w.extractLsb' 10 6) (w.extractLsb' 4 6))) rfl ?_
  simp [fixedOr, h16_6, h10_6, h4_12, h4_6, h0_4]

theorem ckptCounter (s : BitVec 2) (a : BitVec 6) (b : BitVec 6) : Statement (.ckptCounter s a b) := by
  intro _ wf
  obtain ⟨h31_1, h29_2, h22_7, h16_6, h10_6, h4_6, h0_4⟩ := layout39 _ _ _ _ _ _ (encode (.ckptCounter s a b)) rfl
  generalize encode (.ckptCounter s a b) = w at *
  subst h29_2 h10_6 h4_6
  refine (if_neg (by rw [h31_1]; decide)).trans ?_
  unfold decodeUniform
  rw [h22_7]
  refine Eq.trans (b :=
          if (w.extractLsb' 0 4) != 0#4 then .error .subCode
          else if (w.extractLsb' 16 6) = 0#6 then fixedOr ((w.extractLsb' 4 12) = 0#12) (.ckpt (w.extractLsb' 29 2))
          else fixedOr ((w.extractLsb' 16 6) = 1#6) (.ckptCounter (w.extractLsb' 29 2) (w.extractLsb' 10 6) (w.extractLsb' 4 6))) rfl ?_
  simp [fixedOr, h16_6, h0_4]

theorem rgnent (s : BitVec 2) (a : BitVec 6) : Statement (.rgnent s a) := by
  intro _ wf
  obtain ⟨h31_1, h29_2, h22_7, h16_6, h10_6, h4_6, h0_4⟩ := layout47 _ _ _ _ _ (encode (.rgnent s a)) rfl
  generalize encode (.rgnent s a) = w at *
  subst h29_2 h10_6
  refine (if_neg (by rw [h31_1]; decide)).trans ?_
  unfold decodeUniform
  rw [h22_7]
  refine Eq.trans (b :=
          match (w.extractLsb' 0 4) with
          | 0#4 => fixedOr ((w.extractLsb' 4 6) = 0#6 && (w.extractLsb' 16 6) = 0#6) (.rgnent (w.extractLsb' 29 2) (w.extractLsb' 10 6))
          | 1#4 => fixedOr ((w.extractLsb' 4 6) = 0#6 && (w.extractLsb' 16 6) = 0#6) (.rgnlve (w.extractLsb' 29 2) (w.extractLsb' 10 6))
          | _ => .error .subCode) rfl ?_
  simp [fixedOr, h16_6, h4_6, h0_4]

theorem rgnlve (s : BitVec 2) (a : BitVec 6) : Statement (.rgnlve s a) := by
  intro _ wf
  obtain ⟨h31_1, h29_2, h22_7, h16_6, h10_6, h4_6, h0_4⟩ := layout47 _ _ _ _ _ (encode (.rgnlve s a)) rfl
  generalize encode (.rgnlve s a) = w at *
  subst h29_2 h10_6
  refine (if_neg (by rw [h31_1]; decide)).trans ?_
  unfold decodeUniform
  rw [h22_7]
  refine Eq.trans (b :=
          match (w.extractLsb' 0 4) with
          | 0#4 => fixedOr ((w.extractLsb' 4 6) = 0#6 && (w.extractLsb' 16 6) = 0#6) (.rgnent (w.extractLsb' 29 2) (w.extractLsb' 10 6))
          | 1#4 => fixedOr ((w.extractLsb' 4 6) = 0#6 && (w.extractLsb' 16 6) = 0#6) (.rgnlve (w.extractLsb' 29 2) (w.extractLsb' 10 6))
          | _ => .error .subCode) rfl ?_
  simp [fixedOr, h16_6, h4_6, h0_4]

theorem toksub (s : BitVec 2) (d : BitVec 6) (a : BitVec 6) (b : BitVec 6) : Statement (.toksub s d a b) := by
  intro _ wf
  obtain ⟨h31_1, h29_2, h22_7, h16_6, h10_6, h4_6, h0_4⟩ := layout19 _ _ _ _ _ _ _ (encode (.toksub s d a b)) rfl
  generalize encode (.toksub s d a b) = w at *
  subst h29_2 h16_6 h10_6 h4_6
  refine (if_neg (by rw [h31_1]; decide)).trans ?_
  unfold decodeUniform
  rw [h22_7]
  refine Eq.trans (b :=
          match (w.extractLsb' 0 4) with
          | 0#4 => .ok (.toksub (w.extractLsb' 29 2) (w.extractLsb' 16 6) (w.extractLsb' 10 6) (w.extractLsb' 4 6))
          | 1#4 => .ok (.toksubD (w.extractLsb' 29 2) (w.extractLsb' 16 6) (w.extractLsb' 10 6) (w.extractLsb' 4 6))
          | 2#4 => .ok (.tokconf (w.extractLsb' 29 2) (w.extractLsb' 16 6) (w.extractLsb' 10 6) (w.extractLsb' 4 6))
          | 3#4 => fixedOr ((w.extractLsb' 16 6) = 0#6) (.tokarm (w.extractLsb' 29 2) (w.extractLsb' 10 6) (w.extractLsb' 4 6))
          | _ => .error .subCode) rfl ?_
  simp [fixedOr, h0_4]

theorem toksubD (s : BitVec 2) (d : BitVec 6) (a : BitVec 6) (b : BitVec 6) : Statement (.toksubD s d a b) := by
  intro _ wf
  obtain ⟨h31_1, h29_2, h22_7, h16_6, h10_6, h4_6, h0_4⟩ := layout19 _ _ _ _ _ _ _ (encode (.toksubD s d a b)) rfl
  generalize encode (.toksubD s d a b) = w at *
  subst h29_2 h16_6 h10_6 h4_6
  refine (if_neg (by rw [h31_1]; decide)).trans ?_
  unfold decodeUniform
  rw [h22_7]
  refine Eq.trans (b :=
          match (w.extractLsb' 0 4) with
          | 0#4 => .ok (.toksub (w.extractLsb' 29 2) (w.extractLsb' 16 6) (w.extractLsb' 10 6) (w.extractLsb' 4 6))
          | 1#4 => .ok (.toksubD (w.extractLsb' 29 2) (w.extractLsb' 16 6) (w.extractLsb' 10 6) (w.extractLsb' 4 6))
          | 2#4 => .ok (.tokconf (w.extractLsb' 29 2) (w.extractLsb' 16 6) (w.extractLsb' 10 6) (w.extractLsb' 4 6))
          | 3#4 => fixedOr ((w.extractLsb' 16 6) = 0#6) (.tokarm (w.extractLsb' 29 2) (w.extractLsb' 10 6) (w.extractLsb' 4 6))
          | _ => .error .subCode) rfl ?_
  simp [fixedOr, h0_4]

theorem tokconf (s : BitVec 2) (d : BitVec 6) (a : BitVec 6) (b : BitVec 6) : Statement (.tokconf s d a b) := by
  intro _ wf
  obtain ⟨h31_1, h29_2, h22_7, h16_6, h10_6, h4_6, h0_4⟩ := layout19 _ _ _ _ _ _ _ (encode (.tokconf s d a b)) rfl
  generalize encode (.tokconf s d a b) = w at *
  subst h29_2 h16_6 h10_6 h4_6
  refine (if_neg (by rw [h31_1]; decide)).trans ?_
  unfold decodeUniform
  rw [h22_7]
  refine Eq.trans (b :=
          match (w.extractLsb' 0 4) with
          | 0#4 => .ok (.toksub (w.extractLsb' 29 2) (w.extractLsb' 16 6) (w.extractLsb' 10 6) (w.extractLsb' 4 6))
          | 1#4 => .ok (.toksubD (w.extractLsb' 29 2) (w.extractLsb' 16 6) (w.extractLsb' 10 6) (w.extractLsb' 4 6))
          | 2#4 => .ok (.tokconf (w.extractLsb' 29 2) (w.extractLsb' 16 6) (w.extractLsb' 10 6) (w.extractLsb' 4 6))
          | 3#4 => fixedOr ((w.extractLsb' 16 6) = 0#6) (.tokarm (w.extractLsb' 29 2) (w.extractLsb' 10 6) (w.extractLsb' 4 6))
          | _ => .error .subCode) rfl ?_
  simp [fixedOr, h0_4]

theorem tokarm (s : BitVec 2) (a : BitVec 6) (b : BitVec 6) : Statement (.tokarm s a b) := by
  intro _ wf
  obtain ⟨h31_1, h29_2, h22_7, h16_6, h10_6, h4_6, h0_4⟩ := layout39 _ _ _ _ _ _ (encode (.tokarm s a b)) rfl
  generalize encode (.tokarm s a b) = w at *
  subst h29_2 h10_6 h4_6
  refine (if_neg (by rw [h31_1]; decide)).trans ?_
  unfold decodeUniform
  rw [h22_7]
  refine Eq.trans (b :=
          match (w.extractLsb' 0 4) with
          | 0#4 => .ok (.toksub (w.extractLsb' 29 2) (w.extractLsb' 16 6) (w.extractLsb' 10 6) (w.extractLsb' 4 6))
          | 1#4 => .ok (.toksubD (w.extractLsb' 29 2) (w.extractLsb' 16 6) (w.extractLsb' 10 6) (w.extractLsb' 4 6))
          | 2#4 => .ok (.tokconf (w.extractLsb' 29 2) (w.extractLsb' 16 6) (w.extractLsb' 10 6) (w.extractLsb' 4 6))
          | 3#4 => fixedOr ((w.extractLsb' 16 6) = 0#6) (.tokarm (w.extractLsb' 29 2) (w.extractLsb' 10 6) (w.extractLsb' 4 6))
          | _ => .error .subCode) rfl ?_
  simp [fixedOr, h16_6, h0_4]

theorem quadIssueCycle (core quad : Nat) : Statement (.quadIssueCycle core quad) := by intro h; cases h

theorem spawnBinTimerExpiry (core bin : Nat) : Statement (.spawnBinTimerExpiry core bin) := by intro h; cases h

theorem spawnBinLaunch (core bin : Nat) : Statement (.spawnBinLaunch core bin) := by intro h; cases h

theorem coreAdmission (core : Nat) : Statement (.coreAdmission core) := by intro h; cases h

theorem launchDescriptorTake (agent ctx addr : Nat) (desc : Block) : Statement (.launchDescriptorTake agent ctx addr desc) := by intro h; cases h

theorem submissionQueueEntry (queue : Nat) : Statement (.submissionQueueEntry queue) := by intro h; cases h

theorem run (agent ctx head queue : Nat) : Statement (.run agent ctx head queue) := by intro h; cases h

theorem launchNode (run : Nat) : Statement (.launchNode run) := by intro h; cases h

theorem copyNode (run : Nat) : Statement (.copyNode run) := by intro h; cases h

theorem signalNode (run : Nat) : Statement (.signalNode run) := by intro h; cases h

theorem waitNode (run : Nat) : Statement (.waitNode run) := by intro h; cases h

theorem condNode (run : Nat) : Statement (.condNode run) := by intro h; cases h

theorem stealRequest (core requester : Nat) : Statement (.stealRequest core requester) := by intro h; cases h

theorem stealAgentTimeout (core : Nat) : Statement (.stealAgentTimeout core) := by intro h; cases h

theorem reserve (part gang : Nat) (ticketed : Bool) : Statement (.reserve part gang ticketed) := by intro h; cases h

theorem commit (part gang : Nat) : Statement (.commit part gang) := by intro h; cases h

theorem rollback (part gang : Nat) : Statement (.rollback part gang) := by intro h; cases h

theorem start (part gang : Nat) : Statement (.start part gang) := by intro h; cases h

theorem agree (gang part : Nat) : Statement (.agree gang part) := by intro h; cases h

theorem refuse (gang part : Nat) : Statement (.refuse gang part) := by intro h; cases h

theorem confirm (gang part : Nat) : Statement (.confirm gang part) := by intro h; cases h

theorem withdraw (gang part : Nat) : Statement (.withdraw gang part) := by intro h; cases h

theorem gangHoldTimeout (part gang : Nat) : Statement (.gangHoldTimeout part gang) := by intro h; cases h

theorem gangCollectTimeout (gang : Nat) : Statement (.gangCollectTimeout gang) := by intro h; cases h

theorem equinoxStep (die : Nat) : Statement (.equinoxStep die) := by intro h; cases h

theorem stop (part : Nat) : Statement (.stop part) := by intro h; cases h

theorem swap (part : Nat) : Statement (.swap part) := by intro h; cases h

theorem resume (part : Nat) : Statement (.resume part) := by intro h; cases h

theorem demote (part : Nat) : Statement (.demote part) := by intro h; cases h

theorem load (part : Nat) : Statement (.load part) := by intro h; cases h

theorem enter (part : Nat) : Statement (.enter part) := by intro h; cases h

theorem pctlReservedCommand (part : Nat) : Statement (.pctlReservedCommand part) := by intro h; cases h

theorem partitionCommandComplete (part : Nat) : Statement (.partitionCommandComplete part) := by intro h; cases h

theorem parkedEviction (part unit : Nat) : Statement (.parkedEviction part unit) := by intro h; cases h

theorem evictionWakePoll (part unit : Nat) : Statement (.evictionWakePoll part unit) := by intro h; cases h

theorem almanacPeriodExpiry (ctx : Nat) : Statement (.almanacPeriodExpiry ctx) := by intro h; cases h

theorem cut (ctx : Nat) : Statement (.cut ctx) := by intro h; cases h

theorem cutReply (ctx part : Nat) : Statement (.cutReply ctx part) := by intro h; cases h

theorem heldWriteRelease (ctx page : Nat) : Statement (.heldWriteRelease ctx page) := by intro h; cases h

theorem intervalDurable (ctx : Nat) : Statement (.intervalDurable ctx) := by intro h; cases h

theorem vigilStep (req lane : Nat) : Statement (.vigilStep req lane) := by intro h; cases h

theorem vigilDraftStep (req lane : Nat) : Statement (.vigilDraftStep req lane) := by intro h; cases h

theorem vigilConfirm (req lane : Nat) : Statement (.vigilConfirm req lane) := by intro h; cases h

theorem vigilArmApply (req : Nat) : Statement (.vigilArmApply req) := by intro h; cases h

theorem vigilResultArrival (req : Nat) : Statement (.vigilResultArrival req) := by intro h; cases h

theorem flipStep2Complete (engine : Nat) : Statement (.flipStep2Complete engine) := by intro h; cases h

theorem hostMemRead (addr : Nat) : Statement (.hostMemRead addr) := by intro h; cases h

theorem hostMemWrite (addr : Nat) (bytes : List Byte) : Statement (.hostMemWrite addr bytes) := by intro h; cases h

theorem hostCounterWrite (addr : Nat) (bytes : List Byte) : Statement (.hostCounterWrite addr bytes) := by intro h; cases h

theorem peerAccess (peer addr size : Nat) (op : PeerOp) : Statement (.peerAccess peer addr size op) := by intro h; cases h

theorem counterOpAtHome (op : Nat) : Statement (.counterOpAtHome op) := by intro h; cases h

theorem slowListNotice (core line : Nat) : Statement (.slowListNotice core line) := by intro h; cases h

theorem monitorWake (line : Nat) : Statement (.monitorWake line) := by intro h; cases h

theorem hold (op home : Nat) : Statement (.hold op home) := by intro h; cases h

theorem apply (op home : Nat) : Statement (.apply op home) := by intro h; cases h

theorem release (op home : Nat) : Statement (.release op home) := by intro h; cases h

theorem appCoreCounterAmo (app addr : Nat) (op : AppOp) : Statement (.appCoreCounterAmo app addr op) := by intro h; cases h

theorem ringAgentPass (ring : Nat) : Statement (.ringAgentPass ring) := by intro h; cases h

theorem ringWindowExpiry (ring : Nat) : Statement (.ringWindowExpiry ring) := by intro h; cases h

theorem traceRecordWrite (core : Nat) : Statement (.traceRecordWrite core) := by intro h; cases h

theorem traceSample (core : Nat) : Statement (.traceSample core) := by intro h; cases h

theorem tileRecord (core tracker : Nat) : Statement (.tileRecord core tracker) := by intro h; cases h

theorem captureEnd (ctx : Nat) : Statement (.captureEnd ctx) := by intro h; cases h

theorem replayDigest (ctx entry : Nat) : Statement (.replayDigest ctx entry) := by intro h; cases h

theorem copyComplete (core copy : Nat) : Statement (.copyComplete core copy) := by intro h; cases h

theorem copyHalt (core copy : Nat) : Statement (.copyHalt core copy) := by intro h; cases h

theorem matrixCommandStart (core : Nat) : Statement (.matrixCommandStart core) := by intro h; cases h

theorem matrixCommandRetire (core : Nat) : Statement (.matrixCommandRetire core) := by intro h; cases h

theorem pageWalkComplete (die ctx vpn : Nat) : Statement (.pageWalkComplete die ctx vpn) := by intro h; cases h

theorem l1WritebackDeadline (core line : Nat) : Statement (.l1WritebackDeadline core line) := by intro h; cases h

theorem memoryRequestAtHome (req : Nat) : Statement (.memoryRequestAtHome req) := by intro h; cases h

theorem variableLatencyResult (req : Nat) : Statement (.variableLatencyResult req) := by intro h; cases h

theorem holdAnswer (op home : Nat) (yes : Bool) : Statement (.holdAnswer op home yes) := by intro h; cases h

theorem stealReply (core lo hi : Nat) : Statement (.stealReply core lo hi) := by intro h; cases h

theorem queueControlBlockGiven (agent ctx addr : Nat) (ring : Bool) : Statement (.queueControlBlockGiven agent ctx addr ring) := by intro h; cases h

theorem budgetPeriod (die cycles : Nat) : Statement (.budgetPeriod die cycles) := by intro h; cases h

theorem cxlLinkLoss (port : Nat) : Statement (.cxlLinkLoss port) := by intro h; cases h

theorem colmetLinkLoss (link : Nat) : Statement (.colmetLinkLoss link) := by intro h; cases h

theorem linkRetrain (colmet : Bool) (link : Nat) (hostReset : Bool) : Statement (.linkRetrain colmet link hostReset) := by intro h; cases h

theorem partitionOffline (part : Nat) : Statement (.partitionOffline part) := by intro h; cases h

theorem submitterFreeze (gang : Nat) : Statement (.submitterFreeze gang) := by intro h; cases h

theorem restore (core part index version : Nat) : Statement (.restore core part index version) := by intro h; cases h

theorem cxlCacheSnoop (die line : Nat) (inval : Bool) : Statement (.cxlCacheSnoop die line inval) := by intro h; cases h

theorem trapEntry (core slot : Nat) (lanes : Mask) (info : TrapInfo) : Statement (.trapEntry core slot lanes info) := by intro h; cases h

theorem asyncTrapTake (core slot : Nat) : Statement (.asyncTrapTake core slot) := by intro h; cases h

theorem biasFlipToHost (engine : Nat) : Statement (.biasFlipToHost engine) := by intro h; cases h

theorem biasFlipToDevice (engine : Nat) : Statement (.biasFlipToDevice engine) := by intro h; cases h

theorem rollbackGo (ctx : Nat) : Statement (.rollbackGo ctx) := by intro h; cases h

theorem bisnpResponse (addr : Nat) (bytes : List Byte) : Statement (.bisnpResponse addr bytes) := by intro h; cases h

theorem peerRefusal (core slot peer : Nat) (va : DWord) : Statement (.peerRefusal core slot peer va) := by intro h; cases h

theorem registerWrite (src : Writer) (offset : Nat) (value : Word) : Statement (.registerWrite src offset value) := by intro h; cases h

theorem captureStart (ctx trigger : Nat) : Statement (.captureStart ctx trigger) := by intro h; cases h

theorem thermalThrottle (die tj : Nat) : Statement (.thermalThrottle die tj) := by intro h; cases h

theorem powerLimitExceeded (watts : Nat) : Statement (.powerLimitExceeded watts) := by intro h; cases h

theorem thermalShutdown (die tj : Nat) : Statement (.thermalShutdown die tj) := by intro h; cases h

theorem vfStateChange (die index cause : Nat) : Statement (.vfStateChange die index cause) := by intro h; cases h

theorem abudWrite (die index : Nat) (value : Word) : Statement (.abudWrite die index value) := by intro h; cases h

theorem vfstateWrite (die : Nat) (value : Word) : Statement (.vfstateWrite die value) := by intro h; cases h

theorem dbgdataRead (ctx : Nat) : Statement (.dbgdataRead ctx) := by intro h; cases h

theorem dbgdataWrite (ctx : Nat) (value : Word) : Statement (.dbgdataWrite ctx value) := by intro h; cases h

theorem debugGo (ctx : Nat) : Statement (.debugGo ctx) := by intro h; cases h

theorem create (ctx : Nat) : Statement (.create ctx) := by intro h; cases h

theorem destroy (ctx : Nat) : Statement (.destroy ctx) := by intro h; cases h

theorem vslotAssign (slot ctx : Nat) : Statement (.vslotAssign slot ctx) := by intro h; cases h

theorem vslotRelease (slot : Nat) : Statement (.vslotRelease slot) := by intro h; cases h

theorem featureNegotiate : Statement (.featureNegotiate) := by intro h; cases h

theorem inputUndervoltage : Statement (.inputUndervoltage) := by intro h; cases h

theorem keyGen : Statement (.keyGen) := by intro h; cases h

theorem keyLoad : Statement (.keyLoad) := by intro h; cases h

theorem keyErase : Statement (.keyErase) := by intro h; cases h

theorem keyWrap : Statement (.keyWrap) := by intro h; cases h

theorem keyUnwrap : Statement (.keyUnwrap) := by intro h; cases h

theorem keyReservedCommand : Statement (.keyReservedCommand) := by intro h; cases h

theorem tlbInvalidateRequest : Statement (.tlbInvalidateRequest) := by intro h; cases h

theorem tlbInvalidateComplete : Statement (.tlbInvalidateComplete) := by intro h; cases h

theorem counterPageSet : Statement (.counterPageSet) := by intro h; cases h

theorem counterPageClear : Statement (.counterPageClear) := by intro h; cases h

theorem counterPageRead : Statement (.counterPageRead) := by intro h; cases h

theorem status : Statement (.status) := by intro h; cases h

theorem writeFlash : Statement (.writeFlash) := by intro h; cases h

theorem verify : Statement (.verify) := by intro h; cases h

theorem bist : Statement (.bist) := by intro h; cases h

theorem results : Statement (.results) := by intro h; cases h

theorem reboot : Statement (.reboot) := by intro h; cases h

theorem mailboxUnknownCommand : Statement (.mailboxUnknownCommand) := by intro h; cases h

theorem deviceReset : Statement (.deviceReset) := by intro h; cases h

theorem strandedRetentionExpiry : Statement (.strandedRetentionExpiry) := by intro h; cases h

end Sys2Proof.Laws.RoundTrip
end

