-- ==== Sys2Proof/Laws/Records.lean ====
section
/-! SUPPORT. What making a trace record and counting an event leave alone: everything but the core's record buffer and
event counters, the counts of an open capture, and the posted events. -/

namespace Sys2Proof.Machine.State

/-- What no record touches. -/
structure RecStep (s t : State) : Prop where
  cur : t.cur = s.cur
  mem : t.mem = s.mem
  cc : ∀ c, t.cc c = s.cc c
  warp : ∀ c k, t.warp c k = s.warp c k
  parts : t.parts = s.parts
  cyc : ∀ c, (t.core c).cyc = (s.core c).cyc
  vigil : t.vigil = s.vigil
  nextReq : t.nextReq = s.nextReq

theorem RecStep.refl (s : State) : RecStep s s := ⟨rfl, rfl, fun _ => rfl, fun _ _ => rfl, rfl, fun _ => rfl, rfl, rfl⟩
theorem RecStep.trans {s t u : State} (h : RecStep s t) (g : RecStep t u) : RecStep s u :=
  ⟨g.cur.trans h.cur, g.mem.trans h.mem, fun c => (g.cc c).trans (h.cc c), fun c k => (g.warp c k).trans (h.warp c k),
    g.parts.trans h.parts, fun c => (g.cyc c).trans (h.cyc c), g.vigil.trans h.vigil, g.nextReq.trans h.nextReq⟩
theorem RecStep.me {s t : State} (h : RecStep s t) : t.me = s.me := by unfold State.me; rw [h.cur, h.warp]

/-- A change of a core that keeps its context, its firmware warp and its clock. -/
theorem updCore_recStep (s : State) (c : Nat) (f : Core → Core) (h : ∀ x, (f x).cc = x.cc ∧ (f x).fw = x.fw ∧ (f x).cyc = x.cyc) :
    RecStep s (s.updCore c f) := by
  have hc : ∀ j, ((s.updCore c f).core j).cc = (s.core j).cc ∧ ((s.updCore c f).core j).fw = (s.core j).fw ∧
      ((s.updCore c f).core j).cyc = (s.core j).cyc := by
    intro j; rw [core_updCore]; split
    · subst_vars; exact h _
    · exact ⟨rfl, rfl, rfl⟩
  refine ⟨rfl, rfl, fun j => (hc j).1, fun j k => ?_, rfl, fun j => (hc j).2.2, rfl, rfl⟩
  unfold State.warp State.cc; rw [(hc j).1, (hc j).2.1]
theorem updCtx_recStep (s : State) (h : Nat) (f : Context → Context) : RecStep s (s.updCtx h f) :=
  ⟨rfl, rfl, fun _ => rfl, fun _ _ => rfl, rfl, fun _ => rfl, rfl, rfl⟩
theorem post_recStep (s : State) (i : Instr) : RecStep s (s.post i) :=
  ⟨rfl, rfl, fun _ => rfl, fun _ _ => rfl, rfl, fun _ => rfl, rfl, rfl⟩
theorem postAll_recStep (s : State) (is : List Instr) : RecStep s (s.postAll is) :=
  ⟨rfl, rfl, fun _ => rfl, fun _ _ => rfl, rfl, fun _ => rfl, rfl, rfl⟩

theorem countEv_recStep (s : State) (c src n : Nat) : RecStep s (s.countEv c src n) := by
  unfold countEv; dsimp only
  generalize hx : (if (s.core c).evsel.isEmpty = true then s else s.updCore c _) = t
  have ht : RecStep s t := by
    rw [← hx]; split
    · exact RecStep.refl s
    · exact updCore_recStep _ _ _ fun _ => ⟨rfl, rfl, rfl⟩
  split
  · exact ht
  · exact ht.trans (updCtx_recStep ..)
theorem trace_recStep (s : State) (c kind wid aux npre : Nat) (rgns : BitVec 64) (body : BitVec 320) :
    RecStep s (s.trace c kind wid aux npre rgns body) := by
  unfold trace; dsimp only
  split
  · exact RecStep.refl s
  · split
    · have h := updCore_recStep s c (fun y => { y with lost := y.lost + 1 }) fun _ => ⟨rfl, rfl, rfl⟩
      exact h.trans (countEv_recStep ..)
    · have h := updCore_recStep s c (fun y => { y with trace := y.trace ++ [s.traceHead c kind wid aux npre rgns body] })
        fun _ => ⟨rfl, rfl, rfl⟩
      exact h.trans (post_recStep _ _)

/-- A stop for the debugger: the warp is marked, and nothing else but records and posted events changes. -/
theorem debugStop_spec (s : State) (aux code : Nat) :
    RecStep (s.updMe fun w => w.updTrap fun t => { t with dbgStopped := true }) (s.debugStop aux code) := by
  unfold debugStop; dsimp only
  exact (trace_recStep ..).trans (postAll_recStep ..)

end Sys2Proof.Machine.State
end

