-- ==== Sys2Proof/Tests/Slice0.lean ====
section
/-! SUPPORT. Tests: the checks of an encoding, words written out from the encoding tables, single steps from the manual's worked
examples, and for every obligation with hypotheses a small state that meets them. Expected values come from the manual. -/

namespace Sys2Proof.Tests

open Sys2Proof.Machine

set_option Elab.async false

/-! ### A small state -/

/-- A warp register in every lane. -/
def setAll (n : Nat) (f : Nat → Word) (w : Warp) : Warp := (List.range 32).foldl (fun w l => w.setV n l (f l)) w

/-- The state after one word has been placed, with what a program finds: a page of data at 0x1000, a page of counters at
0x2000, a unit of one team on core 0 with a window of one 128-byte pitch, two Vigil slots of the context. -/
def withWord (w : Word) : State :=
  let s := State.reset.withFetchWord 32 w.toNat
  let s := { s with
    tlb := (s.tlb.set 1 { level := 0, entry := 0x8000003000000002#64 }).set 2 { level := 0, entry := 0x8000013000000003#64 }
    ctrPages := [3]
    launches := [(0, { ctx := 0, addr := 0, desc := 0, parts := [0] })]
    vigil := { slots := [(0, { owner := some 0 }), (1, { owner := some 0 })] } }
  let s := s.updCtx 0 fun x => { x with feat := 0xFF#32 }
  let s := s.updPart 0 fun p => { p with
    nextUnit := 1
    units := [(0, { ctx := 0, launch := 0, index := 0, prole := 0, ttable := [(0, troupeEntry 0 0 0)], nwin := 8, nctr := 8,
                    troles := 1, groles := 1, live := 1 })] }
  s.updCc 0 fun x => { x with
    teams := [(0, { ctx := 0, unit := 0, launch := 0, teamId := 0, trole := 0, prole := 0, wids := [0] })]
    wdesc := [(0, 0x8000008000000000#64 + 0x09#64)] }

/-- Its issue of an instruction has begun; `f` sets registers, `m` is MODE. -/
def begun (i : Instr) (f : Warp → Warp := id) (m : Word := 0x10#32) : State :=
  let s := withWord (encode i)
  let s := { s with issuing := [], cur := { core := 0, slot := 0, lanes := BitVec.allOnes 32, mode := m, word := encode i } }
  s.updMe f

/-- Does it run there? -/
def runsIn (s : State) (i : Instr) : Bool := !s.notReady s.cur i && (s.issueTrap i).isNone
theorem runs_of {s : State} {i : Instr} (h : runsIn s i = true) : s.Runs i := by
  unfold runsIn at h; unfold State.Runs
  simp only [Bool.and_eq_true, Bool.not_eq_true', Option.isNone_iff_eq_none] at h
  exact h
/-! ### Witnesses: lane and uniform words that write registers -/

def lanesAll (s : State) (p : Nat → Bool) : Bool := (lanesOf s.cur.lanes).all p

theorem wit_IntegerResults : (begun (.icmp 0#2 10#4 7#3 16#7 24#7)).Runs (.icmp 0#2 10#4 7#3 16#7 24#7) ∧
    (begun (.icmpi 3#2 0#4 0#3 16#7 127#7)).Runs (.icmpi 3#2 0#4 0#3 16#7 127#7) ∧
    (begun (.iadd 0#2 122#7 120#7 123#7)).Runs (.iadd 0#2 122#7 120#7 123#7) :=
  ⟨runs_of (by decide +kernel), runs_of (by decide +kernel), runs_of (by decide +kernel)⟩
theorem wit_FloatRoundResults_quiet : runsIn (begun (.fadd 0#2 8#7 16#7 24#7)) (.fadd 0#2 8#7 16#7 24#7) = true ∧
    (begun (.fadd 0#2 8#7 16#7 24#7)).enables = 0#32 := by decide +kernel
theorem wit_FloatRoundResults_raised :
    let s := begun (.fadd 0#2 8#7 16#7 24#7) (fun w => setAll 24 (fun _ => 0xFF800000#32) (setAll 16 (fun _ => 0x7F800000#32) w)) 0x1F10#32
    runsIn s (.fadd 0#2 8#7 16#7 24#7) = true ∧
      (fAdd .f32 s.rm s.sub (s.val 16 0).toNat (s.val 24 0).toNat).2 &&& s.enables ≠ 0#32 := by decide +kernel
theorem wit_ConversionResults : runsIn (begun (.cvt 0#2 8#7 16#7 1#1 0#2 15#4)) (.cvt 0#2 8#7 16#7 1#1 0#2 15#4) = true ∧
    runsIn (begun (.cvt 0#2 8#7 16#7 0#1 0#2 14#4)) (.cvt 0#2 8#7 16#7 0#1 0#2 14#4) = true ∧
    runsIn (begun (.cvt 0#2 8#7 16#7 0#1 0#2 13#4)) (.cvt 0#2 8#7 16#7 0#1 0#2 13#4) = true ∧
    runsIn (begun (.cvtx 0#2 8#7 16#7 0#1 0#2 3#4)) (.cvtx 0#2 8#7 16#7 0#1 0#2 3#4) = true := by decide +kernel
theorem wit_SpecialFunctionResults : runsIn (begun (.fsigm 0#2 8#7 16#7)) (.fsigm 0#2 8#7 16#7) = true := by decide +kernel
theorem wit_CrossLaneResults_shfl :
    let s := begun (.shfl 0#2 2#2 8#7 16#7 24#7) (setAll 24 fun _ => 0x121F#32)
    runsIn s (.shfl 0#2 2#2 8#7 16#7 24#7) = true ∧ lanesAll s (fun l =>
      let c := (s.val 24 l).toNat
      c / 2 ^ 13 = 0 && c / 2 ^ 10 % 4 = 0 && c / 2 ^ 5 % 8 = 0 && c / 2 ^ 12 % 2 = 1 && c / 2 ^ 8 % 4 = 2) = true := by decide +kernel
theorem wit_CrossLaneResults_vote :
    let s := begun (.vote 0#2 0#2 8#7 16#7 24#7) (setAll 24 fun _ => 2#32)
    runsIn s (.vote 0#2 0#2 8#7 16#7 24#7) = true ∧ lanesAll s (fun l => (s.val 24 l).toNat ≤ 2) = true := by decide +kernel
theorem wit_CrossLaneResults_match :
    let s := begun (.matchLanes 0#2 1#2 8#7 110#7 24#7) (setAll 24 fun _ => 1#32)
    runsIn s (.matchLanes 0#2 1#2 8#7 110#7 24#7) = true ∧ lanesAll s (fun l => s.val 24 l = 1#32) = true ∧
      s.me.var = [] ∧ s.me.pend = [] ∧ runsIn (begun (.ballot 0#2 1#2 8#7 110#7 24#7)) (.ballot 0#2 1#2 8#7 110#7 24#7) = true ∧
      lanesAll (begun (.ballot 0#2 1#2 8#7 110#7 24#7)) (fun l => (begun (.ballot 0#2 1#2 8#7 110#7 24#7)).val 24 l = 0#32) = true := by
  decide +kernel
theorem wit_ReduceAndScanResults :
    let s (x : Word) (i : Instr) := begun i (setAll 24 fun _ => x)
    let red : Instr := .redx 0#2 2#2 8#7 16#7 24#7
    let scan : Instr := .scan 0#2 0#2 8#7 16#7 24#7
    runsIn (s 10 red) red = true ∧ runsIn (s 8 red) red = true ∧ runsIn (s 26 scan) scan = true ∧ runsIn (s 24 scan) scan = true ∧
      lanesAll (s 10 red) (fun l => (s 10 red).val 24 l = 10#32) = true ∧ lanesAll (s 24 scan) (fun l => (s 24 scan).val 24 l = 24#32) = true := by
  decide +kernel
theorem wit_ControlWordTraps :
    let s := begun (.vote 0#2 0#2 8#7 16#7 24#7) (setAll 24 fun l => if l = 31 then 3#32 else 0#32)
    runsIn s (.vote 0#2 0#2 8#7 16#7 24#7) = true ∧ voteWord (s.val 24 31) = false := by decide +kernel
theorem wit_QuantiseResults : runsIn (begun (.qnt 0#2 8#7 16#7 2#2 3#2)) (.qnt 0#2 8#7 16#7 2#2 3#2) = true := by decide +kernel
theorem wit_UniformResults : runsIn (begun (.scmp 0#2 3#2 16#6 24#6 10#4)) (.scmp 0#2 3#2 16#6 24#6 10#4) = true ∧
    runsIn (begun (.sadd64 0#2 62#6 0#6 2#6)) (.sadd64 0#2 62#6 0#6 2#6) = true := by decide +kernel
theorem wit_LandingWrites : (119 ≤ 119 ∨ 119 = 122) ∧ (122 ≤ 119 ∨ 122 = 122) ∧ (0 ≤ 119 ∨ 0 = 122) := by decide

/-! ### Control -/

/-- Stacks, spill counts and the spill area of a warp. -/
def withStack (n spill : Nat) (lim : Word) (w : Warp) : Warp :=
  (w.updLanes (BitVec.allOnes 32) fun _ x => { x with stack := (List.range n).map fun k => BitVec.ofNat 32 (4 * k), spill := spill }).updUni
    fun u => { u with csbase := 0x1000#64, cslim := lim }
def only (m : Mask) (s : State) : State := { s with cur := { s.cur with lanes := m } }

theorem wit_BranchResults : runsIn (begun (.jmpi 0#2 16#7) (setAll 16 fun l => BitVec.ofNat 32 (8 * l))) (.jmpi 0#2 16#7) = true ∧
    runsIn (begun (.brp 0#2 1#1 7#3 0x2000#14)) (.brp 0#2 1#1 7#3 0x2000#14) = true := by decide +kernel
theorem wit_TargetTraps :
    let s (i : Instr) := begun i (setAll 16 fun l => if l = 3 then 2#32 else 0#32)
    runsIn (s (.jmpi 0#2 16#7)) (.jmpi 0#2 16#7) = true ∧ runsIn (s (.calli 0#2 16#7)) (.calli 0#2 16#7) = true ∧
      runsIn (s (.spawn 0#2 16#7 24#7)) (.spawn 0#2 16#7 24#7) = true ∧ ((s (.jmpi 0#2 16#7)).val 16 3).toNat % 4 ≠ 0 ∧
      (List.range 3).all (fun k => ((s (.jmpi 0#2 16#7)).val 16 k).toNat % 4 = 0) = true := by decide +kernel
theorem wit_CallResults :
    let s := only 9#32 (begun (.call 0#2 5#14) (withStack 4 1 2#32))
    let full := [(0, 1), (3, 1)]
    runsIn s (.call 0#2 5#14) = true ∧ (lanesOf s.cur.lanes).map (fun l => (l, (s.me.lane l).spill)) = full ∧
      (match s.spillChecks kSpill true full with
        | .ok xs => decide (xs.map (fun x => x.1) = [0, 3]) && (s.spillHold true xs).isNone
        | .error _ => false) = true ∧ s.warpBusy 0 0 = false ∧
      [0, 3].all (fun l => (s.coreWalkHold 0 0 (s.me.uni.csbase + BitVec.ofNat 64 (512 + l * 16))).isNone) = true := by decide +kernel
theorem wit_ReturnResults_pop : runsIn (begun (.ret 0#2) (withStack 1 0 0#32)) (.ret 0#2) = true ∧
    lanesAll (begun (.ret 0#2) (withStack 1 0 0#32)) (fun l => ((begun (.ret 0#2) (withStack 1 0 0#32)).me.lane l).stack ≠ []) = true := by
  decide +kernel
theorem wit_ReturnResults_refill :
    let s := only 8#32 (begun (.sret 0#2) (withStack 0 1 4#32))
    runsIn s (.sret 0#2) = true ∧ lanesOf s.cur.lanes = [3] ∧ (s.me.lane 3).stack = [] ∧ (s.me.lane 3).spill = 1 ∧
      (match s.spillCheck kRefill false 0 3 with
        | .ok k => (s.coreHold k.pa k.cache false).isNone && !s.spaceLost s.myDie k.pa
        | .error _ => false) = true ∧ s.warpBusy 0 0 = false ∧
      s.coreWalkHold 0 0 (s.me.uni.csbase + BitVec.ofNat 64 (3 * 16)) = none := by decide +kernel
theorem wit_ReturnResults_empty : runsIn (begun (.ret 0#2)) (.ret 0#2) = true ∧ ((begun (.ret 0#2)).me.lane 31).stack = [] ∧
    ((begun (.ret 0#2)).me.lane 31).spill = 0 := by decide +kernel
theorem wit_ReturnResults_full : let s := begun (.scall 0#2 5#22) (withStack 4 2 2#32)
    runsIn s (.scall 0#2 5#22) = true ∧ 4 ≤ (s.me.lane 0).stack.length ∧ s.me.uni.cslim.toNat ≤ (s.me.lane 0).spill := by decide +kernel
theorem wit_ParkAndRelease : let s := begun (.rcv 0#2)
    runsIn s (.rcv 0#2) = true ∧ s.cur.rep = none ∧ s.cur.lanes ≠ 0#32 ∧ runsIn (only 1#32 s) (.rcv 0#2) = true ∧
      (s.me.lane 1).state = .runnable := by decide +kernel
theorem wit_ExitAndYield : let s := begun (.exit 0#2)
    runsIn s (.exit 0#2) = true ∧ (s.exitLanes 0 0 s.cur.lanes).me.ended = true ∧ s.cur.slot ≠ 32 ∧
      runsIn (only 1#32 s) (.exit 0#2) = true ∧ ((only 1#32 s).exitLanes 0 0 1#32).me.ended = false ∧ s.me.trap.inHandler = false := by
  decide +kernel
theorem wit_SpawnPlaces : let s := begun (.spawn 0#2 16#7 24#7)
    runsIn s (.spawn 0#2 16#7 24#7) = true ∧ s.me.sched.spawns = [] ∧ (s.placeThreads 16#7 24#7 (List.range 32)).2 = none ∧
      State.binFor (s.cc 0).bins (s.val 16 0) = some 0 ∧
      (let t := begun (.spawn 0#2 16#7 24#7) (setAll 16 fun l => BitVec.ofNat 32 (4 * l))
       (t.placeThreads 16#7 24#7 (List.range 32)).2 = some 16) := by decide +kernel
/-- A SPAWN that went on to lane 16 and finds every bin taken. -/
theorem wit_SpawnPlaces_stalls :
    let p : SpawnStall := ⟨0#32, BitVec.allOnes 32, 16⟩
    let s := (begun (.spawn 0#2 16#7 24#7) fun w => w.updSched fun x => { x with spawns := [p] }).updCc 0 fun x =>
      { x with bins := (List.range 16).map fun n => (n, { entry := 0x40#32, threads := [(0#32, 0)] }) }
    let todo := (lanesOf s.cur.lanes).filter fun k => !(p.lanes.getLsbD k && decide (k < p.next))
    runsIn s (.spawn 0#2 16#7 24#7) = true ∧ (s.me.sched.spawns.find? fun p => p.of s.cur.pc s.cur.lanes) = some p ∧ todo.head? = some 16 ∧
      (s.placeThreads 16#7 24#7 todo).2 = some 16 := by decide +kernel
theorem wit_SpecialRegisterReads : runsIn (begun (.srd 0#2 8#6 0x2F#8)) (.srd 0#2 8#6 0x2F#8) = true ∧
    ((begun (.srd 0#2 8#6 0x2F#8)).cc 0).teams.find 0 ≠ none ∧
    runsIn (begun (.srd 0#2 8#6 0x1B#8)) (.srd 0#2 8#6 0x1B#8) = true ∧ (begun (.srd 0#2 8#6 0x1B#8)).me.trap.inHandler = false ∧
    runsIn (begun (.srd 0#2 8#6 0x1A#8) (fun w => w.updTrap fun t => { t with inHandler := true })) (.srd 0#2 8#6 0x1A#8) = true := by
  decide +kernel
theorem wit_SpecialRegisterWrites :
    let inH : Warp → Warp := fun w => w.updTrap fun t => { t with inHandler := true, tmask := 1#32, lsel := 31#5 }
    runsIn (begun (.swr 0#2 8#6 0x06#8)) (.swr 0#2 8#6 0x06#8) = true ∧ State.swrReserved 0x06 0x10#32 = false ∧
      State.swrReserved 0x06 0x80000000#32 = true ∧ State.swrReserved 0x1C 2#32 = false ∧
      runsIn (begun (.swr 0#2 8#6 0x1C#8) inH) (.swr 0#2 8#6 0x1C#8) = true ∧
      ((begun (.swr 0#2 8#6 0x1C#8) inH).me.lane 31).state = .runnable ∧ (begun (.swr 0#2 8#6 0x1C#8) inH).me.uni.rep = none ∧
      State.swrTo 0x05 = false ∧ runsIn (begun (.swr 0#2 8#6 0x05#8)) (.swr 0#2 8#6 0x05#8) = true := by decide +kernel

/-! ### The checks of an encoding (08 R147; 20 R374) -/

/-- Each term is refused with the reason. -/
def refuses (r : EncReason) (l : List Instr) : Bool := l.all fun i => !i.WellFormed && decide (i.illFormed = some r)

theorem test_wellFormed_subCode : refuses .subCode [.icmp 0#2 11#4 0#3 8#7 8#7, .icmpi 0#2 15#4 0#3 8#7 0#7, .shli 0#2 8#7 8#7 32#7,
    .shri 0#2 8#7 8#7 64#7, .sari 0#2 8#7 8#7 127#7, .fcmp 0#2 8#4 0#3 8#7 8#7, .cvt 0#2 8#7 16#7 0#1 0#2 5#4, .cvt 0#2 8#7 16#7 0#1 1#2 1#4,
    .cvtx 0#2 8#7 16#7 1#1 0#2 1#4, .cvtx 0#2 8#7 16#7 0#1 0#2 14#4, .qnt 0#2 8#7 16#7 3#2 0#2, .shfl 0#2 3#2 8#7 8#7 8#7, .vote 0#2 3#2 8#7 8#7 8#7,
    .ballot 0#2 3#2 8#7 8#7 8#7, .redx 0#2 3#2 8#7 8#7 8#7, .scan 0#2 3#2 8#7 8#7 8#7, .matchLanes 0#2 3#2 8#7 8#7 8#7] = true := by decide +kernel
theorem test_wellFormed_subCode_memory : refuses .subCode [.st 0#2 5#3 8#7 8#7 0#5 0#1, .atom 0#2 8#7 0#6 0#1 10#4 0#3, .atom 0#2 8#7 0#6 1#1 9#4 0#3,
    .cas 0#2 8#7 0#6 0#1 6#3, .sts 0#2 5#3 8#7 8#7 0#1 0#6, .atoms 0#2 8#7 8#7 10#4 0#3, .cass 0#2 8#7 8#7 6#3, .scmp 0#2 0#2 8#6 8#6 11#4,
    .cadd 0#2 8#6 0#6 0#6 3#2 0#2, .cpoll 0#2 8#6 0#6 0#6 1#2 0#2, .fence 0#2 0#3 0#2, .fence 0#2 6#3 0#2, .cmnt 0#2 8#6 8#6 3#2 0#2,
    .racq 0#2 0#7, .racqNb 0#2 0#7 0#2, .rrel 0#2 0#7, .cpyb 0#2 33#6 8#6 0#3 0#2] = true := by decide +kernel
theorem test_wellFormed_fixedField : refuses .fixedField [.cadd 0#2 8#6 32#6 0#6 1#2 0#2, .crd 0#2 8#6 1#6 0#6 0#2, .cwait 0#2 8#6 0#6 1#6 2#2 0#2,
    .cpoll 0#2 8#6 4#6 0#6 0#2 0#2, .cseal 0#2 1#6 0#6 0#6 3#2 0#2] = true := by decide +kernel
theorem test_wellFormed_specifier : refuses .specifier [.iadd 0#2 8#7 125#7 8#7, .iadd 0#2 120#7 8#7 8#7, .iadd 0#2 123#7 8#7 8#7, .iadd 0#2 8#7 8#7 127#7] = true := by
  decide +kernel
theorem test_wellFormed_group : refuses .group [.ld 0#2 5#3 9#7 8#7 0#5 0#1 0#1, .sadd64 0#2 9#6 8#6 8#6, .mrd 0#2 9#6 8#6, .toksub 0#2 4#6 8#6 8#6,
    .cvt 0#2 9#7 8#7 0#1 0#2 14#4] = true := by decide +kernel
theorem test_wellFormed_sregIndex : refuses .sregIndex [.srd 0#2 8#6 0xFF#8, .swr 0#2 8#6 0xFF#8] = true := by decide +kernel
theorem test_wellFormed_copyBlock : refuses .copyBlock [.cpy 0#2 9#6 0#2, .cpyb 0#2 1#6 12#6 0#3 0#2, .cpyg 0#2 1#6 8#6 0#2, .cpys 0#2 4#6 8#6 0#2] = true := by
  decide +kernel

/-- Words of a unit. -/
def unitOf (l : List Word) : UnitResult := decodeUnit (fun n => .ok (l.getD n 0)) false
def failsAt (r : EncReason) (p : Nat) : UnitResult → Bool
  | .encoding f => f.reason == r && f.pos == p
  | _ => false
def litWord : Word := 0x9E000000#32
/-- 08 R142, R153 to R155: SC in a prefix, LIT before a uniform word, an unused literal, a role-addressed access without LIT, REP of a load. -/
theorem test_prefixes : failsAt .prefixWord 0 (unitOf [0xBE000000#32, 0#32, 0#32]) = true ∧ failsAt .literal 0 (unitOf [litWord, 5#32, 0x80061050#32]) = true ∧
    failsAt .literal 0 (unitOf [litWord, 5#32, 0x00020481#32]) = true ∧
    failsAt .literal 0 (unitOf [encode (.lds 0#2 4#3 8#7 16#7 1#1 0#6)]) = true ∧
    failsAt .repeated 0 (unitOf [0x9E43C000#32, 0x1CE00000#32]) = true ∧ failsAt .fixedField 0 (unitOf [0x9E400001#32, 0#32]) = true ∧
    failsAt .specifier 0 (unitOf [0x000204FC#32]) = true ∧ failsAt .opcode 0 (unitOf [0x02400000#32]) = true := by decide +kernel
/-- 08 R147: a lane-set word in the firmware slot. -/
theorem test_firmware_lane_word : (match decodeUnit (fun _ => .ok 0x00020481#32) true with
    | .privilege w => w == 0x00020481#32
    | _ => false) = true := by decide +kernel

/-- A warp with a handler at 0x100. -/
def handled (w : Warp) : Warp := w.updTrap fun t => { t with tvec := 0x100#32 }
def tdet0Of (s : State) (i : Instr) : Word := match exec i s with
  | .next t => t.me.trap.tdet0
  | _ => 0
/-- 20 R374, reasons 9, 11 and 14: CODE [15:8] reason, GROUP 0x01. -/
theorem test_encoding_at_issue :
    tdet0Of (begun (.vote 0#2 0#2 8#7 16#7 24#7) fun w => setAll 24 (fun _ => 3#32) (handled w)) (.vote 0#2 0#2 8#7 16#7 24#7) = 0x09000001#32 ∧
    tdet0Of (begun (.swr 0#2 8#6 0x06#8) fun w => (handled w).setS 8 0x80000000#32) (.swr 0#2 8#6 0x06#8) = 0x0B000001#32 ∧
    tdet0Of (begun (.wdesc 0#2 16#6 0#6) fun w => ((handled w).setS 16 6#32).setS 17 0x80000080#32) (.wdesc 0#2 16#6 0#6) = 0x0E000001#32 := by decide +kernel
/-- Reason 12: an MSIGN whose next word is EXIT. -/
theorem test_encoding_msign :
    let i : Instr := .msignCount 0#2 15#4 33#12
    let s := (begun i handled).physWrite 0 0 0 0x1004 (leBytes 4 0x1CE00000)
    tdet0Of s i / 2 ^ 24 = 0x0C#32 := by decide +kernel

/-! ### Decoding -/

/-- The lines of 08, "Example: lines and their words". -/
theorem test_lines : decodeWord 0x22210005#32 = .ok (.movi 1#2 4#7 5#14) ∧ decodeWord 0x219E8203#32 = .ok (.iaddi 1#2 122#7 4#7 3#7) ∧
    decodeWord 0x18814388#32 = .ok (.ld 0#2 4#3 5#7 7#7 2#5 0#1 0#1) ∧ decodeWord 0x2041BC79#32 = .ok (.imul 1#2 6#7 120#7 121#7) ∧
    decodeWord 0x2581FD82#32 = .ok (.shli 1#2 7#7 123#7 2#7) ∧ decodeWord 0x18C2038B#32 = .ok (.ld 0#2 6#3 8#7 7#7 2#5 1#1 1#1) ∧
    decodeWord 0x80061050#32 = .ok (.sadd 0#2 6#6 4#6 5#6) ∧ decodeWord 0x1CE00000#32 = .ok (.exit 0#2) ∧
    unitOf [0x9E000000#32, 0x00010000#32, 0x000204FC#32] = .unit { word := 0x000204FC#32, pos := 2, lit := some 0x00010000#32 } (.iadd 0#2 8#7 9#7 124#7) ∧
    unitOf [0x9E43C000#32, 0x0805051E#32] = .unit { word := 0x0805051E#32, pos := 1, rep := some (4, 6#3) } (.fadd 0#2 20#7 10#7 30#7) := by decide +kernel
/-- The words of 20, "a handler that releases parked lanes". -/
theorem test_lines_handler : decodeWord 0x89C6001A#32 = .ok (.swr 0#2 6#6 0x1A#8) ∧ decodeWord 0x89C7001B#32 = .ok (.swr 0#2 7#6 0x1B#8) ∧
    decodeWord 0x83C01886#32 = .ok (.scmp 0#2 0#2 6#6 8#6 6#4) ∧ decodeWord 0x88C0FFFB#32 = .ok (.sbrp 0#2 0#1 0#2 0xFFFB#16) := by decide +kernel
/-- A word of each other family, field by field (08 R159 to R161). -/
theorem test_fields : decodeWord (0#1 ++ 0#2 ++ 0x20#8 ++ 8#7 ++ 16#7 ++ 24#7) = .ok (.and 0#2 8#7 16#7 24#7) ∧
    decodeWord (0#1 ++ 2#2 ++ 0xA8#8 ++ 8#7 ++ 16#7 ++ 24#7) = .ok (.ballot 2#2 0#2 8#7 16#7 24#7) ∧
    decodeWord (0#1 ++ 0#2 ++ 0xE0#8 ++ 0#7 ++ 0x3FFD#14) = .ok (.bra 0#2 0x3FFD#14) ∧
    decodeWord (1#1 ++ 0#2 ++ 0x26#7 ++ 9#6 ++ 0#8 ++ 0x1B#8) = .ok (.srd 0#2 9#6 0x1B#8) ∧
    decodeWord (1#1 ++ 0#2 ++ 0x33#7 ++ 2#6 ++ 4#6 ++ 0#6 ++ (2#2 ++ 1#2)) = .ok (.cpoll 0#2 2#6 4#6 0#6 2#2 1#2) ∧
    decodeWord (1#1 ++ 0#2 ++ 0x40#7 ++ 0#6 ++ 24#6 ++ 0#6 ++ (0#2 ++ 1#2)) = .ok (.cpy 0#2 24#6 1#2) ∧
    decodeWord (1#1 ++ 0#2 ++ 0x5A#7 ++ 0#22) = .ok (.wswap 0#2) ∧
    decodeWord (1#1 ++ 0#2 ++ 0x72#7 ++ 0#6 ++ 9#6 ++ 0#10) = .ok (.rgnent 0#2 9#6) := by decide +kernel

/-! ### Single steps, from the manual's examples -/

/-- The values of the register that an instruction leaves pending. -/
def pendOf (s : State) (i : Instr) : List (Nat × Word) := match exec i s with
  | .next t => (t.me.pend.map Pend.vals).headD []
  | _ => []
/-- 03, "the last-result file": h0 = 8, h1 = 5, and IMUL gives 40. -/
theorem test_imul_last_results :
    let i : Instr := .imul 1#2 6#7 120#7 121#7
    pendOf (only 8#32 (begun i fun w => setAll 120 (fun _ => 8#32) (setAll 121 (fun _ => 5#32) w))) i = [(3, 40#32)] := by decide +kernel
/-- 09, "a divergent group of 8": lanes 0, 1, 3, 4, 6 and 7 with A = l + 1. -/
def group8 (i : Instr) (c : Word) : State :=
  only 0xDB#32 (begun i fun w => setAll 24 (fun _ => c) (setAll 16 (fun l => BitVec.ofNat 32 (l + 1)) w))
theorem test_cross_lane_example :
    let lanes (l : List Nat) : List (Nat × Word) := [0, 1, 3, 4, 6, 7].zip (l.map (BitVec.ofNat 32))
    let at' (i : Instr) (c : Word) : List (Nat × Word) := pendOf (group8 i c) i
    at' (.shfl 0#2 0#2 8#7 16#7 24#7) 0x201#32 = lanes [2, 2, 5, 5, 8, 8] ∧ at' (.ballot 0#2 0#2 8#7 16#7 24#7) 0#32 = lanes [0xDB, 0xDB, 0xDB, 0xDB, 0xDB, 0xDB] ∧
      at' (.scan 0#2 0#2 8#7 16#7 24#7) 0#32 = lanes [1, 3, 7, 12, 19, 27] ∧ at' (.scan 0#2 0#2 8#7 16#7 24#7) 0x10#32 = lanes [0, 1, 3, 7, 12, 19] ∧
      at' (.redx 0#2 0#2 8#7 16#7 24#7) 0#32 = lanes [27, 27, 27, 27, 27, 27] := by decide +kernel
/-- The same example's two float orders: 2²⁴, 1, 1, 1 in lanes 0 to 3. -/
theorem test_float_orders :
    let f (w : Warp) : Warp := setAll 24 (fun _ => 8#32) (setAll 16 (fun l => if l = 0 then 0x4B800000#32 else 0x3F800000#32) w)
    let i : Instr := .redx 0#2 0#2 8#7 16#7 24#7
    let j : Instr := .scan 0#2 0#2 8#7 16#7 24#7
    (pendOf (only 15#32 (begun i f)) i).map Prod.snd = [0x4B800001#32, 0x4B800001#32, 0x4B800001#32, 0x4B800001#32] ∧
      (pendOf (only 15#32 (begun j f)) j).map Prod.snd = [0x4B800000#32, 0x4B800000#32, 0x4B800000#32, 0x4B800000#32] := by decide +kernel
/-- 04, "error feedback on a block of 8": scale 0x5F_C000 and the eight codes. -/
theorem test_qnt_example :
    let i : Instr := .qnt 0#2 8#7 16#7 0#2 1#2
    let x : List Word := [0x40C00000#32, 0x3F400000#32, 0x3F400000#32, 0x3F400000#32, 0xC0200000#32, 0x3FA00000#32, 0x3E800000#32, 0x3E800000#32]
    (pendOf (only 0xFF#32 (begun i (setAll 16 fun l => x.getD l 0))) i).map Prod.snd =
      [0x5FC00007#32, 0x5FC00002#32, 0x5FC00001#32, 0x5FC00002#32, 0x5FC0000D#32, 0x5FC00003#32, 0x5FC00000#32, 0x5FC00001#32] := by decide +kernel
/-- 09, "a constant stream to integers", executions 2 and 4: y = 0.75 gives 1 and −0.25, y = 0.5 gives 0 and 0.5. -/
theorem test_cvtx_example :
    let i : Instr := .cvtx 0#2 10#7 4#7 0#1 0#2 12#4
    let got (e : Word) : List (List Word) := match exec i (only 1#32 (begun i fun w => setAll 4 (fun _ => 0x3EC00000#32) (setAll 11 (fun _ => e) w))) with
      | .next t => t.me.pend.map fun p => p.vals.map Prod.snd
      | _ => []
    got 0x3EC00000#32 = [[1#32], [0xBE800000#32]] ∧ got 0x3E000000#32 = [[0#32], [0x3F000000#32]] := by decide +kernel
/-- 20, "a handler that releases parked lanes": the misaligned load of lane 18. -/
theorem test_trap_entry_example :
    let i : Instr := .ld 0#2 4#3 5#7 7#7 2#5 0#1 0#1
    let s := only 0xFFFF0000#32 (begun i fun w => ((setAll 7 (fun l => if l = 18 then 6#32 else BitVec.ofNat 32 (4 * (l - 16))) (handled w)).setS 4
      0x00100000#32).setS 5 0x40#32)
    let s := s.updCtx 0 fun x => x
    let s : State := { s with tlb := s.tlb.set (State.tlbKey 0 0 0x4000100) { level := 0, entry := 0x8000003000000002#64 } }
    (match exec i s with
      | .next t => decide (t.me.trap.tdet0 = 0x40005206#32 ∧ t.me.trap.tdet1 = 0x00100006#32 ∧ t.me.trap.tdet2 = 0x40#32 ∧ t.me.trap.tmask = 0xFFFF0000#32 ∧
          t.me.trap.inHandler = true ∧ t.reqs = [])
      | _ => false) = true := by decide +kernel
/-- 11, "SMOVI": sd = hh, shifted, plus ll sign-extended. -/
theorem test_step_runs : (match step (State.reset.withFetchWord 32 0x22210005) with
    | .next t => decide ((t.warp 0 0).pend.map (fun p => (p.num, p.vals.map Prod.snd)) = [(4, List.replicate 32 5#32)] ∧
        ((t.warp 0 0).lane 31).pc = 4#32 ∧ t.issuing = [])
    | _ => false) = true := by decide +kernel
/-! ### Witnesses: memory, counters, order, blocks -/

def okAcc {α : Type} : Except AccFail α → Bool
  | .ok _ => true
  | .error _ => false
/-- No lane's translation waits for its walk. -/
def walksFree (s : State) (va : Nat → DWord) : Bool := lanesAll s fun l => (s.coreWalkHold 0 0 (va l)).isNone
def isAtomicOk (s : State) : Bool := walksFree s (s.val64 16) &&  lanesAll s fun l => okAcc (s.globalAccess kAtomic (s.val64 16 l) (fun _ => some 8) true)

theorem wit_GlobalRequests_load :
    let i : Instr := .ld 0#2 6#3 8#7 16#7 31#5 1#1 1#1
    let s := begun i (fun w => (setAll 16 (fun l => BitVec.ofNat 32 l) w).setS 62 0x1000#32)
    runsIn s i = true ∧ lanesAll s (fun l => okAcc (s.globalAccess kLoad (s.globalAddr 16#7 31#5 1#1 16 l) (fun f => loadPair 6 f 8) false)) = true ∧
      walksFree s (s.globalAddr 16#7 31#5 1#1 16) = true := by
  decide +kernel
theorem wit_GlobalRequests_store :
    let i : Instr := .st 0#2 4#3 108#7 16#7 31#5 1#1
    let s := begun i (fun w => (setAll 16 (fun l => BitVec.ofNat 32 l) w).setS 62 0x1000#32)
    runsIn s i = true ∧ lanesAll s (fun l => okAcc (s.globalAccess kStore (s.globalAddr 16#7 31#5 1#1 16 l) (fun _ => some 16) true)) = true ∧
      walksFree s (s.globalAddr 16#7 31#5 1#1 16) = true := by
  decide +kernel
/-- A page whose region-table entry, number 1 at 0x1020, is of B4 elements with their scales at 0x1800. -/
def withB4 (s : State) : State :=
  (({ s with tlb := s.tlb.set 5 { level := 0, entry := 0x8000103000000002#64 } }.updCtx 0 fun x =>
    { x with regs := x.regs.set 0x010 0x1000#32 }).setMemBytes 0x2020 (leBytes 32 0x1800000000000000500000000018000000800000000000000010))
theorem wit_GlobalRequests_scaled :
    let i : Instr := .ld 0#2 7#3 8#7 16#7 31#5 1#1 1#1
    let s (m : Word) := withB4 (begun i (fun w => (setAll 16 (fun l => BitVec.ofNat 32 l) w).setS 62 0x5000#32) m)
    let ok (s : State) : Bool := runsIn s i && walksFree s (s.globalAddr 16#7 31#5 1#1 4) && s.me.var.isEmpty && s.me.mapped 0 &&
      lanesAll s (fun l => match s.ldLane 7#3 8#7 16#7 31#5 1#1 1#1 l with
        | .ok a => decide (a.fmt = fmtB4)
        | .error _ => false) && (State.pendingUntil s.me s.cur.lanes .lane 9).isNone
    ok (s 0x10#32) = true ∧ (s 0x10#32).enables = 0#32 ∧ ok (s 0x1F10#32) = true ∧ (s 0x1F10#32).enables ≠ 0#32 := by decide +kernel
/-- With the walks' budget spent, an access of a page that no TLB holds waits. -/
theorem wit_GlobalRequests_walk :
    let i : Instr := .ld 0#2 4#3 8#7 16#7 0#5 0#1 0#1
    let s := (begun i (setAll 16 fun _ => 0x9000#32)).updDie 0 (fun x => { x with abud := x.abud.set 2 0#32 })
    runsIn s i = true ∧ (s.coreWalkHold 0 0 (s.globalAddr 16#7 0#5 0#1 4 3)).isSome = true := by decide +kernel
theorem wit_GlobalRequests_atomic :
    let i : Instr := .atom 0#2 8#7 8#6 1#1 8#4 5#3
    let j : Instr := .cas 0#2 8#7 8#6 1#1 0#3
    let f : Warp → Warp := setAll 16 fun l => BitVec.ofNat 32 (0x1000 + 8 * l)
    runsIn (begun i f) i = true ∧ isAtomicOk (begun i f) = true ∧
      ((begun i f).noteWalks ((lanesOf (begun i f).cur.lanes).map fun l => (begun i f).val64 16 l)).canRelease 0 0 5 = true ∧
      runsIn (begun j f) j = true ∧ isAtomicOk (begun j f) = true := by decide +kernel
theorem wit_GlobalRequests_scalar :
    let i : Instr := .sld 0#2 8#6 16#6 24#6 1#1
    let j : Instr := .sst 0#2 8#6 16#6 24#6 0#1
    let f : Warp → Warp := fun w => w.setS 16 0x1FF8#32
    (begun i f).cur.slot ≠ 32 ∧ (begun i f).coreWalkHold 0 0 0x1FF8#64 = none ∧ runsIn (begun i f) i = true ∧ okAcc ((begun i f).globalAccess kLoad 0x1FF8#64 (fun _ => some 8) false) = true ∧
      runsIn (begun j f) j = true ∧ okAcc ((begun j f).globalAccess kStore 0x1FF8#64 (fun _ => some 4) true) = true := by decide +kernel
theorem wit_ScratchpadRequests :
    let i : Instr := .lds 0#2 4#3 8#7 16#7 0#1 0#6
    let j : Instr := .sts 0#2 4#3 8#7 16#7 0#1 0#6
    let f : Warp → Warp := setAll 16 fun l => BitVec.ofNat 32 (16 * l)
    let w (s : State) (kind : Nat) := lanesAll s fun l =>
      okAcc (s.checkWindow 0 0 kind none 0 (s.val 16 l).toNat (spWordOf none 0 (s.val 16 l).toNat) fun _ => some 4)
    runsIn (begun i f) i = true ∧ w (begun i f) kLoad = true ∧ loadPair 4 9 8 = some 4 ∧
      runsIn (begun j f) j = true ∧ w (begun j f) kStore = true ∧ (begun j f).winHeld true [] = false := by decide +kernel
theorem wit_ScratchpadRequests_atomic :
    let i : Instr := .atoms 0#2 8#7 16#7 9#4 3#3
    let j : Instr := .cass 0#2 8#7 16#7 0#3
    let ok (s : State) := lanesAll s fun l => match spWord (s.val 16 l) with
      | some x => okAcc (s.checkWindow 0 0 kAtomic x.1 x.2.1 x.2.2 (s.val 16 l) fun _ => some 4)
      | none => false
    runsIn (begun i) i = true ∧ ok (begun i) = true ∧ (begun i).canRelease 0 0 3 = true ∧ runsIn (begun j) j = true ∧ ok (begun j) = true := by
  decide +kernel
theorem wit_ScratchpadRequests_held :
    let j : Instr := .sts 0#2 2#3 8#7 16#7 0#1 0#6
    let s := (begun j).updCc 0 fun x => { x with score := [{ win := 0, lo := 0, hi := 128, dest := false, op := 7 }] }
    runsIn s j = true ∧ s.winHeld true [{ lane := 0, va := 0, pa := 0, size := 4, core := some 0 }] = true := by decide +kernel
theorem wit_AccessTraps :
    let i : Instr := .ld 0#2 4#3 8#7 16#7 0#5 0#1 0#1
    let s := begun i (setAll 16 fun l => if l = 5 then 2#32 else 0#32)
    runsIn s i = true ∧ (List.range 5).all (fun l => okAcc (s.ldLane 4#3 8#7 16#7 0#5 0#1 0#1 l)) = true ∧
      okAcc (s.ldLane 4#3 8#7 16#7 0#5 0#1 0#1 5) = false := by decide +kernel

/-- A state with one request in flight. -/
def asked (op : MemOp) (words : Nat) : State :=
  let s := begun (.nop 0#2)
  { s with reqs := [(0, { core := 0, slot := 0, ctx := 0, op := op, file := .lane, dest := 8, words := words,
                          accs := [{ lane := 31, va := 0x1000#64, pa := 0x2000, size := 4, data := 7 }] })] }
theorem wit_RequestServed :
    let ok (op : MemOp) (words : Nat) : Bool :=
      let s := asked op words
      match s.reqs.find 0 with
      | some r => !r.performed && r.accs.length = 1 && r.scope = 0 && !s.reqStalls r && (s.reqHold r).isNone &&
          (s.earlier 0 r).isNone && r.accs.all fun a => !s.accLost r.core a && !inRegBlock a.pa
      | none => false
    ok (.pref true) 0 = true ∧ ok (.load 4) 1 = true ∧ ok .store 0 = true ∧ ok (.atom 8 false) 1 = true ∧ ok (.cas false) 1 = true := by decide +kernel
/-- A store, and behind it a load of the same bytes. -/
theorem wit_RequestServed_later :
    let s := asked (.load 4) 1
    let t : State := { s with reqs := (asked .store 0).reqs ++ s.reqs.map fun e => (1, e.2) }
    (t.reqs.find 1).map (fun r => (t.earlier 1 r, r.performed, r.accs.any fun a => a.core.isNone && inRegBlock a.pa)) =
      some (some 0, false, false) := by decide +kernel
theorem wit_CounterAddAndPrefetch :
    let i : Instr := .caddv 0#2 61#6 1#1 8#6 1#1 24#7
    let s := begun i (setAll 16 fun l => BitVec.ofNat 32 (0x2000 + 8 * (l / 2)))
    runsIn s i = true ∧ walksFree s (s.val64 16) = true ∧
      lanesAll s (fun l => okAcc (s.coreCheck 0 0 kCtrAdd (s.val64 16 l)) && decide ((s.val64 16 l).toNat % 8 = 0)) = true ∧
      (s.noteWalks ((lanesOf s.cur.lanes).map fun l => s.val64 16 l)).canRelease 0 0 5 = true ∧
      okAcc (s.coreCheck 0 0 kLoad 0x5000#64) = false ∧
      (let j : Instr := .pref 0#2 0#2 16#7 31#5 1#1
       let t := begun j fun w => (setAll 16 (fun l => BitVec.ofNat 32 l) w).setS 62 0x1000#32
       runsIn t j = true ∧ okAcc (t.coreCheck 0 0 kLoad 0x1080#64) = true ∧ walksFree t (t.globalAddr 16#7 31#5 1#1 128) = true ∧
         ((lanesOf t.cur.lanes).filterMap fun l => t.prefLane (t.globalAddr 16#7 31#5 1#1 128 l) l).length = 32) := by decide +kernel
theorem wit_CounterRequests :
    let s (i : Instr) := begun i fun w => w.setS 16 0x2008#32
    runsIn (s (.cadd 0#2 8#6 16#6 0#6 2#2 3#2)) (.cadd 0#2 8#6 16#6 0#6 2#2 3#2) = true ∧
      okAcc ((s (.cadd 0#2 8#6 16#6 0#6 2#2 3#2)).ctrHomeOf 0 0 0 kCtrAdd (.addr 0x2008#64)) = true ∧
      (s (.cadd 0#2 8#6 16#6 0#6 2#2 3#2)).canRelease 0 0 5 = true ∧
      (s (.cadd 0#2 8#6 16#6 0#6 2#2 3#2)).coreWalkHold 0 0 0x2008#64 = none ∧
      (s (.cwait 0#2 8#6 0#6 7#6 0#2 0#2)).warpBusy 0 0 = false ∧
      runsIn (s (.crd 0#2 8#6 0#6 7#6 1#2)) (.crd 0#2 8#6 0#6 7#6 1#2) = true ∧
      okAcc ((s (.crd 0#2 8#6 0#6 7#6 1#2)).ctrHomeOf 0 0 0 kCtrRead (.num 0 7)) = true ∧
      runsIn (s (.cwait 0#2 8#6 0#6 7#6 0#2 0#2)) (.cwait 0#2 8#6 0#6 7#6 0#2 0#2) = true ∧
      runsIn (s (.cpoll 0#2 8#6 3#6 7#6 0#2 0#2)) (.cpoll 0#2 8#6 3#6 7#6 0#2 0#2) = true ∧
      okAcc ((s (.cpoll 0#2 8#6 3#6 7#6 0#2 0#2)).ctrHomeOf 0 0 0 kCtrRead (.num 5 7)) = false := by decide +kernel
theorem wit_CounterRequests_waits :
    let i : Instr := .cadd 0#2 8#6 1#6 0#6 0#2 3#2
    let s := { begun i with reqs := (asked .store 0).reqs }
    runsIn s i = true ∧ okAcc (s.ctrHomeOf 0 0 0 kCtrAdd (.num 0 0)) = true ∧ s.canRelease 0 0 5 = false ∧
      (let j : Instr := .cwait 0#2 8#6 0#6 7#6 0#2 0#2
       let t := { begun j with reqs := (asked .store 0).reqs }
       runsIn t j = true ∧ t.warpBusy 0 0 = true ∧ okAcc (t.ctrHomeOf 0 0 0 kCtrRead (.num 0 7)) = true) ∧
      (let j : Instr := .crd 0#2 8#6 16#6 0#6 2#2
       let t := (begun j fun w => w.setS 16 0x9000#32).updDie 0 (fun x => { x with abud := x.abud.set 2 0#32 })
       runsIn t j = true ∧ (t.coreWalkHold 0 0 0x9000#64).isSome = true) := by decide +kernel
theorem wit_OrderResults :
    let f (k : BitVec 2) : Instr := .fence 0#2 5#3 k
    runsIn (begun (f 2#2)) (f 2#2) = true ∧ (begun (f 2#2)).canRelease 0 0 5 = true ∧ (begun (f 2#2)).warpBusy 0 0 = false ∧
      (begun (f 0#2)).warpBusy 0 0 = false ∧
      (let s := { begun (f 1#2) with reqs := (asked .store 0).reqs }
       runsIn s (f 1#2) = true ∧ s.canRelease 0 0 5 = false ∧ s.warpBusy 0 0 = true) ∧
      (let i : Instr := .cmnt 0#2 16#6 24#6 2#2 1#2
       let s := begun i fun w => (w.setS 16 0x1000#32).setS 24 4096#32
       runsIn s i = true ∧ okAcc (s.coreCheck 0 0 kCmnt 0x1000#64) = true ∧
         s.coreWalkHold 0 0 0x1000#64 = none ∧ s.warpBusy 0 0 = false ∧ s.releasable 0 4 = true ∧
         okAcc (s.coreCheck 0 0 kCmnt 0x5000#64) = false) := by decide +kernel
theorem wit_BlockResults :
    let i : Instr := .racq 0#2 0x40#7
    let j : Instr := .rrel 0#2 0x41#7
    let less : Warp → Warp := fun w => { w with blocks := w.blocks.filter fun b => b.1 ≠ 6 }
    runsIn (begun i less) i = true ∧ ((begun i less).me.blocks.find 6).isNone = true ∧ (begun i less).me.sched.racq = [] ∧
      ((begun i less).core 0).racqQ = [] ∧ 1 ≤ ((begun i less).freeBlocks 0).length ∧
      ((begun i).me.blocks.find 6).isSome = true ∧ runsIn (begun i) i = true ∧
      runsIn (begun j) j = true ∧ ((begun j).me.blocks.find 0).isSome = true ∧ (begun j).me.var = [] ∧ (begun j).me.pend = [] ∧
      runsIn (begun j less) j = true ∧
      (let held := begun j fun w => { w with pend := [{ file := .lane, num := 3, vals := [], lands := 9 }] }
       runsIn held j = true ∧ held.me.pend.any (fun v => v.file == .lane && decide (v.num / 16 = 0)) = true) := by decide +kernel
theorem wit_RangeClaims :
    let i : Instr := .rnext 0#2 8#6 3#2
    let s (n e : Nat) (cores : List Nat) : State := { (begun i).updCc 0 fun x => { x with lazyLaunch := some 0, lazyNext := n, lazyEnd := e } with
      launches := [(0, { ctx := 0, addr := 0, desc := 0, parts := [0], lazy := cores })] }
    let ok (s : State) : Bool := runsIn s i && (s.cc 0).warps.all (fun e => e.2.sched.rnext.isNone) && (s.core 0).fw.sched.rnext.isNone && (s.cc 0).steals.isEmpty &&
      decide (s.lazyCc 0 (s.cc 0).lazyIndex = some (s.cc 0))
    ok (s 4 5 [0]) = true ∧ ok (s 5 5 [0]) = true ∧ ok (s 5 5 [0, 1]) = true ∧ ((s 5 5 [0, 1]).cc 0).stealOut = false ∧
      (let t := (s 4 5 [0]).updWarp 0 1 fun w => w.updSched fun x => { x with rnext := some { dest := 8, pred := 1, lanes := 1#32, pc := 0#32, req := 3 } }
       runsIn t i = true ∧ (t.cc 0).warps.any (fun e => e.2.sched.rnext.isSome) = true) ∧
      ((begun i).cc 0).lazyLaunch = none := by decide +kernel
theorem wit_LaunchServiceCheckpoint :
    let i : Instr := .launch 0#2 16#6
    let s := begun i fun w => w.setS 16 0x1040#32
    runsIn s i = true ∧ s.canRelease 0 0 4 = true ∧ (s.us64 16#6).toNat % 64 = 0 ∧
      (match (s.releaseAt 0 4).readBlock 0 0 kRecord 0x1040#64 with
        | .ok (w, _) => decide ((w.cc 0).launchQ.length < 16) && (w.serviceBlock 0 0 0).isNone
        | .error _ => false) = true ∧
      runsIn (begun i fun w => w.setS 16 0x1020#32) i = true ∧
      runsIn (begun (.svc 0#2 8#6 16#6)) (.svc 0#2 8#6 16#6) = true ∧
      ((s.releaseAt 0 4).almanacOn 0 0).2 = false ∧
      (begun (.ckptCounter 0#2 16#6 24#6) fun w => w.setS 16 0x2000#32).coreWalkHold 0 0 0x2000#64 = none ∧
      okAcc ((begun (.ckptCounter 0#2 16#6 24#6) fun w => w.setS 16 0x2000#32).ctrHomeOf 0 0 0 kCtrAdd (.addr 0x2000#64)) = true ∧
      runsIn (begun (.ckptCounter 0#2 16#6 24#6)) (.ckptCounter 0#2 16#6 24#6) = true ∧ runsIn (begun (.ckpt 0#2)) (.ckpt 0#2) = true := by
  decide +kernel
/-! ### Witnesses: engines, traps, regions, tokens -/

def noErr {α : Type} : Except TrapInfo α → Bool
  | .ok _ => true
  | .error _ => false

/-- A service queue 0 at 0x1100, its control block at 0x1200. -/
def withService (s : State) : State :=
  ((s.updCtx 0 fun x => { x with regs := (x.regs.set 0x058 0x1100#32).set 0x028 0x1300#32 }).setMemBytes 0x2100
    (leBytes 16 (2 ^ 63 + 0x1200 * 2 ^ 64))).setMemBytes 0x2200
      (leBytes 64 (0x1400 + 2 ^ 64 + 0x2000 * 2 ^ 128 + 0x2008 * 2 ^ 192 + 0x2010 * 2 ^ 256))
theorem wit_LaunchServiceCheckpoint_service :
    let i : Instr := .svc 0#2 8#6 16#6
    let s := withService (begun i fun w => w.setS 16 0x1040#32)
    let r := s.releaseAt 0 4
    runsIn s i = true ∧ (match r.serviceBlock 0 0 0 with
      | some (v, b) => (v.lastAdd 0).isNone && (match v.ctrHomeOf 0 0 0 kCtrRead (.addr (qcbDone b)) with
          | .ok p => !v.ctrLost 0 p
          | .error _ => false) &&
          match v.agentHome 0 0 (qcbPub b) with
          | some p => (v.ctrHold p true).isNone && decide ((v.ctrRead 0 p).toNat < 2) &&
              okAcc (v.vaWrite 0 0 kStore (qcbBase b) (leBytes 64 0))
          | none => false
      | none => false) = true := by decide +kernel
theorem wit_LaunchServiceCheckpoint_almanac :
    let s := (withService (begun (.ckpt 0#2))).setMemBytes 0x2300 [1#8]
    runsIn s (.ckpt 0#2) = true ∧ s.canRelease 0 0 4 = true ∧ ((s.releaseAt 0 4).almanacOn 0 0).2 = true ∧
      (let i : Instr := .launch 0#2 16#6
       let t := (begun i).updCc 0 fun x => { x with launchQ := (List.range 16).map fun k => (64 * k, 0) }
       runsIn t i = true ∧ 16 ≤ ((t.releaseAt 0 4).cc 0).launchQ.length ∧ okAcc ((t.releaseAt 0 4).readBlock 0 0 kRecord 0#64) = true) := by decide +kernel

/-- The registers of a copy block at s16: 64 bytes from 0x1000 into window 0. -/
def copyRegs (rows : Nat) (w : Warp) : Warp :=
  ((((w.setS 16 0x1000#32).setS 18 (spWordOf none 0 0)).setS 20 64#32).setS 21 (BitVec.ofNat 32 rows)).setS 22 128#32
/-- A copy of 64 bytes that holds descriptor `n`. -/
def copyOf (n : Nat) : Copy :=
  { slot := 0, team := 0, ctx := 0, dir := 3, src := 0, dst := 0, len := 64, rows := 1, spitch := 0, dpitch := 0, desc := n }
theorem wit_CopyIssue :
    let ok (i : Instr) (most rows : Nat) : Bool :=
      let s := begun i (copyRegs rows)
      runsIn s i && (match s.copyChecks (s.copyBlk 16#6) 0 most with
        | .ok (x, y) => s.copyRoom (s.copyBlk 16#6) x y true
        | .error _ => false) && !(s.freeDescs 0).isEmpty && (s.noteWalks (State.copyVas (s.copyBlk 16#6) 0)).canRelease 0 0 2 &&
        (State.copyVas (s.copyBlk 16#6) 0).all fun va => (s.coreWalkHold 0 0 va).isNone
    ok (.cpy 0#2 16#6 0#2) 65535 1 = true ∧ ok (.cpyg 0#2 16#6 24#6 0#2) 64 64 = true ∧ ok (.cpys 0#2 16#6 24#6 0#2) 64 1 = true ∧
      ok (.cpyb 0#2 2#6 16#6 7#3 0#2) 65535 1 = true := by decide +kernel
theorem wit_CopyIssue_bad :
    let i : Instr := .cpy 0#2 16#6 0#2
    let j : Instr := .cpyg 0#2 16#6 24#6 0#2
    runsIn (begun i (copyRegs 0)) i = true ∧ ((begun i (copyRegs 0)).copyBlk 16#6).rows = 0 ∧
      runsIn (begun j (copyRegs 65)) j = true ∧ ((begun j (copyRegs 65)).copyBlk 16#6).len = 64 ∧
      ((begun j (copyRegs 65)).copyBlk 16#6).top = 0 ∧ ((begun j (copyRegs 65)).copyBlk 16#6).rows = 65 ∧
      noErr ((begun j (copyRegs 65)).copyChecks ((begun j (copyRegs 65)).copyBlk 16#6) 0 64) = false := by decide +kernel
theorem wit_CopyIssue_waits :
    let i : Instr := .cpy 0#2 16#6 0#2
    let s := begun i fun w => (copyRegs 1 w).setS 16 0x9000#32
    let t := s.updDie 0 fun x => { x with abud := x.abud.set 2 0#32 }
    let u := (begun i (copyRegs 1)).updCc 0 fun x => { x with copies := (List.range 16).map fun n => (n, copyOf n) }
    runsIn t i = true ∧ (State.copyVas (t.copyBlk 16#6) 0).any (fun va => (t.coreWalkHold 0 0 va).isSome) = true ∧
      runsIn u i = true ∧ noErr (u.copyChecks (u.copyBlk 16#6) 0 65535) = true ∧ u.freeDescs 0 = [] := by decide +kernel
theorem wit_CopyIssue_collective :
    let i : Instr := .cpyb 0#2 2#6 16#6 7#3 0#2
    let s := (begun i (copyRegs 1)).updTeam 0 0 fun t => { t with slots := [(7, { count := 2, dir := 0, slices := [9], warps := [3] })] }
    runsIn s i = true ∧ (((s.cc 0).teams.find 0).bind fun t => t.slots.find 7) = some { count := 2, dir := 0, slices := [9], warps := [3] } ∧
      noErr (s.copyChecks (s.copyBlk 16#6) 0 65535) = true ∧ s.me.wid = 0 ∧
      (let t := s.updTeam 0 0 fun t => { t with slots := [(7, { count := 3, dir := 1, slices := [9], warps := [0] })] }
       runsIn t i = true ∧ (((t.cc 0).teams.find 0).bind fun t => t.slots.find 7) = some { count := 3, dir := 1, slices := [9], warps := [0] }) ∧
      runsIn s (.cpyb 0#2 3#6 16#6 7#3 0#2) = true := by decide +kernel
theorem wit_BatchesAndWindows :
    let i : Instr := .cseal 0#2 8#6 0#6 3#6 0#2 3#2
    let full : Warp → Warp := fun w => w.updUni fun u => { u with sealedCount := 3#32, doneCount := 0xFFFFFFFB#32 }
    let ok (s : State) : Bool := okAcc (s.ctrHomeOf 0 0 0 kCtrAdd (s.ctrName 0#2 0#6 3#6))
    runsIn (begun i) i = true ∧ ok (begun i) = true ∧ runsIn (begun i full) i = true ∧
      ((begun i full).me.uni.sealedCount - (begun i full).me.uni.doneCount).toNat = 8 ∧
      runsIn (begun (.cwaitb 0#2 63#6)) (.cwaitb 0#2 63#6) = true ∧ (begun (.cwaitb 0#2 63#6)).warpBusy 0 0 = false ∧
      runsIn (begun (.cseal 0#2 8#6 0#6 0#6 3#2 0#2)) (.cseal 0#2 8#6 0#6 0#6 3#2 0#2) = true ∧ (begun (.cseal 0#2 8#6 0#6 0#6 3#2 0#2)).me.unsealed = [] ∧
      (let j : Instr := .cseal 0#2 8#6 16#6 0#6 2#2 0#2
       let s := begun j fun w => w.setS 16 0x2000#32
       runsIn s j = true ∧ s.coreWalkHold 0 0 0x2000#64 = none ∧ okAcc (s.ctrHomeOf 0 0 0 kCtrAdd (.addr 0x2000#64)) = true ∧
         (let t := (s.updMe fun w => w.setS 16 0x9000#32).updDie 0 fun x => { x with abud := x.abud.set 2 0#32 }
          runsIn t j = true ∧ (t.coreWalkHold 0 0 0x9000#64).isSome = true)) ∧
      (let s := (begun (.cseal 0#2 8#6 0#6 63#6 0#2 0#2) fun w => { w with unsealed := [4] }).updCc 0 fun x =>
         { x with copies := [(4, { copyOf 0 with mask := some 1#64 })] }
       runsIn s (.cseal 0#2 8#6 0#6 63#6 0#2 0#2) = true ∧ okAcc (s.ctrHomeOf 0 0 0 kCtrAdd (.num 0 63)) = true) ∧
      runsIn (begun (.cwaitb 0#2 7#6) full) (.cwaitb 0#2 7#6) = true := by
  decide +kernel
theorem wit_BatchesAndWindows_wdesc :
    let i : Instr := .wdesc 0#2 16#6 0#6
    let j : Instr := .wdesc 0#2 16#6 63#6
    let f (hi lo : Word) : Warp → Warp := fun w => (w.setS 16 lo).setS 17 hi
    wdescReserved 0x8000008000000009#64 = false ∧ wdescOk 0x8000008000000009#64 = true ∧ wdescReserved 0x8000008000000100#64 = true ∧
      wdescOk 0x8000008000000006#64 = false ∧ wdescReserved 0x8000008000000006#64 = false ∧
      runsIn (begun i (f 0x80000080#32 9#32)) i = true ∧ (begun i).window 0 0 none 0 = some (0, 0) ∧ ((begun i).cc 0).score = [] ∧
      wdOwner (((begun i).cc 0).wdesc.get 0 0) = 0 ∧ runsIn (begun j) j = true ∧ (begun j).window 0 0 none 63 = some (0, 63) := by
  decide +kernel

/-- A window of bf16, number 1, and the state of the array. -/
def matrixOn (i : Instr) (op rc : Word) : State :=
  (begun i fun w => (w.setS 16 op).setS 8 rc).updCc 0 fun x => { x with
    wdesc := x.wdesc.set 1 0x8000008000000003#64
    matrix := { x.matrix with active := { fmt := some 3 }, shadow := { fmt := some 3 } } }
theorem wit_MatrixIssue :
    let ok (i : Instr) (op rc : Word) (rows : Nat) (len : Nat → Nat × Bool) (table : Bool) (n : Nat) : Bool :=
      let s := matrixOn i op rc
      runsIn s i && State.opBits op && (s.rowChecks rc).isNone && decide ((s.cc 0).matrix.queue.length < 8) && !s.storesOut 0 0 &&
        match s.opChecks op rows table len (fun _ => true) rc with
        | .ok o => s.scoreRoom (State.opEntries o rows n table false 0)
        | .error _ => false
    let planes (f : Nat) : Nat × Bool := (64, decide (matrixClass f ≠ 0))
    ok (.ldw 0#2 16#6) 0x2000#32 0x0800#32 64 planes false 64 = true ∧
      ok (.mma 0#2 8#6 16#6 1#1) 0x2000#32 0x08F8#32 8 planes false 64 = true ∧
      ok (.mmat 0#2 8#6 16#6) 0x2000#32 0x40C0#32 64 planes false 64 = true ∧
      ok (.mperm 0#2 8#6 16#6) 0x0000#32 0x0800#32 8 (fun f => (1, f = 9 || f = fmtRaw)) true 1 = true ∧
      ok (.mst 0#2 8#6 16#6) 0x2000#32 0x0800#32 8 (fun f => (rowBytes f, 1 ≤ f && f ≤ 5)) false 128 = true ∧
      noErr ((matrixOn (.mmat 0#2 8#6 16#6) 0x2000#32 0x40C0#32).opChecks 0x2000#32 64 false planes
        (fun f => matrixClass f = 0 || State.rcBase 0x2000#32 + matrixK f ≤ 256) 0x40C0#32) = true ∧
      (State.planesAfter ((matrixOn (.wswap 0#2) 0 0).cc 0).matrix).1 = some 3 ∧
      State.planesAfter ((begun (.wswap 0#2)).cc 0).matrix = (none, none) := by decide +kernel
theorem wit_MatrixIssue_more :
    let i : Instr := .mred 0#2 8#6 16#6
    let j : Instr := .mrd 0#2 8#6 16#6
    let k : Instr := .mzero 0#2 8#6
    runsIn (matrixOn i 0x0580#32 0x0400#32) i = true ∧ (0x0580#32).toNat / 2 ^ 11 = 0 ∧ (0x0580#32).toNat / 256 % 8 = 5 ∧
      State.rcRange 0x0800#32 = true ∧ State.rcBase 0x08F8#32 + 8 ≤ 256 ∧
      runsIn (matrixOn j 0x1F8#32 0) j = true ∧ (0x1F8#32).toNat / 2 ^ 9 = 0 ∧ (0x1F8#32).toNat % 8 = 0 ∧
      runsIn (matrixOn k 0 0x10000#32) k = true ∧ ((matrixOn k 0 0x10000#32).rowChecks 0x10000#32).isNone = true ∧
      State.opBits 0x80000#32 = false ∧ runsIn (matrixOn (.ldw 0#2 16#6) 0x80000#32 0) (.ldw 0#2 16#6) = true ∧
      (let q : List MCmd := (List.range 8).map fun n => { num := n, opc := 0x5A, slot := 0, team := 0, mode := 0, opword := 0, rowctl := 0 }
       let t := (begun (.wswap 0#2)).updCc 0 fun x => { x with matrix := { x.matrix with queue := q } }
       runsIn t (.wswap 0#2) = true ∧ 8 ≤ (t.cc 0).matrix.queue.length) := by decide +kernel
theorem wit_SignResults :
    let s (i : Instr) (had : Option (Nat × Nat)) : State := ((begun i).physWrite 0 0 0 0x1004 (leBytes 4 (encode (.wswap 0#2)).toNat)).updTeam 0 0
      fun t => { t with cv := match had with
        | some (n, m) => [(15, { armed := true, expect := n, signed := m })]
        | none => [] }
    let i (n : BitVec 12) : Instr := .msignCount 0#2 15#4 n
    let ok (i : Instr) (had : Option (Nat × Nat)) : Bool :=
      let s := s i had
      runsIn s i && s.boundNext && !s.storesOut 0 0 && (List.range 33).all (fun k => (s.topTracker 0 k).isNone) &&
        decide ((s.cvReg 15).mask.get 0 0 &&& s.cur.lanes = 0#32)
    ok (i 33) none = true ∧ ok (i 32) none = true ∧ ok (i 1) none = true ∧ ok (i 1024) (some (1024, 992)) = true ∧
      ok (i 0) none = true ∧ ok (i 1025) none = true ∧ ok (i 5) (some (6, 1)) = true ∧ ok (.msignReg 0#2 15#4 8#6) none = true := by
  decide +kernel
theorem wit_SignResults_waits :
    let i : Instr := .msignCount 0#2 0#4 32#12
    let s := ((begun i).physWrite 0 0 0 0x1004 (leBytes 4 (encode (.wswap 0#2)).toNat)).updTeam 0 0
      fun t => { t with cv := [(0, { armed := true, expect := 32, signed := 1, mask := [(0, 1#32)] })] }
    runsIn s i = true ∧ s.boundNext = true ∧ (s.cvReg 0).mask.get 0 0 &&& s.cur.lanes ≠ 0#32 := by decide +kernel

/-- A pending asynchronous trap and a vector. -/
def trapped (vec : Word) (inH : Bool) (ts : List TrapInfo) (w : Warp) : Warp :=
  w.updTrap fun t => { t with tvec := vec, inHandler := inH, async := ts }
def oneTrap (g : Nat) : TrapInfo := { group := g, code := 3, async := true, lv := false, lane := 0, t1 := 0, t2 := 0, epc := 0 }
theorem wit_TrapEntries :
    let s := begun (.nop 0#2) (trapped 0x100#32 false [oneTrap 0x12, oneTrap 9, oneTrap 9])
    coreOk 767 = true ∧ coreOk 0 = true ∧ (s.warp 0 0).trap.tvec ≠ 0 ∧ (s.warp 0 0).trap.inHandler = false ∧
      ((begun (.nop 0#2)).warp 0 0).trap.tvec = 0 ∧ (s.warp 0 0).trap.async = [oneTrap 0x12] ++ oneTrap 9 :: [oneTrap 9] ∧
      (State.firstGroup (s.warp 0 0) (s.readyGroups 0 0)).isSome = true ∧
      ((begun (.nop 0#2) (trapped 4#32 true [])).warp 0 0).trap.inHandler = true ∧ s.readyGroups 767 32 = [] := by decide +kernel
theorem wit_TrapWords :
    let i : Instr := .trap 0#2 0xFFF#12
    let j : Instr := .bkpt 0#2 0#12
    let k : Instr := .rft 0#2
    let f := trapped 0x100#32 false []
    runsIn (begun i f) i = true ∧ (begun i f).cur.second = false ∧ (begun i f).me.trap.tvec ≠ 0 ∧ (begun i f).me.trap.inHandler = false ∧
      runsIn (begun j f) j = true ∧ ((begun j f).ctx 0).claim = false ∧
      (((begun j).updCtx 0 fun x => { x with claim := true }).ctx 0).claim = true ∧
      runsIn (begun k (trapped 4#32 true [])) k = true ∧ (begun k).me.uni.rep = none ∧ (begun k).me.sched.spawns = [] ∧ ((begun k).me.lane 0).state = .runnable ∧
      ((begun k).cc 0).copies = [] := by decide +kernel
theorem wit_TrapWords_copies :
    let x : Copy := { copyOf 0 with halted := true }
    let s := (begun (.rft 0#2)).updCc 0 fun y => { y with copies := [(5, x)] }
    (s.cc 0).copies.find 5 = some x ∧ s.me.trap.async = [] := by decide +kernel
theorem wit_RegionResults :
    let i : Instr := .rgnent 0#2 16#6
    let j : Instr := .rgnlve 0#2 16#6
    let f (id : Word) (rs : List (BitVec 16)) : Warp → Warp := fun w => (w.setS 16 id).updUni fun u => { u with regions := rs }
    let full : List (BitVec 16) := (List.range 16).map fun k => BitVec.ofNat 16 (k + 1)
    runsIn (begun i (f 0 [])) i = true ∧ runsIn (begun i (f 0xFFFF#32 full)) i = true ∧ full.length = 16 ∧
      runsIn (begun i (f 0xFFFF#32 (full.drop 1))) i = true ∧ runsIn (begun j (f 1 [])) j = true ∧ runsIn (begun j (f 2 full)) j = true ∧
      full.head? = some 1#16 ∧ runsIn (begun j (f 1 full)) j = true ∧ ((begun i).ctx 0).cap.live = false ∧ ((begun i).ctx 0).halt = false ∧
      ((begun i).ctx 0).stoprgn 3 = 0#32 ∧ ((begun i).cc 0).trackers.find 0 = none := by decide +kernel
/-- Lane 0 submits for slot 0 and lane 31 for slot x; no other lane submits. -/
def submits (x : Word) (tok : Word) (w : Warp) : Warp :=
  setAll 24 (fun _ => tok) (setAll 16 (fun l => if l = 0 then 0#32 else if l = 31 then x else 0x80000000#32) w)
def tokLs (s : State) : List (Nat × Word × Word) :=
  ((lanesOf s.cur.lanes).map fun l => (l, s.me.v 16 l, s.me.v 24 l)).filter fun e => !e.2.1.getLsbD 31
theorem wit_TokenCommands :
    let i : Instr := .toksub 0#2 56#6 16#6 24#6
    let j : Instr := .toksubD 0#2 56#6 16#6 24#6
    let k : Instr := .tokconf 0#2 0#6 16#6 24#6
    let ok (kind : Nat) (s : State) : Bool := (tokLs s).length = 2 && (tokLs s).all fun e => s.tokCheck kind (tokLs s) e = 0
    let s (i : Instr) := begun i (submits 1#32 (if i = k then 0#32 else 0xFFFFFF#32))
    runsIn (s i) i = true ∧ ok 0 (s i) = true ∧ runsIn (s j) j = true ∧ ok 1 (s j) = true ∧ runsIn (s k) k = true ∧ ok 2 (s k) = true ∧
      ((s i).ctx 0).hasFeat featVigil = true ∧ (s i).me.sched.tokarm = 0 ∧ (s i).slotsBusy [0, 1] = false ∧ (s i).canRelease 0 0 4 = true ∧
      (let t := begun i (submits 0#32 5#32)
       runsIn t i = true ∧ (tokLs t).map (fun e => t.tokCheck 0 (tokLs t) e) = [0, 3]) ∧
      (let t := { s i with vreqs := [(9, { core := 0, slot := 5, ctx := 0, kind := 0, lanes := [(0, 1#32, 0#32)] })] }
       runsIn t i = true ∧ t.slotsBusy [0, 1] = true) ∧
      (let t := { s i with reqs := (asked .store 0).reqs }
       runsIn t i = true ∧ t.canRelease 0 0 4 = false) ∧
      (((s i).updCtx 0 fun x => { x with feat := 0 }).ctx 0).hasFeat featVigil = false := by decide +kernel
theorem wit_TokenCommands_arm :
    let i : Instr := .tokarm 0#2 16#6 24#6
    let s (va n : Word) := begun i fun w => (w.setS 16 va).setS 24 n
    let armed := begun i fun w => w.updSched fun x => { x with tokarm := 1 }
    runsIn (s 0x1000#32 0) i = true ∧ runsIn (s 0x1000#32 257#32) i = true ∧ okAcc (((s 0x1F00#32 2#32).releaseAt 0 4).vaRead 0 0 kRecord 0x1F00#64 256) = true ∧
      runsIn (s 0x1F00#32 2#32) i = true ∧ runsIn (s 0x1040#32 1#32) i = true ∧
      (s 0x1040#32 1#32).canRelease 0 0 4 = true ∧
      okAcc (((s 0x1040#32 1#32).releaseAt 0 4).vaRead 0 0 kRecord 0x1040#64 128) = true ∧ runsIn armed i = true ∧ armed.me.sched.tokarm = 1 ∧
      (let t := { s 0x1000#32 1#32 with reqs := (asked .store 0).reqs }
       runsIn t i = true ∧ t.canRelease 0 0 4 = false) := by decide +kernel
theorem wit_TokenCommands_records :
    let s := begun (.tokarm 0#2 16#6 24#6)
    let kind3 : BitVec 1024 := BitVec.ofNat 1024 (3 * 2 ^ 30)
    s.armValid 0 kind3 = true ∧ s.armValid 0 0 = true ∧ s.armValid 0 (BitVec.ofNat 1024 (2 ^ 14)) = false := by decide +kernel

/-! ### Witnesses: events of issue, admission and agents -/

/-- The state of a placed NOP before its issue cycle. -/
def idleState : State := { withWord (encode (.nop 0#2)) with issuing := [] }
/-- The warp of slot 0 in slot 8, so that quad 1 issues. -/
def quadOne : State := idleState.updCc 0 fun x => { x with warps := [(8, x.warps.get {} 0)] }
theorem wit_IssueCycles :
    coreOk 0 = true ∧ (quadOne.quadSlots 0 1 = [8]) ∧ quadOne.coreRuns 0 = true ∧ (quadOne.core 0).granted = true ∧
      (quadOne.cands 0 8).length = 1 ∧ (quadOne.cands 0 8).all Cand.ready = true ∧ quadOne.warpOpen 0 8 = true ∧
      (quadOne.warp 0 8).trap.async = [] ∧
      (let s := State.reset.updCore 767 fun x => { x with timers := [(1, .submissionQueueEntry 0), (7, .featureNegotiate)] }
       coreOk 767 = true ∧ s.coreRuns 767 = false ∧ (s.tick 767).readyGroups 767 32 = []) := by decide +kernel

/-- A launch descriptor: one team of one warp with one register block, grid 2. -/
def descOf (n : Nat) : Block := BitVec.ofNat 512 (n * 2 ^ 32 + 2 ^ 229)
def bin (n : Nat) (x : Bool) : SpawnBin := { entry := 0x40#32, threads := (List.range n).map fun k => (BitVec.ofNat 32 k, 0), elapsed := 9, period := 9, expired := x }
def withBin (b : SpawnBin) : State :=
  (idleState.updCc 0 fun x => { x with bins := [(15, b)] }).updLaunch 0 fun l => { l with desc := descOf 2, parts := [0], tickets := [(0, 1#64)] }
theorem wit_AdmissionEvents_bins :
    (let s := withBin (bin 3 false)
     (s.cc 0).bins.find 15 = some (bin 3 false) ∧ (bin 3 false).threads ≠ [] ∧ (bin 3 false).period ≤ (bin 3 false).elapsed ∧
       (bin 0 false).threads = [] ∧ (bin 32 false).threads.length = 32) ∧
    (let s := withBin (bin 32 false)
     (s.binPlace 0 15).isSome = true ∧ s.freeSlot 0 = some 8 ∧ s.coreRuns 0 = true ∧ ldBlocks (s.launch 0).desc = 1 ∧
       ((s.binPlace 0 15).map fun e => e.2.1.launch) = some 0 ∧ (s.readmit 0 0).isNone = true ∧
       (List.range 15).all (fun b => !s.binReady 0 b) = true ∧ s.binReady 0 15 = true) ∧
    (withBin (bin 1 true)).binReady 0 15 = true ∧ (withBin (bin 32 false)).gangWaits 0 0 = false ∧
    ((withBin (bin 32 false)).core 0).admitAt ≤ ((withBin (bin 32 false)).core 0).cyc ∧
    ¬ (((withBin (bin 32 false)).updCore 0 fun x => { x with admitAt := x.cyc + 1 }).core 0).admitAt ≤ ((withBin (bin 32 false)).core 0).cyc ∧ State.reset.coreRuns 0 = false := by decide +kernel
theorem wit_AdmissionEvents_units :
    let s := (withBin (bin 0 false)).updLaunch 0 fun l => l
    (s.readmit 0 0).isNone = true ∧ (List.range 16).all (fun b => !s.binReady 0 b) = true ∧ s.launchesOf 0 = [0] ∧ (s.launch 0).lazy = [] ∧
      (s.admitUnit 0 0).2 = true ∧ (s.launch 0).tickets.find (dieOfCore 0) = some 1#64 ∧ (s.launch 0).parts.contains 0 = true ∧
      (s.launch 0).exhausted.contains 0 = false ∧ (s.unitPlace 0 (s.launch 0).desc).isSome = true ∧
      (1#64).toNat < (State.dieShare (s.launch 0) 0).2 := by decide +kernel
theorem wit_AdmissionEvents_readmit :
    let u : UnitRec := { ctx := 0, launch := 0, index := 0, prole := 0, ttable := [], nwin := 0, nctr := 0, troles := 1, groles := 1, live := 1 }
    let s := idleState.updPart 0 fun p => { p with evicted := [{ key := 4, unit := u, teams := [], met := true }] }
    (s.readmit 0 0).isSome = true ∧ s.coreRuns 0 = true := by decide +kernel
theorem wit_AdmissionEvents_descriptors :
    let s := idleState
    s.runsOn (agentCore 0) 0 = true ∧ s.runsOn (agentCore 31) 0 = false ∧ (s.ctx 0).rpcb = 0#64 ∧
      s.launchBad (dieOfCore (agentCore 0)) 0 (descOf 3) = none ∧ ldGroles (descOf 3) = 1 ∧
      s.launchBad (dieOfCore (agentCore 0)) 0 (descOf 0) = some 1 ∧ ldCctr (descOf 0) = 0#64 := by decide +kernel

/-- A context that partition 7 runs. -/
def ran7 : State := idleState.updPart 7 fun p => { p with running := some 0 }
/-- A graph node of type t: its body's first two words, and where it goes next. -/
def nodeOf (t : Nat) (a b c : Nat) : Block := BitVec.ofNat 512 (t * 2 ^ 504 + 2 ^ 499 + a + b * 2 ^ 64 + c * 2 ^ 128)
def onNode (t : Nat) (a b c : Nat) (f : State → State := id) : State :=
  f { ran7 with
    mem := (ran7.setMemBytes 0x2100 (leBytes 64 (nodeOf t a b c).toNat)).mem
    runs := [(7, { ctx := 0, agent := 7, head := 0x1000, node := 0x1100 })] }
theorem wit_QueueEvents_nodes :
    let at' (t : Nat) (s : State) : Bool :=
      match s.runs.find 7 with
      | some y => s.runsOn (24 * y.agent) y.ctx && y.node != 0 && (match s.agentRead (dieOfPart y.agent) y.ctx y.node with
        | some (_, b) => !ndBad b && ndType b = t
        | none => false)
      | none => false
    at' 1 (onNode 1 0x1040 0 0) = true ∧ ((onNode 1 0x1040 0 0).agentRead 0 0 0x1040).isSome = true ∧ ((onNode 1 0x1040 0 0).agentRead 0 0 0x9040).isNone = true ∧ at' 1 (onNode 1 0x9040 0 0) = true ∧
      at' 2 (onNode 2 0x1000 0x1200 64) = true ∧ at' 3 (onNode 3 0x2000 1 0) = true ∧ at' 4 (onNode 4 0x2000 5 0) = true ∧ at' 5 (onNode 5 0x2000 5 0) = true ∧
      (onNode 4 0x2000 5 0).runs.find 6 = none ∧ idleState.runsOn (24 * 31) 0 = false := by decide +kernel

def ctrAt (s : State) (a : Nat) (v : Nat) : State := { s with mem := (s.setMemBytes (0x1000 + a) (leBytes 8 v)).mem }
def qcb : Block := BitVec.ofNat 512 (0x1000 + 2 ^ 64 + 0x2008 * 2 ^ 128 + 0x2010 * 2 ^ 192 + 0x2018 * 2 ^ 256 + 2 ^ 7 * 2 ^ 320)
/-- A queue served by partition 7, its PUB at 2. -/
def onQueue (t : Option DWord) : State :=
  { ctrAt ran7 0x2008 2 with queues := [(0, { ctx := 0, agent := 7, block := qcb, ticket := t })] }
theorem wit_QueueEvents_queues :
    let s := onQueue none
    s.runsOn (24 * 7) 0 = true ∧ qcbOk qcb = true ∧
      (match s.agentHome 0 0 (qcbTkt qcb) with
        | some h => (s.ctrHold h true).isNone && (s.ctrAdd 0 0 h 1).isSome
        | none => false) = true ∧
      (match s.readHome 0 0 (qcbPub qcb) with
        | some h => (s.ctrHold h false).isNone && decide (s.ctrRead 0 h = 2#64)
        | none => false) = true ∧ (onQueue (some 1#64)).queues.find 0 ≠ none ∧ (onQueue (some 2#64)).queues.find 0 ≠ none ∧
      ({ ctx := 0, agent := 7, block := qcb, serving := false } : QueueRec).serving = false ∧ idleState.runsOn (24 * 7) 0 = false := by decide +kernel
/-- A head at 0x1000 with ITER i, and a WAIT or COND node of counter 0x2000 with threshold a + b × ITER. -/
def onHead (t a b i v : Nat) : State :=
  let s := ctrAt (onNode t 0x2000 a b) 0x2000 v
  let s : State := { s with mem := (s.setMemBytes 0x2000 (leBytes 64 (6 * 2 ^ 504 + i * 2 ^ 64))).mem }
  { s with mem := (s.setMemBytes 0x2100 (leBytes 64 ((nodeOf t 0x2000 a b).toNat + 2 ^ 497))).mem }
theorem wit_QueueEvents_waits :
    let y : RunRec := { ctx := 0, agent := 7, head := 0x1000, node := 0x1100 }
    let ok (s : State) (i v : Nat) : Bool := match s.iterOf y with
      | some (w, j) => decide (j = i) && (match w.readHome 0 0 0x2000#64 with
        | some h => (w.ctrHold h false).isNone && decide ((w.ctrRead 0 h).toNat = v)
        | none => false)
      | none => false
    let is (s : State) (t : Nat) : Bool := match s.agentRead 0 0 0x1100 with
      | some (_, b) => !ndBad b && ndType b = t && ndRearm b
      | none => false
    (onHead 4 5 1 2 7).runs.find 7 = some y ∧ ok (onHead 4 5 1 2 7) 2 7 = true ∧ is (onHead 4 5 1 2 7) 4 = true ∧
      ok (onHead 4 5 1 2 6) 2 6 = true ∧ ok (onHead 4 0 (2 ^ 63) 2 6) 2 6 = true ∧ is (onHead 4 0 (2 ^ 63) 2 6) 4 = true ∧
      is (onHead 5 5 1 2 7) 5 = true ∧ ok (onHead 5 5 1 2 7) 2 7 = true ∧ ok (onHead 5 5 1 2 6) 2 6 = true ∧
      okAcc ((onHead 5 5 1 2 6).vaWrite 0 0 kStore 0x1008#64 (leBytes 8 3)) = true := by decide +kernel
theorem wit_QueueEvents_runs :
    let s := onHead 4 5 1 2 7
    (s.agentRead 0 0 0x9040).isNone = true ∧ (match s.agentRead 0 0 0x1000 with
      | some (_, b) => !ndBad b && ndType b = 6
      | none => false) = true ∧ (match s.agentRead 0 0 0x1100 with
      | some (_, b) => ndType b != 6
      | none => false) = true := by decide +kernel
def rcb : Block := BitVec.ofNat 512 (0x1000 + 2 * 2 ^ 64 + 4 * 2 ^ 96 + 10 * 2 ^ 128 + 3 * 2 ^ 160 + 0x2020 * 2 ^ 192 + 0x2028 * 2 ^ 384)
/-- A ring of four entries of 16 bytes: two are in place. -/
def onRing (t pend : Nat) : State :=
  let s : State := { ran7 with mem := ((ran7.setMemBytes 0x2008 (leBytes 8 1)).setMemBytes 0x2018 (leBytes 8 2)).mem }
  { s with rings := [(0, { ctx := 0, agent := 7, block := rcb, t := t, pend := pend })] }
theorem wit_QueueEvents_rings :
    let s := onRing 0 1
    let w := (s.ringReady 0 0 rcb 0 4 0).1
    let h := w.agentHome 0 0 (rbTail rcb)
    rbOk rcb = true ∧ s.runsOn (24 * 7) 0 = true ∧ (s.ringReady 0 0 rcb 0 4 0).2 = 2 ∧ ((onRing 2 0).ringReady 0 0 rcb 2 4 0).2 = 0 ∧ 1 + 2 < rbK rcb ∧
      (match s.readHome 0 0 (rbRpub rcb) with
        | some h => (s.ctrHold h false).isNone
        | none => false) = true ∧
      (match h with
        | some h => (w.ctrHold h true).isNone && (match w.ctrAdd 0 0 h 2 with
          | some (_, u) => decide (u.rings = s.rings)
          | none => false)
        | none => false) = true := by decide +kernel
theorem wit_QueueEvents_window :
    let s := (onRing 0 1).updCore 168 fun x => { x with cyc := 10 }
    rbWin rcb = 10 ∧ 0 + rbWin rcb ≤ (s.core (24 * 7)).cyc ∧ (s.rings.find 0).isSome = true := by decide +kernel
theorem wit_QueueEvents_blocks :
    let s (b : Block) : State := { ran7 with mem := (ran7.setMemBytes 0x2040 (leBytes 64 b.toNat)).mem }
    let reads (b : Block) : Bool := match (s b).agentRead 0 0 0x1040 with
      | some (e, x) => decide (x = b) && e.rings.isEmpty && e.queues.isEmpty
      | none => false
    reads rcb = true ∧ reads qcb = true ∧ rbOk 0 = false ∧ qcbOk 0 = false ∧
      (qcbPmask qcb).getLsbD 7 = true ∧ ((s 0).agentRead 0 0 0x9040).isNone = true := by decide +kernel

/-! ### Witnesses: gangs -/

def gangOf (f : Gang → Gang) : Gang := f { launch := 0, agent := 0, parts := [0, 7] }
/-- A gang of two partitions, both of which run its context; `f` sets partition 7. -/
def gangs (g : Gang → Gang) (f : Part → Part) : State :=
  (({ ran7 with gangs := [(5, gangOf g)], gsv := 1, gtk := 1 } : State).updLaunch 0 fun l => { l with desc := descOf 1, parts := [0, 7] }).updPart 7 f
theorem wit_GangEvents_partitions :
    ((gangs id id).gangRoom 7 (gangOf id)).isSome = true ∧ ((gangs id id).part 7).gang = .free ∧ ((gangs id id).part 7).mark = none ∧
      ((gangs id id).part 7).offline = false ∧ ((gangs id fun p => { p with mark := some 6 }).part 7).mark = some 6 ∧
      ((gangs id fun p => { p with running := none }).gangRoom 7 (gangOf id)).isNone = true ∧
      (((gangs id fun p => { p with gang := .heldFor 5 }).updCore 168 fun x => { x with cyc := 16384 }).core 168).cyc = 0 + 16384 ∧
      (gangs id fun p => { p with gang := .heldFor 5 }).gangs.find 5 = some (gangOf id) := by decide +kernel
theorem wit_GangEvents_start :
    let s := gangs (fun g => { g with parts := [7], phase := 2, confirmed := [7] }) fun p => { p with gang := .committed 5 }
    (s.part 7).gang = .committed 5 ∧ s.runsOn (24 * 7) (s.launch 0).ctx = true ∧ (gangOf fun g => { g with parts := [7] }).resume = false ∧
      (let u (live : Nat) : UnitRec :=
         { ctx := 0, launch := 0, index := 0, prole := 0, ttable := [], nwin := 0, nctr := 0, troles := 1, groles := 1, live := live,
           gang := some 5, waiting := true }
       let t (live : Nat) := s.updPart 7 fun p => { p with units := [(3, u live)] }
       ((t 0).part 7).units.find? (fun e => decide (e.2.gang = some 5) && decide (e.2.live = 0)) = some (3, u 0) ∧
         (t 2).waitingUnit 7 0 = some 3) ∧
      idleState.runsOn (24 * 7) 0 = false := by decide +kernel
theorem wit_GangEvents_submitter :
    let ps := (gangOf id).parts
    ps.contains 7 = true ∧ (∃ q ∈ ps, q ≠ 7 ∧ q ∉ ([] : List Nat)) ∧ (∀ q ∈ ps, q = 7 ∨ q ∈ [0]) ∧
      (gangs id id).gsv.toNat ≤ (gangs id id).gtk.toNat ∧ ({ gangs id id with gtk := 2 } : State).gsv < ({ gangs id id with gtk := 2 } : State).gtk ∧
      ((gangs id id).part (gangOf id).agent).offline = false ∧
      ((((gangs id id).updPart 0 fun p => { p with offline := true }).part (gangOf id).agent).offline = true) ∧
      (((gangs id id).updCore 0 fun x => { x with cyc := 2048 }).core (24 * (gangOf id).agent)).cyc = (gangOf id).since + 2048 := by decide +kernel
theorem wit_GangEvents_offline :
    ((State.reset.part 31).offline = false) ∧ (State.reset.part 31).gang = .free ∧ (State.reset.part 31).units = [] ∧
      (∀ e ∈ State.reset.gangs, e.2.agent ≠ 31) ∧ 31 < 32 := by decide +kernel

/-! ### Witnesses: partitions -/

/-- A saved part of context 0 with one unit on core 0, its image under a header, and that image at 0x8000 in the context's
list and in memory. -/
def savedUnit : UnitRec :=
  { ctx := 0, launch := 0, index := 0, prole := 0, ttable := [(0, troupeEntry 0 0 0)], ptable := [(0, partEntry 7)], nwin := 8, nctr := 8, troles := 1,
    groles := 1, live := 1 }
def saved : SavedPart := { ctx := 0, cores := [], units := [(0, savedUnit)] }
def onPart (f : Part → Part) : State := idleState.updPart 7 f
def imaged (y : SavedPart) (hdr : List Byte) : SavedPart :=
  { y with bytes := hdr ++ tableBytes savedUnit ++ List.replicate 32 0 }
def withImage (y : SavedPart) (hdr : List Byte) : State :=
  let s := idleState.updCtx 0 fun x => { x with images := [(0x8000, imaged y hdr)] }
  let s : State := { s with mem := (s.setMemBytes 0x8000 (imaged y hdr).bytes).mem }
  s.updPart 7 fun p => { p with pimg := 0x8000#64, pctxh := 0x400#32 }
def goodHdr : List Byte := imageHeader 1 5 1
theorem wit_PartitionEvents_stop :
    let s := idleState.updPart 0 fun p => { p with standby := some saved }
    (s.part 0).running = some 0 ∧ (s.ctx 0).alm.inCut = false ∧ s.damage.shadows.contains 0 = false ∧ saved.ctx = 0 ∧
      (s.part 0).stopping = false ∧ (s.part 0).paused = false ∧
      ({ s with damage := { s.damage with shadows := [0] } } : State).damage.shadows.contains 0 = true ∧ ((s.pausePart 0 (s.part 0).drain).stopGangs 0).drained 0 = true ∧
      (let t : State := { s with reqs := [(0, { core := 0, slot := 0, ctx := 0, op := .store, accs := [], file := .lane, dest := 0, words := 0 })] }
       ((t.pausePart 0 false).stopGangs 0).drained 0 = false) ∧
      ((s.updAlm 0 fun a => { a with inCut := true }).ctx 0).alm.inCut = true ∧ (s.part 7).running = none ∧ (s.part 7).standby = none ∧
      ((onPart fun p => { p with offline := true }).part 7).offline = true ∧ ((onPart fun p => { p with inPlace := some 0 }).part 7).inPlace = some 0 := by
  decide +kernel
theorem wit_PartitionEvents_load :
    let y := imaged saved goodHdr
    let s := withImage saved goodHdr
    let ok (y : SavedPart) (s : State) : Bool := match (s.loadTables 0 (s.part 7).pbind.toNat 0x8000 (s.ctx 0).kidreg y).2 with
      | some t => tablesOk y t && namesOk y t && tablesFit y t
      | none => false
    s.imageAt 0 0x8000 = some (0, y) ∧ s.kidBad 0x8000 (s.ctx 0).kidreg = false ∧ s.imageHurt 0x8000 y.bytes.length = false ∧
      y.bytes.take 64 = imageHeader 1 (y.bytes.length / 64) y.units.length ∧ State.matrixVersOk y = true ∧
      ok y s = true ∧ (∀ k ∈ y.vslots, k ∈ s.slotsOf 0) ∧
      (imaged saved (imageHeader 1 6 1)).bytes.take 64 ≠ goodHdr ∧ (withImage saved (imageHeader 1 6 1)).imageAt 0 0x8000 = some (0, imaged saved (imageHeader 1 6 1)) ∧
      ({ s with damage := { s.damage with images := [0x8000] } } : State).imageHurt 0x8000 y.bytes.length = true ∧
      ({ s with damage := { s.damage with images := [0x8000] } } : State).imageAt 0 0x8000 = some (0, y) ∧
      State.matrixVersOk { y with cores := [(0, { matrix := { header := 2#256 } })] } = false ∧
      ((s.updPart 7 fun p => { p with pbind := 0x20#64 }).loadTables 0 0x20 0x8000 0 y).2 = none ∧
      (match (s.loadTables 0 0x9000 0x8000 0 y).2 with
        | some t => tablesOk y t
        | none => true) = false ∧ (9 ∈ ({ y with vslots := [9] } : SavedPart).vslots ∧ 9 ∉ s.slotsOf 0) := by decide +kernel
theorem wit_PartitionEvents_load_none : State.reset.imageAt 0 0x8000 = none := by decide +kernel
theorem wit_PartitionEvents_unfit :
    let team : Team := { ctx := 0, unit := 0, launch := 0, teamId := 0, trole := 0, prole := 0, wids := [0] }
    let y : SavedPart := { saved with cores := [(0, { teams := [(0, team)], warps := (List.range 33).map fun k => (k, ({} : Warp)) })] }
    (match ((withImage y goodHdr).loadTables 0 0 0x8000 0 y).2 with
      | some t => tablesOk y t && namesOk y t && !tablesFit y t
      | none => false) = true := by decide +kernel
theorem wit_PartitionEvents_enter :
    let s := withImage saved goodHdr
    (s.part 7).pctxh.toNat % 1024 = 0 ∧ (s.ctx 0).valid = true ∧ (s.ctx 0).alm.inCut = false ∧ (s.ctx 1023).valid = false ∧ (s.part 7).running = none ∧ (s.part 7).inPlace = none ∧
      (idleState.part 0).running ≠ none := by decide +kernel
theorem wit_PartitionEvents_image : (∃ e, State.reset.writeImage 0 0x8000 saved = some e) ∧ State.reset.writeImage 0 0x8001 saved = none := by
  have hm : (Config.freeWord State.reset.free).toNat < 2 ^ 32 := (Config.freeWord State.reset.free).isLt
  have hl : (saved.units.flatMap fun e => tableBytes e.2).length = 224 := by decide +kernel
  have hr : ∀ n, n ≤ 64 * (5 + 2 ^ 32) → (State.reset.fresh.2).imageRoom 0x8000 n = true := by
    intro n h
    have h1 : isDevice 0x8000 = true := by decide
    have h2 : 0x8000 + n ≤ deviceEnd := by unfold deviceEnd; omega
    simp [State.imageRoom, h1, h2]
  have hk : (State.reset.fresh.2).kidBad 0x8000 0 = false := by simp [State.kidBad]
  have hx : ∀ n, (State.reset.fresh.2).imageRoom 0x8001 n = false := by intro n; simp [State.imageRoom]
  have h0 : (State.reset.ctx saved.ctx).kidreg = 0 := by decide +kernel
  constructor
  · unfold State.writeImage
    simp only [hl, h0, hk]
    rw [if_neg]
    · exact ⟨_, rfl⟩
    · rw [hr]
      · simp
      · simp only [State.fresh, ceilDiv]; omega
  · unfold State.writeImage
    simp only [hx]
    simp
theorem wit_PartitionEvents_complete :
    let s := idleState.updPart 7 fun p => { p with commands := [9, 2, 1], pcnt := 0x3010#64 }
    (s.part 7).commands = 9 :: [2, 1] ∧ 8 ≤ 9 ∧ (s.physAdd (s.part 7).pcnt 1).isSome = true := by decide +kernel
theorem wit_PartitionEvents_evict :
    let cw : WaitCond := { name := .num 0 0, thr := 1#64, scope := 0, lanes := BitVec.allOnes 32, pc := 4#32 }
    let s := (idleState.updWarp 0 0 fun w => w.updSched fun x => { x with cwait := some cw }).updCtx 0 fun x =>
      { x with regs := x.regs.set 0x060 0x1000#32 }
    (s.part 0).units.find 0 ≠ none ∧ s.evictable 0 0 = true ∧ s.budgetOut 0 (State.copyBudget 0) = false ∧
      (s.updDie 0 fun x => { x with abud := x.abud.set (State.copyBudget 0) 0#32 }).budgetOut 0 (State.copyBudget 0) = true ∧
      (State.reset.part 0).units.find 0 = none ∧
      (let ev : Evicted := { key := 3, unit := savedUnit, teams := [{ core := 0, num := 0
                                                                      team := { ctx := 0, unit := 0, launch := 0, teamId := 0, trole := 0, prole := 0, wids := [0] }
                                                                      warps := [(0, s.warp 0 0)], windows := [], wdescs := [], ctrs := [(0, 1#64)] }] }
       let far : Evicted := { ev with teams := ev.teams.map fun t => { t with ctrs := [] } }
       ev.met = false ∧ s.evictedMet 0 ev = true ∧ s.evictedMet 0 far = false) := by decide +kernel

/-! ### Witnesses: the Almanac, steal requests, the Vigil -/

/-- Context 0 with an Almanac control block of the given first words at 0x1000. -/
def alm (f : Almanac → Almanac) (acb : Nat) : State :=
  let s := (idleState.updCtx 0 fun x => { x with regs := (x.regs.set 0x028 0x1000#32), feat := 0xFFFFFFFF#32 }).updAlm 0 f
  { s with mem := (s.setMemBytes 0x2000 (leBytes 64 acb)).mem }
theorem wit_AlmanacEvents_cut :
    let s := alm (fun a => { a with due := true }) 1
    (s.ctx 0).alm.due = true ∧ (s.ctx 0).alm.inCut = false ∧ (s.ctx 0).alm.streaming = none ∧ s.heldSet 0 = [0] ∧ (s.part 0).paused = false ∧
      (s.ctx 0).almcb = 0x1000#64 ∧ (s.ctx 0).hasFeat featAlm = true ∧
      (match s.readBlock (s.almDie 0) 0 kLoad (s.ctx 0).almcb with
        | .ok (_, b) => b.getLsbD 0
        | .error _ => false) = true ∧
      (match (alm id 0).readBlock 0 0 kLoad 0x1000#64 with
        | .ok (_, b) => !b.getLsbD 0
        | .error _ => false) = true ∧
      (match s.readBlock (s.almDie 0) 0 kLoad 0x9000#64 with
        | .ok _ => false
        | .error _ => true) = true ∧ (idleState.ctx 0).almcb = 0#64 ∧
      (((s.updPart 0 fun p => { p with paused := true }).part 0).paused = true) := by decide +kernel
theorem wit_AlmanacEvents_period :
    let s := alm (fun a => { a with elapsed := 65536 }) (1 + 2 ^ 32)
    let t := alm (fun a => { a with elapsed := 65536, acbRead := true, acb := BitVec.ofNat 512 (1 + 2 ^ 32) }) 0
    (s.ctx 0).alm.acbRead = false ∧ okAcc (s.readBlock (s.almDie 0) 0 kLoad (s.ctx 0).almcb) = true ∧ (s.almPeriod 0).2 = 1 ∧
      1 * 2 ^ 16 ≤ (s.ctx 0).alm.elapsed ∧ (idleState.almPeriod 0).2 = 0 ∧ (t.ctx 0).alm.acbRead = true ∧ (t.almPeriod 0).2 = 1 ∧
      okAcc (idleState.readBlock 0 0 kLoad (idleState.ctx 0).almcb) = okAcc (idleState.readBlock 0 0 kLoad 0#64) ∧
      okAcc (((alm id 1).updCtx 0 fun x => { x with regs := x.regs.set 0x028 0x9000#32 }).readBlock 0 0 kLoad 0x9000#64) = false := by decide +kernel
theorem wit_AlmanacEvents_reply :
    let s (ps : List Nat) := alm (fun a => { a with inCut := true, cutting := ps }) 1
    ((s [0]).ctx 0).alm.cutting ≠ [] ∧ 0 ∈ ((s [0]).ctx 0).alm.cutting ∧ 7 ∉ ((s [0]).ctx 0).alm.cutting ∧ (s [0]).drained 0 = true ∧
      (∀ q ∈ ((s [0]).ctx 0).alm.cutting, q = 0) ∧ (∃ q ∈ ((s [0, 7]).ctx 0).alm.cutting, q ≠ 0) ∧
      (let t : State := { s [0] with reqs := [(0, { core := 0, slot := 0, ctx := 0, op := .store, accs := [], file := .lane, dest := 0, words := 0 })] }
       t.drained 0 = false) ∧
      (((s []).updPart 0 fun p => { p with running := none }).heldSet 0 = [] ∧ ((s []).ctx 0).alm.cutting = []) := by decide +kernel
def iv0 : Interval := { seq := 1, pages := [], closed := [], parts := [], slots := [], owed := [] }
/-- A region of four units at 0 of the second tier. -/
def acb4 : Block := BitVec.ofNat 512 (1 + 4 * 2 ^ 224)
theorem wit_AlmanacEvents_durable :
    let s (u : Nat) := (alm (fun a => { a with streaming := some { iv0 with extra := u }, acb := acb4 }) 1).updIo fun x =>
      { x with regs := x.regs.set 0x048 1#32, tierCaps := [(2, 2 ^ 18)] }
    (s 4).tierLost = false ∧ (s 4).regionOk acb4 = true ∧ (s 4).regionOk (BitVec.ofNat 512 (1 + 5 * 2 ^ 224)) = false ∧
      (s 4).kidBad (2 ^ 47) ((s 4).ctx 0).kidreg = false ∧ iv0.hurt = false ∧ iv0.closed = [] ∧
      (s 4).budgetOut ((s 4).almDie 0) 0 = false ∧ ({ iv0 with extra := 4 } : Interval).units = 4 ∧ acb4.toNat / 2 ^ 224 % 2 ^ 32 = 4 ∧
      ({ iv0 with extra := 5 } : Interval).units = 5 ∧ (s 4).held = [] ∧ ((s 4).ctx 0).alm.chain = [] ∧ acbDurctr acb4 = 0#64 ∧
      ((s 4).updIo fun x => { x with lostCxl := [2] }).tierLost = true ∧
      ((s 4).updDie 0 fun x => { x with abud := [(0, 0#32)], used := [(0, 0)] }).budgetOut 0 0 = true := by decide +kernel
theorem wit_AlmanacEvents_rollback :
    let s := (State.reset.updCtx 3 fun x => { x with regs := (x.regs.set 0x0B8 0x20#32) }).updAlm 3 fun a => { a with chain := [{ iv0 with seq := 0 }] }
    (∃ e ∈ idleState.parts, e.2.running = some 0) ∧ s.parts = [] ∧ ((s.ctx 3).alm.chain.find? fun i => i.seq = 5) = none ∧
      ((s.ctx 3).alm.chain.find? fun i => i.seq = (s.ctx 3).rbint) = some { iv0 with seq := 0 } ∧ (s.ctx 3).alm.writtenSince 0 = [] ∧
      (s.ctx 3).rbtab % 64 = 32 ∧ (s.rewritePages 3 0 ((s.ctx 3).alm.writtenSince 0)).2 = true ∧ s.intervalHurt 3 0 = false ∧
      ({ s with damage := { s.damage with intervals := [(3, 0)] } } : State).intervalHurt 3 0 = true ∧
      (let t := s.updCtx 3 fun x => { x with regs := x.regs.set 0x0B8 0x40#32 }
       (t.ctx 3).rbtab % 64 = 0 ∧ (t.ctx 3).rbtab + 256 ≤ deviceEnd) := by decide +kernel

/-- A lazy launch on cores 0 and 1; `f` sets the range of core 0. -/
def lazyOn (f : CoreCtx → CoreCtx) : State :=
  ((idleState.updLaunch 0 fun l => { l with lazy := [0, 1] }).updCc 0 fun x => f { x with lazyLaunch := some 0, lazyIndex := 0 }).updCore 0
    fun x => { x with cyc := 1024 }
theorem wit_StealEvents :
    let x (s : State) (f : CoreCtx → Bool) : Bool := match s.lazyCc 0 0 with
      | some x => f x
      | none => false
    x (lazyOn id) (fun x => x.steals == []) = true ∧ x (lazyOn fun x => { x with steals := [1] }) (fun x => x.steals == [1] && x.lazyEnd - x.lazyNext < 2) = true ∧
      x (lazyOn fun x => { x with steals := [1], lazyNext := 2, lazyEnd := 7 }) (fun x => x.lazyEnd - x.lazyNext = 5 && x.steals == [1]) = true ∧
      (lazyOn id).lazyCore 0 0 = some 0 ∧ (lazyOn id).lazyCc 0 1 = none ∧ (lazyOn id).lazyCore 0 1 = none ∧
      ((lazyOn id).cc 0).stealSince + 1024 ≤ ((lazyOn id).core 0).cyc ∧ (0 + 1) % max 1 ((lazyOn id).launch 0).lazy.length = 1 ∧
      (lazyOn id).unstartedRange 0 1 = (0, 0) ∧
      (let t := (lazyOn id).updLaunch 0 fun l => { l with desc := descOf 10, asks := [(1, [0])] }
       t.unstartedRange 0 1 = (5, 10) ∧ (t.launch 0).asks.get [] 1 = [0] ∧ t.lazyCc 0 1 = none) := by decide +kernel
theorem wit_StealEvents_rnext :
    let q : RnextWait := { dest := 5, pred := 1, lanes := BitVec.allOnes 32, pc := 0#32, req := 3 }
    let s := (lazyOn id).updWarp 0 0 fun w => w.updSched fun x => { x with rnext := some q }
    (match ((s.cc 0).warps ++ [(fwSlot, (s.core 0).fw)]).find? fun e => e.2.sched.rnext.isSome with
      | some (k, w) => k = 0 && w.sched.rnext == some q
      | none => false) = true := by decide +kernel

/-- A request of lanes 2 and 9 for slots 0 and 1, tokens 5 and 6. -/
def tokReq (f : VigilReq → VigilReq) : VigilReq :=
  f { core := 0, slot := 0, ctx := 0, kind := 0, lanes := [(2, 0#32, 5#32), (9, 1#32, 6#32)], dest := 8, group := 0x204#32, next := 4#32 }
def atVigil (r : VigilReq) (x : VSlot) : State :=
  { idleState with vreqs := [(3, r)], vigil := { slots := [(0, x), (1, { owner := some 0 })] } }
/-- An add of slot 0 that is still to be made. -/
def addOwed : CtrOp :=
  { core := 0, slot := 64, ctx := 0, kind := .add, name := .num 0 5, form := 0, home := .file 0 5, inc := 1, thr := 0, scope := 0, dest := 0,
    lanes := 0, pc := 0, len := 1, agent := some (.vigil 0) }
theorem wit_VigilEvents_held :
    let s := atVigil (tokReq id) { owner := some 0 }
    let t : State := { s with ctrOps := [(7, addOwed)] }
    s.slotAdd 0 = none ∧ t.slotAdd 0 = some 7 ∧ (s.damage.slots.contains 0) = false ∧
      (({ s with damage := { s.damage with slots := [0] } } : State).damage.slots.contains 0) = true ∧
      (t.ctrOps.any fun y => decide (y.2.ctx = 0) && decide (y.2.agent = some (.vigil 0))) = true := by decide +kernel
theorem wit_VigilEvents_steps :
    let s := atVigil (tokReq id) { owner := some 0, drafts := [{ snap := { hist := [9#32] }, act := none, notes := [] }] }
    s.vreqs.find 3 = some (tokReq id) ∧ (tokReq id).lanes.get (0, 0) 2 = (0#32, 5#32) ∧ (tokReq id).lanes.get (0, 0) 9 = (1#32, 6#32) ∧
      State.tokSlot 1#32 = 1 ∧ (s.vslot 0).owner = some 0 ∧ ((atVigil (tokReq id) {}).vslot 0).owner ≠ some 0 ∧
      (((tokReq id).lanes.find? fun y => 2 < y.1) = some (9, 1#32, 6#32)) ∧ (∀ y ∈ (tokReq id).lanes, y.1 ≤ 9) ∧
      (slotStep (s.vslot 0) (s.classRanges 0) (s.vslot 0).st 5#32).2.1 = none := by decide +kernel
theorem wit_VigilEvents_stopped :
    ({ stopped := true } : VState).stopped = true ∧ (({} : VState).stopped = false) ∧ stoppedAction.std = true ∧
      (let a : VAction := { act := 1, ent := 0, bud := false, trp := false }
       a.std = false ∧ a.act = 1) ∧
      (let a : VAction := { act := 2, ent := 0, bud := false, trp := false, target := 1 }
       a.std = false ∧ a.act = 2 ∧ ((atVigil (tokReq id) {}).vslot a.target).owner = some 0) ∧
      (let a : VAction := { act := 2, ent := 0, bud := false, trp := false, target := 9 }
       a.std = false ∧ a.act = 2 ∧ ((atVigil (tokReq id) {}).vslot a.target).owner ≠ some 0) ∧
      (let a : VAction := { act := 3, ent := 0, bud := false, trp := false, inj := [4#32] }
       a.std = false ∧ a.act = 3 ∧ a.inj = 4#32 :: []) := by decide +kernel
theorem wit_VigilEvents_arm :
    let s : State := { atVigil (tokReq fun r => { r with kind := 3, records := [0#1024] }) { owner := some 0 } with ctrOps := [] }
    let slots := [0#1024].map State.armSlot
    slots.findSome? s.slotAdd = none ∧ slots.findSome? ({ s with ctrOps := [(7, addOwed)] } : State).slotAdd = some 7 ∧ (tokReq fun r => { r with kind := 3, lanes := [(0, 0, 0)] }).slot ≤ fwSlot ∧
    fwSlot < (tokReq fun r => { r with kind := 3, slot := 64 }).slot ∧
    ((tokReq fun r => { r with kind := 3, lanes := [(0, 0, 0)] }).lanes.get (0, 0) 0) = (0#32, 0#32) := by decide +kernel
theorem wit_VigilEvents_answer :
    let r := tokReq fun r => { r with result := [(16, 0x40000#32)] }
    let s := atVigil r { owner := some 0 }
    s.ctrOps = [] ∧ r.group ≠ 0#32 ∧ r.kind ≠ 1 ∧ ((r.lanes.filter fun y => (r.result.get 0 (8 * y.1)).getLsbD 18).map Prod.fst) = [2] ∧
      (lanesOf r.group).headD 0 = 2 ∧ (s.warp 0 0).held 2 = false ∧
      ((tokReq id).lanes.filter fun y => ((tokReq id).result.get 0 (8 * y.1)).getLsbD 18) = [] ∧
      ((s.updWarp 0 0 fun w => w.updTrap fun t => { t with inHandler := true, tmask := 1#32 }).warp 0 0).held 2 = true := by decide +kernel
theorem wit_VigilEvents_assign :
    16383 < 16384 ∧ State.reset.boot.vigilOffline.contains (16383 / 1024) = false ∧ ((alm id 0).ctx 0).hasFeat featVigil = true ∧
      (({ State.reset with boot := { State.reset.boot with vigilOffline := [15] } } : State).boot.vigilOffline.contains (16383 / 1024)) = true := by
  decide +kernel

/-! ### Witnesses: counters at their home, the host -/

def ctrOp (k : CtrKind) (home : CtrHome) (inc : DWord) : CtrOp :=
  { core := 0, slot := 0, ctx := 0, kind := k, name := .num 0 5, home := home, inc := inc, thr := 7#64, lanes := BitVec.allOnes 32 }
/-- Counter 5 of core 0 at v, an operation on its way. -/
def atHome (op : CtrOp) (v : DWord) : State := { idleState.updCc 0 (fun x => { x with ctr := [(5, v)] }) with ctrOps := [(2, op)] }
theorem wit_CounterEvents_ops :
    let s (k : CtrKind) (inc : DWord) := atHome (ctrOp k (.file 0 5) inc) 6#64
    let ok (t : State) (op : CtrOp) : Bool := decide (t.ctrOps.find 2 = some op) && !t.ctrLost 0 op.home && (t.ctrHold op.home (op.kind = .add)).isNone
    ok (s .add 3#64) (ctrOp .add (.file 0 5) 3#64) = true ∧ ok (s .read 0#64) (ctrOp .read (.file 0 5) 0#64) = true ∧
      ok (s .poll 0#64) (ctrOp .poll (.file 0 5) 0#64) = true ∧ ok (s .wait 0#64) (ctrOp .wait (.file 0 5) 0#64) = true ∧
      (s .add 3#64).ctrRead 0 (.file 0 5) = 6#64 ∧ 2 ^ 64 ≤ (6#64).toNat + (0xFFFFFFFFFFFFFFFA#64).toNat ∧
      (6#64).toNat + (0xFFFFFFFFFFFFFFF9#64).toNat < 2 ^ 64 ∧ (s .add 3#64).ctrOps.find 3 = none ∧
      (atHome (ctrOp .add (.mem (3 * 2 ^ 46) 0) 1#64) 0#64).ctrLost 0 (.mem (3 * 2 ^ 46) 0) = true ∧
      ({ atHome (ctrOp .add (.file 0 5) 1#64) 0#64 with ctrHeld := [((CtrHome.file 0 5).id, 9)] } : State).ctrHold (.file 0 5) true ≠ none ∧
      (ctrOp .poll (.file 0 5) 0#64).lanes ≠ 0#32 ∧ (ctrOp .add (.file 0 5) 0#64).cores = [] := by
  decide +kernel
/-- An add that follows the stores of core 0, one of which is still on its way. -/
theorem wit_CounterEvents_follows :
    let op : CtrOp := { ctrOp .add (.file 0 5) 1#64 with slot := 64, agent := some .count, cores := [0], scope := 5 }
    let s : State := { atHome op 6#64 with reqs := [(3, { core := 0, slot := 64, ctx := 0, op := .store, file := .lane, dest := 0, words := 0, accs := [] })] }
    s.ctrOps.find 2 = some op ∧ op.cores ≠ [] ∧ (s.releaseAt 0 5).lateStore op.cores op.ctx = some 3 ∧
      ((atHome op 6#64).releaseAt 0 5).lateStore op.cores op.ctx = none ∧ op.agent ≠ none := by decide +kernel
/-- A CADDV: its lane, the number of its counter in the file of core c, its increment. -/
def addv (l : List (Nat × Nat × Nat × DWord)) (f : CtrOp → CtrOp := id) : CtrOp :=
  f { ctrOp .addv (.file 0 5) 0#64 with adds := l.map fun e => (e.1, 0x2000#64, .file e.2.1 e.2.2.1, e.2.2.2) }
theorem wit_CounterEvents_addv :
    let one := addv [(0, 0, 5, 1#64), (31, 0, 5, 2#64)]
    let two := addv [(0, 0, 5, 1#64), (31, 1, 5, 2#64)]
    let full := addv [(0, 0, 5, 1#64), (31, 0, 5, 0xFFFFFFFFFFFFFFFF#64)]
    let h := (State.homesOf 0 one).headD 0
    let s := atHome one 6#64
    State.homesOf 0 (addv []) = [] ∧ State.homesOf 0 one = [h] ∧ (State.homesOf 0 two).length = 2 ∧ s.addvLost 0 one.adds = none ∧
      s.addvHold one.adds = none ∧ s.carries 0 one.adds [] = none ∧ (atHome full 6#64).carries 0 full.adds [] = some (31, 0x2000#64) ∧
      State.addsAt 0 one h = one.adds ∧ s.ctrOps.find 2 = some one ∧
      (let t : State := { atHome two 6#64 with ctrHeld := [((CtrHome.file 0 5).id, 9)] }
       t.addvHold (State.addsAt 0 two h) ≠ none) ∧ h ∉ one.holding ∧
      (h ∈ (addv [(0, 0, 5, 1#64)] fun o => { o with holding := [h] }).holding ∧ h ∉ (addv [(0, 0, 5, 1#64)] fun o => { o with holding := [h] }).applied) ∧
      ((State.homesOf 0 two).find? fun x => !(two.holding ++ [h]).contains x) ≠ none ∧ (∀ x ∈ State.homesOf 0 one, x ∈ one.holding ++ [h]) ∧
      (let lost := { one with adds := [(4, 0x3000#64, .mem (3 * 2 ^ 46) 0, 1#64)] }
       (atHome lost 6#64).addvLost 0 lost.adds = some (4, 0x3000#64)) ∧
      (let q : CtrOp := { one with holding := [h], fails := some (State.addvTrap one 1 31 0x2000#64) }
       q.holding.filter (· != h) = [] ∧ q.fails = some (State.addvTrap one 1 31 0x2000#64)) := by
  decide +kernel
theorem wit_CounterEvents_lists :
    let w : Waiter := { ctr := 2 ^ 48 + 5, thr := 7#64, core := 0, slot := 0 }
    let s := State.reset.updCore 767 fun x => { x with slow := [w] }
    let m := (State.reset.updCore 3 fun x => { x with monitors := [(70, 9)] })
    (s.core 767).slow = [w] ∧ 2 ^ 48 ≤ w.ctr ∧ (∀ x ∈ (State.reset.core 767).slow, lineOf x.ctr ≠ 9 ∧ x.ctr ≠ 9) ∧
      (m.cores.map fun e => (e.1, e.2.monitors)) = [(3, [(70, 9)])] ∧ m.cores.map Prod.fst = [3] := by decide +kernel
theorem wit_CounterEvents_app :
    let s := State.reset
    let u : AppOp := .amo 0 true 1#64 false false
    let n := State.appSize (deviceEnd - 8) u
    15 ∉ s.boot.appOffline ∧ deviceEnd - 8 + n ≤ deviceEnd ∧ ¬ (deviceEnd + 8 + n ≤ deviceEnd) ∧ s.ctrPages.contains ((deviceEnd - 8) / 4096) = false ∧
      ({ s with ctrPages := [(deviceEnd - 8) / 4096] } : State).ctrPages.contains ((deviceEnd - 8) / 4096) = true ∧ s.ctrHold (.mem (deviceEnd - 8) 0) true = none := by
  decide +kernel
theorem wit_CounterEvents_amo :
    let s := State.reset
    15 ∉ s.boot.appOffline ∧ populated8 (BitVec.ofNat 64 (deviceEnd - 8)) = true ∧ s.ctrHold (.mem (deviceEnd - 8) 0) true = none ∧
      (s.markMapped (deviceEnd - 8) true).ctrRead 0 (.mem (deviceEnd - 8) 0) = s.ctrRead 0 (.mem (deviceEnd - 8) 0) ∧
      (s.ctrRead 0 (.mem (deviceEnd - 8) 0)).toNat + (1#64).toNat < 2 ^ 64 ∧ populated8 4#64 = false ∧
      ({ s with flipping := [0] } : State).ctrHold (.mem 8 0) true = some 0 ∧ (∃ x ∈ idleState.ctxs, x.2.valid = true) ∧
      (∀ x ∈ State.reset.ctxs, x.2.valid = false) := by decide +kernel

/-- A host with a decoder of 256 MiB; `f` sets engine 3. -/
def hosted (f : Flip → Flip) : State :=
  State.reset.updIo fun x => { x with hdmSize := 2 ^ 28, featAck := [(0, 2#32)], flips := [(3, f {})] }
theorem wit_HostEvents_flips :
    let go (a : DWord) : State := hosted fun f => { f with addr := a }
    ((hosted fun f => { f with busy := true }).flip 3).busy = true ∧ (hosted id).accepted featHdm = true ∧ State.reset.accepted featHdm = false ∧
      (hosted id).io.hdmSize ≤ ((go (BitVec.ofNat 64 (2 ^ 28))).flip 3).addr.toNat ∧ ((go 0x5000#64).flip 3).addr.toNat % 4096 = 0 ∧
      5 ∉ (go 0x5000#64).flipping ∧ 5 ∉ (go 0x5000#64).hostBias ∧ 5 ∈ ({ go 0x5000#64 with hostBias := [5] } : State).hostBias ∧
      5 ∈ ({ go 0x5000#64 with flipping := [5] } : State).flipping ∧
      (let t : State := { go 0x5000#64 with hostBias := [5], hostLines := [161] }
       ((linesOfPage 5).filter fun l => t.hostLines.contains l || t.hostClean.contains l) = [161]) ∧
      ((linesOfPage 5).filter fun l => (go 0x5000#64).hostLines.contains l || (go 0x5000#64).hostClean.contains l) = [] := by decide +kernel
theorem wit_HostEvents_closing : ((hosted fun f => { f with busy := true, closing := some 0 }).flip 3).closing = some 0 := by decide +kernel
theorem wit_HostEvents_step2 :
    let s (toDev : Bool) (w : List Nat) : State := { hosted fun f => { f with busy := true, page := 5, toDev := toDev, waiting := w } with flipping := [5] }
    ((s true [1]).flip 3).closing = none ∧ (s false []).lateBack 5 = none ∧
    (let q : MemReq := { core := 0, slot := 64, ctx := 0, op := .store, file := .lane, dest := 0, words := 0, back := true,
                         accs := [{ lane := 0, va := 0, pa := 0x5000, size := 4 }] }
     ({ s false [] with reqs := [(2, q)] } : State).lateBack 5).isSome = true ∧
    ((s true [1]).flip 3).busy = true ∧ ((s true [1]).flip 3).page ∈ (s true [1]).flipping ∧ ((s true [1]).flip 3).waiting ≠ [] ∧
      ((s true []).flip 3).waiting = [] ∧ ((s false []).flip 3).toDev = false ∧ (∀ x ∈ (s false []).l1, x.1 % 2 ^ 41 / 32 ≠ 5) := by decide +kernel
theorem wit_HostEvents_access :
    let s := hosted id
    isHost (2 ^ 46 / 64 * 64) = true ∧ isHost 0x4040 = false ∧ s.hostReaches 0x4040 = true ∧ s.hostReaches (2 ^ 28) = false ∧
      s.hostHold 0x4040 true = none ∧ s.hostHold 0x4040 false = none ∧ ({ s with flipping := [4] } : State).hostHold 0x4040 false = some 4 ∧
      (s.ctrRead (homeDie 0x4040 0) (.mem 0x4040 0) ≤ 1#64) ∧
      ({ s with mem := [(0x4040, 9#8)] } : State).ctrRead (homeDie 0x4040 0) (.mem 0x4040 0) = 9#64 := by decide +kernel
theorem wit_HostEvents_snoops :
    let s : State := { hosted id with snoops := [(lineOf 0x4040, true)], hostLines := [lineOf 0x4040] }
    (s.snoops.find? fun x => x.1 = lineOf 0x4040) = some (lineOf 0x4040, true) ∧ (∀ i ∈ [0, 1, 2, 3], lineOf 0x4040 ∉ (s.flip i).waiting) ∧
      lineOf 0x4040 ∈ s.hostLines ∧ lineOf 0x4040 ∉ (hosted id).hostLines ∧ isHost (2 ^ 39 * 128) = true ∧
      (∀ x ∈ s.l1, x.1 % 2 ^ 41 = 2 ^ 39 → dieOfCore (x.1 / 2 ^ 41) ≠ 3) := by decide +kernel
theorem wit_HostEvents_peers :
    let s := State.reset.updIo fun x => { x with inbound := [(8 * 15 + 2, 1#32), (8 * 15 + 5, 0x80000000#32), (8 * 15 + 7, 1#32)] }
    (∀ w < 16, State.reset.admits w 63 0x4040 8 true = false) ∧ s.admits 15 63 0x4040 8 true = true ∧ (∀ v < 15, s.admits v 63 0x4040 8 true = false) ∧
      s.ctrHold (.mem 0x4040 (s.inKid 15)) true = none ∧
      ({ s with flipping := [4] } : State).ctrHold (.mem 0x4040 (s.inKid 15)) true = some 4 ∧ (s.recallLine (lineOf 0x4040)).inKid 15 = s.inKid 15 ∧
      ((s.recallLine (lineOf 0x4040)).waiterList 0 (.mem 0x4040 0)).length < 256 ∧
      (s.recallLine (lineOf 0x4040)).ctrRead (homeDie 0x4040 0) (.mem 0x4040 0) < 1#64 := by decide +kernel

/-! ### Witnesses: engines, power and links, management -/

/-- A page table at 0x4000 whose first entry of three levels maps 1 GiB from 0. -/
def walked : State :=
  let s := idleState.updCtx 0 fun x => { x with regs := x.regs.set 0x008 0x4000#32 }
  { s with mem := (((s.setMemBytes 0x4000 (leBytes 8 0x8000000000000005)).setMemBytes 0x5000 (leBytes 8 0x8000000000000006)).setMemBytes 0x6000
      (leBytes 8 0x8000007000000000)).mem }
theorem wit_EngineEvents_walk :
    let w (s : State) : State := (s.countDie 0 0x42).charge 0 2 40
    let ok (s : State) : Bool := match walkFrom (w s).readPte (0 * 4096) 4 ((w s).ctx 0).ptroot with
      | .ok t => t.level == 2
      | .error _ => false
    (walked.ctx 0).valid = true ∧ walked.budgetOut 0 2 = false ∧ ok walked = true ∧ ok idleState = false ∧ (walked.ctx 1023).valid = false ∧
      (walked.tlb.filter fun e => e.1 / 2 ^ 55 = 0).length < 32768 ∧
      (walked.updDie 0 fun x => { x with abud := [(2, 0#32)] }).budgetOut 0 2 = true := by decide +kernel
theorem wit_EngineEvents_deadline :
    let l : Line := { valid := 1#32, dirty := 1#32, data := 7#1024 }
    let s : State := { idleState with l1 := [(lineKey 767 40, l), (lineKey 767 41, { l with dirty := 0#32 })] }
    let full := s.updAlm 0 fun a => { a with streaming := some { iv0 with closed := [0] }, staged := 2 ^ 40 }
    s.l1.find (lineKey 767 40) = some l ∧ l.dirty ≠ 0#32 ∧ s.closedFull (40 * 128) = false ∧ full.closedFull (40 * 128) = true ∧
      s.l1.find (lineKey 767 42) = none := by decide +kernel
def memReq (f : MemReq → MemReq) : MemReq :=
  f { core := 0, slot := 0, ctx := 0, op := .load 0, accs := [], file := .lane, dest := 8, words := 1, result := [(0, 5#32)], performed := true }
theorem wit_EngineEvents_results :
    let s : State := { idleState with reqs := [(1, memReq id), (2, memReq fun r => { r with performed := false }),
      (3, memReq fun r => { r with words := 0 }), (4, memReq fun r => { r with file := .uni, pred := some (1, true) })] }
    s.reqs.find 1 = some (memReq id) ∧ (memReq id).words ≠ 0 ∧ (memReq id).file = .lane ∧ s.reqs.find 0 = none ∧ (s.reqs.find 4).isSome = true ∧
      (let q : Kept := { enables := 1#32, lanes := 1#32, pc := 0, len := 1, reps := 0, word := 0 }
       let r := memReq fun r => { r with fstat := 1#32, keep := some q }
       let t : State := { idleState with reqs := [(1, r)] }
       t.reqs.find 1 = some r ∧ r.fstat &&& q.enables ≠ 0#32 ∧ (t.warp 0 0).held 0 = false ∧
         ((t.updWarp 0 0 fun w => w.updTrap fun x => { x with inHandler := true, tmask := 2#32 }).warp 0 0).held 0 = true) := by
  decide +kernel
/-- A copy of 64 bytes from 0x1000 into window 0. -/
def copy0 (f : Copy → Copy) : Copy :=
  f { slot := 0, team := 0, ctx := 0, dir := 0, src := 0x1000#64, dst := (spWordOf (some 0) 0 0).setWidth 64, len := 64, rows := 1, spitch := 0, dpitch := 128 }
def copying (f : Copy → Copy) : State := idleState.updCc 0 fun x => { x with copies := [(5, copy0 f)] }
theorem wit_EngineEvents_copies :
    let move (f : Copy → Copy) : Option (Option State.CopyStop) :=
      let s := copying f
      ((s.cc 0).copies.find 5).map fun z => (State.moveRows 0 5 z ((State.copyRows z).drop z.rowsDone) z.rowsDone z.bytesDone s).2
    (copying id).coreRuns 0 = true ∧ (copying id).gangWaits 0 0 = false ∧ (5 : Nat) < 2 ^ 32 ∧ (copying id).scoreBlocks (opKey 0 5) = false ∧ (match move id with
      | some none => true
      | _ => false) = true ∧ (match move fun z => { z with src := 0x9000#64 } with
      | some (some (.halt _ _)) => true
      | _ => false) = true ∧
      (let e (n : Nat) : ScoreEntry := { win := 0, lo := 0, hi := 64, dest := true, op := opKey 0 n }
       ((copying id).updCc 0 fun x => { x with score := [e 4, e 5] }).scoreBlocks (opKey 0 5) = true) ∧
      (((copying fun z => { z with finished := true }).cc 0).copies.find 5).map Copy.finished = some true ∧ (copying id).cur.slot ≤ fwSlot := by
  decide +kernel
theorem wit_EngineEvents_copies_held :
    let s := ({ copying id with flipping := [2] } : State)
    (match ((s.cc 0).copies.find 5).map fun z => (State.moveRows 0 5 z ((State.copyRows z).drop z.rowsDone) z.rowsDone z.bytesDone s).2 with
      | some (some (.hold _ _)) => true
      | _ => false) = true := by decide +kernel
def mcmd (n opc : Nat) : MCmd := { num := n, opc := opc, slot := 0, team := 0, mode := 0, opword := 0, rowctl := 0x100#32 }
def matrixQ (f : Matrix → Matrix) : State := idleState.updCc 0 fun x => { x with matrix := f x.matrix }
theorem wit_EngineEvents_matrix :
    let s := matrixQ fun m => { m with queue := [mcmd 4 0x5A, mcmd 5 0x5B] }
    let r := (matrixQ fun m => { m with running := some { mcmd 4 0x5B with due := 3 } }).updCore 0 fun x => { x with cyc := 3 }
    s.coreRuns 0 = true ∧ State.nextLoad (s.cc 0).matrix = none ∧ (s.cc 0).matrix.running = none ∧ (s.cc 0).matrix.frozen = none ∧ s.gangWaits 0 0 = false ∧ State.nextArray (s.cc 0).matrix = some (mcmd 4 0x5A) ∧
      s.scoreBlocks (opKey 0 4) = false ∧ (mcmd 4 0x5A).trackers = [] ∧ State.nextArray (idleState.cc 0).matrix = none ∧
      (r.cc 0).matrix.running = some { mcmd 4 0x5B with due := 3 } ∧ (r.cc 0).matrix.loading = none ∧ (r.core 0).cyc = 3 := by decide +kernel
theorem wit_EngineEvents_trace :
    let b : Block := BitVec.ofNat 512 (4 * 2 ^ 32 + 0x2000 * 2 ^ 128)
    let s (b : Block) := idleState.updCore 0 fun x => { x with trace := [1, 2], traceBlk := b }
    let held (s : State) : Option Nat := (s.agentHome 0 0 (State.tcbTpos b)).bind fun z => s.ctrHold z true
    ((s b).core 0).trace = [1, 2] ∧ State.tcbQlog b = 4 ∧ State.tcbQlog 0 = 0 ∧ (s b).budgetOut 0 1 = false ∧
      ((s b).updDie 0 fun x => { x with abud := [(1, 0#32)] }).budgetOut 0 1 = true ∧ held (s b) = none ∧ held { s b with flipping := [3] } = some 3 ∧
      idleState.sampleTurn 0 = some 0 ∧ State.reset.sampleTurn 0 = none := by decide +kernel
theorem wit_EngineEvents_tiles :
    let z : Tracker := { slot := 0, rid := 1#16, rgns := 0, cyc0 := 0, closed := true }
    let s := idleState.updCc 0 fun x => { x with trackers := [(2, z), (3, { z with cmds := 1 })] }
    (s.cc 0).trackers.find 2 = some z ∧ z.batches = [] ∧ z.cmds = 0 ∧ (s.cc 0).trackers.find 4 = none ∧ idleState.leadCore 0 = some 0 ∧
      (idleState.ctx 0).cap.live = false ∧ State.reset.leadCore 0 = none := by decide +kernel
/-- A replay control block at 0x1000 of the given mode, its log at 0x1100, one range of 8 bytes at 0x1080 in the table at 0x1040. -/
def replay (mode : Nat) (digest : Nat) : State :=
  let s := idleState.updCtx 0 fun x => { x with regs := x.regs.set 0x038 0x1000#32 }
  { s with mem := (((s.setMemBytes 0x2000 (leBytes 64 (mode + 0x1100 * 2 ^ 128 + 0x1040 * 2 ^ 256 + 2 ^ 320))).setMemBytes 0x2040
      (leBytes 16 (0x1080 + 8 * 2 ^ 64))).setMemBytes 0x2140 (leBytes 33 digest)).mem }
theorem wit_EngineEvents_replay :
    let ok (m : Nat) : Bool := match (replay m 0).replayBlock 0 0 with
      | some (e, b) => rpMode b == m && (e.digestInput 0 0 b).isSome && rpEntry b 0 == 0x1100#64
      | none => false
    ok 1 = true ∧ ok 2 = true ∧ (idleState.replayBlock 0 0).isNone = true ∧ okAcc ((replay 1 0).vaWrite 0 0 kStore 0x1140#64 (leBytes 33 0)) = true ∧
      okAcc ((replay 2 (2 ^ 256)).vaRead 0 0 kLoad 0x1140#64 33) = true ∧ (idleState.ctx 0).replayStopped = false := by decide +kernel
theorem wit_PowerAndLinkEvents_dies :
    let s := State.reset
    let hot := s.updDie 3 fun x => { x with vfMax := 5#4, vfCur := 9#4, eqPending := [(700, true), (600, true)] }
    (∀ j < 12, (1 : Nat) ≠ budgetKey 3 j) ∧ (0x500#32).toNat / 2 ^ 8 % 16 < (hot.die 3).vfCur.toNat ∧ (s.die 3).vfCur.toNat ≤ (0xF00#32).toNat / 2 ^ 8 % 16 ∧
      (hot.die 3).vfMax.toNat < 6 ∧ 4 ≤ (hot.die 3).vfMax.toNat ∧ (hot.die 3).vfCur.toNat ≠ 4 ∧ 94 < (s.die 3).tlim.toNat ∧ (s.die 3).tlim.toNat ≤ 95 ∧
      (2001 > s.powerLim ∧ 2000 ≤ s.powerLim) ∧ (hot.die 3).eqPending.length = 2 := by decide +kernel
theorem wit_PowerAndLinkEvents_budgets :
    let sum (v : Word) := (List.range 12).foldl (fun m j => m + (if j = 0 then v else (State.reset.die 0).abud.get 0xFFFF0000#32 j).toNat % 2 ^ 16) 0
    sum 0#32 ≤ (Config.budCap 0).toNat ∧ (let t := State.reset.updDie 0 fun x => { x with abud := [(1, 0xFFFFFFFF#32)] }
      (Config.budCap 0).toNat < (List.range 12).foldl (fun m j => m + (if j = 0 then 1#32 else (t.die 0).abud.get 0xFFFF0000#32 j).toNat % 2 ^ 16) 0) := by
  have h : (Config.budCap 0).toNat < 2 ^ 16 := (Config.budCap 0).isLt
  refine ⟨?_, ?_⟩
  · exact le_trans (by decide +kernel : _ ≤ 0) (Nat.zero_le _)
  · exact lt_of_lt_of_le h (by decide +kernel : 2 ^ 16 ≤ _)
theorem wit_PowerAndLinkEvents_links :
    let lost := State.reset.updIo fun x => { x with lostCxl := [9], lostColmet := [11] }
    lost.io.lostCxl.contains 9 = true ∧ State.reset.io.lostCxl.contains 9 = false ∧ lost.io.lostColmet.contains 11 = true ∧
      State.reset.io.lostColmet.contains 11 = false ∧ lost.boot.deadPorts.contains 9 = false ∧ State.reset.stranded = [] := by decide +kernel
theorem wit_PowerAndLinkEvents_restore :
    let z := mcmd 4 0x5B
    let s := { idleState with vigil := { slots := [(9, { owner := some 0 })] } }
    (s.vslot 9).owner = some 0 ∧ (s.vslot 10).owner = none ∧ ((copying id).cc 0).copies.find 5 = some (copy0 id) ∧ (idleState.cc 0).copies.find 5 = none ∧
      ((matrixQ fun m => { m with running := some z }).cc 0).matrix.running = some z ∧ z.num = 4 ∧ z.trackers = [] ∧
      (idleState.cc 0).matrix.running = none ∧ (idleState.cc 0).matrix.frozen = none := by decide +kernel
theorem wit_ManagementEvents_registers :
    let s := State.reset
    s.reaches .host 0x1FFFFC = true ∧ s.reaches .host 2 = false ∧ s.reaches .host 0 = true ∧ s.reaches .host 0x1000 = true ∧
      s.reaches .host 0x10000 = true ∧ s.reaches .host 0x80000 = true ∧ s.io.tlbq.length < 16 ∧
      (s.updIo fun x => { x with tlbq := List.replicate 16 { ctx := 0, va := 0, len := 0, ctr := 0 } }).io.tlbq.length = 16 := by decide +kernel
theorem wit_ManagementEvents_keys :
    let s := State.reset.updIo fun x => { x with keyKid := 5#13, keyWk := 6#13, keys := [(5, 1#512), (6, 2#512)] }
    s.io.keyKid.toNat ≠ 0 ∧ State.reset.io.keyKid.toNat = 0 ∧ s.io.keys.find s.io.keyKid.toNat = some 1#512 ∧ s.io.keys.find s.io.keyWk.toNat = some 2#512 ∧
      s.io.keyWk.toNat ≠ 0 ∧ s.io.keyWk.toNat ≠ s.io.keyKid.toNat ∧ State.reset.io.keys.find 0 = none ∧ (s.dropKid 5).reqs = [] ∧
      (s.dropKid 5).held = [] ∧
      (let back : MemReq := { core := 0, slot := 64, ctx := 0, op := .store, file := .lane, dest := 0, words := 0, back := true,
                              accs := [{ lane := 0, va := 0, pa := 0x5000, size := 4, kid := 5, cache := 1 }] }
       let t := ({ s with reqs := [(2, back)], held := [{ key := 5, ev := .memoryRequestAtHome 2 }] } : State).dropKid 5
       (t.reqs.filter fun q => q.2.writesUnder 5).map Prod.fst = [2] ∧
         (t.held.find? fun q => q.ev = .memoryRequestAtHome 2).isSome = true) := by decide +kernel
theorem wit_ManagementEvents_invalidate :
    let r : TlbReq := { ctx := 0, va := 0x1000#64, len := 0x1000#64, ctr := 0x3000#64 }
    let s : State := idleState.updIo fun x => { x with tlbq := [r] }
    let e : State := ({ s with io := { s.io with tlbq := [] } } : State).dropTlb (State.TlbReq.hits r)
    s.io.tlbq = [r] ∧ (e.physAdd r.ctr 1).isSome = true ∧ e.tlb.length = 2 ∧ (e.physAdd 4#64 1).isNone = true := by decide +kernel
theorem wit_ManagementEvents_pages : 4096 * ((State.reset.devReg64 0x0B0).toNat / 4096) < deviceEnd ∧
    (let s := State.reset.updIo fun x => { x with regs := [(0x0B4, 0x60#32)] }
     deviceEnd ≤ 4096 * ((s.devReg64 0x0B0).toNat / 4096)) := by decide +kernel
theorem wit_ManagementEvents_contexts :
    let done := State.reset.updIo fun x => { x with featDone := true }
    State.reset.io.featDone = false ∧ done.io.featDone = true ∧ (done.ctx 1023).valid = false ∧ (idleState.ctx 0).valid = true ∧
      idleState.hasParts 0 = true ∧ idleState.hasParts 1023 = false ∧ idleState.dbgWarp 0 = none ∧
      (idleState.updWarp 0 0 fun w => w.updTrap fun t => { t with dbgStopped := true }).dbgWarp 0 = some (0, 0) := by decide +kernel
theorem wit_ManagementEvents_boot :
    let s : State := { State.reset with boot := { State.reset.boot with bootsts := 0x80000#32, rmbcmd := 0xFFFF0000#32 } }
    s.recovery = true ∧ State.reset.recovery = false ∧ State.reset.boot.bootsts.getLsbD 18 = State.reset.rmbSlot ∧ s.rmbBlock = 65535 ∧ s.rmbSlot = false ∧
      (let t : State := { s with boot := { s.boot with rmbcmd := 0x100#32 } }
       t.rmbSlot = true ∧ t.rmbBlock = 0) ∧ State.reset.unitOffline (leNat (State.reset.fromRmb 0 4)) = false ∧
      (let t : State := { s with boot := { s.boot with rmb := [(0, 0x20#8)], appOffline := [0] } }
       t.unitOffline (leNat (t.fromRmb 0 4)) = true) := by decide +kernel

/-! ### Witnesses: the machine as a whole -/

theorem wit_RoundTrip : (Instr.icmp 1#2 10#4 7#3 124#7 20#7).isWord = true ∧ (Instr.icmp 1#2 10#4 7#3 124#7 20#7).WellFormed = true := by decide +kernel
/-- The state in which the next step runs the placed unit. -/
def placed (i : Instr) : State := State.reset.withFetchWord 32 (encode i).toNat
def fetched (s : State) : UnitResult :=
  match s.issuing with
  | x :: rest => decodeUnit (State.fetchWord { s with issuing := rest } x.core x.slot x.lanes x.pc) (x.slot = fwSlot)
  | [] => decodeUnit (fun _ => .ok 0) false
theorem wit_StepRunsDecoded :
    let i : Instr := .iadd 0#2 8#7 16#7 24#7
    (placed i).io.powered = true ∧ (placed i).issuing.length = 1 ∧ (match fetched (placed i) with
      | .unit u j => u.rep == none && j == i
      | _ => false) = true ∧ (placed i).agenda = [] ∧
      (match (placed i).issuing with
        | x :: rest => decide (((List.range 1).findSome? (({ placed i with issuing := rest } : State).fetchHold x.core x.slot x.pc)) = none)
        | [] => false) = true ∧
      (match (placed i).issuing with
        | x :: rest => (({ placed i with issuing := rest, hostBias := [1] } : State).fetchHold x.core x.slot x.pc 0).isSome
        | [] => false) = true := by decide +kernel
/-- Two events are posted, of no activity with a guarantee; then the later one is of an activity below its guarantee. -/
theorem wit_StepRunsDecoded_events :
    let s : State := { State.reset with agenda := [.coreAdmission 1, .coreAdmission 2] }
    s.issuing = [] ∧ s.nextEvent = some (.coreAdmission 1, [.coreAdmission 2]) ∧
      s.guaranteed (.coreAdmission 1) = false ∧ s.guaranteed (.coreAdmission 2) = false ∧
      (let t : State := { s with agenda := [.coreAdmission 1, .hostMemRead 0x4040] }
       let t := t.updDie 0 fun x => { x with abud := [(3, 0xFFFF0001#32)] }
       t.guaranteed (.hostMemRead 0x4040) = true ∧ t.nextEvent = some (.hostMemRead 0x4040, [.coreAdmission 1])) := by decide +kernel
/-- A step of the placed word. -/
theorem wit_StepRunsDecoded_runs : (match step (placed (.iadd 0#2 8#7 16#7 24#7)) with
    | .next t => decide ((t.warp 0 0).pend.length = 1 ∧ ((t.warp 0 0).lane 31).pc = 4#32)
    | _ => false) = true := by decide +kernel
theorem wit_StepRunsDecoded_rep :
    let rep : Word := 1#1 ++ 0#2 ++ 0x79#7 ++ 3#6 ++ 6#3 ++ 0#13
    let s := (placed (.nop 0#2)).physWrite 0 0 0 0x1000 (leBytes 8 (rep.toNat + 2 ^ 32 * (encode (.iadd 0#2 8#7 16#7 24#7)).toNat))
    (match fetched s with
      | .unit u j => u.rep == some (4, 6#3) && j == .iadd 0#2 8#7 16#7 24#7 && (decodeWord (stepWord u.word 0 6#3)).toOption == some j
      | _ => false) = true := by decide +kernel
theorem wit_StepRunsDecoded_traps :
    let s (w : Nat) := State.reset.withFetchWord 32 w
    (match fetched (s 0x02400000) with
      | .encoding f => f.reason == .opcode
      | _ => false) = true ∧
    (let t := (s 0).updWarp 0 0 fun w => w
     let t : State := { t with issuing := [{ core := 0, slot := 0, lanes := 1#32, pc := 0x9000#32, mode := 0#32 }] }
     match fetched t with
      | .fetchFault _ => true
      | _ => false) = true := by decide +kernel
theorem wit_MemoryStaysCanonical : Memory.wf State.reset.mem = true ∧ (match step State.reset with
    | .next t => decide (Memory.wf t.mem = true)
    | _ => false) = true := by decide +kernel

/-! ### Every word runs somewhere -/

/-- One term of each of these words is well formed, decodes from its word and runs in the small state. -/
def wordsRun (l : List Instr) : Bool :=
  l.all fun i => i.WellFormed && decide ((decodeWord (encode i)).toOption = some i) && runsIn (begun i) i

theorem wit_Gives_1 : wordsRun [
    .iadd 0#2 8#7 16#7 24#7, .isub 0#2 8#7 16#7 24#7, .imul 0#2 8#7 16#7 24#7, .imulhI32 0#2 8#7 16#7 24#7,
    .imulhN32 0#2 8#7 16#7 24#7, .imad 0#2 8#7 16#7 24#7, .iminI32 0#2 8#7 16#7 24#7, .iminN32 0#2 8#7 16#7 24#7,
    .imaxI32 0#2 8#7 16#7 24#7, .imaxN32 0#2 8#7 16#7 24#7, .iabs 0#2 8#7 16#7, .ineg 0#2 8#7 16#7,
    .iaddi 0#2 8#7 16#7 1#7] = true := by decide +kernel
theorem wit_Gives_2 : wordsRun [
    .imuli 0#2 8#7 16#7 1#7, .icmp 0#2 1#4 1#3 16#7 24#7, .icmpi 0#2 1#4 1#3 16#7 1#7, .mov 0#2 8#7 16#7,
    .movi 0#2 8#7 1#14, .sel 0#2 1#3 8#7 16#7 24#7, .and 0#2 8#7 16#7 24#7, .or 0#2 8#7 16#7 24#7,
    .xor 0#2 8#7 16#7 24#7, .andn 0#2 8#7 16#7 24#7, .not 0#2 8#7 16#7, .andi 0#2 8#7 16#7 1#7,
    .ori 0#2 8#7 16#7 1#7] = true := by decide +kernel
theorem wit_Gives_3 : wordsRun [
    .xori 0#2 8#7 16#7 1#7, .shl 0#2 8#7 16#7 24#7, .shr 0#2 8#7 16#7 24#7, .sar 0#2 8#7 16#7 24#7,
    .rol 0#2 8#7 16#7 24#7, .shli 0#2 8#7 16#7 1#7, .shri 0#2 8#7 16#7 1#7, .sari 0#2 8#7 16#7 1#7,
    .popc 0#2 8#7 16#7, .clz 0#2 8#7 16#7, .ctz 0#2 8#7 16#7, .brev 0#2 8#7 16#7, .bfeN32 0#2 8#7 16#7 24#7] = true := by decide +kernel
theorem wit_Gives_4 : wordsRun [
    .bfeI32 0#2 8#7 16#7 24#7, .bfi 0#2 8#7 16#7 24#7, .fadd 0#2 8#7 16#7 24#7, .fsub 0#2 8#7 16#7 24#7,
    .fmul 0#2 8#7 16#7 24#7, .ffma 0#2 8#7 16#7 24#7, .fmin 0#2 8#7 16#7 24#7, .fmax 0#2 8#7 16#7 24#7,
    .fabs 0#2 8#7 16#7, .fneg 0#2 8#7 16#7, .fcmp 0#2 1#4 1#3 16#7 24#7, .fclass 0#2 8#7 16#7,
    .fcpys 0#2 8#7 16#7 24#7] = true := by decide +kernel
theorem wit_Gives_5 : wordsRun [
    .frnd 0#2 8#7 16#7, .hadd2 0#2 1#1 8#7 16#7 24#7, .hsub2 0#2 1#1 8#7 16#7 24#7, .hmul2 0#2 1#1 8#7 16#7 24#7,
    .hfma2 0#2 1#1 8#7 16#7 24#7, .hmin2 0#2 1#1 8#7 16#7 24#7, .hmax2 0#2 1#1 8#7 16#7 24#7,
    .hdot2 0#2 1#1 8#7 16#7 24#7, .cvt 0#2 8#7 16#7 1#1 1#2 1#4, .cvtx 0#2 8#7 16#7 0#1 0#2 3#4,
    .cvtp 0#2 1#2 8#7 16#7 24#7, .qnt 0#2 8#7 16#7 1#2 1#2, .dqnt 0#2 8#7 16#7 24#7] = true := by decide +kernel
theorem wit_Gives_6 : wordsRun [
    .frcp 0#2 8#7 16#7, .frsq 0#2 8#7 16#7, .fsqrt 0#2 8#7 16#7, .fexp2 0#2 8#7 16#7, .flog2 0#2 8#7 16#7,
    .fsin 0#2 8#7 16#7, .fcos 0#2 8#7 16#7, .ftanh 0#2 8#7 16#7, .ferf 0#2 8#7 16#7, .fsigm 0#2 8#7 16#7,
    .shfl 0#2 1#2 8#7 16#7 24#7, .vote 0#2 1#2 8#7 16#7 24#7, .ballot 0#2 1#2 8#7 16#7 24#7] = true := by decide +kernel
theorem wit_Gives_7 : wordsRun [
    .redx 0#2 1#2 8#7 16#7 24#7, .scan 0#2 1#2 8#7 16#7 24#7, .matchLanes 0#2 1#2 8#7 16#7 24#7,
    .ld 0#2 1#3 8#7 16#7 24#5 1#1 1#1, .st 0#2 1#3 8#7 16#7 24#5 1#1, .atom 0#2 8#7 16#6 1#1 1#4 1#3,
    .cas 0#2 8#7 16#6 1#1 1#3, .caddv 0#2 8#6 1#1 16#6 1#1 24#7, .lds 0#2 1#3 8#7 16#7 1#1 1#6,
    .sts 0#2 1#3 8#7 16#7 1#1 1#6, .atoms 0#2 8#7 16#7 1#4 1#3, .cass 0#2 8#7 16#7 1#3,
    .pref 0#2 1#2 16#7 24#5 1#1] = true := by decide +kernel
theorem wit_Gives_8 : wordsRun [
    .bra 0#2 1#14, .brp 0#2 1#1 1#3 1#14, .call 0#2 1#14, .calli 0#2 16#7, .ret 0#2, .jmpi 0#2 16#7, .rcv 0#2,
    .exit 0#2, .spawn 0#2 16#7 24#7, .yld 0#2, .nop 0#2, .sadd 0#2 8#6 16#6 24#6, .ssub 0#2 8#6 16#6 24#6] = true := by decide +kernel
theorem wit_Gives_9 : wordsRun [
    .smul 0#2 8#6 16#6 24#6, .smulh 0#2 8#6 16#6 24#6 1#1, .sand 0#2 8#6 16#6 24#6, .sor 0#2 8#6 16#6 24#6,
    .sxor 0#2 8#6 16#6 24#6, .sshl 0#2 8#6 16#6 24#6, .sshr 0#2 8#6 16#6 24#6, .ssar 0#2 8#6 16#6 24#6,
    .smin 0#2 8#6 16#6 24#6 1#1, .smax 0#2 8#6 16#6 24#6 1#1, .smov 0#2 8#6 16#6, .smovi 0#2 8#6 1#16,
    .saddi 0#2 8#6 1#16] = true := by decide +kernel
theorem wit_Gives_10 : wordsRun [
    .scmp 0#2 1#2 16#6 24#6 1#4, .ssel 0#2 8#6 16#6 24#6 1#2, .sadd64 0#2 8#6 16#6 24#6,
    .sld 0#2 8#6 16#6 24#6 1#1, .sst 0#2 8#6 16#6 24#6 1#1, .sbra 0#2 1#22, .sbrp 0#2 1#1 1#2 1#16,
    .scall 0#2 1#22, .sret 0#2, .srd 0#2 8#6 1#8, .swr 0#2 8#6 1#8, .cadd 0#2 8#6 16#6 24#6 1#2 1#2,
    .crd 0#2 8#6 16#6 24#6 1#2] = true := by decide +kernel
theorem wit_Gives_11 : wordsRun [
    .cwait 0#2 8#6 16#6 24#6 1#2 1#2, .cpoll 0#2 8#6 3#6 7#6 0#2 1#2, .fence 0#2 1#3 1#2,
    .cmnt 0#2 16#6 24#6 1#2 1#2, .racq 0#2 1#7, .racqNb 0#2 1#7 1#2, .rrel 0#2 1#7, .rnext 0#2 8#6 1#2,
    .launch 0#2 16#6, .cpy 0#2 16#6 1#2, .cpyb 0#2 8#6 16#6 1#3 1#2, .cpyg 0#2 16#6 24#6 1#2,
    .cpys 0#2 16#6 24#6 1#2] = true := by decide +kernel
theorem wit_Gives_12 : wordsRun [
    .cseal 0#2 8#6 16#6 24#6 1#2 1#2, .cwaitb 0#2 24#6, .wdesc 0#2 16#6 24#6, .msignCount 0#2 1#4 1#12,
    .msignReg 0#2 1#4 16#6, .ldw 0#2 16#6, .wswap 0#2, .mma 0#2 8#6 16#6 1#1, .mmat 0#2 8#6 16#6,
    .mperm 0#2 8#6 16#6, .mred 0#2 8#6 16#6, .mrd 0#2 8#6 16#6, .mst 0#2 8#6 16#6] = true := by decide +kernel
theorem wit_Gives_13 : wordsRun [
    .mzero 0#2 8#6, .trap 0#2 1#12, .rft 0#2, .svc 0#2 8#6 16#6, .bkpt 0#2 1#12, .ckpt 0#2,
    .ckptCounter 0#2 16#6 24#6, .rgnent 0#2 16#6, .rgnlve 0#2 16#6, .toksub 0#2 8#6 16#6 24#6,
    .toksubD 0#2 8#6 16#6 24#6, .tokconf 0#2 8#6 16#6 24#6, .tokarm 0#2 16#6 24#6] = true := by decide +kernel

end Sys2Proof.Tests
end

section
/-! PROOFS (02 R27, R28): RCV parks its lanes, and R28 releases parked ones. -/

namespace Sys2Proof.Machine
namespace Warp

theorem getLsbD_lanesIn (w : Warp) (st : LaneState) (l : Nat) :
    (w.lanesIn st).getLsbD l = (decide (l < 32) && decide ((w.lane l).state = st)) := getLsbD_maskOf ..

theorem lanesIn_eq_zero (w : Warp) (st : LaneState) : w.lanesIn st = 0#32 ↔ ∀ l < 32, (w.lane l).state ≠ st := by
  unfold lanesIn
  rw [maskOf_eq_zero, List.filter_eq_nil_iff]
  simp

/-- The lowest of some numbers below `m`: none is lower, and it is one of them. -/
theorem foldl_min_spec (f : Nat → Nat) (ls : List Nat) (m : Nat) :
    let r := ls.foldl (fun m l => min m (f l)) m
    r ≤ m ∧ (∀ l ∈ ls, r ≤ f l) ∧ (r = m ∨ ∃ l ∈ ls, f l = r) := by
  induction ls generalizing m with
  | nil => simp
  | cons a ls ih =>
    obtain ⟨hm, hle, hat⟩ := ih (min m (f a))
    simp only [List.foldl_cons, List.forall_mem_cons, List.exists_mem_cons_iff]
    refine ⟨hm.trans (min_le_left ..), ⟨hm.trans (min_le_right ..), hle⟩, ?_⟩
    rcases hat with h | h
    · rcases min_choice m (f a) with hc | hc
      · exact .inl (h.trans hc)
      · exact .inr (.inl (h.trans hc).symm)
    · exact .inr (.inr h)

/-- R28: a runnable lane keeps the parked ones parked. -/
theorem release_of_runnable (w : Warp) {l : Nat} (hl : l < 32) (h : (w.lane l).state = .runnable) : w.release = w := by
  have hz : w.lanesIn .runnable ≠ 0#32 := fun hz => (lanesIn_eq_zero w _).mp hz l hl h
  simp [release, hz]

/-- R28: with no lane runnable and one parked, the lanes parked at the lowest address go on behind it. -/
theorem release_of_parked (w : Warp) (hr : ∀ l < 32, (w.lane l).state ≠ .runnable)
    (hp : ∃ l < 32, (w.lane l).state = .parked) :
    ∃ b : Word, (∃ l < 32, (w.lane l).state = .parked ∧ (w.lane l).park = b) ∧
      (∀ l < 32, (w.lane l).state = .parked → b.toNat ≤ (w.lane l).park.toNat) ∧
      ∀ l < 32, w.release.lane l = if (w.lane l).state = .parked ∧ (w.lane l).park = b then
        { w.lane l with state := .runnable, pc := b + 4, park := b, waits := 0 } else w.lane l := by
  have hmem : ∀ l, l ∈ lanesOf (w.lanesIn .parked) ↔ l < 32 ∧ (w.lane l).state = .parked := by
    intro l; simp +contextual [mem_lanesOf, getLsbD_lanesIn]
  obtain ⟨_, hle, hat⟩ := foldl_min_spec (fun l => (w.lane l).park.toNat) (lanesOf (w.lanesIn .parked)) (2 ^ 32)
  generalize ha : (lanesOf (w.lanesIn .parked)).foldl (fun m l => min m (w.lane l).park.toNat) (2 ^ 32) = a at hle hat
  obtain ⟨l₀, hl₀, hs₀⟩ := hp
  have hlt : a < 2 ^ 32 := (hle l₀ ((hmem _).mpr ⟨hl₀, hs₀⟩)).trans_lt (w.lane l₀).park.isLt
  obtain ⟨l₁, hl₁, ha₁⟩ := hat.resolve_left hlt.ne
  obtain ⟨hl₁, hs₁⟩ := (hmem _).mp hl₁
  refine ⟨(w.lane l₁).park, ⟨l₁, hl₁, hs₁, rfl⟩, fun l hl hs => ha₁.trans_le (hle l ((hmem l).mpr ⟨hl, hs⟩)), ?_⟩
  intro l hl
  have hnz : w.lanesIn .parked ≠ 0#32 := fun hz => (lanesIn_eq_zero w _).mp hz l₀ hl₀ hs₀
  have hrz : w.lanesIn .runnable = 0#32 := (lanesIn_eq_zero w _).mpr hr
  have heq : (w.lane l).park.toNat = a ↔ (w.lane l).park = (w.lane l₁).park := by
    rw [← ha₁]; exact BitVec.toNat_inj
  have hrel : w.release = w.updLanes (w.lanesIn .parked) fun _ x =>
      if x.park.toNat = a then { x with state := .runnable, pc := x.park + 4, waits := 0 } else x := by
    rw [← ha]; simp [release, hnz, hrz]
  rw [hrel, lane_updLanes, getLsbD_lanesIn]
  by_cases hs : (w.lane l).state = .parked
  · by_cases hb : (w.lane l).park = (w.lane l₁).park
    · rw [if_pos ⟨hl, by simp [hl, hs]⟩, if_pos (heq.mpr hb), if_pos ⟨hs, hb⟩, hb]
    · rw [if_pos ⟨hl, by simp [hl, hs]⟩, if_neg (mt heq.mp hb), if_neg fun h => hb h.2]
  · simp [hs]

theorem release_eq (w : Warp) : w.release = { w with lanes := w.release.lanes } := by
  unfold release
  dsimp only
  split
  · rfl
  · exact updLanes_eq ..
@[simp] theorem release_uni (w : Warp) : w.release.uni = w.uni := by rw [release_eq]

/-- R27: the lanes of a group wait at the address of their RCV. -/
def park (w : Warp) (g : Mask) (pc : Word) : Warp :=
  w.updLanes g fun _ x => { x with state := .parked, park := pc, waits := 0 }

theorem lane_park (w : Warp) (g : Mask) (pc : Word) {l : Nat} (hl : l < 32) :
    (w.park g pc).lane l =
      if g.getLsbD l = true then { w.lane l with state := .parked, park := pc, waits := 0 } else w.lane l := by
  simp [park, hl]

theorem park_eq (w : Warp) (g : Mask) (pc : Word) : w.park g pc = { w with lanes := (w.park g pc).lanes } :=
  updLanes_eq ..
@[simp] theorem park_uni (w : Warp) (g : Mask) (pc : Word) : (w.park g pc).uni = w.uni := updLanes_uni ..

end Warp
namespace State

theorem exec_rcv (sc : BitVec 2) (s : State) : exec (.rcv sc) s = .next (s.issue (.rcv sc) sc fun s =>
    .done (s.updMe fun w => (w.park s.cur.lanes s.cur.pc).release) .stay) := rfl

theorem exists_lane {g : Mask} (h : g ≠ 0#32) : ∃ l < 32, g.getLsbD l = true := by
  by_contra hn
  push Not at hn
  exact h (BitVec.eq_of_getLsbD_eq fun i hi => by simpa using hn i hi)

/-- Completing an instruction that moves its lanes itself leaves every lane as its effect made it. -/
theorem After.lane_stay {e t : State} {sc : BitVec 2} (a : e.After sc none t) {l : Nat} (hl : l < 32) :
    (e.meIn t).lane l = e.me.lane l := by
  by_cases h : e.cur.lanes.getLsbD l = true
  · rw [a.active l hl h]; simp [laneGoes]
  · exact a.otherLanes l (by simpa using h)

/-- Settles O19: RCV parks its lanes and evaluates R28. The lanes of Active are then parked, so which case of R28 holds is
said by the other lanes alone. -/
theorem parkAndRelease : Obligations.ParkAndRelease := by
  intro s sc hrep hlanes active old parkedAt hruns
  let w := s.me.park s.cur.lanes s.cur.pc
  have hw : ∀ l < 32, w.lane l = if active l then { old l with state := .parked, park := s.cur.pc, waits := 0 } else old l :=
    fun l hl => s.me.lane_park _ _ hl
  have hdoes : s.Does (.rcv sc) sc (s.updMe fun w => (w.park s.cur.lanes s.cur.pc).release) none := does (exec_rcv ..) rfl rfl
  obtain ⟨t, ht, a⟩ := hdoes hruns
  have hin : (s.updMe fun w => (w.park s.cur.lanes s.cur.pc).release).meIn t = s.meIn t := by simp [meIn]
  have hlane : ∀ l < 32, (s.meIn t).lane l = w.release.lane l := by
    intro l hl; rw [← hin, a.lane_stay hl, updMe_me]
  have hstate : ∀ l < 32, (w.lane l).state = if active l then .parked else (old l).state := by
    intro l hl; rw [hw l hl]; split <;> rfl
  refine ⟨t, ht, ?_, ?_, ?_, ?_, ?_, ?_⟩
  · rw [a.device, updMe_device]
  · intro c hc
    rw [a.otherCores c (by simpa using hc), updMe_otherCore _ _ c hc]
  · intro k hk
    have := a.otherWarps k (by simpa using hk)
    rwa [updMe_cur, updMe_otherWarp _ _ k hk] at this
  · have := a.warp
    rw [hin] at this
    rw [this, updMe_me, Warp.release_eq, Warp.park_eq]
    simp [repNext, repAfter, hrep]
  · rintro ⟨l, hl, hn, hr⟩
    have hrel : w.release = w := w.release_of_runnable hl (by rw [hstate l hl, if_neg hn, hr])
    intro j hj
    rw [hlane j hj, hrel, hw j hj]
  · intro hnone
    obtain ⟨l₀, hl₀, ha₀⟩ := exists_lane hlanes
    obtain ⟨b, ⟨l₁, hl₁, hp₁, hb₁⟩, hleast, hgo⟩ := w.release_of_parked
      (fun l hl => by
        rw [hstate l hl]; split
        · simp
        · exact hnone l hl ‹_›)
      ⟨l₀, hl₀, by rw [hstate l₀ hl₀, if_pos ha₀]⟩
    have hat : ∀ l < 32, ∀ n, parkedAt l n ↔ (w.lane l).state = .parked ∧ (w.lane l).park.toNat = n := by
      intro l hl n
      rw [hw l hl]
      by_cases h : active l <;> simp [parkedAt, h]
    refine ⟨b, ⟨l₁, hl₁, (hat l₁ hl₁ _).mpr ⟨hp₁, by rw [hb₁]⟩⟩, ?_, ?_⟩
    · intro l hl n h
      obtain ⟨hs, hn⟩ := (hat l hl n).mp h
      exact hn ▸ hleast l hl hs
    · intro l hl
      rw [hlane l hl, hgo l hl]
      have hiff : ((w.lane l).state = .parked ∧ (w.lane l).park = b) ↔ parkedAt l b.toNat := by
        rw [hat l hl, BitVec.toNat_inj]
      by_cases h : parkedAt l b.toNat
      · rw [if_pos (hiff.mpr h), if_pos h, hw l hl]
        split <;> rfl
      · rw [if_neg (mt hiff.mp h), if_neg h, hw l hl]

end State
end Sys2Proof.Machine
end

section
/-! PROOFS (02 R36; 10 R215): what SPAWN leaves, read from the placement of its threads. -/

namespace Sys2Proof.Machine
namespace State

theorem exec_spawn (sc : BitVec 2) (a b : BitVec 7) (s : State) :
    exec (.spawn sc a b) s = .next (s.issue (.spawn sc a b) sc (spawnBody a b)) := rfl

/-- Placing threads changes bins alone: not the running instruction, and not its warp. -/
theorem placeThreads_keeps (s : State) (a b : BitVec 7) (todo : List Nat) :
    (s.placeThreads a b todo).1.cur = s.cur ∧ (s.placeThreads a b todo).1.me = s.me := by
  induction todo generalizing s with
  | nil => exact ⟨rfl, rfl⟩
  | cons l ls ih =>
    unfold placeThreads
    split
    · exact ⟨rfl, rfl⟩
    · dsimp only
      split
      · obtain ⟨h1, h2⟩ := ih (State.post _ _)
        exact ⟨h1, h2.trans (by rw [me, post_cur, warp_post]; exact me_updCc _ _ _ fun _ => rfl)⟩
      · obtain ⟨h1, h2⟩ := ih (State.updCc _ _ _)
        exact ⟨h1, h2.trans (me_updCc _ _ _ fun _ => rfl)⟩

theorem placeThreads_stalls_at (s : State) (a b : BitVec 7) (todo : List Nat) {n : Nat}
    (h : (s.placeThreads a b todo).2 = some n) : n ∈ todo := by
  induction todo generalizing s with
  | nil => simp [placeThreads] at h
  | cons l ls ih =>
    unfold placeThreads at h
    split at h
    · simp at h; simp [h]
    · exact List.mem_cons_of_mem _ (ih _ h)

/-- The first lane of a list stalls where no bin takes its thread. -/
theorem placeThreads_head_stalls (s : State) (a b : BitVec 7) {l : Nat} {ls : List Nat} (hl : l ∉ ls) :
    (s.placeThreads a b (l :: ls)).2 = some l ↔ binFor (s.cc s.cur.core).bins (s.val a.toNat l) = none := by
  unfold placeThreads
  split
  · simp [*]
  · simp only [*]
    constructor
    · intro h; exact absurd (placeThreads_stalls_at _ _ _ _ h) hl
    · simp

/-- SPAWN keeps the stalls of the other groups, and its own where a lane is left. -/
theorem spawnNext_eq {s e : State} (hcur : e.cur = s.cur) (hme : e.me = s.me) (n : Option Nat) :
    e.spawnNext n = e.updMe fun w => { w with sched := { w.sched with
      spawns := (n.map fun l => ⟨s.cur.pc, s.cur.lanes, l⟩).toList ++
        s.me.sched.spawns.filter fun p => !p.of s.cur.pc s.cur.lanes } } := by
  unfold spawnNext
  apply updMe_congr
  rw [hme, hcur]
  cases n <;> rfl

theorem spawnTodo_eq (s : State) : s.spawnTodo =
    (lanesOf s.cur.lanes).filter fun k => !(s.me.sched.spawns.find? fun p => p.of s.cur.pc s.cur.lanes).any
      fun p => p.lanes.getLsbD k && decide (k < p.next) := by
  unfold spawnTodo
  dsimp only
  split
  · rename_i h; simp [h]
  · rename_i h; simp [h]

theorem badTargets_eq_nil {s : State} {a : BitVec 7}
    (h : ∀ k < 32, s.cur.lanes.getLsbD k = true → (s.val a.toNat k).toNat % 4 = 0) : s.badTargets a = [] := by
  unfold badTargets
  rw [List.filter_eq_nil_iff]
  intro k hk
  obtain ⟨hk, hl⟩ := (mem_lanesOf ..).mp hk
  have hz : s.val a.toNat k &&& 3#32 = 0#32 := by
    apply BitVec.eq_of_toNat_eq
    rw [BitVec.toNat_and]
    exact (Nat.and_two_pow_sub_one_eq_mod _ 2).trans (h k hk hl)
  simp [hz]

/-- A running SPAWN is put off where it has stalled before and the lane it stalled at still finds no bin; it goes on
otherwise, as its placement says. -/
theorem spawnBody_eq {s e : State} {a b : BitVec 7} {todo : List Nat} {r : Option Nat} (hbad : s.badTargets a = [])
    (htodo : s.spawnTodo = todo) (hp : s.placeThreads a b todo = (e, r)) :
    s.spawnBody a b =
      if (∃ n, todo.head? = some n ∧ r = some n) ∧
          (s.me.sched.spawns.find? fun p => p.of s.cur.pc s.cur.lanes) ≠ none then .wait s
      else .done ((e.spawnNext r).holdUnit .memory (r.elim todo.length fun n => (todo.takeWhile (· != n)).length))
        (r.elim .fall fun _ => .stay) := by
  have hnodup : todo.Nodup := by rw [← htodo, spawnTodo_eq]; exact (Warp.lanesOf_nodup _).filter _
  have hany : (s.me.sched.spawns.any fun p => p.of s.cur.pc s.cur.lanes) =
      decide ((s.me.sched.spawns.find? fun p => p.of s.cur.pc s.cur.lanes) ≠ none) := by
    rw [Bool.eq_iff_iff]; simp [List.find?_eq_none]
  unfold spawnBody
  rw [hbad]
  dsimp only
  rw [htodo, hp, hany]
  clear htodo
  cases todo with
  | nil => cases hp; simp
  | cons l ls =>
    have hhead := placeThreads_head_stalls s a b (List.nodup_cons.mp hnodup).1
    rw [hp] at hhead
    have hwaits : (∃ n, (l :: ls).head? = some n ∧ r = some n) ↔
        (binFor (s.cc s.cur.core).bins (s.val a.toNat l)).isNone = true := by
      rw [Option.isNone_iff_eq_none, ← hhead]; simp
    by_cases h : (∃ n, (l :: ls).head? = some n ∧ r = some n) ∧
        (s.me.sched.spawns.find? fun p => p.of s.cur.pc s.cur.lanes) ≠ none
    · rw [if_pos h]
      exact if_pos (Bool.and_eq_true_iff.mpr ⟨hwaits.mp h.1, decide_eq_true h.2⟩)
    · rw [if_neg h]
      refine (if_neg fun hb => h ?_).trans (by cases r <;> rfl)
      obtain ⟨h1, h2⟩ := Bool.and_eq_true_iff.mp hb
      exact ⟨hwaits.mpr h1, of_decide_eq_true h2⟩

theorem addThread_first {y : SpawnBin} (h : y.threads = []) (entry arg : Word) (t period : Nat) :
    addThread y entry arg t period = { entry := entry, threads := [(arg, t)], period := period } := by
  simp [addThread, h]

theorem addThread_threads (y : SpawnBin) (entry arg : Word) (t period : Nat) :
    (addThread y entry arg t period).threads = y.threads ++ [(arg, t)] := by
  unfold addThread
  split
  · rename_i h; simp [List.isEmpty_iff.mp h]
  · rfl

/-- One thread that finds a bin: it goes behind the bin's threads, and the other bins stay as they are. -/
theorem placeThreads_one (s : State) (a b : BitVec 7) {l n : Nat}
    (h : binFor (s.cc s.cur.core).bins (s.val a.toNat l) = some n) :
    ∃ e, s.placeThreads a b [l] = (e, none) ∧ e.me = s.me ∧
      (e.cc s.cur.core).bins = (s.cc s.cur.core).bins.upd {} n fun y =>
        addThread y (s.val a.toNat l) (s.val b.toNat l) s.me.team s.cur.spntmr.toNat := by
  refine ⟨_, Prod.ext rfl ?_, (placeThreads_keeps s a b [l]).2, ?_⟩
  · simp [placeThreads, h]
  · simp only [placeThreads, h]
    split <;> simp

/-- A SPAWN that is not put off holds the memory port a cycle for each thread placed, and stays with the number of the
lane that finds no bin, or goes on. -/
theorem spawn_does {s e : State} {a b : BitVec 7} {todo : List Nat} {r : Option Nat} (sc : BitVec 2)
    (hbad : s.badTargets a = []) (htodo : s.spawnTodo = todo) (hp : s.placeThreads a b todo = (e, r))
    (hgo : ¬((∃ n, todo.head? = some n ∧ r = some n) ∧
      (s.me.sched.spawns.find? fun p => p.of s.cur.pc s.cur.lanes) ≠ none)) :
    s.Does (.spawn sc a b) sc
      ((e.updMe fun w => { w with sched := { w.sched with
        spawns := (r.map fun l => ⟨s.cur.pc, s.cur.lanes, l⟩).toList ++
          s.me.sched.spawns.filter fun p => !p.of s.cur.pc s.cur.lanes } }).holdUnit .memory
        (r.elim todo.length fun n => (todo.takeWhile (· != n)).length))
      (s.flowPc (r.elim .fall fun _ => .stay)) := by
  obtain ⟨hcur, hme⟩ : e.cur = s.cur ∧ e.me = s.me := by simpa [hp] using placeThreads_keeps s a b todo
  rw [← spawnNext_eq hcur hme]
  refine does (exec_spawn sc a b s) ((spawnBody_eq hbad htodo hp).trans (if_neg hgo)) ?_
  have hc : ∀ n, ((e.spawnNext r).holdUnit .memory n).cur = s.cur := by
    intro n; rw [spawnNext_eq hcur hme]; simp [holdUnit, hcur]
  cases r <;> simp [flowPc, fallThrough, hc]

/-- Settles O21: what SPAWN leaves is read from its placement (`spawn_does`, `spawnBody_eq`), and the placement of one thread
from the bin that takes it (`placeThreads_one`). -/
theorem spawnPlaces : Obligations.SpawnPlaces := by
  intro s sc a b todo stall others halign htodo
  have hbad := badTargets_eq_nil halign
  have htd : s.spawnTodo = todo := (spawnTodo_eq s).trans htodo
  refine ⟨?_, ?_, ?_, ?_⟩
  · intro e hp
    exact spawn_does sc hbad htd hp (by simp)
  · intro e n hp hfirst
    refine spawn_does sc hbad htd hp ?_
    rintro ⟨⟨m, hm, h⟩, hst⟩
    cases h
    exact hfirst.elim (· hm) hst
  · intro e n hp hhead hstall hruns
    exact exec_wait (exec_spawn ..) hruns ((spawnBody_eq hbad htd hp).trans (if_pos ⟨⟨n, hhead, rfl⟩, hstall⟩))
  · rintro l n y hbin rfl
    obtain ⟨e, hp, hme, hbins⟩ := placeThreads_one s a b hbin
    refine ⟨e, hp, hme, ?_, ?_, ?_⟩
    · rw [hbins, Map.get_upd, if_pos rfl]
      exact addThread_threads ..
    · intro hy
      rw [hbins, Map.get_upd, if_pos rfl, addThread_first hy]
      exact ⟨rfl, rfl⟩
    · intro m hm; rw [hbins, Map.get_upd, if_neg hm]

end State
end Sys2Proof.Machine
end

section
/-! PROOFS (02 R24; 08 R141, R154; 13 R289): what one step does around the meaning of an instruction or event. -/

namespace Sys2Proof.Machine
namespace State

/-- The running instruction and every warp are as they were. -/
def SameWarps (s t : State) : Prop := t.cur = s.cur ∧ ∀ c k, t.warp c k = s.warp c k

namespace SameWarps
theorem refl (s : State) : SameWarps s s := ⟨rfl, fun _ _ => rfl⟩
theorem trans {s t u : State} (h : SameWarps s t) (g : SameWarps t u) : SameWarps s u :=
  ⟨g.1.trans h.1, fun c k => (g.2 c k).trans (h.2 c k)⟩
theorem foldl {α : Type} (f : State → α → State) (H : ∀ s x, SameWarps s (f s x)) (l : List α) (s : State) :
    SameWarps s (l.foldl f s) := by
  induction l generalizing s with
  | nil => exact refl s
  | cons a l ih => exact (H s a).trans (ih _)
theorem of_memStep {s t : State} (h : MemStep s t) : SameWarps s t := ⟨h.cur, h.warp⟩
theorem of_recStep {s t : State} (h : RecStep s t) : SameWarps s t := ⟨h.cur, h.warp⟩
end SameWarps

theorem codeUnit_memStep (s : State) (c kid pa : Nat) : MemStep s (s.codeUnit c kid pa).1 := by
  unfold codeUnit
  exact physRead_memStep ..

/-- Keeping a fetch unit in the instruction cache changes no warp (21 R387). -/
theorem keepCode_sameWarps (s : State) (c k : Nat) (pc : Word) (n : Nat) : SameWarps s (s.keepCode c k pc n) := by
  have hput : ∀ (u : State) (kid pa : Nat) (f : Core → Core), (∀ x, (f x).cc = x.cc ∧ (f x).fw = x.fw ∧ (f x).cyc = x.cyc) →
      SameWarps u ((u.codeUnit c kid pa).1.updCore c f) := fun u kid pa f hf =>
    (SameWarps.of_memStep (codeUnit_memStep u c kid pa)).trans (.of_recStep (updCore_recStep _ _ _ hf))
  unfold keepCode
  dsimp only
  split
  · exact .refl s
  · generalize hu : s.coreWalk _ _ _ = u
    have hwalk : SameWarps s u := hu ▸ .of_memStep (coreWalk_memStep ..)
    refine hwalk.trans ?_
    split
    · exact .refl _
    · split
      · exact hput _ _ _ _ fun _ => ⟨rfl, rfl, rfl⟩
      · exact (SameWarps.of_memStep (fresh_memStep _)).trans (hput _ _ _ _ fun _ => ⟨rfl, rfl, rfl⟩)

/-- An issue counts and keeps its unit; only its lanes' wait counts change in a warp. -/
theorem issued_sameWarps (s : State) : SameWarps s.clearWaits s.issued := by
  unfold issued
  dsimp only
  refine SameWarps.trans ?_ (SameWarps.foldl _ (fun _ _ => keepCode_sameWarps ..) _ _)
  have h1 := SameWarps.of_recStep (countEv_recStep s.clearWaits s.cur.core (if s.cur.word.getLsbD 31 then 3 else 2) 1)
  split
  · exact h1.trans (.of_recStep (countEv_recStep ..))
  · exact h1

theorem clearWaits_cur (s : State) : s.clearWaits.cur = s.cur := by
  unfold clearWaits; split <;> simp

/-- The lanes that wait no more are changed in their wait counts alone. -/
theorem warp_clearWaits (s : State) (c k : Nat) :
    s.clearWaits.warp c k = { s.warp c k with lanes := (s.clearWaits.warp c k).lanes } ∧
    ∀ l, (s.clearWaits.warp c k).lane l = { (s.warp c k).lane l with waits := ((s.clearWaits.warp c k).lane l).waits } := by
  unfold clearWaits
  split
  · unfold updMe
    rw [warp_updWarp]
    split
    · obtain ⟨rfl, rfl⟩ := ‹c = _ ∧ k = _›
      refine ⟨Warp.updLanes_eq .., fun l => ?_⟩
      rw [Warp.lane_updLanes]
      split <;> rfl
    · exact ⟨rfl, fun _ => rfl⟩
  · exact ⟨rfl, fun _ => rfl⟩

/-! ### The next posted event (13 R289) -/

theorem nextEvent_nil {s : State} (h : s.agenda = []) : s.nextEvent = none := by
  simp [nextEvent, h]

/-- The oldest event below its guarantee comes before all. -/
theorem nextEvent_guaranteed {s : State} {p q : List Instr} {i : Instr} (h : s.agenda = p ++ i :: q)
    (hp : ∀ y ∈ p, s.guaranteed y = false) (hi : s.guaranteed i = true) : s.nextEvent = some (i, p ++ q) := by
  have hip : i ∉ p := fun hm => by simp [hp i hm] at hi
  have hfind : (p ++ i :: q).find? s.guaranteed = some i := by
    rw [List.find?_append, List.find?_eq_none.mpr (by simpa using hp)]; simp [hi]
  rw [nextEvent, h, hfind]
  simp [List.erase_append_right _ hip]

/-- With none below its guarantee, the oldest event is next. -/
theorem nextEvent_oldest {s : State} {q : List Instr} {i : Instr} (h : s.agenda = i :: q)
    (hn : ∀ y ∈ s.agenda, s.guaranteed y = false) : s.nextEvent = some (i, q) := by
  have hfind : s.agenda.find? s.guaranteed = none := List.find?_eq_none.mpr (by simpa using hn)
  rw [nextEvent, hfind, h]

/-! ### The unit at a group's PC (08 R141, R154) -/

section
variable {s : State} {c k : Nat} {g : Mask} {pc : Word} {u : CodeUnit} {i : Instr}

/-- The issue of a group's unit, with the word that it runs. -/
def unitIssue (c k : Nat) (g : Mask) (pc mode : Word) (u : CodeUnit) (w : Word) : Issue :=
  { core := c, slot := k, lanes := g, pc := pc, mode := mode, word := w, pos := u.pos, lit := u.lit, rep := u.rep }

theorem choose_run (mode : Word) (hd : decodeUnit (s.fetchWord c k g pc) (k = fwSlot) = .unit u i) (hr : u.rep = none) :
    s.choose c k g pc mode = .run (unitIssue c k g pc mode u u.word) i := by
  unfold choose unitIssue
  rw [hd]; dsimp only
  rw [hr]

variable {n : Nat} {m : BitVec 3}

theorem choose_skip (mode : Word) (hd : decodeUnit (s.fetchWord c k g pc) (k = fwSlot) = .unit u i)
    (hr : u.rep = some (n, m)) (hk : n ≤ (s.warp c k).uni.repIdx) :
    s.choose c k g pc mode = .skip (unitIssue c k g pc mode u u.word) := by
  unfold choose unitIssue
  rw [hd]; dsimp only
  rw [hr]; dsimp only
  rw [if_pos hk]

theorem choose_repeat (mode : Word) (hd : decodeUnit (s.fetchWord c k g pc) (k = fwSlot) = .unit u i)
    (hr : u.rep = some (n, m)) (hk : (s.warp c k).uni.repIdx < n) {j : Instr}
    (hj : decodeWord (stepWord u.word (s.warp c k).uni.repIdx m) = .ok j) :
    s.choose c k g pc mode = .run (unitIssue c k g pc mode u (stepWord u.word (s.warp c k).uni.repIdx m)) j := by
  unfold choose unitIssue
  rw [hd]; dsimp only
  rw [hr]; dsimp only
  rw [if_neg (Nat.not_le.mpr hk), hj]

theorem choose_badRepeat (mode : Word) (hd : decodeUnit (s.fetchWord c k g pc) (k = fwSlot) = .unit u i)
    (hr : u.rep = some (n, m)) (hk : (s.warp c k).uni.repIdx < n) {r : EncReason}
    (he : decodeWord (stepWord u.word (s.warp c k).uni.repIdx m) = .error r) :
    s.choose c k g pc mode = .trap { group := grpEncoding, code := r.code * 256 + u.pos, async := false, lv := false, lane := 0
                                     t1 := stepWord u.word (s.warp c k).uni.repIdx m, t2 := 0, epc := pc } := by
  unfold choose
  rw [hd]; dsimp only
  rw [hr]; dsimp only
  rw [if_neg (Nat.not_le.mpr hk), he]

end

end State

/-! ### One step (02 R24; 08 R141) -/

section
variable {s : State} {x : IssueSlot} {rest : List IssueSlot}

theorem step_powered_off (h : s.io.powered = false) : step s = .next s := by simp [step, h]

theorem step_issuing (hp : s.io.powered = true) (h : s.issuing = x :: rest) : step s = stepIssue s x rest := by
  simp [step, hp, h]

/-- What the group that issues finds at its PC. -/
def State.chosen (s : State) (x : IssueSlot) (rest : List IssueSlot) : Chosen :=
  (s.beginIssue x rest).choose x.core x.slot x.lanes x.pc x.mode

/-- What its fetch waits for. -/
def State.chosenWaits (s : State) (x : IssueSlot) (rest : List IssueSlot) : Option Nat :=
  (s.beginIssue x rest).fetchWait x.core x.slot x.pc (s.chosen x rest)

theorem stepIssue_held {key : Nat} (h : s.chosenWaits x rest = some key) :
    stepIssue s x rest = .next ((s.beginIssue x rest).snoop key false).putOff := by
  simp only [State.chosenWaits, State.chosen] at h
  simp only [stepIssue, h]

theorem stepIssue_trap {t : TrapInfo} (hw : s.chosenWaits x rest = none) (hc : s.chosen x rest = .trap t) :
    stepIssue s x rest = .next ((s.beginIssue x rest).trapUnit t) := by
  simp only [State.chosenWaits, State.chosen] at hw hc
  rw [hc] at hw
  simp only [stepIssue, hw, hc]

theorem stepIssue_skip {iss : Issue} (hw : s.chosenWaits x rest = none) (hc : s.chosen x rest = .skip iss) :
    stepIssue s x rest = .next ((s.beginIssue x rest).withUnit iss).skipUnit := by
  simp only [State.chosenWaits, State.chosen] at hw hc
  rw [hc] at hw
  simp only [stepIssue, hw, hc]

theorem stepIssue_run {iss : Issue} {i : Instr} (hw : s.chosenWaits x rest = none) (hc : s.chosen x rest = .run iss i) :
    stepIssue s x rest = ((s.beginIssue x rest).withUnit iss).afterIssue
      (exec i ((s.beginIssue x rest).withUnit iss).beginWork) := by
  simp only [State.chosenWaits, State.chosen] at hw hc
  rw [hc] at hw
  simp only [stepIssue, hw, hc]

theorem step_event {i : Instr} {es : List Instr} (hp : s.io.powered = true) (hi : s.issuing = [])
    (hn : s.nextEvent = some (i, es)) (hnow : s.eventNow.1 = true) :
    step s = State.afterEvent { s with agenda := es, free := s.free + 1 } i
      (exec i { s with agenda := es, free := s.free + 1 }) := by
  have hev : s.eventNow = (true, s.fresh.2) := Prod.ext hnow rfl
  have htake : ({ s.fresh.2 with agenda := es } : State) = { s with agenda := es, free := s.free + 1 } := rfl
  have hstep : step s = stepEvent s.fresh.2 i es := by simp only [step, hp, hi, hn, hev]; rfl
  rw [hstep, stepEvent, htake]

theorem step_quad_first {i : Instr} {es : List Instr} (hp : s.io.powered = true) (hi : s.issuing = [])
    (hn : s.nextEvent = some (i, es)) (hnow : ¬ s.eventNow.1 = true) :
    step s = State.afterEvent { s.advanceTurn with free := s.free + 1 } (.quadIssueCycle s.turnCore s.turnQuad)
      (exec (.quadIssueCycle s.turnCore s.turnQuad) { s.advanceTurn with free := s.free + 1 }) := by
  have hev : s.eventNow = (false, s.fresh.2) := Prod.ext (by simpa using hnow) rfl
  have hadv : s.fresh.2.advanceTurn = { s.advanceTurn with free := s.free + 1 } := rfl
  have hstep : step s = stepQuad s.fresh.2 := by simp only [step, hp, hi, hn, hev]; rfl
  rw [hstep, stepQuad, hadv, State.fresh_turnCore, State.fresh_turnQuad]

theorem step_quad (hp : s.io.powered = true) (hi : s.issuing = []) (hn : s.nextEvent = none) :
    step s = s.advanceTurn.afterEvent (.quadIssueCycle s.turnCore s.turnQuad)
      (exec (.quadIssueCycle s.turnCore s.turnQuad) s.advanceTurn) := by
  simp only [step, hp, hi, hn]; rfl

end

/-- Settles O58: an issue by what its group finds (`stepIssue_trap`, `_skip`, `_run`) or waits for (`stepIssue_held`), with the
unit's cases from the decoder; an event by the choice of the next one. -/
theorem stepRunsDecoded : Obligations.StepRunsDecoded := by
  intro s
  refine ⟨step_powered_off, ?_, rfl, fun _ => rfl, ⟨(State.issued_sameWarps s).1.trans (State.clearWaits_cur s), ?_⟩,
    State.nextEvent_nil, ?_, ?_⟩
  · intro hp x rest hiss e at_ trap fetched runs
    have hstep : step s = stepIssue s x rest := step_issuing hp hiss
    have hfetched : ∀ (n : Nat) (p : Prop), s.chosenWaits x rest = (List.range n).findSome? (e.fetchHold x.core x.slot x.pc) →
        (s.chosenWaits x rest = none → p) → fetched n p := by
      intro n p hw h
      simp only [fetched]
      split
      · rename_i key hkey
        rw [hstep, stepIssue_held (hw.trans hkey)]; rfl
      · rename_i hkey
        exact h (hw.trans hkey)
    have htrap : ∀ t, s.chosen x rest = .trap t → fetched 1 (step s = .next (e.trapUnit t)) := by
      intro t hc
      refine hfetched 1 _ (by rw [State.chosenWaits, hc]; rfl) fun hw => ?_
      rw [hstep, stepIssue_trap hw hc]; rfl
    have hskip : ∀ iss : Issue, s.chosen x rest = .skip iss →
        fetched (iss.pos + 1) (step s = .next ((s.beginIssue x rest).withUnit iss).skipUnit) := by
      intro iss hc
      refine hfetched _ _ (by rw [State.chosenWaits, hc]; rfl) fun hw => ?_
      rw [hstep, stepIssue_skip hw hc]
    have hrun : ∀ (iss : Issue) (i : Instr), s.chosen x rest = .run iss i →
        fetched (iss.pos + 1) (runs ((s.beginIssue x rest).withUnit iss) i) := by
      intro iss i hc
      refine hfetched _ _ (by rw [State.chosenWaits, hc]; rfl) fun hw => ?_
      have hexec := hstep.trans (stepIssue_run hw hc)
      refine ⟨fun t ht => ?_, fun f hf => ?_, fun r hr => ?_⟩
      · rw [hexec, ht]; rfl
      · rw [hexec, hf]; rfl
      · rw [hexec, hr]; rfl
    have hchosen : s.chosen x rest = e.choose x.core x.slot x.lanes x.pc x.mode := rfl
    split
    · rename_i t hd
      exact htrap t (by rw [hchosen]; simp only [State.choose, hd])
    · rename_i w hd
      exact htrap _ (by rw [hchosen]; simp only [State.choose, hd]; rfl)
    · rename_i f hd
      exact htrap _ (by rw [hchosen]; simp only [State.choose, hd]; rfl)
    · rename_i u i hd
      split
      · rename_i hr
        exact hrun _ i (State.choose_run x.mode hd hr)
      · rename_i n m hr
        refine ⟨fun hk => ?_, fun j hk hj => ?_, fun r hk he => ?_⟩
        · exact hskip _ (State.choose_skip x.mode hd hr hk)
        · exact hrun _ j (State.choose_repeat x.mode hd hr hk hj)
        · exact htrap _ (State.choose_badRepeat x.mode hd hr hk he)
  · intro c k
    rw [(State.issued_sameWarps s).2]
    exact State.warp_clearWaits s c k
  · rintro p i q h hlow (hi | ⟨rfl, hq⟩)
    · exact State.nextEvent_guaranteed h hlow hi
    · by_cases hi : s.guaranteed i = true
      · exact State.nextEvent_guaranteed h hlow hi
      · refine State.nextEvent_oldest h ?_
        simpa [h, hi] using hq
  · intro hp hiss goes quad
    have hgoes : ∀ b i, step s = b.afterEvent i (exec i b) → goes b i := by
      intro b i h
      refine ⟨fun t ht => ?_, fun f hf => ?_, fun r hr => ?_⟩
      · rw [h, ht]; rfl
      · rw [h, hf]; rfl
      · rw [h, hr]; rfl
    refine ⟨fun i rest hnext => ?_, fun hnext => ?_⟩
    · split
      · exact hgoes _ _ (step_event hp hiss hnext ‹_›)
      · exact hgoes _ _ (step_quad_first hp hiss hnext ‹_›)
    · exact hgoes _ _ (step_quad hp hiss hnext)

end Sys2Proof.Machine
end

section
/-! PROOFS (02 R37, R38, R41; 13 R277, R280 to R282): what the events of spawn bins, of admission and of a descriptor leave,
one equation for each case of an event. -/

namespace Sys2Proof

theorem Map.find_append {α : Type} (m m' : Map α) (n : Nat) : Map.find (m ++ m') n = (Map.find m n).or (Map.find m' n) := by
  induction m with
  | nil => rfl
  | cons e m ih =>
    obtain ⟨k, y⟩ := e
    simp only [List.cons_append, Map.find]
    split
    · rfl
    · exact ih

/-- A map that lists the keys below `n` in order. -/
theorem Map.find_map_range {α : Type} (g : Nat → α) (n j : Nat) :
    Map.find ((List.range n).map fun l => (l, g l)) j = if j < n then some (g j) else none := by
  induction n with
  | zero => rfl
  | succ n ih =>
    rw [List.range_succ, List.map_append, Map.find_append, ih]
    rcases Nat.lt_trichotomy j n with h | h | h
    · simp [h, h.trans n.lt_succ_self]
    · simp [h, Map.find]
    · simp [h.not_gt, h.ne, Map.find, show ¬ j < n + 1 by omega]

end Sys2Proof

namespace Sys2Proof.Machine.State

/-! ### Events of a core that exists (01 R11) -/

theorem exec_spawnBinTimerExpiry {c : Nat} (h : coreOk c = true) (b : Nat) (s : State) :
    exec (.spawnBinTimerExpiry c b) s = .next (s.binExpires c b) := by
  show execSpawnBinTimerExpiry c b s = _
  simp [execSpawnBinTimerExpiry, h]
theorem exec_spawnBinLaunch {c : Nat} (h : coreOk c = true) (b : Nat) (s : State) :
    exec (.spawnBinLaunch c b) s = .next (s.binLaunch c b) := by
  show execSpawnBinLaunch c b s = _
  simp [execSpawnBinLaunch, h]
theorem exec_coreAdmission {c : Nat} (h : coreOk c = true) (s : State) :
    exec (.coreAdmission c) s = .next (s.admitWork c) := by
  show execCoreAdmission c s = _
  simp [execCoreAdmission, h]
theorem exec_launchDescriptorTake {agent : Nat} (h : agent < 32) (ctx addr : Nat) (d : Block) (s : State) :
    exec (.launchDescriptorTake agent ctx addr d) s = .next (s.descriptorTake agent ctx addr d) := by
  have hc : coreOk (agentCore agent) = true := by simp [coreOk, agentCore, show agent < 1024 by omega]; omega
  show execLaunchDescriptorTake agent ctx addr d s = _
  rw [execLaunchDescriptorTake, if_neg (by simp [hc]; omega)]

/-! ### Spawn bins (02 R37, R38) -/

section
variable {s : State} {c b : Nat} {x : SpawnBin} (hx : (s.cc c).bins.find b = some x)
include hx

theorem binExpires_run (ht : x.threads ≠ []) (he : x.period ≤ x.elapsed) : s.binExpires c b =
    (s.updCc c fun y => { y with bins := y.bins.set b { x with expired := true } }).post (.coreAdmission c) := by
  simp [binExpires, hx, ht, Nat.not_lt.mpr he]

theorem binExpires_early (h : x.threads = [] ∨ x.elapsed < x.period) : s.binExpires c b = s := by
  simp only [binExpires, hx]
  rw [if_pos (by simpa using h)]

theorem binReady_of_place {tm wid : Nat} {m : Team} (hp : s.binPlace c b = some (tm, m, wid)) :
    s.binReady c b = (!s.gangWaits c tm && (decide (32 ≤ x.threads.length) || x.expired)) := by
  unfold binPlace at hp
  dsimp only at hp
  rw [hx] at hp
  cases ht : x.threads with
  | nil => simp [ht] at hp
  | cons e es =>
    obtain ⟨a, t⟩ := e
    have htm : t = tm := by
      simp only [ht, Option.bind_some, List.head?_cons] at hp
      split at hp
      · cases hp
      · split at hp
        · cases hp
        · obtain ⟨i, -, hi⟩ := Option.map_eq_some_iff.mp hp
          exact (Prod.mk.inj hi).1
    simp [binReady, hx, ht, htm]

theorem binLaunch_notReady (h : x.threads = [] ∨ (x.threads.length < 32 ∧ x.expired = false)) : s.binLaunch c b = s := by
  have hr : s.binReady c b = false := by
    simp only [binReady, hx]
    rcases h with h | ⟨h1, h2⟩
    · simp [h]
    · simp [h2, Nat.not_le.mpr h1]
  unfold binLaunch
  split
  · simp [hr]
  · rfl

end

/-- The state in which a bin's warp has been admitted, its registers set and its bin emptied. -/
def binWarp (s : State) (c b : Nat) (x : SpawnBin) (t : Nat) (m : Team) (wid k : Nat) : State :=
  let d := (s.launch m.launch).desc
  let lanes := (List.range 32).map fun j =>
    (j, if j < x.threads.length then ({ state := .runnable, pc := x.entry } : Lane) else {})
  let u := (s.admitted c).addWarp c k t wid d lanes
  let v := ({ u with free := u.free + 4096 } : State).updWarp c k fun w => { w with
    lreg := spawnRegs u.free (ldBlocks d) (x.threads.map Prod.fst)
    preds := (List.range 8).map fun i => (i, Config.freeWord (u.free + 4000 + i)) }
  v.updCc c fun y => { y with bins := y.bins.del b }

section
variable {s : State} {c b tm wid k : Nat} {x : SpawnBin} {m : Team} (hx : (s.cc c).bins.find b = some x)
  (hp : s.binPlace c b = some (tm, m, wid)) (hk : s.freeSlot c = some k) (hr : s.binReady c b = true)
  (hrun : s.coreRuns c = true)
include hx hp hk hr hrun

theorem binLaunch_later (h : s.mayAdmit c = false) : s.binLaunch c b = s.postAfter c 1 (.coreAdmission c) := by
  simp [binLaunch, hx, hp, hk, hr, hrun, h]

theorem binLaunch_now (h : s.mayAdmit c = true) : s.binLaunch c b = s.binWarp c b x tm m wid k := by
  simp only [binLaunch, hx, hp, hk, hr, hrun, h]
  rfl

end

/-- The argument of a thread reaches v0 of its lane (02 R37). -/
theorem spawnRegs_v0 (free : Nat) {blocks : Nat} (hb : 1 ≤ blocks) {args : List Word} {j : Nat} (hj : j < 32) {a : Word}
    (ha : args[j]? = some a) : (spawnRegs free blocks args).find j = some a := by
  obtain ⟨n, hn⟩ : ∃ n, 16 * blocks = n + 1 := ⟨16 * blocks - 1, by omega⟩
  unfold spawnRegs
  rw [hn, List.range_succ_eq_map (n := n)]
  simp only [List.cons_append, List.flatMap_cons, Nat.mul_zero, Nat.zero_add]
  rw [Map.find_append, Map.find_map_range, if_pos hj, ha]
  rfl

theorem addWarp_otherWarp (s : State) (c t wid : Nat) (d : Block) (lanes : Map Lane) {j k : Nat} (h : j ≠ k) :
    (s.addWarp c k t wid d lanes).warp c j = s.warp c j := by
  simp [addWarp, warp, cc, h, Map.get_eq_find]

theorem addWarp_ownWarp (s : State) (c t wid : Nat) (d : Block) (lanes : Map Lane) {k : Nat} (hk : k ≠ fwSlot) :
    ∃ w : Warp, (s.addWarp c k t wid d lanes).warp c k = w ∧ w.ctx = (s.cc c).ctx ∧ w.team = t ∧ w.wid = wid ∧ w.lanes = lanes := by
  refine ⟨_, rfl, ?_⟩
  simp [addWarp, warp, cc, hk]

section
variable (s : State) (c b tm wid : Nat) (x : SpawnBin) (m : Team)

theorem binWarp_bins (k : Nat) : ((s.binWarp c b x tm m wid k).cc c).bins.find b = none := by
  simp [binWarp]

theorem binWarp_mem (k : Nat) : (s.binWarp c b x tm m wid k).mem = s.mem := by
  simp [binWarp, addWarp, admitted]

theorem admitted_warp (j : Nat) : (s.admitted c).warp c j = s.warp c j := by
  simp [admitted, warp, cc]

theorem binWarp_otherWarp {j k : Nat} (h : j ≠ k) : (s.binWarp c b x tm m wid k).warp c j = s.warp c j := by
  unfold binWarp
  rw [warp_updCc, warp_updWarp, if_neg (by simp [h])]
  · exact (addWarp_otherWarp _ _ _ _ _ _ h).trans (admitted_warp ..)
  · intro _; rfl

/-- The warp that a bin launches: its threads in order, each lane with its argument in v0. -/
theorem binWarp_ownWarp {k : Nat} (hk : k ≠ fwSlot) :
    let w := (s.binWarp c b x tm m wid k).warp c k
    w.wid = wid ∧ w.team = tm ∧ w.ctx = (s.cc c).ctx ∧
    (∀ j < 32, w.lane j = if j < x.threads.length then { state := .runnable, pc := x.entry } else {}) ∧
    ∃ free, w.lreg = spawnRegs free (ldBlocks (s.launch m.launch).desc) (x.threads.map Prod.fst) := by
  obtain ⟨w, hw, hctx, hteam, hwid, hlanes⟩ := (s.admitted c).addWarp_ownWarp c tm wid (s.launch m.launch).desc
    ((List.range 32).map fun j => (j, if j < x.threads.length then ({ state := .runnable, pc := x.entry } : Lane) else {})) hk
  have hown : (s.binWarp c b x tm m wid k).warp c k = { w with
      lreg := spawnRegs s.free (ldBlocks (s.launch m.launch).desc) (x.threads.map Prod.fst)
      preds := (List.range 8).map fun i => (i, Config.freeWord (s.free + 4000 + i)) } := by
    unfold binWarp
    rw [warp_updCc, warp_updWarp, if_pos ⟨rfl, rfl⟩, ← hw]
    · rfl
    · intro _; rfl
  dsimp only
  rw [hown]
  refine ⟨hwid, hteam, by rw [hctx]; simp [admitted, cc], fun j hj => ?_, s.free, rfl⟩
  simp only [Warp.lane, hlanes, Map.get_eq_find, Map.find_map_range, if_pos hj, Option.getD_some]

end

/-! ### Admission (13 R280; 02 R41) -/

/-- A core that has admitted asks again in its next cycle. -/
def admitAgain (t : State) (c : Nat) : State :=
  (t.updCore c fun y => { y with admitAt := y.cyc + 1 }).postAfter c 1 (.coreAdmission c)

section
variable {s t : State} {c : Nat}

theorem admitWork_stopped (h : s.coreRuns c = false) : s.admitWork c = s := by simp [admitWork, h]

theorem admitWork_later (hrun : s.coreRuns c = true) (hm : s.mayAdmit c = false) :
    s.admitWork c = s.postAfter c 1 (.coreAdmission c) := by
  simp [admitWork, hrun, hm]

variable (hrun : s.coreRuns c = true) (hm : s.mayAdmit c = true)
include hrun hm

/-- An evicted unit comes first. -/
theorem admitWork_readmit (h : s.readmit (partOfCore c) (s.cc c).ctx = some t) : s.admitWork c = t.admitAgain c := by
  simp only [admitWork, hrun, hm, h]; rfl

variable (hre : s.readmit (partOfCore c) (s.cc c).ctx = none)
include hre

/-- Then the first spawn bin that can launch. -/
theorem admitWork_bin {b : Nat} (hb : b < 16) (hfirst : ∀ i < b, s.binReady c i = false) (hready : s.binReady c b = true)
    (hplace : (s.binPlace c b).isSome) (hslot : (s.freeSlot c).isSome) :
    s.admitWork c = (s.post (.spawnBinLaunch c b)).postAfter c 1 (.coreAdmission c) := by
  have hfind : ((List.range 16).find? fun b => s.binReady c b && (s.binPlace c b).isSome && (s.freeSlot c).isSome) = some b := by
    rw [List.find?_range_eq_some]
    simp +contextual [hb, hready, hplace, hslot, hfirst]
  simp only [admitWork, hrun, hm, hre, hfind]; rfl

variable (hbins : ∀ i < 16, s.binReady c i = false)
include hbins

/-- Then a new unit; with none, a parked unit may be evicted. -/
theorem admitWork_new {ok : Bool} (h : s.admitNew c (s.launchesOf (s.cc c).ctx) = (t, ok)) :
    s.admitWork c = if ok then t.admitAgain c else t.evictOne (partOfCore c) (s.cc c).ctx := by
  have hfind : ((List.range 16).find? fun b => s.binReady c b && (s.binPlace c b).isSome && (s.freeSlot c).isSome) = none := by
    rw [List.find?_eq_none]
    intro b hb; simp [hbins b (List.mem_range.mp hb)]
  simp only [admitWork, hrun, hm, hre, hfind, h]; rfl

end

theorem admitNew_one {s t : State} {c l : Nat} (hlazy : (s.launch l).lazy = []) (h : s.admitUnit l c = (t, true)) :
    s.admitNew c [l] = (t, true) := by
  simp [admitNew, hlazy, h]

/-- The unit of a claim is the number of the ticket of the core's own die (13 R281). -/
theorem admitUnit_ownDie {s : State} {l c : Nat} {place : List (Nat × Nat × Nat)} {v : DWord}
    (hv : (s.launch l).tickets.find (dieOfCore c) = some v) (hp : (s.launch l).parts.contains (partOfCore c) = true)
    (he : (s.launch l).exhausted.contains (4 * c + dieOfCore c) = false)
    (hplace : s.unitPlace c (s.launch l).desc = some place) (hlt : v.toNat < (dieShare (s.launch l) (dieOfCore c)).2) :
    s.admitUnit l c = ((s.updLaunch l fun x =>
        { x with tickets := x.tickets.set (dieOfCore c) (BitVec.ofNat 64 (v.toNat + 1)) }).startUnit (partOfCore c) l
      ((dieShare (s.launch l) (dieOfCore c)).1 + v.toNat) 0 none [(0, partEntry (partOfCore c))] place, true) := by
  have hne : (s.launch l).tickets.isEmpty = false := by
    cases ht : (s.launch l).tickets with
    | nil => rw [ht] at hv; cases hv
    | cons e es => rfl
  have hget : (s.launch l).tickets.get 0 (dieOfCore c) = v := by rw [Map.get_eq_find, hv]; rfl
  have hclaim : s.claim l c (claimOrder (dieOfCore c)) = (s.updLaunch l fun x =>
      { x with tickets := x.tickets.set (dieOfCore c) (BitVec.ofNat 64 (v.toNat + 1)) },
      some ((dieShare (s.launch l) (dieOfCore c)).1 + v.toNat)) := by
    simp only [claimOrder, claim, hv, he, hget, if_pos hlt]; rfl
  simp only [admitUnit, hne, hp, hplace, hclaim]; rfl

/-! ### Launches (13 R277) -/

/-- Without a replay control block no descriptor is logged (17 R345). -/
theorem logLaunch_none {s : State} {core h : Nat} (hr : (s.ctx h).rpcb = 0#64) (d : Block) :
    s.logLaunch core h d = (none, s) := by
  simp [logLaunch, replayBlock, hr]

section
variable {s : State} {agent h : Nat} (ha : agent < 32) (addr : Nat) (d : Block)
include ha

theorem descriptorTake_waits (hr : s.runsOn (agentCore agent) h = false) :
    s.descriptorTake agent h addr d = s.post (.launchDescriptorTake agent h addr d) := by
  unfold descriptorTake
  rw [if_pos (show agent < 1024 by omega), if_neg (by simp [hr])]

theorem descriptorTake_takes (hr : s.runsOn (agentCore agent) h = true) :
    s.descriptorTake agent h addr d = s.takeLaunch (agentCore agent) h addr d true := by
  unfold descriptorTake
  rw [if_pos (show agent < 1024 by omega), if_pos hr]

end

section
variable {s : State} {core h : Nat} (hr : (s.ctx h).rpcb = 0#64) (addr : Nat) (d : Block)
include hr

theorem takeLaunch_placed (hb : (s.touchWtab (dieOfCore core) h d).launchBad (dieOfCore core) h d = none) :
    s.takeLaunch core h addr d true = (s.touchWtab (dieOfCore core) h d).placeLaunch core h addr d none := by
  unfold takeLaunch
  rw [if_pos rfl, logLaunch_none hr]
  dsimp only
  rw [hb]

theorem takeLaunch_refused {code : Nat} (hb : (s.touchWtab (dieOfCore core) h d).launchBad (dieOfCore core) h d = some code)
    (hc : ldCctr d = 0#64) : s.takeLaunch core h addr d true =
      (s.touchWtab (dieOfCore core) h d).refusal (dieOfCore core) h code (BitVec.ofNat 64 addr) := by
  unfold takeLaunch
  rw [if_pos rfl, logLaunch_none hr]
  dsimp only
  rw [hb]
  dsimp only
  rw [refuseLaunch, if_pos hc]

end

/-- The launch of one role group is recorded, and the cores of its partitions are asked (13 R281). -/
theorem placeLaunch_team (e : State) (core h addr : Nat) {d : Block} (log : Option Nat) (hg : ldGroles d = 1) :
    let ps := (e.allowedParts h d).filter fun p => !(e.part p).offline
    ∃ r : LaunchRec, e.placeLaunch core h addr d log =
        State.askCores { e with launches := e.launches.set e.nextLaunch r, nextLaunch := e.nextLaunch + 1 } ps ∧
      r.ctx = h ∧ r.addr = addr ∧ r.desc = d ∧ r.parts = ps ∧
      r.total = if ldDisp d = 1 then r.lazy.length / ldTroles d else ldGrid d := by
  unfold placeLaunch
  dsimp only
  rw [if_neg (by simp [hg])]
  exact ⟨_, rfl, rfl, rfl, rfl, rfl, by simp [hg]⟩

/-- Settles O44: each event by the lemma of its case. -/
theorem admissionEvents : Obligations.AdmissionEvents := by
  intro s c b x hc p h may again
  have hmay : s.mayAdmit c = decide may := rfl
  have hno : ¬ may → s.mayAdmit c = false := fun hm => by simp [hmay, hm]
  have hyes : may → s.mayAdmit c = true := fun hm => by simp [hmay, hm]
  have admission : ∀ t, s.admitWork c = t → s.Goes (.coreAdmission c) t := fun t ht => ht ▸ exec_coreAdmission hc s
  have launch : ∀ t, s.binLaunch c b = t → s.Goes (.spawnBinLaunch c b) t := fun t ht => ht ▸ exec_spawnBinLaunch hc b s
  have expiry : ∀ t, s.binExpires c b = t → s.Goes (.spawnBinTimerExpiry c b) t :=
    fun t ht => ht ▸ exec_spawnBinTimerExpiry hc b s
  refine ⟨fun hx => ⟨?_, ?_, ?_, ?_⟩, ?_, ?_, ?_, ?_, ?_⟩
  · exact fun ht he => expiry _ (binExpires_run hx ht he)
  · exact fun he => expiry _ (binExpires_early hx he)
  · exact fun hn => launch _ (binLaunch_notReady hx hn)
  · intro tm m wid k hp hk hrun hready hgang
    have hr : s.binReady c b = true := by
      rw [binReady_of_place hx hp, hgang]
      rcases hready with h | h <;> simp [h]
    refine ⟨fun hm => launch _ (binLaunch_later hx hp hk hr hrun (hno hm)), fun hm hk32 hblocks => ?_⟩
    obtain ⟨hwid, hteam, hctx, hlanes, free, hregs⟩ := s.binWarp_ownWarp c b tm wid x m (k := k) (by simp [fwSlot]; omega)
    refine ⟨_, launch _ (binLaunch_now hx hp hk hr hrun (hyes hm)), binWarp_bins .., binWarp_mem ..,
      fun j hj => binWarp_otherWarp _ _ _ _ _ _ _ hj, hwid, hteam, hctx, fun j hj => ⟨?_, fun hjn => ⟨?_, ?_⟩⟩⟩
    · rw [hlanes j hj]; split <;> rfl
    · rw [hlanes j hj, if_pos hjn]
    · rw [hregs]
      exact spawnRegs_v0 _ hblocks hj (by simp [hjn])
  · exact fun hrun => admission _ (admitWork_stopped hrun)
  · exact fun hrun hm => admission _ (admitWork_later hrun (hno hm))
  · intro hrun hm
    refine ⟨fun t hre => admission _ (admitWork_readmit hrun (hyes hm) hre), fun hre => ⟨?_, ?_, ?_⟩⟩
    · exact fun hb hfirst hready hplace hslot => admission _ (admitWork_bin hrun (hyes hm) hre hb hfirst hready hplace hslot)
    · intro t l hbins hone hlazy hunit
      have hnew : s.admitNew c (s.launchesOf h) = (t, true) := hone ▸ admitNew_one hlazy hunit
      exact admission _ (admitWork_new hrun (hyes hm) hre hbins hnew)
    · exact fun t hbins hnew => admission _ (admitWork_new hrun (hyes hm) hre hbins hnew)
  · exact fun l place v hv hp he hplace hlt => admitUnit_ownDie hv hp he hplace hlt
  · intro agent ctx addr d ha
    have take : ∀ t, s.descriptorTake agent ctx addr d = t → s.Goes (.launchDescriptorTake agent ctx addr d) t :=
      fun t ht => ht ▸ exec_launchDescriptorTake ha ctx addr d s
    refine ⟨fun hr => take _ (descriptorTake_waits ha addr d hr), fun hr hrp => ⟨fun hb hg => ?_, fun code hb hcc => ?_⟩⟩
    · obtain ⟨r, hplace, hctx, haddr, hdesc, hparts, htotal⟩ := placeLaunch_team (s.touchWtab (dieOfCore (agentCore agent)) ctx d)
        (agentCore agent) ctx addr none hg
      refine ⟨_, take _ ((descriptorTake_takes ha addr d hr).trans ((takeLaunch_placed hrp addr d hb).trans hplace)),
        rfl, rfl, rfl, rfl, r, ?_, hctx, haddr, hdesc, hparts, htotal⟩
      simp [askCores]
    · exact take _ ((descriptorTake_takes ha addr d hr).trans (takeLaunch_refused hrp addr d hb hcc))

end Sys2Proof.Machine.State
end

section
/-! PROOFS (03 R43, R48; 08 R150): what a landing result leaves in its warp's registers and flags. -/

namespace Sys2Proof.Machine.Warp

/-- What a register reads after a write of one register in one lane. -/
theorem v_setV (w : Warp) {n l j i : Nat} (x : Word) (hl : l < 32) (hi : i < 32) :
    (w.setV n l x).v j i = if j = n ∧ i = l then x else w.v j i := by
  have hkey : j * 32 + i = n * 32 + l ↔ j = n ∧ i = l := by omega
  simp only [v, setV, Map.get_set, hkey]

/-- The value of register `n` in a lane in which `x` lands in register `d`: h0 takes it, and h1 the old h0 (03 R43). -/
def landed (w : Warp) (d l : Nat) (x : Word) (n : Nat) : Word :=
  if n = d ∧ d ≠ 122 then x else if n = 120 then x else if n = 121 then w.v 120 l else w.v n l

theorem v_landLane (w : Warp) {d a l : Nat} (hd : d ≤ 119 ∨ d = 122) (ha : a < 32) (hl : l < 32) (x : Word) (n : Nat) :
    (w.landLane d a x).v n l = if l = a then w.landed d l x n else w.v n l := by
  unfold landLane landed
  by_cases hz : d = 122
  · simp only [if_pos hz, v_setV _ _ ha hl]
    grind
  · simp only [if_neg hz, v_setV _ _ ha hl, v_setV _ _ ha ha]
    grind

/-- Landing in lanes one after another: each lane gets its own value, as no lane reads another's registers. -/
theorem v_landLanes (f : Nat → Word) {d l : Nat} (hd : d ≤ 119 ∨ d = 122) (hl : l < 32) (ls : List Nat) (hn : ls.Nodup)
    (h32 : ∀ a ∈ ls, a < 32) (w : Warp) (n : Nat) :
    ((ls.map fun a => (a, f a)).foldl (fun (w : Warp) e => w.landLane d e.1 e.2) w).v n l =
      if l ∈ ls then w.landed d l (f l) n else w.v n l := by
  induction ls generalizing w with
  | nil => simp
  | cons a ls ih =>
    obtain ⟨hna, hn⟩ := List.nodup_cons.mp hn
    obtain ⟨ha, h32⟩ := List.forall_mem_cons.mp h32
    have hlane : ∀ m, (w.landLane d a (f a)).v m l = if l = a then w.landed d l (f a) m else w.v m l :=
      v_landLane w hd ha hl (f a)
    rw [List.map_cons, List.foldl_cons, ih hn h32]
    by_cases hla : l = a
    · subst hla
      simp [hna, hlane]
    · simp [hla, hlane, landed]

theorem setV_eq (w : Warp) (n l : Nat) (x : Word) : w.setV n l x = { w with lreg := (w.setV n l x).lreg } := rfl

/-- A landing lane result changes lane registers alone. -/
theorem landLane_eq (w : Warp) (d l : Nat) (x : Word) : w.landLane d l x = { w with lreg := (w.landLane d l x).lreg } := by
  unfold landLane
  dsimp only
  split <;> rfl

theorem landLanes_eq (d : Nat) (vals : List (Nat × Word)) (w : Warp) :
    vals.foldl (fun (w : Warp) e => w.landLane d e.1 e.2) w =
      { w with lreg := (vals.foldl (fun (w : Warp) e => w.landLane d e.1 e.2) w).lreg } := by
  induction vals generalizing w with
  | nil => rfl
  | cons e vals ih =>
    rw [List.foldl_cons, ih, landLane_eq]

/-- Settles O14: a result lands lane by lane (`v_landLanes`), and changes only lane registers and flags (`landLanes_eq`). -/
theorem landingWrites : Obligations.LandingWrites := by
  intro w m d lands f fs qs p t
  have ht : t = (((lanesOf m).map fun a => (a, f a)).foldl (fun (w : Warp) e => w.landLane d e.1 e.2) w).updUni
      fun u => { u with fstat := u.fstat ||| fs, qstat := u.qstat ||| qs } := rfl
  refine ⟨fun hd n l hl => ?_, ?_⟩
  · have hv : t.v n l = if l ∈ lanesOf m then w.landed d l (f l) n else w.v n l := by
      rw [ht]
      exact v_landLanes f hd hl _ (lanesOf_nodup m) (fun a ha => ((mem_lanesOf m a).mp ha).1) w n
    rw [hv]
    simp only [mem_lanesOf, hl, true_and, landed]
    by_cases hm : m.getLsbD l = true
    · simp only [hm, if_true, true_and]
    · simp only [hm, Bool.false_eq_true, false_and, if_false]
  · rw [ht, landLanes_eq]; rfl

end Sys2Proof.Machine.Warp
end

section
/-! PROOFS (03 R50; 11 R227; 20 R366 to R368): what SRD reads and SWR writes, one equation for each index. -/

namespace Sys2Proof.Machine
namespace State

/-! ### Words -/

@[simp] theorem lo32_setWidth (x : Word) : lo32 (x.setWidth 64) = x := by
  unfold lo32
  rw [BitVec.extractLsb'_setWidth_of_le (by decide)]
  exact BitVec.extractLsb'_eq_self
@[simp] theorem lo32_ofNat (n : Nat) : lo32 (BitVec.ofNat 64 n) = BitVec.ofNat 32 n := by
  apply BitVec.eq_of_toNat_eq
  simp only [lo32, BitVec.extractLsb'_toNat, BitVec.toNat_ofNat, Nat.shiftRight_zero]
  exact Nat.mod_mod_of_dvd n (by decide)

/-- Clearing the low `k` bits of a word rounds it down to a multiple of `2 ^ k`. -/
theorem and_highBits (w k : Nat) (x : BitVec w) :
    x &&& (BitVec.allOnes w <<< k) = BitVec.ofNat w (x.toNat / 2 ^ k * 2 ^ k) := by
  apply BitVec.eq_of_getLsbD_eq
  intro i hi
  rw [BitVec.getLsbD_and, BitVec.getLsbD_shiftLeft, BitVec.getLsbD_allOnes, BitVec.getLsbD_ofNat, Nat.testBit_mul_two_pow,
    Nat.testBit_div_two_pow]
  by_cases hk : k ≤ i
  · simp [hi, hk, BitVec.getLsbD, show i - k < w by omega]
  · simp [hi, hk]
theorem and_dropLow2 (v : Word) : v &&& 0xFFFFFFFC#32 = BitVec.ofNat 32 (v.toNat / 4 * 4) := and_highBits 32 2 v
theorem and_dropLow9 (v : DWord) : v &&& 0xFFFFFFFFFFFFFE00#64 = BitVec.ofNat 64 (v.toNat / 512 * 512) := and_highBits 64 9 v

/-! ### SRD -/

theorem exec_srd (sc : BitVec 2) (d : BitVec 6) (x : BitVec 8) (s : State) :
    exec (.srd sc d x) s = .next (s.issue (.srd sc d x) sc (srdBody d x)) := rfl

theorem handlerOnly_inHandler {s : State} (h : s.me.trap.inHandler = true) (x : Nat) : s.handlerOnly x = false := by
  simp [handlerOnly, h]
theorem handlerOnly_other {s : State} {x : Nat} (h : x < 0x1A ∨ 0x1C < x) : s.handlerOnly x = false := by
  unfold handlerOnly
  simp; omega

section
variable {s : State} (sc : BitVec 2) (d : BitVec 6) {x : BitVec 8}

/-- A 32-bit register below the window descriptors. -/
theorem srd_gives_word {v : Word} (hh : s.handlerOnly x.toNat = false) (hx : x.toNat < 0x40) (hw : sregWide x.toNat = false)
    (hv : lo32 (s.sreg x.toNat) = v) : s.Gives (.srd sc d x) sc [s.uniResult .uni d.toNat v] := by
  refine gives_results (lat := 2) (rs := [{ file := .uni, num := d.toNat, vals := [(0, v)], lands := 0 }]) (hold := none)
    (exec_srd ..) ?_ rfl
  simp [srdBody, hh, Nat.not_le.mpr hx, hw, uniOp, hv]

/-- A 64-bit one. -/
theorem srd_gives_pair {v : DWord} (hh : s.handlerOnly x.toNat = false) (hx : x.toNat < 0x40) (hw : sregWide x.toNat = true)
    (hv : s.sreg x.toNat = v) :
    s.Gives (.srd sc d x) sc [s.uniResult .uni d.toNat (lo32 v), s.uniResult .uni (d.toNat + 1) (hi32 v)] := by
  refine gives_results (lat := 2) (rs := [{ file := .uni, num := d.toNat, vals := [(0, lo32 v)], lands := 0 },
    { file := .uni, num := d.toNat + 1, vals := [(0, hi32 v)], lands := 0 }]) (hold := none) (exec_srd ..) ?_ rfl
  simp [srdBody, hh, Nat.not_le.mpr hx, hw, uniOp64, hv]

/-- A handler register traps outside a handler. -/
theorem srd_traps (hh : s.handlerOnly x.toNat = true) (hr : s.Runs (.srd sc d x)) :
    exec (.srd sc d x) s = .next (s.syncTrap (s.privTrap 3 x.toNat)) :=
  exec_trap (exec_srd ..) hr (by simp [srdBody, hh])

end

/-- A convergence register's word, where its fields hold the numbers that they can (03 R47). -/
theorem cvWord_eq {v : CvReg} (he : v.expect < 2048) (hs : v.signed < 2048) (hg : v.gen < 65536) :
    cvWord v = BitVec.ofNat 64 (v.gen + 2 ^ 16 * v.signed + 2 ^ 32 * v.expect + if v.armed then 2 ^ 63 else 0) := by
  unfold cvWord
  rw [Nat.mod_eq_of_lt he, Nat.mod_eq_of_lt hs, Nat.mod_eq_of_lt (show v.gen < 2 ^ 16 from hg)]
  congr 1
  ring

theorem sreg_cv {s : State} {m : Team} (hm : (s.cc s.cur.core).teams.find s.me.team = some m) (n : Nat) :
    s.sreg (0x20 + n) = cvWord (m.cv.get {} n) := by
  unfold sreg
  simp (disch := omega) only [if_neg]
  simp [hm]

/-- Settles O22: each register by the equation of its width (`srd_gives_word`, `srd_gives_pair`). -/
theorem specialRegisterReads : Obligations.SpecialRegisterReads := by
  intro s sc d u t one two
  have word : ∀ (x : BitVec 8) (v : Word), x.toNat < 0x1A → sregWide x.toNat = false → lo32 (s.sreg x.toNat) = v → one x v :=
    fun x v hx hw hv => srd_gives_word sc d (handlerOnly_other (.inl hx)) (by omega) hw hv
  have pair : ∀ (x : BitVec 8) (v : DWord), x.toNat < 0x1A → sregWide x.toNat = true → s.sreg x.toNat = v → two x v :=
    fun x v hx hw hv => srd_gives_pair sc d (handlerOnly_other (.inl hx)) (by omega) hw hv
  refine ⟨word _ _ (by decide) rfl (lo32_ofNat _), word _ _ (by decide) rfl (lo32_ofNat _), pair _ _ (by decide) rfl rfl,
    word _ _ (by decide) rfl (lo32_setWidth _), word _ _ (by decide) rfl (lo32_setWidth _),
    word _ _ (by decide) rfl (lo32_setWidth _), word _ _ (by decide) rfl (lo32_setWidth _),
    word _ _ (by decide) rfl (lo32_setWidth _), word _ _ (by decide) rfl (lo32_setWidth _),
    word _ _ (by decide) rfl (lo32_setWidth _), word _ _ (by decide) rfl (lo32_setWidth _),
    pair _ _ (by decide) rfl rfl, word _ _ (by decide) rfl (lo32_setWidth _),
    pair _ _ (by decide) rfl rfl, word _ _ (by decide) rfl (lo32_setWidth _), pair _ _ (by decide) rfl rfl,
    word _ _ (by decide) rfl (lo32_setWidth _), word _ _ (by decide) rfl (lo32_ofNat _), pair _ _ (by decide) rfl rfl,
    word _ _ (by decide) rfl (lo32_setWidth _), ?_, ?_, ?_⟩
  · intro m hm
    refine ⟨word _ _ (by decide) rfl ((lo32_ofNat _).trans (by rw [hm]; rfl)),
      word _ _ (by decide) rfl ((lo32_ofNat _).trans (by rw [hm]; rfl)), fun n hn he hs hg => ?_⟩
    have hx : (BitVec.ofNat 8 (0x20 + n)).toNat = 0x20 + n := by
      rw [BitVec.toNat_ofNat]; omega
    refine srd_gives_pair sc d ?_ ?_ ?_ ?_ <;> rw [hx]
    · exact handlerOnly_other (.inr (by omega))
    · omega
    · simp [sregWide]; omega
    · rw [sreg_cv hm, cvWord_eq he hs hg]
  · intro hin
    refine ⟨srd_gives_word sc d (handlerOnly_inHandler hin _) (by decide) rfl (lo32_ofNat _),
      srd_gives_word sc d (handlerOnly_inHandler hin _) (by decide) rfl ((lo32_setWidth _).trans ?_)⟩
    unfold lpc; rfl
  · intro hout x hx hr
    refine srd_traps sc d ?_ hr
    simp only [List.mem_cons, List.not_mem_nil, or_false] at hx
    rcases hx with rfl | rfl | rfl <;> simp [handlerOnly, hout, t]

/-! ### SWR -/

theorem exec_swr (sc : BitVec 2) (d : BitVec 6) (x : BitVec 8) (s : State) :
    exec (.swr sc d x) s = .next (s.issue (.swr sc d x) sc (swrBody d x)) := rfl

section
variable {s : State} (sc : BitVec 2) (d : BitVec 6) {x : BitVec 8}

/-- An index that is writable, with no reserved bit set in the value. -/
theorem swr_does {e : State} (hw : swrTo x.toNat = true) (hh : s.handlerOnly x.toNat = false)
    (hr : swrReserved x.toNat (s.us d) = false) (he : s.setSreg x.toNat (s.us d) (s.us64 d) = e) (hc : e.cur = s.cur) :
    s.DoesFall (.swr sc d x) sc e := by
  refine does (e := e) (f := .fall) (exec_swr ..) ?_ (by simp [flowPc, fallThrough, hc])
  simp [swrBody, hw, hh, hr, he]

theorem swr_traps_notWritable (hw : swrTo x.toNat = false) (hr : s.Runs (.swr sc d x)) :
    exec (.swr sc d x) s = .next (s.syncTrap (s.privTrap 2 x.toNat)) :=
  exec_trap (exec_swr ..) hr (by simp [swrBody, hw])

theorem swr_traps_outsideHandler (hw : swrTo x.toNat = true) (hh : s.handlerOnly x.toNat = true) (hr : s.Runs (.swr sc d x)) :
    exec (.swr sc d x) s = .next (s.syncTrap (s.privTrap 3 x.toNat)) :=
  exec_trap (exec_swr ..) hr (by simp [swrBody, hw, hh])

theorem swr_traps_reserved (hw : swrTo x.toNat = true) (hh : s.handlerOnly x.toNat = false)
    (hv : swrReserved x.toNat (s.us d) = true) (hr : s.Runs (.swr sc d x)) :
    exec (.swr sc d x) s = .next (s.syncTrap (s.encTrap .swrReserved (s.us d))) :=
  exec_trap (exec_swr ..) hr (by simp [swrBody, hw, hh, hv])

end

/-- A handler leaves the lanes of its own group as they are, and an exited lane (20 R368). -/
theorem setLpc_keeps {s : State} (v : Word)
    (h : ¬ s.me.trap.tmask.getLsbD s.me.trap.lsel.toNat = false ∨ (s.me.lane s.me.trap.lsel.toNat).state = .exited) :
    s.setLpc v = s := by
  unfold setLpc
  rcases h with h | h
  · simp [h]
  · simp [h]
theorem setLst_keeps {s : State} (v : Word)
    (h : ¬ s.me.trap.tmask.getLsbD s.me.trap.lsel.toNat = false ∨ (s.me.lane s.me.trap.lsel.toNat).state = .exited) :
    s.setLst v = s := by
  unfold setLst
  rcases h with h | h
  · simp [h]
  · simp [h]

/-- With no REP sequence under way, the PC written is that lane's, and it is runnable there. -/
theorem setLpc_moves {s : State} (v : Word) (hm : s.me.trap.tmask.getLsbD s.me.trap.lsel.toNat = false)
    (hl : (s.me.lane s.me.trap.lsel.toNat).state ≠ .exited) (hrep : s.me.uni.rep = none) :
    s.setLpc v = s.updMe fun w => w.updLane s.me.trap.lsel.toNat fun y =>
      { y with state := .runnable, pc := BitVec.ofNat 32 (v.toNat / 4 * 4), waits := 0 } := by
  have hset : s.setLpc v = s.updMe fun w => (w.updLane s.me.trap.lsel.toNat fun y =>
      { y with state := .runnable, pc := v &&& 0xFFFFFFFC#32, waits := 0 }).leaveRep (1#32 <<< s.me.trap.lsel.toNat) := by
    unfold setLpc
    dsimp only
    rw [if_neg (by simp [hm])]
    split
    · contradiction
    · rfl
  rw [hset, and_dropLow2]
  apply updMe_congr
  simp [Warp.leaveRep, Warp.updLane, hrep]

theorem setLst_wakes {s : State} {v : Word} (hm : s.me.trap.tmask.getLsbD s.me.trap.lsel.toNat = false)
    (hl : (s.me.lane s.me.trap.lsel.toNat).state = .parked) (hv : v.toNat % 4 = 0) :
    s.setLst v = s.updMe fun w => w.updLane s.me.trap.lsel.toNat fun y =>
      { y with state := .runnable, pc := y.park, waits := 0 } := by
  simp [setLst, hm, hl, hv]
theorem setLst_exits {s : State} {v : Word} (hm : s.me.trap.tmask.getLsbD s.me.trap.lsel.toNat = false)
    (hl : (s.me.lane s.me.trap.lsel.toNat).state ≠ .exited) (hv : v.toNat % 4 = 2) :
    s.setLst v = s.exitLanes s.cur.core s.cur.slot (1#32 <<< s.me.trap.lsel.toNat) := by
  cases h : (s.me.lane s.me.trap.lsel.toNat).state with
  | exited => contradiction
  | runnable => simp [setLst, hm, h, hv]
  | parked => simp [setLst, hm, h, hv]

@[simp] theorem exitLanes_cur (s : State) (c k : Nat) (m : Mask) : (s.exitLanes c k m).cur = s.cur := by
  unfold exitLanes; rw [updWarp_cur]

/-- Settles O23: each index by what `setSreg` makes of it (`swr_does`), and the traps by the check that fails. -/
theorem specialRegisterWrites : Obligations.SpecialRegisterWrites := by
  intro s sc d v uni trap
  have warp : ∀ (x : BitVec 8) (f : Warp → Warp), swrTo x.toNat = true → s.handlerOnly x.toNat = false →
      s.setSreg x.toNat v (s.us64 d) = s.updMe f → swrReserved x.toNat v = false → s.DoesFall (.swr sc d x) sc (s.updMe f) :=
    fun x f hw hh he hr => swr_does sc d hw hh hr he (updMe_cur ..)
  refine ⟨warp _ _ rfl rfl rfl, warp _ _ rfl rfl rfl, warp _ _ rfl rfl rfl, warp _ _ rfl rfl ?_, warp _ _ rfl rfl ?_,
    warp _ _ rfl rfl ?_, warp _ _ rfl rfl rfl, fun hr => swr_does sc d rfl rfl hr rfl rfl, fun hin => ?_, ?_, ?_, ?_⟩
  · rw [← and_dropLow2]; rfl
  · rw [← and_dropLow2]; rfl
  · rw [← and_dropLow9]; rfl
  · have hh := handlerOnly_inHandler hin
    refine ⟨warp _ _ rfl (hh _) rfl, fun hkeep => ⟨?_, fun hr => ?_⟩, fun hm hl hrep => ?_, fun hm hr => ⟨fun hl hv => ?_, fun hl hv => ?_⟩⟩
    · exact swr_does sc d rfl (hh _) rfl (setLpc_keeps v hkeep) rfl
    · exact swr_does sc d rfl (hh _) hr (setLst_keeps v hkeep) rfl
    · exact swr_does sc d rfl (hh _) rfl (setLpc_moves v hm hl hrep) (updMe_cur ..)
    · exact swr_does sc d rfl (hh _) hr (setLst_wakes hm hl hv) (updMe_cur ..)
    · exact swr_does sc d rfl (hh _) hr (setLst_exits hm hl hv) (exitLanes_cur ..)
  · intro x hx hv hr
    simp only [List.mem_cons, List.not_mem_nil, or_false] at hx
    rcases hx with rfl | rfl | rfl | rfl | rfl <;> exact swr_traps_reserved sc d rfl rfl hv hr
  · intro hout x hx hr
    have hh : s.handlerOnly x.toNat = true ∧ swrTo x.toNat = true := by
      simp only [List.mem_cons, List.not_mem_nil, or_false] at hx
      rcases hx with rfl | rfl | rfl <;> simp [handlerOnly, hout, swrTo]
    exact swr_traps_outsideHandler sc d hh.2 hh.1 hr
  · exact fun x hw hr => swr_traps_notWritable sc d hw hr

end State
end Sys2Proof.Machine
end

section
/-! PROOFS (03 R44; 11 R232; 20 R372): register blocks, acquired and released. -/

namespace Sys2Proof.Machine
namespace State

/-! ### Taking a trap, and serving the allocator's queue, leave the running instruction as it is -/

@[simp] theorem offlinePart_cur (s : State) (p : Nat) : (s.offlinePart p).cur = s.cur := by
  unfold offlinePart
  dsimp only
  split
  · rfl
  · rw [postAll_cur, foldl_cur _ _ (fun _ _ => faultRecord_cur ..), postAll_cur]
    split <;> rfl
@[simp] theorem freeze_cur (s : State) (c k code : Nat) : (s.freeze c k code).cur = s.cur := by
  have htrace : ∀ (t : State) (wid : Nat) (r : BitVec 64) (b : BitVec 320), (t.trace c 4 wid 3 0 r b).cur = t.cur :=
    fun t wid r b => (trace_recStep ..).cur
  unfold freeze
  dsimp only
  split
  · rw [offlinePart_cur, faultRecord_cur, htrace, updWarp_cur]
  · rw [postAll_cur, faultRecord_cur, htrace, updWarp_cur]
@[simp] theorem takeTrap_cur (s : State) (c k : Nat) (g : Mask) (t : TrapInfo) : (s.takeTrap c k g t).cur = s.cur := by
  unfold takeTrap
  dsimp only
  split
  · rw [freeze_cur, updWarp_cur]
  · split
    · rw [freeze_cur, updWarp_cur]
    · rw [updWarp_cur, updWarp_cur]
@[simp] theorem mapBlocks_cur (s : State) (c k : Nat) (want : List Nat) : (s.mapBlocks c k want).cur = s.cur := by
  unfold mapBlocks
  rw [markRegs_cur, updWarp_cur]
@[simp] theorem serveBlocks_cur (s : State) (c n : Nat) : (s.serveBlocks c n).cur = s.cur := by
  induction n generalizing s with
  | zero => rfl
  | succ n ih =>
    unfold serveBlocks
    split
    · rfl
    · split
      · rw [ih, updCore_cur]
      · dsimp only
        split
        · rw [ih]
          split
          · rw [updCore_cur, updWarp_cur]
          · rw [takeTrap_cur, updCore_cur, updWarp_cur]
        · split
          · rfl
          · rw [ih, updWarp_cur, mapBlocks_cur, updCore_cur, updWarp_cur]

@[simp] theorem addVar_cur (s : State) (file : RegFile) (num n : Nat) (lanes : Mask) (r : Nat) :
    (s.addVar file num n lanes r).cur = s.cur := by
  rw [addVar_eq]
  split
  · rfl
  · exact updMe_cur ..
@[simp] theorem varResult_cur (s : State) (reg : Option (Nat × Word)) (pred : Nat) (b : Bool) :
    (s.varResult reg pred b).cur = s.cur := by
  unfold varResult
  cases reg <;> simp
@[simp] theorem unmapBlocks_cur (s : State) (c k mask : Nat) : (s.unmapBlocks c k mask).cur = s.cur := by
  simp [unmapBlocks]

/-! ### The three instructions -/

theorem exec_racq (sc : BitVec 2) (m : BitVec 7) (s : State) :
    exec (.racq sc m) s = .next (s.issue (.racq sc m) sc (racqBody m)) := rfl
theorem exec_racqNb (sc : BitVec 2) (m : BitVec 7) (p : BitVec 2) (s : State) :
    exec (.racqNb sc m p) s = .next (s.issue (.racqNb sc m p) sc (racqNbBody m p)) := rfl
theorem exec_rrel (sc : BitVec 2) (m : BitVec 7) (s : State) :
    exec (.rrel sc m) s = .next (s.issue (.rrel sc m) sc (rrelBody m)) := rfl

/-- Some block that the instruction names is of a kind, or none is. -/
theorem filter_blocks_of_exists {m : BitVec 7} {f : Nat → Bool} (h : ∃ b ∈ maskBlocks m, f b = true) :
    (!((maskBlocks m).filter f).isEmpty) = true := by
  simpa using h
theorem filter_blocks_of_none {m : BitVec 7} {f : Nat → Bool} (h : ∀ b ∈ maskBlocks m, ¬ f b = true) :
    ¬ (!((maskBlocks m).filter f).isEmpty) = true := by
  simpa using h

/-- A write that pends into a block of the mask holds an RREL back (11 R232). -/
theorem blocksPend_iff (w : Warp) (m : BitVec 7) : blocksPend w m.toNat = true ↔
    (∃ v ∈ w.var, v.file = .lane ∧ v.num < 112 ∧ m.getLsbD (v.num / 16) = true) ∨
      ∃ v ∈ w.pend, v.file = .lane ∧ v.num < 112 ∧ m.getLsbD (v.num / 16) = true := by
  simp [blocksPend, BitVec.getLsbD, and_assoc]

section
variable {s : State} (sc p : BitVec 2) {m : BitVec 7}

theorem racq_traps (h : ∃ b ∈ maskBlocks m, s.me.mapped b = true) (hr : s.Runs (.racq sc m)) :
    exec (.racq sc m) s = .next (s.syncTrap (s.allocTrap 2 ((maskBlocks m).filter s.me.mapped))) :=
  exec_trap (exec_racq ..) hr (if_pos (filter_blocks_of_exists h))
theorem racqNb_traps (h : ∃ b ∈ maskBlocks m, s.me.mapped b = true) (hr : s.Runs (.racqNb sc m p)) :
    exec (.racqNb sc m p) s = .next (s.syncTrap (s.allocTrap 2 ((maskBlocks m).filter s.me.mapped))) :=
  exec_trap (exec_racqNb ..) hr (if_pos (filter_blocks_of_exists h))
theorem rrel_traps (h : ∃ b ∈ maskBlocks m, (!s.me.mapped b) = true) (hr : s.Runs (.rrel sc m)) :
    exec (.rrel sc m) s = .next (s.syncTrap (s.allocTrap 3 ((maskBlocks m).filter fun b => !s.me.mapped b))) :=
  exec_trap (exec_rrel ..) hr (if_pos (filter_blocks_of_exists h))

/-- RACQ enters the queue, which is served, and its lanes stay. -/
theorem racq_does (h : ∀ b ∈ maskBlocks m, ¬ s.me.mapped b = true) :
    s.Does (.racq sc m) sc (((s.updMe fun w => w.updSched fun x =>
        { x with racq := x.racq ++ [{ mask := m.toNat, lanes := s.cur.lanes, pc := s.cur.pc }] }).updCore s.cur.core
      fun x => { x with racqQ := x.racqQ ++ [s.cur.slot] }).serveBlocks s.cur.core 33) none := by
  refine does (f := .stay) (exec_racq ..) ((if_neg (filter_blocks_of_none h)).trans ?_) rfl
  simp only [updCore_cur, updMe_cur]

/-- RACQ.nb takes the blocks where no request waits and enough are free. -/
theorem racqNb_takes (h : ∀ b ∈ maskBlocks m, ¬ s.me.mapped b = true) (hq : (s.core s.cur.core).racqQ = [])
    (hf : (maskBlocks m).length ≤ (s.freeBlocks s.cur.core).length) :
    s.DoesFall (.racqNb sc m p) sc ((s.mapBlocks s.cur.core s.cur.slot (maskBlocks m)).varResult none p.toNat true) := by
  refine does (f := .fall) (exec_racqNb ..) ((if_neg (filter_blocks_of_none h)).trans (if_neg ?_)) (by simp [flowPc, fallThrough])
  simpa [hq] using hf

theorem racqNb_refuses (h : ∀ b ∈ maskBlocks m, ¬ s.me.mapped b = true)
    (hn : (s.core s.cur.core).racqQ ≠ [] ∨ (s.freeBlocks s.cur.core).length < (maskBlocks m).length) :
    s.DoesFall (.racqNb sc m p) sc (s.varResult none p.toNat false) := by
  refine does (f := .fall) (exec_racqNb ..) ((if_neg (filter_blocks_of_none h)).trans (if_pos ?_)) (by simp [flowPc, fallThrough])
  simpa using hn

theorem rrel_waits (h : ∀ b ∈ maskBlocks m, ¬ (!s.me.mapped b) = true) (hp : blocksPend s.me m.toNat = true) :
    s.Does (.rrel sc m) sc (s.updMe fun w => w.updSched fun x =>
      { x with rrel := x.rrel ++ [{ mask := m.toNat, lanes := s.cur.lanes, pc := s.cur.pc }] }) none :=
  does (f := .stay) (exec_rrel ..) ((if_neg (filter_blocks_of_none h)).trans (if_pos hp)) rfl

theorem rrel_frees (h : ∀ b ∈ maskBlocks m, ¬ (!s.me.mapped b) = true) (hp : ¬ blocksPend s.me m.toNat = true) :
    s.DoesFall (.rrel sc m) sc (s.unmapBlocks s.cur.core s.cur.slot m.toNat) :=
  does (f := .fall) (exec_rrel ..) ((if_neg (filter_blocks_of_none h)).trans (if_neg hp)) (by simp [flowPc, fallThrough])

end

/-- Settles O32: each instruction by the case of its blocks and of what waits or pends. -/
theorem blockResults : Obligations.BlockResults := by
  intro s sc p m c named has room bits regblock
  have notMissing : (∀ b ∈ named, has b) → ∀ b ∈ maskBlocks m, ¬ (!s.me.mapped b) = true :=
    fun h b hb => by simpa using show s.me.mapped b = true from h b hb
  refine ⟨fun hnone => ⟨racq_does sc hnone, racqNb_takes sc p hnone, racqNb_refuses sc p hnone⟩, ?_⟩
  intro still
  refine ⟨fun hall hs => ?_, fun hall hs => ?_, fun hsome i hi hr => ?_, fun hmiss hr => ?_⟩
  · exact rrel_waits sc (notMissing hall) ((blocksPend_iff s.me m).mpr hs)
  · exact rrel_frees sc (notMissing hall) fun hp => hs ((blocksPend_iff s.me m).mp hp)
  · simp only [List.mem_cons, List.not_mem_nil, or_false] at hi
    rcases hi with rfl | rfl
    · exact racq_traps sc hsome hr
    · exact racqNb_traps sc p hsome hr
  · have hfilter : (named.filter fun b => (s.me.blocks.find b).isNone) = (maskBlocks m).filter fun b => !s.me.mapped b :=
      List.filter_congr fun b _ => by simp [Warp.mapped]
    obtain ⟨b, hb, hn⟩ := hmiss
    rw [hfilter]
    exact rrel_traps sc ⟨b, hb, by simpa using show ¬ s.me.mapped b = true from hn⟩ hr

end State
end Sys2Proof.Machine
end

section
/-! PROOFS (22 R404; 23 R415): an uncorrectable error that a warp consumes is recorded, and every return stack stays. A record
can wake a warp that waits for the counter of faults, which moves its lanes' PCs but not their stacks. -/

namespace Sys2Proof.Machine
namespace State

/-- The unspilled return addresses of every lane are as they were. -/
structure SameStacks (s t : State) : Prop where
  stack : ∀ c k l, ((t.warp c k).lane l).stack = ((s.warp c k).lane l).stack

namespace SameStacks
theorem refl (s : State) : SameStacks s s := ⟨fun _ _ _ => rfl⟩
theorem trans {s t u : State} (h : SameStacks s t) (g : SameStacks t u) : SameStacks s u :=
  ⟨fun c k l => (g.stack c k l).trans (h.stack c k l)⟩
theorem foldl {α : Type} (f : State → α → State) (H : ∀ s x, SameStacks s (f s x)) (l : List α) (s : State) :
    SameStacks s (l.foldl f s) := by
  induction l generalizing s with
  | nil => exact refl s
  | cons a l ih => exact (H s a).trans (ih _)
theorem of_warps {s t : State} (h : ∀ c k, t.warp c k = s.warp c k) : SameStacks s t := ⟨fun c k l => by rw [h]⟩
theorem of_memStep {s t : State} (h : MemStep s t) : SameStacks s t := .of_warps h.warp
theorem of_recStep {s t : State} (h : RecStep s t) : SameStacks s t := .of_warps h.warp
end SameStacks

theorem updWarp_sameStacks (s : State) (c k : Nat) {f : Warp → Warp} (h : ∀ w l, ((f w).lane l).stack = (w.lane l).stack) :
    SameStacks s (s.updWarp c k f) := by
  refine ⟨fun c' k' l => ?_⟩
  rw [warp_updWarp]
  split
  · obtain ⟨rfl, rfl⟩ := ‹c' = c ∧ k' = k›
    exact h ..
  · rfl
theorem finishWait_sameStacks (s : State) (c k : Nat) (w : WaitCond) : SameStacks s (s.finishWait c k w) := by
  refine (updWarp_sameStacks s c k fun x l => ?_).trans (.of_memStep (acquireAt_memStep ..))
  change ((x.updLanes w.lanes _).lane l).stack = _
  rw [Warp.lane_updLanes]
  split
  · split <;> rfl
  · rfl
theorem wakeWith_sameStacks (s : State) (c k : Nat) (v : DWord) : SameStacks s (s.wakeWith c k v) := by
  unfold wakeWith
  split
  · exact .of_warps fun _ _ => rfl
  · split
    · exact .of_recStep (post_recStep ..)
    · split
      · split
        · exact finishWait_sameStacks ..
        · exact .refl s
      · exact .refl s
theorem setWaiterList_sameStacks (s : State) (d : Nat) (l : List Waiter) (h : CtrHome) :
    SameStacks s (s.setWaiterList d l h) := by
  cases h with
  | file c n => exact .of_recStep (updCore_recStep _ _ _ fun _ => ⟨rfl, rfl, rfl⟩)
  | mem pa kid => exact .of_warps fun _ _ => rfl
theorem ctrNotify_sameStacks (s : State) (d : Nat) (h : CtrHome) (v : DWord) : SameStacks s (s.ctrNotify d h v) := by
  unfold ctrNotify
  dsimp only
  refine SameStacks.trans ?_ (SameStacks.trans (.foldl _ (fun _ _ => wakeWith_sameStacks ..) _ _) (.of_recStep (postAll_recStep ..)))
  split
  · exact setWaiterList_sameStacks ..
  · exact .refl s
theorem ctrWrite_sameStacks (s : State) (d h : Nat) (v : DWord) (x : CtrHome) : SameStacks s (s.ctrWrite d h v x) := by
  cases x with
  | file c n => exact .of_warps fun _ _ => warp_updCc _ _ _ _ _ fun _ => rfl
  | mem pa kid =>
    unfold ctrWrite
    dsimp only
    split
    · exact .of_memStep (targetWrite_memStep ..)
    · exact .of_memStep ((MemStep.ite (keepPage_memStep ..) (.refl s)).trans ((homePut_memStep ..).trans (markCtrPage_memStep ..)))
theorem ctrAdd_sameStacks {s t : State} {d h : Nat} {home : CtrHome} {inc old : DWord} (e : s.ctrAdd d h home inc = some (old, t)) :
    SameStacks s t := by
  unfold ctrAdd at e
  dsimp only at e
  split at e
  · cases e
  · injection e with e
    injection e with _ e
    exact e ▸ (ctrWrite_sameStacks ..).trans (ctrNotify_sameStacks ..)
theorem makeAdd_sameStacks (s : State) (d h : Nat) (what : AgentAdd) (name : CounterName) (home : CtrHome) (inc : DWord)
    (scope : Nat) (fail : State → State) (hf : SameStacks s (fail s)) :
    SameStacks s (s.makeAdd d h what name home inc scope fail) := by
  unfold makeAdd
  split
  · exact SameStacks.trans (.of_warps (t := { s.newReq.2 with ctrOps := _ }) fun _ _ => rfl) (.of_memStep (hold_memStep ..))
  · split
    · rename_i e; exact ctrAdd_sameStacks e
    · exact hf
theorem setReclost_sameStacks (s : State) (h : Nat) : SameStacks s (s.setReclost h) := .of_warps fun _ _ => rfl
theorem noteAdd_sameStacks (s : State) (d h : Nat) (va : DWord) (inc : Word) : SameStacks s (s.noteAdd d h va inc) := by
  unfold noteAdd
  split
  · exact setReclost_sameStacks ..
  · split
    · exact makeAdd_sameStacks _ _ _ _ _ _ _ _ _ (setReclost_sameStacks ..)
    · exact setReclost_sameStacks ..
theorem lsaWrite_sameStacks (s : State) (d h : Nat) (rec : BitVec 128) : SameStacks s (s.lsaWrite d h rec) := by
  unfold lsaWrite
  dsimp only
  split
  · exact setReclost_sameStacks ..
  · split
    · rename_i e; exact (SameStacks.of_memStep (vaWrite_memStep e)).trans (.of_recStep (updCtx_recStep ..))
    · exact setReclost_sameStacks ..
theorem faultRecord_sameStacks (s : State) (h code core slot : Nat) (x : BitVec 96) :
    SameStacks s (s.faultRecord h code core slot x) :=
  (lsaWrite_sameStacks ..).trans (noteAdd_sameStacks ..)

@[simp] theorem pendAsync_cur (s : State) (c k : Nat) (t : TrapInfo) : (s.pendAsync c k t).cur = s.cur := updWarp_cur ..
@[simp] theorem machineErr_cur (s : State) (c k h pa : Nat) : (s.machineErr c k h pa).cur = s.cur := by
  unfold machineErr
  rw [faultRecord_cur]
  split
  · exact pendAsync_cur ..
  · rfl
theorem machineErr_sameStacks (s : State) (c k h pa : Nat) : SameStacks s (s.machineErr c k h pa) := by
  unfold machineErr
  dsimp only
  refine SameStacks.trans ?_ (faultRecord_sameStacks ..)
  split
  · exact updWarp_sameStacks s c k fun _ _ => rfl
  · exact .refl s

end State
end Sys2Proof.Machine
end

section
/-! PROOFS (03 R45; 10 R211; 11 R226; 20 R372): calls and returns, with the units that they spill and refill. -/

namespace Sys2Proof.Machine
namespace State

/-- The checks of some units are of those units, in their order. -/
theorem spillChecks_units {s : State} {kind : Nat} {write : Bool} {ls : List (Nat × Nat)} {xs : List (Nat × Nat × Checked)}
    (h : s.spillChecks kind write ls = .ok xs) : xs.map (fun x => (x.1, x.2.1)) = ls := by
  induction ls generalizing xs with
  | nil => cases h; rfl
  | cons a ls ih =>
    obtain ⟨l, k⟩ := a
    unfold spillChecks at h
    split at h
    · cases h
    · split at h
      · cases h
      · rename_i hrest
        cases h
        rw [List.map_cons, ih hrest]

/-! ### Calls -/

/-- The lanes of Active whose four entries are used. -/
def fullLanes (s : State) : List Nat := (lanesOf s.cur.lanes).filter fun l => 4 ≤ (s.me.lane l).stack.length

/-- One unit of those that a call of state `s` spills is written, from state `e`. -/
def spillUnit (s e : State) (x : Nat × Nat × Checked) : State :=
  let addr := s.spillAddr (s.me.lane x.1).spill x.1
  if e.spaceLost e.myDie x.2.2.pa then e.pendAsync e.cur.core e.cur.slot (linkTrap 6 (peerOf x.2.2.pa) addr)
  else e.coreWrite e.cur.core e.myCtx x.2.2.pa x.2.2.kid x.2.2.cache
    (((s.me.lane x.1).stack.take 4).reverse.flatMap fun a => leBytes 4 a.toNat)
/-- All of them, after the walks of their addresses. -/
def spilled (s : State) (xs : List (Nat × Nat × Checked)) : State :=
  xs.foldl (spillUnit s) (s.noteWalks (s.fullLanes.map fun l => s.spillAddr (s.me.lane l).spill l))

/-- Spilling leaves the running instruction, and the uniform state and the lanes of its warp. -/
structure Spilling (s e : State) : Prop where
  cur : e.cur = s.cur
  uni : e.me.uni = s.me.uni
  lane : ∀ l, e.me.lane l = s.me.lane l

namespace Spilling
theorem of_memStep {s t : State} (h : MemStep s t) : Spilling s t := ⟨h.cur, by rw [h.me], fun l => by rw [h.me]⟩
theorem trans {s t u : State} (h : Spilling s t) (g : Spilling t u) : Spilling s u :=
  ⟨g.cur.trans h.cur, g.uni.trans h.uni, fun l => (g.lane l).trans (h.lane l)⟩
theorem pendAsync (s : State) (t : TrapInfo) : Spilling s (s.pendAsync s.cur.core s.cur.slot t) := by
  have h : s.pendAsync s.cur.core s.cur.slot t =
      s.updMe fun w => w.updTrap fun x => { x with async := x.async ++ [{ t with async := true }] } := rfl
  refine ⟨by rw [h, updMe_cur], by rw [h, updMe_me]; rfl, fun l => by rw [h, updMe_me]; rfl⟩
end Spilling

theorem spillUnit_spilling (s e : State) (x : Nat × Nat × Checked) : Spilling e (s.spillUnit e x) := by
  unfold spillUnit
  dsimp only
  split
  · exact .pendAsync ..
  · exact .of_memStep (coreWrite_memStep ..)
theorem spillUnits_spilling (s : State) (xs : List (Nat × Nat × Checked)) (e : State) : Spilling e (xs.foldl (spillUnit s) e) := by
  induction xs generalizing e with
  | nil => exact .of_memStep (.refl e)
  | cons x xs ih => exact (spillUnit_spilling s e x).trans (ih _)
theorem spilled_spilling (s : State) (xs : List (Nat × Nat × Checked)) : Spilling s (s.spilled xs) :=
  (Spilling.of_memStep (noteWalks_memStep ..)).trans (spillUnits_spilling ..)

/-- The lanes of a call that must spill and are at their limit. -/
def callLimit (s : State) : Mask :=
  maskOf fun l => s.fullLanes.contains l && decide (s.me.uni.cslim.toNat ≤ (s.me.lane l).spill)
theorem callLimit_getLsbD (s : State) {l : Nat} (hl : l < 32) :
    s.callLimit.getLsbD l = true ↔
      l ∈ lanesOf s.cur.lanes ∧ 4 ≤ (s.me.lane l).stack.length ∧ s.me.uni.cslim.toNat ≤ (s.me.lane l).spill := by
  rw [callLimit, getLsbD_maskOf]
  simp [hl, fullLanes, and_assoc]

/-- A mask with a lane in it is not zero. -/
theorem mask_ne_zero {m : Mask} {l : Nat} (h : m.getLsbD l = true) : (m != 0#32) = true := by
  rw [bne_iff_ne]
  rintro rfl
  simp at h
theorem mask_eq_zero {m : Mask} (h : ∀ l < 32, ¬ m.getLsbD l = true) : ¬ (m != 0#32) = true := by
  rw [bne_iff_ne, not_not]
  exact BitVec.eq_of_getLsbD_eq fun i hi => by simpa using h i hi

section
variable {s : State} {target : Nat → Word} {xs : List (Nat × Nat × Checked)}

theorem callBody_trap (h : ∃ l ∈ lanesOf s.cur.lanes, 4 ≤ (s.me.lane l).stack.length ∧ s.me.uni.cslim.toNat ≤ (s.me.lane l).spill) :
    s.callBody target = .trap s (s.callTrap 1 s.callLimit) := by
  obtain ⟨l, hl, hbad⟩ := h
  exact if_pos (mask_ne_zero ((callLimit_getLsbD s ((mem_lanesOf ..).mp hl).1).mpr ⟨hl, hbad⟩))

theorem callLimit_ok (h : ∀ l ∈ s.fullLanes, (s.me.lane l).spill < s.me.uni.cslim.toNat) :
    ¬ (s.callLimit != 0#32) = true := by
  refine mask_eq_zero fun l hl hbad => ?_
  obtain ⟨hA, hfull, hlim⟩ := (callLimit_getLsbD s hl).mp hbad
  exact absurd (h l (List.mem_filter.mpr ⟨hA, by simpa using hfull⟩)) (Nat.not_lt.mpr hlim)

theorem callBody_wait (h : ∀ l ∈ s.fullLanes, (s.me.lane l).spill < s.me.uni.cslim.toNat) (hf : s.fullLanes ≠ [])
    (hb : s.warpBusy s.cur.core s.cur.slot = true) : s.callBody target = .wait s := by
  have hwaits : (!s.fullLanes.isEmpty && s.warpBusy s.cur.core s.cur.slot) = true := by simp [hf, hb]
  exact (if_neg (callLimit_ok h)).trans (if_pos hwaits)

/-- The model's write of a unit is `spillUnit`. -/
theorem spillUnit_eq {e : State} (he : Spilling s e) {x : Nat × Nat × Checked} (hx : x.2.1 = (s.me.lane x.1).spill) :
    (let bytes := ((s.me.lane x.1).stack.take 4).reverse.foldl (fun bs x => bs ++ leBytes 4 x.toNat) []
     if e.spaceLost e.myDie x.2.2.pa then e.pendAsync e.cur.core e.cur.slot (linkTrap 6 (peerOf x.2.2.pa) (e.spillAddr x.2.1 x.1))
     else e.coreWrite e.cur.core e.myCtx x.2.2.pa x.2.2.kid x.2.2.cache bytes) = s.spillUnit e x := by
  have haddr : e.spillAddr x.2.1 x.1 = s.spillAddr (s.me.lane x.1).spill x.1 := by rw [spillAddr, spillAddr, he.uni, hx]
  unfold spillUnit
  rw [haddr, List.flatMap_eq_foldl]
theorem spillUnits_eq {f : State → Nat × Nat × Checked → State} (hf : ∀ e, Spilling s e → ∀ x ∈ xs, f e x = s.spillUnit e x)
    {e : State} (he : Spilling s e) : xs.foldl f e = xs.foldl (spillUnit s) e := by
  induction xs generalizing e with
  | nil => rfl
  | cons x xs ih =>
    rw [List.foldl_cons, List.foldl_cons, hf e he x (by simp)]
    exact ih (fun e he y hy => hf e he y (by simp [hy])) (he.trans (spillUnit_spilling s e x))

theorem callBody_done (h : ∀ l ∈ s.fullLanes, (s.me.lane l).spill < s.me.uni.cslim.toNat)
    (hb : s.fullLanes = [] ∨ s.warpBusy s.cur.core s.cur.slot = false)
    (hc : s.spillChecks kSpill true (s.fullLanes.map fun l => (l, (s.me.lane l).spill)) = .ok xs)
    (hh : s.spillHold true xs = none)
    (hw : ∀ l ∈ s.fullLanes, s.coreWalkHold s.cur.core s.myCtx (s.spillAddr (s.me.lane l).spill l) = none) :
    s.callBody target = .done ((s.spilled xs).updMe fun w => w.updLanes s.cur.lanes fun l x =>
      if l ∈ s.fullLanes then { x with stack := [s.fallThrough], spill := x.spill + 1 }
      else { x with stack := s.fallThrough :: x.stack }) (.goto target) := by
  have hunits : ∀ x ∈ xs, x.2.1 = (s.me.lane x.1).spill := by
    intro x hx
    have hm : (x.1, x.2.1) ∈ xs.map fun x => (x.1, x.2.1) := List.mem_map_of_mem hx
    rw [spillChecks_units hc] at hm
    obtain ⟨l, -, hl⟩ := List.mem_map.mp hm
    obtain ⟨rfl, hk⟩ := Prod.mk.inj hl
    exact hk.symm
  have hsp := spilled_spilling s xs
  have hfall : (s.spilled xs).fallThrough = s.fallThrough := by simp only [fallThrough, hsp.cur]
  have hwalk : ∀ va ∈ s.fullLanes.map (fun l => s.spillAddr (s.me.lane l).spill l), s.coreWalkHold s.cur.core s.myCtx va = none := by
    simpa using hw
  have hfull : ((lanesOf s.cur.lanes).filter fun l => 4 ≤ (s.me.lane l).stack.length) = s.fullLanes := rfl
  unfold callBody
  dsimp only
  rw [hfull]
  refine (if_neg (callLimit_ok h)).trans ((if_neg ?_).trans ((walked_eq hwalk).trans ?_))
  · rcases hb with hb | hb <;> simp [hb]
  · rw [hc]
    dsimp only
    rw [hh]
    dsimp only
    generalize hE : List.foldl _ _ xs = E
    obtain rfl : E = s.spilled xs := hE.symm.trans
      (spillUnits_eq (fun e he x hx => spillUnit_eq he (hunits x hx)) (.of_memStep (noteWalks_memStep ..)))
    rw [hsp.cur, hfall]
    simp only [List.contains_iff_mem]

end

theorem exec_call (sc : BitVec 2) (j : BitVec 14) (s : State) :
    exec (.call sc j) s = .next (s.issue (.call sc j) sc fun s => s.callBody fun _ => s.laneTarget j) := rfl
theorem exec_calli (sc : BitVec 2) (a : BitVec 7) (s : State) :
    exec (.calli sc a) s = .next (s.issue (.calli sc a) sc (calliBody a)) := rfl
theorem exec_scall (sc : BitVec 2) (o : BitVec 22) (s : State) :
    exec (.scall sc o) s = .next (s.issue (.scall sc o) sc fun s => s.callBody fun _ => relTarget s.cur.pc o.toInt) := rfl

/-- CALLI whose targets are aligned calls them. -/
theorem calliBody_eq {s : State} {a : BitVec 7} (h : ∀ l ∈ lanesOf s.cur.lanes, (s.val a.toNat l).toNat % 4 = 0) :
    calliBody a s = s.callBody (s.val a.toNat) := by
  unfold calliBody
  rw [badTargets_eq_nil fun k hk hl => h k ((mem_lanesOf ..).mpr ⟨hk, hl⟩)]

/-- Each of the three calls runs `callBody` with its target. -/
theorem exec_calls {s : State} {sc : BitVec 2} {a : BitVec 7} {o : BitVec 22} {j : BitVec 14} {i : Instr} {target : Nat → Word}
    (hi : (i, target) ∈ [(Instr.call sc j, fun _ => s.laneTarget j), (.calli sc a, s.val a.toNat),
      (.scall sc o, fun _ => relTarget s.cur.pc o.toInt)])
    (ha : i = .calli sc a → ∀ l ∈ lanesOf s.cur.lanes, (s.val a.toNat l).toNat % 4 = 0) :
    ∃ body, exec i s = .next (s.issue i sc body) ∧ body s = s.callBody target := by
  simp only [List.mem_cons, List.not_mem_nil, or_false, Prod.mk.injEq] at hi
  rcases hi with ⟨rfl, rfl⟩ | ⟨rfl, rfl⟩ | ⟨rfl, rfl⟩
  · exact ⟨_, exec_call .., rfl⟩
  · exact ⟨_, exec_calli .., calliBody_eq (ha rfl)⟩
  · exact ⟨_, exec_scall .., rfl⟩

/-- Settles O17: the call waits (`callBody_wait`) or is done (`callBody_done`), and the units written are `spilled`. -/
theorem callResults : Obligations.CallResults := by
  intro s sc a o j xs i target A full addr unit e hi halign hlim hchecks hhold
  obtain ⟨body, hexec, hbody⟩ := exec_calls hi halign
  refine ⟨fun hfull hbusy hr => exec_wait hexec hr (hbody.trans (callBody_wait hlim hfull hbusy)), fun hfree hwalk => ?_⟩
  have hsp : Spilling s e := spilled_spilling s xs
  refine ⟨hsp.cur, fun l _ => hsp.lane l, fun hnone => ?_,
    does hexec (hbody.trans (callBody_done hlim hfree hchecks hhold hwalk)) rfl⟩
  have hnil : xs = [] := List.map_eq_nil_iff.mp ((spillChecks_units hchecks).trans (by rw [hnone]; rfl))
  show s.spilled xs = s
  rw [spilled, hnil, show s.fullLanes = [] from hnone]
  rfl

/-! ### Returns -/

theorem exec_returns {s : State} {sc : BitVec 2} {i : Instr} (hi : i ∈ [Instr.ret sc, .sret sc]) :
    exec i s = .next (s.issue i sc retBody) := by
  simp only [List.mem_cons, List.not_mem_nil, or_false] at hi
  rcases hi with rfl | rfl <;> rfl

/-- The lanes of Active with nothing on their stacks. -/
def emptyLanes (s : State) : List Nat := (lanesOf s.cur.lanes).filter fun l => (s.me.lane l).stack.isEmpty

/-- The lanes of a return that have nothing to pop and nothing to refill. -/
def retLimit (s : State) : Mask := maskOf fun l => s.emptyLanes.contains l && (s.me.lane l).spill = 0
theorem retLimit_getLsbD (s : State) {l : Nat} (hl : l < 32) :
    s.retLimit.getLsbD l = true ↔
      l ∈ lanesOf s.cur.lanes ∧ (s.me.lane l).stack = [] ∧ (s.me.lane l).spill = 0 := by
  rw [retLimit, getLsbD_maskOf]
  simp [hl, emptyLanes, and_assoc]

section
variable {s : State}

theorem retBody_trap (h : ∃ l ∈ lanesOf s.cur.lanes, (s.me.lane l).stack = [] ∧ (s.me.lane l).spill = 0) :
    s.retBody = .trap s (s.callTrap 2 s.retLimit) := by
  obtain ⟨l, hl, hbad⟩ := h
  exact if_pos (mask_ne_zero ((retLimit_getLsbD s ((mem_lanesOf ..).mp hl).1).mpr ⟨hl, hbad⟩))

theorem retLimit_ok (h : ∀ l ∈ s.emptyLanes, (s.me.lane l).spill ≠ 0) :
    ¬ (s.retLimit != 0#32) = true := by
  refine mask_eq_zero fun l hl hbad => ?_
  obtain ⟨hA, hempty, hnone⟩ := (retLimit_getLsbD s hl).mp hbad
  exact h l (List.mem_filter.mpr ⟨hA, by simpa using hempty⟩) hnone

theorem retBody_wait (h : ∀ l ∈ s.emptyLanes, (s.me.lane l).spill ≠ 0) (he : s.emptyLanes ≠ [])
    (hb : s.warpBusy s.cur.core s.cur.slot = true) : s.retBody = .wait s := by
  have hwaits : (!s.emptyLanes.isEmpty && s.warpBusy s.cur.core s.cur.slot) = true := by simp [he, hb]
  exact (if_neg (retLimit_ok h)).trans (if_pos hwaits)

/-- The pop of each lane of Active, once every lane has an entry, and where the entries send them. -/
def popped (e : State) : Did :=
  .done (e.updMe fun w => w.updLanes e.cur.lanes fun _ x => { x with stack := x.stack.drop 1 })
    (.goto fun l => (e.me.lane l).stack.headD 0)

theorem does_popped {e : State} {i : Instr} {sc : BitVec 2} {body : State → Did} (hx : exec i s = .next (s.issue i sc body))
    (hb : body s = e.popped) (hc : e.cur = s.cur) :
    s.Does i sc (e.updMe fun w => w.updLanes s.cur.lanes fun _ x => { x with stack := x.stack.drop 1 })
      (some fun l => (e.me.lane l).stack.headD 0) := by
  rw [← hc]
  exact does hx hb rfl

theorem retBody_pops (h : s.emptyLanes = []) : s.retBody = s.popped := by
  have hwalk : ∀ va ∈ s.emptyLanes.map (fun l => s.spillAddr ((s.me.lane l).spill - 1) l),
      s.coreWalkHold s.cur.core s.myCtx va = none := by simp [h]
  have hempty : ((lanesOf s.cur.lanes).filter fun l => (s.me.lane l).stack.isEmpty) = s.emptyLanes := rfl
  unfold retBody
  dsimp only
  rw [hempty]
  refine (if_neg (retLimit_ok (by simp [h]))).trans ((if_neg (by simp [h])).trans ((walked_eq hwalk).trans ?_))
  rw [h]
  rfl

/-- Lane `l` has refilled its last unit, read with the check `k`. -/
def refilled (n : State) (l : Nat) (k : Checked) : State :=
  let r := n.coreRead n.cur.core k.pa k.kid k.cache (pteRoh k.tlb.entry) 16
  let e := r.1.updMe fun w => w.updLane l fun x => { x with stack := stackOf r.2, spill := x.spill - 1 }
  if n.consumes n.cur.core k.pa k.cache 16 then e.machineErr e.cur.core e.cur.slot e.myCtx k.pa else e

theorem noteWalks_spaceLost (s : State) (vas : List DWord) (d pa : Nat) :
    (s.noteWalks vas).spaceLost d pa = s.spaceLost d pa := by
  rw [(noteWalks_memStep s vas).device]
  rfl

theorem retBody_refills {l : Nat} {k : Checked} (he : s.emptyLanes = [l]) (hs : (s.me.lane l).spill ≠ 0)
    (hb : s.warpBusy s.cur.core s.cur.slot = false) (hc : s.spillCheck kRefill false ((s.me.lane l).spill - 1) l = .ok k)
    (hh : s.coreHold k.pa k.cache false = none) (hlost : s.spaceLost s.myDie k.pa = false)
    (hw : s.coreWalkHold s.cur.core s.myCtx (s.spillAddr ((s.me.lane l).spill - 1) l) = none) :
    s.retBody = ((s.noteWalks [s.spillAddr ((s.me.lane l).spill - 1) l]).refilled l k).popped := by
  have hwalk : ∀ va ∈ [l].map (fun l => s.spillAddr ((s.me.lane l).spill - 1) l),
      s.coreWalkHold s.cur.core s.myCtx va = none := by simpa using hw
  have hempty : ((lanesOf s.cur.lanes).filter fun l => (s.me.lane l).stack.isEmpty) = s.emptyLanes := rfl
  have hchecks : s.spillChecks kRefill false ([l].map fun l => (l, (s.me.lane l).spill - 1)) = .ok [(l, (s.me.lane l).spill - 1, k)] := by
    simp [spillChecks, hc]
  have hhold : s.spillHold false [(l, (s.me.lane l).spill - 1, k)] = none := by simp [spillHold, hh]
  unfold retBody
  dsimp only
  rw [hempty]
  refine (if_neg (retLimit_ok (by simpa [he] using hs))).trans ((if_neg (by simp [hb])).trans ?_)
  rw [he]
  refine (walked_eq hwalk).trans ?_
  rw [hchecks]
  dsimp only
  rw [hhold]
  refine congrArg popped (if_neg ?_)
  have hdie : (s.noteWalks [s.spillAddr ((s.me.lane l).spill - 1) l]).myDie = s.myDie := by
    rw [myDie, myDie, (noteWalks_memStep ..).cur]
  rw [List.map_singleton, hdie, noteWalks_spaceLost, hlost]
  simp

end

/-- The entries of a refilled unit, newest first: the oldest lies lowest (03 R45). -/
theorem stackOf_eq (bs : List Byte) :
    let word (n : Nat) : Word := BitVec.ofNat 32 (leNat ((bs.drop (4 * n)).take 4))
    stackOf bs = [word 3, word 2, word 1, word 0] := rfl

section
variable {s n : State}

/-- Refilling after steps of the memory system, said of the state before them. -/
theorem refilled_eq (hn : MemStep s n) (l : Nat) (k : Checked) :
    let r := n.coreRead s.cur.core k.pa k.kid k.cache (pteRoh k.tlb.entry) 16
    let e := r.1.updMe fun w => w.updLane l fun x => { x with stack := stackOf r.2, spill := x.spill - 1 }
    n.refilled l k = if n.consumes s.cur.core k.pa k.cache 16 then e.machineErr s.cur.core s.cur.slot s.myCtx k.pa else e := by
  intro r e
  have hr : MemStep s r.1 := hn.trans (coreRead_memStep ..)
  have hcur : e.cur = s.cur := (updMe_cur ..).trans hr.cur
  have hctx : e.myCtx = s.myCtx := by
    rw [myCtx, updMe_me, hr.me]
    rfl
  unfold refilled
  dsimp only
  rw [hn.cur, show (r.1.updMe _).cur = s.cur from hcur, show (r.1.updMe _).myCtx = s.myCtx from hctx]

theorem refilled_cur (hn : MemStep s n) (l : Nat) (k : Checked) : (n.refilled l k).cur = s.cur := by
  have hr : MemStep s (n.coreRead s.cur.core k.pa k.kid k.cache (pteRoh k.tlb.entry) 16).1 := hn.trans (coreRead_memStep ..)
  rw [refilled_eq hn]
  split
  · rw [machineErr_cur, updMe_cur, hr.cur]
  · rw [updMe_cur, hr.cur]

/-- The lane holds the four addresses of its unit, even where a record of the error wakes its warp. -/
theorem refilled_stack (hn : MemStep s n) (l : Nat) (k : Checked) : ((n.refilled l k).me.lane l).stack =
    stackOf (n.coreRead s.cur.core k.pa k.kid k.cache (pteRoh k.tlb.entry) 16).2 := by
  generalize hr : n.coreRead s.cur.core k.pa k.kid k.cache (pteRoh k.tlb.entry) 16 = r
  generalize he : (r.1.updMe fun w => w.updLane l fun x => { x with stack := stackOf r.2, spill := x.spill - 1 }) = e
  have hput : (e.me.lane l).stack = stackOf r.2 := by
    rw [← he, updMe_me, Warp.lane_updLane, if_pos rfl]
  have hsame : SameStacks e (n.refilled l k) := by
    rw [refilled_eq hn, hr, he]
    split
    · exact machineErr_sameStacks ..
    · exact .refl e
  have hcur : (n.refilled l k).cur = e.cur := by
    have hrs : MemStep s r.1 := hr ▸ hn.trans (coreRead_memStep ..)
    rw [refilled_cur hn, ← he, updMe_cur, hrs.cur]
  rw [me, hcur, hsame.stack]
  exact hput

end

/-- Settles O18: a return pops (`retBody_pops`) or refills first (`retBody_refills`), and a lane that cannot move traps
(`retBody_trap`, `callBody_trap`). -/
theorem returnResults : Obligations.ReturnResults := by
  intro s sc i hi A
  have hexec := exec_returns (s := s) hi
  refine ⟨fun hall => ?_, ?_, fun hbad hr => ?_, fun j o i' hi' hbad hr => ?_⟩
  · have hempty : s.emptyLanes = [] := List.filter_eq_nil_iff.mpr fun l hl => by simpa using hall l hl
    exact does_popped hexec (retBody_pops hempty) rfl
  · intro l k hA hstack hspill va hc hh hlost
    have hempty : s.emptyLanes = [l] := by
      unfold emptyLanes
      rw [show lanesOf s.cur.lanes = [l] from hA]
      simp [hstack]
    refine ⟨fun hbusy hr => exec_wait hexec hr (retBody_wait (by simpa [hempty] using hspill) (by simp [hempty]) hbusy), ?_⟩
    intro hfree hwalk n r word e₀ e
    have hn : MemStep s n := noteWalks_memStep ..
    have hr : MemStep s r.1 := hn.trans (coreRead_memStep ..)
    have he : n.refilled l k = e := refilled_eq hn l k
    have hcur : e.cur = s.cur := he ▸ refilled_cur hn l k
    refine ⟨hr.cur, hr.me, ?_⟩
    refine does_congr ((updMe_cur ..).trans hcur) (fun l' hl' ha => ?_)
      (does_popped hexec ((retBody_refills hempty hspill hfree hc hh hlost hwalk).trans (congrArg popped he)) hcur)
    obtain rfl : l' = l := by
      have hm : l' ∈ A := (mem_lanesOf ..).mpr ⟨hl', ha⟩
      simpa [hA] using hm
    rw [← he, refilled_stack hn]
    rfl
  · exact ⟨_, fun l hl => retLimit_getLsbD s hl, exec_trap hexec hr (retBody_trap hbad)⟩
  · refine ⟨_, fun l hl => callLimit_getLsbD s hl, ?_⟩
    simp only [List.mem_cons, List.not_mem_nil, or_false] at hi'
    rcases hi' with rfl | rfl
    · exact exec_trap (exec_call ..) hr (callBody_trap hbad)
    · exact exec_trap (exec_scall ..) hr (callBody_trap hbad)

end State
end Sys2Proof.Machine
end

section
/-! PROOFS (05 R72): memory keeps its one form. `memWf` speaks of the bytes of memory alone, so what leaves them alone keeps
it (`memWf_of_mem`), and what writes them goes through `memSet` and the steps of `MemStep`. What follows carries it through
the choices, the folds and the partial results that the model's functions are made of. -/

namespace Sys2Proof.Machine

/-- Memory is in its one form in the state that an instruction's body leaves. -/
def Did.memWf : Did → Prop
  | .done s _ => s.memWf
  | .trap s _ => s.memWf
  | .wait s => s.memWf

theorem Did.memWf_ite {p : Prop} [Decidable p] {a b : Did} (ha : a.memWf) (hb : b.memWf) :
    Did.memWf (if p then a else b) := by
  split <;> assumption

/-- The next state, where an instruction or event gives one, has memory in its one form. -/
def Outcome.memWf : Host.Outcome State Fault Refusal → Prop
  | .next t => t.memWf
  | _ => True

theorem Outcome.memWf_unit {p : Prop} [Decidable p] {f : Fault} {o : Host.Outcome State Fault Refusal}
    (ho : Outcome.memWf o) : Outcome.memWf (if p then .fault f else o) := by
  split
  · trivial
  · exact ho

theorem Outcome.memWf_ite {p : Prop} [Decidable p] {a b : State} (ha : a.memWf) (hb : b.memWf) :
    Outcome.memWf (if p then .next a else .next b) := by
  split <;> assumption

theorem Except.map_eq_ok {ε α β : Type} {f : α → β} {x : Except ε α} {y : β} (e : x.map f = .ok y) :
    ∃ a, x = .ok a ∧ f a = y := by
  cases x with
  | error => cases e
  | ok a => cases e; exact ⟨a, rfl, rfl⟩

theorem Except.eq_ok_of_toOption {ε α : Type} {x : Except ε α} {y : α} (e : x.toOption = some y) : x = .ok y := by
  cases x with
  | error => cases e
  | ok a => cases e; rfl

/-- What each step of a fold that may fail keeps, the fold keeps. -/
theorem Except.foldlM_ok {ε σ α : Type} {P : σ → Prop} {f : σ → α → Except ε σ}
    (hf : ∀ p x q, P p → f p x = .ok q → P q) {l : List α} {p q : σ} (hp : P p) (e : l.foldlM f p = .ok q) : P q := by
  induction l generalizing p with
  | nil => cases e; exact hp
  | cons x l ih =>
    rw [List.foldlM_cons] at e
    cases hx : f p x with
    | error y => rw [hx] at e; cases e
    | ok r => rw [hx] at e; exact ih (hf p x r hp hx) e

namespace State

variable {s t a b : State} {α β : Type} {p : Prop} [Decidable p]

theorem memWf_of_mem (hs : s.memWf) (e : t.mem = s.mem) : t.memWf := by
  unfold memWf
  rw [e]
  exact hs

theorem memWf_ite (ha : a.memWf) (hb : b.memWf) : (if p then a else b).memWf := by
  split <;> assumption

/-- A choice between a state and what a function makes of it. -/
theorem memWf_ite_else (hb : b.memWf) (hf : b.memWf → a.memWf) : (if p then a else b).memWf :=
  memWf_ite (hf hb) hb

theorem memWf_ite_then (ha : a.memWf) (hf : a.memWf → b.memWf) : (if p then a else b).memWf :=
  memWf_ite ha (hf ha)

theorem memWf_ite_fst {x y : State × β} (hx : x.1.memWf) (hy : y.1.memWf) : (if p then x else y).1.memWf := by
  split <;> assumption

theorem memWf_ite_snd {x y : β × State} (hx : x.2.memWf) (hy : y.2.memWf) : (if p then x else y).2.memWf := by
  split <;> assumption

theorem fst_memWf {q : State × β} {y : β} (hq : q.1.memWf) (e : q = (t, y)) : t.memWf := by
  subst e
  exact hq

theorem snd_memWf {q : β × State} {y : β} (hq : q.2.memWf) (e : q = (y, t)) : t.memWf := by
  subst e
  exact hq

theorem foldl_memWf {f : State → α → State} {l : List α} (hs : s.memWf) (hf : ∀ s x, s.memWf → (f s x).memWf) :
    (l.foldl f s).memWf :=
  List.foldlRecOn l f hs fun s h x _ => hf s x h

theorem foldlFst_memWf {f : State × β → α → State × β} {l : List α} {q : State × β} (hq : q.1.memWf)
    (hf : ∀ q x, q.1.memWf → (f q x).1.memWf) : (l.foldl f q).1.memWf :=
  List.foldlRecOn l f (motive := fun q => q.1.memWf) hq fun q h x _ => hf q x h

theorem foldlSnd_memWf {f : β × State → α → β × State} {l : List α} {q : β × State} (hq : q.2.memWf)
    (hf : ∀ q x, q.2.memWf → (f q x).2.memWf) : (l.foldl f q).2.memWf :=
  List.foldlRecOn l f (motive := fun q => q.2.memWf) hq fun q h x _ => hf q x h

end State
end Sys2Proof.Machine
end

section
/-! PROOFS (05 R72): memory keeps its one form. State, memory, counters and traps. -/

namespace Sys2Proof.Machine
namespace State

variable {s t : State}

/-! ### Access -/

theorem updCore_memWf {c f} (hs : s.memWf) : (s.updCore c f).memWf :=
  memWf_of_mem hs rfl

theorem updCc_memWf {c f} (hs : s.memWf) : (s.updCc c f).memWf :=
  updCore_memWf hs

theorem updWarp_memWf {c k f} (hs : s.memWf) : (s.updWarp c k f).memWf :=
  memWf_ite (updCore_memWf hs) (updCc_memWf hs)

theorem updPart_memWf {p f} (hs : s.memWf) : (s.updPart p f).memWf :=
  memWf_of_mem hs rfl

theorem updDie_memWf {d f} (hs : s.memWf) : (s.updDie d f).memWf :=
  memWf_of_mem hs rfl

theorem updCtx_memWf {h f} (hs : s.memWf) : (s.updCtx h f).memWf :=
  memWf_of_mem hs rfl

theorem updAlm_memWf {h f} (hs : s.memWf) : (s.updAlm h f).memWf :=
  updCtx_memWf hs

theorem updIo_memWf {f} (hs : s.memWf) : (s.updIo f).memWf :=
  memWf_of_mem hs rfl

theorem freshBytes_memWf {n} (hs : s.memWf) : (s.freshBytes n).2.memWf :=
  memWf_of_mem hs rfl

theorem newReq_memWf (hs : s.memWf) : s.newReq.2.memWf :=
  memWf_of_mem hs rfl

theorem setDevsts_memWf {b} (hs : s.memWf) : (s.setDevsts b).memWf :=
  updIo_memWf hs

/-! ### Mem -/

theorem charge_memWf {d i n} (hs : s.memWf) : (s.charge d i n).memWf :=
  updDie_memWf hs

/-! ### Translate -/

theorem tlbPut_memWf {d h vpn t} (hs : s.memWf) : (s.tlbPut d h vpn t).memWf := by
  unfold tlbPut
  dsimp only
  split
  · exact memWf_of_mem hs rfl
  · split
    · exact memWf_of_mem hs rfl
    · exact memWf_of_mem hs rfl

theorem vaRead_memWf {d h kind va n} {y} (hs : s.memWf) (e : s.vaRead d h kind va n = .ok (t, y)) : t.memWf := by
  unfold vaRead at e
  refine Except.foldlM_ok (P := fun p : State × List Byte => p.1.memWf) (fun p x q hp e => ?_) (p := (s, [])) hs e
  dsimp only at e
  cases hc : (p.1.meet false (p.1.walkHold d h (BitVec.ofNat 64 x.1))).check d h kind (BitVec.ofNat 64 x.1) with
  | error f => rw [hc] at e; cases e
  | ok c =>
    rw [hc] at e
    dsimp only [bind, Except.bind, pure, Except.pure] at e
    split at e
    · cases e
    · cases e
      exact (physRead_memStep ..).wf ((noteWalk_memStep ..).wf ((meet_memStep ..).wf hp))

theorem winWrite_memWf {c w phys bs} (hs : s.memWf) : (s.winWrite c w phys bs).memWf :=
  updCc_memWf hs

/-! ### Counters -/

theorem ctrWrite_memWf {d h v a} (hs : s.memWf) : (s.ctrWrite d h v a).memWf := by
  unfold ctrWrite
  dsimp only
  split
  · exact updCc_memWf hs
  · exact memWf_ite ((targetWrite_memStep ..).wf hs) <|
      (markCtrPage_memStep ..).wf ((homePut_memStep ..).wf (memWf_ite ((keepPage_memStep ..).wf hs) hs))

theorem finishWait_memWf {c k w} (hs : s.memWf) : (s.finishWait c k w).memWf :=
  (acquireAt_memStep ..).wf (updWarp_memWf hs)

theorem wakePeer_memWf {peer v} (hs : s.memWf) : (s.wakePeer peer v).memWf :=
  updIo_memWf hs

theorem wakeWith_memWf {c k v} (hs : s.memWf) : (s.wakeWith c k v).memWf := by
  unfold wakeWith
  refine memWf_ite (wakePeer_memWf hs) (memWf_ite ((post_memStep ..).wf hs) ?_)
  split
  · exact memWf_ite (finishWait_memWf hs) hs
  · exact hs

theorem setWaiterList_memWf {d l a} (hs : s.memWf) : (s.setWaiterList d l a).memWf := by
  unfold setWaiterList
  split
  · exact updCore_memWf hs
  · exact memWf_of_mem hs rfl

theorem ctrNotify_memWf {d home v} (hs : s.memWf) : (s.ctrNotify d home v).memWf :=
  (postAll_memStep ..).wf (foldl_memWf (memWf_ite (setWaiterList_memWf hs) hs) fun _ _ => wakeWith_memWf)

theorem ctrAdd_memWf {d h home inc} {y} (hs : s.memWf) (e : s.ctrAdd d h home inc = some (y, t)) : t.memWf := by
  unfold ctrAdd at e
  dsimp only at e
  split at e
  · cases e
  · cases e
    exact ctrNotify_memWf (ctrWrite_memWf hs)

theorem ctrPark_memWf {d c k home thr} (hs : s.memWf) : (s.ctrPark d c k home thr).memWf := by
  unfold ctrPark
  refine memWf_ite (updCore_memWf hs) (memWf_ite (setWaiterList_memWf hs) ?_)
  dsimp only
  split
  · exact updCore_memWf hs
  · exact memWf_ite (updCore_memWf hs) (memWf_of_mem hs rfl)

theorem trimWatches_memWf {c} (hs : s.memWf) : (s.trimWatches c).memWf :=
  memWf_of_mem hs rfl

theorem dropWaiters_memWf {c k} (hs : s.memWf) : (s.dropWaiters c k).memWf :=
  trimWatches_memWf (updCore_memWf (memWf_of_mem hs rfl))

theorem unhold_memWf {key} (hs : s.memWf) : (s.unhold key).memWf :=
  memWf_of_mem hs rfl

theorem setReclost_memWf {h} (hs : s.memWf) : (s.setReclost h).memWf :=
  updCtx_memWf hs

theorem makeAdd_memWf {d h what name home inc scope fail} (hs : s.memWf) (hfail : ∀ s, s.memWf → (fail s).memWf) :
    (s.makeAdd d h what name home inc scope fail).memWf := by
  unfold makeAdd
  dsimp only
  split
  · exact (hold_memStep ..).wf (memWf_of_mem hs rfl)
  · split
    · rename_i e
      exact ctrAdd_memWf hs e
    · exact hfail _ hs

theorem noteAdd_memWf {d h va inc} (hs : s.memWf) : (s.noteAdd d h va inc).memWf := by
  unfold noteAdd
  refine memWf_ite (setReclost_memWf hs) ?_
  split
  · exact makeAdd_memWf hs fun _ => setReclost_memWf
  · exact setReclost_memWf hs

theorem lsaWrite_memWf {d h rec} (hs : s.memWf) : (s.lsaWrite d h rec).memWf := by
  unfold lsaWrite
  refine memWf_ite (setReclost_memWf hs) ?_
  split
  · rename_i e
    exact updCtx_memWf ((vaWrite_memStep e).wf hs)
  · exact setReclost_memWf hs

theorem refusal_memWf {d h code addr} (hs : s.memWf) : (s.refusal d h code addr).memWf :=
  noteAdd_memWf (lsaWrite_memWf hs)

theorem faultRecord_memWf {h code core slot detail} (hs : s.memWf) : (s.faultRecord h code core slot detail).memWf :=
  noteAdd_memWf (lsaWrite_memWf hs)

theorem setNerr_memWf {core h k cause} (hs : s.memWf) : (s.setNerr core h k cause).memWf :=
  memWf_ite hs (faultRecord_memWf (memWf_of_mem hs rfl))

theorem agentAddFails_memWf {core h what name inc} (hs : s.memWf) : (s.agentAddFails core h what name inc).memWf := by
  unfold agentAddFails
  dsimp only
  split
  · exact setReclost_memWf hs
  · exact setNerr_memWf hs
  · exact memWf_of_mem (refusal_memWf (faultRecord_memWf hs)) rfl
  · exact faultRecord_memWf hs
  · exact faultRecord_memWf hs
  · exact faultRecord_memWf hs
  · exact faultRecord_memWf hs

theorem agentAddBig_memWf {core h what va inc scope} (hs : s.memWf) :
    (s.agentAddBig core h what va inc scope).memWf := by
  unfold agentAddBig
  dsimp only
  split
  · exact makeAdd_memWf hs fun _ => agentAddFails_memWf
  · exact agentAddFails_memWf hs

theorem agentAdd_memWf {core h what va inc scope} (hs : s.memWf) : (s.agentAdd core h what va inc scope).memWf :=
  agentAddBig_memWf hs

theorem agentAddNum_memWf {core h team what role n inc scope} (hs : s.memWf) :
    (s.agentAddNum core h team what role n inc scope).memWf := by
  unfold agentAddNum
  dsimp only
  split
  · exact makeAdd_memWf hs fun _ => agentAddFails_memWf
  · exact agentAddFails_memWf hs

theorem physAdd_memWf {va inc} (hs : s.memWf) (e : s.physAdd va inc = some t) : t.memWf := by
  unfold physAdd at e
  split at e
  · cases e
  · obtain ⟨⟨old, u⟩, hu, rfl⟩ := Option.map_eq_some_iff.mp e
    exact ctrAdd_memWf ((meet_memStep ..).wf hs) hu

/-! ### Ops -/

theorem updMe_memWf {f} (hs : s.memWf) : (s.updMe f).memWf :=
  updWarp_memWf hs

theorem offlinePart_memWf {p} (hs : s.memWf) : (s.offlinePart p).memWf := by
  unfold offlinePart
  refine memWf_ite hs ((postAll_memStep ..).wf (foldl_memWf ((postAll_memStep ..).wf ?_) fun _ _ => faultRecord_memWf))
  split
  · exact (post_memStep ..).wf (updPart_memWf hs)
  · exact updPart_memWf hs

theorem freeze_memWf {c k code} (hs : s.memWf) : (s.freeze c k code).memWf :=
  memWf_ite (offlinePart_memWf (faultRecord_memWf (memWf_of_mem (updWarp_memWf hs) (trace_recStep ..).mem))) <|
  (postAll_memStep ..).wf (faultRecord_memWf (memWf_of_mem (updWarp_memWf hs) (trace_recStep ..).mem))

theorem takeTrap_memWf {c k g t} (hs : s.memWf) : (s.takeTrap c k g t).memWf :=
  memWf_ite (freeze_memWf (updWarp_memWf hs)) <|
  memWf_ite (freeze_memWf (updWarp_memWf hs)) (updWarp_memWf (updWarp_memWf hs))

theorem pendAsync_memWf {c k t} (hs : s.memWf) : (s.pendAsync c k t).memWf :=
  updWarp_memWf hs

theorem putOff_memWf (hs : s.memWf) : s.putOff.memWf :=
  memWf_of_mem hs rfl

theorem syncTrap_memWf {t} (hs : s.memWf) : (s.syncTrap t).memWf :=
  memWf_ite (putOff_memWf hs) (memWf_of_mem (takeTrap_memWf hs) rfl)

theorem returnFromTrap_memWf {c k g} (hs : s.memWf) : (s.returnFromTrap c k g).memWf :=
  updWarp_memWf hs

theorem holdUnit_memWf {u n} (hs : s.memWf) : (s.holdUnit u n).memWf :=
  updCore_memWf hs

theorem stall_memWf {sc} (hs : s.memWf) : (s.stall sc).memWf :=
  updMe_memWf hs

theorem flow_memWf {f} (hs : s.memWf) : (s.flow f).memWf := by
  unfold flow
  split
  · exact updMe_memWf hs
  · exact updMe_memWf hs
  · exact hs

theorem repeated_memWf {n f} (hs : s.memWf) : (s.repeated n f).memWf := by
  unfold repeated
  dsimp only
  split
  · exact updMe_memWf hs
  · exact memWf_ite (updMe_memWf hs) (updMe_memWf (flow_memWf hs))

theorem complete_memWf {sc f} (hs : s.memWf) : (s.complete sc f).memWf := by
  unfold complete
  dsimp only
  split
  · exact repeated_memWf (stall_memWf hs)
  · exact flow_memWf (stall_memWf hs)

theorem issue_memWf {i sc body} (hs : s.memWf) (hbody : ∀ s, s.memWf → (body s).memWf) : (s.issue i sc body).memWf := by
  unfold issue
  split
  · exact putOff_memWf hs
  · split
    · exact syncTrap_memWf hs
    · have h := hbody s hs
      split <;> rename_i e <;> rw [e] at h
      · exact complete_memWf h
      · exact syncTrap_memWf h
      · exact putOff_memWf h

theorem markRegs_memWf {c k rs} (hs : s.memWf) : (s.markRegs c k rs).memWf :=
  memWf_ite hs (updCc_memWf hs)

theorem addResults_memWf {lat rs} (hs : s.memWf) : (s.addResults lat rs).memWf :=
  updMe_memWf (markRegs_memWf hs)

theorem addVar_memWf {file num n lanes req} (hs : s.memWf) : (s.addVar file num n lanes req).memWf :=
  memWf_ite hs (updMe_memWf hs)

theorem dropVar_memWf {c k req} (hs : s.memWf) : (s.dropVar c k req).memWf :=
  updWarp_memWf hs

end State
end Sys2Proof.Machine
end

section
/-! PROOFS (05 R72): memory keeps its one form. The bodies of lane, memory, control, uniform and counter instructions. -/

namespace Sys2Proof.Machine
namespace State

variable {s t : State}

/-! ### Operands -/

theorem laneOp_memWf {lat d f} (hs : s.memWf) : (s.laneOp lat d f).memWf :=
  addResults_memWf hs

theorem predOp_memWf {lat p f} (hs : s.memWf) : (s.predOp lat p f).memWf :=
  addResults_memWf hs

theorem flagOp_memWf {lat rs fl} (hs : s.memWf) : (s.flagOp lat rs fl).memWf :=
  Did.memWf_ite (memWf_ite_then (addResults_memWf hs) updMe_memWf) (updMe_memWf hs)

theorem fpOp_memWf {lat d f} (hs : s.memWf) : (s.fpOp lat d f).memWf :=
  flagOp_memWf hs

theorem packedOp_memWf {d f} (hs : s.memWf) : (s.packedOp d f).memWf :=
  fpOp_memWf hs

theorem controlWords_memWf {b ok body} (hs : s.memWf) (hbody : body.memWf) : (s.controlWords b ok body).memWf := by
  unfold controlWords
  split
  · exact hs
  · exact hbody

theorem uniOp_memWf {d x} (hs : s.memWf) : (s.uniOp d x).memWf :=
  addResults_memWf hs

theorem uniOp64_memWf {d x} (hs : s.memWf) : (s.uniOp64 d x).memWf :=
  addResults_memWf hs

/-! ### Requests -/

theorem walked_memWf {vas f} (hs : s.memWf) (hf : ∀ s, s.memWf → (f s).memWf) : (s.walked vas f).memWf :=
  Did.memWf_ite hs (hf _ ((noteWalks_memStep ..).wf hs))

theorem ask_memWf {op as file dest words scope lanes keep} (hs : s.memWf) :
    (s.ask op as file dest words scope lanes keep).memWf :=
  (post_memStep ..).wf (memWf_ite_then (memWf_of_mem hs rfl) addVar_memWf)

theorem request_memWf {op as file dest words scope} (hs : s.memWf) : (s.request op as file dest words scope).memWf :=
  memWf_ite_then (foldl_memWf hs fun _ _ => ask_memWf) holdUnit_memWf

theorem keepCode_memWf {c k pc n} (hs : s.memWf) : (s.keepCode c k pc n).memWf := by
  unfold keepCode
  dsimp only
  split
  · exact hs
  · refine memWf_ite ((coreWalk_memStep ..).wf hs) (updCore_memWf ((codeUnit_memStep ..).wf ?_))
    split
    · dsimp only
      exact (coreWalk_memStep ..).wf hs
    · dsimp only
      exact (fresh_memStep ..).wf ((coreWalk_memStep ..).wf hs)

theorem varResult_memWf {reg pred b} (hs : s.memWf) : (s.varResult reg pred b).memWf := by
  unfold varResult
  refine (post_memStep ..).wf (addVar_memWf ?_)
  dsimp only
  split
  · exact addVar_memWf (memWf_of_mem hs rfl)
  · exact memWf_of_mem hs rfl

theorem accRead_memWf {c a atHome} (hs : s.memWf) : (s.accRead c a atHome).1.memWf := by
  unfold accRead
  split
  · exact hs
  · exact memWf_ite_fst (memWf_ite_fst ((targetRead_memStep ..).wf hs) ((homeRead_memStep ..).wf hs)) <|
      (coreRead_memStep ..).wf hs

theorem accWrite_memWf {c h a atHome bs} (hs : s.memWf) : (s.accWrite c h a atHome bs).memWf := by
  unfold accWrite
  split
  · exact winWrite_memWf hs
  · exact memWf_ite (memWf_ite ((targetWrite_memStep ..).wf hs) ((homeWrite_memStep ..).wf hs)) <|
      (coreWrite_memStep ..).wf hs

theorem bytesAt_memWf {c l} (hs : s.memWf) : (s.bytesAt c l).1.memWf := by
  unfold bytesAt
  dsimp only
  refine foldlFst_memWf hs fun _ _ ht => ?_
  split
  · exact ht
  · dsimp only
    exact (coreRead_memStep ..).wf ht

theorem prefetch_memWf {c a l1} (hs : s.memWf) : (s.prefetch c a l1).memWf :=
  memWf_ite ((l1Put_memStep ..).wf ((l1Fill_memStep ..).wf ((l1Line_memStep ..).wf hs))) ((l2Line_memStep ..).wf hs)

theorem perform_memWf {r a} (hs : s.memWf) : (s.perform r a).1.memWf := by
  unfold perform
  refine memWf_ite_fst hs ?_
  dsimp only
  split
  · dsimp only
    exact accRead_memWf (bytesAt_memWf (bytesAt_memWf hs))
  · dsimp only
    exact prefetch_memWf hs
  · dsimp only
    exact accWrite_memWf hs
  · dsimp only
    exact accWrite_memWf (accRead_memWf (memWf_ite hs ((l1Drop_memStep ..).wf hs)))
  · dsimp only
    exact memWf_ite_else (accRead_memWf (memWf_ite hs ((l1Drop_memStep ..).wf hs))) accWrite_memWf

theorem machineErr_memWf {c k h pa} (hs : s.memWf) : (s.machineErr c k h pa).memWf :=
  faultRecord_memWf (memWf_ite (pendAsync_memWf hs) hs)

theorem serve_memWf {i} (hs : s.memWf) : (s.serve i).memWf := by
  unfold serve
  split
  · exact hs
  · refine memWf_ite hs ?_
    split
    · exact (hold_memStep ..).wf hs
    · refine memWf_ite ((post_memStep ..).wf hs) ?_
      split
      · exact (hold_memStep ..).wf hs
      · extract_lets bad s₁
        have h₁ : s₁.memWf := memWf_ite hs ((releaseAt_memStep ..).wf hs)
        split
        rename_i s₂ r e
        have h₂ : s₂.memWf := fst_memWf (foldlFst_memWf h₁ fun _ _ => perform_memWf) e
        extract_lets s₃ s₄ s₅ s₆
        have h₃ : s₃.memWf := memWf_ite h₂ ((acquireAt_memStep ..).wf h₂)
        have h₄ : s₄.memWf := by
          unfold s₄; split
          · exact memWf_ite (pendAsync_memWf h₃) h₃
          · exact h₃
        have h₅ : s₅.memWf := foldl_memWf h₄ fun _ _ => machineErr_memWf
        exact unhold_memWf (memWf_ite (memWf_of_mem h₅ rfl) ((post_memStep ..).wf (memWf_of_mem h₅ rfl)))

theorem letGo_memWf {i r k} (hs : s.memWf) : (s.letGo i r k).memWf :=
  updWarp_memWf (updWarp_memWf hs)

theorem arithLoad_memWf {i r k} (hs : s.memWf) : (s.arithLoad i r k).memWf :=
  memWf_ite_then (dropVar_memWf (updWarp_memWf hs)) takeTrap_memWf

theorem deliverReq_memWf {i} (hs : s.memWf) : (s.deliverReq i).memWf := by
  unfold deliverReq
  split
  · exact hs
  · refine memWf_ite hs ?_
    extract_lets s₁ s₂ s₃ s₄ s₅
    have h₁ : s₁.memWf := memWf_of_mem hs rfl
    split
    · exact arithLoad_memWf h₁
    · have h₂ : s₂.memWf := by
        unfold s₂; split
        · exact updWarp_memWf h₁
        · exact h₁
      have h₃ : s₃.memWf := updWarp_memWf h₂
      have h₄ : s₄.memWf := memWf_ite (markRegs_memWf h₃) h₃
      refine memWf_ite h₂ (dropVar_memWf ?_)
      unfold s₅; split
      · exact letGo_memWf h₄
      · exact h₄

/-! ### Residency -/

theorem updLaunch_memWf {l f} (hs : s.memWf) : (s.updLaunch l f).memWf :=
  memWf_of_mem hs rfl

theorem addWarp_memWf {c k t wid d lanes} (hs : s.memWf) : (s.addWarp c k t wid d lanes).memWf :=
  updCore_memWf hs

theorem coreChange_memWf {c start} (hs : s.memWf) : (s.coreChange c start).memWf :=
  memWf_ite_else (updDie_memWf hs) updCore_memWf

theorem noteStart_memWf {c l} (hs : s.memWf) : (s.noteStart c l).memWf :=
  memWf_ite hs (updCc_memWf (updLaunch_memWf hs))

theorem startTeam_memWf {c u l teamId trole prole wb cb} (hs : s.memWf) :
    (s.startTeam c u l teamId trole prole wb cb).memWf := by
  unfold startTeam
  extract_lets r d x t s₁ s₂ tm wd s₃ s₄
  have h₁ : s₁.memWf := memWf_ite (coreChange_memWf hs) hs
  have h₄ : s₄.memWf := (acquireAt_memStep ..).wf (updCc_memWf (updCore_memWf (noteStart_memWf h₁)))
  refine foldl_memWf h₄ fun _ _ ht => ?_
  split
  · exact addWarp_memWf ht
  · exact ht

theorem enterUnit_memWf {p r} (hs : s.memWf) : (s.enterUnit p r).1.memWf :=
  updPart_memWf hs

theorem beginUnit_memWf {p u} (hs : s.memWf) : (s.beginUnit p u).memWf := by
  unfold beginUnit
  dsimp only
  split
  · exact hs
  · exact foldl_memWf (updPart_memWf hs) fun _ _ => startTeam_memWf

theorem startUnit_memWf {p l index prole gang ptable place} (hs : s.memWf) :
    (s.startUnit p l index prole gang ptable place).memWf :=
  beginUnit_memWf (updPart_memWf hs)

theorem mapBlocks_memWf {c k want} (hs : s.memWf) : (s.mapBlocks c k want).memWf :=
  markRegs_memWf (updWarp_memWf hs)

theorem serveBlocks_memWf {s : State} {c a} (hs : s.memWf) : (s.serveBlocks c a).memWf := by
  unfold serveBlocks
  dsimp only
  split
  · exact hs
  · split
    · exact hs
    · split
      · exact serveBlocks_memWf (updCore_memWf hs)
      · exact memWf_ite (serveBlocks_memWf (memWf_ite_then (updCore_memWf (updWarp_memWf hs)) takeTrap_memWf)) <|
          memWf_ite hs (serveBlocks_memWf (updWarp_memWf (mapBlocks_memWf (updCore_memWf (updWarp_memWf hs)))))

theorem unmapBlocks_memWf {c k mask} (hs : s.memWf) : (s.unmapBlocks c k mask).memWf :=
  (post_memStep ..).wf (serveBlocks_memWf (updWarp_memWf hs))

theorem finishRrels_memWf {c k} (hs : s.memWf) : (s.finishRrels c k).memWf :=
  foldl_memWf hs fun _ _ ht => unmapBlocks_memWf (updWarp_memWf ht)

theorem balanceDump_memWf {c} (hs : s.memWf) : (s.balanceDump c).memWf :=
  foldl_memWf hs fun _ _ ht => memWf_of_mem ht (trace_recStep ..).mem

theorem completionAdd_memWf {c h cores d} (hs : s.memWf) : (s.completionAdd c h cores d).memWf := by
  unfold completionAdd
  dsimp only
  split
  · exact (hold_memStep ..).wf (memWf_of_mem (foldl_memWf hs fun _ _ => (releaseAt_memStep ..).wf) rfl)
  · exact agentAdd_memWf (foldl_memWf hs fun _ _ => (releaseAt_memStep ..).wf)

theorem endUnit_memWf {p u r} (hs : s.memWf) : (s.endUnit p u r).memWf := by
  unfold endUnit
  extract_lets +lift cores s₁ s₂ l last s₃ add s₄ s₅ s₆
  have h₃ : s₃.memWf := updLaunch_memWf (updPart_memWf (foldl_memWf hs fun _ _ => balanceDump_memWf))
  have h₄ : s₄.memWf := memWf_ite (completionAdd_memWf h₃) h₃
  have h₅ : s₅.memWf := by
    unfold s₅; split
    · exact memWf_ite ((post_memStep ..).wf h₄) h₄
    · exact h₄
  exact (postAll_memStep ..).wf (memWf_ite (memWf_of_mem h₅ rfl) h₄)

theorem endTeam_memWf {c t} (hs : s.memWf) : (s.endTeam c t).memWf := by
  unfold endTeam
  dsimp only
  split
  · exact hs
  · refine memWf_ite hs ?_
    split
    · exact memWf_ite_else (updCc_memWf hs) coreChange_memWf
    · exact memWf_ite_else (updPart_memWf (memWf_ite_else (updCc_memWf hs) coreChange_memWf)) endUnit_memWf

theorem copyHaltRecord_memWf {h c k t} (hs : s.memWf) : (s.copyHaltRecord h c k t).memWf :=
  faultRecord_memWf hs

theorem dropCopy_memWf {c n} (hs : s.memWf) : (s.dropCopy c n).memWf :=
  memWf_of_mem hs rfl

theorem orphan_memWf {c k} (hs : s.memWf) : (s.orphan c k).memWf :=
  updCc_memWf (memWf_of_mem hs rfl)

theorem endWarp_memWf {c k} (hs : s.memWf) : (s.endWarp c k).memWf :=
  (post_memStep ..).wf
    (endTeam_memWf
      (serveBlocks_memWf
        (updCc_memWf
          (updCore_memWf
            (orphan_memWf
              (dropWaiters_memWf
                (foldl_memWf (foldl_memWf hs fun _ _ ht => memWf_ite (faultRecord_memWf ht) (faultRecord_memWf ht))
                  fun _ _ => dropCopy_memWf)))))))

theorem exitLanes_memWf {c k m} (hs : s.memWf) : (s.exitLanes c k m).memWf :=
  updWarp_memWf hs

theorem reap_memWf {c k} (hs : s.memWf) : (s.reap c k).memWf :=
  memWf_ite (endWarp_memWf hs) hs

/-! ### Regions -/

theorem debugStop_memWf {aux code} (hs : s.memWf) : (s.debugStop aux code).memWf :=
  (postAll_memStep ..).wf (memWf_of_mem (updMe_memWf hs) (trace_recStep ..).mem)

theorem edgeStop_memWf {id edge} (hs : s.memWf) : (s.edgeStop id edge).memWf :=
  memWf_ite (debugStop_memWf hs) (memWf_ite (debugStop_memWf hs) hs)

theorem updTracker_memWf {c n f} (hs : s.memWf) : (s.updTracker c n f).memWf :=
  updCc_memWf hs

theorem trackerDone_memWf {c n} (hs : s.memWf) : (s.trackerDone c n).memWf := by
  unfold trackerDone
  split
  · exact memWf_ite ((post_memStep ..).wf hs) hs
  · exact hs

theorem openTracker_memWf {id} (hs : s.memWf) : (s.openTracker id).memWf := by
  unfold openTracker
  dsimp only
  split
  · exact (countEv_memStep ..).wf (updCore_memWf hs)
  · exact updCc_memWf hs

theorem closeTracker_memWf {depth} (hs : s.memWf) : (s.closeTracker depth).memWf := by
  unfold closeTracker
  dsimp only
  split
  · exact trackerDone_memWf (updTracker_memWf hs)
  · exact hs

theorem writeTile_memWf {c n} (hs : s.memWf) : (s.writeTile c n).memWf := by
  unfold writeTile
  split
  · exact memWf_ite (updCc_memWf (memWf_of_mem hs (trace_recStep ..).mem)) hs
  · exact hs

theorem beginCapture_memWf {h trigger} (hs : s.memWf) : (s.beginCapture h trigger).memWf :=
  memWf_ite hs (updCtx_memWf hs)

theorem endCapture_memWf {h} (hs : s.memWf) : (s.endCapture h).memWf := by
  unfold endCapture
  refine memWf_ite hs ?_
  dsimp only
  split
  · exact (post_memStep ..).wf hs
  · refine updCtx_memWf (memWf_of_mem (foldlSnd_memWf hs fun _ _ ht => ?_) (trace_recStep ..).mem)
    split
    · dsimp only
      exact (fresh_memStep ..).wf ((fresh_memStep ..).wf ht)
    · exact ht

theorem regionRecord_memWf {aux id} (hs : s.memWf) : (s.regionRecord aux id).memWf :=
  memWf_of_mem hs (trace_recStep ..).mem

theorem rgnentBody_memWf {a} (hs : s.memWf) : (rgnentBody a s).memWf :=
  Did.memWf_ite hs <|
  Did.memWf_ite hs <|
  edgeStop_memWf
    (memWf_ite_else (memWf_ite_else (updMe_memWf (regionRecord_memWf hs)) openTracker_memWf) beginCapture_memWf)

theorem rgnlveBody_memWf {a} (hs : s.memWf) : (rgnlveBody a s).memWf := by
  unfold rgnlveBody
  dsimp only
  split
  · exact hs
  · exact Did.memWf_ite hs <|
      edgeStop_memWf
        (memWf_ite_else (closeTracker_memWf (updMe_memWf (regionRecord_memWf hs))) fun h => (post_memStep ..).wf h)

theorem afterTrap_memWf {t} (hs : s.memWf) : (s.afterTrap t).memWf :=
  Did.memWf_ite hs (flow_memWf hs)

/-! ### LaneMem -/

theorem accDo_memWf {r f} (hs : s.memWf) (hf : ∀ s x, s.memWf → (f s x).memWf) : (s.accDo r f).memWf := by
  unfold accDo
  split
  · exact hs
  · exact hf _ _ hs

theorem keepAtHome_memWf {op} (hs : s.memWf) : (s.keepAtHome op).memWf :=
  updMe_memWf hs

theorem load_memWf {t d as} (hs : s.memWf) : (s.load t d as).memWf := by
  unfold load
  refine Did.memWf_ite (Did.memWf_ite hs (Did.memWf_ite hs ?_)) (request_memWf hs)
  dsimp only
  split
  · exact hs
  · exact Did.memWf_ite (request_memWf hs) (keepAtHome_memWf (ask_memWf hs))

theorem ldBody_memWf {t d a b c r} (hs : s.memWf) : (ldBody t d a b c r s).memWf := by
  unfold ldBody
  exact walked_memWf hs fun _ ht => accDo_memWf ht (fun _ _ => load_memWf)

theorem stBody_memWf {t d a b c} (hs : s.memWf) : (stBody t d a b c s).memWf :=
  walked_memWf hs fun _ ht => accDo_memWf ht (fun _ _ => request_memWf)

theorem winDo_memWf {write r f} (hs : s.memWf) (hf : ∀ s x, s.memWf → (f s x).memWf) : (s.winDo write r f).memWf :=
  accDo_memWf hs fun _ _ ht => Did.memWf_ite ht (hf _ _ ht)

theorem ldsBody_memWf {t d a r w} (hs : s.memWf) : (ldsBody t d a r w s).memWf :=
  winDo_memWf hs fun _ _ => load_memWf

theorem stsBody_memWf {t d a r w} (hs : s.memWf) : (stsBody t d a r w s).memWf :=
  winDo_memWf hs fun _ _ => request_memWf

theorem afterRelease_memWf {scope d} (hs : s.memWf) (hd : ∀ s, s.memWf → (d s).memWf) :
    (s.afterRelease scope d).memWf :=
  Did.memWf_ite hs (hd _ (memWf_ite hs ((releaseAt_memStep ..).wf hs)))

theorem atomBody_memWf {d a w o k} (hs : s.memWf) : (atomBody d a w o k s).memWf := by
  unfold atomBody
  exact walked_memWf hs fun _ ht => accDo_memWf ht (fun _ _ hu => afterRelease_memWf hu (fun _ hv => request_memWf hv))

theorem casBody_memWf {d a w k} (hs : s.memWf) : (casBody d a w k s).memWf := by
  unfold casBody
  exact walked_memWf hs fun _ ht => accDo_memWf ht (fun _ _ hu => afterRelease_memWf hu (fun _ hv => request_memWf hv))

theorem atomsBody_memWf {d a o k} (hs : s.memWf) : (atomsBody d a o k s).memWf :=
  winDo_memWf hs fun _ _ ht => afterRelease_memWf ht (fun _ hu => request_memWf hu)

theorem cassBody_memWf {d a k} (hs : s.memWf) : (cassBody d a k s).memWf :=
  winDo_memWf hs fun _ _ ht => afterRelease_memWf ht (fun _ hu => request_memWf hu)

theorem caddvBody_memWf {d x a y b} (hs : s.memWf) : (caddvBody d x a y b s).memWf := by
  unfold caddvBody
  refine walked_memWf hs fun _ ht => accDo_memWf ht fun _ _ hu => afterRelease_memWf hu fun _ hv => ?_
  exact (post_memStep ..).wf (keepAtHome_memWf (addVar_memWf (memWf_of_mem hv rfl)))

theorem prefBody_memWf {level va} (hs : s.memWf) : (prefBody level va s).memWf := by
  unfold prefBody
  exact walked_memWf hs fun _ ht => foldl_memWf ht (fun _ _ => ask_memWf)

/-! ### LaneControl -/

theorem callBody_memWf {target} (hs : s.memWf) : (callBody target s).memWf := by
  unfold callBody
  refine Did.memWf_ite hs (Did.memWf_ite hs (walked_memWf hs fun _ ht => ?_))
  dsimp only
  split
  · exact hs
  · split
    · exact (snoop_memStep ..).wf hs
    · exact updMe_memWf (foldl_memWf ht fun _ _ hu => memWf_ite (pendAsync_memWf hu) ((coreWrite_memStep ..).wf hu))

theorem retBody_memWf (hs : s.memWf) : s.retBody.memWf := by
  unfold retBody
  refine Did.memWf_ite hs (Did.memWf_ite hs (walked_memWf hs fun _ ht => ?_))
  dsimp only
  split
  · exact hs
  · split
    · exact (snoop_memStep ..).wf hs
    · exact updMe_memWf
        (foldl_memWf ht fun _ _ hu =>
          memWf_ite (pendAsync_memWf (updMe_memWf hu)) <|
          memWf_ite_else (updMe_memWf ((coreRead_memStep ..).wf hu)) machineErr_memWf)

theorem placeThreads_memWf {s : State} {a b l} (hs : s.memWf) : (s.placeThreads a b l).1.memWf := by
  unfold placeThreads
  dsimp only
  split
  · exact hs
  · split
    · exact hs
    · exact placeThreads_memWf (memWf_ite_else (updCc_memWf hs) fun h => (post_memStep ..).wf h)

theorem spawnNext_memWf {n} (hs : s.memWf) : (s.spawnNext n).memWf :=
  updMe_memWf hs

theorem spawnBody_memWf {a b} (hs : s.memWf) : (spawnBody a b s).memWf := by
  unfold spawnBody
  dsimp only
  split
  · exact hs
  · refine Did.memWf_ite hs ?_
    split
    · rename_i e
      exact holdUnit_memWf (spawnNext_memWf (fst_memWf (placeThreads_memWf hs) e))
    · rename_i e
      exact holdUnit_memWf (spawnNext_memWf (fst_memWf (placeThreads_memWf hs) e))

theorem calliBody_memWf {a} (hs : s.memWf) : (calliBody a s).memWf := by
  unfold calliBody
  split
  · exact hs
  · exact callBody_memWf hs

/-! ### Uniform -/

theorem sldBody_memWf {d a b w} (hs : s.memWf) : (sldBody d a b w s).memWf := by
  unfold sldBody
  refine walked_memWf hs fun _ ht => ?_
  split
  · exact hs
  · exact request_memWf ht

theorem sstBody_memWf {d a b w} (hs : s.memWf) : (sstBody d a b w s).memWf := by
  unfold sstBody
  refine walked_memWf hs fun _ ht => ?_
  dsimp only
  split
  · exact hs
  · exact request_memWf ht

theorem srdBody_memWf {d x} (hs : s.memWf) : (srdBody d x s).memWf := by
  unfold srdBody
  refine Did.memWf_ite hs ?_
  dsimp only
  split
  · split
    · exact uniOp64_memWf hs
    · exact hs
  · exact Did.memWf_ite (uniOp64_memWf hs) (uniOp_memWf hs)

theorem setLpc_memWf {v} (hs : s.memWf) : (s.setLpc v).memWf := by
  unfold setLpc
  refine memWf_ite hs ?_
  split
  · exact hs
  · exact updMe_memWf hs

theorem setLst_memWf {v} (hs : s.memWf) : (s.setLst v).memWf := by
  unfold setLst
  refine memWf_ite hs ?_
  split
  · exact hs
  · exact memWf_ite (exitLanes_memWf hs) hs
  · exact memWf_ite (updMe_memWf hs) (memWf_ite (exitLanes_memWf hs) hs)

theorem setSreg_memWf {x v wide} (hs : s.memWf) : (s.setSreg x v wide).memWf :=
  memWf_ite (updMe_memWf hs) <|
  memWf_ite (updMe_memWf hs) <|
  memWf_ite (updMe_memWf hs) <|
  memWf_ite (updMe_memWf hs) <|
  memWf_ite (updMe_memWf hs) <|
  memWf_ite (updMe_memWf hs) <|
  memWf_ite (updMe_memWf hs) <|
  memWf_ite (updCc_memWf hs) <|
  memWf_ite (updMe_memWf hs) <|
  memWf_ite (setLpc_memWf hs) <|
  memWf_ite (setLst_memWf hs) hs

theorem swrBody_memWf {d x} (hs : s.memWf) : (swrBody d x s).memWf :=
  Did.memWf_ite hs (Did.memWf_ite hs (Did.memWf_ite hs (setSreg_memWf hs)))

/-! ### UniCounter -/

theorem askHome_memWf {op} (hs : s.memWf) : (s.askHome op).memWf := by
  unfold askHome
  refine (post_memStep ..).wf (keepAtHome_memWf ?_)
  dsimp only
  split
  · exact addVar_memWf (memWf_of_mem hs rfl)
  · exact addVar_memWf (memWf_of_mem hs rfl)
  · exact addVar_memWf (memWf_of_mem hs rfl)
  · exact memWf_of_mem hs rfl

theorem ctrBody_memWf {kind f a b dest inc thr scope} (hs : s.memWf) :
    (s.ctrBody kind f a b dest inc thr scope).memWf := by
  unfold ctrBody
  refine walked_memWf hs fun _ ht => ?_
  dsimp only
  split
  · exact hs
  · exact Did.memWf_ite (afterRelease_memWf ht fun _ hu => askHome_memWf hu) (Did.memWf_ite hs (askHome_memWf ht))

theorem caddBody_memWf {d a b f k} (hs : s.memWf) : (caddBody d a b f k s).memWf :=
  ctrBody_memWf hs

theorem leaveHome_memWf {i op} (hs : s.memWf) : (s.leaveHome i op).memWf :=
  memWf_ite_then (memWf_of_mem hs rfl) fun h => dropVar_memWf (updWarp_memWf h)

theorem ctrAdvance_memWf {i op} (hs : s.memWf) : (s.ctrAdvance i op).memWf :=
  updWarp_memWf (leaveHome_memWf hs)

theorem ctrFail_memWf {i op t} (hs : s.memWf) : (s.ctrFail i op t).memWf :=
  memWf_ite_then (leaveHome_memWf hs) takeTrap_memWf

theorem putPair_memWf {op v} (hs : s.memWf) : (s.putPair op v).memWf :=
  memWf_ite hs (updWarp_memWf hs)

theorem applyAdds_memWf {s : State} {d h olds a} (hs : s.memWf) : (s.applyAdds d h olds a).1.memWf := by
  unfold applyAdds
  split
  · exact hs
  · split
    · rename_i e
      exact applyAdds_memWf (ctrAdd_memWf hs e)
    · exact applyAdds_memWf hs

theorem addvDone_memWf {i op olds} (hs : s.memWf) : (s.addvDone i op olds).memWf :=
  ctrAdvance_memWf (memWf_ite hs (markRegs_memWf (updWarp_memWf hs)))

theorem dropHolds_memWf {i d op home} (hs : s.memWf) : (s.dropHolds i d op home).memWf :=
  foldl_memWf (memWf_of_mem hs rfl) fun _ _ => unhold_memWf

theorem addvAtHome_memWf {i op} (hs : s.memWf) : (s.addvAtHome i op).memWf := by
  unfold addvAtHome
  dsimp only
  split
  · exact ctrAdvance_memWf hs
  · split
    · exact ctrFail_memWf hs
    · split
      · exact (hold_memStep ..).wf hs
      · split
        · exact ctrFail_memWf hs
        · exact addvDone_memWf (applyAdds_memWf hs)
  · exact (post_memStep ..).wf hs

theorem addvAbort_memWf {i op t} (hs : s.memWf) : (s.addvAbort i op t).memWf :=
  memWf_ite (ctrFail_memWf hs) ((postAll_memStep ..).wf (memWf_of_mem hs rfl))

theorem holdAt_memWf {i home} (hs : s.memWf) : (s.holdAt i home).memWf := by
  unfold holdAt
  dsimp only
  split
  · exact hs
  · split
    · exact addvAbort_memWf hs
    · split
      · exact (hold_memStep ..).wf hs
      · exact memWf_ite ((post_memStep ..).wf hs) ((post_memStep ..).wf (memWf_of_mem hs rfl))

theorem holdAnswered_memWf {i home yes} (hs : s.memWf) : (s.holdAnswered i home yes).memWf := by
  unfold holdAnswered
  dsimp only
  split
  · exact hs
  · split
    · split
      · exact addvAbort_memWf (memWf_of_mem hs rfl)
      · split
        · exact (post_memStep ..).wf (memWf_of_mem hs rfl)
        · exact (postAll_memStep ..).wf (memWf_of_mem hs rfl)
    · split
      · exact addvAbort_memWf hs
      · exact (post_memStep ..).wf hs

theorem applyAt_memWf {i home} (hs : s.memWf) : (s.applyAt i home).memWf := by
  unfold applyAt
  dsimp only
  split
  · exact hs
  · refine memWf_ite hs ?_
    split
    · exact addvAbort_memWf hs
    · exact memWf_ite (addvDone_memWf (applyAdds_memWf (dropHolds_memWf hs))) <|
        memWf_of_mem (applyAdds_memWf (dropHolds_memWf hs)) rfl

theorem releaseHold_memWf {i home} (hs : s.memWf) : (s.releaseHold i home).memWf := by
  unfold releaseHold
  dsimp only
  split
  · exact hs
  · split
    · exact ctrFail_memWf (dropHolds_memWf hs)
    · exact memWf_of_mem (dropHolds_memWf hs) rfl

theorem parkWait_memWf {i op} (hs : s.memWf) : (s.parkWait i op).memWf :=
  memWf_ite_then (leaveHome_memWf hs)
    fun h' => ctrPark_memWf (memWf_ite_else (updWarp_memWf h') fun h => (countDie_memStep ..).wf h)

theorem counterAtHome_memWf {i} (hs : s.memWf) : (s.counterAtHome i).memWf := by
  unfold counterAtHome
  split
  · exact hs
  · rename_i op _
    extract_lets d s₁ met s₂
    have h₁ : s₁.memWf := foldl_memWf hs fun _ _ => (releaseAt_memStep ..).wf
    have h₂ : s₂.memWf := memWf_ite h₁ (updWarp_memWf h₁)
    split
    · exact (hold_memStep ..).wf h₁
    · split
      · exact addvAtHome_memWf h₁
      · refine memWf_ite ?_ ?_
        · split
          · exact unhold_memWf (agentAddFails_memWf (memWf_of_mem h₁ rfl))
          · exact ctrFail_memWf h₁
        · split
          · exact (hold_memStep ..).wf h₁
          · split
            · split
              · rename_i e _
                exact unhold_memWf (memWf_of_mem (ctrAdd_memWf h₁ e) rfl)
              · exact unhold_memWf (agentAddFails_memWf (memWf_of_mem h₁ rfl))
              · rename_i e _
                exact ctrAdvance_memWf (putPair_memWf (ctrAdd_memWf h₁ e))
              · exact ctrFail_memWf h₁
            · exact ctrAdvance_memWf (putPair_memWf h₁)
            · exact ctrAdvance_memWf (memWf_ite ((acquireAt_memStep ..).wf h₂) h₂)
            · exact memWf_ite (ctrAdvance_memWf ((acquireAt_memStep ..).wf h₁)) (parkWait_memWf h₁)

theorem rereadSlow_memWf {c w home} (hs : s.memWf) : (s.rereadSlow c w home).memWf :=
  memWf_ite (wakeWith_memWf (updCore_memWf hs)) hs

theorem slowNotice_memWf {c line} (hs : s.memWf) : (s.slowNotice c line).memWf :=
  trimWatches_memWf (foldl_memWf hs fun _ _ => rereadSlow_memWf)

theorem rereadWait_memWf {c k park} (hs : s.memWf) : (s.rereadWait c k park).memWf := by
  unfold rereadWait
  dsimp only
  split
  · exact hs
  · split
    · split
      · exact takeTrap_memWf (updWarp_memWf (dropWaiters_memWf hs))
      · exact takeTrap_memWf (updWarp_memWf (dropWaiters_memWf hs))
    · exact memWf_ite (takeTrap_memWf (updWarp_memWf (dropWaiters_memWf hs))) <|
        memWf_ite (finishWait_memWf (dropWaiters_memWf hs)) <|
        memWf_ite (ctrPark_memWf (dropWaiters_memWf hs)) hs

theorem monitorHit_memWf {line} (hs : s.memWf) : (s.monitorHit line).memWf :=
  foldl_memWf hs fun _ _ ht => memWf_ite ((post_memStep ..).wf (updCore_memWf ht)) (rereadWait_memWf ht)

end State
end Sys2Proof.Machine
end

section
/-! PROOFS (05 R72): memory keeps its one form. The copy and matrix engines, services, the trace and the Vigil. -/

namespace Sys2Proof.Machine
namespace State

variable {s t : State}

/-! ### CopyEngine -/

theorem addScore_memWf {es} (hs : s.memWf) : (s.addScore es).memWf :=
  foldl_memWf hs fun _ _ => updCc_memWf

theorem dropScore_memWf {op} (hs : s.memWf) : (s.dropScore op).memWf :=
  memWf_of_mem hs rfl

theorem addLocks_memWf {c ls} (hs : s.memWf) : (s.addLocks c ls).memWf :=
  foldl_memWf hs fun _ _ => updCc_memWf

theorem runCopy_memWf {c n} (hs : s.memWf) : (s.runCopy c n).memWf := by
  unfold runCopy
  split
  · exact (postAfter_memStep ..).wf hs
  · exact hs

theorem startSlices_memWf {c} (hs : s.memWf) : (s.startSlices c).memWf := by
  unfold startSlices
  refine foldl_memWf hs fun _ _ ht => ?_
  dsimp only
  split
  · exact runCopy_memWf (updCc_memWf ht)
  · exact ht

theorem makeCopy_memWf {b dir x y mask scatter lock wait} (hs : s.memWf) :
    (s.makeCopy b dir x y mask scatter lock wait).2.memWf := by
  unfold makeCopy
  dsimp only
  refine updMe_memWf ?_
  split
  · exact memWf_ite_else (updCc_memWf (memWf_ite_else (addScore_memWf hs) addLocks_memWf)) updTracker_memWf
  · exact updCc_memWf (memWf_ite_else (addScore_memWf hs) addLocks_memWf)

theorem copyBody_memWf {a dir mask scatter} (hs : s.memWf) : (copyBody a dir mask scatter s).memWf := by
  unfold copyBody
  refine walked_memWf hs fun _ ht => ?_
  dsimp only
  split
  · exact hs
  · exact Did.memWf_ite hs (afterRelease_memWf ht fun _ hu => runCopy_memWf (makeCopy_memWf hu))

theorem updTeam_memWf {c t f} (hs : s.memWf) : (s.updTeam c t f).memWf :=
  updCc_memWf hs

theorem cpybBody_memWf {n a j r} (hs : s.memWf) : (cpybBody n a j r s).memWf := by
  unfold cpybBody
  refine walked_memWf hs fun _ ht => ?_
  dsimp only
  split
  · exact hs
  · exact Did.memWf_ite hs <|
      Did.memWf_ite hs <|
      Did.memWf_ite hs <|
      afterRelease_memWf ht fun _ hu =>
        Did.memWf_ite (startSlices_memWf (updCc_memWf (updTeam_memWf (makeCopy_memWf hu)))) <|
        updTeam_memWf (makeCopy_memWf hu)

theorem engineRead_memWf {c x k n} (hs : s.memWf) : (s.engineRead c x k n).1.memWf :=
  (coreRead_memStep ..).wf (memWf_ite (machineErr_memWf hs) hs)

theorem copyRead_memWf {c x va n} {y} (hs : s.memWf) (e : s.copyRead c x va n = .ok (t, y)) : t.memWf := by
  unfold copyRead at e
  split at e
  · split at e
    · split at e
      · cases e; exact hs
      · cases e
    · cases e
  · split at e
    · cases e
    · injection e with e
      exact fst_memWf (engineRead_memWf hs) e

theorem copyWrite_memWf {c x va bs} (hs : s.memWf) (e : s.copyWrite c x va bs = .ok t) : t.memWf := by
  unfold copyWrite at e
  split at e
  · split at e
    · split at e
      · cases e; exact foldl_memWf hs (fun _ _ => winWrite_memWf)
      · cases e
    · cases e
  · split at e
    · cases e
    · cases e; exact (coreWrite_memStep ..).wf hs

theorem copyScale_memWf {c x so dof} (hs : s.memWf) (e : s.copyScale c x so dof = .ok t) : t.memWf := by
  unfold copyScale at e
  split at e
  · refine Except.foldlM_ok (P := State.memWf) (fun p i q hp e => ?_) hs e
    dsimp only [bind, Except.bind] at e
    split at e
    · split at e
      · cases e; exact winWrite_memWf hp
      · obtain ⟨k, -, rfl⟩ := Except.map_eq_ok e
        exact (coreWrite_memStep ..).wf hp
    · split at e
      · cases e
      · rename_i hr
        obtain ⟨k, -, rfl⟩ := Except.map_eq_ok hr
        split at e
        · cases e; exact winWrite_memWf (engineRead_memWf hp)
        · obtain ⟨k, -, rfl⟩ := Except.map_eq_ok e
          exact (coreWrite_memStep ..).wf (engineRead_memWf hp)
  · split at e
    · cases e
    · cases e; exact hs
  · split at e
    · cases e
    · cases e; exact hs

theorem progress_memWf {c n rows bytes} (hs : s.memWf) : (s.progress c n rows bytes).memWf :=
  updCc_memWf hs

theorem moveScales_memWf {s : State} {c x so dof a} (hs : s.memWf) : (moveScales c x so dof a s).1.memWf := by
  unfold moveScales
  split
  · exact hs
  · refine memWf_ite_fst hs ?_
    split
    · exact hs
    · rename_i e
      exact moveScales_memWf (charge_memWf (copyScale_memWf hs e))

theorem movePieces_memWf {s : State} {c n i x so dof a} (hs : s.memWf) : (movePieces c n i x so dof a s).1.memWf := by
  unfold movePieces
  split
  · exact hs
  · extract_lets blocks
    have h₁ := moveScales_memWf (c := c) (x := x) (so := so) (dof := dof) (a := blocks) hs
    split <;> rename_i e <;> rw [e] at h₁
    · exact h₁
    · refine memWf_ite_fst h₁ ?_
      split
      · exact h₁
      · rename_i e
        have h₂ := copyRead_memWf h₁ e
        split
        · exact h₂
        · rename_i e
          exact movePieces_memWf
            (progress_memWf ((countEv_memStep ..).wf (charge_memWf (copyWrite_memWf h₂ e))))

theorem moveRows_memWf {s : State} {c n x a l a'} (hs : s.memWf) : (moveRows c n x a l a' s).1.memWf := by
  unfold moveRows
  dsimp only
  split
  · exact hs
  · split
    · rename_i e
      dsimp only
      exact fst_memWf (movePieces_memWf hs) e
    · rename_i e
      exact moveRows_memWf (progress_memWf (fst_memWf (movePieces_memWf hs) e))

theorem setBatches_memWf {c k l done} (hs : s.memWf) : (s.setBatches c k l done).memWf :=
  memWf_ite (updWarp_memWf hs) (updCc_memWf hs)

theorem engineAdd_memWf {c h t what name inc scope} (hs : s.memWf) : (s.engineAdd c h t what name inc scope).memWf := by
  unfold engineAdd
  split
  · exact agentAddNum_memWf hs
  · exact agentAdd_memWf hs

theorem batchStamps_memWf {c k num} (hs : s.memWf) : (s.batchStamps c k num).memWf := by
  unfold batchStamps
  refine foldl_memWf hs fun _ _ ht => ?_
  dsimp only
  split
  · exact trackerDone_memWf (updTracker_memWf ht)
  · exact ht

theorem pumpBatches_memWf {s : State} {c k h t a} (hs : s.memWf) : (s.pumpBatches c k h t a).memWf := by
  unfold pumpBatches
  dsimp only
  split
  · exact hs
  · split
    · exact hs
    · refine memWf_ite hs ?_
      split
      · exact (hold_memStep ..).wf hs
      · refine pumpBatches_memWf (setBatches_memWf (updCc_memWf (batchStamps_memWf ?_)))
        split
        · exact engineAdd_memWf (foldl_memWf ((releaseAt_memStep ..).wf hs) fun _ _ => engineAdd_memWf)
        · exact (releaseAt_memStep ..).wf hs

theorem finishCopy_memWf {c n x} (hs : s.memWf) : (s.finishCopy c n x).memWf := by
  unfold finishCopy
  extract_lets s₁ s₂ s₃ s₄
  have h₂ : s₂.memWf := startSlices_memWf (dropScore_memWf (updCc_memWf hs))
  split
  · split
    · exact (hold_memStep ..).wf h₂
    · exact memWf_ite (updCc_memWf h₂) (agentAdd_memWf ((releaseAt_memStep ..).wf (updCc_memWf h₂)))
  · exact memWf_ite (updCc_memWf (pumpBatches_memWf h₂)) (pumpBatches_memWf h₂)

theorem haltCopy_memWf {c n why dest} (hs : s.memWf) : (s.haltCopy c n why dest).memWf := by
  unfold haltCopy
  dsimp only
  split
  · exact hs
  · exact memWf_ite (pendAsync_memWf (updCc_memWf hs)) (dropCopy_memWf (copyHaltRecord_memWf hs))

theorem engineRun_memWf {c n first} (hs : s.memWf) : (s.engineRun c n first).memWf := by
  unfold engineRun
  refine memWf_ite (pumpBatches_memWf hs) ?_
  split
  · exact hs
  · refine memWf_ite hs (memWf_ite (memWf_ite (finishCopy_memWf hs) (pumpBatches_memWf hs))
      (memWf_ite ((postAfter_memStep ..).wf hs) ?_))
    split <;> rename_i e <;> have h := fst_memWf (moveRows_memWf hs) e
    · exact finishCopy_memWf h
    · exact (hold_memStep ..).wf h
    · exact memWf_ite ((post_memStep ..).wf h) (haltCopy_memWf h)

theorem retryCopies_memWf {c k} (hs : s.memWf) : (s.retryCopies c k).memWf :=
  (postAll_memStep ..).wf (updCc_memWf hs)

theorem sealBatch_memWf {name inc scope} (hs : s.memWf) : (s.sealBatch name inc scope).memWf :=
  pumpBatches_memWf (updMe_memWf (foldl_memWf hs fun _ _ => updTracker_memWf))

theorem csealBody_memWf {d a b f k} (hs : s.memWf) : (csealBody d a b f k s).memWf := by
  unfold csealBody
  refine Did.memWf_ite hs (Did.memWf_ite (sealBatch_memWf hs) (walked_memWf hs fun _ ht => ?_))
  dsimp only
  split
  · exact hs
  · exact Did.memWf_ite hs (sealBatch_memWf ht)

theorem cwaitbBody_memWf {n} (hs : s.memWf) : (cwaitbBody n s).memWf :=
  Did.memWf_ite hs ((acquireAt_memStep ..).wf hs)

theorem wdescBody_memWf {a w} (hs : s.memWf) : (wdescBody a w s).memWf := by
  unfold wdescBody
  refine Did.memWf_ite hs (Did.memWf_ite hs ?_)
  dsimp only
  split
  · exact hs
  · exact Did.memWf_ite hs (Did.memWf_ite hs (updCc_memWf hs))

/-! ### MatrixEngine -/

theorem enqueue_memWf {x es} (hs : s.memWf) : (s.enqueue x es).memWf := by
  unfold enqueue
  extract_lets c k n trs y s₁ s₂ s₃ s₄ s₅ s₆
  have h₂ : s₂.memWf := by
    unfold s₂; split
    · exact updTracker_memWf (addScore_memWf hs)
    · exact addScore_memWf hs
  have h₅ : s₅.memWf := updCc_memWf (updMe_memWf (foldl_memWf h₂ fun _ _ => updTracker_memWf))
  exact Did.memWf_ite hs ((post_memStep ..).wf (memWf_ite (addVar_memWf h₅) h₅))

theorem ldwBody_memWf {a} (hs : s.memWf) : (ldwBody a s).memWf := by
  unfold ldwBody
  refine Did.memWf_ite hs ?_
  dsimp only
  split
  · exact hs
  · exact enqueue_memWf hs

theorem wswapBody_memWf (hs : s.memWf) : s.wswapBody.memWf :=
  enqueue_memWf hs

theorem mmaBody_memWf {d a z} (hs : s.memWf) : (mmaBody d a z s).memWf := by
  unfold mmaBody
  refine Did.memWf_ite hs ?_
  dsimp only
  split
  · exact hs
  · split
    · exact hs
    · split
      · exact hs
      · exact Did.memWf_ite hs (enqueue_memWf hs)

theorem mmatBody_memWf {d a} (hs : s.memWf) : (mmatBody d a s).memWf := by
  unfold mmatBody
  refine Did.memWf_ite hs (Did.memWf_ite hs (Did.memWf_ite hs ?_))
  split
  · exact hs
  · exact Did.memWf_ite hs (enqueue_memWf hs)

theorem mpermBody_memWf {d a} (hs : s.memWf) : (mpermBody d a s).memWf := by
  unfold mpermBody
  refine Did.memWf_ite hs ?_
  split
  · exact hs
  · split
    · exact hs
    · exact enqueue_memWf hs

theorem mredBody_memWf {d a} (hs : s.memWf) : (mredBody d a s).memWf :=
  Did.memWf_ite hs <|
  Did.memWf_ite hs <|
  Did.memWf_ite hs <|
  Did.memWf_ite hs <|
  Did.memWf_ite hs <|
  Did.memWf_ite hs (enqueue_memWf hs)

theorem mrdBody_memWf {d a} (hs : s.memWf) : (mrdBody d a s).memWf :=
  Did.memWf_ite hs (Did.memWf_ite hs (enqueue_memWf hs))

theorem mstBody_memWf {d a} (hs : s.memWf) : (mstBody d a s).memWf := by
  unfold mstBody
  refine Did.memWf_ite hs ?_
  split
  · exact hs
  · split
    · exact hs
    · exact enqueue_memWf hs

theorem mzeroBody_memWf {d} (hs : s.memWf) : (mzeroBody d s).memWf := by
  unfold mzeroBody
  dsimp only
  split
  · exact hs
  · exact enqueue_memWf hs

theorem msignBody_memWf {n count} (hs : s.memWf) : (msignBody n count s).memWf := by
  unfold msignBody
  extract_lets c k cv cnt tot mask s₁ signers trs s₂ s₃ s₄
  have h₁ : s₁.memWf := by
    unfold s₁; split
    · exact updTracker_memWf hs
    · exact hs
  exact Did.memWf_ite hs (Did.memWf_ite hs (Did.memWf_ite hs (Did.memWf_ite hs
    (Did.memWf_ite (updMe_memWf (updTeam_memWf h₁)) (updTeam_memWf h₁)))))

theorem updMatrix_memWf {c f} (hs : s.memWf) : (s.updMatrix c f).memWf :=
  updCc_memWf hs

theorem startMatrix_memWf {c} (hs : s.memWf) : (s.startMatrix c).memWf := by
  unfold startMatrix
  extract_lets m now go s₁ m'
  have hgo : ∀ {t x put}, t.memWf → (go t x put).memWf := by
    intro t x put ht
    refine memWf_ite ht (memWf_ite ((postAfter_memStep ..).wf ht) ((postAfter_memStep ..).wf ?_))
    exact memWf_ite_then (foldl_memWf (updMatrix_memWf ht) fun _ _ => updTracker_memWf)
      fun h => (countEv_memStep ..).wf h
  clear_value go
  have h₁ : s₁.memWf := by
    unfold s₁; split
    · exact hgo hs
    · exact hs
  refine memWf_ite hs ?_
  split
  · exact hgo h₁
  · exact h₁

theorem matrixFlags_memWf {c k fl} (hs : s.memWf) : (s.matrixFlags c k fl).memWf :=
  memWf_ite hs (updWarp_memWf hs)

theorem writeRows_memWf {c x n} (hs : s.memWf) : (s.writeRows c x n).1.memWf := by
  unfold writeRows
  dsimp only
  split
  · split
    · dsimp only
      exact foldl_memWf hs fun _ _ ht => foldl_memWf ht (fun _ _ => winWrite_memWf)
    · exact hs
  · dsimp only
    exact updMatrix_memWf hs

theorem effect_memWf {c x} (hs : s.memWf) : (s.effect c x).memWf :=
  memWf_ite (updMatrix_memWf hs) <|
  memWf_ite (updMatrix_memWf hs) <|
  memWf_ite (memWf_ite hs (dropVar_memWf (markRegs_memWf (updWarp_memWf hs)))) (matrixFlags_memWf (writeRows_memWf hs))

theorem retireCmd_memWf {c x} (hs : s.memWf) : (s.retireCmd c x).memWf :=
  foldl_memWf (dropScore_memWf (effect_memWf hs)) fun _ _ ht => trackerDone_memWf (updTracker_memWf ht)

theorem retireMatrix_memWf {c} (hs : s.memWf) : (s.retireMatrix c).memWf := by
  unfold retireMatrix
  extract_lets now s₁ s₂
  have h₁ : s₁.memWf := by
    unfold s₁; split
    · exact memWf_ite (retireCmd_memWf (updMatrix_memWf hs)) hs
    · exact hs
  have h₂ : s₂.memWf := by
    unfold s₂; split
    · exact memWf_ite (retireCmd_memWf (updMatrix_memWf h₁)) h₁
    · exact h₁
  exact startMatrix_memWf h₂

/-! ### System -/

theorem readBlock_memWf {d h kind va} {y} (hs : s.memWf) (e : s.readBlock d h kind va = .ok (t, y)) : t.memWf := by
  unfold readBlock at e
  split at e
  · rename_i hr; cases e; exact vaRead_memWf hs hr
  · cases e

theorem fenceBody_memWf {e k} (hs : s.memWf) : (fenceBody e k s).memWf :=
  Did.memWf_ite (Did.memWf_ite hs (Did.memWf_ite hs ((acquireAt_memStep ..).wf hs))) <|
  afterRelease_memWf hs fun _ ht => Did.memWf_ite ht (Did.memWf_ite ht ((acquireAt_memStep ..).wf ht))

theorem cmntLine_memWf {o level pa} (hs : s.memWf) : (s.cmntLine o level pa).memWf :=
  memWf_ite_then (memWf_ite ((l1WriteBack_memStep ..).wf hs) ((l1Drop_memStep ..).wf hs))
    fun h => foldl_memWf h (fun _ _ ht => memWf_ite ((l2Clean_memStep ..).wf ht) ((l2Drop_memStep ..).wf ht))

theorem cmntPages_memWf {s : State} {o level a} (hs : s.memWf) : (cmntPages o level a s).1.memWf := by
  unfold cmntPages
  split
  · exact hs
  · extract_lets s₁ s₂
    have h₁ : s₁.memWf := (meet_memStep ..).wf hs
    have h₂ : s₂.memWf := (coreWalk_memStep ..).wf h₁
    split
    · exact h₁
    · exact memWf_ite_fst (cmntPages_memWf h₂) (cmntPages_memWf (foldl_memWf h₂ fun _ _ => cmntLine_memWf))

theorem cmntBody_memWf {a b l o} (hs : s.memWf) : (cmntBody a b l o s).memWf := by
  unfold cmntBody
  refine Did.memWf_ite hs (Did.memWf_ite hs ?_)
  split
  · rename_i e
    exact fst_memWf (cmntPages_memWf hs) e
  · rename_i e
    exact fst_memWf (cmntPages_memWf hs) e

theorem racqBody_memWf {m} (hs : s.memWf) : (racqBody m s).memWf :=
  Did.memWf_ite hs (serveBlocks_memWf (updCore_memWf (updMe_memWf hs)))

theorem racqNbBody_memWf {m p} (hs : s.memWf) : (racqNbBody m p s).memWf :=
  Did.memWf_ite hs (Did.memWf_ite (varResult_memWf hs) (varResult_memWf (mapBlocks_memWf hs)))

theorem rrelBody_memWf {m} (hs : s.memWf) : (rrelBody m s).memWf :=
  Did.memWf_ite hs (Did.memWf_ite (updMe_memWf hs) (unmapBlocks_memWf hs))

theorem updLazy_memWf {l j f} (hs : s.memWf) : (s.updLazy l j f).memWf :=
  memWf_of_mem hs rfl

theorem armSteal_memWf {l j} (hs : s.memWf) : (s.armSteal l j).memWf := by
  unfold armSteal
  split
  · exact (postAfter_memStep ..).wf (updCc_memWf hs)
  · exact hs

theorem passSteal_memWf {l j i} (hs : s.memWf) : (s.passSteal l j i).memWf :=
  memWf_ite ((post_memStep ..).wf hs) ((post_memStep ..).wf hs)

theorem forwardSteals_memWf {s : State} {l j a} (hs : s.memWf) : (s.forwardSteals l j a).memWf := by
  unfold forwardSteals
  dsimp only
  split
  · exact hs
  · split
    · exact hs
    · split
      · exact hs
      · exact memWf_ite (armSteal_memWf hs) (forwardSteals_memWf (passSteal_memWf (updLazy_memWf hs)))

theorem serveSteal_memWf {l j} (hs : s.memWf) : (s.serveSteal l j).memWf := by
  unfold serveSteal
  dsimp only
  split
  · exact hs
  · split
    · exact hs
    · exact memWf_ite hs (forwardSteals_memWf ((post_memStep ..).wf (updLazy_memWf hs)))

theorem rnextBody_memWf {d p} (hs : s.memWf) : (rnextBody d p s).memWf := by
  unfold rnextBody
  refine Did.memWf_ite hs ?_
  dsimp only
  split
  · exact varResult_memWf hs
  · rename_i l _
    have h := serveSteal_memWf (l := l) (j := (s.cc s.cur.core).lazyIndex) hs
    refine Did.memWf_ite (varResult_memWf (forwardSteals_memWf (updCc_memWf h)))
      (Did.memWf_ite (varResult_memWf h) ?_)
    exact memWf_ite_then (updMe_memWf (addVar_memWf (addVar_memWf (newReq_memWf h))))
      fun h => (post_memStep ..).wf (updCc_memWf h)

theorem serveUnstarted_memWf {l j} (hs : s.memWf) : (s.serveUnstarted l j).memWf :=
  foldl_memWf (updLaunch_memWf hs)
    fun _ _ ht => memWf_ite (passSteal_memWf ht) ((post_memStep ..).wf (updLaunch_memWf ht))

theorem stealAt_memWf {core requester} (hs : s.memWf) : (s.stealAt core requester).memWf := by
  unfold stealAt
  dsimp only
  split
  · exact memWf_ite (passSteal_memWf hs) ((postAfter_memStep ..).wf (updLaunch_memWf hs))
  · exact memWf_ite_else (updLazy_memWf hs) forwardSteals_memWf

theorem stealTimeout_memWf {core} (hs : s.memWf) : (s.stealTimeout core).memWf := by
  unfold stealTimeout
  dsimp only
  split
  · exact serveUnstarted_memWf hs
  · exact memWf_ite (forwardSteals_memWf (serveSteal_memWf hs)) hs

theorem stealAnswer_memWf {core lo hi} (hs : s.memWf) : (s.stealAnswer core lo hi).memWf := by
  unfold stealAnswer
  dsimp only
  split
  · exact updLazy_memWf hs
  · split
    · exact updLazy_memWf hs
    · split
      · exact updLazy_memWf hs
      · exact forwardSteals_memWf (dropVar_memWf (updWarp_memWf (updLazy_memWf hs)))

theorem launchBody_memWf {a} (hs : s.memWf) : (launchBody a s).memWf := by
  unfold launchBody
  refine afterRelease_memWf hs fun _ ht => Did.memWf_ite ht ?_
  dsimp only
  split
  · exact ht
  · rename_i e
    exact Did.memWf_ite (readBlock_memWf ht e) ((post_memStep ..).wf (updCc_memWf (readBlock_memWf ht e)))

theorem serviceBlock_memWf {d h k} {y} (hs : s.memWf) (e : s.serviceBlock d h k = some (t, y)) : t.memWf := by
  unfold serviceBlock at e
  dsimp only at e
  split at e
  · cases e
  · split at e
    · cases e
    · rename_i hr
      split at e
      · split at e
        · rename_i hb
          split at e
          · cases e; exact readBlock_memWf (vaRead_memWf hs hr) hb
          · cases e
        · cases e
      · cases e

theorem svcBody_memWf {n a} (hs : s.memWf) : (svcBody n a s).memWf := by
  unfold svcBody
  extract_lets va k d h none_
  refine Did.memWf_ite hs (Did.memWf_ite hs (afterRelease_memWf hs fun _ ht => ?_))
  split
  · exact ht
  · rename_i e
    have h₁ := readBlock_memWf ht e
    split
    · exact h₁
    · rename_i e
      have h₂ := serviceBlock_memWf h₁ e
      split
      · extract_lets i s₃
        have h₃ : s₃.memWf := (meet_memStep ..).wf ((meet_memStep ..).wf h₂)
        refine Did.memWf_ite h₃ (Did.memWf_ite h₃ ?_)
        split
        · exact h₃
        · rename_i e
          exact agentAdd_memWf ((vaWrite_memStep e).wf h₃)
      · exact h₂

theorem almanacOn_memWf {d h} (hs : s.memWf) : (s.almanacOn d h).1.memWf := by
  unfold almanacOn
  refine memWf_ite_fst hs ?_
  split
  · rename_i e
    dsimp only
    exact readBlock_memWf hs e
  · exact hs

theorem askClose_memWf {add} (hs : s.memWf) : (s.askClose add).memWf := by
  unfold askClose
  dsimp only
  refine memWf_ite ((post_memStep ..).wf (updAlm_memWf (almanacOn_memWf hs))) ?_
  split
  · exact agentAdd_memWf (almanacOn_memWf hs)
  · exact almanacOn_memWf hs

theorem ckptBody_memWf (hs : s.memWf) : s.ckptBody.memWf :=
  afterRelease_memWf hs fun _ => askClose_memWf

theorem ckptCounterBody_memWf {a b} (hs : s.memWf) : (ckptCounterBody a b s).memWf := by
  unfold ckptCounterBody
  refine walked_memWf hs fun _ ht => ?_
  split
  · exact hs
  · exact afterRelease_memWf ht fun _ hu => askClose_memWf hu

/-! ### Trace -/

theorem dropRecord_memWf {c} (hs : s.memWf) : (s.dropRecord c).memWf :=
  (countEv_memStep ..).wf (updCore_memWf hs)

theorem putRecord_memWf {c rec} (hs : s.memWf) : (s.putRecord c rec).memWf := by
  unfold putRecord
  dsimp only
  split
  · exact dropRecord_memWf (agentAddFails_memWf hs)
  · split
    · exact dropRecord_memWf (agentAddFails_memWf hs)
    · rename_i e
      split
      · exact dropRecord_memWf (ctrAdd_memWf hs e)
      · rename_i e'
        split
        · rename_i e''
          exact charge_memWf ((vaWrite_memStep e'').wf ((vaWrite_memStep e').wf (ctrAdd_memWf hs e)))
        · exact dropRecord_memWf ((vaWrite_memStep e').wf (ctrAdd_memWf hs e))

theorem putLost_memWf {c} (hs : s.memWf) : (s.putLost c).memWf :=
  memWf_ite hs (memWf_ite_then (memWf_ite_else (updCore_memWf hs) putRecord_memWf) agentAdd_memWf)

theorem writeTrace_memWf {c} (hs : s.memWf) : (s.writeTrace c).memWf := by
  unfold writeTrace
  dsimp only
  split
  · exact hs
  · refine memWf_ite (updCore_memWf hs) (memWf_ite ((hold_memStep ..).wf hs) ?_)
    split
    · exact (hold_memStep ..).wf hs
    · exact putRecord_memWf (updCore_memWf (putLost_memWf hs))

theorem flushTrace_memWf {s : State} {c a} (hs : s.memWf) : (s.flushTrace c a).memWf := by
  unfold flushTrace
  dsimp only
  split
  · exact hs
  · split
    · exact hs
    · exact memWf_ite (flushTrace_memWf (dropRecord_memWf (updCore_memWf hs))) <|
        flushTrace_memWf (putRecord_memWf (putLost_memWf (updCore_memWf hs)))

/-! ### Vigil -/

theorem updVslot_memWf {k f} (hs : s.memWf) : (s.updVslot k f).memWf :=
  memWf_of_mem hs rfl

theorem applyAction_memWf {core h k a} (hs : s.memWf) : (s.applyAction core h k a).memWf :=
  memWf_ite hs (memWf_ite (updVslot_memWf hs) (memWf_ite (memWf_ite (setNerr_memWf hs) (updVslot_memWf hs)) hs))

theorem makeNotes_memWf {core h k notes} (hs : s.memWf) : (s.makeNotes core h k notes).memWf :=
  foldl_memWf hs fun _ _ => agentAdd_memWf

theorem tokBody_memWf {kind d a b} (hs : s.memWf) : (tokBody kind d a b s).memWf := by
  unfold tokBody
  refine Did.memWf_ite hs (Did.memWf_ite hs ?_)
  dsimp only
  split
  · exact hs
  · exact afterRelease_memWf hs fun _ ht =>
      Did.memWf_ite ((post_memStep ..).wf (addVar_memWf (memWf_of_mem ht rfl))) <|
      (post_memStep ..).wf (keepAtHome_memWf (addVar_memWf (memWf_of_mem ht rfl)))

theorem tokarmBody_memWf {a b} (hs : s.memWf) : (tokarmBody a b s).memWf := by
  unfold tokarmBody
  refine Did.memWf_ite hs (Did.memWf_ite hs (Did.memWf_ite hs (afterRelease_memWf hs fun _ ht => ?_)))
  dsimp only
  split
  · exact ht
  · rename_i e
    refine Did.memWf_ite (vaRead_memWf ht e) ?_
    split
    · exact vaRead_memWf ht e
    · exact (post_memStep ..).wf (updMe_memWf (memWf_of_mem (newReq_memWf (vaRead_memWf ht e)) rfl))

theorem afterStep_memWf {k ev} (hs : s.memWf) : (s.afterStep k ev).memWf := by
  unfold afterStep
  split
  · exact (hold_memStep ..).wf hs
  · exact (post_memStep ..).wf hs

theorem nextLane_memWf {i lane ev} (hs : s.memWf) : (s.nextLane i lane ev).memWf := by
  unfold nextLane
  dsimp only
  split
  · exact hs
  · split
    · exact afterStep_memWf hs
    · exact afterStep_memWf hs

theorem putWords_memWf {i lane r ws} (hs : s.memWf) : (s.putWords i lane r ws).memWf :=
  memWf_of_mem hs rfl

theorem slotError_memWf {core h k} (hs : s.memWf) : (s.slotError core h k).memWf :=
  faultRecord_memWf (updVslot_memWf (memWf_of_mem hs rfl))

theorem laneStep_memWf {i lane ev step} (hs : s.memWf) (hstep : ∀ x y z, (step x y z).memWf) :
    (s.laneStep i lane ev step).memWf := by
  unfold laneStep
  dsimp only
  split
  · exact hs
  · split
    · exact (hold_memStep ..).wf hs
    · exact nextLane_memWf
        (memWf_ite (putWords_memWf hs) (memWf_ite (putWords_memWf (slotError_memWf hs)) (hstep _ _ _)))

theorem realStep_memWf {i lane} (hs : s.memWf) : (s.realStep i lane).memWf := by
  unfold realStep
  refine laneStep_memWf hs fun _ _ _ => putWords_memWf (makeNotes_memWf ?_)
  dsimp only
  split
  · exact applyAction_memWf (updVslot_memWf hs)
  · exact updVslot_memWf hs

theorem draftStep_memWf {i lane} (hs : s.memWf) : (s.draftStep i lane).memWf :=
  laneStep_memWf hs fun _ _ _ => putWords_memWf (updVslot_memWf hs)

theorem confirmStep_memWf {i lane} (hs : s.memWf) : (s.confirmStep i lane).memWf := by
  unfold confirmStep
  refine laneStep_memWf hs fun _ _ _ => putWords_memWf (makeNotes_memWf ?_)
  split
  · exact applyAction_memWf (updVslot_memWf hs)
  · exact updVslot_memWf hs

theorem armOne_memWf {h b} (hs : s.memWf) : (s.armOne h b).memWf :=
  memWf_ite (updVslot_memWf hs) (memWf_ite (updVslot_memWf hs) (memWf_ite (memWf_of_mem hs rfl) (updVslot_memWf hs)))

theorem slotMachine_memWf {r} (hs : s.memWf) : (s.slotMachine r).memWf :=
  memWf_ite hs (pendAsync_memWf hs)

theorem armApply_memWf {i} (hs : s.memWf) : (s.armApply i).memWf := by
  unfold armApply
  dsimp only
  split
  · exact hs
  · split
    · exact (hold_memStep ..).wf hs
    · exact memWf_ite_then
        (memWf_of_mem
          (foldl_memWf (memWf_ite_then (foldl_memWf hs fun _ _ => slotError_memWf) slotMachine_memWf)
            fun _ _ => armOne_memWf) rfl) updWarp_memWf

theorem tokAnswer_memWf {i} (hs : s.memWf) : (s.tokAnswer i).memWf := by
  unfold tokAnswer
  split
  · exact hs
  · extract_lets ks s₁ c k s₂ s₃ s₄ s₅ trp
    have h₁ : s₁.memWf := memWf_of_mem hs rfl
    have h₃ : s₃.memWf := dropVar_memWf (markRegs_memWf (updWarp_memWf h₁))
    have h₄ : s₄.memWf := memWf_ite (slotMachine_memWf h₃) h₃
    have h₅ : s₅.memWf := updWarp_memWf h₄
    refine memWf_ite ((post_memStep ..).wf hs) (memWf_ite h₁ (memWf_ite h₄ ?_))
    clear_value s₅ trp
    split
    · exact h₅
    · exact memWf_ite (updWarp_memWf h₅) (takeTrap_memWf h₅)

end State
end Sys2Proof.Machine
end

section
/-! PROOFS (05 R72): memory keeps its one form. Partitions, launches, gangs, admission and the almanac. -/

namespace Sys2Proof.Machine
namespace State

variable {s t : State}

/-! ### Preempt -/

theorem eachCore_memWf {p f} (hs : s.memWf) (hf : ∀ s x, s.memWf → (f s x).memWf) : (s.eachCore p f).memWf :=
  foldl_memWf hs fun _ _ ht => hf _ _ ht

theorem eachWarp_memWf {c f} (hs : s.memWf) (hf : ∀ s x, s.memWf → (f s x).memWf) : (s.eachWarp c f).memWf :=
  foldl_memWf hs fun _ _ ht => hf _ _ ht

theorem pauseMatrix_memWf {c drain} (hs : s.memWf) : (s.pauseMatrix c drain).memWf := by
  unfold pauseMatrix
  refine updMatrix_memWf ?_
  dsimp only
  split
  · exact memWf_ite (updMatrix_memWf ((fresh_memStep ..).wf (writeRows_memWf hs))) (updMatrix_memWf hs)
  · exact updMatrix_memWf hs

theorem pauseWarp_memWf {c k} (hs : s.memWf) : (s.pauseWarp c k).memWf := by
  unfold pauseWarp
  refine updWarp_memWf ?_
  split
  · exact dropVar_memWf hs
  · exact hs

theorem pausePart_memWf {p drain} (hs : s.memWf) : (s.pausePart p drain).memWf :=
  eachCore_memWf (updPart_memWf hs)
    fun _ _ ht => serveBlocks_memWf (updCore_memWf (eachWarp_memWf (pauseMatrix_memWf ht) fun _ _ => pauseWarp_memWf))

theorem settleWarp_memWf {c k} (hs : s.memWf) : (s.settleWarp c k).memWf :=
  updWarp_memWf hs

theorem settlePart_memWf {p} (hs : s.memWf) : (s.settlePart p).memWf :=
  eachCore_memWf hs
    fun _ _ ht => (releaseAt_memStep ..).wf (eachWarp_memWf ht fun _ _ hu => finishRrels_memWf (settleWarp_memWf hu))

theorem countStop_memWf {p h} (hs : s.memWf) : (s.countStop p h).memWf :=
  memWf_ite_else (eachCore_memWf hs fun _ _ => updCc_memWf) updCtx_memWf

theorem capturePart_memWf {p h} (hs : s.memWf) : (s.capturePart p h).memWf := by
  unfold capturePart
  extract_lets s₁ s₂
  have h₁ : s₁.memWf := eachCore_memWf hs fun _ _ ht => flushTrace_memWf (balanceDump_memWf ht)
  have h₂ : s₂.memWf := countStop_memWf (settlePart_memWf h₁)
  refine eachCore_memWf h₂ fun _ _ ht => (l1DropAll_memStep ..).wf (eachWarp_memWf ht fun _ _ hu => ?_)
  exact memWf_ite (dropWaiters_memWf hu) hu

theorem clearPart_memWf {p} (hs : s.memWf) : (s.clearPart p).memWf :=
  updPart_memWf (updDie_memWf (eachCore_memWf hs fun _ _ ht => updCore_memWf (updCc_memWf ht)))

theorem installCore_memWf {p c x} (hs : s.memWf) : (s.installCore p c x).memWf :=
  updCore_memWf hs

theorem installPart_memWf {p y} (hs : s.memWf) : (s.installPart p y).memWf := by
  unfold installPart
  extract_lets s₁ next s₂ s₃ s₄ ls
  have h₁ : s₁.memWf := by
    refine foldl_memWf hs fun u i hu => ?_
    dsimp only
    split
    · exact hu
    · split
      · exact installCore_memWf hu
      · exact updCc_memWf hu
  have h₄ : s₄.memWf := (postAll_memStep ..).wf (updPart_memWf (updPart_memWf h₁))
  clear_value s₄
  exact memWf_ite h₄ (memWf_of_mem h₄ rfl)

theorem readTraceBlk_memWf {c} (hs : s.memWf) : (s.readTraceBlk c).memWf := by
  unfold readTraceBlk
  extract_lets h x d hostRing ok
  refine updCore_memWf (memWf_ite_fst hs ?_)
  split
  · rename_i e; exact readBlock_memWf hs e
  · exact hs

theorem startEngines_memWf {c} (hs : s.memWf) : (s.startEngines c).memWf := by
  unfold startEngines
  extract_lets live s₁ s₂ s₃
  have h₁ : s₁.memWf := foldl_memWf (startSlices_memWf hs) fun _ _ => runCopy_memWf
  have h₂ : s₂.memWf := by
    unfold s₂; split
    · exact memWf_ite h₁ ((postAfter_memStep ..).wf (updMatrix_memWf h₁))
    · exact h₁
  have h₃ : s₃.memWf := eachWarp_memWf (startMatrix_memWf h₂) fun _ _ ht => memWf_ite ht ((post_memStep ..).wf ht)
  exact (post_memStep ..).wf h₃

theorem startCore_memWf {c} (hs : s.memWf) : (s.startCore c).memWf := by
  unfold startCore
  extract_lets s₁ s₂ s₃ s₄
  have h₂ : s₂.memWf := startEngines_memWf (readTraceBlk_memWf (updCore_memWf (updCc_memWf hs)))
  have h₃ : s₃.memWf := (postAll_memStep ..).wf h₂
  have h₄ : s₄.memWf := by
    unfold s₄; split
    · exact forwardSteals_memWf h₃
    · exact h₃
  exact eachWarp_memWf h₄ fun _ _ ht => memWf_ite (rereadWait_memWf ht) ht

theorem serveAll_memWf {p h} (hs : s.memWf) : (s.serveAll p h).memWf :=
  (postAll_memStep ..).wf ((postAll_memStep ..).wf ((postAll_memStep ..).wf hs))

theorem startPart_memWf {p} (hs : s.memWf) : (s.startPart p).memWf := by
  unfold startPart
  dsimp only
  split
  · exact serveAll_memWf (foldl_memWf (updPart_memWf hs) fun _ _ => startCore_memWf)
  · exact foldl_memWf (updPart_memWf hs) fun _ _ => startCore_memWf

/-! ### Eviction -/

theorem removeTeam_memWf {u c t m} (hs : s.memWf) : (s.removeTeam u c t m).memWf :=
  memWf_ite_else
    (serveBlocks_memWf
      (updCore_memWf
        (updCc_memWf (foldl_memWf (foldl_memWf hs fun _ _ => dropWaiters_memWf) fun _ _ => dropScore_memWf))))
    coreChange_memWf

theorem writeEvicted_memWf {core h} (hs : s.memWf) (e : s.writeEvicted core h = some t) : t.memWf := by
  unfold writeEvicted at e
  dsimp only at e
  split at e
  · cases e
  · split at e
    · cases e
    · rename_i hw
      cases e
      exact charge_memWf ((vaWrite_memStep hw).wf (freshBytes_memWf hs))

theorem restWarp_memWf {c k} (hs : s.memWf) : (s.restWarp c k).memWf :=
  pauseWarp_memWf (finishRrels_memWf (settleWarp_memWf hs))

theorem parkEvicted_memWf {p e} (hs : s.memWf) : (s.parkEvicted p e).memWf := by
  unfold parkEvicted
  refine foldl_memWf (dropWaiters_memWf hs) fun _ _ ht => ?_
  split
  · exact ht
  · split
    · exact ht
    · exact memWf_ite ht (ctrPark_memWf ht)

theorem evictUnit_memWf {p u} (hs : s.memWf) : (s.evictUnit p u).memWf := by
  unfold evictUnit
  split
  · exact hs
  · refine memWf_ite hs (memWf_ite ((hold_memStep ..).wf hs) ?_)
    split
    · exact hs
    · rename_i e
      have h₁ := writeEvicted_memWf hs e
      extract_lets ts s₂ saved s₃ key ev s₄
      have h₂ : s₂.memWf := foldl_memWf h₁ fun _ _ ht => foldl_memWf ht fun _ _ => restWarp_memWf
      have h₄ : s₄.memWf := updPart_memWf (foldl_memWf h₂ fun _ _ => removeTeam_memWf)
      exact (postAll_memStep ..).wf ((postAfter_memStep ..).wf (parkEvicted_memWf ((fresh_memStep ..).wf h₄)))

theorem pollEvicted_memWf {p key} (hs : s.memWf) : (s.pollEvicted p key).memWf := by
  unfold pollEvicted
  dsimp only
  split
  · exact hs
  · exact memWf_ite hs <|
      memWf_ite ((postAll_memStep ..).wf (dropWaiters_memWf (updPart_memWf hs))) <|
      (postAfter_memStep ..).wf ((fresh_memStep ..).wf hs)

theorem putWarp_memWf {c t base w} (hs : s.memWf) : (s.putWarp c t base w).1.memWf :=
  markRegs_memWf (updCc_memWf (updCore_memWf hs))

theorem putTeam_memWf {u unit c wb cb place t} (hs : s.memWf) : (s.putTeam u unit c wb cb place t).memWf := by
  unfold putTeam
  refine foldl_memWf (addScore_memWf (updCc_memWf (memWf_ite (coreChange_memWf hs) hs))) fun _ _ ht =>
    rereadWait_memWf (foldl_memWf (updCc_memWf (markRegs_memWf (updCc_memWf (updCore_memWf ht)))) fun _ _ hu => ?_)
  split
  · exact updCc_memWf hu
  · exact hu

theorem readmit_memWf {p h} (hs : s.memWf) (e : s.readmit p h = some t) : t.memWf := by
  unfold readmit at e
  obtain ⟨⟨q, w⟩, -, hw⟩ := List.exists_of_findSome?_eq_some e
  obtain ⟨place, -, rfl⟩ := Option.map_eq_some_iff.mp hw
  exact foldl_memWf (updPart_memWf (updPart_memWf hs)) fun _ _ => putTeam_memWf

/-! ### Partition -/

theorem partCommand_memWf {p cmd} (hs : s.memWf) : (s.partCommand p cmd).memWf :=
  memWf_ite hs (memWf_ite_else (updPart_memWf hs) fun h => (post_memStep ..).wf h)

theorem finish_memWf {p cmd stat} (hs : s.memWf) : (s.finish p cmd stat).memWf := by
  unfold finish
  split
  · exact memWf_ite hs ((post_memStep ..).wf (updPart_memWf hs))
  · exact hs

theorem commandDone_memWf {p} (hs : s.memWf) : (s.commandDone p).memWf := by
  unfold commandDone
  split
  · extract_lets s₁ s₂
    have h₁ : s₁.memWf := by
      unfold s₁; split
      · rename_i e
        exact physAdd_memWf hs e
      · exact setDevsts_memWf hs
    have h₂ : s₂.memWf := updPart_memWf h₁
    refine memWf_ite hs ?_
    split
    · exact (post_memStep ..).wf h₂
    · exact h₂
  · exact hs

theorem stopGangs_memWf {p} (hs : s.memWf) : (s.stopGangs p).memWf :=
  (postAll_memStep ..).wf hs

theorem updUnit_memWf {p u f} (hs : s.memWf) : (s.updUnit p u f).memWf :=
  updPart_memWf hs

theorem resumeGang_memWf {p u} (hs : s.memWf) : (s.resumeGang p u).memWf :=
  memWf_ite (refusal_memWf hs) <|
  memWf_ite (refusal_memWf hs) <|
  memWf_ite hs ((postAfter_memStep ..).wf ((postAll_memStep ..).wf (memWf_of_mem hs rfl)))

theorem goPart_memWf {p} (hs : s.memWf) : (s.goPart p).memWf :=
  foldl_memWf (startPart_memWf (foldl_memWf hs fun _ _ => updUnit_memWf)) fun _ _ => resumeGang_memWf

theorem bringToRest_memWf {p h} (hs : s.memWf) : (s.bringToRest p h).1.memWf := by
  unfold bringToRest
  extract_lets s₁
  have h₁ : s₁.memWf :=
    memWf_ite (stopGangs_memWf (updPart_memWf hs)) (memWf_ite hs (stopGangs_memWf (pausePart_memWf hs)))
  clear_value s₁
  exact memWf_ite_fst (updPart_memWf hs) (memWf_ite_fst (capturePart_memWf h₁) h₁)

theorem stopPart_memWf {p} (hs : s.memWf) : (s.stopPart p).memWf := by
  unfold stopPart
  refine memWf_ite (finish_memWf hs) ?_
  dsimp only
  split
  · exact finish_memWf hs
  · exact memWf_ite (finish_memWf (updPart_memWf (bringToRest_memWf hs))) ((post_memStep ..).wf (bringToRest_memWf hs))

theorem rampPart_memWf {p} (hs : s.memWf) : (s.rampPart p).memWf :=
  eachCore_memWf hs fun _ _ ht => memWf_ite ht (coreChange_memWf ht)

theorem readmitCore_memWf {c} (hs : s.memWf) : (s.readmitCore c).memWf :=
  updCore_memWf (updCc_memWf hs)

theorem exchange_memWf {p y} (hs : s.memWf) : (s.exchange p y).memWf :=
  goPart_memWf
    (rampPart_memWf
      (updPart_memWf
        (foldl_memWf (installPart_memWf (clearPart_memWf (foldl_memWf hs fun _ _ => updCore_memWf)))
          fun _ _ => readmitCore_memWf)))

theorem swapPart_memWf {p} (hs : s.memWf) : (s.swapPart p).memWf := by
  unfold swapPart
  refine memWf_ite (finish_memWf hs) ?_
  dsimp only
  split
  · exact finish_memWf hs
  · refine memWf_ite (finish_memWf (updPart_memWf (memWf_of_mem hs rfl))) (memWf_ite ((post_memStep ..).wf hs) ?_)
    split
    · exact finish_memWf (exchange_memWf hs)
    · exact memWf_ite (finish_memWf (exchange_memWf (bringToRest_memWf hs))) <|
        (post_memStep ..).wf (bringToRest_memWf hs)

theorem resumePart_memWf {p} (hs : s.memWf) : (s.resumePart p).memWf := by
  unfold resumePart
  refine memWf_ite (finish_memWf hs) ?_
  dsimp only
  split
  · exact finish_memWf hs
  · exact memWf_ite ((post_memStep ..).wf hs) <|
      finish_memWf (goPart_memWf (updPart_memWf (eachCore_memWf hs fun _ _ => readmitCore_memWf)))

theorem enterPart_memWf {p} (hs : s.memWf) : (s.enterPart p).memWf := by
  unfold enterPart
  refine memWf_ite (finish_memWf hs) <|
    memWf_ite (finish_memWf hs) <|
    memWf_ite (finish_memWf hs) <|
    memWf_ite ((post_memStep ..).wf hs) <|
    finish_memWf (goPart_memWf (updPart_memWf (installPart_memWf (clearPart_memWf ?_))))
  dsimp only
  split
  · exact updPart_memWf hs
  · exact hs

theorem writeImage_memWf {d pa y} (hs : s.memWf) (e : s.writeImage d pa y = some t) : t.memWf := by
  unfold writeImage at e
  dsimp only at e
  split at e
  · cases e
  · cases e
    refine updCtx_memWf (memWf_of_mem (s := State.physWrite ..) ?_ rfl)
    exact (physWrite_memStep ..).wf (memWf_of_mem hs rfl)

theorem demotePart_memWf {p} (hs : s.memWf) : (s.demotePart p).memWf := by
  unfold demotePart
  refine memWf_ite (finish_memWf hs) ?_
  dsimp only
  split
  · exact finish_memWf hs
  · split
    · exact finish_memWf hs
    · rename_i e
      exact finish_memWf
        (updPart_memWf (foldl_memWf (writeImage_memWf hs e) fun _ _ ht => updCore_memWf (updCc_memWf ht)))

theorem loadTables_memWf {d pbind pa kid y} (hs : s.memWf) : (s.loadTables d pbind pa kid y).1.memWf := by
  unfold loadTables
  refine memWf_ite_fst hs ?_
  dsimp only
  exact (physRead_memStep ..).wf hs

theorem loadPart_memWf {p} (hs : s.memWf) : (s.loadPart p).memWf := by
  unfold loadPart
  dsimp only
  refine memWf_ite (finish_memWf hs) (memWf_ite (finish_memWf hs) ?_)
  split
  · exact finish_memWf ((physRead_memStep ..).wf hs)
  · rename_i h y _
    refine memWf_ite (finish_memWf hs) (memWf_ite (finish_memWf hs) ?_)
    have hr := (physRead_memStep s (dieOfPart p) (s.ctx h).kidreg (s.part p).pimg.toNat y.bytes.length).wf hs
    refine memWf_ite (finish_memWf hr) (memWf_ite (finish_memWf hr) ?_)
    split
    · rename_i e; exact finish_memWf (fst_memWf (loadTables_memWf hr) e)
    · rename_i e
      have ht := fst_memWf (loadTables_memWf hr) e
      exact memWf_ite (finish_memWf ht) (memWf_ite (finish_memWf ht) (memWf_ite (finish_memWf ht)
        (finish_memWf (updPart_memWf (updCtx_memWf ht)))))

/-! ### Launch -/

theorem touchWtab_memWf {d h desc} (hs : s.memWf) : (s.touchWtab d h desc).memWf := by
  unfold touchWtab
  refine foldl_memWf hs fun _ _ ht => ?_
  split
  · rename_i e
    exact vaRead_memWf ht e
  · exact ht

theorem refuseLaunch_memWf {core h code addr d} (hs : s.memWf) : (s.refuseLaunch core h code addr d).memWf :=
  memWf_ite_then (refusal_memWf hs) agentAddBig_memWf

theorem replayBlock_memWf {d h} {y} (hs : s.memWf) (e : s.replayBlock d h = some (t, y)) : t.memWf := by
  unfold replayBlock at e
  dsimp only at e
  split at e
  · cases e
  · split at e
    · rename_i hb
      split at e
      · cases e; exact readBlock_memWf hs hb
      · cases e
    · cases e

theorem logLaunch_memWf {core h desc} (hs : s.memWf) : (s.logLaunch core h desc).2.memWf := by
  unfold logLaunch
  extract_lets d
  split
  · exact hs
  · rename_i e
    have h₁ := replayBlock_memWf hs e
    refine memWf_ite_snd ?_ (memWf_ite_snd (updCtx_memWf h₁) h₁)
    split
    · exact h₁
    · refine memWf_ite_snd (memWf_ite_snd h₁ (faultRecord_memWf (updCtx_memWf h₁))) ?_
      split
      · exact h₁
      · rename_i e
        have h₂ := ctrAdd_memWf h₁ e
        split
        · rename_i e
          exact (vaWrite_memStep e).wf h₂
        · exact h₂

theorem askCores_memWf {ps} (hs : s.memWf) : (s.askCores ps).memWf :=
  (postAll_memStep ..).wf hs

theorem sendReserve_memWf {g} (hs : s.memWf) : (s.sendReserve g).memWf := by
  unfold sendReserve
  dsimp only
  split
  · exact hs
  · exact (postAfter_memStep ..).wf ((postAll_memStep ..).wf (memWf_of_mem hs rfl))

theorem placeLaunch_memWf {core h addr desc log} (hs : s.memWf) : (s.placeLaunch core h addr desc log).memWf :=
  memWf_ite (sendReserve_memWf (memWf_of_mem hs rfl)) (askCores_memWf (memWf_of_mem hs rfl))

theorem takeLaunch_memWf {core h addr desc logged} (hs : s.memWf) : (s.takeLaunch core h addr desc logged).memWf := by
  unfold takeLaunch
  split
  rename_i log s₁ e
  have h₁ := touchWtab_memWf (d := dieOfCore core) (h := h) (desc := desc)
    (snd_memWf (memWf_ite_snd (logLaunch_memWf hs) hs) e)
  dsimp only
  split
  · have h₂ := fun code => refuseLaunch_memWf (core := core) (h := h) (code := code) (addr := addr) (d := desc) h₁
    split
    · exact memWf_ite (h₂ _) ((post_memStep ..).wf (h₂ _))
    · exact h₂ _
  · exact placeLaunch_memWf h₁

theorem descriptorTake_memWf {agent h addr desc} (hs : s.memWf) : (s.descriptorTake agent h addr desc).memWf := by
  unfold descriptorTake
  refine memWf_ite (memWf_ite (takeLaunch_memWf hs) ((post_memStep ..).wf hs)) (memWf_ite hs ?_)
  split
  · exact hs
  · exact takeLaunch_memWf (updCc_memWf hs)

/-! ### Gangs -/

theorem updGang_memWf {g f} (hs : s.memWf) : (s.updGang g f).memWf :=
  memWf_of_mem hs rfl

theorem reserveAt_memWf {p g ticketed} (hs : s.memWf) : (s.reserveAt p g ticketed).memWf := by
  unfold reserveAt
  dsimp only
  split
  · exact hs
  · refine memWf_ite ((post_memStep ..).wf hs) ?_
    split
    · refine memWf_ite ((post_memStep ..).wf hs) ?_
      split
      · exact (post_memStep ..).wf hs
      · exact (postAfter_memStep ..).wf ((post_memStep ..).wf (updPart_memWf hs))
    · exact memWf_ite ((post_memStep ..).wf hs) ((post_memStep ..).wf (memWf_ite (updPart_memWf hs) hs))
    · exact (post_memStep ..).wf hs

theorem commitAt_memWf {p g} (hs : s.memWf) : (s.commitAt p g).memWf := by
  unfold commitAt
  refine memWf_ite ((post_memStep ..).wf hs) ((post_memStep ..).wf ?_)
  dsimp only
  split
  · exact memWf_ite_then (updPart_memWf hs) enterUnit_memWf
  · exact updPart_memWf hs

theorem freeGang_memWf {p g} (hs : s.memWf) : (s.freeGang p g).memWf :=
  memWf_ite (askCores_memWf (updPart_memWf hs)) hs

theorem setLazy_memWf {l c} (hs : s.memWf) : (s.setLazy l c).memWf :=
  memWf_ite hs (forwardSteals_memWf (updLaunch_memWf (updCc_memWf hs)))

theorem startAt_memWf {p g} (hs : s.memWf) : (s.startAt p g).memWf := by
  unfold startAt
  split
  · exact hs
  · extract_lets r s₁ s₂ rest
    have h₁ : s₁.memWf := updPart_memWf hs
    have h₂ : s₂.memWf := by
      refine memWf_ite ?_ ?_
      · split
        · exact foldl_memWf (updUnit_memWf h₁) fun _ _ => startEngines_memWf
        · exact h₁
      · split
        · exact beginUnit_memWf (foldl_memWf h₁ fun _ _ => setLazy_memWf)
        · exact h₁
    exact memWf_ite hs (memWf_ite ((post_memStep ..).wf hs) (memWf_ite (memWf_of_mem h₂ rfl) (updGang_memWf h₂)))

theorem holdEnds_memWf {p g} (hs : s.memWf) : (s.holdEnds p g).memWf :=
  memWf_ite (freeGang_memWf hs) hs

theorem serveNext_memWf (hs : s.memWf) : s.serveNext.memWf :=
  foldl_memWf (memWf_of_mem hs rfl) fun _ _ => sendReserve_memWf

theorem giveUp_memWf {g code} (hs : s.memWf) : (s.giveUp g code).memWf := by
  unfold giveUp
  split
  · exact hs
  · extract_lets r core s₁ s₂ s₃
    have h₁ : s₁.memWf := memWf_of_mem hs rfl
    have h₂ : s₂.memWf := memWf_ite (refusal_memWf h₁) (refuseLaunch_memWf (memWf_of_mem h₁ rfl))
    have h₃ : s₃.memWf := by
      unfold s₃; split
      · exact memWf_ite h₂ ((post_memStep ..).wf h₂)
      · exact h₂
    exact memWf_ite (serveNext_memWf h₃) h₃

theorem retryGang_memWf {g} (hs : s.memWf) : (s.retryGang g).memWf := by
  unfold retryGang
  dsimp only
  split
  · exact hs
  · exact memWf_ite
      (memWf_ite (giveUp_memWf hs) <|
        memWf_ite (sendReserve_memWf hs) (memWf_ite_else (memWf_of_mem hs rfl) serveNext_memWf)) <|
      memWf_ite (giveUp_memWf hs) (sendReserve_memWf (updGang_memWf hs))

theorem attemptFails_memWf {g} (hs : s.memWf) : (s.attemptFails g).memWf := by
  unfold attemptFails
  dsimp only
  split
  · exact hs
  · split
    · exact retryGang_memWf ((postAll_memStep ..).wf hs)
    · exact memWf_ite_else (updGang_memWf (memWf_of_mem hs rfl)) retryGang_memWf

theorem agreeFrom_memWf {g p} (hs : s.memWf) : (s.agreeFrom g p).memWf := by
  unfold agreeFrom
  dsimp only
  split
  · exact (post_memStep ..).wf hs
  · exact memWf_ite
      (memWf_ite_else (updGang_memWf hs) fun h => (postAfter_memStep ..).wf ((postAll_memStep ..).wf (updGang_memWf h))) <|
      memWf_ite hs ((post_memStep ..).wf hs)

theorem attemptRefused_memWf {g p} (hs : s.memWf) : (s.attemptRefused g p).memWf := by
  unfold attemptRefused
  split
  · exact hs
  · exact memWf_ite (attemptFails_memWf hs) hs

theorem confirmFrom_memWf {g p} (hs : s.memWf) : (s.confirmFrom g p).memWf := by
  unfold confirmFrom
  dsimp only
  split
  · exact hs
  · exact memWf_ite hs <|
      memWf_ite_else (updGang_memWf hs) fun h'' =>
        memWf_ite_else ((postAll_memStep ..).wf (updGang_memWf (memWf_ite_else h'' updLaunch_memWf))) serveNext_memWf

theorem clearGang_memWf {g ps} (hs : s.memWf) : (s.clearGang g ps).memWf :=
  memWf_of_mem (foldl_memWf hs fun _ _ => freeGang_memWf) rfl

theorem freezeGang_memWf {g} (hs : s.memWf) : (s.freezeGang g).memWf := by
  unfold freezeGang
  dsimp only
  split
  · exact hs
  · exact memWf_ite hs (serveNext_memWf (giveUp_memWf (updGang_memWf (clearGang_memWf hs))))

theorem collectEnds_memWf {g} (hs : s.memWf) : (s.collectEnds g).memWf := by
  unfold collectEnds
  split
  · exact hs
  · exact memWf_ite (freezeGang_memWf hs) (memWf_ite (attemptFails_memWf hs) hs)

/-! ### Admission -/

theorem admitted_memWf {c} (hs : s.memWf) : (s.admitted c).memWf :=
  updCore_memWf hs

theorem binLaunch_memWf {c b} (hs : s.memWf) : (s.binLaunch c b).memWf := by
  unfold binLaunch
  dsimp only
  split
  · exact memWf_ite hs (memWf_ite ((postAfter_memStep ..).wf hs) (updCc_memWf (updWarp_memWf (memWf_of_mem hs rfl))))
  · exact hs

theorem binExpires_memWf {c b} (hs : s.memWf) : (s.binExpires c b).memWf := by
  unfold binExpires
  split
  · exact memWf_ite hs ((post_memStep ..).wf (updCc_memWf hs))
  · exact hs

theorem claim_memWf {s : State} {l c a} (hs : s.memWf) : (s.claim l c a).1.memWf := by
  unfold claim
  dsimp only
  split
  · exact hs
  · refine memWf_ite_fst (claim_memWf hs) ?_
    split
    · dsimp only
      exact updLaunch_memWf hs
    · exact claim_memWf (updLaunch_memWf (updLaunch_memWf hs))

theorem admitUnit_memWf {l c} (hs : s.memWf) : (s.admitUnit l c).1.memWf := by
  unfold admitUnit
  refine memWf_ite_fst hs ?_
  split
  · exact hs
  · split
    · rename_i e
      dsimp only
      exact fst_memWf (claim_memWf hs) e
    · rename_i e
      dsimp only
      exact startUnit_memWf (fst_memWf (claim_memWf hs) e)

theorem admitLazy_memWf {l c} (hs : s.memWf) : (s.admitLazy l c).1.memWf := by
  unfold admitLazy
  refine memWf_ite_fst hs (memWf_ite_fst hs ?_)
  dsimp only
  exact startUnit_memWf (foldl_memWf hs fun _ _ => setLazy_memWf)

theorem admitNew_memWf {s : State} {c a} (hs : s.memWf) : (s.admitNew c a).1.memWf := by
  unfold admitNew
  dsimp only
  split
  · exact hs
  · split
    · split
      · dsimp only
        exact admitUnit_memWf hs
      · exact admitNew_memWf (admitUnit_memWf hs)
    · split
      · dsimp only
        exact admitLazy_memWf hs
      · exact admitNew_memWf (admitLazy_memWf hs)

theorem evictOne_memWf {p h} (hs : s.memWf) : (s.evictOne p h).memWf := by
  unfold evictOne
  refine memWf_ite hs ?_
  dsimp only
  split
  · exact hs
  · exact (post_memStep ..).wf ((fresh_memStep ..).wf hs)

theorem askParked_memWf {h} (hs : s.memWf) : (s.askParked h).memWf :=
  memWf_ite (askCores_memWf hs) hs

theorem admitWork_memWf {c} (hs : s.memWf) : (s.admitWork c).memWf := by
  unfold admitWork
  refine memWf_ite hs (memWf_ite ((postAfter_memStep ..).wf hs) ?_)
  dsimp only
  split
  · rename_i e
    exact (postAfter_memStep ..).wf (admitted_memWf (readmit_memWf hs e))
  · split
    · exact (postAfter_memStep ..).wf ((post_memStep ..).wf hs)
    · exact memWf_ite ((postAfter_memStep ..).wf (admitted_memWf (admitNew_memWf hs))) <|
        evictOne_memWf (admitNew_memWf hs)

theorem equinox_memWf {d} (hs : s.memWf) : (s.equinox d).memWf :=
  updDie_memWf (foldl_memWf hs fun _ _ ht => memWf_ite (updCore_memWf ht) ht)

theorem writeAbud_memWf {d i v} (hs : s.memWf) : (s.writeAbud d i v).memWf :=
  memWf_ite (setDevsts_memWf hs) (updDie_memWf hs)

theorem saveCost_memWf {h d} (hs : s.memWf) : (s.saveCost h d).2.memWf :=
  (fresh_memStep ..).wf hs

theorem endPeriod_memWf {d cycles} (hs : s.memWf) : (s.endPeriod d cycles).memWf :=
  foldl_memWf (foldl_memWf (updDie_memWf (memWf_ite ((countDie_memStep ..).wf hs) hs)) fun _ _ => unhold_memWf)
    fun _ _ ht => updAlm_memWf (memWf_of_mem ht rfl)

/-! ### Almanac -/

theorem ckptAdds_memWf {h adds} (hs : s.memWf) : (s.ckptAdds h adds).memWf :=
  foldl_memWf hs fun _ _ => agentAdd_memWf

theorem almPeriod_memWf {h} (hs : s.memWf) : (s.almPeriod h).1.memWf := by
  unfold almPeriod
  refine memWf_ite_fst hs ?_
  split
  · rename_i e
    dsimp only
    exact readBlock_memWf hs e
  · exact hs

theorem periodDue_memWf {h} (hs : s.memWf) : (s.periodDue h).memWf :=
  memWf_ite_then (almPeriod_memWf hs) fun h => (post_memStep ..).wf (updAlm_memWf h)

theorem beginCut_memWf {h} (hs : s.memWf) : (s.beginCut h).memWf := by
  unfold beginCut
  extract_lets x a held none_
  refine memWf_ite hs (memWf_ite ((post_memStep ..).wf hs) (memWf_ite (ckptAdds_memWf (updAlm_memWf hs)) ?_))
  split
  · exact faultRecord_memWf (updAlm_memWf hs)
  · rename_i e
    extract_lets s₁ s₂ s₃
    have h₁ : s₁.memWf := updAlm_memWf (readBlock_memWf hs e)
    have h₃ : s₃.memWf := foldl_memWf (updAlm_memWf h₁) fun _ _ => pausePart_memWf
    exact memWf_ite (ckptAdds_memWf (updAlm_memWf h₁)) ((postAll_memStep ..).wf h₃)

theorem writeStaging_memWf {h} (hs : s.memWf) : (s.writeStaging h).memWf := by
  unfold writeStaging
  dsimp only
  split
  · rename_i e
    exact (vaWrite_memStep e).wf (freshBytes_memWf hs)
  · exact freshBytes_memWf hs

theorem writeRegion_memWf {h} (hs : s.memWf) : (s.writeRegion h).memWf :=
  (physWrite_memStep ..).wf (memWf_of_mem hs rfl)

theorem finishCut_memWf {h} (hs : s.memWf) : (s.finishCut h).memWf :=
  (post_memStep ..).wf
    (writeStaging_memWf
      (foldl_memWf (memWf_of_mem (foldl_memWf hs fun _ _ => slotError_memWf) rfl) fun _ _ => startPart_memWf))

theorem cutReplyFrom_memWf {h p} (hs : s.memWf) : (s.cutReplyFrom h p).memWf :=
  memWf_ite hs <|
  memWf_ite (finishCut_memWf hs) <|
  memWf_ite hs <|
  memWf_ite ((post_memStep ..).wf hs) (memWf_ite_else (updAlm_memWf (settlePart_memWf hs)) finishCut_memWf)

theorem takePage_memWf {h k} (hs : s.memWf) : (s.takePage h k).memWf := by
  unfold takePage
  dsimp only
  split
  · exact memWf_ite hs (updAlm_memWf ((snapshot_memStep ..).wf hs))
  · exact hs

theorem heldRelease_memWf {h page} (hs : s.memWf) : (s.heldRelease h page).memWf :=
  unhold_memWf (takePage_memWf (takePage_memWf hs))

theorem releaseClosed_memWf {closed} (hs : s.memWf) : (s.releaseClosed closed).memWf :=
  foldl_memWf hs fun _ _ => unhold_memWf

theorem abandon_memWf {h code} (hs : s.memWf) : (s.abandon h code).memWf := by
  unfold abandon
  dsimp only
  split
  · exact hs
  · exact memWf_ite_else (faultRecord_memWf (releaseClosed_memWf (updAlm_memWf hs))) fun h => (post_memStep ..).wf h

theorem durable_memWf {h} (hs : s.memWf) : (s.durable h).memWf := by
  unfold durable
  extract_lets a d room
  split
  · exact hs
  · extract_lets chain s₁ s₂ s₃ done s₄ s₅ s₆ s₇ b
    have h₃ : s₃.memWf := writeRegion_memWf (foldl_memWf (charge_memWf hs) fun _ _ => takePage_memWf)
    have h₅ : s₅.memWf := releaseClosed_memWf (updAlm_memWf h₃)
    have h₇ : s₇.memWf := ckptAdds_memWf (memWf_ite h₅ (agentAdd_memWf h₅))
    exact memWf_ite (abandon_memWf hs) (memWf_ite (abandon_memWf hs) (memWf_ite ((hold_memStep ..).wf hs)
      (memWf_ite (abandon_memWf (updAlm_memWf hs)) (memWf_ite ((post_memStep ..).wf h₇) h₇))))

theorem dropRange_memWf {lo hi} (hs : s.memWf) : (s.dropRange lo hi).memWf :=
  foldl_memWf (foldl_memWf hs fun _ _ => (l1Drop_memStep ..).wf) fun _ _ => (l2Drop_memStep ..).wf

theorem rewritePage_memWf {h n p4} (hs : s.memWf) : (s.rewritePage h n p4).memWf := by
  unfold rewritePage
  split
  · exact hs
  · extract_lets lo ctr s₁ s₂ s₃
    have h₂ : s₂.memWf := dropRange_memWf (takePage_memWf (takePage_memWf ((keepPage_memStep ..).wf hs)))
    have h₃ : s₃.memWf := (setMemBytes_memStep ..).wf h₂
    exact memWf_ite ((markCtrPage_memStep ..).wf h₃) ((markPage_memStep ..).wf h₃)

theorem rewritePages_memWf {s : State} {h n a} (hs : s.memWf) : (s.rewritePages h n a).1.memWf := by
  unfold rewritePages
  split
  · exact hs
  · exact memWf_ite_fst hs (rewritePages_memWf (rewritePage_memWf hs))

theorem writeImages_memWf {s : State} {h rbtab a} (hs : s.memWf) : (s.writeImages h rbtab a).1.memWf := by
  unfold writeImages
  dsimp only
  split
  · exact hs
  · split
    · dsimp only
      exact (physRead_memStep ..).wf hs
    · split
      · dsimp only
        exact (physRead_memStep ..).wf hs
      · rename_i e
        exact writeImages_memWf (writeImage_memWf ((physRead_memStep ..).wf hs) e)

theorem rollback_memWf {h} (hs : s.memWf) : (s.rollback h).memWf := by
  unfold rollback
  extract_lets x here finish put
  have hf : ∀ {t n}, t.memWf → (finish t n).memWf := by
    intro t n ht
    dsimp only [finish]
    split
    · rename_i e
      exact physAdd_memWf (updCtx_memWf ht) e
    · exact setDevsts_memWf (updCtx_memWf ht)
  refine memWf_ite (hf hs) ?_
  split
  · exact hf hs
  · split
    rename_i s₁ whole e
    have h₁ : s₁.memWf := fst_memWf (rewritePages_memWf hs) e
    extract_lets mine slots vigil s₂ s₃
    have h₃ : s₃.memWf := updCtx_memWf (memWf_of_mem h₁ rfl)
    refine memWf_ite (hf h₁) ?_
    split
    rename_i s₄ code e
    exact hf (fst_memWf (memWf_ite_fst (writeImages_memWf h₃) h₃) e)

end State
end Sys2Proof.Machine
end

section
/-! PROOFS (05 R72): memory keeps its one form. The host, links, management, boot, debug, issue cycles, queues and registers. -/

namespace Sys2Proof.Machine
namespace State

variable {s t : State}

/-! ### HostMem -/

theorem markMapped_memWf {pa ctr} (hs : s.memWf) : (s.markMapped pa ctr).memWf :=
  foldl_memWf hs fun _ _ ht =>
    memWf_ite ((markCtrPage_memStep ..).wf ((keepPage_memStep ..).wf ht)) <|
    (markPage_memStep ..).wf ((keepPage_memStep ..).wf ht)

theorem hostCounter_memWf {pa v} (hs : s.memWf) : (s.hostCounter pa v).memWf :=
  memWf_ite (setDevsts_memWf hs) (ctrNotify_memWf (ctrWrite_memWf (markMapped_memWf hs)))

theorem hostCounters_memWf {s : State} {pa bs a} (hs : s.memWf) : (hostCounters pa bs a s).memWf := by
  unfold hostCounters
  dsimp only
  split
  · exact hs
  · exact memWf_ite hs (hostCounters_memWf (memWf_ite (hostCounter_memWf hs) (setDevsts_memWf hs)))

theorem recallLine_memWf {line} (hs : s.memWf) : (s.recallLine line).memWf :=
  foldl_memWf hs fun _ _ => (l1WriteBack_memStep ..).wf

theorem hostPut_memWf {pa kid bs} (hs : s.memWf) : (s.hostPut pa kid bs).memWf :=
  memWf_ite (hostCounters_memWf hs) ((homeWrite_memStep ..).wf (recallLine_memWf (markMapped_memWf hs)))

theorem hostKeeps_memWf {pa} (hs : s.memWf) : (s.hostKeeps pa).memWf :=
  memWf_ite (memWf_of_mem hs rfl) (memWf_of_mem hs rfl)

theorem hostRead_memWf {addr} (hs : s.memWf) : (s.hostRead addr).memWf := by
  unfold hostRead
  extract_lets +lift a s₁
  have h₁ : s₁.memWf := foldl_memWf hs fun _ _ => (l2Clean_memStep ..).wf
  refine memWf_ite (memWf_of_mem h₁ rfl) (memWf_ite hs ?_)
  split
  · exact (hold_memStep ..).wf hs
  · have h : ((s.recallLine (lineOf a)).homeRead (homeDie a 0) a 0 0 64).1.memWf :=
      (homeRead_memStep ..).wf (recallLine_memWf hs)
    exact hostKeeps_memWf (memWf_of_mem h rfl)

theorem hostWrite_memWf {addr bytes ev} (hs : s.memWf) : (s.hostWrite addr bytes ev).memWf := by
  unfold hostWrite
  dsimp only
  split
  · exact (post_memStep ..).wf ((setMemBytes_memStep ..).wf ((invalidateCopies_memStep ..).wf
      (foldl_memWf hs (fun _ _ => (l2Drop_memStep ..).wf))))
  · split
    · exact hs
    · split
      · exact (hold_memStep ..).wf hs
      · exact memWf_of_mem (hostPut_memWf hs) rfl

theorem updFlip_memWf {e f} (hs : s.memWf) : (s.updFlip e f).memWf :=
  updIo_memWf hs

theorem flipDone_memWf {e stat} (hs : s.memWf) : (s.flipDone e stat).memWf := by
  unfold flipDone
  dsimp only
  split
  · rename_i e
    exact physAdd_memWf (updFlip_memWf hs) e
  · exact setDevsts_memWf (updFlip_memWf hs)

theorem snoopLines_memWf {ls} (hs : s.memWf) : (s.snoopLines ls).memWf :=
  foldl_memWf hs fun _ _ => (snoop_memStep ..).wf

theorem startFlip_memWf {e toDev} (hs : s.memWf) : (s.startFlip e toDev).memWf :=
  memWf_ite hs <|
  memWf_ite (flipDone_memWf (updFlip_memWf hs)) <|
  memWf_ite (flipDone_memWf (updFlip_memWf hs)) <|
  memWf_ite (flipDone_memWf (updFlip_memWf hs)) <|
  memWf_ite (flipDone_memWf (updFlip_memWf hs)) <|
  memWf_ite (snoopLines_memWf (updFlip_memWf (memWf_of_mem hs rfl))) ((post_memStep ..).wf (memWf_of_mem hs rfl))

theorem flipPage_memWf {e stat} (hs : s.memWf) : (s.flipPage e stat).memWf :=
  (post_memStep ..).wf (updFlip_memWf (unhold_memWf (memWf_of_mem hs rfl)))

theorem flipStep2_memWf {e} (hs : s.memWf) : (s.flipStep2 e).memWf := by
  unfold flipStep2
  dsimp only
  split
  · exact flipDone_memWf hs
  · exact memWf_ite hs <|
      memWf_ite (memWf_ite (flipPage_memWf hs) hs) <|
      memWf_ite ((post_memStep ..).wf (foldl_memWf hs fun _ _ => (l1Drop_memStep ..).wf)) <|
      flipPage_memWf (foldl_memWf hs fun _ _ => (l1Drop_memStep ..).wf)

theorem flipLost_memWf {e} (hs : s.memWf) : (s.flipLost e).memWf := by
  unfold flipLost
  extract_lets f p4 s₁ s₂
  have h₁ : s₁.memWf :=
    foldl_memWf hs fun _ _ ht => memWf_ite (setDevsts_memWf ht) (foldl_memWf ht fun _ _ => faultRecord_memWf)
  exact memWf_ite hs (memWf_ite (flipPage_memWf (memWf_of_mem h₁ rfl)) (flipPage_memWf (memWf_of_mem hs rfl)))

theorem bisnpAnswer_memWf {addr bytes} (hs : s.memWf) : (s.bisnpAnswer addr bytes).memWf := by
  unfold bisnpAnswer
  dsimp only
  split
  · exact hs
  · refine unhold_memWf
      (foldl_memWf ?_ fun _ _ ht => memWf_ite ht (memWf_ite_else (updFlip_memWf ht) fun h => (post_memStep ..).wf h))
    split
    · exact memWf_of_mem (hostPut_memWf hs) rfl
    · exact memWf_of_mem hs rfl

theorem cacheSnoop_memWf {d line inval} (hs : s.memWf) : (s.cacheSnoop d line inval).memWf := by
  unfold cacheSnoop
  refine memWf_ite hs ((post_memStep ..).wf ?_)
  dsimp only
  split
  · exact memWf_of_mem ((l2Drop_memStep ..).wf hs) rfl
  · exact memWf_of_mem ((l2Clean_memStep ..).wf hs) rfl

theorem answer_memWf {v} (hs : s.memWf) : (s.answer v).memWf :=
  memWf_of_mem hs rfl

theorem refuseAccess_memWf (hs : s.memWf) : s.refuseAccess.memWf :=
  updIo_memWf hs

theorem homeAtomic_memWf {addr kid n f} (hs : s.memWf) : (s.homeAtomic addr kid n f).memWf := by
  unfold homeAtomic
  dsimp only
  exact memWf_ite (refuseAccess_memWf hs) <|
    answer_memWf ((homeWrite_memStep ..).wf (markMapped_memWf ((homeRead_memStep ..).wf hs)))

theorem homeAdd_memWf {addr kid inc} (hs : s.memWf) : (s.homeAdd addr kid inc).memWf := by
  unfold homeAdd
  refine memWf_ite (refuseAccess_memWf hs) ?_
  split
  · exact refuseAccess_memWf hs
  · split
    · rename_i e
      exact answer_memWf (ctrAdd_memWf (markMapped_memWf hs) e)
    · exact refuseAccess_memWf hs

theorem peerWait_memWf {peer addr kid thr} (hs : s.memWf) : (s.peerWait peer addr kid thr).memWf :=
  memWf_ite (wakePeer_memWf hs) (ctrPark_memWf hs)

theorem peerAccess_memWf {peer addr size op} (hs : s.memWf) : (s.peerAccess peer addr size op).memWf := by
  unfold peerAccess
  dsimp only
  split
  · exact hs
  · split
    · exact (hold_memStep ..).wf hs
    · split
      · exact (homeWrite_memStep ..).wf (markMapped_memWf (recallLine_memWf hs))
      · exact answer_memWf ((homeRead_memStep ..).wf (recallLine_memWf hs))
      · exact homeAtomic_memWf (recallLine_memWf hs)
      · exact homeAtomic_memWf (recallLine_memWf hs)
      · exact homeAdd_memWf (recallLine_memWf hs)
      · exact peerWait_memWf (recallLine_memWf hs)

theorem appAccess_memWf {app addr op} (hs : s.memWf) : (s.appAccess app addr op).memWf := by
  unfold appAccess
  refine memWf_ite (refuseAccess_memWf hs) ?_
  dsimp only
  split
  · exact (hold_memStep ..).wf hs
  · split
    · exact answer_memWf ((homeRead_memStep ..).wf hs)
    · exact memWf_ite (refuseAccess_memWf hs) ((homeWrite_memStep ..).wf (markMapped_memWf hs))
    · exact memWf_ite (homeAtomic_memWf hs) (memWf_ite (homeAdd_memWf hs) (refuseAccess_memWf hs))

theorem negotiate_memWf (hs : s.memWf) : s.negotiate.memWf :=
  memWf_ite (setDevsts_memWf hs) (updIo_memWf hs)

/-! ### Links -/

theorem pendAll_memWf {h t} (hs : s.memWf) : (s.pendAll h t).memWf :=
  foldl_memWf hs fun _ _ => pendAsync_memWf

theorem pendLink_memWf {h reason peer} (hs : s.memWf) : (s.pendLink h reason peer).memWf :=
  pendAll_memWf (memWf_of_mem hs rfl)

theorem tellOwners_memWf {ls host peer} (hs : s.memWf) : (s.tellOwners ls host peer).memWf :=
  foldl_memWf hs fun _ _ ht => memWf_ite (pendLink_memWf ht) (pendLink_memWf ht)

theorem discardLines_memWf {ls} (hs : s.memWf) : (s.discardLines ls).memWf :=
  tellOwners_memWf (foldl_memWf hs fun _ _ => faultRecord_memWf)

theorem strand_memWf (hs : s.memWf) : s.strand.memWf :=
  discardLines_memWf (tellOwners_memWf (memWf_of_mem (foldl_memWf hs fun _ _ => (l1WriteBack_memStep ..).wf) rfl))

theorem unstrand_memWf {discard} (hs : s.memWf) : (s.unstrand discard).memWf :=
  memWf_ite (discardLines_memWf (memWf_of_mem hs rfl)) <|
  tellOwners_memWf (foldl_memWf (memWf_of_mem hs rfl) fun _ _ => (writeLine_memStep ..).wf)

theorem wakeLost_memWf (hs : s.memWf) : s.wakeLost.memWf := by
  unfold wakeLost
  refine (postAll_memStep ..).wf (foldl_memWf hs fun _ _ ht => ?_)
  split
  · split
    · exact memWf_ite (rereadWait_memWf ht) ht
    · exact ht
  · exact ht

theorem afterLoss_memWf (hs : s.memWf) : s.afterLoss.memWf :=
  wakeLost_memWf (strand_memWf hs)

theorem loseCxl_memWf {port} (hs : s.memWf) : (s.loseCxl port).memWf := by
  unfold loseCxl
  extract_lets s₁ s₂
  have h₁ : s₁.memWf := afterLoss_memWf (updIo_memWf hs)
  have h₂ : s₂.memWf := memWf_ite (foldl_memWf h₁ fun _ _ => flipLost_memWf) h₁
  exact memWf_ite hs (memWf_ite (foldl_memWf h₂ fun _ _ => abandon_memWf) h₂)

theorem loseColmet_memWf {link} (hs : s.memWf) : (s.loseColmet link).memWf :=
  memWf_ite hs (afterLoss_memWf (updIo_memWf hs))

theorem retrain_memWf {colmet link hostReset} (hs : s.memWf) : (s.retrain colmet link hostReset).memWf :=
  memWf_ite (memWf_ite hs (unstrand_memWf (updIo_memWf hs))) (memWf_ite hs (unstrand_memWf (updIo_memWf hs)))

theorem retentionOver_memWf (hs : s.memWf) : s.retentionOver.memWf :=
  discardLines_memWf (memWf_of_mem hs rfl)

theorem pendRestore_memWf {c k reason version} (hs : s.memWf) : (s.pendRestore c k reason version).memWf :=
  memWf_ite hs (pendAsync_memWf hs)

theorem restoreMatrix_memWf {c num version} (hs : s.memWf) : (s.restoreMatrix c num version).memWf := by
  unfold restoreMatrix
  dsimp only
  split
  · exact hs
  · exact memWf_ite hs <|
      startMatrix_memWf
        (pendRestore_memWf
          (foldl_memWf (dropScore_memWf (updMatrix_memWf hs)) fun _ _ ht => trackerDone_memWf (updTracker_memWf ht)))

theorem restoreCopy_memWf {c n version} (hs : s.memWf) : (s.restoreCopy c n version).memWf := by
  unfold restoreCopy
  split
  · exact hs
  · exact pendRestore_memWf (dropCopy_memWf hs)

theorem restoreSlot_memWf {k version} (hs : s.memWf) : (s.restoreSlot k version).memWf := by
  unfold restoreSlot
  dsimp only
  split
  · exact hs
  · exact pendAll_memWf (updVslot_memWf hs)

theorem partDamaged_memWf {c part index version} (hs : s.memWf) : (s.partDamaged c part index version).memWf :=
  memWf_ite (restoreMatrix_memWf hs) (memWf_ite (restoreCopy_memWf hs) (memWf_ite (restoreSlot_memWf hs) hs))

/-! ### Manage -/

theorem completeAt_memWf {a} (hs : s.memWf) : (s.completeAt a).memWf := by
  unfold completeAt
  split
  · rename_i e
    exact physAdd_memWf hs e
  · exact setDevsts_memWf hs

theorem walkDone_memWf {d h vpn} (hs : s.memWf) : (s.walkDone d h vpn).memWf := by
  unfold walkDone
  refine memWf_ite hs (memWf_ite ((hold_memStep ..).wf hs) ?_)
  dsimp only
  split
  · exact tlbPut_memWf (charge_memWf ((countDie_memStep ..).wf hs))
  · exact charge_memWf ((countDie_memStep ..).wf hs)

theorem deadline_memWf {c line} (hs : s.memWf) : (s.deadline c line).memWf := by
  unfold deadline
  split
  · exact hs
  · exact memWf_ite hs (memWf_ite ((hold_memStep ..).wf hs) ((l1WriteBack_memStep ..).wf hs))

theorem askInvalidate_memWf (hs : s.memWf) : s.askInvalidate.memWf :=
  memWf_ite (setDevsts_memWf hs) ((post_memStep ..).wf (updIo_memWf hs))

theorem dropTlb_memWf {hit} (hs : s.memWf) : (s.dropTlb hit).memWf :=
  memWf_of_mem hs rfl

theorem invalidated_memWf (hs : s.memWf) : s.invalidated.memWf := by
  unfold invalidated
  split
  · exact hs
  · exact completeAt_memWf (dropTlb_memWf (updIo_memWf hs))

theorem noteMark_memWf (hs : s.memWf) : s.noteMark.memWf :=
  updIo_memWf hs

theorem setCtrPage_memWf (hs : s.memWf) : s.setCtrPage.memWf := by
  unfold setCtrPage
  split
  · exact memWf_ite (noteMark_memWf hs) (noteMark_memWf (memWf_of_mem hs rfl))
  · exact noteMark_memWf hs

theorem clearCtrPage_memWf (hs : s.memWf) : s.clearCtrPage.memWf := by
  unfold clearCtrPage
  split
  · exact noteMark_memWf (memWf_of_mem hs rfl)
  · exact noteMark_memWf hs

theorem keyEnds_memWf {stat} (hs : s.memWf) : (s.keyEnds stat).memWf :=
  updIo_memWf hs

theorem putKey_memWf {k key} (hs : s.memWf) : (s.putKey k key).memWf :=
  updIo_memWf hs

theorem afterDrop_memWf {k e f} (hs : s.memWf) (hf : ∀ s, s.memWf → (f s).memWf) : (s.afterDrop k e f).memWf := by
  unfold afterDrop
  dsimp only
  split
  · exact (hold_memStep ..).wf ((dropKid_memStep ..).wf hs)
  · exact memWf_ite (hf _ ((dropKid_memStep ..).wf hs)) ((post_memStep ..).wf ((dropKid_memStep ..).wf hs))

theorem keyCommand_memWf {f} (hs : s.memWf) (hf : ∀ s x, s.memWf → (f s x).memWf) : (s.keyCommand f).memWf :=
  memWf_ite (keyEnds_memWf hs) (hf _ _ hs)

theorem withWrapKey_memWf {k f} (hs : s.memWf) (hf : ∀ x, (f x).memWf) : (s.withWrapKey k f).memWf := by
  unfold withWrapKey
  dsimp only
  split
  · exact keyEnds_memWf hs
  · exact memWf_ite (keyEnds_memWf hs) (hf _)

theorem genKey_memWf (hs : s.memWf) : s.genKey.memWf :=
  keyCommand_memWf hs fun _ _ ht => afterDrop_memWf ht (fun _ hu => keyEnds_memWf (putKey_memWf (memWf_of_mem hu rfl)))

theorem loadKey_memWf (hs : s.memWf) : s.loadKey.memWf :=
  keyCommand_memWf hs fun _ _ ht => afterDrop_memWf ht (fun _ hu => keyEnds_memWf (putKey_memWf hu))

theorem eraseKey_memWf (hs : s.memWf) : s.eraseKey.memWf :=
  keyCommand_memWf hs fun _ _ ht => afterDrop_memWf ht (fun _ hu => keyEnds_memWf (putKey_memWf hu))

theorem wrapKey_memWf (hs : s.memWf) : s.wrapKey.memWf := by
  unfold wrapKey
  refine keyCommand_memWf hs fun _ _ ht => ?_
  dsimp only
  split
  · exact keyEnds_memWf ht
  · exact withWrapKey_memWf ht fun _ => updIo_memWf (keyEnds_memWf ht)

theorem unwrapKey_memWf (hs : s.memWf) : s.unwrapKey.memWf := by
  unfold unwrapKey
  refine keyCommand_memWf hs fun _ _ ht => withWrapKey_memWf ht (fun _ => ?_)
  split
  · exact keyEnds_memWf ht
  · exact afterDrop_memWf ht fun _ hu => keyEnds_memWf (putKey_memWf hu)

/-! ### Power -/

theorem powerRecords_memWf {d cause old new} (hs : s.memWf) : (s.powerRecords d cause old new).memWf :=
  foldl_memWf (foldl_memWf hs fun _ _ ht => memWf_of_mem ht (trace_recStep ..).mem) fun _ _ => beginCapture_memWf

theorem setVf_memWf {d new cause} (hs : s.memWf) : (s.setVf d new cause).memWf :=
  powerRecords_memWf (updDie_memWf hs)

theorem lowerVf_memWf {d bound cause} (hs : s.memWf) : (s.lowerVf d bound cause).memWf :=
  setVf_memWf (memWf_of_mem hs rfl)

theorem throttle_memWf {d cause} (hs : s.memWf) : (s.throttle d cause).memWf :=
  memWf_ite hs (lowerVf_memWf hs)

theorem selectVf_memWf {d index cause} (hs : s.memWf) : (s.selectVf d index cause).memWf :=
  memWf_ite hs (setVf_memWf hs)

theorem writeVfstate_memWf {d v} (hs : s.memWf) : (s.writeVfstate d v).memWf :=
  memWf_ite_else (updDie_memWf hs) lowerVf_memWf

theorem heat_memWf {d tj} (hs : s.memWf) : (s.heat d tj).memWf :=
  memWf_ite hs (throttle_memWf (updDie_memWf hs))

theorem powerOver_memWf {watts} (hs : s.memWf) : (s.powerOver watts).memWf :=
  memWf_ite hs (foldl_memWf hs fun _ _ ht => memWf_ite (powerRecords_memWf ht) (throttle_memWf ht))

theorem undervoltage_memWf (hs : s.memWf) : s.undervoltage.memWf :=
  foldl_memWf hs fun _ _ => throttle_memWf

/-- What outlasts a reset is a part of memory, in the same order (`wf_filter`). -/
theorem cold_memWf (hs : s.memWf) : s.cold.memWf :=
  wf_filter _ _ hs

theorem shutdown_memWf {tj} (hs : s.memWf) : (s.shutdown tj).memWf :=
  memWf_ite hs (updIo_memWf (cold_memWf hs))

/-! ### Boot -/

theorem slotResult_memWf {x} (hs : s.memWf) : (s.slotResult x).2.memWf :=
  memWf_of_mem hs rfl

theorem bootFirmware_memWf (hs : s.memWf) : s.bootFirmware.memWf :=
  memWf_ite (memWf_of_mem hs rfl) (memWf_ite (memWf_of_mem hs rfl) (memWf_of_mem hs rfl))

theorem leaveTicketHome_memWf {d} (hs : s.memWf) : (s.leaveTicketHome d).memWf :=
  memWf_ite hs (foldl_memWf (foldl_memWf hs fun _ _ => clearGang_memWf) fun _ _ => retryGang_memWf)

theorem outOfService_memWf {r} (hs : s.memWf) : (s.outOfService r).memWf :=
  memWf_ite (offlinePart_memWf hs) <|
  memWf_ite (foldl_memWf (updDie_memWf (leaveTicketHome_memWf hs)) fun _ _ => offlinePart_memWf) <|
  memWf_ite (memWf_of_mem hs rfl) <|
  memWf_ite (memWf_of_mem hs rfl) <|
  memWf_ite (loseCxl_memWf (memWf_of_mem hs rfl)) <|
  memWf_ite (memWf_of_mem hs rfl) hs

theorem runBist_memWf {only} (hs : s.memWf) : (s.runBist only).memWf :=
  foldl_memWf (memWf_of_mem hs rfl) fun _ _ => outOfService_memWf

theorem resetModule_memWf (hs : s.memWf) : s.resetModule.memWf :=
  runBist_memWf (bootFirmware_memWf (cold_memWf hs))

theorem updBoot_memWf {f} (hs : s.memWf) : (s.updBoot f).memWf :=
  memWf_of_mem hs rfl

theorem toRmb_memWf {o bs} (hs : s.memWf) : (s.toRmb o bs).memWf :=
  updBoot_memWf hs

theorem mailboxEnds_memWf {stat} (hs : s.memWf) : (s.mailboxEnds stat).memWf :=
  updBoot_memWf hs

theorem mailStatus_memWf (hs : s.memWf) : s.mailStatus.memWf :=
  mailboxEnds_memWf (toRmb_memWf hs)

theorem mailWrite_memWf (hs : s.memWf) : s.mailWrite.memWf :=
  memWf_ite (mailboxEnds_memWf hs) <|
  memWf_ite (mailboxEnds_memWf (memWf_of_mem hs rfl)) (mailboxEnds_memWf (updBoot_memWf (memWf_of_mem hs rfl)))

theorem mailVerify_memWf (hs : s.memWf) : s.mailVerify.memWf :=
  mailboxEnds_memWf (toRmb_memWf (memWf_of_mem hs rfl))

theorem mailBist_memWf (hs : s.memWf) : s.mailBist.memWf :=
  memWf_ite (mailboxEnds_memWf (runBist_memWf hs)) (mailboxEnds_memWf hs)

theorem mailResults_memWf (hs : s.memWf) : s.mailResults.memWf :=
  mailboxEnds_memWf (updBoot_memWf (toRmb_memWf hs))

theorem writeRmbcmd_memWf {v} (hs : s.memWf) : (s.writeRmbcmd v).memWf :=
  memWf_ite hs ((post_memStep ..).wf (updBoot_memWf (memWf_of_mem hs rfl)))

/-! ### Debug -/

theorem asIssued_memWf {c k l} (hs : s.memWf) : (s.asIssued c k l).memWf :=
  memWf_of_mem hs rfl

theorem dbgValue_memWf {h c k} (hs : s.memWf) : (s.dbgValue h c k).2.memWf :=
  memWf_ite_snd (memWf_ite_snd hs (memWf_ite_snd hs ((fresh_memStep ..).wf hs))) <|
  memWf_ite_snd hs <|
  memWf_ite_snd hs <|
  memWf_ite_snd hs <|
  memWf_ite_snd hs <|
  memWf_ite_snd hs <|
  memWf_ite_snd hs <|
  memWf_ite_snd hs hs

theorem dbgRead_memWf {h} (hs : s.memWf) : (s.dbgRead h).2.memWf := by
  unfold dbgRead
  split
  · exact dbgValue_memWf hs
  · dsimp only
    exact updCtx_memWf hs

theorem dbgLane_memWf {c k l v} (hs : s.memWf) : (s.dbgLane c k l v).memWf := by
  unfold dbgLane
  split
  · exact hs
  · exact memWf_ite (exitLanes_memWf hs) hs
  · exact memWf_ite (updWarp_memWf hs) (memWf_ite (exitLanes_memWf hs) hs)

theorem dbgPut_memWf {h c k v} (hs : s.memWf) : (s.dbgPut h c k v).memWf :=
  memWf_ite (memWf_ite (markRegs_memWf (updWarp_memWf hs)) hs) <|
  memWf_ite (memWf_ite (updWarp_memWf hs) hs) <|
  memWf_ite (memWf_ite (updWarp_memWf hs) hs) <|
  memWf_ite (memWf_ite (updWarp_memWf hs) hs) <|
  memWf_ite (memWf_ite (updWarp_memWf hs) hs) <|
  memWf_ite (updWarp_memWf hs) <|
  memWf_ite (dbgLane_memWf hs) <|
  memWf_ite (memWf_of_mem (setSreg_memWf (asIssued_memWf hs)) rfl) hs

theorem dbgWrite_memWf {h v} (hs : s.memWf) : (s.dbgWrite h v).memWf := by
  unfold dbgWrite
  split
  · exact dbgPut_memWf hs
  · exact updCtx_memWf hs

theorem debugResume_memWf {h} (hs : s.memWf) : (s.debugResume h).memWf :=
  updCtx_memWf (memWf_of_mem hs rfl)

theorem writeDbgctl_memWf {h v} (hs : s.memWf) : (s.writeDbgctl h v).memWf :=
  memWf_ite_else (updCtx_memWf hs) debugResume_memWf

theorem createCtx_memWf {h} (hs : s.memWf) : (s.createCtx h).memWf :=
  memWf_ite (updCtx_memWf hs) (memWf_ite (updCtx_memWf hs) (updCtx_memWf hs))

theorem destroyCtx_memWf {h} (hs : s.memWf) : (s.destroyCtx h).memWf :=
  memWf_ite (updCtx_memWf hs) (updCtx_memWf (dropTlb_memWf (memWf_of_mem hs rfl)))

theorem assignSlot_memWf {k h} (hs : s.memWf) : (s.assignSlot k h).memWf :=
  memWf_ite (setDevsts_memWf hs) (memWf_ite hs (updVslot_memWf hs))

theorem releaseSlot_memWf {k} (hs : s.memWf) : (s.releaseSlot k).memWf :=
  memWf_of_mem hs rfl

/-! ### LaneCross -/

theorem matchBody_memWf {g d a b} (hs : s.memWf) : (matchBody g d a b s).memWf := by
  unfold matchBody
  refine controlWords_memWf hs ?_
  dsimp only
  split
  · exact hs
  · refine Did.memWf_ite hs (Did.memWf_ite hs ?_)
    split
    · exact hs
    · exact laneOp_memWf hs

/-! ### Issue -/

theorem takeAsync_memWf {c k gs} (hs : s.memWf) : (s.takeAsync c k gs).memWf := by
  unfold takeAsync
  dsimp only
  split
  · exact takeTrap_memWf (updWarp_memWf hs)
  · exact hs

theorem opportunity_memWf {c k gs} (hs : s.memWf) : (s.opportunity c k gs).memWf := by
  unfold opportunity
  extract_lets w s₁
  have h₁ : s₁.memWf := updWarp_memWf hs
  refine memWf_ite (takeAsync_memWf h₁) ?_
  split
  · exact h₁
  · extract_lets b drop s₂ s₃
    have h₂ : s₂.memWf := memWf_ite ((countEv_memStep ..).wf h₁) h₁
    have h₃ : s₃.memWf := memWf_ite ((countEv_memStep ..).wf h₂) h₂
    exact memWf_of_mem h₃ rfl

theorem tickContext_memWf {h} (hs : s.memWf) : (s.tickContext h).memWf := by
  unfold tickContext
  extract_lets x n s₁ s₂ m s₃ s₄
  have h₁ : s₁.memWf := updCtx_memWf hs
  have h₂ : s₂.memWf := memWf_ite (memWf_ite ((post_memStep ..).wf h₁) h₁) hs
  have h₃ : s₃.memWf := updAlm_memWf h₂
  have h₄ : s₄.memWf := memWf_ite (askParked_memWf h₃) h₃
  exact memWf_ite ((post_memStep ..).wf h₄) h₄

theorem tickBins_memWf {c} (hs : s.memWf) : (s.tickBins c).memWf :=
  foldl_memWf hs fun _ _ ht => memWf_ite ht (memWf_ite_else (updCc_memWf ht) fun h => (post_memStep ..).wf h)

theorem takeDue_memWf {c} (hs : s.memWf) : (s.takeDue c).memWf := by
  unfold takeDue
  refine foldl_memWf hs fun _ _ ht => ?_
  dsimp only
  split
  · exact ht
  · exact memWf_ite_then (updWarp_memWf ht) takeTrap_memWf

theorem arrayErrors_memWf {c} (hs : s.memWf) : (s.arrayErrors c).memWf :=
  memWf_ite hs <|
  foldl_memWf (memWf_of_mem hs rfl)
    fun _ _ ht => faultRecord_memWf (foldl_memWf (updCc_memWf ht) fun _ _ => pendAsync_memWf)

theorem writeBackErrors_memWf {c} (hs : s.memWf) : (s.writeBackErrors c).memWf :=
  memWf_ite hs <|
  foldl_memWf (memWf_of_mem hs rfl) fun _ _ ht => faultRecord_memWf (foldl_memWf ht fun _ _ => pendAsync_memWf)

theorem tickRunning_memWf {c} (hs : s.memWf) : (s.tickRunning c).memWf := by
  unfold tickRunning
  extract_lets x s₁ s₂ parked s₃ s₄
  have h₁ : s₁.memWf := updCc_memWf hs
  have h₂ : s₂.memWf := writeBackErrors_memWf (arrayErrors_memWf (takeDue_memWf (tickBins_memWf h₁)))
  have h₃ : s₃.memWf := (countEv_memStep ..).wf h₂
  have h₄ : s₄.memWf := memWf_ite h₃ ((countEv_memStep ..).wf h₃)
  exact memWf_ite (tickContext_memWf h₄) h₄

theorem tick_memWf {c} (hs : s.memWf) : (s.tick c).memWf := by
  unfold tick
  extract_lets s₁ x now s₂ s₃ per s₄ first
  have h₁ : s₁.memWf := memWf_ite (tickRunning_memWf hs) hs
  have h₃ : s₃.memWf := (postAll_memStep ..).wf (updCore_memWf h₁)
  have h₄ : s₄.memWf := memWf_ite ((post_memStep ..).wf h₃) h₃
  exact memWf_ite ((post_memStep ..).wf h₄) h₄

theorem quadCycle_memWf {c q} (hs : s.memWf) : (s.quadCycle c q).memWf := by
  unfold quadCycle
  extract_lets +lift s₁ user ready s₂ fw
  have h₁ : s₁.memWf := memWf_ite (tick_memWf hs) hs
  have h₂ : s₂.memWf := memWf_ite ((countEv_memStep ..).wf h₁) h₁
  refine memWf_ite (opportunity_memWf (updCore_memWf h₂)) ?_
  split
  · exact opportunity_memWf h₂
  · exact h₂

theorem advanceTurn_memWf (hs : s.memWf) : s.advanceTurn.memWf :=
  memWf_of_mem hs rfl

theorem beginIssue_memWf {i rest} (hs : s.memWf) : (s.beginIssue i rest).memWf :=
  memWf_of_mem hs rfl

theorem withUnit_memWf {iss} (hs : s.memWf) : (s.withUnit iss).memWf :=
  memWf_of_mem hs rfl

theorem beginWork_memWf (hs : s.memWf) : s.beginWork.memWf :=
  memWf_ite hs (updCore_memWf hs)

theorem clearWaits_memWf (hs : s.memWf) : s.clearWaits.memWf :=
  memWf_ite (updMe_memWf hs) hs

theorem issued_memWf (hs : s.memWf) : s.issued.memWf :=
  foldl_memWf (memWf_ite_else ((countEv_memStep ..).wf (clearWaits_memWf hs)) fun h => (countEv_memStep ..).wf h)
    fun _ _ => keepCode_memWf

theorem trapUnit_memWf {t} (hs : s.memWf) : (s.trapUnit t).memWf :=
  memWf_ite_then (syncTrap_memWf (beginWork_memWf hs)) clearWaits_memWf

theorem skipUnit_memWf (hs : s.memWf) : s.skipUnit.memWf :=
  updMe_memWf (flow_memWf hs)

theorem eventNow_memWf (hs : s.memWf) : s.eventNow.2.memWf :=
  (fresh_memStep ..).wf hs

/-! ### Queues -/

theorem agentPark_memWf {core slot home thr} (hs : s.memWf) : (s.agentPark core slot home thr).memWf :=
  ctrPark_memWf (dropWaiters_memWf hs)

theorem setNode_memWf {r node} (hs : s.memWf) : (s.setNode r node).memWf :=
  memWf_of_mem hs rfl

theorem entryDone_memWf {q} (hs : s.memWf) : (s.entryDone q).memWf := by
  unfold entryDone
  split
  · exact agentAdd_memWf hs
  · exact hs

theorem endRun_memWf {r} (hs : s.memWf) : (s.endRun r).memWf := by
  unfold endRun
  extract_lets x s₁ s₂
  have h₁ : s₁.memWf := by
    unfold s₁; split
    · exact memWf_ite hs (agentAdd_memWf hs)
    · exact hs
  have h₂ : s₂.memWf := memWf_of_mem h₁ rfl
  split
  · exact entryDone_memWf h₂
  · exact h₂

theorem badNode_memWf {r code addr} (hs : s.memWf) : (s.badNode r code addr).memWf :=
  endRun_memWf (refusal_memWf hs)

theorem agentRead_memWf {d h va} {y} (hs : s.memWf) (e : s.agentRead d h va = some (t, y)) : t.memWf := by
  unfold agentRead at e
  split at e
  · cases e
  · split at e
    · rename_i hb; cases e; exact readBlock_memWf hs hb
    · cases e

theorem nextNode_memWf {r} (hs : s.memWf) : (s.nextNode r).memWf := by
  unfold nextNode
  dsimp only
  split
  · exact hs
  · refine memWf_ite (endRun_memWf hs) ?_
    split
    · exact badNode_memWf hs
    · rename_i e
      exact memWf_ite (badNode_memWf (agentRead_memWf hs e)) ((post_memStep ..).wf (agentRead_memWf hs e))

theorem atNode_memWf {r t f} (hs : s.memWf) (hf : ∀ s x y, s.memWf → (f s x y).memWf) : (s.atNode r t f).memWf := by
  unfold atNode
  split
  · exact hs
  · split
    · exact hs
    · split
      · exact nextNode_memWf hs
      · rename_i e
        split at e
        · cases e
        · have h := agentRead_memWf hs e
          exact memWf_ite (nextNode_memWf h) (hf _ _ _ h)

theorem iterOf_memWf {x} {y} (hs : s.memWf) (e : s.iterOf x = some (t, y)) : t.memWf := by
  unfold iterOf at e
  split at e
  · cases e; exact hs
  · obtain ⟨⟨u, b⟩, hu, he⟩ := Option.map_eq_some_iff.mp e
    cases he
    exact agentRead_memWf hs hu

theorem launchAt_memWf {r} (hs : s.memWf) : (s.launchAt r).memWf := by
  unfold launchAt
  refine atNode_memWf hs fun _ _ _ ht => ?_
  dsimp only
  split
  · exact badNode_memWf ht
  · rename_i e
    exact nextNode_memWf ((post_memStep ..).wf (setNode_memWf (agentRead_memWf ht e)))

theorem copyAt_memWf {r} (hs : s.memWf) : (s.copyAt r).memWf :=
  atNode_memWf hs fun _ _ _ ht => nextNode_memWf (setNode_memWf (startSlices_memWf (updCc_memWf ht)))

theorem signalAt_memWf {r} (hs : s.memWf) : (s.signalAt r).memWf :=
  atNode_memWf hs fun _ _ _ ht => nextNode_memWf (agentAdd_memWf (setNode_memWf ht))

theorem waitAt_memWf {r} (hs : s.memWf) : (s.waitAt r).memWf := by
  refine atNode_memWf hs fun _ _ _ ht => ?_
  dsimp only
  split
  · exact badNode_memWf ht
  · exact badNode_memWf ht
  · rename_i e _
    have h := iterOf_memWf ht e
    split
    · exact (hold_memStep ..).wf h
    · exact memWf_ite (nextNode_memWf (setNode_memWf (dropWaiters_memWf ((acquireAt_memStep ..).wf h))))
        (memWf_ite h (agentPark_memWf h))

theorem condAt_memWf {r} (hs : s.memWf) : (s.condAt r).memWf := by
  refine atNode_memWf hs fun _ _ _ ht => ?_
  dsimp only
  split
  · exact badNode_memWf ht
  · exact badNode_memWf ht
  · rename_i e _
    have h := iterOf_memWf ht e
    split
    · exact (hold_memStep ..).wf h
    · refine memWf_ite (nextNode_memWf (setNode_memWf ((acquireAt_memStep ..).wf h)))
        (memWf_ite ?_ (nextNode_memWf (setNode_memWf h)))
      split
      · exact badNode_memWf h
      · rename_i e
        exact nextNode_memWf (setNode_memWf ((vaWrite_memStep e).wf h))

theorem beginRun_memWf {agent h head node hd queue} (hs : s.memWf) : (s.beginRun agent h head node hd queue).memWf :=
  nextNode_memWf (memWf_of_mem hs rfl)

theorem startRun_memWf {agent h head queue} (hs : s.memWf) : (s.startRun agent h head queue).memWf := by
  unfold startRun
  dsimp only
  split
  · split
    · exact entryDone_memWf (refusal_memWf hs)
    · exact refusal_memWf hs
  · rename_i e
    split
    · split
      · exact entryDone_memWf (refusal_memWf (agentRead_memWf hs e))
      · exact refusal_memWf (agentRead_memWf hs e)
    · exact beginRun_memWf (agentRead_memWf hs e)

theorem updQueue_memWf {q f} (hs : s.memWf) : (s.updQueue q f).memWf :=
  memWf_of_mem hs rfl

theorem stopQueue_memWf {q ctr inc} (hs : s.memWf) : (s.stopQueue q ctr inc).memWf := by
  unfold stopQueue
  split
  · exact agentAddFails_memWf (updQueue_memWf hs)
  · exact hs

theorem processEntry_memWf {q x t} (hs : s.memWf) : (s.processEntry q x t).memWf := by
  unfold processEntry
  extract_lets d va
  split
  · exact entryDone_memWf (refusal_memWf hs)
  · rename_i e
    have h := agentRead_memWf hs e
    exact memWf_ite (entryDone_memWf (takeLaunch_memWf h)) <|
      memWf_ite ((post_memStep ..).wf h) <|
      memWf_ite (beginRun_memWf h) (entryDone_memWf (refusal_memWf h))

theorem serveQueue_memWf {q} (hs : s.memWf) : (s.serveQueue q).memWf := by
  unfold serveQueue
  dsimp only
  split
  · exact hs
  · refine memWf_ite hs ?_
    split
    · split
      · exact stopQueue_memWf hs
      · split
        · exact (hold_memStep ..).wf hs
        · split
          · exact stopQueue_memWf hs
          · rename_i e
            exact (post_memStep ..).wf (updQueue_memWf (ctrAdd_memWf hs e))
    · split
      · exact stopQueue_memWf hs
      · split
        · exact (hold_memStep ..).wf hs
        · exact memWf_ite ((post_memStep ..).wf (processEntry_memWf (updQueue_memWf (dropWaiters_memWf hs)))) <|
            agentPark_memWf hs

theorem updRing_memWf {r f} (hs : s.memWf) : (s.updRing r f).memWf :=
  memWf_of_mem hs rfl

theorem ringReady_memWf {s : State} {d h b t a l} (hs : s.memWf) : (s.ringReady d h b t a l).1.memWf := by
  unfold ringReady
  dsimp only
  split
  · exact hs
  · split
    · rename_i e
      refine memWf_ite_fst (ringReady_memWf (vaRead_memWf hs e)) ?_
      dsimp only
      exact vaRead_memWf hs e
    · exact hs

theorem raiseMsix_memWf {r b} (hs : s.memWf) : (s.raiseMsix r b).memWf :=
  updIo_memWf (updRing_memWf hs)

theorem ringInterrupt_memWf {r} (hs : s.memWf) : (s.ringInterrupt r).memWf := by
  unfold ringInterrupt
  split
  · exact memWf_ite (raiseMsix_memWf hs) hs
  · exact hs

theorem ringPass_memWf {r} (hs : s.memWf) : (s.ringPass r).memWf := by
  unfold ringPass
  split
  · exact hs
  · extract_lets core d b
    refine memWf_ite hs ?_
    split
    · exact agentAddFails_memWf (updRing_memWf hs)
    · split
      · exact (hold_memStep ..).wf hs
      · split
        rename_i s₁ n e
        have h₁ : s₁.memWf := fst_memWf (ringReady_memWf hs) e
        refine memWf_ite (agentPark_memWf h₁) ?_
        split
        · exact agentPark_memWf (agentAddFails_memWf h₁)
        · split
          · exact (hold_memStep ..).wf h₁
          · split
            · exact agentPark_memWf (agentAddFails_memWf h₁)
            · rename_i e
              refine (post_memStep ..).wf (ringInterrupt_memWf ?_)
              exact memWf_ite_else (updRing_memWf (ctrAdd_memWf h₁ e)) fun h => (postAfter_memStep ..).wf h

theorem ringWindow_memWf {r} (hs : s.memWf) : (s.ringWindow r).memWf := by
  unfold ringWindow
  split
  · exact hs
  · exact memWf_ite (raiseMsix_memWf hs) hs

theorem giveBlock_memWf {agent h addr ring} (hs : s.memWf) : (s.giveBlock agent h addr ring).memWf := by
  unfold giveBlock
  extract_lets d bad
  split
  · exact refusal_memWf hs
  · rename_i e
    have h := agentRead_memWf hs e
    exact memWf_ite (memWf_ite (refusal_memWf h) ((post_memStep ..).wf (memWf_of_mem h rfl)))
      (memWf_ite (refusal_memWf h) (memWf_ite h ((post_memStep ..).wf (memWf_of_mem h rfl))))

/-! ### Registers -/

theorem openValue_memWf {bits} (hs : s.memWf) : (s.open_ bits).2.memWf :=
  (fresh_memStep ..).wf hs

theorem readDev_memWf {src o} (hs : s.memWf) : (s.readDev src o).2.memWf := by
  unfold readDev
  iterate 7 refine memWf_ite_snd hs ?_
  refine memWf_ite_snd (openValue_memWf hs) ?_
  iterate 4 refine memWf_ite_snd hs ?_
  exact hs

theorem readEvcnt_memWf {cnt sel hi} (hs : s.memWf) : (s.readEvcnt cnt sel hi).2.memWf :=
  memWf_ite_snd ((fresh_memStep ..).wf hs) hs

theorem readDie_memWf {d o} (hs : s.memWf) : (s.readDie d o).2.memWf := by
  unfold readDie
  dsimp only
  iterate 4 refine memWf_ite_snd hs ?_
  refine memWf_ite_snd (openValue_memWf (bits := 8) hs) (memWf_ite_snd hs (memWf_ite_snd (readEvcnt_memWf hs) ?_))
  exact memWf_ite_snd hs (memWf_ite_snd hs
    (memWf_ite_snd (memWf_ite_snd (readEvcnt_memWf hs) (memWf_ite_snd hs hs)) hs))

theorem readCtx_memWf {h o} (hs : s.memWf) : (s.readCtx h o).2.memWf :=
  memWf_ite_snd hs <|
  memWf_ite_snd hs <|
  memWf_ite_snd hs <|
  memWf_ite_snd hs <|
  memWf_ite_snd hs <|
  memWf_ite_snd hs <|
  memWf_ite_snd (dbgRead_memWf hs) <|
  memWf_ite_snd hs hs

theorem readReg_memWf {src off} (hs : s.memWf) : (s.readReg src off).2.memWf := by
  unfold readReg
  refine memWf_ite_snd hs (memWf_ite_snd hs (memWf_ite_snd (readDev_memWf hs) (memWf_ite_snd (readDie_memWf hs) ?_)))
  iterate 7 refine memWf_ite_snd hs ?_
  refine memWf_ite_snd (readCtx_memWf hs) ?_
  iterate 3 refine memWf_ite_snd hs ?_
  exact hs

theorem setDevReg_memWf {o v} (hs : s.memWf) : (s.setDevReg o v).memWf :=
  updIo_memWf hs

theorem writeFlip_memWf {e o v} (hs : s.memWf) : (s.writeFlip e o v).memWf :=
  memWf_ite (updFlip_memWf hs) <|
  memWf_ite (updFlip_memWf hs) <|
  memWf_ite (memWf_ite_else (updFlip_memWf hs) startFlip_memWf) hs

theorem writeKey_memWf {o v} (hs : s.memWf) : (s.writeKey o v).memWf :=
  memWf_ite
    (memWf_ite_then (memWf_ite (updIo_memWf hs) hs)
      fun h' => memWf_ite_then (updIo_memWf h') fun h => (post_memStep ..).wf (updIo_memWf h)) <|
  memWf_ite (updIo_memWf (memWf_ite (updIo_memWf hs) hs)) (memWf_ite_else (memWf_ite (updIo_memWf hs) hs) updIo_memWf)

theorem writeDev_memWf {src o v} (hs : s.memWf) : (s.writeDev src o v).memWf :=
  memWf_ite hs <|
  memWf_ite (updIo_memWf hs) <|
  memWf_ite (memWf_ite (negotiate_memWf hs) hs) <|
  memWf_ite (memWf_ite hs (setDevReg_memWf hs)) <|
  memWf_ite (memWf_ite hs (setDevReg_memWf hs)) <|
  memWf_ite (updIo_memWf hs) <|
  memWf_ite (updIo_memWf hs) <|
  memWf_ite (memWf_ite (askInvalidate_memWf hs) hs) <|
  memWf_ite (memWf_ite (setCtrPage_memWf hs) (memWf_ite (clearCtrPage_memWf hs) (memWf_ite (noteMark_memWf hs) hs))) <|
  memWf_ite (writeFlip_memWf hs) <|
  memWf_ite (writeKey_memWf hs) <|
  memWf_ite hs (setDevReg_memWf hs)

theorem writePart_memWf {p o v} (hs : s.memWf) : (s.writePart p o v).memWf :=
  memWf_ite (partCommand_memWf (updPart_memWf hs)) <|
  memWf_ite (updPart_memWf hs) <|
  memWf_ite (updPart_memWf hs) <|
  memWf_ite (updPart_memWf hs) <|
  memWf_ite (updPart_memWf hs) hs

theorem keepCount_memWf {cnt sel} (hs : s.memWf) : (s.keepCount cnt sel).2.memWf := by
  unfold keepCount
  dsimp only
  split
  · dsimp only
    exact (fresh_memStep ..).wf ((fresh_memStep ..).wf hs)
  · exact hs

theorem writeDie_memWf {d o v} (hs : s.memWf) : (s.writeDie d o v).memWf := by
  unfold writeDie
  refine memWf_ite (updDie_memWf hs) <|
    memWf_ite (writeAbud_memWf hs) <|
    memWf_ite (writeVfstate_memWf hs) <|
    memWf_ite (updDie_memWf hs) <|
    memWf_ite (writePart_memWf hs) ?_
  dsimp only
  exact memWf_ite (updDie_memWf (keepCount_memWf hs)) <|
    memWf_ite (updDie_memWf hs) <|
    memWf_ite (updCore_memWf (keepCount_memWf hs)) hs

theorem setCtxReg_memWf {h o v} (hs : s.memWf) : (s.setCtxReg h o v).memWf :=
  updCtx_memWf hs

theorem writeCtx_memWf {h o v} (hs : s.memWf) : (s.writeCtx h o v).memWf := by
  unfold writeCtx
  have hc := memWf_ite (p := v.getLsbD 9)
    (updCtx_memWf (h := h) (f := fun x => { x with reclost := false }) hs) hs
  exact memWf_ite (memWf_ite (createCtx_memWf hc) (memWf_ite (destroyCtx_memWf hc) hc)) <|
    memWf_ite (memWf_ite hs (setCtxReg_memWf hs)) <|
    memWf_ite (updAlm_memWf hs) <|
    memWf_ite (memWf_ite_else (setCtxReg_memWf hs) beginCapture_memWf) <|
    memWf_ite (writeDbgctl_memWf hs) <|
    memWf_ite (setCtxReg_memWf (memWf_ite (updCtx_memWf hs) hs)) <|
    memWf_ite (dbgWrite_memWf hs) <|
    memWf_ite (memWf_ite (rollback_memWf hs) hs) <|
    memWf_ite hs (setCtxReg_memWf hs)

theorem writeVslot_memWf {k v} (hs : s.memWf) : (s.writeVslot k v).memWf :=
  memWf_ite (assignSlot_memWf hs) (updIo_memWf (releaseSlot_memWf hs))

theorem writeReg_memWf {src off v} (hs : s.memWf) : (s.writeReg src off v).memWf :=
  memWf_ite hs <|
  memWf_ite (toRmb_memWf hs) <|
  memWf_ite (writeDev_memWf hs) <|
  memWf_ite (writeDie_memWf hs) <|
  memWf_ite hs <|
  memWf_ite (writeVslot_memWf hs) <|
  memWf_ite (memWf_ite (updVslot_memWf hs) hs) <|
  memWf_ite (memWf_ite (updIo_memWf hs) hs) <|
  memWf_ite hs <|
  memWf_ite (updIo_memWf hs) <|
  memWf_ite hs <|
  memWf_ite (writeCtx_memWf hs) <|
  memWf_ite (writeRmbcmd_memWf hs) hs

theorem serveReg_memWf {i r a} (hs : s.memWf) : (s.serveReg i r a).memWf := by
  unfold serveReg
  dsimp only
  split
  · exact memWf_of_mem (foldl_memWf hs fun _ _ => writeReg_memWf) rfl
  · refine (post_memStep ..).wf (memWf_of_mem (foldlSnd_memWf hs fun _ _ ht => ?_) rfl)
    dsimp only
    exact readReg_memWf ht

theorem atHome_memWf {i} (hs : s.memWf) : (s.atHome i).memWf := by
  unfold atHome
  split
  · exact hs
  · split
    · exact memWf_ite hs (serveReg_memWf hs)
    · exact serve_memWf hs

/-! ### Sample -/

theorem sample_memWf {c} (hs : s.memWf) : (s.sample c).memWf := by
  unfold sample
  refine memWf_ite hs ?_
  dsimp only
  split
  · exact hs
  · exact memWf_of_mem ((fresh_memStep ..).wf ((fresh_memStep ..).wf (updCore_memWf hs))) (trace_recStep ..).mem

theorem digestInput_memWf {d h b} {y} (hs : s.memWf) (e : s.digestInput d h b = some (t, y)) : t.memWf := by
  unfold digestInput at e
  extract_lets rtab n at e
  split at e
  · cases e
  · refine List.foldlRecOn (motive := fun acc : Option (State × List Byte) => ∀ p ∈ acc, p.1.memWf) (List.range n) _ ?_
      ?_ (t, y) e
    · rintro p ⟨⟩; exact hs
    · intro acc hacc i _ p hp
      simp only [Option.mem_def, Option.bind_eq_bind, Option.bind_eq_some_iff, Option.pure_def, Option.some.injEq] at hp
      obtain ⟨⟨u, l⟩, hu, ⟨v, l₁⟩, hv, ⟨w, l₂⟩, hw, rfl⟩ := hp
      exact vaRead_memWf (vaRead_memWf (hacc _ hu) (Except.eq_ok_of_toOption hv)) (Except.eq_ok_of_toOption hw)

theorem digestMiss_memWf {c h entry} (hs : s.memWf) : (s.digestMiss c h entry).memWf :=
  updCtx_memWf (memWf_of_mem (memWf_of_mem hs rfl) (trace_recStep ..).mem)

theorem digest_memWf {h entry} (hs : s.memWf) : (s.digest h entry).memWf := by
  unfold digest
  extract_lets c d
  split
  · exact hs
  · rename_i e
    have h₁ := replayBlock_memWf hs e
    split
    · exact h₁
    · rename_i e
      have h₂ := digestInput_memWf h₁ e
      refine memWf_ite ?_ (memWf_ite ?_ h₂)
      · split
        · rename_i e
          exact (vaWrite_memStep e).wf h₂
        · exact h₂
      · split
        · rename_i e
          exact memWf_ite_else (vaRead_memWf h₂ e) digestMiss_memWf
        · exact h₂

end State
end Sys2Proof.Machine
end

section
/-! PROOFS (05 R72): memory keeps its one form in every instruction and event, and so in every step. -/

namespace Sys2Proof.Machine
namespace State

variable {s : State} {o : Host.Outcome State Fault Refusal}

theorem exec_memWf (i : Instr) (hs : s.memWf) : Outcome.memWf (exec i s) := by
  cases i with
  | iadd | isub | imul | imulhI32 | imulhN32 | imad | iminI32 | iminN32 | imaxI32 | imaxN32 | iabs | ineg | iaddi
  | imuli => exact issue_memWf hs fun _ => laneOp_memWf
  | icmp | icmpi => exact issue_memWf hs fun _ => predOp_memWf
  | mov | movi | sel | and | or | xor | andn | not | andi | ori | xori | shl | shr | sar | rol | shli | shri | sari
  | popc | clz | ctz | brev | bfeN32 | bfeI32 | bfi => exact issue_memWf hs fun _ => laneOp_memWf
  | fadd | fsub | fmul | ffma => exact issue_memWf hs fun _ => fpOp_memWf
  | fmin | fmax | fabs | fneg => exact issue_memWf hs fun _ => laneOp_memWf
  | fcmp => exact issue_memWf hs fun _ => predOp_memWf
  | fclass | fcpys | frnd => exact issue_memWf hs fun _ => laneOp_memWf
  | hadd2 | hsub2 | hmul2 | hfma2 => exact issue_memWf hs fun _ => packedOp_memWf
  | hmin2 | hmax2 => exact issue_memWf hs fun _ => laneOp_memWf
  | hdot2 => exact issue_memWf hs fun _ => fpOp_memWf
  | cvt => exact issue_memWf hs fun _ ht => Did.memWf_ite (fpOp_memWf ht) (flagOp_memWf ht)
  | cvtx => exact issue_memWf hs fun _ => flagOp_memWf
  | cvtp => exact issue_memWf hs fun _ => fpOp_memWf
  | qnt => exact issue_memWf hs fun _ ht => addResults_memWf (holdUnit_memWf ht)
  | dqnt => exact issue_memWf hs fun _ => fpOp_memWf
  | frcp | frsq | fsqrt | fexp2 | flog2 | fsin | fcos | ftanh | ferf | fsigm =>
    exact issue_memWf hs fun _ ht => fpOp_memWf (holdUnit_memWf ht)
  | shfl | vote | ballot => exact issue_memWf hs fun _ ht => controlWords_memWf ht (laneOp_memWf ht)
  | redx | scan =>
    exact issue_memWf hs fun _ ht => controlWords_memWf ht (Did.memWf_ite (fpOp_memWf ht) (laneOp_memWf ht))
  | matchLanes => exact issue_memWf hs fun _ => matchBody_memWf
  | ld => exact issue_memWf hs fun _ => ldBody_memWf
  | st => exact issue_memWf hs fun _ => stBody_memWf
  | atom => exact issue_memWf hs fun _ => atomBody_memWf
  | cas => exact issue_memWf hs fun _ => casBody_memWf
  | caddv => exact issue_memWf hs fun _ => caddvBody_memWf
  | lds => exact issue_memWf hs fun _ => ldsBody_memWf
  | sts => exact issue_memWf hs fun _ => stsBody_memWf
  | atoms => exact issue_memWf hs fun _ => atomsBody_memWf
  | cass => exact issue_memWf hs fun _ => cassBody_memWf
  | pref => exact issue_memWf hs fun _ => prefBody_memWf
  | bra | brp => exact issue_memWf hs fun _ => id
  | call => exact issue_memWf hs fun _ => callBody_memWf
  | calli => exact issue_memWf hs fun _ => calliBody_memWf
  | ret => exact issue_memWf hs fun _ => retBody_memWf
  | jmpi =>
    refine issue_memWf hs fun _ ht => ?_
    split <;> exact ht
  | rcv => exact issue_memWf hs fun _ => updMe_memWf
  | exit => exact reap_memWf (issue_memWf hs (fun _ => exitLanes_memWf))
  | spawn => exact issue_memWf hs fun _ => spawnBody_memWf
  | yld => exact issue_memWf hs fun _ ht => updMe_memWf (updCore_memWf ht)
  | nop => exact issue_memWf hs fun _ => id
  | sadd | ssub | smul | smulh | sand | sor | sxor | sshl | sshr | ssar | smin | smax | smov | smovi | saddi =>
    exact issue_memWf hs fun _ => uniOp_memWf
  | scmp => exact issue_memWf hs fun _ => addResults_memWf
  | ssel => exact issue_memWf hs fun _ => uniOp_memWf
  | sadd64 => exact issue_memWf hs fun _ => uniOp64_memWf
  | sld => exact issue_memWf hs fun _ => sldBody_memWf
  | sst => exact issue_memWf hs fun _ => sstBody_memWf
  | sbra | sbrp => exact issue_memWf hs fun _ => id
  | scall => exact issue_memWf hs fun _ => callBody_memWf
  | sret => exact issue_memWf hs fun _ => retBody_memWf
  | srd => exact issue_memWf hs fun _ => srdBody_memWf
  | swr => exact issue_memWf hs fun _ => swrBody_memWf
  | cadd => exact issue_memWf hs fun _ => caddBody_memWf
  | crd | cwait | cpoll => exact issue_memWf hs fun _ => ctrBody_memWf
  | fence => exact issue_memWf hs fun _ => fenceBody_memWf
  | cmnt => exact issue_memWf hs fun _ => cmntBody_memWf
  | racq => exact issue_memWf hs fun _ => racqBody_memWf
  | racqNb => exact issue_memWf hs fun _ => racqNbBody_memWf
  | rrel => exact issue_memWf hs fun _ => rrelBody_memWf
  | rnext => exact issue_memWf hs fun _ => rnextBody_memWf
  | launch => exact issue_memWf hs fun _ => launchBody_memWf
  | cpy => exact issue_memWf hs fun _ => copyBody_memWf
  | cpyb => exact issue_memWf hs fun _ => cpybBody_memWf
  | cpyg | cpys => exact issue_memWf hs fun _ => copyBody_memWf
  | cseal => exact issue_memWf hs fun _ => csealBody_memWf
  | cwaitb => exact issue_memWf hs fun _ => cwaitbBody_memWf
  | wdesc => exact issue_memWf hs fun _ => wdescBody_memWf
  | msignCount | msignReg => exact issue_memWf hs fun _ => msignBody_memWf
  | ldw => exact issue_memWf hs fun _ => ldwBody_memWf
  | wswap => exact issue_memWf hs fun _ => wswapBody_memWf
  | mma => exact issue_memWf hs fun _ => mmaBody_memWf
  | mmat => exact issue_memWf hs fun _ => mmatBody_memWf
  | mperm => exact issue_memWf hs fun _ => mpermBody_memWf
  | mred => exact issue_memWf hs fun _ => mredBody_memWf
  | mrd => exact issue_memWf hs fun _ => mrdBody_memWf
  | mst => exact issue_memWf hs fun _ => mstBody_memWf
  | mzero => exact issue_memWf hs fun _ => mzeroBody_memWf
  | trap => exact issue_memWf hs fun _ => afterTrap_memWf
  | rft => exact issue_memWf hs fun _ ht => retryCopies_memWf (returnFromTrap_memWf ht)
  | svc => exact issue_memWf hs fun _ => svcBody_memWf
  | bkpt => exact issue_memWf hs fun _ ht => Did.memWf_ite (debugStop_memWf ht) (afterTrap_memWf ht)
  | ckpt => exact issue_memWf hs fun _ => ckptBody_memWf
  | ckptCounter => exact issue_memWf hs fun _ => ckptCounterBody_memWf
  | rgnent => exact issue_memWf hs fun _ => rgnentBody_memWf
  | rgnlve => exact issue_memWf hs fun _ => rgnlveBody_memWf
  | toksub | toksubD | tokconf => exact issue_memWf hs fun _ => tokBody_memWf
  | tokarm => exact issue_memWf hs fun _ => tokarmBody_memWf
  | quadIssueCycle => exact Outcome.memWf_unit (quadCycle_memWf hs)
  | spawnBinTimerExpiry => exact Outcome.memWf_unit (binExpires_memWf hs)
  | spawnBinLaunch => exact Outcome.memWf_unit (binLaunch_memWf hs)
  | coreAdmission => exact Outcome.memWf_unit (admitWork_memWf hs)
  | launchDescriptorTake => exact Outcome.memWf_unit (descriptorTake_memWf hs)
  | submissionQueueEntry => exact serveQueue_memWf hs
  | run => exact Outcome.memWf_unit (startRun_memWf hs)
  | launchNode => exact launchAt_memWf hs
  | copyNode => exact copyAt_memWf hs
  | signalNode => exact signalAt_memWf hs
  | waitNode => exact waitAt_memWf hs
  | condNode => exact condAt_memWf hs
  | stealRequest => exact stealAt_memWf hs
  | stealAgentTimeout => exact stealTimeout_memWf hs
  | reserve => exact Outcome.memWf_unit (reserveAt_memWf hs)
  | commit => exact Outcome.memWf_unit (commitAt_memWf hs)
  | rollback => exact Outcome.memWf_unit (freeGang_memWf hs)
  | start => exact Outcome.memWf_unit (startAt_memWf hs)
  | agree => exact Outcome.memWf_unit (agreeFrom_memWf hs)
  | refuse => exact Outcome.memWf_unit (attemptRefused_memWf hs)
  | confirm => exact Outcome.memWf_unit (confirmFrom_memWf hs)
  | withdraw => exact Outcome.memWf_unit (attemptRefused_memWf hs)
  | gangHoldTimeout => exact Outcome.memWf_unit (holdEnds_memWf hs)
  | gangCollectTimeout => exact collectEnds_memWf hs
  | equinoxStep => exact Outcome.memWf_unit (equinox_memWf hs)
  | stop => exact Outcome.memWf_unit (stopPart_memWf hs)
  | swap => exact Outcome.memWf_unit (swapPart_memWf hs)
  | resume => exact Outcome.memWf_unit (resumePart_memWf hs)
  | demote => exact Outcome.memWf_unit (demotePart_memWf hs)
  | load => exact Outcome.memWf_unit (loadPart_memWf hs)
  | enter => exact Outcome.memWf_unit (enterPart_memWf hs)
  | pctlReservedCommand => exact Outcome.memWf_unit (finish_memWf hs)
  | partitionCommandComplete => exact Outcome.memWf_unit (commandDone_memWf hs)
  | parkedEviction => exact Outcome.memWf_unit (evictUnit_memWf hs)
  | evictionWakePoll => exact Outcome.memWf_unit (pollEvicted_memWf hs)
  | almanacPeriodExpiry => exact periodDue_memWf hs
  | cut => exact beginCut_memWf hs
  | cutReply => exact Outcome.memWf_unit (cutReplyFrom_memWf hs)
  | heldWriteRelease => exact heldRelease_memWf hs
  | intervalDurable => exact durable_memWf hs
  | vigilStep => exact realStep_memWf hs
  | vigilDraftStep => exact draftStep_memWf hs
  | vigilConfirm => exact confirmStep_memWf hs
  | vigilArmApply => exact armApply_memWf hs
  | vigilResultArrival => exact tokAnswer_memWf hs
  | flipStep2Complete => exact Outcome.memWf_unit (flipStep2_memWf hs)
  | hostMemRead => exact hostRead_memWf hs
  | hostMemWrite | hostCounterWrite => exact hostWrite_memWf hs
  | peerAccess => exact Outcome.memWf_unit (peerAccess_memWf hs)
  | counterOpAtHome => exact counterAtHome_memWf hs
  | slowListNotice => exact Outcome.memWf_unit (slowNotice_memWf hs)
  | monitorWake => exact monitorHit_memWf hs
  | hold => exact holdAt_memWf hs
  | apply => exact applyAt_memWf hs
  | release => exact releaseHold_memWf hs
  | appCoreCounterAmo => exact Outcome.memWf_unit (appAccess_memWf hs)
  | ringAgentPass => exact ringPass_memWf hs
  | ringWindowExpiry => exact ringWindow_memWf hs
  | traceRecordWrite => exact Outcome.memWf_unit (writeTrace_memWf hs)
  | traceSample => exact Outcome.memWf_unit (sample_memWf hs)
  | tileRecord => exact Outcome.memWf_unit (writeTile_memWf hs)
  | captureEnd => exact endCapture_memWf hs
  | replayDigest => exact Outcome.memWf_unit (digest_memWf hs)
  | copyComplete | copyHalt => exact Outcome.memWf_unit (engineRun_memWf hs)
  | matrixCommandStart => exact Outcome.memWf_unit (startMatrix_memWf hs)
  | matrixCommandRetire => exact Outcome.memWf_unit (retireMatrix_memWf hs)
  | pageWalkComplete => exact Outcome.memWf_unit (walkDone_memWf hs)
  | l1WritebackDeadline => exact Outcome.memWf_unit (deadline_memWf hs)
  | memoryRequestAtHome => exact atHome_memWf hs
  | variableLatencyResult => exact deliverReq_memWf hs
  | holdAnswer => exact holdAnswered_memWf hs
  | stealReply => exact stealAnswer_memWf hs
  | queueControlBlockGiven => exact Outcome.memWf_unit (giveBlock_memWf hs)
  | budgetPeriod => exact Outcome.memWf_unit (endPeriod_memWf hs)
  | cxlLinkLoss => exact Outcome.memWf_unit (loseCxl_memWf hs)
  | colmetLinkLoss => exact Outcome.memWf_unit (loseColmet_memWf hs)
  | linkRetrain => exact Outcome.memWf_unit (retrain_memWf hs)
  | partitionOffline => exact Outcome.memWf_unit (offlinePart_memWf hs)
  | submitterFreeze => exact freezeGang_memWf hs
  | restore => exact Outcome.memWf_unit (partDamaged_memWf hs)
  | cxlCacheSnoop => exact Outcome.memWf_unit (cacheSnoop_memWf hs)
  | trapEntry => exact Outcome.memWf_unit (takeTrap_memWf hs)
  | asyncTrapTake => exact Outcome.memWf_unit (Outcome.memWf_ite hs (takeAsync_memWf hs))
  | biasFlipToHost | biasFlipToDevice => exact Outcome.memWf_unit (startFlip_memWf hs)
  | rollbackGo => exact rollback_memWf hs
  | bisnpResponse => exact bisnpAnswer_memWf hs
  | peerRefusal => exact Outcome.memWf_unit (pendAsync_memWf hs)
  | registerWrite => exact writeReg_memWf hs
  | captureStart => exact beginCapture_memWf hs
  | thermalThrottle => exact Outcome.memWf_unit (heat_memWf hs)
  | powerLimitExceeded => exact powerOver_memWf hs
  | thermalShutdown => exact Outcome.memWf_unit (shutdown_memWf hs)
  | vfStateChange => exact Outcome.memWf_unit (selectVf_memWf hs)
  | abudWrite => exact Outcome.memWf_unit (writeAbud_memWf hs)
  | vfstateWrite => exact Outcome.memWf_unit (writeVfstate_memWf hs)
  | dbgdataRead => exact Outcome.memWf_unit (memWf_of_mem (dbgRead_memWf hs) rfl)
  | dbgdataWrite => exact Outcome.memWf_unit (dbgWrite_memWf hs)
  | debugGo => exact Outcome.memWf_unit (debugResume_memWf hs)
  | create => exact Outcome.memWf_unit (createCtx_memWf hs)
  | destroy => exact Outcome.memWf_unit (destroyCtx_memWf hs)
  | vslotAssign => exact Outcome.memWf_unit (assignSlot_memWf hs)
  | vslotRelease => exact Outcome.memWf_unit (releaseSlot_memWf hs)
  | featureNegotiate => exact negotiate_memWf hs
  | inputUndervoltage => exact undervoltage_memWf hs
  | keyGen => exact genKey_memWf hs
  | keyLoad => exact loadKey_memWf hs
  | keyErase => exact eraseKey_memWf hs
  | keyWrap => exact wrapKey_memWf hs
  | keyUnwrap => exact unwrapKey_memWf hs
  | keyReservedCommand => exact keyEnds_memWf hs
  | tlbInvalidateRequest => exact askInvalidate_memWf hs
  | tlbInvalidateComplete => exact invalidated_memWf hs
  | counterPageSet => exact setCtrPage_memWf hs
  | counterPageClear => exact clearCtrPage_memWf hs
  | counterPageRead => exact noteMark_memWf hs
  | status => exact mailStatus_memWf hs
  | writeFlash => exact mailWrite_memWf hs
  | verify => exact mailVerify_memWf hs
  | bist => exact mailBist_memWf hs
  | results => exact mailResults_memWf hs
  | reboot => exact resetModule_memWf hs
  | mailboxUnknownCommand => exact mailboxEnds_memWf hs
  | deviceReset => exact resetModule_memWf hs
  | strandedRetentionExpiry => exact retentionOver_memWf hs

/-- An instruction that met a line of the host is put off, and the state before it then stays (16 R321). -/
theorem afterIssue_memWf (hs : s.memWf) (ho : Outcome.memWf o) : Outcome.memWf (s.afterIssue o) := by
  cases o with
  | next t =>
    dsimp only [afterIssue, Outcome.memWf]
    split
    · exact putOff_memWf ((snoop_memStep ..).wf hs)
    · exact memWf_ite (memWf_of_mem hs rfl) (issued_memWf ho)
  | _ => trivial

/-- An event that met a line of the host is held, and the state before it then stays (16 R321). -/
theorem afterEvent_memWf {e : Instr} (hs : s.memWf) (ho : Outcome.memWf o) : Outcome.memWf (s.afterEvent e o) := by
  cases o with
  | next t =>
    dsimp only [afterEvent, Outcome.memWf]
    split
    · exact (hold_memStep ..).wf hs
    · exact ho
  | _ => trivial

theorem stepQuad_memWf (hs : s.memWf) : Outcome.memWf (stepQuad s) :=
  have h := advanceTurn_memWf hs
  afterEvent_memWf h (exec_memWf _ h)

theorem stepEvent_memWf {e : Instr} {rest : List Instr} (hs : s.memWf) : Outcome.memWf (stepEvent s e rest) :=
  have h : State.memWf { s with agenda := rest } := memWf_of_mem hs rfl
  afterEvent_memWf h (exec_memWf _ h)

theorem stepIssue_memWf {i : IssueSlot} {rest : List IssueSlot} (hs : s.memWf) : Outcome.memWf (stepIssue s i rest) := by
  unfold stepIssue
  extract_lets s₁ what
  have h₁ : s₁.memWf := beginIssue_memWf hs
  clear_value what
  split
  · exact putOff_memWf ((snoop_memStep ..).wf h₁)
  · split
    · exact trapUnit_memWf h₁
    · exact skipUnit_memWf (withUnit_memWf h₁)
    · exact afterIssue_memWf (withUnit_memWf h₁) (exec_memWf _ (beginWork_memWf (withUnit_memWf h₁)))

theorem step_memWf (hs : s.memWf) : Outcome.memWf (step s) := by
  unfold step
  split
  · exact hs
  · split
    · exact stepIssue_memWf hs
    · split
      · have h := eventNow_memWf hs
        split <;> rename_i e <;> rw [e] at h
        · exact stepEvent_memWf h
        · exact stepQuad_memWf h
      · exact stepQuad_memWf hs

/-- Settles O60: memory keeps its form in every arm of the step (`step_memWf`), an instruction or event at a time. -/
theorem memoryStaysCanonical : Obligations.MemoryStaysCanonical := by
  intro s t hs e
  have h := step_memWf hs
  rw [e] at h
  exact h

end State
end Sys2Proof.Machine
end

section
/-! PROOFS (05 R88; 08 R151; 10 R202): the groups of the accesses of an instruction, and what a request changes. -/

namespace Sys2Proof.Machine
namespace State

/-- What the accesses of one request share (05 R88): their line, or that they lie in scratchpads. -/
def accessLine (a : Access) : Nat := if a.core.isSome then 0 else 1 + lineOf a.pa

/-- The lines that accesses touch, each where it is touched first. -/
def accessLines (as : List Access) : List Nat := (as.map accessLine).reverse.dedup.reverse

theorem lineGroups_eq (as : List Access) :
    lineGroups as = (accessLines as).map fun k => as.filter fun a => accessLine a = k := rfl

theorem mem_accessLines {as : List Access} {k : Nat} : k ∈ accessLines as ↔ ∃ a ∈ as, accessLine a = k := by
  simp [accessLines]

theorem accessLines_append (as : List Access) (x : Access) :
    accessLines (as ++ [x]) = if accessLine x ∈ accessLines as then accessLines as else accessLines as ++ [accessLine x] := by
  simp only [accessLines, List.map_append, List.map_cons, List.map_nil, List.reverse_append, List.reverse_cons,
    List.reverse_nil, List.nil_append, List.singleton_append, List.mem_reverse, List.mem_dedup]
  split
  next h => rw [List.dedup_cons_of_mem (List.mem_reverse.mpr h)]
  next h => rw [List.dedup_cons_of_notMem (mt List.mem_reverse.mp h), List.reverse_cons]

/-- Two accesses of one request. -/
def sameLine (a b : Access) : Bool :=
  a.core.isSome == b.core.isSome && (a.core.isSome || a.pa / 128 == b.pa / 128)

theorem sameLine_eq (a b : Access) : sameLine a b = decide (accessLine b = accessLine a) := by
  unfold sameLine accessLine lineOf
  cases a.core.isSome <;> cases b.core.isSome <;> simp [Nat.add_comm 1, beq_eq_decide, eq_comm]

theorem filter_sameLine (as : List Access) (a : Access) :
    as.filter (sameLine a) = as.filter fun b => accessLine b = accessLine a :=
  List.filter_congr fun b _ => sameLine_eq a b

theorem mem_lineGroups {as g : List Access} : g ∈ lineGroups as ↔ ∃ a ∈ as, g = as.filter (sameLine a) := by
  rw [lineGroups_eq, List.mem_map]
  constructor
  · rintro ⟨k, hk, rfl⟩
    obtain ⟨a, ha, rfl⟩ := mem_accessLines.mp hk
    exact ⟨a, ha, (filter_sameLine as a).symm⟩
  · rintro ⟨a, ha, rfl⟩
    exact ⟨_, mem_accessLines.mpr ⟨a, ha, rfl⟩, (filter_sameLine as a).symm⟩

/-- The first access of a line stays the first when accesses follow. -/
theorem head?_filter_append {as : List Access} {k : Nat} (hk : k ∈ accessLines as) (x : Access) :
    ((as ++ [x]).filter fun a => accessLine a = k).head? = (as.filter fun a => accessLine a = k).head? := by
  obtain ⟨a, ha, hak⟩ := mem_accessLines.mp hk
  have hne : as.filter (fun a => accessLine a = k) ≠ [] := List.ne_nil_of_mem (List.mem_filter.mpr ⟨ha, by simpa⟩)
  rw [List.filter_append, List.head?_append_of_ne_nil _ hne]

/-- Lines are in the order of their first accesses: by the last access, which starts a line or joins one. -/
theorem accessLines_pairwise {as : List Access} (h : as.Pairwise fun a b => a.lane < b.lane) :
    (accessLines as).Pairwise fun k j => ∀ a ∈ (as.filter fun a => accessLine a = k).head?,
      ∀ b ∈ (as.filter fun a => accessLine a = j).head?, a.lane < b.lane ∧ sameLine a b = false := by
  induction as using List.reverseRecOn with
  | nil => exact List.Pairwise.nil
  | append_singleton as x ih =>
    obtain ⟨has, -, hx⟩ := List.pairwise_append.mp h
    have hkeep : (accessLines as).Pairwise fun k j => ∀ a ∈ ((as ++ [x]).filter fun a => accessLine a = k).head?,
        ∀ b ∈ ((as ++ [x]).filter fun a => accessLine a = j).head?, a.lane < b.lane ∧ sameLine a b = false := by
      refine (ih has).imp_of_mem fun hk hj hlt => ?_
      rwa [head?_filter_append hk, head?_filter_append hj]
    rw [accessLines_append]
    split
    · exact hkeep
    next hnew =>
      refine List.pairwise_append.mpr ⟨hkeep, List.pairwise_singleton .., fun k hk j hj a ha b hb => ?_⟩
      obtain rfl := List.mem_singleton.mp hj
      rw [head?_filter_append hk] at ha
      obtain ⟨ham, hak⟩ := List.mem_filter.mp (List.mem_of_mem_head? ha)
      obtain ⟨hbm, hbk⟩ := List.mem_filter.mp (List.mem_of_mem_head? hb)
      have hbx : b = x := by
        rcases List.mem_append.mp hbm with hb' | hb'
        · exact absurd (mem_accessLines.mpr ⟨b, hb', by simpa using hbk⟩) hnew
        · exact List.mem_singleton.mp hb'
      subst hbx
      refine ⟨hx a ham b (List.mem_singleton_self b), ?_⟩
      rw [sameLine_eq]
      refine decide_eq_false fun e => hnew ?_
      rw [e]
      exact mem_accessLines.mpr ⟨a, ham, rfl⟩

theorem lineGroups_pairwise {as : List Access} (h : as.Pairwise fun a b => a.lane < b.lane) :
    (lineGroups as).Pairwise fun g h => ∀ a ∈ g.head?, ∀ b ∈ h.head?, a.lane < b.lane ∧ sameLine a b = false :=
  List.pairwise_map.mpr (accessLines_pairwise h)

/-- The waits that a request adds to its warp. -/
def withWaits (s : State) (file : RegFile) (dest words : Nat) (lanes : Mask) : State :=
  if words = 0 then s else s.addVar file dest words lanes s.nextReq

theorem withWaits_cases (s : State) (file : RegFile) (dest words : Nat) (lanes : Mask) :
    ((words = 0 ∨ file = .lane ∧ dest = 122) ∧ s.withWaits file dest words lanes = s) ∨
    (¬ (file = .lane ∧ dest = 122) ∧ s.withWaits file dest words lanes = s.updMe fun w =>
      { w with var := w.var ++ (List.range words).map fun j => ⟨file, dest + j, lanes, s.nextReq⟩ }) := by
  unfold withWaits
  rw [addVar_eq]
  by_cases hw : words = 0
  · exact .inl ⟨.inl hw, if_pos hw⟩
  · rw [if_neg hw]
    by_cases hd : file = .lane ∧ dest = 122
    · exact .inl ⟨.inr hd, if_pos hd⟩
    · exact .inr ⟨hd, if_neg hd⟩

/-- A request: its record, its waits and its event. -/
theorem ask_eq (s : State) (op : MemOp) (as : List Access) (file : RegFile) (dest words scope : Nat) (lanes : Mask)
    (keep : Option Kept) :
    s.ask op as file dest words scope lanes keep = { s with
      cores := (s.withWaits file dest words lanes).cores,
      reqs := s.reqs.set s.nextReq
        { core := s.cur.core, slot := s.cur.slot, ctx := s.me.ctx, op := op, accs := as, file := file, dest := dest,
          words := words, scope := scope, keep := keep },
      nextReq := s.nextReq + 1,
      agenda := s.agenda ++ [.memoryRequestAtHome s.nextReq] } := by
  unfold ask withWaits newReq addVar post updMe updWarp
  dsimp only
  split
  · rfl
  · split
    · rfl
    · split <;> rfl

variable {s : State} {file : RegFile} {dest words : Nat} {lanes : Mask}

theorem withWaits_cur : (s.withWaits file dest words lanes).cur = s.cur := by
  rcases withWaits_cases s file dest words lanes with ⟨-, e⟩ | ⟨-, e⟩ <;> simp [e]

theorem withWaits_otherCore {c : Nat} (h : c ≠ s.cur.core) : (s.withWaits file dest words lanes).core c = s.core c := by
  rcases withWaits_cases s file dest words lanes with ⟨-, e⟩ | ⟨-, e⟩ <;> rw [e]
  exact updMe_otherCore _ _ _ h

theorem withWaits_otherWarp {k : Nat} (h : k ≠ s.cur.slot) :
    (s.withWaits file dest words lanes).warp s.cur.core k = s.warp s.cur.core k := by
  rcases withWaits_cases s file dest words lanes with ⟨-, e⟩ | ⟨-, e⟩ <;> rw [e]
  exact updMe_otherWarp _ _ _ h

theorem withWaits_me : (s.withWaits file dest words lanes).me =
    { s.me with var := (s.withWaits file dest words lanes).me.var } := by
  rcases withWaits_cases s file dest words lanes with ⟨-, e⟩ | ⟨-, e⟩ <;> rw [e]
  rw [updMe_me]

theorem mem_withWaits_var {v : VarPend} : v ∈ (s.withWaits file dest words lanes).me.var ↔ v ∈ s.me.var ∨
    (¬ (file = .lane ∧ dest = 122) ∧ v.file = file ∧ v.lanes = lanes ∧ v.req = s.nextReq ∧
      ∃ j < words, v.num = dest + j) := by
  rcases withWaits_cases s file dest words lanes with ⟨h, e⟩ | ⟨h, e⟩
  · rw [e]
    refine ⟨.inl, ?_⟩
    rintro (hv | ⟨hd, -, -, -, j, hj, -⟩)
    · exact hv
    · rcases h with rfl | h
      · exact absurd hj (Nat.not_lt_zero j)
      · exact absurd h hd
  · rw [e, updMe_me, List.mem_append, List.mem_map]
    refine or_congr_right ⟨?_, ?_⟩
    · rintro ⟨j, hj, rfl⟩
      exact ⟨h, rfl, rfl, rfl, j, List.mem_range.mp hj, rfl⟩
    · rintro ⟨-, rfl, rfl, hr, j, hj, hn⟩
      refine ⟨j, List.mem_range.mpr hj, ?_⟩
      rw [← hr, ← hn]

/-- Settles O27: the groups are the lines in order (`mem_lineGroups`, `lineGroups_pairwise`), and a request changes its
record, its event and the waits of its warp (`ask_eq`). -/
theorem requestPlaced : Obligations.RequestPlaced := by
  refine ⟨fun s op as file dest words scope => ⟨fun a ha => ?_, fun g => mem_lineGroups.mp, lineGroups_pairwise, rfl⟩,
    fun s op as file dest words scope lanes keep => ?_⟩
  · exact ⟨_, mem_lineGroups.mpr ⟨a, ha, rfl⟩, rfl⟩
  · extract_lets t q
    have ht : t = _ := ask_eq s op as file dest words scope lanes keep
    rw [ht]
    refine ⟨rfl, fun n => Map.find_set .., fun c => withWaits_otherCore, fun k => withWaits_otherWarp, ?_, fun v => ?_⟩
    · have h := withWaits_me (s := s) (file := file) (dest := dest) (words := words) (lanes := lanes)
      unfold me at h ⊢
      rw [withWaits_cur] at h
      exact h
    · have h := mem_withWaits_var (s := s) (file := file) (dest := dest) (words := words) (lanes := lanes) (v := v)
      unfold me at h ⊢
      rw [withWaits_cur] at h
      exact h

end State
end Sys2Proof.Machine
end

section
/-! PROOFS (05 R78, R93; 07 R128; 17 R340; 22 R401, R402; 23 R407 to R411, R415): what the events of the host's management
of the module leave. -/

namespace Sys2Proof

theorem bitsOf_9_0 (x : Nat) : bitsOf x 9 0 = x % 1024 := rfl

/-- A function of the values of a map that keeps the default. -/
theorem Map.get_map {α : Type} {d : α} {g : α → α} (hd : g d = d) (m : Map α) (n : Nat) :
    Map.get d (m.map fun e => (e.1, g e.2)) n = g (m.get d n) := by
  induction m with
  | nil => exact hd.symm
  | cons e m ih =>
    simp only [List.map_cons, Map.get]
    split
    · rfl
    · exact ih

namespace Machine
namespace State

variable {s : State} {src : Writer} {off k h c w : Nat} {v : Word} {e : Instr} {f : State → State}

/-! ### The register block (23 R407 to R411) -/

theorem writeReg_unreached (hr : s.reaches src off = false) : s.writeReg src off v = s := by
  simp [writeReg, hr]

theorem writeReg_mailbox (hr : s.reaches src off = true) (hlo : off < 0x1000) :
    s.writeReg src off v = s.toRmb off (leBytes 4 v.toNat) := by
  simp [writeReg, hr, hlo]

theorem writeReg_device (hr : s.reaches src off = true) (hlo : 0x1000 ≤ off) (hhi : off < 0x10000) :
    s.writeReg src off v = s.writeDev src (off - 0x1000) v := by
  simp [writeReg, hr, hhi, hlo.not_gt]

theorem writeReg_die (hr : s.reaches src off = true) (hlo : 0x10000 ≤ off) (hhi : off < 0x50000) :
    s.writeReg src off v = s.writeDie ((off - 0x10000) / 0x10000) (off % 0x10000) v := by
  simp [writeReg, hr, hhi, hlo.not_gt, show ¬ off < 0x1000 by omega]

theorem writeReg_vslot (hr : s.reaches src off = true) (hlo : 0x80000 ≤ off) (hhi : off < 0x90000) :
    s.writeReg src off v = s.writeVslot ((off - 0x80000) / 4) v := by
  simp [writeReg, hr, hhi, hlo.not_gt, show ¬ off < 0x1000 by omega, show ¬ off < 0x10000 by omega,
    show ¬ off < 0x50000 by omega]

theorem writeReg_context (hr : s.reaches src off = true) (hlo : 0x100000 ≤ off) (hhi : off < 0x200000) :
    s.writeReg src off v = s.writeCtx ((off - 0x100000) / 0x400) (off % 0x400) v := by
  simp [writeReg, hr, hhi, hlo.not_gt, show ¬ off < 0x1000 by omega, show ¬ off < 0x10000 by omega,
    show ¬ off < 0x50000 by omega, show ¬ off < 0x80000 by omega, show ¬ off < 0x90000 by omega,
    show ¬ off < 0xA0000 by omega, show ¬ off < 0xA0200 by omega, show ¬ off < 0xA1000 by omega,
    show ¬ off < 0xA1200 by omega]

/-! ### Keys (05 R93) -/

/-- The requests whose writes under a key ID have not reached their home when its lines are dropped. -/
def lateWrites (s : State) (k : Nat) : List Nat :=
  ((s.dropKid k).reqs.filter fun q => q.2.writesUnder k).map Prod.fst

/-- The first of them that waits at its home. -/
def lateHeld (s : State) (k : Nat) : Option HeldReq :=
  (s.dropKid k).held.find? fun q => (s.lateWrites k).any fun i => q.ev = .memoryRequestAtHome i

/-- What a command on a key leaves: it waits, or it is made, or it is tried again. -/
theorem afterDrop_goes (hg : s.Goes e (s.afterDrop k e f)) :
    (∀ q, s.lateHeld k = some q → s.Goes e ((s.dropKid k).hold q.key true e)) ∧
    (s.lateHeld k = none → s.Goes e (if s.lateWrites k = [] then f (s.dropKid k) else (s.dropKid k).post e)) := by
  have ha : s.afterDrop k e f = match s.lateHeld k with
      | some q => (s.dropKid k).hold q.key true e
      | none => if (s.lateWrites k).isEmpty then f (s.dropKid k) else (s.dropKid k).post e := rfl
  rw [ha] at hg
  refine ⟨fun q hq => ?_, fun hn => ?_⟩
  · rwa [hq] at hg
  · rw [hn] at hg
    simpa only [List.isEmpty_iff] using hg

theorem keyCommand_zero {F : State → Nat → State} (hk : s.io.keyKid.toNat = 0) : s.keyCommand F = s.keyEnds 1 :=
  if_pos hk

theorem keyCommand_pos {F : State → Nat → State} (hk : s.io.keyKid.toNat ≠ 0) :
    s.keyCommand F = F s s.io.keyKid.toNat :=
  if_neg hk

theorem withWrapKey_unusable {F : List Byte → State}
    (hw : s.io.keys.find s.io.keyWk.toNat = none ∨ s.io.keyWk.toNat = 0 ∨ s.io.keyWk.toNat = k) :
    s.withWrapKey k F = s.keyEnds 2 := by
  unfold withWrapKey
  dsimp only
  split
  · rfl
  · next hkek => rw [if_pos (by simpa [hkek] using hw)]

theorem withWrapKey_usable {F : List Byte → State} {kek : BitVec 512} (hkek : s.io.keys.find s.io.keyWk.toNat = some kek)
    (h0 : s.io.keyWk.toNat ≠ 0) (hk : s.io.keyWk.toNat ≠ k) : s.withWrapKey k F = F ((keyBytes kek).take 32) := by
  unfold withWrapKey
  simp [hkek, h0, hk]

theorem keyCommands_zero (hk : s.io.keyKid.toNat = 0) :
    ∀ e ∈ [Instr.keyGen, .keyLoad, .keyErase, .keyWrap, .keyUnwrap], s.Goes e (s.keyEnds 1) := by
  simp only [List.forall_mem_cons, List.not_mem_nil, false_implies, implies_true, and_true]
  refine ⟨?_, ?_, ?_, ?_, ?_⟩ <;> exact congrArg Host.Outcome.next (keyCommand_zero hk)

theorem keyGen_goes (hk : s.io.keyKid.toNat ≠ 0) : s.Goes .keyGen (s.afterDrop s.io.keyKid.toNat .keyGen fun t =>
    (State.putKey { t with free := t.free + 1 } s.io.keyKid.toNat (some (Config.freeKey t.free))).keyEnds 0) :=
  congrArg Host.Outcome.next (keyCommand_pos hk)

theorem keyLoad_goes (hk : s.io.keyKid.toNat ≠ 0) : s.Goes .keyLoad (s.afterDrop s.io.keyKid.toNat .keyLoad fun t =>
    (t.putKey s.io.keyKid.toNat (some (keyOfBytes (t.keyBytesIn 16)))).keyEnds 0) :=
  congrArg Host.Outcome.next (keyCommand_pos hk)

theorem keyErase_goes (hk : s.io.keyKid.toNat ≠ 0) : s.Goes .keyErase (s.afterDrop s.io.keyKid.toNat .keyErase fun t =>
    (t.putKey s.io.keyKid.toNat none).keyEnds 0) :=
  congrArg Host.Outcome.next (keyCommand_pos hk)

theorem wrapKey_none (hk : s.io.keyKid.toNat ≠ 0) (hn : s.io.keys.find s.io.keyKid.toNat = none) :
    s.wrapKey = s.keyEnds 2 := by
  unfold wrapKey
  rw [keyCommand_pos hk, hn]

theorem wrapKey_some {key : BitVec 512} (hk : s.io.keyKid.toNat ≠ 0) (hs : s.io.keys.find s.io.keyKid.toNat = some key) :
    s.wrapKey = s.withWrapKey s.io.keyKid.toNat fun kek => (s.keyEnds 0).updIo fun x => { x with
      keyOut := true
      keyData := (List.range 18).map fun i =>
        (i, BitVec.ofNat 32 (leNat (((kwWrap kek (keyBytes key)).drop (4 * i)).take 4))) } := by
  unfold wrapKey
  rw [keyCommand_pos hk, hs]

theorem wrapKey_unusable (hk : s.io.keyKid.toNat ≠ 0) (hw : s.io.keys.find s.io.keyWk.toNat = none ∨
    s.io.keyWk.toNat = 0 ∨ s.io.keyWk.toNat = s.io.keyKid.toNat) : s.wrapKey = s.keyEnds 2 := by
  cases hs : s.io.keys.find s.io.keyKid.toNat with
  | none => exact wrapKey_none hk hs
  | some key => rw [wrapKey_some hk hs, withWrapKey_unusable hw]

theorem unwrapKey_unusable (hk : s.io.keyKid.toNat ≠ 0) (hw : s.io.keys.find s.io.keyWk.toNat = none ∨
    s.io.keyWk.toNat = 0 ∨ s.io.keyWk.toNat = s.io.keyKid.toNat) : s.unwrapKey = s.keyEnds 2 :=
  (keyCommand_pos hk).trans (withWrapKey_unusable hw)

theorem unwrapKey_bad {kek : BitVec 512} (hk : s.io.keyKid.toNat ≠ 0)
    (hkek : s.io.keys.find s.io.keyWk.toNat = some kek) (h0 : s.io.keyWk.toNat ≠ 0)
    (hne : s.io.keyWk.toNat ≠ s.io.keyKid.toNat)
    (hu : kwUnwrap ((keyBytes kek).take 32) (s.keyBytesIn 18) = none) : s.unwrapKey = s.keyEnds 3 := by
  unfold unwrapKey
  rw [keyCommand_pos hk, withWrapKey_usable hkek h0 hne, hu]

theorem keyUnwrap_goes {kek : BitVec 512} {p : List Byte} (hk : s.io.keyKid.toNat ≠ 0)
    (hkek : s.io.keys.find s.io.keyWk.toNat = some kek) (h0 : s.io.keyWk.toNat ≠ 0)
    (hne : s.io.keyWk.toNat ≠ s.io.keyKid.toNat) (hu : kwUnwrap ((keyBytes kek).take 32) (s.keyBytesIn 18) = some p) :
    s.Goes .keyUnwrap (s.afterDrop s.io.keyKid.toNat .keyUnwrap fun t =>
      (t.putKey s.io.keyKid.toNat (some (keyOfBytes p))).keyEnds 0) := by
  refine congrArg Host.Outcome.next (?_ : s.unwrapKey = _)
  unfold unwrapKey
  rw [keyCommand_pos hk, withWrapKey_usable hkek h0 hne, hu]

theorem putKey_find_same (key : Option (BitVec 512)) : (s.putKey k key).io.keys.find k = key := by
  cases key with
  | none => exact Map.find_del_same ..
  | some v => exact Map.find_set_same ..

theorem putKey_find_other (key : Option (BitVec 512)) {j : Nat} (hj : j ≠ k) :
    (s.putKey k key).io.keys.find j = s.io.keys.find j := by
  cases key with
  | none => exact Map.find_del_other _ _ _ hj
  | some v => exact Map.find_set_other _ _ _ _ hj

/-! ### Translations (05 R78; 23 R410) -/

theorem askInvalidate_full (hq : 16 ≤ s.io.tlbq.length) : s.askInvalidate = s.setDevsts 6 :=
  if_pos hq

theorem askInvalidate_queues (hq : s.io.tlbq.length < 16) :
    s.askInvalidate = (s.updIo fun y => { y with tlbq := y.tlbq ++ [
      { ctx := (s.devReg 0x080).toNat % 1024, va := s.devReg64 0x088, len := s.devReg64 0x090,
        ctr := s.devReg64 0x098 }] }).post .tlbInvalidateComplete := by
  unfold askInvalidate
  rw [if_neg (by omega), bitsOf_9_0]

theorem not_hit_of_mem_dropTlb {hit : Nat → TlbEntry → Bool} {y : Nat × TlbEntry} (hy : y ∈ (s.dropTlb hit).tlb) :
    hit y.1 y.2 = false := by
  simpa using (List.mem_filter.mp hy).2

theorem not_hit_of_mem_dropTlb_core {hit : Nat → TlbEntry → Bool} {z : Nat × Core} (hz : z ∈ (s.dropTlb hit).cores)
    {y : Nat × TlbEntry} (hy : y ∈ z.2.tlb) : hit y.1 y.2 = false := by
  obtain ⟨x, -, rfl⟩ := List.mem_map.mp hz
  simpa using (List.mem_filter.mp hy).2

theorem core_dropTlb {hit : Nat → TlbEntry → Bool} :
    (s.dropTlb hit).core c = { s.core c with tlb := (s.core c).tlb.filter fun e => !hit e.1 e.2 } :=
  Map.get_map (d := ({} : Core)) (g := fun x => { x with tlb := x.tlb.filter fun e => !hit e.1 e.2 }) rfl s.cores c

theorem cc_dropTlb {hit : Nat → TlbEntry → Bool} : (s.dropTlb hit).cc c = s.cc c := by
  unfold cc
  rw [core_dropTlb]

theorem invalidated_nil (hq : s.io.tlbq = []) : s.invalidated = s := by
  unfold invalidated
  rw [hq]

theorem invalidated_cons {r : TlbReq} {l : List TlbReq} (hq : s.io.tlbq = r :: l) :
    s.invalidated = (State.dropTlb { s with io := { s.io with tlbq := l } } (TlbReq.hits r)).completeAt r.ctr := by
  unfold invalidated
  rw [hq]
  rfl

theorem completeAt_some {a : DWord} {t : State} (h : s.physAdd a 1 = some t) : s.completeAt a = t := by
  unfold completeAt
  rw [h]

theorem completeAt_none {a : DWord} (h : s.physAdd a 1 = none) : s.completeAt a = s.setDevsts 7 := by
  unfold completeAt
  rw [h]

/-! ### The counter-page table (07 R128) -/

theorem cpgPage_some {p : Nat} (hp : (s.devReg64 0x0B0).toNat / 4096 = p) (hd : 4096 * p < deviceEnd) :
    s.cpgPage = some p := by
  unfold cpgPage
  rw [hp]
  exact if_pos (by omega)

theorem cpgPage_none (hd : deviceEnd ≤ 4096 * ((s.devReg64 0x0B0).toNat / 4096)) : s.cpgPage = none :=
  if_neg (by omega)

theorem noteMark_some {p : Nat} (hp : s.cpgPage = some p) (pages : List Nat) :
    State.noteMark { s with ctrPages := pages } =
      State.updIo { s with ctrPages := pages } fun y => { y with cpgMark := pages.contains p } := by
  unfold noteMark
  rw [show State.cpgPage { s with ctrPages := pages } = some p from hp]

theorem noteMark_none (hp : s.cpgPage = none) : s.noteMark = s.updIo fun y => { y with cpgMark := false } := by
  unfold noteMark
  rw [hp]

theorem setCtrPage_some {p : Nat} (hp : s.cpgPage = some p) :
    s.setCtrPage = State.updIo { s with ctrPages := if p ∈ s.ctrPages then s.ctrPages else s.ctrPages ++ [p] }
      fun y => { y with cpgMark := true } := by
  unfold setCtrPage
  rw [hp]
  dsimp only
  by_cases hm : p ∈ s.ctrPages
  · rw [if_pos (List.contains_iff_mem.mpr hm), if_pos hm]
    exact (noteMark_some hp s.ctrPages).trans (by rw [List.contains_iff_mem.mpr hm])
  · rw [if_neg (by simpa using hm), if_neg hm, noteMark_some hp]
    simp

theorem clearCtrPage_some {p : Nat} (hp : s.cpgPage = some p) :
    s.clearCtrPage =
      State.updIo { s with ctrPages := s.ctrPages.filter (· != p) } fun y => { y with cpgMark := false } := by
  unfold clearCtrPage
  rw [hp]
  dsimp only
  rw [noteMark_some hp]
  simp

theorem counterPage_none (hp : s.cpgPage = none) : ∀ e ∈ [Instr.counterPageSet, .counterPageClear, .counterPageRead],
    s.Goes e (s.updIo fun y => { y with cpgMark := false }) := by
  have hset : s.setCtrPage = s.noteMark := by unfold setCtrPage; rw [hp]
  have hclear : s.clearCtrPage = s.noteMark := by unfold clearCtrPage; rw [hp]
  simp only [List.forall_mem_cons, List.not_mem_nil, false_implies, implies_true, and_true]
  exact ⟨congrArg Host.Outcome.next (hset.trans (noteMark_none hp)),
    congrArg Host.Outcome.next (hclear.trans (noteMark_none hp)), congrArg Host.Outcome.next (noteMark_none hp)⟩

/-! ### Contexts (23 R415) -/

theorem createCtx_early (hf : s.io.featDone = false) : s.createCtx h = s.updCtx h fun y => { y with stat := 1 } := by
  simp [createCtx, hf]

theorem createCtx_valid (hf : s.io.featDone = true) (hv : (s.ctx h).valid = true) :
    s.createCtx h = s.updCtx h fun y => { y with stat := 2 } := by
  simp [createCtx, hf, hv]

theorem createCtx_new (hf : s.io.featDone = true) (hv : (s.ctx h).valid = false) :
    s.createCtx h = s.updCtx h fun y => { y with
      valid := true, stat := 0, feat := s.io.featAck.get 0 0, alm := {}, cap := {}, images := []
      replayStopped := false, replayPos := 0, logFull := false } := by
  simp [createCtx, hf, hv]

theorem updCtx_eq_value (g : Context → Context) : s.updCtx h g = s.updCtx h fun _ => (s.updCtx h g).ctx h := by
  rw [ctx_updCtx, if_pos rfl]
  rfl

theorem destroyCtx_parts (hp : s.hasParts h = true) : s.destroyCtx h = s.updCtx h fun y => { y with stat := 3 } :=
  if_pos hp

/-- The state without what the device keeps of a context's work. -/
def forget (s : State) (h : Nat) : State :=
  { s with
    launches := s.launches.filter fun e => e.2.ctx != h
    queues := s.queues.filter fun e => e.2.ctx != h
    runs := s.runs.filter fun e => e.2.ctx != h
    rings := s.rings.filter fun e => e.2.ctx != h
    vigil := { s.vigil with ranges := s.vigil.ranges.filter fun e => e.1 / 64 != h } }

theorem destroyCtx_forgets (hp : s.hasParts h = false) : s.destroyCtx h =
    ((s.forget h).dropTlb fun k _ => k / 2 ^ 45 % 1024 = h).updCtx h fun x =>
      { x with valid := false, stat := 0, alm := {}, cap := {}, images := [] } :=
  if_neg (by simp [hp])

/-- What a destroyed context leaves: the state that is its own goes, memory and the cores' contexts stay. -/
theorem destroyCtx_gone (hp : s.hasParts h = false) :
    ((s.destroyCtx h).ctx h).valid = false ∧ ((s.destroyCtx h).ctx h).stat = 0 ∧ (s.destroyCtx h).mem = s.mem ∧
    (∀ c, (s.destroyCtx h).cc c = s.cc c) ∧ (s.destroyCtx h).parts = s.parts ∧
    (∀ e ∈ (s.destroyCtx h).launches, e.2.ctx ≠ h) ∧ (∀ e ∈ (s.destroyCtx h).queues, e.2.ctx ≠ h) ∧
    (∀ e ∈ (s.destroyCtx h).tlb, e.1 / 2 ^ 45 % 1024 ≠ h) ∧
    ∀ z ∈ (s.destroyCtx h).cores, ∀ e ∈ z.2.tlb, e.1 / 2 ^ 45 % 1024 ≠ h := by
  rw [destroyCtx_forgets hp]
  refine ⟨by simp, by simp, rfl, fun c => ?_, rfl, fun e he => ?_, fun e he => ?_, fun e he => ?_, fun z hz e he => ?_⟩
  · rw [cc_updCtx, cc_dropTlb]
    rfl
  · simpa using (List.mem_filter.mp he).2
  · simpa using (List.mem_filter.mp he).2
  · have hn := not_hit_of_mem_dropTlb (s := s.forget h) (hit := fun k _ => k / 2 ^ 45 % 1024 = h) he
    simpa using hn
  · have hn := not_hit_of_mem_dropTlb_core (s := s.forget h) (hit := fun k _ => k / 2 ^ 45 % 1024 = h) hz he
    simpa using hn

/-! ### The debug window (17 R340) -/

theorem dbgRead_none (hd : s.dbgWarp h = none) : s.dbgRead h = (0, s.updCtx h fun y => { y with dbgErr := true }) := by
  unfold dbgRead
  rw [hd]

theorem dbgRead_some (hd : s.dbgWarp h = some (c, w)) : s.dbgRead h = s.dbgValue h c w := by
  unfold dbgRead
  rw [hd]

theorem dbgWrite_none (hd : s.dbgWarp h = none) : s.dbgWrite h v = s.updCtx h fun y => { y with dbgErr := true } := by
  unfold dbgWrite
  rw [hd]

theorem dbgWrite_some (hd : s.dbgWarp h = some (c, w)) : s.dbgWrite h v = s.dbgPut h c w v := by
  unfold dbgWrite
  rw [hd]

theorem dbgdataRead_goes (hh : h < 1024) :
    s.Goes (.dbgdataRead h) { (s.dbgRead h).2 with reply := (s.dbgRead h).1.setWidth 512 } :=
  if_neg hh.not_ge

theorem dbgdataRead_none (hh : h < 1024) (hd : s.dbgWarp h = none) :
    s.Goes (.dbgdataRead h) { s.updCtx h (fun y => { y with dbgErr := true }) with reply := 0 } := by
  refine (dbgdataRead_goes hh).trans (congrArg Host.Outcome.next ?_)
  rw [dbgRead_none hd]
  dsimp only
  rw [show (0 : Word).setWidth 512 = 0 from BitVec.setWidth_zero ..]

theorem dbgdataRead_some (hh : h < 1024) (hd : s.dbgWarp h = some (c, w)) :
    s.Goes (.dbgdataRead h) { (s.dbgValue h c w).2 with reply := (s.dbgValue h c w).1.setWidth 512 } := by
  rw [← dbgRead_some hd]
  exact dbgdataRead_goes hh

theorem dbgdataWrite_goes (hh : h < 1024) : s.Goes (.dbgdataWrite h v) (s.dbgWrite h v) :=
  if_neg hh.not_ge

/-- A core when the warps of a context resume. -/
def wakeCore (h : Nat) (x : Core) : Core :=
  if x.cc.ctx = h then { x with cc := { x.cc with warps := wakeWarps x.cc.warps } } else x

theorem core_debugResume : (s.debugResume h).core c = wakeCore h (s.core c) := by
  have hmap : (fun e : Nat × Core =>
      if e.2.cc.ctx = h then (e.1, { e.2 with cc := { e.2.cc with warps := wakeWarps e.2.cc.warps } }) else e) =
      fun e => (e.1, wakeCore h e.2) := by
    funext e
    unfold wakeCore
    split <;> rfl
  have hdef : wakeCore h {} = {} := by
    unfold wakeCore
    split <;> rfl
  exact (congrArg (fun g => Map.get {} (s.cores.map g) c) hmap).trans (Map.get_map hdef s.cores c)

theorem resumed_of_mem_debugResume (hc : (s.cc c).ctx = h) {e : Nat × Warp} (he : e ∈ ((s.debugResume h).cc c).warps) :
    e.2.trap.dbgStopped = false ∧ e.2.trap.frozen = false := by
  unfold cc at hc he
  rw [core_debugResume, wakeCore, if_pos hc] at he
  obtain ⟨x, -, rfl⟩ := List.mem_map.mp he
  exact ⟨rfl, rfl⟩

/-! ### The recovery mailbox (22 R401, R402) -/

theorem mailWrite_refused (hr : Config.flashBlocks ≤ s.rmbBlock ∨
    s.recovery = false ∧ s.boot.bootsts.getLsbD 18 = s.rmbSlot) : s.mailWrite = s.mailboxEnds 2 :=
  if_pos (by simpa using hr)

/-- A slot with the block of RMBDATA written into it. -/
def withBlock (s : State) (m : Map Byte) : Map Byte :=
  (List.range 4096).foldl (fun m i => m.set (4096 * s.rmbBlock + i) ((s.fromRmb 0 4096).getD i 0)) m

theorem mailWrite_accepted (hb : s.rmbBlock < Config.flashBlocks)
    (hr : s.recovery = true ∨ s.boot.bootsts.getLsbD 18 ≠ s.rmbSlot) :
    s.mailWrite = if Config.flashFails s.free then State.mailboxEnds { s with free := s.free + 1 } 3
      else State.mailboxEnds (State.updBoot { s with free := s.free + 1 } fun x =>
        if s.rmbSlot then { x with slotB := s.withBlock x.slotB } else { x with slotA := s.withBlock x.slotA }) 0 :=
  if_neg (by rcases hr with hr | hr <;> simp [-BitVec.getLsbD_eq_getElem, hb, hr])

theorem mailBist_offline (hu : s.unitOffline (leNat (s.fromRmb 0 4)) = true) :
    s.mailBist = (s.runBist (leNat (s.fromRmb 0 4))).mailboxEnds 0 :=
  if_pos hu

theorem mailBist_inService (hu : s.unitOffline (leNat (s.fromRmb 0 4)) = false) : s.mailBist = s.mailboxEnds 2 :=
  if_neg (by simp [hu])

/-- Settles O55: each event of the register block, the keys, the translations, the counter pages, the contexts, the
debug window and the mailbox by the lemma of its case. -/
theorem managementEvents : Obligations.ManagementEvents := by
  intro s src off h v hh k ends kw d late waits after x ctx page mark mail act
  have goes {e : Instr} {t u : State} (hg : s.Goes e t) (htu : t = u) : s.Goes e u := htu ▸ hg
  refine ⟨fun hr => goes rfl (writeReg_unreached hr), fun hr => ⟨fun hhi => goes rfl (writeReg_mailbox hr hhi),
      fun hlo hhi => goes rfl (writeReg_device hr hlo hhi), fun hlo hhi => goes rfl (writeReg_die hr hlo hhi),
      fun hlo hhi => goes rfl (writeReg_vslot hr hlo hhi), fun hlo hhi => goes rfl (writeReg_context hr hlo hhi)⟩,
    keyCommands_zero, rfl, fun hk => ?keys,
    fun key => ⟨putKey_find_same key, fun j => putKey_find_other key⟩,
    fun hq => goes rfl (askInvalidate_full hq), fun hq => goes rfl (askInvalidate_queues hq),
    fun hq => goes rfl (invalidated_nil hq), fun r l hq => ?invalidated,
    fun hp => ?counterPage, fun hp => counterPage_none (cpgPage_none hp),
    fun hf => goes (if_neg hh.not_ge) (createCtx_early hf), fun hf hx => goes (if_neg hh.not_ge) (createCtx_valid hf hx),
    fun hf hx => ?created, fun hp => goes (if_neg hh.not_ge) (destroyCtx_parts hp),
    fun hp => ⟨_, if_neg hh.not_ge, destroyCtx_gone hp⟩,
    fun hd => ⟨dbgdataRead_none hh hd, goes (dbgdataWrite_goes hh) (dbgWrite_none hd)⟩,
    fun c w hd => ⟨dbgdataRead_some hh hd, goes (dbgdataWrite_goes hh) (dbgWrite_some hd)⟩, ?resumed,
    rfl, fun hr => goes rfl (mailWrite_refused hr), fun hb hr => ?written, rfl,
    ⟨fun hu => goes rfl (mailBist_offline hu), fun hu => goes rfl (mailBist_inService hu)⟩, rfl, rfl, ?reset⟩
  case keys =>
    refine ⟨(afterDrop_goes (keyGen_goes hk) :), (afterDrop_goes (keyLoad_goes hk) :),
      (afterDrop_goes (keyErase_goes hk) :), fun hn => goes rfl (wrapKey_none hk hn), fun hw => ⟨?_, ?_⟩,
      fun kek hkek h0 hne => ⟨fun key hkey => ?_, fun hu => ?_, fun p hu => ?_⟩⟩
    · exact goes rfl (unwrapKey_unusable hk hw)
    · exact goes rfl (wrapKey_unusable hk hw)
    · exact goes rfl ((wrapKey_some hk hkey).trans (withWrapKey_usable hkek h0 hne))
    · exact goes rfl (unwrapKey_bad hk hkek h0 hne hu)
    · exact (afterDrop_goes (keyUnwrap_goes hk hkek h0 hne hu) :)
  case invalidated =>
    exact ⟨fun y hy => not_hit_of_mem_dropTlb hy, fun z hz y hy => not_hit_of_mem_dropTlb_core hz hy,
      fun u hu => goes rfl ((invalidated_cons hq).trans (completeAt_some hu)),
      fun hn => goes rfl ((invalidated_cons hq).trans (completeAt_none hn))⟩
  case counterPage =>
    have hpage := cpgPage_some rfl hp
    refine ⟨goes rfl (setCtrPage_some hpage), goes rfl (clearCtrPage_some hpage), goes rfl ?_⟩
    exact (noteMark_some hpage s.ctrPages).trans (by rw [List.contains_eq_mem])
  case created =>
    refine ⟨_, if_neg hh.not_ge, ?_⟩
    rw [createCtx_new hf hx]
    refine ⟨updCtx_eq_value _, ?_⟩
    rw [ctx_updCtx, if_pos rfl]
    exact ⟨rfl, rfl, rfl, rfl⟩
  case resumed =>
    refine ⟨_, if_neg hh.not_ge, rfl, ?_, fun c hc e he => resumed_of_mem_debugResume hc he⟩
    exact congrArg Context.halt (Map.get_set_same ..)
  case written =>
    refine ⟨fun hf => goes rfl ?_, fun hf => ⟨fun hs => goes rfl ?_, fun hs => goes rfl ?_⟩⟩
    · rw [mailWrite_accepted hb hr, if_pos hf]
      rfl
    · rw [mailWrite_accepted hb hr, if_neg (by simp [hf]), hs]
      rfl
    · rw [mailWrite_accepted hb hr, if_neg (by simp [hf]), hs]
      rfl
  case reset =>
    rintro e (rfl | rfl) <;> rfl

end State
end Machine
end Sys2Proof
end

section
/-! PROOFS (06 R104 to R106, R111; 11 R230, R231): fences, and the maintenance of the lines of a range within one page. -/

namespace Sys2Proof

theorem Map.mem_of_find {α : Type} {m : Map α} {n : Nat} {y : α} (h : m.find n = some y) : (n, y) ∈ m := by
  induction m with
  | nil => cases h
  | cons e m ih =>
    obtain ⟨k, x⟩ := e
    rw [Map.find] at h
    split at h
    next hk =>
      cases h
      exact hk ▸ List.mem_cons_self
    next => exact List.mem_cons_of_mem _ (ih h)

namespace Machine
namespace State

/-! ### What an acquire leaves in an L1 (06 R106) -/

theorem releaseAt_lt {scope : Nat} (h : scope < 3) (s : State) (c : Nat) : s.releaseAt c scope = s := if_pos h
theorem acquireAt_lt {scope : Nat} (h : scope < 3) (s : State) (c : Nat) : s.acquireAt c scope = s := if_pos h
theorem acquireAt_of_le {scope : Nat} (h : 3 ≤ scope) (s : State) (c : Nat) : s.acquireAt c scope = s.l1Acquire c :=
  if_neg h.not_gt

/-- An untagged line of the core that is left holds its dirty words alone. -/
theorem l1Acquire_line {s : State} {c n : Nat} {y : Line} (hy : (s.l1Acquire c).l1.find n = some y) (hn : n / 2 ^ 41 = c) :
    y.ro = true ∨ y.valid = y.dirty := by
  subst hn
  obtain ⟨hkept, -⟩ := List.mem_filter.mp (Map.mem_of_find hy)
  obtain ⟨old, -, hold⟩ := List.mem_map.mp hkept
  split at hold
  next =>
    cases hold
    exact .inr rfl
  next hother =>
    cases hold
    exact .inl (by simpa using hother)

/-! ### FENCE (11 R230) -/

theorem exec_fence (sc : BitVec 2) (e : BitVec 3) (k : BitVec 2) (s : State) :
    exec (.fence sc e k) s = .next (s.issue (.fence sc e k) sc (fenceBody e k)) := rfl

section
variable {s : State} {e : BitVec 3} {k : BitVec 2} {scope : Nat} {d : State → Did}

theorem afterRelease_can (h : s.canRelease s.cur.core s.cur.slot scope = true) :
    s.afterRelease scope d = d (s.releaseAt s.cur.core scope) := by
  have hzero : (if scope = 0 then s else s.releaseAt s.cur.core scope) = s.releaseAt s.cur.core scope := by
    split
    next h0 => exact (releaseAt_lt (by omega) ..).symm
    next => rfl
  unfold afterRelease
  rw [if_neg (by simp [h]), hzero]

theorem afterRelease_wait (h : ¬ s.canRelease s.cur.core s.cur.slot scope = true) : s.afterRelease scope d = .wait s :=
  if_pos (by simp [h])

/-- What a fence does once it has released, or at once where it only acquires. -/
def fenceAcquire (e : BitVec 3) (k : BitVec 2) (s : State) : Did :=
  if k = 1#2 then .done s .fall
  else if s.warpBusy s.cur.core s.cur.slot then .wait s
  else .done (s.acquireAt s.cur.core e.toNat) .fall

theorem fenceBody_eq : fenceBody e k s = if k = 0#2 then fenceAcquire e k s else s.afterRelease e.toNat (fenceAcquire e k) := rfl

theorem fenceBody_zero : fenceBody e 0#2 s = fenceAcquire e 0#2 s := rfl

theorem fenceAcquire_idle (hk : k ≠ 1#2) (h : s.warpBusy s.cur.core s.cur.slot = false) :
    fenceAcquire e k s = .done (s.acquireAt s.cur.core e.toNat) .fall := by
  simp [fenceAcquire, hk, h]

theorem fenceAcquire_busy (hk : k ≠ 1#2) (h : s.warpBusy s.cur.core s.cur.slot = true) : fenceAcquire e k s = .wait s := by
  simp [fenceAcquire, hk, h]

theorem fenceBody_can (hk : k ≠ 0#2) (h : s.canRelease s.cur.core s.cur.slot e.toNat = true) :
    fenceBody e k s = fenceAcquire e k (s.releaseAt s.cur.core e.toNat) := by
  rw [fenceBody_eq, if_neg hk, afterRelease_can h]

theorem fenceBody_cannot (hk : k ≠ 0#2) (h : ¬ s.canRelease s.cur.core s.cur.slot e.toNat = true) :
    fenceBody e k s = .wait s := by
  rw [fenceBody_eq, if_neg hk, afterRelease_wait h]

end

/-- An instruction whose body is done by the memory system alone goes on behind its unit. -/
theorem doesFall_of_memStep {s t : State} {i : Instr} {sc : BitVec 2} {body : State → Did}
    (hx : exec i s = .next (s.issue i sc body)) (hb : body s = .done t .fall) (ht : MemStep s t) : s.DoesFall i sc t :=
  does hx hb (congrArg (fun a => some fun _ => a) ht.fallThrough)

section
variable {s : State} (sc : BitVec 2) {e : BitVec 3}

theorem fence_releases (h : s.canRelease s.cur.core s.cur.slot e.toNat = true) :
    s.DoesFall (.fence sc e 1#2) sc (s.releaseAt s.cur.core e.toNat) :=
  doesFall_of_memStep (exec_fence ..) (fenceBody_can (by decide) h) (releaseAt_memStep ..)

theorem fence_acquires (h : s.warpBusy s.cur.core s.cur.slot = false) :
    s.DoesFall (.fence sc e 0#2) sc (s.acquireAt s.cur.core e.toNat) :=
  doesFall_of_memStep (exec_fence ..) (fenceBody_zero.trans (fenceAcquire_idle (by decide) h)) (acquireAt_memStep ..)

theorem fence_releases_acquires (h : s.canRelease s.cur.core s.cur.slot e.toNat = true)
    (hb : (s.releaseAt s.cur.core e.toNat).warpBusy s.cur.core s.cur.slot = false) :
    s.DoesFall (.fence sc e 2#2) sc ((s.releaseAt s.cur.core e.toNat).acquireAt s.cur.core e.toNat) := by
  have hrel := releaseAt_memStep s s.cur.core e.toNat
  have hacq := fenceAcquire_idle (s := s.releaseAt s.cur.core e.toNat) (e := e) (k := 2#2) (by decide)
  rw [hrel.cur] at hacq
  exact doesFall_of_memStep (exec_fence ..) ((fenceBody_can (by decide) h).trans (hacq hb)) (hrel.trans (acquireAt_memStep ..))

end

/-! ### CMNT (06 R111; 11 R231) -/

theorem exec_cmnt (sc : BitVec 2) (a b : BitVec 6) (l o : BitVec 2) (s : State) :
    exec (.cmnt sc a b l o) s = .next (s.issue (.cmnt sc a b l o) sc (cmntBody a b l o)) := rfl

/-- A range that does not cross a multiple of `g` is one piece. -/
theorem chunks_within {g a n : Nat} (f : Nat) (hn : n ≠ 0) (h : a % g + n ≤ g) : chunks g (f + 2) a n = [(a, n)] := by
  have hmin : min n (g - a % g) = n := by omega
  simp [chunks, hn, hmin]

/-- The dies whose L2s CMNT names for a line: none, the line's home, or every one that can hold a line of the second tier
or of a peer. -/
def cmntDies (l : BitVec 2) (die i : Nat) : List Nat :=
  if l = 0#2 then [] else if l = 2#2 ∧ (isTier (128 * i) || isPeer (128 * i)) = true then [0, 1, 2, 3]
  else [homeDie (128 * i) die]

/-- Line `i` written back, or written back and dropped, in a core's L1. -/
def cmntL1 (t : State) (c : Nat) (o : BitVec 2) (i : Nat) : State :=
  if o = 0#2 then t.l1WriteBack c i else t.l1Drop c i
/-- The same in a die's L2. -/
def cmntL2 (o : BitVec 2) (i : Nat) (t : State) (d : Nat) : State := if o = 0#2 then t.l2Clean d i else t.l2Drop d i

/-- Line `i` maintained in a core's L1, then in the L2s that CMNT names. -/
def cmntAt (c : Nat) (l o : BitVec 2) (t : State) (i : Nat) : State :=
  (cmntDies l (t.cmntL1 c o i).myDie i).foldl (cmntL2 o i) (t.cmntL1 c o i)

theorem cmntAt_memStep (c : Nat) (l o : BitVec 2) (t : State) (i : Nat) : MemStep t (cmntAt c l o t i) :=
  (MemStep.ite (l1WriteBack_memStep ..) (l1Drop_memStep ..)).trans
    (MemStep.foldl _ _ (fun _ _ => MemStep.ite (l2Clean_memStep ..) (l2Drop_memStep ..)) _)

theorem cmntLine_eq (t : State) (l o : BitVec 2) (i : Nat) :
    t.cmntLine o.toNat l.toNat (i * 128) = cmntAt t.cur.core l o t i := by
  have hline : lineOf (128 * i) = i := Nat.mul_div_cancel_left i (by decide)
  have hzero (x : BitVec 2) : x.toNat = 0 ↔ x = 0#2 := BitVec.toNat_inj (y := 0#2)
  have htwo : l.toNat = 2 ↔ l = 2#2 := BitVec.toNat_inj (y := 2#2)
  rw [Nat.mul_comm i 128]
  unfold cmntLine cmntAt cmntDies
  simp only [hline, hzero, htwo]
  by_cases hl : l = 0#2
  · simp only [if_pos hl, cmntL1, List.foldl_nil]
  · simp only [if_neg hl, Bool.and_eq_true, decide_eq_true_eq]
    rfl

/-- Maintaining a line leaves the running core as it is, so the lines of a range are all maintained for the one core. -/
theorem foldl_cmntLine {c : Nat} (l o : BitVec 2) (first : Nat) (is : List Nat) {t : State} (hc : t.cur.core = c) :
    is.foldl (fun t i => t.cmntLine o.toNat l.toNat ((first + i) * 128)) t =
      is.foldl (fun t i => cmntAt c l o t (first + i)) t := by
  induction is generalizing t with
  | nil => rfl
  | cons i is ih =>
    have hcur : (cmntAt c l o t (first + i)).cur.core = c := by rw [(cmntAt_memStep ..).cur, hc]
    rw [List.foldl_cons, List.foldl_cons, cmntLine_eq, hc, ih hcur]

/-- The state after CMNT on `n` bytes within a page whose check answered `y`: pages of counters and uncached ones have no
line to maintain. -/
def cmntPage (s : State) (l o : BitVec 2) (va : DWord) (n : Nat) (y : Checked) : State :=
  let w := s.coreWalk s.cur.core s.myCtx va
  if pteCtr y.tlb.entry = true ∨ pteCache y.tlb.entry = 2 then w
  else (List.range (lineOf (y.pa + n - 1) + 1 - lineOf y.pa)).foldl
    (fun t i => cmntAt s.cur.core l o t (lineOf y.pa + i)) w

section
variable {s : State} {l o : BitVec 2} {va : DWord} {n : Nat} {y : Checked} {f : AccFail}

theorem cmntPage_memStep : MemStep s (s.cmntPage l o va n y) :=
  MemStep.ite (coreWalk_memStep ..) ((coreWalk_memStep ..).trans (MemStep.foldl _ _ (fun _ _ => cmntAt_memStep ..) _))

theorem cmntPages_ok (hh : s.coreWalkHold s.cur.core s.myCtx va = none)
    (hc : s.coreCheck s.cur.core s.myCtx kCmnt va = .ok y) :
    cmntPages o.toNat l.toNat [(va.toNat, n)] s = (s.cmntPage l o va n y, none) := by
  have hcur : (s.coreWalk s.cur.core s.myCtx va).cur.core = s.cur.core := by rw [(coreWalk_memStep ..).cur]
  simp only [cmntPages, BitVec.ofNat_toNat, BitVec.setWidth_eq, hh, meet, hc, cmntPage, Bool.or_eq_true, decide_eq_true_eq,
    foldl_cmntLine l o _ _ hcur]
  split <;> rfl

theorem cmntPages_error (hh : s.coreWalkHold s.cur.core s.myCtx va = none)
    (hc : s.coreCheck s.cur.core s.myCtx kCmnt va = .error f) :
    cmntPages o.toNat l.toNat [(va.toNat, n)] s = (s, some f) := by
  simp only [cmntPages, BitVec.ofNat_toNat, BitVec.setWidth_eq, hh, meet, hc]

end

/-- How CMNT ends after its pages: done, or with the trap of the page that failed. -/
def cmntEnd : State × Option AccFail → Did
  | (s, none) => .done s .fall
  | (s, some f) => .trap s (s.accTrap s.firstLane f)

section
variable {s : State} (sc l o : BitVec 2) {a b : BitVec 6} {y : Checked} {f : AccFail}

theorem cmnt_empty (hn : (s.us b).toNat = 0) : s.DoesFall (.cmnt sc a b l o) sc s :=
  doesFall_of_memStep (exec_cmnt ..) (if_pos hn) (.refl s)

variable (hn : (s.us b).toNat ≠ 0) (hpage : (s.us64 a).toNat % 4096 + (s.us b).toNat ≤ 4096)
  (hbusy : s.warpBusy s.cur.core s.cur.slot = false) (hrel : s.releasable s.cur.core 4 = true)
  (hwalk : s.coreWalkHold s.cur.core s.myCtx (s.us64 a) = none)
include hn hpage hbusy hrel

/-- A range within one page that need not wait ends as its page does. -/
theorem cmntBody_eq : cmntBody a b l o s =
    cmntEnd (cmntPages o.toNat l.toNat [((s.us64 a).toNat, (s.us b).toNat)] s) := by
  rw [← chunks_within ((s.us b).toNat / 4096) hn hpage]
  exact (if_neg hn).trans (if_neg (by simp [hbusy, hrel]))

include hwalk

theorem cmnt_maintains (hc : s.coreCheck s.cur.core s.myCtx kCmnt (s.us64 a) = .ok y) :
    s.DoesFall (.cmnt sc a b l o) sc (s.cmntPage l o (s.us64 a) (s.us b).toNat y) :=
  doesFall_of_memStep (exec_cmnt ..)
    ((cmntBody_eq l o hn hpage hbusy hrel).trans (congrArg cmntEnd (cmntPages_ok hwalk hc))) cmntPage_memStep

theorem cmnt_traps (hc : s.coreCheck s.cur.core s.myCtx kCmnt (s.us64 a) = .error f) (hr : s.Runs (.cmnt sc a b l o)) :
    exec (.cmnt sc a b l o) s = .next (s.syncTrap (s.accTrap s.firstLane f)) :=
  exec_trap (exec_cmnt ..) hr
    ((cmntBody_eq l o hn hpage hbusy hrel).trans (congrArg cmntEnd (cmntPages_error hwalk hc)))

end

/-- Settles O31: a fence by its release (`fenceBody_can`, `fenceBody_cannot`) and its acquire (`fenceAcquire_idle`,
`fenceAcquire_busy`), and CMNT by its one page (`cmnt_maintains`, `cmnt_traps`). -/
theorem orderResults : Obligations.OrderResults := by
  intro s sc l o k e a b c x can rel
  refine ⟨?_, ?_, ?_, fun hk hcan hr => exec_wait (exec_fence ..) hr (fenceBody_cannot hk hcan), ?_,
    fun hx => ⟨releaseAt_lt hx .., acquireAt_lt hx ..⟩, fun hx n y hy hn => ?_, fun hn => cmnt_empty sc l o hn,
    fun hn hpage hbusy hrel hwalk => ⟨fun y hc => ?_, fun f => cmnt_traps sc l o hn hpage hbusy hrel hwalk⟩⟩
  · rintro rfl
    exact fence_releases sc
  · rintro rfl
    exact fence_acquires sc
  · rintro rfl
    exact fence_releases_acquires sc
  · rintro rfl hbusy hr
    exact exec_wait (exec_fence ..) hr (fenceBody_zero.trans (fenceAcquire_busy (by decide) hbusy))
  · rw [acquireAt_of_le hx] at hy
    exact l1Acquire_line hy hn
  · exact cmnt_maintains sc l o hn hpage hbusy hrel hwalk hc

end State
end Machine
end Sys2Proof
end

section
/-! PROOFS (07 R122 to R125; 11 R228, R229; 21 R383): a counter word asks the home of its counter. -/

namespace Sys2Proof.Machine

/-- The addresses that a counter's name has translated: a number names its counter without one (07 R123). -/
def CounterName.walks : CounterName → List DWord
  | .addr va => [va]
  | .num _ _ => []

/-- The registers that wait for the answer of a counter's home (08 R151). -/
def CtrOp.awaited (o : CtrOp) : List (RegFile × Nat) :=
  match o.kind with
  | .add => [(.uni, o.dest), (.uni, o.dest + 1)]
  | .read => [(.uni, o.dest), (.uni, o.dest + 1)]
  | .poll => [(.upred, o.dest)]
  | _ => []

namespace State

/-! ### Asking a home -/

/-- A warp some of whose lanes stay at their PC for the answer to request `i`. -/
def keepWarp (o : CtrOp) (i : Nat) (g : Mask) (w : Warp) : Warp :=
  { w with var := w.var ++ o.awaited.map fun v => ⟨v.1, v.2, o.lanes, i⟩
           sched := { w.sched with atHome := w.sched.atHome ++ [(i, g)] } }

/-- A request to a home: its record, what its warp waits for, and its event. -/
theorem askHome_eq (s : State) (o : CtrOp) : s.askHome o =
    (State.updMe { s with nextReq := s.nextReq + 1, ctrOps := s.ctrOps.set s.nextReq o } (keepWarp o s.nextReq s.cur.lanes)).post
      (.counterOpAtHome s.nextReq) := by
  unfold askHome keepWarp CtrOp.awaited
  cases o.kind <;> simp [newReq, keepAtHome, addVar_eq, Warp.updSched, List.range_succ]

/-- What asking a home from `e`, reached from `s` by the memory system alone, leaves: the operation `o`, whose answer the
registers `vs` of the issuing lanes wait for. -/
theorem askHome_asked {s e : State} {o : CtrOp} (h : MemStep s e) (hl : o.lanes = s.cur.lanes) :
    let t := e.askHome o
    t = { e with cores := t.cores, nextReq := e.nextReq + 1, ctrOps := t.ctrOps, agenda := e.agenda ++ [.counterOpAtHome e.nextReq] } ∧
    (∀ n, t.ctrOps.find n = if n = e.nextReq then some o else s.ctrOps.find n) ∧
    t.me = { s.me with var := s.me.var ++ o.awaited.map fun v => ⟨v.1, v.2, s.cur.lanes, e.nextReq⟩
                       sched := { s.me.sched with atHome := s.me.sched.atHome ++ [(e.nextReq, s.cur.lanes)] } } ∧
    (∀ c, c ≠ s.cur.core → t.core c = e.core c) ∧ (∀ n, n ≠ s.cur.slot → t.warp s.cur.core n = e.warp s.cur.core n) := by
  intro t
  have ht : t = _ := askHome_eq e o
  have hops : e.ctrOps = s.ctrOps := by rw [h.device]
  rw [ht]
  refine ⟨?_, fun n => ?_, ?_, fun c hc => ?_, fun n hn => ?_⟩
  · rw [updMe_device]; rfl
  · simp [updMe, hops]
  · rw [(post_memStep ..).me, updMe_me]
    change keepWarp o e.nextReq e.cur.lanes e.me = _
    rw [h.me, h.cur, keepWarp, hl]
  · rw [core_post, updMe_otherCore _ _ _ (by rwa [h.cur])]
    rfl
  · rw [warp_post, ← h.cur]
    exact updMe_otherWarp _ _ _ (by rwa [h.cur])

/-! ### The name of a counter, and its walk -/

/-- The walk that a counter's name must wait for. -/
def nameHold (s : State) (f : BitVec 2) (a : BitVec 6) : Option Nat :=
  if f = 2#2 then s.coreWalkHold s.cur.core s.me.ctx (s.us64 a) else none

/-- The state with the walk of a counter's name noted. -/
def nameWalked (s : State) (f : BitVec 2) (a : BitVec 6) : State := if f = 2#2 then s.noteWalks [s.us64 a] else s

theorem nameWalked_memStep (s : State) (f : BitVec 2) (a : BitVec 6) : MemStep s (s.nameWalked f a) :=
  MemStep.ite (noteWalks_memStep ..) (.refl s)

/-- The operation that a counter word asks a home for. -/
def ctrRequest (s : State) (kind : CtrKind) (f : BitVec 2) (a b : BitVec 6) (dest : Nat) (inc thr : DWord) (scope : Nat)
    (home : CtrHome) : CtrOp :=
  { core := s.cur.core, slot := s.cur.slot, ctx := s.me.ctx, kind := kind, name := s.ctrName f a b, form := f.toNat,
    home := home, inc := inc, thr := thr, scope := scope, dest := dest, lanes := s.cur.lanes, pc := s.cur.pc, len := 1 }

/-- What a counter word does once its name has been looked up: `w` is the state with its walk noted. -/
def askNamed (s w : State) (kind : CtrKind) (scope : Nat) (request : CtrHome → CtrOp) : Except AccFail CtrHome → Did
  | .error x => .trap s (s.accTrap s.firstLane x)
  | .ok home =>
    if kind = .add then w.afterRelease (ctrScope scope) fun t => .done (t.askHome (request home)) .stay
    else if kind != .read && s.warpBusy s.cur.core s.cur.slot then .wait s
    else .done (w.askHome (request home)) .stay

section
variable {s : State} {kind : CtrKind} {f : BitVec 2} {a b : BitVec 6} {dest scope : Nat} {inc thr : DWord} {home : CtrHome}
  {x : AccFail} {go : State → Did}

theorem ctrBody_eq : s.ctrBody kind f a b dest inc thr scope = s.walked (s.ctrName f a b).walks fun w =>
    s.askNamed w kind scope (s.ctrRequest kind f a b dest inc thr scope)
      (s.ctrHomeOf s.cur.core s.me.ctx s.me.team (if kind = .add then kCtrAdd else kCtrRead) (s.ctrName f a b)) := rfl

theorem walked_name (h : s.nameHold f a = none) : s.walked (s.ctrName f a b).walks go = go (s.nameWalked f a) := by
  by_cases hf : f = 2#2
  · rw [nameHold, if_pos hf] at h
    rw [nameWalked, if_pos hf, ctrName, if_pos hf]
    exact walked_eq (List.forall_mem_singleton.mpr h)
  · rw [nameWalked, if_neg hf, ctrName, if_neg hf]
    exact walked_eq (List.forall_mem_nil _)

theorem walked_name_wait (h : s.nameHold f a ≠ none) : s.walked (s.ctrName f a b).walks go = .wait s := by
  obtain ⟨k, hk⟩ := Option.ne_none_iff_exists'.mp h
  have hf : f = 2#2 := by
    by_contra hf
    exact h (if_neg hf)
  rw [nameHold, if_pos hf] at hk
  rw [ctrName, if_pos hf]
  exact walked_wait (List.mem_singleton_self _) hk

end

/-! ### The cases of a counter word -/

section
variable {s : State} {f : BitVec 2} {a b : BitVec 6} {dest scope : Nat} {inc thr : DWord} {home : CtrHome} {x : AccFail}

theorem ctrBody_held {kind : CtrKind} (h : s.nameHold f a ≠ none) : s.ctrBody kind f a b dest inc thr scope = .wait s :=
  ctrBody_eq.trans (walked_name_wait h)

variable (hw : s.nameHold f a = none)
include hw

theorem ctrBody_failed {kind : CtrKind}
    (h : s.ctrHomeOf s.cur.core s.me.ctx s.me.team (if kind = .add then kCtrAdd else kCtrRead) (s.ctrName f a b) = .error x) :
    s.ctrBody kind f a b dest inc thr scope = .trap s (s.accTrap s.firstLane x) := by
  rw [ctrBody_eq, walked_name hw, h, askNamed]

section
variable (h : s.ctrHomeOf s.cur.core s.me.ctx s.me.team kCtrAdd (s.ctrName f a b) = .ok home)
include h

theorem ctrBody_add : s.ctrBody .add f a b dest inc thr scope = (s.nameWalked f a).afterRelease (ctrScope scope) fun t =>
    .done (t.askHome (s.ctrRequest .add f a b dest inc thr scope home)) .stay := by
  rw [ctrBody_eq, walked_name hw, if_pos rfl, h, askNamed, if_pos rfl]

/-- CADD releases first (07 R124). -/
theorem ctrBody_released (hcan : (s.nameWalked f a).canRelease s.cur.core s.cur.slot (ctrScope scope) = true) :
    s.ctrBody .add f a b dest inc thr scope =
      .done (((s.nameWalked f a).releaseAt s.cur.core (ctrScope scope)).askHome
        (s.ctrRequest .add f a b dest inc thr scope home)) .stay := by
  have hcur := (nameWalked_memStep s f a).cur
  rw [ctrBody_add hw h, afterRelease_can (by rwa [hcur]), hcur]

theorem ctrBody_unreleased (hcan : (s.nameWalked f a).canRelease s.cur.core s.cur.slot (ctrScope scope) = false) :
    s.ctrBody .add f a b dest inc thr scope = .wait (s.nameWalked f a) := by
  have hcur := (nameWalked_memStep s f a).cur
  rw [ctrBody_add hw h, afterRelease_wait (by rw [hcur, hcan]; simp)]

end

section
variable {kind : CtrKind} (h : s.ctrHomeOf s.cur.core s.me.ctx s.me.team kCtrRead (s.ctrName f a b) = .ok home)
  (hk : kind ≠ .add)
include h hk

/-- A word that acquires asks once the warp's earlier accesses are done (06 R105). -/
theorem ctrBody_asked (hb : kind = .read ∨ s.warpBusy s.cur.core s.cur.slot = false) :
    s.ctrBody kind f a b dest inc thr scope =
      .done ((s.nameWalked f a).askHome (s.ctrRequest kind f a b dest inc thr scope home)) .stay := by
  rw [ctrBody_eq, walked_name hw, if_neg hk, h, askNamed, if_neg hk]
  exact if_neg (by simpa [or_iff_not_imp_left] using hb)

theorem ctrBody_busy (hr : kind ≠ .read) (hb : s.warpBusy s.cur.core s.cur.slot = true) :
    s.ctrBody kind f a b dest inc thr scope = .wait s := by
  rw [ctrBody_eq, walked_name hw, if_neg hk, h, askNamed, if_neg hk]
  exact if_pos (by simp [hr, hb])

end
end

/-! ### The words -/

theorem exec_cadd (sc : BitVec 2) (d a b : BitVec 6) (f k : BitVec 2) (s : State) :
    exec (.cadd sc d a b f k) s = .next (s.issue (.cadd sc d a b f k) sc (caddBody d a b f k)) := rfl
theorem exec_crd (sc : BitVec 2) (d a b : BitVec 6) (f : BitVec 2) (s : State) :
    exec (.crd sc d a b f) s = .next (s.issue (.crd sc d a b f) sc fun s => s.ctrBody .read f a b d.toNat 0 0 0) := rfl
theorem exec_cwait (sc : BitVec 2) (d a b : BitVec 6) (f k : BitVec 2) (s : State) :
    exec (.cwait sc d a b f k) s =
      .next (s.issue (.cwait sc d a b f k) sc fun s => s.ctrBody .wait f a b 0 0 (s.us64 d) k.toNat) := rfl
theorem exec_cpoll (sc : BitVec 2) (d a b : BitVec 6) (f k : BitVec 2) (s : State) :
    exec (.cpoll sc d a b f k) s = .next (s.issue (.cpoll sc d a b f k) sc fun s =>
      s.ctrBody .poll f a b ((ctrFree f a b).toNat % 4) 0 (s.us64 d) k.toNat) := rfl

/-- Settles O30: each word by the case of its name's walk, of its checks (`ctrBody_failed`) and of what it waits for
(`ctrBody_released`, `ctrBody_asked`); what asking leaves is `askHome_asked`. -/
theorem counterRequests : Obligations.CounterRequests := by
  intro s sc d a b f k home own name free inc e scope r q asked named fails pair walk busy
  have hscope : ctrScope k.toNat = scope := Nat.add_comm ..
  have he : MemStep s e := nameWalked_memStep s f a
  have hr : MemStep s r := he.trans (releaseAt_memStep ..)
  refine ⟨fun hw i hi hruns => ?held, fun hw => ⟨fun hn hcan => ?added,
    fun hn => ⟨?read, fun hb => ⟨?wait, ?poll⟩, fun hb i hi hruns => ?busy⟩,
    fun hn hcan hruns => ?unreleased, fun x => ⟨fun hx hruns => ?failedAdd, fun hx i hi hruns => ?failedRead⟩⟩⟩
  case held =>
    simp only [List.mem_cons, List.not_mem_nil, or_false] at hi
    rcases hi with rfl | rfl | rfl | rfl
    · exact exec_wait (exec_cadd ..) hruns (ctrBody_held hw)
    · exact exec_wait (exec_crd ..) hruns (ctrBody_held hw)
    · exact exec_wait (exec_cwait ..) hruns (ctrBody_held hw)
    · exact exec_wait (exec_cpoll ..) hruns (ctrBody_held hw)
  case added =>
    rw [← hscope] at hcan
    refine ⟨_, does (exec_cadd ..) (ctrBody_released hw hn hcan) rfl, ?_⟩
    rw [hscope]
    exact askHome_asked hr rfl
  case read => exact ⟨_, does (exec_crd ..) (ctrBody_asked hw hn (by decide) (.inl rfl)) rfl, askHome_asked he rfl⟩
  case wait => exact ⟨_, does (exec_cwait ..) (ctrBody_asked hw hn (by decide) (.inr hb)) rfl, askHome_asked he rfl⟩
  case poll => exact ⟨_, does (exec_cpoll ..) (ctrBody_asked hw hn (by decide) (.inr hb)) rfl, askHome_asked he rfl⟩
  case busy =>
    simp only [List.mem_cons, List.not_mem_nil, or_false] at hi
    rcases hi with rfl | rfl
    · exact exec_wait (exec_cwait ..) hruns (ctrBody_busy hw hn (by decide) (by decide) hb)
    · exact exec_wait (exec_cpoll ..) hruns (ctrBody_busy hw hn (by decide) (by decide) hb)
  case unreleased =>
    rw [← hscope] at hcan
    exact exec_wait (exec_cadd ..) hruns (ctrBody_unreleased hw hn hcan)
  case failedAdd => exact exec_trap (exec_cadd ..) hruns (ctrBody_failed hw hx)
  case failedRead =>
    simp only [List.mem_cons, List.not_mem_nil, or_false] at hi
    rcases hi with rfl | rfl | rfl
    · exact exec_trap (exec_crd ..) hruns (ctrBody_failed hw hx)
    · exact exec_trap (exec_cwait ..) hruns (ctrBody_failed hw hx)
    · exact exec_trap (exec_cpoll ..) hruns (ctrBody_failed hw hx)

end State
end Sys2Proof.Machine
end

section
/-! PROOFS (07 R122 to R126; 06 R119; 21 R382, R383): an operation on one counter, at its home. -/

namespace Sys2Proof.Machine
namespace State

section
variable {s : State} {d h : Nat} {home : CtrHome} {inc : DWord}

/-- An add that does not carry returns the value before, and tells of the new one. -/
theorem ctrAdd_some (hsum : (s.ctrRead d home).toNat + inc.toNat < 2 ^ 64) : s.ctrAdd d h home inc =
    some (s.ctrRead d home,
      (s.ctrWrite d h (s.ctrRead d home + inc) home).ctrNotify d home (s.ctrRead d home + inc)) := by
  unfold ctrAdd
  exact if_neg hsum.not_ge

theorem ctrAdd_none (hsum : 2 ^ 64 ≤ (s.ctrRead d home).toNat + inc.toNat) : s.ctrAdd d h home inc = none := by
  unfold ctrAdd
  exact if_pos hsum

end

/-! ### What an operation does at its home -/

/-- An add that is not made: the warp's traps for a reason (21 R382), an agent's is recorded. -/
def opRefused (e : State) (i : Nat) (op : CtrOp) (reason : Nat) : State :=
  match op.agent with
  | some what =>
    (agentAddFails { e with ctrOps := e.ctrOps.del i } op.core op.ctx what op.name (lo32 op.inc)).unhold (addKey i)
  | none => e.ctrFail i op (ctrTrapInfo op reason)

/-- An add after its home has answered with the old value and the state it leaves, or has refused it. -/
def opAdded (e : State) (i : Nat) (op : CtrOp) : Option (DWord × State) → State
  | some (old, t) => match op.agent with
    | some _ => State.unhold { t with ctrOps := t.ctrOps.del i } (addKey i)
    | none => (t.putPair op old).ctrAdvance i op
  | none => e.opRefused i op 1

/-- An operation on one counter, where its home takes it (07 R124 to R126). -/
def opTaken (e : State) (i : Nat) (op : CtrOp) : State :=
  let v := e.ctrRead (dieOfCore op.core) op.home
  match op.kind with
  | .add => e.opAdded i op (e.ctrAdd (dieOfCore op.core) op.ctx op.home op.inc)
  | .read => (e.putPair op v).ctrAdvance i op
  | .poll =>
    let t := if op.lanes = 0#32 then e else e.updWarp op.core op.slot fun w => w.setSp op.dest (decide (op.thr ≤ v))
    (if op.thr ≤ v then t.acquireAt op.core (ctrScope op.scope) else t).ctrAdvance i op
  | _ => if op.thr ≤ v then (e.acquireAt op.core (ctrScope op.scope)).ctrAdvance i op else e.parkWait i op

section
variable {s e : State} {i : Nat} {op : CtrOp}

section
variable {reason : Nat} {what : AgentAdd} {old : DWord} {t : State}

theorem opRefused_warp (ha : op.agent = none) : e.opRefused i op reason = e.ctrFail i op (ctrTrapInfo op reason) := by
  simp only [opRefused, ha]

theorem opRefused_agent (ha : op.agent = some what) : e.opRefused i op reason =
    (agentAddFails { e with ctrOps := e.ctrOps.del i } op.core op.ctx what op.name (lo32 op.inc)).unhold (addKey i) := by
  simp only [opRefused, ha]

theorem opAdded_warp (ha : op.agent = none) : e.opAdded i op (some (old, t)) = (t.putPair op old).ctrAdvance i op := by
  simp only [opAdded, ha]

theorem opAdded_agent (ha : op.agent ≠ none) :
    e.opAdded i op (some (old, t)) = State.unhold { t with ctrOps := t.ctrOps.del i } (addKey i) := by
  obtain ⟨what, ha⟩ := Option.ne_none_iff_exists'.mp ha
  simp only [opAdded, ha]

end

section
variable {v : DWord} (hv : e.ctrRead (dieOfCore op.core) op.home = v)
include hv

theorem opTaken_add (hk : op.kind = .add) (hsum : v.toNat + op.inc.toNat < 2 ^ 64) : e.opTaken i op =
    e.opAdded i op (some (v, (e.ctrWrite (dieOfCore op.core) op.ctx (v + op.inc) op.home).ctrNotify (dieOfCore op.core) op.home
      (v + op.inc))) := by
  subst hv
  simp only [opTaken, hk, ctrAdd_some hsum]

/-- A sum that would carry changes nothing (07 R125). -/
theorem opTaken_carries (hk : op.kind = .add) (hsum : 2 ^ 64 ≤ v.toNat + op.inc.toNat) :
    e.opTaken i op = e.opRefused i op 1 := by
  subst hv
  simp only [opTaken, hk, ctrAdd_none hsum, opAdded]

theorem opTaken_read (hk : op.kind = .read) : e.opTaken i op = (e.putPair op v).ctrAdvance i op := by
  simp only [opTaken, hk, hv]

theorem opTaken_poll (hk : op.kind = .poll) (hl : op.lanes ≠ 0#32) : e.opTaken i op =
    let t := e.updWarp op.core op.slot fun w => w.setSp op.dest (decide (op.thr ≤ v))
    if op.thr ≤ v then (t.acquireAt op.core (ctrScope op.scope)).ctrAdvance i op else t.ctrAdvance i op := by
  simp only [opTaken, hk, hv, if_neg hl]
  split <;> rfl

theorem opTaken_wait (hk : op.kind = .wait) : e.opTaken i op =
    if op.thr ≤ v then (e.acquireAt op.core (ctrScope op.scope)).ctrAdvance i op else e.parkWait i op := by
  simp only [opTaken, hk, hv]

end

/-! ### When it does it -/

theorem counterAtHome_gone (hop : s.ctrOps.find i = none) : s.counterAtHome i = s := by
  simp only [counterAtHome, hop]

/-- The store that an operation still waits for, its cores having released. -/
def storeFollowed (e : State) (op : CtrOp) : Option Nat :=
  if op.cores.isEmpty then none else e.lateStore op.cores op.ctx

theorem storeFollowed_some {j : Nat} (hc : op.cores ≠ []) (hj : e.lateStore op.cores op.ctx = some j) :
    e.storeFollowed op = some j := by
  simp [storeFollowed, hc, hj]

theorem storeFollowed_none (h : op.cores = [] ∨ e.lateStore op.cores op.ctx = none) : e.storeFollowed op = none := by
  rcases h with h | h <;> simp [storeFollowed, h]

section
variable (hop : s.ctrOps.find i = some op) (he : op.cores.foldl (fun (t : State) c => t.releaseAt c op.scope) s = e)
include hop he

theorem counterAtHome_follows {j : Nat} (hj : e.storeFollowed op = some j) :
    s.counterAtHome i = e.hold (reqKey j) true (.counterOpAtHome i) := by
  unfold storeFollowed at hj
  simp only [counterAtHome, hop, he, hj]

variable (hdue : e.storeFollowed op = none)
include hdue

theorem counterAtHome_addv (hk : op.kind = .addv) : s.counterAtHome i = e.addvAtHome i op := by
  unfold storeFollowed at hdue
  simp only [counterAtHome, hop, he, hdue, hk]

variable (hk : op.kind ≠ .addv)
include hk

theorem counterAtHome_lost (hlost : e.ctrLost (dieOfCore op.core) op.home = true) :
    s.counterAtHome i = e.opRefused i op 2 := by
  unfold storeFollowed at hdue
  simp only [counterAtHome, hop, he, hdue, hlost, if_true]
  rfl

variable (hlost : e.ctrLost (dieOfCore op.core) op.home = false)
include hlost

theorem counterAtHome_held {key : Nat} (hhold : e.ctrHold op.home (op.kind = .add) = some key) :
    s.counterAtHome i = e.hold key (op.kind = .add) (.counterOpAtHome i) := by
  unfold storeFollowed at hdue
  simp only [counterAtHome, hop, he, hdue, hlost, hhold, Bool.false_eq_true, if_false]

theorem counterAtHome_taken (hhold : e.ctrHold op.home (op.kind = .add) = none) : s.counterAtHome i = e.opTaken i op := by
  unfold storeFollowed at hdue
  simp only [counterAtHome, hop, he, hdue, hlost, hhold, Bool.false_eq_true, if_false, opTaken]
  cases hkind : op.kind with
  | add =>
    dsimp only
    cases e.ctrAdd (dieOfCore op.core) op.ctx op.home op.inc <;> cases ha : op.agent <;> simp only [opAdded, opRefused, ha]
  | read => rfl
  | wait => rfl
  | poll => simp only [decide_eq_true_eq]
  | addv => exact absurd hkind hk

end
end
end State
end Sys2Proof.Machine
end

section
/-! PROOFS (07 R127): a CADDV, and the homes that hold its counters. -/

namespace Sys2Proof.Machine
namespace State

variable {s : State} {i home : Nat} {op : CtrOp}

/-! ### One home -/

section
variable {l key : Nat} {va : DWord}

theorem addvAtHome_nil (hm : homesOf (dieOfCore op.core) op = []) : s.addvAtHome i op = s.ctrAdvance i op := by
  simp only [addvAtHome, hm]

theorem addvAtHome_several {h : Nat} {hs : List Nat} (hm : homesOf (dieOfCore op.core) op = home :: h :: hs) :
    s.addvAtHome i op = s.post (.hold i home) := by
  simp only [addvAtHome, hm]

variable (hm : homesOf (dieOfCore op.core) op = [home])
include hm

theorem addvAtHome_lost (hl : s.addvLost (dieOfCore op.core) op.adds = some (l, va)) :
    s.addvAtHome i op = s.ctrFail i op (addvTrap op 2 l va) := by
  simp only [addvAtHome, hm, hl]

variable (hl : s.addvLost (dieOfCore op.core) op.adds = none)
include hl

theorem addvAtHome_held (hh : s.addvHold op.adds = some key) :
    s.addvAtHome i op = s.hold key true (.counterOpAtHome i) := by
  simp only [addvAtHome, hm, hl, hh]

variable (hh : s.addvHold op.adds = none)
include hh

theorem addvAtHome_carries (hc : s.carries (dieOfCore op.core) op.adds [] = some (l, va)) :
    s.addvAtHome i op = s.ctrFail i op (addvTrap op 1 l va) := by
  simp only [addvAtHome, hm, hl, hh, hc]

theorem addvAtHome_added (hc : s.carries (dieOfCore op.core) op.adds [] = none) : s.addvAtHome i op =
    (s.applyAdds (dieOfCore op.core) op.ctx [] op.adds).1.addvDone i op (s.applyAdds (dieOfCore op.core) op.ctx [] op.adds).2 := by
  simp only [addvAtHome, hm, hl, hh, hc]

end

/-! ### Several homes -/

theorem homesOf_holding (d : Nat) (op : CtrOp) (hs : List Nat) : homesOf d { op with holding := hs } = homesOf d op := rfl

/-- A CADDV that fails has every home that holds release, and else traps at once. -/
theorem addvAbort_eq (t : TrapInfo) : s.addvAbort i op t = if op.holding = [] then s.ctrFail i op t
    else State.postAll { s with ctrOps := s.ctrOps.set i { op with fails := some t } } (op.holding.map fun h => .release i h) := by
  simp only [addvAbort, List.isEmpty_iff]

theorem holdAt_gone (hop : s.ctrOps.find i = none) : s.holdAt i home = s := by
  simp only [holdAt, hop]
theorem holdAnswered_gone (hop : s.ctrOps.find i = none) (yes : Bool) : s.holdAnswered i home yes = s := by
  simp only [holdAnswered, hop]
theorem applyAt_gone (hop : s.ctrOps.find i = none) : s.applyAt i home = s := by
  simp only [applyAt, hop]
theorem releaseHold_gone (hop : s.ctrOps.find i = none) : s.releaseHold i home = s := by
  simp only [releaseHold, hop]

variable (hop : s.ctrOps.find i = some op) {l : Nat} {va : DWord}
include hop

theorem holdAt_lost (hl : s.addvLost (dieOfCore op.core) (addsAt (dieOfCore op.core) op home) = some (l, va)) :
    s.holdAt i home = s.addvAbort i op (addvTrap op 2 l va) := by
  simp only [holdAt, hop, hl]

section
variable (hl : s.addvLost (dieOfCore op.core) (addsAt (dieOfCore op.core) op home) = none)
include hl

theorem holdAt_held {key : Nat} (hh : s.addvHold (addsAt (dieOfCore op.core) op home) = some key) :
    s.holdAt i home = s.hold key true (.hold i home) := by
  simp only [holdAt, hop, hl, hh]

variable (hh : s.addvHold (addsAt (dieOfCore op.core) op home) = none)
include hh

theorem holdAt_carries {x : Nat × DWord} (hc : s.carries (dieOfCore op.core) (addsAt (dieOfCore op.core) op home) [] = some x) :
    s.holdAt i home = s.post (.holdAnswer i home false) := by
  simp only [holdAt, hop, hl, hh, hc, Option.isSome_some, if_true]

theorem holdAt_holds (hc : s.carries (dieOfCore op.core) (addsAt (dieOfCore op.core) op home) [] = none) :
    s.holdAt i home = { s with
      ctrHeld := s.ctrHeld ++ (((addsAt (dieOfCore op.core) op home).map fun e => e.2.2.1.id).dedup).map fun n => (n, i)
      agenda := s.agenda ++ [.holdAnswer i home true] } := by
  simp only [holdAt, hop, hl, hh, hc, Option.isSome_none, Bool.false_eq_true, if_false]
  rfl

end

theorem holdAnswered_no (hc : s.carries (dieOfCore op.core) (addsAt (dieOfCore op.core) op home) [] = some (l, va)) :
    s.holdAnswered i home false = s.addvAbort i op (addvTrap op 1 l va) := by
  simp only [holdAnswered, hop, hc, Bool.false_eq_true, if_false]

/-- A home that would answer yes by now is asked again. -/
theorem holdAnswered_again (hc : s.carries (dieOfCore op.core) (addsAt (dieOfCore op.core) op home) [] = none) :
    s.holdAnswered i home false = s.post (.hold i home) := by
  simp only [holdAnswered, hop, hc, Bool.false_eq_true, if_false]

section
variable {q : CtrOp} {e : State} (hq : { op with holding := op.holding ++ [home] } = q)
  (he : { s with ctrOps := s.ctrOps.set i q } = e)
include hq he

theorem holdAnswered_lost (hl : e.addvLost (dieOfCore op.core) op.adds = some (l, va)) :
    s.holdAnswered i home true = e.addvAbort i q (addvTrap q 2 l va) := by
  subst hq he
  simp only [holdAnswered, hop, hl, if_true]

variable (hl : e.addvLost (dieOfCore op.core) op.adds = none)
include hl

theorem holdAnswered_next {h : Nat} (hn : ((homesOf (dieOfCore op.core) op).find? fun h => !q.holding.contains h) = some h) :
    s.holdAnswered i home true = e.post (.hold i h) := by
  subst hq he
  simp only [holdAnswered, hop, hl, if_true, homesOf_holding, hn]

theorem holdAnswered_all (ha : ∀ h ∈ homesOf (dieOfCore op.core) op, h ∈ q.holding) :
    s.holdAnswered i home true = e.postAll (q.holding.map fun h => .apply i h) := by
  have hn : ((homesOf (dieOfCore op.core) op).find? fun h => !q.holding.contains h) = none := by
    simpa using ha
  subst hq he
  simp only [holdAnswered, hop, hl, if_true, homesOf_holding, hn]

end

theorem applyAt_other (h : home ∉ op.holding ∨ home ∈ op.applied) : s.applyAt i home = s := by
  simp only [applyAt, hop]
  exact if_pos (by simpa using h)

section
variable (hin : home ∈ op.holding) (hnew : home ∉ op.applied)
include hin hnew

theorem applyAt_lost (ha : op.applied = []) (hl : s.addvLost (dieOfCore op.core) op.adds = some (l, va)) :
    s.applyAt i home = s.addvAbort i op (addvTrap op 2 l va) := by
  simp only [applyAt, hop]
  rw [if_neg (by simp [hin, hnew]), if_pos (List.isEmpty_iff.mpr ha), hl]

theorem applyAt_applies (hl : op.applied ≠ [] ∨ s.addvLost (dieOfCore op.core) op.adds = none) : s.applyAt i home =
    let e := (s.dropHolds i (dieOfCore op.core) op home).applyAdds (dieOfCore op.core) op.ctx op.olds
      (addsAt (dieOfCore op.core) op home)
    let q : CtrOp := { op with olds := e.2, applied := op.applied ++ [home] }
    if q.applied.length = (homesOf (dieOfCore op.core) q).length then e.1.addvDone i q e.2
    else { e.1 with ctrOps := e.1.ctrOps.set i q } := by
  have hl' : (if op.applied.isEmpty then s.addvLost (dieOfCore op.core) op.adds else none) = none := by
    rcases hl with h | h <;> simp [h]
  simp only [applyAt, hop]
  rw [if_neg (by simp [hin, hnew]), hl']

end

section
variable {q : CtrOp} (hq : { op with holding := op.holding.filter (· != home) } = q)
include hq

/-- After the last home has released, the trap is taken. -/
theorem releaseHold_last {t : TrapInfo} (hh : q.holding = []) (hf : op.fails = some t) :
    s.releaseHold i home = (s.dropHolds i (dieOfCore op.core) op home).ctrFail i q t := by
  subst hq
  simp only [releaseHold, hop]
  rw [if_pos (List.isEmpty_iff.mpr hh), hf]

theorem releaseHold_keeps (h : q.holding ≠ [] ∨ op.fails = none) : s.releaseHold i home =
    { s.dropHolds i (dieOfCore op.core) op home with ctrOps := (s.dropHolds i (dieOfCore op.core) op home).ctrOps.set i q } := by
  have hn : (if q.holding.isEmpty then op.fails else none) = none := by
    rcases h with h | h <;> simp [h]
  subst hq
  simp only [releaseHold, hop]
  rw [hn]

end

end State
end Sys2Proof.Machine
end

section
/-! PROOFS (07 R129 to R133): what a write to a counter tells the cores that watch it. -/

namespace Sys2Proof.Machine
namespace State

variable {s : State} {c line : Nat}

theorem updCore_congr {f g : Core → Core} (h : f (s.core c) = g (s.core c)) : s.updCore c f = s.updCore c g :=
  congrArg (fun x => { s with cores := s.cores.set c x }) h

/-- A notice on a line that no waiter of the core names wakes none (07 R130). -/
theorem slowNotice_none (h : ∀ w ∈ (s.core c).slow, lineOf w.ctr ≠ line ∧ w.ctr ≠ line) :
    s.slowNotice c line = s.trimWatches c := by
  have hmine : ((s.core c).slow.filter fun w => if 2 ^ 48 ≤ w.ctr then w.ctr = line else lineOf w.ctr = line) = [] := by
    rw [List.filter_eq_nil_iff]
    intro w hw
    obtain ⟨hline, hctr⟩ := h w hw
    simp [hline, hctr]
  rw [slowNotice, hmine, List.foldl_nil]

/-- One waiter, of a counter of a file: it reads again, and goes where its threshold is met. -/
theorem slowNotice_one {w : Waiter} (hw : (s.core c).slow = [w]) (hctr : w.ctr = line) (hfile : 2 ^ 48 ≤ line) :
    s.slowNotice c line =
      if w.thr ≤ s.ctrRead (dieOfCore c) (homeOf w) then
        ((s.updCore c fun x => { x with slow := [] }).wakeWith c w.slot (s.ctrRead (dieOfCore c) (homeOf w))).trimWatches c
      else s.trimWatches c := by
  have hmine : ((s.core c).slow.filter fun w => if 2 ^ 48 ≤ w.ctr then w.ctr = line else lineOf w.ctr = line) = [w] := by
    simp [hw, hctr]
    omega
  have hgone : (s.updCore c fun x => { x with slow := x.slow.erase w }) = s.updCore c fun x => { x with slow := [] } :=
    updCore_congr (by simp [hw])
  rw [slowNotice, hmine, List.foldl_cons, List.foldl_nil, rereadSlow, hgone]
  split <;> rfl

theorem monitorHit_none (h : ∀ e ∈ s.cores, ∀ m ∈ e.2.monitors, m.2 ≠ line) : s.monitorHit line = s := by
  have hhits : ∀ acc : List (Nat × Nat), (s.cores.foldl (fun acc e =>
      acc ++ (e.2.monitors.filter fun m => m.2 = line).map fun m => (e.1, m.1)) acc) = acc := by
    generalize s.cores = cs at h
    induction cs with
    | nil => exact fun _ => rfl
    | cons e cs ih =>
      obtain ⟨he, hcs⟩ := List.forall_mem_cons.mp h
      intro acc
      have hnil : (e.2.monitors.filter fun m => m.2 = line) = [] := by simpa using he
      rw [List.foldl_cons, hnil, List.map_nil, List.append_nil]
      exact ih hcs acc
  rw [monitorHit, hhits]
  rfl

/-- One monitor on the line: an agent's goes and the agent reads again, a warp's stays where its wait goes on. -/
theorem monitorHit_one {k : Nat} {x : Core} (hc : s.cores = [(c, x)]) (hm : x.monitors = [(k, line)]) : s.monitorHit line =
    if 64 ≤ k then (s.updCore c fun x => { x with monitors := x.monitors.del k }).post (agentEvent k)
    else s.rereadWait c k false := by
  simp [monitorHit, hc, hm]

theorem exec_slowListNotice (hc : c < 768) : exec (.slowListNotice c line) s = .next (s.slowNotice c line) :=
  if_neg (by simp [coreOk, hc])

end State
end Sys2Proof.Machine
end

section
/-! PROOFS (16 R326, R332; 07 R124, R125): application cores at device memory, and the negotiation of features. -/

namespace Sys2Proof.Machine
namespace State

variable {s : State} {app pa : Nat} {u : AppOp}

/-! ### Operations of a requester that is no core -/

section
variable {kid n : Nat} {g : Nat → Nat} {inc : DWord}

theorem homeAtomic_misaligned (h : pa % n ≠ 0) : s.homeAtomic pa kid n g = s.refuseAccess :=
  if_pos (bne_iff_ne.mpr h)

theorem homeAtomic_aligned (h : pa % n = 0) : s.homeAtomic pa kid n g =
    let r := s.homeRead (homeDie pa 0) pa kid 0 n
    ((r.1.markMapped pa false).homeWrite (homeDie pa 0) (2 ^ 20) noCtx pa kid 0 (leBytes n (g (leNat r.2)))).answer
      (leNat r.2) :=
  if_neg (by simp [h])

theorem homeAdd_refused (h : pa % 8 ≠ 0 ∨ 2 ^ 64 ≤ (s.ctrRead 0 (.mem pa kid)).toNat + inc.toNat) :
    s.homeAdd pa kid inc = s.refuseAccess := by
  by_cases ha : pa % 8 = 0
  · simp only [homeAdd, ha, ctrAdd_none (h.resolve_left (not_not.mpr ha))]
    rfl
  · exact if_pos (bne_iff_ne.mpr ha)

/-- The page is marked before the add, which reads the same value. -/
theorem homeAdd_added {v : DWord} (ha : pa % 8 = 0) (hv : s.ctrRead 0 (.mem pa kid) = v)
    (hsum : v.toNat + inc.toNat < 2 ^ 64) (hm : (s.markMapped pa true).ctrRead 0 (.mem pa kid) = v) :
    s.homeAdd pa kid inc =
      (((s.markMapped pa true).ctrWrite 0 noCtx (v + inc) (.mem pa kid)).ctrNotify 0 (.mem pa kid) (v + inc)).answer v.toNat := by
  have hs := ctrAdd_some (s := s) (d := 0) (h := noCtx) (home := .mem pa kid) (inc := inc) (by rwa [hv])
  have ht := ctrAdd_some (s := s.markMapped pa true) (d := 0) (h := noCtx) (home := .mem pa kid) (inc := inc) (by rwa [hm])
  rw [hv] at hs
  rw [hm] at ht
  simp only [homeAdd, ha, hs, ht]
  rfl

end

/-! ### Accesses -/

/-- Does an application core's operation write? -/
def appWrites (u : AppOp) : Bool :=
  match u with
  | .load _ => false
  | _ => true

/-- An access of an application core, where its home takes it (16 R326). -/
def appTaken (s : State) (pa : Nat) (u : AppOp) : State :=
  let n := appSize pa u
  let marked := s.ctrPages.contains (pa / 4096)
  match u with
  | .load _ => (s.homeRead (homeDie pa 0) pa 0 0 n).1.answer (leNat (s.homeRead (homeDie pa 0) pa 0 0 n).2)
  | .store bs => if marked then s.refuseAccess
    else (s.markMapped pa false).homeWrite (homeDie pa 0) (2 ^ 20) noCtx pa 0 0 (bs.take n)
  | .amo o wide x _ _ =>
    if !marked then s.homeAtomic pa 0 n fun v => atomOp o n v x.toNat
    else if o = 0 && wide then s.homeAdd pa 0 x
    else s.refuseAccess

theorem exec_appCoreCounterAmo (h : app < 16) : exec (.appCoreCounterAmo app pa u) s = .next (s.appAccess app pa u) :=
  if_neg h.not_ge

theorem appAccess_refused (h : ¬ (app ∉ s.boot.appOffline ∧ pa + appSize pa u ≤ deviceEnd)) :
    s.appAccess app pa u = s.refuseAccess :=
  if_pos (by simpa [or_iff_not_imp_left] using h)

section
variable (h : app ∉ s.boot.appOffline ∧ pa + appSize pa u ≤ deviceEnd)
include h

theorem appAccess_allowed : s.appAccess app pa u = match s.ctrHold (.mem pa 0) (appWrites u) with
    | some key => s.hold key (appWrites u) (.appCoreCounterAmo app pa u)
    | none => s.appTaken pa u := by
  have hok : ¬ (s.boot.appOffline.contains app || decide (deviceEnd < pa + appSize pa u)) = true := by simpa using h
  unfold appAccess
  dsimp only
  rw [if_neg hok]
  rfl

theorem appAccess_held {key : Nat} (hh : s.ctrHold (.mem pa 0) (appWrites u) = some key) :
    s.appAccess app pa u = s.hold key (appWrites u) (.appCoreCounterAmo app pa u) := by
  rw [appAccess_allowed h, hh]

theorem appAccess_taken (hh : s.ctrHold (.mem pa 0) (appWrites u) = none) : s.appAccess app pa u = s.appTaken pa u := by
  rw [appAccess_allowed h, hh]

end

section
variable {o : Nat} {wide aq rl : Bool} {x : DWord} {bs : List Byte}

/-- On a counter page a store faults (16 R326). -/
theorem appTaken_store_marked (hm : s.ctrPages.contains (pa / 4096) = true) :
    s.appTaken pa (.store bs) = s.refuseAccess :=
  if_pos hm

theorem appTaken_store (hm : ¬ s.ctrPages.contains (pa / 4096) = true) : s.appTaken pa (.store bs) =
    (s.markMapped pa false).homeWrite (homeDie pa 0) (2 ^ 20) noCtx pa 0 0 (bs.take (appSize pa (.store bs))) :=
  if_neg hm

theorem appTaken_amo (hm : ¬ s.ctrPages.contains (pa / 4096) = true) : s.appTaken pa (.amo o wide x aq rl) =
    s.homeAtomic pa 0 (appSize pa (.amo o wide x aq rl)) fun v => atomOp o (appSize pa (.amo o wide x aq rl)) v x.toNat :=
  if_pos (by simpa using hm)

/-- On a counter page AMOADD.D is a CADD, and any other AMO faults (16 R326). -/
theorem appTaken_amo_marked (hm : s.ctrPages.contains (pa / 4096) = true) : s.appTaken pa (.amo o wide x aq rl) =
    if o = 0 ∧ wide = true then s.homeAdd pa 0 x else s.refuseAccess := by
  simp only [appTaken, hm, Bool.not_true, Bool.false_eq_true, if_false, Bool.and_eq_true, decide_eq_true_eq]

end

/-! ### Features -/

theorem negotiate_busy (h : ∃ x ∈ s.ctxs, x.2.valid = true) : s.negotiate = s.setDevsts 2 :=
  if_pos (by simpa using h)

theorem negotiate_accepts (h : ∀ x ∈ s.ctxs, x.2.valid = false) : s.negotiate = s.updIo fun x => { x with
    featAck := [(0, BitVec.ofNat 32 (acceptFeats (x.regs.get 0 0x020).toNat))], featDone := true } :=
  if_neg (by simpa using h)

end State
end Sys2Proof.Machine
end

section
/-! PROOFS (07 R122 to R133; 16 R326, R332; 21 R382, R383): the counter events, each by the lemma of its case. -/

namespace Sys2Proof.Machine
namespace State

/-- Settles O51: an operation on one counter by what it does where its home takes it (`counterAtHome_taken`), a CADDV by
its homes' answers, and the notices, the application cores and the features by the lemma of their case. -/
theorem counterEvents : Obligations.CounterEvents := by
  intro s i home line c app pa op u hc happ d e gone at' old added mine fails abort
  have goes {ev : Instr} {t v : State} (hg : s.Goes ev t) (htv : t = v) : s.Goes ev v := htv ▸ hg
  refine ⟨fun hop => ?gone, fun hop hcores j hj => goes rfl (counterAtHome_follows hop rfl (storeFollowed_some hcores hj)),
    fun hop hlate hk => ?one, fun hop hcores hk => ?addv,
    fun hop l va hl => goes rfl ((holdAt_lost hop hl).trans (addvAbort_eq _)), fun hop hl => ?asked, fun hop => ?held,
    fun h => goes (exec_slowListNotice hc) (slowNotice_none h),
    fun w hw hctr hfile => goes (exec_slowListNotice hc) (slowNotice_one hw hctr hfile),
    fun h => goes rfl (monitorHit_none h), fun k x hx hm => goes rfl (monitorHit_one hx hm), ?app,
    fun n g => ⟨homeAtomic_misaligned, homeAtomic_aligned⟩,
    fun inc => ⟨homeAdd_refused, fun ha hsum hm => homeAdd_added ha rfl hsum hm⟩,
    fun h => goes rfl (negotiate_busy h), fun h => goes rfl (negotiate_accepts h)⟩
  case gone =>
    exact ⟨goes rfl (counterAtHome_gone hop), goes rfl (holdAt_gone hop), goes rfl (applyAt_gone hop),
      goes rfl (releaseHold_gone hop), fun yes => goes rfl (holdAnswered_gone hop yes)⟩
  case one =>
    have hdue := storeFollowed_none hlate
    refine ⟨fun hlost => ?_,
      fun hlost => ⟨fun key hh => goes rfl (counterAtHome_held hop rfl hdue hk hlost hh), fun hh => ?_⟩⟩
    · have hat : at' (e.opRefused i op 2) := goes rfl (counterAtHome_lost hop rfl hdue hk hlost)
      exact ⟨fun ha => goes hat (opRefused_warp ha), fun a ha => goes hat (opRefused_agent ha)⟩
    · have hat : at' (e.opTaken i op) := goes rfl (counterAtHome_taken hop rfl hdue hk hlost hh)
      refine ⟨fun hadd hsum => ?_, fun hadd hsum => ?_, fun hread => goes hat (opTaken_read rfl hread),
        fun hpoll hl => goes hat (opTaken_poll rfl hpoll hl), fun hwait => goes hat (opTaken_wait rfl hwait)⟩
      · have hadded := goes hat (opTaken_add rfl hadd hsum)
        exact ⟨fun ha => goes hadded (opAdded_warp ha), fun ha => goes hadded (opAdded_agent ha)⟩
      · have hrefused := goes hat (opTaken_carries rfl hadd hsum)
        exact ⟨fun ha => goes hrefused (opRefused_warp ha), fun a ha => goes hrefused (opRefused_agent ha)⟩
  case addv =>
    have he : op.cores.foldl (fun (t : State) c => t.releaseAt c op.scope) s = s := by rw [hcores, List.foldl_nil]
    have hat : at' (s.addvAtHome i op) := goes rfl (counterAtHome_addv hop he (storeFollowed_none (.inl hcores)) hk)
    exact ⟨fun hm => goes hat (addvAtHome_nil hm), fun hm => ⟨fun l va hl => goes hat (addvAtHome_lost hm hl),
      fun key hl hh => goes hat (addvAtHome_held hm hl hh), fun hl hh => ⟨fun hn => goes hat (addvAtHome_added hm hl hh hn),
      fun l va hx => goes hat (addvAtHome_carries hm hl hh hx)⟩⟩, fun h l hm => goes hat (addvAtHome_several hm)⟩
  case asked =>
    exact ⟨fun key hh => goes rfl (holdAt_held hop hl hh), fun hh => ⟨fun x hx => goes rfl (holdAt_carries hop hl hh hx),
      fun hn => goes rfl (holdAt_holds hop hl hh hn)⟩,
      fun l va hx => goes rfl ((holdAnswered_no hop hx).trans (addvAbort_eq _)),
      fun hn => goes rfl (holdAnswered_again hop hn)⟩
  case held =>
    refine ⟨⟨fun l va hl => goes rfl ((holdAnswered_lost hop rfl rfl hl).trans (addvAbort_eq _)),
        fun hl => ⟨fun h hn => goes rfl (holdAnswered_next hop rfl rfl hl hn),
          fun ha => goes rfl (holdAnswered_all hop rfl rfl hl ha)⟩⟩,
      fun h => goes rfl (applyAt_other hop h), fun hin hnew => ⟨fun l va ha hl => ?_, fun hl => ?_⟩,
      fun t hh hf => goes rfl (releaseHold_last hop rfl hh hf), fun hh => goes rfl (releaseHold_keeps hop rfl hh)⟩
    · exact goes rfl ((applyAt_lost hop hin hnew ha hl).trans (addvAbort_eq _))
    · exact goes rfl (applyAt_applies hop hin hnew hl)
  case app =>
    have access {t : State} (ht : s.appAccess app pa u = t) : s.Goes (.appCoreCounterAmo app pa u) t :=
      goes (exec_appCoreCounterAmo happ) ht
    refine ⟨fun hn => access (appAccess_refused hn), fun hhere key hh => access (appAccess_held hhere hh),
      fun hhere hh => ?_⟩
    have hat := access (appAccess_taken hhere hh)
    refine ⟨?_, ?_, ?_⟩
    · rintro m rfl
      exact hat
    · rintro bs rfl
      exact ⟨fun hm => goes hat (appTaken_store_marked hm), fun hm => goes hat (appTaken_store hm)⟩
    · rintro o wide x aq rl rfl
      exact ⟨fun hm => goes hat (appTaken_amo hm),
        fun hm ho hw => goes hat ((appTaken_amo_marked hm).trans (if_pos ⟨ho, hw⟩)),
        fun hm hn => goes hat ((appTaken_amo_marked hm).trans (if_neg fun h => by simp [h] at hn))⟩

end State
end Sys2Proof.Machine
end

section
/-! PROOFS (08 R143 to R148, R153, R154, R159 to R161): the decoder reads back what the encoder writes, and reads the
words that the tables write out. -/

namespace Sys2Proof.Laws.RoundTrip
open Sys2Proof Sys2Proof.Machine

/-- A well-formed word is read back: the lemma of its constructor, in the order of `Instr`. The words of the lane set
come first, then those of the uniform set, then the events, which have no word. -/
theorem decodeWord_encode (i : Instr) : Statement i :=
  Instr.casesOn (motive := Statement) i
    -- The lane set.
    iadd isub imul imulhI32 imulhN32 imad iminI32 iminN32 imaxI32 imaxN32 iabs ineg iaddi imuli icmp icmpi mov movi
    sel and or xor andn not andi ori xori shl shr sar rol shli shri sari popc clz ctz brev bfeN32 bfeI32 bfi fadd
    fsub fmul ffma fmin fmax fabs fneg fcmp fclass fcpys frnd hadd2 hsub2 hmul2 hfma2 hmin2 hmax2 hdot2 cvt cvtx
    cvtp qnt dqnt frcp frsq fsqrt fexp2 flog2 fsin fcos ftanh ferf fsigm shfl vote ballot redx scan matchLanes ld st
    atom cas caddv lds sts atoms cass pref bra brp call calli ret jmpi rcv exit spawn yld nop
    -- The uniform set.
    sadd ssub smul smulh sand sor sxor sshl sshr ssar smin smax smov smovi saddi scmp ssel sadd64 sld sst sbra sbrp
    scall sret srd swr cadd crd cwait cpoll fence cmnt racq racqNb rrel rnext launch cpy cpyb cpyg cpys cseal cwaitb
    wdesc msignCount msignReg ldw wswap mma mmat mperm mred mrd mst mzero trap rft svc bkpt ckpt ckptCounter rgnent
    rgnlve toksub toksubD tokconf tokarm
    -- The events.
    quadIssueCycle spawnBinTimerExpiry spawnBinLaunch coreAdmission launchDescriptorTake submissionQueueEntry run
    launchNode copyNode signalNode waitNode condNode stealRequest stealAgentTimeout reserve commit rollback start
    agree refuse confirm withdraw gangHoldTimeout gangCollectTimeout equinoxStep stop swap resume demote load enter
    pctlReservedCommand partitionCommandComplete parkedEviction evictionWakePoll almanacPeriodExpiry cut cutReply
    heldWriteRelease intervalDurable vigilStep vigilDraftStep vigilConfirm vigilArmApply vigilResultArrival
    flipStep2Complete hostMemRead hostMemWrite hostCounterWrite peerAccess counterOpAtHome slowListNotice
    monitorWake hold apply release appCoreCounterAmo ringAgentPass ringWindowExpiry traceRecordWrite traceSample
    tileRecord captureEnd replayDigest copyComplete copyHalt matrixCommandStart matrixCommandRetire pageWalkComplete
    l1WritebackDeadline memoryRequestAtHome variableLatencyResult holdAnswer stealReply queueControlBlockGiven
    budgetPeriod cxlLinkLoss colmetLinkLoss linkRetrain partitionOffline submitterFreeze restore cxlCacheSnoop
    trapEntry asyncTrapTake biasFlipToHost biasFlipToDevice rollbackGo bisnpResponse peerRefusal registerWrite
    captureStart thermalThrottle powerLimitExceeded thermalShutdown vfStateChange abudWrite vfstateWrite dbgdataRead
    dbgdataWrite debugGo create destroy vslotAssign vslotRelease featureNegotiate inputUndervoltage keyGen keyLoad
    keyErase keyWrap keyUnwrap keyReservedCommand tlbInvalidateRequest tlbInvalidateComplete counterPageSet
    counterPageClear counterPageRead status writeFlash verify bist results reboot mailboxUnknownCommand deviceReset
    strandedRetentionExpiry

/-- Settles O56, by the lemma of each constructor (`decodeWord_encode`). -/
theorem roundTrip : Obligations.RoundTrip :=
  decodeWord_encode

/-- The word that a well-formed instruction encodes to, written out, is read as that instruction. -/
theorem decodeWord_of_encode_eq {i : Instr} {w : Word} (hw : encode i = w) (word : i.isWord = true)
    (wf : i.WellFormed = true) : decodeWord w = .ok i :=
  hw ▸ decodeWord_encode i word wf

/-- Settles O57: a word that some instruction encodes to is read as that instruction (`decodeWord_of_encode_eq`); the
refusals and the units are the decoder run on the words given. -/
theorem decodeWords : Obligations.DecodeWords := by
  refine ⟨?iadd, ?fadd, ?shfl, ?ld, ?brp, ?nop, ?sadd, ?cadd, ?cpyb, ?mma, ?trap, ?toksub, ?unassigned, ?fixedField,
    ?lit, ?rep, ?litTwice, ?litAsInstr⟩
  case iadd | fadd | shfl | ld | brp | nop | sadd | cadd | cpyb | mma | trap | toksub =>
    exact decodeWord_of_encode_eq rfl rfl rfl
  case unassigned | fixedField => rfl
  case lit | rep | litTwice | litAsInstr => rfl

end Sys2Proof.Laws.RoundTrip
end

section
/-! PROOFS (09 R172 to R175; 08 R150): the integer, logic, shift and bit-field words, each by the value that it computes in
one lane. -/

namespace Sys2Proof.Machine
open State

/-! ### Values of one lane -/

/-- Bits 63 to 32 of a number are its quotient by 2^32. -/
theorem ofInt_high (p : Int) : BitVec.ofInt 32 (p / 2 ^ 32) = (BitVec.ofInt 64 p).extractLsb' 32 32 := by
  apply BitVec.eq_of_toNat_eq
  rw [BitVec.extractLsb'_toNat, BitVec.toNat_ofInt, BitVec.toNat_ofInt, Nat.shiftRight_eq_div_pow]
  norm_num; omega

theorem mulHigh_signed (x y : Word) : mulHigh true x y = (x.signExtend 64 * y.signExtend 64).extractLsb' 32 32 := by
  rw [mulHigh, if_pos rfl, ofInt_high, BitVec.ofInt_mul]; rfl

theorem mulHigh_unsigned (x y : Word) : mulHigh false x y = (x.setWidth 64 * y.setWidth 64).extractLsb' 32 32 := by
  have h : ∀ z : Word, BitVec.ofInt 64 z.toNat = z.setWidth 64 := fun z => by
    rw [BitVec.ofInt_natCast, BitVec.ofNat_toNat]
  rw [← h, ← h, ← BitVec.ofInt_mul, ← ofInt_high]
  rw [mulHigh, if_neg Bool.false_ne_true, ← BitVec.ofInt_natCast, Int.natCast_ediv, Int.natCast_mul]
  rfl

theorem minMax_signed (isMax : Bool) (x y : Word) :
    minMax isMax true x y = if x.toInt < y.toInt then (if isMax then y else x) else (if isMax then x else y) := by
  simp only [minMax, BitVec.slt, if_true, decide_eq_true_eq]
  cases isMax <;> rfl

theorem minMax_unsigned (isMax : Bool) (x y : Word) :
    minMax isMax false x y = if x.toNat < y.toNat then (if isMax then y else x) else (if isMax then x else y) := by
  simp only [minMax, BitVec.ult, Bool.false_eq_true, if_false, decide_eq_true_eq]
  cases isMax <;> rfl

theorem absWord_eq (x : Word) : absWord x = BitVec.ofNat 32 x.toInt.natAbs := by
  apply BitVec.eq_of_toNat_eq
  unfold absWord
  have := x.isLt
  have h := BitVec.msb_eq_decide x
  rw [BitVec.toInt_eq_msb_cond]
  cases hm : x.msb
  · simp
  · simp [hm] at h ⊢; omega

/-- A condition code of 0 to 10 (09 R173). -/
theorem iCond_iff {c : BitVec 4} (hc : c.toNat ≤ 10) (x y : Word) : iCond c.toNat x y = true ↔ CondHolds c x y := by
  obtain ⟨n, hn, rfl⟩ : ∃ n ≤ 10, c = BitVec.ofNat 4 n := ⟨c.toNat, hc, by simp⟩
  interval_cases n <;>
    simp [iCond, CondHolds, BitVec.slt, BitVec.sle, BitVec.ult, BitVec.ule]

theorem shlBy_eq (x : Word) (n : Nat) : shlBy x n = BitVec.ofNat 32 (x.toNat * 2 ^ n) := by
  apply BitVec.eq_of_toNat_eq; simp [shlBy, Nat.shiftLeft_eq]
theorem shrBy_eq (x : Word) (n : Nat) : shrBy x n = BitVec.ofNat 32 (x.toNat / 2 ^ n) := by
  apply BitVec.eq_of_toNat_eq
  have : x.toNat / 2 ^ n < 2 ^ 32 := lt_of_le_of_lt (Nat.div_le_self ..) x.isLt
  rw [shrBy, BitVec.toNat_ushiftRight, Nat.shiftRight_eq_div_pow, BitVec.toNat_ofNat, Nat.mod_eq_of_lt this]
theorem sarBy_eq (x : Word) (n : Nat) : sarBy x n = BitVec.ofInt 32 (x.toInt / 2 ^ min n 31) := by
  rw [sarBy, BitVec.sshiftRight, Int.shiftRight_eq_div_pow]; norm_cast

theorem popCount_eq (x : Word) : popCount x = BitVec.ofNat 32 ((List.range 32).countP fun k => x.getLsbD k) := by
  rw [popCount, lanesOf, List.countP_eq_length_filter]

/-- The number of leading zeros. -/
def clzOf (x : Word) : Nat := if x = 0#32 then 32 else 31 - Nat.log2 x.toNat
/-- The number of trailing zeros. -/
def ctzOf (x : Word) : Nat := (lanesOf x).headD 32

theorem clzOf_spec (x : Word) : clzOf x ≤ 32 ∧ (∀ k < clzOf x, x.getLsbD (31 - k) = false) ∧
    (clzOf x < 32 → x.getLsbD (31 - clzOf x) = true) := by
  unfold clzOf
  split
  case isTrue h => subst h; simp
  case isFalse h =>
    have h0 : x.toNat ≠ 0 := fun h' => h (BitVec.eq_of_toNat_eq h')
    have hlog : Nat.log2 x.toNat < 32 := (Nat.log2_lt h0).mpr x.isLt
    refine ⟨by omega, fun k hk => ?_, fun _ => ?_⟩
    · exact Nat.testBit_lt_two_pow ((Nat.log2_lt h0).mp (by omega))
    · rw [show 31 - (31 - Nat.log2 x.toNat) = Nat.log2 x.toNat by omega]
      exact Nat.testBit_log2 h0

theorem ctzOf_spec (x : Word) : ctzOf x ≤ 32 ∧ (∀ k < ctzOf x, x.getLsbD k = false) ∧
    (ctzOf x < 32 → x.getLsbD (ctzOf x) = true) := by
  have hs : (lanesOf x).Pairwise (· < ·) := List.Pairwise.filter _ List.pairwise_lt_range
  unfold ctzOf
  cases hl : lanesOf x with
  | nil =>
    refine ⟨by simp, fun k hk => ?_, by simp⟩
    have : k ∉ lanesOf x := by simp [hl]
    simpa [mem_lanesOf, show k < 32 from hk] using this
  | cons j js =>
    obtain ⟨hj, hb⟩ := (mem_lanesOf x j).mp (by simp [hl])
    refine ⟨hj.le, fun k (hk : k < j) => ?_, fun _ => hb⟩
    have hnot : k ∉ lanesOf x := by
      rw [hl] at hs ⊢
      rintro (_ | ⟨_, hm⟩)
      · omega
      · have := List.rel_of_pairwise_cons hs hm; omega
    simpa [mem_lanesOf, show k < 32 by omega] using hnot

/-! ### Bit fields -/

theorem fieldPos_eq (b : Word) : fieldPos b = b.toNat % 32 := by simp [fieldPos, bitsOf]
theorem fieldWidth_eq (b : Word) : fieldWidth b = min (b.toNat / 256 % 64) (32 - b.toNat % 32) := by
  simp [fieldWidth, fieldPos_eq, bitsOf, Nat.shiftRight_eq_div_pow]

/-- A bit of the field, before its sign fills the word. -/
theorem testBit_field (a b : Word) (k : Nat) : (a.toNat / 2 ^ fieldPos b % 2 ^ fieldWidth b).testBit k =
    (decide (k < fieldWidth b) && a.getLsbD (fieldPos b + k)) := by
  rw [Nat.testBit_mod_two_pow, Nat.testBit_div_two_pow, Nat.add_comm]; rfl

theorem getLsbD_bfe_unsigned (a b : Word) (k : Nat) :
    (bfe false a b).getLsbD k = (decide (k < fieldWidth b) && a.getLsbD (fieldPos b + k)) := by
  have hw : fieldWidth b ≤ 32 := by unfold fieldWidth; omega
  simp only [bfe, Bool.false_and, Bool.false_eq_true, if_false, BitVec.getLsbD_ofNat, testBit_field]
  by_cases hk : k < 32
  · simp [hk]
  · simp [hk, show ¬ k < fieldWidth b by omega]

/-- A field of w bits with its sign set, extended by ones. -/
theorem testBit_signFill {w x k : Nat} (hw : w ≤ 32) (hx : x < 2 ^ w) (hk : k < 32) :
    (x + 2 ^ 32 - 2 ^ w).testBit k = (decide (w ≤ k) || x.testBit k) := by
  have hpow : 2 ^ 32 = 2 ^ w * 2 ^ (32 - w) := by rw [← pow_add]; congr 1; omega
  have hsplit : x + 2 ^ 32 - 2 ^ w = 2 ^ w * (2 ^ (32 - w) - 1) + x := by
    have := Nat.two_pow_pos (32 - w)
    rw [hpow, Nat.mul_sub, Nat.mul_one]
    have := Nat.le_mul_of_pos_right (2 ^ w) this
    omega
  rw [hsplit, Nat.testBit_two_pow_mul_add _ hx, Nat.testBit_two_pow_sub_one]
  by_cases h : k < w
  · simp [h, Nat.not_le.mpr h]
  · simp [h, Nat.le_of_not_lt h, show k - w < 32 - w by omega]

theorem getLsbD_bfe_signed (a b : Word) {k : Nat} (hk : k < 32) :
    (bfe true a b).getLsbD k = (decide (0 < fieldWidth b) && a.getLsbD (fieldPos b + min k (fieldWidth b - 1))) := by
  have hw : fieldWidth b ≤ 32 := by unfold fieldWidth; omega
  have hx : a.toNat / 2 ^ fieldPos b % 2 ^ fieldWidth b < 2 ^ fieldWidth b := Nat.mod_lt _ (Nat.two_pow_pos _)
  have hsign := testBit_field a b (fieldWidth b - 1)
  unfold bfe
  dsimp only
  split
  case isTrue h =>
    simp only [Bool.true_and, Bool.and_eq_true, bne_iff_ne] at h
    obtain ⟨hpos, hs⟩ := h
    rw [BitVec.getLsbD_ofNat, testBit_signFill hw hx hk, testBit_field]
    rw [hs] at hsign
    by_cases hkw : k < fieldWidth b
    · simp [hk, hkw, show min k (fieldWidth b - 1) = k by omega, Nat.pos_of_ne_zero hpos]
    · simp_all [show min k (fieldWidth b - 1) = fieldWidth b - 1 by omega, Nat.pos_of_ne_zero hpos, Nat.le_of_not_lt hkw]
  case isFalse h =>
    rw [BitVec.getLsbD_ofNat, testBit_field]
    by_cases hpos : 0 < fieldWidth b
    · have hs : a.getLsbD (fieldPos b + (fieldWidth b - 1)) = false := by simpa [hpos.ne', hsign, hpos] using h
      by_cases hkw : k < fieldWidth b
      · simp [hk, hkw, hpos, show min k (fieldWidth b - 1) = k by omega]
      · simp [hkw, hpos, show min k (fieldWidth b - 1) = fieldWidth b - 1 by omega, hs]
    · simp [hpos, show ¬ k < fieldWidth b by omega]

theorem getLsbD_bfiWord (a b d : Word) {k : Nat} (hk : k < 32) : (bfiWord a b d).getLsbD k =
    if fieldPos b ≤ k ∧ k < fieldPos b + fieldWidth b then a.getLsbD (k - fieldPos b) else d.getLsbD k := by
  have hm : (BitVec.ofNat 32 ((2 ^ fieldWidth b - 1) * 2 ^ fieldPos b)).getLsbD k =
      decide (fieldPos b ≤ k ∧ k < fieldPos b + fieldWidth b) := by
    rw [BitVec.getLsbD_ofNat, Nat.testBit_mul_two_pow, Nat.testBit_two_pow_sub_one]
    rw [decide_eq_true hk, Bool.true_and, ← Bool.decide_and]
    exact decide_eq_decide.mpr (by omega)
  simp only [bfiWord, BitVec.getLsbD_or, BitVec.getLsbD_and, BitVec.getLsbD_not, BitVec.getLsbD_shiftLeft, hm]
  by_cases h : fieldPos b ≤ k ∧ k < fieldPos b + fieldWidth b
  · simp [h, hk]
  · simp [h, hk]

/-! ### The words -/

namespace State

/-- A word that gives the lanes of Active one result, told by its value in a lane. -/
theorem gives_lane {s : State} {i : Instr} {sc : BitVec 2} {lat : Nat} {d : BitVec 7} {F : State → Nat → Word}
    {f : Nat → Word} (hx : exec i s = .next (s.issue i sc fun s => s.laneOp lat d (F s))) (hf : ∀ l, F s l = f l) :
    s.Gives i sc [s.result lat .lane d.toNat f] :=
  gives_results (hold := none) (rs := [s.laneRes .lane d.toNat (F s)]) hx rfl (by rw [funext hf]; rfl)

/-- A word that gives them a predicate. -/
theorem gives_pred {s : State} {i : Instr} {sc : BitVec 2} {lat : Nat} {p : BitVec 3} {F : State → Nat → Bool}
    {f : Nat → Bool} (hx : exec i s = .next (s.issue i sc fun s => s.predOp lat p (F s))) (hf : ∀ l, F s l = f l) :
    s.Gives i sc [s.result lat .pred p.toNat fun l => if f l then 1 else 0] :=
  gives_results (hold := none) (rs := [s.laneRes .pred p.toNat fun l => if F s l then 1 else 0]) hx rfl
    (by rw [funext hf]; rfl)

end State

/-- Settles O1: each word by its value in one lane. -/
theorem integerResults : Obligations.IntegerResults := by
  intro s sc d a b i p c j
  refine ⟨gives_lane rfl fun _ => rfl, gives_lane rfl fun _ => rfl, gives_lane rfl fun _ => rfl,
    gives_lane rfl fun _ => mulHigh_signed .., gives_lane rfl fun _ => mulHigh_unsigned .., gives_lane rfl fun _ => rfl,
    gives_lane rfl fun _ => minMax_signed false .., gives_lane rfl fun _ => minMax_unsigned false ..,
    gives_lane rfl fun _ => minMax_signed true .., gives_lane rfl fun _ => minMax_unsigned true ..,
    gives_lane rfl fun _ => absWord_eq _, gives_lane rfl fun _ => (BitVec.zero_sub _).symm, gives_lane rfl fun _ => rfl,
    gives_lane rfl fun _ => rfl, gives_lane rfl fun _ => rfl, gives_lane rfl fun _ => rfl, gives_lane rfl fun _ => rfl,
    fun hc => ⟨iCond c.toNat, iCond_iff hc, gives_pred rfl fun _ => rfl, gives_pred rfl fun _ => rfl⟩⟩

/-- Settles O2: each word computes its formula as it stands. -/
theorem logicResults : Obligations.LogicResults := by
  intro s sc d a b i
  exact ⟨gives_lane rfl fun _ => rfl, gives_lane rfl fun _ => rfl, gives_lane rfl fun _ => rfl, gives_lane rfl fun _ => rfl,
    gives_lane rfl fun _ => rfl, gives_lane rfl fun _ => rfl, gives_lane rfl fun _ => rfl, gives_lane rfl fun _ => rfl⟩

/-- Settles O3: the shifts by their quotients and products, the counts by the bits that they find (`clzOf_spec`,
`ctzOf_spec`). -/
theorem shiftAndCountResults : Obligations.ShiftAndCountResults := by
  intro s sc d a b i
  exact ⟨gives_lane rfl fun _ => shlBy_eq .., gives_lane rfl fun _ => shrBy_eq .., gives_lane rfl fun _ => sarBy_eq ..,
    gives_lane rfl fun _ => rfl, gives_lane rfl fun _ => shlBy_eq .., gives_lane rfl fun _ => shrBy_eq ..,
    gives_lane rfl fun _ => sarBy_eq .., gives_lane rfl fun _ => popCount_eq _,
    ⟨clzOf, clzOf_spec, gives_lane rfl fun _ => rfl⟩, ⟨ctzOf, ctzOf_spec, gives_lane rfl fun _ => rfl⟩⟩

/-- Settles O4: each result bit by bit. -/
theorem bitFieldResults : Obligations.BitFieldResults := by
  intro s sc d a b A B D r pos w
  have hw : ∀ y, fieldWidth y = w y := fieldWidth_eq
  have hp : ∀ y, fieldPos y = pos y := fieldPos_eq
  refine ⟨⟨BitVec.reverse, fun x k hk => ?brev, gives_lane rfl fun _ => rfl⟩,
    ⟨bfe false, fun x y k => ?bfeUnsigned, gives_lane rfl fun _ => rfl⟩,
    ⟨bfe true, fun x y k hk => ?bfeSigned, gives_lane rfl fun _ => rfl⟩,
    ⟨bfiWord, fun x y z k hk => ?bfi, gives_lane rfl fun _ => rfl⟩⟩
  case brev => rw [BitVec.getLsbD_reverse, BitVec.getMsbD_eq_getLsbD]; simp [hk]
  case bfeUnsigned => rw [← hw, ← hp]; exact getLsbD_bfe_unsigned x y k
  case bfeSigned => rw [← hw, ← hp]; exact getLsbD_bfe_signed x y hk
  case bfi => rw [← hw, ← hp]; exact getLsbD_bfiWord x y z hk

end Sys2Proof.Machine
end

section
/-! PROOFS (09 R176 to R188; 04 R66, R68): the FP32 and packed words, the conversions and the special functions. -/

namespace Sys2Proof.Machine
open State

/-! ### Values of one lane -/

theorem half_zero (x : Word) : half x 0 = x.toNat % 2 ^ 16 := by simp [half, bitsOf]
theorem half_one (x : Word) : half x 1 = x.toNat / 2 ^ 16 := by
  have := x.isLt
  simp only [half, bitsOf, Nat.shiftRight_eq_div_pow]; norm_num; omega
theorem packedFmt_eq (f : BitVec 1) : packedFmt f = if f = 0#1 then .bf16 else .f16 := by
  revert f; decide

/-- A word with the one bit k set. -/
theorem ofNat_two_pow (k : Nat) : BitVec.ofNat 32 (2 ^ k) = 1#32 <<< k := by
  apply BitVec.eq_of_toNat_eq
  simp [Nat.shiftLeft_eq]

theorem packedMinMax_eq (isMax : Bool) (f : BitVec 1) (z : Bool) (x y : Word) : packedMinMax isMax f z x y =
    let g : Fmt := if f = 0#1 then .bf16 else .f16
    BitVec.ofNat 32 (fMinMax g z isMax (x.toNat % 2 ^ 16) (y.toNat % 2 ^ 16) +
      2 ^ 16 * fMinMax g z isMax (x.toNat / 2 ^ 16) (y.toNat / 2 ^ 16)) := by
  simp only [packedMinMax, packedFmt_eq, half_zero, half_one, Nat.mul_comm (2 ^ 16)]

theorem dot2_eq (f : BitVec 1) (m : Nat) (z : Bool) (x y acc : Word) : dot2 (packedFmt f) m z x y acc =
    let g : Fmt := if f = 0#1 then .bf16 else .f16
    sumRound .f32 m z [(operand g z (x.toNat % 2 ^ 16)).mul (operand g z (y.toNat % 2 ^ 16)),
      (operand g z (x.toNat / 2 ^ 16)).mul (operand g z (y.toNat / 2 ^ 16)), some (operand .f32 z acc.toNat)] := by
  simp only [dot2, packedFmt_eq, half_zero, half_one]

/-- Bits 31 to n of a word. -/
theorem bitsOf_high (x : Word) {n : Nat} (hn : n ≤ 32) : bitsOf x.toNat 31 n = x.toNat / 2 ^ n := by
  rw [bitsOf, Nat.shiftRight_eq_div_pow, Nat.mod_eq_of_lt]
  rw [Nat.div_lt_iff_lt_mul (Nat.two_pow_pos n), ← pow_add, show 31 + 1 - n + n = 32 by omega]
  exact x.isLt

/-- CVTP to a 16-bit format packs both results, and to an 8-bit one keeps the low half of D (09 R183). -/
theorem cvtpLane_eq (t : BitVec 2) (z : Bool) (a b d : Word) : cvtpLane t.toNat z a b d =
    let x (g : Fmt) := narrow g z a.toNat
    let y (g : Fmt) := narrow g z b.toNat
    if t = 0#2 ∨ t = 1#2 then
      let g : Fmt := if t = 0#2 then .bf16 else .f16
      ((y g).1 * 2 ^ 16 + (x g).1, (x g).2 ||| (y g).2)
    else
      let g : Fmt := if t = 2#2 then .e4m3 else .e5m2
      ((y g).1 * 2 ^ 24 + (x g).1 * 2 ^ 16 + d.toNat / 2 ^ 16, (x g).2 ||| (y g).2) := by
  rw [← bitsOf_high d (n := 16) (by decide)]
  obtain rfl | rfl | rfl | rfl : t = 0#2 ∨ t = 1#2 ∨ t = 2#2 ∨ t = 3#2 := by revert t; decide
  all_goals simp [cvtpLane]

/-! ### Special functions -/

/-- A value that is chosen lies within the bound, or is rounded to nearest. -/
theorem sfuChoice_within (op : Nat) (v : Exact) (free : Nat) :
    sfuWithin op v (sfuExact op v) (sfuChoice op v free) = true ∨
      sfuChoice op v free = (roundTo .f32 0 false ⟨sfuExact op v < 0, (sfuExact op v).natAbs, -400⟩).1 := by
  unfold sfuChoice; dsimp only
  split
  case isTrue h => exact .inl h
  case isFalse => exact .inr rfl

/-- A finite operand that is no special case gives the value chosen, where no subnormal is flushed. -/
theorem sfuLane_chosen {op : Nat} {x : Word} {v : Exact} (hs : sfuSpecial op x.toNat = none)
    (hv : unpack .f32 x.toNat = .fin v) :
    (sfuLane op false x).1 = sfuChoice op v (Config.sfu op (BitVec.ofNat 32 x.toNat)).toNat := by
  simp [sfuLane, flushIn, hs, hv]

/-! ### The words -/

namespace State

/-- A word that gives the lanes of Active results that set flags, told by its values and flags in a lane. -/
theorem gives_fp {s : State} {i : Instr} {sc : BitVec 2} {lat : Nat} {d : BitVec 7} {F : State → Nat → Nat × Word}
    {g : Nat → Nat × Word} (hx : exec i s = .next (s.issue i sc fun s => s.fpOp lat d (F s))) (hg : ∀ l, F s l = g l) :
    s.GivesFlags i sc lat [s.result lat .lane d.toNat fun l => BitVec.ofNat 32 (g l).1] fun l => (g l).2 := by
  obtain rfl := funext hg
  exact gives_flags (hold := none) (rs := [s.laneRes .lane d.toNat fun l => BitVec.ofNat 32 (F s l).1]) hx rfl rfl

/-- The value and the flags of a packed word in a lane, from those of its low and high elements (09 R180). -/
def packedLane (g : (Nat → Nat) → Nat × Word) : Nat × Word :=
  ((g fun x => x % 2 ^ 16).1 + (g fun x => x / 2 ^ 16).1 * 2 ^ 16, (g fun x => x % 2 ^ 16).2 ||| (g fun x => x / 2 ^ 16).2)

/-- A packed word, told by what it computes of one element. -/
theorem gives_packed {s : State} {i : Instr} {sc : BitVec 2} {d a b : BitVec 7} {t : BitVec 1}
    (f : Fmt → Nat → Bool → Nat → Nat → Nat → Nat × Word) (hx : exec i s = packed i sc t d a b f s) :
    let g (l : Nat) := packedLane fun e => f (if t = 0#1 then .bf16 else .f16) s.rm s.sub
      (e (s.val a.toNat l).toNat) (e (s.val b.toNat l).toNat) (e (s.val d.toNat l).toNat)
    s.GivesFlags i sc 4 [s.result 4 .lane d.toNat fun l => BitVec.ofNat 32 (g l).1] fun l => (g l).2 :=
  gives_fp hx fun l => by simp only [packedLane, packedFmt_eq, half_zero, half_one]

/-- A special function: the SFU is held a cycle per 8 active lanes (09 R169). -/
theorem gives_sfu {s : State} {i : Instr} {op : Nat} {sc : BitVec 2} {d a : BitVec 7} (hx : exec i s = sfuOp i op sc d a s) :
    s.GivesFlags i sc 12 [s.result 12 .lane d.toNat fun l => BitVec.ofNat 32 (sfuLane op s.sub (s.val a.toNat l)).1]
      (fun l => (sfuLane op s.sub (s.val a.toNat l)).2) (some (.sfu, max 1 (((lanesOf s.cur.lanes).length + 7) / 8))) :=
  gives_flags (rs := [s.laneRes .lane d.toNat fun l => BitVec.ofNat 32 (sfuLane op s.sub (s.val a.toNat l)).1]) hx rfl rfl

end State

/-- Settles O5: each word by its value in one lane. -/
theorem floatSelectResults : Obligations.FloatSelectResults := by
  intro s sc f c p d a b
  exact ⟨gives_lane rfl fun _ => rfl, gives_lane rfl fun _ => rfl, gives_lane rfl fun _ => rfl, gives_lane rfl fun _ => rfl,
    gives_pred rfl fun _ => rfl, gives_lane rfl fun _ => ofNat_two_pow _, gives_lane rfl fun _ => rfl,
    gives_lane rfl fun _ => rfl, gives_lane rfl fun _ => packedMinMax_eq .., gives_lane rfl fun _ => packedMinMax_eq ..⟩

/-- Settles O6: each word by its value and flags in one lane, the packed ones by their two elements. -/
theorem floatRoundResults : Obligations.FloatRoundResults := by
  intro s sc t f d a b A B D fmt lo hi one two
  refine ⟨gives_fp rfl fun _ => rfl, gives_fp rfl fun _ => rfl, gives_fp rfl fun _ => rfl, gives_fp rfl fun _ => rfl,
    gives_packed (fun t m z x y _ => fAdd t m z x y) rfl, gives_packed (fun t m z x y _ => fSub t m z x y) rfl,
    gives_packed (fun t m z x y _ => fMul t m z x y) rfl, gives_packed fFma rfl, gives_fp rfl fun _ => dot2_eq ..,
    gives_fp rfl fun l => ?dqnt, gives_fp rfl fun _ => cvtpLane_eq ..⟩
  case dqnt =>
    have hcode : bitsOf (A l) 3 0 = A l % 16 := by simp [bitsOf]
    rw [bitsOf_high _ (by decide)]; exact congrArg (dqnt _) hcode

/-- Settles O7: CVT by its direction and by whether its type takes a pair, CVTX as it stands. -/
theorem conversionResults : Obligations.ConversionResults := by
  intro s sc n d a r t A wide x
  have hpair : isPairType t = true ↔ wide := by simp [isPairType, wide]
  refine ⟨?widen, ?narrow, gives_flags (hold := none) (rs := [s.laneRes .lane d.toNat fun l => (x l).1,
    s.laneRes .lane (d.toNat + 1) fun l => (x l).2.1]) rfl rfl rfl⟩
  case widen =>
    rintro rfl i rfl
    have h14 : 14 ≤ t.toNat ↔ isPairType t = true := by revert t; decide
    exact gives_fp rfl fun l => by simp [h14, A]
  case narrow =>
    rintro rfl i rfl
    let low : Pend := s.laneRes .lane d.toNat fun l => lo32 (narrowTo t.toNat s.rm s.sub (A l).toNat).1
    let high : Pend := s.laneRes .lane (d.toNat + 1) fun l => hi32 (narrowTo t.toNat s.rm s.sub (A l).toNat).1
    exact ⟨fun hw => gives_flags (hold := none) (rs := [low]) rfl (by simp [mt hpair.mp hw, A, low]) rfl,
      fun hw => gives_flags (hold := none) (rs := [low, high]) rfl (by simp [hpair.mpr hw, A, low, high]) rfl⟩

/-- Settles O8: a special function gives its results with the SFU held (`gives_sfu`), and what it chooses lies within the
bound or is rounded (`sfuChoice_within`). -/
theorem specialFunctionResults : Obligations.SpecialFunctionResults := by
  intro s sc d a i op hi g
  refine ⟨?gives, fun x v hs hv => ?within⟩
  case gives =>
    simp only [List.mem_cons, Prod.mk.injEq, List.not_mem_nil, or_false] at hi
    rcases hi with ⟨rfl, rfl⟩ | ⟨rfl, rfl⟩ | ⟨rfl, rfl⟩ | ⟨rfl, rfl⟩ | ⟨rfl, rfl⟩ | ⟨rfl, rfl⟩ | ⟨rfl, rfl⟩ | ⟨rfl, rfl⟩ |
      ⟨rfl, rfl⟩ | ⟨rfl, rfl⟩ <;> exact gives_sfu rfl
  case within =>
    dsimp only
    rw [sfuLane_chosen hs hv]
    exact sfuChoice_within ..

end Sys2Proof.Machine
end

section
/-! PROOFS (09 R185, R189 to R194; 04 R64): lane groups and their control words, and the words that combine the lanes of a
group. -/

namespace Sys2Proof.Machine

/-! ### Lane groups (09 R189) -/

namespace State

theorem groupBase_eq (g l : Nat) : groupBase g l = g * (l / g) :=
  Nat.sub_eq_of_eq_add (Nat.div_add_mod l g).symm

theorem groupWidth_pos (w : BitVec 2) : 0 < groupWidth w := Nat.mul_pos (by decide) (Nat.two_pow_pos _)

/-- S: the lanes of Active in the same aligned group. -/
theorem groupLanes_eq (s : State) {g : Nat} (hg : 0 < g) (l : Nat) :
    s.groupLanes g l = (lanesOf s.cur.lanes).filter fun j => j / g = l / g := by
  simp only [groupLanes, groupBase_eq, Nat.mul_right_inj hg.ne']

theorem lanesOf_ascending (m : Mask) : (lanesOf m).Pairwise (· < ·) := List.Pairwise.filter _ List.pairwise_lt_range

theorem groupLanes_ascending (s : State) (g l : Nat) : (s.groupLanes g l).Pairwise (· < ·) :=
  List.Pairwise.filter _ (lanesOf_ascending _)

theorem mem_groupLanes_self {s : State} {l : Nat} (g : Nat) (h : l ∈ lanesOf s.cur.lanes) : l ∈ s.groupLanes g l :=
  List.mem_filter.mpr ⟨h, by simp⟩

/-- The lane whose word governs the group of a lane of Active is one of Active too. -/
theorem groupHead_active {s : State} {l : Nat} (g : Nat) (h : l ∈ lanesOf s.cur.lanes) :
    (s.groupLanes g l).headD l ∈ lanesOf s.cur.lanes := by
  cases hS : s.groupLanes g l with
  | nil => exact h
  | cons j js =>
    have hj : j ∈ s.groupLanes g l := by simp [hS]
    exact (List.mem_filter.mp hj).1

/-- A result counts its value in the lanes of Active alone. -/
theorem laneOp_congr {s : State} {f g : Nat → Word} (lat : Nat) (d : BitVec 7)
    (h : ∀ l ∈ lanesOf s.cur.lanes, f l = g l) : s.laneOp lat d f = s.laneOp lat d g := by
  have hv : (lanesOf s.cur.lanes).map (fun l => (l, f l)) = (lanesOf s.cur.lanes).map fun l => (l, g l) :=
    List.map_congr_left fun l hl => by rw [h l hl]
  simp only [laneOp, laneRes, hv]

/-- And so do results that set flags. -/
theorem fpOp_congr {s : State} {f g : Nat → Nat × Word} (lat : Nat) (d : BitVec 7)
    (h : ∀ l ∈ lanesOf s.cur.lanes, f l = g l) : s.fpOp lat d f = s.fpOp lat d g := by
  have hv : (lanesOf s.cur.lanes).map (fun l => (l, BitVec.ofNat 32 (f l).1)) =
      (lanesOf s.cur.lanes).map fun l => (l, BitVec.ofNat 32 (g l).1) := List.map_congr_left fun l hl => by rw [h l hl]
  have hall : s.orLanes (fun l => (f l).2) = s.orLanes fun l => (g l).2 :=
    List.foldl_ext _ _ _ fun a l hl => by simp only [h l hl]
  have hbad : (maskOf fun l => s.cur.lanes.getLsbD l && ((f l).2 &&& s.enables) != 0#32) =
      maskOf fun l => s.cur.lanes.getLsbD l && ((g l).2 &&& s.enables) != 0#32 := by
    apply BitVec.eq_of_getLsbD_eq
    intro l hl
    rw [getLsbD_maskOf, getLsbD_maskOf]
    cases ha : s.cur.lanes.getLsbD l
    · simp
    · rw [h l ((mem_lanesOf _ l).mpr ⟨hl, ha⟩)]
  simp only [fpOp, flagOp, laneRes, hv, hall, hbad]

/-! ### Control words (09 R190) -/

section
variable {s : State} {i : Instr} {sc : BitVec 2} {b d : BitVec 7} {ok : Word → Bool} {lat : Nat} {F : State → Did}

theorem controlWords_ok (h : ∀ l ∈ lanesOf s.cur.lanes, ok (s.val b.toNat l) = true) (body : Did) :
    s.controlWords b ok body = body := by
  have hnone : ((lanesOf s.cur.lanes).find? fun l => !ok (s.val b.toNat l)) = none :=
    List.find?_eq_none.mpr fun l hl => by simp [h l hl]
  simp only [controlWords, hnone]

/-- A word that is not one of the instruction's raises ENCODING. -/
theorem controlWords_trap (hx : exec i s = .next (s.issue i sc fun s => s.controlWords b ok (F s))) (hr : s.Runs i)
    (hbad : ∃ l < 32, s.cur.lanes.getLsbD l = true ∧ ok (s.val b.toNat l) = false) :
    ∃ l, l < 32 ∧ s.cur.lanes.getLsbD l = true ∧ ok (s.val b.toNat l) = false ∧
      exec i s = .next (s.syncTrap (s.encTrap .controlWord (s.val b.toNat l))) := by
  cases hf : (lanesOf s.cur.lanes).find? fun l => !ok (s.val b.toNat l) with
  | none =>
    obtain ⟨l, hl, ha, hbl⟩ := hbad
    have := List.find?_eq_none.mp hf l ((mem_lanesOf _ l).mpr ⟨hl, ha⟩)
    simp [hbl] at this
  | some l =>
    obtain ⟨hl, ha⟩ := (mem_lanesOf _ l).mp (List.mem_of_find?_eq_some hf)
    have hbl := List.find?_some hf
    have hb : s.controlWords b ok (F s) = .trap s (s.encTrap .controlWord (s.val b.toNat l)) := by
      simp only [controlWords, hf]
    exact ⟨l, hl, ha, by simpa using hbl, exec_trap hx hr hb⟩

/-- With good words, a body that gives one result to the lanes of Active. -/
theorem gives_controlled {f : Nat → Word} (hx : exec i s = .next (s.issue i sc fun s => s.controlWords b ok (F s)))
    (h : ∀ l ∈ lanesOf s.cur.lanes, ok (s.val b.toNat l) = true) (hF : F s = s.laneOp lat d f) :
    s.Gives i sc [s.result lat .lane d.toNat f] :=
  gives_results (hold := none) (rs := [s.laneRes .lane d.toNat f]) hx ((controlWords_ok h _).trans hF) rfl

/-- The same of one that sets flags. -/
theorem gives_controlled_fp {f : Nat → Word × Word}
    (hx : exec i s = .next (s.issue i sc fun s => s.controlWords b ok (F s)))
    (h : ∀ l ∈ lanesOf s.cur.lanes, ok (s.val b.toNat l) = true)
    (hF : F s = s.fpOp lat d fun l => ((f l).1.toNat, (f l).2)) :
    s.GivesFlags i sc lat [s.result lat .lane d.toNat fun l => (f l).1] fun l => (f l).2 :=
  gives_flags (hold := none) (rs := [s.laneRes .lane d.toNat fun l => (f l).1]) hx
    (by rw [controlWords_ok h, hF, fpOp]; simp only [BitVec.ofNat_toNat, BitVec.setWidth_eq]; rfl) rfl

/-- REDX and SCAN set flags where the word of some group, `word`, selects the floating-point sum. -/
theorem gives_cross {word : Nat → Nat} {f g : Nat → Word × Word}
    (hx : exec i s = .next (s.issue i sc fun s => s.controlWords b ok (F s)))
    (h : ∀ l ∈ lanesOf s.cur.lanes, ok (s.val b.toNat l) = true)
    (hF : F s = if (lanesOf s.cur.lanes).any fun l => word l = 8 then s.fpOp lat d fun l => ((f l).1.toNat, (f l).2)
      else s.laneOp lat d fun l => (f l).1)
    (hf : ∀ l ∈ lanesOf s.cur.lanes, f l = g l) :
    ((∀ l < 32, s.cur.lanes.getLsbD l = true → word l ≠ 8) →
      s.Gives i sc [s.result lat .lane d.toNat fun l => (g l).1]) ∧
    ((∃ l < 32, s.cur.lanes.getLsbD l = true ∧ word l = 8) →
      s.GivesFlags i sc lat [s.result lat .lane d.toNat fun l => (g l).1] fun l => (g l).2) := by
  have hany : ((lanesOf s.cur.lanes).any fun l => word l = 8) = true ↔
      ∃ l < 32, s.cur.lanes.getLsbD l = true ∧ word l = 8 := by
    simp only [List.any_eq_true, mem_lanesOf, decide_eq_true_eq, and_assoc]
  refine ⟨fun hint => gives_controlled hx h ?int, fun hsum => gives_controlled_fp hx h ?sum⟩
  case int =>
    rw [hF, if_neg fun h8 => ?_]
    · exact laneOp_congr lat d fun l hl => by rw [hf l hl]
    · obtain ⟨l, hl, ha, hw⟩ := hany.mp h8
      exact hint l hl ha hw
  case sum =>
    rw [hF, if_pos (hany.mpr hsum)]
    exact fpOp_congr lat d fun l hl => by rw [hf l hl]

end
end State

/-! ### SCAN's running value (09 R194) -/

section
variable (f : Word → Word → Word × Word) (x : Nat → Word)

/-- A lane's own step after the lanes before it: the value and the flags. -/
def ownStep (before : Option Word) (l : Nat) : Word × Word :=
  match before with
  | none => (x l, 0)
  | some u => f u (x l)

/-- The lanes of a list combined in its order. -/
def combined (js : List Nat) : Option Word := js.foldl (fun u j => some (ownStep f x u j).1) none

theorem combined_cons (y : Nat) (ys : List Nat) :
    combined f x (y :: ys) = some (ys.foldl (fun u j => (f u (x j)).1) (x y)) := by
  have h : ∀ (js : List Nat) (u : Word), js.foldl (fun u j => some (ownStep f x u j).1) (some u) =
      some (js.foldl (fun u j => (f u (x j)).1) u) := by
    intro js
    induction js with
    | nil => exact fun _ => rfl
    | cons j js ih => exact fun u => ih _
  exact h ys (x y)

/-- What SCAN does at lane j on its way to lane l: lanes behind l leave it as it is. -/
def scanStep (l : Nat) (acc : Option Word × Word × Word) (j : Nat) : Option Word × Word × Word :=
  if l < j then acc else (if j = l then acc.1 else some (ownStep f x acc.1 j).1, ownStep f x acc.1 j)

theorem scanTo_eq_foldl (l : Nat) (js : List Nat) : scanTo f x l js = js.foldl (scanStep f x l) (none, 0, 0) := by
  refine List.foldl_ext _ _ _ fun acc j _ => ?_
  obtain ⟨_ | u, v⟩ := acc <;> simp only [scanStep, ownStep] <;> split_ifs <;> rfl

theorem scanFold_behind {l : Nat} {js : List Nat} (h : ∀ j ∈ js, l < j) (acc : Option Word × Word × Word) :
    js.foldl (scanStep f x l) acc = acc := by
  induction js with
  | nil => rfl
  | cons j js ih =>
    rw [List.forall_mem_cons] at h
    rw [List.foldl_cons, scanStep, if_pos h.1, ih h.2]

theorem scanFold_before {l : Nat} {js : List Nat} (h : ∀ j ∈ js, j < l) (acc : Option Word × Word × Word) :
    (js.foldl (scanStep f x l) acc).1 = js.foldl (fun u j => some (ownStep f x u j).1) acc.1 := by
  induction js generalizing acc with
  | nil => rfl
  | cons j js ih =>
    rw [List.forall_mem_cons] at h
    rw [List.foldl_cons, List.foldl_cons, ih h.2, scanStep, if_neg h.1.asymm, if_neg h.1.ne]

/-- In rising lanes SCAN finds, at a lane of the list, the lanes before it combined and the lane's own step. -/
theorem scanTo_eq {l : Nat} {js : List Nat} (hs : js.Pairwise (· < ·)) (hl : l ∈ js) :
    scanTo f x l js = (combined f x (js.filter fun j => j < l), ownStep f x (combined f x (js.filter fun j => j < l)) l) := by
  obtain ⟨pre, post, rfl⟩ := List.append_of_mem hl
  obtain ⟨-, hlp, hpre⟩ := List.pairwise_append.mp hs
  obtain ⟨hpost, -⟩ := List.pairwise_cons.mp hlp
  have hbefore : ∀ j ∈ pre, j < l := fun j hj => hpre j hj l (by simp)
  have hfilter : (pre ++ l :: post).filter (fun j => j < l) = pre := by
    rw [List.filter_append, List.filter_eq_self.mpr (by simpa using hbefore), List.filter_eq_nil_iff.mpr, List.append_nil]
    simpa using fun j hj => (hpost j hj).le
  rw [hfilter, scanTo_eq_foldl, List.foldl_append, List.foldl_cons, scanFold_behind f x hpost, scanStep, if_neg (lt_irrefl l),
    if_pos rfl, scanFold_before f x hbefore]
  rfl

end

/-! ### The words -/

/-- Settles O11: the first word that is not one of the instruction's stops it (`controlWords_trap`). -/
theorem controlWordTraps : Obligations.ControlWordTraps := by
  intro s sc gw d a b i ok hi
  simp only [List.mem_cons, Prod.mk.injEq, List.not_mem_nil, or_false] at hi
  rcases hi with ⟨rfl, rfl⟩ | ⟨rfl, rfl⟩ | ⟨rfl, rfl⟩ | ⟨rfl, rfl⟩ | ⟨rfl, rfl⟩ | ⟨rfl, rfl⟩ <;>
    exact State.controlWords_trap rfl

/-! ### MATCH.b64 under REP (08 R155) -/

/-- MATCH of width 8 into v8, from the pair v16:v17 with the control words of v24. -/
def matchPair : Instr := .matchLanes 0#2 0#2 8#7 16#7 24#7

/-- Its first of two repeats that step A: lane 1 is active, and its control word 1 selects .b64. -/
def matchPairRepeated : State :=
  { State.reset with cur := { lanes := 2#32, rep := some (2, 2#3) } }.updMe fun w =>
    { w with blocks := [(0, 0), (1, 1)], lreg := [(24 * 32 + 1, 1#32)], trap := { w.trap with tvec := 0x1000#32 } }

theorem matchPairRepeated_runs : matchPairRepeated.Runs matchPair := by
  unfold State.Runs; decide +kernel

/-- REP cannot step a register pair: the repeat raises ENCODING, and no result is pending after it. -/
theorem matchPairRepeated_traps : ∃ t : TrapInfo, exec matchPair matchPairRepeated = .next (matchPairRepeated.syncTrap t) ∧
    t.group = grpEncoding ∧ t.code = EncReason.repeated.code * 256 ∧
    (matchPairRepeated.meIn (matchPairRepeated.syncTrap t)).pend = [] :=
  ⟨_, State.exec_trap (sc := 0#2) (body := matchBody 0#2 8#7 16#7 24#7) rfl matchPairRepeated_runs rfl, rfl, rfl,
    by decide +kernel⟩

/-- Refutes O9: a REP that steps the pair of MATCH.b64 raises ENCODING (`matchPairRepeated_traps`), where the statement has
it leave a pending result. -/
theorem not_crossLaneResults : ¬ Obligations.CrossLaneResults := by
  intro h
  obtain ⟨-, -, -, -, hwide⟩ := h matchPairRepeated 0#2 0#2 8#7 16#7 24#7 (by decide)
  have hwords : ∀ l < 32, matchPairRepeated.cur.lanes.getLsbD l = true → matchPairRepeated.val 24 l = 1#32 := by decide +kernel
  obtain ⟨t, ht, issued⟩ := hwide hwords (by decide) (by decide) (by decide) (by decide +kernel) (by decide +kernel)
    matchPairRepeated_runs
  obtain ⟨info, htrap, -, -, hpend⟩ := matchPairRepeated_traps
  obtain rfl : t = matchPairRepeated.syncTrap info := Host.Outcome.next.inj (ht.symm.trans htrap)
  rw [issued.warp] at hpend
  simp at hpend

/-- Settles O10: REDX's slots and SCAN's lanes are those of the group (`groupLanes_eq`), and SCAN's running value is the
lanes before combined in order (`scanTo_eq`). -/
theorem reduceAndScanResults : Obligations.ReduceAndScanResults := by
  intro s sc gw d a b _ g A S word op slots red before incl scan
  have hS : ∀ l, s.groupLanes (State.groupWidth gw) l = S l := s.groupLanes_eq (State.groupWidth_pos gw)
  have hword : ∀ (P : Nat → Prop), (∀ l < 32, s.cur.lanes.getLsbD l = true → P (s.val b.toNat l).toNat) →
      ∀ l ∈ lanesOf s.cur.lanes, P (word l) := by
    intro P h l hl
    have hh := State.groupHead_active (State.groupWidth gw) hl
    rw [hS, mem_lanesOf] at hh
    exact h _ hh.1 hh.2
  refine ⟨fun hok => ?redx, fun hok => ?scan⟩
  case redx =>
    refine State.gives_cross (word := word) (f := fun l => treeReduce (crossOp (word l) s.rm s.sub) (3 + gw.toNat) (slots l))
      rfl (fun l hl => ?ok) ?body fun l hl => ?value
    case ok =>
      obtain ⟨hl, ha⟩ := (mem_lanesOf _ l).mp hl
      simpa [redxWord] using hok l hl ha
    case body =>
      simp only [State.groupWord, State.groupBase_eq, hS]; rfl
    case value =>
      have := hword (· ≤ 10) hok l hl
      simp only [red, op, Nat.mod_eq_of_lt (show word l < 16 by omega)]
  case scan =>
    let runs (l : Nat) := scanTo (op l) A l (S l)
    refine State.gives_cross (word := fun l => word l % 16) (f := fun l =>
        (if (word l).testBit 4 then (runs l).1.getD (crossIdentity (word l % 16)) else (runs l).2.1, (runs l).2.2))
      rfl (fun l hl => ?ok) ?body fun l hl => ?value
    case ok =>
      obtain ⟨hl, ha⟩ := (mem_lanesOf _ l).mp hl
      simpa [scanWord] using hok l hl ha
    case body =>
      simp only [State.groupWord, hS]; rfl
    case value =>
      obtain ⟨h32, -⟩ := hword (fun n => n < 32 ∧ n % 16 ≤ 10) hok l hl
      have hbit : (word l).testBit 4 = true ↔ 16 ≤ word l := by
        rw [Nat.testBit_eq_decide_div_mod_eq, decide_eq_true_eq]; omega
      have hself : l ∈ S l := hS l ▸ State.mem_groupLanes_self _ hl
      have hrise : (S l).Pairwise (· < ·) := hS l ▸ State.groupLanes_ascending s _ l
      have hbefore : combined (op l) A ((S l).filter fun j => j < l) = before l := by
        simp only [before]
        cases (S l).filter fun j => j < l with
        | nil => rfl
        | cons y ys => exact combined_cons (op l) A y ys
      have hown : ownStep (op l) A (before l) l = incl l := by
        simp only [incl]
        cases before l <;> rfl
      have hruns : runs l = (before l, incl l) := by
        rw [← hown, ← hbefore]; exact scanTo_eq (op l) A hrise hself
      simp only [hruns, hbit, scan]

/-- Settles O12: QNT's blocks are the lane groups (`groupLanes_eq`). -/
theorem quantiseResults : Obligations.QuantiseResults := by
  intro s sc w y d a _ g S blk
  have hS : ∀ l, s.groupLanes (State.groupWidth w) l = S l := s.groupLanes_eq (State.groupWidth_pos w)
  refine State.gives_results (rs := [{ s.laneRes .lane d.toNat (fun l =>
      BitVec.ofNat 32 ((blk l).2.1 * 2 ^ 8 + (blk l).1.getD ((S l).idxOf l) 0)) with
      qstat := s.orLanes fun l => (blk l).2.2 }]) rfl ?_ rfl
  simp only [hS]
  rfl

end Sys2Proof.Machine
end

section
/-! PROOFS (10 R209, R210, R212, R214, R216; 11 R226; 20 R370): branches, register targets, EXIT and YLD. -/

namespace Sys2Proof.Machine
namespace Warp

/-- Whether a warp has ended is said by the states of its lanes. -/
theorem ended_congr {w v : Warp} (h : ∀ l < 32, (w.lane l).state = (v.lane l).state) : w.ended = v.ended := by
  have hmask : w.lanesIn .exited = v.lanesIn .exited :=
    BitVec.eq_of_getLsbD_eq fun l hl => by rw [getLsbD_lanesIn, getLsbD_lanesIn, h l hl]
  rw [ended, ended, hmask]

/-- R28 moves parked lanes alone. -/
theorem lane_release_of_exited {w : Warp} {l : Nat} (h : (w.lane l).state = .exited) : w.release.lane l = w.lane l := by
  unfold release
  dsimp only
  split
  · rfl
  · rw [lane_updLanes, getLsbD_lanesIn, h]
    simp

theorem lane_leaveHandler_of_exited {w : Warp} {l : Nat} (h : (w.lane l).state = .exited) :
    w.leaveHandler.lane l = w.lane l := lane_release_of_exited (w := w.updTrap fun t => { t with inHandler := false }) h

/-- Leaving a REP sequence changes only what is known of the sequence. -/
theorem leaveRep_eq (w : Warp) (m : Mask) : w.leaveRep m = { w with uni := (w.leaveRep m).uni } := by
  unfold leaveRep
  split
  · split <;> rfl
  · rfl

/-- The lanes of a mask have left the warp: their stacks are gone, and so is their part of a REP sequence. -/
def without (w : Warp) (m : Mask) : Warp := (w.updLanes m fun _ _ => {}).leaveRep m

theorem lane_without (w : Warp) (m : Mask) {l : Nat} (hl : l < 32) :
    (w.without m).lane l = if m.getLsbD l = true then {} else w.lane l := by
  have hlanes : (w.without m).lane l = (w.updLanes m fun _ _ => {}).lane l := by rw [without, leaveRep_eq]; rfl
  rw [hlanes, lane_updLanes]
  simp [hl]

theorem without_trap (w : Warp) (m : Mask) : (w.without m).trap = w.trap := by
  rw [without, leaveRep_eq]
  exact updLanes_trap ..

/-- EXIT of some lanes (10 R214; 20 R368): a handler of which no lane is left ends, and R28 is evaluated. -/
def exitLanes (w : Warp) (m : Mask) : Warp :=
  let v := w.without m
  (if v.trap.inHandler && (v.lanesIn .exited &&& v.trap.tmask) = v.trap.tmask then v.leaveHandler else v).release

theorem lane_exitLanes_exited (w : Warp) {m : Mask} {l : Nat} (hl : l < 32) (hm : m.getLsbD l = true) :
    (w.exitLanes m).lane l = {} := by
  have hout : (w.without m).lane l = {} := by rw [lane_without _ _ hl, if_pos hm]
  have hexited : ((w.without m).lane l).state = .exited := by rw [hout]
  unfold exitLanes
  dsimp only
  split
  · rw [lane_release_of_exited (by rw [lane_leaveHandler_of_exited hexited, hexited]), lane_leaveHandler_of_exited hexited, hout]
  · rw [lane_release_of_exited hexited, hout]

/-- Where another lane can still run, and no handler ends, the lanes that stay are as they were. -/
theorem lane_exitLanes_other {w : Warp} {m : Mask} (hin : w.trap.inHandler = false)
    (hrun : ∃ l < 32, m.getLsbD l = false ∧ (w.lane l).state = .runnable) {l : Nat} (hl : l < 32) (hm : m.getLsbD l = false) :
    (w.exitLanes m).lane l = w.lane l := by
  obtain ⟨j, hj, hjm, hjr⟩ := hrun
  have hstays : ∀ i < 32, m.getLsbD i = false → (w.without m).lane i = w.lane i := fun i hi him => by
    rw [lane_without _ _ hi, if_neg (by simp [him])]
  have hno : (w.without m).trap.inHandler = false := by rw [without_trap, hin]
  simp only [exitLanes, hno, Bool.false_and, Bool.false_eq_true, if_false]
  rw [release_of_runnable _ hj (by rw [hstays j hj hjm, hjr]), hstays l hl hm]

end Warp
namespace State

/-! ### Branches -/

theorem exec_nop (sc : BitVec 2) (s : State) : exec (.nop sc) s = .next (s.issue (.nop sc) sc fun s => .done s .fall) := rfl
theorem exec_bra (sc : BitVec 2) (i : BitVec 14) (s : State) :
    exec (.bra sc i) s = .next (s.issue (.bra sc i) sc fun s => .done s (.goto fun _ => s.laneTarget i)) := rfl
theorem exec_brp (sc : BitVec 2) (n : BitVec 1) (p : BitVec 3) (i : BitVec 14) (s : State) :
    exec (.brp sc n p i) s = .next (s.issue (.brp sc n p i) sc fun s =>
      .done s (.goto fun l => if s.me.p p.toNat l != (n = 1#1) then s.laneTarget i else s.fallThrough)) := rfl
theorem exec_jmpi (sc : BitVec 2) (a : BitVec 7) (s : State) :
    exec (.jmpi sc a) s = .next (s.issue (.jmpi sc a) sc fun s => match s.badTargets a with
      | l :: _ => .trap s (s.targetTrap a l)
      | [] => .done s (.goto fun l => s.val a.toNat l)) := rfl
theorem exec_sbra (sc : BitVec 2) (o : BitVec 22) (s : State) :
    exec (.sbra sc o) s = .next (s.issue (.sbra sc o) sc fun s => .done s (.goto fun _ => relTarget s.cur.pc o.toInt)) := rfl
theorem exec_sbrp (sc : BitVec 2) (n : BitVec 1) (p : BitVec 2) (i : BitVec 16) (s : State) :
    exec (.sbrp sc n p i) s = .next (s.issue (.sbrp sc n p i) sc fun s => .done s (.goto fun _ =>
      if s.me.sp p.toNat != (n = 1#1) then relTarget s.cur.pc i.toInt else s.fallThrough)) := rfl

/-- A branch with N = 0 is taken where its predicate is set, one with N = 1 where it is not (10 R210; 11 R226). -/
theorem branch_sense (p : Bool) (n : BitVec 1) : (p != decide (n = 1#1)) = true ↔ (p = true) = (n = 0#1) := by
  rcases BitVec.eq_zero_or_eq_one n with rfl | rfl <;> cases p <;> decide

/-- Settles O15: each branch by its targets; one with a predicate by the sense that its word asks for. -/
theorem branchResults : Obligations.BranchResults := by
  intro s sc p2 n p a i j o P next rel goes
  refine ⟨does (exec_nop ..) rfl rfl, does (exec_bra ..) rfl rfl, ?taken, ?notTaken, does (exec_sbra ..) rfl rfl, ?scalar,
    fun halign => ?register⟩
  case taken =>
    refine does_congr rfl (fun l _ _ => ?_) (does (exec_brp ..) rfl rfl)
    cases s.me.p p.toNat l <;> rfl
  case notTaken =>
    refine does_congr rfl (fun l _ _ => ?_) (does (exec_brp ..) rfl rfl)
    cases s.me.p p.toNat l <;> rfl
  case scalar =>
    exact does_congr rfl (fun l _ _ => if_congr (branch_sense ..) rfl rfl) (does (exec_sbrp ..) rfl rfl)
  case register =>
    refine does (f := .goto (s.val a.toNat)) (exec_jmpi ..) ?_ rfl
    simp only [badTargets_eq_nil halign]

/-! ### Misaligned register targets -/

theorem and_three_eq_zero (x : Word) : x &&& 3#32 = 0#32 ↔ x.toNat % 4 = 0 := by
  rw [← BitVec.toNat_inj, BitVec.toNat_and]
  exact iff_of_eq (congrArg (· = 0) (Nat.and_two_pow_sub_one_eq_mod x.toNat 2))

theorem mem_badTargets {s : State} {a : BitVec 7} {l : Nat} :
    l ∈ s.badTargets a ↔ l < 32 ∧ s.cur.lanes.getLsbD l = true ∧ (s.val a.toNat l).toNat % 4 ≠ 0 := by
  simp [badTargets, mem_lanesOf, and_three_eq_zero, and_assoc]

/-- The least element of an ascending list is its first. -/
theorem eq_cons_of_ascending {xs : List Nat} {l : Nat} (hs : xs.Pairwise (· < ·)) (hl : l ∈ xs) (hle : ∀ k ∈ xs, l ≤ k) :
    ∃ ls, xs = l :: ls := by
  cases xs with
  | nil => cases hl
  | cons x xs =>
    refine ⟨xs, congrArg (· :: xs) (Nat.le_antisymm ?_ (hle x (List.mem_cons_self ..)))⟩
    rcases List.mem_cons.mp hl with rfl | hl
    · exact Nat.le_refl _
    · exact ((List.pairwise_cons.mp hs).1 l hl).le

section
variable {s : State} {a : BitVec 7} {l : Nat} (hl : l < 32) (ha : s.cur.lanes.getLsbD l = true)
  (hbad : (s.val a.toNat l).toNat % 4 ≠ 0) (hlow : ∀ k < l, s.cur.lanes.getLsbD k = true → (s.val a.toNat k).toNat % 4 = 0)
include hl ha hbad hlow

/-- The lowest misaligned target heads the list of them. -/
theorem badTargets_lowest : ∃ ls, s.badTargets a = l :: ls := by
  refine eq_cons_of_ascending ((lanesOf_ascending _).filter _) (mem_badTargets.mpr ⟨hl, ha, hbad⟩) fun k hk => ?_
  obtain ⟨-, hka, hkbad⟩ := mem_badTargets.mp hk
  exact Nat.le_of_not_lt fun hkl => hkbad (hlow k hkl hka)

theorem calli_traps {sc : BitVec 2} (hr : s.Runs (.calli sc a)) :
    exec (.calli sc a) s = .next (s.syncTrap (s.targetTrap a l)) := by
  obtain ⟨ls, hls⟩ := badTargets_lowest hl ha hbad hlow
  refine exec_trap (exec_calli ..) hr ?_
  unfold calliBody
  rw [hls]

theorem jmpi_traps {sc : BitVec 2} (hr : s.Runs (.jmpi sc a)) :
    exec (.jmpi sc a) s = .next (s.syncTrap (s.targetTrap a l)) := by
  obtain ⟨ls, hls⟩ := badTargets_lowest hl ha hbad hlow
  refine exec_trap (exec_jmpi ..) hr ?_
  simp only [hls]

theorem spawn_traps {sc : BitVec 2} {b : BitVec 7} (hr : s.Runs (.spawn sc a b)) :
    exec (.spawn sc a b) s = .next (s.syncTrap
      (s.trapLane grpSpawn 0x1000 l (maskOf fun n => (s.badTargets a).contains n) (s.val a.toNat l))) := by
  obtain ⟨ls, hls⟩ := badTargets_lowest hl ha hbad hlow
  refine exec_trap (exec_spawn ..) hr ?_
  unfold spawnBody
  rw [hls]

end

/-- The lanes that SPAWN's trap names. -/
theorem getLsbD_badMask (s : State) (a : BitVec 7) {k : Nat} (hk : k < 32) :
    (maskOf fun n => (s.badTargets a).contains n).getLsbD k = true ↔
      s.cur.lanes.getLsbD k = true ∧ (s.val a.toNat k).toNat % 4 ≠ 0 := by
  rw [getLsbD_maskOf, List.contains_eq_mem, Bool.and_eq_true, decide_eq_true_eq, decide_eq_true_eq, mem_badTargets]
  simp [hk]

/-- Settles O16: the first misaligned target is the lowest lane's (`badTargets_lowest`), and its instruction traps there. -/
theorem targetTraps : Obligations.TargetTraps := by
  intro s sc a b l hl ha hbad hlow
  refine ⟨fun i hi hr => ?_, fun hr => ⟨_, fun k hk => getLsbD_badMask s a hk, spawn_traps hl ha hbad hlow hr⟩⟩
  simp only [List.mem_cons, List.not_mem_nil, or_false] at hi
  rcases hi with rfl | rfl
  · exact calli_traps hl ha hbad hlow hr
  · exact jmpi_traps hl ha hbad hlow hr

/-! ### EXIT and YLD -/

theorem exec_exit (sc : BitVec 2) (s : State) : exec (.exit sc) s =
    .next ((s.issue (.exit sc) sc fun s => .done (s.exitLanes s.cur.core s.cur.slot s.cur.lanes) .stay).reap
      s.cur.core s.cur.slot) := rfl
theorem exec_yld (sc : BitVec 2) (s : State) : exec (.yld sc) s = .next (s.issue (.yld sc) sc fun s =>
    .done ((s.updCore s.cur.core fun x => { x with nextAge := x.nextAge + 1 }).updMe fun w =>
      { w with sched := { w.sched with age := (s.core s.cur.core).nextAge } }) .fall) := rfl

theorem exitLanes_eq (s : State) : s.exitLanes s.cur.core s.cur.slot s.cur.lanes = s.updMe fun w => w.exitLanes s.cur.lanes := rfl

/-- What EXIT leaves of its warp. -/
def exited (s : State) : State := s.updMe fun w => w.exitLanes s.cur.lanes

theorem exec_exit_done {s : State} {sc : BitVec 2} (hr : s.Runs (.exit sc)) :
    exec (.exit sc) s = .next ((s.exited.complete sc .stay).reap s.cur.core s.cur.slot) := by
  rw [exec_exit, issue_done hr rfl]
  rfl

/-- The warp has ended after the issue where its effect ended it. -/
theorem exited_complete_ended (s : State) (sc : BitVec 2) :
    ((s.exited.complete sc .stay).warp s.cur.core s.cur.slot).ended = s.exited.me.ended := by
  have hafter := s.exited.after_complete sc .stay
  have hin : s.exited.meIn (s.exited.complete sc .stay) = (s.exited.complete sc .stay).warp s.cur.core s.cur.slot := by
    rw [meIn, exited, updMe_cur]
  rw [← hin]
  exact Warp.ended_congr fun l hl => by rw [hafter.lane_stay hl]

theorem reap_lives {s : State} {c k : Nat} (h : (s.warp c k).ended = false ∨ k = fwSlot) : s.reap c k = s :=
  if_neg (by rcases h with h | h <;> simp [h])
theorem reap_ends {s : State} {c k : Nat} (h : (s.warp c k).ended = true) (hk : k ≠ fwSlot) : s.reap c k = s.endWarp c k :=
  if_pos (by simp [h, hk])

/-- Settles O20: what EXIT leaves of each lane is `Warp.exitLanes`, and the warp is reaped where no lane is left. -/
theorem exitAndYield : Obligations.ExitAndYield := by
  intro s sc
  refine ⟨fun hr => ?_, does (exec_yld ..) rfl ?_⟩
  · have hme : s.exited.me = s.me.exitLanes s.cur.lanes := updMe_me ..
    have hended := exited_complete_ended s sc
    refine ⟨s.exited, s.exited.complete sc .stay, rfl, s.exited.after_complete sc .stay, fun h => ?_, fun h hk => ?_,
      updMe_device .., fun c hc => updMe_otherCore _ _ c hc, fun k hk => updMe_otherWarp _ _ k hk, fun l hl ha => ?_, fun hin hrun l hl ha => ?_⟩
    · rw [exec_exit_done hr, reap_lives (by rwa [hended])]
    · rw [exec_exit_done hr, reap_ends (by rwa [hended]) hk]
    · rw [hme, Warp.lane_exitLanes_exited _ hl ha]
      exact ⟨rfl, rfl, rfl⟩
    · rw [hme, Warp.lane_exitLanes_other hin hrun hl ha]
  · simp [flowPc, fallThrough]

end State
end Sys2Proof.Machine
end

section
/-! PROOFS (10 R196, R199 to R204; 11 R225): the checks of a memory word's lanes, and what a word that fails one leaves. -/

namespace Sys2Proof.Machine
namespace State

/-! ### The words -/

theorem exec_ld (sc : BitVec 2) (t : BitVec 3) (d a : BitVec 7) (b : BitVec 5) (c r : BitVec 1) (s : State) :
    exec (.ld sc t d a b c r) s = .next (s.issue (.ld sc t d a b c r) sc (ldBody t d a b c r)) := rfl
theorem exec_st (sc : BitVec 2) (t : BitVec 3) (d a : BitVec 7) (b : BitVec 5) (c : BitVec 1) (s : State) :
    exec (.st sc t d a b c) s = .next (s.issue (.st sc t d a b c) sc (stBody t d a b c)) := rfl
theorem exec_atom (sc : BitVec 2) (d : BitVec 7) (a : BitVec 6) (w : BitVec 1) (o : BitVec 4) (m : BitVec 3) (s : State) :
    exec (.atom sc d a w o m) s = .next (s.issue (.atom sc d a w o m) sc (atomBody d a w o m)) := rfl
theorem exec_cas (sc : BitVec 2) (d : BitVec 7) (a : BitVec 6) (w : BitVec 1) (m : BitVec 3) (s : State) :
    exec (.cas sc d a w m) s = .next (s.issue (.cas sc d a w m) sc (casBody d a w m)) := rfl

/-! ### A word whose lanes access memory at their own addresses -/

/-- The shape of such a word: every lane checked, the walks noted, and `go` on with the accesses. -/
def perLane (s : State) (va : Nat → DWord) (F : Nat → Except AccFail Access) (go : State → List Access → Did) : Did :=
  s.walked ((lanesOf s.cur.lanes).map va) fun w => w.accDo (s.laneAccesses F) go

/-- The state with the walks of the lanes' addresses noted (05 R77). -/
def noted (s : State) (va : Nat → DWord) : State := s.noteWalks ((lanesOf s.cur.lanes).map va)

theorem noted_memStep (s : State) (va : Nat → DWord) : MemStep s (s.noted va) := noteWalks_memStep ..

/-- No walk of the lanes' addresses has to wait. -/
def WalksFree (s : State) (va : Nat → DWord) : Prop :=
  ∀ l ∈ lanesOf s.cur.lanes, s.coreWalkHold s.cur.core s.me.ctx (va l) = none

section
variable {s : State} {va : Nat → DWord} {F : Nat → Except AccFail Access} {go : State → List Access → Did}

/-- One walk that must wait puts the word off. -/
theorem perLane_wait {l : Nat} (hl : l ∈ lanesOf s.cur.lanes)
    (h : (s.coreWalkHold s.cur.core s.me.ctx (va l)).isSome = true) : s.perLane va F go = .wait s := by
  obtain ⟨k, hk⟩ := Option.isSome_iff_exists.mp h
  exact walked_wait (List.mem_map_of_mem hl) hk

variable (hw : s.WalksFree va)
include hw

theorem perLane_walked :
    s.perLane va F go = (s.noted va).accDo (s.laneAccesses F) go :=
  walked_eq (List.forall_mem_map.mpr hw)

theorem perLane_ok {g : Nat → Access} (h : ∀ l ∈ lanesOf s.cur.lanes, F l = .ok (g l)) :
    s.perLane va F go = go (s.noted va) ((lanesOf s.cur.lanes).map g) := by
  rw [perLane_walked hw, laneAccesses_ok s F g h, accDo_ok]

theorem perLane_error {l : Nat} {f : AccFail} (hl : l ∈ lanesOf s.cur.lanes) (hf : F l = .error f)
    (h : ∀ j ∈ lanesOf s.cur.lanes, j < l → ∃ a, F j = .ok a) :
    s.perLane va F go = .trap (s.noted va) (s.accTrap l f) := by
  rw [perLane_walked hw, laneAccesses_error s F l f hl hf h, accDo_error, accTrap, (noted_memStep ..).cur]
  rfl

theorem perLane_traps {i : Instr} {sc : BitVec 2} {body : State → Did} (hx : exec i s = .next (s.issue i sc body))
    (hb : body s = s.perLane va F go) {l : Nat} {f : AccFail} (hl : l ∈ lanesOf s.cur.lanes) (hf : F l = .error f)
    (h : ∀ j ∈ lanesOf s.cur.lanes, j < l → ∃ a, F j = .ok a) (hr : s.Runs i) :
    exec i s = .next ((s.noted va).syncTrap (s.accTrap l f)) :=
  exec_trap hx hr (hb.trans (perLane_error hw hl hf h))

end

section
variable (s : State) (t : BitVec 3) (d a : BitVec 7) (b : BitVec 5) (c r w : BitVec 1) (u : BitVec 6)

theorem ldBody_eq : ldBody t d a b c r s =
    s.perLane (s.globalAddr a b c (loadSize t.toNat)) (s.ldLane t d a b c r) fun e as => e.load t d as := rfl
theorem stBody_eq : stBody t d a b c s =
    s.perLane (s.globalAddr a b c (2 ^ t.toNat)) (s.stLane t d a b c) fun e as =>
      .done (e.request .store as .lane 0 0 0) .fall := rfl
theorem atomBody_eq (o : BitVec 4) (m : BitVec 3) : atomBody d u w o m s =
    s.perLane (s.laneAddr u) (s.atomLane d u w) fun e as => e.afterRelease m.toNat fun e =>
      .done (e.request (.atom o.toNat (w = 1#1)) as .lane d.toNat (1 + w.toNat) m.toNat) .fall := rfl
theorem casBody_eq (m : BitVec 3) : casBody d u w m s =
    s.perLane (s.laneAddr u) (s.casLane d u w) fun e as => e.afterRelease m.toNat fun e =>
      .done (e.request (.cas (w = 1#1)) as .lane d.toNat (1 + w.toNat) m.toNat) .fall := rfl

end

end State
end Sys2Proof.Machine
end

section
/-! PROOFS (10 R196, R199 to R206; 11 R225; 05 R81): memory words whose checks pass become requests. -/

namespace Sys2Proof.Machine
namespace State

/-! ### Requests leave the running instruction as it is -/

@[simp] theorem ask_cur (s : State) (op : MemOp) (as : List Access) (file : RegFile) (dest words scope : Nat) (lanes : Mask)
    (keep : Option Kept) : (s.ask op as file dest words scope lanes keep).cur = s.cur := by rw [ask_eq]
@[simp] theorem request_cur (s : State) (op : MemOp) (as : List Access) (file : RegFile) (dest words scope : Nat) :
    (s.request op as file dest words scope).cur = s.cur := by
  unfold request
  dsimp only
  split
  · exact foldl_cur _ _ (fun _ _ => ask_cur ..) _
  · rw [holdUnit, updCore_cur]
    exact foldl_cur _ _ (fun _ _ => ask_cur ..) _

/-- A word whose effect keeps the running instruction goes on behind its unit. -/
theorem doesFall_of_cur {s t : State} {i : Instr} {sc : BitVec 2} {body : State → Did}
    (hx : exec i s = .next (s.issue i sc body)) (hb : body s = .done t .fall) (hc : t.cur = s.cur) : s.DoesFall i sc t :=
  does hx hb (by simp only [flowPc, fallThrough, hc])

/-! ### Loads (10 R200; 05 R81) -/

/-- The registers that a load of type code `t` writes where it expands no B4 elements. -/
def plainWords (t : BitVec 3) : Nat := if t = 6#3 then 4 else if t = 5#3 then 2 else 1

/-- Nothing stops a load of B4 elements from writing the second register of its pair: none of its lanes waits for a
result there, its block is mapped, and MODE.SCC finds no result that pends. -/
structure PairFree (s : State) (next : Nat) : Prop where
  var : ∀ v ∈ s.me.var, v.file = .lane → v.num = next → v.lanes &&& s.cur.lanes = 0#32
  mapped : s.me.mapped (next / 16) = true
  stall : s.cur.mode.getLsbD 4 = true → pendingUntil s.me s.cur.lanes .lane next = none

theorem PairFree.of_memStep {s e : State} {next : Nat} (h : s.PairFree next) (he : MemStep s e) : e.PairFree next :=
  ⟨by rw [he.me, he.cur]; exact h.var, by rw [he.me]; exact h.mapped, by rw [he.me, he.cur]; exact h.stall⟩

/-- What a load keeps of its issue, to trap with once its flags are known. -/
def keptIssue (s : State) : Kept :=
  { enables := s.enables, lanes := s.cur.lanes, pc := s.cur.pc, len := s.cur.pos + 1
    reps := (s.cur.rep.map Prod.fst).getD 0, word := s.cur.word }

/-- A load of B4 elements whose group stays until its flags are known. -/
def keepLoad (s : State) (d : BitVec 7) (as : List Access) (lanes : Mask) (kept : Kept) : State :=
  (s.ask (.load 7) as .lane d.toNat 2 0 lanes (some kept)).updMe fun w =>
    { w with sched := { w.sched with atHome := w.sched.atHome ++ [(s.nextReq, lanes)] } }

section
variable {s : State} {t : BitVec 3} {d : BitVec 7} {as : List Access}

theorem load_plain (h : t = 7#3 → ∀ a ∈ as, a.fmt ≠ fmtB4) :
    s.load t d as = .done (s.request (.load t.toNat) as .lane d.toNat (plainWords t) 0) .fall := by
  have hn : loadWords t as = plainWords t := by
    unfold loadWords plainWords
    by_cases h7 : t = 7#3
    · have hany : (as.any fun a => a.fmt = fmtB4) = false := by simpa using h h7
      simp [h7, hany]
    · simp [h7]
  have hpair : ¬ (t = 7#3 && decide (loadWords t as = 2)) = true := by
    rw [hn]
    by_cases h7 : t = 7#3 <;> simp [h7, plainWords]
  unfold load
  dsimp only
  rw [if_neg hpair, hn]

variable (hb4 : ∃ a ∈ as, a.fmt = fmtB4) (hfree : s.PairFree (d.toNat + 1))
include hb4 hfree

theorem load_pair : s.load 7#3 d as =
    if s.enables = 0#32 then .done (s.request (.load 7) as .lane d.toNat 2 0) .fall
    else .done (s.keepLoad d as s.cur.lanes s.keptIssue) .stay := by
  have hn : loadWords 7#3 as = 2 := by
    have hany : (as.any fun a => a.fmt = fmtB4) = true := by simpa using hb4
    simp [loadWords, hany]
  have hvar : ¬ (s.me.var.any fun v => v.file = .lane && v.num = d.toNat + 1 && v.lanes &&& s.cur.lanes != 0#32) = true := by
    simp only [List.any_eq_true, Bool.and_eq_true, decide_eq_true_eq, bne_iff_ne, not_exists, not_and, not_not]
    exact fun v hv hf => hfree.var v hv hf.1 hf.2
  have hstall : (if s.cur.mode.getLsbD 4 then pendingUntil s.me s.cur.lanes .lane (d.toNat + 1) else none) = none := by
    split
    next hm => exact hfree.stall hm
    next => rfl
  unfold load
  dsimp only
  rw [hn, if_pos (by decide), if_neg hvar, if_neg (by simp [hfree.mapped]), hstall]
  dsimp only
  rw [keepAtHome, ask_cur]
  rfl

/-- A word that comes to such a load by steps of the memory system goes on, or stays where a condition is enabled. -/
theorem load_pair_does {e : State} {i : Instr} {sc : BitVec 2} {body : State → Did} (he : MemStep s e)
    (hx : exec i s = .next (s.issue i sc body)) (hb : body s = e.load 7#3 d as) :
    (s.enables = 0#32 → s.DoesFall i sc (e.request (.load 7) as .lane d.toNat 2 0)) ∧
    (s.enables ≠ 0#32 → s.Does i sc (e.keepLoad d as s.cur.lanes s.keptIssue) none) := by
  have hen : e.enables = s.enables := by rw [enables, enables, he.cur]
  have hkept : e.keptIssue = s.keptIssue := by rw [keptIssue, keptIssue, hen, he.cur]
  rw [load_pair hb4 (hfree.of_memStep he), hen, hkept, he.cur] at hb
  refine ⟨fun h0 => ?_, fun h0 => ?_⟩
  · rw [if_pos h0] at hb
    exact doesFall_of_cur hx hb ((request_cur ..).trans he.cur)
  · rw [if_neg h0] at hb
    exact does hx hb rfl

end

/-- What a word with a scope has released before it acts (06 R106). -/
def releaseFor (e : State) (c : Nat) (m : BitVec 3) : State := if m = 0#3 then e else e.releaseAt c m.toNat

theorem releaseFor_memStep (e : State) (c : Nat) (m : BitVec 3) : MemStep e (e.releaseFor c m) :=
  MemStep.ite (.refl e) (releaseAt_memStep ..)

theorem afterRelease_free {s e : State} {m : BitVec 3} {go : State → Did} (he : MemStep s e)
    (h : m = 0#3 ∨ e.canRelease s.cur.core s.cur.slot m.toNat = true) :
    e.afterRelease m.toNat go = go (e.releaseFor s.cur.core m) := by
  have hcan : e.canRelease e.cur.core e.cur.slot m.toNat = true := by
    rw [he.cur]
    rcases h with rfl | h
    · rfl
    · exact h
  have hrel : e.releaseFor s.cur.core m = e.releaseAt s.cur.core m.toNat := by
    unfold releaseFor
    split
    next h0 => rw [h0]; rfl
    next => rfl
  rw [afterRelease_can hcan, hrel, he.cur]

/-! ### Global words (10 R196, R199 to R204) -/

theorem globalAddr_eq (s : State) (a : BitVec 7) (b : BitVec 5) (c : BitVec 1) (n l : Nat) : s.globalAddr a b c n l =
    s.me.s64 (2 * b.toNat) + (s.val a.toNat l).setWidth 64 * (if c = 1#1 then BitVec.ofNat 64 n else 1) := by
  unfold globalAddr
  split <;> rfl

/-- The number that a store of size code `t` takes from the registers of a lane. -/
theorem storeData_eq (s : State) (t : BitVec 3) (d : BitVec 7) (l : Nat) : s.storeData t.toNat d l =
    if t = 4#3 then (s.val64 d.toNat l).toNat + (s.val64 (d.toNat + 2) l).toNat * 2 ^ 64
    else if t = 3#3 then (s.val64 d.toNat l).toNat else (s.val d.toNat l).toNat % 2 ^ (8 * 2 ^ t.toNat) := by
  have h4 : t.toNat = 4 ↔ t = 4#3 := BitVec.toNat_inj (y := 4#3)
  have h3 : t.toNat = 3 ↔ t = 3#3 := BitVec.toNat_inj (y := 3#3)
  simp only [storeData, h4, h3, storeSize]

section
variable {s : State} {t : BitVec 3} {d a : BitVec 7} {b : BitVec 5} {c r w : BitVec 1} {u : BitVec 6} {l : Nat}
  {k : Checked × FrtEntry × Nat}

theorem ldLane_plain (h : s.globalAccess kLoad (s.globalAddr a b c (loadSize t.toNat) l) (fun f => loadPair t.toNat f d.toNat)
      false = .ok k) (hfmt : t = 7#3 → k.2.1.fmt ≠ fmtB4) : s.ldLane t d a b c r l =
    .ok (mkAccess l (s.globalAddr a b c (loadSize t.toNat) l) k.1 k.2.1 k.2.2 (r = 1#1) 0) := by
  have hplain : ¬ (t = 7#3 && decide (k.2.1.fmt = fmtB4)) = true := by simpa using hfmt
  unfold ldLane
  dsimp only
  rw [h]
  exact if_neg hplain

theorem stLane_ok (h : s.globalAccess kStore (s.globalAddr a b c (2 ^ t.toNat) l) (fun _ => some (2 ^ t.toNat)) true = .ok k) :
    s.stLane t d a b c l =
      .ok (mkAccess l (s.globalAddr a b c (2 ^ t.toNat) l) k.1 k.2.1 (2 ^ t.toNat) false (s.storeData t.toNat d l)) := by
  unfold stLane
  dsimp only [storeSize]
  rw [h]
  rfl

theorem atomLane_ok (h : s.globalAccess kAtomic (s.laneAddr u l) (fun _ => some (if w = 1#1 then 8 else 4)) true = .ok k) :
    s.atomLane d u w l = .ok (mkAccess l (s.laneAddr u l) k.1 k.2.1 (if w = 1#1 then 8 else 4) false
      (if w = 1#1 then (s.val64 d.toNat l).toNat else (s.val d.toNat l).toNat)) := by
  unfold atomLane
  dsimp only
  rw [h]
  rfl

theorem casLane_ok (h : s.globalAccess kAtomic (s.laneAddr u l) (fun _ => some (if w = 1#1 then 8 else 4)) true = .ok k) :
    s.casLane d u w l = .ok { mkAccess l (s.laneAddr u l) k.1 k.2.1 (if w = 1#1 then 8 else 4) false
        (if w = 1#1 then (s.val64 d.toNat l).toNat else (s.val d.toNat l).toNat) with
      data2 := if w = 1#1 then (s.val64 (d.toNat + 2) l).toNat else (s.val (d.toNat + 1) l).toNat } := by
  unfold casLane
  dsimp only
  rw [h]
  rfl

end

section
variable {s : State} {sc : BitVec 2} {t : BitVec 3} {d a : BitVec 7} {b : BitVec 5} {c r w : BitVec 1} {u : BitVec 6}
  {m : BitVec 3} {g : Nat → Access}

theorem ld_does_plain (hw : s.WalksFree (s.globalAddr a b c (loadSize t.toNat)))
    (h : ∀ l ∈ lanesOf s.cur.lanes, s.ldLane t d a b c r l = .ok (g l))
    (hfmt : t = 7#3 → ∀ l ∈ lanesOf s.cur.lanes, (g l).fmt ≠ fmtB4) :
    s.DoesFall (.ld sc t d a b c r) sc ((s.noted (s.globalAddr a b c (loadSize t.toNat))).request (.load t.toNat)
      ((lanesOf s.cur.lanes).map g) .lane d.toNat (plainWords t) 0) := by
  have hload := load_plain (s := s.noted (s.globalAddr a b c (loadSize t.toNat))) (t := t) (d := d)
    (as := (lanesOf s.cur.lanes).map g) fun h7 => List.forall_mem_map.mpr (hfmt h7)
  exact doesFall_of_cur (exec_ld ..) ((ldBody_eq ..).trans ((perLane_ok hw h).trans hload))
    ((request_cur ..).trans (noted_memStep ..).cur)

theorem st_does (hw : s.WalksFree (s.globalAddr a b c (2 ^ t.toNat)))
    (h : ∀ l ∈ lanesOf s.cur.lanes, s.stLane t d a b c l = .ok (g l)) :
    s.DoesFall (.st sc t d a b c) sc ((s.noted (s.globalAddr a b c (2 ^ t.toNat))).request .store
      ((lanesOf s.cur.lanes).map g) .lane 0 0 0) :=
  doesFall_of_cur (exec_st ..) ((stBody_eq ..).trans (perLane_ok hw h)) ((request_cur ..).trans (noted_memStep ..).cur)

theorem ld_does_pair (hw : s.WalksFree (s.globalAddr a b c 4))
    (h : ∀ l ∈ lanesOf s.cur.lanes, s.ldLane 7#3 d a b c r l = .ok (g l)) (hb4 : ∃ l ∈ lanesOf s.cur.lanes, (g l).fmt = fmtB4)
    (hfree : s.PairFree (d.toNat + 1)) :
    (s.enables = 0#32 → s.DoesFall (.ld sc 7#3 d a b c r) sc ((s.noted (s.globalAddr a b c 4)).request (.load 7)
      ((lanesOf s.cur.lanes).map g) .lane d.toNat 2 0)) ∧
    (s.enables ≠ 0#32 → s.Does (.ld sc 7#3 d a b c r) sc ((s.noted (s.globalAddr a b c 4)).keepLoad d
      ((lanesOf s.cur.lanes).map g) s.cur.lanes s.keptIssue) none) :=
  load_pair_does (by simpa using hb4) hfree (noted_memStep ..) (exec_ld ..) ((ldBody_eq ..).trans (perLane_ok hw h))

section
variable (hw : s.WalksFree (s.laneAddr u))
  (hm : m = 0#3 ∨ (s.noted (s.laneAddr u)).canRelease s.cur.core s.cur.slot m.toNat = true)
include hw hm

theorem atom_does {o : BitVec 4} (h : ∀ l ∈ lanesOf s.cur.lanes, s.atomLane d u w l = .ok (g l)) :
    s.DoesFall (.atom sc d u w o m) sc (((s.noted (s.laneAddr u)).releaseFor s.cur.core m).request (.atom o.toNat (w = 1#1))
      ((lanesOf s.cur.lanes).map g) .lane d.toNat (1 + w.toNat) m.toNat) := by
  have he := noted_memStep s (s.laneAddr u)
  exact doesFall_of_cur (exec_atom ..) ((atomBody_eq ..).trans ((perLane_ok hw h).trans (afterRelease_free he hm)))
    ((request_cur ..).trans ((releaseFor_memStep ..).cur.trans he.cur))

theorem cas_does (h : ∀ l ∈ lanesOf s.cur.lanes, s.casLane d u w l = .ok (g l)) :
    s.DoesFall (.cas sc d u w m) sc (((s.noted (s.laneAddr u)).releaseFor s.cur.core m).request (.cas (w = 1#1))
      ((lanesOf s.cur.lanes).map g) .lane d.toNat (1 + w.toNat) m.toNat) := by
  have he := noted_memStep s (s.laneAddr u)
  exact doesFall_of_cur (exec_cas ..) ((casBody_eq ..).trans ((perLane_ok hw h).trans (afterRelease_free he hm)))
    ((request_cur ..).trans ((releaseFor_memStep ..).cur.trans he.cur))

end
end

/-! ### SLD and SST (11 R225) -/

theorem exec_sld (sc : BitVec 2) (d a b : BitVec 6) (w : BitVec 1) (s : State) :
    exec (.sld sc d a b w) s = .next (s.issue (.sld sc d a b w) sc (sldBody d a b w)) := rfl
theorem exec_sst (sc : BitVec 2) (d a b : BitVec 6) (w : BitVec 1) (s : State) :
    exec (.sst sc d a b w) s = .next (s.issue (.sst sc d a b w) sc (sstBody d a b w)) := rfl

section
variable {s : State} {sc : BitVec 2} {d a b : BitVec 6} {w : BitVec 1} {k : Checked × FrtEntry × Nat}
  (hslot : s.cur.slot ≠ 32)
include hslot

/-- A warp of a context reaches memory alone (23 R407). -/
theorem uniAccess_ok {kind n : Nat} {va : DWord} {write : Bool} (h : s.globalAccess kind va (fun _ => some n) write = .ok k) :
    s.uniAccess kind va n write = .ok (k.1, k.2.1) := by
  have hreg : s.regAccess kind va n = none := if_pos (by simpa [fwSlot] using hslot)
  unfold uniAccess
  rw [hreg]
  dsimp only
  rw [h]

variable (hw : s.coreWalkHold s.cur.core s.me.ctx (s.uniAddr a b) = none)
include hw

theorem sld_does (h : s.globalAccess kLoad (s.uniAddr a b) (fun _ => some (if w = 1#1 then 8 else 4)) false = .ok k) :
    s.DoesFall (.sld sc d a b w) sc ((s.noteWalks [s.uniAddr a b]).request (.load 8)
      [mkAccess 0 (s.uniAddr a b) k.1 k.2.1 (if w = 1#1 then 8 else 4) false 0] .uni d.toNat (1 + w.toNat) 0) := by
  refine doesFall_of_cur (exec_sld ..) ?_ ((request_cur ..).trans (noteWalks_memStep ..).cur)
  unfold sldBody
  dsimp only
  rw [walked_eq (List.forall_mem_singleton.mpr hw), uniAccess_ok hslot h]

theorem sst_does (h : s.globalAccess kStore (s.uniAddr a b) (fun _ => some (if w = 1#1 then 8 else 4)) true = .ok k) :
    s.DoesFall (.sst sc d a b w) sc ((s.noteWalks [s.uniAddr a b]).request .store
      [mkAccess 0 (s.uniAddr a b) k.1 k.2.1 (if w = 1#1 then 8 else 4) false
        (if w = 1#1 then (s.us64 d).toNat else (s.us d).toNat)] .uni 0 0 0) := by
  refine doesFall_of_cur (exec_sst ..) ?_ ((request_cur ..).trans (noteWalks_memStep ..).cur)
  unfold sstBody
  dsimp only
  rw [walked_eq (List.forall_mem_singleton.mpr hw), uniAccess_ok hslot h]

end

/-- Settles O24: each word by the accesses of its lanes (`ldLane_plain`, `stLane_ok`, `atomLane_ok`, `casLane_ok`), which all
pass; a load of B4 elements by `load_pair`. -/
theorem globalRequests : Obligations.GlobalRequests := by
  intro s sc t d a b c r w o m ua ub ud k g A size offset pair acc passes loads stores data word then_ free
  have hoff : offset = s.globalAddr a b c := funext fun n => funext fun l => (globalAddr_eq ..).symm
  have hdata : data = s.storeData t.toNat d := funext fun l => (storeData_eq ..).symm
  clear_value offset data
  subst hoff hdata
  refine ⟨fun hp hfmt => ?_, fun hg hb4 hvar hmap hstall => ?_, fun l hl hk hr => ?_, fun hp => ?_, fun hp hm => ?_,
    fun hp hm => ?_, fun hslot hw => ⟨fun h => ?_, fun h => ?_⟩⟩
  · exact ld_does_plain (fun l hl => (hp l hl).2) (fun l hl => ldLane_plain (hp l hl).1 fun h7 => hfmt h7 l hl) hfmt
  · exact ld_does_pair (fun l hl => (hg l hl).2) (fun l hl => (hg l hl).1) hb4 ⟨hvar, hmap, hstall⟩
  · exact exec_wait (exec_ld ..) hr ((ldBody_eq ..).trans (perLane_wait hl hk))
  · exact st_does (fun l hl => (hp l hl).2) fun l hl => stLane_ok (hp l hl).1
  · exact atom_does (fun l hl => (hp l hl).2) hm fun l hl => atomLane_ok (hp l hl).1
  · exact cas_does (fun l hl => (hp l hl).2) hm fun l hl => casLane_ok (hp l hl).1
  · exact sld_does hslot hw h
  · exact sst_does hslot hw h

end State
end Sys2Proof.Machine
end

section
/-! PROOFS (10 R197, R198, R202, R206; 06 R115): scratchpad words whose checks pass become requests. -/

namespace Sys2Proof.Machine
namespace State

theorem exec_lds (sc : BitVec 2) (t : BitVec 3) (d a : BitVec 7) (r : BitVec 1) (w : BitVec 6) (s : State) :
    exec (.lds sc t d a r w) s = .next (s.issue (.lds sc t d a r w) sc (ldsBody t d a r w)) := rfl
theorem exec_sts (sc : BitVec 2) (t : BitVec 3) (d a : BitVec 7) (r : BitVec 1) (w : BitVec 6) (s : State) :
    exec (.sts sc t d a r w) s = .next (s.issue (.sts sc t d a r w) sc (stsBody t d a r w)) := rfl
theorem exec_atoms (sc : BitVec 2) (d a : BitVec 7) (o : BitVec 4) (m : BitVec 3) (s : State) :
    exec (.atoms sc d a o m) s = .next (s.issue (.atoms sc d a o m) sc (atomsBody d a o m)) := rfl
theorem exec_cass (sc : BitVec 2) (d a : BitVec 7) (m : BitVec 3) (s : State) :
    exec (.cass sc d a m) s = .next (s.issue (.cass sc d a m) sc (cassBody d a m)) := rfl

/-- The role that the unit's literal names (08 R153). -/
theorem litRole_eq (s : State) (r : BitVec 1) :
    s.litRole r = if r = 1#1 then some ((s.cur.lit.getD 0).toNat % 32) else none := by
  simp [litRole, bitsOf]

/-- The access of lane `l` to the place that the window check has answered. -/
def winPlace (q : Nat × Nat × Nat × DWord) (l n data : Nat) : Access :=
  winAccess l q.1 q.2.1 q.2.2.1 n (wdFmt q.2.2.2) data

section
variable {s : State} {F : Nat → Except AccFail Access} {g : Nat → Access} {write : Bool} {go : State → List Access → Did}
  (h : ∀ l ∈ lanesOf s.cur.lanes, F l = .ok (g l))
include h

theorem winDo_open (ho : s.winHeld write ((lanesOf s.cur.lanes).map g) = false) :
    s.winDo write (s.laneAccesses F) go = go s ((lanesOf s.cur.lanes).map g) := by
  rw [laneAccesses_ok s F g h, winDo, accDo_ok, ho]
  rfl

theorem winDo_held (ho : s.winHeld write ((lanesOf s.cur.lanes).map g) = true) :
    s.winDo write (s.laneAccesses F) go = .wait s := by
  rw [laneAccesses_ok s F g h, winDo, accDo_ok, ho]
  rfl

end

/-! ### One lane -/

section
variable {s : State} {t : BitVec 3} {d a : BitVec 7} {r : BitVec 1} {w : BitVec 6} {l : Nat} {q : Nat × Nat × Nat × DWord}

theorem winLane_ok {kind o data : Nat} {role : Option Nat} {win : Nat} {saw : Word} {size : Nat → Option Nat}
    (h : s.checkWindow s.cur.core s.me.team kind role win o saw size = .ok q) :
    s.winLane kind role win o l saw size data = .ok (winPlace q l ((size (wdFmt q.2.2.2)).getD 1) data) := by
  unfold winLane
  rw [h]
  rfl

/-- The window check of a role-addressed word, in one lane. -/
def checkLane (s : State) (kind : Nat) (a : BitVec 7) (r : BitVec 1) (w : BitVec 6) (size : Nat → Option Nat) (l : Nat) :
    Except AccFail (Nat × Nat × Nat × DWord) :=
  let o := (s.val a.toNat l).toNat
  s.checkWindow s.cur.core s.me.team kind (s.litRole r) w.toNat o (spWordOf (s.litRole r) w.toNat o) size

theorem ldsLane_plain (h : s.checkLane kLoad a r w (fun f => loadPair t.toNat f d.toNat) l = .ok q)
    (hfmt : t = 7#3 → wdFmt q.2.2.2 ≠ fmtB4) :
    s.ldsLane t d a r w l = .ok (winPlace q l ((loadPair t.toNat (wdFmt q.2.2.2) d.toNat).getD 1) 0) := by
  have hlane : s.winLane kLoad (s.litRole r) w.toNat (s.val a.toNat l).toNat l
      (spWordOf (s.litRole r) w.toNat (s.val a.toNat l).toNat) (fun f => loadPair t.toNat f d.toNat) 0 = _ := winLane_ok h
  have hplain : ¬ (t = 7#3 && decide (wdFmt q.2.2.2 = fmtB4)) = true := by simpa using hfmt
  unfold ldsLane
  dsimp only
  rw [hlane]
  exact if_neg hplain

theorem stsLane_ok (h : s.checkLane kStore a r w (fun _ => some (2 ^ t.toNat)) l = .ok q) :
    s.stsLane t d a r w l = .ok (winPlace q l (2 ^ t.toNat) (s.storeData t.toNat d l)) := winLane_ok h

/-- A word of ATOMS or CASS whose scratchpad address passes its check. -/
def NamedAt (s : State) (a : BitVec 7) (l : Nat) (q : Nat × Nat × Nat × DWord) : Prop :=
  ∃ x, spWord (s.val a.toNat l) = some x ∧
    s.checkWindow s.cur.core s.me.team kAtomic x.1 x.2.1 x.2.2 (s.val a.toNat l) (fun _ => some 4) = .ok q

theorem spLane_ok (h : s.NamedAt a l q) : s.spLane d a l = .ok (winPlace q l 4 (s.val d.toNat l).toNat) := by
  obtain ⟨⟨role, win, o⟩, hx, hq⟩ := h
  unfold spLane
  dsimp only
  rw [hx]
  exact winLane_ok hq

/-- One lane of CASS: its new value with it. -/
def cassLane (s : State) (d a : BitVec 7) (l : Nat) : Except AccFail Access := do
  let acc ← s.spLane d a l
  pure { acc with data2 := (s.val (d.toNat + 1) l).toNat }

theorem cassLane_ok (h : s.NamedAt a l q) : s.cassLane d a l =
    .ok { winPlace q l 4 (s.val d.toNat l).toNat with data2 := (s.val (d.toNat + 1) l).toNat } := by
  unfold cassLane
  rw [spLane_ok h]
  rfl

end

/-! ### The words -/

section
variable {s : State} {sc : BitVec 2} {t : BitVec 3} {d a : BitVec 7} {r : BitVec 1} {w : BitVec 6} {o : BitVec 4} {m : BitVec 3}
  {g : Nat → Access}

section
variable (h : ∀ l ∈ lanesOf s.cur.lanes, s.ldsLane t d a r w l = .ok (g l))
  (ho : s.winHeld false ((lanesOf s.cur.lanes).map g) = false)
include h ho

theorem ldsBody_open : ldsBody t d a r w s = s.load t d ((lanesOf s.cur.lanes).map g) := winDo_open h ho

theorem lds_does_plain (hfmt : t = 7#3 → ∀ l ∈ lanesOf s.cur.lanes, (g l).fmt ≠ fmtB4) :
    s.DoesFall (.lds sc t d a r w) sc (s.request (.load t.toNat) ((lanesOf s.cur.lanes).map g) .lane d.toNat (plainWords t) 0) :=
  doesFall_of_cur (exec_lds ..)
    ((ldsBody_open h ho).trans (load_plain fun h7 => List.forall_mem_map.mpr (hfmt h7))) (request_cur ..)

end

section
variable (h : ∀ l ∈ lanesOf s.cur.lanes, s.stsLane t d a r w l = .ok (g l))
include h

theorem sts_does (ho : s.winHeld true ((lanesOf s.cur.lanes).map g) = false) :
    s.DoesFall (.sts sc t d a r w) sc (s.request .store ((lanesOf s.cur.lanes).map g) .lane 0 0 0) :=
  doesFall_of_cur (exec_sts ..) (winDo_open h ho) (request_cur ..)

theorem sts_held (ho : s.winHeld true ((lanesOf s.cur.lanes).map g) = true) (hr : s.Runs (.sts sc t d a r w)) :
    exec (.sts sc t d a r w) s = .next s.putOff := exec_wait (exec_sts ..) hr (winDo_held h ho)

end

section
variable (hm : m = 0#3 ∨ s.canRelease s.cur.core s.cur.slot m.toNat = true)
  (ho : s.winHeld true ((lanesOf s.cur.lanes).map g) = false)
include hm ho

theorem atoms_does (h : ∀ l ∈ lanesOf s.cur.lanes, s.spLane d a l = .ok (g l)) :
    s.DoesFall (.atoms sc d a o m) sc ((s.releaseFor s.cur.core m).request (.atom o.toNat false)
      ((lanesOf s.cur.lanes).map g) .lane d.toNat 1 m.toNat) :=
  doesFall_of_cur (exec_atoms ..) ((winDo_open h ho).trans (afterRelease_free (.refl s) hm))
    ((request_cur ..).trans (releaseFor_memStep ..).cur)

theorem cass_does (h : ∀ l ∈ lanesOf s.cur.lanes, s.cassLane d a l = .ok (g l)) :
    s.DoesFall (.cass sc d a m) sc ((s.releaseFor s.cur.core m).request (.cas false)
      ((lanesOf s.cur.lanes).map g) .lane d.toNat 1 m.toNat) :=
  doesFall_of_cur (exec_cass ..) ((winDo_open h ho).trans (afterRelease_free (.refl s) hm))
    ((request_cur ..).trans (releaseFor_memStep ..).cur)

end
end

/-- Settles O25: each word by the accesses of its lanes, which all pass and meet no operation in flight (`winDo_open`). -/
theorem scratchpadRequests : Obligations.ScratchpadRequests := by
  intro s sc t d a r w o m q g A role acc off stores passes named open_ free rel lds sts atoms cass
  have hrole : role = s.litRole r := (litRole_eq ..).symm
  have hsts : sts = A.map fun l => winPlace (q l) l stores (s.storeData t.toNat d l) :=
    List.map_congr_left fun l _ => by rw [storeData_eq]; rfl
  clear_value role sts
  subst hrole hsts
  refine ⟨fun hp hfmt ho => ?_, fun hg hb4 ho hvar hmap hstall => ?_, fun hp ho => ?_, fun hn ho hm => ?_, fun hn ho hm => ?_,
    fun hp ho hr => ?_⟩
  · exact lds_does_plain (fun l hl => ldsLane_plain (hp l hl) fun h7 => hfmt h7 l hl) ho hfmt
  · exact load_pair_does (by simpa using hb4) ⟨hvar, hmap, hstall⟩ (.refl s) (exec_lds ..) (ldsBody_open hg ho)
  · exact sts_does (fun l hl => stsLane_ok (hp l hl)) ho
  · exact atoms_does hm ho fun l hl => spLane_ok (hn l hl)
  · exact cass_does hm ho fun l hl => cassLane_ok (hn l hl)
  · exact sts_held (fun l hl => stsLane_ok (hp l hl)) ho hr

end State
end Sys2Proof.Machine
end

section
/-! PROOFS (10 R199, R207, R208; 07 R124; 20 R363): CADDV asks its counters' homes, a lane of a memory word that fails a
check traps, and PREF asks for lines. -/

namespace Sys2Proof.Machine
namespace State

/-! ### CADDV -/

theorem exec_caddv (sc : BitVec 2) (d : BitVec 6) (x : BitVec 1) (a : BitVec 6) (y : BitVec 1) (b : BitVec 7) (s : State) :
    exec (.caddv sc d x a y b) s = .next (s.issue (.caddv sc d x a y b) sc (caddvBody d x a y b)) := rfl

/-- The operation that CADDV asks the homes of its lanes' counters for. -/
def caddvOp (s : State) (d : BitVec 6) (b : BitVec 7) (scope : Nat) (as : List Access) : CtrOp :=
  { core := s.cur.core, slot := s.cur.slot, ctx := s.me.ctx, kind := .addv, name := .addr 0, form := 3, home := .mem 0 0,
    scope := scope, dest := 2 * d.toNat, lanes := s.cur.lanes, pc := s.cur.pc, len := s.cur.pos + 1,
    adds := as.map fun c => (c.lane, c.va, CtrHome.mem c.pa c.kid, (s.val b.toNat c.lane).setWidth 64)
    reps := (s.cur.rep.map Prod.fst).getD 0 }

/-- CADDV's warp while it waits: its destination pairs for the old values, the lanes of Active at their place. -/
def caddvWarp (d : BitVec 6) (g : Mask) (i : Nat) (w : Warp) : Warp :=
  { w with var := if d.toNat = 61 then w.var else w.var ++ [⟨.lane, 2 * d.toNat, g, i⟩, ⟨.lane, 2 * d.toNat + 1, g, i⟩]
           sched := { w.sched with atHome := w.sched.atHome ++ [(i, g)] } }

/-- The state after CADDV has asked. -/
def askCaddv (s : State) (d : BitVec 6) (o : CtrOp) : State :=
  (State.updMe { s with nextReq := s.nextReq + 1, ctrOps := s.ctrOps.set s.nextReq o } (caddvWarp d s.cur.lanes s.nextReq)).post
    (.counterOpAtHome s.nextReq)

theorem addVar_pair_keepAtHome (s : State) (d : BitVec 6) (i : Nat) :
    (s.addVar .lane (2 * d.toNat) 2 s.cur.lanes i).keepAtHome i = s.updMe (caddvWarp d s.cur.lanes i) := by
  have hd : (RegFile.lane = .lane ∧ 2 * d.toNat = 122) ↔ d.toNat = 61 := (and_iff_right rfl).trans (by omega)
  rw [keepAtHome, addVar_cur, addVar_eq]
  by_cases h : d.toNat = 61
  · rw [if_pos (hd.mpr h)]
    exact updMe_congr _ _ _ (by simp only [caddvWarp, if_pos h, Warp.updSched])
  · rw [if_neg (mt hd.mp h), updMe_updMe]
    exact updMe_congr _ _ _ (by simp [caddvWarp, h, Warp.updSched, List.range_succ])

theorem caddvBody_ask (s : State) (d a : BitVec 6) (x y : BitVec 1) (b : BitVec 7) : caddvBody d x a y b s =
    s.perLane (s.laneAddr a) (s.caddvLane a) fun e as => e.afterRelease (ctrScope (2 * x.toNat + y.toNat)) fun e =>
      .done (e.askCaddv d (e.caddvOp d b (ctrScope (2 * x.toNat + y.toNat)) as)) .stay := by
  have hask (e : State) (o : CtrOp) : e.askCaddv d o =
      (State.keepAtHome (State.addVar { e with nextReq := e.nextReq + 1, ctrOps := e.ctrOps.set e.nextReq o }
        .lane (2 * d.toNat) 2 e.cur.lanes e.nextReq) e.nextReq).post (.counterOpAtHome e.nextReq) :=
    congrArg (State.post · _) (addVar_pair_keepAtHome
      { e with nextReq := e.nextReq + 1, ctrOps := e.ctrOps.set e.nextReq o } d e.nextReq).symm
  simp only [hask]
  rfl

/-- Settles O26: the five words have one shape (`perLane`), whose first failing lane traps with the walks noted. -/
theorem accessTraps : Obligations.AccessTraps := by
  intro s sc t d a b c r w o m u v x y i F va l f A hi hl hf hlow hw hr
  simp only [List.mem_cons, List.not_mem_nil, or_false, Prod.mk.injEq] at hi
  rcases hi with ⟨rfl, rfl, rfl⟩ | ⟨rfl, rfl, rfl⟩ | ⟨rfl, rfl, rfl⟩ | ⟨rfl, rfl, rfl⟩ | ⟨rfl, rfl, rfl⟩
  · exact perLane_traps hw (exec_ld ..) (ldBody_eq ..) hl hf hlow hr
  · exact perLane_traps hw (exec_st ..) (stBody_eq ..) hl hf hlow hr
  · exact perLane_traps hw (exec_atom ..) (atomBody_eq ..) hl hf hlow hr
  · exact perLane_traps hw (exec_cas ..) (casBody_eq ..) hl hf hlow hr
  · exact perLane_traps hw (exec_caddv ..) (caddvBody_ask ..) hl hf hlow hr

theorem MemStep.val {s t : State} (h : MemStep s t) (n l : Nat) : t.val n l = s.val n l := by
  simp only [State.val, h.me, h.cur]

section
variable {s e : State} {d : BitVec 6} {b : BitVec 7} {scope : Nat} {as : List Access}

theorem caddvOp_of_memStep (h : MemStep s e) : e.caddvOp d b scope as = s.caddvOp d b scope as := by
  simp only [caddvOp, h.cur, h.me, h.val]

/-- What asking from `e`, reached from `s` by the memory system alone, leaves. -/
theorem askCaddv_asked (h : MemStep s e) (o : CtrOp) :
    let t := e.askCaddv d o
    t = { e with cores := t.cores, nextReq := e.nextReq + 1, ctrOps := t.ctrOps, agenda := e.agenda ++ [.counterOpAtHome e.nextReq] } ∧
    (∀ n, t.ctrOps.find n = if n = e.nextReq then some o else s.ctrOps.find n) ∧
    t.me = caddvWarp d s.cur.lanes e.nextReq s.me := by
  intro t
  have hops : e.ctrOps = s.ctrOps := by rw [h.device]
  have ht : t = (State.updMe { e with nextReq := e.nextReq + 1, ctrOps := e.ctrOps.set e.nextReq o }
      (caddvWarp d e.cur.lanes e.nextReq)).post (.counterOpAtHome e.nextReq) := rfl
  rw [ht]
  refine ⟨?_, fun n => ?_, ?_⟩
  · rw [updMe_device]
    rfl
  · simp [updMe, hops]
  · rw [(post_memStep ..).me, updMe_me]
    change caddvWarp d e.cur.lanes e.nextReq e.me = _
    rw [h.me, h.cur]

theorem caddvLane_ok {a : BitVec 6} {l : Nat} {k : Checked}
    (h : s.coreCheck s.cur.core s.me.ctx kCtrAdd (s.laneAddr a l) = .ok k) (h8 : (s.laneAddr a l).toNat % 8 = 0) :
    s.caddvLane a l = .ok (mkAccess l (s.laneAddr a l) k {} 8 false 0) := by
  have hc : s.coreCheck s.cur.core s.myCtx kCtrAdd (s.laneAddr a l) = .ok k := h
  unfold caddvLane
  dsimp only
  rw [hc]
  exact if_neg (by simp [h8])

/-- CADDV whose lanes all pass releases and asks (07 R124). -/
theorem caddv_does {sc : BitVec 2} {a : BitVec 6} {x y : BitVec 1} {g : Nat → Access} (hw : s.WalksFree (s.laneAddr a))
    (h : ∀ l ∈ lanesOf s.cur.lanes, s.caddvLane a l = .ok (g l)) (hscope : ctrScope (2 * x.toNat + y.toNat) = scope)
    (hcan : (s.noted (s.laneAddr a)).canRelease s.cur.core s.cur.slot scope = true) :
    s.Does (.caddv sc d x a y b) sc (((s.noted (s.laneAddr a)).releaseAt s.cur.core scope).askCaddv d
      (s.caddvOp d b scope ((lanesOf s.cur.lanes).map g))) none := by
  have he := noted_memStep s (s.laneAddr a)
  have hbody := (caddvBody_ask s d a x y b).trans (perLane_ok hw h)
  rw [hscope] at hbody
  have hrel := hbody.trans (afterRelease_can (s := s.noted (s.laneAddr a)) (by rwa [he.cur]))
  rw [he.cur, caddvOp_of_memStep (he.trans (releaseAt_memStep ..))] at hrel
  exact does (exec_caddv ..) hrel rfl

end

/-! ### PREF -/

theorem exec_pref (sc lv : BitVec 2) (a : BitVec 7) (b : BitVec 5) (c : BitVec 1) (s : State) :
    exec (.pref sc lv a b c) s = .next (s.issue (.pref sc lv a b c) sc fun s => s.prefBody lv.toNat (s.globalAddr a b c 128)) := rfl

theorem countEv_mem (s : State) (c src n : Nat) : (s.countEv c src n).mem = s.mem := by
  unfold countEv
  dsimp only
  split
  · split <;> rfl
  · split <;> rfl

theorem coreTlbPut_mem (s : State) (c h vpn : Nat) (e : TlbEntry) : (s.coreTlbPut c h vpn e).mem = s.mem := by
  unfold coreTlbPut
  dsimp only
  split <;> rfl

/-- Noting walks writes no memory. -/
theorem coreWalk_mem (s : State) (c h : Nat) (va : DWord) : (s.coreWalk c h va).mem = s.mem := by
  unfold coreWalk
  dsimp only
  split
  · rfl
  · split
    · rw [coreTlbPut_mem, countEv_mem]
    · unfold noteWalk
      split
      · rw [countEv_mem]
      · rw [post_mem, countEv_mem]

theorem noteWalks_mem (s : State) (vas : List DWord) : (s.noteWalks vas).mem = s.mem := by
  unfold noteWalks
  induction vas generalizing s with
  | nil => rfl
  | cons va vas ih => rw [List.foldl_cons, ih, coreWalk_mem]

/-- The requests of a prefetch, one for each line. -/
def askLines (s : State) (l1 : Bool) (gs : List (List Access)) : State :=
  gs.foldl (fun e g => e.ask (.pref l1) g .lane 0 0 0 0 none) s

/-- A prefetch asks for lines and nothing else: no register waits for it. -/
theorem askLines_keeps (s : State) (l1 : Bool) (gs : List (List Access)) :
    (s.askLines l1 gs).cur = s.cur ∧ (s.askLines l1 gs).me = s.me ∧ (s.askLines l1 gs).mem = s.mem := by
  induction gs generalizing s with
  | nil => exact ⟨rfl, rfl, rfl⟩
  | cons g gs ih =>
    obtain ⟨hcur, hme, hmem⟩ := ih (s.ask (.pref l1) g .lane 0 0 0 0 none)
    refine ⟨hcur.trans (ask_cur ..), hme.trans ?_, hmem.trans ?_⟩
    · rw [ask_eq]
      rfl
    · rw [ask_eq]

section
variable {s : State} {va : DWord} {l : Nat}

theorem prefLane_failed {f : AccFail} (h : s.coreCheck s.cur.core s.me.ctx kLoad va = .error f) : s.prefLane va l = none := by
  have hc : s.coreCheck s.cur.core s.myCtx kLoad va = .error f := h
  unfold prefLane
  rw [hc]

theorem prefLane_ok {q : Checked} (h : s.coreCheck s.cur.core s.me.ctx kLoad va = .ok q) : s.prefLane va l =
    if (s.lockedBy s.cur.core (va.toNat / 128 * 128) (va.toNat / 128 * 128 + 128) true).isSome ∨ q.cache = 2 then none
    else some (mkAccess l va q {} 1 false 0) := by
  have hc : s.coreCheck s.cur.core s.myCtx kLoad va = .ok q := h
  have hline : va.toNat - va.toNat % 128 = va.toNat / 128 * 128 := by omega
  unfold prefLane
  rw [hc]
  simp only [hline, Bool.or_eq_true, decide_eq_true_eq]

end

/-- The accesses of a prefetch at the lanes' addresses: those that are dropped leave none. -/
def prefAccesses (s : State) (va : Nat → DWord) : List Access :=
  (lanesOf s.cur.lanes).filterMap fun l => s.prefLane (va l) l

theorem pref_does {s : State} {sc lv : BitVec 2} {a : BitVec 7} {b : BitVec 5} {c : BitVec 1} {as : List Access}
    (has : s.prefAccesses (s.globalAddr a b c 128) = as) (hw : ∀ z ∈ as, s.coreWalkHold s.cur.core s.me.ctx z.va = none) :
    s.DoesFall (.pref sc lv a b c) sc ((s.noteWalks (as.map Access.va)).askLines (lv = 0#2) (lineGroups as)) := by
  subst has
  have hlevel : decide (lv.toNat = 0) = decide (lv = 0#2) := decide_eq_decide.mpr (BitVec.toNat_inj (y := 0#2))
  refine doesFall_of_cur (exec_pref ..) ?_ ((askLines_keeps ..).1.trans (noteWalks_memStep ..).cur)
  unfold prefBody
  dsimp only
  rw [hlevel]
  exact walked_eq (List.forall_mem_map.mpr hw)

/-- Settles O29: CADDV by its lanes' checks and what asking leaves (`askCaddv_asked`), PREF by what each lane's check leaves
(`prefLane_failed`, `prefLane_ok`) and by what its requests keep (`askLines_keeps`). -/
theorem counterAddAndPrefetch : Obligations.CounterAddAndPrefetch := by
  intro s sc lv d a x y b va sb c k A addr scope e₀ e
  have he : MemStep s e := (noteWalks_memStep ..).trans (releaseAt_memStep ..)
  refine ⟨fun hp hcan => ?caddv, ?pref⟩
  case caddv =>
    have hscope : ctrScope (2 * x.toNat + y.toNat) = scope := by
      simp only [ctrScope, scope]
      omega
    let o : CtrOp := s.caddvOp d b scope (A.map fun l => mkAccess l (addr l) (k l) {} 8 false 0)
    obtain ⟨hdev, hops, hme⟩ := askCaddv_asked (d := d) he o
    have hdoes : s.Does (.caddv sc d x a y b) sc (e.askCaddv d o) none := caddv_does (fun l hl => (hp l hl).2.2)
      (fun l hl => caddvLane_ok (hp l hl).1 (hp l hl).2.1) hscope hcan
    refine ⟨e.askCaddv d o, hdoes, hdev, fun n => ?_, ?_, fun hd => ?_⟩
    · rw [hops]
      simp only [o, caddvOp, List.map_map]
      rfl
    · rw [hme]
      rfl
    · rw [hme]
      exact if_neg hd
  case pref =>
    intro at_ line as f
    have hmem : MemStep s (s.noteWalks (as.map Access.va)) := noteWalks_memStep ..
    obtain ⟨-, hfme, hfmem⟩ := (s.noteWalks (as.map Access.va)).askLines_keeps (lv = 0#2) (lineGroups as)
    refine ⟨fun l _ => ⟨fun _ => prefLane_failed, fun _ => prefLane_ok⟩, pref_does rfl, hfme.trans hmem.me,
      hfmem.trans (noteWalks_mem ..), fun hnone => ?_⟩
    show (s.noteWalks (as.map Access.va)).askLines (lv = 0#2) (lineGroups as) = s
    rw [hnone]
    rfl

end State
end Sys2Proof.Machine
end

section
/-! PROOFS (10 R200 to R204, R208; 06 R101; 22 R404): what a request of one access does when it is served. -/

namespace Sys2Proof

/-- Words set at consecutive keys are found there. -/
theorem Map.find_setRange {α : Type} (f : Nat → α) (b : Nat) (m : Map α) {n j : Nat} (h : j < n) :
    Map.find ((List.range n).foldl (fun (m : Map α) i => m.set (b + i) (f i)) m) (b + j) = some (f j) := by
  induction n with
  | zero => exact absurd h (Nat.not_lt_zero j)
  | succ n ih =>
    rw [List.range_succ, List.foldl_append, List.foldl_cons, List.foldl_nil, Map.find_set]
    by_cases hj : j = n
    · rw [hj, if_pos rfl]
    · rw [if_neg (by omega)]
      exact ih (by omega)

namespace Machine
namespace State

/-! ### The operations of the atomics (R203) -/

/-- The signed value of a number of `n` bytes, as `atomOp` reads it. -/
theorem signed_eq_toInt {n : Nat} (x : BitVec (8 * n)) :
    (if x.toNat.testBit (8 * n - 1) then (x.toNat : Int) - ((2 ^ (8 * n) : Nat) : Int) else (x.toNat : Int)) = x.toInt := by
  rw [BitVec.testBit_toNat, ← BitVec.msb_eq_getLsbD_last, BitVec.toInt_eq_msb_cond]

section
variable {n : Nat} (y z : BitVec (8 * n))

theorem atomOp_add : atomOp 0 n y.toNat z.toNat = (y + z).toNat := (BitVec.toNat_add ..).symm
theorem atomOp_minSigned : atomOp 1 n y.toNat z.toNat = (if y.toInt ≤ z.toInt then y else z).toNat := by
  rw [← signed_eq_toInt y, ← signed_eq_toInt z, apply_ite BitVec.toNat]
  rfl
theorem atomOp_maxSigned : atomOp 2 n y.toNat z.toNat = (if y.toInt ≤ z.toInt then z else y).toNat := by
  rw [← signed_eq_toInt y, ← signed_eq_toInt z, apply_ite BitVec.toNat]
  rfl
theorem atomOp_and : atomOp 5 n y.toNat z.toNat = (y &&& z).toNat := (BitVec.toNat_and ..).symm
theorem atomOp_or : atomOp 6 n y.toNat z.toNat = (y ||| z).toNat := (BitVec.toNat_or ..).symm
theorem atomOp_xor : atomOp 7 n y.toNat z.toNat = (y ^^^ z).toNat := (BitVec.toNat_xor ..).symm

end

/-! ### What an access changes -/

theorem accRead_memStep (s : State) (c : Nat) (a : Access) (atHome : Bool) : MemStep s (s.accRead c a atHome).1 := by
  unfold accRead
  split
  · exact .refl s
  · split
    · split
      · exact targetRead_memStep ..
      · exact homeRead_memStep ..
    · exact coreRead_memStep ..

theorem bytesAt_memStep (s : State) (c : Nat) (l : List ByteAt) : MemStep s (s.bytesAt c l).1 := by
  unfold bytesAt
  dsimp only
  refine MemStep.foldlFst (β := List Byte) _ _ (fun x b => ?_) (s, [])
  split
  · exact .refl _
  · exact coreRead_memStep ..

theorem prefetch_memStep (s : State) (c : Nat) (a : Access) (l1 : Bool) : MemStep s (s.prefetch c a l1) :=
  MemStep.ite ((l1Line_memStep ..).trans ((l1Fill_memStep ..).trans (l1Put_memStep ..))) (l2Line_memStep ..)

/-- The same links are lost in both states. -/
def SameLinks (s t : State) : Prop := t.io = s.io ∧ t.boot = s.boot

theorem SameLinks.of_memStep {s t : State} (h : MemStep s t) : SameLinks s t := ⟨h.io, h.boot⟩
theorem SameLinks.trans {s t u : State} (h : SameLinks s t) (g : SameLinks t u) : SameLinks s u :=
  ⟨g.1.trans h.1, g.2.trans h.2⟩

theorem SameLinks.ite {s a b : State} {p : Prop} [Decidable p] (h : SameLinks s a) (g : SameLinks s b) :
    SameLinks s (if p then a else b) := by split <;> assumption

theorem accWrite_sameLinks (s : State) (c h : Nat) (a : Access) (atHome : Bool) (bs : List Byte) :
    SameLinks s (s.accWrite c h a atHome bs) := by
  unfold accWrite
  split
  · exact ⟨rfl, rfl⟩
  · split
    · split
      · exact .of_memStep (targetWrite_memStep ..)
      · exact .of_memStep (homeWrite_memStep ..)
    · exact .of_memStep (coreWrite_memStep ..)

theorem SameLinks.accLost {s t : State} (h : SameLinks s t) (c : Nat) (a : Access) : t.accLost c a = s.accLost c a := by
  obtain ⟨hio, hboot⟩ := h
  simp only [State.accLost, spaceLost, tierPort, tierPorts, route, hio, hboot]

/-! ### The five operations (R200 to R204, R208) -/

/-- A request to which an access has delivered words and flags. -/
def delivered (r : MemReq) (a : Access) (ws : List Word) (fl : Word) : MemReq :=
  { r with
    result := (List.range ws.length).foldl (fun m j => m.set (4 * a.lane + j) (ws.getD j 0)) r.result
    fstat := r.fstat ||| fl }

theorem delivered_zero (r : MemReq) (a : Access) (ws : List Word) : delivered r a ws 0 =
    { r with result := (List.range ws.length).foldl (fun m j => m.set (4 * a.lane + j) (ws.getD j 0)) r.result } := by
  simp [delivered]
theorem delivered_nil (r : MemReq) (a : Access) : delivered r a [] 0 = r := by simp [delivered]

/-- An atomic is performed at its home: the core's own copy of the line goes (10 R203, R204). -/
def atHomeOf (s : State) (c : Nat) (a : Access) : State := if a.core.isSome then s else s.l1Drop c (lineOf a.pa)

theorem atHomeOf_memStep (s : State) (c : Nat) (a : Access) : MemStep s (s.atHomeOf c a) :=
  MemStep.ite (.refl s) (l1Drop_memStep ..)

/-- The words that an atomic of 4 or 8 bytes returns. -/
def oldWords (wide : Bool) (old : Nat) : List Word :=
  if wide then [BitVec.ofNat 32 old, BitVec.ofNat 32 (old / 2 ^ 32)] else [BitVec.ofNat 32 old]

section
variable {s : State} {r : MemReq} {a : Access} (hlost : s.accLost r.core a = false)
include hlost

theorem perform_load {t : Nat} (hop : r.op = .load t) :
    let x := s.bytesAt r.core a.scale0
    let y := x.1.bytesAt r.core a.scale1
    let z := y.1.accRead r.core a false
    s.perform r a = (z.1, delivered r a (deliver t a z.2 x.2 y.2).1 (deliver t a z.2 x.2 y.2).2) := by
  unfold perform
  refine (if_neg (by simp [hlost])).trans ?_
  rw [hop]
  rfl

theorem perform_store (hop : r.op = .store) :
    s.perform r a = (s.accWrite r.core r.ctx a false (leBytes a.size a.data), delivered r a [] 0) := by
  unfold perform
  refine (if_neg (by simp [hlost])).trans ?_
  rw [hop, delivered_nil]

theorem perform_pref {l1 : Bool} (hop : r.op = .pref l1) : s.perform r a = (s.prefetch r.core a l1, delivered r a [] 0) := by
  unfold perform
  refine (if_neg (by simp [hlost])).trans ?_
  rw [hop, delivered_nil]

theorem perform_atom {o : Nat} {wide : Bool} (hop : r.op = .atom o wide) :
    let x := (s.atHomeOf r.core a).accRead r.core a true
    s.perform r a = (x.1.accWrite r.core r.ctx a true (leBytes a.size (atomOp o a.size (leNat x.2) a.data)),
      delivered r a (oldWords wide (leNat x.2)) 0) := by
  unfold perform
  refine (if_neg (by simp [hlost])).trans ?_
  rw [hop, delivered_zero]
  rfl

theorem perform_cas {wide : Bool} (hop : r.op = .cas wide) :
    let x := (s.atHomeOf r.core a).accRead r.core a true
    s.perform r a = (if leNat x.2 = a.data then x.1.accWrite r.core r.ctx a true (leBytes a.size a.data2) else x.1,
      delivered r a (oldWords wide (leNat x.2)) 0) := by
  unfold perform
  refine (if_neg (by simp [hlost])).trans ?_
  rw [hop, delivered_zero]
  rfl

end

/-! ### Serving a request -/

theorem exec_memoryRequestAtHome (n : Nat) (s : State) : exec (.memoryRequestAtHome n) s = .next (s.atHome n) := rfl

/-- MACHINE for the words that a request has read damaged (22 R404). -/
def machineErrs (s : State) (r : MemReq) (e : State) : State :=
  (s.damaged r).foldl (fun e pa => e.machineErr r.core r.slot r.ctx pa) e

section
variable {s : State} {n : Nat} {r : MemReq} (hr : s.reqs.find n = some r)
include hr

theorem atHome_serves (hreg : ∀ a ∈ r.accs, a.core = none → inRegBlock a.pa = false) : s.atHome n = s.serve n := by
  have hnone : (r.accs.find? fun a => a.core.isNone && inRegBlock a.pa) = none := by
    simpa [List.find?_eq_none] using hreg
  unfold atHome
  rw [hr]
  dsimp only
  rw [hnone]

variable (hnew : r.performed = false)
include hnew

theorem serve_follows {j : Nat} (h : s.earlier n r = some j) :
    s.serve n = s.hold (reqKey j) false (.memoryRequestAtHome n) := by
  unfold serve
  rw [hr]
  dsimp only
  rw [if_neg (by simp [hnew]), h]

variable {a : Access} (haccs : r.accs = [a]) (hscope : r.scope = 0) (hfirst : s.earlier n r = none)
  (hstalls : s.reqStalls r = false) (hhold : s.reqHold r = none) (hlost : s.accLost r.core a = false)
  {e : State} {ws : List Word} {fl : Word} (hp : s.perform r a = (e, delivered r a ws fl)) (he : SameLinks s e)
include haccs hscope hfirst hstalls hhold hlost hp he

/-- A request of one access that nothing holds is performed, and answers or is over. -/
theorem serve_performs : s.serve n = State.unhold
    (if r.words = 0 then { s.machineErrs r e with reqs := (s.machineErrs r e).reqs.del n }
     else State.post { s.machineErrs r e with
       reqs := (s.machineErrs r e).reqs.set n { delivered r a ws fl with performed := true } } (.variableLatencyResult n))
    (reqKey n) := by
  have hl : e.accLost r.core a = false := (he.accLost ..).trans hlost
  unfold serve
  rw [hr]
  dsimp only
  rw [if_neg (by simp [hnew]), hfirst]
  dsimp only
  rw [if_neg (by simp [hstalls]), hhold]
  dsimp only
  rw [if_pos hscope, haccs, List.foldl_cons, List.foldl_nil, hp]
  have hnone : ((delivered r a ws fl).accs.find? fun b => e.accLost (delivered r a ws fl).core b) = none := by
    rw [show (delivered r a ws fl).accs = [a] from haccs, List.find?_cons_of_neg (by simpa [delivered] using hl), List.find?_nil]
  have hkept : (delivered r a ws fl).scope = 0 := hscope
  dsimp only
  rw [if_pos hkept, hnone]
  rfl

theorem serve_answers (hw : r.words ≠ 0) : s.serve n = State.unhold
    { s.machineErrs r e with
      reqs := (s.machineErrs r e).reqs.set n { delivered r a ws fl with performed := true }
      agenda := (s.machineErrs r e).agenda ++ [.variableLatencyResult n] } (reqKey n) := by
  rw [serve_performs hr hnew haccs hscope hfirst hstalls hhold hlost hp he, if_neg hw]
  rfl

theorem serve_ends (hw : r.words = 0) : s.serve n = State.unhold
    { s.machineErrs r e with reqs := (s.machineErrs r e).reqs.del n } (reqKey n) := by
  rw [serve_performs hr hnew haccs hscope hfirst hstalls hhold hlost hp he, if_pos hw]

end

theorem delivered_find (r : MemReq) (a : Access) (fl : Word) {ws : List Word} {j : Nat} (h : j < ws.length) :
    (delivered r a ws fl).result.find (4 * a.lane + j) = some (ws.getD j 0) :=
  Map.find_setRange (fun j => ws.getD j 0) _ _ h

/-- Settles O28: a request follows an earlier one (`serve_follows`), or is performed as its operation says (`perform_load`,
`perform_store`, `perform_pref`, `perform_atom`, `perform_cas`) and then answers or is over (`serve_answers`, `serve_ends`). -/
theorem requestServed : Obligations.RequestServed := by
  refine ⟨fun s n j r hr hnew hreg hj => ?follows, ?performed, fun old x y z => ?operations⟩
  case follows =>
    have hout : ∀ a ∈ r.accs, a.core = none → inRegBlock a.pa = false := by simpa [List.any_eq_false] using hreg
    rw [exec_memoryRequestAtHome, atHome_serves hr hout, serve_follows hr hnew hj]
  case performed =>
    intro s n r a hr hnew haccs hscope hfirst hstalls hhold hlost hreg run found gone results
    have hrun : run = .next (s.serve n) := congrArg Host.Outcome.next (atHome_serves hr (by simpa [haccs] using hreg))
    have answers {e : State} {ws : List Word} {fl : Word} (hp : s.perform r a = (e, delivered r a ws fl)) (he : SameLinks s e)
        (hw : r.words ≠ 0) : results e ws fl :=
      ⟨_, hrun.trans (congrArg _ (serve_answers hr hnew haccs hscope hfirst hstalls hhold hlost hp he hw)), rfl,
        fun j hj => delivered_find r a fl hj⟩
    have ends {e : State} (hp : s.perform r a = (e, delivered r a [] 0)) (he : SameLinks s e) (hw : r.words = 0) :
        run = .next ((gone e).unhold (reqKey n)) :=
      hrun.trans (congrArg _ (serve_ends hr hnew haccs hscope hfirst hstalls hhold hlost hp he hw))
    have hread : SameLinks s ((s.atHomeOf r.core a).accRead r.core a true).1 :=
      .of_memStep ((atHomeOf_memStep ..).trans (accRead_memStep ..))
    refine ⟨fun t hop => ?load, fun hop => ends (perform_store hlost hop) (accWrite_sameLinks ..), fun l1 hop hw => ?pref,
      fun o w hop => answers (perform_atom hlost hop) (hread.trans (accWrite_sameLinks ..)),
      fun w hop => answers (perform_cas hlost hop) (.ite (hread.trans (accWrite_sameLinks ..)) hread)⟩
    case load =>
      exact answers (perform_load hlost hop)
        (.of_memStep ((bytesAt_memStep ..).trans ((bytesAt_memStep ..).trans (accRead_memStep ..))))
    case pref =>
      have he := prefetch_memStep s r.core a l1
      exact ⟨ends (perform_pref hlost hop) (.of_memStep he) hw, he.cur, he.warp, he.cc, he.wf⟩
  case operations =>
    exact ⟨atomOp_add (n := 4) old x, atomOp_add (n := 8) y z, atomOp_minSigned (n := 4) old x, atomOp_minSigned (n := 8) y z,
      atomOp_maxSigned (n := 4) old x, atomOp_maxSigned (n := 8) y z, rfl, rfl, rfl, rfl,
      atomOp_and (n := 4) old x, atomOp_and (n := 8) y z, atomOp_or (n := 4) old x, atomOp_or (n := 8) y z,
      atomOp_xor (n := 4) old x, atomOp_xor (n := 8) y z, rfl, rfl, rfl⟩

end State
end Machine
end Sys2Proof
end

section
/-! PROOFS (11 R223): the scalar words and the scalar compare, each by the value that it computes. -/

namespace Sys2Proof.Machine

/-- The comparison that a minimum or maximum makes, by its word's sign bit. -/
theorem minMax_eq (isMax : Bool) (g : BitVec 1) (x y : Word) :
    minMax isMax (g = 1#1) x y =
      if (g = 1#1 ∧ x.toInt < y.toInt) ∨ (g = 0#1 ∧ x.toNat < y.toNat) then (if isMax then y else x)
      else (if isMax then x else y) := by
  rcases BitVec.eq_zero_or_eq_one g with rfl | rfl
  · simpa using minMax_unsigned isMax x y
  · simpa using minMax_signed isMax x y

theorem mulHigh_eq (g : BitVec 1) (x y : Word) :
    mulHigh (g = 1#1) x y = if g = 1#1 then (x.signExtend 64 * y.signExtend 64).extractLsb' 32 32
      else (x.setWidth 64 * y.setWidth 64).extractLsb' 32 32 := by
  rcases BitVec.eq_zero_or_eq_one g with rfl | rfl
  · exact mulHigh_unsigned x y
  · exact mulHigh_signed x y

namespace State

section
variable {s : State} {i : Instr} {sc : BitVec 2} {d : BitVec 6}

/-- A word that gives one uniform result, told by its value. -/
theorem gives_uniform {F : State → Word} {x : Word} (hx : exec i s = .next (s.issue i sc fun s => s.uniOp d (F s)))
    (hf : F s = x) : s.Gives i sc [s.uniResult .uni d.toNat x] :=
  gives_results (hold := none) (rs := [{ file := .uni, num := d.toNat, vals := [(0, F s)], lands := 0 }]) hx rfl (by rw [hf]; rfl)

/-- A word that gives a pair of them. -/
theorem gives_uniformPair {F : State → DWord} (hx : exec i s = .next (s.issue i sc fun s => s.uniOp64 d (F s))) :
    s.Gives i sc [s.uniResult .uni d.toNat (lo32 (F s)), s.uniResult .uni (d.toNat + 1) (hi32 (F s))] :=
  gives_results (hold := none) (rs := [{ file := .uni, num := d.toNat, vals := [(0, lo32 (F s))], lands := 0 },
    { file := .uni, num := d.toNat + 1, vals := [(0, hi32 (F s))], lands := 0 }]) hx rfl rfl

end

theorem scmp_gives (s : State) (sc p : BitVec 2) (a b : BitVec 6) (c : BitVec 4) : s.Gives (.scmp sc p a b c) sc
    [s.uniResult .upred p.toNat (if iCond c.toNat (s.us a) (s.us b) then 1 else 0)] :=
  gives_results (hold := none) (lat := 2)
    (rs := [{ file := .upred, num := p.toNat, vals := [(0, if iCond c.toNat (s.us a) (s.us b) then 1 else 0)], lands := 0 }])
    rfl rfl rfl

/-- Settles O13: each word by its value (`gives_uniform`), the compare by its condition (`iCond_iff`). -/
theorem uniformResults : Obligations.UniformResults := by
  intro s sc p d a b g i c A B n r
  exact ⟨gives_uniform rfl rfl, gives_uniform rfl rfl, gives_uniform rfl rfl, gives_uniform rfl (mulHigh_eq ..),
    gives_uniform rfl rfl, gives_uniform rfl rfl, gives_uniform rfl rfl, gives_uniform rfl (shlBy_eq ..),
    gives_uniform rfl (shrBy_eq ..), gives_uniform rfl (sarBy_eq ..), gives_uniform rfl (minMax_eq false ..),
    gives_uniform rfl (minMax_eq true ..), gives_uniform rfl rfl, gives_uniform rfl rfl, gives_uniform rfl rfl,
    gives_uniform rfl rfl, gives_uniformPair (F := fun s => s.us64 a + s.us64 b) rfl,
    fun hc => ⟨iCond c.toNat, iCond_iff hc, scmp_gives s sc p a b c⟩⟩

end State
end Sys2Proof.Machine
end

section
/-! PROOFS (11 R234, R237, R238; 13 R277; 14 R301; 16 R327): LAUNCH, SVC and CKPT, which act behind a release. -/

namespace Sys2Proof.Machine
namespace State

/-! ### Reads by virtual address are steps of the memory system -/

theorem vaRead_memStep {s t : State} {d h kind n : Nat} {va : DWord} {bs : List Byte} (e : s.vaRead d h kind va n = .ok (t, bs)) :
    MemStep s t := by
  unfold vaRead at e
  refine Except.foldlM_ok (P := fun p : State × List Byte => MemStep s p.1) (fun p x q hp e => ?_) (p := (s, [])) (.refl s) e
  dsimp only at e
  cases hc : (p.1.meet false (p.1.walkHold d h (BitVec.ofNat 64 x.1))).check d h kind (BitVec.ofNat 64 x.1) with
  | error f =>
    rw [hc] at e
    cases e
  | ok c =>
    rw [hc] at e
    dsimp only [bind, Except.bind, pure, Except.pure] at e
    split at e
    · cases e
    · cases e
      exact hp.trans ((meet_memStep ..).trans ((noteWalk_memStep ..).trans (physRead_memStep ..)))

theorem readBlock_memStep {s t : State} {d h kind : Nat} {va : DWord} {b : Block} (e : s.readBlock d h kind va = .ok (t, b)) :
    MemStep s t := by
  unfold readBlock at e
  split at e
  next hr =>
    cases e
    exact vaRead_memStep hr
  next => cases e

theorem serviceBlock_memStep {s t : State} {d h k : Nat} {b : Block} (e : s.serviceBlock d h k = some (t, b)) : MemStep s t := by
  unfold serviceBlock at e
  dsimp only at e
  split at e
  · cases e
  · split at e
    · cases e
    · rename_i hentry
      split at e
      · split at e
        · rename_i hblock
          split at e
          · cases e
            exact (vaRead_memStep hentry).trans (readBlock_memStep hblock)
          · cases e
        · cases e
      · cases e

theorem almanacOn_memStep (s : State) (d h : Nat) : MemStep s (s.almanacOn d h).1 := by
  unfold almanacOn
  dsimp only
  split
  · exact .refl s
  · split
    · rename_i hblock
      exact readBlock_memStep hblock
    · exact .refl s

/-! ### The issuing warp behind a step of the memory system -/

section
variable {s t : State} (h : MemStep s t)
include h

theorem MemStep.us (a : BitVec 6) : t.us a = s.us a := congrArg (fun w => Warp.s w a.toNat) h.me
theorem MemStep.myCtx : t.myCtx = s.myCtx := congrArg Warp.ctx h.me
theorem MemStep.myDie : t.myDie = s.myDie := congrArg (fun i => dieOfCore (Issue.core i)) h.cur
theorem MemStep.accTrap (l : Nat) (f : AccFail) : t.accTrap l f = s.accTrap l f := by rw [State.accTrap, h.cur]; rfl
theorem MemStep.firstLane : t.firstLane = s.firstLane := by rw [State.firstLane, h.cur]; rfl

end

/-! ### LAUNCH (11 R234) -/

theorem exec_launch (sc : BitVec 2) (a : BitVec 6) (s : State) :
    exec (.launch sc a) s = .next (s.issue (.launch sc a) sc (launchBody a)) := rfl

/-- A record of a context enters the launch queue of a core. -/
def enqueueLaunch (s : State) (c h : Nat) (va : DWord) (rec : Block) : State :=
  (s.updCc c fun x => { x with launchQ := x.launchQ ++ [(va.toNat, rec)] }).post
    (.launchDescriptorTake (1024 + c) h va.toNat rec)

theorem launchBody_unreleased {s : State} {a : BitVec 6} (hcan : ¬ s.canRelease s.cur.core s.cur.slot 4 = true) :
    launchBody a s = .wait s := by
  unfold launchBody
  exact afterRelease_wait hcan

section
variable {s w : State} {a : BitVec 6} {rec : Block} (hcan : s.canRelease s.cur.core s.cur.slot 4 = true)
include hcan

theorem launchBody_misaligned (h : (s.us64 a).toNat % 64 ≠ 0) : launchBody a s =
    .trap (s.releaseAt s.cur.core 4) (s.accTrap s.firstLane (accFail 4 kRecord (s.us64 a))) := by
  have hrel := releaseAt_memStep s s.cur.core 4
  unfold launchBody
  dsimp only
  rw [afterRelease_can hcan, if_pos (by simpa using h), hrel.accTrap, hrel.firstLane]

theorem launchBody_aligned (h : (s.us64 a).toNat % 64 = 0)
    (hrec : (s.releaseAt s.cur.core 4).readBlock s.myDie s.me.ctx kRecord (s.us64 a) = .ok (w, rec)) :
    launchBody a s = if 16 ≤ (w.cc s.cur.core).launchQ.length then .wait w
      else .done (w.enqueueLaunch s.cur.core s.me.ctx (s.us64 a) rec) .fall := by
  have hrel := releaseAt_memStep s s.cur.core 4
  have hctx : (w.updCc s.cur.core fun x => { x with launchQ := x.launchQ ++ [((s.us64 a).toNat, rec)] }).myCtx = s.me.ctx :=
    congrArg Warp.ctx ((me_updCc w _ (fun x => { x with launchQ := x.launchQ ++ [((s.us64 a).toNat, rec)] }) fun _ => rfl).trans
      (hrel.trans (readBlock_memStep hrec)).me)
  unfold launchBody
  dsimp only
  rw [afterRelease_can hcan, if_neg (by simp [h]), hrel.myDie, hrel.myCtx, myCtx, hrec]
  dsimp only
  rw [hctx]
  rfl

theorem launchBody_full (h : (s.us64 a).toNat % 64 = 0)
    (hrec : (s.releaseAt s.cur.core 4).readBlock s.myDie s.me.ctx kRecord (s.us64 a) = .ok (w, rec))
    (hfull : 16 ≤ (w.cc s.cur.core).launchQ.length) : launchBody a s = .wait w :=
  (launchBody_aligned hcan h hrec).trans (if_pos hfull)

theorem launchBody_enqueues (h : (s.us64 a).toNat % 64 = 0)
    (hrec : (s.releaseAt s.cur.core 4).readBlock s.myDie s.me.ctx kRecord (s.us64 a) = .ok (w, rec))
    (hroom : (w.cc s.cur.core).launchQ.length < 16) :
    launchBody a s = .done (w.enqueueLaunch s.cur.core s.me.ctx (s.us64 a) rec) .fall :=
  (launchBody_aligned hcan h hrec).trans (if_neg hroom.not_ge)

end

/-! ### SVC (11 R237; 16 R327) -/

theorem exec_svc (sc : BitVec 2) (n a : BitVec 6) (s : State) :
    exec (.svc sc n a) s = .next (s.issue (.svc sc n a) sc (svcBody n a)) := rfl

/-- SERVICE of a call that finds no queue (20 R372). -/
def serviceTrap (s : State) (k : Nat) (va : DWord) : TrapInfo := s.trapAt grpService k (lo32 va) (hi32 va)

theorem MemStep.serviceTrap {s t : State} (h : MemStep s t) (k : Nat) (va : DWord) : t.serviceTrap k va = s.serviceTrap k va := by
  rw [State.serviceTrap, trapAt, h.cur]
  rfl

/-- A service number is 16 bits wide. -/
theorem highHalf_zero {k : Word} (h : k.toNat < 2 ^ 16) : ¬ (k &&& 0xFFFF0000#32 != 0#32) = true := by
  have hand : k &&& 0xFFFF0000#32 = BitVec.ofNat 32 (k.toNat / 2 ^ 16 * 2 ^ 16) := and_highBits 32 16 k
  rw [hand, Nat.div_eq_of_lt h]
  decide

/-- What SVC does at a queue where no operation holds its counters: it waits for room, or its record enters (16 R327). -/
def svcEnter (s : State) (d h c k : Nat) (va : DWord) (rec blk : Block) (pub done : CtrHome) : Did :=
  if 2 ^ qcbQlog blk ≤ (s.ctrRead d pub).toNat - (s.ctrRead d done).toNat then .wait s
  else match s.vaWrite d h kStore (qcbSlot blk (s.ctrRead d pub)) (leBytes 64 rec.toNat) with
    | .error _ => .trap s (s.serviceTrap k va)
    | .ok e => .done (e.agentAdd c h .count (qcbPub blk) 1 4) .fall

section
variable {s w v e : State} {n a : BitVec 6} {rec blk : Block} {pub done : CtrHome} (hk : (s.us n).toNat < 2 ^ 16)
include hk

theorem svcBody_misaligned (h : (s.us64 a).toNat % 64 ≠ 0) :
    svcBody n a s = .trap s (s.accTrap s.firstLane (accFail 4 kRecord (s.us64 a))) :=
  (if_neg (highHalf_zero hk)).trans (if_pos (by simpa using h))

variable (hal : (s.us64 a).toNat % 64 = 0)
include hal

theorem svcBody_unreleased (hcan : ¬ s.canRelease s.cur.core s.cur.slot 4 = true) : svcBody n a s = .wait s :=
  (if_neg (highHalf_zero hk)).trans ((if_neg (by simp [hal])).trans (afterRelease_wait hcan))

variable (hcan : s.canRelease s.cur.core s.cur.slot 4 = true)
  (hrec : (s.releaseAt s.cur.core 4).readBlock s.myDie s.me.ctx kRecord (s.us64 a) = .ok (w, rec))
include hcan hrec

theorem svcBody_noService (h : w.serviceBlock s.myDie s.me.ctx (s.us n).toNat = none) :
    svcBody n a s = .trap w (s.serviceTrap (s.us n).toNat (s.us64 a)) := by
  have hw : MemStep s w := (releaseAt_memStep ..).trans (readBlock_memStep hrec)
  unfold svcBody
  dsimp only
  rw [if_neg (highHalf_zero hk), if_neg (by simp [hal]), afterRelease_can hcan, myCtx, hrec]
  dsimp only
  rw [h, ← hw.serviceTrap]
  rfl

/-- SVC at a service whose counters are in reach, with no operation of the context before it. -/
theorem svcBody_found (hsvc : w.serviceBlock s.myDie s.me.ctx (s.us n).toNat = some (v, blk))
    (hpub : v.agentHome s.myDie s.me.ctx (qcbPub blk) = some pub)
    (hdone : v.ctrHomeOf s.cur.core s.me.ctx 0 kCtrRead (.addr (qcbDone blk)) = .ok done) (hhold : v.ctrHold pub true = none)
    (hlast : v.lastAdd s.me.ctx = none) (hlost : v.ctrLost s.myDie done = false) :
    svcBody n a s = v.svcEnter s.myDie s.me.ctx s.cur.core (s.us n).toNat (s.us64 a) rec blk pub done := by
  have hv : MemStep s v := (releaseAt_memStep ..).trans ((readBlock_memStep hrec).trans (serviceBlock_memStep hsvc))
  unfold svcBody
  dsimp only
  rw [if_neg (highHalf_zero hk), if_neg (by simp [hal]), afterRelease_can hcan, myCtx, hrec]
  dsimp only
  rw [hsvc]
  dsimp only
  rw [hv.cur, hpub, hdone]
  dsimp only
  simp only [hhold, hlast, Option.map_none, meet, hlost, Bool.false_eq_true, if_false, svcEnter]
  cases hwr : v.vaWrite s.myDie s.me.ctx kStore (qcbSlot blk (v.ctrRead s.myDie pub)) (leBytes 64 rec.toNat) with
  | error f => rfl
  | ok e =>
    have hcore : e.cur.core = s.cur.core := by rw [(vaWrite_memStep hwr).cur, hv.cur]
    dsimp only
    rw [hcore]

end

section
variable {s e : State} {d h c k : Nat} {va : DWord} {rec blk : Block} {pub done : CtrHome}

theorem svcEnter_full (hfull : ¬ (s.ctrRead d pub).toNat - (s.ctrRead d done).toNat < 2 ^ qcbQlog blk) :
    s.svcEnter d h c k va rec blk pub done = .wait s := if_pos (Nat.le_of_not_lt hfull)

theorem svcEnter_room (hroom : (s.ctrRead d pub).toNat - (s.ctrRead d done).toNat < 2 ^ qcbQlog blk)
    (hwr : s.vaWrite d h kStore (qcbSlot blk (s.ctrRead d pub)) (leBytes 64 rec.toNat) = .ok e) :
    s.svcEnter d h c k va rec blk pub done = .done (e.agentAdd c h .count (qcbPub blk) 1 4) .fall := by
  rw [svcEnter, if_neg hroom.not_ge, hwr]

end

/-! ### CKPT (11 R238; 14 R301) -/

theorem exec_ckpt (sc : BitVec 2) (s : State) : exec (.ckpt sc) s = .next (s.issue (.ckpt sc) sc ckptBody) := rfl
theorem exec_ckptCounter (sc : BitVec 2) (a b : BitVec 6) (s : State) :
    exec (.ckptCounter sc a b) s = .next (s.issue (.ckptCounter sc a b) sc (ckptCounterBody a b)) := rfl

theorem almanacOn_cur {r w : State} {d h : Nat} {on : Bool} (halm : r.almanacOn d h = (w, on)) : w.cur = r.cur := by
  have hcur := (almanacOn_memStep r d h).cur
  rwa [halm] at hcur

section
variable {s r w : State} {add : Option (DWord × Word)} (hr : MemStep s r)
include hr

/-- With intervals configured, CKPT asks for a close, which makes the add that it owes. -/
theorem askClose_on (halm : r.almanacOn s.myDie s.me.ctx = (w, true)) :
    r.askClose add = (w.updAlm s.me.ctx fun x => { x with waiting := x.waiting ++ [add] }).post (.cut s.me.ctx) := by
  simp only [askClose, hr.myDie, myCtx, hr.me, halm]
  rfl

theorem askClose_off (halm : r.almanacOn s.myDie s.me.ctx = (w, false)) : r.askClose none = w := by
  simp only [askClose, hr.myDie, myCtx, hr.me, halm]
  rfl

theorem askClose_off_add {va : DWord} {inc : Word} (halm : r.almanacOn s.myDie s.me.ctx = (w, false)) :
    r.askClose (some (va, inc)) = w.agentAdd s.cur.core s.me.ctx .ckpt va inc 4 := by
  have hcore : w.cur.core = s.cur.core := by rw [almanacOn_cur halm, hr.cur]
  simp only [askClose, hr.myDie, myCtx, hr.me, halm, hcore]
  rfl

end

theorem ckptBody_releases {s : State} (hcan : s.canRelease s.cur.core s.cur.slot 4 = true) :
    ckptBody s = .done ((s.releaseAt s.cur.core 4).askClose none) .fall := by
  unfold ckptBody
  exact afterRelease_can hcan

theorem ckptBody_unreleased {s : State} (hcan : ¬ s.canRelease s.cur.core s.cur.slot 4 = true) : ckptBody s = .wait s := by
  unfold ckptBody
  exact afterRelease_wait hcan

section
variable {s : State} {a b : BitVec 6} {home : CtrHome} {x : AccFail}
  (hwalk : s.coreWalkHold s.cur.core s.me.ctx (s.us64 a) = none)
include hwalk

/-- Where the counter's home is found, CKPT releases and asks for a close, or makes its add. -/
theorem ckptCounterBody_found (hhome : s.ctrHomeOf s.cur.core s.me.ctx s.me.team kCtrAdd (.addr (s.us64 a)) = .ok home)
    (hcan : (s.noteWalks [s.us64 a]).canRelease s.cur.core s.cur.slot 4 = true) : ckptCounterBody a b s =
      .done (((s.noteWalks [s.us64 a]).releaseAt s.cur.core 4).askClose (some (s.us64 a, s.us b))) .fall := by
  have hq : MemStep s (s.noteWalks [s.us64 a]) := noteWalks_memStep ..
  have hr : MemStep s ((s.noteWalks [s.us64 a]).releaseAt s.cur.core 4) := hq.trans (releaseAt_memStep ..)
  unfold ckptCounterBody
  dsimp only
  rw [walked_eq (by simpa [myCtx] using hwalk), myCtx, hhome]
  dsimp only
  rw [afterRelease_can (by rwa [hq.cur]), hq.cur, hr.us]

theorem ckptCounterBody_failed (hhome : s.ctrHomeOf s.cur.core s.me.ctx s.me.team kCtrAdd (.addr (s.us64 a)) = .error x) :
    ckptCounterBody a b s = .trap s (s.accTrap s.firstLane x) := by
  unfold ckptCounterBody
  dsimp only
  rw [walked_eq (by simpa [myCtx] using hwalk), myCtx, hhome]

end

/-- Settles O34: LAUNCH by its record's alignment and the room of its queue (`launchBody_aligned`), SVC by its service and
the room of its queue (`svcBody_found`), CKPT by whether intervals are configured (`askClose_on`, `askClose_off`). -/
theorem launchServiceCheckpoint : Obligations.LaunchServiceCheckpoint := by
  intro s sc a b n rec blk pub done home w v e c d h va k lane can r misaligned
  have hr : MemStep s r := releaseAt_memStep ..
  refine ⟨fun hcan => ⟨fun hrun => ?launchOff, fun hk hal hrun => ?svcOff⟩, fun hcan hal hrec => ⟨fun hroom => ?launches,
    fun hfull hrun => ?launchFull, ?svc, fun hk hnone hrun => ?noService⟩, fun hmis => ⟨fun hcan hrun => ?launchMisaligned,
    fun hk hrun => ?svcMisaligned⟩, fun hcan => ⟨fun halm => ?ckptOn, fun halm => ?ckptOff⟩,
    fun hcan hrun => ?ckptWaits, ?counter⟩
  case launchOff => exact exec_wait (exec_launch ..) hrun (launchBody_unreleased hcan)
  case svcOff => exact exec_wait (exec_svc ..) hrun (svcBody_unreleased hk hal hcan)
  case launches =>
    exact doesFall_of_cur (exec_launch ..) (launchBody_enqueues hcan hal hrec hroom)
      (hr.trans (readBlock_memStep hrec)).cur
  case launchFull => exact exec_wait (exec_launch ..) hrun (launchBody_full hcan hal hrec hfull)
  case svc =>
    intro hk hsvc hpub hdone hhold hlast hlost i room
    have hfound := svcBody_found hk hal hcan hrec hsvc hpub hdone hhold hlast hlost
    have hv : MemStep s v := hr.trans ((readBlock_memStep hrec).trans (serviceBlock_memStep hsvc))
    refine ⟨fun hroom hwr => ?_, fun hfull hrun => exec_wait (exec_svc ..) hrun (hfound.trans (svcEnter_full hfull))⟩
    exact doesFall_of_cur (exec_svc ..) (hfound.trans (svcEnter_room hroom hwr))
      ((agentAdd_cur ..).trans (hv.trans (vaWrite_memStep hwr)).cur)
  case noService => exact exec_trap (exec_svc ..) hrun (svcBody_noService hk hal hcan hrec hnone)
  case launchMisaligned => exact exec_trap (exec_launch ..) hrun (launchBody_misaligned hcan hmis)
  case svcMisaligned => exact exec_trap (exec_svc ..) hrun (svcBody_misaligned hk hmis)
  case ckptOn =>
    exact doesFall_of_cur (exec_ckpt ..) ((ckptBody_releases hcan).trans (congrArg (Did.done · .fall) (askClose_on hr halm)))
      ((almanacOn_cur halm).trans hr.cur)
  case ckptOff =>
    exact doesFall_of_cur (exec_ckpt ..) ((ckptBody_releases hcan).trans (congrArg (Did.done · .fall) (askClose_off hr halm)))
      ((almanacOn_cur halm).trans hr.cur)
  case ckptWaits => exact exec_wait (exec_ckpt ..) hrun (ckptBody_unreleased hcan)
  case counter =>
    intro hwalk q
    have hq : MemStep s (q.releaseAt c 4) := (noteWalks_memStep ..).trans (releaseAt_memStep ..)
    refine ⟨fun hhome hcan => ⟨fun halm => ?counterOn, fun halm => ?counterOff⟩, fun x hfail hrun => ?counterFails⟩
    case counterOn =>
      exact doesFall_of_cur (exec_ckptCounter ..)
        ((ckptCounterBody_found hwalk hhome hcan).trans (congrArg (Did.done · .fall) (askClose_on hq halm)))
        ((almanacOn_cur halm).trans hq.cur)
    case counterOff =>
      exact doesFall_of_cur (exec_ckptCounter ..)
        ((ckptCounterBody_found hwalk hhome hcan).trans (congrArg (Did.done · .fall) (askClose_off_add hq halm)))
        ((agentAdd_cur ..).trans ((almanacOn_cur halm).trans hq.cur))
    case counterFails => exact exec_trap (exec_ckptCounter ..) hrun (ckptCounterBody_failed hwalk hfail)

end State
end Sys2Proof.Machine
end

section
/-! PROOFS (11 R233; 13 R282): RNEXT and the lazy ranges of cores. -/

namespace Sys2Proof.Machine
namespace State

theorem SameWarps.me {s t : State} (h : SameWarps s t) : t.me = s.me := by
  obtain ⟨hcur, hwarp⟩ := h
  rw [State.me, hcur, hwarp]
  rfl

theorem SameWarps.ite {s a b : State} {p : Prop} [Decidable p] (h : SameWarps s a) (g : SameWarps s b) :
    SameWarps s (if p then a else b) := by split <;> assumption

theorem updCc_sameWarps (s : State) (c : Nat) (f : CoreCtx → CoreCtx) (h : ∀ x, (f x).warps = x.warps) :
    SameWarps s (s.updCc c f) := ⟨rfl, fun _ _ => warp_updCc _ _ _ _ _ h⟩

/-! ### The steal protocol moves no warp -/

/-- A core whose context is changed where it is the place `j` of launch `l`. -/
def coreLazyUpdated (l j : Nat) (f : CoreCtx → CoreCtx) (x : Core) : Core :=
  { x with cc := if isLazy l j x.cc then f x.cc else x.cc }

theorem core_updLazy (s : State) (l j : Nat) (f : CoreCtx → CoreCtx) (c : Nat) :
    (s.updLazy l j f).core c = coreLazyUpdated l j f (s.core c) :=
  Map.get_map (g := coreLazyUpdated l j f) rfl s.cores c

theorem updLazy_sameWarps (s : State) (l j : Nat) (f : CoreCtx → CoreCtx) (h : ∀ x, (f x).warps = x.warps) :
    SameWarps s (s.updLazy l j f) := by
  refine ⟨rfl, fun c k => ?_⟩
  have hwarps : (coreLazyUpdated l j f (s.core c)).cc.warps = (s.cc c).warps := by
    show (if isLazy l j (s.cc c) then f (s.cc c) else s.cc c).warps = (s.cc c).warps
    split
    · exact h _
    · rfl
  unfold warp cc
  rw [core_updLazy, hwarps]
  rfl

theorem armSteal_sameWarps (s : State) (l j : Nat) : SameWarps s (s.armSteal l j) := by
  unfold armSteal
  split
  next c _ =>
    have hsince := updCc_sameWarps s c (fun x => { x with stealSince := (s.core c).cyc }) fun _ => rfl
    exact hsince.trans (.of_memStep (postAfter_memStep ..))
  next => exact .refl s

theorem passSteal_sameWarps (s : State) (l j i : Nat) : SameWarps s (s.passSteal l j i) :=
  .ite (.of_memStep (post_memStep ..)) (.of_memStep (post_memStep ..))

theorem forwardSteals_sameWarps (l j n : Nat) (s : State) : SameWarps s (s.forwardSteals l j n) := by
  induction n generalizing s with
  | zero => exact .refl s
  | succ n ih =>
    unfold forwardSteals
    split
    · exact .refl s
    · split
      next => exact .refl s
      next i rest _ =>
        split
        · exact armSteal_sameWarps ..
        · have hpass := (updLazy_sameWarps s l j (fun y => { y with steals := rest }) fun _ => rfl).trans
            (passSteal_sameWarps _ l j i)
          exact hpass.trans (ih _)

theorem serveSteal_sameWarps (s : State) (l j : Nat) : SameWarps s (s.serveSteal l j) := by
  unfold serveSteal
  split
  next => exact .refl s
  next x _ =>
    split
    next => exact .refl s
    next i rest _ =>
      dsimp only
      split
      · exact .refl s
      · have hsplit := updLazy_sameWarps s l j
          (fun y => { y with steals := rest, lazyEnd := y.lazyEnd - (x.lazyEnd - x.lazyNext) / 2 }) fun _ => rfl
        exact hsplit.trans ((SameWarps.of_memStep (post_memStep ..)).trans (forwardSteals_sameWarps ..))

/-- With no request at its range, nothing is served. -/
theorem serveSteal_idle {s : State} {l j : Nat} {x : CoreCtx} (hx : s.lazyCc l j = some x) (h : x.steals = []) :
    s.serveSteal l j = s := by
  simp only [serveSteal, hx, h]

/-! ### RNEXT (11 R233) -/

theorem exec_rnext (sc : BitVec 2) (d : BitVec 6) (p : BitVec 2) (s : State) :
    exec (.rnext sc d p) s = .next (s.issue (.rnext sc d p) sc (rnextBody d p)) := rfl

/-- Another RNEXT of the core waits for its answer. -/
def rnextWaits (s : State) : Bool :=
  ((s.cc s.cur.core).warps.any fun e => e.2.sched.rnext.isSome) || (s.core s.cur.core).fw.sched.rnext.isSome

/-- The warp whose RNEXT waits, under request number `n`, for the answer to its core's request. -/
def rnextWarp (s : State) (d : BitVec 6) (p : BitVec 2) (n : Nat) (w : Warp) : Warp :=
  { w with
    var := w.var ++ [⟨.uni, d.toNat, s.cur.lanes, n⟩, ⟨.upred, p.toNat, s.cur.lanes, n⟩]
    sched := { w.sched with rnext := some { dest := d.toNat, pred := p.toNat, lanes := s.cur.lanes, pc := s.cur.pc, req := n } } }

/-- The running RNEXT waits for the answer to its core's request. -/
def waitRnext (s : State) (d : BitVec 6) (p : BitVec 2) : State := s.newReq.2.updMe (s.rnextWarp d p s.nextReq)

theorem newReq_addVars (s : State) (d : BitVec 6) (p : BitVec 2) :
    ((s.newReq.2.addVar .uni d.toNat 1 s.cur.lanes s.nextReq).addVar .upred p.toNat 1 s.cur.lanes s.nextReq).updMe (fun w =>
      w.updSched fun y => { y with
        rnext := some { dest := d.toNat, pred := p.toNat, lanes := s.cur.lanes, pc := s.cur.pc, req := s.nextReq } }) =
      s.waitRnext d p := by
  rw [addVar_eq, if_neg (by simp), addVar_eq, if_neg (by simp), updMe_updMe, updMe_updMe]
  refine updMe_congr _ _ _ ?_
  simp [rnextWarp, Warp.updSched, List.range_succ]

/-- It waits, and its core asks the next core of the launch for half of its range, unless its request is out already. -/
def askRange (s : State) (d : BitVec 6) (p : BitVec 2) (l : Nat) : State :=
  let x := s.cc s.cur.core
  if x.stealOut then s.waitRnext d p else
    ((s.waitRnext d p).updCc s.cur.core fun y => { y with stealOut := true }).post
      (.stealRequest (lazyName l ((x.lazyIndex + 1) % (s.launch l).lazy.length)) (lazyName l x.lazyIndex))

section
variable (s : State) (d : BitVec 6) (p : BitVec 2) (l : Nat)

theorem waitRnext_me : (s.waitRnext d p).me = s.rnextWarp d p s.nextReq s.me := updMe_me ..
theorem waitRnext_device : s.waitRnext d p = { s with cores := (s.waitRnext d p).cores, nextReq := s.nextReq + 1 } :=
  updMe_device ..
theorem waitRnext_stealOut (c : Nat) : ((s.waitRnext d p).cc c).stealOut = (s.cc c).stealOut := by
  rw [waitRnext, updMe_cc]
  rfl

theorem askRange_me : (s.askRange d p l).me = s.rnextWarp d p s.nextReq s.me := by
  rw [← waitRnext_me]
  unfold askRange
  dsimp only
  split
  · rfl
  · exact me_updCc (s.waitRnext d p) s.cur.core (fun y => { y with stealOut := true }) fun _ => rfl

theorem askRange_stealOut : ((s.askRange d p l).cc s.cur.core).stealOut = true := by
  unfold askRange
  dsimp only
  split
  next h => rwa [waitRnext_stealOut]
  next => rw [cc_post, cc_updCc, if_pos rfl]

theorem askRange_device : s.askRange d p l = { s with
    cores := (s.askRange d p l).cores
    nextReq := s.nextReq + 1
    agenda := s.agenda ++ if (s.cc s.cur.core).stealOut then [] else
      [.stealRequest (lazyName l (((s.cc s.cur.core).lazyIndex + 1) % (s.launch l).lazy.length))
        (lazyName l (s.cc s.cur.core).lazyIndex)] } := by
  unfold askRange
  dsimp only
  split
  · rw [List.append_nil]
    exact waitRnext_device ..
  · rw [waitRnext_device]
    rfl

end

section
variable {s : State} {d : BitVec 6} {p : BitVec 2} {l : Nat}

theorem rnextBody_waits (h : s.rnextWaits = true) : rnextBody d p s = .wait s := if_pos h

variable (h : ¬ s.rnextWaits = true)
include h

theorem rnextBody_noLaunch (hl : (s.cc s.cur.core).lazyLaunch = none) :
    rnextBody d p s = .done (s.varResult none p.toNat false) .fall := by
  refine (if_neg h).trans ?_
  rw [hl]

variable {e : State} (hl : (s.cc s.cur.core).lazyLaunch = some l) (he : s.serveSteal l (s.cc s.cur.core).lazyIndex = e)
include hl he

theorem rnextBody_claims (hr : (e.cc s.cur.core).lazyNext < (e.cc s.cur.core).lazyEnd) : rnextBody d p s =
    .done (((e.updCc s.cur.core fun y => { y with lazyNext := y.lazyNext + 1 }).forwardSteals l
      (e.cc s.cur.core).lazyIndex 65).varResult (some (d.toNat, BitVec.ofNat 32 (e.cc s.cur.core).lazyNext)) p.toNat true)
      .fall := by
  refine (if_neg h).trans ?_
  rw [hl]
  dsimp only
  rw [he, if_pos hr]

theorem rnextBody_ends (hr : ¬ (e.cc s.cur.core).lazyNext < (e.cc s.cur.core).lazyEnd) (hn : (e.launch l).lazy.length ≤ 1) :
    rnextBody d p s = .done (e.varResult none p.toNat false) .fall := by
  refine (if_neg h).trans ?_
  rw [hl]
  dsimp only
  rw [he, if_neg hr, if_pos hn]

theorem rnextBody_asks (hr : ¬ (e.cc s.cur.core).lazyNext < (e.cc s.cur.core).lazyEnd)
    (hn : ¬ (e.launch l).lazy.length ≤ 1) : rnextBody d p s = .done (e.askRange d p l) .stay := by
  have hcur : e.cur = s.cur := he ▸ (serveSteal_sameWarps ..).1
  refine (if_neg h).trans ?_
  rw [hl]
  dsimp only
  rw [he, if_neg hr, if_neg hn, addVar_cur, addVar_cur]
  refine congrArg (Did.done · .stay) ?_
  rw [askRange, hcur, ← newReq_addVars]
  rfl

end

/-- Settles O33: RNEXT by whether another waits, and by what the range holds once the first waiting request is served. -/
theorem rangeClaims : Obligations.RangeClaims := by
  intro s sc p d l c waits
  refine ⟨fun hw hrun => exec_wait (exec_rnext ..) hrun (rnextBody_waits hw), fun hw hl => ?none, ?some⟩
  case none =>
    exact doesFall_of_cur (exec_rnext ..) (rnextBody_noLaunch (Bool.eq_false_iff.mp hw) hl) (varResult_cur ..)
  case some =>
    intro hw hl e x n
    have hfree : ¬ s.rnextWaits = true := Bool.eq_false_iff.mp hw
    have hsame : SameWarps s e := serveSteal_sameWarps ..
    have hcur : e.cur = s.cur := hsame.1
    refine ⟨fun hr => ?claims, fun hr hn => ?ends, fun hr hn => ⟨e.askRange d p l, ?asks, ?device, ?var, ?rnext, ?out⟩,
      hsame.me, fun hidle hcc => serveSteal_idle hcc hidle⟩
    case claims =>
      exact doesFall_of_cur (exec_rnext ..) (rnextBody_claims hfree hl rfl hr)
        ((varResult_cur ..).trans ((forwardSteals_sameWarps ..).1.trans hcur))
    case ends => exact doesFall_of_cur (exec_rnext ..) (rnextBody_ends hfree hl rfl hr.not_gt hn) ((varResult_cur ..).trans hcur)
    case asks => exact does (exec_rnext ..) (rnextBody_asks hfree hl rfl hr.not_gt (by omega)) rfl
    case device =>
      have hx : e.cc e.cur.core = x := by rw [hcur]
      rw [← hx]
      exact askRange_device ..
    case var => rw [askRange_me, rnextWarp, hcur]
    case rnext => rw [askRange_me, rnextWarp, hcur]
    case out =>
      have hout := askRange_stealOut e d p l
      rwa [hcur] at hout

end State
end Sys2Proof.Machine
end

section
/-! PROOFS (11 R235, R236; 12 R253; 20 R364, R369): what entering and leaving a trap handler do, and the
words TRAP, BKPT and RFT. -/

namespace Sys2Proof.Machine
namespace State

/-! ### Trap entry (20 R364) -/

/-- The warp that enters its handler with a trap of the lanes `g`. -/
def trapEntered (s : State) (c : Nat) (g : Mask) (t : TrapInfo) (w : Warp) : Warp :=
  let x : Warp := { w with
    trap := { w.trap with
      tdet0 := tdet0 t w.trap.async.length, tdet1 := t.t1, tdet2 := t.t2, epc := t.epc, tmask := g, inHandler := true }
    sched := { w.sched with
      stallUntil := max w.sched.stallUntil (max ((s.core c).cyc + 4) (w.lastLanding + 1)), stallAll := true } }
  x.updLanes g fun _ l => { l with pc := w.trap.tvec, notBefore := 0 }

section
variable {s : State} {c k : Nat} {g : Mask} {t : TrapInfo}

/-- A warp with a vector that is in no handler enters it, and does not freeze. -/
theorem takeTrap_eq (hvec : (s.warp c k).trap.tvec ≠ 0) (hin : (s.warp c k).trap.inHandler = false) :
    s.takeTrap c k g t = s.updWarp c k fun _ => s.trapEntered c g t (s.warp c k) := by
  unfold takeTrap
  dsimp only [Warp.updTrap]
  rw [if_neg hvec, if_neg (by simp [hin]), updWarp_updWarp]
  rfl

/-- Nothing but that warp changes. -/
theorem takeTrap_trapped (hvec : (s.warp c k).trap.tvec ≠ 0) (hin : (s.warp c k).trap.inHandler = false) :
    s.Trapped c k g t (s.takeTrap c k g t) := by
  have hwarp : (s.takeTrap c k g t).warp c k = s.trapEntered c g t (s.warp c k) := by
    rw [takeTrap_eq hvec hin, warp_updWarp, if_pos ⟨rfl, rfl⟩]
  refine ⟨?_, fun j hj => ?_, ?_, ?_, fun j hj => ?_, ?_, fun l hl hg => ?_, fun l hg => ?_⟩
  · rw [takeTrap_eq hvec hin, updWarp_device]
  · rw [takeTrap_eq hvec hin, core_updWarp, if_neg hj]
  · rw [takeTrap_eq hvec hin, core_updWarp, if_pos rfl]
    split <;> rfl
  · rw [takeTrap_eq hvec hin, updWarp_cc]
  · rw [takeTrap_eq hvec hin, warp_updWarp, if_neg fun h => hj h.2]
  · rw [hwarp, trapEntered, Warp.updLanes_eq]
  · rw [hwarp, trapEntered, Warp.lane_updLanes, if_pos ⟨hl, hg⟩]
    rfl
  · rw [hwarp, trapEntered, Warp.lane_updLanes, if_neg (by simp [hg])]
    rfl

end

/-! ### TRAP and BKPT (11 R235) -/

theorem exec_trapWord (sc : BitVec 2) (n : BitVec 12) (s : State) :
    exec (.trap sc n) s = .next (s.issue (.trap sc n) sc fun s => s.afterTrap (s.debugTrap 1 n.toNat 0)) := rfl
theorem exec_bkpt (sc : BitVec 2) (n : BitVec 12) (s : State) :
    exec (.bkpt sc n) s = .next (s.issue (.bkpt sc n) sc fun s =>
      if (s.ctx s.myCtx).claim then .done (s.debugStop 1 n.toNat) .fall else s.afterTrap (s.debugTrap 2 n.toNat 0)) := rfl

@[simp] theorem debugStop_cur (s : State) (aux code : Nat) : (s.debugStop aux code).cur = s.cur :=
  (debugStop_spec ..).cur.trans (updMe_cur ..)

/-- The state in which the lanes of Active have gone past their unit. -/
def advanced (s : State) : State := s.updMe fun w => w.updLanes s.cur.lanes fun _ l => { l with pc := s.fallThrough }

section
variable {s : State} {i : Instr} {sc : BitVec 2} {body : State → Did} {t : TrapInfo}

/-- A word that completes and then traps: the trap is taken behind its unit. -/
theorem exec_afterTrap (hsecond : s.cur.second = true → s.cur.firstTrapped = false) (hx : exec i s = .next (s.issue i sc body))
    (hr : s.Runs i) (hb : body s = s.afterTrap t) :
    exec i s = .next { s.advanced.takeTrap s.cur.core s.cur.slot s.cur.lanes { t with epc := s.fallThrough } with
      cur := { s.cur with firstTrapped := true } } := by
  have hpair : ¬ (s.cur.second && s.cur.firstTrapped) = true := by
    simpa using hsecond
  have hcur : s.advanced.cur = s.cur := updMe_cur ..
  have hbody : body s = .trap s.advanced { t with epc := s.fallThrough } := hb.trans (if_neg hpair)
  rw [exec_trap hx hr hbody, syncTrap, hcur, if_neg hpair]

end

/-! ### RFT (11 R236; 20 R369) -/

theorem exec_rft (sc : BitVec 2) (s : State) : exec (.rft sc) s = .next (s.issue (.rft sc) sc fun s =>
    .done ((s.returnFromTrap s.cur.core s.cur.slot s.cur.lanes).retryCopies s.cur.core s.cur.slot) .stay) := rfl

end State

namespace Warp

/-- The warp that has left its handler, with the lanes `g` at EPC and every other where it was held. -/
def returned (w : Warp) (g : Mask) : Warp :=
  (w.updTrap fun t => { t with inHandler := false }).updLanes g fun _ l => { l with pc := w.trap.epc }

theorem updTrap_outside {w : Warp} (h : w.trap.inHandler = false) : (w.updTrap fun t => { t with inHandler := false }) = w := by
  rw [updTrap, ← h]

theorem filter_spawns {w : Warp} (h : w.sched.spawns = []) (f : SpawnStall → Bool) :
    (w.updSched fun x => { x with spawns := x.spawns.filter f }) = w := by
  rw [updSched, h, List.filter_nil, ← h]

/-- With a lane runnable, leaving the handler wakes no parked lane (02 R28). -/
theorem leaveHandler_of_runnable {w : Warp} {l : Nat} (hl : l < 32) (h : (w.lane l).state = .runnable) :
    w.leaveHandler = w.updTrap fun t => { t with inHandler := false } :=
  release_of_runnable _ hl h

end Warp

namespace State

/-- With no REP sequence and no stalled SPAWN under way, and a lane runnable, a return moves its lanes and ends the handler. -/
theorem returnFromTrap_eq {s : State} {g : Mask} (hrep : s.me.uni.rep = none) (hsp : s.me.sched.spawns = [])
    (hrun : ∃ l < 32, (s.me.lane l).state = .runnable) :
    s.returnFromTrap s.cur.core s.cur.slot g = s.updMe fun w => w.returned g := by
  obtain ⟨l, hl, hrun⟩ := hrun
  let moved : Warp := s.me.updLanes g fun _ l => { l with pc := s.me.trap.epc }
  have hmoved : (moved.lane l).state = .runnable := by
    rw [Warp.lane_updLanes]
    split <;> exact hrun
  refine updMe_congr _ _ _ ?_
  dsimp only
  rw [Warp.updLanes_trap, Warp.updLanes_uni, hrep]
  split
  next hin =>
    dsimp only
    rw [Warp.filter_spawns ((congrArg WarpSched.spawns (Warp.updLanes_sched ..)).trans hsp),
      Warp.leaveHandler_of_runnable hl hmoved, ← Warp.updLanes_updTrap]
    rfl
  next hin => rw [Warp.returned, Warp.updTrap_outside (by simpa using hin)]

/-- The halted copies of a warp whose traps are no longer pending, which go on with its return (12 R253). -/
def retried (s : State) (c k : Nat) : List Nat :=
  ((s.cc c).copies.filter fun e => e.2.slot = k && e.2.halted &&
    !((s.warp c k).trap.async.any fun t => t.group = grpCopy && bitsOf t.code 11 8 = e.2.desc)).map Prod.fst

theorem retryCopies_agenda (s : State) (c k : Nat) :
    (s.retryCopies c k).agenda = s.agenda ++ (s.retried c k).map fun n => .copyComplete c n := rfl

theorem retryCopies_me (s : State) (c k : Nat) : (s.retryCopies c k).me = s.me :=
  me_updCc s c (fun z => { z with
    copies := z.copies.map fun e => if (s.retried c k).contains e.1 then (e.1, { e.2 with halted := false }) else e })
    fun _ => rfl

theorem retried_nil {s : State} {c k : Nat} (h : ((s.cc c).copies.filter fun e => e.2.slot = k && e.2.halted) = []) :
    s.retried c k = [] := by
  rw [retried, List.map_eq_nil_iff, List.filter_eq_nil_iff]
  intro e he
  have hnot := List.filter_eq_nil_iff.mp h e he
  simp only [Bool.and_eq_true, not_and] at hnot ⊢
  exact fun hboth => absurd hboth.2 (hnot hboth.1)

theorem mem_retried {s : State} {c k m : Nat} {x : Copy} (hx : (s.cc c).copies.find m = some x) (hk : x.slot = k)
    (hh : x.halted = true) (ht : ∀ t ∈ (s.warp c k).trap.async, t.group = 9 → t.code / 2 ^ 8 % 16 ≠ x.desc) :
    m ∈ s.retried c k := by
  refine List.mem_map.mpr ⟨(m, x), List.mem_filter.mpr ⟨Map.mem_of_find hx, ?_⟩, rfl⟩
  simp only [hk, hh, decide_true, Bool.true_and, Bool.and_self, Bool.not_eq_true', List.any_eq_false, Bool.and_eq_true,
    decide_eq_true_eq, not_and]
  intro t htm hgroup
  rw [bitsOf, Nat.shiftRight_eq_div_pow]
  exact ht t htm hgroup

/-- Settles O40: TRAP and BKPT by the trap that follows them (`exec_afterTrap`, `takeTrap_trapped`), RFT by the warp that it
leaves (`returnFromTrap_eq`) and the copies that it tries again (`mem_retried`). -/
theorem trapWords : Obligations.TrapWords := by
  intro s sc n c k next e back
  have hback : back.me.trap.async = s.me.trap.async := by
    rw [updMe_me, Warp.updLanes_trap]
    rfl
  have hcopies : (back.cc c).copies = (s.cc c).copies := by
    rw [updMe_cc]
  refine ⟨fun hsecond hvec hin i kind hi hclaim hr => ?traps, fun hclaim => ⟨?stops, ?stopped⟩, fun hrep hsp hrun => ?returns,
    fun hnone => ?idle, fun m x hx hk hh ht => ?retried⟩
  case traps =>
    have enters (t : TrapInfo) : e.Trapped c k s.cur.lanes t (s.advanced.takeTrap s.cur.core s.cur.slot s.cur.lanes t) := by
      have hwarp : e.warp c k = e.me := by rw [me, updMe_cur]
      have htrap : (e.warp c k).trap = s.me.trap := by rw [hwarp, updMe_me, Warp.updLanes_trap]
      exact takeTrap_trapped (by rwa [htrap]) (by rwa [htrap])
    simp only [List.mem_cons, List.not_mem_nil, or_false, Prod.mk.injEq] at hi
    rcases hi with ⟨rfl, rfl⟩ | ⟨rfl, rfl⟩
    · exact ⟨_, exec_afterTrap hsecond (exec_trapWord ..) hr rfl, enters _⟩
    · exact ⟨_, exec_afterTrap hsecond (exec_bkpt ..) hr (if_neg (Bool.eq_false_iff.mp (hclaim rfl))), enters _⟩
  case stops => exact doesFall_of_cur (exec_bkpt ..) (if_pos hclaim) (debugStop_cur ..)
  case stopped =>
    rw [(debugStop_spec ..).me, updMe_me]
    rfl
  case returns =>
    refine does (f := .stay) (exec_rft ..) ?_ rfl
    have hreturned : s.returnFromTrap c k s.cur.lanes = back := (returnFromTrap_eq hrep hsp hrun).trans (updMe_congr _ _ _ rfl)
    rw [hreturned]
  case idle =>
    have hnil : back.retried c k = [] := retried_nil (by rw [hcopies]; exact hnone)
    refine ⟨retryCopies_me .., ?_⟩
    rw [retryCopies_agenda, hnil, List.map_nil, List.append_nil]
    exact updWarp_agenda ..
  case retried =>
    rw [retryCopies_agenda]
    refine List.mem_append_right _ (List.mem_map.mpr ⟨m, mem_retried (x := x) ?_ hk hh ?_, rfl⟩)
    · rwa [hcopies]
    · have hwarp : back.warp c k = back.me := by rw [me, updMe_cur]
      rwa [hwarp, hback]

end State
end Sys2Proof.Machine
end

section
/-! PROOFS (11 R235, R239; 17 R333, R336, R338, R340 to R342): region edges, tile trackers, captures and stops at an edge. -/

namespace Sys2Proof.Machine
namespace State

/-! ### What an edge does beside the stack -/

theorem regionRecord_sameWarps (s : State) (aux : Nat) (id : BitVec 16) : SameWarps s (s.regionRecord aux id) :=
  .of_recStep (trace_recStep ..)

theorem openTracker_sameWarps (s : State) (id : BitVec 16) : SameWarps s (s.openTracker id) := by
  unfold openTracker
  dsimp only
  split
  next =>
    have hlost := updCore_recStep s s.cur.core (fun x => { x with lost := x.lost + 1 }) fun _ => ⟨rfl, rfl, rfl⟩
    exact .of_recStep (hlost.trans (countEv_recStep ..))
  next => exact ⟨rfl, fun _ _ => warp_updCc _ _ _ _ _ fun _ => rfl⟩

theorem trackerDone_sameWarps (s : State) (c n : Nat) : SameWarps s (s.trackerDone c n) := by
  unfold trackerDone
  split
  · exact .ite (.of_recStep (post_recStep ..)) (.refl s)
  · exact .refl s

theorem updTracker_sameWarps (s : State) (c n : Nat) (f : Tracker → Tracker) : SameWarps s (s.updTracker c n f) :=
  updCc_sameWarps s c (fun x => { x with trackers := x.trackers.map fun e => if e.1 = n then (n, f e.2) else e }) fun _ => rfl

theorem closeTracker_sameWarps (s : State) (depth : Nat) : SameWarps s (s.closeTracker depth) := by
  unfold closeTracker
  dsimp only
  split
  · exact (updTracker_sameWarps ..).trans (trackerDone_sameWarps ..)
  · exact .refl s

theorem beginCapture_sameWarps (s : State) (h trigger : Nat) : SameWarps s (s.beginCapture h trigger) :=
  .ite (.refl s) (.of_recStep (updCtx_recStep ..))

theorem edgeStop_cur (s : State) (id : BitVec 16) (edge : Nat) : (s.edgeStop id edge).cur = s.cur := by
  unfold edgeStop
  split
  · exact debugStop_cur ..
  · split
    · exact debugStop_cur ..
    · rfl

/-- The first free tracker is opened, with what stands at the edge. -/
theorem openTracker_opens {s : State} {id : BitVec 16} {n : Nat} (hn : n < 16)
    (hused : ∀ m < n, ((s.cc s.cur.core).trackers.find m).isSome = true) (hfree : (s.cc s.cur.core).trackers.find n = none) :
    ((s.openTracker id).cc s.cur.core).trackers.find n = some
      { slot := s.cur.slot, rid := id, rgns := s.me.rgns, cyc0 := s.now, depth := s.me.uni.regions.length, wid := s.me.wid } := by
  have hfirst : ((List.range 16).find? fun m => ((s.cc s.cur.core).trackers.find m).isNone) = some n := by
    rw [List.find?_range_eq_some]
    refine ⟨by rw [hfree]; rfl, List.mem_range.mpr hn, fun m hm => ?_⟩
    simpa [Option.isSome_iff_ne_none] using hused m hm
  unfold openTracker
  dsimp only
  rw [hfirst]
  dsimp only
  rw [cc_updCc, if_pos rfl, Map.find_set, if_pos rfl]

theorem beginCapture_starts {s : State} {h : Nat} (trigger : Nat) (hlive : (s.ctx h).cap.live = false) :
    ((s.beginCapture h trigger).ctx h).cap = { live := true, trigger := trigger } := by
  rw [beginCapture, if_neg (by simp [hlive]), ctx_updCtx, if_pos rfl]

/-- No edge of the id stops the warp, where no valid entry names it for that edge and HALT is clear (17 R340, R341). -/
theorem edgeStop_quiet {s : State} {id : BitVec 16} {edge : Nat}
    (hentry : ∀ n < 4, ((s.ctx s.me.ctx).stoprgn n).getLsbD 31 = true → ((s.ctx s.me.ctx).stoprgn n).extractLsb' 0 16 = id →
      ((s.ctx s.me.ctx).stoprgn n).toNat / 2 ^ 16 % 4 / 2 ^ (edge - 1) % 2 = 0)
    (hhalt : (s.ctx s.me.ctx).halt = false) : s.edgeStop id edge = s := by
  have hstops : ¬ s.edgeStops id edge = true := by
    simp only [edgeStops, List.any_eq_true, List.mem_range, not_exists, not_and, Bool.and_eq_true, decide_eq_true_eq]
    intro n hn hvalid htest
    have hzero := hentry n hn hvalid.1 hvalid.2
    rw [bitsOf, Nat.shiftRight_eq_div_pow, Nat.testBit_eq_decide_div_mod_eq, decide_eq_true_eq] at htest
    exact absurd (hzero.symm.trans htest) Nat.zero_ne_one
  rw [edgeStop, if_neg hstops, if_neg (by rw [myCtx, hhalt]; decide)]

/-! ### RGNENT and RGNLVE -/

theorem exec_rgnent (sc : BitVec 2) (a : BitVec 6) (s : State) :
    exec (.rgnent sc a) s = .next (s.issue (.rgnent sc a) sc (rgnentBody a)) := rfl
theorem exec_rgnlve (sc : BitVec 2) (a : BitVec 6) (s : State) :
    exec (.rgnlve sc a) s = .next (s.issue (.rgnlve sc a) sc (rgnlveBody a)) := rfl

/-- The running warp with another region stack. -/
def withRegions (s : State) (rs : List (BitVec 16)) : State := s.updMe fun w => w.updUni fun u => { u with regions := rs }

@[simp] theorem withRegions_cur (s : State) (rs : List (BitVec 16)) : (s.withRegions rs).cur = s.cur := updMe_cur ..
@[simp] theorem withRegions_ctx (s : State) (rs : List (BitVec 16)) : (s.withRegions rs).me.ctx = s.me.ctx := by
  rw [withRegions, updMe_me]
  rfl

/-- The state in which the running warp has entered a region, before a stop at the edge. -/
def entered (s : State) (id : BitVec 16) : State :=
  let e := (s.regionRecord 0 id).withRegions (id :: s.me.uni.regions)
  let e := if id.getLsbD 15 then e.openTracker id else e
  if decide (id = (s.ctx s.me.ctx).capctl.extractLsb' 16 16) then e.beginCapture s.me.ctx 1 else e

/-- The state in which it has left its top region. -/
def left (s : State) (id : BitVec 16) (rest : List (BitVec 16)) : State :=
  let e := ((s.regionRecord 1 id).withRegions rest).closeTracker s.me.uni.regions.length
  if (s.ctx s.me.ctx).cap.live && (s.ctx s.me.ctx).cap.trigger = 1 && id = (s.ctx s.me.ctx).capctl.extractLsb' 16 16
  then e.post (.captureEnd s.me.ctx) else e

section
variable {s : State} {a : BitVec 6}

theorem rgnentBody_enters (hid : s.regionId a ≠ 0#16) (hroom : s.me.uni.regions.length < 16) :
    rgnentBody a s = .done ((s.entered (s.regionId a)).edgeStop (s.regionId a) 1) .fall := by
  have hrec := (regionRecord_sameWarps s 0 (s.regionId a)).me
  have hstack : ((s.regionRecord 0 (s.regionId a)).updMe fun w => w.updUni fun u =>
        { u with regions := s.regionId a :: u.regions }) =
      (s.regionRecord 0 (s.regionId a)).withRegions (s.regionId a :: s.me.uni.regions) :=
    updMe_congr _ _ _ (by rw [hrec]; rfl)
  have hctx (b : Bool) (e : State) (he : e.me.ctx = s.me.ctx) :
      (if b then e.openTracker (s.regionId a) else e).myCtx = s.me.ctx := by
    cases b
    · exact he
    · exact (congrArg Warp.ctx (openTracker_sameWarps ..).me).trans he
  unfold rgnentBody
  dsimp only
  rw [if_neg hid, if_neg hroom.not_ge, hstack, hctx _ _ ((withRegions_ctx ..).trans (congrArg Warp.ctx hrec)), entered]
  simp only [decide_eq_true_eq]
  rfl

theorem rgnlveBody_leaves {rest : List (BitVec 16)} (hs : s.me.uni.regions = s.regionId a :: rest) :
    rgnlveBody a s = .done ((s.left (s.regionId a) rest).edgeStop (s.regionId a) 2) .fall := by
  have hdepth : s.me.uni.regions.length = rest.length + 1 := congrArg List.length hs
  have hctx : (((s.regionRecord 1 (s.regionId a)).withRegions rest).closeTracker (rest.length + 1)).myCtx = s.me.ctx := by
    rw [myCtx, (closeTracker_sameWarps ..).me, withRegions_ctx, (regionRecord_sameWarps ..).me]
  unfold rgnlveBody
  dsimp only
  rw [hs]
  dsimp only
  rw [if_neg (not_not_intro rfl), left, hdepth, ← withRegions, hctx]
  rfl

theorem rgnlveBody_empty (h : s.me.uni.regions = []) : rgnlveBody a s = .trap s (s.debugTrap 5 0 (s.regionId a)) := by
  unfold rgnlveBody
  dsimp only
  rw [h]

theorem rgnlveBody_other (hne : s.me.uni.regions.length ≠ 0) (h : s.me.uni.regions.head? ≠ some (s.regionId a)) :
    rgnlveBody a s = .trap s (s.debugTrap 6 0 (s.regionId a)) := by
  obtain ⟨top, rest, hs⟩ := List.exists_cons_of_length_pos (Nat.pos_of_ne_zero hne)
  have htop : top ≠ s.regionId a := fun heq => h (by rw [hs, heq]; rfl)
  unfold rgnlveBody
  dsimp only
  rw [hs]
  exact if_pos htop

theorem entered_cur (s : State) (id : BitVec 16) : (s.entered id).cur = s.cur := by
  have hstack : ((s.regionRecord 0 id).withRegions (id :: s.me.uni.regions)).cur = s.cur :=
    (withRegions_cur ..).trans (regionRecord_sameWarps ..).1
  exact ((SameWarps.ite (openTracker_sameWarps ..) (.refl _)).trans (.ite (beginCapture_sameWarps ..) (.refl _))).1.trans hstack

theorem left_cur (s : State) (id : BitVec 16) (rest : List (BitVec 16)) : (s.left id rest).cur = s.cur := by
  have hstack : ((s.regionRecord 1 id).withRegions rest).cur = s.cur := (withRegions_cur ..).trans (regionRecord_sameWarps ..).1
  exact ((closeTracker_sameWarps ..).trans (.ite (.of_recStep (post_recStep ..)) (.refl _))).1.trans hstack

end

/-- Settles O41: RGNENT and RGNLVE by what they leave (`rgnentBody_enters`, `rgnlveBody_leaves`) and by the stack's checks,
the tracker and the capture by what is opened (`openTracker_opens`, `beginCapture_starts`), a stop by `edgeStop_quiet`. -/
theorem regionResults : Obligations.RegionResults := by
  intro s sc a c h id depth trig trap traps stack record quiet
  refine ⟨fun hid hr => ?zero, fun hid hfull hr => ?full, fun hempty hr => ?empty, fun hnone hother hr => ?other,
    fun hid hroom => ?enters, fun rest hs => ?leaves, fun hq => ?quietEnter, fun hq => ?quietLeave,
    fun n hn hused hfree => openTracker_opens hn hused hfree, fun hlive => beginCapture_starts 1 hlive⟩
  case zero => exact exec_trap (exec_rgnent ..) hr (if_pos hid)
  case full => exact exec_trap (exec_rgnent ..) hr ((if_neg hid).trans (if_pos hfull))
  case empty => exact exec_trap (exec_rgnlve ..) hr (rgnlveBody_empty (List.eq_nil_of_length_eq_zero hempty))
  case other => exact exec_trap (exec_rgnlve ..) hr (rgnlveBody_other hnone hother)
  case enters =>
    exact doesFall_of_cur (exec_rgnent ..) (rgnentBody_enters hid hroom) ((edgeStop_cur ..).trans (entered_cur ..))
  case leaves =>
    exact doesFall_of_cur (exec_rgnlve ..) (rgnlveBody_leaves hs) ((edgeStop_cur ..).trans (left_cur ..))
  case quietEnter => exact edgeStop_quiet hq.1 hq.2
  case quietLeave => exact edgeStop_quiet hq.1 hq.2

end State
end Sys2Proof.Machine
end

section
/-! PROOFS (12 R257; 17 R339): what MSIGN leaves, read from the checks of its count and from its convergence register. -/

namespace Sys2Proof.Machine
namespace State

/-! ### MSIGN's checks and what it leaves -/

/-- Both words of MSIGN run the same body, with the count that they name. -/
theorem exec_msign {sc : BitVec 2} {n : BitVec 4} {count : BitVec 12} {a : BitVec 6} {s : State} {i : Instr} {x : Word}
    (h : (i, x) ∈ [(Instr.msignCount sc n count, count.setWidth 32), (.msignReg sc n a, s.us a)]) :
    ∃ body, exec i s = .next (s.issue i sc body) ∧ body s = msignBody n x s := by
  simp only [List.mem_cons, List.not_mem_nil, or_false, Prod.mk.injEq] at h
  rcases h with ⟨rfl, rfl⟩ | ⟨rfl, rfl⟩
  · exact ⟨_, rfl, rfl⟩
  · exact ⟨_, rfl, rfl⟩

/-- The lanes of Active may sign: none of them has, and no scratchpad write of the warp is outstanding. -/
def SignFree (s : State) (n : Nat) : Prop :=
  (s.cvReg n).mask.get 0 s.me.wid &&& s.cur.lanes = 0#32 ∧ s.storesOut s.cur.core s.cur.slot = false

/-- The count is one that a convergence register takes: 1 to 1,024, and EXPECT where it is armed. -/
def SignFits (s : State) (n : Nat) (x : Word) : Prop :=
  x.toNat ≠ 0 ∧ x.toNat ≤ 1024 ∧ ((s.cvReg n).armed = true → x.toNat = (s.cvReg n).expect)

/-- The signatures with those of the lanes of Active. -/
def signTotal (s : State) (n : Nat) : Nat :=
  (if (s.cvReg n).armed then (s.cvReg n).signed else 0) + (lanesOf s.cur.lanes).length

/-- The signed mask with the lanes of Active. -/
def signMask (s : State) (n : Nat) : Map Mask := (s.cvReg n).mask.upd 0 s.me.wid (· ||| s.cur.lanes)

/-- The stamp that a signature leaves in the warp's topmost tracker (17 R339). -/
def signStamped (s : State) : State :=
  match s.topTracker s.cur.core s.cur.slot with
  | some t => s.updTracker s.cur.core t fun y => stamp y 2 true
  | none => s

/-- The state with the stamp in which convergence register `n` of the warp's team holds `cv`. -/
def signed (s : State) (n : Nat) (cv : CvReg) : State :=
  s.signStamped.updTeam s.cur.core s.signStamped.me.team fun t => { t with cv := t.cv.set n cv }

/-- The topmost trackers of the warps that have signed. -/
def signTrackers (s : State) (n : Nat) : List Nat :=
  (((s.signStamped.cc s.cur.core).warps.filter fun e =>
    e.2.team = s.signStamped.me.team && (s.signMask n).get 0 e.2.wid != 0#32).filterMap fun e =>
      s.signStamped.topTracker s.cur.core e.1).dedup

theorem signStamped_sameWarps (s : State) : SameWarps s s.signStamped := by
  unfold signStamped
  split
  · exact updTracker_sameWarps ..
  · exact .refl s

theorem signStamped_warps (s : State) (c : Nat) : (s.signStamped.cc c).warps = (s.cc c).warps := by
  unfold signStamped
  split
  · rw [updTracker, cc_updCc]
    split
    next h => rw [h]
    next => rfl
  · rfl

@[simp] theorem signed_cur (s : State) (n : Nat) (cv : CvReg) : (s.signed n cv).cur = s.cur := (signStamped_sameWarps s).1

theorem signed_eq (s : State) (n : Nat) (cv : CvReg) : s.signed n cv =
    s.signStamped.updTeam s.cur.core s.me.team fun t => { t with cv := t.cv.set n cv } := by
  rw [signed, (signStamped_sameWarps s).me]

theorem mem_signTrackers (s : State) (n m : Nat) : m ∈ s.signTrackers n ↔
    ∃ e ∈ (s.cc s.cur.core).warps.filter fun e => decide (e.2.team = s.me.team ∧ (s.signMask n).get 0 e.2.wid ≠ 0#32),
      s.signStamped.topTracker s.cur.core e.1 = some m := by
  rw [signTrackers, (signStamped_sameWarps s).me, signStamped_warps]
  simp

section
variable {s : State} {n : BitVec 4} {x : Word} (hb : s.boundNext = true)
include hb

theorem msignBody_waits (h : ¬ s.SignFree n.toNat) : msignBody n x s = .wait s := by
  have hwait : ((s.cvReg n.toNat).mask.get 0 s.me.wid &&& s.cur.lanes != 0#32 || s.storesOut s.cur.core s.cur.slot) = true := by
    by_contra hn
    exact h (by simpa [SignFree] using hn)
  exact (if_neg (by simp [hb])).trans (if_pos hwait)

variable (hfree : s.SignFree n.toNat)
include hfree

/-- MSIGN of lanes that may sign: the checks of its count, and then its signatures. -/
theorem msignBody_free : msignBody n x s =
    if x.toNat = 0 || 1024 < x.toNat || ((s.cvReg n.toNat).armed && x.toNat != (s.cvReg n.toNat).expect) then
      .trap s (s.mtrap 13 n.toNat x)
    else if x.toNat < s.signTotal n.toNat then .trap s (s.mtrap 14 n.toNat x)
    else if s.signTotal n.toNat = x.toNat then
      .done ((s.signed n.toNat { expect := x.toNat, gen := ((s.cvReg n.toNat).gen + 1) % 65536 }).updMe fun w =>
        { w with sched := { w.sched with bound := w.sched.bound ++ [(s.signStamped.cur.lanes, s.signTrackers n.toNat)] } }) .fall
    else .done (s.signed n.toNat
        { armed := true, expect := x.toNat, signed := s.signTotal n.toNat, gen := (s.cvReg n.toNat).gen
          mask := s.signMask n.toNat }) (.goto fun _ => s.signStamped.fallThrough + 4) := by
  have hgo : ((s.cvReg n.toNat).mask.get 0 s.me.wid &&& s.cur.lanes != 0#32 || s.storesOut s.cur.core s.cur.slot) = false := by
    rw [hfree.1, hfree.2]
    rfl
  exact (if_neg (by simp [hb])).trans (if_neg (by rw [hgo]; decide))

theorem msignBody_mismatch (h : ¬ s.SignFits n.toNat x) : msignBody n x s = .trap s (s.mtrap 13 n.toNat x) := by
  rw [msignBody_free hb hfree, if_pos]
  by_contra hn
  exact h (by simpa [SignFits, and_assoc] using hn)

variable (hfits : s.SignFits n.toNat x)
include hfits

theorem msignBody_fits : msignBody n x s =
    if x.toNat < s.signTotal n.toNat then .trap s (s.mtrap 14 n.toNat x)
    else if s.signTotal n.toNat = x.toNat then
      .done ((s.signed n.toNat { expect := x.toNat, gen := ((s.cvReg n.toNat).gen + 1) % 65536 }).updMe fun w =>
        { w with sched := { w.sched with bound := w.sched.bound ++ [(s.cur.lanes, s.signTrackers n.toNat)] } }) .fall
    else .done (s.signed n.toNat
        { armed := true, expect := x.toNat, signed := s.signTotal n.toNat, gen := (s.cvReg n.toNat).gen
          mask := s.signMask n.toNat }) (.goto fun _ => s.fallThrough + 4) := by
  obtain ⟨hzero, hmost, hexpect⟩ := hfits
  have hcur := (signStamped_sameWarps s).1
  rw [msignBody_free hb hfree, if_neg (by simpa [hzero, hmost] using hexpect), fallThrough, hcur]
  rfl

end

/-- Settles O38: a group that may not sign waits (`msignBody_waits`), a count that does not fit traps (`msignBody_mismatch`),
and one that fits is compared with the signatures (`msignBody_fits`). -/
theorem signResults : Obligations.SignResults := by
  intro s sc n count a i x hword c cv had tot mask fits free stamped signers put hb
  obtain ⟨body, hx, hbody⟩ := exec_msign hword
  refine ⟨fun hfree hfits => ⟨fun hlt => ?below, fun heq => ?last, fun hgt hr => ?exceeds⟩, fun hfree hnot hr => ?mismatch,
    fun hnot hr => ?waits⟩
  case below =>
    have hdone := (hbody.trans (msignBody_fits hb hfree hfits)).trans
      ((if_neg (Nat.lt_asymm hlt)).trans (if_neg hlt.ne))
    rw [signed_eq] at hdone
    exact does hx hdone rfl
  case last =>
    have hdone := (hbody.trans (msignBody_fits hb hfree hfits)).trans ((if_neg heq.not_gt).trans (if_pos heq))
    refine ⟨s.signTrackers n.toNat, ?_, fun m => mem_signTrackers ..⟩
    have hdoes := doesFall_of_cur hx hdone (by rw [updMe_cur, signed_cur])
    rwa [signed_eq] at hdoes
  case exceeds => exact exec_trap hx hr ((hbody.trans (msignBody_fits hb hfree hfits)).trans (if_pos hgt))
  case mismatch => exact exec_trap hx hr (hbody.trans (msignBody_mismatch hb hfree hnot))
  case waits => exact exec_wait hx hr (hbody.trans (msignBody_waits hb hnot))

end State
end Sys2Proof.Machine
end

section
/-! PROOFS (12 R251, R252, R254; 17 R338): batches and the trackers that note them, waiting on batches, and window
descriptors. -/

namespace Sys2Proof.Machine

/-- A numbered counter that has no counter of its role after it. -/
def CounterName.isLast : CounterName → Bool
  | .num _ n => n = 63
  | .addr _ => false

theorem CounterName.isLast_iff (name : CounterName) : name.isLast = true ↔ ∃ r, name = .num r 63 := by
  cases name <;> simp [CounterName.isLast]

namespace State

/-! ### Changes of a core's tile trackers -/

/-- Nothing but the tile trackers of core `c` has changed. -/
structure TrackersOnly (s : State) (c : Nat) (t : State) : Prop where
  device : t = { s with cores := t.cores }
  otherCores : ∀ j, j ≠ c → t.core j = s.core j
  core : t.core c = { s.core c with cc := t.cc c }
  context : t.cc c = { s.cc c with trackers := (t.cc c).trackers }

namespace TrackersOnly
theorem refl (s : State) (c : Nat) : TrackersOnly s c s := ⟨rfl, fun _ _ => rfl, rfl, rfl⟩
theorem trans {s t u : State} {c : Nat} (h : TrackersOnly s c t) (g : TrackersOnly t c u) : TrackersOnly s c u := by
  refine ⟨?_, fun j hj => (g.otherCores j hj).trans (h.otherCores j hj), ?_, ?_⟩
  · rw [g.device, h.device]
  · rw [g.core, h.core]
  · rw [g.context, h.context]
theorem foldl {α : Type} {c : Nat} (f : State → α → State) (H : ∀ s x, TrackersOnly s c (f s x)) (l : List α) (s : State) :
    TrackersOnly s c (l.foldl f s) := by
  induction l generalizing s with
  | nil => exact refl s c
  | cons a l ih => exact (H s a).trans (ih _)
theorem sameWarps {s t : State} {c : Nat} (h : TrackersOnly s c t) : SameWarps s t := by
  refine ⟨by rw [h.device], fun j k => ?_⟩
  by_cases hj : j = c
  · subst hj
    rw [State.warp, State.warp, h.context, h.core]
  · rw [State.warp, State.warp, State.cc, h.otherCores j hj]
    rfl
end TrackersOnly

theorem updTracker_trackersOnly (s : State) (c n : Nat) (f : Tracker → Tracker) : TrackersOnly s c (s.updTracker c n f) := by
  unfold updTracker
  refine ⟨rfl, fun j hj => ?_, ?_, ?_⟩
  · rw [core_updCc, if_neg hj]
  · rw [core_updCc, if_pos rfl, cc_updCc, if_pos rfl]
  · rw [cc_updCc, if_pos rfl]

/-! ### Sealing a batch (12 R251) -/

/-- The copies of a core among some numbers. -/
def copiesAmong (s : State) (c : Nat) (ns : List Nat) : List (Nat × Copy) :=
  ns.filterMap fun n => ((s.cc c).copies.find n).map fun x => (n, x)

/-- The state in which the trackers of the warp's unsealed copies have noted the batch that is being made. -/
def sealNoted (s : State) : State :=
  let cps := s.copiesAmong s.cur.core s.me.unsealed
  (cps.filterMap fun e => e.2.tracker).dedup.foldl (fun s' t =>
    let mine := cps.filter fun e => e.2.tracker = some t
    s'.updTracker s.cur.core t fun y => if y.closed then y else { y with batches := y.batches ++
      [((s.me.uni.sealedCount + 1).toNat, mine.any (fun e => e.2.dir = 0 || e.2.dir = 2), mine.any fun e => e.2.dir = 1)] }) s

theorem sealNoted_trackersOnly (s : State) : TrackersOnly s s.cur.core s.sealNoted :=
  TrackersOnly.foldl _ (fun _ _ => updTracker_trackersOnly ..) _ _

/-- Copies that belong to no tracker are noted nowhere. -/
theorem sealNoted_untracked {s : State}
    (h : ∀ m ∈ s.me.unsealed, ∀ z, (s.cc s.cur.core).copies.find m = some z → z.tracker = none) : s.sealNoted = s := by
  have hnone : (s.copiesAmong s.cur.core s.me.unsealed).filterMap (fun e => e.2.tracker) = [] := by
    rw [List.filterMap_eq_nil_iff]
    intro e he
    obtain ⟨m, hm, hfound⟩ := List.mem_filterMap.mp he
    obtain ⟨z, hz, rfl⟩ := Option.map_eq_some_iff.mp hfound
    exact h m hm z hz
  unfold sealNoted
  dsimp only
  rw [hnone]
  rfl

/-- The counts of the gathers among some copies of a core (12 R248). -/
def gatherCounts (s : State) (c : Nat) (ns : List Nat) : List Nat :=
  ns.filterMap fun m => ((s.cc c).copies.find m).bind fun z =>
    if z.mask.isSome && !z.scatter then some (copyRows z).length else none

theorem gatherCounts_eq (s : State) (c : Nat) (ns : List Nat) : s.gatherCounts c ns =
    ((s.copiesAmong c ns).filter fun e => e.2.mask.isSome && !e.2.scatter).map fun e => (copyRows e.2).length := by
  rw [copiesAmong, List.filter_filterMap, List.map_filterMap]
  refine List.filterMap_congr fun m _ => ?_
  cases (s.cc c).copies.find m with
  | none => rfl
  | some z =>
    simp only [Option.map_some, Option.filter_some, Option.bind_some]
    split <;> rfl

/-- The batch that is made, and the warp that then counts it as sealed. -/
def sealWarp (s : State) (name : Option CounterName) (inc : Word) (scope : Nat) (w : Warp) : Warp :=
  { w with
    uni := { w.uni with sealedCount := s.me.uni.sealedCount + 1 }, unsealed := []
    batches := w.batches ++ [{ num := (s.me.uni.sealedCount + 1).toNat, copies := s.me.unsealed, name := name, inc := inc
                               scope := scope, counts := s.gatherCounts s.cur.core s.me.unsealed }] }

theorem sealBatch_eq (s : State) (name : Option CounterName) (inc : Word) (scope : Nat) : s.sealBatch name inc scope =
    (s.sealNoted.updMe (s.sealWarp name inc scope)).pumpBatches s.cur.core s.cur.slot s.me.ctx s.me.team 9 := by
  have hsame := (sealNoted_trackersOnly s).sameWarps
  have hbody : s.sealBatch name inc scope =
      let t := s.sealNoted.updMe (s.sealWarp name inc scope)
      t.pumpBatches s.cur.core t.cur.slot t.myCtx s.me.team 9 := by
    unfold sealWarp
    rw [gatherCounts_eq]
    rfl
  rw [hbody]
  dsimp only
  rw [myCtx, updMe_me, updMe_cur, hsame.1, hsame.me]
  rfl

theorem exec_cseal (sc : BitVec 2) (d a b : BitVec 6) (f k : BitVec 2) (s : State) :
    exec (.cseal sc d a b f k) s = .next (s.issue (.cseal sc d a b f k) sc (csealBody d a b f k)) := rfl

/-- The batches of the issuing warp that are not done. -/
def openBatches (s : State) : Nat := (s.me.uni.sealedCount - s.me.uni.doneCount).toNat

/-- Do the unsealed copies of the warp hold a gather, whose count goes to the counter after the batch's own (12 R248)? -/
def gatherUnsealed (s : State) : Bool :=
  s.me.unsealed.any fun n => match (s.cc s.cur.core).copies.find n with
    | some x => x.mask.isSome && !x.scatter
    | none => false

theorem gatherUnsealed_iff (s : State) : s.gatherUnsealed = true ↔
    ∃ m ∈ s.me.unsealed, ∃ y, (s.cc s.cur.core).copies.find m = some y ∧ y.mask.isSome = true ∧ y.scatter = false := by
  rw [gatherUnsealed, List.any_eq_true]
  refine exists_congr fun m => and_congr_right fun _ => ?_
  cases (s.cc s.cur.core).copies.find m <;> simp

section
variable {s : State} {d a b : BitVec 6} {f k : BitVec 2} {home : CtrHome}

theorem csealBody_full (h : s.openBatches = 8) : csealBody d a b f k s = .wait s := if_pos h

variable (hroom : s.openBatches ≠ 8)
include hroom

theorem csealBody_unnamed : csealBody d a b 3#2 k s = .done (s.sealBatch none 0 2) .fall :=
  (if_neg hroom).trans (if_pos rfl)

variable (hf : f ≠ 3#2)
include hf

theorem csealBody_walkHeld (h : s.nameHold f a ≠ none) : csealBody d a b f k s = .wait s :=
  (if_neg hroom).trans ((if_neg hf).trans (walked_name_wait h))

variable (hwalk : s.nameHold f a = none)
include hwalk

theorem csealBody_failed {x : AccFail}
    (hhome : s.ctrHomeOf s.cur.core s.me.ctx s.me.team kCtrAdd (s.ctrName f a b) = .error x) :
    csealBody d a b f k s = .trap s (s.accTrap s.firstLane x) := by
  refine (if_neg hroom).trans ((if_neg hf).trans ((walked_name hwalk).trans ?_))
  rw [myCtx, hhome]

/-- A named batch is sealed, unless it holds a gather and its counter has none after it. -/
theorem csealBody_named (hhome : s.ctrHomeOf s.cur.core s.me.ctx s.me.team kCtrAdd (s.ctrName f a b) = .ok home) :
    csealBody d a b f k s = if s.gatherUnsealed && (s.ctrName f a b).isLast then .trap s (s.copyTrap 8 0)
      else .done ((s.nameWalked f a).sealBatch (some (s.ctrName f a b))
        (if ctrFree f a b = 0#6 then s.us d else (ctrFree f a b).setWidth 32) (ctrScope k.toNat)) .fall := by
  refine (if_neg hroom).trans ((if_neg hf).trans ((walked_name hwalk).trans ?_))
  rw [myCtx, hhome]
  unfold gatherUnsealed CounterName.isLast
  rfl
end

/-! ### The completion of batches leaves the running instruction as it is -/

theorem engineAdd_cur (s : State) (c h t : Nat) (what : AgentAdd) (name : CounterName) (inc : Word) (scope : Nat) :
    (s.engineAdd c h t what name inc scope).cur = s.cur := by
  cases name with
  | num r n => exact agentAddNum_cur ..
  | addr va => exact agentAdd_cur ..

theorem batchStamps_cur (s : State) (c k num : Nat) : (s.batchStamps c k num).cur = s.cur := by
  refine foldl_cur _ _ (fun u e => ?_) s
  split
  · exact (trackerDone_sameWarps ..).1
  · rfl

theorem setBatches_cur (s : State) (c k : Nat) (l : List Batch) (done : Nat) : (s.setBatches c k l done).cur = s.cur := by
  unfold setBatches
  split
  · exact updWarp_cur ..
  · rfl

theorem pumpBatches_cur (s : State) (c k h t n : Nat) : (s.pumpBatches c k h t n).cur = s.cur := by
  induction n generalizing s with
  | zero => rfl
  | succ n ih =>
    unfold pumpBatches
    split
    · rfl
    · dsimp only
      split
      · rfl
      · split
        · exact hold_cur ..
        · rw [ih, setBatches_cur, updCc_cur, batchStamps_cur]
          split
          · rw [engineAdd_cur]
            exact (foldl_cur _ _ (fun _ _ => engineAdd_cur ..) _).trans (releaseAt_memStep ..).cur
          · exact (releaseAt_memStep ..).cur

theorem sealBatch_cur (s : State) (name : Option CounterName) (inc : Word) (scope : Nat) :
    (s.sealBatch name inc scope).cur = s.cur := by
  rw [sealBatch_eq, pumpBatches_cur, updMe_cur, (sealNoted_trackersOnly s).sameWarps.1]

/-! ### CWAITB (12 R252) -/

theorem exec_cwaitb (sc : BitVec 2) (b : BitVec 6) (s : State) :
    exec (.cwaitb sc b) s = .next (s.issue (.cwaitb sc b) sc (cwaitbBody b)) := rfl

section
variable {s : State} {b : BitVec 6}

theorem cwaitbBody_acquires (hdone : s.openBatches ≤ b.toNat) (hidle : s.warpBusy s.cur.core s.cur.slot = false) :
    cwaitbBody b s = .done (s.acquireAt s.cur.core 2) .fall :=
  if_neg fun h => by
    rw [hidle, Bool.or_false, decide_eq_true_eq] at h
    exact h.not_ge hdone

theorem cwaitbBody_waits (h : b.toNat < s.openBatches ∨ s.warpBusy s.cur.core s.cur.slot = true) :
    cwaitbBody b s = .wait s := if_pos (by rwa [Bool.or_eq_true, decide_eq_true_eq])

end

/-! ### WDESC (03 R53, R54; 12 R254) -/

theorem exec_wdesc (sc : BitVec 2) (a w : BitVec 6) (s : State) :
    exec (.wdesc sc a w) s = .next (s.issue (.wdesc sc a w) sc (wdescBody a w)) := rfl

/-- ACCESS of WDESC (20 R372; note 107). -/
def wdescAccess (s : State) (w : BitVec 6) (reason : Nat) : TrapInfo :=
  s.accTrap s.firstLane (accFail reason kLoad ((spWordOf none w.toNat 0).setWidth 64))

/-- The descriptor that a word writes: its owner is the team (12 R254). -/
def ownedDesc (x : DWord) (team : Nat) : DWord := (x &&& ~~~(0x1F#64 <<< 51)) ||| (BitVec.ofNat 64 team <<< 51)

section
variable {s : State} {a w : BitVec 6} {n p : Nat}

theorem wdescBody_reserved (h : wdescReserved (s.us64 a) = true) :
    wdescBody a w s = .trap s (s.encTrap .fixedField (lo32 (s.us64 a))) := if_pos h

variable (hfixed : wdescReserved (s.us64 a) = false)
include hfixed

theorem wdescBody_invalid (hv : wdV (s.us64 a) = true) (hbad : wdescOk (s.us64 a) = false) :
    wdescBody a w s = .trap s (s.encTrap .wdesc (lo32 (s.us64 a))) :=
  (if_neg (by simp [hfixed])).trans (if_pos (by simp [hv, hbad]))

variable (hok : wdV (s.us64 a) = true → wdescOk (s.us64 a) = true)
include hok

/-- WDESC of a word that may stand in a descriptor, by the window that it names. -/
theorem wdescBody_unbound (hwin : s.window s.cur.core s.me.team none w.toNat = none) :
    wdescBody a w s = .trap s (s.wdescAccess w 3) := by
  refine (if_neg (by simp [hfixed])).trans ((if_neg (by simpa using hok)).trans ?_)
  rw [hwin]
  rfl

variable (hwin : s.window s.cur.core s.me.team none w.toNat = some (n, p))
include hwin

theorem wdescBody_window : wdescBody a w s =
    if wdV ((s.cc n).wdesc.get 0 p) && wdOwner ((s.cc n).wdesc.get 0 p) != s.me.team then .trap s (s.wdescAccess w 12)
    else if (s.cc n).score.any (fun e => e.win = p) then .wait s
    else .done (s.updCc n fun z => { z with wdesc := z.wdesc.set p (ownedDesc (s.us64 a) s.me.team) }) .fall := by
  refine (if_neg (by simp [hfixed])).trans ((if_neg (by simpa using hok)).trans ?_)
  rw [hwin]
  rfl

end

/-- Settles O36: CSEAL by the room for batches and by its counter's name (`csealBody_named`), the batch by `sealBatch_eq`,
CWAITB by the batches that are open, WDESC by its word and by the window that it names (`wdescBody_window`). -/
theorem batchesAndWindows : Obligations.BatchesAndWindows := by
  intro s sc d a b w f k n p c open_ own name free inc e walk found gathers last x lane acc cs
  refine ⟨fun hroom hf => ?unnamed, fun hroom hf hwalk => ⟨fun home hhome hgo => ?named, fun home hhome hbad hr => ?gathered,
    fun y hhome hr => ?failed⟩, fun hwait hr => ?putOff, fun nm i scope => ⟨s.sealNoted, ?seals⟩, fun hdone hidle => ?acquires,
    fun hwait hr => ?waits, fun hfixed hok hwin => ?writes, fun hr => ⟨fun hres => ?reserved, fun hfixed hv hbad => ?invalid,
      fun hfixed hok => ⟨fun hwin => ?unbound, fun hwin hv hown => ?foreign⟩⟩⟩
  case unnamed =>
    subst hf
    exact doesFall_of_cur (exec_cseal ..) (csealBody_unnamed hroom) (sealBatch_cur ..)
  case named =>
    have hcond : (s.gatherUnsealed && (s.ctrName f a b).isLast) ≠ true := by
      rwa [Ne, Bool.and_eq_true, gatherUnsealed_iff, CounterName.isLast_iff]
    refine doesFall_of_cur (exec_cseal ..) ?_ ((sealBatch_cur ..).trans (nameWalked_memStep s f a).cur)
    rw [csealBody_named hroom hf hwalk hhome, if_neg hcond, ctrScope, Nat.add_comm]
    rfl
  case gathered =>
    have hcond : (s.gatherUnsealed && (s.ctrName f a b).isLast) = true := by
      rwa [Bool.and_eq_true, gatherUnsealed_iff, CounterName.isLast_iff]
    exact exec_trap (exec_cseal ..) hr ((csealBody_named hroom hf hwalk hhome).trans (if_pos hcond))
  case failed => exact exec_trap (exec_cseal ..) hr (csealBody_failed hroom hf hwalk hhome)
  case putOff =>
    by_cases hfull : s.openBatches = 8
    · exact exec_wait (exec_cseal ..) hr (csealBody_full hfull)
    · obtain ⟨hf, hwalk⟩ := hwait.resolve_left hfull
      exact exec_wait (exec_cseal ..) hr (csealBody_walkHeld hfull hf hwalk)
  case seals =>
    obtain ⟨hdevice, hcores, hcore, hcontext⟩ := sealNoted_trackersOnly s
    exact ⟨sealBatch_eq .., hdevice, hcores, hcore, hcontext, sealNoted_untracked⟩
  case acquires =>
    exact doesFall_of_cur (exec_cwaitb ..) (cwaitbBody_acquires hdone hidle) (acquireAt_memStep ..).cur
  case waits => exact exec_wait (exec_cwaitb ..) hr (cwaitbBody_waits hwait)
  case writes =>
    intro old howner
    have hbody := (wdescBody_window hfixed hok hwin).trans (if_neg fun h => by
      rw [Bool.and_eq_true, bne_iff_ne] at h
      exact h.2 (howner h.1))
    refine ⟨fun hfree => ?_, fun hused hr => ?_⟩
    · exact doesFall_of_cur (exec_wdesc ..) (hbody.trans (if_neg (by simpa using hfree))) rfl
    · exact exec_wait (exec_wdesc ..) hr (hbody.trans (if_pos (by simpa using hused)))
  case reserved => exact exec_trap (exec_wdesc ..) hr (wdescBody_reserved hres)
  case invalid => exact exec_trap (exec_wdesc ..) hr (wdescBody_invalid hfixed hv hbad)
  case unbound => exact exec_trap (exec_wdesc ..) hr (wdescBody_unbound hfixed hok hwin)
  case foreign =>
    exact exec_trap (exec_wdesc ..) hr ((wdescBody_window hfixed hok hwin).trans (if_pos (Bool.and_eq_true_iff.mpr ⟨hv, bne_iff_ne.mpr hown⟩)))

end State
end Sys2Proof.Machine
end

section
/-! PROOFS (12 R242 to R249; 05 R77): copies enter the engine. -/

namespace Sys2Proof.Machine
namespace State

/-! ### Entries of an operation on the scoreboards and among the locks -/

/-- Nothing but scoreboard and lock entries of cores has changed. -/
structure EntriesOnly (s t : State) : Prop where
  device : t = { s with cores := t.cores }
  core : ∀ c, t.core c = { s.core c with cc := { s.cc c with score := (t.cc c).score, locks := (t.cc c).locks } }

namespace EntriesOnly
theorem refl (s : State) : EntriesOnly s s := ⟨rfl, fun _ => rfl⟩
theorem trans {s t u : State} (h : EntriesOnly s t) (g : EntriesOnly t u) : EntriesOnly s u := by
  refine ⟨?_, fun c => ?_⟩
  · rw [g.device, h.device]
  · rw [g.core, State.cc, h.core]
theorem foldl {α : Type} (f : State → α → State) (H : ∀ s x, EntriesOnly s (f s x)) (l : List α) (s : State) :
    EntriesOnly s (l.foldl f s) := by
  induction l generalizing s with
  | nil => exact refl s
  | cons a l ih => exact (H s a).trans (ih _)
theorem cc {s t : State} (h : EntriesOnly s t) (c : Nat) :
    t.cc c = { s.cc c with score := (t.cc c).score, locks := (t.cc c).locks } := congrArg Core.cc (h.core c)
theorem sameWarps {s t : State} (h : EntriesOnly s t) : SameWarps s t := by
  refine ⟨by rw [h.device], fun c k => ?_⟩
  rw [State.warp, State.warp, h.cc, h.core]
end EntriesOnly

theorem updCc_entriesOnly (s : State) (c : Nat) (f : CoreCtx → CoreCtx)
    (h : ∀ x, f x = { x with score := (f x).score, locks := (f x).locks }) : EntriesOnly s (s.updCc c f) := by
  refine ⟨rfl, fun j => ?_⟩
  rw [core_updCc, cc_updCc]
  split
  next hj => rw [hj, h]
  next => rfl

theorem addScore_entriesOnly (s : State) (es : List (Nat × ScoreEntry)) : EntriesOnly s (s.addScore es) :=
  .foldl _ (fun _ _ => updCc_entriesOnly _ _ _ fun _ => rfl) es s

theorem addLocks_entriesOnly (s : State) (c : Nat) (ls : List LockEntry) : EntriesOnly s (s.addLocks c ls) := by
  refine .foldl _ (fun _ _ => updCc_entriesOnly _ _ _ fun x => ?_) ls s
  split <;> rfl

/-! ### The block of a copy (12 R243) -/

theorem copyBlk_eq (s : State) (a : BitVec 6) : s.copyBlk a =
    { src := s.me.s (a.toNat + 1) ++ s.me.s (a.toNat + 0), dst := s.me.s (a.toNat + 3) ++ s.me.s (a.toNat + 2)
      len := (s.me.s (a.toNat + 4)).toNat, rows := (s.me.s (a.toNat + 5)).toNat % 2 ^ 16
      slay := (s.me.s (a.toNat + 5)).toNat / 2 ^ 16 % 16, dlay := (s.me.s (a.toNat + 5)).toNat / 2 ^ 20 % 16
      top := (s.me.s (a.toNat + 5)).toNat / 2 ^ 24, spitch := (s.me.s (a.toNat + 6)).toNat
      dpitch := (s.me.s (a.toNat + 7)).toNat } := by
  rw [copyBlk, bitsOf_high _ (by decide)]
  simp [bitsOf, Nat.shiftRight_eq_div_pow, pairOf]

theorem copyVas_eq (b : CopyBlk) (r : BitVec 2) : copyVas b r.toNat =
    (if r = 1#2 ∨ r = 2#2 then [] else [b.src]) ++ (if r = 0#2 ∨ r = 2#2 then [] else [b.dst]) := by
  have hcases : r = 0#2 ∨ r = 1#2 ∨ r = 2#2 ∨ r = 3#2 := by revert r; decide
  rcases hcases with rfl | rfl | rfl | rfl <;> rfl

/-- The first checks of a copy: of its block (12 R243). -/
theorem copyChecks_badBlock {s : State} {b : CopyBlk} {dir most : Nat}
    (h : b.len = 0 ∨ 2 ^ 24 < b.len ∨ b.rows = 0 ∨ b.top ≠ 0) : s.copyChecks b dir most = .error (s.copyTrap 9 0) := by
  unfold copyChecks
  rw [if_pos (by simpa [or_assoc] using h)]
  rfl

theorem copyChecks_manyRows {s : State} {b : CopyBlk} {dir most : Nat} (hlen : b.len ≠ 0) (hmost : b.len ≤ 2 ^ 24)
    (hrows : b.rows ≠ 0) (htop : b.top = 0) (h : most < b.rows) : s.copyChecks b dir most = .error (s.copyTrap 5 0) := by
  unfold copyChecks
  rw [if_neg (by simpa [hlen, hrows, htop] using hmost), if_pos h]
  rfl

/-! ### What making a copy leaves (12 R247) -/

/-- The state in which a copy's entries stand. -/
def copyEntered (s : State) (b : CopyBlk) (x y : CopySide) (lock : Bool) : State :=
  let c := s.cur.core
  let n := (s.cc c).nextOp
  let e := s.addScore (sideEntries s.myUnit x b.rows b.spitch b.len false (opKey c n) ++
    sideEntries s.myUnit y b.rows b.dpitch b.len true (opKey c n))
  if lock then e.addLocks c (e.sideLocks x b.rows b.spitch b.len false n ++ e.sideLocks y b.rows b.dpitch b.len true n) else e

theorem copyEntered_entriesOnly (s : State) (b : CopyBlk) (x y : CopySide) (lock : Bool) :
    EntriesOnly s (s.copyEntered b x y lock) := by
  unfold copyEntered
  dsimp only
  split
  · exact (addScore_entriesOnly ..).trans (addLocks_entriesOnly ..)
  · exact addScore_entriesOnly ..

/-- The copy of the running warp as it is entered. -/
def newCopy (s : State) (c : Nat) (b : CopyBlk) (dir : Nat) (x y : CopySide) (mask : Option DWord) (scatter wait : Bool) :
    Copy :=
  { slot := s.cur.slot, team := s.me.team, ctx := s.me.ctx, dir := dir, src := x.addr, dst := y.addr, len := b.len
    rows := b.rows, spitch := b.spitch, dpitch := b.dpitch, mask := mask, scatter := scatter, srcFmt := x.fmt
    dstFmt := y.fmt, released := !wait, started := !wait, desc := (s.freeDescs c).headD 0
    tracker := s.topTracker c s.cur.slot }

theorem EntriesOnly.freeDescs {s t : State} (h : EntriesOnly s t) (c : Nat) : t.freeDescs c = s.freeDescs c := by
  rw [State.freeDescs, h.cc]
  rfl

theorem EntriesOnly.topTracker {s t : State} (h : EntriesOnly s t) (c k : Nat) : t.topTracker c k = s.topTracker c k := by
  rw [State.topTracker, h.cc]
  rfl

theorem EntriesOnly.newCopy {s t : State} (h : EntriesOnly s t) (c : Nat) (b : CopyBlk) (dir : Nat) (x y : CopySide)
    (mask : Option DWord) (scatter wait : Bool) :
    t.newCopy c b dir x y mask scatter wait = s.newCopy c b dir x y mask scatter wait := by
  rw [State.newCopy, h.freeDescs, h.topTracker, h.sameWarps.me, h.sameWarps.1]
  rfl

/-- The stamp that the first copy into a window leaves in its tracker (17 R339). -/
def copyStamped (s : State) (c dir : Nat) (tracker : Option Nat) : State :=
  match tracker with
  | some t => if dir = 0 || dir = 2 then s.updTracker c t fun t => stamp t 0 true else s
  | none => s

theorem copyStamped_trackersOnly (s : State) (c dir : Nat) (tracker : Option Nat) :
    TrackersOnly s c (s.copyStamped c dir tracker) := by
  unfold copyStamped
  split
  · split
    · exact updTracker_trackersOnly ..
    · exact .refl s c
  · exact .refl s c

/-- The number that the next operation of the issuing core takes. -/
def nextCopy (s : State) : Nat := (s.cc s.cur.core).nextOp

/-- A core's context in which a copy has been entered under a number. -/
def addCopy (n : Nat) (z : Copy) (w : CoreCtx) : CoreCtx := { w with nextOp := n + 1, copies := w.copies.set n z }

theorem makeCopy_eq (s : State) (b : CopyBlk) (dir : Nat) (x y : CopySide) (mask : Option DWord) (scatter lock wait : Bool) :
    s.makeCopy b dir x y mask scatter lock wait = (s.nextCopy,
      (((s.copyEntered b x y lock).updCc s.cur.core
        (addCopy s.nextCopy (s.newCopy s.cur.core b dir x y mask scatter wait))).copyStamped
          s.cur.core dir (s.topTracker s.cur.core s.cur.slot)).updMe fun w =>
            { w with unsealed := w.unsealed ++ [s.nextCopy] }) := by
  have h := copyEntered_entriesOnly s b x y lock
  have htop : (s.copyEntered b x y lock).topTracker s.cur.core (s.copyEntered b x y lock).cur.slot =
      s.topTracker s.cur.core s.cur.slot := by rw [h.topTracker, h.sameWarps.1]
  rw [← h.newCopy, ← htop]
  rfl

section
variable (s : State) (b : CopyBlk) (dir : Nat) (x y : CopySide) (mask : Option DWord) (scatter lock wait : Bool)

/-- The state in which a copy has been entered, before its warp counts it as unsealed. -/
theorem makeCopy_entered : ∃ e : State, (s.makeCopy b dir x y mask scatter lock wait).2 = e.updMe (fun w =>
      { w with unsealed := w.unsealed ++ [s.nextCopy] }) ∧ SameWarps s e ∧ e.mem = s.mem ∧
    (e.cc s.cur.core).nextOp = s.nextCopy + 1 ∧
    (e.cc s.cur.core).copies = (s.cc s.cur.core).copies.set s.nextCopy (s.newCopy s.cur.core b dir x y mask scatter wait) := by
  have h := copyEntered_entriesOnly s b x y lock
  have hstamp := copyStamped_trackersOnly ((s.copyEntered b x y lock).updCc s.cur.core
    (addCopy s.nextCopy (s.newCopy s.cur.core b dir x y mask scatter wait))) s.cur.core dir
      (s.topTracker s.cur.core s.cur.slot)
  refine ⟨_, by rw [makeCopy_eq], (h.sameWarps.trans (updCc_sameWarps _ _ (addCopy _ _) fun _ => rfl)).trans hstamp.sameWarps, ?_, ?_, ?_⟩
  · rw [hstamp.device, updCc_mem, h.device]
  · rw [hstamp.context, cc_updCc, if_pos rfl]
    rfl
  · rw [hstamp.context, cc_updCc, if_pos rfl, addCopy, h.cc]

theorem makeCopy_cur : (s.makeCopy b dir x y mask scatter lock wait).2.cur = s.cur := by
  obtain ⟨e, heq, hsame, -⟩ := makeCopy_entered s b dir x y mask scatter lock wait
  rw [heq, updMe_cur, hsame.1]

theorem makeCopy_me : (s.makeCopy b dir x y mask scatter lock wait).2.me =
    { s.me with unsealed := s.me.unsealed ++ [s.nextCopy] } := by
  obtain ⟨e, heq, hsame, -⟩ := makeCopy_entered s b dir x y mask scatter lock wait
  rw [heq, updMe_me, hsame.me]

theorem makeCopy_mem : (s.makeCopy b dir x y mask scatter lock wait).2.mem = s.mem := by
  obtain ⟨e, heq, -, hmem, -⟩ := makeCopy_entered s b dir x y mask scatter lock wait
  rw [heq, updMe_device, hmem]

theorem makeCopy_nextOp : ((s.makeCopy b dir x y mask scatter lock wait).2.cc s.cur.core).nextOp = s.nextCopy + 1 := by
  obtain ⟨e, heq, -, -, hnext, -⟩ := makeCopy_entered s b dir x y mask scatter lock wait
  rw [heq, updMe_cc, hnext]

theorem makeCopy_copies (m : Nat) : ((s.makeCopy b dir x y mask scatter lock wait).2.cc s.cur.core).copies.find m =
    if m = s.nextCopy then some (s.newCopy s.cur.core b dir x y mask scatter wait) else (s.cc s.cur.core).copies.find m := by
  obtain ⟨e, heq, -, -, -, hcopies⟩ := makeCopy_entered s b dir x y mask scatter lock wait
  rw [heq, updMe_cc, hcopies, Map.find_set]

end

/-! ### CPY, CPYG and CPYS (12 R247, R248) -/

theorem runCopy_cur (s : State) (c n : Nat) : (s.runCopy c n).cur = s.cur := by
  unfold runCopy
  split
  · exact (postAfter_memStep ..).cur
  · rfl

theorem startSlices_cur (s : State) (c : Nat) : (s.startSlices c).cur = s.cur := by
  refine foldl_cur _ _ (fun e n => ?_) s
  split
  · exact runCopy_cur ..
  · rfl

theorem exec_cpy (sc : BitVec 2) (a : BitVec 6) (r : BitVec 2) (s : State) :
    exec (.cpy sc a r) s = .next (s.issue (.cpy sc a r) sc (copyBody a r.toNat none false)) := rfl
theorem exec_cpyb (sc : BitVec 2) (d a : BitVec 6) (j : BitVec 3) (r : BitVec 2) (s : State) :
    exec (.cpyb sc d a j r) s = .next (s.issue (.cpyb sc d a j r) sc (cpybBody d a j r)) := rfl
theorem exec_cpyg (sc : BitVec 2) (a b : BitVec 6) (r : BitVec 2) (s : State) : exec (.cpyg sc a b r) s =
    .next (s.issue (.cpyg sc a b r) sc fun s => s.copyBody a r.toNat (some (s.us64 b)) false) := rfl
theorem exec_cpys (sc : BitVec 2) (a b : BitVec 6) (r : BitVec 2) (s : State) : exec (.cpys sc a b r) s =
    .next (s.issue (.cpys sc a b r) sc fun s => s.copyBody a r.toNat (some (s.us64 b)) true) := rfl

/-- No walk of a copy's global operands has to wait. -/
def CopyWalksFree (s : State) (a : BitVec 6) (dir : Nat) : Prop :=
  ∀ va ∈ copyVas (s.copyBlk a) dir, s.coreWalkHold s.cur.core s.me.ctx va = none

/-- The state with the walks of a copy's global operands noted. -/
def copyWalked (s : State) (a : BitVec 6) (dir : Nat) : State := s.noteWalks (copyVas (s.copyBlk a) dir)

theorem copyWalked_memStep (s : State) (a : BitVec 6) (dir : Nat) : MemStep s (s.copyWalked a dir) := noteWalks_memStep ..

/-- The largest number of rows of a copy (12 R248). -/
def mostRows (mask : Option DWord) : Nat := if mask.isSome then 64 else 65535

/-- What CPY, CPYG and CPYS do once the walks stand, which `w` has noted, with the answer of the copy's checks. -/
def enterCopy (s w : State) (b : CopyBlk) (dir : Nat) (mask : Option DWord) (scatter : Bool) :
    Except TrapInfo (CopySide × CopySide) → Did
  | .error t => .trap s t
  | .ok (x, y) =>
    if (s.freeDescs s.cur.core).isEmpty || !s.copyRoom b x y mask.isSome then .wait s
    else w.afterRelease 2 fun e => .done ((e.makeCopy b dir x y mask scatter mask.isSome false).2.runCopy e.cur.core e.nextCopy) .fall

section
variable {s : State} {a : BitVec 6} {dir : Nat} {mask : Option DWord} {scatter : Bool} {x y : CopySide}

theorem copyBody_eq : copyBody a dir mask scatter s = s.walked (copyVas (s.copyBlk a) dir) fun w =>
    s.enterCopy w (s.copyBlk a) dir mask scatter (s.copyChecks (s.copyBlk a) dir (mostRows mask)) := rfl

theorem copyBody_walkHeld {va : DWord} (hva : va ∈ copyVas (s.copyBlk a) dir)
    (h : (s.coreWalkHold s.cur.core s.me.ctx va).isSome = true) : copyBody a dir mask scatter s = .wait s := by
  obtain ⟨k, hk⟩ := Option.isSome_iff_exists.mp h
  rw [copyBody_eq]
  exact walked_wait hva hk

variable (hwalks : s.CopyWalksFree a dir)
include hwalks

theorem copyBody_failed {t : TrapInfo} (h : s.copyChecks (s.copyBlk a) dir (mostRows mask) = .error t) :
    copyBody a dir mask scatter s = .trap s t := by
  rw [copyBody_eq, walked_eq hwalks, h]
  rfl

variable (hok : s.copyChecks (s.copyBlk a) dir (mostRows mask) = .ok (x, y))
include hok

theorem copyBody_noRoom (h : s.freeDescs s.cur.core = [] ∨ s.copyRoom (s.copyBlk a) x y mask.isSome = false) :
    copyBody a dir mask scatter s = .wait s := by
  rw [copyBody_eq, walked_eq hwalks, hok]
  exact if_pos (by simpa using h)

theorem copyBody_enters (hdesc : s.freeDescs s.cur.core ≠ []) (hroom : s.copyRoom (s.copyBlk a) x y mask.isSome = true)
    (hcan : (s.copyWalked a dir).canRelease s.cur.core s.cur.slot 2 = true) : copyBody a dir mask scatter s =
      .done (((((s.copyWalked a dir).releaseAt s.cur.core 2).makeCopy (s.copyBlk a) dir x y mask scatter mask.isSome false).2).runCopy
        s.cur.core s.nextCopy) .fall := by
  have he := copyWalked_memStep s a dir
  have hrel := he.trans (releaseAt_memStep _ s.cur.core 2)
  have hnext : ((s.copyWalked a dir).releaseAt s.cur.core 2).nextCopy = s.nextCopy := by
    rw [nextCopy, hrel.cc, hrel.cur]
    rfl
  rw [copyBody_eq, walked_eq hwalks, hok]
  refine (if_neg (by simp [hdesc, hroom])).trans ?_
  rw [← copyWalked, afterRelease_can (by rwa [he.cur]), he.cur, hnext, hrel.cur]

end

/-! ### CPYB (12 R249) -/

/-- The collective of a slot of the running warp's team as a slice of `count` slices finds it. -/
def collective (s : State) (count dir j : Nat) : Collective :=
  (((s.cc s.cur.core).teams.find s.me.team).bind fun t => t.slots.find j).getD
    { count := count, dir := dir, slices := [], warps := [] }

/-- A copy of which the collective has started. -/
def releaseSlice (col : Collective) (e : Nat × Copy) : Nat × Copy :=
  if col.slices.contains e.1 then (e.1, { e.2 with released := true }) else e

/-- The state in which the last slice of a collective has been entered, in a slot of a team: the slices may start. -/
def collectiveStarted (t : State) (c team j : Nat) (col : Collective) : State :=
  ((t.updTeam c team fun u => { u with slots := u.slots.del j }).updCc c fun w =>
    { w with copies := w.copies.map (releaseSlice col) }).startSlices c

/-- The state in which a collective still waits for slices. -/
def collectiveWaits (t : State) (c team j : Nat) (col : Collective) : State :=
  t.updTeam c team fun u => { u with slots := u.slots.set j col }

/-- What CPYB does once the walks stand, which `w` has noted, with the answer of the copy's checks. -/
def joinCopy (s w : State) (b : CopyBlk) (d dir j : Nat) : Except TrapInfo (CopySide × CopySide) → Did
  | .error t => .trap s t
  | .ok (x, y) =>
    let col := s.collective d dir j
    if col.warps.contains s.me.wid then .wait s
    else if col.count != d || col.dir != dir then .trap s (s.copyTrap 6 0)
    else if !s.copyRoom b x y true then .wait s
    else w.afterRelease 2 fun e =>
      let t := (e.makeCopy b dir x y none false true true).2
      let new : Collective := { col with slices := col.slices ++ [e.nextCopy], warps := col.warps ++ [t.me.wid] }
      if new.slices.length = new.count then .done (t.collectiveStarted s.cur.core t.me.team j new) .fall
      else .done (t.collectiveWaits s.cur.core t.me.team j new) .fall

section
variable {s : State} {a d : BitVec 6} {j : BitVec 3} {r : BitVec 2} {x y : CopySide}

theorem cpybBody_eq : cpybBody d a j r s = s.walked (copyVas (s.copyBlk a) r.toNat) fun w =>
    s.joinCopy w (s.copyBlk a) d.toNat r.toNat j.toNat (s.copyChecks (s.copyBlk a) r.toNat 65535) := rfl

theorem cpybBody_walkHeld {va : DWord} (hva : va ∈ copyVas (s.copyBlk a) r.toNat)
    (h : (s.coreWalkHold s.cur.core s.me.ctx va).isSome = true) : cpybBody d a j r s = .wait s := by
  obtain ⟨k, hk⟩ := Option.isSome_iff_exists.mp h
  rw [cpybBody_eq]
  exact walked_wait hva hk

variable (hwalks : s.CopyWalksFree a r.toNat)
include hwalks

theorem cpybBody_failed {t : TrapInfo} (h : s.copyChecks (s.copyBlk a) r.toNat 65535 = .error t) :
    cpybBody d a j r s = .trap s t := by
  rw [cpybBody_eq, walked_eq hwalks, h]
  rfl

variable {col : Collective} (hcol : s.collective d.toNat r.toNat j.toNat = col)
  (hok : s.copyChecks (s.copyBlk a) r.toNat 65535 = .ok (x, y))
include hcol hok

theorem cpybBody_repeats (h : col.warps.contains s.me.wid = true) : cpybBody d a j r s = .wait s := by
  subst hcol
  rw [cpybBody_eq, walked_eq hwalks, hok]
  exact if_pos h

variable (hnew : col.warps.contains s.me.wid = false)
include hnew

theorem cpybBody_differs (h : col.count ≠ d.toNat ∨ col.dir ≠ r.toNat) :
    cpybBody d a j r s = .trap s (s.copyTrap 6 0) := by
  subst hcol
  rw [cpybBody_eq, walked_eq hwalks, hok]
  exact (if_neg (by rw [hnew]; decide)).trans (if_pos (by simpa using h))

/-- A slice that its collective takes: with the last one the slices may start. -/
theorem cpybBody_joins (hcount : col.count = d.toNat) (hdir : col.dir = r.toNat)
    (hroom : s.copyRoom (s.copyBlk a) x y true = true)
    (hcan : (s.copyWalked a r.toNat).canRelease s.cur.core s.cur.slot 2 = true) : cpybBody d a j r s =
      let t := (((s.copyWalked a r.toNat).releaseAt s.cur.core 2).makeCopy (s.copyBlk a) r.toNat x y none false true true).2
      let new : Collective := { col with slices := col.slices ++ [s.nextCopy], warps := col.warps ++ [s.me.wid] }
      if new.slices.length = d.toNat then .done (t.collectiveStarted s.cur.core s.me.team j.toNat new) .fall
      else .done (t.collectiveWaits s.cur.core s.me.team j.toNat new) .fall := by
  subst hcol
  have he := copyWalked_memStep s a r.toNat
  have hrel := he.trans (releaseAt_memStep _ s.cur.core 2)
  have hnext : ((s.copyWalked a r.toNat).releaseAt s.cur.core 2).nextCopy = s.nextCopy := by
    rw [nextCopy, hrel.cc, hrel.cur]
    rfl
  rw [cpybBody_eq, walked_eq hwalks, hok]
  refine (if_neg (by rw [hnew]; decide)).trans ((if_neg (by simp [hcount, hdir])).trans ((if_neg (by simp [hroom])).trans ?_))
  rw [← copyWalked, afterRelease_can (by rwa [he.cur]), he.cur]
  dsimp only
  rw [makeCopy_me, hnext, hrel.me, hcount]

end

/-- A slot of the team that holds a collective gives it, and an empty one a new collective. -/
theorem collective_eq {s : State} {count dir j : Nat} {col : Collective}
    (h : ((s.cc s.cur.core).teams.find s.me.team).bind (fun t => t.slots.find j) = some col ∨
      (((s.cc s.cur.core).teams.find s.me.team).bind (fun t => t.slots.find j) = none ∧
        col = { count := count, dir := dir, slices := [], warps := [] })) : s.collective count dir j = col := by
  rw [collective]
  rcases h with h | ⟨h, rfl⟩ <;> rw [h] <;> rfl

/-- Settles O35: CPY, CPYG and CPYS by the walks, the checks and the room that they find (`copyBody_enters`), CPYB by the
collective of its slot (`cpybBody_joins`); what enters is `makeCopy_copies`. -/
theorem copyIssue : Obligations.CopyIssue := by
  intro s sc r d a b j x y col c n q reg z vas e walks ready made
  have he : MemStep s e := noteWalks_memStep ..
  have hmade (mask : Option DWord) (scatter lock wait : Bool) : (made mask scatter lock wait).cur = s.cur :=
    (makeCopy_cur ..).trans (he.trans (releaseAt_memStep ..)).cur
  refine ⟨copyBlk_eq s a, copyVas_eq q r, fun mask scatter lock wait => ?made, fun hok => ⟨fun hdesc hready => ?cpy,
    fun hwalks hfull hr => ?cpyFull, fun hcol => ?cpyb⟩, fun hok hdesc hready => ⟨?cpyg, ?cpys⟩, fun va hva hheld => ?held,
    fun t hwalks => ⟨fun herr => ?traps, fun herr => ?gatherTraps⟩, fun most hbad => copyChecks_badBlock hbad,
    fun most hlen hmost hrows htop hmany => copyChecks_manyRows hlen hmost hrows htop hmany⟩
  case made =>
    intro t
    refine ⟨by rw [makeCopy_eq]; rfl, makeCopy_nextOp .., ?_, fun m hm => ?_, makeCopy_me .., makeCopy_mem .., makeCopy_cur ..⟩
    · exact (makeCopy_copies ..).trans (if_pos rfl)
    · exact (makeCopy_copies ..).trans (if_neg hm)
  case cpy =>
    obtain ⟨hwalks, hroom, hcan⟩ := hready
    exact doesFall_of_cur (exec_cpy ..) (copyBody_enters hwalks hok hdesc hroom hcan) ((runCopy_cur ..).trans (hmade ..))
  case cpyFull => exact exec_wait (exec_cpy ..) hr (copyBody_noRoom hwalks hok hfull)
  case cpyb =>
    have hcol := collective_eq hcol
    refine ⟨fun hwalks hrep hr => ?_, fun hwalks hnew hdiff hr => ?_, fun hcount hdir hnew hready => ?_⟩
    · exact exec_wait (exec_cpyb ..) hr (cpybBody_repeats hwalks hcol hok hrep)
    · exact exec_trap (exec_cpyb ..) hr (cpybBody_differs hwalks hcol hok hnew hdiff)
    · obtain ⟨hwalks, hroom, hcan⟩ := hready
      have hbody := cpybBody_joins hwalks hcol hok hnew hcount hdir hroom hcan
      refine ⟨fun hmore => ?_, fun hlast => ?_⟩
      · exact doesFall_of_cur (exec_cpyb ..) (hbody.trans (if_neg hmore)) (hmade ..)
      · exact doesFall_of_cur (exec_cpyb ..) (hbody.trans (if_pos hlast)) ((startSlices_cur ..).trans (hmade ..))
  case cpyg =>
    obtain ⟨hwalks, hroom, hcan⟩ := hready
    exact doesFall_of_cur (exec_cpyg ..) (copyBody_enters hwalks hok hdesc hroom hcan) ((runCopy_cur ..).trans (hmade ..))
  case cpys =>
    obtain ⟨hwalks, hroom, hcan⟩ := hready
    exact doesFall_of_cur (exec_cpys ..) (copyBody_enters hwalks hok hdesc hroom hcan) ((runCopy_cur ..).trans (hmade ..))
  case held =>
    simp only [List.forall_mem_cons]
    exact ⟨fun hr => exec_wait (exec_cpy ..) hr (copyBody_walkHeld hva hheld),
      fun hr => exec_wait (exec_cpyb ..) hr (cpybBody_walkHeld hva hheld),
      fun hr => exec_wait (exec_cpyg ..) hr (copyBody_walkHeld hva hheld),
      fun hr => exec_wait (exec_cpys ..) hr (copyBody_walkHeld hva hheld), List.forall_mem_nil _⟩
  case traps =>
    simp only [List.forall_mem_cons]
    exact ⟨fun hr => exec_trap (exec_cpy ..) hr (copyBody_failed hwalks herr),
      fun hr => exec_trap (exec_cpyb ..) hr (cpybBody_failed hwalks herr), List.forall_mem_nil _⟩
  case gatherTraps =>
    simp only [List.forall_mem_cons]
    exact ⟨fun hr => exec_trap (exec_cpyg ..) hr (copyBody_failed hwalks herr),
      fun hr => exec_trap (exec_cpys ..) hr (copyBody_failed hwalks herr), List.forall_mem_nil _⟩

end State
end Sys2Proof.Machine
end

section
/-! PROOFS (12 R268, R270 to R272; 15 R319): a token command becomes a request to the Vigil. -/

namespace Sys2Proof.Machine
namespace State

/-! ### The submitting lanes and their checks (12 R268) -/

/-- The slot word and the B operand of each submitting lane of Active. -/
def submitted (s : State) (a b : BitVec 6) : List (Nat × Word × Word) :=
  ((lanesOf s.cur.lanes).map fun l => (l, s.me.v a.toNat l, s.me.v b.toNat l)).filter fun e => !e.2.1.getLsbD 31

/-- A lane register that a uniform-set word names holds a plain value (08 R148). -/
theorem val_setWidth (s : State) (a : BitVec 6) (l : Nat) : s.val (a.setWidth 7).toNat l = s.me.v a.toNat l := by
  have ha : (a.setWidth 7).toNat = a.toNat := by
    rw [BitVec.toNat_setWidth, Nat.mod_eq_of_lt (by omega)]
  rw [ha, val, if_neg (by omega), if_neg (by omega), if_neg (by omega)]

theorem tokLanes_eq (s : State) (a b : BitVec 6) : s.tokLanes (a.setWidth 7) (b.setWidth 7) = s.submitted a b := by
  simp only [tokLanes, submitted, val_setWidth]

theorem tokSlot_eq (w : Word) : tokSlot w = w.toNat % 2 ^ 14 := rfl

theorem tokCheck_eq (s : State) {kind : Nat} (hk : kind < 3) (ls : List (Nat × Word × Word)) (e : Nat × Word × Word) :
    s.tokCheck kind ls e =
      if e.2.1.toNat / 2 ^ 14 % 2 ^ 17 ≠ 0 then 1
      else if (s.vslot (tokSlot e.2.1)).owner ≠ some s.me.ctx then 2
      else if ∃ f ∈ ls, f.1 < e.1 ∧ tokSlot f.2.1 = tokSlot e.2.1 then 3
      else if kind ≠ 2 ∧ e.2.2.toNat / 2 ^ 24 ≠ 0 then 7
      else if kind = 0 ∧ (s.vslot (tokSlot e.2.1)).drafts ≠ [] then 4
      else if kind = 1 ∧ 8 ≤ (s.vslot (tokSlot e.2.1)).drafts.length then 5
      else if kind = 2 ∧ (8 < e.2.2.toNat ∨ (s.vslot (tokSlot e.2.1)).drafts.length < e.2.2.toNat) then 6 else 0 := by
  have hkind : kind < 2 ↔ kind ≠ 2 := by omega
  have hfield : bitsOf e.2.1.toNat 30 14 = e.2.1.toNat / 2 ^ 14 % 2 ^ 17 := by rw [bitsOf, Nat.shiftRight_eq_div_pow]
  unfold tokCheck
  dsimp only
  rw [hfield, bitsOf_high _ (by decide)]
  refine if_congr (by simp) rfl (if_congr (by simp [myCtx]) rfl (if_congr (by simp) rfl (if_congr ?_ rfl
    (if_congr (by simp) rfl (if_congr (by simp) rfl (if_congr (by simp) rfl rfl))))))
  simp [hkind]

/-! ### TOKSUB, TOKSUB.d and TOKCONF -/

/-- The three words run one body, by their kind. -/
theorem exec_tok {sc : BitVec 2} {d a b : BitVec 6} {s : State} {i : Instr} {kind : Nat}
    (h : (i, kind) ∈ [(Instr.toksub sc d a b, 0), (.toksubD sc d a b, 1), (.tokconf sc d a b, 2)]) :
    exec i s = .next (s.issue i sc (tokBody kind d a b)) := by
  simp only [List.mem_cons, List.not_mem_nil, or_false, Prod.mk.injEq] at h
  rcases h with ⟨rfl, rfl⟩ | ⟨rfl, rfl⟩ | ⟨rfl, rfl⟩ <;> rfl

/-- No command of the slots is on its way, and no arm record of the warp waits. -/
def TokFree (s : State) (slots : List Nat) : Prop := s.me.sched.tokarm = 0 ∧ s.slotsBusy slots = false

/-- The result that the lanes which submit nothing get: zeros. -/
def tokSkipped (s : State) (ls : List (Nat × Word × Word)) : Map Word :=
  (((lanesOf s.cur.lanes).filter fun l => ls.all fun e => e.1 != l).flatMap fun l =>
    (List.range 8).map fun i => (8 * l + i)).foldl (fun (m : Map Word) i => m.set i 0) []

/-- The request of a token command. -/
def tokRequest (s : State) (kind : Nat) (d : BitVec 6) (ls : List (Nat × Word × Word)) : VigilReq :=
  { core := s.cur.core, slot := s.cur.slot, ctx := s.me.ctx, kind := kind, lanes := ls.map fun e => (e.1, e.2)
    dest := d.toNat, group := s.cur.lanes, next := s.fallThrough, result := s.tokSkipped ls }

/-- The first event of a request. -/
def tokFirst (kind n : Nat) (ls : List (Nat × Word × Word)) : Instr :=
  match ls with
  | [] => .vigilResultArrival n
  | e :: _ => if kind = 0 then .vigilStep n e.1 else if kind = 1 then .vigilDraftStep n e.1 else .vigilConfirm n e.1

/-- A warp whose registers wait for the answer, and whose lanes wait with them but behind TOKSUB.d. -/
def tokWarp (kind n : Nat) (d : BitVec 6) (g : Mask) (w : Warp) : Warp :=
  { w with var := w.var ++ (List.range 8).map fun j => ⟨.lane, d.toNat + j, g, n⟩
           sched := { w.sched with atHome := w.sched.atHome ++ if kind = 1 then [] else [(n, g)] } }

theorem addVar_tokWarp (u : State) (d : BitVec 6) (g : Mask) (n : Nat) :
    u.addVar .lane d.toNat 8 g n = u.updMe (tokWarp 1 n d g) := by
  rw [addVar_eq, if_neg (by omega)]
  exact updMe_congr _ _ _ (by simp [tokWarp])

theorem addVar_keepAtHome {kind : Nat} (hk : kind ≠ 1) (u : State) (d : BitVec 6) (n : Nat) :
    (u.addVar .lane d.toNat 8 u.cur.lanes n).keepAtHome n = u.updMe (tokWarp kind n d u.cur.lanes) := by
  rw [addVar_tokWarp, keepAtHome, updMe_updMe, updMe_cur]
  exact updMe_congr _ _ _ (by simp [tokWarp, Warp.updSched, hk])

/-- The state in which a request to the Vigil stands under the next number: the warp as `f` makes it, and the request's first
event. -/
def enterVigil (s : State) (q : VigilReq) (f : Warp → Warp) (ev : Instr) : State :=
  (State.updMe { s with nextReq := s.nextReq + 1, vreqs := s.vreqs.set s.nextReq q } f).post ev

/-- What entering a request leaves, in a state reached by steps of the memory system. -/
theorem enterVigil_fields {s e : State} (h : MemStep s e) (q : VigilReq) (f : Warp → Warp) (ev : Instr) :
    let t := e.enterVigil q f ev
    t.vreqs.find e.nextReq = some q ∧ (∀ m, m ≠ e.nextReq → t.vreqs.find m = s.vreqs.find m) ∧ t.nextReq = e.nextReq + 1 ∧
    t.agenda = e.agenda ++ [ev] ∧ t.mem = e.mem ∧ t.vigil = s.vigil ∧ t.me = f s.me := by
  intro t
  have hvreqs : e.vreqs = s.vreqs := by rw [h.device]
  have hvigil : e.vigil = s.vigil := by rw [h.device]
  have hdevice : t = { e with
      cores := t.cores, nextReq := e.nextReq + 1, vreqs := e.vreqs.set e.nextReq q, agenda := e.agenda ++ [ev] } := by
    change State.post _ _ = _
    rw [updMe_device]
    rfl
  rw [← hvreqs, ← hvigil]
  refine ⟨?_, fun m hm => ?_, ?_, ?_, ?_, ?_, ?_⟩
  · rw [hdevice]
    exact (Map.find_set ..).trans (if_pos rfl)
  · rw [hdevice]
    exact (Map.find_set ..).trans (if_neg hm)
  · rw [hdevice]
  · rw [hdevice]
  · rw [hdevice]
  · rw [hdevice]
  · refine (post_memStep ..).me.trans ((updMe_me ..).trans ?_)
    change f e.me = _
    rw [h.me]

/-- The state in which a token command's request stands. -/
def askVigil (s : State) (kind : Nat) (d : BitVec 6) (ls : List (Nat × Word × Word)) : State :=
  s.enterVigil (s.tokRequest kind d ls) (tokWarp kind s.nextReq d s.cur.lanes) (tokFirst kind s.nextReq ls)

section
variable {s : State} {kind : Nat} {d a b : BitVec 6}

theorem tokBody_unfeatured (h : (s.ctx s.me.ctx).hasFeat featVigil = false) :
    tokBody kind d a b s = .trap s (s.accTrap s.firstLane (accFail 10 kLoad 0)) := if_pos (by simp [myCtx, h])

variable (hfeat : (s.ctx s.me.ctx).hasFeat featVigil = true)
include hfeat

theorem tokBody_busy (h : ¬ s.TokFree ((s.submitted a b).map fun e => tokSlot e.2.1)) : tokBody kind d a b s = .wait s := by
  rw [← tokLanes_eq] at h
  refine (if_neg (by simp [myCtx, hfeat])).trans (if_pos ?_)
  by_contra hn
  exact h (by simpa [TokFree] using hn)

variable (hfree : s.TokFree ((s.submitted a b).map fun e => tokSlot e.2.1))
include hfree

theorem tokBody_fails {e : Nat × Word × Word} {rest : List (Nat × Word × Word)}
    (h : ((s.submitted a b).filter fun e => s.tokCheck kind (s.submitted a b) e != 0) = e :: rest) : tokBody kind d a b s =
      .trap s { s.seqTrap 1 (s.tokCheck kind (s.submitted a b) e) (maskOf fun l => (e :: rest).any fun f => f.1 = l)
                  (BitVec.ofNat 32 (tokSlot e.2.1)) with lv := true, lane := e.1 } := by
  obtain ⟨harm, hbusy⟩ := hfree
  unfold tokBody
  dsimp only
  rw [tokLanes_eq, if_neg (by simp [myCtx, hfeat]), if_neg (by simp [harm, hbusy]), h]

/-- Where every lane passes, the request follows the release. -/
theorem tokBody_passes (h : ((s.submitted a b).filter fun e => s.tokCheck kind (s.submitted a b) e != 0) = []) :
    tokBody kind d a b s = s.afterRelease 4 fun e =>
      .done (e.askVigil kind d (s.submitted a b)) (if kind = 1 then .fall else .stay) := by
  obtain ⟨harm, hbusy⟩ := hfree
  unfold tokBody
  dsimp only
  rw [tokLanes_eq, if_neg (by simp [myCtx, hfeat]), if_neg (by simp [harm, hbusy]), h]
  refine congrArg (s.afterRelease 4) (funext fun e => ?_)
  by_cases hk : kind = 1
  · subst hk
    rw [if_pos rfl, if_pos rfl, askVigil, enterVigil, ← addVar_tokWarp]
    rfl
  · rw [if_neg hk, if_neg hk, askVigil, enterVigil, ← addVar_keepAtHome hk]
    rfl

end

/-- Steps of the memory system keep what a token command asks. -/
theorem askVigil_memStep {s e : State} (h : MemStep s e) (kind : Nat) (d : BitVec 6) (ls : List (Nat × Word × Word)) :
    e.askVigil kind d ls =
      e.enterVigil (s.tokRequest kind d ls) (tokWarp kind e.nextReq d s.cur.lanes) (tokFirst kind e.nextReq ls) := by
  have hreq : e.tokRequest kind d ls = s.tokRequest kind d ls := by
    rw [tokRequest, tokSkipped, h.cur, h.me, h.fallThrough]
    rfl
  rw [askVigil, hreq, h.cur]

/-! ### TOKARM (12 R272) -/

theorem exec_tokarm (sc : BitVec 2) (a b : BitVec 6) (s : State) :
    exec (.tokarm sc a b) s = .next (s.issue (.tokarm sc a b) sc (tokarmBody a b)) := rfl

/-- The records among the bytes that TOKARM has read. -/
def armRecords (n : Nat) (bs : List Byte) : List (BitVec 1024) :=
  (List.range n).map fun i => BitVec.ofNat 1024 (leNat ((bs.drop (128 * i)).take 128))

/-- A warp that waits for its arm records. -/
def armWarp (w : Warp) : Warp := { w with sched := { w.sched with tokarm := w.sched.tokarm + 1 } }

/-- What TOKARM does with the bytes that it has read for `n` records at `va`. -/
def armRead (h : Nat) (va : DWord) (n : Nat) (bs : List Byte) (s : State) : Did :=
  if va.toNat % 128 != 0 then .trap s (s.accTrap s.firstLane (accFail 4 kRecord va)) else
  match (List.range n).find? fun i => !s.armValid h ((armRecords n bs).getD i 0) with
  | some i => .trap s (s.seqTrap 3 0 0 (BitVec.ofNat 32 i))
  | none => .done (s.enterVigil
      { core := s.cur.core, slot := s.cur.slot, ctx := h, kind := 3, lanes := [], records := armRecords n bs }
      armWarp (.vigilArmApply s.nextReq)) .fall

/-- What TOKARM does once it has released. -/
def armFetch (h : Nat) (va : DWord) (n : Nat) (s : State) : Did :=
  match s.vaRead s.myDie h kRecord va (128 * n) with
  | .error x => .trap s (s.accTrap s.firstLane x)
  | .ok (e, bs) => armRead h va n bs e

section
variable {s : State} {a b : BitVec 6}

theorem tokarmBody_unfeatured (h : (s.ctx s.me.ctx).hasFeat featVigil = false) :
    tokarmBody a b s = .trap s (s.accTrap s.firstLane (accFail 10 kRecord (s.us64 a))) := if_pos (by simp [myCtx, h])

variable (hfeat : (s.ctx s.me.ctx).hasFeat featVigil = true)
include hfeat

theorem tokarmBody_waits (h : s.me.sched.tokarm ≠ 0) : tokarmBody a b s = .wait s :=
  (if_neg (by simp [myCtx, hfeat])).trans (if_pos (by simpa using h))

variable (hidle : s.me.sched.tokarm = 0)
include hidle

theorem tokarmBody_badCount (h : (s.us b).toNat = 0 ∨ 256 < (s.us b).toNat) :
    tokarmBody a b s = .trap s (s.seqTrap 3 1 0 (BitVec.ofNat 32 (s.us b).toNat)) :=
  (if_neg (by simp [myCtx, hfeat])).trans ((if_neg (by simp [hidle])).trans (if_pos (by simpa using h)))

variable (hsome : (s.us b).toNat ≠ 0) (hfew : (s.us b).toNat ≤ 256)
include hsome hfew

theorem tokarmBody_counted : tokarmBody a b s = s.afterRelease 4 (armFetch s.me.ctx (s.us64 a) (s.us b).toNat) :=
  (if_neg (by simp [myCtx, hfeat])).trans ((if_neg (by simp [hidle])).trans (if_neg (by simp [hsome, hfew])))

theorem tokarmBody_unreleased (h : ¬ s.canRelease s.cur.core s.cur.slot 4 = true) : tokarmBody a b s = .wait s :=
  (tokarmBody_counted hfeat hidle hsome hfew).trans (afterRelease_wait h)

variable (hcan : s.canRelease s.cur.core s.cur.slot 4 = true)
include hcan

theorem tokarmBody_unread {x : AccFail}
    (h : (s.releaseAt s.cur.core 4).vaRead s.myDie s.me.ctx kRecord (s.us64 a) (128 * (s.us b).toNat) = .error x) :
    tokarmBody a b s = .trap (s.releaseAt s.cur.core 4) (s.accTrap s.firstLane x) := by
  have hstep := releaseAt_memStep s s.cur.core 4
  rw [tokarmBody_counted hfeat hidle hsome hfew, afterRelease_can hcan, armFetch, hstep.myDie, h,
    ← hstep.firstLane, ← hstep.accTrap]

theorem tokarmBody_read {e : State} {bs : List Byte}
    (h : (s.releaseAt s.cur.core 4).vaRead s.myDie s.me.ctx kRecord (s.us64 a) (128 * (s.us b).toNat) = .ok (e, bs)) :
    tokarmBody a b s = armRead s.me.ctx (s.us64 a) (s.us b).toNat bs e := by
  rw [tokarmBody_counted hfeat hidle hsome hfew, afterRelease_can hcan, armFetch, (releaseAt_memStep s s.cur.core 4).myDie, h]

end

section
variable {s e : State} {h n : Nat} {va : DWord} {bs : List Byte}

theorem armRead_misaligned (hstep : MemStep s e) (hva : va.toNat % 128 ≠ 0) :
    armRead h va n bs e = .trap e (s.accTrap s.firstLane (accFail 4 kRecord va)) := by
  rw [armRead, if_pos (by simpa using hva), hstep.accTrap, hstep.firstLane]

variable (hva : va.toNat % 128 = 0)
include hva

theorem armRead_invalid (hstep : MemStep s e) {i : Nat} (hi : i < n)
    (hfirst : ∀ j < i, e.armValid h ((armRecords n bs).getD j 0) = true)
    (hbad : e.armValid h ((armRecords n bs).getD i 0) = false) :
    armRead h va n bs e = .trap e (s.seqTrap 3 0 0 (BitVec.ofNat 32 i)) := by
  have hfind : ((List.range n).find? fun i => !e.armValid h ((armRecords n bs).getD i 0)) = some i :=
    List.find?_range_eq_some.mpr ⟨by rw [hbad]; rfl, List.mem_range.mpr hi, fun j hj => by rw [hfirst j hj]; decide⟩
  have htrap : e.seqTrap 3 0 0 (BitVec.ofNat 32 i) = s.seqTrap 3 0 0 (BitVec.ofNat 32 i) := by
    rw [seqTrap, trapAt, hstep.cur]
    rfl
  rw [armRead, if_neg (by simp [hva]), hfind, ← htrap]

theorem armRead_valid (hok : ∀ r ∈ armRecords n bs, e.armValid h r = true) :
    armRead h va n bs e = .done (e.enterVigil
      { core := e.cur.core, slot := e.cur.slot, ctx := h, kind := 3, lanes := [], records := armRecords n bs }
      armWarp (.vigilArmApply e.nextReq)) .fall := by
  have hnone : ((List.range n).find? fun i => !e.armValid h ((armRecords n bs).getD i 0)) = none := by
    refine List.find?_eq_none.mpr fun i hi => ?_
    have hlen : i < (armRecords n bs).length := by simpa [armRecords] using hi
    rw [List.getD_eq_getElem _ _ hlen, hok _ (List.getElem_mem hlen)]
    decide
  rw [armRead, if_neg (by simp [hva]), hnone]

end

theorem enterVigil_cur (s : State) (q : VigilReq) (f : Warp → Warp) (ev : Instr) : (s.enterVigil q f ev).cur = s.cur :=
  updMe_cur ..

/-- The lanes of the trap that a token command with a failing lane raises. -/
theorem failedLanes {ls p r : List (Nat × Word × Word)} {e : Nat × Word × Word} {bad : Nat × Word × Word → Bool}
    (hls : ls = p ++ e :: r) (hp : ∀ x ∈ p, bad x = false) (he : bad e = true) :
    ls.filter bad = e :: r.filter bad := by
  rw [hls, List.filter_append, List.filter_eq_nil_iff.mpr fun x hx => by simp [hp x hx], List.nil_append,
    List.filter_cons_of_pos he]

theorem mem_failedLanes {ls : List (Nat × Word × Word)} {bad : Nat × Word × Word → Bool} {l : Nat} (hl : l < 32) :
    (maskOf fun l => (ls.filter bad).any fun f => f.1 = l).getLsbD l = true ↔ ∃ x ∈ ls, x.1 = l ∧ bad x = true := by
  rw [getLsbD_maskOf, decide_eq_true hl, Bool.true_and, List.any_eq_true]
  simp [and_assoc, and_comm]

/-- Settles O42: the three token words by the checks of their lanes (`tokBody_fails`, `tokBody_passes`), TOKARM by its
release, its read and its records (`armRead_misaligned`, `armRead_invalid`, `armRead_valid`). -/
theorem tokenCommands : Obligations.TokenCommands := by
  intro s sc d a b lanes ls slots rel n h va count free q first can asked word seq
  have hrel : MemStep s rel := releaseAt_memStep ..
  have hpass (kind : Nat) (h : ∀ e ∈ ls, s.tokCheck kind ls e = 0) : (ls.filter fun e => s.tokCheck kind ls e != 0) = [] :=
    List.filter_eq_nil_iff.mpr fun e he => by simp [h e he]
  refine ⟨fun kind e hkind => tokCheck_eq s hkind ls e, fun hfeat => ⟨fun hfree hcan i kind hw hok hr => ?unreleased,
    fun hfree hcan i kind hw hok => ?asks, fun hfree i kind hw p e r hls hp he hr => ?fails,
    fun hbusy i kind hw hr => exec_wait (exec_tok hw) hr (tokBody_busy hfeat hbusy),
    fun harm hr => exec_wait (exec_tokarm ..) hr (tokarmBody_waits hfeat harm),
    fun hidle hcount hr => exec_trap (exec_tokarm ..) hr (tokarmBody_badCount hfeat hidle hcount),
    fun hidle hsome hfew => ⟨fun hcan hr => ?_, fun x hcan hread hr => ?_, fun e bs hcan hread => ?reads⟩⟩,
    fun hfeat => ⟨fun i kind hw hr => exec_trap (exec_tok hw) hr (tokBody_unfeatured hfeat),
      fun hr => exec_trap (exec_tokarm ..) hr (tokarmBody_unfeatured hfeat)⟩⟩
  case unreleased =>
    exact exec_wait (exec_tok hw) hr ((tokBody_passes hfeat hfree (hpass kind hok)).trans (afterRelease_wait hcan))
  case asks =>
    have hbody := (tokBody_passes hfeat hfree (d := d) (hpass kind hok)).trans (afterRelease_can hcan)
    obtain ⟨hq, hothers, hnext, hagenda, hmem, hvigil, hme⟩ := enterVigil_fields hrel (s.tokRequest kind d ls)
      (tokWarp kind n d s.cur.lanes) (tokFirst kind n ls)
    rw [askVigil_memStep hrel] at hbody
    refine ⟨_, ⟨hq, hothers, hnext, hagenda, hmem, hvigil, ?_, ?_⟩, does (exec_tok hw) hbody ?_⟩
    · rw [hme]
      rfl
    · rw [hme]
      rfl
    · split
      · simp only [flowPc, fallThrough, enterVigil_cur, hrel.cur]
      · rfl
  case fails =>
    have hbad := failedLanes (bad := fun x => s.tokCheck kind ls x != 0) hls (fun x hx => by simp [hp x hx]) (by simpa using he)
    refine ⟨_, fun l hl => ?_, exec_trap (exec_tok hw) hr (tokBody_fails hfeat hfree hbad)⟩
    rw [← hbad]
    exact (mem_failedLanes hl).trans (by simp)
  case reads =>
    intro recs
    have he : MemStep s e := hrel.trans (vaRead_memStep hread)
    have hbody := tokarmBody_read hfeat hidle hsome hfew hcan hread
    refine ⟨fun hva hr => ?_, fun hva i hi hfirst hbad hr => ?_, fun hva hok => ?_⟩
    · exact exec_trap (exec_tokarm ..) hr (hbody.trans (armRead_misaligned he hva))
    · exact exec_trap (exec_tokarm ..) hr (hbody.trans (armRead_invalid hva he hi hfirst hbad))
    · obtain ⟨hq, -, hnext, hagenda, hmem, hvigil, hme⟩ := enterVigil_fields he _ armWarp (.vigilArmApply e.nextReq)
      refine ⟨_, doesFall_of_cur (exec_tokarm ..) (hbody.trans (armRead_valid hva hok)) ((enterVigil_cur ..).trans he.cur),
        hagenda, hnext, hq.trans ?_, hme, hmem, hvigil⟩
      rw [he.cur]
      rfl
  · exact exec_wait (exec_tokarm ..) hr (tokarmBody_unreleased hfeat hidle hsome hfew hcan)
  · exact exec_trap (exec_tokarm ..) hr (tokarmBody_unread hfeat hidle hsome hfew hcan hread)

end State
end Sys2Proof.Machine
end

section
/-! PROOFS (22 R400, R404): a fault record changes no Vigil slot, and damages and mends none. Making it writes memory, makes
an add, and can wake who waits for the counter. -/

namespace Sys2Proof.Machine
namespace State

/-- The Vigil's state and the damage of its slots are as they were. -/
structure SameSlots (s t : State) : Prop where
  damage : t.damage.slots = s.damage.slots
  vigil : t.vigil = s.vigil

namespace SameSlots
theorem refl (s : State) : SameSlots s s := ⟨rfl, rfl⟩
theorem trans {s t u : State} (h : SameSlots s t) (g : SameSlots t u) : SameSlots s u :=
  ⟨g.damage.trans h.damage, g.vigil.trans h.vigil⟩
theorem foldl {α : Type} (f : State → α → State) (H : ∀ s x, SameSlots s (f s x)) (l : List α) (s : State) :
    SameSlots s (l.foldl f s) := by
  induction l generalizing s with
  | nil => exact refl s
  | cons a l ih => exact (H s a).trans (ih _)
theorem ite {s a b : State} {p : Prop} [Decidable p] (h : SameSlots s a) (g : SameSlots s b) : SameSlots s (if p then a else b) := by
  split <;> assumption
end SameSlots

theorem updWarp_sameSlots (s : State) (c k : Nat) (f : Warp → Warp) : SameSlots s (s.updWarp c k f) :=
  ⟨congrArg Damage.slots (updWarp_damage ..), updWarp_vigil ..⟩
theorem fresh_sameSlots (s : State) : SameSlots s s.fresh.2 := ⟨rfl, rfl⟩
theorem setL2_sameSlots (s : State) (m : Map Line) : SameSlots s { s with l2 := m } := ⟨rfl, rfl⟩
theorem postAll_sameSlots (s : State) (es : List Instr) : SameSlots s (s.postAll es) := ⟨rfl, rfl⟩
theorem countDie_sameSlots (s : State) (d n : Nat) : SameSlots s (s.countDie d n) := .ite (.refl s) ⟨rfl, rfl⟩

/-! ### Lines -/

theorem writeLine_sameSlots (s : State) (kid line : Nat) (m : BitVec 32) (d : BitVec 1024) :
    SameSlots s (s.writeLine kid line m d) :=
  .ite (.refl s) (.ite ⟨rfl, rfl⟩ ⟨rfl, rfl⟩)
theorem writeBack_sameSlots (s : State) (key line : Nat) (l : Line) : SameSlots s (s.writeBack key line l) :=
  .ite ⟨rfl, rfl⟩ (writeLine_sameSlots ..)
theorem l2Clean_sameSlots (s : State) (d line : Nat) : SameSlots s (s.l2Clean d line) := by
  unfold l2Clean
  split
  · exact (writeBack_sameSlots ..).trans ⟨rfl, rfl⟩
  · exact .refl s
theorem l2Drop_sameSlots (s : State) (d line : Nat) : SameSlots s (s.l2Drop d line) :=
  (l2Clean_sameSlots ..).trans ⟨rfl, rfl⟩
theorem l2Put_sameSlots (s : State) (d line : Nat) (l : Line) : SameSlots s (s.l2Put d line l) := by
  unfold l2Put
  dsimp only
  refine SameSlots.trans ?_ (setL2_sameSlots ..)
  exact .ite (.refl s) (.ite (.refl s) ((fresh_sameSlots s).trans (l2Drop_sameSlots ..)))
theorem l2Line_sameSlots (s : State) (d kid line : Nat) (need : BitVec 32) : SameSlots s (s.l2Line d kid line need).1 := by
  unfold l2Line
  dsimp only
  refine SameSlots.trans (SameSlots.trans ?_ (countDie_sameSlots ..)) (l2Put_sameSlots ..)
  split
  · split
    · exact .refl s
    · exact writeBack_sameSlots ..
  · exact .refl s
theorem hostOwn_sameSlots (s : State) (d pa : Nat) (w : Bool) : SameSlots s (s.hostOwn d pa w) := by
  refine .ite (.refl s) (.foldl _ (fun s e => ?_) _ s)
  exact .ite (.refl s) (.ite (l2Drop_sameSlots ..) (l2Clean_sameSlots ..))

/-! ### An almanac's pages -/

theorem flushL2Range_sameSlots (s : State) (lo hi : Nat) : SameSlots s (s.flushL2Range lo hi) := by
  refine .foldl _ (fun s e => ?_) _ s
  exact .ite ((writeBack_sameSlots ..).trans ⟨rfl, rfl⟩) (.refl s)
theorem stagePage_sameSlots (s : State) (h k : Nat) : SameSlots s (s.stagePage h k) :=
  (flushL2Range_sameSlots ..).trans ⟨rfl, rfl⟩
theorem stageFor_sameSlots (s : State) (pa : Nat) : SameSlots s (s.stageFor pa) := by
  refine .foldl _ (fun s h => ?_) _ s
  split
  · dsimp only
    split
    · exact (SameSlots.ite (stagePage_sameSlots ..) (.refl s)).trans (stagePage_sameSlots ..)
    · exact .ite (stagePage_sameSlots ..) (.refl s)
  · exact .refl s
theorem keepPage_sameSlots (s : State) (h k : Nat) : SameSlots s (s.keepPage h k) :=
  .ite (.refl s) ((flushL2Range_sameSlots ..).trans ⟨rfl, rfl⟩)
theorem markPage_sameSlots (s : State) (h pa : Nat) : SameSlots s (s.markPage h pa) := .ite (.refl s) ⟨rfl, rfl⟩
theorem markCtrPage_sameSlots (s : State) (h pa : Nat) : SameSlots s (s.markCtrPage h pa) := .ite (.refl s) ⟨rfl, rfl⟩

/-! ### Writes -/

theorem homePut_sameSlots (s : State) (r w h pa kid cache : Nat) (bs : List Byte) :
    SameSlots s (s.homePut r w h pa kid cache bs) := by
  have hcopies (u : State) : SameSlots u ((u.invalidateCopies w (lineOf pa)).wakeMonitors pa) := .ite ⟨rfl, rfl⟩ ⟨rfl, rfl⟩
  have hfree := (stageFor_sameSlots s pa).trans ((hostOwn_sameSlots _ (homeDie pa r) pa true).trans (hcopies _))
  unfold homePut
  dsimp only
  exact .ite (hfree.trans (writeLine_sameSlots ..)) (hfree.trans ((l2Line_sameSlots ..).trans (l2Put_sameSlots ..)))
theorem homeWrite_sameSlots (s : State) (r w h pa kid cache : Nat) (bs : List Byte) :
    SameSlots s (s.homeWrite r w h pa kid cache bs) := by
  unfold homeWrite
  exact (SameSlots.ite (keepPage_sameSlots ..) (.refl s)).trans ((homePut_sameSlots ..).trans (markPage_sameSlots ..))
theorem targetWrite_sameSlots (s : State) (d pa : Nat) (bs : List Byte) : SameSlots s (s.targetWrite d pa bs) := by
  unfold targetWrite
  exact (l2Drop_sameSlots ..).trans (writeLine_sameSlots ..)
theorem meet_sameSlots (s : State) (w : Bool) (k : Option Nat) : SameSlots s (s.meet w k) := by
  cases k with
  | none => exact .refl s
  | some k => exact .ite (.refl s) ⟨rfl, rfl⟩
theorem noteWalk_sameSlots (s : State) (d h : Nat) (va : DWord) : SameSlots s (s.noteWalk d h va) := .ite (.refl s) ⟨rfl, rfl⟩
theorem physWrite_sameSlots (s : State) (d h kid pa : Nat) (bs : List Byte) : SameSlots s (s.physWrite d h kid pa bs) :=
  .foldl _ (fun _ _ => (meet_sameSlots ..).trans (homeWrite_sameSlots ..)) _ s
theorem vaWrite_sameSlots {s t : State} {d h kind : Nat} {va : DWord} {bs : List Byte} (e : s.vaWrite d h kind va bs = .ok t) :
    SameSlots s t := by
  unfold vaWrite at e
  dsimp only at e
  generalize List.mapM (m := Except AccFail) _ _ = r at e
  cases r with
  | error f => cases e
  | ok cs =>
    injection e with e
    rw [← e]
    exact .foldl _ (fun _ _ => (meet_sameSlots ..).trans ((noteWalk_sameSlots ..).trans (physWrite_sameSlots ..))) _ s

/-! ### Adds -/

theorem wakeWith_sameSlots (s : State) (c k : Nat) (v : DWord) : SameSlots s (s.wakeWith c k v) := by
  refine .ite ⟨rfl, rfl⟩ (.ite ⟨rfl, rfl⟩ ?_)
  split
  · exact .ite ((updWarp_sameSlots ..).trans (.ite (.refl _) ⟨rfl, rfl⟩)) (.refl s)
  · exact .refl s
theorem setWaiterList_sameSlots (s : State) (d : Nat) (l : List Waiter) (x : CtrHome) : SameSlots s (s.setWaiterList d l x) := by
  cases x <;> exact ⟨rfl, rfl⟩
theorem ctrNotify_sameSlots (s : State) (d : Nat) (x : CtrHome) (v : DWord) : SameSlots s (s.ctrNotify d x v) := by
  unfold ctrNotify
  dsimp only
  refine SameSlots.trans ?_ (SameSlots.trans (.foldl _ (fun _ _ => wakeWith_sameSlots ..) _ _) (postAll_sameSlots ..))
  exact .ite (setWaiterList_sameSlots ..) (.refl s)
theorem ctrWrite_sameSlots (s : State) (d h : Nat) (v : DWord) (x : CtrHome) : SameSlots s (s.ctrWrite d h v x) := by
  cases x with
  | file c n => exact ⟨rfl, rfl⟩
  | mem pa kid =>
    exact .ite (targetWrite_sameSlots ..)
      ((SameSlots.ite (keepPage_sameSlots ..) (.refl s)).trans ((homePut_sameSlots ..).trans (markCtrPage_sameSlots ..)))
theorem ctrAdd_sameSlots {s t : State} {d h : Nat} {home : CtrHome} {inc old : DWord} (e : s.ctrAdd d h home inc = some (old, t)) :
    SameSlots s t := by
  unfold ctrAdd at e
  dsimp only at e
  split at e
  · cases e
  · injection e with e
    injection e with _ e
    exact e ▸ (ctrWrite_sameSlots ..).trans (ctrNotify_sameSlots ..)
theorem hold_sameSlots (s : State) (k : Nat) (b : Bool) (e : Instr) : SameSlots s (s.hold k b e) :=
  (SameSlots.ite (.refl s) (countDie_sameSlots ..)).trans (.ite ⟨rfl, rfl⟩ ⟨rfl, rfl⟩)
theorem setReclost_sameSlots (s : State) (h : Nat) : SameSlots s (s.setReclost h) := ⟨rfl, rfl⟩
theorem noteAdd_sameSlots (s : State) (d h : Nat) (va : DWord) (inc : Word) : SameSlots s (s.noteAdd d h va inc) := by
  refine .ite (setReclost_sameSlots ..) ?_
  split
  · unfold makeAdd
    split
    · exact SameSlots.trans (t := { s.newReq.2 with ctrOps := _ }) ⟨rfl, rfl⟩ (hold_sameSlots ..)
    · split
      · rename_i e
        exact ctrAdd_sameSlots e
      · exact setReclost_sameSlots ..
  · exact setReclost_sameSlots ..

/-! ### Records -/

theorem lsaWrite_sameSlots (s : State) (d h : Nat) (rec : BitVec 128) : SameSlots s (s.lsaWrite d h rec) := by
  refine .ite (setReclost_sameSlots ..) ?_
  split
  · rename_i e
    exact (vaWrite_sameSlots e).trans ⟨rfl, rfl⟩
  · exact setReclost_sameSlots ..
theorem faultRecord_sameSlots (s : State) (h code core slot : Nat) (x : BitVec 96) :
    SameSlots s (s.faultRecord h code core slot x) :=
  (lsaWrite_sameSlots ..).trans (noteAdd_sameSlots ..)

end State
end Sys2Proof.Machine
end


section
/-! PROOFS (12 R268 to R272; 15 R310 to R319; 22 R400, R404): the Vigil's steps, their answers, and its slots. -/

namespace Sys2Proof.Machine

/-! ### One step of a slot (15 R314, R315) -/

theorem slotStep_stopped {st : VState} (h : st.stopped = true) (x : VSlot) (ranges : List ClassRange) (t : Word) :
    slotStep x ranges st t = (st, some stoppedAction, []) := if_pos h

/-- The parts of a slot's state that firing its budgets keeps; what has fired stays so. -/
structure FiredOnly (st u : VState) : Prop where
  hist : u.hist = st.hist
  stopped : u.stopped = st.stopped
  counts : u.counts = st.counts
  fired : ∀ b, st.fired.getLsbD b = true → u.fired.getLsbD b = true

theorem FiredOnly.trans {a b c : VState} (h : FiredOnly a b) (g : FiredOnly b c) : FiredOnly a c :=
  ⟨g.hist.trans h.hist, g.stopped.trans h.stopped, g.counts.trans h.counts, fun i hi => g.fired i (h.fired i hi)⟩

theorem fired_or (st : VState) (m : BitVec 4) : FiredOnly st { st with fired := st.fired ||| m } :=
  ⟨rfl, rfl, rfl, fun b hb => by rw [BitVec.getLsbD_or, hb, Bool.true_or]⟩

theorem fireBudgets_firedOnly (x : VSlot) (st : VState) : FiredOnly st (fireBudgets x st).1 := by
  unfold fireBudgets
  refine List.foldlRecOn [0, 1, 2, 3] _ (motive := fun r : VState × Option VAction × List (DWord × Word) => FiredOnly st r.1)
    ⟨rfl, rfl, rfl, fun _ => id⟩ fun r hr b _ => ?_
  dsimp only
  split
  · exact hr
  · split
    · exact hr.trans (fired_or ..)
    · exact hr.trans (fired_or ..)

/-- A step that is taken keeps the token and counts it. -/
theorem slotStep_running {st : VState} (h : st.stopped = false) (x : VSlot) (ranges : List ClassRange) (t : Word) :
    FiredOnly { st with hist := (t :: st.hist).take 8, counts := countToken x ranges st.counts t } (slotStep x ranges st t).1 := by
  unfold slotStep
  rw [if_neg (by simp [h])]
  exact fireBudgets_firedOnly x _

namespace State

theorem injected_none {a : VAction} (h : a.std = true ∨ a.act ≠ 3 ∨ a.inj = []) (x : VSlot) (ranges : List ClassRange) (st : VState) :
    injected x ranges st a = st := by
  unfold injected
  split
  · rfl
  next hinj =>
    have hnil : a.inj = [] := by
      rcases h with h | h | h
      · simp [h] at hinj
      · simp [h] at hinj
      · exact h
    rw [hnil]
    rfl

theorem injected_cons {a : VAction} {t : Word} {m : List Word} (hstd : a.std = false) (hact : a.act = 3) (hinj : a.inj = t :: m)
    (x : VSlot) (ranges : List ClassRange) (st : VState) :
    injected x ranges st a =
      injected x ranges { st with hist := (t :: st.hist).take 8, counts := countToken x ranges st.counts t } { a with inj := m } := by
  unfold injected
  rw [if_neg (by simp [hstd, hact]), if_neg (by simp [hstd, hact]), hinj]
  rfl

/-! ### Slots -/

theorem vslot_updVslot (s : State) (k j : Nat) (f : VSlot → VSlot) :
    (s.updVslot k f).vslot j = if j = k then f (s.vslot k) else s.vslot j := Map.get_upd ..

section
variable {s : State} {core h k : Nat} {a : VAction}

theorem applyAction_std (hstd : a.std = true) : s.applyAction core h k a = s := if_pos hstd

variable (hstd : a.std = false)
include hstd

theorem applyAction_stop (hact : a.act = 1) :
    s.applyAction core h k a = s.updVslot k fun x => { x with st := { x.st with stopped := true } } :=
  (if_neg (by simp [hstd])).trans (if_pos hact)

theorem applyAction_fork (hact : a.act = 2) : s.applyAction core h k a =
    if (s.vslot a.target).owner != some h then s.setNerr core h k 2
    else s.updVslot a.target fun x => { x with st := { (s.vslot k).st with stopped := false }, drafts := [] } :=
  (if_neg (by simp [hstd])).trans ((if_neg (by omega)).trans (if_pos hact))

end

/-- A slot as its error leaves it, the record not yet made. -/
def slotCleared (s : State) (k : Nat) : State :=
  State.updVslot { s with damage := { s.damage with slots := s.damage.slots.filter (· != k) } } k
    fun x => { clearSlot x with st := { stopped := true }, nerr := true }

theorem slotError_sameSlots (s : State) (core h k : Nat) : SameSlots (s.slotCleared k) (s.slotError core h k) :=
  faultRecord_sameSlots ..

theorem vslot_slotCleared (s : State) (k j : Nat) : (s.slotCleared k).vslot j =
    if j = k then { owner := (s.vslot k).owner, nerr := true, st := { stopped := true } } else s.vslot j := vslot_updVslot ..

/-- The damage of a slot is gone, the slot is cleared, stopped and marked, and no other changes. -/
theorem slotError_spec (s : State) (core h k : Nat) :
    let e := s.slotError core h k
    e.vslot k = { owner := (s.vslot k).owner, nerr := true, st := { stopped := true } } ∧
    (∀ j, j ≠ k → e.vslot j = s.vslot j) ∧ k ∉ e.damage.slots := by
  intro e
  have hsame : SameSlots (s.slotCleared k) e := slotError_sameSlots ..
  have hslot (j : Nat) : e.vslot j =
      if j = k then { owner := (s.vslot k).owner, nerr := true, st := { stopped := true } } else s.vslot j := by
    rw [← vslot_slotCleared, vslot, vslot, hsame.vigil]
  refine ⟨(hslot k).trans (if_pos rfl), fun j hj => (hslot j).trans (if_neg hj), fun hk => ?_⟩
  rw [hsame.damage] at hk
  simpa using (List.mem_filter.mp hk).2

/-! ### A lane's command (15 R319; 22 R400) -/

theorem afterStep_free {s : State} {k : Nat} (h : s.slotAdd k = none) (ev : Instr) : s.afterStep k ev = s.post ev := by
  rw [afterStep, h]
theorem afterStep_held {s : State} {k j : Nat} (h : s.slotAdd k = some j) (ev : Instr) :
    s.afterStep k ev = s.hold (addKey j) false ev := by
  rw [afterStep, h]

/-- What follows the step of lane `lane` of a request of lanes `ls`, which leaves the state `e`: the next lane's, or the answer. -/
def LaneFollows (ls : List (Nat × Word × Word)) (i lane k : Nat) (ev : Nat → Instr) (e t : State) : Prop :=
  (∀ l m, (ls.find? fun y => lane < y.1) = some (l, m) → t = e.afterStep k (ev l)) ∧
  ((∀ y ∈ ls, y.1 ≤ lane) → t = e.afterStep k (.vigilResultArrival i))

theorem nextLane_putWords (e : State) (i lane : Nat) (r : VigilReq) (ws : List Word) (ev : Nat → Instr) :
    LaneFollows r.lanes i lane (tokSlot (r.lanes.get (0, 0) lane).1) ev (e.putWords i lane r ws)
      ((e.putWords i lane r ws).nextLane i lane ev) := by
  have hfind : ∃ m, (e.putWords i lane r ws).vreqs.find i = some { r with result := m } :=
    ⟨_, (Map.find_set ..).trans (if_pos rfl)⟩
  obtain ⟨m, hfind⟩ := hfind
  refine ⟨fun l x hnext => ?_, fun hlast => ?_⟩
  · rw [nextLane, hfind]
    dsimp only
    rw [hnext]
  · have hnone : (r.lanes.find? fun y => lane < y.1) = none :=
      List.find?_eq_none.mpr fun y hy => by simpa using hlast y hy
    rw [nextLane, hfind]
    dsimp only
    rw [hnone]

section
variable {s : State} {i lane : Nat} {r : VigilReq} {w tok : Word} {ev : Nat → Instr} {step : VigilReq → Word → Nat → State}
variable (hr : s.vreqs.find i = some r) (hl : r.lanes.get (0, 0) lane = (w, tok))
include hr hl

theorem laneStep_held {j : Nat} (hj : s.slotAdd (tokSlot w) = some j) :
    s.laneStep i lane ev step = s.hold (addKey j) false (ev lane) := by
  rw [laneStep, hr]
  dsimp only
  rw [hl]
  dsimp only
  rw [hj]

variable (hfree : s.slotAdd (tokSlot w) = none)
include hfree

/-- Once the slot's adds are made, the slot's owner and damage decide. -/
theorem laneStep_free : s.laneStep i lane ev step =
    (if (s.vslot (tokSlot w)).owner != some r.ctx then s.putWords i lane r []
      else if s.damage.slots.contains (tokSlot w) then
        (s.slotError r.core r.ctx (tokSlot w)).putWords i lane { r with bad := true } []
      else step r tok (tokSlot w)).nextLane i lane ev := by
  rw [laneStep, hr]
  dsimp only
  rw [hl]
  dsimp only
  rw [hfree]

theorem laneStep_foreign (hown : (s.vslot (tokSlot w)).owner ≠ some r.ctx) :
    LaneFollows r.lanes i lane (tokSlot w) ev (s.putWords i lane r []) (s.laneStep i lane ev step) := by
  rw [laneStep_free hr hl hfree, if_pos (by simpa using hown)]
  simpa only [hl] using nextLane_putWords s i lane r [] ev

variable (hown : (s.vslot (tokSlot w)).owner = some r.ctx)
include hown

theorem laneStep_hurt (hhurt : tokSlot w ∈ s.damage.slots) :
    LaneFollows r.lanes i lane (tokSlot w) ev ((s.slotError r.core r.ctx (tokSlot w)).putWords i lane { r with bad := true } [])
      (s.laneStep i lane ev step) := by
  rw [laneStep_free hr hl hfree, if_neg (by simp [hown]), if_pos (by simpa using hhurt)]
  simpa only [hl] using nextLane_putWords (s.slotError r.core r.ctx (tokSlot w)) i lane { r with bad := true } [] ev

theorem laneStep_taken (hwhole : tokSlot w ∉ s.damage.slots) {e : State} {ws : List Word}
    (hstep : step r tok (tokSlot w) = e.putWords i lane r ws) :
    LaneFollows r.lanes i lane (tokSlot w) ev (e.putWords i lane r ws) (s.laneStep i lane ev step) := by
  rw [laneStep_free hr hl hfree, if_neg (by simp [hown]), if_neg (by simpa using hwhole), hstep]
  simpa only [hl] using nextLane_putWords e i lane r ws ev

end

/-- The three commands of a lane are steps on its slot. -/
theorem exec_laneEvent (s : State) (i lane : Nat) : ∀ ev ∈ [Instr.vigilStep i, .vigilDraftStep i, .vigilConfirm i],
    ∃ step, exec (ev lane) s = .next (s.laneStep i lane ev step) := by
  simp only [List.forall_mem_cons]
  exact ⟨⟨_, rfl⟩, ⟨_, rfl⟩, ⟨_, rfl⟩, List.forall_mem_nil _⟩

/-! ### Arm records and the answer (12 R270, R272) -/

section
variable {s : State} {i : Nat} {r : VigilReq}

/-- The slots that a request's records are about. -/
def armSlots (r : VigilReq) : List Nat := (r.records.filter fun b => armKind b ≠ 2).map armSlot

theorem armSlots_eq (r : VigilReq) : (r.records.filter fun b => armKind b != 2).map armSlot = armSlots r :=
  congrArg (List.map armSlot) (List.filter_congr fun b _ => by by_cases h : armKind b = 2 <;> simp [h])

/-- The state in which the records of a request are applied, and the request is gone. -/
def armsApplied (s : State) (i : Nat) (r : VigilReq) : State :=
  let bad := (armSlots r).dedup.filter fun k => s.damage.slots.contains k && (s.vslot k).owner = some r.ctx
  let e := bad.foldl (fun e k => e.slotError r.core r.ctx k) s
  let e := if bad = [] then e else e.slotMachine r
  let own := r.records.filter fun b => armKind b = 2 || (e.vslot (armSlot b)).owner = some r.ctx
  let u := own.foldl (fun e b => e.armOne r.ctx b) e
  { u with vreqs := u.vreqs.del i }

variable (hr : s.vreqs.find i = some r)
include hr

theorem armApply_held {j : Nat} (h : (armSlots r).findSome? s.slotAdd = some j) :
    s.armApply i = s.hold (addKey j) false (.vigilArmApply i) := by
  rw [armApply, hr]
  dsimp only
  rw [armSlots_eq, h]

theorem armApply_free (h : (armSlots r).findSome? s.slotAdd = none) : s.armApply i =
    if fwSlot < r.slot then s.armsApplied i r
    else (s.armsApplied i r).updWarp r.core r.slot fun w => w.updSched fun z => { z with tokarm := z.tokarm - 1 } := by
  rw [armApply, hr]
  dsimp only
  rw [armSlots_eq, h]
  simp only [armsApplied, List.isEmpty_iff]

/-- Is an add of one of the request's slots still to be made? -/
def Owed (s : State) (r : VigilReq) : Prop :=
  ∃ y ∈ s.ctrOps, y.2.ctx = r.ctx ∧ ∃ j ∈ r.lanes.map fun y => tokSlot y.2.1, y.2.agent = some (.vigil j)

/-- The state in which a request's results stand in their registers, and the request is gone. -/
def answered (s : State) (i : Nat) (r : VigilReq) : State :=
  let e : State := { s with vreqs := s.vreqs.del i }
  let e := ((e.updWarp r.core r.slot fun v => (r.result.foldl (fun (v : Warp) (y : Nat × Word) =>
    v.setV (r.dest + y.1 % 8) (y.1 / 8) y.2) v).updSched fun z => { z with atHome := z.atHome.filter fun y => y.1 != i }).markRegs
      r.core r.slot [r.dest]).dropVar r.core r.slot i
  if r.bad then e.slotMachine r else e

/-- The state in which the lanes have gone on. -/
def answeredOn (s : State) (i : Nat) (r : VigilReq) : State :=
  (s.answered i r).updWarp r.core r.slot fun v => v.updLanes r.group fun _ l => { l with pc := r.next }

/-- The lanes whose STOP carries the trap flag. -/
def stopLanes (r : VigilReq) : List (Nat × Word × Word) := r.lanes.filter fun y => (r.result.get 0 (8 * y.1)).getLsbD 18

/-- SEQUENCE for the STOP whose first lane is `l`, of slot word `w`. -/
def stopTrap (r : VigilReq) (l : Nat) (w : Word) : TrapInfo :=
  { group := grpSequence, code := 2 * 4096, async := false, lv := true, lane := l
    t1 := maskOf fun n => (stopLanes r).any fun e => e.1 = n, t2 := BitVec.ofNat 32 (tokSlot w), epc := r.next }

theorem tokAnswer_owed (h : s.Owed r) : s.tokAnswer i = s.post (.vigilResultArrival i) := by
  rw [tokAnswer, hr]
  exact if_pos (by simpa [Owed] using h)

variable (hmade : ¬ s.Owed r)
include hmade

theorem tokAnswer_made : s.tokAnswer i =
    if r.group = 0#32 then { s with vreqs := s.vreqs.del i }
    else if r.kind = 1 then s.answered i r
    else match stopLanes r with
      | [] => s.answeredOn i r
      | (l, w, _) :: _ =>
        if ((s.answeredOn i r).warp r.core r.slot).held ((lanesOf r.group).headD 0) then
          (s.answeredOn i r).updWarp r.core r.slot fun v => v.updSched fun y => { y with due := y.due ++ [(r.group, stopTrap r l w)] }
        else (s.answeredOn i r).takeTrap r.core r.slot r.group (stopTrap r l w) := by
  rw [tokAnswer, hr]
  exact if_neg (by simpa [Owed] using hmade)

theorem tokAnswer_unasked (hnone : r.group = 0#32) : s.tokAnswer i = { s with vreqs := s.vreqs.del i } :=
  (tokAnswer_made hr hmade).trans (if_pos hnone)

variable (hsome : r.group ≠ 0#32)
include hsome

theorem tokAnswer_draft (hdraft : r.kind = 1) : s.tokAnswer i = s.answered i r :=
  (tokAnswer_made hr hmade).trans ((if_neg hsome).trans (if_pos hdraft))

variable (hreal : r.kind ≠ 1)
include hreal

theorem tokAnswer_on (hgo : stopLanes r = []) : s.tokAnswer i = s.answeredOn i r := by
  rw [tokAnswer_made hr hmade, if_neg hsome, if_neg hreal, hgo]

variable {l : Nat} {z : Word × Word} {m : List (Nat × Word × Word)} (hstop : stopLanes r = (l, z) :: m)
include hstop

theorem tokAnswer_traps (hfree : ((s.answeredOn i r).warp r.core r.slot).held ((lanesOf r.group).headD 0) = false) :
    s.tokAnswer i = (s.answeredOn i r).takeTrap r.core r.slot r.group (stopTrap r l z.1) := by
  rw [tokAnswer_made hr hmade, if_neg hsome, if_neg hreal, hstop]
  exact if_neg (ne_true_of_eq_false hfree)

theorem tokAnswer_due (hheld : ((s.answeredOn i r).warp r.core r.slot).held ((lanesOf r.group).headD 0) = true) :
    s.tokAnswer i = (s.answeredOn i r).updWarp r.core r.slot fun v => v.updSched fun y =>
      { y with due := y.due ++ [(r.group, stopTrap r l z.1)] } := by
  rw [tokAnswer_made hr hmade, if_neg hsome, if_neg hreal, hstop]
  exact if_pos hheld

end

/-! ### Assignment (15 R310) -/

theorem exec_vslotAssign {n h : Nat} (hn : n < 16384) (hh : h < 1024) (s : State) :
    exec (.vslotAssign n h) s = .next (s.assignSlot n h) := if_neg (by simp [hn, hh])
theorem exec_vslotRelease {n : Nat} (hn : n < 16384) (s : State) : exec (.vslotRelease n) s = .next (s.releaseSlot n) :=
  if_neg (by simp [hn])

theorem assignSlot_offline {s : State} {n : Nat} (hoff : s.boot.vigilOffline.contains (n / 1024) = true) (h : Nat) :
    s.assignSlot n h = s.setDevsts 5 := if_pos hoff
theorem assignSlot_online {s : State} {n h : Nat} (hon : s.boot.vigilOffline.contains (n / 1024) = false)
    (hfeat : (s.ctx h).hasFeat featVigil = true) :
    s.assignSlot n h = s.updVslot n fun x => { clearSlot x with owner := some h } :=
  (if_neg (ne_true_of_eq_false hon)).trans (if_neg (by simp [hfeat]))

theorem vslot_releaseSlot (s : State) (n j : Nat) : (s.releaseSlot n).vslot j = if j = n then {} else s.vslot j := by
  have hfind : (s.releaseSlot n).vigil.slots.find j = if j = n then none else s.vigil.slots.find j := Map.find_del ..
  rw [vslot, vslot, Map.get_eq_find, Map.get_eq_find, hfind]
  split <;> rfl

/-- Settles O50: a lane's command by the adds, the owner and the damage of its slot (`laneStep_held`, `laneStep_foreign`,
`laneStep_hurt`, `laneStep_taken`), a step by its budgets (`slotStep_running`), a damaged slot by its record
(`faultRecord_sameSlots`), arm records and answers by their cases. -/
theorem vigilEvents : Obligations.VigilEvents := by
  intro s i lane r w tok hr hl k x ranges mine hurt put thenLane goes inj act
  refine ⟨fun ev => ⟨fun hfree => afterStep_free hfree ev, fun j hj => afterStep_held hj ev⟩, fun ev hev => ?lane,
    fun hfree hown hwhole => ⟨fun st a n hstep => ?step, fun st a n hstep => ?draft, ?confirm⟩,
    fun st => ⟨fun hst => slotStep_stopped hst .., fun hst => ?running⟩,
    fun st a => ⟨fun hnone => injected_none hnone .., fun t m hstd hact hinj => injected_cons hstd hact hinj ..⟩,
    fun a => ⟨fun hstd => applyAction_std hstd, fun hstd hact => ?stop, fun hstd hact hown => ?fork,
      fun hstd hact hown => ?forkFails⟩,
    slotError_spec .., ?arms, ?answer, fun n h hn hh => ⟨fun hoff => ?_, fun hon hfeat => ?_, ?_⟩⟩
  case lane =>
    obtain ⟨step, hstep⟩ := exec_laneEvent s i lane ev hev
    exact ⟨fun j hj => hstep.trans (congrArg _ (laneStep_held hr hl hj)),
      fun hfree hown => ⟨_, hstep, laneStep_foreign hr hl hfree hown⟩,
      fun hfree hown hhurt => ⟨_, hstep, laneStep_hurt hr hl hfree hown hhurt⟩⟩
  case step =>
    refine ⟨_, rfl, laneStep_taken hr hl hfree hown hwhole ?_⟩
    dsimp only
    rw [hstep]
    cases a <;> rfl
  case draft =>
    refine ⟨?_, _, rfl, laneStep_taken hr hl hfree hown hwhole ?_⟩
    · exact (congrArg VSlot.st ((vslot_updVslot ..).trans (if_pos rfl))).trans rfl
    dsimp only
    cases hlast : (s.vslot (tokSlot w)).drafts.getLast? with
    | none =>
      rw [show x.drafts.getLast? = none from hlast] at hstep
      rw [show slotStep x ranges x.st tok = _ from hstep]
      cases a <;> rfl
    | some d =>
      rw [show x.drafts.getLast? = some d from hlast] at hstep
      rw [show slotStep x ranges d.snap tok = _ from hstep]
      cases a <;> rfl
  case confirm =>
    refine ⟨_, rfl, laneStep_taken hr hl hfree hown hwhole ?_⟩
    dsimp only [act, x, k]
    cases (keptDrafts tok.toNat (s.vslot (tokSlot w)).drafts).getLast?.bind Draft.act <;> rfl
  case running =>
    obtain ⟨hhist, hstopped, hcounts, hfired⟩ := slotStep_running hst x ranges tok
    exact ⟨hhist, hstopped.trans hst, hcounts, hfired⟩
  case stop =>
    rw [applyAction_stop hstd hact]
    exact ⟨congrArg VSlot.st ((vslot_updVslot ..).trans (if_pos rfl)), fun j hj => (vslot_updVslot ..).trans (if_neg hj)⟩
  case fork =>
    rw [applyAction_fork hstd hact, if_neg (by simp [hown])]
    exact ⟨(vslot_updVslot ..).trans (if_pos rfl), fun j hj => (vslot_updVslot ..).trans (if_neg hj)⟩
  case forkFails => rw [applyAction_fork hstd hact, if_pos (by simpa using hown)]
  case arms =>
    refine ⟨fun j hj => congrArg _ (armApply_held hr hj), fun hfree => ?_⟩
    have happly := armApply_free hr hfree
    exact ⟨fun hwarp => congrArg _ (happly.trans (if_neg hwarp.not_gt)),
      fun hother => congrArg _ (happly.trans (if_pos hother))⟩
  case answer =>
    exact ⟨fun howed => congrArg _ (tokAnswer_owed hr howed), fun hmade =>
      ⟨fun hnone => congrArg _ (tokAnswer_unasked hr hmade hnone),
        fun hsome hdraft => congrArg _ (tokAnswer_draft hr hmade hsome hdraft),
        fun hsome hreal hgo => congrArg _ (tokAnswer_on hr hmade hsome hreal hgo), fun l z m hsome hreal hstop =>
          ⟨fun hfree => congrArg _ (tokAnswer_traps hr hmade hsome hreal hstop hfree),
            fun hheld => congrArg _ (tokAnswer_due hr hmade hsome hreal hstop hheld)⟩⟩⟩
  · exact (exec_vslotAssign hn hh s).trans (congrArg _ (assignSlot_offline hoff h))
  · refine ⟨_, (exec_vslotAssign hn hh s).trans (congrArg _ (assignSlot_online hon hfeat)), ?_, fun j hj => ?_⟩
    · exact (vslot_updVslot ..).trans (if_pos rfl)
    · exact (vslot_updVslot ..).trans (if_neg hj)
  · exact ⟨_, exec_vslotRelease hn s, (vslot_releaseSlot ..).trans (if_pos rfl),
      fun j hj => (vslot_releaseSlot ..).trans (if_neg hj)⟩

end State
end Sys2Proof.Machine
end

section
/-! PROOFS (13 R286; 21 R389; 23 R410, R411, R413, R414): what the host reads of the registers of a module right after reset. -/

namespace Sys2Proof.Machine
namespace State

/-! ### Reads of the register block (23 R407 to R414) -/

section
variable {s : State} {src : Writer} {off : Nat} (hr : s.reaches src off = true)
include hr

theorem readReg_device (hlo : 0x1000 ≤ off) (hhi : off < 0x10000) : s.readReg src off = s.readDev src (off - 0x1000) := by
  simp [readReg, hr, hhi, hlo.not_gt]

theorem readReg_die (hlo : 0x10000 ≤ off) (hhi : off < 0x50000) :
    s.readReg src off = s.readDie ((off - 0x10000) / 0x10000) (off % 0x10000) := by
  simp [readReg, hr, hhi, hlo.not_gt, show ¬ off < 0x1000 by omega]

theorem readReg_vslot_unassigned (hlo : 0x80000 ≤ off) (hhi : off < 0x90000)
    (hfree : (s.vslot ((off - 0x80000) / 4)).owner = none) :
    (s.readReg src off).1 = s.io.vslotCtx.get 0 ((off - 0x80000) / 4) := by
  simp [readReg, hr, hhi, hlo.not_gt, hfree, show ¬ off < 0x1000 by omega, show ¬ off < 0x10000 by omega,
    show ¬ off < 0x50000 by omega]

end

theorem open_lt (s : State) (bits : Nat) : (s.open_ bits).1.toNat < 2 ^ bits :=
  (Nat.mod_le _ _).trans_lt (Nat.mod_lt _ (Nat.two_pow_pos bits))

/-- The sum of a value of 8 bits and one that starts above them, read from bit 8. -/
theorem extractLsb'_add_shifted (x : Word) (hx : x.toNat < 2 ^ 8) (n : Nat) :
    (x + BitVec.ofNat 32 (n * 2 ^ 8)).extractLsb' 8 9 = BitVec.ofNat 9 n := by
  apply BitVec.eq_of_toNat_eq
  simp only [BitVec.extractLsb'_toNat, BitVec.toNat_add, BitVec.toNat_ofNat, Nat.shiftRight_eq_div_pow]
  omega

/-- HOT and TLIM of a die (23 R413), above a temperature that the manual leaves open. -/
theorem readDie_thermal (s : State) (d : Nat) :
    (s.readDie d 0x54).1.extractLsb' 8 9 = BitVec.ofNat 9 ((if (s.die d).hot then 2 ^ 8 else 0) + (s.die d).tlim.toNat) := by
  have hsum : (if (s.die d).hot then 2 ^ 16 else 0) + (s.die d).tlim.toNat * 2 ^ 8 =
      ((if (s.die d).hot then 2 ^ 8 else 0) + (s.die d).tlim.toNat) * 2 ^ 8 := by split <;> omega
  show ((s.open_ 8).1 + BitVec.ofNat 32 (_ + (s.die d).tlim.toNat * 2 ^ 8)).extractLsb' 8 9 = _
  rw [hsum]
  exact extractLsb'_add_shifted _ (open_lt s 8) _

/-! ### After reset -/

theorem reset_reaches {src : Writer} {off : Nat} (h : off % 4 = 0) : State.reset.reaches src off = true := by
  have hboot : State.reset.recovery = false := rfl
  have hon : State.reset.io.powered = true := rfl
  simp [reaches, hboot, hon, h]

section
variable {off : Nat} (h : off % 4 = 0)
include h

theorem reset_device (hlo : 0x1000 ≤ off) (hhi : off < 0x10000) :
    (State.reset.readReg .host off).1 = (State.reset.readDev .host (off - 0x1000)).1 := by
  rw [readReg_device (reset_reaches h) hlo hhi]

theorem reset_die (hlo : 0x10000 ≤ off) (hhi : off < 0x50000) :
    (State.reset.readReg .host off).1 = (State.reset.readDie ((off - 0x10000) / 0x10000) (off % 0x10000)).1 := by
  rw [readReg_die (reset_reaches h) hlo hhi]

theorem reset_vslot (hlo : 0x80000 ≤ off) (hhi : off < 0x90000) : (State.reset.readReg .host off).1 = 0 :=
  readReg_vslot_unassigned (reset_reaches h) hlo hhi rfl

end


/-- Settles O59: each value is that of the field that its register reads (`reset_device`, `reset_die`, `reset_vslot`). -/
theorem resetState : Obligations.ResetState := by
  refine ⟨rfl, fun a => rfl, reset_device rfl (by decide) (by decide), fun n hn => ?feat,
    reset_device rfl (by decide) (by decide), reset_device rfl (by decide) (by decide),
    reset_device rfl (by decide) (by decide), reset_device rfl (by decide) (by decide),
    fun d hd => ⟨?equinox, ?vf, ?heat⟩, fun k hk => reset_vslot (by omega) (by omega) (by omega), fun h => rfl, fun p => rfl,
    rfl, rfl, rfl⟩
  case feat =>
    refine (reset_device (by omega) (by omega) (by omega)).trans ?_
    interval_cases n <;> rfl
  case equinox =>
    refine (reset_die (by omega) (by omega) (by omega)).trans ?_
    interval_cases d <;> rfl
  case vf =>
    refine (reset_die (by omega) (by omega) (by omega)).trans ?_
    interval_cases d <;> rfl
  case heat =>
    refine (congrArg _ (reset_die (by omega) (by omega) (by omega))).trans ?_
    rw [show (0x10054 + 0x10000 * d) % 0x10000 = 0x54 by omega]
    exact readDie_thermal ..

end State
end Sys2Proof.Machine
end

section
/-! PROOFS (11 R233; 13 R282): what a steal request, its agent's turn and its reply leave, one equation for each case. -/

namespace Sys2Proof.Machine
namespace State

theorem launch_updLaunch (s : State) (l j : Nat) (f : LaunchRec → LaunchRec) :
    (s.updLaunch l f).launch j = if j = l then f (s.launch l) else s.launch j := Map.get_upd ..

section
variable {s : State} {l j i : Nat} {x : CoreCtx} {rest : List Nat}

theorem lazyName_launch (hj : j < 2 ^ 20) : lazyName l j / 2 ^ 20 = l := by unfold lazyName; omega
theorem lazyName_place (hj : j < 2 ^ 20) : lazyName l j % 2 ^ 20 = j := by unfold lazyName; omega

/-- A request goes to the next place that the launch of `e` has. -/
theorem passSteal_of_lazy {e : State} (h : (s.launch l).lazy = (e.launch l).lazy) : s.passSteal l j i =
    if (j + 1) % max 1 (e.launch l).lazy.length = i then s.post (.stealReply (lazyName l i) 0 0)
    else s.post (.stealRequest (lazyName l ((j + 1) % max 1 (e.launch l).lazy.length)) (lazyName l i)) := by
  rw [← h]
  rfl

/-! ### Requests that wait at a started place -/

theorem forwardSteals_idle (hx : s.lazyCc l j = some x) (h : x.steals = []) (n : Nat) : s.forwardSteals l j n = s := by
  cases n with
  | zero => rfl
  | succ n => simp only [forwardSteals, hx, h]

section
variable (hx : s.lazyCc l j = some x) (hs : x.steals = i :: rest)
include hx hs

theorem forwardSteals_arms (h : 2 ≤ x.lazyEnd - x.lazyNext) (n : Nat) : s.forwardSteals l j (n + 1) = s.armSteal l j := by
  simp only [forwardSteals, hx, hs, if_pos h]

theorem forwardSteals_passes (h : x.lazyEnd - x.lazyNext < 2) (n : Nat) : s.forwardSteals l j (n + 1) =
    ((s.updLazy l j fun y => { y with steals := rest }).passSteal l j i).forwardSteals l j n := by
  simp only [forwardSteals, hx, hs, if_neg h.not_ge]

theorem serveSteal_short (h : x.lazyEnd - x.lazyNext < 2) : s.serveSteal l j = s := by
  simp only [serveSteal, hx, hs, if_pos h]

theorem serveSteal_splits (h : 2 ≤ x.lazyEnd - x.lazyNext) : s.serveSteal l j =
    ((s.updLazy l j fun y => { y with steals := rest, lazyEnd := y.lazyEnd - (x.lazyEnd - x.lazyNext) / 2 }).post
      (.stealReply (lazyName l i) (x.lazyEnd - (x.lazyEnd - x.lazyNext) / 2) x.lazyEnd)).forwardSteals l j 65 := by
  simp only [serveSteal, hx, hs, if_neg h.not_gt]

end

/-! ### Requests (13 R282) -/

section
variable (hj : j < 2 ^ 20) (hi : i < 2 ^ 20)
include hj hi

theorem stealAt_unstarted (hx : s.lazyCc l j = none) : s.stealAt (lazyName l j) (lazyName l i) =
    if (s.unstartedRange l j).2 < (s.unstartedRange l j).1 + 2 then s.passSteal l j i else
      (s.updLaunch l fun r => { r with asks := r.asks.upd [] j fun q => q ++ [i] }).postAfter ((s.launch l).lazy.getD j 0) 1024
        (.stealAgentTimeout (lazyName l j)) := by
  rw [stealAt, lazyName_launch hj, lazyName_place hj, lazyName_place hi]
  simp only [hx]

theorem stealAt_started (hx : s.lazyCc l j = some x) : s.stealAt (lazyName l j) (lazyName l i) =
    let e := s.updLazy l j fun y => { y with steals := y.steals ++ [i] }
    if x.steals.isEmpty then e.forwardSteals l j 65 else e := by
  rw [stealAt, lazyName_launch hj, lazyName_place hj, lazyName_place hi]
  simp only [hx]

end

/-! ### The agent's turn -/

section
variable (hj : j < 2 ^ 20)
include hj

theorem stealTimeout_started {c : Nat} (hc : s.lazyCore l j = some c) : s.stealTimeout (lazyName l j) =
    if (s.cc c).stealSince + 1024 ≤ (s.core c).cyc then (s.serveSteal l j).forwardSteals l j 65 else s := by
  rw [stealTimeout, lazyName_launch hj, lazyName_place hj]
  simp only [hc]

theorem stealTimeout_unstarted (hc : s.lazyCore l j = none) : s.stealTimeout (lazyName l j) = s.serveUnstarted l j := by
  rw [stealTimeout, lazyName_launch hj, lazyName_place hj]
  simp only [hc]

end

theorem serveUnstarted_one (h : (s.launch l).asks.get [] j = [i]) : s.serveUnstarted l j =
    let e := s.updLaunch l fun r => { r with asks := r.asks.del j }
    let own := e.unstartedRange l j
    let m := own.2 - (own.2 - own.1) / 2
    if own.2 < own.1 + 2 then e.passSteal l j i else
      (e.updLaunch l fun r => { r with ends := r.ends.set j m }).post (.stealReply (lazyName l i) m own.2) := by
  simp only [serveUnstarted, h, List.foldl_cons, List.foldl_nil]

/-! ### Replies (11 R233) -/

/-- A place takes the range `[lo, hi)` of a reply, its first `n` indices claimed; nothing where the range is empty. -/
def takeRange (s : State) (l j lo hi n : Nat) : State :=
  s.updLazy l j fun y =>
    if lo < hi then { y with stealOut := false, lazyNext := lo + n, lazyEnd := hi } else { y with stealOut := false }

/-- The warp of a waiting RNEXT gets the first index of the range, and its lanes go on. -/
def rnextAnswered (q : RnextWait) (lo hi : Nat) (v : Warp) : Warp :=
  let v := if lo < hi then (v.setS q.dest (BitVec.ofNat 32 lo)).setSp q.pred true else v.setSp q.pred false
  (v.updSched fun z => { z with rnext := none }).updLanes q.lanes fun _ y =>
    if y.state = .runnable && y.pc = q.pc then { y with pc := q.pc + 4 } else y

section
variable (hj : j < 2 ^ 20) (lo hi : Nat)
include hj

theorem stealAnswer_away (hc : s.lazyCore l j = none) : s.stealAnswer (lazyName l j) lo hi = s.takeRange l j lo hi 0 := by
  rw [stealAnswer, lazyName_launch hj, lazyName_place hj]
  simp only [hc, takeRange]

theorem stealAnswer_waiting {c k : Nat} {w : Warp} {q : RnextWait} (hc : s.lazyCore l j = some c)
    (hw : (((s.cc c).warps ++ [(fwSlot, (s.core c).fw)]).find? fun e => e.2.sched.rnext.isSome) = some (k, w))
    (hq : w.sched.rnext = some q) : s.stealAnswer (lazyName l j) lo hi =
      (((s.takeRange l j lo hi 1).updWarp c k (rnextAnswered q lo hi)).dropVar c k q.req).forwardSteals l j 65 := by
  rw [stealAnswer, lazyName_launch hj, lazyName_place hj]
  simp only [hc, hw, hq]
  rfl

end

end

/-- Settles O49: a request and the agent's turn by whether the core has started (`stealAt_started`, `stealTimeout_started`),
a place's waiting requests by its range (`forwardSteals_arms`, `serveSteal_splits`), a reply by who waits for it. -/
theorem stealEvents : Obligations.StealEvents := by
  intro s l j i c x rest hj hi name n left pass
  refine ⟨fun hx => ⟨fun hshort => ?askPasses, fun hlong => ?askWaits⟩, fun hx hsome => ?queued, fun hx hnone => ?asked,
    fun hc => ?turn, fun hc => ?turnUnstarted, fun hone => ⟨fun hshort => ?passes, fun hlong => ?splits⟩,
    fun hx hnone m => forwardSteals_idle hx hnone m,
    fun hx hsteals m => ⟨fun hlong => forwardSteals_arms hx hsteals hlong m, fun hshort => ?forwards,
      fun hshort => serveSteal_short hx hsteals hshort, fun hlong => serveSteal_splits hx hsteals hlong⟩,
    fun hc lo hi' => ?away, fun k w q lo hi' hc hw hq => ?taken⟩
  case askPasses => exact congrArg _ ((stealAt_unstarted hj hi hx).trans (if_pos hshort))
  case askWaits => exact congrArg _ ((stealAt_unstarted hj hi hx).trans (if_neg hlong.not_gt))
  case queued => exact congrArg _ ((stealAt_started hj hi hx).trans (if_neg (by simpa using hsome)))
  case asked => exact congrArg _ ((stealAt_started hj hi hx).trans (if_pos (by simpa using hnone)))
  case turn => exact congrArg _ (stealTimeout_started hj hc)
  case turnUnstarted => exact congrArg _ (stealTimeout_unstarted hj hc)
  case passes =>
    refine (serveUnstarted_one hone).trans ((if_pos hshort).trans (passSteal_of_lazy ?_))
    rw [launch_updLaunch, if_pos rfl]
  case splits => exact (serveUnstarted_one hone).trans (if_neg hlong.not_gt)
  case forwards => exact forwardSteals_passes hx hsteals hshort m
  case away => exact congrArg _ (stealAnswer_away hj lo hi' hc)
  case taken => exact congrArg _ (stealAnswer_waiting hj lo hi' hc hw hq)

end State
end Sys2Proof.Machine
end

section
/-! PROOFS (13 R283 to R285; 22 R392, R393): the partition's part in the reserve-and-commit protocol, one equation for each
case of a message. -/

namespace Sys2Proof.Machine
namespace State

@[simp] theorem postAll_nil (s : State) : s.postAll [] = s := by simp [postAll]

theorem updPart_updPart (s : State) (p : Nat) (f h : Part → Part) :
    (s.updPart p f).updPart p h = s.updPart p fun z => h (f z) :=
  congrArg (fun m => { s with parts := m }) (Map.upd_upd ..)

theorem updPart_congr {s : State} {p : Nat} {f h : Part → Part} (heq : f (s.part p) = h (s.part p)) :
    s.updPart p f = s.updPart p h := congrArg (fun y => { s with parts := s.parts.set p y }) heq

section
variable {s : State} {p g : Nat} {x : Gang} {ticketed : Bool}

/-! ### RESERVE (13 R283) -/

section
variable (hg : s.gangs.find g = some x)
include hg

theorem reserveAt_offline (hoff : (s.part p).offline = true) : s.reserveAt p g ticketed = s.post (.refuse g p) := by
  simp only [reserveAt, hg, hoff, if_true]

variable (hon : (s.part p).offline = false)
include hon

theorem reserveAt_holds {res : Map Word} (hfree : (s.part p).gang = .free) (hmark : ∀ m, (s.part p).mark = some m → m = g)
    (hroom : s.gangRoom p x = some res) : s.reserveAt p g ticketed =
      ((s.updPart p fun z => { z with
        gang := .heldFor g, heldSince := (s.core (24 * p)).cyc, reserved := res, mark := none }).post (.agree g p)).postAfter
          (24 * p) 16384 (.gangHoldTimeout p g) := by
  have hunmarked : (s.part p).mark.any (· != g) = false := by
    cases h : (s.part p).mark with
    | none => rfl
    | some m => simp [hmark m h]
  simp only [reserveAt, hg, hon, hfree, hunmarked, hroom, Bool.false_eq_true, if_false]

theorem reserveAt_marked {m : Nat} (hfree : (s.part p).gang = .free) (hmark : (s.part p).mark = some m) (hm : m ≠ g) :
    s.reserveAt p g ticketed = s.post (.refuse g p) := by
  simp [reserveAt, hg, hon, hfree, hmark, hm]

theorem reserveAt_full (hfree : (s.part p).gang = .free) (hroom : s.gangRoom p x = none) :
    s.reserveAt p g ticketed = s.post (.refuse g p) := by
  simp only [reserveAt, hg, hon, hfree, hroom, Bool.false_eq_true, ite_self]

theorem reserveAt_heldFor {m : Nat} (hheld : (s.part p).gang = .heldFor m) : s.reserveAt p g ticketed =
    if m = g then s.post (.agree g p)
    else (if ticketed then s.updPart p fun z => { z with mark := some g } else s).post (.refuse g p) := by
  simp only [reserveAt, hg, hon, hheld, Bool.false_eq_true, if_false]

theorem reserveAt_committed {m : Nat} (hcommitted : (s.part p).gang = .committed m) :
    s.reserveAt p g ticketed = s.post (.refuse g p) := by
  simp only [reserveAt, hg, hon, hcommitted, Bool.false_eq_true, if_false]

end

/-! ### COMMIT and ROLLBACK (13 R283, R284) -/

/-- The unit of a gang as COMMIT enters it in the binding tables of a partition. -/
def committedEntry (s : State) (p g : Nat) (x : Gang) : UnitRec :=
  { s.newUnit x.launch (x.parts.idxOf p) (x.parts.idxOf p) (some g) (s.part p).reserved
      ((List.range x.parts.length).zip (x.parts.map partEntry)) with waiting := true }

theorem commitAt_withdraws (h : (s.part p).gang ≠ .heldFor g) : s.commitAt p g = s.post (.withdraw g p) := by
  simp [commitAt, h]

theorem commitAt_confirms (hg : s.gangs.find g = some x) (h : (s.part p).gang = .heldFor g) : s.commitAt p g =
    (s.updPart p fun z =>
      if x.resume then { z with gang := .committed g }
      else { z with
        gang := .committed g, units := z.units.set z.nextUnit (s.committedEntry p g x), nextUnit := z.nextUnit + 1 }).post
      (.confirm g p) := by
  cases hresume : x.resume with
  | true => simp [commitAt, h, hg, hresume]
  | false =>
    simp only [commitAt, h, updPart_gangs, hg, hresume, enterUnit, updPart_updPart, part_updPart, bne_self_eq_false,
      Bool.false_eq_true, if_false, if_true]
    refine congrArg (post · _) (updPart_congr ?_)
    rfl

theorem freeGang_clears (h : (s.part p).gang = .heldFor g ∨ (s.part p).gang = .committed g) : s.freeGang p g =
    let others (us : Map UnitRec) : Map UnitRec := us.filter fun u => !committedUnit g u.2
    (s.updPart p fun z => { z with
      gang := .free, reserved := [], units := others z.units
      standby := z.standby.map fun y => { y with units := others y.units } }).askCores [p] := if_pos (by simpa using h)

theorem freeGang_unreserved (hheld : (s.part p).gang ≠ .heldFor g) (hcommitted : (s.part p).gang ≠ .committed g) :
    s.freeGang p g = s := if_neg (by simp [hheld, hcommitted])

/-! ### START (13 R285) -/

theorem startAt_uncommitted (hg : s.gangs.find g = some x) (h : (s.part p).gang ≠ .committed g) : s.startAt p g = s := by
  simp [startAt, hg, h]

section
variable (hg : s.gangs.find g = some x) (hcommitted : (s.part p).gang = .committed g)
include hg hcommitted

theorem startAt_away (h : s.runsOn (24 * p) (s.launch x.launch).ctx = false) : s.startAt p g = s.post (.start p g) := by
  simp [startAt, hg, hcommitted, h]

variable (hruns : s.runsOn (24 * p) (s.launch x.launch).ctx = true) (hlast : x.confirmed = [p])
include hruns hlast

theorem startAt_begins (hlaunch : x.resume = false) {u : Nat} {z : UnitRec}
    (hunit : (s.part p).units.find? (fun u => committedUnit g u.2) = some (u, z)) : s.startAt p g =
      let e := s.updPart p fun z => { z with gang := .free, reserved := [] }
      let cores := z.ttable.map fun t => 24 * p + bitsOf t.2.toNat 4 0
      let t := (cores.foldl (fun (e : State) c => e.setLazy x.launch c) e).beginUnit p u
      { t with gangs := t.gangs.del g } := by
  simp [startAt, hg, hcommitted, hruns, hlast, hlaunch, hunit]

theorem startAt_goesOn (hresume : x.resume = true) {u : Nat}
    (hunit : (s.updPart p fun z => { z with gang := .free, reserved := [] }).waitingUnit p x.launch = some u) : s.startAt p g =
      let v := (s.updPart p fun z => { z with gang := .free, reserved := [] }).updUnit p u fun z => { z with waiting := false }
      let t := (v.partCores p).foldl (fun (e : State) c => e.startEngines c) v
      { t with gangs := t.gangs.del g } := by
  simp [startAt, hg, hcommitted, hruns, hlast, hresume, hunit]

end

/-! ### The end of a hold, and a partition that goes offline (13 R284; 22 R392) -/

theorem holdEnds_due (hheld : (s.part p).gang = .heldFor g) (hdue : (s.part p).heldSince + 16384 ≤ (s.core (24 * p)).cyc) :
    s.holdEnds p g = s.freeGang p g := if_pos (by simp [hheld, hdue])

theorem holdEnds_early (h : (s.part p).gang ≠ .heldFor g ∨ (s.core (24 * p)).cyc < (s.part p).heldSince + 16384) :
    s.holdEnds p g = s := if_neg (by simpa [imp_iff_not_or] using h)

theorem offlinePart_again (hoff : (s.part p).offline = true) : s.offlinePart p = s := if_pos hoff

theorem offlinePart_idle (hon : (s.part p).offline = false) (hfree : (s.part p).gang = .free) (hunits : (s.part p).units = [])
    (hgangs : ∀ e ∈ s.gangs, e.2.agent ≠ p) :
    s.offlinePart p = s.updPart p fun z => { z with offline := true, gang := .free, reserved := [] } := by
  have hnone : (s.gangs.filter fun g => g.2.agent = p) = [] := List.filter_eq_nil_iff.mpr (by simpa using hgangs)
  simp [offlinePart, hon, hfree, hunits, hnone]

end

end State
end Sys2Proof.Machine
end

section
/-! PROOFS (13 R283 to R285; 22 R392 to R394): the submitter's part in the reserve-and-commit protocol, one equation for each
case of a reply, of the end of its wait and of its freeze. -/

namespace Sys2Proof.Machine
namespace State

section
variable {s : State} {p g : Nat} {x : Gang} (hg : s.gangs.find g = some x)
include hg

/-! ### AGREE -/

section
variable (hphase : x.phase = 0) (hpart : x.parts.contains p = true) (hnew : x.agreed.contains p = false)
include hphase hpart hnew

theorem agreeFrom_more (h : ∃ q ∈ x.parts, q ≠ p ∧ q ∉ x.agreed) :
    s.agreeFrom g p = s.updGang g fun m => { m with agreed := x.agreed ++ [p] } := by
  have hall : x.parts.all (x.agreed ++ [p]).contains = false := by
    obtain ⟨q, hq, hqp, hqa⟩ := h
    exact List.all_eq_false.mpr ⟨q, hq, by simp [hqa, hqp]⟩
  simp only [agreeFrom, hg, hphase, hpart, hnew, hall, decide_true, Bool.and_true, Bool.false_eq_true, if_true, if_false]

theorem agreeFrom_last (h : ∀ q ∈ x.parts, q = p ∨ q ∈ x.agreed) : s.agreeFrom g p =
    (((s.updGang g fun m => { m with agreed := x.agreed ++ [p] }).updGang g fun m =>
        { m with phase := 1, since := (s.core (24 * x.agent)).cyc }).postAll (x.parts.map fun q => .commit q g)).postAfter
      (24 * x.agent) 2048 (.gangCollectTimeout g) := by
  have hall : x.parts.all (x.agreed ++ [p]).contains = true :=
    List.all_eq_true.mpr fun q hq => by simpa [or_comm] using h q hq
  simp only [agreeFrom, hg, hphase, hpart, hnew, hall, decide_true, Bool.and_true, Bool.false_eq_true, if_true, if_false]
  rfl

end

theorem agreeFrom_confirming (hphase : x.phase = 1) :
    s.agreeFrom g p = if x.agreed.contains p then s else s.post (.rollback p g) := by
  simp [agreeFrom, hg, hphase]

/-! ### REFUSE and WITHDRAW -/

theorem attemptRefused_ignored (h : 2 ≤ x.phase ∨ x.parts.contains p = false) : s.attemptRefused g p = s := by
  have hout : (decide (x.phase ≤ 1) && x.parts.contains p) = false := by
    rcases h with h | h
    · simp [show ¬ x.phase ≤ 1 by omega]
    · rw [h, Bool.and_false]
  simp only [attemptRefused, hg, hout, Bool.false_eq_true, if_false]

theorem attemptFails_takesTicket (hticket : x.ticket = none) (hqueue : s.gsv < s.gtk) : s.attemptFails g =
    State.updGang { s.postAll (x.agreed.map fun q => .rollback q g) with gtk := s.gtk + 1 } g fun m =>
      { m with ticket := some s.gtk, phase := 3, agreed := [], confirmed := [] } := by
  simp only [attemptFails, hg, hticket]
  exact if_neg (BitVec.not_le.mpr hqueue)

theorem attemptRefused_fails (hphase : x.phase ≤ 1) (hpart : x.parts.contains p = true) :
    s.attemptRefused g p = s.attemptFails g := by
  simp only [attemptRefused, hg, hphase, hpart, decide_true, Bool.and_true, if_true]

/-! ### CONFIRM -/

/-- A gang that starts a lazy launch gives it the cores that it has. -/
def lazyRanged (s : State) (g : Nat) (x : Gang) : State :=
  if x.resume = false ∧ ldDisp (s.launch x.launch).desc = 1 then
    s.updLaunch x.launch fun r => { r with lazy := s.gangCores g x.parts }
  else s

theorem confirmFrom_out (h : x.phase ≠ 1) : s.confirmFrom g p = s := by
  simp [confirmFrom, hg, h]

section
variable (hphase : x.phase = 1) (hpart : x.parts.contains p = true) (hnew : x.confirmed.contains p = false)
include hphase hpart hnew

theorem confirmFrom_more (h : ∃ q ∈ x.parts, q ≠ p ∧ q ∉ x.confirmed) :
    s.confirmFrom g p = s.updGang g fun m => { m with confirmed := x.confirmed ++ [p] } := by
  have hall : x.parts.all (x.confirmed ++ [p]).contains = false := by
    obtain ⟨q, hq, hqp, hqc⟩ := h
    exact List.all_eq_false.mpr ⟨q, hq, by simp [hqc, hqp]⟩
  simp only [confirmFrom, hg, hphase, hpart, hnew, hall, bne_self_eq_false, Bool.not_true, Bool.or_false, Bool.false_eq_true,
    if_false]

theorem confirmFrom_last (h : ∀ q ∈ x.parts, q = p ∨ q ∈ x.confirmed) (hticket : x.ticket = none) : s.confirmFrom g p =
    (((s.updGang g fun m => { m with confirmed := x.confirmed ++ [p] }).lazyRanged g x).updGang g fun m =>
      { m with phase := 2 }).postAll (x.parts.map fun q => .start q g) := by
  have hall : x.parts.all (x.confirmed ++ [p]).contains = true :=
    List.all_eq_true.mpr fun q hq => by simpa [or_comm] using h q hq
  simp only [confirmFrom, hg, hphase, hpart, hnew, hall, hticket, lazyRanged, bne_self_eq_false, Bool.not_true, Bool.or_false,
    Bool.false_eq_true, if_false, if_true, Bool.and_eq_true, Bool.not_eq_true', decide_eq_true_eq, Option.isSome_none]

end

/-! ### The end of the wait for replies, and a submitter that has frozen (22 R394) -/

theorem freezeGang_started (h : x.phase = 2) : s.freezeGang g = s := by
  simp [freezeGang, hg, h]

theorem freezeGang_rollsBack (h : x.phase ≠ 2) : s.freezeGang g =
    (((s.clearGang g x.parts).updGang g fun m => { m with ticket := none }).giveUp g 6).serveNext := by
  simp only [freezeGang, hg, h, if_false]

theorem collectEnds_frozen (hoff : (s.part x.agent).offline = true) : s.collectEnds g = s.freezeGang g := by
  simp only [collectEnds, hg, hoff, if_true]

theorem collectEnds_due (hon : (s.part x.agent).offline = false) (hphase : x.phase ≤ 1)
    (hdue : x.since + 2048 ≤ (s.core (24 * x.agent)).cyc) : s.collectEnds g = s.attemptFails g := by
  simp [collectEnds, hg, hon, hphase, hdue]

theorem collectEnds_ignored (hon : (s.part x.agent).offline = false)
    (h : 2 ≤ x.phase ∨ (s.core (24 * x.agent)).cyc < x.since + 2048) : s.collectEnds g = s := by
  have hout : ¬ (x.phase ≤ 1 ∧ x.since + 2048 ≤ (s.core (24 * x.agent)).cyc) := by omega
  simp [collectEnds, hg, hon, hout]

end

/-! ### The protocol -/

/-- An event of a unit that exists goes where its meaning says (01 R11). -/
theorem goes_of_exists {s t u : State} {e : Instr} {absent : Prop} [Decidable absent] (h : ¬ absent)
    (he : exec e s = if absent then .fault .noSuchUnit else .next t) (htu : t = u) : s.Goes e u :=
  he.trans ((if_neg h).trans (congrArg _ htu))

/-- Settles O46: RESERVE by the state of the partition (`reserveAt_holds` and the lemmas after it), the other messages by the
phase of the gang and the replies that are out (`agreeFrom_last`, `attemptFails_takesTicket`, `confirmFrom_last`). -/
theorem gangEvents : Obligations.GangEvents := by
  intro s p g x tk res hp hg y now r refuses others cleared gang ranged
  have hhere : ¬ (!partOk p) = true := by simp [partOk, hp]
  refine ⟨fun hoff => ?offline, fun hon => ⟨fun hfree hmark hroom => ?holds, fun hfree hno => ?cannotHold, fun hheld => ?again,
    fun m hm hheld => ?heldForOther, fun m hcommitted => ?committed⟩, ?messages⟩
  case offline => exact goes_of_exists hhere rfl (reserveAt_offline hg hoff)
  case holds => exact goes_of_exists hhere rfl (reserveAt_holds hg hon hfree hmark hroom)
  case cannotHold =>
    refine goes_of_exists hhere rfl ?_
    rcases hno with ⟨m, hmark, hm⟩ | hfull
    · exact reserveAt_marked hg hon hfree hmark hm
    · exact reserveAt_full hg hon hfree hfull
  case again => exact goes_of_exists hhere rfl ((reserveAt_heldFor hg hon hheld).trans (if_pos rfl))
  case heldForOther => exact goes_of_exists hhere rfl ((reserveAt_heldFor hg hon hheld).trans (if_neg hm))
  case committed => exact goes_of_exists hhere rfl (reserveAt_committed hg hon hcommitted)
  intro role entered
  refine ⟨fun hheld => ?commit, fun hheld => ?commitLate, fun h => ?rollback, fun hheld h => ?rollbackLate,
    fun h => ?startLate, fun h haway => ?startAway, fun h hruns hlast => ⟨fun hlaunch u z hunit => ?begins,
      fun hresume u hunit => ?goesOn⟩,
    fun hphase hpart hnew => ⟨fun h => ?agreeMore, fun h => ?agreeLast⟩, fun hphase hold => ?agreeAgain,
    fun hphase hnew => ?agreeLate, fun e he => ?refusals,
    fun hphase hpart hnew => ⟨fun h => ?confirmMore, fun h hticket => ?confirmLast⟩, fun hphase => ?confirmOut,
    fun hheld hdue => ?holdEnds, fun h => ?holdLasts, fun hon => ⟨fun hphase hdue => ?waitEnds, fun h => ?waitLasts⟩,
    fun hoff => ?frozen, fun hphase => ?freezeStarted, fun hphase => ⟨_, ?freeze, rfl⟩, fun hoff => ?offlineAgain,
    fun hon hfree hunits hgangs => ?goesOffline⟩
  case commit => exact goes_of_exists hhere rfl (commitAt_confirms hg hheld)
  case commitLate => exact goes_of_exists hhere rfl (commitAt_withdraws hheld)
  case rollback => exact goes_of_exists hhere rfl (freeGang_clears h)
  case rollbackLate => exact goes_of_exists hhere rfl (freeGang_unreserved hheld h)
  case startLate => exact goes_of_exists hhere rfl (startAt_uncommitted hg h)
  case startAway => exact goes_of_exists hhere rfl (startAt_away hg h haway)
  case begins => exact goes_of_exists hhere rfl (startAt_begins hg h hruns hlast hlaunch hunit)
  case goesOn => exact goes_of_exists hhere rfl (startAt_goesOn hg h hruns hlast hresume hunit)
  case agreeMore => exact goes_of_exists hhere rfl (agreeFrom_more hg hphase hpart hnew h)
  case agreeLast => exact goes_of_exists hhere rfl (agreeFrom_last hg hphase hpart hnew h)
  case agreeAgain => exact goes_of_exists hhere rfl ((agreeFrom_confirming hg hphase).trans (if_pos hold))
  case agreeLate =>
    exact goes_of_exists hhere rfl ((agreeFrom_confirming hg hphase).trans (if_neg (ne_true_of_eq_false hnew)))
  case refusals =>
    have hexec : exec e s = if !partOk p then .fault .noSuchUnit else .next (s.attemptRefused g p) := by
      simp only [List.mem_cons, List.not_mem_nil, or_false] at he
      rcases he with rfl | rfl <;> rfl
    exact ⟨fun h => goes_of_exists hhere hexec (attemptRefused_ignored hg h), fun hphase hpart hticket hqueue =>
      goes_of_exists hhere hexec ((attemptRefused_fails hg hphase hpart).trans (attemptFails_takesTicket hg hticket hqueue))⟩
  case confirmMore => exact goes_of_exists hhere rfl (confirmFrom_more hg hphase hpart hnew h)
  case confirmLast => exact goes_of_exists hhere rfl (confirmFrom_last hg hphase hpart hnew h hticket)
  case confirmOut => exact goes_of_exists hhere rfl (confirmFrom_out hg hphase)
  case holdEnds => exact goes_of_exists hhere rfl ((holdEnds_due hheld hdue).trans (freeGang_clears (.inl hheld)))
  case holdLasts => exact goes_of_exists hhere rfl (holdEnds_early h)
  case waitEnds => exact congrArg _ (collectEnds_due hg hon hphase hdue)
  case waitLasts => exact congrArg _ (collectEnds_ignored hg hon h)
  case frozen => exact congrArg _ (collectEnds_frozen hg hoff)
  case freezeStarted => exact congrArg _ (freezeGang_started hg hphase)
  case freeze => exact congrArg _ (freezeGang_rollsBack hg hphase)
  case offlineAgain => exact goes_of_exists hhere rfl (offlinePart_again hoff)
  case goesOffline => exact goes_of_exists hhere rfl (offlinePart_idle hon hfree hunits hgangs)

end State
end Sys2Proof.Machine
end

section
/-! PROOFS (13 R286, R288, R289): what the end of a budget period and a step of Equinox leave. -/

namespace Sys2Proof.Machine
namespace State

/-- What no step of a fold changes, the fold does not change. -/
theorem foldl_unchanged {α β : Type} (read : State → β) {f : State → α → State} (h : ∀ s a, read (f s a) = read s) (as : List α)
    (s : State) : read (as.foldl f s) = read s := by
  induction as generalizing s with
  | nil => rfl
  | cons a as ih => exact (ih _).trans (h s a)

/-! ### Requests that wait for a budget (13 R288) -/

/-- The requests held under some keys are released, and the others stay. -/
theorem foldl_unhold (key : Nat → Nat) (is : List Nat) (s : State) :
    let t := is.foldl (fun (s : State) i => s.unhold (key i)) s
    t.dies = s.dies ∧ (∀ r, r ∈ t.held ↔ r ∈ s.held ∧ ∀ i ∈ is, r.key ≠ key i) ∧ (∀ e ∈ s.agenda, e ∈ t.agenda) ∧
      ∀ r ∈ s.held, (∃ i ∈ is, r.key = key i) → r.ev ∈ t.agenda := by
  induction is generalizing s with
  | nil => simp
  | cons i is ih =>
    obtain ⟨hdies, hheld, hagenda, hreleased⟩ := ih (s.unhold (key i))
    have hstays (r : HeldReq) : r ∈ (s.unhold (key i)).held ↔ r ∈ s.held ∧ r.key ≠ key i := by simp [unhold]
    refine ⟨hdies, fun r => ?_, fun e he => hagenda e (List.mem_append_left _ he), fun r hr hkey => ?_⟩
    · simp only [List.foldl_cons, hheld, hstays, List.forall_mem_cons, and_assoc]
    · by_cases hnow : r.key = key i
      · exact hagenda _ (List.mem_append_right _ (List.mem_map_of_mem (List.mem_filter.mpr ⟨hr, by simpa using hnow⟩)))
      · obtain ⟨j, hj, hrj⟩ := hkey
        rcases List.mem_cons.mp hj with rfl | hj
        · exact absurd hrj hnow
        · exact hreleased r ((hstays r).mpr ⟨hr, hnow⟩) ⟨j, hj, hrj⟩

theorem countDie_held (s : State) (d src : Nat) : (s.countDie d src).held = s.held := by
  unfold countDie
  dsimp only
  split <;> rfl

theorem die_of_dies {s t : State} (h : t.dies = s.dies) (d : Nat) : t.die d = s.die d := by rw [die, h, die]

/-- A die starts a budget period: its counts are 0. -/
def periodStarts (s : State) (d cycles : Nat) : State :=
  (if (List.range 12).any fun i => s.budgetOut d i then s.countDie d 0x46 else s).updDie d fun x =>
    { x with used := [], period := cycles }

theorem periodStarts_held (s : State) (d cycles : Nat) : (s.periodStarts d cycles).held = s.held := by
  unfold periodStarts
  rw [updDie_held]
  split
  · exact countDie_held ..
  · rfl

/-- The requests that waited for a die's budgets go on. -/
def periodEnds (s : State) (d cycles : Nat) : State :=
  (List.range 12).foldl (fun (s : State) i => s.unhold (budgetKey d i)) (s.periodStarts d cycles)

/-- SAVECOST of some contexts (14 R307). -/
def costed (s : State) (d : Nat) (hs : List Nat) : State :=
  hs.foldl (fun (s : State) h =>
    let (v, s) := s.saveCost h d
    s.updAlm h fun a => { a with cost := v }) s

theorem costed_unchanged {β : Type} (read : State → β)
    (h : ∀ (s : State) n h f, read (State.updAlm { s with free := n } h f) = read s)
    (s : State) (d : Nat) (hs : List Nat) : read (s.costed d hs) = read s :=
  foldl_unchanged read (fun s k => h s (s.free + 1) k _) hs s

theorem endPeriod_eq (s : State) (d cycles : Nat) : ∃ hs, s.endPeriod d cycles = (s.periodEnds d cycles).costed d hs := ⟨_, rfl⟩

theorem endPeriod_spec (s : State) (d cycles : Nat) :
    let t := s.endPeriod d cycles
    (t.die d).used = [] ∧ (t.die d).period = cycles ∧
      (∀ r ∈ s.held, (∃ j < 12, r.key = budgetKey d j) → r.ev ∈ t.agenda) ∧
      ∀ r, r ∈ t.held ↔ r ∈ s.held ∧ ∀ j < 12, r.key ≠ budgetKey d j := by
  intro t
  obtain ⟨hs, ht⟩ : ∃ hs, t = (s.periodEnds d cycles).costed d hs := endPeriod_eq s d cycles
  obtain ⟨hdies, hstay, -, hgo⟩ := foldl_unhold (budgetKey d) (List.range 12) (s.periodStarts d cycles)
  simp only [periodStarts_held, List.mem_range] at hstay hgo
  have hdie : t.die d = (s.periodStarts d cycles).die d := by
    rw [ht]
    exact die_of_dies ((costed_unchanged dies (fun _ _ _ _ => rfl) ..).trans hdies) d
  have hheld : t.held = (s.periodEnds d cycles).held := ht ▸ costed_unchanged held (fun _ _ _ _ => rfl) ..
  have hagenda : t.agenda = (s.periodEnds d cycles).agenda := ht ▸ costed_unchanged agenda (fun _ _ _ _ => rfl) ..
  rw [hdie, hheld, hagenda, periodStarts, die_updDie, if_pos rfl]
  exact ⟨rfl, rfl, hgo, hstay⟩

/-! ### Equinox (13 R286) -/

/-- A core's start is granted. -/
def grantChange (s : State) (e : Nat × Bool) : State :=
  if e.2 then s.updCore e.1 fun y => { y with granted := true } else s

theorem grantChange_dies (s : State) (e : Nat × Bool) : (s.grantChange e).dies = s.dies := by
  unfold grantChange
  split <;> rfl

theorem grantChange_granted (s : State) (e : Nat × Bool) (j : Nat) :
    ((s.grantChange e).core j).granted = true ↔ (s.core j).granted = true ∨ (j, true) = e := by
  obtain ⟨c, start⟩ := e
  cases start with
  | false => simp [grantChange]
  | true =>
    by_cases h : j = c
    · simp [grantChange, h]
    · simp [grantChange, h]

theorem foldl_grantChange_granted (l : List (Nat × Bool)) (s : State) (j : Nat) :
    ((l.foldl grantChange s).core j).granted = true ↔ (s.core j).granted = true ∨ (j, true) ∈ l := by
  induction l generalizing s with
  | nil => simp
  | cons e l ih => rw [List.foldl_cons, ih, grantChange_granted, List.mem_cons, or_assoc]

/-- The pending changes of a die in the order of their cores. -/
def changeOrder (x : Die) : List (Nat × Bool) := x.eqPending.foldl (fun l e => insertChange e l) []

theorem equinox_eq (s : State) (d : Nat) :
    let order := changeOrder (s.die d)
    let k := equinoxK (s.die d).eqK
    s.equinox d = ((order.take k).foldl grantChange s).updDie d fun y =>
      { y with eqPending := order.drop k, eqWaiting := min (order.drop k).length 255 } := rfl

theorem equinox_spec (s : State) (d : Nat) :
    let order := changeOrder (s.die d)
    let k := equinoxK (s.die d).eqK
    ((s.equinox d).die d).eqPending = order.drop k ∧ ((s.equinox d).die d).eqWaiting = min (order.length - k) 255 ∧
      ∀ j, ((s.equinox d).core j).granted = true ↔ (s.core j).granted = true ∨ (j, true) ∈ order.take k := by
  intro order k
  rw [equinox_eq, die_updDie, if_pos rfl]
  exact ⟨rfl, congrArg (min · 255) List.length_drop, foldl_grantChange_granted _ s⟩

end State
end Sys2Proof.Machine
end

section
/-! PROOFS (17 R343; 23 R413): the V-F index of a die as writes, throttling and the management controller change it. -/

namespace Sys2Proof.Machine
namespace State

/-! ### POWER records change no die -/

theorem countEv_dies (s : State) (c src n : Nat) : (s.countEv c src n).dies = s.dies := by
  unfold countEv
  dsimp only
  split <;> split <;> rfl

theorem trace_dies (s : State) (c kind wid aux npre : Nat) (rgns : BitVec 64) (body : BitVec 320) :
    (s.trace c kind wid aux npre rgns body).dies = s.dies := by
  unfold trace
  dsimp only
  split
  · rfl
  · split
    · exact countEv_dies ..
    · rfl

theorem beginCapture_dies (s : State) (h trigger : Nat) : (s.beginCapture h trigger).dies = s.dies := by
  unfold beginCapture
  split <;> rfl

theorem powerRecords_dies (s : State) (d cause old new : Nat) : (s.powerRecords d cause old new).dies = s.dies :=
  (foldl_unchanged State.dies (fun _ _ => beginCapture_dies ..) _ _).trans
    (foldl_unchanged State.dies (fun _ _ => trace_dies ..) _ _)

/-! ### The V-F index -/

theorem die_setVf (s : State) (d new cause e : Nat) :
    (s.setVf d new cause).die e = if e = d then { s.die d with vfCur := BitVec.ofNat 4 new } else s.die e :=
  (die_of_dies (powerRecords_dies ..) e).trans (die_updDie ..)

/-- The index that is selected below a bound. -/
theorem die_lowerVf (s : State) (d bound cause e : Nat) : (s.lowerVf d bound cause).die e =
    if e = d then { s.die d with vfCur := BitVec.ofNat 4 ((Config.freeWord s.free).toNat % bound) } else s.die e := die_setVf ..

theorem lowerVf_index (s : State) (d cause : Nat) {bound : Nat} (hpos : 0 < bound) (hbound : bound ≤ 16) :
    ((s.lowerVf d bound cause).die d).vfCur.toNat < bound := by
  have hlt : (Config.freeWord s.free).toNat % bound < bound := Nat.mod_lt _ hpos
  rw [die_lowerVf, if_pos rfl, BitVec.toNat_ofNat, Nat.mod_eq_of_lt (hlt.trans_le hbound)]
  exact hlt

/-- The field MAX of a value of VFSTATE (23 R413). -/
theorem bitsOf_vfMax (v : Word) : bitsOf v.toNat 11 8 = v.toNat / 2 ^ 8 % 16 := by simp [bitsOf, Nat.shiftRight_eq_div_pow]

theorem writeVfstate_lowers {s : State} {d : Nat} {v : Word} (h : v.toNat / 2 ^ 8 % 16 < (s.die d).vfCur.toNat) :
    ((s.writeVfstate d v).die d).vfMax.toNat = v.toNat / 2 ^ 8 % 16 ∧
      ((s.writeVfstate d v).die d).vfCur.toNat ≤ v.toNat / 2 ^ 8 % 16 := by
  have hlow : s.writeVfstate d v =
      (s.updDie d fun x => { x with vfMax := BitVec.ofNat 4 (v.toNat / 2 ^ 8 % 16) }).lowerVf d
        (v.toNat / 2 ^ 8 % 16 + 1) 2 := by
    rw [writeVfstate, bitsOf_vfMax]
    exact if_pos (by rwa [die_updDie, if_pos rfl])
  rw [hlow]
  refine ⟨?_, Nat.le_of_lt_succ (lowerVf_index _ _ _ (Nat.succ_pos _) (by omega))⟩
  rw [die_lowerVf, if_pos rfl, die_updDie, if_pos rfl]
  exact Nat.mod_eq_of_lt (by omega)

theorem writeVfstate_keeps {s : State} {d : Nat} {v : Word} (h : (s.die d).vfCur.toNat ≤ v.toNat / 2 ^ 8 % 16) :
    s.writeVfstate d v = s.updDie d fun x => { x with vfMax := BitVec.ofNat 4 (v.toNat / 2 ^ 8 % 16) } := by
  rw [writeVfstate, bitsOf_vfMax]
  exact if_neg (by rw [die_updDie, if_pos rfl]; exact h.not_gt)

theorem selectVf_refused {s : State} {d k cause : Nat} (h : (s.die d).vfMax.toNat < k ∨ (s.die d).vfCur.toNat = k) :
    s.selectVf d k cause = s := if_pos (by simpa using h)

theorem selectVf_sets {s : State} {d k cause : Nat} (hmax : k ≤ (s.die d).vfMax.toNat) (hcur : (s.die d).vfCur.toNat ≠ k) :
    s.selectVf d k cause = s.setVf d k cause := if_neg (by simp [hmax, hcur])

/-! ### Throttling -/

/-- A die's index is lower, or it was 0 and is 0. -/
def Lowered (s t : State) (e : Nat) : Prop :=
  (t.die e).vfCur.toNat < (s.die e).vfCur.toNat ∨ ((s.die e).vfCur.toNat = 0 ∧ (t.die e).vfCur.toNat = 0)

theorem Lowered.congr_left {s s' t : State} {e : Nat} (h : Lowered s t e) (heq : s.die e = s'.die e) : Lowered s' t e := by
  rwa [Lowered, ← heq]
theorem Lowered.congr_right {s t t' : State} {e : Nat} (h : Lowered s t e) (heq : t'.die e = t.die e) : Lowered s t' e := by
  rwa [Lowered, heq]

theorem throttle_lowers (s : State) (d cause : Nat) : Lowered s (s.throttle d cause) d := by
  unfold throttle
  dsimp only
  split
  next h => exact .inr ⟨h, h⟩
  next h => exact .inl (lowerVf_index _ _ _ (Nat.pos_of_ne_zero h) (s.die d).vfCur.isLt.le)

theorem throttle_otherDie (s : State) (cause : Nat) {d e : Nat} (h : e ≠ d) : (s.throttle d cause).die e = s.die e := by
  unfold throttle
  dsimp only
  split
  · rfl
  · rw [die_lowerVf, if_neg h]

theorem throttle_hot (s : State) (d cause : Nat) : ((s.throttle d cause).die d).hot = (s.die d).hot := by
  unfold throttle
  dsimp only
  split
  · rfl
  · rw [die_lowerVf, if_pos rfl]

theorem foldl_otherDie {f : State → Nat → State} (hkeep : ∀ s d e, e ≠ d → (f s d).die e = s.die e) {ds : List Nat} (s : State)
    {e : Nat} (he : e ∉ ds) : (ds.foldl f s).die e = s.die e := by
  induction ds generalizing s with
  | nil => rfl
  | cons d ds ih =>
    obtain ⟨hd, hds⟩ := not_or.mp (List.mem_cons.not.mp he)
    exact (ih _ hds).trans (hkeep s d e hd)

/-- Steps that each lower their own die and no other lower every die that they name. -/
theorem foldl_lowers {f : State → Nat → State} (hlow : ∀ s d, Lowered s (f s d) d)
    (hkeep : ∀ s d e, e ≠ d → (f s d).die e = s.die e)
    {ds : List Nat} (hds : ds.Nodup) (s : State) {e : Nat} (he : e ∈ ds) : Lowered s (ds.foldl f s) e := by
  induction ds generalizing s with
  | nil => cases he
  | cons d ds ih =>
    obtain ⟨hd, hds⟩ := List.nodup_cons.mp hds
    rcases List.mem_cons.mp he with rfl | he
    · exact (hlow s e).congr_right (foldl_otherDie hkeep _ hd)
    · exact (ih hds _ he).congr_left (hkeep s d e fun hed => hd (hed ▸ he))

theorem undervoltage_lowers (s : State) {e : Nat} (he : e < 4) : Lowered s s.undervoltage e :=
  foldl_lowers (fun s d => throttle_lowers s d 3) (fun s _ _ h => throttle_otherDie s 3 h) (List.nodup_range (n := 4)) s
    (List.mem_range.mpr he)

/-- Over the limit a die is throttled; one at index 0 records the limit. -/
def limitDie (s : State) (d : Nat) : State := if (s.die d).vfCur = 0#4 then s.powerRecords d 1 0 0 else s.throttle d 1

theorem limitDie_lowers (s : State) (d : Nat) : Lowered s (s.limitDie d) d := by
  unfold limitDie
  split
  next h =>
    have hzero : (s.die d).vfCur.toNat = 0 := congrArg BitVec.toNat h
    exact .inr ⟨hzero, by rwa [die_of_dies (powerRecords_dies ..)]⟩
  next => exact throttle_lowers ..

theorem limitDie_otherDie (s : State) (d e : Nat) (h : e ≠ d) : (s.limitDie d).die e = s.die e := by
  unfold limitDie
  split
  · exact die_of_dies (powerRecords_dies ..) e
  · exact throttle_otherDie s 1 h

theorem powerOver_lowers {s : State} {w e : Nat} (hw : s.powerLim < w) (he : e < 4) : Lowered s (s.powerOver w) e := by
  have hdies : s.powerOver w = (List.range 4).foldl limitDie s := if_neg hw.not_ge
  rw [hdies]
  exact foldl_lowers limitDie_lowers limitDie_otherDie List.nodup_range s (List.mem_range.mpr he)

theorem heat_lowers {s : State} {d tj : Nat} (h : (s.die d).tlim.toNat ≤ tj) :
    ((s.heat d tj).die d).hot = true ∧ Lowered s (s.heat d tj) d := by
  have hheat : s.heat d tj = (s.updDie d fun x => { x with hot := true }).throttle d 0 := if_neg h.not_gt
  have hlow := throttle_lowers (s.updDie d fun x => { x with hot := true }) d 0
  rw [hheat, throttle_hot, die_updDie, if_pos rfl]
  rw [Lowered, die_updDie, if_pos rfl] at hlow
  exact ⟨rfl, hlow⟩

end State
end Sys2Proof.Machine
end

section
/-! PROOFS (21 R383, R388 to R390; 22 R396): links that fail and return, and saved parts that are found damaged. -/

namespace Sys2Proof.Machine
namespace State

/-! ### Links (21 R383, R388, R389) -/

section
variable {s : State} {port link : Nat} {back : Bool}

theorem loseCxl_again (h : s.io.lostCxl.contains port = true) : s.loseCxl port = s := if_pos h

theorem loseCxl_declares (h : s.io.lostCxl.contains port = false) : s.loseCxl port =
    let e := (s.updIo fun y => { y with lostCxl := y.lostCxl ++ [port] }).afterLoss
    let e := if port = rangePort then [0, 1, 2, 3].foldl (fun (s : State) e => s.flipLost e) e else e
    if e.tierPorts.contains port then (e.ctxs.map Prod.fst).foldl (fun (s : State) h => s.abandon h 0x40) e else e :=
  if_neg (ne_true_of_eq_false h)

theorem loseColmet_again (h : s.io.lostColmet.contains link = true) : s.loseColmet link = s := if_pos h

theorem loseColmet_declares (h : s.io.lostColmet.contains link = false) :
    s.loseColmet link = (s.updIo fun y => { y with lostColmet := y.lostColmet ++ [link] }).afterLoss :=
  if_neg (ne_true_of_eq_false h)

theorem retrain_colmet_up (h : s.io.lostColmet.contains link = false) : s.retrain true link back = s :=
  (if_pos rfl).trans (if_pos (by rw [h]; rfl))

theorem retrain_colmet (h : s.io.lostColmet.contains link = true) : s.retrain true link back =
    (s.updIo fun y => { y with lostColmet := y.lostColmet.filter (· != link) }).unstrand false :=
  (if_pos rfl).trans (if_neg (by rw [h]; decide))

theorem retrain_cxl_up (h : s.io.lostCxl.contains port = false ∨ s.boot.deadPorts.contains port = true) :
    s.retrain false port back = s := by
  refine (if_neg Bool.false_ne_true).trans (if_pos ?_)
  rcases h with h | h
  · rw [h]; rfl
  · rw [h, Bool.or_true]

theorem retrain_cxl (hlost : s.io.lostCxl.contains port = true) (hlive : s.boot.deadPorts.contains port = false) :
    s.retrain false port back =
      (s.updIo fun y => { y with lostCxl := y.lostCxl.filter (· != port) }).unstrand back :=
  (if_neg Bool.false_ne_true).trans (if_neg (by rw [hlost, hlive]; decide))

theorem retentionOver_none (h : s.stranded = []) : s.retentionOver = s := by
  have hsame : ({ s with stranded := [] } : State) = s := by rw [← h]
  rw [retentionOver, hsame, h]
  rfl

end

/-! ### Damaged parts (22 R396) -/

section
variable {s : State} {c n : Nat} (v : Nat)

theorem exec_restore {k : Nat} (hc : c < 768) (hk : 1 ≤ k ∧ k ≤ 3) (hn : n < 16384) :
    exec (.restore c k n v) s = .next (s.partDamaged c k n v) := by
  obtain ⟨hlo, hhi⟩ := hk
  exact if_neg (by simp [coreOk, hc, hn.not_ge, hhi.not_gt, Nat.one_le_iff_ne_zero.mp hlo])

theorem restoreSlot_unassigned (h : (s.vslot n).owner = none) : s.restoreSlot n v = s := by
  simp only [restoreSlot, h]

theorem restoreSlot_assigned {o : Nat} (h : (s.vslot n).owner = some o) : s.restoreSlot n v =
    (s.updVslot n fun z => { owner := z.owner, st := { stopped := true }, nerr := true }).pendAll o (restoreTrap 3 v) := by
  simp only [restoreSlot, h]
  rfl

theorem restoreCopy_gone (h : (s.cc c).copies.find n = none) : s.restoreCopy c n v = s := by
  simp only [restoreCopy, h]

theorem restoreCopy_abandons {z : Copy} (h : (s.cc c).copies.find n = some z) :
    s.restoreCopy c n v = (s.dropCopy c n).pendRestore c z.slot 2 v := by
  simp only [restoreCopy, h]

theorem restoreMatrix_idle (hrun : (s.cc c).matrix.running = none) (hfrozen : (s.cc c).matrix.frozen = none) :
    s.restoreMatrix c n v = s := by
  simp only [restoreMatrix, hrun, hfrozen, Option.orElse_none]

/-- The rows of a command that are not final, each element as the canonical NaN. -/
def unfinishedRows (z : MCmd) : List (Nat × Nat × Nat) :=
  ((List.range (rcM z.rowctl)).filter fun r => z.done ≤ r).flatMap fun r => (List.range 64).map fun j =>
    (rcBase z.rowctl + r, j, Fmt.nan .f32 false)

theorem restoreMatrix_abandons {z : MCmd} (hrun : (s.cc c).matrix.running = some z) (hnum : z.num = n)
    (hnone : z.trackers = []) : s.restoreMatrix c n v =
      (((s.updMatrix c fun y => setAcc { y with running := none, frozen := none } (unfinishedRows z)).dropScore
        (opKey c n)).pendRestore c z.slot 1 v).startMatrix c := by
  simp only [restoreMatrix, hrun, hnum, hnone, Option.orElse_some, bne_self_eq_false, Bool.false_eq_true, if_false,
    List.foldl_nil]
  rfl

end

/-! ### The events -/

/-- Settles O54: what waits for a budget by its key (`foldl_unhold`), granted changes by their order
(`foldl_grantChange_granted`), the index of each die by the dies that a step leaves alone (`foldl_lowers`), links and damaged
parts by their cases. -/
theorem powerAndLinkEvents : Obligations.PowerAndLinkEvents := by
  intro s d cycles i tj w port link c n v k cause val back hd hi hport hlink hc hn hk hcause x cur lowered sum order m
  have hdie : ¬ (!dieOk d) = true := by simp [dieOk, hd]
  have hlinks : ¬ (if true then 12 else 10) ≤ link := hlink.not_ge
  have hports : ¬ (if false then 12 else 10) ≤ port := hport.not_ge
  have restores {part : Nat} {t : State} (hpart : 1 ≤ part ∧ part ≤ 3) (ht : s.partDamaged c part n v = t) :
      s.Goes (.restore c part n v) t := (exec_restore v hc hpart hn).trans (congrArg _ ht)
  refine ⟨⟨_, ?period, endPeriod_spec s d cycles⟩, fun hover => ?overpromised, fun hfits => ?promised,
    ⟨_, ?equinox, equinox_spec s d⟩, fun hlow => ⟨_, ?maxBelow, writeVfstate_lowers hlow⟩, fun hhigh => ?maxAbove,
    fun hno => ?notSelected, fun hmax hcur => ?selected, fun hcool => ?cool, fun hhot => ⟨_, ?hot, heat_lowers hhot⟩,
    fun hw => congrArg _ (if_pos hw), fun hw => ⟨_, rfl, fun e he => powerOver_lowers hw he⟩,
    ⟨_, rfl, fun e he => undervoltage_lowers s he⟩, fun hcool => ?staysOn, fun hhot => ?powersDown,
    fun hlost => ?cxlAgain, fun hup => ?cxlLoss, fun hlost => ?colmetAgain, fun hup => ?colmetLoss, fun hup => ?colmetUp,
    fun hlost => ?colmetBack, fun hno => ?cxlUp, fun hlost hlive => ?cxlBack,
    fun hnone => congrArg _ (retentionOver_none hnone), rfl, fun hfree => ?slotFree, fun o hown => ?slot, fun hgone => ?copyGone,
    fun z hz => ?copy, fun hrun hfrozen => ?matrixIdle, fun z hrun hnum hnone => ?matrix⟩
  case period => exact goes_of_exists hdie rfl rfl
  case overpromised => exact goes_of_exists (by simp [dieOk, hd, hi]) rfl (if_pos hover)
  case promised => exact goes_of_exists (by simp [dieOk, hd, hi]) rfl (if_neg hfits.not_gt)
  case equinox => exact goes_of_exists hdie rfl rfl
  case maxBelow => exact goes_of_exists hdie rfl rfl
  case maxAbove => exact goes_of_exists hdie rfl (writeVfstate_keeps hhigh)
  case notSelected => exact goes_of_exists (by simp [dieOk, hd, hk, hcause]) rfl (selectVf_refused hno)
  case selected => exact goes_of_exists (by simp [dieOk, hd, hk, hcause]) rfl (selectVf_sets hmax hcur)
  case cool => exact goes_of_exists hdie rfl (if_pos hcool)
  case hot => exact goes_of_exists hdie rfl rfl
  case staysOn => exact goes_of_exists hdie rfl (if_pos hcool)
  case powersDown => exact goes_of_exists hdie rfl (if_neg hhot.not_gt)
  case cxlAgain => exact goes_of_exists hport.not_ge rfl (loseCxl_again hlost)
  case cxlLoss => exact goes_of_exists hport.not_ge rfl (loseCxl_declares hup)
  case colmetAgain => exact goes_of_exists hlink.not_ge rfl (loseColmet_again hlost)
  case colmetLoss => exact goes_of_exists hlink.not_ge rfl (loseColmet_declares hup)
  case colmetUp => exact goes_of_exists hlinks rfl (retrain_colmet_up hup)
  case colmetBack => exact goes_of_exists hlinks rfl (retrain_colmet hlost)
  case cxlUp => exact goes_of_exists hports rfl (retrain_cxl_up hno)
  case cxlBack => exact goes_of_exists hports rfl (retrain_cxl hlost hlive)
  case slotFree => exact restores (by decide) (restoreSlot_unassigned v hfree)
  case slot => exact restores (by decide) (restoreSlot_assigned v hown)
  case copyGone => exact restores (by decide) (restoreCopy_gone v hgone)
  case copy => exact restores (by decide) (restoreCopy_abandons v hz)
  case matrixIdle => exact restores (by decide) (restoreMatrix_idle v hrun hfrozen)
  case matrix => exact restores (by decide) (restoreMatrix_abandons v hrun hnum hnone)

end State
end Sys2Proof.Machine
end

section
/-! PROOFS (20 R362, R364, R369 to R371): the warp that freezes instead of entering a handler, the word of TDET0, and the
pending asynchronous trap that is taken. -/

namespace Sys2Proof.Machine
namespace State

theorem updWarp_congr {s : State} {c k : Nat} {f h : Warp → Warp} (heq : f (s.warp c k) = h (s.warp c k)) :
    s.updWarp c k f = s.updWarp c k h := by
  unfold warp cc at heq
  unfold updWarp
  split
  next h =>
    rw [if_pos h] at heq
    exact updCore_congr (congrArg (fun w => { s.core c with fw := w }) heq)
  next h =>
    rw [if_neg h] at heq
    exact updCore_congr (congrArg (fun w => { s.core c with cc := { (s.core c).cc with warps := (s.core c).cc.warps.set k w } }) heq)

/-! ### A warp that cannot enter a handler (20 R370) -/

/-- The warp whose trap registers hold the cause of a trap, and which waits for its pending results. -/
def causeSet (s : State) (c : Nat) (t : TrapInfo) (w : Warp) : Warp :=
  { w.updTrap fun x => { x with
      tdet0 := tdet0 t w.trap.async.length, tdet1 := t.t1, tdet2 := t.t2, epc := t.epc } with
    sched := { w.sched with
      stallUntil := max w.sched.stallUntil (max ((s.core c).cyc + 4) (w.lastLanding + 1)), stallAll := true } }

theorem takeTrap_freezes {s : State} {c k : Nat} (g : Mask) (t : TrapInfo)
    (h : (s.warp c k).trap.tvec = 0 ∨ (s.warp c k).trap.inHandler = true) :
    s.takeTrap c k g t = (s.updWarp c k (s.causeSet c t)).freeze c k (if (s.warp c k).trap.tvec = 0 then 0x20 else 0x21) := by
  have hset : s.updWarp c k (s.causeSet c t) = s.updWarp c k fun _ => s.causeSet c t (s.warp c k) := updWarp_congr rfl
  rw [hset]
  by_cases hvec : (s.warp c k).trap.tvec = 0
  · rw [if_pos hvec]
    exact if_pos hvec
  · rw [if_neg hvec]
    exact (if_neg hvec).trans (if_pos (h.resolve_left hvec))

/-! ### TDET0 (20 R371) -/

theorem tdet0_fields {t : TrapInfo} (n : Nat) (hcode : t.code < 2 ^ 16) (hgroup : t.group < 32) (hlane : t.lane < 32)
    (hlv : t.lv = false → t.lane = 0) :
    let d := (tdet0 t n).toNat
    d / 2 ^ 16 = t.code ∧ d / 2 ^ 15 % 2 = (if t.async then 1 else 0) ∧ d / 2 ^ 14 % 2 = (if t.lv then 1 else 0) ∧
      d / 2 ^ 8 % 2 ^ 6 = t.lane ∧ d / 2 ^ 5 % 8 = min n 7 ∧ d % 32 = t.group := by
  obtain ⟨group, code, async, lv, lane, t1, t2, epc⟩ := t
  dsimp only at hcode hgroup hlane hlv ⊢
  have hpend : min n 7 ≤ 7 := Nat.min_le_right ..
  have hlane' : (if lv = true then 2 ^ 14 + lane * 2 ^ 8 else 0) = (if lv = true then 1 else 0) * 2 ^ 14 + lane * 2 ^ 8 := by
    cases lv
    · simp [hlv rfl]
    · simp
  rw [tdet0, BitVec.toNat_ofNat]
  dsimp only
  rw [hlane']
  generalize min n 7 = pend at hpend ⊢
  refine ⟨?_, ?_, ?_, ?_, ?_, ?_⟩ <;> split <;> split <;> omega

/-! ### The asynchronous trap that is taken (20 R362, R369) -/

/-- The trap that goes first of one that is to be taken and one that became pending later. -/
def firstTaken (b : Option TrapInfo) (t : TrapInfo) : Option TrapInfo :=
  match b with
  | none => some t
  | some u => if t.group < u.group then some t else some u

theorem nextAsync_eq (w : Warp) : nextAsync w = w.trap.async.foldl firstTaken none := rfl

theorem foldl_firstTaken_of_le {t : TrapInfo} {l : List TrapInfo} (h : ∀ y ∈ l, t.group ≤ y.group) :
    l.foldl firstTaken (some t) = some t := by
  induction l with
  | nil => rfl
  | cons y l ih =>
    have hkeep : firstTaken (some t) y = some t := if_neg (h y (by simp)).not_gt
    rw [List.foldl_cons, hkeep]
    exact ih fun z hz => h z (by simp [hz])

theorem foldl_firstTaken_then {t : TrapInfo} {l : List TrapInfo} (h : ∀ y ∈ l, t.group < y.group) {b : Option TrapInfo}
    (hb : ∀ u ∈ b, t.group < u.group) : firstTaken (l.foldl firstTaken b) t = some t := by
  induction l generalizing b with
  | nil =>
    cases b with
    | none => rfl
    | some u => exact if_pos (hb u rfl)
  | cons y l ih =>
    refine ih (fun z hz => h z (by simp [hz])) fun u hu => ?_
    have hchosen : u = y ∨ u ∈ b := by
      cases b with
      | none => exact .inl (Option.some.inj hu).symm
      | some v =>
        unfold firstTaken at hu
        dsimp only at hu
        split at hu
        · exact .inl (Option.some.inj hu).symm
        · exact .inr hu
    rcases hchosen with rfl | hu
    · exact h u (by simp)
    · exact hb u hu

/-- The lowest cause group goes first, and the oldest of it. -/
theorem nextAsync_lowest {w : Warp} {t : TrapInfo} {p q : List TrapInfo} (hw : w.trap.async = p ++ t :: q)
    (hp : ∀ y ∈ p, t.group < y.group) (hq : ∀ y ∈ q, t.group ≤ y.group) : nextAsync w = some t := by
  rw [nextAsync_eq, hw, List.foldl_append, List.foldl_cons, foldl_firstTaken_then hp (by simp)]
  exact foldl_firstTaken_of_le hq

theorem takeAsync_none {s : State} {c k : Nat} {gs : List Cand} (h : (s.warp c k).trap.async = [] ∨ gs = []) :
    s.takeAsync c k gs = s := by
  rcases h with h | rfl
  · simp only [takeAsync, nextAsync_eq, h, List.foldl_nil]
  · have hnone : firstGroup (s.warp c k) [] = none := rfl
    unfold takeAsync
    dsimp only
    rw [hnone]
    split
    next hg => cases hg
    next => rfl

theorem takeAsync_takes {s : State} {c k : Nat} {gs : List Cand} {t : TrapInfo} {p q : List TrapInfo} {x : Cand}
    (hw : (s.warp c k).trap.async = p ++ t :: q) (hp : ∀ y ∈ p, t.group < y.group) (hq : ∀ y ∈ q, t.group ≤ y.group)
    (hx : firstGroup (s.warp c k) gs = some x) : s.takeAsync c k gs =
      (s.updWarp c k fun w => w.updTrap fun y => { y with async := p ++ q }).takeTrap c k x.lanes { t with epc := x.pc } := by
  have hnew : t ∉ p := fun ht => (hp t ht).false
  have herase : (p ++ t :: q).erase t = p ++ q := by
    rw [List.erase_append_right _ hnew, List.erase_cons_head]
  unfold takeAsync
  simp only [nextAsync_lowest hw hp hq, hx]
  refine congrArg (fun e : State => e.takeTrap c k x.lanes { t with epc := x.pc }) (updWarp_congr ?_)
  rw [Warp.updTrap, Warp.updTrap, hw, herase]

/-- Settles O39: trap entry by the vector and the handler (`takeTrap_trapped`, `takeTrap_freezes`), TDET0 by its fields
(`tdet0_fields`), the asynchronous trap by the order of those that are pending (`nextAsync_lowest`). -/
theorem trapEntries : Obligations.TrapEntries := by
  intro s c k g t hc hk w flag
  have hthere : ¬ (!coreOk c || fwSlot < k) = true := by simp [hc, show ¬ fwSlot < k from hk.not_gt]
  refine ⟨fun hvec hin => ⟨_, ?enters, takeTrap_trapped hvec hin, rfl⟩,
    fun h => ⟨s.updWarp c k (s.causeSet c t), ?freezes, updWarp_device .., fun j hj => ?otherCore, fun j hj => ?otherWarp, ?cause,
      fun l => ?lane⟩,
    fun n hcode hgroup hlane hlv => tdet0_fields n hcode hgroup hlane hlv, fun hin => ?inHandler,
    fun hin => ⟨fun h => ?nothing, fun p q x hw hp hq hx => ?taken⟩⟩
  case enters => exact goes_of_exists hthere rfl rfl
  case freezes => exact goes_of_exists hthere rfl (takeTrap_freezes g t h)
  case otherCore => rw [core_updWarp, if_neg hj]
  case otherWarp => rw [warp_updWarp, if_neg fun h => hj h.2]
  case cause =>
    rw [warp_updWarp, if_pos ⟨rfl, rfl⟩]
    rfl
  case lane =>
    rw [warp_updWarp, if_pos ⟨rfl, rfl⟩]
    rfl
  case inHandler => exact (if_neg hthere).trans (if_pos hin)
  case nothing => exact (if_neg hthere).trans ((if_neg (by simpa using hin)).trans (congrArg _ (takeAsync_none h)))
  case taken =>
    exact (if_neg hthere).trans ((if_neg (by simpa using hin)).trans (congrArg _ (takeAsync_takes hw hp hq hx)))

end State
end Sys2Proof.Machine
end

section
/-! PROOFS (05 R86, R87; 06 R98 to R100): what operations of the memory system leave of the L1s: an operation at a home at most
takes clean words of a line out of them. -/

namespace Sys2Proof.Machine
namespace State

variable (s : State)

/-! ### Operations that leave the L1s as they are -/

theorem writeLine_eq (kid line : Nat) (m : BitVec 32) (d : BitVec 1024) :
    ∃ mem damage, s.writeLine kid line m d = { s with mem := mem, damage := damage } := by
  unfold writeLine
  dsimp only
  split
  · exact ⟨_, _, rfl⟩
  · generalize hset : s.setMemBytes _ _ = t
    obtain ⟨mem, rfl⟩ : ∃ mem, t = { s with mem := mem } := ⟨_, hset.symm⟩
    split <;> exact ⟨_, _, rfl⟩
theorem writeBack_eq (key line : Nat) (l : Line) :
    ∃ mem damage, s.writeBack key line l = { s with mem := mem, damage := damage } := by
  unfold writeBack
  split
  · exact ⟨_, _, rfl⟩
  · exact writeLine_eq ..
/-- Cleaning a line of an L2 changes memory and that L2, and meets damage. -/
theorem l2Clean_eq (d line : Nat) :
    ∃ mem damage l2, s.l2Clean d line = { s with mem := mem, damage := damage, l2 := l2 } := by
  unfold l2Clean
  split
  next l _ =>
    obtain ⟨mem, damage, h⟩ := s.writeBack_eq (lineKey d line) line l
    rw [h]
    exact ⟨_, _, _, rfl⟩
  next => exact ⟨_, _, _, rfl⟩

theorem writeLine_l1 (kid line : Nat) (m : BitVec 32) (d : BitVec 1024) : (s.writeLine kid line m d).l1 = s.l1 := by
  obtain ⟨_, _, h⟩ := s.writeLine_eq kid line m d
  rw [h]
theorem writeBack_l1 (key line : Nat) (l : Line) : (s.writeBack key line l).l1 = s.l1 := by
  obtain ⟨_, _, h⟩ := s.writeBack_eq key line l
  rw [h]
theorem l2Clean_l1 (d line : Nat) : (s.l2Clean d line).l1 = s.l1 := by
  obtain ⟨_, _, _, h⟩ := s.l2Clean_eq d line
  rw [h]
theorem l2Clean_cores (d line : Nat) : (s.l2Clean d line).cores = s.cores := by
  obtain ⟨_, _, _, h⟩ := s.l2Clean_eq d line
  rw [h]
theorem l2Drop_l1 (d line : Nat) : (s.l2Drop d line).l1 = s.l1 := l2Clean_l1 ..
theorem countDie_l1 (d src : Nat) : (s.countDie d src).l1 = s.l1 := by
  unfold countDie
  dsimp only
  split <;> rfl
theorem l2Put_l1 (d line : Nat) (l : Line) : (s.l2Put d line l).l1 = s.l1 := by
  unfold l2Put
  dsimp only
  split
  · rfl
  · split
    · rfl
    · exact l2Drop_l1 ..
theorem l2Line_l1 (d kid line : Nat) (need : BitVec 32) : (s.l2Line d kid line need).1.l1 = s.l1 := by
  unfold l2Line
  dsimp only
  rw [l2Put_l1, countDie_l1]
  split
  · split
    · rfl
    · exact writeBack_l1 ..
  · rfl
theorem hostOwn_l1 (d pa : Nat) (w : Bool) : (s.hostOwn d pa w).l1 = s.l1 := by
  unfold hostOwn
  split
  · rfl
  · refine foldl_unchanged State.l1 (fun t e => ?_) _ s
    split
    · rfl
    · split
      · exact l2Drop_l1 ..
      · exact l2Clean_l1 ..
theorem snapshot_l1 (lo hi : Nat) : (s.snapshot lo hi).1.l1 = s.l1 := by
  refine foldl_unchanged State.l1 (fun t e => ?_) _ s
  dsimp only
  split
  · exact writeBack_l1 ..
  · rfl
theorem stagePage_l1 (h k : Nat) : (s.stagePage h k).l1 = s.l1 := snapshot_l1 ..
theorem stageFor_l1 (pa : Nat) : (s.stageFor pa).l1 = s.l1 := by
  refine foldl_unchanged State.l1 (fun t h => ?_) _ s
  split
  · dsimp only
    split
    · rw [stagePage_l1]
      split
      · exact stagePage_l1 ..
      · rfl
    · split
      · exact stagePage_l1 ..
      · rfl
  · rfl
theorem keepPage_l1 (h k : Nat) : (s.keepPage h k).l1 = s.l1 := by
  unfold keepPage
  dsimp only
  split
  · rfl
  · exact snapshot_l1 ..
theorem markPage_l1 (h pa : Nat) : (s.markPage h pa).l1 = s.l1 := by
  unfold markPage
  split <;> rfl
theorem wakeMonitors_l1 (pa : Nat) : (s.wakeMonitors pa).l1 = s.l1 := by
  unfold wakeMonitors
  split <;> rfl
theorem snoop_l1 (key : Nat) (inval : Bool) : (s.snoop key inval).l1 = s.l1 := by
  unfold snoop
  split <;> rfl
theorem hold_l1 (key : Nat) (inval : Bool) (ev : Instr) : (s.hold key inval ev).l1 = s.l1 := by
  unfold hold
  dsimp only
  generalize (if key < 2 ^ 40 then s.closedHolds (key * 4096) else []) = hs
  rw [snoop_l1]
  show (if hs.isEmpty = true then s else s.countDie _ _).l1 = s.l1
  split
  · rfl
  · exact countDie_l1 ..
theorem lateWriteBack_l1 (c line : Nat) (l : Line) : (s.lateWriteBack c line l).l1 = s.l1 := hold_l1 ..

/-! ### Operations that may take lines out of them -/

/-- The lines that the L1s hold. -/
def l1Keys : List Nat := s.l1.map Prod.fst

theorem invalidateCopies_l1Keys (writer line : Nat) : (s.invalidateCopies writer line).l1Keys ⊆ s.l1Keys := by
  intro k hk
  simp only [l1Keys, invalidateCopies, List.mem_map, List.mem_filter] at hk ⊢
  obtain ⟨e, ⟨⟨x, hx, hxe⟩, -⟩, rfl⟩ := hk
  refine ⟨x, hx, ?_⟩
  rw [← hxe]
  split <;> rfl

theorem homePut_l1Keys (r w h pa kid cache : Nat) (bs : List Byte) : (s.homePut r w h pa kid cache bs).l1Keys ⊆ s.l1Keys := by
  have hl1 : (s.homePut r w h pa kid cache bs).l1 =
      (((s.stageFor pa).hostOwn (homeDie pa r) pa true).invalidateCopies w (lineOf pa)).l1 := by
    unfold homePut
    dsimp only
    split
    · rw [writeLine_l1, wakeMonitors_l1]
    · rw [l2Put_l1, l2Line_l1, wakeMonitors_l1]
  rw [l1Keys, hl1]
  refine List.Subset.trans (invalidateCopies_l1Keys ..) ?_
  rw [l1Keys, hostOwn_l1, stageFor_l1]
  exact List.Subset.refl _

theorem homeWrite_l1Keys (r w h pa kid cache : Nat) (bs : List Byte) :
    (s.homeWrite r w h pa kid cache bs).l1Keys ⊆ s.l1Keys := by
  unfold homeWrite
  dsimp only
  rw [l1Keys, markPage_l1]
  refine List.Subset.trans (homePut_l1Keys ..) ?_
  split
  · rw [l1Keys, keepPage_l1]
    exact List.Subset.refl _
  · exact List.Subset.refl _

theorem foldl_l1Keys {α : Type} {f : State → α → State} (h : ∀ s a, (f s a).l1Keys ⊆ s.l1Keys) (l : List α) (s : State) :
    (l.foldl f s).l1Keys ⊆ s.l1Keys := by
  induction l generalizing s with
  | nil => exact List.Subset.refl _
  | cons a l ih => exact List.Subset.trans (ih _) (h s a)

theorem mem_keys_set {α : Type} (m : Map α) (n : Nat) (y : α) : ∀ k ∈ (m.set n y).map Prod.fst, k = n ∨ k ∈ m.map Prod.fst := by
  induction m with
  | nil => simp [Map.set]
  | cons e m ih =>
    obtain ⟨j, x⟩ := e
    intro k hk
    rw [Map.set] at hk
    split at hk
    · simpa only [List.map_cons, List.mem_cons] using hk
    · split at hk
      · simp only [List.map_cons, List.mem_cons] at hk ⊢
        exact hk.imp_right .inr
      · simp only [List.map_cons, List.mem_cons] at hk ⊢
        rcases hk with rfl | hk
        · exact .inr (.inl rfl)
        · exact (ih k hk).imp_right .inr

theorem l1WriteBack_l1Keys (c line : Nat) : (s.l1WriteBack c line).l1Keys ⊆ lineKey c line :: s.l1Keys := by
  unfold l1WriteBack
  dsimp only
  split
  next => exact List.subset_cons_self ..
  next l _ =>
    split
    · exact List.subset_cons_self ..
    · intro k hk
      rcases mem_keys_set _ _ _ k hk with rfl | hk
      · exact List.mem_cons_self ..
      · refine List.mem_cons_of_mem _ (?_ : k ∈ s.l1Keys)
        split at hk
        · exact hk
        · split at hk
          · rwa [lateWriteBack_l1] at hk
          · exact foldl_l1Keys (fun _ _ => homeWrite_l1Keys ..) _ s hk

/-- A line that is dropped leaves its L1, and no line enters one. -/
theorem l1Drop_l1Keys {c line k : Nat} (h : k ∈ (s.l1Drop c line).l1Keys) : k ∈ s.l1Keys ∧ k ≠ lineKey c line := by
  simp only [l1Drop, l1Keys, Map.del, List.mem_map, List.mem_filter] at h
  obtain ⟨e, ⟨he, hne⟩, rfl⟩ := h
  have hne : e.1 ≠ lineKey c line := by simpa using hne
  exact ⟨(List.mem_cons.mp (l1WriteBack_l1Keys s c line (List.mem_map_of_mem he))).resolve_left hne, hne⟩

/-- Once lines have been dropped, none of them is in an L1. -/
theorem foldl_l1Drop_l1Keys (ks : List Nat) (s : State) {k : Nat}
    (h : k ∈ (ks.foldl (fun (s : State) k => s.l1Drop (k / 2 ^ 41) (k % 2 ^ 41)) s).l1Keys) : k ∈ s.l1Keys ∧ k ∉ ks := by
  induction ks generalizing s with
  | nil => exact ⟨h, List.not_mem_nil⟩
  | cons j ks ih =>
    obtain ⟨hk, hks⟩ := ih _ h
    obtain ⟨hk, hj⟩ := l1Drop_l1Keys _ hk
    have hkey : lineKey (j / 2 ^ 41) (j % 2 ^ 41) = j := Nat.div_add_mod' ..
    exact ⟨hk, by simpa [hks] using hkey ▸ hj⟩

end State
end Sys2Proof.Machine
end

section
/-! PROOFS (16 R322, R323; 21 R391): the flip of a page's bias and the host's answers, one equation for each case. -/

namespace Sys2Proof.Machine
namespace State

section
variable {s : State} {e : Nat} {dir : Bool}

/-! ### GO of a flip engine -/

/-- A flip that an engine has begun. -/
def flipBegun (s : State) (e : Nat) (dir : Bool) : State :=
  s.updFlip e fun f => { f with busy := true, page := (s.flip e).addr.toNat / 4096, home := f.ctr, toDev := dir }

theorem startFlip_busy (h : (s.flip e).busy = true) : s.startFlip e dir = s := if_pos h

section
variable (hidle : (s.flip e).busy = false)
include hidle

theorem startFlip_begins : s.startFlip e dir =
    let p4 := (s.flip e).addr.toNat / 4096
    let b := s.flipBegun e dir
    if !s.accepted featHdm then b.flipDone e 3
    else if s.io.hdmSize ≤ (s.flip e).addr.toNat || (s.flip e).addr.toNat % 4096 != 0 then b.flipDone e 1
    else if s.flipping.contains p4 then b.flipDone e 2
    else if s.hostBias.contains p4 != dir then b.flipDone e 0
    else
      let b : State := { b with flipping := s.flipping ++ [p4] }
      if dir then (b.updFlip e fun f => { f with waiting := linesOfPage p4 }).snoopLines (linesOfPage p4)
      else b.post (.flipStep2Complete e) := if_neg (by simp [hidle])

theorem startFlip_noFeature (h : s.accepted featHdm = false) : s.startFlip e dir = (s.flipBegun e dir).flipDone e 3 :=
  (startFlip_begins hidle).trans (if_pos (by simp [h]))

variable (hfeature : s.accepted featHdm = true)
include hfeature

theorem startFlip_badPage (h : s.io.hdmSize ≤ (s.flip e).addr.toNat ∨ (s.flip e).addr.toNat % 4096 ≠ 0) :
    s.startFlip e dir = (s.flipBegun e dir).flipDone e 1 :=
  (startFlip_begins hidle).trans ((if_neg (by simp [hfeature])).trans (if_pos (by simpa using h)))

variable (hsize : (s.flip e).addr.toNat < s.io.hdmSize) (halign : (s.flip e).addr.toNat % 4096 = 0)
include hsize halign

theorem startFlip_page : s.startFlip e dir =
    let p4 := (s.flip e).addr.toNat / 4096
    let b := s.flipBegun e dir
    if s.flipping.contains p4 then b.flipDone e 2
    else if s.hostBias.contains p4 != dir then b.flipDone e 0
    else
      let b : State := { b with flipping := s.flipping ++ [p4] }
      if dir then (b.updFlip e fun f => { f with waiting := linesOfPage p4 }).snoopLines (linesOfPage p4)
      else b.post (.flipStep2Complete e) :=
  (startFlip_begins hidle).trans ((if_neg (by simp [hfeature])).trans (if_neg (by simp [halign, hsize])))

theorem startFlip_flipping (h : (s.flip e).addr.toNat / 4096 ∈ s.flipping) :
    s.startFlip e dir = (s.flipBegun e dir).flipDone e 2 :=
  (startFlip_page hidle hfeature hsize halign).trans (if_pos (by simpa using h))

variable (hnew : (s.flip e).addr.toNat / 4096 ∉ s.flipping)
include hnew

theorem startFlip_same (h : (s.flip e).addr.toNat / 4096 ∈ s.hostBias ↔ dir = false) :
    s.startFlip e dir = (s.flipBegun e dir).flipDone e 0 := by
  refine (startFlip_page hidle hfeature hsize halign).trans ((if_neg (by simpa using hnew)).trans (if_pos ?_))
  cases dir <;> simpa using h

theorem startFlip_goes (h : (s.flip e).addr.toNat / 4096 ∈ s.hostBias ↔ dir = true) : s.startFlip e dir =
    let p4 := (s.flip e).addr.toNat / 4096
    let b : State := { s.flipBegun e dir with flipping := s.flipping ++ [p4] }
    if dir then (b.updFlip e fun f => { f with waiting := linesOfPage p4 }).snoopLines (linesOfPage p4)
    else b.post (.flipStep2Complete e) := by
  refine (startFlip_page hidle hfeature hsize halign).trans ((if_neg (by simpa using hnew)).trans (if_neg ?_))
  cases dir <;> simpa using h

end

/-! ### The end of step 2 -/

/-- The L1s without the lines of the page of a flip. -/
def pageDropped (s : State) (e : Nat) : State :=
  ((s.l1.filter fun k => k.1 % 2 ^ 41 / 32 = (s.flip e).page).map Prod.fst).foldl
    (fun (s : State) k => s.l1Drop (k / 2 ^ 41) (k % 2 ^ 41)) s

theorem flipStep2_closing {code : Nat} (h : (s.flip e).closing = some code) : s.flipStep2 e = s.flipDone e code := by
  simp only [flipStep2, h]

section
variable (hopen : (s.flip e).closing = none)
include hopen

theorem flipStep2_stale (h : (s.flip e).busy = false ∨ (s.flip e).page ∉ s.flipping) : s.flipStep2 e = s := by
  simp only [flipStep2, hopen]
  refine if_pos ?_
  simpa using h

variable (hbusy : (s.flip e).busy = true) (hpage : (s.flip e).page ∈ s.flipping)
include hbusy hpage

theorem flipStep2_toDevice (h : (s.flip e).toDev = true) :
    s.flipStep2 e = if (s.flip e).waiting.isEmpty then s.flipPage e 0 else s := by
  simp only [flipStep2, hopen]
  exact (if_neg (by simp [hbusy, hpage])).trans (if_pos h)

theorem flipStep2_toHost (h : (s.flip e).toDev = false) : s.flipStep2 e =
    if ((s.pageDropped e).lateBack (s.flip e).page).isSome then (s.pageDropped e).post (.flipStep2Complete e)
    else (s.pageDropped e).flipPage e 0 := by
  simp only [flipStep2, hopen]
  exact (if_neg (by simp [hbusy, hpage])).trans (if_neg (by simp [h]))

end

/-- No L1 holds a line of the page any more (16 R323). -/
theorem pageDropped_l1 (s : State) (e : Nat) : ∀ x ∈ (s.pageDropped e).l1, x.1 % 2 ^ 41 / 32 ≠ (s.flip e).page := by
  intro x hx hpage
  obtain ⟨hold, hgone⟩ := foldl_l1Drop_l1Keys _ s (List.mem_map_of_mem hx)
  obtain ⟨y, hy, hyx⟩ := List.mem_map.mp hold
  exact hgone (List.mem_map.mpr ⟨y, List.mem_filter.mpr ⟨hy, by rw [hyx]; simpa using hpage⟩, hyx⟩)

end

end State
end Sys2Proof.Machine
end

section
/-! PROOFS (16 R321, R325; 07 R128, R132): host and peer accesses to device memory, one equation for each case. -/

namespace Sys2Proof.Machine
namespace State

section
variable {s : State} {a d line : Nat}

/-! ### Reads of the host (16 R321) -/

theorem hostRead_hostMem (h : isHost (a / 64 * 64) = true) : s.hostRead a =
    let t := [0, 1, 2, 3].foldl (fun (t : State) d => t.l2Clean d (lineOf (a / 64 * 64))) s
    { t with reply := BitVec.ofNat 512 (leNat (t.memBytes (a / 64 * 64) 64)) } := if_pos h

section
variable (hdevice : isHost (a / 64 * 64) = false)
include hdevice

theorem hostRead_unreached (h : s.hostReaches (a / 64 * 64) = false) : s.hostRead a = s :=
  (if_neg (by simp [hdevice])).trans (if_pos (by simp [h]))

variable (hreach : s.hostReaches (a / 64 * 64) = true)
include hreach

theorem hostRead_held {key : Nat} (h : s.hostHold (a / 64 * 64) false = some key) :
    s.hostRead a = s.hold key false (.hostMemRead a) := by
  simp only [hostRead, hdevice, hreach, h, Bool.not_true, Bool.false_eq_true, if_false]

theorem hostRead_served (h : s.hostHold (a / 64 * 64) false = none) : s.hostRead a =
    let r := (s.recallLine (lineOf (a / 64 * 64))).homeRead (homeDie (a / 64 * 64) 0) (a / 64 * 64) 0 0 64
    hostKeeps { r.1.charge (homeDie (a / 64 * 64) 0) 3 64 with reply := BitVec.ofNat 512 (leNat r.2) } (a / 64 * 64) := by
  simp only [hostRead, hdevice, hreach, h, Bool.not_true, Bool.false_eq_true, if_false]

end

/-! ### Writes of the host (16 R321; 07 R128) -/

section
variable {bs : List Byte} {ev : Instr}

theorem hostWrite_hostMem (h : isHost a = true) : s.hostWrite a bs ev =
    ((([0, 1, 2, 3].foldl (fun (t : State) d => t.l2Drop d (lineOf a)) s).invalidateCopies (2 ^ 20) (lineOf a)).setMemBytes a
      (bs.take (64 - a % 64))).post (.monitorWake (lineOf a)) := if_pos h

section
variable (hdevice : isHost a = false)
include hdevice

theorem hostWrite_unreached (h : s.hostReaches a = false) : s.hostWrite a bs ev = s :=
  (if_neg (by simp [hdevice])).trans (if_pos (by simp [h]))

variable (hreach : s.hostReaches a = true)
include hreach

theorem hostWrite_held {key : Nat} (h : s.hostHold a true = some key) : s.hostWrite a bs ev = s.hold key true ev := by
  simp only [hostWrite, hdevice, hreach, h, Bool.not_true, Bool.false_eq_true, if_false]

theorem hostWrite_served (h : s.hostHold a true = none) : s.hostWrite a bs ev =
    let t := (s.hostPut a 0 (bs.take (64 - a % 64))).charge (homeDie a 0) 3 64
    { t with snooped := t.snooped.filter fun l => l.1 != lineOf a } := by
  simp only [hostWrite, hdevice, hreach, h, Bool.not_true, Bool.false_eq_true, if_false]

end

/-! ### The host's answers (16 R321, R323) -/

/-- What the host answers for the line of `a`: its dirty bytes merge, and it keeps the line as the snoop `x` lets it. -/
def answerMerged (s : State) (a : Nat) (bs : List Byte) (x : Nat × Bool) : State :=
  let l := lineOf a
  let t := if l ∈ s.hostLines ∧ bs ≠ [] then s.hostPut a 0 (bs.take (128 - a % 128)) else s
  { t with
    snoops := t.snoops.erase x
    hostLines := t.hostLines.filter (· != l)
    hostClean := if x.2 then t.hostClean.filter (· != l) else if t.hostClean.contains l then t.hostClean else t.hostClean ++ [l]
    snooped := if t.hostBias.contains (l / 32) && !t.snooped.contains (l, x.2) then t.snooped ++ [(l, x.2)] else t.snooped }

/-- A flip of engine `i` no longer waits for the line `l`, if the host has given it up. -/
def flipAnswered (l : Nat) (gone : Bool) (s : State) (i : Nat) : State :=
  if !(s.flip i).waiting.contains l || !gone then s else
  let t := s.updFlip i fun f => { f with waiting := f.waiting.filter (· != l) }
  if (t.flip i).waiting.isEmpty then t.post (.flipStep2Complete i) else t

theorem bisnpAnswer_none (h : (s.snoops.find? fun x => x.1 = lineOf a) = none) : s.bisnpAnswer a bs = s := by
  simp only [bisnpAnswer, h]

theorem bisnpAnswer_some {x : Nat × Bool} (h : (s.snoops.find? fun x => x.1 = lineOf a) = some x) : s.bisnpAnswer a bs =
    ([0, 1, 2, 3].foldl (flipAnswered (lineOf a) x.2) (s.answerMerged a bs x)).unhold (2 ^ 40 + lineOf a) := by
  have hmerge : (s.hostLines.contains (lineOf a) && !bs.isEmpty) = decide (lineOf a ∈ s.hostLines ∧ bs ≠ []) := by
    cases bs <;> simp
  simp only [bisnpAnswer, h, hmerge, decide_eq_true_eq]
  rfl

theorem flip_updFlip (i j : Nat) (f : Flip → Flip) : (s.updFlip i f).flip j = if j = i then f (s.flip i) else s.flip j :=
  Map.get_upd ..

section
variable {l : Nat} {gone : Bool}

theorem flipAnswered_other {i : Nat} (h : l ∉ (s.flip i).waiting ∨ gone = false) : flipAnswered l gone s i = s :=
  if_pos (by simpa using h)

theorem flipAnswered_waiting {i : Nat} (h : l ∈ (s.flip i).waiting) : flipAnswered l true s i =
    let t := s.updFlip i fun f => { f with waiting := f.waiting.filter (· != l) }
    if (t.flip i).waiting = [] then t.post (.flipStep2Complete i) else t := by
  refine (if_neg (by simpa using h)).trans ?_
  simp only [List.isEmpty_iff]

theorem flip_flipAnswered {i j : Nat} (h : j ≠ i) : (flipAnswered l gone s i).flip j = s.flip j := by
  have hupd : (s.updFlip i fun f => { f with waiting := f.waiting.filter (· != l) }).flip j = s.flip j := by
    rw [flip_updFlip, if_neg h]
  unfold flipAnswered
  split
  · rfl
  · dsimp only
    split
    · exact hupd
    · exact hupd

/-- Where only one engine waits for the line, only its flip changes. -/
theorem foldl_flipAnswered {e : Nat} {is : List Nat} (hnodup : is.Nodup) (he : e ∈ is)
    (h : ∀ i ∈ is, i ≠ e → l ∉ (s.flip i).waiting) : is.foldl (flipAnswered l gone) s = flipAnswered l gone s e := by
  have hrest (t : State) (is : List Nat) (h : ∀ i ∈ is, l ∉ (t.flip i).waiting) : is.foldl (flipAnswered l gone) t = t := by
    induction is with
    | nil => rfl
    | cons i is ih =>
      rw [List.foldl_cons, flipAnswered_other (.inl (h i (by simp)))]
      exact ih fun j hj => h j (by simp [hj])
  induction is with
  | nil => cases he
  | cons i is ih =>
    obtain ⟨hi, hnodup⟩ := List.nodup_cons.mp hnodup
    rw [List.foldl_cons]
    by_cases hie : i = e
    · subst hie
      refine hrest _ _ fun j hj => ?_
      have hji : j ≠ i := fun hji => hi (hji ▸ hj)
      rw [flip_flipAnswered hji]
      exact h j (by simp [hj]) hji
    · rw [flipAnswered_other (.inl (h i (by simp) hie))]
      exact ih hnodup ((List.mem_cons.mp he).resolve_left (Ne.symm hie)) fun j hj => h j (by simp [hj])

end

end

/-! ### Snoops of the host (07 R132) -/

theorem cacheSnoop_away {inval : Bool} (h : isHost (line * 128) = false) : s.cacheSnoop d line inval = s :=
  if_pos (by simp [h])

/-- The words that a snoop leaves in an L1 line. -/
def snoopedLine (d line : Nat) (inval : Bool) (e : Nat × Line) : Nat × Line :=
  if inval && e.1 % 2 ^ 41 = line && dieOfCore (e.1 / 2 ^ 41) = d && !e.2.ro then (e.1, { e.2 with valid := e.2.dirty }) else e

theorem cacheSnoop_keepsL1 {inval : Bool} (hhost : isHost (line * 128) = true)
    (h : inval = false ∨ ∀ x ∈ s.l1, x.1 % 2 ^ 41 = line → dieOfCore (x.1 / 2 ^ 41) ≠ d) : s.cacheSnoop d line inval =
      let t := if inval then s.l2Drop d line else s.l2Clean d line
      State.post { t with l1 := s.l1.filter fun x => x.2.valid != 0#32 } (.monitorWake line) := by
  have hl1 : (if inval then s.l2Drop d line else s.l2Clean d line).l1 = s.l1 := by
    split
    · exact l2Drop_l1 ..
    · exact l2Clean_l1 ..
  have hkept : s.l1.map (snoopedLine d line inval) = s.l1 := by
    refine (List.map_congr_left fun x hx => if_neg fun hx' => ?_).trans (List.map_id _)
    simp only [Bool.and_eq_true, decide_eq_true_eq] at hx'
    obtain ⟨⟨⟨hinval, hline⟩, hdie⟩, -⟩ := hx'
    rcases h with rfl | h
    · cases hinval
    · exact h x hx hline hdie
  refine (if_neg (by simp [hhost])).trans ?_
  dsimp only
  generalize (if inval then s.l2Drop d line else s.l2Clean d line) = t at hl1
  show State.post { t with l1 := (t.l1.map (snoopedLine d line inval)).filter fun x => x.2.valid != 0#32 } _ = _
  rw [hl1, hkept]

/-! ### Peers (16 R325) -/

section
variable {peer size : Nat} {u : PeerOp}

theorem peerAccess_unadmitted (h : ∀ w < 16, s.admits w peer a (peerSize a size u) (peerWrites u) = false) :
    s.peerAccess peer a size u = s := by
  have hnone : s.admitting peer a (peerSize a size u) (peerWrites u) = none := by
    simpa [admitting] using h
  simp only [peerAccess, hnone]

/-- A peer's operation, where its home takes it. -/
def peerTaken (s : State) (peer a n kid : Nat) (u : PeerOp) : State :=
  match u with
  | .write bs => (s.markMapped a false).homeWrite (homeDie a 0) (2 ^ 20) noCtx a kid 0 (bs.take n)
  | .read => (s.homeRead (homeDie a 0) a kid 0 n).1.answer (leNat (s.homeRead (homeDie a 0) a kid 0 n).2)
  | .atom o x => s.homeAtomic a kid n fun old => atomOp o n old x.toNat
  | .cas old new => s.homeAtomic a kid n fun v => if v = old.toNat then new.toNat else v
  | .add inc => s.homeAdd a kid inc
  | .wait thr => s.peerWait peer a kid thr

section
variable {w : Nat} (hw : w < 16) (hadmits : s.admits w peer a (peerSize a size u) (peerWrites u) = true)
  (hlow : ∀ v < w, s.admits v peer a (peerSize a size u) (peerWrites u) = false)
include hw hadmits hlow

theorem admitting_lowest : s.admitting peer a (peerSize a size u) (peerWrites u) = some w := by
  rw [admitting, List.find?_range_eq_some]
  exact ⟨hadmits, List.mem_range.mpr hw, fun v hv => by simp [hlow v hv]⟩

theorem peerAccess_held {key : Nat} (h : s.ctrHold (.mem a (s.inKid w)) (peerWrites u) = some key) :
    s.peerAccess peer a size u = s.hold key (peerWrites u) (.peerAccess peer a size u) := by
  simp only [peerAccess, admitting_lowest hw hadmits hlow, h]

theorem peerAccess_taken (h : s.ctrHold (.mem a (s.inKid w)) (peerWrites u) = none) : s.peerAccess peer a size u =
    (s.recallLine (lineOf a)).peerTaken peer a (peerSize a size u) ((s.recallLine (lineOf a)).inKid w) u := by
  simp only [peerAccess, admitting_lowest hw hadmits hlow, h]
  cases u <;> rfl

end

end

end

end State
end Sys2Proof.Machine
end

section
/-! PROOFS (16 R321 to R323, R325; 07 R128, R132; 21 R388): the events of the host and of peers, each by the lemma of its
case. -/

namespace Sys2Proof.Machine
namespace State

/-- Settles O52: a flip by the check that ends it (`startFlip_page`) and by the lines that it waits for (`pageDropped_l1`,
`foldl_flipAnswered`), the accesses of the host and of peers by what they wait for. -/
theorem hostEvents : Obligations.HostEvents := by
  intro s e c k peer a size d line va u bs inval he hc hk hpeer hd f p4 set flipGo begun fin page turned base put
  have hengine : ¬ 4 ≤ e := he.not_ge
  have hpeer' : ¬ 64 ≤ peer := hpeer.not_ge
  have flipGoes {dir : Bool} {t : State} (h : s.startFlip e dir = t) : flipGo dir t := by
    cases dir
    · exact goes_of_exists hengine rfl h
    · exact goes_of_exists hengine rfl h
  refine ⟨fun hbusy dir => flipGoes (startFlip_busy hbusy), fun hidle dir => ⟨_, flipGoes rfl, ?begins⟩,
    fun code hcode => goes_of_exists hengine rfl (flipStep2_closing hcode),
    fun hopen h => goes_of_exists hengine rfl (flipStep2_stale hopen h), fun hopen hbusy hpage => ?step2,
    fun hhost => ?readsHost, fun hdevice h => congrArg _ (hostRead_unreached hdevice h),
    fun hdevice hreach => ⟨fun key h => congrArg _ (hostRead_held hdevice hreach h),
      fun h => congrArg _ (hostRead_served hdevice hreach h)⟩, fun hdevice w hw => ?writes, fun hhost w hw => ?writesHost,
    fun v => ⟨fun h => if_pos h, fun h => if_neg (BitVec.not_lt.mpr h)⟩, fun hnone => congrArg _ (bisnpAnswer_none hnone),
    fun x hx => ?answered, fun haway => goes_of_exists (by simp [dieOk, hd]) rfl (cacheSnoop_away haway),
    fun hhost h => goes_of_exists (by simp [dieOk, hd]) rfl (cacheSnoop_keepsL1 hhost h), ?peers, ?refusal⟩
  case begins =>
    refine ⟨startFlip_noFeature hidle, fun hfeature => ⟨startFlip_badPage hidle hfeature, fun hsize halign =>
      ⟨startFlip_flipping hidle hfeature hsize halign, startFlip_same hidle hfeature hsize halign, fun hnew h => ?_⟩⟩⟩
    have hgoes := startFlip_goes hidle hfeature hsize halign hnew h
    exact ⟨fun hdir => by subst hdir; exact hgoes, fun hdir => by subst hdir; exact hgoes⟩
  case step2 =>
    refine ⟨fun hdev hwait => ?_, fun hdev hdone => ?_, fun hhost => ⟨pageDropped_l1 s e, fun hlate => ?_, fun hnone hflip => ?_⟩⟩
    · exact goes_of_exists hengine rfl ((flipStep2_toDevice hopen hbusy hpage hdev).trans (if_neg (by simpa using hwait)))
    · exact goes_of_exists hengine rfl ((flipStep2_toDevice hopen hbusy hpage hdev).trans (if_pos (by simpa using hdone)))
    · exact goes_of_exists hengine rfl ((flipStep2_toHost hopen hbusy hpage hhost).trans (if_pos hlate))
    · have hsome : ¬ ((s.pageDropped e).lateBack (s.flip e).page).isSome = true := fun h => by
        rw [Option.isSome_iff_ne_none] at h
        exact h hnone
      have hturned : (s.pageDropped e).flipPage e 0 = turned (s.pageDropped e) 0 := by
        rw [flipPage, show (s.pageDropped e).flip e = f from hflip]
        rfl
      exact goes_of_exists hengine rfl ((flipStep2_toHost hopen hbusy hpage hhost).trans ((if_neg hsome).trans hturned))
  case readsHost =>
    refine ⟨s.hostRead a, rfl, ?_, ?_⟩
    · rw [hostRead_hostMem hhost]
      dsimp only [memBytes]
    · rw [hostRead_hostMem hhost]
      dsimp only
      exact foldl_unchanged State.cores (fun _ _ => l2Clean_cores ..) _ s
  case writes =>
    have hexec : exec w s = .next (s.hostWrite a bs w) := by rcases hw with rfl | rfl <;> rfl
    exact ⟨fun h => hexec.trans (congrArg _ (hostWrite_unreached hdevice h)), fun hreach =>
      ⟨fun key h => hexec.trans (congrArg _ (hostWrite_held hdevice hreach h)),
        fun h => hexec.trans (congrArg _ (hostWrite_served hdevice hreach h))⟩⟩
  case writesHost =>
    have hexec : exec w s = .next (s.hostWrite a bs w) := by rcases hw with rfl | rfl <;> rfl
    exact hexec.trans (congrArg _ (hostWrite_hostMem hhost))
  case answered =>
    intro l t u hothers
    have hengines : e ∈ [0, 1, 2, 3] := by simp; omega
    have hanswer : s.bisnpAnswer a bs = (flipAnswered l x.2 u e).unhold (2 ^ 40 + l) := by
      exact (bisnpAnswer_some hx).trans (congrArg (fun t : State => t.unhold (2 ^ 40 + l))
        (foldl_flipAnswered (s := u) (by decide) hengines hothers))
    refine ⟨fun h => congrArg _ (hanswer.trans ?_), fun hwait hgone => congrArg _ (hanswer.trans ?_)⟩
    · rw [flipAnswered_other h]
    · rw [hgone, flipAnswered_waiting hwait]
      rfl
  case peers =>
    intro n write goes
    refine ⟨fun h => goes_of_exists hpeer' rfl (peerAccess_unadmitted h), fun w hw hadmits hlow => ?_⟩
    intro kid home t
    refine ⟨fun key h => goes_of_exists hpeer' rfl (peerAccess_held hw hadmits hlow h), fun h hkid => ?_⟩
    have htaken : goes (t.peerTaken peer a n kid u) :=
      goes_of_exists hpeer' rfl ((peerAccess_taken hw hadmits hlow h).trans (by rw [hkid]))
    refine ⟨?_, ?_, ?_, ?_, ?_, ?_⟩
    · rintro bs rfl
      exact htaken
    · rintro rfl
      exact htaken
    · rintro o x rfl
      exact htaken
    · rintro x y rfl
      exact htaken
    · rintro inc rfl
      exact htaken
    · rintro thr rfl v
      exact ⟨fun hmet => (show goes (t.peerWait peer a kid thr) from htaken).trans (congrArg _ (if_pos (by simpa using hmet))),
        fun hlt hroom => (show goes (t.peerWait peer a kid thr) from htaken).trans
          (congrArg _ (if_neg (by simpa using ⟨hlt, hroom⟩)))⟩
  case refusal =>
    exact goes_of_exists (by simp [coreOk, hc, hpeer, show ¬ fwSlot < k from hk.not_gt]) rfl rfl

end State
end Sys2Proof.Machine
end

section
/-! PROOFS (14 R292, R293, R296, R297, R299, R300; 22 R395): a partition's commands, one equation for each outcome. -/

namespace Sys2Proof.Machine
namespace State

section
variable {s : State} {p : Nat}

/-! ### The outcome and the end of a command (14 R292) -/

theorem finish_inProgress {cmd : Nat} (stat : Nat) (h : (s.part p).commands.head? = some cmd) : s.finish p cmd stat =
    (s.updPart p fun z => { z with
      stat := BitVec.ofNat 8 stat, commands := (cmd + 8) :: (s.part p).commands.drop 1 }).post
        (.partitionCommandComplete p) := by
  obtain ⟨rest, hrest⟩ := List.head?_eq_some_iff.mp h
  simp only [finish, hrest, bne_self_eq_false, Bool.false_eq_true, if_false, List.drop_succ_cons, List.drop_zero]

theorem finish_unasked {cmd : Nat} (stat : Nat) (h : (s.part p).commands.head? ≠ some cmd) : s.finish p cmd stat = s := by
  unfold finish
  split
  next x rest hrest => exact if_pos (by simpa [hrest] using h)
  next => rfl

/-- A command's add to PCNT (14 R292). -/
def commandCounted (s : State) (p : Nat) : State := (s.physAdd (s.part p).pcnt 1).getD (s.setDevsts 7)

section
variable {cmd : Nat} (hcmd : 8 ≤ cmd)
include hcmd

theorem commandDone_last (h : (s.part p).commands = [cmd]) :
    s.commandDone p = (s.commandCounted p).updPart p fun z => { z with commands := [] } := by
  simp only [commandDone, h, if_neg hcmd.not_gt]
  unfold commandCounted
  cases s.physAdd (s.part p).pcnt 1 <;> rfl

theorem commandDone_next {n : Nat} {l : List Nat} (h : (s.part p).commands = cmd :: n :: l) : s.commandDone p =
    ((s.commandCounted p).updPart p fun z => { z with commands := n :: l }).post (pctlEvent p n) := by
  simp only [commandDone, h, if_neg hcmd.not_gt]
  unfold commandCounted
  cases s.physAdd (s.part p).pcnt 1 <;> rfl

end

/-! ### Coming to rest (14 R290, R291, R309) -/

/-- A stop has reached a partition whose context is not being cut: it is paused, and the partitions of its gangs stop. -/
def stopReached (s : State) (p : Nat) : State :=
  if (s.part p).stopping then (s.updPart p fun z => { z with stopping := false }).stopGangs p
  else if (s.part p).paused then s else (s.pausePart p (s.part p).drain).stopGangs p

/-- A stop that reaches a partition during a cut waits for it. -/
def cutAwaited (s : State) (p : Nat) : State := s.updPart p fun z => { z with stopping := true }

section
variable {h : Nat}

theorem bringToRest_cut (hcut : (s.ctx h).alm.inCut = true) : s.bringToRest p h = (s.cutAwaited p, false) := if_pos hcut

theorem bringToRest_drained (hcut : (s.ctx h).alm.inCut = false) (hdrained : (s.stopReached p).drained p = true) :
    s.bringToRest p h = ((s.stopReached p).capturePart p h, true) :=
  (if_neg (by simp [hcut])).trans (if_pos hdrained)

theorem bringToRest_busy (hcut : (s.ctx h).alm.inCut = false) (hbusy : (s.stopReached p).drained p = false) :
    s.bringToRest p h = (s.stopReached p, false) :=
  (if_neg (by simp [hcut])).trans (if_neg (ne_true_of_eq_false hbusy))

/-! ### STOP -/

theorem stopPart_offline (h : (s.part p).offline = true) : s.stopPart p = s.finish p 1 9 := if_pos h

section
variable (hon : (s.part p).offline = false)
include hon

theorem stopPart_idle (h : (s.part p).running = none) : s.stopPart p = s.finish p 1 1 := by
  simp only [stopPart, hon, h, Bool.false_eq_true, if_false]

variable (hrun : (s.part p).running = some h)
include hrun

theorem stopPart_running : s.stopPart p =
    let r := s.bringToRest p h
    if r.2 then (r.1.updPart p fun z => { z with running := none, inPlace := some h }).finish p 1 0 else r.1.post (.stop p) := by
  simp only [stopPart, hon, hrun, Bool.false_eq_true, if_false]

theorem stopPart_cut (hcut : (s.ctx h).alm.inCut = true) : s.stopPart p = (s.cutAwaited p).post (.stop p) := by
  rw [stopPart_running hon hrun, bringToRest_cut hcut]
  exact if_neg Bool.false_ne_true

variable (hcut : (s.ctx h).alm.inCut = false)
include hcut

theorem stopPart_drained (hdrained : (s.stopReached p).drained p = true) : s.stopPart p =
    (((s.stopReached p).capturePart p h).updPart p fun z => { z with running := none, inPlace := some h }).finish p 1 0 := by
  rw [stopPart_running hon hrun, bringToRest_drained hcut hdrained]
  simp only [if_true]

theorem stopPart_waits (hbusy : (s.stopReached p).drained p = false) : s.stopPart p = (s.stopReached p).post (.stop p) := by
  rw [stopPart_running hon hrun, bringToRest_busy hcut hbusy]
  exact if_neg Bool.false_ne_true

end

/-! ### SWAP (14 R296; 22 R395) -/

theorem swapPart_offline (h : (s.part p).offline = true) : s.swapPart p = s.finish p 2 9 := if_pos h

section
variable (hon : (s.part p).offline = false)
include hon

theorem swapPart_alone (h : (s.part p).standby = none) : s.swapPart p = s.finish p 2 1 := by
  simp only [swapPart, hon, h, Bool.false_eq_true, if_false]

variable {y : SavedPart} (hstandby : (s.part p).standby = some y)
include hstandby

theorem swapPart_damaged (hhurt : s.damage.shadows.contains p = true) : s.swapPart p =
    (State.updPart { s with damage := { s.damage with shadows := s.damage.shadows.filter (· != p) } } p fun z =>
      { z with standby := some (hurtStandby y) }).finish p 2 8 := by
  simp only [swapPart, hon, hstandby, hhurt, Bool.false_eq_true, if_false, if_true]

variable (hwhole : s.damage.shadows.contains p = false)
include hwhole

theorem swapPart_awaitsCut (hcut : (s.ctx y.ctx).alm.inCut = true) (hother : (s.part p).running ≠ some y.ctx) :
    s.swapPart p = s.post (.swap p) := by
  simp only [swapPart, hon, hstandby, hwhole, Bool.false_eq_true, if_false]
  exact if_pos (by simpa [hcut] using hother)

variable (hfree : (s.ctx y.ctx).alm.inCut = true → (s.part p).running = some y.ctx)
include hfree

theorem swapPart_free : s.swapPart p =
    match (s.part p).running with
    | none => (s.exchange p y).finish p 2 0
    | some h => if (s.bringToRest p h).2 then ((s.bringToRest p h).1.exchange p y).finish p 2 0
      else (s.bringToRest p h).1.post (.swap p) := by
  simp only [swapPart, hon, hstandby, hwhole, Bool.false_eq_true, if_false]
  refine (if_neg (by simpa using hfree)).trans ?_
  cases (s.part p).running <;> rfl

theorem swapPart_idle (hrun : (s.part p).running = none) : s.swapPart p = (s.exchange p y).finish p 2 0 := by
  rw [swapPart_free hon hstandby hwhole hfree, hrun]

variable (hrun : (s.part p).running = some h)
include hrun

theorem swapPart_running : s.swapPart p =
    if (s.bringToRest p h).2 then ((s.bringToRest p h).1.exchange p y).finish p 2 0
    else (s.bringToRest p h).1.post (.swap p) := by
  rw [swapPart_free hon hstandby hwhole hfree, hrun]

theorem swapPart_cut (hcut : (s.ctx h).alm.inCut = true) : s.swapPart p = (s.cutAwaited p).post (.swap p) := by
  rw [swapPart_running hon hstandby hwhole hfree hrun, bringToRest_cut hcut]
  exact if_neg Bool.false_ne_true

variable (hcut : (s.ctx h).alm.inCut = false)
include hcut

theorem swapPart_drained (hdrained : (s.stopReached p).drained p = true) :
    s.swapPart p = (((s.stopReached p).capturePart p h).exchange p y).finish p 2 0 := by
  rw [swapPart_running hon hstandby hwhole hfree hrun, bringToRest_drained hcut hdrained]
  simp only [if_true]

theorem swapPart_waits (hbusy : (s.stopReached p).drained p = false) : s.swapPart p = (s.stopReached p).post (.swap p) := by
  rw [swapPart_running hon hstandby hwhole hfree hrun, bringToRest_busy hcut hbusy]
  exact if_neg Bool.false_ne_true

end

/-! ### RESUME and ENTER (14 R293) -/

theorem resumePart_offline (h : (s.part p).offline = true) : s.resumePart p = s.finish p 3 9 := if_pos h

section
variable (hon : (s.part p).offline = false)
include hon

theorem resumePart_empty (h : (s.part p).inPlace = none) : s.resumePart p = s.finish p 3 1 := by
  simp only [resumePart, hon, h, Bool.false_eq_true, if_false]

theorem resumePart_eq (hplace : (s.part p).inPlace = some h) : s.resumePart p =
    if (s.ctx h).alm.inCut then s.post (.resume p) else
      (((s.eachCore p fun s c => s.readmitCore c).updPart p fun z => { z with running := some h, inPlace := none }).goPart
        p).finish p 3 0 := by
  simp only [resumePart, hon, hplace, Bool.false_eq_true, if_false]

end

theorem enterPart_offline (h : (s.part p).offline = true) : s.enterPart p = s.finish p 6 9 := if_pos h

section
variable (hon : (s.part p).offline = false)
include hon

theorem enterPart_occupied (h : (s.part p).running ≠ none ∨ ((s.part p).inPlace ≠ none ∧ (s.part p).standby ≠ none)) :
    s.enterPart p = s.finish p 6 11 :=
  (if_neg (by simp [hon])).trans (if_pos (by simpa [Option.isSome_iff_ne_none] using h))

variable (hrun : (s.part p).running = none) (hroom : (s.part p).inPlace = none ∨ (s.part p).standby = none)
include hrun hroom

theorem enterPart_room : s.enterPart p =
    let h := (s.part p).pctxh.toNat % 1024
    if !(s.ctx h).valid then s.finish p 6 12
    else if (s.ctx h).alm.inCut then s.post (.enter p)
    else
      let base := match (s.part p).inPlace with
        | some g => s.updPart p fun z => { z with standby := some (s.savePart p g), inPlace := none }
        | none => s
      let e := (base.clearPart p).installPart p { ctx := h, home := p, cores := [], units := [] }
      ((e.updPart p fun z => { z with running := some h }).goPart p).finish p 6 0 := by
  refine (if_neg (by simp [hon])).trans ((if_neg ?_).trans rfl)
  rcases hroom with h | h <;> simp [hrun, h]

end

/-! ### DEMOTE (14 R297) -/

theorem demotePart_offline (h : (s.part p).offline = true) : s.demotePart p = s.finish p 4 9 := if_pos h

section
variable (hon : (s.part p).offline = false)
include hon

theorem demotePart_alone (h : (s.part p).standby = none) : s.demotePart p = s.finish p 4 1 := by
  simp only [demotePart, hon, h, Bool.false_eq_true, if_false]

variable {y : SavedPart} (hstandby : (s.part p).standby = some y)
include hstandby

theorem demotePart_unwritten (h : s.writeImage (dieOfPart p) (s.part p).pimg.toNat (s.wholeStandby p y) = none) :
    s.demotePart p = s.finish p 4 10 := by
  simp only [demotePart, hon, hstandby, h, Bool.false_eq_true, if_false]

theorem demotePart_written {e : State}
    (h : s.writeImage (dieOfPart p) (s.part p).pimg.toNat (s.wholeStandby p y) = some e) : s.demotePart p =
      let left := (e.gatedCores p).foldl (fun (e : State) z => (e.updCc (24 * p + z.1) fun _ =>
        { ctx := ((s.part p).running.orElse fun _ => (s.part p).inPlace).getD 0 }).updCore (24 * p + z.1) fun z =>
          { z with gated := false }) e
      (left.updPart p fun z => { z with standby := none }).finish p 4 0 := by
  simp only [demotePart, hon, hstandby, h, Bool.false_eq_true, if_false]

end

end

end

end State
end Sys2Proof.Machine
end

section
/-! PROOFS (14 R297, R420; 22 R395, R404): LOAD, one equation for each check that fails and one for the image that passes
them all. -/

namespace Sys2Proof.Machine
namespace State

section
variable {s : State} {p : Nat}

theorem loadPart_offline (h : (s.part p).offline = true) : s.loadPart p = s.finish p 5 9 := if_pos h

/-- An image whose tables have been read is checked against them and brought in. -/
def loadChecked (s : State) (p h : Nat) (y : SavedPart) (t : Tables) : State :=
  if !tablesOk y t || !namesOk y t then s.finish p 5 5
  else if !y.vslots.all fun k => (s.slotsOf h).contains k then s.finish p 5 6
  else if !tablesFit y t then s.finish p 5 14
  else
    let e := s.updCtx h fun c => { c with images := c.images.map fun e =>
      (e.1, if e.2.bytes = y.bytes then { e.2 with loaded := true } else e.2) }
    (e.updPart p fun z => { z with standby := some { rebind y t with loaded := false } }).finish p 5 0

theorem loadChecked_unbound {h : Nat} {y : SavedPart} {t : Tables} (hbad : tablesOk y t = false ∨ namesOk y t = false) :
    s.loadChecked p h y t = s.finish p 5 5 := if_pos (by simpa using hbad)

section
variable {h : Nat} {y : SavedPart} {t : Tables} (htables : tablesOk y t = true) (hnames : namesOk y t = true)
include htables hnames

theorem loadChecked_notOwner (hown : ¬ ∀ k ∈ y.vslots, k ∈ s.slotsOf h) : s.loadChecked p h y t = s.finish p 5 6 :=
  (if_neg (by simp [htables, hnames])).trans (if_pos (by simpa using hown))

variable (hown : ∀ k ∈ y.vslots, k ∈ s.slotsOf h)
include hown

theorem loadChecked_tooBig (hfit : tablesFit y t = false) : s.loadChecked p h y t = s.finish p 5 14 :=
  (if_neg (by simp [htables, hnames])).trans ((if_neg (by simpa using hown)).trans (if_pos (by simp [hfit])))

theorem loadChecked_fits (hfit : tablesFit y t = true) : s.loadChecked p h y t =
    ((s.updCtx h fun c => { c with images := c.images.map fun e =>
      (e.1, if e.2.bytes = y.bytes then { e.2 with loaded := true } else e.2) }).updPart p fun z =>
        { z with standby := some { rebind y t with loaded := false } }).finish p 5 0 :=
  (if_neg (by simp [htables, hnames])).trans ((if_neg (by simpa using hown)).trans (if_neg (by simp [hfit])))

end

section
variable (hon : (s.part p).offline = false)
include hon

theorem loadPart_standby {y : SavedPart} (h : (s.part p).standby = some y) : s.loadPart p = s.finish p 5 2 :=
  (if_neg (by simp [hon])).trans (if_pos (by simp [h]))

variable (halone : (s.part p).standby = none)
include halone

theorem loadPart_noImage (h : s.imageAt (dieOfPart p) (s.part p).pimg.toNat = none) :
    s.loadPart p = (s.physRead (dieOfPart p) 0 (s.part p).pimg.toNat 64).1.finish p 5 3 := by
  simp only [loadPart, hon, halone, h, Bool.false_eq_true, if_false, Option.isSome_none]

section
variable {h : Nat} {y : SavedPart} (himage : s.imageAt (dieOfPart p) (s.part p).pimg.toNat = some (h, y))
include himage

theorem loadPart_noKey (hkey : s.kidBad (s.part p).pimg.toNat (s.ctx h).kidreg = true) : s.loadPart p = s.finish p 5 7 := by
  simp only [loadPart, hon, halone, himage, hkey, Bool.false_eq_true, if_false, if_true, Option.isSome_none]

variable (hkey : s.kidBad (s.part p).pimg.toNat (s.ctx h).kidreg = false)
include hkey

theorem loadPart_damaged (hhurt : s.imageHurt (s.part p).pimg.toNat y.bytes.length = true) :
    s.loadPart p = s.finish p 5 8 := by
  simp only [loadPart, hon, halone, himage, hkey, hhurt, Bool.false_eq_true, if_false, if_true, Option.isSome_none]

variable (hwhole : s.imageHurt (s.part p).pimg.toNat y.bytes.length = false)
include hwhole

theorem loadPart_read : s.loadPart p =
    let pa := (s.part p).pimg.toNat
    let kid := (s.ctx h).kidreg
    let e := (s.physRead (dieOfPart p) kid pa y.bytes.length).1
    if y.bytes.take 64 != imageHeader 1 (y.bytes.length / 64) y.units.length then e.finish p 5 3
    else if !matrixVersOk y then e.finish p 5 4
    else
      let r := e.loadTables (dieOfPart p) (s.part p).pbind.toNat pa kid y
      match r.2 with
      | none => r.1.finish p 5 5
      | some t => r.1.loadChecked p h y t := by
  simp only [loadPart, hon, halone, himage, hkey, hwhole, Bool.false_eq_true, if_false, Option.isSome_none]
  generalize (s.physRead _ _ _ _).1.loadTables _ _ _ _ _ = r
  obtain ⟨v, tb⟩ := r
  cases tb <;> rfl

theorem loadPart_badHeader (hhead : ¬ y.bytes.take 64 = imageHeader 1 (y.bytes.length / 64) y.units.length) :
    s.loadPart p = (s.physRead (dieOfPart p) (s.ctx h).kidreg (s.part p).pimg.toNat y.bytes.length).1.finish p 5 3 :=
  (loadPart_read hon halone himage hkey hwhole).trans (if_pos (by simpa using hhead))

variable (hhead : y.bytes.take 64 = imageHeader 1 (y.bytes.length / 64) y.units.length)
include hhead

theorem loadPart_badMatrix (hver : matrixVersOk y = false) :
    s.loadPart p = (s.physRead (dieOfPart p) (s.ctx h).kidreg (s.part p).pimg.toNat y.bytes.length).1.finish p 5 4 :=
  (loadPart_read hon halone himage hkey hwhole).trans ((if_neg (by simpa using hhead)).trans (if_pos (by simp [hver])))

variable (hver : matrixVersOk y = true) {v : State}
include hver

theorem loadPart_noTables
    (htables : (s.physRead (dieOfPart p) (s.ctx h).kidreg (s.part p).pimg.toNat y.bytes.length).1.loadTables (dieOfPart p)
      (s.part p).pbind.toNat (s.part p).pimg.toNat (s.ctx h).kidreg y = (v, none)) : s.loadPart p = v.finish p 5 5 := by
  refine (loadPart_read hon halone himage hkey hwhole).trans
    ((if_neg (by simpa using hhead)).trans ((if_neg (by simp [hver])).trans ?_))
  simp only [htables]

theorem loadPart_tables {t : Tables}
    (htables : (s.physRead (dieOfPart p) (s.ctx h).kidreg (s.part p).pimg.toNat y.bytes.length).1.loadTables (dieOfPart p)
      (s.part p).pbind.toNat (s.part p).pimg.toNat (s.ctx h).kidreg y = (v, some t)) :
    s.loadPart p = v.loadChecked p h y t := by
  refine (loadPart_read hon halone himage hkey hwhole).trans
    ((if_neg (by simpa using hhead)).trans ((if_neg (by simp [hver])).trans ?_))
  simp only [htables]

end

end

end

end State
end Sys2Proof.Machine
end

section
/-! PROOFS (02 R41; 14 R299, R300): the eviction of a parked unit, and the test of an evicted unit's conditions. -/

namespace Sys2Proof.Machine
namespace State

section
variable {s : State} {p u : Nat}

/-! ### Eviction -/

theorem evictUnit_gone (h : (s.part p).units.find u = none) : s.evictUnit p u = s := by
  simp only [evictUnit, h]

/-- A unit whose state has been written leaves its cores, and is known by a new key. -/
def unitLeaves (w : State) (p u : Nat) (r : UnitRec) : State × Evicted :=
  let ts := w.unitTeams p u
  let e := ts.foldl (fun (e : State) t => ((e.teamWarps t.1 t.2.1).map Prod.fst).foldl (fun e k => e.restWarp t.1 k) e) w
  let e' := ts.foldl (fun (e : State) t => e.removeTeam r t.1 t.2.1 t.2.2) e
  let key := (e'.part p).nextUnit
  let ev : Evicted := { key := key, unit := r, teams := ts.map fun t => e.saveTeam p r t.1 t.2.1 t.2.2 }
  (e'.updPart p fun z => { z with units := z.units.del u, nextUnit := key + 1, evicted := z.evicted ++ [ev] }, ev)

/-- Its agent waits for its conditions, and polls them after `n` cycles. -/
def evictionWaits (s : State) (p n : Nat) (ev : Evicted) : State :=
  ((s.fresh.2.parkEvicted p ev).postAfter (24 * p) n (.evictionWakePoll p ev.key)).postAll
    ((coresOf p).map fun c => .coreAdmission c)

section
variable {r : UnitRec} (hunit : (s.part p).units.find u = some r)
include hunit

theorem evictUnit_stays (h : ¬ ((s.part p).paused = false ∧ (s.part p).running = some r.ctx ∧ s.evictable p u = true)) :
    s.evictUnit p u = s := by
  simp only [evictUnit, hunit]
  refine if_pos ?_
  simp only [Bool.or_eq_true, bne_iff_ne, Bool.not_eq_true']
  by_contra hno
  simp only [not_or, Bool.not_eq_true, Bool.not_eq_false, not_not] at hno
  exact h ⟨hno.1.1, hno.1.2, hno.2⟩

variable (hmay : (s.part p).paused = false ∧ (s.part p).running = some r.ctx ∧ s.evictable p u = true)
include hmay

theorem evictUnit_may : s.evictUnit p u =
    if s.budgetOut (dieOfPart p) (copyBudget (24 * p)) then
      s.hold (budgetKey (dieOfPart p) (copyBudget (24 * p))) true (.parkedEviction p u)
    else match s.writeEvicted (24 * p) r.ctx with
    | none => s
    | some w => (w.unitLeaves p u r).1.evictionWaits p ((w.unitLeaves p u r).1.fresh.1.toNat % 65536 + 1)
        (w.unitLeaves p u r).2 := by
  obtain ⟨hpaused, hrun, hparked⟩ := hmay
  simp only [evictUnit, hunit]
  refine (if_neg (by simp [hpaused, hrun, hparked])).trans ?_
  split
  · rfl
  · cases s.writeEvicted (24 * p) r.ctx <;> rfl

theorem evictUnit_held (hout : s.budgetOut (dieOfPart p) (copyBudget (24 * p)) = true) :
    s.evictUnit p u = s.hold (budgetKey (dieOfPart p) (copyBudget (24 * p))) true (.parkedEviction p u) :=
  (evictUnit_may hunit hmay).trans (if_pos hout)

theorem evictUnit_leaves (hin : s.budgetOut (dieOfPart p) (copyBudget (24 * p)) = false) :
    ∃ n, 1 ≤ n ∧ n ≤ 65536 ∧ s.evictUnit p u = match s.writeEvicted (24 * p) r.ctx with
      | none => s
      | some w => (w.unitLeaves p u r).1.evictionWaits p n (w.unitLeaves p u r).2 := by
  rw [evictUnit_may hunit hmay, if_neg (by simp [hin])]
  cases s.writeEvicted (24 * p) r.ctx with
  | none => exact ⟨1, by decide, by decide, rfl⟩
  | some w => exact ⟨_, Nat.succ_pos _, Nat.mod_lt _ (by decide), rfl⟩

end

/-! ### The test of the conditions -/

theorem pollEvicted_gone (h : ((s.part p).evicted.find? fun z => z.key = u) = none) : s.pollEvicted p u = s := by
  simp only [pollEvicted, h]

section
variable {ev : Evicted} (hev : ((s.part p).evicted.find? fun z => z.key = u) = some ev)
include hev

theorem pollEvicted_again (h : ev.met = true) : s.pollEvicted p u = s := by
  simp only [pollEvicted, hev, h, if_true]

variable (hopen : ev.met = false)
include hopen

theorem pollEvicted_met (h : s.evictedMet (dieOfPart p) ev = true) : s.pollEvicted p u =
    let e := (s.updPart p fun z => { z with evicted := z.evicted.map fun e => if e.key = u then { e with met := true } else e })
      |>.dropWaiters (24 * p) (agentSlot 3 (32 * u + p))
    e.postAll (((e.parts.filter fun q => q.2.running = some ev.unit.ctx).flatMap fun q => coresOf q.1).map fun c =>
      .coreAdmission c) := by
  simp only [pollEvicted, hev, hopen, h, Bool.false_eq_true, if_false, if_true, List.flatMap_map]

theorem pollEvicted_unmet (h : s.evictedMet (dieOfPart p) ev = false) : ∃ n, 1 ≤ n ∧ n ≤ 65536 ∧
    s.pollEvicted p u = (s.fresh.2).postAfter (24 * p) n (.evictionWakePoll p u) := by
  refine ⟨s.fresh.1.toNat % 65536 + 1, Nat.succ_pos _, Nat.mod_lt _ (by decide), ?_⟩
  simp only [pollEvicted, hev, hopen, h, Bool.false_eq_true, if_false]

end

end

end State
end Sys2Proof.Machine
end

section
/-! PROOFS (14 R292, R293, R296, R297, R299, R300, R420; 22 R395): the events of a partition. -/

namespace Sys2Proof.Machine
namespace State

/-- Settles O47: each command by what stops it and by what it does where nothing does (`bringToRest_drained`,
`loadPart_read`, `enterPart_room`), its end by the command behind it, and the eviction of a unit by its key
(`evictUnit_may`, `pollEvicted_unmet`). -/
theorem partitionEvents : Obligations.PartitionEvents := by
  intro s p u y r ev hp x die done set rest cutWaits free
  have hthere : ¬ (!partOk p) = true := by simp [partOk, hp]
  refine ⟨fun cmd stat h => finish_inProgress stat h, fun cmd stat h => finish_unasked stat h, fun hoff e cmd he => ?offline,
    fun hon => ⟨fun hidle => goes_of_exists hthere rfl (stopPart_idle hon hidle), fun h e hrun hrest => ?rests,
      fun h hrun hcut => ⟨goes_of_exists hthere rfl (stopPart_cut hon hrun hcut),
        fun hy hfree => goes_of_exists hthere rfl (swapPart_cut hon hy hfree.1 hfree.2 hrun hcut)⟩,
      fun hy hhurt => goes_of_exists hthere rfl (swapPart_damaged hon hy hhurt),
      fun hy hwhole hcut hother => goes_of_exists hthere rfl (swapPart_awaitsCut hon hy hwhole hcut hother),
      fun halone => ⟨goes_of_exists hthere rfl (swapPart_alone hon halone),
        goes_of_exists hthere rfl (demotePart_alone hon halone)⟩, fun hy => ?standby,
      fun hempty => goes_of_exists hthere rfl (resumePart_empty hon hempty), fun h hplace => ?resume,
      fun halone => ?load, ?enter⟩,
    goes_of_exists hthere rfl rfl, fun cmd more hcommands hcmd => ?completes,
    fun hgone => goes_of_exists hthere rfl (evictUnit_gone hgone), fun hunit => ?evicts,
    fun hgone => goes_of_exists hthere rfl (pollEvicted_gone hgone), fun hev => ?polls⟩
  case offline =>
    simp only [List.mem_cons, Prod.mk.injEq, List.not_mem_nil, or_false] at he
    rcases he with ⟨rfl, rfl⟩ | ⟨rfl, rfl⟩ | ⟨rfl, rfl⟩ | ⟨rfl, rfl⟩ | ⟨rfl, rfl⟩ | ⟨rfl, rfl⟩
    · exact goes_of_exists hthere rfl (stopPart_offline hoff)
    · exact goes_of_exists hthere rfl (swapPart_offline hoff)
    · exact goes_of_exists hthere rfl (resumePart_offline hoff)
    · exact goes_of_exists hthere rfl (demotePart_offline hoff)
    · exact goes_of_exists hthere rfl (loadPart_offline hoff)
    · exact goes_of_exists hthere rfl (enterPart_offline hoff)
  case rests =>
    obtain ⟨hcut, rfl⟩ := hrest
    exact ⟨fun hdrained => goes_of_exists hthere rfl (stopPart_drained hon hrun hcut hdrained),
      fun hbusy => goes_of_exists hthere rfl (stopPart_waits hon hrun hcut hbusy),
      fun hy hfree hdrained => goes_of_exists hthere rfl (swapPart_drained hon hy hfree.1 hfree.2 hrun hcut hdrained),
      fun hy hfree hbusy => goes_of_exists hthere rfl (swapPart_waits hon hy hfree.1 hfree.2 hrun hcut hbusy)⟩
  case standby =>
    exact ⟨fun hidle hfree => goes_of_exists hthere rfl (swapPart_idle hon hy hfree.1 hfree.2 hidle),
      fun hno => goes_of_exists hthere rfl (demotePart_unwritten hon hy hno),
      fun e he => goes_of_exists hthere rfl (demotePart_written hon hy he),
      goes_of_exists hthere rfl (loadPart_standby hon hy)⟩
  case resume =>
    exact ⟨fun hcut => goes_of_exists hthere rfl ((resumePart_eq hon hplace).trans (if_pos hcut)),
      fun hcut => goes_of_exists hthere rfl ((resumePart_eq hon hplace).trans (if_neg (ne_true_of_eq_false hcut)))⟩
  case load =>
    intro pa
    refine ⟨fun hnone => goes_of_exists hthere rfl (loadPart_noImage hon halone hnone), fun h himage => ?_⟩
    intro kid
    refine ⟨fun hkey => goes_of_exists hthere rfl (loadPart_noKey hon halone himage hkey),
      fun hkey hhurt => goes_of_exists hthere rfl (loadPart_damaged hon halone himage hkey hhurt), fun hkey hwhole => ?_⟩
    intro e good
    refine ⟨fun hbad => goes_of_exists hthere rfl (loadPart_badHeader hon halone himage hkey hwhole hbad),
      fun hgood hver => goes_of_exists hthere rfl (loadPart_badMatrix hon halone himage hkey hwhole hgood hver),
      fun hgood hver v tb htables => ⟨?_, ?_⟩⟩
    · rintro rfl
      exact goes_of_exists hthere rfl (loadPart_noTables hon halone himage hkey hwhole hgood hver htables)
    · rintro t rfl
      have hload : s.Goes (.load p) (v.loadChecked p h y t) :=
        goes_of_exists hthere rfl (loadPart_tables hon halone himage hkey hwhole hgood hver htables)
      exact ⟨fun hbad => hload.trans (congrArg _ (loadChecked_unbound hbad)), fun hbound hnamed =>
        ⟨fun hown => hload.trans (congrArg _ (loadChecked_notOwner hbound hnamed hown)),
          fun hown hfit => hload.trans (congrArg _ (loadChecked_tooBig hbound hnamed hown hfit)),
          fun hown hfit => hload.trans (congrArg _ (loadChecked_fits hbound hnamed hown hfit))⟩⟩
  case enter =>
    intro h base
    refine ⟨fun hfull => goes_of_exists hthere rfl (enterPart_occupied hon hfull), fun hidle hroom => ?_⟩
    have henter := enterPart_room hon hidle hroom
    refine ⟨fun hno => goes_of_exists hthere rfl (henter.trans (if_pos (by simpa using hno))), fun hvalid hcut =>
        goes_of_exists hthere rfl (henter.trans ((if_neg (by simpa using hvalid)).trans (if_pos hcut))),
      fun hvalid hcut => goes_of_exists hthere rfl
        (henter.trans ((if_neg (by simpa using hvalid)).trans ((if_neg (ne_true_of_eq_false hcut)).trans ?_)))⟩
    show _ = done _ 6 0
    cases hplace : x.inPlace with
    | none => simp only [base, hplace]; rfl
    | some k => simp only [base, hplace]; rfl
  case completes =>
    refine ⟨?_, ?_⟩
    · rintro rfl
      exact goes_of_exists hthere rfl (commandDone_last hcmd hcommands)
    · rintro n l rfl
      exact goes_of_exists hthere rfl (commandDone_next hcmd hcommands)
  case evicts =>
    refine ⟨fun hno => goes_of_exists hthere rfl (evictUnit_stays hunit hno),
      fun hmay hout => goes_of_exists hthere rfl (evictUnit_held hunit hmay hout), fun hmay hin => ?_⟩
    obtain ⟨n, hpos, hle, hleaves⟩ := evictUnit_leaves hunit hmay hin
    exact ⟨n, hpos, hle, goes_of_exists hthere rfl hleaves⟩
  case polls =>
    refine ⟨fun hagain => goes_of_exists hthere rfl (pollEvicted_again hev hagain),
      fun hopen hmet => goes_of_exists hthere rfl (pollEvicted_met hev hopen hmet), fun hopen hunmet => ?_⟩
    obtain ⟨n, hpos, hle, hpoll⟩ := pollEvicted_unmet hev hopen hunmet
    exact ⟨n, hpos, hle, goes_of_exists hthere rfl hpoll⟩

end State
end Sys2Proof.Machine
end

section
/-! PROOFS (20 R370; 23 R415): fault records leave every partition as it is. -/

namespace Sys2Proof.Machine
namespace State

theorem parts_of_memStep {s t : State} (h : MemStep s t) : t.parts = s.parts := by rw [h.device]

theorem wakeWith_parts (s : State) (c k : Nat) (v : DWord) : (s.wakeWith c k v).parts = s.parts := by
  unfold wakeWith
  split
  · rfl
  · split
    · rfl
    · split
      · split
        · exact (parts_of_memStep (acquireAt_memStep ..)).trans (updWarp_parts ..)
        · rfl
      · rfl
theorem ctrNotify_parts (s : State) (d : Nat) (x : CtrHome) (v : DWord) : (s.ctrNotify d x v).parts = s.parts := by
  refine (foldl_unchanged parts (fun _ _ => wakeWith_parts ..) _ _).trans ?_
  dsimp only
  split
  · cases x <;> rfl
  · rfl
theorem ctrWrite_parts (s : State) (d h : Nat) (v : DWord) (x : CtrHome) : (s.ctrWrite d h v x).parts = s.parts := by
  cases x with
  | file c n => rfl
  | mem pa kid =>
    unfold ctrWrite
    dsimp only
    split
    · exact parts_of_memStep (targetWrite_memStep ..)
    · exact parts_of_memStep ((MemStep.ite (keepPage_memStep ..) (.refl s)).trans
        ((homePut_memStep ..).trans (markCtrPage_memStep ..)))
theorem ctrAdd_parts {s t : State} {d h : Nat} {home : CtrHome} {inc old : DWord} (e : s.ctrAdd d h home inc = some (old, t)) :
    t.parts = s.parts := by
  unfold ctrAdd at e
  dsimp only at e
  split at e
  · cases e
  · obtain ⟨-, rfl⟩ := Prod.mk.inj (Option.some.inj e)
    rw [ctrNotify_parts, ctrWrite_parts]
theorem noteAdd_parts (s : State) (d h : Nat) (va : DWord) (inc : Word) : (s.noteAdd d h va inc).parts = s.parts := by
  unfold noteAdd
  split
  · rfl
  · split
    · unfold makeAdd
      split
      · dsimp only [newReq]
        exact (parts_of_memStep (hold_memStep ..)).trans rfl
      · split
        next e => exact ctrAdd_parts e
        next => rfl
    · rfl
theorem lsaWrite_parts (s : State) (d h : Nat) (rec : BitVec 128) : (s.lsaWrite d h rec).parts = s.parts := by
  unfold lsaWrite
  dsimp only
  split
  · rfl
  · split
    next e => exact (updCtx_parts ..).trans (parts_of_memStep (vaWrite_memStep e))
    next => rfl
theorem faultRecord_parts (s : State) (h code core slot : Nat) (x : BitVec 96) :
    (s.faultRecord h code core slot x).parts = s.parts :=
  (noteAdd_parts ..).trans (lsaWrite_parts ..)
theorem slotError_parts (s : State) (core h k : Nat) : (s.slotError core h k).parts = s.parts := faultRecord_parts ..

end State
end Sys2Proof.Machine
end

section
/-! PROOFS (14 R301 to R304): closes, the beginning of a cut, its replies, and the set that it closes. -/

namespace Sys2Proof.Machine
namespace State

section
variable {s : State} {h : Nat}

/-! ### Closes that are due (14 R301, R302; 22 R397) -/

theorem almPeriod_read (hread : (s.ctx h).alm.acbRead = true) : s.almPeriod h = (s, acbPeriod (s.ctx h).alm.acb) :=
  if_pos hread

section
variable (hunread : (s.ctx h).alm.acbRead = false)
include hunread

theorem almPeriod_error {f : AccFail} (hblock : s.readBlock (s.almDie h) h kLoad (s.ctx h).almcb = .error f) :
    s.almPeriod h = (s, 0) := by
  simp only [almPeriod, hunread, hblock, Bool.false_eq_true, if_false]

theorem almPeriod_ok {r : State} {b : Block} (hblock : s.readBlock (s.almDie h) h kLoad (s.ctx h).almcb = .ok (r, b)) :
    s.almPeriod h = (r, acbPeriod b) := by
  simp only [almPeriod, hunread, hblock, Bool.false_eq_true, if_false]

end

section
variable {r : State} {n : Nat} (hperiod : s.almPeriod h = (r, n))
include hperiod

theorem periodDue_asks (hn : n ≠ 0) (hdue : n * 2 ^ 16 ≤ (s.ctx h).alm.elapsed) : s.periodDue h =
    (r.updAlm h fun z => { z with
      due := true, elapsed := 0
      late := if (s.ctx h).alm.streaming.isSome then min ((s.ctx h).alm.late + 1) 65535 else (s.ctx h).alm.late }).post
        (.cut h) := by
  simp only [periodDue, hperiod]
  refine if_neg ?_
  simp only [Bool.or_eq_true, decide_eq_true_eq, not_or]
  omega

theorem periodDue_early (hno : n = 0 ∨ (s.ctx h).alm.elapsed < n * 2 ^ 16) : s.periodDue h = r := by
  simp only [periodDue, hperiod]
  refine if_pos ?_
  simp only [Bool.or_eq_true, decide_eq_true_eq]
  omega

end

/-! ### The beginning of a cut (14 R301, R302) -/

/-- The partitions that run a context. -/
def runningParts (s : State) (h : Nat) : List Nat := (s.parts.filter fun e => e.2.running = some h).map Prod.fst

/-- A close that closes nothing: what waits for it goes on. -/
def closeIdle (s : State) (h : Nat) (waiting : List (Option (DWord × Word))) : State :=
  (s.updAlm h fun a => { a with due := false, waiting := [] }).ckptAdds h (waiting.filterMap id)

theorem beginCut_notNow (hno : (s.ctx h).alm.inCut = true ∨ (s.ctx h).alm.streaming ≠ none ∨
    ¬ ((s.ctx h).alm.due = true ∨ (s.ctx h).alm.waiting ≠ [])) : s.beginCut h = s := by
  refine if_pos ?_
  simp only [Bool.or_eq_true, Option.isSome_iff_ne_none, Bool.not_eq_true', Bool.or_eq_false_iff, Bool.not_eq_false',
    List.isEmpty_iff]
  rcases hno with hcut | hstream | hask
  · exact .inl (.inl hcut)
  · exact .inl (.inr hstream)
  · exact .inr (by simpa using hask)

section
variable (hcut : (s.ctx h).alm.inCut = false) (hstream : (s.ctx h).alm.streaming = none)
  (hask : (s.ctx h).alm.due = true ∨ (s.ctx h).alm.waiting ≠ [])
include hcut hstream hask

theorem beginCut_asked : s.beginCut h =
    if (s.runningParts h).any fun q => (s.part q).paused then s.post (.cut h)
    else if (s.ctx h).almcb = 0#64 || !(s.ctx h).hasFeat featAlm then s.closeIdle h (s.ctx h).alm.waiting else
    match s.readBlock (s.almDie h) h kLoad (s.ctx h).almcb with
    | .error _ => (s.updAlm h fun a => { a with due := false, nocb := true, elapsed := 0 }).faultRecord h 0x42 (s.almCore h) 0 0
    | .ok (r, b) =>
      let e := r.updAlm h fun a => { a with acb := b, acbRead := true, elapsed := 0 }
      if !acbEn b then e.closeIdle h (s.ctx h).alm.waiting else
      let e := e.updAlm h fun a => { a with inCut := true, cutting := s.runningParts h, cutParts := [] }
      ((s.runningParts h).foldl (fun (e : State) q => e.pausePart q false) e).postAll
        (if (s.runningParts h).isEmpty then [.cutReply h 32] else (s.runningParts h).map fun q => .cutReply h q) := by
  have hnow : ¬ ((s.ctx h).alm.inCut || (s.ctx h).alm.streaming.isSome ||
      !((s.ctx h).alm.due || !(s.ctx h).alm.waiting.isEmpty)) = true := by
    simpa [hcut, hstream, or_iff_not_imp_left] using hask
  exact (if_neg hnow).trans rfl

theorem beginCut_paused (hpaused : ∃ q ∈ s.runningParts h, (s.part q).paused = true) : s.beginCut h = s.post (.cut h) :=
  (beginCut_asked hcut hstream hask).trans (if_pos (List.any_eq_true.mpr hpaused))

variable (hruns : ∀ q ∈ s.runningParts h, (s.part q).paused = false)
include hruns

theorem beginCut_off (hoff : (s.ctx h).almcb = 0#64 ∨ (s.ctx h).hasFeat featAlm = false) :
    s.beginCut h = s.closeIdle h (s.ctx h).alm.waiting :=
  (beginCut_asked hcut hstream hask).trans ((if_neg (by simpa using hruns)).trans (if_pos (by simpa using hoff)))

variable (hblock : (s.ctx h).almcb ≠ 0#64) (hfeature : (s.ctx h).hasFeat featAlm = true)
include hblock hfeature

theorem beginCut_on : s.beginCut h =
    match s.readBlock (s.almDie h) h kLoad (s.ctx h).almcb with
    | .error _ => (s.updAlm h fun a => { a with due := false, nocb := true, elapsed := 0 }).faultRecord h 0x42 (s.almCore h) 0 0
    | .ok (r, b) =>
      let e := r.updAlm h fun a => { a with acb := b, acbRead := true, elapsed := 0 }
      if !acbEn b then e.closeIdle h (s.ctx h).alm.waiting else
      let e := e.updAlm h fun a => { a with inCut := true, cutting := s.runningParts h, cutParts := [] }
      ((s.runningParts h).foldl (fun (e : State) q => e.pausePart q false) e).postAll
        (if (s.runningParts h).isEmpty then [.cutReply h 32] else (s.runningParts h).map fun q => .cutReply h q) :=
  (beginCut_asked hcut hstream hask).trans
    ((if_neg (by simpa using hruns)).trans ((if_neg (by simp [hblock, hfeature])).trans rfl))

theorem beginCut_unread {f : AccFail} (hread : s.readBlock (s.almDie h) h kLoad (s.ctx h).almcb = .error f) : s.beginCut h =
    (s.updAlm h fun a => { a with due := false, nocb := true, elapsed := 0 }).faultRecord h 0x42 (s.almCore h) 0 0 := by
  rw [beginCut_on hcut hstream hask hruns hblock hfeature, hread]

section
variable {r : State} {b : Block} (hread : s.readBlock (s.almDie h) h kLoad (s.ctx h).almcb = .ok (r, b))
include hread

theorem beginCut_disabled (hen : b.getLsbD 0 = false) : s.beginCut h =
    (r.updAlm h fun a => { a with acb := b, acbRead := true, elapsed := 0 }).closeIdle h (s.ctx h).alm.waiting := by
  rw [beginCut_on hcut hstream hask hruns hblock hfeature, hread]
  exact if_pos (by rw [acbEn, hen]; rfl)

theorem beginCut_pauses (hen : b.getLsbD 0 = true) : s.beginCut h =
    let e := (r.updAlm h fun a => { a with acb := b, acbRead := true, elapsed := 0 }).updAlm h fun a =>
      { a with inCut := true, cutting := s.runningParts h, cutParts := [] }
    ((s.runningParts h).foldl (fun (e : State) q => e.pausePart q false) e).postAll
      (if s.runningParts h = [] then [.cutReply h 32] else (s.runningParts h).map fun q => .cutReply h q) := by
  rw [beginCut_on hcut hstream hask hruns hblock hfeature, hread]
  simp only [List.isEmpty_iff]
  exact if_neg (by rw [acbEn, hen]; decide)

end

end

/-! ### The replies (14 R302) -/

section
variable {p : Nat}

theorem cutReplyFrom_late (hcut : (s.ctx h).alm.inCut = false) : s.cutReplyFrom h p = s := if_pos (by simp [hcut])

section
variable (hcut : (s.ctx h).alm.inCut = true)
include hcut

theorem cutReplyFrom_none (hnone : (s.ctx h).alm.cutting = []) : s.cutReplyFrom h p = s.finishCut h :=
  (if_neg (by simp [hcut])).trans (if_pos (by simp [hnone]))

theorem cutReplyFrom_again (hsome : (s.ctx h).alm.cutting ≠ []) (hp : p ∉ (s.ctx h).alm.cutting) : s.cutReplyFrom h p = s :=
  (if_neg (by simp [hcut])).trans ((if_neg (by simpa using hsome)).trans (if_pos (by simpa using hp)))

variable (hp : p ∈ (s.ctx h).alm.cutting)
include hp

theorem cutReplyFrom_awaited : s.cutReplyFrom h p =
    if !s.drained p then s.post (.cutReply h p) else
      let rest := (s.ctx h).alm.cutting.filter (· != p)
      let e := (s.settlePart p).updAlm h fun a =>
        { a with cutting := rest, cutParts := a.cutParts.set p ((s.settlePart p).savePart p h) }
      if rest.isEmpty then e.finishCut h else e :=
  (if_neg (by simp [hcut])).trans ((if_neg (by simpa using List.ne_nil_of_mem hp)).trans ((if_neg (by simpa using hp)).trans rfl))

theorem cutReplyFrom_waits (hbusy : s.drained p = false) : s.cutReplyFrom h p = s.post (.cutReply h p) :=
  (cutReplyFrom_awaited hcut hp).trans (if_pos (by simp [hbusy]))

variable (hdrained : s.drained p = true)
include hdrained

/-- The context's state on a partition has been copied. -/
theorem cutReplyFrom_replies : s.cutReplyFrom h p =
    let e := (s.settlePart p).updAlm h fun a =>
      { a with
        cutting := (s.ctx h).alm.cutting.filter (· != p), cutParts := a.cutParts.set p ((s.settlePart p).savePart p h) }
    if ∀ q ∈ (s.ctx h).alm.cutting, q = p then e.finishCut h else e := by
  refine (cutReplyFrom_awaited hcut hp).trans ((if_neg (by simp [hdrained])).trans ?_)
  simp only [List.isEmpty_iff, List.filter_eq_nil_iff, bne_iff_ne, not_not]

end

end

/-! ### The set that is closed (14 R302, R304, R309) -/

/-- The slots of a context whose state is damaged. -/
def hurtSlots (s : State) (h : Nat) : List Nat := s.damage.slots.filter fun k => (s.vslot k).owner = some h

/-- They are lost as a cut finds them (22 R400). -/
def hurtSlotsLost (s : State) (h : Nat) : State := (s.hurtSlots h).foldl (fun (s : State) k => s.slotError (s.almCore h) h k) s

/-- A partition after a cut: the standby of the context is no longer marked. -/
def standbyUnmarked (h : Nat) (z : Part) : Part :=
  { z with standby := z.standby.map fun y => if y.ctx = h then { y with cores := y.cores.map fun c => (c.1, unmarked c.2) } else y }

theorem alm_of_ctxs {e t : State} {f : Almanac → Almanac} (hctxs : e.ctxs = (t.updAlm h f).ctxs) :
    (e.ctx h).alm = f (t.ctx h).alm := by
  have hctx : e.ctx h = (t.updAlm h f).ctx h := by rw [ctx, hctxs, ← ctx]
  rw [hctx, ctx_updAlm, if_pos rfl]

/-- The interval `i` is that of the set which the cut of a context closes, and marking starts afresh in `e`. -/
structure CutTaken (s : State) (h : Nat) (e : State) (i : Interval) : Prop where
  parts : e.parts = (s.hurtSlotsLost h).parts.map fun z => (z.1, standbyUnmarked h z.2)
  mem : e.mem = (s.hurtSlotsLost h).mem
  marks : ∃ n, e.ctxs = ((s.hurtSlotsLost h).updAlm h fun y => { y with
    streaming := some i, dirty := [], dirtyCtr := [], pre := [], waiting := [], carried := [], due := false, inCut := false
    cutting := [], cutParts := [], staged := n }).ctxs
  seq : i.seq = (s.ctx h).alm.nextSeq
  closed : i.closed = (s.ctx h).alm.dirty ++ (s.ctx h).alm.dirtyCtr.map (2 ^ 40 + ·)
  owed : i.owed = (s.ctx h).alm.carried ++ (s.ctx h).alm.waiting.filterMap id
  hurt : i.hurt = !(s.hurtSlots h).isEmpty

theorem finishCut_takes (s : State) (h : Nat) : ∃ e i, s.finishCut h =
    (State.writeStaging (((e.parts.filter fun z => z.2.running = some h && z.2.paused && !z.2.stopping).map Prod.fst).foldl
      (fun (e : State) q => e.startPart q) e) h).post (.intervalDurable h) ∧ s.CutTaken h e i := by
  unfold finishCut
  dsimp only
  exact ⟨_, _, rfl, rfl, rfl, ⟨_, rfl⟩, rfl, rfl, rfl, rfl⟩

/-- A set of whose context no partition runs goes straight to its staging area. -/
theorem finishCut_unheld (hnone : s.runningParts h = []) :
    ∃ e i, s.finishCut h = (e.writeStaging h).post (.intervalDurable h) ∧ s.CutTaken h e i := by
  obtain ⟨e, i, hfinish, htaken⟩ := finishCut_takes s h
  have hparts : (s.hurtSlotsLost h).parts = s.parts := foldl_unchanged State.parts (fun _ _ => slotError_parts ..) _ s
  have hgoes : (e.parts.filter fun z => z.2.running = some h && z.2.paused && !z.2.stopping) = [] := by
    rw [htaken.parts, hparts]
    simp only [runningParts, List.map_eq_nil_iff, List.filter_eq_nil_iff] at hnone
    simp only [List.filter_eq_nil_iff, List.forall_mem_map]
    intro z hz hgo
    simp only [Bool.and_eq_true] at hgo
    exact hnone z hz hgo.1.1
  rw [hgoes] at hfinish
  exact ⟨e, i, hfinish, htaken⟩

section
variable {e : State} {i : Interval} (htaken : s.CutTaken h e i)
include htaken

theorem CutTaken.alm : ∃ n, (e.ctx h).alm = { ((s.hurtSlotsLost h).ctx h).alm with
    streaming := some i, dirty := [], dirtyCtr := [], pre := [], waiting := [], carried := [], due := false, inCut := false
    cutting := [], cutParts := [], staged := n } := by
  obtain ⟨n, hctxs⟩ := htaken.marks
  exact ⟨n, alm_of_ctxs hctxs⟩

theorem CutTaken.hurt_iff : i.hurt = true ↔ ∃ k ∈ s.damage.slots, (s.vslot k).owner = some h := by
  simp [htaken.hurt, hurtSlots]

theorem CutTaken.mem_of_whole (hwhole : i.hurt = false) : e.mem = s.mem := by
  have hnone : s.hurtSlots h = [] := by simpa [htaken.hurt] using hwhole
  rw [htaken.mem, hurtSlotsLost, hnone, List.foldl_nil]

end

end

end State
end Sys2Proof.Machine
end

section
/-! PROOFS (14 R303 to R306): intervals that become durable, held writes and rollback. -/

namespace Sys2Proof.Machine
namespace State

section
variable {s : State} {h : Nat}

/-! ### A page that is taken, and an interval that becomes durable (14 R303, R304) -/

section
variable (hidle : (s.ctx h).alm.streaming = none)
include hidle

theorem takePage_idle (k : Nat) : s.takePage h k = s := by rw [takePage, hidle]

theorem heldRelease_idle (page : Nat) : s.heldRelease h page = s.unhold page := by
  rw [heldRelease, takePage_idle hidle, takePage_idle hidle]

theorem durable_idle : s.durable h = s := by rw [durable, hidle]

end

/-- What keeps an interval from the tier (14 R303; 22 R400): a lost port, damage to what is to be written, a key that is gone. -/
def unkept (s : State) (h : Nat) (iv : Interval) : Prop :=
  s.tierLost = true ∨ iv.hurt = true ∨ (∃ k ∈ iv.closed, iv.pages.find k = none ∧ s.pageHurt k = true) ∨
    s.kidBad (2 ^ 47) (s.ctx h).kidreg = true

/-- The chain after the oldest intervals are merged to make room. -/
def roomyChain (s : State) (h : Nat) (iv : Interval) : List Interval :=
  mergeChain (acbTierSize (s.ctx h).alm.acb) iv.units (s.ctx h).alm.chain.length (s.ctx h).alm.chain

/-- An interval that the region takes: its pages are written, then its adds are made and what waited goes on. -/
def makeDurable (s : State) (h : Nat) (iv : Interval) : State :=
  let e := (iv.closed.foldl (fun (e : State) k => e.takePage h k) (s.charge (s.almDie h) 0 (2 ^ 16 * iv.units))).writeRegion h
  let e := (e.updAlm h fun z => { z with
    chain := s.roomyChain h iv ++ [(e.ctx h).alm.streaming.getD iv], nextSeq := z.nextSeq + 1, streaming := none
    staged := 0 }).releaseClosed iv.closed
  let e := if acbDurctr (s.ctx h).alm.acb = 0#64 then e
    else e.agentAdd (e.almCore h) h .count (acbDurctr (s.ctx h).alm.acb) 1 5
  let e := e.ckptAdds h iv.owed
  if (e.ctx h).alm.due = true ∨ (e.ctx h).alm.waiting ≠ [] then e.post (.cut h) else e

section
variable {iv : Interval} (hstream : (s.ctx h).alm.streaming = some iv)
include hstream

theorem durable_unkept (hunkept : s.unkept h iv) : s.durable h = s.abandon h 0x40 := by
  rw [durable, hstream]
  refine if_pos ?_
  simpa [unkept, or_assoc] using hunkept

section
variable (hkept : ¬ s.unkept h iv)
include hkept

theorem durable_kept : s.durable h =
    if !s.regionOk (s.ctx h).alm.acb then s.abandon h 0x41
    else if s.budgetOut (s.almDie h) 0 then s.hold (budgetKey (s.almDie h) 0) false (.intervalDurable h)
    else if acbTierSize (s.ctx h).alm.acb < ((s.roomyChain h iv).map Interval.units).foldl (· + ·) 0 + iv.units then
      (s.updAlm h fun z => { z with chain := s.roomyChain h iv }).abandon h 0x41
    else s.makeDurable h iv := by
  rw [durable, hstream]
  refine (if_neg ?_).trans ?_
  · simpa [unkept, or_assoc] using hkept
  · simp only [makeDurable, ← List.isEmpty_eq_false_iff, Bool.or_eq_true, Bool.not_eq_true']
    rfl

theorem durable_noRegion (hregion : s.regionOk (s.ctx h).alm.acb = false) : s.durable h = s.abandon h 0x41 :=
  (durable_kept hstream hkept).trans (if_pos (by simp [hregion]))

variable (hregion : s.regionOk (s.ctx h).alm.acb = true)
include hregion

theorem durable_held (hbudget : s.budgetOut (s.almDie h) 0 = true) :
    s.durable h = s.hold (budgetKey (s.almDie h) 0) false (.intervalDurable h) :=
  (durable_kept hstream hkept).trans ((if_neg (by simp [hregion])).trans (if_pos hbudget))

variable (hbudget : s.budgetOut (s.almDie h) 0 = false)
include hbudget

theorem durable_noRoom
    (hroom : acbTierSize (s.ctx h).alm.acb < ((s.roomyChain h iv).map Interval.units).foldl (· + ·) 0 + iv.units) :
    s.durable h = (s.updAlm h fun z => { z with chain := s.roomyChain h iv }).abandon h 0x41 :=
  (durable_kept hstream hkept).trans
    ((if_neg (by simp [hregion])).trans ((if_neg (by simp [hbudget])).trans (if_pos hroom)))

theorem durable_fits
    (hroom : ((s.roomyChain h iv).map Interval.units).foldl (· + ·) 0 + iv.units ≤ acbTierSize (s.ctx h).alm.acb) :
    s.durable h = s.makeDurable h iv :=
  (durable_kept hstream hkept).trans
    ((if_neg (by simp [hregion])).trans ((if_neg (by simp [hbudget])).trans (if_neg hroom.not_gt)))

end

end

/-! ### Rollback (14 R305, R306) -/

/-- The end of a rollback: its code, and the add to RBCTR. -/
def rollbackEnds (s : State) (h : Nat) (e : State) (code : Nat) : State :=
  let e := e.updCtx h fun y => { y with rbStat := BitVec.ofNat 8 code }
  match e.physAdd (s.ctx h).rbctr 1 with
  | some e => e
  | none => e.setDevsts 7

/-- Some partition runs the context, has it stopped in place, or holds it as its standby. -/
def placed (s : State) (h : Nat) : Prop :=
  ∃ e ∈ s.parts, e.2.running = some h ∨ e.2.inPlace = some h ∨ ∃ y, e.2.standby = some y ∧ y.ctx = h

/-- Device state as an interval holds it: the slots, launches, queues, trace runs and rings of the context. -/
def restore (r : State) (h : Nat) (iv : Interval) : State :=
  let mine (e : Nat × VSlot) : Bool := (r.vigil.slots.get {} e.1).owner = some h
  let slots : Map VSlot := (iv.slots.filter mine).foldl (fun (m : Map VSlot) e => m.set e.1 e.2) r.vigil.slots
  let put {α : Type} (all : Map α) (own : α → Bool) (old : Map α) : Map α :=
    old.foldl (fun (m : Map α) e => m.set e.1 e.2) (all.filter fun e => !own e.2)
  let e : State := { r with
    vigil := { r.vigil with slots := slots }
    launches := put r.launches (fun v => v.ctx = h) iv.launches
    queues := put r.queues (fun v => v.ctx = h) iv.queues
    runs := put r.runs (fun v => v.ctx = h) iv.runs
    rings := put r.rings (fun v => v.ctx = h) iv.rings }
  e.updCtx h fun y => { y with
    images := y.images.map (fun e => (e.1, { e.2 with loaded := true })), replayPos := 0, replayStopped := false }

theorem placed_iff : s.placed h ↔
    (s.parts.any fun e => e.2.running = some h || e.2.inPlace = some h || e.2.standby.any fun y => y.ctx = h) = true := by
  simp only [placed, List.any_eq_true, Bool.or_eq_true, decide_eq_true_eq, Option.any_eq_true, or_assoc]

theorem rollback_placed (hplaced : s.placed h) : s.rollback h = s.rollbackEnds h s 1 := if_pos (placed_iff.mp hplaced)

section
variable (hfree : ¬ s.placed h)
include hfree

theorem rollback_free : s.rollback h =
    match (s.ctx h).alm.chain.find? fun i => i.seq = (s.ctx h).rbint with
    | none => s.rollbackEnds h s 2
    | some iv =>
      let (r, whole) := s.rewritePages h iv.seq ((s.ctx h).alm.writtenSince iv.seq)
      if !whole || r.intervalHurt h iv.seq then s.rollbackEnds h r 4 else
      let (v, code) := if (s.ctx h).rbtab % 64 = 0 && (s.ctx h).rbtab + 256 ≤ deviceEnd
        then (r.restore h iv).writeImages h (s.ctx h).rbtab iv.parts else (r.restore h iv, 3)
      s.rollbackEnds h v code :=
  (if_neg (mt placed_iff.mpr hfree)).trans rfl

theorem rollback_unknown (hno : ((s.ctx h).alm.chain.find? fun i => i.seq = (s.ctx h).rbint) = none) :
    s.rollback h = s.rollbackEnds h s 2 := by
  rw [rollback_free hfree, hno]

section
variable {iv : Interval} {r : State} {whole : Bool}
  (hfind : ((s.ctx h).alm.chain.find? fun i => i.seq = (s.ctx h).rbint) = some iv)
  (hpages : s.rewritePages h iv.seq ((s.ctx h).alm.writtenSince iv.seq) = (r, whole))
include hfind hpages

theorem rollback_known : s.rollback h =
    if !whole || r.intervalHurt h iv.seq then s.rollbackEnds h r 4 else
    let (v, code) := if (s.ctx h).rbtab % 64 = 0 && (s.ctx h).rbtab + 256 ≤ deviceEnd
      then (r.restore h iv).writeImages h (s.ctx h).rbtab iv.parts else (r.restore h iv, 3)
    s.rollbackEnds h v code := by
  rw [rollback_free hfree, hfind]
  dsimp only
  rw [hpages]

theorem rollback_damaged (hbad : whole = false ∨ r.intervalHurt h iv.seq = true) : s.rollback h = s.rollbackEnds h r 4 :=
  (rollback_known hfree hfind hpages).trans (if_pos (by simpa using hbad))

variable (hwhole : whole = true) (hsound : r.intervalHurt h iv.seq = false)
include hwhole hsound

theorem rollback_restores {v : State} {code : Nat} (htable : (s.ctx h).rbtab % 64 = 0 ∧ (s.ctx h).rbtab + 256 ≤ deviceEnd)
    (himages : (r.restore h iv).writeImages h (s.ctx h).rbtab iv.parts = (v, code)) :
    s.rollback h = s.rollbackEnds h v code := by
  rw [rollback_known hfree hfind hpages, if_neg (by simp [hwhole, hsound]), if_pos (by simpa using htable), himages]

theorem rollback_noTable (htable : (s.ctx h).rbtab % 64 ≠ 0 ∨ deviceEnd < (s.ctx h).rbtab + 256) :
    s.rollback h = s.rollbackEnds h (r.restore h iv) 3 := by
  rw [rollback_known hfree hfind hpages, if_neg (by simp [hwhole, hsound]), if_neg (by simpa [imp_iff_not_or] using htable)]

end

end

end

/-- Settles O48: one equation per event and case, above. -/
theorem almanacEvents : Obligations.AlmanacEvents := by
  intro s r h p page n iv b hp x a set asked held die idle fin here
  refine ⟨almPeriod_read, fun hunread => ⟨fun _ => almPeriod_error hunread, almPeriod_ok hunread⟩,
    fun hperiod => ⟨fun hn hdue => congrArg _ (periodDue_asks hperiod hn hdue),
      fun hno => congrArg _ (periodDue_early hperiod hno)⟩,
    fun hno => congrArg _ (beginCut_notNow hno), ?begin, ?late, ?reply, ?idle, rfl, ?durable,
    fun hplaced => congrArg _ (rollback_placed hplaced), fun hfree hno => congrArg _ (rollback_unknown hfree hno), ?rollback⟩
  case begin =>
    intro hcut hstream hask
    refine ⟨fun hpaused => congrArg _ (beginCut_paused hcut hstream hask hpaused), fun hruns =>
      ⟨fun hoff => congrArg _ (beginCut_off hcut hstream hask hruns hoff), fun hblock hfeature =>
        ⟨fun f hread => congrArg _ (beginCut_unread hcut hstream hask hruns hblock hfeature hread), ?_⟩⟩⟩
    intro hread e
    exact ⟨fun hen => congrArg _ (beginCut_disabled hcut hstream hask hruns hblock hfeature hread hen),
      fun hen => congrArg _ (beginCut_pauses hcut hstream hask hruns hblock hfeature hread hen)⟩
  case late => exact fun hcut => goes_of_exists hp.le.not_gt rfl (cutReplyFrom_late hcut)
  case reply =>
    intro hcut
    refine ⟨fun hsome hmem => goes_of_exists hp.le.not_gt rfl (cutReplyFrom_again hcut hsome hmem),
      fun hmem hbusy => goes_of_exists hp.le.not_gt rfl (cutReplyFrom_waits hcut hmem hbusy), ?_,
      fun hnone => goes_of_exists hp.le.not_gt rfl (cutReplyFrom_none hcut hnone), ?_⟩
    · intro hmem hdrained e
      have hreplies := cutReplyFrom_replies hcut hmem hdrained
      exact ⟨fun hmore => goes_of_exists hp.le.not_gt rfl (hreplies.trans (if_neg (by simpa using hmore))),
        fun hlast => goes_of_exists hp.le.not_gt rfl (hreplies.trans (if_pos hlast))⟩
    · intro hunheld
      obtain ⟨e, i, hfinish, htaken⟩ := finishCut_unheld hunheld
      obtain ⟨staged, halm⟩ := htaken.alm
      refine ⟨e, i, hfinish, ?_, htaken.seq, htaken.closed, htaken.owed, htaken.hurt_iff, htaken.mem_of_whole⟩
      rw [halm]
      exact ⟨rfl, rfl, rfl, rfl, rfl, rfl, rfl⟩
  case idle => exact fun hidle => ⟨congrArg _ (heldRelease_idle hidle page), congrArg _ (durable_idle hidle)⟩
  case durable =>
    intro hstream unkept room chain used
    refine ⟨fun hunkept => congrArg _ (durable_unkept hstream hunkept),
      fun hkept hregion => congrArg _ (durable_noRegion hstream hkept hregion),
      fun hkept hregion hbudget => congrArg _ (durable_held hstream hkept hregion hbudget),
      fun hkept hregion hbudget => ⟨fun hroom => congrArg _ (durable_noRoom hstream hkept hregion hbudget hroom), fun hroom => ?_⟩⟩
    exact congrArg _ (durable_fits hstream hkept hregion hbudget hroom)
  case rollback =>
    intro whole hfree hfind hpages
    refine ⟨fun hbad => congrArg _ (rollback_damaged hfree hfind hpages hbad), fun hwhole hsound => ?_⟩
    intro mine slots put e e'
    exact ⟨fun htable v code himages => congrArg _ (rollback_restores hfree hfind hpages hwhole hsound htable himages),
      fun htable => congrArg _ (rollback_noTable hfree hfind hpages hwhole hsound htable)⟩

end State
end Sys2Proof.Machine
end
